-- ==== Sys2Proof/Word.lean ====
section
/-! DEFINITION. The words of the machine (00_scope.md R7: values are integers cut only by explicit slices). -/

namespace Sys2Proof

/-- One byte of memory. -/
abbrev Byte := BitVec 8

/-- A 64-bit register, address or context-image word. -/
abbrev Word := BitVec 64

/-- A register number (R34). -/
abbrev Reg := BitVec 5

/-- Storage with a key: the entries that differ from zero, by rising key (the canonical form is `Machine.swf`). -/
abbrev Sparse (w : Nat) := List (Nat × BitVec w)

end Sys2Proof
end

