-- ==== Sys2Proof/Machine/Sparse.lean ====
section
/-! DEFINITION. Storage in canonical form: entries by strictly rising key, none equal to zero, which is what an
unlisted key reads as (R424 for memory, R74 for stage memory, log 6). -/

namespace Sys2Proof.Machine

/-- What key `k` holds. -/
def sget {w : Nat} (m : Sparse w) (k : Nat) : BitVec w :=
  match m with
  | [] => 0
  | (k', v) :: t => if k = k' then v else if k < k' then 0 else sget t k

/-- Writes `v` at key `k`; writing zero removes the entry. -/
def sset {w : Nat} (m : Sparse w) (k : Nat) (v : BitVec w) : Sparse w :=
  match m with
  | [] => if v = 0 then [] else [(k, v)]
  | (k', v') :: t =>
    if k < k' then (if v = 0 then (k', v') :: t else (k, v) :: (k', v') :: t)
    else if k = k' then (if v = 0 then t else (k, v) :: t)
    else (k', v') :: sset t k v

/-- Every key is above `lo`, keys rise, and no entry is zero. -/
def swfFrom {w : Nat} (m : Sparse w) (lo : Nat) : Bool :=
  match m with
  | [] => true
  | (k, v) :: t => lo ≤ k && v ≠ 0 && swfFrom t (k + 1)

/-- The canonical form. -/
def swf {w : Nat} (m : Sparse w) : Bool := swfFrom m 0

/-- The canonical form of memory. -/
def Memory.wf (m : Sparse 8) : Bool := swf m

/-- Drops the entries with a key in [lo, lo + n). -/
def sclear {w : Nat} (m : Sparse w) (lo n : Nat) : Sparse w := m.filter fun e => !(lo ≤ e.1 && e.1 < lo + n)

/-- The `n` bytes from `a`, little-endian (00_scope.md R7). -/
def bytesGet (m : Sparse 8) (a : Nat) : Nat → Nat
  | 0 => 0
  | n + 1 => (sget m a).toNat + 256 * bytesGet m (a + 1) n

/-- Writes the low `n` bytes of `v` from `a`, little-endian. -/
def bytesSet (m : Sparse 8) (a v : Nat) : Nat → Sparse 8
  | 0 => m
  | n + 1 => sset (bytesSet m (a + 1) (v / 256) n) a (BitVec.ofNat 8 v)

/-- The list of `n` bytes from `a`. -/
def byteList (m : Sparse 8) (a : Nat) : Nat → List Byte
  | 0 => []
  | n + 1 => sget m a :: byteList m (a + 1) n

/-- Writes a list of bytes from `a`. -/
def byteListSet (m : Sparse 8) (a : Nat) : List Byte → Sparse 8
  | [] => m
  | b :: t => byteListSet (sset m a b) (a + 1) t

/-- The entry with key `k`. -/
def kfind {α : Type} (key : α → Nat) (l : List α) (k : Nat) : Option α := l.find? fun x => key x = k

/-- Applies `f` to the entry with key `k`. -/
def kmod {α : Type} (key : α → Nat) (l : List α) (k : Nat) (f : α → α) : List α :=
  l.map fun x => if key x = k then f x else x

/-- Drops the entry with key `k`. -/
def kdel {α : Type} (key : α → Nat) (l : List α) (k : Nat) : List α := l.filter fun x => key x ≠ k

/-- Inserts or replaces by rising key. -/
def kput {α : Type} (key : α → Nat) (l : List α) (x : α) : List α :=
  match l with
  | [] => [x]
  | y :: t => if key x < key y then x :: y :: t else if key x = key y then x :: t else y :: kput key t x

/-- Applies `f` to element `i`. -/
def lmod {α : Type} (l : List α) (i : Nat) (f : α → α) : List α :=
  match l, i with
  | [], _ => []
  | x :: t, 0 => f x :: t
  | x :: t, i + 1 => x :: lmod t i f

/-- The first `n` naturals from `a`. -/
def upto (a : Nat) : Nat → List Nat
  | 0 => []
  | n + 1 => a :: upto (a + 1) n

end Sys2Proof.Machine
end

