-- ==== Sys2Proof/Machine/Bits.lean ====
section
/-! DEFINITION. Bit fields, extension and lists of bytes (00_scope.md R7: [h:l] slices, SignExt, ZeroExt). -/

namespace Sys2Proof.Machine

/-- v[h:l] as a number. -/
def bits (v : Nat) (h l : Nat) : Nat := v / 2 ^ l % 2 ^ (h + 1 - l)

/-- w[h:l] of a word, as a number. -/
def wbits (v : Word) (h l : Nat) : Nat := bits v.toNat h l

/-- Bit `i` of a word. -/
def wbit (v : Word) (i : Nat) : Bool := v.getLsbD i

/-- A word from a number. -/
def w64 (n : Nat) : Word := BitVec.ofNat 64 n

/-- SignExt(v, 64) of the low `n` bits. -/
def sext (n v : Nat) : Word :=
  let x := v % 2 ^ n
  if n ≠ 0 && 2 ^ (n - 1) ≤ x then BitVec.ofInt 64 ((x : Int) - (2 ^ n : Nat)) else BitVec.ofNat 64 x

/-- A negative status value. -/
def neg (n : Nat) : Word := BitVec.ofInt 64 (-(n : Int))

/-- `v` with bits [h:l] replaced by `x`. -/
def insert (v : Nat) (h l x : Nat) : Nat := v - bits v h l * 2 ^ l + x % 2 ^ (h + 1 - l) * 2 ^ l

/-- A word with bits [h:l] replaced. -/
def winsert (v : Word) (h l x : Nat) : Word := w64 (insert v.toNat h l x)

/-- 1 or 0. -/
def b2n (b : Bool) : Nat := if b then 1 else 0

/-- The low `n` bytes of a number, lowest first. -/
def toBytes (v : Nat) : Nat → List Byte
  | 0 => []
  | n + 1 => BitVec.ofNat 8 v :: toBytes (v / 256) n

/-- The number of a list of bytes, lowest first. -/
def ofBytes : List Byte → Nat
  | [] => 0
  | b :: t => b.toNat + 256 * ofBytes t

/-- Rounded up to a multiple of `k`. -/
def roundUp (n k : Nat) : Nat := (n + k - 1) / k * k

/-- Number of set bits below `n`. -/
def popcount (v : Nat) : Nat → Nat
  | 0 => 0
  | n + 1 => v / 2 ^ n % 2 + popcount v n

/-- The 64 B line of an address. -/
def lineOf (a : Nat) : Nat := a / 64

/-- The 4 KiB page of an address. -/
def pageOf (a : Nat) : Nat := a / 4096

/-- Canonical Sv57 address: bits [63:57] equal bit 56 (R377). -/
def canonical (va : Word) : Bool := sext 57 va.toNat = va

/-- Removes repeats, keeping the first of each. -/
def dedup (l : List Nat) : List Nat := l.foldr (fun x acc => if acc.contains x then acc else x :: acc) []

/-- Inserts into a rising list without repeats. -/
def insSorted (l : List Nat) (x : Nat) : List Nat :=
  match l with
  | [] => [x]
  | y :: t => if x < y then x :: y :: t else if x = y then y :: t else y :: insSorted t x

/-- The element with the greatest key; the first of equals. -/
def maxBy {α : Type} (key : α → Nat) : List α → Option α
  | [] => none
  | x :: t =>
    match maxBy key t with
    | none => some x
    | some y => if key x < key y then some y else some x

/-- The element with the least key; the first of equals. -/
def minBy {α : Type} (key : α → Nat) : List α → Option α
  | [] => none
  | x :: t =>
    match minBy key t with
    | none => some x
    | some y => if key y < key x then some y else some x

/-- Insertion into a list sorted by `le`. -/
def insertBy {α : Type} (le : α → α → Bool) (x : α) : List α → List α
  | [] => [x]
  | y :: t => if le x y then x :: y :: t else y :: insertBy le x t

/-- Insertion sort, stable. -/
def sortBy {α : Type} (le : α → α → Bool) : List α → List α
  | [] => []
  | x :: t => insertBy le x (sortBy le t)

end Sys2Proof.Machine
end

