-- ==== Sys2Proof/Syntax.lean ====
section
/-! DEFINITION. Syntax: one constructor of `Instr` per row of spec/opcode_table.json. The rows with an encoding are
instructions of a strand or of an L-core; the rows without one are the hardware's own steps and the inputs from
outside (95_what_each_step_holds.md), and their arguments say which unit acts and what was measured or written. -/

namespace Sys2Proof

/-- Scope suffixes (R49, R219). -/
inductive Scope | cw | pd | di | pk | sy
  deriving DecidableEq, Repr

/-- Integer type suffixes of the atomics (R219). -/
inductive ITy | i32 | i64 | n32 | n64
  deriving DecidableEq, Repr

/-- Operators of `amo.` and `red.` (Table 8.3). -/
inductive AOp | swap | add | and | or | xor | min | max
  deriving DecidableEq, Repr

/-- Operators of the lane-group integer forms (Table 5.2). -/
inductive GOp | add | and | or | xor | minI | maxI | minN | maxN
  deriving DecidableEq, Repr

/-- FP32 or FP64. -/
inductive FPrec | s | d
  deriving DecidableEq, Repr

/-- Element formats with a scale (Tables 6.3 and 6.5). -/
inductive Elt | e4m3 | e5m2 | e3m2 | e2m3 | e2m1 | i8 | i4
  deriving DecidableEq, Repr

/-- Formats of a converting copy (Table 9.5). -/
inductive CFmt | elt (e : Elt) | bf16 | f32
  deriving DecidableEq, Repr

/-- Saturating types of `fx.adds` and `fx.subs` (R156). -/
inductive STy | i64 | n64 | i32 | n32
  deriving DecidableEq, Repr

/-- Dot forms (R157). -/
inductive DotForm | i8 | n8 | su | i4
  deriving DecidableEq, Repr

/-- Width codes of the loads of custom-2 (Table 2.6). -/
inductive LWidth | i8 | i16 | i32 | i64 | n8 | n16 | n32
  deriving DecidableEq, Repr

/-- Widths of the stores of custom-2 (Table 2.6). -/
inductive SWidth | i8 | i16 | i32 | i64
  deriving DecidableEq, Repr

/-- Form of a transfer: bytes unchanged, converting under one scale, converting under a scale table (R240). -/
inductive CopyForm
  | plain
  | conv (src dst : CFmt) (g : BitVec 8)
  | mx (src dst : CFmt) (rx : Reg)
  deriving DecidableEq, Repr

/-- Form of a gather or scatter (R248). -/
inductive RowForm
  | plain
  | conv (src dst : CFmt) (g : BitVec 8)
  deriving DecidableEq, Repr

/-- Matrix formats (Table 10.1). -/
inductive MxFmt | bf16 | f32 | f64
  deriving DecidableEq, Repr

/-- Tile heights M and widths N (Table 10.4). -/
inductive Dim | d16 | d32 | d64 | d128
  deriving DecidableEq, Repr

/-- Operands of the matrix forms: format, z, shape, register number of cvn and the registers (Table 10.3). -/
structure MxArgs where
  fmt : MxFmt
  z : Bool
  m : Dim
  n : Dim
  cv : BitVec 4
  rd : Reg
  a : Reg
  b : Reg
  p : Reg
  x : Reg
  deriving DecidableEq, Repr

/-- Operands of a drain (Table 11.3); `h1` is h - 1. -/
structure DrnArgs where
  prog : BitVec 2
  cv : BitVec 4
  h1 : BitVec 5
  w : Dim
  rd : Reg
  acc : Reg
  b0 : Reg
  b1 : Reg
  x : Reg
  deriving DecidableEq, Repr

/-- Standard loads (R187). -/
inductive LoadKind | lb | lh | lw | ld | lbu | lhu | lwu | flh | flw | fld
  deriving DecidableEq, Repr

/-- Standard stores (R187). -/
inductive StoreKind | sb | sh | sw | sd | fsh | fsw | fsd
  deriving DecidableEq, Repr

/-- Two-operand integer operations of RV64I, M, Zba, Zbb, Zbs and Zicond (R145). -/
inductive AluOp
  | add | sub | sll | slt | sltu | xor | srl | sra | or | and
  | addw | subw | sllw | srlw | sraw
  | mul | mulh | mulhsu | mulhu | div | divu | rem | remu
  | mulw | divw | divuw | remw | remuw
  | sh1add | sh2add | sh3add | addUw | sh1addUw | sh2addUw | sh3addUw
  | andn | orn | xnor | max | maxu | min | minu | rol | ror | rolw | rorw
  | bclr | bext | binv | bset | czeroEqz | czeroNez
  deriving DecidableEq, Repr

/-- Operations of RV64I, Zba, Zbb and Zbs with an immediate second operand. -/
inductive AluImm
  | addi | slti | sltiu | xori | ori | andi | slli | srli | srai
  | addiw | slliw | srliw | sraiw | slliUw | rori | roriw | bclri | bexti | binvi | bseti
  deriving DecidableEq, Repr

/-- One-operand operations of Zbb. -/
inductive AluUn | clz | ctz | cpop | clzw | ctzw | cpopw | sextB | sextH | zextH | rev8 | orcB
  deriving DecidableEq, Repr

/-- The standard integer instructions of the row STANDARD_ALU. -/
inductive AluForm
  | rr (op : AluOp) (rd rs1 rs2 : Reg)
  | ri (op : AluImm) (rd rs1 : Reg) (imm : BitVec 12)
  | un (op : AluUn) (rd rs1 : Reg)
  | lui (rd : Reg) (imm : BitVec 20)
  | auipc (rd : Reg) (imm : BitVec 20)
  | mopr (n : BitVec 5) (rd rs1 : Reg)
  | moprr (n : BitVec 3) (rd rs1 rs2 : Reg)
  | cmop (n : BitVec 3)
  deriving DecidableEq, Repr

/-- F and D arithmetic with two operands. -/
inductive FpBin | add | sub | mul | div
  deriving DecidableEq, Repr

/-- The four fused forms. -/
inductive FpFma | madd | msub | nmsub | nmadd
  deriving DecidableEq, Repr

/-- Sign injection. -/
inductive FpSgn | j | jn | jx
  deriving DecidableEq, Repr

/-- Comparisons. -/
inductive FpCmp | le | lt | eq
  deriving DecidableEq, Repr

/-- Integer sides of the conversions. -/
inductive FpInt | w | wu | l | lu
  deriving DecidableEq, Repr

/-- Conversions between floating-point formats of D, Zfhmin and Zfbfmin. -/
inductive FpCvt | sd | ds | sh | hs | dh | hd | sbf | bfs
  deriving DecidableEq, Repr

/-- Moves between the register files. -/
inductive FpMv | xh | hx | xw | wx | xd | dx
  deriving DecidableEq, Repr

/-- The standard floating-point instructions of the row STANDARD_FP (R146). -/
inductive FpForm
  | bin (op : FpBin) (p : FPrec) (rm : BitVec 3) (rd rs1 rs2 : Reg)
  | sqrt (p : FPrec) (rm : BitVec 3) (rd rs1 : Reg)
  | fma (op : FpFma) (p : FPrec) (rm : BitVec 3) (rd rs1 rs2 rs3 : Reg)
  | sgnj (op : FpSgn) (p : FPrec) (rd rs1 rs2 : Reg)
  | minmax (isMax : Bool) (p : FPrec) (rd rs1 rs2 : Reg)
  | cmp (op : FpCmp) (p : FPrec) (rd rs1 rs2 : Reg)
  | cls (p : FPrec) (rd rs1 : Reg)
  | toInt (t : FpInt) (p : FPrec) (rm : BitVec 3) (rd rs1 : Reg)
  | ofInt (t : FpInt) (p : FPrec) (rm : BitVec 3) (rd rs1 : Reg)
  | cvt (k : FpCvt) (rm : BitVec 3) (rd rs1 : Reg)
  | mv (k : FpMv) (rd rs1 : Reg)
  deriving DecidableEq, Repr

/-- Branch conditions. -/
inductive BrCond | eq | ne | lt | ge | ltu | geu
  deriving DecidableEq, Repr

/-- Branches and jumps (R103). -/
inductive BranchForm
  | br (c : BrCond) (rs1 rs2 : Reg) (off : BitVec 13)
  | jal (rd : Reg) (off : BitVec 21)
  | jalr (rd rs1 : Reg) (imm : BitVec 12)
  deriving DecidableEq, Repr

/-- AMOs of the A extension (R214). -/
inductive StdAmo | swap | add | xor | and | or | min | max | minu | maxu
  deriving DecidableEq, Repr

/-- Widths of Zacas. -/
inductive CasW | w | d | q
  deriving DecidableEq, Repr

/-- CSR operations (Zicsr). -/
inductive CsrOp | rw | rs | rc
  deriving DecidableEq, Repr

/-- What an access asks of translation (R176); `hlvx` is the load of an L-core that needs execute permission. -/
inductive AccKind | fetch | load | store | hlvx
  deriving DecidableEq, Repr

/-- Where an uncorrectable error in core storage lies (R387). -/
inductive UeSite
  | stageRow (crew row : Nat)
  | accElement (crew idx : Nat)
  | contextLine (image line : Nat)
  deriving DecidableEq, Repr

/-- An access that arrives from outside: an address, the bytes written if it is a write, and its length. -/
structure BusReq where
  pa : Nat
  write : Bool
  data : List Byte
  len : Nat
  deriving DecidableEq, Repr

/-- What a device asks for: an access, a translation (ATS), or what a message brings (R30). -/
inductive DevForm | access | translation | message
  deriving DecidableEq, Repr

/-- A request of a device behind a PCIe port: the port, its device identifier, PASID, privilege, whether a read is for
execution, and whether the device had the address translated before (ATS); the access bears the device's own address (R30). -/
structure DevReq where
  form : DevForm := .access
  port : Nat
  dev : Nat
  pid : Option Nat := none
  priv : Bool := false
  exec : Bool := false
  translated : Bool := false
  req : BusReq
  deriving DecidableEq, Repr

/-- An access by another package of the domain through its window (R333). -/
structure PeerReq where
  peer : Nat
  req : BusReq
  deriving DecidableEq, Repr

/-- Kind of a remote access (R339). -/
inductive RemoteKind | read | write | add (ty : BitVec 8)
  deriving DecidableEq, Repr

/-- A remote access that this package serves (R339). -/
structure RemoteReq where
  kind : RemoteKind
  region : BitVec 8
  off : BitVec 48
  key : BitVec 32
  len : Nat
  data : List Byte
  /-- Bytes of the data that came from poisoned lines (R344). -/
  marks : List Nat := []
  deriving DecidableEq, Repr

inductive Instr
  -- migration, fork, strand (Table 3.4)
  | mgGo (rd a : Reg)
  | mgHome
  | fkFlt (rd a b : Reg)
  | fkJoin (rd a : Reg)
  | fkJoinTry (rd a : Reg)
  | fkStop (rd a : Reg)
  | fkStopPre (rd a : Reg)
  | fkStopRsm (rd a : Reg)
  | fkQry (rd a b : Reg)
  | thParkMem (rd a b : Reg)
  | thParkBat (rd a : Reg)
  | thParkTm (rd a : Reg)
  | thYield
  | thPause (imm : BitVec 9)
  -- steps of waiting, resuming, placing, stopping
  | pauseExpiry (k : Nat)
  | parkSpinTest (k : Nat)
  | strandPark (k : Nat)
  | watchRetest (line : Nat)
  | strandResume (k : Nat)
  | placementOffer
  | contextLineFetch (k line : Nat)
  | homeNoticePost (d : Nat)
  | strandStop (k : Nat)
  | recallWrite (d : Nat) (v : Word)
  | recallTakesEffect (k : Nat)
  | killWrite (d : Nat) (v : Word)
  | framefreeWrite (d : Nat) (v : Word)
  | issueCycle (core quad : Nat)
  | loadDataReturn (k reg : Nat)
  -- convergence (Table 4.5)
  | cvJoin (rd : Reg) (n : BitVec 4)
  | cvJoinCrew (rd : Reg) (n : BitVec 4)
  | cvQuit (rd : Reg) (n : BitVec 4)
  | cvBar (rd : Reg) (n : BitVec 4)
  | cvBarRx (rd : Reg) (n : BitVec 4)
  | cvArv (rd : Reg) (n : BitVec 4)
  | cvArvRx (rd : Reg) (n : BitVec 4)
  | cvWt (rd a : Reg) (n : BitVec 4)
  | cvWtTry (rd a : Reg) (n : BitVec 4)
  | cvQry (rd a : Reg) (n : BitVec 4)
  | barrierPhaseRelease (crew n : Nat)
  -- lane groups (Tables 5.1 to 5.3)
  | gpShflIdx (rd a b : Reg) (n : BitVec 4)
  | gpShflXor (rd a b : Reg) (n : BitVec 4)
  | gpShflUp (rd a b : Reg) (n : BitVec 4)
  | gpShflDn (rd a b : Reg) (n : BitVec 4)
  | gpBcst (rd a b : Reg) (n : BitVec 4)
  | gpAll (rd a : Reg) (n : BitVec 4)
  | gpAny (rd a : Reg) (n : BitVec 4)
  | gpUni (rd a : Reg) (n : BitVec 4)
  | gpBlt (rd a : Reg) (n : BitVec 4)
  | gpPcnt (rd a : Reg) (n : BitVec 4)
  | gpMtchLdr (rd a : Reg) (n : BitVec 4)
  | gpMtchCnt (rd a : Reg) (n : BitVec 4)
  | gpRed (op : GOp) (rd a : Reg) (n : BitVec 4)
  | gpScan (op : GOp) (rd a : Reg) (n : BitVec 4)
  | gpXscan (op : GOp) (rd a : Reg) (n : BitVec 4)
  | gpRedAddF (p : FPrec) (rd a : Reg) (n : BitVec 4)
  | gpRedMinF (p : FPrec) (rd a : Reg) (n : BitVec 4)
  | gpRedMaxF (p : FPrec) (rd a : Reg) (n : BitVec 4)
  | gpScanAddF (p : FPrec) (rd a : Reg) (n : BitVec 4)
  | gpXscanAddF (p : FPrec) (rd a : Reg) (n : BitVec 4)
  -- literal forms (Table 2.8)
  | fxLi (rd : Reg) (lit : BitVec 32)
  | fxLiu (rd : Reg) (lit : BitVec 32)
  | fxLih (rd : Reg) (lit : BitVec 32)
  | fxAddl (rd : Reg) (lit : BitVec 32)
  | fxAndl (rd : Reg) (lit : BitVec 32)
  | fxOrl (rd : Reg) (lit : BitVec 32)
  | fxXorl (rd : Reg) (lit : BitVec 32)
  | fxAuipcl (rd : Reg) (lit : BitVec 32)
  | fxLis (rd : Reg) (lit : BitVec 32)
  | fxLid (rd : Reg) (lit : BitVec 32)
  -- arithmetic (Tables 6.4 to 6.8)
  | fxAdds (t : STy) (rd a b : Reg)
  | fxSubs (t : STy) (rd a b : Reg)
  | fxDot (v : DotForm) (rd a b : Reg)
  | fxCvtBf16F64 (rd a : Reg)
  | fxCvtF64Bf16 (rd a : Reg)
  | fxCvtBf16F16 (rd a : Reg)
  | fxCvtF16Bf16 (rd a : Reg)
  | fxPkBf16 (rd a b : Reg)
  | fxUpkLo (rd a : Reg)
  | fxUpkHi (rd a : Reg)
  | fxPaddBf16 (rd a b : Reg)
  | fxPsubBf16 (rd a b : Reg)
  | fxPmulBf16 (rd a b : Reg)
  | fxPfmaBf16 (rd a b : Reg)
  | fxPdotF32Bf16 (rd a b : Reg)
  | fxXp (f : Elt) (rd a b : Reg)
  | fxNr (f : Elt) (rd a b : Reg)
  | fxSclF32 (rd a b : Reg)
  | fxSclF64 (rd a b : Reg)
  | fxXpnF32 (rd a : Reg)
  | fxXpnF64 (rd a : Reg)
  | fxExp2F32 (rd a : Reg)
  | fxLog2F32 (rd a : Reg)
  | fxRcpF32 (rd a : Reg)
  | fxRsqrtF32 (rd a : Reg)
  | fxSinpiF32 (rd a : Reg)
  | fxCospiF32 (rd a : Reg)
  | fxTanhF32 (rd a : Reg)
  | fxSigmF32 (rd a : Reg)
  | fxSrari (rd a : Reg) (sh : BitVec 6)
  | fxSati (rd a : Reg) (w1 : BitVec 6)
  | fxSatni (rd a : Reg) (w1 : BitVec 6)
  | fxScliF32 (rd a : Reg) (n : BitVec 9)
  | fxScliF64 (rd a : Reg) (n : BitVec 9)
  -- memory (Table 7.6)
  | ldNc (lw : LWidth) (rd a : Reg) (imm : BitVec 9)
  | ldBp (lw : LWidth) (rd a : Reg) (imm : BitVec 9)
  | stBp (sw : SWidth) (a b : Reg) (imm : BitVec 9)
  | sl (lw : LWidth) (rd a : Reg) (imm : BitVec 9)
  | ss (sw : SWidth) (a b : Reg) (imm : BitVec 9)
  | fnScoped (sc : Scope) (pred succ : BitVec 4)
  | fnNc
  | fnPfL1 (a : Reg)
  | fnPfLlc (a : Reg)
  | fnPfW (a : Reg)
  -- atomics and reductions (Tables 8.2, 8.3)
  | amoOp (op : AOp) (t : ITy) (sc : Scope) (aq rl : Bool) (rd a : Reg)
  | amoCas (t : ITy) (sc : Scope) (aq rl : Bool) (rd a : Reg)
  | amoLd (t : ITy) (sc : Scope) (aq : Bool) (rd a : Reg)
  | amoSt (t : ITy) (sc : Scope) (rl : Bool) (rd a : Reg)
  | amoDraw (sc : Scope) (aq rl : Bool) (rd a : Reg)
  | amoTick (aq rl : Bool) (rd a : Reg)
  | atomicPerform (core line : Nat)
  | red (op : AOp) (t : ITy) (sc : Scope) (a b : Reg)
  | rbAgeMerge (core line : Nat)
  | lrHoldEnd (core granule : Nat)
  -- sample groups (Table 12.5)
  | sgFork (rd a b : Reg)
  | sgRwd (rd a : Reg)
  | sgCol (rd a : Reg)
  | sgCxl (rd a b : Reg)
  | sgExt (rd a b : Reg)
  | sgQry (rd a b : Reg)
  | sgLeave (rd : Reg)
  | groupTimeout (h : Word)
  -- collective and link (Table 13.5)
  | clPost (rd a : Reg)
  | clRing (rd a : Reg)
  | clPut (rd a b : Reg)
  | clGet (rd a b : Reg)
  | clSig (rd a b : Reg)
  | clWait (rd a b : Reg)
  | clWaitTry (rd a b : Reg)
  | clQry (rd a : Reg)
  | gateOpen (id : Nat)
  | descriptorComplete (id : Nat)
  | ringMatchTimeout (id : Nat)
  | remoteRegionAccess (r : RemoteReq)
  | peerLeave (p : Nat)
  | linkPortLost (p : Nat)
  | snoopFilterRecall (plane : Nat)
  -- power (Table 15.6)
  | pwQry (rd a : Reg)
  | pwYld (rd : Reg)
  | pwWind (rd a : Reg)
  -- system (Table 14.7)
  | syPark (rd : Reg)
  | syEnd (rd : Reg)
  | syDbg (rd : Reg)
  | syRec (rd a b : Reg)
  | syTlbsd (rd a b : Reg)
  | forwardEntryPost (d : Nat)
  | fwdrsmWrite (d : Nat) (v : Word)
  | invalidationAck (id : Nat)
  | ivgoWrite (slot : Nat) (v : Word)
  | pageWalkComplete (k : Nat) (va : Word) (acc : AccKind)
  -- copies (Table 9.3)
  | copyGs (f : CopyForm) (rd a b c : Reg)
  | copySg (f : CopyForm) (rd a b c : Reg)
  | copyGg (f : CopyForm) (rd a b c : Reg)
  | copySs (f : CopyForm) (rd a b c : Reg)
  | copyGath (f : RowForm) (rd a b c x y : Reg)
  | copyScat (f : RowForm) (rd a b c x y : Reg)
  | copyFillS (rd a b c : Reg)
  | copyFillG (rd a b c : Reg)
  | cpSeal (rd : Reg)
  | cpWait (rd a : Reg)
  | cpStop (rd : Reg)
  | copyDescriptorReadback (k : Nat)
  | copyBegin (core : Nat)
  | copyChunkWrite (id chunk : Nat)
  -- matrix and accumulator (Table 10.3)
  | mxMma (x : MxArgs)
  | mxGmma (x : MxArgs)
  | mxPmma (x : MxArgs)
  | pmmaPairTimeout (crew n : Nat)
  | mxTake (rd a : Reg) (n : BitVec 4)
  | mxPass (rd a b : Reg) (n : BitVec 4)
  | mxTakeTk (rd a b c : Reg) (n : BitVec 4)
  | mxPassTk (rd a : Reg) (n : BitVec 4)
  | amGet (rd a b : Reg)
  | amRel (rd a b : Reg)
  | amZero (a b : Reg)
  | amRd (rd a : Reg)
  | engineEntryStart (core : Nat)
  | matrixWritesLand (core : Nat)
  -- epilogue (Table 11.3)
  | epLoad (rd a b : Reg)
  | epRun (rd a b c x : Reg)
  | mxDrn (x : DrnArgs)
  | mxDrnZ (x : DrnArgs)
  | epilogueEntry (core : Nat)
  -- the standard part on a W-core (Table 2.1)
  | load (k : LoadKind) (rd a : Reg) (imm : BitVec 12)
  | store (k : StoreKind) (a b : Reg) (imm : BitVec 12)
  | standardAlu (f : AluForm)
  | standardFp (f : FpForm)
  | branchJump (f : BranchForm)
  | fence (fm pred succ : BitVec 4)
  | fenceI
  | wrsNto
  | wrsSto
  | wrsTimeout (k : Nat)
  | lr (dbl aq rl : Bool) (rd a : Reg)
  | sc (dbl aq rl : Bool) (rd a b : Reg)
  | standardAmo (op : StdAmo) (dbl aq rl : Bool) (rd a b : Reg)
  | amocas (cw : CasW) (aq rl : Bool) (rd a b : Reg)
  | ecall
  | ebreak
  | wfi
  | sret
  | sfenceVma (a b : Reg)
  | csrAccess (op : CsrOp) (imm : Bool) (rd src : Reg) (csr : BitVec 12)
  | cpsplWrite (k : Nat) (v : Word)
  | frecbaseWrite (core : Nat) (v : Word)
  | passcntWrite (core : Nat) (v : Word)
  | clsreqWrite (core : Nat) (v : Word)
  -- pre-emption, power, current and coolant
  | reclassSavesDone (pod : Nat)
  | reclassClockSettled (pod : Nat)
  | crewPreempt (crew : Nat)
  | crewSaveComplete (crew : Nat)
  | crewRestore (crew : Nat)
  | withdrawalStart (pod : Nat)
  | withdrawalGraceExpiry (crew : Nat)
  | boostRecompute (pod : Nat)
  | powerWindow (avg : BitVec 16)
  | currentSample (draw : Nat)
  | currentLimitEvent
  | zoneEnterLowFlow (z : Nat) (flow : BitVec 16)
  | zoneLeaveLowFlow (z : Nat) (flow : BitVec 16)
  | zoneEnterHot (z : Nat) (temp : BitVec 12)
  | zoneLeaveHot (z : Nat) (temp : BitVec 12)
  | zoneEnterEvacuating (z : Nat) (flow : BitVec 16) (void : Bool)
  | zoneEnterTripped (z : Nat) (temp : BitVec 12)
  | evacuationSavesDone (z : Nat)
  | zoneTripExit (z : Nat) (temp : BitVec 12)
  | purgeStart (z : Nat)
  | purgeValveOpen (z : Nat)
  | purgeEnd (z : Nat) (flow : BitVec 16)
  | zctlRetryWrite (z : Nat) (v : Word)
  -- debug (Table 14.13)
  | dbgStop (d : Nat)
  | dbgStopCrew (d : Nat)
  | dbgResume (d : Nat)
  | dbgResumeCrew (d : Nat)
  | dbgStep (d : Nat)
  | dbgAttach (d : Nat)
  | dbgDetach (d : Nat)
  | dbgUnassigned (d : Nat) (cmd : BitVec 4)
  | debugStop (k : Nat)
  | dbgdataRead (d : Nat)
  | dbgdataWrite (d : Nat) (v : Word)
  | dbghaltWrite (d : Nat) (v : Word)
  | registerWrite (pa : Nat) (half : Bool) (v : Word)
  | replicaUpdate (die idx : Nat)
  | ueWriteback (line : Nat)
  | ueCoreStorage (u : UeSite)
  | dmaRequest (r : DevReq)
  -- bring-up, firmware and attestation
  | powerGood
  | bootDieLinksMemory
  | memoryReady (f : Nat)
  | bootPkgnum (n : BitVec 8)
  | bootLCoreImage
  | lCoreStart (k : Nat)
  | bootWDieMicrocode (d : Nat)
  | portTrained (f : Nat)
  | collectiveEngineReady
  | managementPortReady
  | ptpMessage (offset : Int)
  | ptpGrandmasterLoss
  | mgmtImageDelivery (img : List Byte)
  | mgmtRaiseMinVersion (kind : BitVec 2) (v : BitVec 32)
  | mgmtEvidenceRequest (nonce : List Byte)
  | evreqGo (v : Word)
  | instructionFetch (k : Nat)
  | peerPresent (p : Nat)
  | peerWindowAccess (r : PeerReq)
  deriving DecidableEq, Repr

/-- Whether a row of the table is an instruction with an encoding (true) or a step of the hardware or an input. -/
def Instr.encoded : Instr → Bool
  | .pauseExpiry _ | .parkSpinTest _ | .strandPark _ | .watchRetest _ | .strandResume _ | .placementOffer
  | .contextLineFetch _ _ | .homeNoticePost _ | .strandStop _ | .recallWrite _ _ | .recallTakesEffect _
  | .killWrite _ _ | .framefreeWrite _ _ | .issueCycle _ _ | .loadDataReturn _ _ | .barrierPhaseRelease _ _
  | .atomicPerform _ _ | .rbAgeMerge _ _ | .lrHoldEnd _ _ | .groupTimeout _ | .gateOpen _ | .descriptorComplete _
  | .ringMatchTimeout _ | .remoteRegionAccess _ | .peerLeave _ | .linkPortLost _ | .snoopFilterRecall _
  | .forwardEntryPost _ | .fwdrsmWrite _ _ | .invalidationAck _ | .ivgoWrite _ _ | .pageWalkComplete _ _ _
  | .copyDescriptorReadback _ | .copyBegin _ | .copyChunkWrite _ _ | .pmmaPairTimeout _ _ | .engineEntryStart _
  | .matrixWritesLand _ | .epilogueEntry _ | .wrsTimeout _ | .cpsplWrite _ _ | .frecbaseWrite _ _ | .passcntWrite _ _
  | .clsreqWrite _ _ | .reclassSavesDone _ | .reclassClockSettled _ | .crewPreempt _ | .crewSaveComplete _
  | .crewRestore _ | .withdrawalStart _ | .withdrawalGraceExpiry _ | .boostRecompute _ | .powerWindow _
  | .currentSample _ | .currentLimitEvent | .zoneEnterLowFlow _ _ | .zoneLeaveLowFlow _ _ | .zoneEnterHot _ _
  | .zoneLeaveHot _ _ | .zoneEnterEvacuating _ _ _ | .zoneEnterTripped _ _ | .evacuationSavesDone _ | .zoneTripExit _ _
  | .purgeStart _ | .purgeValveOpen _ | .purgeEnd _ _ | .zctlRetryWrite _ _ | .dbgStop _ | .dbgStopCrew _ | .dbgResume _
  | .dbgResumeCrew _ | .dbgStep _ | .dbgAttach _ | .dbgDetach _ | .dbgUnassigned _ _ | .debugStop _ | .dbgdataRead _
  | .dbgdataWrite _ _ | .dbghaltWrite _ _ | .registerWrite _ _ _ | .replicaUpdate _ _ | .ueWriteback _
  | .ueCoreStorage _ | .dmaRequest _ | .powerGood | .bootDieLinksMemory | .memoryReady _ | .bootPkgnum _
  | .bootLCoreImage | .lCoreStart _ | .bootWDieMicrocode _ | .portTrained _ | .collectiveEngineReady
  | .managementPortReady | .ptpMessage _ | .ptpGrandmasterLoss | .mgmtImageDelivery _ | .mgmtRaiseMinVersion _ _
  | .mgmtEvidenceRequest _ | .evreqGo _ | .instructionFetch _ | .peerPresent _ | .peerWindowAccess _ => false
  | _ => true

end Sys2Proof
end

