-- ==== Sys2Proof/Machine/Flags.lean ====
section
/-! DEFINITION. Floating-point arithmetic and its flags: exact values, then one rounding (R146, R149, R161, R162; the F and
D specifications). Flags are a number with NV 16, DZ 8, OF 4, UF 2, NX 1, as in `fflags`. -/

namespace Sys2Proof.Machine

/-- A binary interchange format: exponent and fraction widths (Table 6.2). -/
structure FFmt where
  ew : Nat
  fw : Nat
  deriving DecidableEq, Repr

/-- FP64. -/
def f64 : FFmt := ⟨11, 52⟩
/-- FP32. -/
def f32 : FFmt := ⟨8, 23⟩
/-- BF16. -/
def bf16 : FFmt := ⟨8, 7⟩
/-- FP16. -/
def f16 : FFmt := ⟨5, 10⟩

namespace FFmt

/-- Width in bits. -/
def width (f : FFmt) : Nat := 1 + f.ew + f.fw
/-- Bias. -/
def bias (f : FFmt) : Nat := 2 ^ (f.ew - 1) - 1
/-- Exponent of the least normal number. -/
def emin (f : FFmt) : Int := 1 - (f.bias : Int)
/-- Canonical NaN. -/
def qnan (f : FFmt) : Nat := (2 ^ (f.ew + 1) - 1) * 2 ^ (f.fw - 1)
/-- Infinity. -/
def infBits (f : FFmt) (neg : Bool) : Nat := b2n neg * 2 ^ (f.ew + f.fw) + (2 ^ f.ew - 1) * 2 ^ f.fw
/-- Greatest finite number. -/
def maxBits (f : FFmt) (neg : Bool) : Nat := f.infBits neg - 1

end FFmt

/-- A value: NaN (signalling or not), infinity, or (-1)^neg · m · 2^e. -/
inductive FVal
  | nan (sig : Bool)
  | inf (neg : Bool)
  | fin (neg : Bool) (m : Nat) (e : Int)
  deriving DecidableEq, Repr

namespace FVal

/-- The value of a code (R149). -/
def ofBits (f : FFmt) (v : Nat) : FVal :=
  let fr := v % 2 ^ f.fw
  let ex := v / 2 ^ f.fw % 2 ^ f.ew
  let neg : Bool := v / 2 ^ (f.fw + f.ew) % 2 = 1
  if ex = 2 ^ f.ew - 1 then (if fr = 0 then .inf neg else .nan (fr < 2 ^ (f.fw - 1)))
  else if ex = 0 then .fin neg fr (f.emin - f.fw)
  else .fin neg (fr + 2 ^ f.fw) ((ex : Int) - f.bias - f.fw)

/-- A NaN. -/
def isNan : FVal → Bool
  | .nan _ => true | .inf _ => false | .fin _ _ _ => false

/-- NV where the value is a signalling NaN. -/
def sigFlag : FVal → Nat
  | .nan true => 16 | .nan false => 0 | .inf _ => 0 | .fin _ _ _ => 0

/-- Sign. -/
def neg? : FVal → Bool
  | .nan _ => false | .inf n => n | .fin n _ _ => n

/-- The negated value. -/
def negate : FVal → FVal
  | .nan s => .nan s | .inf n => .inf (!n) | .fin n m e => .fin (!n) m e

/-- A zero. -/
def isZero : FVal → Bool
  | .fin _ 0 _ => true | .fin _ (_ + 1) _ => false | .nan _ => false | .inf _ => false

end FVal

/-- m / 2^sh rounded to an integer under mode `rm` (0 RNE, 1 RTZ, 2 RDN, 3 RUP, 4 RMM), and whether inexact. -/
def rshRound (rm : Nat) (neg : Bool) (m sh : Nat) : Nat × Bool :=
  let sh := min sh (Nat.log2 m + 3)
  let q := m / 2 ^ sh
  let r := m % 2 ^ sh
  if r = 0 then (q, false)
  else
    let up : Bool :=
      match rm with
      | 0 => 2 ^ sh < 2 * r || (2 * r = 2 ^ sh && q % 2 = 1)
      | 1 => false
      | 2 => neg
      | 3 => !neg
      | _ => 2 ^ sh ≤ 2 * r
    (q + b2n up, true)

/-- m · 2^e rounded to the precision and subnormal spacing of a format with no upper limit: (q, qe, inexact, tiny after
rounding), the value being q · 2^qe. -/
def roundUnb (f : FFmt) (rm : Nat) (neg : Bool) (m : Nat) (e : Int) : Nat × Int × Bool × Bool :=
  if m = 0 then (0, f.emin - f.fw, false, false)
  else
    let ee := e + (Nat.log2 m : Int)
    let at' (qe : Int) : Nat × Bool :=
      if qe ≤ e then (m * 2 ^ (e - qe).toNat, false) else rshRound rm neg m (qe - e).toNat
    let qe := max (ee - f.fw) (f.emin - f.fw)
    let r := at' qe
    let tiny : Bool := ee < f.emin && !(ee = f.emin - 1 && (at' (ee - f.fw)).1 = 2 ^ (f.fw + 1))
    if r.1 = 2 ^ (f.fw + 1) then (2 ^ f.fw, qe + 1, r.2, tiny) else (r.1, qe, r.2, tiny)

/-- Code and flags of m · 2^e in a format (IEEE 754-2019, tininess after rounding as RISC-V). -/
def roundFin (f : FFmt) (rm : Nat) (neg : Bool) (m : Nat) (e : Int) : Nat × Nat :=
  let sgn := b2n neg * 2 ^ (f.ew + f.fw)
  if m = 0 then (sgn, 0)
  else
    let (q, qe, inx, tiny) := roundUnb f rm neg m e
    if 2 ^ f.fw ≤ q && (f.bias : Int) < qe + f.fw then
      let toInf : Bool := rm = 0 || 4 ≤ rm || (rm = 2 && neg) || (rm = 3 && !neg)
      (if toInf then f.infBits neg else f.maxBits neg, 5)
    else
      let fl := b2n inx + (if tiny && inx then 2 else 0)
      if q < 2 ^ f.fw then (sgn + q, fl)
      else (sgn + ((qe + f.fw + f.bias).toNat * 2 ^ f.fw + (q - 2 ^ f.fw)), fl)

/-- Code and flags of a value in a format: Round(fmt, v, rm). -/
def fround (f : FFmt) (rm : Nat) (v : FVal) : Nat × Nat :=
  match v with
  | .nan sig => (f.qnan, if sig then 16 else 0)
  | .inf n => (f.infBits n, 0)
  | .fin n m e => roundFin f rm n m e

/-- Exact sum and flags; an exact zero sum of unlike signs is -0 under RDN only. -/
def fadd (rm : Nat) (a b : FVal) : FVal × Nat :=
  match a, b with
  | .nan x, _ => (.nan false, (if x then 16 else 0) ||| b.sigFlag)
  | .inf _, .nan y => (.nan false, if y then 16 else 0)
  | .fin _ _ _, .nan y => (.nan false, if y then 16 else 0)
  | .inf x, .inf y => if x = y then (.inf x, 0) else (.nan false, 16)
  | .inf x, .fin _ _ _ => (.inf x, 0)
  | .fin _ _ _, .inf y => (.inf y, 0)
  | .fin n1 m1 e1, .fin n2 m2 e2 =>
    let e := min e1 e2
    let i1 : Int := m1 * 2 ^ (e1 - e).toNat
    let i2 : Int := m2 * 2 ^ (e2 - e).toNat
    let t : Int := (if n1 then -i1 else i1) + (if n2 then -i2 else i2)
    if t = 0 then (.fin (if n1 = n2 then n1 else rm = 2) 0 e, 0) else (.fin (t < 0) t.natAbs e, 0)

/-- Exact product and flags. -/
def fmul (a b : FVal) : FVal × Nat :=
  match a, b with
  | .nan x, _ => (.nan false, (if x then 16 else 0) ||| b.sigFlag)
  | .inf _, .nan y => (.nan false, if y then 16 else 0)
  | .fin _ _ _, .nan y => (.nan false, if y then 16 else 0)
  | .inf x, .inf y => (.inf (x != y), 0)
  | .inf x, .fin y m _ => if m = 0 then (.nan false, 16) else (.inf (x != y), 0)
  | .fin x m _, .inf y => if m = 0 then (.nan false, 16) else (.inf (x != y), 0)
  | .fin n1 m1 e1, .fin n2 m2 e2 => (.fin (n1 != n2) (m1 * m2) (e1 + e2), 0)

/-- Quotient with enough bits and a sticky bit to round once. -/
def fdiv (a b : FVal) : FVal × Nat :=
  match a, b with
  | .nan x, _ => (.nan false, (if x then 16 else 0) ||| b.sigFlag)
  | .inf _, .nan y => (.nan false, if y then 16 else 0)
  | .fin _ _ _, .nan y => (.nan false, if y then 16 else 0)
  | .inf _, .inf _ => (.nan false, 16)
  | .inf x, .fin y _ _ => (.inf (x != y), 0)
  | .fin x _ _, .inf y => (.fin (x != y) 0 0, 0)
  | .fin n1 m1 e1, .fin n2 m2 e2 =>
    if m2 = 0 then (if m1 = 0 then (.nan false, 16) else (.inf (n1 != n2), 8))
    else if m1 = 0 then (.fin (n1 != n2) 0 0, 0)
    else
      let q := m1 * 2 ^ 128 / m2
      let r := m1 * 2 ^ 128 % m2
      (.fin (n1 != n2) (2 * q + b2n (r ≠ 0)) (e1 - e2 - 129), 0)

/-- Integer square root, one bit at a time from bit `n - 1`. -/
def isqrt (x : Nat) (r : Nat) : Nat → Nat
  | 0 => r
  | n + 1 => isqrt x (if (r + 2 ^ n) * (r + 2 ^ n) ≤ x then r + 2 ^ n else r) n

/-- Square root with a sticky bit. -/
def fsqrt (a : FVal) : FVal × Nat :=
  match a with
  | .nan x => (.nan false, if x then 16 else 0)
  | .inf n => if n then (.nan false, 16) else (.inf false, 0)
  | .fin n m e =>
    if m = 0 then (.fin n 0 0, 0)
    else if n then (.nan false, 16)
    else
      let k : Nat := if e % 2 = 0 then 140 else 141
      let x := m * 2 ^ k
      let r := isqrt x 0 (Nat.log2 x / 2 + 1)
      (.fin false (2 * r + b2n (r * r ≠ x)) ((e - k) / 2 - 1), 0)

/-- a · b + c, exact. The product of 0 and an infinity is invalid with a quiet NaN addend too, as RISC-V has it; for `e.fma` the manual
leaves that to IEEE 754, which leaves it open (DESIGN CHOICE, log 92). -/
def ffma (rm : Nat) (a b c : FVal) : FVal × Nat :=
  let p := fmul a b
  let r := fadd rm p.1 c
  (r.1, p.2 ||| r.2)

/-- Rounds an exact result and joins the flags. -/
def ffinish (f : FFmt) (rm : Nat) (r : FVal × Nat) : Nat × Nat :=
  let q := fround f rm r.1
  (q.1, q.2 ||| r.2)

/-- a < b for values that are not NaN. -/
def flt (a b : FVal) : Bool :=
  match a, b with
  | .inf n, .inf m => n && !m
  | .inf n, .fin _ _ _ => n
  | .fin _ _ _, .inf m => !m
  | .fin n1 m1 e1, .fin n2 m2 e2 =>
    let e := min e1 e2
    let i1 : Int := m1 * 2 ^ (e1 - e).toNat
    let i2 : Int := m2 * 2 ^ (e2 - e).toNat
    (if n1 then -i1 else i1) < (if n2 then -i2 else i2)
  | _, _ => false

/-- a = b for values that are not NaN; the two zeros are equal. -/
def feq (a b : FVal) : Bool := !a.isNan && !b.isNan && !flt a b && !flt b a

/-- minimumNumber or maximumNumber on codes, with -0 below +0, and flags. -/
def fminmax (f : FFmt) (isMax : Bool) (x y : Nat) : Nat × Nat :=
  let a := FVal.ofBits f x
  let b := FVal.ofBits f y
  let fl := a.sigFlag ||| b.sigFlag
  if a.isNan && b.isNan then (f.qnan, fl)
  else if a.isNan then (y, fl)
  else if b.isNan then (x, fl)
  else
    let less : Bool := flt a b || (feq a b && a.neg? && !b.neg?)
    (if less = isMax then y else x, fl)

/-- The integer nearest a value under `rm`, and whether inexact. -/
def fint (rm : Nat) (neg : Bool) (m : Nat) (e : Int) : Int × Bool :=
  let r := if 0 ≤ e then (m * 2 ^ e.toNat, false) else rshRound rm neg m (-e).toNat
  (if neg then -(r.1 : Int) else r.1, r.2)

/-- Conversion to an integer in [lo, hi], saturating with NV (F specification). -/
def ftoInt (rm : Nat) (lo hi : Int) (v : FVal) : Int × Nat :=
  match v with
  | .nan _ => (hi, 16)
  | .inf n => (if n then lo else hi, 16)
  | .fin n m e =>
    if 70 < e + (Nat.log2 m : Int) then (if n then lo else hi, 16)
    else
      let (i, inx) := fint rm n m e
      if i < lo then (lo, 16) else if hi < i then (hi, 16) else (i, b2n inx)

/-- An integer as a value. -/
def fofInt (i : Int) : FVal := .fin (i < 0) i.natAbs 0

/-- x · 2^n; |n| is cut to 5,000, beyond which every format overflows or is tiny alike. -/
def fscale (v : FVal) (n : Int) : FVal :=
  match v with
  | .fin s m e => .fin s m (e + max (-5000) (min 5000 n))
  | .nan s => .nan s
  | .inf s => .inf s

/-- `fclass`. -/
def fclassOf (f : FFmt) (x : Nat) : Nat :=
  match FVal.ofBits f x with
  | .nan sig => if sig then 256 else 512
  | .inf n => if n then 1 else 128
  | .fin n m e =>
    if m = 0 then (if n then 8 else 16)
    else if m < 2 ^ f.fw && e = f.emin - f.fw then (if n then 4 else 32)
    else (if n then 2 else 64)

/-! ### Registers: NaN boxing (R146, R147) -/

/-- The narrow value in a register: canonical NaN unless the upper bits are all ones. -/
def unbox (f : FFmt) (w : Word) : Nat :=
  let n := w.toNat
  let k := f.width
  if k = 64 then n else if n / 2 ^ k = 2 ^ (64 - k) - 1 then n % 2 ^ k else f.qnan

/-- A narrow value NaN-boxed. -/
def box (f : FFmt) (v : Nat) : Word :=
  let k := f.width
  w64 ((2 ^ (64 - k) - 1) * 2 ^ k + v % 2 ^ k)

/-- Format of a precision. -/
def fmtOf : FPrec → FFmt
  | .s => f32 | .d => f64

/-- Operand of a precision. -/
def fval (f : FFmt) (w : Word) : FVal := FVal.ofBits f (unbox f w)

end Sys2Proof.Machine
end

