-- ==== Sys2Proof/Machine/Alu.lean ====
section
/-! DEFINITION. Integer arithmetic: the operators of atomics and reductions (R221, Table 5.2), and the standard integer
instructions (R145; RISC-V unprivileged specification, log 17). -/

namespace Sys2Proof.Machine

/-- Width in bytes of a type of the atomics (R221). -/
def ityBytes : ITy → Nat
  | .i32 => 4 | .n32 => 4 | .i64 => 8 | .n64 => 8

/-- Whether a type is signed. -/
def itySigned : ITy → Bool
  | .i32 => true | .i64 => true | .n32 => false | .n64 => false

/-- The low `8 * n` bits of a number as a signed integer. -/
def toSigned (n v : Nat) : Int :=
  let x := v % 2 ^ (8 * n)
  if 2 ^ (8 * n - 1) ≤ x then (x : Int) - (2 ^ (8 * n) : Nat) else x

/-- The value an integer type extends to 64 bits: SignExt or ZeroExt (R221). -/
def extTy (t : ITy) (v : Nat) : Word :=
  if itySigned t then sext (8 * ityBytes t) v else w64 (v % 2 ^ (8 * ityBytes t))

/-- The operators of R221 on old value `v` and operand `x` at width and sign of `t`. -/
def amoFn (op : AOp) (t : ITy) (v x : Nat) : Nat :=
  let m := 2 ^ (8 * ityBytes t)
  let lt : Bool := if itySigned t then toSigned (ityBytes t) v < toSigned (ityBytes t) x else v % m < x % m
  match op with
  | .swap => x % m
  | .add => (v + x) % m
  | .and => (v &&& x) % m
  | .or => (v ||| x) % m
  | .xor => (v ^^^ x) % m
  | .min => if lt then v % m else x % m
  | .max => if lt then x % m else v % m

/-- Two-operand integer operations. -/
def aluOp (op : AluOp) (a b : Word) : Word :=
  let sh := (b.extractLsb' 0 6).toNat
  let shw := (b.extractLsb' 0 5).toNat
  let aw : BitVec 32 := a.truncate 32
  let bw : BitVec 32 := b.truncate 32
  let sx (v : BitVec 32) : Word := v.signExtend 64
  let zx : Word := aw.zeroExtend 64
  match op with
  | .add => a + b
  | .sub => a - b
  | .sll => a <<< sh
  | .slt => if a.slt b then 1 else 0
  | .sltu => if a.ult b then 1 else 0
  | .xor => a ^^^ b
  | .srl => a >>> sh
  | .sra => a.sshiftRight sh
  | .or => a ||| b
  | .and => a &&& b
  | .addw => sx (aw + bw)
  | .subw => sx (aw - bw)
  | .sllw => sx (aw <<< shw)
  | .srlw => sx (aw >>> shw)
  | .sraw => sx (aw.sshiftRight shw)
  | .mul => a * b
  | .mulh => BitVec.ofInt 64 (a.toInt * b.toInt / (2 ^ 64 : Nat))
  | .mulhsu => BitVec.ofInt 64 (a.toInt * (b.toNat : Int) / (2 ^ 64 : Nat))
  | .mulhu => w64 (a.toNat * b.toNat / 2 ^ 64)
  | .div => if b = 0 then -1 else a.sdiv b
  | .divu => if b = 0 then -1 else a / b
  | .rem => if b = 0 then a else a.srem b
  | .remu => if b = 0 then a else a % b
  | .mulw => sx (aw * bw)
  | .divw => if bw = 0 then -1 else sx (aw.sdiv bw)
  | .divuw => if bw = 0 then -1 else sx (aw / bw)
  | .remw => if bw = 0 then sx aw else sx (aw.srem bw)
  | .remuw => if bw = 0 then sx aw else sx (aw % bw)
  | .sh1add => b + (a <<< 1)
  | .sh2add => b + (a <<< 2)
  | .sh3add => b + (a <<< 3)
  | .addUw => b + zx
  | .sh1addUw => b + (zx <<< 1)
  | .sh2addUw => b + (zx <<< 2)
  | .sh3addUw => b + (zx <<< 3)
  | .andn => a &&& ~~~b
  | .orn => a ||| ~~~b
  | .xnor => ~~~(a ^^^ b)
  | .max => if a.slt b then b else a
  | .maxu => if a.ult b then b else a
  | .min => if a.slt b then a else b
  | .minu => if a.ult b then a else b
  | .rol => a.rotateLeft sh
  | .ror => a.rotateRight sh
  | .rolw => sx (aw.rotateLeft shw)
  | .rorw => sx (aw.rotateRight shw)
  | .bclr => a &&& ~~~((1 : Word) <<< sh)
  | .bext => (a >>> sh) &&& 1
  | .binv => a ^^^ ((1 : Word) <<< sh)
  | .bset => a ||| ((1 : Word) <<< sh)
  | .czeroEqz => if b = 0 then 0 else a
  | .czeroNez => if b = 0 then a else 0

/-- The operation an immediate form performs. -/
def aluImmOp : AluImm → AluOp
  | .addi => .add | .slti => .slt | .sltiu => .sltu | .xori => .xor | .ori => .or | .andi => .and
  | .slli => .sll | .srli => .srl | .srai => .sra | .addiw => .addw | .slliw => .sllw | .srliw => .srlw
  | .sraiw => .sraw | .slliUw => .sll | .rori => .ror | .roriw => .rorw
  | .bclri => .bclr | .bexti => .bext | .binvi => .binv | .bseti => .bset

/-- Immediate forms: the sign-extended immediate is the second operand; `slli.uw` zero-extends its first. -/
def aluImm (op : AluImm) (a : Word) (imm : BitVec 12) : Word :=
  match op with
  | .slliUw => aluOp .sll ((a.truncate 32 : BitVec 32).zeroExtend 64) (imm.signExtend 64)
  | _ => aluOp (aluImmOp op) a (imm.signExtend 64)

/-- Leading zeros of the low `n` bits. -/
def leadZeros (v : Nat) : Nat → Nat
  | 0 => 0
  | n + 1 => if v / 2 ^ n % 2 = 1 then 0 else 1 + leadZeros v n

/-- Trailing zeros of the low `n` bits. -/
def trailZeros (v : Nat) : Nat → Nat
  | 0 => 0
  | n + 1 => if v % 2 = 1 then 0 else 1 + trailZeros (v / 2) n

/-- The bytes of a number in reverse order. -/
def revBytes (v : Nat) : Nat → Nat
  | 0 => 0
  | n + 1 => v % 256 * 256 ^ n + revBytes (v / 256) n

/-- `orc.b`: each non-zero byte becomes 0xFF. -/
def orcBytes (v : Nat) : Nat → Nat
  | 0 => 0
  | n + 1 => (if v % 256 = 0 then 0 else 255) + 256 * orcBytes (v / 256) n

/-- One-operand forms. -/
def aluUn (op : AluUn) (a : Word) : Word :=
  match op with
  | .clz => w64 (leadZeros a.toNat 64)
  | .ctz => w64 (trailZeros a.toNat 64)
  | .cpop => w64 (popcount a.toNat 64)
  | .clzw => w64 (leadZeros a.toNat 32)
  | .ctzw => w64 (trailZeros a.toNat 32)
  | .cpopw => w64 (popcount a.toNat 32)
  | .sextB => sext 8 a.toNat
  | .sextH => sext 16 a.toNat
  | .zextH => w64 (a.toNat % 2 ^ 16)
  | .rev8 => w64 (revBytes a.toNat 8)
  | .orcB => w64 (orcBytes a.toNat 8)

/-- Branch conditions. -/
def brTaken (c : BrCond) (a b : Word) : Bool :=
  match c with
  | .eq => a = b
  | .ne => a ≠ b
  | .lt => a.slt b
  | .ge => !a.slt b
  | .ltu => a.ult b
  | .geu => !a.ult b

end Sys2Proof.Machine
end

