-- ==== Sys2Proof/Config.lean ====
section
/-! DEFINITION. Config: what an implementation fixes, and the free values. A free value has no body: no proof can see
what it is, so every claim holds whatever it is. Those with a counter are applied to `State.draws`. -/

namespace Sys2Proof.Config

/-- A free yes or no: whether a cache, TLB or buffer still holds an entry, which allowed outcome occurs (log 5). -/
opaque freeBit : Nat → Bool

/-- A free number: the address hint of an allocation, a handle (logs 9 and 10). -/
opaque freeNat : Nat → Nat

/-- Which of the values within the bound of R167 special function `f` (Table 6.8, numbered by fff) returns (log 11). -/
opaque specialPick : Nat → BitVec 32 → Nat

/-- The seed of the device key pair that Selmel derives from a package's fused secret and the digest of its firmware; R431 does not say
how (log 16). -/
opaque deviceSeed : BitVec 256 → BitVec 512 → BitVec 256

/-- Fixes the VLEN of the L-cores, which Table 2.1 leaves to the implementation (log 20). -/
opaque vlenPick : Nat

/-- Fixes how many interrupt identities the interrupt files of the L-cores have, which the specification leaves open (log 20). -/
opaque eiPick : Nat

/-- Which `vl` an L-core gives for an AVL between VLMAX and twice VLMAX (log 20). -/
opaque vlPick : Nat → Nat → Nat

/-- Number of W-core positions (Table 1.2). -/
def numCores : Nat := 192

/-- Number of pods (Table 1.2). -/
def numPods : Nat := 48

/-- Number of coolant zones (Table 1.2). -/
def numZones : Nat := 50

/-- Number of L-cores (Table 1.1). -/
def numLCores : Nat := 32

/-- Strand slots of a quadrant (Table 1.4). -/
def quadSlots : Nat := 512

/-- Strand slots of a W-core (Table 1.4). -/
def coreSlots : Nat := 2048

/-- Bytes of a stage bank (Table 1.4). -/
def stageBank : Nat := 12288

/-- Stage bytes of a W-core (Table 1.4). -/
def stageBytes : Nat := 786432

end Sys2Proof.Config
end

