-- ==== Sys2Proof/Machine/State.lean ====
section
/-! DEFINITION. The state, as plain data. INVENTORY.md, '## State', lists every field with the rule that names it and
its reset value. -/

namespace Sys2Proof.Machine

/-- Who executes an instruction: a strand, named by the physical address of its image, or an L-core. -/
inductive Agent | strand (image : Nat) | lcore (i : Nat)
  deriving DecidableEq, Repr

/-- What a ring posting of a peer package says (R345): ring word fields, element type and count, and the data of its
buffer. -/
structure PeerPost where
  peer : Nat
  id : Nat
  n : Nat
  pos : Nat
  next : Nat
  prev : Nat
  ty : Nat
  count : Nat
  data : List Byte := []
  deriving DecidableEq, Repr

/-- What moves next: an agent issues, a step of the hardware or an input happens, time passes, a peer's memory
changes, a peer posts to a ring, its posting ends, its CLRGNB changes, a zone's, the inlet's or the pods' sensors give new values (log 1). -/
inductive Turn
  | issue (a : Agent)
  | event (i : Instr)
  | elapse (ns : Nat)
  | peerWrite (pa : Nat) (data : List Byte)
  | peerPost (p : PeerPost)
  | peerUnpost (peer id : Nat)
  | peerRegion (peer : Nat) (v : Word)
  | sense (zone temp flow : Nat)
  | inlet (tin flow : Nat)
  /-- Measured draws of the pods in W. -/
  | podDraws (l : List Nat)
  /-- An MSI for the interrupt file of M-mode or, with `sup`, of S-mode of an L-core. -/
  | msi (lcore : Nat) (sup : Bool) (id : Nat)
  /-- A write of a register of a port's IOMMU, by its offset in the standard. -/
  | iommu (port off : Nat) (v : Word)
  /-- The addresses of the devices behind a port, as its configuration gives them. -/
  | portWindow (port first n : Nat)
  /-- The widths of the PCIe ports in the management configuration: bit p, port p is two x8 ports (R30, R425). -/
  | portWidths (split : BitVec 2)
  /-- What becomes of the unit of RDY bit `f` when bring-up releases it: not up yet, up, or failed (R425). -/
  | unit (f : Nat) (up : Option Bool)
  /-- A configuration read at a port, with what its device answers. -/
  | configRead (port n : Nat) (answer : List Byte)
  /-- A page request of a device (PRI): its device, PASID, privilege, execute and payload. -/
  | pageReq (port dev : Nat) (pid : Option Nat) (priv exec : Bool) (payload : Word)
  /-- The package is reset (R429). -/
  | packageReset
  /-- Selmel's firmware writes machine CSR `csr` of a W-core. -/
  | selmel (core csr : Nat) (v : Word)
  deriving DecidableEq, Repr

/-- Conditions that release a waiting strand (Tables 3.11 and 3.12). -/
inductive Cond
  | mem (va pa : Nat) (v : Word)
  | memGe (va pa : Nat) (v : Word)
  | bat (n : Nat)
  | tm (t : Nat)
  | join (slot : Nat)
  | group (slot : Nat)
  | home
  deriving DecidableEq, Repr

/-- What a resident strand waits for (R94). -/
inductive Wait
  /-- Nothing: the strand may issue. -/
  | none
  /-- `th.pause`, `th.yield` and `wfi`: until this cc of the pod (R91). -/
  | pause (t : Nat)
  /-- A park form's resident wait: condition, rd, end of the wait in cc (R87). -/
  | park (c : Cond) (rd : Reg) (t : Nat)
  /-- `cv.bar` or `cv.bar.rx` arrived in phase p of register n (R122). -/
  | barrier (n p : Nat) (rd : Reg) (acq : Bool)
  /-- `cv.wt` on token t of register n (R124). -/
  | cvWt (n t : Nat) (rd : Reg)
  /-- At a collective of register n, having signed or arrived at the pending one (R115). -/
  | busy (n : Nat)
  /-- Signed at a collective of register n, with what the member supplied (R113). -/
  | signed (n : Nat) (rd : Reg) (data : List Nat)
  /-- `wrs.nto` or `wrs.sto` until this cc (R106). -/
  | wrs (t : Nat)
  /-- An entry of an engine queue that writes rd when it is performed (R94, R302). -/
  | engine (id : Nat) (rd : Reg)
  /-- `mg.home` in this step (R67). -/
  | home (step : Nat)
  /-- `sy.tlbsd` or `sfence.vma` until the invalidation is acknowledged (R377). -/
  | ack (id : Nat) (rd : Reg)
  /-- `sg.cxl` and the like until the group has acted (R94). -/
  | group (h : Nat) (rd : Reg)
  /-- `sy.end` until its fleets are done (R374). -/
  | ending
  deriving DecidableEq, Repr

/-- Where a strand is (R65 to R90, R367, R389). -/
inductive SStatus
  /-- Holds a slot. -/
  | resident
  /-- Its image is a waypoint in the strand store. -/
  | parked
  /-- Pre-empted with its crew. -/
  | preempted
  /-- Forwarded: holds no slot (R367). -/
  | forwarded
  /-- Ready to take a slot: waiting for a slot or a placement. -/
  | waiting
  deriving DecidableEq, Repr

/-- A pending write of the scoreboard (R101): register 0-31 x, 32-63 f, the tiers that serve it (1 HBM4E, 2 LPDDR-6), and
whether it is one of the loads that R101 counts; the others are results of collectives and of engine queues. -/
structure Mark where
  reg : Nat
  tiers : List Nat := []
  load : Bool := true
  deriving DecidableEq, Repr

/-- A copy batch of a strand that is not complete (R250): number and copies outstanding. -/
structure Batch where
  num : Nat
  left : Nat
  deriving DecidableEq, Repr

/-- A strand (R54, R70, R94). `image` names it; `ctx` is its context image as 128 words by offset / 8. -/
structure Strand where
  image : Nat
  crew : Nat := 0
  sid : Nat := 0
  cwc : Nat := 0
  status : SStatus := .waiting
  core : Nat := 0
  quad : Nat := 0
  slot : Nat := 0
  ctx : Sparse 64 := []
  present : BitVec 16 := 0
  wait : Wait := .none
  wlen : Nat := 4
  /-- Since when it has been ready at every look, in cc of its pod (R95); none: it was not at the last. -/
  since : Option Nat := none
  marks : List Mark := []
  resv : Option Nat := none
  /-- Pending debug stop reason (R392), 0 none. -/
  pendStop : Nat := 0
  pendRecall : Bool := false
  /-- `fk.stop` or KILL reached its fleet; it stops at its next instruction boundary (R83). -/
  pendKill : Bool := false
  step : Bool := false
  /-- Forward state as the hardware recorded it (R369). -/
  fwd : Nat := 0
  /-- FWDRSM named it: a candidate for resumption (R369). -/
  resume : Bool := false
  /-- A parked strand's condition, rd and length of its waiting instruction (R85). -/
  cond : Cond := .home
  crd : Reg := 0
  /-- A re-test found the condition of a parked strand true (R89). -/
  woken : Bool := false
  /-- Its resume PC is the waiting instruction itself (R381, R438). -/
  again : Bool := false
  /-- Physical address of the waypoint. -/
  way : Nat := 0
  instret : Word := 0
  /-- Copy batches (R250, R251): number of the open batch, batches not complete, abandoned, poisoned. -/
  openBat : Nat := 0
  bats : List Batch := []
  abandoned : Bool := false
  poisoned : Bool := false
  /-- A result of an `am.rd` that it has passed failed its check: the value for `stval` of the cause 27 that comes next (R268, R289). -/
  badRd : Option Word := none
  /-- Packages that its instruction has sent a read to, with the address of the access; it is performed at its next turn (R336). -/
  sent : List (Nat × Word) := []
  /-- A context line of it could not be corrected: it is forwarded once what it waits for has ended (R387). -/
  ue : Option Nat := none
  /-- rd of a `pw.yld` that has retired up to its resumption, when 0 is written to it (R417). -/
  yielded : Reg := 0
  deriving DecidableEq, Repr

/-- One convergence register, or the S set (Table 4.4). Members are named by sid. -/
structure CvReg where
  members : List Nat := []
  phase : Nat := 0
  kind : Nat := 0
  sig : List Nat := []
  signed : List Nat := []
  hist : BitVec 64 := 0
  cancels : BitVec 16 := 0
  reason : Nat := 0
  /-- Engine entries that members signed or issued before their arrival in the open phase: (sid, entry) (R122). -/
  pend : List (Nat × Nat) := []
  /-- Phases closed completed and not yet released, with the engine entries they wait for (R122). -/
  unrel : List (Nat × List Nat) := []
  /-- Complete, and waiting signed for the hold state or a queue entry (R281). -/
  fixed : Bool := false
  /-- A bank of the pending matrix operation's tile has been released since it was signed (R271). -/
  gone : Bool := false
  /-- Stage bytes written since the first signature of a pending matrix operation, and what stood there (R286). -/
  late : List (Nat × Byte) := []
  /-- Since when one side of a pending `mx.pmma` is fully signed and the other not (R280), in cc. -/
  sideFrom : Option Nat := none
  deriving DecidableEq, Repr

/-- A crew (R70, R388). `cores` is empty while it holds no W-core. Stage memory, accumulators and the crew record
belong to it wherever it is placed. -/
structure Crew where
  id : Nat
  fleet : Word := 0
  cid : Nat := 0
  shape : Nat := 1
  cls : Nat := 0
  prio : Nat := 0
  die : Nat := 0
  cores : List Nat := []
  order : Nat := 0
  forkTime : Nat := 0
  stageSize : Nat := 0
  banks : Nat := 0
  cvs : Nat := 0
  save : Nat := 0
  recd : Nat := 0
  /-- Strands that have not ended, by sid. -/
  live : List Nat := []
  cv : List CvReg := []
  sreg : CvReg := {}
  stage : Sparse 8 := []
  /-- Poisoned 64 B stage rows, by stage address / 64. -/
  rowPoison : List Nat := []
  acc : Sparse 32 := []
  /-- Elements that fail their check (R387). -/
  accFail : List Nat := []
  /-- Allocated banks, one 32-bit map per crew W-core (R263). -/
  alloc : List (BitVec 32) := []
  /-- Engine hold per crew W-core (R281). -/
  hold : List Nat := []
  holder : List Nat := []
  holdCtr : List Nat := []
  mxflg : Word := 0
  epflg : Word := 0
  /-- Epilogue programs: (crew W-core * 4 + number, image words). -/
  progs : List (Nat × List Nat) := []
  hstall : Word := 0
  tstall : Word := 0
  /-- 0 in place, 1 being saved, 2 pre-empted, 3 placed again and not yet restored (R389, R390). -/
  pre : Nat := 0
  /-- `fk.stop.pre` has reached it and it has not been pre-empted since (R83). -/
  toPre : Bool := false
  /-- Its strands are being stopped: its registers no longer complete anything (R128). -/
  stopping : Bool := false
  /-- A pre-empted crew that is not a candidate for placement: its fleet is in state 5, or its thread recalled. -/
  heldBack : Bool := false
  /-- Withdrawal flag with its cause, and the deadline of its grace in ns (R413). -/
  wd : Nat := 0
  wdEnd : Nat := 0
  /-- Pages and values of the crew's sample-group record (R319). -/
  sgrec : Nat := 0
  sibling : Nat := 0
  deriving DecidableEq, Repr

/-- A sample group (R310 to R316). -/
structure Group where
  n : Nat := 0
  timeout : Nat := 0
  eps : BitVec 64 := 0
  record : Nat := 0
  frames : List Nat := []
  rewards : List (Nat × BitVec 64) := []
  states : List Nat := []
  clock : Nat := 0
  running : Bool := false
  closed : Bool := false
  flags : Nat := 0
  deriving DecidableEq, Repr

/-- A fleet (R70, R71, R76). -/
structure Fleet where
  handle : Word
  /-- Image of the forking strand, depth-0 image of its thread, and the fleet of the forking strand, 0 for none. -/
  forker : Nat := 0
  root : Nat := 0
  parent : Word := 0
  die : Nat := 0
  entry : Word := 0
  crews : Nat := 0
  shape : Nat := 1
  cls : Nat := 0
  prio : Nat := 0
  stageSize : Nat := 0
  banks : Nat := 0
  cvs : Nat := 0
  depth : Nat := 1
  /-- What each child strand's image starts with, by offset / 8 (R74, R357). -/
  seed : Sparse 64 := []
  forkTime : Nat := 0
  /-- Lowest crew index not yet placed or dropped; crews placed; crews completed. -/
  nextC : Nat := 0
  placed : Nat := 0
  completed : Nat := 0
  /-- Its unplaced crews are dropped. -/
  dropped : Bool := false
  cancelled : Bool := false
  pre : Bool := false
  recd : Nat := 0
  group : Option Group := none
  deriving DecidableEq, Repr

/-- A depth-0 image frame (R60, R65). `posted` is the kind of the last notice posted, 0 for none. -/
structure Frame where
  image : Nat
  die : Nat := 0
  tag : Word := 0
  satp : Word := 0
  posted : Nat := 0
  recalled : Bool := false
  killed : Bool := false
  noted : Bool := false
  deriving DecidableEq, Repr

/-- A home notice waiting to be posted (R59). -/
structure Notice where
  die : Nat
  kind : Nat
  tag : Word
  image : Nat
  deriving DecidableEq, Repr

/-- A forward entry waiting to be posted (R366). -/
structure FwdEntry where
  die : Nat
  image : Nat
  /-- Depth-0 image of its thread. -/
  root : Nat := 0
  kind : Nat
  cause : Nat
  deriving DecidableEq, Repr

/-- A translation held by a TLB of a core (R179): `quad` 0 to 3 the L1 TLB of a quadrant, 4 the L2 TLB; cores 192 and above are
L-cores, whose entries count as of an L2 TLB. -/
structure TlbEntry where
  core : Nat
  quad : Nat := 4
  asid : Nat
  glob : Bool
  va : Nat
  size : Nat
  pa : Nat
  flags : Nat
  pbmt : Nat
  deriving DecidableEq, Repr

/-- A page whose attribute in force is not the one that the PAT holds: a change of the table takes effect for the page once an
invalidation that covers it is acknowledged (R184). -/
structure PatOld where
  page : Nat
  attr : Nat
  deriving DecidableEq, Repr

/-- What follows a write of the hardware once it is performed: a fault record is counted (R384), a slot of the invalidation block
becomes idle (R378), a line that held a lost context line is poisoned (R387). -/
inductive HwAct
  | none
  | record (core : Nat)
  | inval (slot : Nat)
  | lost (line : Nat)
  deriving DecidableEq, Repr

/-- A write of the hardware that waits for an owned or held line or for memory (R206, R217): W-core, or 192, address and bytes.
Writes of one `chain`, unless it is 0, are performed in order; one that is `vis` reaches every die before what follows it. -/
structure HwWrite where
  core : Nat
  addr : Nat
  data : List Byte
  chain : Nat := 0
  vis : Bool := false
  act : HwAct := .none
  deriving DecidableEq, Repr

/-- Where an access goes after translation. -/
structure Phys where
  pa : Nat
  pbmt : Nat
  attr : Nat
  /-- The translation is global. -/
  glob : Bool := false
  deriving DecidableEq, Repr

/-- A line held as a non-coherent copy in a W-core's L1 (R190). -/
structure NcLine where
  core : Nat
  line : Nat
  data : List Byte
  deriving DecidableEq, Repr

/-- An entry of a reduction buffer (R226, R227): contributions by byte offset in the line; `point` 0 L1, 1 LLC, 2 home;
`filter` the contributor filter. -/
structure RedEntry where
  core : Nat
  line : Nat
  op : AOp
  ty : ITy
  point : Nat
  vals : List (Nat × Nat)
  filter : BitVec 64
  /-- Images of the strands that contributed. -/
  who : List Nat := []
  owner : Nat
  born : Nat
  deriving DecidableEq, Repr

/-- An LR hold (R217). -/
structure Hold where
  core : Nat
  granule : Nat
  image : Nat
  left : Nat
  expiry : Nat
  waiters : List Nat
  /-- Accesses that wait for its end, oldest first: agent and pc of the instruction. -/
  reqs : List (Agent × Word) := []
  deriving DecidableEq, Repr

/-- Stands for the address of a zero row. -/
def zeroAddr : Nat := 2 ^ 64

/-- Part of a side of a copy: a translated physical address, or a stage address of the crew, and a length. -/
structure Piece where
  addr : Nat
  len : Nat
  deriving DecidableEq, Repr

/-- A copy (R236 to R258). -/
structure Copy where
  id : Nat
  core : Nat := 0
  image : Nat := 0
  crew : Nat := 0
  batch : Nat := 0
  /-- 0 queued, 1 spilled, 2 begun; which engine of the pod, 0 or 1. -/
  stage : Nat := 0
  eng : Nat := 0
  dstStage : Bool := false
  srcStage : Bool := false
  /-- A fill with this pattern. -/
  fill : Bool := false
  pattern : Word := 0
  /-- Bytes of a row on each side; a transfer is one row. -/
  rowS : Nat := 0
  rowD : Nat := 0
  /-- The bytes of each side, rows end to end; a source piece at `zeroAddr` stands for a zero row (R248). -/
  src : List Piece := []
  dst : List Piece := []
  /-- Conversion: source format, destination format, scales per group of 32 elements (one entry: the one scale). -/
  conv : Option (CFmt × CFmt) := none
  scales : List Nat := []
  rm : Nat := 0
  /-- Chunks written, by line or row; stage bytes written of a chunk that is not (R207). -/
  done : List Nat := []
  part : List Nat := []
  /-- Destination lines of memory that the engine owns and has not written (R206); source lines or stage rows not read
  (R245). -/
  own : List Nat := []
  unread : List Nat := []
  owner : Nat := 0
  /-- Physical address of a spilled descriptor that is not read back. -/
  desc : Nat := 0
  /-- Pages translated at issue, and whether globally, with the address-space identifier (R258). -/
  vas : List (Nat × Bool) := []
  asid : Nat := 0
  deriving DecidableEq, Repr

/-- What an engine-queue entry does when it is performed (R260, R284, R296). A matrix operation holds the rows of A that
its members latched (R277) or, for a paired operation, that the other side has read (R278), and the id of the other
side; once started it holds its operands. -/
inductive EngOp
  | amGet (bank cnt : Nat)
  | amRel (bank cnt : Nat)
  | amZero (bank cnt : Nat)
  | amRd (bank row col : Nat)
  | mma (fmt m n : Nat) (z : Bool) (acc a b p : Nat) (rows : Option (List (List Nat))) (mate : Option Nat)
  | calc (fmt m n : Nat) (z : Bool) (acc : Nat) (ar br : List (List Nat)) (bad : Bool)
  | load (prog : Nat) (words : List Nat)
  | run (prog h w b0 b1 x : Nat)
  | drain (prog h w acc b0 b1 x : Nat) (z : Bool)
  deriving DecidableEq, Repr

/-- An entry of the engine queue of a W-core (R260), in queue order. -/
structure EngEntry where
  id : Nat
  core : Nat
  crew : Nat
  v : Nat
  op : EngOp
  /-- Members that signed it, or its issuer, by sid. -/
  by' : List Nat := []
  /-- Strands that wait for it, by image, with rd. -/
  who : List (Nat × Reg) := []
  /-- Stage bytes written since it entered and what stood there: it may read either (R286, R305). -/
  late : List (Nat × Byte) := []
  /-- A row of A that the other side of its pair has read was marked (R278, R289). -/
  bad : Bool := false
  deriving DecidableEq, Repr

/-- What an IOMMU holds of the tables that it walks: a device context by device, a process context by device and process, a
leaf of the first stage by guest, address space and page, a leaf of the second by guest and page, an MSI entry (R30, log 28). -/
inductive IoHeld
  | device (dev : Nat) (dc : List Nat)
  | process (dev pid : Nat) (pc : List Nat)
  | first (guest : Option Nat) (pscid page pte level : Nat)
  | second (guest page pte level : Nat)
  | msi (guest page : Nat) (pte : List Nat)
  deriving DecidableEq, Repr

/-- What a port sends to a device: a completion, with data that a read brought, Unsupported Request or Completer Abort (R422); the
answer to a translation request, an address with its permissions to read, write and execute, `raw` where only untranslated accesses may
use it; a command of the IOMMU; a request of a device of the other port (R30, log 28). -/
inductive DevMsg
  | done (dev : Nat) (data : List (Byte × Bool))
  | unsupported (dev : Nat)
  | abort (dev : Nat)
  | translated (dev pa : Nat) (r w x raw : Bool)
  | command (a b : Nat)
  | peer (dev pa : Nat) (req : BusReq)
  deriving DecidableEq, Repr

/-- A vector of an IOMMU's interrupts. -/
structure IoVector where
  addr : Nat := 0
  data : Nat := 0
  masked : Bool := false
  deriving DecidableEq, Repr

/-- The IOMMU of a port: the registers of its standard, under their names there, and what it holds (R30). -/
structure Iommu where
  ddtp : Word := 0
  cqb : Word := 0
  cqh : Nat := 0
  cqt : Nat := 0
  /-- Command, fault and page-request queue: on, interrupt enabled, and the error bits of the control register. -/
  cqOn : Bool := false
  cqIe : Bool := false
  cqFault : Bool := false
  cqIll : Bool := false
  fqb : Word := 0
  fqh : Nat := 0
  fqt : Nat := 0
  fqOn : Bool := false
  fqIe : Bool := false
  fqFault : Bool := false
  fqOver : Bool := false
  pqb : Word := 0
  pqh : Nat := 0
  pqt : Nat := 0
  pqOn : Bool := false
  pqIe : Bool := false
  pqFault : Bool := false
  pqOver : Bool := false
  /-- `ipsr`: command queue, fault queue, page-request queue. -/
  ipsr : Nat := 0
  icvec : Word := 0
  vectors : List IoVector := List.replicate 16 {}
  held : List IoHeld := []
  /-- Requests that wait for their tables or their bytes, oldest first, with their address once it is translated (R217). -/
  waiting : List (DevReq × Option Nat) := []
  /-- The addresses of the devices behind the port, first and number, as its configuration gives them: an input (log 28). -/
  window : Nat × Nat := (0, 0)
  /-- Data that configuration reads at the port have returned (R424, log 94). -/
  config : List (List Byte) := []
  /-- What the port has sent to its devices. -/
  sent : List DevMsg := []
  deriving DecidableEq, Repr

/-- A collective or ring descriptor in the engine (R337 to R346). -/
structure Desc where
  id : Nat
  image : Nat := 0
  crew : Nat := 0
  /-- Its eight words (Table 13.3). -/
  words : List Nat := []
  asid : Nat := 0
  /-- Its gate has opened. -/
  begun : Bool := false
  /-- A ring that has matched (R345). -/
  matched : Bool := false
  gatePa : Nat := 0
  sigPa : Nat := 0
  stPa : Nat := 0
  loc : List Piece := []
  /-- Once data moves: where the remote bytes lie (R339), and the runs of elements, or of chunks of a ring, that have not moved:
  first and count (R346, R354). -/
  far : Option Nat := none
  left : List (Nat × Nat) := []
  /-- Pages translated at posting, and whether globally (R343, R355). -/
  vas : List (Nat × Bool) := []
  /-- End of the matching timeout in ns, 0 for none. -/
  deadline : Nat := 0
  /-- It ends with this status, negated, once its status and signal words can be written (R206, R217, R341). -/
  ending : Option Nat := none
  deriving DecidableEq, Repr

/-- An invalidation that is not yet acknowledged (R377 to R380). -/
structure Inval where
  id : Nat
  va : Word
  ctl : Nat
  /-- Slot of the invalidation block, or 32 for an instruction. -/
  slot : Nat
  image : Nat
  deriving DecidableEq, Repr

/-- A store of agent `writer` to a replicated page that has not reached a die: from `pa` its agents read `old`, but for the
writer (R127, R204). -/
structure Replica where
  die : Nat
  pa : Nat
  old : List Byte
  writer : Nat
  deriving DecidableEq, Repr

/-- How a caching agent holds a line (R186). -/
inductive Moesi | m | o | e | s
  deriving DecidableEq, Repr

/-- Who holds a line, and how: caching agents of the package in a home's directory (0 to 3 W-dies, 4 and 5 L-dies, 6 the
scale-up link), packages in a switch's snoop filter (R186, R334). -/
structure DirLine where
  line : Nat
  holders : List (Nat × Moesi)
  deriving DecidableEq, Repr

/-- An access of DBGDATA that waits: its W-die, what DBGSEL held when it began, what it writes, and the L-core whose load or
store it is (R396). -/
structure DbgAccess where
  die : Nat
  sel : Word
  wr : Option Word
  by' : Option Nat := none
  deriving DecidableEq, Repr

/-- A W-core (R15). -/
structure CoreState where
  frecbase : Word := 0
  frecmask : Word := 0x0E00B0A2
  frectail : Word := 0
  rbmrg : Word := 0
  rbevc : Word := 0
  scfail : Word := 0
  hldwt : Word := 0
  /-- Strands whose LR waits because the hold table is full. -/
  lrq : List Nat := []
  mxcnt : Word := 0
  epcnt : Word := 0
  gatecnt : Word := 0
  balcnt : Word := 0
  /-- Per quadrant. -/
  ovrcnt : List Word := [0, 0, 0, 0]
  dualcnt : List Word := [0, 0, 0, 0]
  /-- Powered: false while its zone has been gated (R414). -/
  powered : Bool := true
  deriving DecidableEq, Repr

/-- A pod (R14, R400 to R404, R419). -/
structure PodState where
  /-- Operating class of its pool. -/
  pool : Nat := 0
  /-- `passcnt` and `bstmax` in force, and as last written by firmware (R414); `passC` what the power controller asks for (R407). -/
  passcnt : Nat := 0
  bstmax : Nat := 8
  passW : Nat := 0
  bstW : Nat := 8
  passC : Nat := 0
  /-- Measured draw in W, now and at the last sample of the current controller (R407, R408): an input. -/
  draw : Nat := 0
  drawWas : Nat := 0
  mhz : Nat := 1700
  /-- Thousandths of a cc since reset, and those of them under a debug halt. -/
  ticks : Nat := 0
  hticks : Nat := 0
  steps : Nat := 0
  /-- Gated lane-cycles since the last boost recomputation; its time in ns and in `ticks`. -/
  gated : Nat := 0
  boostAt : Nat := 0
  boostTicks : Nat := 0
  /-- Reassignment: 0 none, 1 withdrawing, 2 settling, when it belongs to no pool; target class. -/
  rcls : Nat := 0
  target : Nat := 0
  halted : Bool := false
  /-- Where each of the pod's two copy engines looks next, among its W-cores (R239). -/
  cpTurn : List Nat := [0, 0]
  deriving DecidableEq, Repr

/-- A coolant zone (Table 15.2, R410 to R414). -/
structure ZoneState where
  state : Nat := 0
  temp : Nat := 480
  flow : Nat := 77
  allow : Nat := 0xFFFF
  valve : Nat := 0xFF
  retry : Nat := 0
  /-- Committed load at the entry to state 2 (R410). -/
  lastL : Nat := 0
  /-- Purge: 0 not begun, 1 valve held closed, 2 valve held open; its start in ns. -/
  purge : Nat := 0
  purgeAt : Nat := 0
  /-- R414 step 2 is done. -/
  gated : Bool := false
  /-- Since when, in ns, the flow is below Fmin, at or above it, below an eighth of it, and the temperature below
  warn - 80 and below warn; each counts while its condition holds (Table 15.4). -/
  lowFrom : Nat := 0
  okFrom : Nat := 0
  dryFrom : Nat := 0
  coolFrom : Nat := 0
  belowFrom : Nat := 0
  deriving DecidableEq, Repr

/-- Supervisor CSRs that hold one value per W-die (R351, R419). -/
structure DieState where
  clsreq : Word := 0
  clarb : Word := 0x1030
  clcap : Word := 0
  deriving DecidableEq, Repr

/-- Modes of an L-core (R25). -/
inductive LMode | m | hs | u | vs | vu
  deriving DecidableEq, Repr

/-- An L-core (R25). `ctx` holds pc at 0, x1-x31, f0-f31 at 32 and fcsr at 64; `csr` its standard CSRs by number,
and above 0x1000 the registers of its interrupt files. -/
structure LCore where
  running : Bool := false
  mode : LMode := .m
  ctx : Sparse 64 := []
  /-- `vtype` starts with `vill` set. -/
  csr : Sparse 64 := [(0xC21, 0x8000000000000000)]
  /-- Bytes of v0 to v31, end to end. -/
  vec : Sparse 8 := []
  resv : Option Nat := none
  instret : Word := 0
  /-- As of a strand (R336). -/
  sent : List (Nat × Word) := []
  /-- Guest physical address of the last guest-page fault, for `htval` and `mtval2`. -/
  gpa : Nat := 0
  /-- That fault was of an implicit access of a VS-stage walk, for `htinst` and `mtinst`. -/
  implicit : Bool := false
  deriving DecidableEq, Repr

/-- A firmware copy in Selmel's flash (R427 to R430). -/
structure Image where
  bytes : List Byte := []
  deriving DecidableEq, Repr

/-- Package-wide state: current controller, bring-up, time, attestation, link. -/
structure Pkg where
  /-- Current controller (R408, R409): controlled and actual draw of the last sample in half watts, its time, start of
  the episode in ns, episode in progress. -/
  draw : Nat := 0
  raw : Nat := 0
  sampleAt : Nat := 0
  epStart : Nat := 0
  episode : Bool := false
  /-- Power means in force (R407): 0 none, 1 `bstmax`, 2 pass counts, 3 placement withheld, 4 withdrawal; the end of the
  last window in ns. -/
  means : Nat := 0
  windowAt : Nat := 0
  /-- Pods that the controller has slowed, in that order (R407). -/
  slowed : List Nat := []
  /-- Cap and limit in W of the window in progress, and whether ballast has run in it (R407). -/
  cap : Nat := 3600
  limit : Nat := 3600
  ballasted : Bool := false
  /-- `cllnk` (R351). -/
  cllnk : Word := 0x4040
  /-- Fuses (R427, R428): key digests, revocation bits, minimum versions by kind 1 to 3. -/
  keyDigests : List (BitVec 512) := [0, 0, 0, 0]
  revoked : BitVec 4 := 0
  minVer : List (BitVec 32) := [0, 0, 0]
  /-- The fused secret of the package, and the certificate of its identity in Selmel's flash, which the management port reads (R431). -/
  secret : BitVec 256 := 0
  certificate : List Byte := []
  /-- PCIe ports that are two x8 ports in place of one x16 (R30, R425). -/
  portSplit : BitVec 2 := 0
  /-- Those widths in the management configuration, and what becomes of a unit that bring-up releases, by its RDY bit: not up yet, up,
  or failed; one that is not listed comes up (R425): inputs (log 57). -/
  portConfig : BitVec 2 := 0
  units : List (Nat × Option Bool) := []
  /-- Flash copies A and B of each kind, as they stood at package reset and as they stand, and which is in use (R429). -/
  bootA : List Image := [{}, {}, {}]
  bootB : List Image := [{}, {}, {}]
  flashA : List Image := [{}, {}, {}]
  flashB : List Image := [{}, {}, {}]
  useB : List Bool := [false, false, false]
  /-- Measurements of the images that run (R430). -/
  measured : List (BitVec 512) := [0, 0, 0]
  running : List Image := [{}, {}, {}]
  /-- Evidence returned on the management port (R433). -/
  evidence : List (List Byte) := []
  /-- IEEE 1588 (R434, R435): time of the last message in ns, slew still to apply in ns, its rate in ns per second, and what has been
slewed of the next ns, in ns / 10^9. -/
  lastPtp : Nat := 0
  slew : Int := 0
  rate : Int := 0
  frac : Int := 0
  powered : Bool := false
  stepDone : Nat := 0
  deriving DecidableEq, Repr

/-- The state of the machine. -/
structure State where
  /-- The agent in issue, the bits of its instruction (R31) and its length in bytes: the model's own (log 1). -/
  cur : Agent := .lcore 0
  ibits : Word := 0
  ilen : Nat := 4
  /-- Physical address of its access once that is translated, else 0, for a fault record (Table 14.10), and the tiers of the pages
that it touches (R175). -/
  accPa : Nat := 0
  accTiers : List Nat := []
  /-- What moves next; empty: `cur` issues (log 1). -/
  agenda : List Turn := []
  /-- Free values used (log 5) and names given (log 1). -/
  draws : Nat := 0
  nextId : Nat := 1
  /-- `time`, ns from package reset (R435). -/
  time : Word := 0
  mem : Sparse 8 := []
  /-- Poisoned lines (R174). -/
  poison : List Nat := []
  /-- Owner tags of the lines last dirtied, by line (R385). -/
  owners : Sparse 64 := []
  /-- Page-class table by page (R180). -/
  pct : Sparse 8 := []
  /-- Registers of the MMIO blocks that hold what was written, by address. -/
  mmio : Sparse 64 := []
  strands : List Strand := []
  crews : List Crew := []
  fleets : List Fleet := []
  frames : List Frame := []
  /-- Strand-store allocations: (address, bytes). -/
  allocs : List (Nat × Nat) := []
  /-- Images of forwarded strands that were stopped, with the save area that stays allocated until FWDRSM names them
  (R371). -/
  ghosts : List (Nat × Nat) := []
  notices : List Notice := []
  fwdq : List FwdEntry := []
  lcores : List LCore := List.replicate Config.numLCores {}
  cores : List CoreState := List.replicate Config.numCores {}
  pods : List PodState := List.replicate Config.numPods {}
  dies : List DieState := List.replicate 4 {}
  zones : List ZoneState :=
    List.replicate Config.numPods ({} : ZoneState) ++ List.replicate 2 ({ flow := 150 } : ZoneState)
  pkg : Pkg := {}
  tlb : List TlbEntry := []
  ncs : List NcLine := []
  /-- Parcels in instruction buffers, by quadrant and address (R93, R105). -/
  ibuf : List (Nat × BitVec 16) := []
  rbuf : List RedEntry := []
  holds : List Hold := []
  copies : List Copy := []
  engine : List EngEntry := []
  descs : List Desc := []
  invals : List Inval := []
  replicas : List Replica := []
  /-- Pages whose attribute in force is not that of the PAT (R184). -/
  pats : List PatOld := []
  /-- Writes of the hardware that wait, oldest first (R206, R217). -/
  hwq : List HwWrite := []
  /-- Context lines of the register caches, image and line, in the order of their last use (R56). -/
  lru : List (Nat × Nat) := []
  /-- Lines that ordinary accesses have touched in the cc in progress: W-core, line, cc (R211). -/
  cycle : List (Nat × Nat × Nat) := []
  /-- The last instruction issued could not begin and stays where it is (R94): the model's own. -/
  stalled : Bool := false
  peerPosts : List PeerPost := []
  /-- CLRGNB of each peer (log 14). -/
  peerRgn : Sparse 64 := []
  /-- Directory of the lines of this package's homes that are cached outside private pages (R186). -/
  dir : List DirLine := []
  /-- Lines of this package's homes that the switches' snoop filters track, longest tracked first (R334). -/
  snoop : List DirLine := []
  /-- The IOMMUs of the PCIe ports (R30). -/
  iommus : List Iommu := List.replicate 2 {}
  /-- Accesses of DBGDATA that wait, oldest first (R396). -/
  dbgq : List DbgAccess := []
  /-- Pool pointers, one per class (R76). -/
  poolPtr : List Nat := [47, 47, 47]
  /-- MSIs sent: (address, data). -/
  msis : List (Nat × Nat) := []
  deriving DecidableEq, Repr

/-- Where the machine stops. -/
inductive Fault
  /-- `exec` of an instruction of a strand or L-core when `State.cur` names neither a strand that holds a slot nor an
  L-core that runs. No step raises it: `step` executes only for an agent that exists. Safe. -/
  | noAgent
  deriving DecidableEq, Repr

/-- What the model does not execute. -/
inductive Refusal
  /-- An instruction whose meaning is not written yet. Safe. -/
  | notModelled (mnemonic : String)
  deriving DecidableEq, Repr

/-- Address of register offset `o` of the block of die `d` of the per-die block at `base`. -/
def dieReg (base d o : Nat) : Nat := base + d * 0x1000 + o

/-- Dispatcher block (R58). -/
def dispBase : Nat := 0x00F000100000
/-- Memory attribute block (R185). -/
def attrBase : Nat := 0x00F000200000
/-- Link block (R331). -/
def linkBase : Nat := 0x00F000300000
/-- Trap block (R365). -/
def trapBase : Nat := 0x00F000400000
/-- Debug block (R391). -/
def debugBase : Nat := 0x00F000500000
/-- Power and coolant block (R405). -/
def powerBase : Nat := 0x00F000700000
/-- Bring-up block (R421). -/
def bootBase : Nat := 0x00F000800000
/-- Invalidation block (R378). -/
def invalBase : Nat := 0x00F000600000

/-- The machine right after reset. -/
def State.reset : State :=
  { mmio :=
      [(dieReg dispBase 0 0x18, 7), (dieReg dispBase 0 0x28, 4), (dieReg dispBase 1 0x18, 7), (dieReg dispBase 1 0x28, 4),
       (dieReg dispBase 2 0x18, 7), (dieReg dispBase 2 0x28, 4), (dieReg dispBase 3 0x18, 7), (dieReg dispBase 3 0x28, 4),
       (attrBase + 0x08, 0x01BFEE000000), (linkBase, 1),
       (dieReg trapBase 0 0x08, 4), (dieReg trapBase 1 0x08, 4), (dieReg trapBase 2 0x08, 4), (dieReg trapBase 3 0x08, 4),
       (powerBase, 3600), (powerBase + 0x08, 64), (powerBase + 0x18, 100), (powerBase + 0x20, 0x091610),
       (powerBase + 0x28, 0x0FA0000001E0), (powerBase + 0x30, 0x069005F0),
       (bootBase + 0x20, 0xFFFFFFFFFFFFFFFF), (bootBase + 0x28, 0xFFFFFFFFFFFFFFFF), (bootBase + 0x30, 0xFFFFFFFFFFFFFFFF)] }

end Sys2Proof.Machine
end

