-- ==== Sys2Proof/Machine/Access.lean ====
section
/-! DEFINITION. Reading and updating the parts of the state: strands, crews, fleets, cores, pods, registers of the agent
in issue, time, free values. -/

namespace Sys2Proof.Machine

/-- One step's answer. -/
abbrev Out := Host.Outcome State Fault Refusal

/-! ### Image words by offset / 8 (Table 3.1, Table 14.1) -/

/-- pc. -/
def cPc : Nat := 0
/-- fcsr. -/
def cFcsr : Nat := 64
/-- `thctl`. -/
def cThctl : Nat := 65
/-- `fxsat`. -/
def cFxsat : Nat := 66
/-- `cpspl`. -/
def cCpspl : Nat := 67
/-- `tstall`. -/
def cTstall : Nat := 71
/-- `fid`. -/
def cFid : Nat := 72
/-- cid [31:0], csize [47:32], fdepth [55:48], privilege [63:56]. -/
def cCid : Nat := 73
/-- sid [15:0], crew W-core number [23:16], priority [31:24], class [39:32]. -/
def cSid : Nat := 74
/-- Parent link. -/
def cParent : Nat := 75
/-- Child slot 0. -/
def cChild : Nat := 76
/-- `cpbat`. -/
def cCpbat : Nat := 80
/-- Spill ring indices: fill [31:0], drain [63:32]. -/
def cSpill : Nat := 81
/-- Thread tag. -/
def cTag : Nat := 84
/-- `satp`. -/
def cSatp : Nat := 85
/-- `rsmcnt`. -/
def cRsm : Nat := 86
/-- Waypoint address. -/
def cWay : Nat := 87
/-- `sepc`. -/
def cSepc : Nat := 96
/-- `scause`. -/
def cScause : Nat := 97
/-- `stval`. -/
def cStval : Nat := 98
/-- `sscratch`. -/
def cSscratch : Nat := 99
/-- `wtvec`. -/
def cWtvec : Nat := 100
/-- `wstatus`. -/
def cWstatus : Nat := 101
/-- `wtslo`. -/
def cWtslo : Nat := 102
/-- `wtshi`. -/
def cWtshi : Nat := 103
/-- Depth-1 save; depth-2 save 4 words on. -/
def cSave : Nat := 104
/-- fwdres. -/
def cFwdres : Nat := 112
/-- fwdrd [7:0], forward state [15:8], debug control [23:16], stop reason [31:24]. -/
def cFwd : Nat := 113

/-! ### Legal values of CSRs that an image holds -/

/-- `cpspl` as it is stored (Table 9.1). -/
def cpsplLegal (v : Word) : Word := (v &&& ~~~0xFFF) ||| w64 (min 10 (wbits v 3 0))

/-- `thctl` as it is stored (Table 3.7). -/
def thctlLegal (old v : Word) : Word :=
  let live := if 16 < popcount (wbits v 47 16) 32 then wbits old 47 16 else wbits v 47 16 / 2 * 2
  w64 (live * 65536 + wbits v 15 0)

/-- Cause codes that `scause` takes (Table 14.3). -/
def scauseLegal (c : Nat) : Bool := c ≤ 9 || c = 12 || c = 13 || c = 15 || (24 ≤ c && c ≤ 27)

namespace Strand

/-- Word `i` of the image. -/
def cw (t : Strand) (i : Nat) : Word := sget t.ctx i

/-- Writes word `i` of the image. -/
def setCw (t : Strand) (i : Nat) (v : Word) : Strand := { t with ctx := sset t.ctx i v }

/-- Bits [h:l] of word `i`. -/
def cbits (t : Strand) (i h l : Nat) : Nat := wbits (t.cw i) h l

/-- Writes bits [h:l] of word `i`. -/
def setCbits (t : Strand) (i h l v : Nat) : Strand := t.setCw i (winsert (t.cw i) h l v)

/-- Trap depth: `wstatus`[9:8] (R356). -/
def depth (t : Strand) : Nat := t.cbits cWstatus 9 8

/-- Sets the depth, and with it the privilege byte (R356). -/
def setDepth (t : Strand) (d : Nat) : Strand :=
  (t.setCbits cWstatus 9 8 d).setCbits cCid 56 56 (if d = 0 then 0 else 1)

/-- S-mode (R356). -/
def sMode (t : Strand) : Bool := t.depth ≠ 0

/-- Address space identifier of `satp`. -/
def asid (t : Strand) : Nat := t.cbits cSatp 59 44

/-- Debug control: att, ebs, stopped (Table 14.1). -/
def att (t : Strand) : Bool := t.cbits cFwd 16 16 = 1
/-- Stops at `ebreak`. -/
def ebs (t : Strand) : Bool := t.cbits cFwd 17 17 = 1
/-- Debug-stopped. -/
def stopped (t : Strand) : Bool := t.cbits cFwd 18 18 = 1

/-- The pending writes of the scoreboard but for that of the collective it has signed (R130). -/
def unsigned (t : Strand) : List Mark :=
  match t.wait with
  | .signed _ rd _ => t.marks.filter fun m => m.reg % 32 ≠ rd.toNat
  | _ => t.marks

/-- A crew leader is strand 0 of its crew. -/
def leader (t : Strand) : Bool := t.sid = 0

end Strand

namespace State

/-! ### Look-up and update -/

/-- The strand of an image. -/
def strand? (s : State) (k : Nat) : Option Strand := kfind (·.image) s.strands k

/-- Inserts or replaces a strand. -/
def putStrand (s : State) (t : Strand) : State := { s with strands := kput (·.image) s.strands t }

/-- Updates a strand. -/
def modStrand (s : State) (k : Nat) (f : Strand → Strand) : State := { s with strands := kmod (·.image) s.strands k f }

/-- The strand ceases to exist. -/
def delStrand (s : State) (k : Nat) : State := { s with strands := kdel (·.image) s.strands k }

/-- The crew with this id. -/
def crew? (s : State) (i : Nat) : Option Crew := kfind (·.id) s.crews i

/-- Inserts or replaces a crew. -/
def putCrew (s : State) (c : Crew) : State := { s with crews := kput (·.id) s.crews c }

/-- Updates a crew. -/
def modCrew (s : State) (i : Nat) (f : Crew → Crew) : State := { s with crews := kmod (·.id) s.crews i f }

/-- The fleet with this handle. -/
def fleet? (s : State) (h : Word) : Option Fleet := s.fleets.find? (·.handle = h)

/-- Updates a fleet. -/
def modFleet (s : State) (h : Word) (f : Fleet → Fleet) : State :=
  { s with fleets := s.fleets.map fun x => if x.handle = h then f x else x }

/-- The depth-0 frame at this address. -/
def frame? (s : State) (k : Nat) : Option Frame := kfind (·.image) s.frames k

/-- Updates a frame. -/
def modFrame (s : State) (k : Nat) (f : Frame → Frame) : State := { s with frames := kmod (·.image) s.frames k f }

/-- W-core `n`. -/
def coreAt (s : State) (n : Nat) : CoreState := s.cores.getD n {}

/-- Updates W-core `n`. -/
def modCore (s : State) (n : Nat) (f : CoreState → CoreState) : State := { s with cores := lmod s.cores n f }

/-- Pod `q`. -/
def podAt (s : State) (q : Nat) : PodState := s.pods.getD q {}

/-- Updates pod `q`. -/
def modPod (s : State) (q : Nat) (f : PodState → PodState) : State := { s with pods := lmod s.pods q f }

/-- W-die `d`. -/
def dieAt (s : State) (d : Nat) : DieState := s.dies.getD d {}

/-- Updates W-die `d`. -/
def modDie (s : State) (d : Nat) (f : DieState → DieState) : State := { s with dies := lmod s.dies d f }

/-- Zone `z`. -/
def zoneAt (s : State) (z : Nat) : ZoneState := s.zones.getD z {}

/-- Updates zone `z`. -/
def modZone (s : State) (z : Nat) (f : ZoneState → ZoneState) : State := { s with zones := lmod s.zones z f }

/-- L-core `i`. -/
def lcoreAt (s : State) (i : Nat) : LCore := s.lcores.getD i {}

/-- Updates L-core `i`. -/
def modLcore (s : State) (i : Nat) (f : LCore → LCore) : State := { s with lcores := lmod s.lcores i f }

/-- An MMIO register that holds what was written. -/
def reg (s : State) (pa : Nat) : Word := sget s.mmio pa

/-- Sets such a register. -/
def setReg (s : State) (pa : Nat) (v : Word) : State := { s with mmio := sset s.mmio pa v }

/-- The pod of a W-core (R10). -/
def podOf (core : Nat) : Nat := core / 4

/-- The W-die of a W-core. -/
def dieOf (core : Nat) : Nat := core / 48

/-- cc of the clock of a W-core's pod. -/
def cc (s : State) (core : Nat) : Nat := (s.podAt (podOf core)).ticks / 1000

/-- The same without the time under a debug halt (R280, R397). -/
def ccRun (s : State) (core : Nat) : Nat := ((s.podAt (podOf core)).ticks - (s.podAt (podOf core)).hticks) / 1000

/-- A free yes or no (log 5). -/
def drawBit (s : State) : Bool × State := (Config.freeBit s.draws, { s with draws := s.draws + 1 })

/-- A free number (log 5). -/
def drawNat (s : State) : Nat × State := (Config.freeNat s.draws, { s with draws := s.draws + 1 })

/-- A new name. -/
def fresh (s : State) : Nat × State := (s.nextId, { s with nextId := s.nextId + 1 })

/-! ### Registers of the agent in issue -/

/-- The context words of an agent. -/
def ctxOf (s : State) (a : Agent) : Sparse 64 :=
  match a with
  | .strand k => match s.strand? k with | some t => t.ctx | none => []
  | .lcore i => (s.lcoreAt i).ctx

/-- Writes a context word of an agent. -/
def setCtx (s : State) (a : Agent) (i : Nat) (v : Word) : State :=
  match a with
  | .strand k => s.modStrand k fun t => t.setCw i v
  | .lcore j => s.modLcore j fun c => { c with ctx := sset c.ctx i v }

/-- X[r]; x0 reads zero (R34). -/
def x (s : State) (r : Reg) : Word := if r = 0 then 0 else sget (s.ctxOf s.cur) r.toNat

/-- X[r] := v; a write to x0 is discarded (R34). -/
def setX (s : State) (r : Reg) (v : Word) : State := if r = 0 then s else s.setCtx s.cur r.toNat v

/-- F[r]. -/
def f (s : State) (r : Reg) : Word := sget (s.ctxOf s.cur) (32 + r.toNat)

/-- F[r] := v. -/
def setF (s : State) (r : Reg) (v : Word) : State := s.setCtx s.cur (32 + r.toNat) v

/-- The pc of the agent in issue. -/
def pc (s : State) : Word := sget (s.ctxOf s.cur) cPc

/-- Sets it; bit 0 of a pc is zero. -/
def setPc (s : State) (v : Word) : State := s.setCtx s.cur cPc v

/-- fcsr of the agent in issue. -/
def fcsr (s : State) : Word := sget (s.ctxOf s.cur) cFcsr

/-- Sets fcsr. -/
def setFcsr (s : State) (v : Word) : State := s.setCtx s.cur cFcsr v

/-- Accrues floating-point flags NV DZ OF UF NX in [4:0] (R146). -/
def accrue (s : State) (fl : Nat) : State :=
  if fl % 32 = 0 then s else s.setFcsr (s.fcsr ||| w64 (fl % 32))

/-- Bookkeeping when an instruction of the agent retires: instructions counted (Zicntr), a strand's age restarts
(R95), its LR hold counts the instruction (R217), a step ends (R394). -/
def retired (s : State) : State :=
  match s.cur with
  | .lcore i => s.modLcore i fun c => { c with instret := c.instret + 1, sent := [] }
  | .strand k =>
    match s.strand? k with
    | none => s
    | some _ =>
      let s := s.modStrand k fun t =>
        { t with instret := t.instret + 1, since := none, step := false, sent := [],
                 pendStop := if t.step && t.pendStop = 0 then 2 else t.pendStop }
      { s with holds := s.holds.map fun h => if h.image = k then { h with left := h.left - 1 } else h }

/-- The instruction retires and the pc passes it. -/
def next (s : State) : Out := .next ((s.setPc (s.pc + w64 s.ilen)).retired)

/-- The instruction retires with `v` in rd (Status, R7). -/
def status (s : State) (rd : Reg) (v : Word) : Out := (s.setX rd v).next

/-- The pc becomes `v` and the instruction retires. -/
def jump (s : State) (v : Word) : Out := .next ((s.setPc v).retired)

/-- The strand in issue, if it holds a slot. -/
def curStrand (s : State) : Option Strand :=
  match s.cur with
  | .lcore _ => none
  | .strand k =>
    match s.strand? k with
    | some t => if t.status = .resident then some t else none
    | none => none

/-- The crew of a strand. -/
def crewOf (s : State) (t : Strand) : Option Crew := s.crew? t.crew

/-- Updates the strand in issue. -/
def modCur (s : State) (g : Strand → Strand) : State :=
  match s.cur with
  | .strand k => s.modStrand k g
  | .lcore _ => s

/-- The agent in issue begins to wait: the instruction has issued and not retired, and the strand stops being ready (R95). -/
def await (s : State) (w : Wait) : State := s.modCur fun t => { t with wait := w, wlen := s.ilen, since := none }

/-- The instruction cannot begin yet: nothing of it is done, and the strand counts as not ready (R94, R95). -/
def stall (s : State) : Out := .next ({ s with stalled := true }.modCur fun t => { t with since := none })

/-- Runs `g` as another agent, keeping the agent in issue. -/
def asAgent (s : State) (a : Agent) (g : State → State) : State :=
  let s' := g { s with cur := a }
  { s' with cur := s.cur }

/-- The wait of a strand ends and its instruction counts as not begun; what its signature marked pending is not. -/
def dropWait (s : State) (k : Nat) : State :=
  s.modStrand k fun t => { t with wait := .none, marks := t.unsigned, since := none }

end State

/-- What an access, a translation or a check answers: a value, a trap of the agent in issue, or that it cannot be
performed yet. -/
inductive Res (α : Type)
  | ok (s : State) (a : α)
  | trap (s : State) (c : Nat) (v : Word)
  | stall (s : State)

namespace Res

/-- Continues with the value. -/
def bind {α β : Type} (r : Res α) (g : State → α → Res β) : Res β :=
  match r with
  | .ok s a => g s a
  | .trap s c v => .trap s c v
  | .stall s => .stall s

end Res

end Sys2Proof.Machine
end

