-- ==== Sys2Proof/Machine/Memory.lean ====
section
/-! DEFINITION. Physical memory, page classes, translation, instruction buffers and the accesses of an agent
(07_memory.md); merging of buffered reductions (R227, R228); fault records (R382 to R384). -/

namespace Sys2Proof.Machine

/-! ### The physical map (Table 7.1) -/

/-- Ranges of Table 7.1. -/
inductive Region | hbm | lpddr | mmio | peer (p : Nat) | none
  deriving DecidableEq, Repr

/-- The range of a physical address. The page-class table gives an access fault to every agent, as an unmapped range. -/
def region (pa : Nat) : Region :=
  if pa < 0x006000000000 then .hbm
  else if 0x00F000000000 ≤ pa && pa < 0x010000000000 then .mmio
  else if 0x010000000000 ≤ pa && pa < 0x01BFEE000000 then .lpddr
  else if 0x100000000000 ≤ pa && pa < 0x1100000000000 then
    if pa % 0x010000000000 < 0x006000000000 then .peer ((pa - 0x100000000000) / 0x010000000000) else .none
  else .none

/-- Tier of an address for the stall counters: 1 HBM4E, 2 LPDDR-6, 0 neither (R173, R175). A peer window counts in neither
counter (DESIGN CHOICE, log 81). -/
def tierOf (pa : Nat) : Nat :=
  match region pa with
  | .hbm => 1
  | .lpddr => 2
  | .mmio => 0
  | .peer _ => 0
  | .none => 0

/-- This package's number: PKGNUM[7:0] (Table 16.1). -/
def State.pkgNum (s : State) : Nat := wbits (s.reg (bootBase + 0x10)) 7 0

/-- Function `f` is ready: its RDY bit (R423). -/
def State.ready (s : State) (f : Nat) : Bool := wbit (s.reg bootBase) f

/-- Function `f` failed: its FAIL bit. -/
def State.failed (s : State) (f : Nat) : Bool := wbit (s.reg (bootBase + 0x08)) f

/-- Package `p` is present in the domain: its LKPEER bit (R330). -/
def State.present (s : State) (p : Nat) : Bool := wbit (s.reg (linkBase + 8 * (p / 64))) (p % 64)

/-- The functions that a memory address needs ready (Table 16.4): its stack, or its LPDDR-6 package with the L-die that holds its home. -/
def memFns (pa : Nat) : List Nat :=
  match region pa with
  | .hbm => [6 + pa / 0xC00000000]
  | _ => let p := (pa - 0x010000000000) / 0xC00000000
         [14 + p, 4 + p / 8]

/-- Whether memory answers at an address: `ok`, not ready yet (waits), or none (access fault). -/
inductive MemAt | ok | waits | fault
  deriving DecidableEq, Repr

/-- R171, R330, R424. -/
def State.memAt (s : State) (pa : Nat) : MemAt :=
  match region pa with
  | .none => .fault
  | .mmio => .fault
  | .peer p => if p ≠ s.pkgNum && s.present p then .ok else .fault
  | .hbm => if (memFns pa).all s.ready then .ok else if (memFns pa).any s.failed then .fault else .waits
  | .lpddr => if (memFns pa).all s.ready then .ok else if (memFns pa).any s.failed then .fault else .waits

/-! ### Bytes -/

/-- Tag of an agent among the writers of replicated pages; 0 is the hardware. -/
def Agent.tag (a : Agent) : Nat := match a with | .strand k => k | .lcore i => i + 2

/-- The store meets `n` bytes from `pa` on a die. -/
def Replica.meets (r : Replica) (die pa n : Nat) : Bool := r.die = die && r.pa < pa + n && pa < r.pa + r.old.length

/-- What is left of a list after the last entry of a writer. -/
def afterOwn (me : Nat) : List Replica → List Replica
  | [] => []
  | r :: rs => if me ≠ 0 && rs.any (·.writer = me) then afterOwn me rs else if me ≠ 0 && r.writer = me then rs else r :: rs

/-- A byte as agent `me` of die `die` sees it: the die's replica may lack stores, but never one of its own, nor one before
that (R127, R204); dies above 3 hold no replica. -/
def State.byteFor (s : State) (me die pa : Nat) : Byte :=
  match afterOwn me (s.replicas.filter (·.meets die pa 1)) with
  | r :: _ => r.old.getD (pa - r.pa) 0
  | [] => sget s.mem pa

/-- A byte as the other agents of a die see it. -/
def State.byteAt (s : State) (die pa : Nat) : Byte := s.byteFor 0 die pa

/-- The `n` bytes from `pa`, little-endian, as die `die` sees them. -/
def State.peek (s : State) (die pa : Nat) : Nat → Nat
  | 0 => 0
  | n + 1 => (s.byteAt die pa).toNat + 256 * s.peek die (pa + 1) n

/-- Stores of `p` reach their die, and before each the earlier stores to the same bytes: the order of a location is one
order (R204). -/
def State.deliver (s : State) (p : Replica → Bool) : State :=
  if s.replicas.isEmpty then s
  else
    { s with
      replicas := (s.replicas.foldr (fun r (acc : List Replica × List Replica) =>
        if p r || acc.2.any (fun d => d.meets r.die r.pa r.old.length) then (acc.1, r :: acc.2) else (r :: acc.1, acc.2))
        ([], [])).1 }

/-- The tag of merged reductions among the writers: each strand's own are among them. -/
def redTag : Nat := 1

/-- The stores of a writer, and merged reductions, reach every die (R194, R204). -/
def State.drain (s : State) (me : Nat) : State := s.deliver fun r => r.writer = me || r.writer = redTag

/-- They reach one die. -/
def State.drainDie (s : State) (me die : Nat) : State :=
  s.deliver fun r => (r.writer = me || r.writer = redTag) && r.die = die

/-- What has been written to these bytes reaches a die: an agent that has seen it at the home reads nothing older (R198, R204). -/
def State.sawHome (s : State) (die pa n : Nat) : State := s.deliver fun r => r.meets die pa n

/-- The lines of `n` bytes from `pa`. -/
def linesOf (pa n : Nat) : List Nat := if n = 0 then [] else upto (pa / 64) ((pa + n - 1) / 64 - pa / 64 + 1)

/-- A line is poisoned (R174). -/
def State.poisonAt (s : State) (pa n : Nat) : Bool := (linesOf pa n).any fun l => s.poison.contains l

/-- The runs of an access by line. -/
def lineRuns (pa n : Nat) : List (Nat × Nat) :=
  (linesOf pa n).map fun l => (max pa (64 * l), min (pa + n) (64 * l + 64) - max pa (64 * l))

/-! ### The page attribute table (R183, R184) -/

/-- The number of an address's entry in the PAT. -/
def patIndex (pa : Nat) : Option Nat :=
  if pa < 0x006000000000 then some (pa / 4096)
  else if 0x010000000000 ≤ pa && pa < 0x01C000000000 then some (100663296 + (pa - 0x010000000000) / 4096)
  else none

/-- The page of an entry of the PAT. -/
def patPage (k : Nat) : Nat := if k < 100663296 then k else k - 100663296 + 268435456

/-- Where the PAT starts. -/
def State.patBase (s : State) : Nat := wbits (s.reg attrBase) 56 21 * 2 ^ 21

/-- PATBASE.en. -/
def State.patOn (s : State) : Bool := wbit (s.reg attrBase) 0

/-- The attribute that the PAT holds for an address: 0 normal, 1 replicated, 2 unclassified, 3 pinned (R183). -/
def State.patAttr (s : State) (pa : Nat) : Nat :=
  match patIndex pa with
  | none => 0
  | some k => if s.patOn then bits (sget s.mem (s.patBase + k / 4)).toNat (2 * (k % 4) + 1) (2 * (k % 4)) else 0

/-- The entry translates to a physical page. -/
def TlbEntry.maps (e : TlbEntry) (page : Nat) : Bool := e.pa / 4096 ≤ page && page < (e.pa + e.size + 4095) / 4096

/-- The attribute in force for an address: a change of the table acts once an invalidation that covers the page is
acknowledged, or where no TLB translates the page any more (R184, log 82). -/
def State.attrOf (s : State) (pa : Nat) : Nat :=
  match s.pats.find? fun u => u.page = pageOf pa with
  | some u => if s.tlb.any fun e => e.maps (pageOf pa) then u.attr else s.patAttr pa
  | none => s.patAttr pa

/-- Bytes are about to be written: where they are bytes of the PAT, the attributes in force of the pages that they change are kept
(R184). -/
def State.patNote (s : State) (pa : Nat) (data : List Byte) : State :=
  let lo := s.patBase
  let hi := lo + 75497472
  if !s.patOn || pa + data.length ≤ lo || hi ≤ pa then s
  else
    { s with
      pats := (List.zip (upto pa data.length) data).foldl (fun l b =>
        if b.1 < lo || hi ≤ b.1 then l
        else
          (upto 0 4).foldl (fun l j =>
            let pg := patPage (4 * (b.1 - lo) + j)
            let old := bits (sget s.mem b.1).toNat (2 * j + 1) (2 * j)
            if old = bits b.2.toNat (2 * j + 1) (2 * j) || l.any (·.page = pg) then l else { page := pg, attr := old } :: l) l)
        s.pats }

/-- The reservations on some lines are lost, but for that of agent `a` (R216). -/
def State.loseResv (s : State) (ls : List Nat) (a : Agent) : State :=
  let hit (r : Option Nat) : Bool := match r with | some g => ls.contains g | none => false
  { s with
    strands := s.strands.map fun t => if hit t.resv && a ≠ .strand t.image then { t with resv := none } else t
    lcores := (List.zip s.lcores (upto 0 s.lcores.length)).map fun c =>
      if hit c.1.resv && a ≠ .lcore c.2 then { c.1 with resv := none } else c.1 }

/-- Writes bytes at `pa`. `keep` says whose reservation on the line survives (R216); `attr` is the PAT attribute, so that
a store to a replicated page still has to reach each die (R204); a write of a whole line clears its poison (R437). -/
def State.pokeRaw (s : State) (keep : Nat → Bool) (attr : Nat) (writer : Nat) (pa : Nat) (data : List Byte) : State :=
  let s := s.patNote pa data
  let n := data.length
  let ls := linesOf pa n
  let reps : List Replica :=
    if attr = 1 then
      (lineRuns pa n).flatMap fun r => (upto 0 4).map fun d => { die := d, pa := r.1, old := byteList s.mem r.1 r.2, writer }
    else []
  { s with
    mem := byteListSet s.mem pa data
    replicas := s.replicas ++ reps
    poison := s.poison.filter fun l => !(pa ≤ 64 * l && 64 * l + 64 ≤ pa + n)
    strands := s.strands.map fun t =>
      match t.resv with
      | some g => if ls.contains g && !keep t.image then { t with resv := none } else t
      | none => t
    lcores := s.lcores.map fun c =>
      match c.resv with
      | some g => if ls.contains g then { c with resv := none } else c
      | none => c }

namespace Strand

/-- The incomplete count of copy batches (R250). -/
def batCount (t : Strand) : Nat := (t.bats.filter fun b => b.num ≠ t.openBat || b.left ≠ 0).length

/-- `cpbat` (Table 9.7). -/
def cpbat (t : Strand) : Word :=
  w64 (t.openBat % 65536 + t.batCount * 65536 + b2n t.abandoned * 2 ^ 32 + b2n t.poisoned * 2 ^ 33)

end Strand

/-- `tstall` of a strand's crew, which slot 0x238 takes at a write-back (R175). -/
def State.tstallOf (s : State) (t : Strand) : Word := match s.crewOf t with | some c => c.tstall | none => 0

/-- Word `i` of an image as a write-back gives it: slots 0x238 and 0x280 take `tstall` (R175) and the batch state (R255). -/
def State.lineWord (s : State) (t : Strand) (i : Nat) : Word :=
  if i = cTstall then s.tstallOf t else if i = cCpbat then t.cpbat else t.cw i

/-! ### Writes to images (R370) -/

/-- What the register cache takes from word `i` of an image: reserved bits and slots are ignored and read zero (R54, R72,
R238), words and bytes outside R370 keep the hardware's value. -/
def imageWord (i : Nat) (old new : Word) : Word :=
  if i = cPc then new &&& ~~~1
  else if i < cFcsr then new
  else if i = cFcsr then new &&& 0xFF
  else if i = cThctl then thctlLegal old new
  else if i = cFxsat then new &&& 1
  else if i = cCpspl then cpsplLegal new
  else if i < cTstall then 0
  else if i = cTstall || i = cFid then new
  else if i = cCid then winsert new 63 57 0
  else if i = cSid then winsert new 63 40 0
  else if i = cRsm then new &&& 0xFFFFFFFF
  else if i = cSepc then new &&& ~~~1
  else if i = cScause then (if scauseLegal (wbits new 5 0) then new &&& 0x3F else old)
  else if i = cWtvec then new &&& ~~~3
  else if i = cWstatus then new &&& 0xC0301
  else if i = cSave + 3 || i = cSave + 7 then 0
  else if i = cSave || i = cSave + 4 then new &&& ~~~1
  else if i = cSave + 1 || i = cSave + 5 then (if scauseLegal (wbits new 5 0) then new &&& 0x3F else old)
  else if 96 ≤ i && i ≤ 112 then new
  else if i = cFwd then
    winsert (winsert (winsert (winsert old 7 0 (wbits new 7 0)) 18 16 (wbits new 18 16)) 31 24 (wbits new 31 24)) 63 32 0
  else old

/-- The words of images of strands neither forwarded nor debug-stopped that `n` bytes from `pa` touch. -/
def State.raceWords (s : State) (pa n : Nat) : List (Nat × Nat) :=
  s.strands.flatMap fun t =>
    if n = 0 || t.status = .forwarded || t.stopped || pa + n ≤ t.image || t.image + 1024 ≤ pa then []
    else ((upto 0 128).filter fun i => t.image + 8 * i < pa + n && pa < t.image + 8 * i + 8).map fun i => (t.image, i)

/-- Such a word ends as what was written or as what stood there, and the register cache takes it or not (R370). `old` is
memory before the write. -/
def State.raceWord (s : State) (old : Sparse 8) (w : Nat × Nat) : State :=
  let a := w.1 + 8 * w.2
  let v := w64 (bytesGet s.mem a 8)
  let (cached, s) := s.drawBit
  let (kept, s) := s.drawBit
  let s := if cached then s.modStrand w.1 fun t =>
      if t.present.getLsbD (w.2 / 8) then t.setCw w.2 (imageWord w.2 (t.cw w.2) v) else t
    else s
  if kept then { s with mem := bytesSet s.mem a (bytesGet old a 8) 8 } else s

/-- A store of an agent or an engine. -/
def State.poke (s : State) (keep : Nat → Bool) (attr : Nat) (writer : Nat) (pa : Nat) (data : List Byte) : State :=
  (s.raceWords pa data.length).foldl (fun s' w => s'.raceWord s.mem w) (s.pokeRaw keep attr writer pa data)

/-! ### Fault records (R382 to R384) -/

/-- What a fault record says (Table 14.10). -/
structure FaultRec where
  kind : Nat
  cause : Nat := 0
  depth : Nat := 0
  inner : Nat := 0
  sid : Nat := 0
  cid : Nat := 0
  pc : Word := 0
  tval : Word := 0
  pa : Nat := 0
  image : Nat := 0

/-- The write of a fault record that W-core `core` makes next; none while its ring is disabled. Records are written in order, and
each is counted once it is visible to every agent (R384). -/
def State.recordWrite (s : State) (core : Nat) (r : FaultRec) : Option HwWrite :=
  let c := s.coreAt core
  let lg := wbits c.frecbase 3 0
  let tail := c.frectail + w64 (s.hwq.filter fun w => w.act = .record core).length
  if lg = 0 then none
  else
    some { core, addr := wbits c.frecbase 56 12 * 4096 + 64 * (tail.toNat % 2 ^ lg), chain := core + 1, vis := true
           act := .record core
           data := toBytes (tail + 1).toNat 8 ++ toBytes r.kind 1 ++ toBytes r.cause 1 ++ toBytes (r.depth % 4) 1 ++ toBytes r.inner 1
        ++ toBytes r.sid 2 ++ toBytes 0 2 ++ toBytes r.cid 4 ++ toBytes 0 4 ++ toBytes r.pc.toNat 8
        ++ toBytes r.tval.toNat 8 ++ toBytes r.pa 8 ++ toBytes r.image 8 ++ toBytes s.time.toNat 8 }

/-- A fault record that is written once the hardware is free to: while reductions merge. -/
def State.recordLater (s : State) (core : Nat) (r : FaultRec) : State :=
  match s.recordWrite core r with
  | none => s
  | some w => { s with hwq := s.hwq ++ [w] }

/-! ### Buffered reductions (R226 to R228) -/

/-- The bit of a strand in a contributor filter (R227). -/
def Strand.filterBit (t : Strand) : BitVec 64 := 1 <<< (t.slot % 64)

/-- One contribution applied to memory. -/
def State.mergeVal (s : State) (e : RedEntry) (ov : Nat × Nat) : State :=
  let w := ityBytes e.ty
  let pa := e.line * 64 + ov.1
  let keep (k : Nat) : Bool :=
    match s.strand? k with
    | some _ => e.who.all (· = k)
    | none => false
  s.poke keep (s.attrOf pa) redTag pa (toBytes (amoFn e.op e.ty (s.peek 4 pa w) ov.2) w)

/-- Merges one entry: it leaves the buffer, `rbmrg` counts it, and `rbevc` too where it was forced by a full set or by
age. A poisoned line discards the contribution and writes a record of kind 4 (R232, R383). -/
def State.mergeEntry (s : State) (e : RedEntry) (evc : Bool) : State :=
  let s := { s with rbuf := s.rbuf.filter fun x => !(x.core = e.core && x.line = e.line && x.op = e.op && x.ty = e.ty) }
  let s := s.modCore e.core fun c =>
    { c with rbmrg := c.rbmrg + 1, rbevc := if evc then c.rbevc + 1 else c.rbevc }
  if s.poison.contains e.line then s.recordLater e.core { kind := 4, pa := e.line * 64 }
  else
    let s := e.vals.foldl (fun s ov => s.mergeVal e ov) s
    { s with owners := sset s.owners e.line (w64 e.owner) }

/-- Merges every entry that meets `p`. -/
def State.mergeWhere (s : State) (p : RedEntry → Bool) : State :=
  (s.rbuf.filter p).foldl (fun s e => s.mergeEntry e false) s

/-- Merges the entries of the lines of an access (R228, first row). -/
def State.mergeLines (s : State) (pa n : Nat) : State :=
  if s.rbuf.isEmpty then s else s.mergeWhere fun e => (linesOf pa n).contains e.line

/-- Merges the entries that hold the bit of strand `k` (R228, release and departure rows). -/
def State.mergeStrand (s : State) (k : Nat) : State :=
  match s.strand? k with
  | none => s
  | some t => s.mergeWhere fun e => e.core = t.core && e.filter &&& Strand.filterBit t ≠ 0

/-! ### Page classes (R180 to R182) -/

/-- The attribute of an address is about to be read: reductions to its entry merge (R205). -/
def State.patOpen (s : State) (pa : Nat) : State :=
  match patIndex pa with
  | none => s
  | some k => if s.patOn then s.mergeLines (s.patBase + k / 4) 1 else s

/-- Class change for an access to one page by W-core `n`, or by another agent (`n` ≥ 192) (Table 7.4). -/
def State.classify (s : State) (n pa attr : Nat) : State :=
  match region pa with
  | .none => s
  | .mmio => s
  | .peer _ => s
  | _ =>
    let pg := pageOf pa
    let c := (sget s.pct pg).toNat
    if c = 0 then
      let v := if n < Config.numCores && attr = 0 then n + 1 else 0xFF
      { s with pct := sset s.pct pg (BitVec.ofNat 8 v) }
    else if c = 0xFF || c = n + 1 then s
    else
      let s := s.mergeWhere fun e => e.core + 1 = c && pageOf (e.line * 64) = pg
      { s with
        pct := sset s.pct pg 0xFF
        ncs := s.ncs.filter fun e => !(e.core + 1 = c && pageOf (e.line * 64) = pg)
        mmio := sset s.mmio (attrBase + 0x18) (sget s.mmio (attrBase + 0x18) + 1) }

/-! ### The directory of a home (R186, R334) -/

/-- A holder after another agent has read the line: dirty data is owned, clean data shared. -/
def Moesi.shared : Moesi → Moesi
  | .m | .o => .o
  | .e | .s => .s

/-- The holders of a line after an access by `who`, which keeps a copy or not: a write leaves no other; a read leaves at most
one in M, E or O (PRESUMED: the transitions of MOESI, log 79). -/
def holdersAfter (hs : List (Nat × Moesi)) (who : Nat) (keeps write : Bool) : List (Nat × Moesi) :=
  if write then (if keeps then [(who, .m)] else [])
  else if hs.any (·.1 = who) then hs
  else hs.map (fun h => (h.1, h.2.shared)) ++ if keeps then [(who, if hs.isEmpty then .e else .s)] else []

/-- A directory after that: a line that nobody holds leaves it, a new one comes last. -/
def dirAfter (d : List DirLine) (line who : Nat) (keeps write : Bool) : List DirLine :=
  if d.any (·.line = line) then
    (d.map fun e => if e.line = line then { e with holders := holdersAfter e.holders who keeps write } else e).filter
      fun e => !e.holders.isEmpty
  else if keeps then d ++ [{ line, holders := [(who, if write then .m else .e)] }]
  else d

/-- A holder leaves the lines that `p` selects. -/
def dirDrop (d : List DirLine) (who : Nat) (p : DirLine → Bool) : List DirLine :=
  (d.map fun e => if p e then { e with holders := e.holders.filter fun h => h.1 ≠ who } else e).filter fun e =>
    !e.holders.isEmpty

/-- The number of no caching agent. -/
def noCache : Nat := 7

/-- A caching agent (or 7: one that caches nothing) accesses a line. Of this package's homes, outside a private page: the peers
that the filter names lose or share it as the link does (R186, R334). Of a peer's home: the switch's filter records what this package
holds of it. -/
def State.dirLine (s : State) (who line : Nat) (write : Bool) : State :=
  if (match region (64 * line) with | .peer _ => true | _ => false) then
    { s with snoop := dirAfter s.snoop line s.pkgNum (who ≠ noCache) write }
  else if (sget s.pct (line / 64)).toNat ≠ 0xFF then s
  else
    { s with
      dir := dirAfter s.dir line who (who ≠ noCache) write
      snoop := if who = 6 then s.snoop else dirAfter s.snoop line 256 false write }

/-- An uncached access reaches a line at its home: a read leaves it written back, a write leaves no copy (Table 7.3). -/
def State.dirUncached (s : State) (pa n : Nat) (write : Bool) : State :=
  let ls := linesOf pa n
  let f (d : List DirLine) : List DirLine :=
    (d.map fun e => if ls.contains e.line then { e with holders := if write then [] else e.holders.map fun h => (h.1, Moesi.s) } else e).filter
      fun e => !e.holders.isEmpty
  { s with dir := f s.dir, snoop := f s.snoop }

/-- The same for every line of an access. -/
def State.dirTouch (s : State) (who pa n : Nat) (write : Bool) : State :=
  (linesOf pa n).foldl (fun s l => s.dirLine who l write) s

/-- The caching agent of the hardware of a W-core; other hardware, numbered 192, caches nothing. -/
def cacheOf (core : Nat) : Nat := if core < Config.numCores then State.dieOf core else noCache

/-- The caching agent that the devices of a PCIe port count as: the L-die of the port (Table 1.2, R186). -/
def dmaCache (port : Nat) : Nat := 4 + port

/-! ### Holds and ownership that make an access wait (R206, R217, R245) -/

/-- A hold that has not ended by its own limits (R217). -/
def State.holdActive (s : State) (h : Hold) : Bool := 0 < h.left && s.cc h.core < h.expiry

/-- A request that waits for a hold still waits: its agent stands at that instruction. -/
def State.reqLive (s : State) (r : Agent × Word) : Bool :=
  sget (s.ctxOf r.1) cPc = r.2 &&
    match r.1 with
    | .strand k => (match s.strand? k with | some t => t.status = .resident && !t.stopped && t.wait = .none | none => false)
    | .lcore i => (s.lcoreAt i).running

/-- Status and signal words of a descriptor (Table 13.3). -/
def Desc.ends (d : Desc) : List Piece :=
  { addr := d.stPa, len := 4 } :: (if d.words.getD 5 0 = 0 then [] else [{ addr := d.sigPa, len := 8 }])

/-- A write of the hardware, a copy that has begun or a collective descriptor that moves data waits for a line (R217). -/
def State.hwWants (s : State) (line : Nat) : Bool :=
  let meets (ps : List Piece) : Bool := ps.any fun p => (linesOf p.addr p.len).contains line
  s.hwq.any (fun w => (linesOf w.addr w.data.length).contains line)
    || s.copies.any (fun c => c.stage = 2 && ((!c.srcStage && c.unread.contains line) || (!c.dstStage && !c.done.contains line && meets c.dst)))
    || s.iommus.any (fun u => u.waiting.any fun w => match w.2 with | some pa => (linesOf pa (w.1.req.data.length + w.1.req.len)).contains line | none => false)
    || s.descs.any fun d => (d.begun && !d.left.isEmpty && meets d.loc) || (d.ending.isSome && meets d.ends)

/-- A hold stays in the table while it lasts, and after its end while something waits for it. -/
def State.holdKept (s : State) (h : Hold) : Bool :=
  s.holdActive h || !h.waiters.isEmpty || h.reqs.any s.reqLive || s.hwWants h.granule

/-- W-core of an agent; L-cores are numbered from 192. -/
def State.coreOf (s : State) (a : Agent) : Nat :=
  match a with
  | .strand k => match s.strand? k with | some t => t.core | none => 0
  | .lcore i => Config.numCores + i

/-- The caching agent that stands for an agent's L1, and for the devices behind a port (R186). -/
def State.cacheOfAgent (s : State) (a : Agent) : Nat :=
  match a with
  | .strand _ => dieOf (s.coreOf a)
  | .lcore i => 4 + i / (Config.numLCores / 2)

/-- The packages that an agent's instruction has sent reads to, with the addresses of the accesses. -/
def State.sentOf (s : State) (a : Agent) : List (Nat × Word) :=
  match a with
  | .strand k => match s.strand? k with | some t => t.sent | none => []
  | .lcore i => (s.lcoreAt i).sent

/-- A read at this address, which a peer package answers, has not been sent yet (R333, R336). -/
def State.unsent (s : State) (a : Agent) (pa : Nat) : Bool :=
  match region pa with
  | .peer p => !(s.sentOf a).any (·.1 = p)
  | _ => false

/-- The read of an agent at `va` is sent to the package that answers there: it is performed at the agent's next turn, or comes back
poisoned where the package is lost before (R336). -/
def State.send (s : State) (a : Agent) (va : Word) (pa : Nat) : State :=
  match region pa with
  | .peer p =>
    if s.unsent a pa then
      match a with
      | .strand k => s.modStrand k fun t => { t with sent := (p, va) :: t.sent }
      | .lcore i => s.modLcore i fun c => { c with sent := (p, va) :: c.sent }
    else s
  | _ => s

/-- An access of agent `a` to these bytes has to wait: a line a copy engine owns and has not written, a line under
another strand's LR hold, a write to bytes that the strand's own copy has not read, a read that a peer has not been sent (R206,
R217, R245, R336). -/
def State.blocked (s : State) (a : Agent) (pa n : Nat) (write : Bool) : Bool :=
  let ls := linesOf pa n
  let me := match a with | .strand k => k | .lcore _ => 0
  (!write && s.unsent a pa) || s.copies.any (fun c => ls.any fun l => c.own.contains l || (write && !c.srcStage && c.image = me && me ≠ 0 && c.unread.contains l))
    || s.holds.any fun h => ls.contains h.granule && s.holdActive h && h.image ≠ me && (write || h.core ≠ s.coreOf a)

/-- An access of another agent to these bytes waits for an LR hold: it is noted, to go before any new hold (R217). -/
def State.request (s : State) (a : Agent) (pa n : Nat) : State :=
  let r := (a, sget (s.ctxOf a) cPc)
  { s with holds := s.holds.map fun h =>
      if (linesOf pa n).contains h.granule && s.holdActive h && h.image ≠ a.tag && !h.reqs.contains r then
        { h with reqs := h.reqs ++ [r] }
      else h }

/-- An access of an agent to these bytes is performed: it waits no more. -/
def State.served (s : State) (a : Agent) (pa n : Nat) : State :=
  if s.holds.all (fun h => h.reqs.isEmpty) then s
  else
    { s with holds := s.holds.map fun h =>
        if (linesOf pa n).contains h.granule then { h with reqs := h.reqs.filter fun r => r.1 ≠ a } else h }

/-! ### Accesses of the hardware itself -/

/-- A write of the hardware to these bytes has to wait (R206, R217), or is behind one that does. -/
def State.hwBusy (s : State) (pa n : Nat) : Bool :=
  let ls := linesOf pa n
  s.copies.any (fun c => ls.any c.own.contains) || s.holds.any (fun h => ls.contains h.granule && s.holdActive h)
    || s.hwq.any fun w => ls.any (linesOf w.addr w.data.length).contains

/-- The hardware of W-core `n` (192: other hardware) is about to access memory: attribute, class, reductions (R181, R205, R228). -/
def State.hwOpen (s : State) (n pa len : Nat) (write : Bool := false) : State :=
  let s := s.patOpen pa
  ((s.classify n pa (s.attrOf pa)).mergeLines pa len).dirTouch (cacheOf n) pa len write

/-- What follows a write of the hardware. -/
def State.hwThen (s : State) : HwAct → State
  | .none => s
  | .record core => s.modCore core fun c => { c with frectail := c.frectail + 1 }
  | .inval slot => s.setReg (invalBase + 32 * slot + 0x18) 0
  | .lost line => { s with poison := insSorted s.poison line }

/-- The write performed: any reservation on the line is lost. -/
def State.hwDo (s : State) (w : HwWrite) : State :=
  let n := w.data.length
  let s := s.hwOpen w.core w.addr n true
  let s := s.pokeRaw (fun _ => false) (s.attrOf w.addr) 0 w.addr w.data
  (if w.vis then s.deliver fun r => r.meets r.die w.addr n else s).hwThen w.act

/-- A write of the hardware is performed, or waits where the line, memory or an earlier write of its chain makes it; where nothing
answers it is lost. -/
def State.hwPut (s : State) (w : HwWrite) : State :=
  match s.memAt w.addr with
  | .ok =>
    if s.hwBusy w.addr w.data.length || (w.chain ≠ 0 && s.hwq.any fun x => x.chain = w.chain) then { s with hwq := s.hwq ++ [w] }
    else s.hwDo w
  | .waits => { s with hwq := s.hwq ++ [w] }
  | .fault => s.hwThen w.act

/-- A write of the hardware of W-core `n` (192: other hardware). -/
def State.hwWrite (s : State) (n pa : Nat) (data : List Byte) : State := s.hwPut { core := n, addr := pa, data }

/-- The writes of the hardware that wait are tried again, oldest first. -/
def State.hwFlush (s : State) : State :=
  if s.hwq.isEmpty then s else s.hwq.foldl (fun s w => s.hwPut w) { s with hwq := [] }

/-- A byte as the hardware that wrote it reads it: a write that waits counts. -/
def State.hwByte (s : State) (pa : Nat) : Byte :=
  s.hwq.foldl (fun b w => if w.addr ≤ pa && pa < w.addr + w.data.length then w.data.getD (pa - w.addr) 0 else b) (sget s.mem pa)

/-- `n` bytes likewise, little-endian. -/
def State.hwPeek (s : State) (pa n : Nat) : Nat := ofBytes ((upto pa n).map s.hwByte)

/-- Writes a fault record to the ring of W-core `core`; nothing while the ring is disabled (R382 to R384). -/
def State.faultRecord (s : State) (core : Nat) (r : FaultRec) : State :=
  match s.recordWrite core r with
  | none => s
  | some w => s.hwPut w

/-! ### Translation (R176 to R179) -/

/-- Access-fault cause of an access. -/
def accessFault : AccKind → Nat
  | .fetch => 1 | .load => 5 | .store => 7 | .hlvx => 5

/-- Page-fault cause of an access. -/
def pageFault : AccKind → Nat
  | .fetch => 12 | .load => 13 | .store => 15 | .hlvx => 13

/-- Guest-page-fault cause of an access (L-cores). -/
def guestFault : AccKind → Nat
  | .fetch => 20 | .load => 21 | .store => 23 | .hlvx => 21

/-- Reads a PTE by a coherent load. -/
def State.readPte (s : State) (a : Agent) (k : AccKind) (va : Word) (pa : Nat) : Res Nat :=
  match s.memAt pa with
  | .fault => .trap s (accessFault k) va
  | .waits => .stall s
  | .ok =>
    if s.blocked a pa 8 false then .stall ((s.request a pa 8).send a va pa)
    else if s.poisonAt pa 8 then .trap s 27 va
    else
      let s := (s.patOpen pa).mergeLines pa 8
      let s := (s.classify Config.numCores pa (s.attrOf pa)).dirTouch (s.cacheOfAgent a) pa 8 false
      .ok s (s.peek (State.dieOf (s.coreOf a)) pa 8)

/-- Walks from the table at `base`; the level of the table is one less than the fuel; with `x4` the table of level `top` has
2,048 entries. Answers the leaf and its level. `rd` reads the PTE at an address; `pf` is the page fault of the access. -/
def walkFrom (rd : State → Nat → Res Nat) (pf : Nat) (va : Word) (x4 : Bool) (top : Nat) (s : State) (base : Nat) :
    Nat → Res (Nat × Nat)
  | 0 => .trap s pf va
  | n + 1 =>
    let idx := va.toNat / 2 ^ (12 + 9 * n) % (if x4 && n = top then 2048 else 512)
    match rd s (base + 8 * idx) with
    | .trap s c v => .trap s c v
    | .stall s => .stall s
    | .ok s p =>
      let r := p / 2 % 2 = 1
      let w := p / 4 % 2 = 1
      let x := p / 8 % 2 = 1
      if p % 2 = 0 || (!r && w) || bits p 60 54 ≠ 0 then .trap s pf va
      else if r || x then (if n = 4 then .trap s pf va else .ok s (p, n))
      else if bits p 7 6 ≠ 0 || bits p 4 4 ≠ 0 || bits p 63 61 ≠ 0 then .trap s pf va
      else walkFrom rd pf va x4 top s (bits p 53 10 * 4096) n

/-- A leaf that R176 and R177 allow: alignment, NAPOT, PBMT, A and D. -/
def leafOk (p level : Nat) (k : AccKind) : Bool :=
  let ppn := bits p 53 10
  (level = 0 || ppn % 2 ^ (9 * level) = 0)
    && (bits p 63 63 = 0 || (level = 0 && ppn % 16 = 8))
    && bits p 62 61 ≠ 3
    && bits p 6 6 = 1
    && (k ≠ .store || bits p 7 7 = 1)

/-- Permissions of a leaf: user or supervisor, SUM, MXR. -/
def permOk (flags : Nat) (k : AccKind) (user sum mxr : Bool) : Bool :=
  let u := bits flags 4 4 = 1
  let r := bits flags 1 1 = 1
  let w := bits flags 2 2 = 1
  let x := bits flags 3 3 = 1
  (if user then u else !u || (sum && k ≠ .fetch))
    && match k with
      | .fetch => x
      | .hlvx => x
      | .load => r || (mxr && x)
      | .store => w

/-- Bytes a leaf maps. -/
def leafSize (p level : Nat) : Nat := if bits p 63 63 = 1 then 65536 else 2 ^ (12 + 9 * level)

/-- The controls of a translation: root, address-space identifier, user mode, SUM, MXR, whether a leaf may name a memory
type (Svpbmt), and levels of tables: 5 for Sv57. -/
structure Ctl where
  base : Nat
  asid : Nat
  user : Bool
  sum : Bool
  mxr : Bool
  pbmt : Bool := true
  levels : Nat := 5

/-- Levels of tables under a translation mode: Sv39, Sv48, Sv57. -/
def modeLevels (m : Nat) : Nat := m - 5

/-- The address is canonical under so many levels: sign-extended from its top translated bit. -/
def canonicalAt (levels : Nat) (va : Word) : Bool :=
  let n := 12 + 9 * levels
  va.toNat / 2 ^ (n - 1) = 0 || va.toNat / 2 ^ (n - 1) = 2 ^ (65 - n) - 1

/-- The TLB entry that a leaf gives. -/
def tlbOf (core quad : Nat) (c : Ctl) (va : Word) (p level : Nat) : TlbEntry :=
  let size := leafSize p level
  let v := va.toNat % 2 ^ 57
  { core, quad, asid := c.asid, glob := bits p 5 5 = 1, va := v / size * size, size,
    pa := bits p 53 10 * 4096 / size * size, flags := p % 256, pbmt := bits p 62 61 }

/-- The physical address an entry gives. -/
def TlbEntry.at (e : TlbEntry) (va : Word) : Nat := e.pa + va.toNat % 2 ^ 57 % e.size

/-- The L1 TLB that serves an agent: its quadrant's; an L-core has but the one. -/
def State.quadOf (s : State) (a : Agent) : Nat :=
  match a with
  | .strand k => match s.strand? k with | some t => t.quad | none => 0
  | .lcore _ => 4

/-- A held entry that covers an address: of the quadrant's L1 TLB, else of the L2 TLB. -/
def State.tlbFind (s : State) (core quad asid : Nat) (va : Word) : Option TlbEntry :=
  let v := va.toNat % 2 ^ 57
  let hit (q : Nat) (e : TlbEntry) : Bool :=
    e.core = core && e.quad = q && (e.glob || e.asid = asid) && e.va ≤ v && v < e.va + e.size
  match s.tlb.find? (hit quad) with
  | some e => some e
  | none => s.tlb.find? (hit 4)

/-- Drops entry `k` of those that satisfy `p`. -/
def dropNth {α : Type} (p : α → Bool) : List α → Nat → List α
  | [], _ => []
  | x :: t, k => if p x then (match k with | 0 => t | k + 1 => x :: dropNth p t k) else x :: dropNth p t k

/-- Translations that an L1 TLB and the L2 TLB hold (R15, R179). -/
def tlbCap (quad : Nat) : Nat := if quad = 4 then 8192 else 64

/-- Puts an entry into its TLB in place of those it overlaps; where that is full, a free value names the one that leaves. -/
def State.tlbInsert (s : State) (e : TlbEntry) : State :=
  let mine (x : TlbEntry) : Bool := x.core = e.core && x.quad = e.quad
  let l := s.tlb.filter fun x => !(mine x && x.asid = e.asid && x.va < e.va + e.size && e.va < x.va + x.size)
  if (l.filter mine).length < tlbCap e.quad then { s with tlb := e :: l }
  else let (k, s) := s.drawNat; { s with tlb := e :: dropNth mine l (k % tlbCap e.quad) }

/-- Fills the L2 TLB and the L1 TLB of the quadrant. Of a page that no TLB translates the attribute is read afresh (R184). -/
def State.tlbPut (s : State) (e : TlbEntry) : State :=
  let s : State := { s with pats := s.pats.filter fun u => !(e.maps u.page && !s.tlb.any fun x => x.maps u.page) }
  let s := s.tlbInsert { e with quad := 4 }
  if e.quad = 4 then s else s.tlbInsert e

/-- A fresh walk under `c`. -/
def State.walk (s : State) (a : Agent) (k : AccKind) (va : Word) (c : Ctl) : Res TlbEntry :=
  match walkFrom (fun s pa => s.readPte a k va pa) (pageFault k) va false 4 s c.base c.levels with
  | .trap s f v => .trap s f v
  | .stall s => .stall s
  | .ok s (p, level) =>
    if !leafOk p level k || !permOk p k c.user c.sum c.mxr || (!c.pbmt && bits p 62 61 ≠ 0) then .trap s (pageFault k) va
    else .ok s (tlbOf (s.coreOf a) (s.quadOf a) c va p level)

/-- An entry allows an access: permissions, A and, for a store, D. -/
def heldOk (e : TlbEntry) (k : AccKind) (c : Ctl) : Bool :=
  permOk e.flags k c.user c.sum c.mxr && bits e.flags 6 6 = 1 && (k ≠ .store || bits e.flags 7 7 = 1)

/-- What an entry gives for an access: its address, with the attribute in force, or a page fault. -/
def State.byEntry (s : State) (e : TlbEntry) (k : AccKind) (va : Word) (c : Ctl) : Res Phys :=
  if heldOk e k c then
    let s := s.patOpen (e.at va)
    .ok s { pa := e.at va, pbmt := e.pbmt, attr := s.attrOf (e.at va), glob := e.glob }
  else .trap s (pageFault k) va

/-- What a fresh walk gives for an access; its entry is held from then on. -/
def State.byWalk (s : State) (a : Agent) (k : AccKind) (va : Word) (c : Ctl) : Res Phys :=
  (s.walk a k va c).bind fun s e => (s.tlbPut e).byEntry e k va c

/-- What a held entry gives; the quadrant's L1 TLB takes one of the L2 TLB. -/
def State.byHeld (s : State) (a : Agent) (e : TlbEntry) (k : AccKind) (va : Word) (c : Ctl) : Res Phys :=
  (if e.quad = s.quadOf a then s else s.tlbInsert { e with quad := s.quadOf a }).byEntry e k va c

/-- A held entry and a fresh walk give one answer. -/
def tlbAgrees (h : TlbEntry) (k : AccKind) (va : Word) (c : Ctl) : Res TlbEntry → Bool
  | .ok _ e => heldOk h k c && e.at va = h.at va && e.pbmt = h.pbmt
  | .trap _ f _ => f = pageFault k && !heldOk h k c
  | .stall _ => false

/-- Translation with the TLBs. A held entry serves; where a fresh walk would say otherwise, a free value says whether the
core still holds the entry (R179, log 21). -/
def State.translateCtl (s : State) (a : Agent) (k : AccKind) (va : Word) (c : Ctl) : Res Phys :=
  if !canonicalAt c.levels va then .trap s (pageFault k) va
  else
    match s.tlbFind (s.coreOf a) (s.quadOf a) c.asid va with
    | none => s.byWalk a k va c
    | some h =>
      if tlbAgrees h k va c (s.walk a k va c) then s.byHeld a h k va c
      else
        let (b, s) := s.drawBit
        if b then s.byHeld a h k va c else s.byWalk a k va c

/-- Standard CSR of an L-core. -/
def LCore.get (c : LCore) (n : Nat) : Word := sget c.csr n

/-- V = 1. -/
def LCore.virt (l : LCore) : Bool := l.mode = .vs || l.mode = .vu

/-- The mode as the two bits of a previous-privilege field. -/
def LCore.priv (l : LCore) : Nat := match l.mode with | .m => 3 | .hs => 1 | .vs => 1 | .u => 0 | .vu => 0

/-- Entry to M-mode at `pc`, with a cause, a value, a guest physical address, what describes the trapped access and whether
the value is a guest address. -/
def LCore.enterM (l : LCore) (cause v gpa inst : Word) (gva : Bool) (pc : Word) : LCore :=
  let st := l.get 0x300
  let st := winsert (winsert (winsert (winsert st 7 7 (wbits st 3 3)) 3 3 0) 12 11 l.priv) 39 38 (b2n l.virt * 2 + b2n gva)
  { l with
    mode := .m, resv := none, ctx := sset l.ctx cPc pc
    csr := sset (sset (sset (sset (sset l.csr 0x300 st) 0x341 (sget l.ctx cPc)) 0x342 cause) 0x343 v) 0x34B gpa |> fun r => sset r 0x34A inst }

/-- Entry to HS-mode. -/
def LCore.enterHS (l : LCore) (cause v gpa inst : Word) (gva : Bool) (pc : Word) : LCore :=
  let st := l.get 0x300
  let st := winsert (winsert (winsert st 5 5 (wbits st 1 1)) 1 1 0) 8 8 l.priv
  let hs := l.get 0x600
  let hs := winsert (winsert (if l.virt then winsert hs 8 8 l.priv else hs) 7 7 (b2n l.virt)) 6 6 (b2n gva)
  { l with
    mode := .hs, resv := none, ctx := sset l.ctx cPc pc
    csr := sset (sset (sset (sset (sset (sset l.csr 0x300 st) 0x141 (sget l.ctx cPc)) 0x142 cause) 0x143 v) 0x600 hs) 0x643 gpa |> fun r => sset r 0x64A inst }

/-- Entry to VS-mode. -/
def LCore.enterVS (l : LCore) (cause v : Word) (pc : Word) : LCore :=
  let st := l.get 0x200
  let st := winsert (winsert (winsert st 5 5 (wbits st 1 1)) 1 1 0) 8 8 l.priv
  { l with
    mode := .vs, resv := none, ctx := sset l.ctx cPc pc
    csr := sset (sset (sset (sset l.csr 0x200 st) 0x241 (sget l.ctx cPc)) 0x242 cause) 0x243 v }

/-- G-stage translation of an L-core's guest: bare, Sv39x4, Sv48x4 or Sv57x4. `k` is the access of this stage, `orig` the
guest's access, which names the fault; `implicit` where this stage's access is a walk of the other. Answers the address and
the memory type. -/
def State.gStage (s : State) (i : Nat) (k orig : AccKind) (va : Word) (gpa : Nat) (implicit : Bool) : Res (Nat × Nat) :=
  let hg := (s.lcoreAt i).get 0x680
  let s' := s.modLcore i fun c => { c with gpa := gpa, implicit }
  let n := modeLevels (wbits hg 63 60)
  if wbits hg 63 60 < 8 then .ok s (gpa, 0)
  else if 2 ^ (14 + 9 * n) ≤ gpa then .trap s' (guestFault orig) va
  else
    match walkFrom (fun s pa => s.readPte (.lcore i) orig va pa) (guestFault orig) (w64 gpa) true (n - 1) s'
        (wbits hg 43 2 * 16384) n with
    | .trap s f _ => .trap s f va
    | .stall s => .stall s
    | .ok s (p, level) =>
      if !leafOk p level k || !permOk p k true false (wbit ((s.lcoreAt i).get 0x300) 19) ||
          (!wbit ((s.lcoreAt i).get 0x30A) 62 && bits p 62 61 ≠ 0) then .trap s (guestFault orig) va
      else .ok s (bits p 53 10 * 4096 / leafSize p level * leafSize p level + gpa % leafSize p level, bits p 62 61)

/-- The mode under which an L-core accesses memory: its own, or with `mstatus`.MPRV the one that MPP and MPV name. -/
def LCore.dataMode (c : LCore) (k : AccKind) : LMode :=
  let ms := c.get 0x300
  if k ≠ .fetch && c.mode = .m && wbit ms 17 then
    match wbits ms 12 11, wbit ms 39 with
    | 0, false => .u
    | 0, true => .vu
    | 1, false => .hs
    | 1, true => .vs
    | _, _ => .m
  else c.mode

/-- A physical address without translation, with the attribute in force. -/
def State.barePhys (s : State) (pa pbmt : Nat) : Res Phys :=
  let s := s.patOpen pa
  .ok s { pa, pbmt, attr := s.attrOf pa }

/-- Translation on an L-core (R176): bare in M-mode and where `satp` is bare; two stages with V = 1. -/
def State.translateL (s : State) (i : Nat) (k : AccKind) (va : Word) : Res Phys :=
  let c := s.lcoreAt i
  let ms := c.get 0x300
  let mode := c.dataMode k
  let outOfRange : Bool := 2 ^ 56 ≤ va.toNat
  match mode with
  | .m => if outOfRange then .trap s (accessFault k) va else s.barePhys va.toNat 0
  | .vs | .vu =>
    let sat := c.get 0x280
    let n := modeLevels (wbits sat 63 60)
    if wbits sat 63 60 < 8 then
      (s.gStage i k k va va.toNat false).bind fun s r => s.barePhys r.1 r.2
    else if !canonicalAt n va then .trap s (pageFault k) va
    else
      let rd (s : State) (gpa : Nat) : Res Nat :=
        (s.gStage i .load k va gpa true).bind fun s r => s.readPte (.lcore i) k va r.1
      match walkFrom rd (pageFault k) va false 4 s (wbits sat 43 0 * 4096) n with
      | .trap s f v => .trap s f v
      | .stall s => .stall s
      | .ok s (p, level) =>
        let vss := c.get 0x200
        let types := wbit (c.get 0x30A) 62 && wbit (c.get 0x60A) 62
        if !leafOk p level k || !permOk p k (mode = .vu) (wbit vss 18) (wbit vss 19 || wbit ms 19)
            || (!types && bits p 62 61 ≠ 0) then .trap s (pageFault k) va
        else
          (s.gStage i k k va (bits p 53 10 * 4096 / leafSize p level * leafSize p level + va.toNat % leafSize p level) false).bind
            fun s r => s.barePhys r.1 (if bits p 62 61 = 0 then r.2 else bits p 62 61)
  | .hs | .u =>
    let sat := c.get 0x180
    if wbits sat 63 60 < 8 then
      if outOfRange then .trap s (accessFault k) va else s.barePhys va.toNat 0
    else
      s.translateCtl (.lcore i) k va
        { base := wbits sat 43 0 * 4096, asid := wbits sat 59 44, user := mode = .u, sum := wbit ms 18, mxr := wbit ms 19,
          pbmt := wbit (c.get 0x30A) 62, levels := modeLevels (wbits sat 63 60) }

/-- Translation for an agent (R178): a strand whose `satp` MODE is not Sv57 takes an access fault. -/
def State.translate (s : State) (a : Agent) (k : AccKind) (va : Word) : Res Phys :=
  match a with
  | .lcore i => s.translateL i k va
  | .strand n =>
    match s.strand? n with
    | none => .trap s (accessFault k) va
    | some t =>
      if t.cbits cSatp 63 60 ≠ 10 then .trap s (accessFault k) va
      else
        s.translateCtl a k va
          { base := t.cbits cSatp 43 0 * 4096, asid := t.asid, user := !t.sMode, sum := t.cbits cWstatus 18 18 = 1,
            mxr := t.sMode && t.cbits cWstatus 19 19 = 1 }

/-! ### Accesses of an agent -/

/-- Bytes of an access on one page, with the attribute and the memory type of that page. -/
structure Part where
  pa : Nat
  n : Nat
  attr : Nat
  pbmt : Nat
  deriving DecidableEq, Repr

/-- The same with other bytes. -/
def Part.at (p : Part) (r : Nat × Nat) : Part := { p with pa := r.1, n := r.2 }

/-- Where the bytes of an access lie: one or two pages of memory, or a device register. -/
inductive Loc
  | mem (parts : List Part)
  | mmio (pa : Nat)
  deriving DecidableEq, Repr

/-- Translates one page of an access and checks its range (R171, R187). -/
def State.locPage (s : State) (a : Agent) (k : AccKind) (va : Word) (n size : Nat) : Res Loc :=
  match s.translate a k va with
  | .trap s c v => .trap { s with accPa := 0 } c v
  | .stall s => .stall s
  | .ok s p =>
    let s := { s with accPa := p.pa, accTiers := tierOf p.pa :: s.accTiers }
    match region p.pa with
    | .mmio =>
      if n = size && (size = 4 || size = 8) && p.pa % size = 0 then .ok s (.mmio p.pa)
      else .trap s (accessFault k) va
    | _ =>
      if p.pbmt = 2 && (n ≠ size || p.pa % size ≠ 0) then .trap s (accessFault k) va
      else
        match s.memAt p.pa with
        | .fault => .trap s (accessFault k) va
        | .waits => .stall s
        | .ok => .ok s (.mem [{ pa := p.pa, n, attr := p.attr, pbmt := p.pbmt }])

/-- Pointer masking of an L-core (Ssnpm): in U-mode and VU-mode `senvcfg`.PMM, in VS-mode `henvcfg`.PMM, drop 7 or 16 upper
bits of a load's or store's address, unless MXR holds; the rest is sign-extended where it is translated. -/
def LCore.masked (c : LCore) (k : AccKind) (va : Word) : Word :=
  let mode := c.dataMode k
  let guest : Bool := mode = .vs || mode = .vu
  let pmm := match mode with
    | .u => wbits (c.get 0x10A) 33 32 | .vu => wbits (c.get 0x10A) 33 32 | .vs => wbits (c.get 0x60A) 33 32
    | .m => 0 | .hs => 0
  let mxr : Bool := wbit (c.get 0x300) 19 || (guest && wbit (c.get 0x200) 19)
  let bare : Bool := wbits (c.get (if guest then 0x280 else 0x180)) 63 60 = 0
  if k = .fetch || k = .hlvx || mxr || pmm < 2 then va
  else
    let n := if pmm = 2 then 7 else 16
    if bare then va <<< n >>> n else (va <<< n).sshiftRight n

/-- The effective address of an agent's access. -/
def State.effective (s : State) (a : Agent) (k : AccKind) (va : Word) : Word :=
  match a with
  | .strand _ => va
  | .lcore i => (s.lcoreAt i).masked k va

/-- Translates an access of `n` bytes; one that crosses a page is translated for both pages first (R187). -/
def State.locate (s : State) (a : Agent) (k : AccKind) (va : Word) (n : Nat) : Res Loc :=
  let va := s.effective a k va
  let first := 4096 - va.toNat % 4096
  if n ≤ first then s.locPage a k va n n
  else
    (s.locPage a k va first n).bind fun s r1 =>
      (s.locPage a k (va + w64 first) (n - first) n).bind fun s r2 =>
        match r1, r2 with
        | .mem p, .mem q => .ok s (.mem (p ++ q))
        | _, _ => .trap s (accessFault k) va

/-- The number under which an agent's accesses classify a page: its W-core, or 192 (R181). -/
def State.classer (s : State) (a : Agent) : Nat := match a with | .strand _ => s.coreOf a | .lcore _ => Config.numCores

namespace State

/-- The bytes of context line `line` as a write-back gives them. -/
def lineBytes (s : State) (t : Strand) (line : Nat) : List Byte :=
  (upto (8 * line) 8).flatMap fun i => toBytes (s.lineWord t i).toNat 8

/-- Writes one line back to the image where the register cache holds it; with `drop` it leaves. -/
def writeLine (s : State) (k : Nat) (drop : Bool) (line : Nat) : State :=
  match s.strand? k with
  | none => s
  | some t =>
    if t.present.getLsbD line then
      let s := s.hwPut { core := t.core, addr := k + 64 * line, data := s.lineBytes t line,
                         act := if t.ue = some line then .lost (k / 64 + line) else .none }
      if drop then
        let s := s.modStrand k fun t => { t with present := t.present &&& ~~~((1 : BitVec 16) <<< line) }
        { s with lru := s.lru.filter (· ≠ (k, line)) }
      else s
    else s

/-- The strands whose images the bytes touch and whose context the register cache may hold. -/
def imagesAt (s : State) (pa n : Nat) : List Strand :=
  s.strands.filter fun t => (t.status = .resident || t.status = .preempted) && t.image < pa + n && pa < t.image + 1024

/-- Bytes are about to be read: where they are of a pre-empted strand's image, its lines are written back (R56); where they are of a
resident strand's, the free number is drawn that says which words come as last written back and which as the register cache holds
them (R57, log 70). -/
def imageRead (s : State) (pa n : Nat) : State :=
  (s.imagesAt pa n).foldl (fun s t =>
    if t.status = .preempted then (upto 0 16).foldl (fun s i => s.writeLine t.image false i) s
    else { s with draws := s.draws + 1 }) s

/-- A byte that an access by agent `me` of a die reads, once that is done (R57, R204). -/
def seen (s : State) (me die pa : Nat) : Byte :=
  match (s.imagesAt pa 1).find? fun t => t.status = .resident with
  | none => s.byteFor me die pa
  | some t =>
    let o := pa - t.image
    if t.present.getLsbD (o / 64) && Config.freeNat (s.draws - 1) / 2 ^ (o / 8) % 2 = 1 then
      BitVec.ofNat 8 ((s.lineWord t (o / 8)).toNat / 256 ^ (o % 8))
    else s.byteFor me die pa

end State

/-- The directory after an access to a part: a page of type NC or IO is accessed uncached, at the home (R177, R186). -/
def State.partTouch (s : State) (who : Nat) (p : Part) (write : Bool) : State :=
  if p.pbmt = 0 then s.dirTouch who p.pa p.n write else s.dirUncached p.pa p.n write

/-- Classifies each page, merges and checks poison for an access to memory by agent `a` that is about to be performed; `n`
is the number under which it classifies, `who` the caching agent that takes the lines. -/
def State.openPartsAs (s : State) (n who : Nat) (a : Agent) (va : Word) (parts : List Part) (write : Bool) : Res Unit :=
  if parts.any fun p => s.blocked a p.pa p.n write then
    .stall (parts.foldl (fun s p => if write then s.request a p.pa p.n else (s.request a p.pa p.n).send a va p.pa) s)
  else
    let s := parts.foldl (fun s p =>
      ((((s.classify n p.pa p.attr).mergeLines p.pa p.n).served a p.pa p.n).partTouch who p write).imageRead p.pa p.n) s
    if !write && parts.any (fun p => s.poisonAt p.pa p.n) then .trap s 27 va
    else .ok s ()

/-- The same under the agent's own number. -/
def State.openParts (s : State) (a : Agent) (va : Word) (parts : List Part) (write : Bool) : Res Unit :=
  s.openPartsAs (s.classer a) (s.cacheOfAgent a) a va parts write

/-- The bytes of an access, lowest first; a page of type NC or IO is read at its home (R177). -/
def State.readParts (s : State) (a : Agent) (parts : List Part) : List Byte :=
  let d := State.dieOf (s.coreOf a)
  parts.flatMap fun p => (upto 0 p.n).map fun i => s.seen a.tag (if p.pbmt = 0 then d else 4) (p.pa + i)

/-- What an agent has read at the home reaches its die (R198, R204). -/
def State.homeSeen (s : State) (a : Agent) (parts : List Part) : State :=
  parts.foldl (fun s p => if p.pbmt = 0 then s else s.sawHome (State.dieOf (s.coreOf a)) p.pa p.n) s

/-- An ordinary access of core `n` drops the non-coherent copies that it holds of the lines, which end coherent (R190, R211). -/
def State.dropNc (s : State) (n : Nat) (parts : List Part) : State :=
  let ls := parts.flatMap fun p => linesOf p.pa p.n
  { s with
    ncs := s.ncs.filter fun e => !(e.core = n && ls.contains e.line)
    cycle := ls.map (fun l => (n, l, s.cc n)) ++ s.cycle.filter fun e => e.2.2 = s.cc e.1 }

/-- A load of `n` bytes of memory at a virtual address, or the address of the device register there. -/
def State.loadMem (s : State) (a : Agent) (va : Word) (n : Nat) (k : AccKind := .load) : Res (Nat ⊕ Nat) :=
  (s.locate a k va n).bind fun s loc =>
    match loc with
    | .mmio pa => .ok s (.inr pa)
    | .mem parts =>
      (s.openParts a va parts false).bind fun s _ =>
        .ok ((s.homeSeen a parts).dropNc (s.coreOf a) parts) (.inl (ofBytes (s.readParts a parts)))

/-- The ordinary load of a strand: a device register is behind the MMIO protection, which no W-core passes (R422). -/
def State.load (s : State) (va : Word) (n : Nat) : Res Nat :=
  (s.loadMem s.cur va n).bind fun s r =>
    match r with
    | .inl v => .ok s v
    | .inr _ => .trap s 5 va

/-- What stands for the owner of a line that an agent dirties: the owner tag in [23:0] under bit 24 for a W-die's line
(R385), bit 25 for an L-die's. -/
def State.tagOf (s : State) (a : Agent) : Nat :=
  match a with
  | .strand k => match s.strand? k with | some t => 2 ^ 24 + t.core * 65536 + t.asid | none => 0
  | .lcore _ => 2 ^ 25

/-- Writes bytes over the parts, as agent `a`; its own reservation survives (R216). -/
def State.writeParts (s : State) (a : Agent) (parts : List Part) (data : List Byte) : State :=
  match parts with
  | [] => s
  | p :: rest =>
    let s' := s.poke (fun k => a = .strand k) p.attr a.tag p.pa (data.take p.n)
    let s' := { s' with owners := (linesOf p.pa p.n).foldl (fun o l => sset o l (w64 (s.tagOf a))) s'.owners }
    State.writeParts s' a rest (data.drop p.n)

/-- A store of the low `n` bytes of `v`; `some pa` where it addresses a device register. -/
def State.storeMem (s : State) (a : Agent) (va : Word) (n v : Nat) : Res (Option Nat) :=
  (s.locate a .store va n).bind fun s loc =>
    match loc with
    | .mmio pa => .ok s (some pa)
    | .mem parts =>
      (s.openParts a va parts true).bind fun s _ =>
        .ok ((s.dropNc (s.coreOf a) parts).writeParts a parts (toBytes v n)) none

/-- The ordinary store of a strand. -/
def State.store (s : State) (va : Word) (n v : Nat) : Res Unit :=
  (s.storeMem s.cur va n v).bind fun s r =>
    match r with
    | none => .ok s ()
    | some _ => .trap s 7 va

/-! ### Instruction fetch (R32, R93, R105) -/

/-- Key of a parcel in an instruction buffer: the quadrant that holds it and its physical address. -/
def ibufKey (q pa : Nat) : Nat := q * 2 ^ 56 + pa

/-- The instruction buffer that serves an agent: 4 per W-core, one per L-core. -/
def State.ibufOf (s : State) (a : Agent) : Nat :=
  match a with
  | .strand k => match s.strand? k with | some t => 4 * t.core + t.quad | none => 0
  | .lcore i => 4 * Config.numCores + i

/-- Parcels that the instruction buffer of a quadrant holds: 16 KiB (R93). -/
def ibufCap : Nat := 8192

/-- A parcel enters an instruction buffer; where the buffer of a quadrant is full, a free value names the parcel that leaves (R93,
log 93). -/
def State.ibufPut (s : State) (key : Nat) (w : BitVec 16) : State :=
  let q := key / 2 ^ 56
  let mine := s.ibuf.filter fun e => e.1 / 2 ^ 56 = q && e.1 ≠ key
  if 4 * Config.numCores ≤ q || mine.length < ibufCap then { s with ibuf := kput (·.1) s.ibuf (key, w) }
  else
    let (n, s) := s.drawNat
    let out := match mine[n % mine.length]? with | some e => kdel (·.1) s.ibuf e.1 | none => s.ibuf
    { s with ibuf := kput (·.1) out (key, w) }

/-- Translates a page for a fetch: the first byte on it that the instruction needs is `va` (R32). -/
def State.fetchPage (s : State) (a : Agent) (va : Word) : Res Phys :=
  match s.translate a .fetch va with
  | .trap s c v => .trap { s with accPa := 0 } c v
  | .stall s => .stall s
  | .ok s p =>
    let s := { s with accPa := p.pa }
    match s.memAt p.pa with
    | .fault => .trap s 1 va
    | .waits => .stall s
    | .ok => .ok s p

/-- Reads one parcel: where the buffer holds other bytes than memory, a free value says which are used (R105). A parcel that
no buffer holds is a fetch from its tier (R175). -/
def State.fetchAt (s : State) (a : Agent) (va : Word) (p : Phys) : Res (BitVec 16) :=
  let part : Part := { pa := p.pa, n := 2, attr := p.attr, pbmt := p.pbmt }
  (s.openParts a va [part] false).bind fun s _ =>
    let now := BitVec.ofNat 16 (ofBytes (s.readParts a [part]))
    let key := ibufKey (s.ibufOf a) p.pa
    match kfind (·.1) s.ibuf key with
    | some (_, old) =>
      if old = now then .ok s now
      else
        let (b, s) := s.drawBit
        if b then .ok s old else .ok (s.ibufPut key now) now
    | none => .ok (s.ibufPut key now) now

/-- Fetches one parcel; `prev` is where the parcel before it lies, if it is on the same page. -/
def State.fetchParcel (s : State) (a : Agent) (va : Word) (prev : Option Phys) : Res (BitVec 16 × Phys) :=
  (match prev with
    | some p => if va.toNat % 4096 = 0 then s.fetchPage a va else .ok { s with accPa := p.pa + 2 } { p with pa := p.pa + 2 }
    | none => s.fetchPage a va).bind fun s p => (s.fetchAt a va p).bind fun s w => .ok s (w, p)

/-- Fetches `n` parcels from `va`, first parcel first. -/
def State.fetchParcels (s : State) (a : Agent) (va : Word) (prev : Option Phys) : Nat → Res (List (BitVec 16))
  | 0 => .ok s []
  | n + 1 =>
    match s.fetchParcel a va prev with
    | .trap s c v => .trap s c v
    | .stall s => .stall s
    | .ok s r =>
      match State.fetchParcels s a (va + 2) (some r.2) n with
      | .trap s c v => .trap s c v
      | .stall s => .stall s
      | .ok s ps => .ok s (r.1 :: ps)

/-- Discards the instruction buffers of an agent's core (R105). -/
def State.dropIbuf (s : State) (a : Agent) : State :=
  let lo := match a with
    | .strand _ => 4 * s.coreOf a
    | .lcore i => 4 * Config.numCores + i
  let n := match a with | .strand _ => 4 | .lcore _ => 1
  { s with ibuf := s.ibuf.filter fun e => !(lo * 2 ^ 56 ≤ e.1 && e.1 < (lo + n) * 2 ^ 56) }

/-- An NC invalidation point of a strand: its W-core's L1 discards every non-coherent copy (R209). -/
def State.ncPoint (s : State) (core : Nat) : State := { s with ncs := s.ncs.filter fun e => e.core ≠ core }

end Sys2Proof.Machine
end

