-- ==== Sys2Proof/Machine/Image.lean ====
section
/-! DEFINITION. Context images in memory (R54 to R57, R370), and the end of a strand's wait. -/

namespace Sys2Proof.Machine

namespace State

/-- Word `i` of an image in memory. -/
def imageMem (s : State) (k i : Nat) : Word := w64 (s.hwPeek (k + 8 * i) 8)

/-- The lines of pre-empted strands that stand in the register cache of a W-core: evictable (R56). -/
def evictable (s : State) (core : Nat) : List (Nat × Nat) :=
  s.strands.flatMap fun t =>
    if t.status = .preempted && t.core = core then ((upto 0 16).filter t.present.getLsbD).map fun l => (t.image, l) else []

/-- A context line is used: it is the most recently used (R56). -/
def useLine (s : State) (k line : Nat) : State := { s with lru := s.lru.filter (· ≠ (k, line)) ++ [(k, line)] }

/-- A miss of a newcomer evicts the least recently used evictable line (R56). -/
def evictOne (s : State) (core : Nat) : State :=
  let l := s.evictable core
  match s.lru.find? fun e => l.contains e with
  | some e => s.writeLine e.1 true e.2
  | none => s

/-- Every line of a strand comes into the register cache of its W-core without a fetch, as the dispatcher or the reading of a waypoint
writes them (R55); each takes the place of an evictable one (R56). -/
def fillLines (s : State) (k : Nat) : State :=
  match s.strand? k with
  | none => s
  | some t =>
    let s := (upto 0 16).foldl (fun s i => if t.present.getLsbD i then s else s.evictOne t.core) s
    (upto 0 16).foldl (fun s i => s.useLine k i) (s.modStrand k fun t => { t with present := 0xFFFF })

/-- Reads context line `line` of a strand from its image where it is absent (R55). -/
def fetchLine (s : State) (k line : Nat) : State :=
  let s := s.useLine k line
  match s.strand? k with
  | none => s
  | some t =>
    if t.present.getLsbD line then s
    else
      let s := (s.evictOne t.core).hwOpen t.core (k + 64 * line) 64
      s.modStrand k fun t =>
        let t' := (upto (8 * line) 8).foldl (fun t i => t.setCw i (imageWord i (t.cw i) (s.imageMem k i))) t
        { t'.setDepth t'.depth with present := t.present ||| (1 <<< line) }

/-- Reads several lines. -/
def fetchLines (s : State) (k : Nat) (ls : List Nat) : State := ls.foldl (fun s i => s.fetchLine k i) s

/-- Some of these lines are absent from the register cache. -/
def absent (s : State) (k : Nat) (ls : List Nat) : List Nat :=
  match s.strand? k with
  | some t => ls.filter fun i => !t.present.getLsbD i
  | none => []

/-- One of these lines is absent and poisoned in memory. -/
def imagePoison (s : State) (k : Nat) (ls : List Nat) : Bool := (s.absent k ls).any fun i => s.poisonAt (k + 64 * i) 64

/-- One of these lines is absent and cannot be read yet. -/
def imageBusy (s : State) (k : Nat) (ls : List Nat) : Bool :=
  (s.absent k ls).any fun i => s.hwBusy (k + 64 * i) 64 || s.memAt (k + 64 * i) = .waits

/-- The bytes of an image. -/
def imageBytes (s : State) (t : Strand) : List Byte := (upto 0 128).flatMap fun i => toBytes (s.lineWord t i).toNat 8

/-- Of some lines, reads those that are not poisoned in memory. -/
def fetchClean (s : State) (k : Nat) (ls : List Nat) : State := s.fetchLines k (ls.filter fun i => !s.imagePoison k [i])

/-- Writes every line that the register cache holds back to the image, and always lines 8 and 10, which hold `tstall` and
the batch state (R56, R175, R255); one that is poisoned in memory stays so. With `drop` the lines leave the register cache. -/
def writeBack (s : State) (k : Nat) (drop : Bool) : State :=
  (upto 0 16).foldl (fun s i => s.writeLine k drop i) (s.fetchClean k [8, 10])

/-- The hardware restores the bytes of an image that system software may not write, before the strand resumes (R370). -/
def restoreImage (s : State) (k : Nat) : State :=
  match s.strand? k with
  | none => s
  | some t =>
    let put (s : State) (o n : Nat) : State :=
      s.hwWrite t.core (k + o) (((s.imageBytes t).drop o).take n)
    put (put (put (put s 0x258 0x58) 0x2B8 0x48) 0x389 1) 0x38C 0x74

/-- The instruction that a strand waits in retires after `g`, which writes its results. A debug-stopped strand has the
results written to its image (R393). -/
def finishWith (s : State) (k : Nat) (g : State → State) : State :=
  match s.strand? k with
  | none => s
  | some t =>
    let s := if t.stopped then s.fetchClean k (upto 0 16) else s
    let s := s.asAgent (.strand k) fun s =>
      let s := g s
      let s := s.setPc (s.pc + w64 t.wlen)
      (s.modStrand k fun t => { t with wait := .none, marks := t.unsigned }).retired
    if t.stopped then s.writeBack k true else s

/-- A result that comes once its instruction has retired is written: to the register cache, or to the image that has left it (R101). -/
def giveX (s : State) (k : Nat) (rd : Reg) (v : Word) : State :=
  let line := rd.toNat / 8
  match s.strand? k with
  | none => s
  | some t =>
    if rd = 0 then s
    else if t.present.getLsbD line then s.modStrand k fun t => t.setCw rd.toNat v
    else if s.imagePoison k [line] then s
    else
      let s := (s.fetchLine k line).modStrand k fun t => t.setCw rd.toNat v
      if t.status = .resident && !t.stopped then s else s.writeLine k true line

/-- A register of a strand is still to be written by an entry of an engine queue. -/
def owed (s : State) (k : Nat) (p : Reg → Bool) : Bool := s.engine.any fun e => e.who.any fun w => w.1 = k && p w.2

/-- The instruction that a strand waits in retires with `v` in rd. -/
def finishWait (s : State) (k : Nat) (rd : Reg) (v : Word) : State := s.finishWith k fun s => s.setX rd v

end State

end Sys2Proof.Machine
end

