-- ==== Sys2Proof/Machine/Operands.lean ====
section
/-! DEFINITION. Operand forms: stage memory (R192), accumulator words and tiles (R265), convergence-register numbers
(R111, R120), lane-group results (R137 to R141), the matrix sum (R272, R273). -/

namespace Sys2Proof.Machine

/-! ### Stage memory -/

namespace Crew

/-- W-cores of the crew (R75). -/
def k (c : Crew) : Nat := (c.shape + 2047) / 2048

/-- Stage allocation per crew W-core (R192). -/
def stageA (c : Crew) : Nat := roundUp c.stageSize Config.stageBank

/-- `n` bytes at stage address `a` lie in the crew's stage memory (R192). -/
def stageIn (c : Crew) (a n : Nat) : Bool := a < 2 ^ 22 && a / 2 ^ 20 < c.k && a % 2 ^ 20 + n ≤ c.stageA

/-- First byte of an extent outside the crew's stage memory. -/
def stageOut (c : Crew) (a n : Nat) : Option Nat :=
  if n = 0 || c.stageIn a n then none
  else if c.stageIn a 1 then some (a / 2 ^ 20 * 2 ^ 20 + c.stageA) else some a

/-- A row that the bytes touch is marked poisoned (R257). -/
def stageBad (c : Crew) (a n : Nat) : Bool := (linesOf a n).any fun r => c.rowPoison.contains r

/-- Bytes of stage memory. -/
def stageGet (c : Crew) (a n : Nat) : Nat := bytesGet c.stage a n

/-- Writes stage memory. -/
def stageSet (c : Crew) (a v n : Nat) : Crew := { c with stage := bytesSet c.stage a v n }

/-- The W-core that carries crew W-core `v`. -/
def coreNum (c : Crew) (v : Nat) : Nat := c.cores.getD v 0

/-! ### Accumulator memory -/

/-- Key of an accumulator element. -/
def accKey (v bank row col : Nat) : Nat := ((v * 32 + bank) * 32 + row) * 128 + col

/-- Bank `i` of crew W-core `v` is allocated. -/
def allocd (c : Crew) (v i : Nat) : Bool := (c.alloc.getD v 0).getLsbD i

/-- An accumulator element. -/
def accGet (c : Crew) (key : Nat) : Nat := (sget c.acc key).toNat

/-- Writes an accumulator element. Any write makes the element pass its check again; the specification states that for
`am.zero` alone (R289; DESIGN CHOICE, log 72). -/
def accSet (c : Crew) (key v : Nat) : Crew :=
  { c with acc := sset c.acc key (BitVec.ofNat 32 v),
           accFail := c.accFail.filter (· ≠ key) }

end Crew

/-- Fields of an accumulator word (Table 10.2). -/
def awBank (w : Nat) : Nat := bits w 4 0
/-- Row w0. -/
def awRow (w : Nat) : Nat := bits w 9 5
/-- Column c0. -/
def awCol (w : Nat) : Nat := bits w 16 10
/-- Crew W-core v. -/
def awCore (w : Nat) : Nat := bits w 19 18
/-- Second crew W-core of a paired operation. -/
def awPartner (w : Nat) : Nat := bits w 21 20

/-- Well formed, partner not considered (R265). -/
def awOk (c : Crew) (w : Nat) : Bool := bits w 63 22 = 0 && bits w 17 17 = 0 && awCore w < c.k

/-- Element bytes of a matrix format (Table 10.1). -/
def mxE (fmt : Nat) : Nat := if fmt = 0 then 2 else if fmt = 1 then 4 else 8
/-- K of a matrix format. -/
def mxK (fmt : Nat) : Nat := if fmt = 0 then 32 else if fmt = 1 then 8 else 4
/-- Element format of a matrix format. -/
def mxIn (fmt : Nat) : FFmt := if fmt = 0 then bf16 else if fmt = 1 then f32 else f64
/-- Result format. -/
def mxOut (fmt : Nat) : FFmt := if fmt = 2 then f64 else f32
/-- Window width (R273). -/
def mxWd (fmt : Nat) : Nat := if fmt = 2 then 110 else 48

/-- A legal tile of m rows and n columns on crew W-core v (R265). -/
def tileOk (c : Crew) (fmt m n w v : Nat) : Bool :=
  let wd := if fmt = 2 then 2 * n else n
  awOk c w && awRow w % 16 = 0 && awCol w % 16 = 0 && awCol w + wd ≤ 128
    && (upto (awBank w) ((awRow w + m - 1) / 32 + 1)).all fun b => b < c.banks && c.allocd v b

/-- Keys of tile element (i, j): one column, or for FP64 two. -/
def tileKeys (fmt v w i j : Nat) : List Nat :=
  let bank := awBank w + (awRow w + i) / 32
  let row := (awRow w + i) % 32
  if fmt = 2 then [Crew.accKey v bank row (awCol w + 2 * j), Crew.accKey v bank row (awCol w + 2 * j + 1)]
  else [Crew.accKey v bank row (awCol w + j)]

/-- The code of a tile element. -/
def tileGet (c : Crew) (ks : List Nat) : Nat := ks.foldr (fun k acc => c.accGet k + 2 ^ 32 * acc) 0

/-- Writes the code of a tile element. -/
def tileSet (c : Crew) (ks : List Nat) (v : Nat) : Crew :=
  match ks with
  | [] => c
  | k :: t => tileSet (c.accSet k (v % 2 ^ 32)) t (v / 2 ^ 32)

/-! ### The matrix sum -/

/-- Sum of the terms cut at 2^l, as a multiple of 2^l (R273). -/
def cutSum (l : Int) : List FVal → Int
  | [] => 0
  | .fin n m e :: t =>
    let q : Nat := if l ≤ e then m * 2 ^ (e - l).toNat else m / 2 ^ (l - e).toNat
    (if n then -(q : Int) else q) + cutSum l t
  | _ :: t => cutSum l t

/-- Greatest floor(log2 |t|) of the terms that are not zero. -/
def termMax : List FVal → Option Int
  | [] => none
  | .fin _ m e :: t =>
    let here := e + (Nat.log2 m : Int)
    match termMax t with
    | none => if m = 0 then none else some here
    | some x => if m = 0 then some x else some (max x here)
  | _ :: t => termMax t

/-- MxSum of the operands and of the present element, if it takes part: code, nv, of (R273, R274). -/
def mxSum (fmt : Nat) (c : Option FVal) (as bs : List FVal) : Nat × Bool × Bool :=
  let f := mxOut fmt
  let ops := (match c with | some x => [x] | none => []) ++ as ++ bs
  if ops.any (·.isNan) then (f.qnan, ops.any (fun x => x.sigFlag ≠ 0), false)
  else
    let ps := (List.zip as bs).map fun p => fmul p.1 p.2
    let terms := (match c with | some x => [x] | none => []) ++ ps.map (·.1)
    let isInf (n : Bool) (x : FVal) : Bool := x = .inf n
    if ps.any (fun p => p.2 ≠ 0) then (f.qnan, true, false)
    else if terms.any (isInf true) && terms.any (isInf false) then (f.qnan, true, false)
    else if terms.any (isInf true) then (f.infBits true, false, false)
    else if terms.any (isInf false) then (f.infBits false, false, false)
    else
      match termMax terms with
      | none => (if terms.all (·.neg?) then 2 ^ (f.width - 1) else 0, false, false)
      | some emax =>
        let l := emax - mxWd fmt + 1
        let t := cutSum l terms
        if t = 0 then (0, false, false)
        else
          let r := roundFin f 0 (t < 0) t.natAbs l
          (r.1, false, r.2 / 4 % 2 = 1)

/-! ### Convergence-register numbers -/

/-- What register number n of cvn names for a strand: the S set is number 16. -/
inductive CvSel | ok (i : Nat) | illegal | limit
  deriving DecidableEq, Repr

/-- R111 and R120. -/
def cvSel (t : Strand) (c : Crew) (n : BitVec 4) : CvSel :=
  if t.sMode then (if n = 15 then .ok 16 else .illegal)
  else if n.toNat < c.cvs then .ok n.toNat else .limit

/-! ### Lane-group results -/

/-- Operators of Table 5.2, by bits [2:0] of the subop. -/
def gopFn (o : Nat) (a b : Word) : Word :=
  match o with
  | 0 => a + b
  | 1 => a &&& b
  | 2 => a ||| b
  | 3 => a ^^^ b
  | 4 => if a.slt b then a else b
  | 5 => if a.slt b then b else a
  | 6 => if a.ult b then a else b
  | _ => if a.ult b then b else a

/-- Identity I(o). -/
def gopId (o : Nat) : Word :=
  match o with
  | 1 => -1
  | 4 => 0x7FFFFFFFFFFFFFFF
  | 5 => 0x8000000000000000
  | 6 => -1
  | _ => 0

/-- Greatest power of two below `n`, for `n` up to 2^14. -/
def powBelow (n : Nat) : Nat := (upto 0 14).foldl (fun h i => if 2 ^ i < n then 2 ^ i else h) 1

/-- The split-sum S of R140 over codes of a format, with the flags of its additions. -/
def splitSum (f : FFmt) (l : List Nat) : Nat → Nat × Nat
  | 0 => (0, 0)
  | fuel + 1 =>
    match l with
    | [] => (0, 0)
    | [x] => (if (FVal.ofBits f x).isNan then f.qnan else x, 0)
    | _ =>
      let h := powBelow l.length
      let a := splitSum f (l.take h) fuel
      let b := splitSum f (l.drop h) fuel
      let r := ffinish f 0 (fadd 0 (FVal.ofBits f a.1) (FVal.ofBits f b.1))
      (r.1, a.2 ||| b.2 ||| r.2)

/-- Source rank of a shuffle (R137). -/
def shflSrc (group j a m : Nat) : Nat :=
  let s : Int :=
    match group with
    | 0 => (a : Int)
    | 1 => ((j ^^^ a : Nat) : Int)
    | 2 => (j : Int) - a
    | 3 => (j : Int) + a
    | _ => (a : Int)
  if s < 0 || (m : Int) ≤ s then j else s.toNat

/-- Results of groups 0 to 6 by rank, for operands (X[rs1], X[rs2]) by rank (R137 to R139). -/
def laneInt (group sub : Nat) (ops : List (Word × Nat)) : List Word :=
  let m := ops.length
  let vs := ops.map (·.1)
  let at' (j : Nat) : Word := vs.getD j 0
  (upto 0 m).map fun j =>
    let o := sub % 8
    if group < 5 then at' (shflSrc group j ((ops.getD j (0, 0)).2) m)
    else if 8 ≤ sub then
      let fold (l : List Word) : Word := l.foldl (gopFn o) (gopId o)
      match sub / 8 with
      | 1 => fold vs
      | 2 => fold (vs.take (j + 1))
      | _ => fold (vs.take j)
    else
      match sub with
      | 0 => w64 (b2n (vs.all (· ≠ 0)))
      | 1 => w64 (b2n (vs.any (· ≠ 0)))
      | 2 => w64 (b2n (vs.all (· = at' j)))
      | 3 => w64 ((upto 0 64).foldl (fun acc b =>
          if 64 * (j / 64) + b < m && at' (64 * (j / 64) + b) ≠ 0 then acc + 2 ^ b else acc) 0)
      | 4 => w64 (vs.filter (· ≠ 0)).length
      | 5 => w64 (vs.findIdx (· = at' j))
      | _ => w64 (vs.filter (· = at' j)).length

/-- Results and flags of group 7 by rank, as register values (R140, R141). -/
def laneFp (sub : Nat) (ops : List Word) : List Word × Nat :=
  let f := if sub % 2 = 0 then f32 else f64
  let vs := ops.map (unbox f)
  let m := vs.length
  let nv := if vs.any fun x => (FVal.ofBits f x).sigFlag ≠ 0 then 16 else 0
  let out (v : Nat) : Word := box f v
  match sub / 2 with
  | 0 =>
    let r := splitSum f vs 16
    (ops.map fun _ => out r.1, r.2 ||| nv)
  | 4 =>
    let rs := (upto 0 m).map fun j => splitSum f (vs.take (j + 1)) 16
    (rs.map fun r => out r.1, rs.foldl (fun a r => a ||| r.2) nv)
  | 6 =>
    let rs := (upto 0 m).map fun j => if j = 0 then (2 ^ (f.width - 1), 0) else splitSum f (vs.take j) 16
    (rs.map fun r => out r.1, rs.foldl (fun a r => a ||| r.2) nv)
  | k =>
    let r := vs.foldl (fun a x => (fminmax f (k = 2) a x).1) f.qnan
    (ops.map fun _ => out r, nv)

end Sys2Proof.Machine
end

