-- ==== Sys2Proof/Machine/Collective.lean ====
section
/-! DEFINITION. Convergence registers: signing, completion, closing, cancelling and leaving (R109 to R128), what a
completed collective does (R130, R271, R282, R303). -/

namespace Sys2Proof.Machine

namespace Crew

/-- Register n, the S set being number 16. -/
def cvGet (c : Crew) (n : Nat) : CvReg := if n = 16 then c.sreg else c.cv.getD n {}

/-- Updates register n. -/
def cvMod (c : Crew) (n : Nat) (f : CvReg → CvReg) : Crew :=
  if n = 16 then { c with sreg := f c.sreg } else { c with cv := lmod c.cv n f }

/-- Numbers of the crew's registers, the S set last. -/
def cvNums (c : Crew) : List Nat := upto 0 c.cv.length ++ [16]

/-- The hold state of crew W-core `v` admits register n (R281). -/
def admits (c : Crew) (v n : Nat) : Bool := c.hold.getD v 0 < 2 || c.holder.getD v 0 = n

/-- Sets a hold state: 0 off, 1 free, 2 ball mode, 3 ticket mode. -/
def setHold (c : Crew) (v st holder ctr : Nat) : Crew :=
  { c with hold := lmod c.hold v fun _ => st, holder := lmod c.holder v fun _ => holder,
           holdCtr := lmod c.holdCtr v fun _ => ctr }

end Crew

namespace CvReg

/-- Nothing pending. -/
def clear (r : CvReg) : CvReg :=
  { r with kind := 0, sig := [], signed := [], fixed := false, gone := false, late := [], sideFrom := none }

/-- The pending collective is complete (R110). -/
def complete (r : CvReg) : Bool := r.signed.length ≠ 0 && r.signed.length = r.members.length

/-- What a waiter of phase `p` learns: nothing yet, -6 where it closed cancelled, 0 (R122, R124). -/
def answer (r : CvReg) (p : Nat) : Option Word :=
  if r.phase = p then none
  else if r.hist.getLsbD ((r.phase + 2 ^ 31 - p) % 2 ^ 31 - 1) then some (neg 6)
  else if r.unrel.any fun u => u.1 = p then none
  else some 0

/-- What `cv.wt` on token `p` learns (R124): a strand that comes to it once a later phase has closed does not wait for the
release of p; one that `waits` already does. -/
def answerWt (r : CvReg) (p : Nat) (waits : Bool) : Option Word :=
  let d := (r.phase + 2 ^ 31 - p) % 2 ^ 31
  if d = 0 then none
  else if r.hist.getLsbD (d - 1) then some (neg 6)
  else if (waits || d = 1) && r.unrel.any fun u => u.1 = p then none
  else some 0

end CvReg

/-- A matrix operation that has started: it has read its operands (R262). -/
def EngEntry.started (e : EngEntry) : Bool := match e.op with | .calc _ _ _ _ _ _ _ _ => true | _ => false

/-- What R114 and R115 make of a signature. -/
inductive SignRes | ok | mismatch | busy
  deriving DecidableEq, Repr

/-- Whether strand `sid` may sign (R114, R115). A strand that joined after the pending collective completed, while that still
waits signed (R281), waits too, whatever its signature: R110 counts it for later collectives alone, and R114 would trap it
(DESIGN CHOICE, log 74). -/
def CvReg.signable (r : CvReg) (sid kind : Nat) (sig : List Nat) : SignRes :=
  if !r.members.contains sid then .mismatch
  else if r.signed.contains sid || r.fixed then .busy
  else if r.kind ≠ 0 && (r.kind ≠ kind || r.sig ≠ sig) then .mismatch
  else .ok

namespace State

/-- The strand of a crew with this rank. -/
def memberOf (s : State) (crew sid : Nat) : Option Strand := s.strands.find? fun t => t.crew = crew && t.sid = sid

/-- Updates a register of a crew. -/
def modCv (s : State) (crew n : Nat) (f : CvReg → CvReg) : State := s.modCrew crew fun c => c.cvMod n f

/-- Strands of the crew that wait on a phase of register n and may go on do so. -/
def cvWake (s : State) (crew n : Nat) : State :=
  match s.crew? crew with
  | none => s
  | some c =>
    let r := c.cvGet n
    let fin (s : State) (t : Strand) (rd : Reg) (acq : Bool) (v : Word) : State :=
      let s := s.finishWait t.image rd v
      if acq && v = 0 then s.ncPoint t.core else s
    (s.strands.filter fun t => t.crew = crew).foldl (fun s t =>
      match t.wait with
      | .barrier n' p rd acq =>
        if n' = n then (match r.answer p with | some v => fin s t rd acq v | none => s) else s
      | .cvWt n' p rd =>
        if n' = n then (match r.answerWt p true with | some v => fin s t rd true v | none => s) else s
      | _ => s) s

/-- Strands that wait to sign on register n sign now, if the collective that held them is over: each issues its instruction
next; where one event frees several, in rising sid (R115; the specification gives no order: DESIGN CHOICE, log 83). -/
def cvFree (s : State) (crew n : Nat) : State :=
  match s.crew? crew with
  | none => s
  | some c =>
    let r := c.cvGet n
    let now := sortBy (fun (a b : Strand) => a.sid ≤ b.sid) (s.strands.filter fun t =>
      t.crew = crew && t.wait = .busy n && !r.signed.contains t.sid && !r.fixed)
    let s := now.foldl (fun s t => s.dropWait t.image) s
    { s with agenda := now.map (fun t => Turn.issue (.strand t.image)) ++ s.agenda }

/-- The open phase of register n closes completed; its release waits for the engine entries that members signed or
issued before they arrived (R122, R210). -/
def cvClose (s : State) (crew n : Nat) : State :=
  let f (r : CvReg) : CvReg :=
    let ids := dedup ((r.pend.filter fun e => r.members.contains e.1 && s.engine.any fun x => x.id = e.2).map (·.2))
    { r.clear with phase := (r.phase + 1) % 2 ^ 31, hist := r.hist <<< 1, pend := [],
                   unrel := if ids.isEmpty then r.unrel else r.unrel ++ [(r.phase, ids)] }
  (s.modCv crew n f).cvWake crew n

/-- Entries of the queue of a W-core. -/
def queueOf (s : State) (core : Nat) : List EngEntry := s.engine.filter fun e => e.core = core

/-- The queue of a W-core has room (R260). -/
def queueRoom (s : State) (core : Nat) : Bool := (s.queueOf core).length < 16

/-- Row slots held in the gather unit of a W-core (R276, R279): by signed members, by gathered operations that have not
started, and by A of a pair in the units of both sides until both engines have read it. -/
def latchUsed (s : State) (core : Nat) : Nat :=
  let pending := s.crews.flatMap fun c => c.cv.map fun r =>
    if r.kind = 3 && r.sig.getD 0 9 = 1 && c.coreNum (awCore (r.sig.getD 9 0)) = core then r.signed.length else 0
  let other (e : EngEntry) (acc : Nat) : Nat :=
    match s.crew? e.crew with
    | some c => c.coreNum (if e.v = awCore acc then awPartner acc else awCore acc)
    | none => e.core
  let queued := s.engine.map fun e =>
    match e.op with
    | .mma _ m _ _ _ _ _ _ (some l) none => if e.core = core then min m l.length else 0
    | .mma _ m _ _ acc _ _ _ _ (some j) =>
      if e.core = core || (other e acc = core && !s.engine.any fun x => x.id = j && !x.started) then m else 0
    | _ => 0
  pending.foldl (· + ·) 0 + queued.foldl (· + ·) 0

/-- Every signed member of register n retires with `v` in rd. -/
def finishSet (s : State) (crew n : Nat) (sids : List Nat) (v : Word) : State :=
  sids.foldl (fun s i =>
    match s.memberOf crew i with
    | none => s
    | some t =>
      match t.wait with
      | .signed n' rd _ => if n' = n then s.finishWait t.image rd v else s
      | _ => s) s

/-- What a signed member supplied. -/
def signedData (s : State) (crew sid : Nat) : List Nat :=
  match s.memberOf crew sid with
  | none => []
  | some t => match t.wait with | .signed _ _ d => d | _ => []

/-- A completed lane-group instruction writes every member's rd and flags (R130, R137 to R141). -/
def issueLane (s : State) (crew n : Nat) (r : CvReg) : State :=
  let group := r.sig.getD 0 0
  let sub := r.sig.getD 1 0
  let ds := r.signed.map fun i => s.signedData crew i
  let fp : Bool := group = 7
  let res : List Word × Nat :=
    if fp then laneFp sub (ds.map fun d => w64 (d.getD 0 0))
    else (laneInt group sub (ds.map fun d => (w64 (d.getD 0 0), d.getD 1 0)), 0)
  let s := s.modCv crew n CvReg.clear
  (List.zip r.signed res.1).foldl (fun s p =>
    match s.memberOf crew p.1 with
    | none => s
    | some t =>
      match t.wait with
      | .signed _ rd _ =>
        s.finishWith t.image fun s => if fp then (s.setF rd p.2).accrue res.2 else s.setX rd p.2
      | _ => s) s

/-- Puts an entry into an engine queue. -/
def enqueue (s : State) (e : EngEntry) : State := { s with engine := s.engine ++ [e] }

/-- A completed matrix operation: `none` while the hold state or the queue keeps it waiting (R271, R275, R279, R281). A completed
`mx.pmma` takes a latch slot per row of A without waiting for one: more than 128 may then be held, for R276 makes members of
`mx.gmma` wait alone and R279 says no more (DESIGN CHOICE, log 84). -/
def issueMatrix (s : State) (c : Crew) (n : Nat) (r : CvReg) : Option State :=
  let g (i : Nat) : Nat := r.sig.getD i 0
  let op := g 0
  let fmt := g 1
  let m := 16 * 2 ^ g 2
  let nn := 16 * 2 ^ g 3
  let z : Bool := g 4 = 1
  let a := g 6
  let b := g 7
  let p := g 8
  let acc := g 9
  let fail : Option State := some ((s.finishSet c.id n r.signed (neg 3)).modCv c.id n CvReg.clear)
  let done (s : State) : Option State := some ((s.finishSet c.id n r.signed 0).modCv c.id n CvReg.clear)
  if op = 2 then
    let v0 := awCore acc
    let v1 := awPartner acc
    let cwcs := r.signed.map fun i => match s.memberOf c.id i with | some t => t.cwc | none => 0
    if cwcs.any (fun x => x ≠ v0 && x ≠ v1) || !cwcs.contains v0 || !cwcs.contains v1 then fail
    else if !c.admits v0 n || !c.admits v1 n || !s.queueRoom (c.coreNum v0) || !s.queueRoom (c.coreNum v1) then none
    else if r.gone || !tileOk c fmt m nn acc v0 || !tileOk c fmt m nn acc v1 then fail
    else
      let (i0, s) := s.fresh
      let (i1, s) := s.fresh
      let entry (i v mate : Nat) : EngEntry :=
        { id := i, core := c.coreNum v, crew := c.id, v, by' := r.signed, late := r.late,
          op := .mma fmt m nn z acc a (2 ^ 20 * v + b % 2 ^ 20) p none (some mate) }
      some ((((s.finishSet c.id n r.signed 0).modCv c.id n CvReg.clear).enqueue (entry i0 v0 i1)).enqueue (entry i1 v1 i0))
  else
    let v := awCore acc
    if op = 1 && m < r.signed.length then fail
    else if !c.admits v n || !s.queueRoom (c.coreNum v) then none
    else if r.gone || !tileOk c fmt m nn acc v then fail
    else
      let rows := if op = 1 then some (r.signed.map fun i => s.signedData c.id i) else none
      let (i, s) := s.fresh
      done (s.enqueue { id := i, core := c.coreNum v, crew := c.id, v, by' := r.signed, late := r.late,
                        op := .mma fmt m nn z acc a b p rows none })

/-- A completed drain enters the queue; its members wait for it (R303). -/
def issueDrain (s : State) (c : Crew) (n : Nat) (r : CvReg) : Option State :=
  let g (i : Nat) : Nat := r.sig.getD i 0
  let v := awCore (g 6)
  if !c.admits v n || !s.queueRoom (c.coreNum v) then none
  else
    let (i, s) := s.fresh
    let who := r.signed.filterMap fun sid =>
      match s.memberOf c.id sid with
      | some t => match t.wait with | .signed _ rd _ => some (t.image, rd) | _ => none
      | none => none
    let s := who.foldl (fun s w => s.modStrand w.1 fun t => { t with wait := .engine i w.2 }) s
    some ((s.modCv c.id n CvReg.clear).enqueue
      { id := i, core := c.coreNum v, crew := c.id, v, by' := r.signed, who,
        op := .drain (g 1) (g 4 + 1) (16 * 2 ^ g 5) (g 6) (g 7) (g 8) (g 9) (g 2 = 1) })

/-- A completed control form acts on the hold state (Table 10.8); `none` while it waits. -/
def issueControl (s : State) (c : Crew) (n : Nat) (r : CvReg) : Option State :=
  let g (i : Nat) : Nat := r.sig.getD i 0
  let v := g 2
  let h := c.hold.getD v 0
  let mine : Bool := 2 ≤ h && c.holder.getD v 0 = n
  let fin (s : State) (x : Word) : Option State := some ((s.finishSet c.id n r.signed x).modCv c.id n CvReg.clear)
  let hold (s : State) (st holder ctr : Nat) : State := s.modCrew c.id fun c => c.setHold v st holder ctr
  match g 0 with
  | 4 =>
    if h < 2 then fin (hold s 2 n 0) 0
    else if mine then fin s (neg 4)
    else none
  | 5 =>
    if !(h = 2 && mine) then fin s (neg 9)
    else if g 3 < c.cvs then fin (hold s 2 (g 3) 0) 0
    else if g 3 = 16 then fin (hold s 1 0 0) 0
    else if g 3 = 17 then fin (hold s 0 0 0) 0
    else fin s (neg 3)
  | 6 =>
    let a := g 4
    let served := c.stageGet (a + 8) 8
    if !r.fixed && (a % 16 ≠ 0 || !c.stageIn a 16) then fin s (neg 3)
    else if !r.fixed && mine then fin s (neg 4)
    else if !r.fixed && 2 ^ 63 ≤ (g 3 + 2 ^ 64 - served) % 2 ^ 64 then fin s (neg 5)
    else if served = g 3 && h < 2 then fin (hold s 3 n a) 0
    else none
  | _ =>
    if !(h = 3 && mine) then fin s (neg 9)
    else
      let a := c.holdCtr.getD v 0
      let s := s.modCrew c.id fun c => c.stageSet (a + 8) (c.stageGet (a + 8) 8 + 1) 8
      fin (hold s 1 0 0) 0

/-- The check that follows every event of register n (R110). -/
def cvTry (s : State) (crew n : Nat) : State :=
  match s.crew? crew with
  | none => s
  | some c =>
    let r := c.cvGet n
    let hold (o : Option State) : State :=
      match o with | some s => s | none => s.modCv crew n fun r => { r with fixed := true, sideFrom := none }
    if r.kind = 0 || c.stopping then s
    else if r.kind = 1 then (if r.complete then s.cvClose crew n else s)
    else if r.fixed || r.complete then
      if r.kind = 2 then s.issueLane crew n r
      else if r.kind = 4 then hold (s.issueControl c n r)
      else if r.sig.getD 0 0 = 3 then hold (s.issueDrain c n r)
      else hold (s.issueMatrix c n r)
    else if r.kind = 3 && r.sig.getD 0 0 = 2 then
      let side (v : Nat) : Bool :=
        let ms := r.members.filter fun i => match s.memberOf crew i with | some t => t.cwc = v | none => false
        ms ≠ [] && ms.all fun i => r.signed.contains i
      let now := s.ccRun (c.coreNum 0)
      let one := side (awCore (r.sig.getD 9 0)) != side (awPartner (r.sig.getD 9 0))
      s.modCv crew n fun r =>
        { r with sideFrom := if !one then none else match r.sideFrom with | some x => some x | none => some now }
    else s

/-- Completed collectives of a crew that wait for a hold state, a stage word or a queue entry are tried again; where
several wait, a free value says which goes first. -/
def crewRetry (s : State) (crew : Nat) : State :=
  match s.crew? crew with
  | none => s
  | some c =>
    match c.cvNums.filter fun n => (c.cvGet n).fixed with
    | [] => s
    | [n] => (s.cvTry crew n).cvFree crew n
    | l =>
      let (k, s) := s.drawNat
      (l.drop (k % l.length) ++ l.take (k % l.length)).foldl (fun s n => (s.cvTry crew n).cvFree crew n) s

/-- The same for every crew. -/
def retryAll (s : State) : State := s.crews.foldl (fun s c => s.crewRetry c.id) s

/-- The check after an event, and after a control form that may admit others. -/
def cvSettle (s : State) (crew n : Nat) : State :=
  match s.crew? crew with
  | none => s
  | some c =>
    let s' := s.cvTry crew n
    (if (c.cvGet n).kind = 4 then s'.crewRetry crew else s').cvFree crew n

/-- Adds a signature of strand `sid`; the strand's wait is the caller's (R113). -/
def cvAdd (s : State) (crew n sid kind : Nat) (sig : List Nat) : State :=
  s.modCv crew n fun r => { r with kind, sig, signed := insSorted r.signed sid }

/-- The strand in issue signs and waits; the scoreboard marks its destination pending (R130). -/
def cvSign (s : State) (t : Strand) (n kind : Nat) (sig : List Nat) (rd : Reg) (data : List Nat) : State :=
  let reg := rd.toNat + if kind = 2 && sig.getD 0 0 = 7 then 32 else 0
  let s := s.modCur fun t => { t with marks := if reg = 0 then t.marks else { reg, load := false } :: t.marks }
  ((s.await (.signed n rd data)).cvAdd t.crew n t.sid kind sig).cvSettle t.crew n

/-- Strand `sid` arrives in the open phase, with the engine entries it signed or issued before (R122). -/
def cvArrive (s : State) (crew n sid : Nat) : State :=
  let ids := (s.engine.filter fun e => e.crew = crew && e.by'.contains sid).map fun e => (sid, e.id)
  ((s.cvAdd crew n sid 1 []).modCv crew n fun r => { r with pend := r.pend ++ ids }).cvSettle crew n

/-- Strand `sid` leaves register n (R110, R121). -/
def cvQuit (s : State) (crew n sid : Nat) : State :=
  (s.modCv crew n fun r =>
    let signed := r.signed.filter (· ≠ sid)
    let r' := { r with members := r.members.filter (· ≠ sid), signed }
    if signed.isEmpty && r.kind ≠ 0 then r'.clear else r').cvSettle crew n

/-- Strand `sid` leaves every register and the S set, as at its end (R121). -/
def cvLeave (s : State) (crew sid : Nat) : State :=
  match s.crew? crew with
  | none => s
  | some c => c.cvNums.foldl (fun s n => s.cvQuit crew n sid) s

/-- The pending collective of register n is withdrawn: who stays retires as its entry states, who leaves has not begun
(R117, R132, R280, R287, R303). -/
def cvWithdraw (s : State) (crew n : Nat) (r : CvReg) (leaving : Nat → Bool) : State :=
  let s := s.modCv crew n CvReg.clear
  (r.signed.foldl (fun s i =>
    match s.memberOf crew i with
    | none => s
    | some t =>
      match t.wait with
      | .signed _ rd _ =>
        if leaving i || r.kind ≠ 3 then s.dropWait t.image
        else s.finishWait t.image rd (if r.sig.getD 0 0 = 2 then neg 7 else neg 6)
      | _ => s) s).cvFree crew n

/-- Cancels what is pending on register n, with reason 1, 2 or 3 (R117). -/
def cvCancel (s : State) (crew n : Nat) (leaving : Nat → Bool) (reason : Nat) : State :=
  match s.crew? crew with
  | none => s
  | some c =>
    let r := c.cvGet n
    if r.kind = 0 || r.signed.isEmpty then s
    else
      let s := s.modCv crew n fun r => { r with cancels := r.cancels + 1, reason }
      if r.kind = 1 then
        let gone := s.strands.filter fun t => t.crew = crew && leaving t.sid &&
          match t.wait with | .barrier n' p _ _ => n' = n && p = r.phase | _ => false
        let s := gone.foldl (fun s t => s.dropWait t.image) s
        (s.modCv crew n fun r =>
          { r.clear with phase := (r.phase + 1) % 2 ^ 31, hist := (r.hist <<< 1) ||| 1, pend := [] }).cvWake crew n
          |>.cvFree crew n
      else s.cvWithdraw crew n r leaving

/-- Cancels the signatures of a strand that leaves the W-core: every register of which it is a member. -/
def cancelStrand (s : State) (t : Strand) (reason : Nat) : State :=
  match s.crew? t.crew with
  | none => s
  | some c => c.cvNums.foldl (fun s n =>
      if (c.cvGet n).members.contains t.sid then s.cvCancel t.crew n (fun i => i = t.sid) reason else s) s

/-- Cancels the signatures of a crew that is pre-empted: matrix operations and drains retire with -6 or -7 (Tables 10.11 and
11.6), every other instruction counts as not begun. -/
def cancelCrew (s : State) (c : Crew) : State :=
  c.cvNums.foldl (fun s n => s.cvCancel c.id n (fun _ => (c.cvGet n).kind ≠ 3) 1) s

/-- A trap of strand `sid`, a member, at an `mx.pmma` on register n breaks the pair where one is signed (R280). -/
def breakPair (s : State) (crew n sid : Nat) : State :=
  match s.crew? crew with
  | none => s
  | some c =>
    let r := c.cvGet n
    if r.kind = 3 && r.sig.getD 0 0 = 2 && !r.signed.isEmpty && r.members.contains sid then s.cvWithdraw crew n r fun _ => false
    else s

end State

end Sys2Proof.Machine
end

