-- ==== Sys2Proof/Machine/Ops.lean ====
section
/-! DEFINITION. Shared operations: taking an exception and returning from one (R360 to R369; for an L-core the RISC-V
privileged architecture, log 17), forwarding, debug stops, slots and statuses. -/

namespace Sys2Proof.Machine

namespace State

/-! ### Slots, holds, marks -/

/-- Register-targeting loads of a strand complete (R101). -/
def clearMarks (s : State) (k : Nat) : State := s.modStrand k fun t => { t with marks := [] }

/-- The LR hold of a strand ends, and it waits for none; an ended hold stays for those that wait to take it (R217). -/
def endHold (s : State) (k : Nat) : State :=
  let hs := s.holds.map fun h =>
    let h := { h with waiters := h.waiters.filter (· ≠ k) }
    if h.image = k then { h with image := 0, left := 0 } else h
  { s with
    holds := hs.filter s.holdKept
    cores := if s.cores.any (fun c => c.lrq.contains k) then s.cores.map fun c => { c with lrq := c.lrq.filter (· ≠ k) } else s.cores }

/-- Every hold of a pod's W-cores ends: its pass count changes, or it is halted or reassigned (R217, R233). -/
def endHoldsOf (s : State) (pod : Nat) : State :=
  let hs := s.holds.map fun h => if podOf h.core = pod then { h with image := 0, left := 0 } else h
  { s with holds := hs.filter s.holdKept }

/-- A strand gives its slot away: reservation and hold end, buffered reductions merge (R216, R217, R228), and its stores
reach every die, as at a fence of scope `.sy` (R198). -/
def releaseSlot (s : State) (k : Nat) (st : SStatus) : State :=
  let s := ((s.mergeStrand k).drain k).endHold k
  s.modStrand k fun t => { t with status := st, resv := none, marks := [], sent := [], wait := .none }

/-- Depth-0 image of the thread that a strand belongs to. -/
def rootOf (s : State) (t : Strand) : Nat :=
  match s.crew? t.crew with
  | some c => if c.fleet = 0 then t.image else match s.fleet? c.fleet with | some f => f.root | none => t.image
  | none => t.image

/-- Its frame (R60). -/
def ownerFrame (s : State) (t : Strand) : Option Frame := s.frame? (s.rootOf t)

/-- The thread of a strand of depth 0 has been recalled and left the W-side (R68). -/
def away (s : State) (t : Strand) : Bool := t.status = .waiting && match s.crew? t.crew with | some c => c.heldBack | none => false

/-- A home notice to post (R59). -/
def notice (s : State) (f : Frame) (kind : Nat) : State :=
  { s with notices := s.notices ++ [{ die := f.die, kind, tag := f.tag, image := f.image }] }

/-- Die of a strand's crew. -/
def crewDie (s : State) (t : Strand) : Nat := match s.crew? t.crew with | some c => c.die | none => 0

/-! ### Fault records and forwarding -/

/-- A fault record that names a strand. -/
def strandRecord (s : State) (t : Strand) (kind cause inner : Nat) (pc tval : Word) (pa : Nat) : State :=
  s.faultRecord t.core
    { kind, cause, depth := t.depth, inner, sid := t.sid, cid := t.cbits cCid 31 0, pc, tval, pa, image := t.image }

/-- Forward(k) (R367): `pc` is the address of the instruction for the record of kind 3. -/
def forward (s : State) (n : Nat) (kind : Nat) (pc : Word) : State :=
  match s.strand? n with
  | none => s
  | some t =>
    let s := s.clearMarks n
    let s := s.cancelStrand t 3
    let s := s.releaseSlot n .forwarded
    let s := (s.fetchLine n 14).modStrand n fun t =>
      let u := t.setCbits cFwd 15 8 kind
      { u with fwd := kind, resume := false }
    let s := s.writeBack n true
    match s.strand? n with
    | none => s
    | some t =>
      let cause := t.cbits cScause 7 0
      let s := if kind = 1 || kind = 2 then s.strandRecord t 3 cause 0 pc (t.cw cStval) 0 else s
      { s with fwdq := s.fwdq ++
        [({ die := s.crewDie t, image := n, root := s.rootOf t, kind, cause := if kind = 3 then 48 else cause } : FwdEntry)] }

/-- DoubleFault(c, v, a) (R367). -/
def doubleFault (s : State) (t : Strand) (c : Nat) (v a : Word) : State :=
  let s := s.strandRecord t 2 48 c a v s.accPa
  (s.modStrand t.image fun t => t.setCw cPc a).forward t.image 3 a

/-! ### Taking an exception -/

/-- A trap of a strand with cause c and value v (R362). -/
def trapStrand (s : State) (t : Strand) (c : Nat) (v : Word) : State :=
  let a := t.cw cPc
  let d := t.depth
  let k := t.image
  let s := (s.endHold k).modStrand k fun t =>
    { t with resv := none, wait := .none, step := false, sent := [], pendStop := if t.step && t.pendStop = 0 then 2 else t.pendStop,
             since := none }
  if d = 3 then s.doubleFault t c v a
  else if 1 ≤ d && [1, 5, 7, 12, 13, 15].contains c && (t.cw cWtslo).toNat ≤ v.toNat && v.toNat < (t.cw cWtshi).toNat then
    s.doubleFault t c v a
  else
    let s := if (s.coreAt t.core).frecmask.getLsbD c then s.strandRecord t 1 c 0 a v s.accPa else s
    let enter (t : Strand) : Strand :=
      let i := cSave + 4 * (d - 1)
      let t := if 1 ≤ d then ((t.setCw i (t.cw cSepc)).setCw (i + 1) (t.cw cScause)).setCw (i + 2) (t.cw cStval) else t
      let t := (((t.setCw cSepc a).setCw cScause (w64 c)).setCw cStval v).setDepth (d + 1)
      t.setCw cPc (t.cw cWtvec &&& ~~~3)
    let s := s.modStrand k enter
    if wbits (t.cw cWtvec) 63 2 = 0 || (c = 8 && t.cbits cWstatus 0 0 = 1) then s.forward k 2 a else s

/-- Standard CSR numbers of an L-core. -/
def csrMstatus : Nat := 0x300

/-- A trap of L-core `i`: to M-mode, or where delegated to HS-mode or VS-mode (RISC-V privileged architecture). `hyp`: of a
hypervisor load or store, whose address is the guest's. A load of a device register that waits is given up (R396). -/
def trapL (s : State) (i c : Nat) (v : Word) (hyp : Bool := false) : State :=
  let s : State := { s with dbgq := s.dbgq.filter fun e => e.by' ≠ some i }
  s.modLcore i fun l =>
    let l : LCore := { l with sent := [] }
    let guest : Bool := c = 20 || c = 21 || c = 23
    let ms := l.get csrMstatus
    let mprv : Bool := l.mode = .m && wbit ms 17 && wbits ms 12 11 ≠ 3 && wbit ms 39 && [4, 5, 6, 7, 13, 15, 27].contains c
    let address : Bool := [1, 3, 4, 5, 6, 7, 12, 13, 15, 27].contains c
    let gva : Bool := (l.virt && address) || guest || hyp || mprv
    let gpa : Word := if guest then w64 (l.gpa / 4) else 0
    let inst : Word := if guest && l.implicit then 0x3000 else 0
    if l.mode = .m || !(l.get 0x302).getLsbD c then l.enterM (w64 c) v gpa inst gva (l.get 0x305 &&& ~~~3)
    else if l.virt && (l.get 0x602).getLsbD c then l.enterVS (w64 c) v (l.get 0x205 &&& ~~~3)
    else l.enterHS (w64 c) v gpa inst gva (l.get 0x105 &&& ~~~3)

/-- Where an interrupt of number n goes under a trap vector. -/
def intPc (tv : Word) (n : Nat) : Word := (tv &&& ~~~3) + (if wbit tv 0 then w64 (4 * n) else 0)

/-- L-core `i` takes interrupt `n`, numbered as that mode numbers it (RISC-V privileged architecture); a load of a device register
that waits has not begun. -/
def interruptL (s : State) (i : Nat) (mode : LMode) (n : Nat) : State :=
  let s : State := { s with dbgq := s.dbgq.filter fun e => e.by' ≠ some i }
  s.modLcore i fun l =>
    let l : LCore := { l with sent := [] }
    let cause (n : Nat) : Word := w64 (2 ^ 63 + n)
    match mode with
    | .m => l.enterM (cause n) 0 0 0 false (intPc (l.get 0x305) n)
    | .vs => l.enterVS (cause n) 0 (intPc (l.get 0x205) n)
    | .hs | .u | .vu => l.enterHS (cause n) 0 0 0 false (intPc (l.get 0x105) n)

/-- Taking an exception: the agent in issue traps with cause c and value v. -/
def trap (s : State) (c : Nat) (v : Word) : State :=
  match s.cur with
  | .lcore i => s.trapL i c v
  | .strand k => match s.strand? k with | some t => s.trapStrand t c v | none => s

/-- The exception as an instruction's answer. -/
def raise (s : State) (c : Nat) (v : Word) : Out := .next (s.trap c v)

/-- Goes on with context lines of a strand in the register cache: one that is poisoned in memory raises cause 27, one that cannot
be read yet is waited for (R55, R174, R383, log 32). -/
def withLines (s : State) (k : Nat) (ls : List Nat) (g : State → Out) : Out :=
  if s.imagePoison k ls then { s with accPa := 0 }.raise 27 (w64 k)
  else if s.imageBusy k ls then s.stall
  else g (s.fetchLines k ls)

/-- Illegal-instruction: cause 2, with the instruction (R31). -/
def illegal (s : State) : Out := s.raise 2 s.ibits

/-- Core class: cause 24, with the instruction (R26). -/
def coreClass (s : State) : Out := s.raise 24 s.ibits

/-- Collective mismatch: cause 25, with the instruction (R114). -/
def mismatch (s : State) : Out := s.raise 25 s.ibits

/-! ### Returning from one -/

/-- A strand's return to depth 0 removes it from the S set (R111, R363). -/
def leaveSset (s : State) (t : Strand) : State :=
  match s.crew? t.crew with
  | some c => if c.sreg.members.contains t.sid then s.cvQuit t.crew 16 t.sid else s
  | none => s

/-- `sret` of a strand (R363). -/
def sretStrand (s : State) (k : Nat) : State :=
  match s.strand? k with
  | none => s
  | some t =>
    let d := t.depth
    let i := cSave + 4 * (d - 2)
    let t' := t.setCw cPc (t.cw cSepc)
    let t' := if 2 ≤ d then ((t'.setCw cSepc (t.cw i)).setCw cScause (t.cw (i + 1))).setCw cStval (t.cw (i + 2)) else t'
    let s := s.putStrand (t'.setDepth (d - 1))
    if d ≤ 1 then s.leaveSset t else s

/-! ### Debug stop -/

/-- A debug stop with a reason: the strand drains, its lines are written back and dropped, a forward entry of kind 4 is
posted (R393). -/
def debugStopOp (s : State) (k reason : Nat) : State :=
  match s.strand? k with
  | none => s
  | some t =>
    let s := ((s.clearMarks k).endHold k).fetchLine k 14
    let s := s.modStrand k fun t =>
      let u := (t.setCbits cFwd 18 18 1).setCbits cFwd 31 24 reason
      { u with pendStop := 0, resv := none, step := false }
    let s := s.writeBack k true
    let d := s.crewDie t
    { s with fwdq := s.fwdq ++ [({ die := d, image := k, kind := 4, cause := reason } : FwdEntry)] }

/-! ### Forms of an instruction's answer -/

/-- An instruction of both classes of core. -/
def onAny (s : State) (g : Out) : Out :=
  match s.cur with
  | .lcore i => if (s.lcoreAt i).running then g else .fault .noAgent
  | .strand _ => match s.curStrand with | some _ => g | none => .fault .noAgent

/-- An instruction of W-cores only: cause 24 on an L-core (R26). -/
def onStrand (s : State) (g : Strand → Out) : Out :=
  match s.cur with
  | .lcore i => if (s.lcoreAt i).running then s.coreClass else .fault .noAgent
  | .strand _ => match s.curStrand with | some t => g t | none => .fault .noAgent

/-- The same with the strand's crew. -/
def onCrew (s : State) (g : Strand → Crew → Out) : Out :=
  s.onStrand fun t => match s.crewOf t with | some c => g t c | none => .fault .noAgent

end State

/-- Runs a checked access: its value, its trap, or not begun yet. -/
def Res.run {α : Type} (r : Res α) (g : State → α → Out) : Out :=
  match r with
  | .ok s a => g s a
  | .trap s c v => s.raise c v
  | .stall s => s.stall

end Sys2Proof.Machine
end

