-- ==== Sys2Proof/Machine/Storage.lean ====
section
/-! DEFINITION. Loads and stores of custom-2, stage accesses, fences and prefetches (R104, R105, R188 to R197). -/

namespace Sys2Proof.Machine

/-- Size and signedness of a load width (Table 2.6). -/
def lwSize : LWidth → Nat
  | .i8 => 1 | .i16 => 2 | .i32 => 4 | .i64 => 8 | .n8 => 1 | .n16 => 2 | .n32 => 4

/-- The loaded value extended (R37). -/
def lwExt (w : LWidth) (v : Nat) : Word :=
  match w with
  | .i8 => sext 8 v | .i16 => sext 16 v | .i32 => sext 32 v | .i64 => w64 v
  | .n8 => w64 (v % 2 ^ 8) | .n16 => w64 (v % 2 ^ 16) | .n32 => w64 (v % 2 ^ 32)

/-- Size of a store width. -/
def swSize : SWidth → Nat
  | .i8 => 1 | .i16 => 2 | .i32 => 4 | .i64 => 8

/-- The stage rows that an entry not yet started reads, as (address, length) (R269, R278). -/
def mmaReads : EngOp → List (Nat × Nat)
  | .mma fmt m n _ _ a b p rows _ =>
    (match rows with
      | some _ => []
      | none => (upto 0 m).map fun i => (a + i * (p % 65536), mxK fmt * mxE fmt))
    ++ (upto 0 (mxK fmt)).map fun k => (b + k * (p / 65536 % 65536), n * mxE fmt)
  | _ => []

namespace State

/-- A register-targeting load has issued: its write is pending at the scoreboard (R101); `load` is false for the second register of
one that writes two. -/
def markFrom (s : State) (reg : Nat) (tiers : List Nat) (load : Bool := true) : State :=
  if reg = 0 then s else s.modCur fun t => { t with marks := { reg, tiers, load } :: t.marks }

/-- The same, from the tiers of the access (R175). -/
def mark (s : State) (reg : Nat) : State := s.markFrom reg s.accTiers

/-- A load retires with `v` in rd. -/
def loaded (s : State) (rd : Reg) (v : Word) : Out := ((s.setX rd v).mark rd.toNat).next

/-! ### Non-coherent loads (R190, R208) -/

/-- Lines of 64 bytes in the L1 of a W-core (Table 1.4). -/
def ncCap : Nat := 4096

/-- Installs a non-coherent copy; where the L1 is full of them, a free value names the one that leaves (R15, R190). -/
def ncPut (s : State) (e : NcLine) : State :=
  let n := (s.ncs.filter (·.core = e.core)).length
  if n < ncCap then { s with ncs := e :: s.ncs }
  else let (k, s) := s.drawNat; { s with ncs := e :: dropNth (·.core = e.core) s.ncs (k % n) }

/-- An NC fill or an ordinary fill of one run: the value in memory. An NC fill makes no directory entry, and may install a
non-coherent copy, unless an ordinary access has touched the line in this cc: then the line ends coherent (R190, R211). -/
def ncFill (s : State) (a : Agent) (va : Word) (run : Part) (plain : Bool) : Res (List Byte) :=
  let n := s.coreOf a
  let ordinary (s : State) : Bool := plain || run.pbmt ≠ 0 || run.attr = 1 || (sget s.pct (pageOf run.pa)).toNat = n + 1
  (s.openPartsAs n (if plain || run.attr = 1 then s.cacheOfAgent a else noCache) a va [run] false).bind fun s _ =>
    let data := s.readParts a [run]
    let s := s.homeSeen a [run]
    let l := lineOf run.pa
    if ordinary s then .ok (s.dropNc n [run]) data
    else if s.cycle.any fun e => e.1 = n && e.2.1 = l && e.2.2 = s.cc n then .ok s data
    else
      let (b, s) := s.drawBit
      .ok (if b then s.ncPut { core := n, line := l, data := s.readParts a [run.at (64 * l, 64)] } else s) data

/-- `ld.nc` of one run within a line: a held copy, if the W-core still has it, or a fill; to a page of type NC or IO an
ordinary load. -/
def ncRun (s : State) (a : Agent) (va : Word) (run : Part) : Res (List Byte) :=
  let n := s.coreOf a
  let l := lineOf run.pa
  let plain : Bool := run.pbmt ≠ 0 || s.rbuf.any fun e => e.core = n && e.line = l
  match (if plain then none else s.ncs.find? fun e => e.core = n && e.line = l) with
  | none => s.ncFill a va run plain
  | some e =>
    let (b, s) := s.drawBit
    if b then .ok s ((e.data.drop (run.pa % 64)).take run.n)
    else { s with ncs := s.ncs.filter fun x => x ≠ e }.ncFill a va run false

/-- `ld.nc` of several runs. -/
def ncRuns (s : State) (a : Agent) (va : Word) : List Part → Res (List Byte)
  | [] => .ok s []
  | r :: rest => (s.ncRun a va r).bind fun s d => (s.ncRuns a va rest).bind fun s d' => .ok s (d ++ d')

/-- The value of an `ld.nc`. -/
def loadNc (s : State) (va : Word) (n : Nat) : Res Nat :=
  (s.locate s.cur .load va n).bind fun s loc =>
    match loc with
    | .mmio _ => .trap s 5 va
    | .mem parts =>
      (s.ncRuns s.cur va (parts.flatMap fun p => (lineRuns p.pa p.n).map p.at)).bind fun s d => .ok s (ofBytes d)

/-! ### Stage memory (R192, R245, R286) -/

/-- A write to stage bytes by strand `sid` of the crew has to wait: an entry that it signed before `before` has not read
them (R286). -/
def engineReads (s : State) (crew sid before a n : Nat) : Bool :=
  s.engine.any fun e => e.crew = crew && e.by'.contains sid && e.id < before &&
    (mmaReads e.op).any fun r => a < r.1 + r.2 && r.1 < a + n

/-- The same for a copy of the strand that was issued before `before` (R245). -/
def copyReads (s : State) (image before : Nat) (stage : Bool) (a n : Nat) : Bool :=
  s.copies.any fun c => c.srcStage = stage && c.image = image && c.id < before && (linesOf a n).any fun l => c.unread.contains l

/-- A stage write of a strand has to wait. -/
def stageHeld (s : State) (t : Strand) (a n : Nat) : Bool :=
  s.engineReads t.crew t.sid s.nextId a n || s.copyReads t.image s.nextId true a n

/-- Checks of a stage access of `n` bytes (R192, R257): `mis` and `out` are its causes. -/
def stageCheck (s : State) (c : Crew) (a : Word) (n mis out : Nat) (g : Out) : Out :=
  if a.toNat % n ≠ 0 then s.raise mis a
  else if !c.stageIn a.toNat n then s.raise out a
  else if c.stageBad a.toNat n then s.raise 27 a
  else g

/-- The stage rows that a pending matrix operation of a signature reads (R270, R278). -/
def sigReads (sig : List Nat) : List (Nat × Nat) :=
  let g (i : Nat) : Nat := sig.getD i 0
  let op (b : Nat) : EngOp :=
    .mma (g 1) (16 * 2 ^ g 2) (16 * 2 ^ g 3) false (g 9) (g 6) b (g 8) (if g 0 = 1 then some [] else none) none
  if g 0 = 2 then mmaReads (op (2 ^ 20 * awCore (g 9) + g 7 % 2 ^ 20)) ++ mmaReads (op (2 ^ 20 * awPartner (g 9) + g 7 % 2 ^ 20))
  else if g 0 < 2 then mmaReads (op (g 7)) else []

/-- Stage bytes are about to be written: the entries that have not started and may read them, and the matrix operations that a member
has signed, remember what stands there (R286, R305). -/
def noteLate (s : State) (crew : Nat) (as : List Nat) : State :=
  let st : Sparse 8 := match s.crew? crew with | some c => c.stage | none => []
  let within (l : List (Nat × Nat)) (a : Nat) : Bool := l.any fun r => r.1 ≤ a && a < r.1 + r.2
  let old (p : Nat → Bool) : List (Nat × Byte) := (as.filter p).map fun a => (a, sget st a)
  let reads (e : EngEntry) (a : Nat) : Bool :=
    match e.op with
    | .mma _ _ _ _ _ _ _ _ _ _ => within (mmaReads e.op) a
    | .run _ _ _ _ _ _ => true
    | .drain _ _ _ _ _ _ _ _ => true
    | _ => false
  let s := s.modCrew crew fun c =>
    { c with cv := c.cv.map fun r => if r.kind = 3 then { r with late := r.late ++ old (within (sigReads r.sig)) } else r }
  { s with engine := s.engine.map fun e => if e.crew = crew then { e with late := e.late ++ old (reads e) } else e }

/-- A stage write of a crew; waiting control forms look again (R282). -/
def stageWrite (s : State) (crew a v n : Nat) : State :=
  ((s.noteLate crew (upto a n)).modCrew crew fun c => c.stageSet a v n).crewRetry crew

/-! ### Fences (R104, R194) -/

/-- The image of the agent in issue, 0 for an L-core. -/
def me (s : State) : Nat := match s.cur with | .strand k => k | .lcore _ => 0

/-- A release by the agent in issue: its buffered reductions merge (R228), and its stores reach every die, or in a narrow
scope its own (R201, R204). -/
def release (s : State) (wide : Bool := true) : State :=
  let s := match s.cur with | .strand k => s.mergeStrand k | .lcore _ => s
  if wide then s.drain s.cur.tag else s.drainDie s.cur.tag (dieOf (s.coreOf s.cur))

/-- An acquire by the agent in issue: an NC invalidation point (R202). -/
def acquire (s : State) : State := match s.cur with | .strand _ => s.ncPoint (s.coreOf s.cur) | .lcore _ => s

/-- A fence with sets i o r w in [3:0]; `wide` for the scopes `.pk` and `.sy` (R194, R204). -/
def fenceOp (s : State) (wide : Bool) (pred succ : BitVec 4) : Out :=
  let r := pred.getLsbD 1
  let w := pred.getLsbD 0
  if pred = 0 || succ = 0 then s.next
  else
    let s := if w then s.release wide else s
    let s := if r && (succ.getLsbD 1 || succ.getLsbD 0) then s.acquire else s
    s.next

/-- What a prefetch leaves (R196): it is dropped, or performed, which classifies its page and caches the line (R181, R186). -/
def prefetched (s : State) (t : Strand) (a : Reg) (w : Bool) : State :=
  match (if canonical (s.x a) then s.tlbFind t.core t.quad t.asid (s.x a) else none) with
  | none => s
  | some e =>
    let pa := e.at (s.x a)
    let s := s.patOpen pa
    let (b, s') := s.drawBit
    let c : Ctl :=
      { base := 0, asid := t.asid, user := !t.sMode, sum := t.cbits cWstatus 18 18 = 1,
        mxr := t.sMode && t.cbits cWstatus 19 19 = 1 }
    let ok := b && s.memAt pa = .ok && !s.poisonAt pa 1 && !(w && s.attrOf pa = 1) &&
      heldOk e (if w then .store else .load) c
    if ok then (s'.classify t.core pa (s.attrOf pa)).dirTouch (dieOf t.core) pa 1 w else s'

/-- A prefetch retires, whatever becomes of it (R196). -/
def prefetch (s : State) (a : Reg) (w : Bool) : Out := s.onStrand fun t => (s.prefetched t a w).next

end State

/-- Address of a base register and imm9. -/
def addr9 (s : State) (a : Reg) (imm : BitVec 9) : Word := s.x a + imm.signExtend 64

/-- `ld.nc`. -/
def execLdNc (lw : LWidth) (rd a : Reg) (imm : BitVec 9) (s : State) : Out :=
  s.onStrand fun _ => (s.loadNc (addr9 s a imm) (lwSize lw)).run fun s v => s.loaded rd (lwExt lw v)

/-- `ld.bp`: coherent, and an L1 copy of the line is read there (R191). -/
def execLdBp (lw : LWidth) (rd a : Reg) (imm : BitVec 9) (s : State) : Out :=
  s.onStrand fun _ => (s.load (addr9 s a imm) (lwSize lw)).run fun s v => s.loaded rd (lwExt lw v)

/-- `st.bp`. -/
def execStBp (sw : SWidth) (a b : Reg) (imm : BitVec 9) (s : State) : Out :=
  s.onStrand fun _ => (s.store (addr9 s a imm) (swSize sw) (s.x b).toNat).run fun s _ => s.next

/-- `sl`. -/
def execSl (lw : LWidth) (rd a : Reg) (imm : BitVec 9) (s : State) : Out :=
  s.onCrew fun _ c =>
    s.stageCheck c (addr9 s a imm) (lwSize lw) 4 5
      (((s.setX rd (lwExt lw (c.stageGet (addr9 s a imm).toNat (lwSize lw)))).markFrom rd.toNat []).next)

/-- `ss`. -/
def execSs (sw : SWidth) (a b : Reg) (imm : BitVec 9) (s : State) : Out :=
  s.onCrew fun t c =>
    let ad := addr9 s a imm
    s.stageCheck c ad (swSize sw) 6 7
      (if s.stageHeld t ad.toNat (swSize sw) then s.stall
       else (s.stageWrite c.id ad.toNat (s.x b).toNat (swSize sw)).next)

/-- The scopes whose fences wait for replicas; an L-core performs the narrow scopes as `.pk` (R27). -/
def wideScope (s : State) (sc : Scope) : Bool :=
  match sc with
  | .pk => true | .sy => true
  | .cw | .pd | .di => match s.cur with | .lcore _ => true | .strand _ => false

/-- `fn.cw` to `fn.sy`. -/
def execFnScoped (sc : Scope) (pred succ : BitVec 4) (s : State) : Out := s.onAny (s.fenceOp (wideScope s sc) pred succ)

/-- `fn.nc` (R195); on an L-core a no-op (R189). -/
def execFnNc (s : State) : Out := s.onAny s.acquire.next

/-- `fn.pf.l1`. -/
def execFnPfL1 (a : Reg) (s : State) : Out := s.prefetch a false
/-- `fn.pf.llc`. -/
def execFnPfLlc (a : Reg) (s : State) : Out := s.prefetch a false
/-- `fn.pf.w`. -/
def execFnPfW (a : Reg) (s : State) : Out := s.prefetch a true

/-- FENCE, at scope `.sy` (R104). -/
def execFence (_fm pred succ : BitVec 4) (s : State) : Out := s.onAny (s.fenceOp true pred succ)

/-- `fence.i` (R105): after the agent's stores are performed. -/
def execFenceI (s : State) : Out := s.onAny ((s.drain s.cur.tag).dropIbuf s.cur).next

/-- A Zawrs wait of at most `n` cc (R106); on an L-core the stall may end at once (Zawrs). -/
def State.wrs (s : State) (n : Nat) : Out :=
  s.onAny (match s.curStrand with
    | none => s.next
    | some t => if t.resv.isNone then s.next else .next (s.await (.wrs (s.cc t.core + n))))

/-- `wrs.nto`. -/
def execWrsNto (s : State) : Out := s.wrs 65536

/-- `wrs.sto`. -/
def execWrsSto (s : State) : Out := s.wrs 256

/-- WRS_TIMEOUT: a Zawrs wait ends (R106). -/
def execWrsTimeout (k : Nat) (s : State) : Out :=
  .next (match s.strand? k with
    | some t =>
      match t.wait with
      | .wrs e => if e ≤ s.cc t.core || t.resv.isNone then s.finishWith k id else s
      | _ => s
    | none => s)

end Sys2Proof.Machine
end

