-- ==== Sys2Proof/Machine/Atomics.lean ====
section
/-! DEFINITION. Atomics and buffered reductions (08_atomics.md). -/

namespace Sys2Proof.Machine

namespace State

/-- What an atomic finds: its place and the old value. -/
structure Atom where
  part : Part
  old : Nat

/-- Translates an aligned atomic and refuses device and IO pages (R212, R232). -/
def atomLoc (s : State) (k : AccKind) (va : Word) (n : Nat) : Res Part :=
  (s.locate s.cur k va n).bind fun s loc =>
    match loc with
    | .mem [p] => if p.pbmt = 2 then .trap s (accessFault k) va else .ok s p
    | _ => .trap s (accessFault k) va

/-- Classifies, merges and reads an aligned atomic at its home; poison traps where `chk` (R212, R228, R232). The stores to
its bytes reach the agent's die: it reads none older afterwards (R204). Any but an LR ends the reservations of others on the line, be
anything written or not (R216). One that returns what a peer package answers is sent to it first (R336). -/
def atomOpen (s : State) (k : AccKind) (va : Word) (p : Part) (chk : Bool) (lr : Bool := false) (ret : Bool := true) : Res Atom :=
  (if chk && ret && s.unsent s.cur p.pa then .stall (s.send s.cur va p.pa)
    else s.openParts s.cur va [p] (!chk || k = .store)).bind fun s _ =>
    if chk && s.poisonAt p.pa p.n then .trap s 27 va
    else
      let s := s.sawHome (dieOf (s.coreOf s.cur)) p.pa p.n
      let s := if lr then s else s.loseResv (linesOf p.pa p.n) s.cur
      .ok (s.dropNc (s.coreOf s.cur) [p]) { part := p, old := s.peek 4 p.pa p.n }

/-- The same from the address. -/
def atomAt (s : State) (k : AccKind) (va : Word) (n : Nat) (chk : Bool) (lr : Bool := false) (ret : Bool := true) : Res Atom :=
  (s.atomLoc k va n).bind fun s p => s.atomOpen k va p chk lr ret

/-- The write of an atomic of `n` bytes. -/
def atomPut (s : State) (at' : Atom) (n v : Nat) : State := s.writeParts s.cur [{ at'.part with n }] (toBytes v n)

/-- Alignment, release, access, `g` and acquire of an atomic that returns a value (R215, R231); `wide` whether its scope
reaches beyond the die. -/
def atomic (s : State) (k : AccKind) (a : Word) (n : Nat) (wide aq rl : Bool) (g : State → Atom → State) : Out :=
  if a.toNat % n ≠ 0 then s.raise (if k = .load then 4 else 6) a
  else
    let s := if rl then s.release wide else s
    (s.atomAt k a n true).run fun s at' =>
      let s := g s at'
      (if aq then s.acquire else s).next

/-- Writes rd with the value of a returning atomic. -/
def atomRd (s : State) (rd : Reg) (v : Word) : State := (s.setX rd v).mark rd.toNat

/-- The same for the second register of one that writes two: one load of R101. -/
def atomRd2 (s : State) (rd : Reg) (v : Word) : State := (s.setX rd v).markFrom rd.toNat s.accTiers false

end State

/-- `amo.swap` to `amo.max` (R221). -/
def execAmoOp (op : AOp) (t : ITy) (sc : Scope) (aq rl : Bool) (rd a : Reg) (s : State) : Out :=
  s.onAny (s.atomic .store (s.x a) (ityBytes t) (wideScope s sc) aq rl fun s at' =>
    (s.atomPut at' (ityBytes t) (amoFn op t at'.old (s.x rd).toNat)).atomRd rd (extTy t at'.old))

/-- `amo.cas` (R222). -/
def execAmoCas (t : ITy) (sc : Scope) (aq rl : Bool) (rd a : Reg) (s : State) : Out :=
  s.onAny (s.atomic .store (s.x a) (ityBytes t) (wideScope s sc) aq rl fun s at' =>
    let m := 2 ^ (8 * ityBytes t)
    let d := if rd = 0 then 0 else s.x (rd + 1)
    let s' := if at'.old = (s.x rd).toNat % m then s.atomPut at' (ityBytes t) d.toNat else s
    s'.atomRd rd (extTy t at'.old))

/-- `amo.ld` (R223). -/
def execAmoLd (t : ITy) (sc : Scope) (aq : Bool) (rd a : Reg) (s : State) : Out :=
  s.onAny (s.atomic .load (s.x a) (ityBytes t) (wideScope s sc) aq false fun s at' => s.atomRd rd (extTy t at'.old))

/-- `amo.st` (R223). -/
def execAmoSt (t : ITy) (sc : Scope) (rl : Bool) (rd a : Reg) (s : State) : Out :=
  s.onAny (
    let n := ityBytes t
    if (s.x a).toNat % n ≠ 0 then s.raise 6 (s.x a)
    else ((if rl then s.release (wideScope s sc) else s).atomAt .store (s.x a) n false).run fun s at' =>
      (s.atomPut at' n (s.x rd).toNat).next)

/-- Chunk of `amo.draw` (R224): the count and whether it is written. -/
def drawCount (nx en : Nat) (par : Word) : Nat :=
  let q := max 1 (wbits par 31 16)
  let c := max 1 (wbits par 15 0)
  let r := en - nx
  min (max c ((r + q - 1) / q)) r

/-- `amo.draw`. -/
def execAmoDraw (sc : Scope) (aq rl : Bool) (rd a : Reg) (s : State) : Out :=
  s.onAny (s.atomic .store (s.x a) 16 (wideScope s sc) aq rl fun s at' =>
    let nx := at'.old % 2 ^ 64
    let k := drawCount nx (at'.old / 2 ^ 64) (s.x (rd + 1))
    let s' := if k = 0 then s else s.atomPut at' 8 (nx + k)
    (s'.atomRd rd (w64 nx)).atomRd2 (rd + 1) (w64 k))

/-- `amo.tick` (R225); an L-core has no stage memory (R220), and there too the misalignment check comes first (DEDUCED, log 95). -/
def execAmoTick (aq rl : Bool) (rd a : Reg) (s : State) : Out :=
  s.onAny (
    let ad := s.x a
    match s.curStrand with
    | none => s.raise (if ad.toNat % 8 ≠ 0 then 6 else 7) ad
    | some _ =>
      s.onCrew fun t c =>
        s.stageCheck c ad 8 6 7
          (if s.stageHeld t ad.toNat 8 then s.stall
           else
            let v := c.stageGet ad.toNat 8
            let s := if rl then s.release else s
            let s := s.stageWrite c.id ad.toNat (v + 1) 8
            let s := (s.setX rd (w64 v)).markFrom rd.toNat []
            (if aq then s.acquire else s).next))

/-! ### Buffered reductions (R226 to R229) -/

namespace State

/-- An entry of a W-core's reduction buffer with this line. -/
def redLine (s : State) (core line : Nat) : List RedEntry := s.rbuf.filter fun e => e.core = core && e.line = line

/-- Combines a contribution of strand `t` into the buffer; the W-core drops its non-coherent copy of the line, since a later
`ld.nc` of the strand may not miss its own reduction (R205, R208). -/
def redAdd (s : State) (t : Strand) (pa : Nat) (op : AOp) (ty : ITy) (point x : Nat) : State :=
  let l := lineOf pa
  let off := pa % 64
  let same (e : RedEntry) : Bool := e.op = op && e.ty = ty && e.point = point
  let s := { s with ncs := s.ncs.filter fun e => !(e.core = t.core && e.line = l) }
  let s := ((s.redLine t.core l).filter fun e => !same e).foldl (fun s e => s.mergeEntry e false) s
  match (s.redLine t.core l).find? same with
  | some e =>
    let e' : RedEntry :=
      { e with
        vals := match e.vals.find? fun v => v.1 = off with
          | some v => e.vals.map fun w => if w.1 = off then (off, amoFn op ty v.2 x) else w
          | none => e.vals ++ [(off, x % 2 ^ (8 * ityBytes ty))]
        filter := e.filter ||| Strand.filterBit t
        who := if e.who.contains t.image then e.who else e.who ++ [t.image] }
    { s with rbuf := s.rbuf.map fun y => if y.core = t.core && y.line = l && same y then e' else y }
  | none =>
    let set := s.rbuf.filter fun e => e.core = t.core && e.line % 64 = l % 64
    let s := if set.length < 8 then s else match minBy (·.born) set with | some e => s.mergeEntry e true | none => s
    { s with rbuf := s.rbuf ++ [{ core := t.core, line := l, op, ty, point, vals := [(off, x % 2 ^ (8 * ityBytes ty))],
                                  filter := Strand.filterBit t, who := [t.image], owner := s.tagOf s.cur,
                                  born := s.cc t.core }] }

end State

/-- `red.`. -/
def execRed (op : AOp) (t : ITy) (sc : Scope) (a b : Reg) (s : State) : Out :=
  s.onAny (
    let n := ityBytes t
    let ad := s.x a
    let x := (s.x b).toNat
    let direct (s : State) : Out :=
      (s.atomAt .store ad n true false false).run fun s at' => (s.atomPut at' n (amoFn op t at'.old x)).next
    if ad.toNat % n ≠ 0 then s.raise 6 ad
    else
      match s.curStrand with
      | none => direct s
      | some u =>
        (s.atomLoc .store ad n).run fun s' p =>
          match region p.pa with
          | .peer _ => direct s
          | _ =>
            if p.attr = 1 || p.pbmt = 1 then direct s
            else if s'.blocked s.cur p.pa n true then (s'.request s.cur p.pa n).stall
            else
              let s' := (s'.classify u.core p.pa p.attr).served s.cur p.pa n
              let point := if (sget s'.pct (pageOf p.pa)).toNat = u.core + 1 then 0
                else match sc with | .cw | .pd | .di => 1 | .pk | .sy => 2
              (s'.redAdd u p.pa op t point x).next)

/-- ATOMIC_PERFORM: an entry leaves the buffer and is performed at its point; merging earlier than a rule requires is
allowed (R228). -/
def execAtomicPerform (core line : Nat) (s : State) : Out :=
  .next ((s.redLine core line).foldl (fun s e => s.mergeEntry e false) s)

/-- RB_AGE_MERGE: entries of the line that are 65,536 cc old merge (R228). -/
def execRbAgeMerge (core line : Nat) (s : State) : Out :=
  .next (((s.redLine core line).filter fun e => e.born + 65536 ≤ s.cc core).foldl (fun s e => s.mergeEntry e true) s)

/-! ### LR and SC (R216, R217) -/

namespace State

/-- An LR of strand `t` to line `g`: the state with its hold, or without it while the LR has to wait: behind a hold of
another strand, behind the strands, the accesses and the hardware that wait for one that ended, or for room in the table (R217). -/
def takeHold (s : State) (t : Strand) (g : Nat) : State × Bool :=
  let drop (h : Hold) : Hold :=
    if h.image = t.image then { h with image := 0, left := 0 }
    else if h.granule ≠ g then { h with waiters := h.waiters.filter (· ≠ t.image) } else h
  let s := { s with holds := (s.holds.map drop).filter s.holdKept }
  let live (k : Nat) : Bool :=
    match s.strand? k with
    | some u => u.status = .resident && u.core = t.core && !u.stopped && u.wait = .none
    | none => false
  let full : Bool := 16 ≤ (s.holds.filter fun h => h.core = t.core && s.holdActive h).length
  let here (h : Hold) : Bool := h.core = t.core && h.granule = g
  let hold (w : List Nat) : Hold :=
    { core := t.core, granule := g, image := t.image, left := 17, expiry := s.cc t.core + 2048, waiters := w }
  let rest := s.holds.filter fun h => !here h
  let queue (b : Bool) (s : State) : State :=
    s.modCore t.core fun c =>
      { c with lrq := if b then (if c.lrq.contains t.image then c.lrq else c.lrq ++ [t.image]) else c.lrq.filter (· ≠ t.image) }
  match s.holds.find? here with
  | none => if full then (queue true s, false) else (queue false { s with holds := s.holds ++ [hold []] }, true)
  | some h =>
    let ws := h.waiters.filter live
    let rs := h.reqs.filter fun r => s.reqLive r && r.1 ≠ .strand t.image
    if s.holdActive h || (ws.headD t.image ≠ t.image) || full || !rs.isEmpty || s.hwWants g then
      (queue false
        { s with holds := rest ++ [{ h with waiters := if ws.contains t.image then ws else ws ++ [t.image], reqs := rs }] }, false)
    else (queue false { s with holds := rest ++ [hold (ws.filter (· ≠ t.image))] }, true)

/-- Sets or drops the reservation of the agent in issue. -/
def setResv (s : State) (r : Option Nat) : State :=
  match s.cur with
  | .strand k => s.modStrand k fun t => { t with resv := r }
  | .lcore i => s.modLcore i fun c => { c with resv := r }

/-- The reservation of the agent in issue. -/
def resv (s : State) : Option Nat :=
  match s.cur with
  | .strand k => match s.strand? k with | some t => t.resv | none => none
  | .lcore i => (s.lcoreAt i).resv

end State

/-- LR. -/
def execLr (dbl aq _rl : Bool) (rd a : Reg) (s : State) : Out :=
  s.onAny (
    let n := if dbl then 8 else 4
    let ad := s.x a
    if ad.toNat % n ≠ 0 then s.raise 4 ad
    else
      (s.atomAt .load ad n true true).run fun s' at' =>
        let g := lineOf at'.part.pa
        let v : Word := if dbl then w64 at'.old else sext 32 at'.old
        let fin (s : State) : Out :=
          let s := (s.setResv (some g)).atomRd rd v
          (if aq then s.acquire else s).next
        match s'.curStrand with
        | none => fin s'
        | some t => match s'.takeHold t g with | (s, true) => fin s | (s, false) => s.stall)

/-- SC. The reductions to its line merge before the reservation is tested (R228). On a poisoned line a store-conditional that
succeeds writes as a partial write does, with no trap (R437): it returns no memory value, so R232 is read as not naming it
(DEDUCED, log 71). -/
def execSc (dbl _aq rl : Bool) (rd a b : Reg) (s : State) : Out :=
  s.onAny (
    let n := if dbl then 8 else 4
    let ad := s.x a
    if ad.toNat % n ≠ 0 then s.raise 6 ad
    else
      let s := if rl then s.release else s
      (s.atomLoc .store ad n).run fun s p =>
        let ended (s : State) : State := (s.endHold s.me).setResv none
        let failed (s : State) : Out :=
          let s := ended s
          let s := match s.curStrand with
            | some t => s.modCore t.core fun c => { c with scfail := c.scfail + 1 }
            | none => s
          (s.setX rd 1).next
        if s.resv = some (lineOf p.pa) then
          (s.atomOpen .store ad p false).run fun s at' =>
            if s.resv = some (lineOf p.pa) then ((ended (s.atomPut at' n (s.x b).toNat)).setX rd 0).next else failed s
        else failed (s.loseResv (linesOf p.pa n) s.cur))

/-- LR_HOLD_END: a hold ends by its limits (R217). -/
def execLrHoldEnd (core granule : Nat) (s : State) : Out :=
  .next { s with holds := s.holds.filter fun h => !(h.core = core && h.granule = granule) || s.holdKept h }

/-! ### Standard AMOs and Zacas (R214) -/

/-- Operator and comparison type of a standard AMO. -/
def stdAmoOp (op : StdAmo) (dbl : Bool) : AOp × ITy :=
  let u : Bool := match op with | .minu => true | .maxu => true | _ => false
  (match op with
    | .swap => .swap | .add => .add | .xor => .xor | .and => .and | .or => .or
    | .min => .min | .max => .max | .minu => .min | .maxu => .max,
   match dbl, u with
    | false, false => .i32 | false, true => .n32 | true, false => .i64 | true, true => .n64)

/-- STANDARD_AMO. -/
def execStandardAmo (op : StdAmo) (dbl aq rl : Bool) (rd a b : Reg) (s : State) : Out :=
  s.onAny (
    let o := stdAmoOp op dbl
    let n := ityBytes o.2
    s.atomic .store (s.x a) n true aq rl fun s at' =>
      (s.atomPut at' n (amoFn o.1 o.2 at'.old (s.x b).toNat)).atomRd rd (sext (8 * n) at'.old))

/-- A register pair, zero for x0. -/
def State.pair (s : State) (r : Reg) : Nat := if r = 0 then 0 else (s.x r).toNat + 2 ^ 64 * (s.x (r + 1)).toNat

/-- AMOCAS. -/
def execAmocas (cw : CasW) (aq rl : Bool) (rd a b : Reg) (s : State) : Out :=
  s.onAny (
    match cw with
    | .q => s.atomic .store (s.x a) 16 true aq rl fun s at' =>
        let s' := if at'.old = s.pair rd then s.atomPut at' 16 (s.pair b) else s
        if rd = 0 then s' else (s'.atomRd rd (w64 at'.old)).atomRd2 (rd + 1) (w64 (at'.old / 2 ^ 64))
    | _ =>
      let n := match cw with | .w => 4 | _ => 8
      s.atomic .store (s.x a) n true aq rl fun s at' =>
        let s' := if at'.old = (s.x rd).toNat % 2 ^ (8 * n) then s.atomPut at' n (s.x b).toNat else s
        s'.atomRd rd (sext (8 * n) at'.old))

end Sys2Proof.Machine
end

