-- ==== Sys2Proof/Machine/Formats.lean ====
section
/-! DEFINITION. Element formats: Expand and Narrow (R149 to R153); the special functions (R167). -/

namespace Sys2Proof.Machine

/-- Bits of an element code (R163). -/
def eltBits : Elt → Nat
  | .e4m3 => 8 | .e5m2 => 8 | .e3m2 => 6 | .e2m3 => 6 | .e2m1 => 4 | .i8 => 8 | .i4 => 4

/-- Exponent and fraction widths and bias of a floating-point element format (Table 6.2). -/
def eltFmt : Elt → Option (Nat × Nat × Nat)
  | .e4m3 => some (4, 3, 7) | .e5m2 => some (5, 2, 15) | .e3m2 => some (3, 2, 3) | .e2m3 => some (2, 3, 1)
  | .e2m1 => some (2, 1, 1) | .i8 => none | .i4 => none

/-- Value of an element code. -/
def eltVal (k : Elt) (c : Nat) : FVal :=
  match eltFmt k with
  | none => fofInt (let n := eltBits k; let x := c % 2 ^ n; if 2 ^ (n - 1) ≤ x then (x : Int) - (2 ^ n : Nat) else x)
  | some (ew, fw, bias) =>
    let fr := c % 2 ^ fw
    let ex := c / 2 ^ fw % 2 ^ ew
    let neg : Bool := c / 2 ^ (ew + fw) % 2 = 1
    if k = .e5m2 && ex = 31 then (if fr = 0 then .inf neg else .nan false)
    else if k = .e4m3 && ex = 15 && fr = 7 then .nan false
    else if ex = 0 then .fin neg fr (1 - (bias : Int) - fw)
    else .fin neg (fr + 2 ^ fw) ((ex : Int) - bias - fw)

/-- Expand(fmt, c, g) under rounding mode `rm`: a BF16 code and flags (R152). -/
def expand (k : Elt) (rm c g : Nat) : Nat × Nat :=
  match eltVal k c with
  | .nan _ => (0x7FC0, 0)
  | .inf n => if g = 0xFF then (0x7FC0, 0) else (bf16.infBits n, 0)
  | .fin n m e =>
    if g = 0xFF then (0x7FC0, 0)
    else if m = 0 then (bf16.infBits n - bf16.infBits false, 0)
    else
      let e' := e + (g : Int) - 127
      if 127 < e' + (Nat.log2 m : Int) then (bf16.maxBits n, 5) else roundFin bf16 rm n m e'

/-- Greatest magnitude of a floating-point element format as m · 2^e. -/
def eltMax : Elt → Nat × Int
  | .e4m3 => (7, 6) | .e5m2 => (7, 13) | .e3m2 => (7, 2) | .e2m3 => (15, -1) | .e2m1 => (3, 1) | .i8 => (127, 0) | .i4 => (7, 0)

/-- Code of q · 2^qe in a floating-point element format, in its range. -/
def eltCodeOf (ew fw bias : Nat) (neg : Bool) (q : Nat) (qe : Int) : Nat :=
  b2n neg * 2 ^ (ew + fw) +
    (if q < 2 ^ fw then q else (qe + fw + bias).toNat * 2 ^ fw + (q - 2 ^ fw))

/-- Greatest finite code of a floating-point element format. -/
def eltMaxCode : Elt → Nat
  | .e4m3 => 0x7E | .e5m2 => 0x7B | .e3m2 => 0x1F | .e2m3 => 0x1F | .e2m1 => 0x7 | .i8 => 0x7F | .i4 => 0x7

/-- Code of the saturated value of a sign. -/
def eltSat (k : Elt) (neg : Bool) : Nat :=
  match eltFmt k with
  | none => if neg then 2 ^ (eltBits k - 1) else eltMaxCode k
  | some (ew, fw, _) => b2n neg * 2 ^ (ew + fw) + eltMaxCode k

/-- Narrow(fmt, b, g) under rounding mode `rm`: an element code and flags (R153). -/
def narrow (k : Elt) (rm b g : Nat) : Nat × Nat :=
  let v := FVal.ofBits bf16 b
  if v.isNan || g = 0xFF then
    if k = .e4m3 || k = .e5m2 then (0x7F, v.sigFlag) else (0, 16)
  else
    match v with
    | .nan _ => (0, 16)
    | .inf n => if k = .e5m2 then (if n then 0xFC else 0x7C, 0) else (eltSat k n, 16)
    | .fin n m e =>
      let e' := e - ((g : Int) - 127)
      match eltFmt k with
      | none =>
        let hi : Int := 2 ^ (eltBits k - 1) - 1
        let big : Bool := 20 < e' + (Nat.log2 m : Int)
        let (i, inx) := if big then (if n then (-1000 : Int) else 1000, false) else fint rm n m e'
        if m = 0 then (0, 0)
        else if hi < i then (eltSat k false, 5)
        else if i < -hi - 1 then (eltSat k true, 5)
        else ((i % (2 ^ eltBits k : Nat)).toNat, b2n inx)
      | some (ew, fw, bias) =>
        -- the format's own bias: emin = 1 - bias
        let f : FFmt := ⟨ew, fw⟩
        let d : Int := (bias : Int) - f.bias
        let (q, qe', inx, tiny) := roundUnb f rm n m (e' + d)
        let qe := qe' - d
        let (mm, me) := eltMax k
        let lo := min qe me
        if mm * 2 ^ (me - lo).toNat < q * 2 ^ (qe - lo).toNat then (eltSat k n, 5)
        else (eltCodeOf ew fw bias n q qe, b2n inx + (if tiny && inx then 2 else 0))

/-! ### Special functions (Table 6.8). Reals are fixed-point numbers with `sfb` fraction bits. -/

/-- Fraction bits of the fixed-point reals. -/
def sfb : Nat := 384
/-- ln 2. -/
def ln2Fix : Nat := 27311389503436327984859642001965014295881604093268141717219425985154158335678826923825841039545353940567474963094288
/-- π. -/
def piFix : Nat := 123785053203292407819553701039137184435442376711719744927844101526111311422332618694237111830548352286187237239491692
/-- 1. -/
def oneFix : Nat := 2 ^ 384

/-- Σ over k from `k` of the terms t, t·r/k, …: the exponential series. -/
def expSeries (r t k : Nat) : Nat → Nat
  | 0 => 0
  | n + 1 => t + expSeries r (t * r / oneFix / k) (k + 1) n

/-- e^r for 0 ≤ r < 1. -/
def expFix (r : Nat) : Nat := expSeries r oneFix 1 90

/-- e^(-y) for y ≥ 0. -/
def expNegFix (y : Nat) : Nat :=
  let n := y / ln2Fix
  if 2 * sfb < n then 0 else oneFix * oneFix / expFix (y % ln2Fix) / 2 ^ n

/-- Σ of z^(2k+1) / (2k+1) from k: the atanh series. -/
def atanhSeries (z2 t k : Nat) : Nat → Nat
  | 0 => 0
  | n + 1 => t / k + atanhSeries z2 (t * z2 / oneFix) (k + 2) n

/-- log2 of m in [1, 2) given as m · 2^sfb. -/
def log2Fix (m : Nat) : Nat :=
  let z := (m - oneFix) * oneFix / (m + oneFix)
  2 * atanhSeries (z * z / oneFix) z 1 130 * oneFix / ln2Fix

/-- Σ of the sine series, terms with alternating signs taken in pairs. -/
def sinSeries (a2 t k : Nat) : Nat → Nat
  | 0 => 0
  | n + 1 =>
    let t2 := t * a2 / oneFix / (k + 1) / (k + 2)
    (t - t2) + sinSeries a2 (t2 * a2 / oneFix / (k + 3) / (k + 4)) (k + 4) n

/-- sin(π · r) for 0 ≤ r ≤ 1/2. -/
def sinpiFix (r : Nat) : Nat :=
  let a := r * piFix / oneFix
  sinSeries (a * a / oneFix) a 1 40

/-- The FP32 code within `bound` ulp of the positive real v · 2^-sfb that the device's choice `pick` selects: the value
below, the value above, and for bound 2 one further on each side; never beyond the greatest finite value. For the functions
that need not be monotonic. -/
def pickUlp (neg : Bool) (v bound pick : Nat) : Nat :=
  let e : Int := (Nat.log2 v : Int) - sfb
  let qe := max (e - 23) (-149)
  let fl := v / 2 ^ (qe + sfb).toNat
  let q := if bound = 1 then fl + pick % 2 else fl + pick % 4 - 1
  (roundFin f32 1 neg q qe).1

/-- The positive real of a finite FP32 code, as a fixed-point number. -/
def codeFix (c : Nat) : Nat := if c < 2 ^ 23 then c * 2 ^ (sfb - 149) else (2 ^ 23 + c % 2 ^ 23) * 2 ^ (c / 2 ^ 23 + sfb - 150)

/-- Spacing of the FP32 codes from code c upwards. -/
def codeUlp (c : Nat) : Nat := 2 ^ (max (c / 2 ^ 23) 1 + sfb - 150)

/-- The least real at which a non-decreasing function of the device may give code c or more: a free value of the range in
which neither c nor the code below it is off by more than `bound` ulp. -/
def codeFrom (fn : Nat) (neg : Bool) (bound c : Nat) : Nat :=
  let u := codeUlp c
  let lo :=
    if c < 2 ^ 24 then codeFix c - bound * u
    else if c % 2 ^ 23 = 0 then codeFix c - bound * (u / 2)
    else max (codeFix (c / 2 ^ 23 * 2 ^ 23)) (codeFix c - bound * u)
  let v := codeUlp (c - 1)
  let top := codeFix ((max ((c - 1) / 2 ^ 23) 1 + 1) * 2 ^ 23)
  let hi := if codeFix (c - 1) + bound * v < top then codeFix (c - 1) + bound * v else codeFix (c - 1) + 2 * bound * v
  lo + Config.specialPick fn (BitVec.ofNat 32 (c + if neg && fn ≠ 6 then 2 ^ 31 else 0)) % (2 ^ 32 + 1) * (hi - lo) / 2 ^ 32

/-- The code is the result of an exact case of the function (Table 6.8). -/
def exactCode (fn c : Nat) : Bool :=
  match fn with
  | 1 => codeFix c % oneFix = 0
  | 6 => c = 0x3F800000
  | 7 => c = 0x3F000000 || c = 0x3F800000
  | _ => if c < 2 ^ 23 then c = 2 ^ Nat.log2 c else c % 2 ^ 23 = 0

/-- A result `y` for the real v on the right side of the exact results among the codes around `c`: not below one that v reaches, not
above one that it does not (R167). -/
def betweenExact (fn v c y : Nat) : Nat :=
  ((upto (c - 8) 17).filter (exactCode fn)).foldl (fun y x => if codeFix x ≤ v then max y x else min y x) y

/-- The last of `n` codes from c on that the real v reaches. -/
def codeReach (fn : Nat) (neg : Bool) (bound v c : Nat) : Nat → Nat
  | 0 => c
  | n + 1 => if codeFrom fn neg bound (c + 1) ≤ v then codeReach fn neg bound v (c + 1) n else c

/-- The FP32 code within `bound` ulp of the positive real v · 2^-sfb that a function of the device gives which is
non-decreasing in v, its exact cases among them, and for `fx.tanh` one of the magnitude (R167); never beyond the greatest finite
value. -/
def monoUlp (fn : Nat) (neg : Bool) (v bound : Nat) : Nat :=
  let qe := max ((Nat.log2 v : Int) - sfb - 23) (-149)
  let c := (roundFin f32 1 false (v / 2 ^ (qe + sfb).toNat) qe).1
  min (betweenExact fn v c (codeReach fn neg bound v (c - 6) 12)) 0x7F7FFFFF + if neg then 2 ^ 31 else 0

/-- Result and flags of an inexact special-function value: NX, and UF where tiny or zero. -/
def inexactF (y : Nat) : Nat × Nat := (y, if y % 2 ^ 31 < 2 ^ 23 then 3 else 1)

/-- A positive finite FP32 value as a fixed-point real. -/
def fixOf (m : Nat) (e : Int) : Nat := m * 2 ^ (e + sfb).toNat

/-- 2^k as an FP32 code, for k from -149 to 127. -/
def pow2F32 (neg : Bool) (k : Int) : Nat := (roundFin f32 0 neg 1 k).1

/-- The value is a power of two; its exponent. -/
def isPow2 (m : Nat) (e : Int) : Option Int := if m = 2 ^ Nat.log2 m then some (e + (Nat.log2 m : Int)) else none

/-- The value is an integer; its magnitude modulo 2^33 and whether it is at least that. -/
def isInt (m : Nat) (e : Int) : Bool := 0 ≤ e || m % 2 ^ (min (-e).toNat 200) = 0

/-- One special function of a finite non-zero operand (-1)^n · m · 2^e with device choice `pick`. -/
def specialFin (fn : Nat) (n : Bool) (m : Nat) (e : Int) (pick : Nat) : Nat × Nat :=
  let ee := e + (Nat.log2 m : Int)
  match fn with
  | 0 =>
    if 7 ≤ ee && !n then (f32.infBits false, 5)
    else if 8 ≤ ee then (0, 3)
    else
      let y := fixOf m e
      let k := y / oneFix
      let r := y % oneFix
      if r = 0 then
        if n then (if k ≤ 149 then (pow2F32 false (-(k : Int)), 0) else if 151 ≤ k then (0, 3)
          else inexactF (monoUlp fn false (oneFix / 2 ^ 150) 1))
        else (pow2F32 false k, 0)
      else if n && 151 ≤ k then (0, 3)
      else
        let p := expFix (r * ln2Fix / oneFix)
        let v := if n then oneFix * oneFix / p / 2 ^ k else p * 2 ^ k
        inexactF (monoUlp fn false v 1)
  | 1 =>
    if n then (f32.qnan, 16)
    else
      match isPow2 m e with
      | some k => (fround f32 0 (fofInt k))
      | none =>
        let fr := log2Fix (m * 2 ^ (sfb - Nat.log2 m))
        if 0 ≤ ee then inexactF (monoUlp fn false (ee.toNat * oneFix + fr) 1)
        else inexactF (monoUlp fn true ((-ee).toNat * oneFix - fr) 1)
  | 2 =>
    match isPow2 m e with
    | some k => if -127 ≤ k && k ≤ 127 then (pow2F32 n (-k), 0) else (f32.infBits n, 5)
    | none =>
      if ee < -128 then (f32.infBits n, 5) else inexactF (monoUlp fn n (oneFix * 2 ^ 200 / m * 2 ^ (sfb - 200) / 2 ^ (e + sfb).toNat) 1)
  | 3 =>
    if n then (f32.qnan, 16)
    else
      match isPow2 m e with
      | some k =>
        if k % 2 = 0 then (pow2F32 false (-(k / 2)), 0)
        else inexactF (monoUlp fn false (isqrt (oneFix * 2 ^ (sfb - k).toNat) 0 480) 1)
      | none =>
        inexactF (monoUlp fn false (isqrt (oneFix * 2 ^ 384 / m * 2 ^ (if 0 ≤ e then 0 else (-e).toNat) / 2 ^ e.toNat) 0 480) 1)
  | 4 =>
    if isInt m e then (b2n n * 2 ^ 31, 0)
    else
      let y := fixOf m e % (2 * oneFix)
      let r := y % oneFix
      let neg : Bool := n != (oneFix ≤ y)
      if 2 * r = oneFix then ((if neg then 0xBF800000 else 0x3F800000), 0)
      else inexactF (pickUlp neg (sinpiFix (if oneFix < 2 * r then oneFix - r else r)) 2 pick)
  | 5 =>
    if isInt m e then
      let odd : Bool := e ≤ 0 && m / 2 ^ (min (-e).toNat 200) % 2 = 1
      ((if odd then 0xBF800000 else 0x3F800000), 0)
    else
      let y := fixOf m e % (2 * oneFix)
      let r := y % oneFix
      if 2 * r = oneFix then (0, 0)
      else
        let up : Bool := oneFix ≤ y
        let late : Bool := oneFix < 2 * r
        let d := if late then 2 * r - oneFix else oneFix - 2 * r
        inexactF (pickUlp (up != late) (sinpiFix (d / 2)) 2 pick)
  | 6 =>
    if 8 ≤ ee then inexactF (monoUlp fn n (oneFix - 1) 2)
    else
      let q := expNegFix (2 * fixOf m e)
      let v := min (oneFix - 1) ((oneFix - q) * oneFix / (oneFix + q))
      inexactF (monoUlp fn n v 2)
  | _ =>
    if 9 ≤ ee then inexactF (monoUlp fn false (if n then 0 else oneFix - 1) 2)
    else
      let q := expNegFix (fixOf m e)
      inexactF (monoUlp fn false (if n then q * oneFix / (oneFix + q) else min (oneFix - 1) (oneFix * oneFix / (oneFix + q))) 2)

/-- Special function `fn` of an FP32 code: result code and flags (R167). The device's choice within the bound is one
for each operand of `fx.sinpi` and `fx.cospi`, taken from |x|, so that they are odd and even; for the others it is a
non-decreasing function of the real result, and for `fx.tanh` of its magnitude (log 11). -/
def specialF (fn x : Nat) : Nat × Nat :=
    let pick := Config.specialPick fn (BitVec.ofNat 32 (x % 2 ^ 31))
  match FVal.ofBits f32 x with
  | .nan sig => (f32.qnan, if sig then 16 else 0)
  | .inf n =>
    match fn with
    | 0 => (if n then 0 else f32.infBits false, 0)
    | 1 => if n then (f32.qnan, 16) else (f32.infBits false, 0)
    | 2 => (b2n n * 2 ^ 31, 0)
    | 3 => if n then (f32.qnan, 16) else (0, 0)
    | 4 => (f32.qnan, 16)
    | 5 => (f32.qnan, 16)
    | 6 => (if n then 0xBF800000 else 0x3F800000, 0)
    | _ => (if n then 0 else 0x3F800000, 0)
  | .fin n m e =>
    if m = 0 then
      match fn with
      | 0 => (0x3F800000, 0)
      | 1 => (f32.infBits true, 8)
      | 2 => (f32.infBits n, 8)
      | 3 => (f32.infBits n, 8)
      | 4 => (b2n n * 2 ^ 31, 0)
      | 5 => (0x3F800000, 0)
      | 6 => (b2n n * 2 ^ 31, 0)
      | _ => (0x3F000000, 0)
    else specialFin fn n m e pick

end Sys2Proof.Machine
end

