-- ==== Sys2Proof/Machine/Scalar.lean ====
section
/-! DEFINITION. Literal forms (R39), integer, floating-point and conversion forms of Esrun (06_arithmetic.md). -/

namespace Sys2Proof.Machine

/-! ### Literal forms (Table 2.8) -/

/-- SignExt(lit, 64). -/
def litS (lit : BitVec 32) : Word := lit.signExtend 64

/-- `fx.li`. -/
def execFxLi (rd : Reg) (lit : BitVec 32) (s : State) : Out := s.onAny (s.status rd (litS lit))

/-- `fx.liu`. -/
def execFxLiu (rd : Reg) (lit : BitVec 32) (s : State) : Out := s.onAny (s.status rd (lit.zeroExtend 64))

/-- `fx.lih`. -/
def execFxLih (rd : Reg) (lit : BitVec 32) (s : State) : Out := s.onAny (s.status rd (lit ++ (s.x rd).truncate 32))

/-- `fx.addl`. -/
def execFxAddl (rd : Reg) (lit : BitVec 32) (s : State) : Out := s.onAny (s.status rd (s.x rd + litS lit))

/-- `fx.andl`. -/
def execFxAndl (rd : Reg) (lit : BitVec 32) (s : State) : Out := s.onAny (s.status rd (s.x rd &&& litS lit))

/-- `fx.orl`. -/
def execFxOrl (rd : Reg) (lit : BitVec 32) (s : State) : Out := s.onAny (s.status rd (s.x rd ||| litS lit))

/-- `fx.xorl`. -/
def execFxXorl (rd : Reg) (lit : BitVec 32) (s : State) : Out := s.onAny (s.status rd (s.x rd ^^^ litS lit))

/-- `fx.auipcl`. -/
def execFxAuipcl (rd : Reg) (lit : BitVec 32) (s : State) : Out := s.onAny (s.status rd (s.pc + litS lit))

namespace State

/-- Floating-point state is accessible: always on a W-core; on an L-core `mstatus`.FS, and with V = 1 `vsstatus`.FS, is
not Off (RISC-V privileged architecture, log 17). -/
def fpOn (s : State) : Bool :=
  match s.cur with
  | .strand _ => true
  | .lcore i =>
    let c := s.lcoreAt i
    wbits (c.get 0x300) 14 13 ≠ 0 && ((c.mode ≠ .vs && c.mode ≠ .vu) || wbits (c.get 0x200) 14 13 ≠ 0)

/-- Marks the floating-point state of an L-core dirty. -/
def fpDirty (s : State) : State :=
  match s.cur with
  | .strand _ => s
  | .lcore i => s.modLcore i fun c =>
    let c := { c with csr := sset c.csr 0x300 (winsert (c.get 0x300) 14 13 3 ||| (1 <<< 63)) }
    if c.mode = .vs || c.mode = .vu then { c with csr := sset c.csr 0x200 (winsert (c.get 0x200) 14 13 3 ||| (1 <<< 63)) }
    else c

/-- An instruction that uses floating-point state. -/
def withFp (s : State) (g : State → Out) : Out := if s.fpOn then g s.fpDirty else s.illegal

/-- The rounding mode in `frm`, if legal (R146). -/
def frm? (s : State) : Option Nat := let r := wbits s.fcsr 7 5; if r < 5 then some r else none

/-- A form of this chapter that uses `frm` (R154). -/
def withFrm (s : State) (g : Nat → Out) : Out :=
  s.onStrand fun _ => match s.frm? with | some r => g r | none => s.illegal

/-- Result and flags in a floating-point register. -/
def fdone (s : State) (rd : Reg) (v : Word) (fl : Nat) : Out := ((s.setF rd v).accrue fl).next

/-- Result and flags in an integer register. -/
def xdone (s : State) (rd : Reg) (v : Word) (fl : Nat) : Out := ((s.setX rd v).accrue fl).next

/-- The result of an integer form: `fxsat` is set where it was clamped (R155, R156). -/
def satDone (s : State) (rd : Reg) (v : Word) (clamped : Bool) : Out :=
  let s := if clamped then s.setCtx s.cur cFxsat (sget (s.ctxOf s.cur) cFxsat ||| 1) else s
  (s.setX rd v).next

end State

/-- `fx.lis`: no literal form raises an exception beside those of its fetch and decoding, on an L-core whose floating-point
state is Off neither (R39). -/
def execFxLis (rd : Reg) (lit : BitVec 32) (s : State) : Out := s.onAny ((if s.fpOn then s.fpDirty else s).setF rd (box f32 lit.toNat)).next

/-- `fx.lid`. -/
def execFxLid (rd : Reg) (lit : BitVec 32) (s : State) : Out :=
  s.onAny ((if s.fpOn then s.fpDirty else s).setF rd (box f64 (fround f64 0 (FVal.ofBits f32 lit.toNat)).1)).next

/-! ### Integer forms (R156 to R158) -/

/-- Operands, bounds and result of the saturating forms: value and whether clamped (R156). -/
def satArith (t : STy) (sub : Bool) (a b : Word) : Word × Bool :=
  let n : Nat := match t with | .i64 => 8 | .n64 => 8 | .i32 => 4 | .n32 => 4
  let sg : Bool := match t with | .i64 => true | .n64 => false | .i32 => true | .n32 => false
  let val (v : Word) : Int := if sg then toSigned n v.toNat else (v.toNat % 2 ^ (8 * n) : Nat)
  let lo : Int := if sg then -(2 ^ (8 * n - 1) : Nat) else 0
  let hi : Int := if sg then (2 ^ (8 * n - 1) : Nat) - 1 else (2 ^ (8 * n) : Nat) - 1
  let y := if sub then val a - val b else val a + val b
  let z := min (max y lo) hi
  (sext (8 * n) (z % (2 ^ (8 * n) : Nat)).toNat, z ≠ y)

/-- `fx.adds`. -/
def execFxAdds (t : STy) (rd a b : Reg) (s : State) : Out :=
  s.onStrand fun _ => let r := satArith t false (s.x a) (s.x b); s.satDone rd r.1 r.2

/-- `fx.subs`. -/
def execFxSubs (t : STy) (rd a b : Reg) (s : State) : Out :=
  s.onStrand fun _ => let r := satArith t true (s.x a) (s.x b); s.satDone rd r.1 r.2

/-- Element k of b bits, signed or not. -/
def dotElt (sg : Bool) (b k v : Nat) : Int :=
  let x := v / 2 ^ (b * k) % 2 ^ b
  if sg && 2 ^ (b - 1) ≤ x then (x : Int) - (2 ^ b : Nat) else x

/-- The exact accumulator of a dot form (R157). -/
def dotAcc (v : DotForm) (acc : Int) (x y : Nat) : Int :=
  let b : Nat := match v with | .i8 => 8 | .n8 => 8 | .su => 8 | .i4 => 4
  let sa : Bool := match v with | .i8 => true | .n8 => false | .su => true | .i4 => true
  let sb : Bool := match v with | .i8 => true | .n8 => false | .su => false | .i4 => true
  (upto 0 (32 / b)).foldl (fun acc k => acc + dotElt sa b k x * dotElt sb b k y) acc

/-- `fx.dot` and `fx.dotsu`. -/
def execFxDot (v : DotForm) (rd a b : Reg) (s : State) : Out :=
  s.onStrand fun _ =>
    let acc := dotAcc v (toSigned 4 (s.x rd).toNat) (s.x a).toNat (s.x b).toNat
    let z := min (max acc (-(2 ^ 31 : Nat))) ((2 ^ 31 : Nat) - 1)
    s.satDone rd (BitVec.ofInt 64 z) (z ≠ acc)

/-- Signed shift right, nearest, ties to even (R158). -/
def srari (v : Word) (sh : Nat) : Word :=
  let r := rshRound 0 (v.toInt < 0) v.toInt.natAbs sh
  if sh = 0 then v else BitVec.ofInt 64 (if v.toInt < 0 then -(r.1 : Int) else r.1)

/-- `fx.srari`. -/
def execFxSrari (rd a : Reg) (sh : BitVec 6) (s : State) : Out :=
  s.onStrand fun _ => s.satDone rd (srari (s.x a) sh.toNat) false

/-- Clamping to [lo, hi] (R158). -/
def clampTo (lo hi : Int) (v : Word) : Word × Bool :=
  let z := min (max v.toInt lo) hi
  (BitVec.ofInt 64 z, z ≠ v.toInt)

/-- `fx.sati`. -/
def execFxSati (rd a : Reg) (w1 : BitVec 6) (s : State) : Out :=
  s.onStrand fun _ =>
    let r := clampTo (-(2 ^ w1.toNat : Nat)) ((2 ^ w1.toNat : Nat) - 1) (s.x a)
    s.satDone rd r.1 r.2

/-- `fx.satni`. -/
def execFxSatni (rd a : Reg) (w1 : BitVec 6) (s : State) : Out :=
  s.onStrand fun _ =>
    let r := clampTo 0 ((2 ^ (w1.toNat + 1) : Nat) - 1) (s.x a)
    s.satDone rd r.1 r.2

/-! ### Conversions and pairs (R159 to R162) -/

/-- The pair in a register: low and high element (R147, R159). -/
def pairOf (w : Word) : Nat × Nat :=
  if w.toNat / 2 ^ 32 = 2 ^ 32 - 1 then (w.toNat % 65536, w.toNat / 65536 % 65536) else (0x7FC0, 0x7FC0)

/-- A pair NaN-boxed. -/
def boxPair (lo hi : Nat) : Word := box f32 (hi % 65536 * 65536 + lo % 65536)

/-- Rounds a value of one format into another. -/
def cvtF (src dst : FFmt) (rm : Nat) (w : Word) : Word × Nat :=
  let r := fround dst rm (fval src w)
  (box dst r.1, r.2)

/-- `fx.cvt.bf16.f64`. -/
def execFxCvtBf16F64 (rd a : Reg) (s : State) : Out :=
  s.withFrm fun rm => let r := cvtF f64 bf16 rm (s.f a); s.fdone rd r.1 r.2

/-- `fx.cvt.f64.bf16`. -/
def execFxCvtF64Bf16 (rd a : Reg) (s : State) : Out :=
  s.onStrand fun _ => let r := cvtF bf16 f64 0 (s.f a); s.fdone rd r.1 r.2

/-- `fx.cvt.bf16.f16`. -/
def execFxCvtBf16F16 (rd a : Reg) (s : State) : Out :=
  s.withFrm fun rm => let r := cvtF f16 bf16 rm (s.f a); s.fdone rd r.1 r.2

/-- `fx.cvt.f16.bf16`. -/
def execFxCvtF16Bf16 (rd a : Reg) (s : State) : Out :=
  s.withFrm fun rm => let r := cvtF bf16 f16 rm (s.f a); s.fdone rd r.1 r.2

/-- `fx.pk.bf16`. -/
def execFxPkBf16 (rd a b : Reg) (s : State) : Out :=
  s.withFrm fun rm =>
    let lo := fround bf16 rm (fval f32 (s.f a))
    let hi := fround bf16 rm (fval f32 (s.f b))
    s.fdone rd (boxPair lo.1 hi.1) (lo.2 ||| hi.2)

/-- `fx.upk.lo.f32.bf16`. -/
def execFxUpkLo (rd a : Reg) (s : State) : Out :=
  s.onStrand fun _ =>
    let r := fround f32 0 (FVal.ofBits bf16 (pairOf (s.f a)).1)
    s.fdone rd (box f32 r.1) r.2

/-- `fx.upk.hi.f32.bf16`. -/
def execFxUpkHi (rd a : Reg) (s : State) : Out :=
  s.onStrand fun _ =>
    let r := fround f32 0 (FVal.ofBits bf16 (pairOf (s.f a)).2)
    s.fdone rd (box f32 r.1) r.2

/-- A pair form: `g` on the values of each element of rs1, rs2 and rd, then one rounding (R161). -/
def pairForm (s : State) (rd a b : Reg) (g : Nat → FVal → FVal → FVal → FVal × Nat) : Out :=
  s.withFrm fun rm =>
    let v (x : Nat) : FVal := FVal.ofBits bf16 x
    let p := pairOf (s.f a)
    let q := pairOf (s.f b)
    let d := pairOf (s.f rd)
    let lo := ffinish bf16 rm (g rm (v p.1) (v q.1) (v d.1))
    let hi := ffinish bf16 rm (g rm (v p.2) (v q.2) (v d.2))
    s.fdone rd (boxPair lo.1 hi.1) (lo.2 ||| hi.2)

/-- `fx.padd.bf16`. -/
def execFxPaddBf16 (rd a b : Reg) (s : State) : Out := pairForm s rd a b fun rm x y _ => fadd rm x y

/-- `fx.psub.bf16`. -/
def execFxPsubBf16 (rd a b : Reg) (s : State) : Out := pairForm s rd a b fun rm x y _ => fadd rm x y.negate

/-- `fx.pmul.bf16`. -/
def execFxPmulBf16 (rd a b : Reg) (s : State) : Out := pairForm s rd a b fun _ x y _ => fmul x y

/-- `fx.pfma.bf16`. -/
def execFxPfmaBf16 (rd a b : Reg) (s : State) : Out := pairForm s rd a b ffma

/-- The fused dot of R162 on values: a code of FP32 and flags. -/
def pdot (rm : Nat) (d a0 a1 c0 c1 : FVal) : Nat × Nat :=
  let ops := [d, a0, a1, c0, c1]
  if ops.any (·.isNan) then (f32.qnan, if ops.any (fun x => x.sigFlag ≠ 0) then 16 else 0)
  else
    let p := fmul a0 c0
    let q := fmul a1 c1
    let ts := [d, p.1, q.1]
    if p.2 ||| q.2 ≠ 0 then (f32.qnan, 16)
    else
      let r := (fadd rm p.1 q.1)
      let t := (fadd rm d r.1)
      if r.2 ||| t.2 ≠ 0 then (f32.qnan, 16)
      else if t.1.isZero then ((if ts.all (·.neg?) || rm = 2 then 2 ^ 31 else 0), 0)
      else fround f32 rm t.1

/-- `fx.pdot.f32.bf16`. -/
def execFxPdotF32Bf16 (rd a b : Reg) (s : State) : Out :=
  s.withFrm fun rm =>
    let v (x : Nat) : FVal := FVal.ofBits bf16 x
    let p := pairOf (s.f a)
    let q := pairOf (s.f b)
    let r := pdot rm (fval f32 (s.f rd)) (v p.1) (v p.2) (v q.1) (v q.2)
    s.fdone rd (box f32 r.1) r.2

/-! ### Element expansion and narrowing (R163, R164) -/

/-- `fx.xp.bf16`. -/
def execFxXp (f : Elt) (rd a b : Reg) (s : State) : Out :=
  s.withFrm fun rm =>
    let n := eltBits f
    let c := (s.x a).toNat
    let g := (s.x b).toNat % 256
    let e0 := expand f rm (c % 2 ^ n) g
    let e1 := expand f rm (c / 2 ^ n % 2 ^ n) g
    s.fdone rd (boxPair e0.1 e1.1) (e0.2 ||| e1.2)

/-- `fx.nr`. -/
def execFxNr (f : Elt) (rd a b : Reg) (s : State) : Out :=
  s.withFrm fun rm =>
    let g := (s.x b).toNat % 256
    let p := pairOf (s.f a)
    let y0 := narrow f rm p.1 g
    let y1 := narrow f rm p.2 g
    s.xdone rd (w64 (y1.1 * 2 ^ eltBits f + y0.1)) (y0.2 ||| y1.2)

/-! ### Exponent forms (R165, R166) -/

/-- scaleB. -/
def sclForm (s : State) (f : FFmt) (rd a : Reg) (n : Int) : Out :=
  s.withFrm fun rm =>
    let r := fround f rm (fscale (fval f (s.f a)) n)
    s.fdone rd (box f r.1) r.2

/-- `fx.scl.f32`. -/
def execFxSclF32 (rd a b : Reg) (s : State) : Out := sclForm s f32 rd a (s.x b).toInt

/-- `fx.scl.f64`. -/
def execFxSclF64 (rd a b : Reg) (s : State) : Out := sclForm s f64 rd a (s.x b).toInt

/-- `fx.scli.f32`. -/
def execFxScliF32 (rd a : Reg) (n : BitVec 9) (s : State) : Out := sclForm s f32 rd a n.toInt

/-- `fx.scli.f64`. -/
def execFxScliF64 (rd a : Reg) (n : BitVec 9) (s : State) : Out := sclForm s f64 rd a n.toInt

/-- The integer exponent and flags (R166). -/
def xpn (v : FVal) : Word × Nat :=
  match v with
  | .nan _ => (0x7FFFFFFFFFFFFFFF, 16)
  | .inf _ => (0x7FFFFFFFFFFFFFFF, 16)
  | .fin _ m e => if m = 0 then (0x8000000000000000, 16) else (BitVec.ofInt 64 (e + (Nat.log2 m : Int)), 0)

/-- `fx.xpn.f32`. -/
def execFxXpnF32 (rd a : Reg) (s : State) : Out :=
  s.onStrand fun _ => let r := xpn (fval f32 (s.f a)); s.xdone rd r.1 r.2

/-- `fx.xpn.f64`. -/
def execFxXpnF64 (rd a : Reg) (s : State) : Out :=
  s.onStrand fun _ => let r := xpn (fval f64 (s.f a)); s.xdone rd r.1 r.2

/-! ### Special functions (R167) -/

/-- Special function fff. -/
def specialForm (s : State) (fn : Nat) (rd a : Reg) : Out :=
  s.onStrand fun _ => let r := specialF fn (unbox f32 (s.f a)); s.fdone rd (box f32 r.1) r.2

/-- `fx.exp2.f32`. -/
def execFxExp2F32 (rd a : Reg) (s : State) : Out := specialForm s 0 rd a
/-- `fx.log2.f32`. -/
def execFxLog2F32 (rd a : Reg) (s : State) : Out := specialForm s 1 rd a
/-- `fx.rcp.f32`. -/
def execFxRcpF32 (rd a : Reg) (s : State) : Out := specialForm s 2 rd a
/-- `fx.rsqrt.f32`. -/
def execFxRsqrtF32 (rd a : Reg) (s : State) : Out := specialForm s 3 rd a
/-- `fx.sinpi.f32`. -/
def execFxSinpiF32 (rd a : Reg) (s : State) : Out := specialForm s 4 rd a
/-- `fx.cospi.f32`. -/
def execFxCospiF32 (rd a : Reg) (s : State) : Out := specialForm s 5 rd a
/-- `fx.tanh.f32`. -/
def execFxTanhF32 (rd a : Reg) (s : State) : Out := specialForm s 6 rd a
/-- `fx.sigm.f32`. -/
def execFxSigmF32 (rd a : Reg) (s : State) : Out := specialForm s 7 rd a

end Sys2Proof.Machine
end

