-- ==== Sys2Proof/Machine/Chunks.lean ====
section
/-! DEFINITION. Chunks of asynchronous copies and the batches that they complete (R244 to R250, R257). An engine reads the source
bytes of a chunk when it writes the chunk (log 22). -/

namespace Sys2Proof.Machine

/-- Bits of an element of a copy format (Table 9.5). -/
def cfBits : CFmt → Nat
  | .elt e => eltBits e | .bf16 => 16 | .f32 => 32

/-- Elements that a length has to be a multiple of (Table 9.6). -/
def cfGroup (f : CFmt) : Nat := match cfBits f with | 4 => 2 | 6 => 4 | _ => 1

/-- Alignment of the start of a run of a side (Table 9.6). -/
def cfAlign : CFmt → Nat
  | .elt _ => 1 | .bf16 => 2 | .f32 => 4

/-- An element code. -/
def isElt : CFmt → Bool
  | .elt _ => true | .bf16 => false | .f32 => false

/-- One element converted under scale g (R246); its flags are discarded. -/
def convElem (src dst : CFmt) (rm g c : Nat) : Nat :=
  let b := match src with
    | .elt e => (expand e rm c g).1
    | .f32 => (fround bf16 rm (FVal.ofBits f32 c)).1
    | .bf16 => c
  match dst with
  | .bf16 => b
  | .f32 => (fround f32 0 (FVal.ofBits bf16 b)).1
  | .elt e => (narrow e rm b g).1

/-- Address of byte `o` of a side. -/
def pieceAt (l : List Piece) (o : Nat) : Option Nat :=
  match l with
  | [] => none
  | p :: t => if o < p.len then (if p.addr = zeroAddr then none else some (p.addr + o)) else pieceAt t (o - p.len)

namespace Copy

/-- Lines or rows of the destination: the chunks (R244). -/
def lines (c : Copy) : List Nat := dedup (c.dst.flatMap fun p => linesOf p.addr p.len)

/-- Offsets of the source bytes that destination byte `o` is made of. -/
def srcOffs (c : Copy) (o : Nat) : List Nat :=
  if c.fill then []
  else
    match c.conv with
    | none => [o]
    | some (fs, fd) =>
      let p := o % c.rowD
      let ws := cfBits fs
      let j0 := 8 * p / cfBits fd
      let j1 := (8 * p + 7) / cfBits fd
      let b0 := ws * j0 / 8
      (upto b0 ((ws * (j1 + 1) + 7) / 8 - b0)).map fun b => o / c.rowD * c.rowS + b

/-- Destination byte `o` from the source bytes. -/
def byte (c : Copy) (rd : Nat → Byte) (o : Nat) : Byte :=
  if c.fill then BitVec.ofNat 8 (c.pattern.toNat / 256 ^ (o % 8))
  else
    let src (k : Nat) : Byte := match pieceAt c.src k with | some a => rd a | none => 0
    match c.conv with
    | none => src o
    | some (fs, fd) =>
      let base := o / c.rowD * c.rowS
      if (pieceAt c.src base).isNone then 0
      else
        let p := o % c.rowD
        let ws := cfBits fs
        let wd := cfBits fd
        let code (j : Nat) : Nat :=
          ofBytes ((upto (base + ws * j / 8) ((ws * j % 8 + ws + 7) / 8)).map src) / 2 ^ (ws * j % 8) % 2 ^ ws
        let j0 := 8 * p / wd
        let j1 := (8 * p + 7) / wd
        let v := (upto j0 (j1 - j0 + 1)).foldl (fun acc j =>
          acc + convElem fs fd c.rm (c.scales.getD (j / 32) (c.scales.headD 0)) (code j) * 2 ^ (wd * (j - j0))) 0
        BitVec.ofNat 8 (v / 2 ^ (8 * p - wd * j0))

/-- Destination bytes of a chunk, as (address, offset), rows in order. -/
def chunkBytes (c : Copy) (line : Nat) : List (Nat × Nat) :=
  (c.dst.foldl (fun (acc : Nat × List (Nat × Nat)) p =>
    let lo := 64 * line - p.addr
    let hi := min p.len (64 * line + 64 - p.addr)
    let here := (upto lo (hi - lo)).map fun i => (p.addr + i, acc.1 + i)
    (acc.1 + p.len, acc.2 ++ here)) (0, [])).2

/-- Source lines or rows of a chunk. -/
def chunkSrc (c : Copy) (line : Nat) : List Nat :=
  dedup ((c.chunkBytes line).flatMap fun b => (c.srcOffs b.2).filterMap fun o => (pieceAt c.src o).map (· / 64))

/-- Source lines or rows of the chunks not written. -/
def unreadLines (c : Copy) : List Nat :=
  dedup ((c.lines.filter fun l => !c.done.contains l).flatMap c.chunkSrc)

end Copy

namespace Strand

/-- A copy enters the open batch (R250). -/
def batAdd (t : Strand) : Strand :=
  if t.bats.any fun b => b.num = t.openBat then
    { t with bats := t.bats.map fun b => if b.num = t.openBat then { b with left := b.left + 1 } else b }
  else { t with bats := t.bats ++ [{ num := t.openBat, left := 1 }] }

/-- The incomplete count if a copy entered the open batch. -/
def batNext (t : Strand) : Nat := t.batAdd.batCount

/-- A copy of batch `num` completes. -/
def batDone (t : Strand) (num : Nat) : Strand :=
  { t with bats := (t.bats.map fun b => if b.num = num then { b with left := b.left - 1 } else b).dropWhile fun b => b.left = 0 }

/-- `cp.seal` (R252). -/
def batSeal (t : Strand) : Strand :=
  let bats := if t.bats.isEmpty || t.bats.any (fun b => b.num = t.openBat) then t.bats
    else t.bats ++ [{ num := t.openBat, left := 0 }]
  { t with openBat := (t.openBat + 1) % 65536, bats }

/-- Slots of the spill ring (Table 9.1). -/
def ringSlots (t : Strand) : Nat := let n := t.cbits cCpspl 3 0; if n = 0 then 0 else 2 ^ (n + 5)

end Strand

namespace State

/-- A copy is complete (R244, R250). -/
def copyDone (s : State) (id : Nat) : State :=
  match kfind (·.id) s.copies id with
  | none => s
  | some c => { s with copies := kdel (·.id) s.copies id }.modStrand c.image fun t => t.batDone c.batch

/-- A chunk can be written now (R206, R217, R245, R286): not while another copy is within a chunk of that row, for each chunk is
written as a whole (R244, R256). -/
def chunkReady (s : State) (c : Copy) (line : Nat) : Bool :=
  let sid := match s.strand? c.image with | some t => t.sid | none => 0
  let src := c.chunkSrc line
  c.stage = 2 && c.lines.contains line && !c.done.contains line
    && (c.srcStage || !(s.copies.any (fun o => o.id < c.id && o.image ≠ c.image && src.any fun l => o.own.contains l)
          || s.holds.any fun h => s.holdActive h && src.contains h.granule))
    && (c.dstStage || !s.holds.any fun h => s.holdActive h && h.granule = line)
    && !(c.dstStage && s.engineReads c.crew sid c.id (64 * line) 64)
    && !(c.fill && s.copyReads c.image c.id c.dstStage (64 * line) 64)
    && !(c.dstStage && s.copies.any fun o => o.id ≠ c.id && o.crew = c.crew && o.part.any fun a => a / 64 = line)

/-- Writes one chunk (R244, R257); poison absorbed is recorded (R383). Of rows that cover one byte, a free value
says whose value stays. Of a chunk of stage memory a free value may show some bytes first: each is the prior or the copied
one for those that do not wait (R207), while no other copy writes the row; with `all`, or where the source is poisoned, the chunk is
written in one step. A chunk of memory reaches every die at once, since its line was owned (R206). -/
def chunkWrite (s : State) (c : Copy) (line : Nat) (all : Bool := false) : State :=
  let die := dieOf c.core
  let src := c.chunkSrc line
  let s := if c.srcStage then s else { s with ncs := s.ncs.filter fun e => !(e.core = c.core && src.contains e.line) }
  let s := if c.srcStage then s else s.mergeWhere fun e => src.contains e.line
  let s := if c.dstStage then s else s.mergeWhere fun e => e.line = line
  let s := if c.srcStage then s else src.foldl (fun s l => s.dirLine die l false) s
  let s := if c.dstStage then s else s.dirLine die line true
  let cs : Sparse 8 := match s.crew? c.crew with | some w => w.stage | none => []
  let rp : List Nat := match s.crew? c.crew with | some w => w.rowPoison | none => []
  let s := if c.srcStage then s else src.foldl (fun s l => s.imageRead (64 * l) 64) s
  let at' := s
  let rd (a : Nat) : Byte := if c.srcStage then sget cs a else at'.seen c.image die a
  let bad := src.any fun l => if c.srcStage then rp.contains l else s.poison.contains l
  let bs := c.chunkBytes line
  let (k, s) := if 64 < bs.length || !(c.dst.length = 1) then s.drawNat else (0, s)
  let bs := bs.drop (k % (bs.length + 1)) ++ bs.take (k % (bs.length + 1))
  let val (a : Nat) : Option Byte := (bs.reverse.find? fun b => b.1 = a).map fun b => c.byte rd b.2
  let vals : List (Nat × Option Byte) := (upto (64 * line) 64).map fun a => (a, val a)
  let whole := vals.all fun v => v.2.isSome
  let mine (a : Nat) : Bool := a / 64 = line
  let (some', s) := if c.dstStage && !all && !bad && !c.part.any mine then s.drawNat else (0, s)
  let left : List (Nat × Option Byte) := vals.filter fun v => !c.part.contains v.1
  let now : List (Nat × Option Byte) := left.filter fun v => some' / 2 ^ (v.1 % 64) % 2 = 0
  if now.length < left.length then
    let s := (s.noteLate c.crew (now.filterMap fun v => v.2.map fun _ => v.1)).modCrew c.crew fun w =>
      { w with stage := now.foldl (fun m v => match v.2 with | some b => sset m v.1 b | none => m) w.stage }
    let part : List Nat := c.part ++ now.map (·.1)
    { s with copies := kmod (·.id) s.copies c.id fun c => { c with part } }.crewRetry c.crew
  else
  let s :=
    if c.dstStage then
      ((s.noteLate c.crew (left.filterMap fun v => v.2.map fun _ => v.1)).modCrew c.crew fun w =>
        { w with
          stage := left.foldl (fun m v => match v.2 with | some b => sset m v.1 b | none => m) w.stage
          rowPoison := if bad then insSorted w.rowPoison line else if whole then w.rowPoison.filter (· ≠ line) else w.rowPoison })
        |>.crewRetry c.crew
    else
      let put (s : State) (a : Nat) (d : List Byte) : State := s.poke (fun _ => false) 0 c.image a d
      let s := if whole then put s (64 * line) (vals.map fun v => v.2.getD 0)
        else vals.foldl (fun s v => match v.2 with | some b => put s v.1 [b] | none => s) s
      { s with poison := if bad then insSorted s.poison line else s.poison, owners := sset s.owners line (w64 c.owner) }
  let s := if bad then
      (s.modStrand c.image fun t => { t with poisoned := true }).faultRecord c.core
        { kind := 4, pa := if c.dstStage then 0 else 64 * line }
    else s
  let c' := { c with done := line :: c.done, part := c.part.filter (fun a => !mine a), own := c.own.filter (· ≠ line) }
  let c' := { c' with unread := c'.unreadLines }
  let s := { s with copies := kmod (·.id) s.copies c.id fun _ => c' }
  if c'.lines.all fun l => c'.done.contains l then s.copyDone c.id else s

/-- The chunks of a copy that are being written are completed (R254, R258). -/
def finishParts (s : State) (c : Copy) : State :=
  (dedup (c.part.map (· / 64))).foldl (fun s l =>
    match kfind (·.id) s.copies c.id with
    | some c => s.chunkWrite c l true
    | none => s) s

end State

end Sys2Proof.Machine
end

