-- ==== Sys2Proof/Machine/Fleet.lean ====
section
/-! DEFINITION. The dispatchers: strand store, fleets, sample groups, the end of strands and crews, placement and slots
(R58 to R84, R93, R310 to R316, R371, R388, R410, R411). -/

namespace Sys2Proof.Machine

/-! ### The statistics of a sample group (R316) -/

/-- A rounded FP64 operation on codes. -/
def d64 (r : FVal × Nat) : Nat := (fround f64 0 r.1).1

/-- Sum of rewards in sibling order. -/
def sumR (l : List Nat) : Nat := l.foldl (fun s r => d64 (fadd 0 (FVal.ofBits f64 s) (FVal.ofBits f64 r))) 0

/-- Mean, standard deviation, advantages of the reporters in order, and flags few and zv. -/
def groupStats (eps : Nat) (rs : List Nat) : Nat × Nat × List Nat × Nat :=
  let v (x : Nat) : FVal := FVal.ofBits f64 x
  match rs with
  | [] => (0, 0, [], 1)
  | [r] => (r, 0, [0], 1)
  | _ =>
    let c := fofInt rs.length
    let mean := d64 (fdiv (v (sumR rs)) c)
    let ds := rs.map fun r => d64 (fadd 0 (v r) (v mean).negate)
    let sq := ds.foldl (fun s d => d64 (ffma 0 (v d) (v d) (v s))) 0
    let var := d64 (fdiv (v sq) c)
    let std := d64 (fsqrt (v var))
    if var = 0 then (mean, std, rs.map fun _ => 0, 2)
    else
      let den := d64 (fadd 0 (v std) (v eps))
      (mean, std, ds.map fun d => if d % 2 ^ 63 = 0 then 0 else (fround f32 0 (fdiv (v d) (v den)).1).1, 0)

namespace Group

/-- State of sibling i (Table 12.3). -/
def st (g : Group) (i : Nat) : Nat := g.states.getD i 0
/-- Siblings in a state. -/
def count (g : Group) (k : Nat) : Nat := (g.states.filter (· = k)).length
/-- Physical address of byte `off` of the record (R311). -/
def pa (g : Group) (off : Nat) : Nat :=
  g.frames.getD ((g.record % 4096 + off) / 4096) 0 + (g.record + off) % 4096
/-- Reward of sibling i. -/
def reward (g : Group) (i : Nat) : Nat := match g.rewards.find? fun r => r.1 = i with | some r => r.2.toNat | none => 0

end Group

/-- What a fleet's slot shows (Table 3.10). -/
inductive FleetSt | placing | placed | done | doneCxl | preempted
  deriving DecidableEq, Repr

namespace State

/-! ### Strand store (R58, R75) -/

/-- Base of die d's strand store. -/
def storeBase (s : State) (d : Nat) : Nat := wbits (s.reg (dieReg dispBase d 0)) 56 21 * 2 ^ 21
/-- Its size in bytes. -/
def storeSize (s : State) (d : Nat) : Nat := wbits (s.reg (dieReg dispBase d 0x08)) 15 0 * 2 ^ 21
/-- Allocations of die d. -/
def storeAllocs (s : State) (d : Nat) : List (Nat × Nat) :=
  s.allocs.filter fun a => s.storeBase d ≤ a.1 && a.1 < s.storeBase d + s.storeSize d
/-- Unallocated bytes. -/
def storeFree (s : State) (d : Nat) : Nat := s.storeSize d - ((s.storeAllocs d).map (·.2)).foldl (· + ·) 0

/-- An aligned range of the store that no allocation overlaps. -/
def storeFits (s : State) (d a n align : Nat) : Bool :=
  a % align = 0 && s.storeBase d ≤ a && a + n ≤ s.storeBase d + s.storeSize d
    && s.allocs.all fun x => a + n ≤ x.1 || x.1 + x.2 ≤ a

/-- Lowest place for an allocation. -/
def storeLow (s : State) (d n align : Nat) : Option Nat :=
  let cs := (((s.storeAllocs d).map fun x => x.1 + x.2) ++ [s.storeBase d]).map fun a => roundUp a align
  minBy id (cs.filter fun a => s.storeFits d a n align)

/-- Allocates `n` bytes: at the address a free value gives where it is a legal place, else at the lowest (log 9). -/
def alloc (s : State) (d n align : Nat) : Option (Nat × State) :=
  match s.storeLow d n align with
  | none => none
  | some lo =>
    let (h, s) := s.drawNat
    let a := if s.storeFits d h n align then h else lo
    some (a, { s with allocs := kput (·.1) s.allocs (a, n) })

/-- Frees an allocation. -/
def free (s : State) (a : Nat) : State := { s with allocs := kdel (·.1) s.allocs a }

/-- A new fleet handle: non-zero, bits [63:62] zero, unique among live fleets (R79, log 10). -/
def newHandle (s : State) : Word × State :=
  let (h, s) := s.drawNat
  let ok (x : Nat) : Bool := x ≠ 0 && x < 2 ^ 62 && s.fleets.all fun f => f.handle ≠ w64 x
  if ok h then (w64 h, s)
  else
    match (upto 1 (s.fleets.length + 1)).find? ok with
    | some x => (w64 x, s)
    | none => (0, s)

/-! ### Sample groups -/

/-- The chain of the writes of a group: each is performed after the ones before it (R314, R327). -/
def groupChain (g : Group) : Nat := 1000 + g.pa 0

/-- A write of the group to its record, at the fork's physical addresses (R311). -/
def recWrite (s : State) (g : Group) (off v n : Nat) : State :=
  s.hwPut { core := Config.numCores, addr := g.pa off, data := toBytes v n, chain := groupChain g }

/-- The group is closed and its record written, the state word last (R314, R327). -/
def closeWritten (s : State) (g : Group) : Bool := g.closed && s.hwq.all fun w => w.chain ≠ groupChain g

/-- Updates the group of a fleet. -/
def modGroup (s : State) (h : Word) (f : Group → Group) : State :=
  s.modFleet h fun x => { x with group := x.group.map f }

/-- The group of a fleet. -/
def group? (s : State) (h : Word) : Option Group := match s.fleet? h with | some f => f.group | none => none

/-- A sibling's state changes, and its sst is written. -/
def setSib (s : State) (h : Word) (i st : Nat) : State :=
  match s.group? h with
  | none => s
  | some g => (s.recWrite g (0x40 + 16 * i + 0xC) st 1).modGroup h fun g => { g with states := lmod g.states i fun _ => st }

/-- Closes a group: pending siblings become `left`, statistics, record, then the state word (R314, R316). -/
def closeGroup (s : State) (h : Word) (left flag clock : Nat) : State :=
  match s.group? h with
  | none => s
  | some g =>
    if g.closed then s
    else
      let g := { g with states := g.states.map fun x => if x = 0 then left else x }
      let rep := (upto 0 g.n).filter fun i => g.st i = 1
      let (mean, std, advs, fl) := groupStats g.eps.toNat (rep.map g.reward)
      let flags := fl + flag
      let adv (i : Nat) : Nat := match (List.zip rep advs).find? fun p => p.1 = i with | some p => p.2 | none => 0
      let s := (upto 0 g.n).foldl (fun s i =>
        let o := 0x40 + 16 * i
        let s := s.recWrite g o (if g.st i = 1 then g.reward i else 0) 8
        let s := s.recWrite g (o + 8) (adv i) 4
        s.recWrite g (o + 0xC) (g.st i) 1) s
      let s := s.recWrite g 0x18 mean 8
      let s := s.recWrite g 0x20 std 8
      let s := s.recWrite g 0x28 (g.count 1) 2
      let s := s.recWrite g 0x2A (g.count 2) 2
      let s := s.recWrite g 0x2C (g.count 3 + g.count 4 + g.count 5) 2
      let s := s.recWrite g 0x2E (g.count 6) 2
      let s := s.recWrite g 0x30 flags 4
      let s := s.recWrite g 0x34 clock 4
      let s := s.recWrite g 0 2 8
      s.modGroup h fun g' => { g with closed := true, running := false, flags, clock, frames := g'.frames }

/-- The group closes when no sibling is pending (R314). -/
def tryClose (s : State) (h : Word) : State :=
  match s.group? h with
  | none => s
  | some g => if !g.closed && g.states.all (· ≠ 0) then s.closeGroup h 0 0 g.clock else s

/-! ### Fleets -/

/-- Crews of a fleet that exist. -/
def crewsOf (s : State) (h : Word) : List Crew := if h = 0 then [] else s.crews.filter fun c => c.fleet = h

/-- Every crew that is to be placed has been. -/
def allPlaced (f : Fleet) : Bool := f.dropped || f.crews ≤ f.nextC

/-- A fleet is done (R71, R314). -/
def fleetDone (s : State) (f : Fleet) : Bool :=
  allPlaced f && (s.crewsOf f.handle).isEmpty && match f.group with | some g => g.closed | none => true

/-- Its state (Table 3.10). -/
def fleetSt (s : State) (f : Fleet) : FleetSt :=
  if s.fleetDone f then (if f.cancelled then .doneCxl else .done)
  else if f.pre then .preempted
  else if allPlaced f then .placed
  else .placing

/-- State code of a child slot (Table 3.10). -/
def slotCode (s : State) (h : Word) : Nat :=
  if h = 0 then 0
  else
    match s.fleet? h with
    | none => 0
    | some f =>
      match s.fleetSt f with
      | .placing => 1 | .placed => 2 | .done => 3 | .doneCxl => 4 | .preempted => 5

/-- The fleet record is freed. -/
def dropFleet (s : State) (h : Word) : State :=
  match s.fleet? h with
  | none => s
  | some f => (s.free f.recd) |> fun s => { s with fleets := s.fleets.filter fun x => x.handle ≠ h }

/-- A fleet that is done and whose forker no longer exists leaves no record. -/
def reap (s : State) : State :=
  (s.fleets.filter fun f => s.fleetDone f && (s.strand? f.forker).isNone && (s.frame? f.forker).isNone).foldl
    (fun s f => s.dropFleet f.handle) s

/-- The thread of a frame has no strand, and no fleet that descends from it is unfinished. -/
def threadIdle (s : State) (fr : Frame) : Bool :=
  (s.strand? fr.image).isNone
    && s.strands.all (fun t => s.rootOf t ≠ fr.image) && s.fleets.all fun f => s.fleetDone f || f.root ≠ fr.image

/-- A notice of kind 4 for each killed thread whose last descendant has stopped (R61). -/
def killNotices (s : State) : State :=
  (s.frames.filter fun f => f.killed && !f.noted && s.threadIdle f).foldl
    (fun s f => (s.notice f 4).modFrame f.image fun f => { f with noted := true, recalled := false }) s

/-- Entries of a crew that have not started leave the queues; who waits for one has not begun it (R288). -/
def dropEntries (s : State) (i : Nat) : State :=
  let gone := s.engine.filter fun e => e.crew = i && !e.started
  let s := { s with engine := s.engine.filter fun e => !(e.crew = i && !e.started) }
  gone.foldl (fun s e => e.who.foldl (fun s w =>
    match s.strand? w.1 with
    | some t => if t.wait = .engine e.id w.2 then s.dropWait w.1 else s
    | none => s) s) s

/-- Strands that wait for the end of a crew go on (R322). -/
def wakeGroup (s : State) (i : Nat) : State :=
  s.strands.foldl (fun s t => match t.wait with | .group h rd => if h = i then s.finishWait t.image rd 0 else s | _ => s) s

/-- A crew ends: entries not started are dropped (R288), its save area and record are freed unless a stopped forwarded
image lies there (R371), and its fleet counts it. -/
def crewDone (s : State) (i : Nat) : State :=
  match s.crew? i with
  | none => s
  | some c =>
    let s := s.dropEntries i
    let s := { s with crews := kdel (·.id) s.crews i }
    let s := if c.recd = 0 then s else s.free c.recd
    let s := if c.fleet = 0 || c.save = 0 || s.ghosts.any (fun g => g.2 = c.save) then s else s.free c.save
    let s := s.modFleet c.fleet fun f => { f with completed := f.completed + 1 }
    let s := match s.group? c.fleet with
      | some g => if !g.closed && g.st c.sibling = 0 then (s.setSib c.fleet c.sibling 5).tryClose c.fleet else s
      | none => s
    (s.wakeGroup i).retryAll.reap.killNotices

/-- Copies of a strand that have a chunk left unwritten are abandoned, once the chunks that are being written are (R254): their
number. -/
def abandonCopies (s : State) (k : Nat) : Nat × State :=
  let s := (s.copies.filter fun c => c.image = k).foldl (fun s c => s.finishParts c) s
  let all := s.copies.filter fun c => c.image = k
  let mine := all.filter fun c => !c.lines.isEmpty
  let s := { s with copies := s.copies.filter fun c => c.image ≠ k }
  (mine.length, s.modStrand k fun t =>
    let t := { t with bats := [], abandoned := t.abandoned || mine.length ≠ 0 }
    if all.any (fun c => c.stage = 1) then t.setCbits cSpill 63 32 (t.cbits cSpill 31 0) else t)

/-- A strand ceases to exist; its crew ends with its last strand (R71, R121). -/
def endStrand (s : State) (k : Nat) : State :=
  match s.strand? k with
  | none => s
  | some t =>
    let s := ((s.clearMarks k).mergeStrand k).drain k
    let s := (s.endHold k).cvLeave t.crew t.sid
    let s := if t.way = 0 then s else s.free t.way
    let s := s.delStrand k
    let s := s.modCrew t.crew fun c => { c with live := c.live.filter (· ≠ t.sid) }
    match s.crew? t.crew with
    | some c => if c.live.isEmpty then s.crewDone t.crew else s.reap.killNotices
    | none => s.reap.killNotices

/-- A strand that `fk.stop` or KILL has reached stops: its copies end, its reductions merge (R83). -/
def stopStrand (s : State) (k : Nat) : State :=
  match s.strand? k with
  | none => s
  | some t =>
    let s := (s.abandonCopies k).2
    let s := match s.crew? t.crew with
      | some c => if t.status = SStatus.forwarded && c.fleet ≠ 0 then { s with ghosts := s.ghosts ++ [(k, c.save)] } else s
      | none => s
    s.endStrand k

/-- A crew is stopped as `fk.stop` stops it: strands without a slot at once, resident ones at their next instruction
boundary (R83, R371); its entries that have not started are dropped (R288). -/
def stopCrew (s : State) (i : Nat) : State :=
  let s := ((s.modCrew i fun c => { c with stopping := true }).dropEntries i).retryAll
  let mine := s.strands.filter fun t => t.crew = i
  mine.foldl (fun s t =>
    if t.status = SStatus.resident then s.modStrand t.image fun t => { t with pendKill := true }
    else s.stopStrand t.image) s

/-- Handles of the fleets that descend from these, with them. -/
def descend (s : State) (hs : List Word) : Nat → List Word
  | 0 => hs
  | n + 1 =>
    let more := (s.fleets.filter fun f => !hs.contains f.handle && f.parent ≠ 0 && hs.contains f.parent).map (·.handle)
    if more.isEmpty then hs else s.descend (hs ++ more) n

/-- `fk.stop` of one fleet record; a done fleet is not affected (R83, R314). -/
def stopOne (s : State) (h : Word) : State :=
  match s.fleet? h with
  | none => s
  | some f =>
    if s.fleetDone f then s
    else
      let s := s.modFleet h fun f => { f with dropped := true, cancelled := true, pre := false }
      let s := match f.group with | some g => s.closeGroup h 2 8 g.clock | none => s
      let s := (s.crewsOf h).foldl (fun s c => s.stopCrew c.id) s
      s.reap.killNotices

/-- A crew is stopped with the fleets that descend from its strands (R83, R322). -/
def stopCrewAll (s : State) (i : Nat) : State :=
  let mine (k : Nat) : Bool := match s.strand? k with | some t => t.crew = i | none => false
  let roots := (s.fleets.filter fun f => mine f.forker).map (·.handle)
  ((s.descend roots 12).foldl (fun s h => s.stopOne h) s).stopCrew i

/-- `fk.stop` of a fleet and of every fleet that descends from it (R83). -/
def stopFleet (s : State) (h : Word) : State := (s.descend [h] 12).foldl (fun s h => s.stopOne h) s

/-! ### Placement (R75 to R77, R93, R410, R411) -/

/-- The W-core is enabled (Table 16.1). -/
def coreOn (s : State) (n : Nat) : Bool := n < Config.numCores && wbit (s.reg (bootBase + 0x20 + 8 * (n / 64))) (n % 64)

/-- A crew holds the W-core. -/
def coreHeld (s : State) (n : Nat) : Bool := s.crews.any fun c => c.cores.contains n

/-- Free strand slots of a W-core. -/
def freeSlots (s : State) (n : Nat) : Nat :=
  Config.coreSlots - (s.strands.filter fun t => t.status = .resident && t.core = n).length

/-- Coolant cost of a class (Table 15.2). -/
def classCost (s : State) (c : Nat) : Nat :=
  let r := s.reg (powerBase + 0x20)
  match c with | 0 => wbits r 7 0 | 1 => wbits r 15 8 | 2 => wbits r 23 16 | _ => 0

/-- Committed load L(q) (R410). -/
def load' (s : State) (q : Nat) : Nat :=
  s.classCost (s.podAt q).pool * ((upto (4 * q) 4).filter fun n => s.coreHeld n).length

/-- Effective allowance A(z) (R410). -/
def allowance (s : State) (z : Nat) : Nat :=
  let x := s.zoneAt z
  if x.state ≤ 1 then min x.allow (29 * x.flow / 32) else if x.state = 2 then x.lastL else 0

/-- Placement on the pod is stopped: its die is not ready, it is halted, in reassignment, the cap withholds it, or its
zone is evacuated (R397, R404, R407, R413). -/
def podClosed (s : State) (q : Nat) : Bool :=
  !s.ready (q / 12) || (s.podAt q).halted || (s.podAt q).rcls ≠ 0 || 3 ≤ s.pkg.means || 3 ≤ (s.zoneAt q).state

/-- The crew W-cores that R75 chooses on pod q. -/
def chooseCores (s : State) (c : Crew) (q : Nat) : Nat → List Nat → Option (List Nat)
  | 0, acc => some acc
  | n + 1, acc =>
    let i := acc.length
    let need := min 2048 (c.shape - 2048 * i)
    let free (m : Nat) : Bool :=
      let on := s.crews.filter fun x => x.cores.contains m
      s.coreOn m && !acc.contains m && need ≤ s.freeSlots m
        && c.stageA + (on.map Crew.stageA).foldl (· + ·) 0 ≤ Config.stageBytes
        && c.banks + (on.map (·.banks)).foldl (· + ·) 0 ≤ 32
        && c.cvs + (on.map (·.cvs)).foldl (· + ·) 0 ≤ 64
    match (upto (4 * q) 4).find? free with
    | none => none
    | some m => s.chooseCores c q n (acc ++ [m])

/-- Bytes of a crew's save area (R75). -/
def saveBytes (c : Crew) : Nat := 1024 * c.shape + c.k * (c.stageSize + 16384 * c.banks)

/-- The crew W-cores on pod q if it fits the crew but for its store. -/
def podFits (s : State) (c : Crew) (q : Nat) : Option (List Nat) :=
  if s.podClosed q then none
  else
    match s.chooseCores c q c.k [] with
    | none => none
    | some l =>
      let u := (l.filter fun n => !s.coreHeld n).length
      if s.load' q + s.classCost c.cls * u ≤ s.allowance q then some l else none

/-- Pods of a pool in the order of R76, cut to a die for a thread. -/
def poolOrder (s : State) (c : Crew) : List Nat :=
  let p := s.poolPtr.getD c.cls 47
  ((upto (p + 1) 48).map (· % 48)).filter fun q =>
    (s.podAt q).pool = c.cls && (s.podAt q).rcls = 0 && (c.fleet ≠ 0 || q / 12 = c.die)

/-- Free slots of a quadrant. -/
def quadFree (s : State) (n q : Nat) : Nat :=
  Config.quadSlots - (s.strands.filter fun t => t.status = .resident && t.core = n && t.quad = q).length

/-- The quadrant with the most free slots. -/
def bestQuad (s : State) (n : Nat) : Nat := match maxBy (s.quadFree n) (upto 0 4) with | some q => q | none => 0

/-- Lowest free slot of a quadrant. -/
def lowSlot (s : State) (n q : Nat) : Nat :=
  let used := (s.strands.filter fun t => t.status = .resident && t.core = n && t.quad = q).map (·.slot)
  match (upto (512 * q) 512).find? fun i => !used.contains i with | some i => i | none => 512 * q

/-- What has reached a die reaches another, to which a strand moves: it reads nothing older there (R198, R204). -/
def follow (s : State) (a b : Nat) : State :=
  if a = b then s
  else s.deliver fun r => r.die = b && !s.replicas.any fun x => x.die = a && x.pa = r.pa && x.writer = r.writer && x.old = r.old

/-- A strand takes a slot of W-core n, and stands at an NC invalidation point and a fetch point (R93, R105, R209). Lines of it
that stand in the register cache of another W-core are written back first (R56). A `pw.yld` that it stands behind answers (R417). -/
def takeSlot (s : State) (k n q : Nat) : State :=
  let was : Nat := match s.strand? k with | some t => t.core | none => n
  let away : Bool := match s.strand? k with | some t => t.core ≠ n && t.present ≠ 0 | none => false
  let s := (if away then s.writeBack k true else s).follow (dieOf was) (dieOf n)
  let i := s.lowSlot n q
  let s := s.modStrand k fun t =>
    { t with status := .resident, core := n, quad := q, slot := i, since := none, wait := .none, marks := [], resv := none }
  let rd : Reg := match s.strand? k with | some t => t.yielded | none => 0
  let s := if rd = 0 then s else (s.giveX k rd 0).modStrand k fun t => { t with yielded := 0 }
  (s.ncPoint n).dropIbuf (.strand k)

/-- The quadrant of strand i at placement (R93). -/
def placeQuad (s : State) (n i : Nat) : Nat := if s.quadFree n (i % 4) = 0 then s.bestQuad n else i % 4

/-- A W-core where a resuming strand finds a slot (R77). -/
def resumeCore (s : State) (c : Crew) (cwc : Nat) : Option Nat :=
  match c.cores with
  | [] => none
  | n0 :: _ =>
    let own := c.coreNum cwc
    if s.freeSlots own ≠ 0 then some own
    else (upto (4 * (n0 / 4)) 4).find? fun n => s.coreOn n && s.freeSlots n ≠ 0

/-- The state of a crew's convergence registers at placement (Table 4.4). -/
def newCv (shape : Nat) : CvReg := { members := upto 0 shape }

/-- The strand i of a new crew (R74). -/
def newStrand (f : Fleet) (c : Crew) (i : Nat) : Strand :=
  let ctx := f.seed
  let ctx := sset ctx cFid f.handle
  let ctx := sset ctx cCid (w64 (c.cid + c.shape * 2 ^ 32 + f.depth * 2 ^ 48))
  let ctx := sset ctx cSid (w64 (i + i / 2048 * 2 ^ 16 + f.prio * 2 ^ 24 + f.cls * 2 ^ 32))
  { image := c.save + 1024 * i, crew := c.id, sid := i, cwc := i / 2048, ctx }

/-- Crew `j` of a fleet, not yet placed. -/
def protoCrew (f : Fleet) (id j : Nat) : Crew :=
  let k := (f.shape + 2047) / 2048
  { id, fleet := f.handle, cid := j, shape := f.shape, cls := f.cls, prio := f.prio, forkTime := f.forkTime,
    stageSize := f.stageSize, banks := f.banks, cvs := f.cvs, live := upto 0 f.shape,
    cv := List.replicate f.cvs (newCv f.shape), alloc := List.replicate k 0, hold := List.replicate k 0,
    holder := List.replicate k 0, holdCtr := List.replicate k 0, sibling := j,
    sgrec := match f.group with | some g => g.record | none => 0 }

/-- A candidate for placement. -/
inductive Cand
  | crew (id : Nat)
  | fleet (h : Word)
  deriving DecidableEq, Repr

/-- Candidates in the order of R76: pre-empted crews; then the lowest unplaced crew of each fleet and each waiting
thread. No crew of a fleet goes before one with a lower index that is pre-empted (R78). -/
def candidates (s : State) : List Cand :=
  let away (c : Crew) : Bool := c.fleet ≠ 0 && c.pre ≠ 0
  let held (c : Crew) : Bool := c.heldBack || (match s.fleet? c.fleet with | some f => f.pre | none => false)
    || s.crews.any fun x => away x && x.fleet = c.fleet && x.cid < c.cid
  let pre := s.crews.filter fun c => c.pre = 2 && !held c && !c.stopping
  let pre := sortBy (fun (a b : Crew) => b.prio < a.prio || (a.prio = b.prio && a.cid ≤ b.cid)) pre
  let threads := (s.crews.filter fun c => c.fleet = 0 && c.pre = 0 && c.cores.isEmpty && !c.heldBack).map
    fun c => (c.prio, c.forkTime, Cand.crew c.id)
  let fleets := (s.fleets.filter fun f => !allPlaced f && !f.pre && !s.crews.any fun x => away x && x.fleet = f.handle).map fun f => (f.prio, f.forkTime, Cand.fleet f.handle)
  let two := sortBy (fun (a b : Nat × Nat × Cand) => b.1 < a.1 || (a.1 = b.1 && a.2.1 ≤ b.2.1)) (threads ++ fleets)
  pre.map (fun c => Cand.crew c.id) ++ two.map (·.2.2)

/-- Sets the pool pointer (R76). -/
def setPtr (s : State) (cls q : Nat) : State := { s with poolPtr := lmod s.poolPtr cls fun _ => q }

/-- Allocates at the lowest place. -/
def allocLow (s : State) (d n align : Nat) : Option (Nat × State) :=
  (s.storeLow d n align).map fun a => (a, { s with allocs := kput (·.1) s.allocs (a, n) })

/-- Crew record and save area of a crew at its first placement, on die d: a free value places each where both fit, else they
lie lowest, the record first or, where only that fits both, the save area (R75, R388, log 9). -/
def seatStore (s : State) (c : Crew) (d : Nat) : Option (State × Crew) :=
  let both (al : State → Nat → Nat → Nat → Option (Nat × State)) : Option (State × Crew) :=
    (al s d 8192 8192).bind fun r =>
      if c.fleet = 0 then some (r.2, { c with recd := r.1, die := d })
      else (al r.2 d (saveBytes c) 4096).map fun a => (a.2, { c with recd := r.1, die := d, save := a.1 })
  match both State.alloc, both State.allocLow with
  | some r, _ => some r
  | none, some r => some r
  | none, none =>
    (s.allocLow d (saveBytes c) 4096).bind fun a =>
      (a.2.allocLow d 8192 8192).map fun r => (r.2, { c with recd := r.1, die := d, save := a.1 })

/-- Places a crew record on pod q: W-cores, and at the first placement its store. -/
def seat (s : State) (c : Crew) (q : Nat) (l : List Nat) : Option (State × Crew) :=
  let (n, s) := s.fresh
  let c := { c with cores := l, order := n }
  (if c.recd ≠ 0 then some (s, c) else s.seatStore c (q / 12)).map fun r => (r.1.setPtr c.cls q, r.2)

/-- Seats a crew on the first of these pods that fits it (R75, R76): its W-cores with it. -/
def seatFirst (s : State) (c : Crew) (qs : List Nat) : Option (State × Crew × List Nat) :=
  qs.findSome? fun q => (s.podFits c q).bind fun l => (s.seat c q l).map fun r => (r.1, r.2, l)

/-- Places a candidate if a pod fits it: a pre-empted crew then awaits its restore (R390), a waiting thread takes its
slot, a fleet's next crew starts (R74). -/
def place (s : State) (x : Cand) : Option State :=
  match x with
  | .crew i =>
    match s.crew? i with
    | none => none
    | some c =>
      match s.seatFirst c (s.poolOrder c) with
      | none => none
      | some (s, c', l) =>
        if c.pre = 2 then some (s.putCrew { c' with pre := 3 })
        else
          let s := s.putCrew { c' with die := c.die }
          some ((s.strands.filter fun t => t.crew = i && t.status = .waiting).foldl
            (fun s t => s.takeSlot t.image (l.getD 0 0) (s.placeQuad (l.getD 0 0) 0)) s)
  | .fleet h =>
    match s.fleet? h with
    | none => none
    | some f =>
      let (id, s1) := s.fresh
      let c := protoCrew f id f.nextC
      match s1.seatFirst c (s1.poolOrder c) with
      | none => none
      | some (s, c, _) =>
        let skip := match f.group with
          | some g => ((upto (f.nextC + 1) f.crews).takeWhile fun i => g.st i = 2).length
          | none => 0
        let s := s.modFleet h fun f => { f with nextC := f.nextC + 1 + skip, placed := f.placed + 1 }
        let s := s.putCrew c
        some ((upto 0 f.shape).foldl (fun s i =>
          let t := newStrand f c i
          let n := c.coreNum t.cwc
          let q := s.placeQuad n i
          ((s.putStrand { t with core := n }).takeSlot t.image n q).fillLines t.image) s)

/-- One offer: the first candidate that fits is placed (R76). -/
def offer (s : State) : State :=
  match s.candidates.findSome? s.place with
  | some s' => s'
  | none => s

end State

end Sys2Proof.Machine
end

