-- ==== Sys2Proof/Machine/Copies.lean ====
section
/-! DEFINITION. Asynchronous copies: their issue, batches and the order in which the engines take them (09_copies.md). -/

namespace Sys2Proof.Machine

/-- What a copy instruction asks for once its stage side is checked. -/
structure CopyPlan where
  dstStage : Bool
  srcStage : Bool
  fill : Bool := false
  pattern : Word := 0
  /-- Rows as (address, length). -/
  src : List (Nat × Nat) := []
  dst : List (Nat × Nat)
  rowS : Nat := 0
  rowD : Nat
  conv : Option (CFmt × CFmt) := none
  scales : List Nat := []
  /-- Scale table in memory: address and bytes. -/
  table : Option (Nat × Nat) := none
  /-- Values of rs1, rs2, rs3, rx, ry. -/
  vals : List Word
  /-- Source and destination may share no byte. -/
  apart : Bool := false

/-- First bytes of the extent by page, pages rising. -/
def insPage (l : List (Nat × Nat)) (p f : Nat) : List (Nat × Nat) :=
  match l with
  | [] => [(p, f)]
  | (q, g) :: t => if p < q then (p, f) :: (q, g) :: t else if p = q then (q, min f g) :: t else (q, g) :: insPage t p f

/-- Pages of the rows with the first byte of the extent in each. -/
def pageFirsts (rows : List (Nat × Nat)) : List (Nat × Nat) :=
  rows.foldl (fun acc r =>
    if r.1 = zeroAddr || r.2 = 0 then acc
    else (upto (r.1 / 4096) ((r.1 + r.2 - 1) / 4096 - r.1 / 4096 + 1)).foldl (fun acc p => insPage acc p (max r.1 (4096 * p))) acc) []

/-- Physical pieces of a row, by the frames of its pages. -/
def rowPieces (frames : List (Nat × Phys)) (r : Nat × Nat) : List Piece :=
  if r.1 = zeroAddr || r.2 = 0 then [{ addr := r.1, len := r.2 }]
  else
    (upto (r.1 / 4096) ((r.1 + r.2 - 1) / 4096 - r.1 / 4096 + 1)).map fun p =>
      let a := max r.1 (4096 * p)
      let e := min (r.1 + r.2) (4096 * p + 4096)
      let base := match frames.find? fun f => f.1 = p with | some f => f.2.pa | none => 0
      { addr := base + a % 4096, len := e - a }

/-- Two sides share a byte. -/
def piecesMeet (a b : List Piece) : Bool :=
  a.any fun p => p.addr ≠ zeroAddr && b.any fun q => p.addr < q.addr + q.len && q.addr < p.addr + p.len

namespace State

/-- Translates a page of a memory extent at issue (R243 step 3). -/
def copyPage (s : State) (k : AccKind) (va : Word) : Res Phys :=
  match s.translate s.cur k va with
  | .trap s c v => .trap { s with accPa := 0 } c v
  | .stall s => .stall s
  | .ok s p =>
    let s := { s with accPa := p.pa }
    let off := va.toNat % 4096
    if region p.pa = .mmio || p.pbmt = 2 then .trap s (accessFault k) va
    else
      match s.memAt p.pa with
      | .fault => .trap s (accessFault k) va
      | .waits => .stall s
      | .ok => .ok s { p with pa := p.pa - off }

/-- Translates the pages of an extent. -/
def copyPages (s : State) (k : AccKind) : List (Nat × Nat) → Res (List (Nat × Phys))
  | [] => .ok s []
  | (p, f) :: t =>
    (s.copyPage k (w64 f)).bind fun s ph => (s.copyPages k t).bind fun s l => .ok s ((p, ph) :: l)

/-- Copies in the queue of a W-core. -/
def cpQueue (s : State) (core : Nat) : List Copy := s.copies.filter fun c => c.core = core && c.stage ≠ 1

/-- Descriptors of a strand that are spilled and not read back. -/
def spilledOf (s : State) (k : Nat) : List Copy := s.copies.filter fun c => c.image = k && c.stage = 1

/-- The queue has an entry for the strand (R237). -/
def cpRoom (s : State) (core k : Nat) : Bool :=
  (s.cpQueue core).length < 256 && ((s.cpQueue core).filter fun c => c.image = k).length < 32

/-- Which way a copy of the strand can go: queue, or ring; `none` while it is not ready (R237). Where the queue has room but
earlier copies of the strand are still spilled, the copy is spilled too, or not ready where the ring is full: R237 sends it to
the queue and yet has spilled copies enter first (DESIGN CHOICE, log 73). -/
def cpPath (s : State) (t : Strand) : Option Bool :=
  let sp := (s.spilledOf t.image).length
  if sp = 0 && s.cpRoom t.core t.image then some false
  else if sp < t.ringSlots then some true
  else none

/-- An ordinary store of a list of bytes. -/
def storeBytes (s : State) (va : Word) (data : List Byte) : Res Nat :=
  (s.locate s.cur .store va data.length).bind fun s loc =>
    match loc with
    | .mmio _ => .trap s 7 va
    | .mem parts =>
      (s.openParts s.cur va parts true).bind fun s _ =>
        .ok ((s.dropNc (s.coreOf s.cur) parts).writeParts s.cur parts data) (match parts with | p :: _ => p.pa | [] => 0)

/-- Bytes of translated pages as parts of an access. -/
def partsOf (f : List (Nat × Phys)) (l : List Piece) : List Part :=
  l.map fun p =>
    let ph : Option (Nat × Phys) := f.find? fun x => x.2.pa / 4096 = p.addr / 4096
    { pa := p.addr, n := p.len, attr := match ph with | some x => x.2.attr | none => 0
      pbmt := match ph with | some x => x.2.pbmt | none => 0 }

/-- Steps 3 to 6 of R243. -/
def copyGo (s : State) (t : Strand) (rd : Reg) (q : CopyPlan) : Out :=
  let mem (st : Bool) (l : List (Nat × Nat)) : List (Nat × Nat) := if st then [] else l
  let tab := match q.table with | some x => [x] | none => []
  match s.cpPath t with
  | none => s.stall
  | some spill =>
    if 16 < t.batNext then s.stall
    else
      ((s.copyPages .load (pageFirsts (mem q.srcStage q.src))).bind fun s fs =>
        (s.copyPages .load (pageFirsts tab)).bind fun s ft =>
          (s.copyPages .store (pageFirsts (mem q.dstStage q.dst))).bind fun s fd => .ok s (fs, ft, fd)).run fun s fr =>
        let pieces (st : Bool) (f : List (Nat × Phys)) (l : List (Nat × Nat)) : List Piece :=
          if st then l.map fun r => { addr := r.1, len := r.2 } else l.flatMap (rowPieces f)
        let src := pieces q.srcStage fr.1 q.src
        let dst := pieces q.dstStage fr.2.2 q.dst
        let tp := partsOf fr.2.1 (tab.flatMap (rowPieces fr.2.1))
        if q.apart && q.srcStage = q.dstStage && piecesMeet src dst then s.status rd (neg 3)
        else
          let own := if q.dstStage then [] else dedup (dst.flatMap fun p => linesOf p.addr p.len)
          if s.copies.any (fun c => c.image ≠ t.image && own.any fun l => c.own.contains l)
              || s.holds.any (fun h => own.contains h.granule && s.holdActive h && h.image ≠ t.image) then
            (own.foldl (fun s l => s.request s.cur (64 * l) 64) s).stall
          else
            let s := own.foldl (fun s l => s.served s.cur (64 * l) 64) s
            (s.openPartsAs Config.numCores (dieOf t.core) s.cur (match q.table with | some x => w64 x.1 | none => 0) tp false).run
              fun s _ =>
              let scales := match q.table with
                | some _ => (s.readParts s.cur tp).map (·.toNat)
                | none => q.scales
              let s := (s.homeSeen s.cur tp).dropNc t.core tp
              let s := (fr.1 ++ fr.2.2).foldl (fun s f => s.classify Config.numCores f.2.pa f.2.attr) s
              let frm := wbits s.fcsr 7 5
              let desc : List Byte := toBytes s.ibits.toNat 8 ++ q.vals.flatMap (fun v => toBytes v.toNat 8)
                ++ toBytes (t.cw cSatp).toNat 8 ++ toBytes (t.openBat + t.sid * 2 ^ 16 + frm * 2 ^ 29) 8
              let fill := t.cbits cSpill 31 0
              let slot := t.cbits cCpspl 63 12 * 4096 + 64 * (fill % t.ringSlots)
              (if spill then s.storeBytes (w64 slot) desc else .ok s 0).run fun s dpa =>
                let read := if q.srcStage then [] else src.flatMap fun p => if p.addr = zeroAddr then [] else linesOf p.addr p.len
                let s := { s with ncs := s.ncs.filter fun e => !(own.contains e.line || (e.core = t.core && read.contains e.line)) }
                let s := s.mergeWhere fun e => own.contains e.line
                let s := s.deliver fun r => own.contains (lineOf r.pa)
                let s := own.foldl (fun s l => s.dirLine (dieOf t.core) l true) s
                let (id, s) := s.fresh
                let c : Copy :=
                  { id, core := t.core, image := t.image, crew := t.crew, batch := t.openBat, stage := b2n spill,
                    dstStage := q.dstStage, srcStage := q.srcStage, fill := q.fill, pattern := q.pattern, rowS := q.rowS,
                    rowD := q.rowD, src, dst, conv := q.conv, scales, rm := frm, own := if spill then lineOf dpa :: own else own,
                    owner := s.tagOf s.cur, desc := if spill then dpa else 0,
                    vas := (fr.1 ++ fr.2.1 ++ fr.2.2).map (fun f => (f.1, f.2.glob)) ++ (if spill then [(slot / 4096, false)] else [])
                    asid := t.asid }
                let c := { c with unread := c.unreadLines }
                let s := s.modStrand t.image fun t =>
                  let t := t.batAdd
                  if spill then t.setCbits cSpill 31 0 (fill + 1) else t
                let s := { s with copies := s.copies ++ [c] }
                (if c.lines.isEmpty && !spill then s.copyDone id else s).status rd 0

/-- The two formats of a form. -/
def copyFmts : CopyForm → Option (CFmt × CFmt)
  | .plain => none | .conv a b _ => some (a, b) | .mx a b _ => some (a, b)

/-- Bytes of `n` units of one side. -/
def sideBytes (f : Option CFmt) (n : Nat) : Nat := match f with | none => n | some f => n * cfBits f / 8

/-- First byte of rows outside the allocation of the crew W-core that the first row lies in (R243 step 2). -/
def rowsOut (c : Crew) (rows : List (Nat × Nat)) : Option Nat :=
  let v := (rows.headD (0, 0)).1 / 2 ^ 20
  rows.findSome? fun r =>
    if c.stageIn r.1 r.2 && r.1 / 2 ^ 20 = v then none
    else if v * 2 ^ 20 ≤ r.1 && r.1 < v * 2 ^ 20 + c.stageA && v < c.k then some (v * 2 ^ 20 + c.stageA) else some r.1

/-- A transfer (R246). -/
def transfer (s : State) (f : CopyForm) (dstStage srcStage : Bool) (rd a b c : Reg) : Out :=
  s.onCrew fun t cw =>
    if f ≠ .plain && s.frm?.isNone then s.illegal
    else
      let n := (s.x c).toNat
      let fs := (copyFmts f).map (·.1)
      let fd := (copyFmts f).map (·.2)
      let ns := sideBytes fs n
      let nd := sideBytes fd n
      let sa := (s.x b).toNat
      let da := (s.x a).toNat
      let grp (f : Option CFmt) : Bool := match f with | some f => n % cfGroup f = 0 | none => true
      let al (f : Option CFmt) (a : Nat) : Bool := match f with | some f => a % cfAlign f = 0 | none => true
      let tabStage := match fs with | some f => if isElt f then srcStage else dstStage | none => false
      let ta := match f with | .mx _ _ rx => (s.x rx).toNat | _ => 0
      let tn := match f with | .mx _ _ _ => (n + 31) / 32 | _ => 0
      let within (st : Bool) (a n : Nat) : Bool := st || a + n ≤ 2 ^ 64
      if n = 0 then s.status rd 0
      else if !(ns ≤ 0x40000 && nd ≤ 0x40000 && grp fs && grp fd && al fs sa && al fd da
          && within srcStage sa ns && within dstStage da nd && within tabStage ta tn) then s.status rd (neg 3)
      else if srcStage && dstStage && sa < da + nd && da < sa + ns then s.status rd (neg 3)
      else
        match (if dstStage then rowsOut cw [(da, nd)] else none), (if srcStage then rowsOut cw [(sa, ns)] else none),
          (if tabStage && tn ≠ 0 then rowsOut cw [(ta, tn)] else none) with
        | some v, _, _ => s.raise 7 (w64 v)
        | none, some v, _ => s.raise 5 (w64 v)
        | none, none, some v => s.raise 5 (w64 v)
        | none, none, none =>
          if tabStage && tn ≠ 0 && cw.stageBad ta tn then s.raise 27 (w64 ta)
          else
            s.copyGo t rd
              { dstStage, srcStage, src := [(sa, ns)], dst := [(da, nd)], rowS := ns, rowD := nd, conv := copyFmts f,
                scales := match f with
                  | .conv _ _ g => [g.toNat]
                  | .mx _ _ _ => (upto 0 tn).map fun i => cw.stageGet (ta + i) 1
                  | .plain => []
                table := if tn ≠ 0 && !tabStage then some (ta, tn) else none
                vals := [s.x a, s.x b, s.x c, match f with | .mx _ _ rx => s.x rx | _ => 0, 0]
                apart := true }

/-- A gather (`gath`) or scatter (R248). -/
def rowCopy (s : State) (gath : Bool) (f : RowForm) (rd a b c x y : Reg) : Out :=
  s.onCrew fun t cw =>
    let fm := match f with | .plain => none | .conv p q _ => some (p, q)
    if f ≠ .plain && s.frm?.isNone then s.illegal
    else
      let h := (s.x c).toNat
      let w := (s.x y).toNat
      let len := bits w 15 0
      let pitch := bits w 31 16
      let stride := bits w 63 32
      let ns := sideBytes (fm.map (·.1)) len
      let nd := sideBytes (fm.map (·.2)) len
      let grp := match fm with | some (p, q) => len % cfGroup p = 0 && len % cfGroup q = 0 | none => true
      let stB := if gath then nd else ns
      let stF := if gath then fm.map (·.2) else fm.map (·.1)
      let meF := if gath then fm.map (·.1) else fm.map (·.2)
      let meB := if gath then ns else nd
      let stBase := (s.x (if gath then a else b)).toNat
      let meBase := (s.x (if gath then b else a)).toNat
      let tab := (s.x x).toNat
      if h = 0 || len = 0 then s.status rd 0
      else if !(h ≤ 4096 && h * ns ≤ 0x40000 && h * nd ≤ 0x40000 && grp && stB ≤ pitch && tab % 4 = 0) then
        s.status rd (neg 3)
      else
        let stRows := (upto 0 h).map fun j => (stBase + j * pitch, stB)
        match rowsOut cw stRows, rowsOut cw [(tab, 4 * h)] with
        | some v, _ => s.raise (if gath then 7 else 5) (w64 v)
        | none, some v => s.raise 5 (w64 v)
        | none, none =>
          if cw.stageBad tab (4 * h) then s.raise 27 (w64 tab)
          else
            let idx := (upto 0 h).map fun j => cw.stageGet (tab + 4 * j) 4
            let meRow (i : Nat) : Nat × Nat := ((meBase + i * stride) % 2 ^ 64, meB)
            let al (f : Option CFmt) (a : Nat) : Bool := match f with | some f => a % cfAlign f = 0 | none => true
            let none' (i : Nat) : Bool := i = 0xFFFFFFFF
            if !(stRows.all (fun r => al stF r.1) && idx.all fun i =>
                none' i || (al meF (meRow i).1 && (meRow i).1 + meB ≤ 2 ^ 64)) then s.status rd (neg 3)
            else
              let scales := match f with | .conv _ _ g => [g.toNat] | .plain => []
              let vals := [s.x a, s.x b, s.x c, s.x x, s.x y]
              if gath then
                s.copyGo t rd
                  { dstStage := true, srcStage := false, dst := stRows, rowS := ns, rowD := nd, conv := fm, scales, vals,
                    src := idx.map fun i => if none' i then (zeroAddr, ns) else meRow i }
              else
                let both := (List.zip idx stRows).filter fun p => !none' p.1
                s.copyGo t rd
                  { dstStage := false, srcStage := true, src := both.map (·.2), dst := both.map fun p => meRow p.1,
                    rowS := ns, rowD := nd, conv := fm, scales, vals }

/-- A fill (R249). -/
def fillCopy (s : State) (dstStage : Bool) (rd a b c : Reg) : Out :=
  s.onCrew fun t cw =>
    let n := (s.x c).toNat
    let da := (s.x a).toNat
    if n = 0 then s.status rd 0
    else if !(n ≤ 0x40000 && (dstStage || da + n ≤ 2 ^ 64)) then s.status rd (neg 3)
    else
      match if dstStage then rowsOut cw [(da, n)] else none with
      | some v => s.raise 7 (w64 v)
      | none =>
        s.copyGo t rd
          { dstStage, srcStage := false, fill := true, pattern := s.x b, dst := [(da, n)], rowD := n,
            vals := [s.x a, s.x b, s.x c, 0, 0] }

end State

/-- `cp.gs`. -/
def execCopyGs (f : CopyForm) (rd a b c : Reg) (s : State) : Out := s.transfer f true false rd a b c
/-- `cp.sg`. -/
def execCopySg (f : CopyForm) (rd a b c : Reg) (s : State) : Out := s.transfer f false true rd a b c
/-- `cp.gg`. -/
def execCopyGg (f : CopyForm) (rd a b c : Reg) (s : State) : Out := s.transfer f false false rd a b c
/-- `cp.ss`. -/
def execCopySs (f : CopyForm) (rd a b c : Reg) (s : State) : Out := s.transfer f true true rd a b c
/-- `cp.gath`. -/
def execCopyGath (f : RowForm) (rd a b c x y : Reg) (s : State) : Out := s.rowCopy true f rd a b c x y
/-- `cp.scat`. -/
def execCopyScat (f : RowForm) (rd a b c x y : Reg) (s : State) : Out := s.rowCopy false f rd a b c x y
/-- `cp.fill.s`. -/
def execCopyFillS (rd a b c : Reg) (s : State) : Out := s.fillCopy true rd a b c
/-- `cp.fill.g`. -/
def execCopyFillG (rd a b c : Reg) (s : State) : Out := s.fillCopy false rd a b c

/-- `cp.seal`: not ready where it would leave more than 16 incomplete batches (R250, R252). -/
def execCpSeal (rd : Reg) (s : State) : Out :=
  s.onStrand fun t =>
    if 16 < t.batSeal.batCount then s.stall
    else (s.modCur Strand.batSeal).status rd (w64 t.openBat)

/-- `cp.wait` (R253). -/
def execCpWait (rd a : Reg) (s : State) : Out :=
  s.onStrand fun t =>
    if (s.x a).toNat < t.batCount then s.stall
    else (s.acquire.modCur fun t => { t with abandoned := false }).status rd (if t.abandoned then neg 6 else 0)

/-- `cp.stop` (R254). -/
def execCpStop (rd : Reg) (s : State) : Out :=
  s.onStrand fun t =>
    let r := s.abandonCopies t.image
    r.2.acquire.status rd (w64 r.1)

/-- COPY_DESCRIPTOR_READBACK: the strand's oldest spilled descriptor enters the queue, at its end (R237, R238); its engine goes on
owning the destination lines that it took at issue (R206). -/
def execCopyDescriptorReadback (k : Nat) (s : State) : Out :=
  .next (match s.spilledOf k with
    | [] => s
    | c :: _ =>
      if s.cpRoom c.core k then
        let own := if c.dstStage then [] else c.own.filter c.lines.contains
        let s := { s with copies := kdel (fun (x : Copy) => x.id) s.copies c.id ++ [{ c with stage := 0, desc := 0, own }] }.modStrand k
          fun t => t.setCbits cSpill 63 32 (t.cbits cSpill 63 32 + 1)
        if c.lines.isEmpty then s.copyDone c.id else s
      else s)

/-- The W-core whose queue an engine of a pod serves next, if any has a copy that has not begun (R239). -/
def State.cpNext (s : State) (pod eng : Nat) : Option Nat :=
  let turn := (s.podAt pod).cpTurn.getD eng 0
  ((upto 0 4).map fun i => 4 * pod + (turn + i) % 4).find? fun n => (s.cpQueue n).any fun c => c.stage = 0

/-- COPY_BEGIN: the next copy of a W-core's queue begins on an engine of the pod whose turn it is, with fewer than 16 in
progress (R239). -/
def execCopyBegin (core : Nat) (s : State) : Out :=
  let pod := State.podOf core
  let free (e : Nat) : Bool :=
    s.cpNext pod e = some core &&
      (s.copies.filter fun o => o.stage = 2 && State.podOf o.core = pod && o.eng = e).length < 16
  .next (match (s.cpQueue core).find? (fun c => c.stage = 0), [0, 1].find? free with
    | some c, some e =>
      { s with copies := kmod (·.id) s.copies c.id fun c => { c with stage := 2, eng := e } }.modPod pod fun p =>
        { p with cpTurn := lmod p.cpTurn e fun _ => core % 4 + 1 }
    | _, _ => s)

/-- COPY_CHUNK_WRITE. -/
def execCopyChunkWrite (id chunk : Nat) (s : State) : Out :=
  .next (match kfind (·.id) s.copies id with
    | none => s
    | some c => if s.chunkReady c chunk then s.chunkWrite c chunk else s)

end Sys2Proof.Machine
end

