-- ==== Sys2Proof/Machine/Strands.lean ====
section
/-! DEFINITION. Migration, fork, join and park instructions (03_strands_fleets.md, R62 to R91), and the operations on a
strand that they share with the dispatcher's steps: testing a condition, going home. -/

namespace Sys2Proof.Machine

namespace State

/-! ### Child slots -/

/-- Handle in child slot i. -/
def childOf (t : Strand) (i : Nat) : Word := t.cw (cChild + i)

/-- A slot of the strand is occupied. -/
def anyChild (t : Strand) : Bool := (upto 0 4).any fun i => childOf t i ≠ 0

/-- The fleet in child slot i. -/
def slotFleet (s : State) (t : Strand) (i : Nat) : Option Fleet := if childOf t i = 0 then none else s.fleet? (childOf t i)

/-- Empties slot i; the fleet record is freed. -/
def emptySlot (s : State) (t : Strand) (i : Nat) : State :=
  (s.modStrand t.image fun t => t.setCw (cChild + i) 0).dropFleet (childOf t i)

/-- What `fk.join` finds in slot i once its fleet is done, with the slot emptied; `none` while the fleet is not done
(R82). -/
def joinNow (s : State) (t : Strand) (i : Nat) : Option (State × Word) :=
  match s.slotFleet t i with
  | none => some (s.emptySlot t i, 0)
  | some f => if s.fleetDone f then some (s.emptySlot t i, if f.cancelled then neg 6 else 0) else none

/-- The fleet in every occupied slot is done (R67). -/
def childrenDone (s : State) (t : Strand) : Bool :=
  (upto 0 4).all fun i => match s.slotFleet t i with | some f => s.fleetDone f | none => true

/-- Empties every occupied slot. -/
def emptySlots (s : State) (t : Strand) : State :=
  (upto 0 4).foldl (fun s i => if childOf t i = 0 then s else s.emptySlot t i) s

/-- Depth in the fork tree of a crew's strands (R70). -/
def fdepth (s : State) (c : Crew) : Nat := match s.fleet? c.fleet with | some f => f.depth | none => 0

/-! ### Testing a condition (R82, R86, R87, R321, R348, R438) -/

/-- Status of `sg.col` on a closed group (R321). -/
def closeStatus (g : Group) : Word := if bits g.flags 2 2 = 1 then neg 8 else if bits g.flags 3 3 = 1 then neg 6 else 0

/-- Tests a condition of the strand in issue: the value for rd if it is met. A memory condition is read by an ordinary
coherent load. -/
def testCond (s : State) (t : Strand) (c : Cond) : Res (Option Word) :=
  match c with
  | .mem va _ v => (s.load (w64 va) 8).bind fun s x => .ok s (if w64 x ≠ v then some 0 else none)
  | .memGe va _ v => (s.load (w64 va) 8).bind fun s x => .ok (if v.toNat ≤ x then s.ncPoint t.core else s) (if v.toNat ≤ x then some 0 else none)
  | .bat n => .ok s (if t.batCount ≤ n then some 0 else none)
  | .tm n => .ok s (if n ≤ s.time.toNat then some 0 else none)
  | .join i =>
    match s.joinNow t i with
    | some (s, v) => .ok (s.ncPoint t.core) (some v)
    | none => .ok s none
  | .group i =>
    match s.slotFleet t i with
    | some f =>
      match f.group with
      | some g => if s.closeWritten g then .ok (s.ncPoint t.core) (some (closeStatus g)) else .ok s none
      | none => .ok s (some (neg 3))
    | none => .ok s (some (neg 3))
  | .home => if s.childrenDone t then .ok ((s.emptySlots t).ncPoint t.core) (some 0) else .ok s none

/-- The condition of a park form is tested at its issue; where it is not met the resident wait begins (R87). -/
def parkForm (s : State) (t : Strand) (rd : Reg) (c : Cond) (mem : Bool) : Out :=
  (s.testCond t c).run fun s r =>
    match r with
    | some v => s.status rd v
    | none =>
      let c := match c with
        | .mem va _ v => Cond.mem va (if mem then s.accPa else 0) v
        | .memGe va _ v => .memGe va (if mem then s.accPa else 0) v
        | _ => c
      .next (s.await (.park c rd (s.cc t.core + 16 * t.cbits cThctl 15 0)))

/-- A test of a resident wait. Poison or a fault ends the wait and traps (R438). -/
def parkTest (s : State) (k : Nat) : State :=
  match s.strand? k with
  | none => s
  | some t =>
    match t.wait with
    | .park c rd e =>
      let back (s' : State) : State := { s' with cur := s.cur }
      match { s with cur := .strand k }.testCond t c with
      | .ok s' (some v) => back (s'.finishWait k rd v)
      | .ok s' none =>
        let at' := match c with
          | .mem va _ v => Cond.mem va s'.accPa v
          | .memGe va _ v => .memGe va s'.accPa v
          | _ => c
        back (s'.modStrand k fun t => { t with wait := .park at' rd e })
      | .trap s' c v => back ((s'.dropWait k).trap c v)
      | .stall s' => back s'
    | _ => s

/-! ### Leaving for home (R67) -/

/-- Steps 3 and 4 of `mg.home`, or its end at depth 1 or more. -/
def homeEnd (s : State) (t : Strand) (c : Crew) : State :=
  let s := (s.mergeStrand t.image).drain t.image
  if c.fleet ≠ 0 then s.endStrand t.image
  else
    let s := (s.modStrand t.image fun t => { t.setCw cPc (t.cw cPc + w64 t.wlen) with wait := .none }).writeBack t.image true
    let s := match s.frame? t.image with | some f => s.notice f 1 | none => s
    s.endStrand t.image

/-- A waypoint of a strand (Table 3.11). -/
def waypoint (s : State) (t : Strand) (pc : Word) (c : Cond) (rd : Reg) : List Byte :=
  let live := t.cbits cThctl 47 16
  let regs := (upto 1 31).filter fun i => bits live i i = 1
  let (kind, addr, val) : Nat × Nat × Nat := match c with
    | .mem va _ v => (1, va, v.toNat)
    | .bat n => (2, 0, n)
    | .tm n => (3, 0, n)
    | .join i => (4, i, 0)
    | .group i => (5, i, 0)
    | .memGe va _ v => (6, va, v.toNat)
    | .home => (7, 0, 0)
  let recd := match s.crewOf t with | some c => c.recd | none => 0
  toBytes pc.toNat 8 ++ toBytes live 4 ++ toBytes (t.cbits cFcsr 7 0) 1 ++ toBytes kind 1 ++ toBytes rd.toNat 1 ++ toBytes 0 1
    ++ toBytes addr 8 ++ toBytes val 8 ++ toBytes 0 8 ++ toBytes (recd / 8192 * 8192 + t.sid) 8
    ++ toBytes t.cpbat.toNat 8 ++ toBytes (t.cw cSpill).toNat 8
    ++ (upto 0 16).flatMap fun i => match regs[i]? with | some r => toBytes (t.cw r).toNat 8 | none => toBytes 0 8

/-- What a strand keeps while parked, by image word (R87, R88). -/
def parkedCtx (t : Strand) (pc : Word) : Sparse 64 :=
  let live := t.cbits cThctl 47 16
  let keep (i : Nat) : Bool :=
    (1 ≤ i && i < 32 && bits live i i = 1) || i = cFcsr || i = cThctl || i = cCpspl || (cFid ≤ i && i ≤ cChild + 3) || i = cSpill
      || i = cTag || i = cSatp || i = cRsm || i = cSscratch || i = cWtvec || i = cWtslo || i = cWtshi
  let ctx := t.ctx.filter fun e => keep e.1
  let ctx := sset ctx cPc pc
  let ctx := sset ctx cWstatus (t.cw cWstatus &&& 0xC0001)
  sset ctx cFwd (t.cw cFwd &&& 0x30000)

/-- Context lines of the X registers among some (bit i: X[i]). -/
def liveLines (live : Nat) : List Nat := ((upto 1 31).filter fun i => bits live i i = 1).map (· / 8)

/-- The strand parks on a condition (R87); `none` while the store has no room for its waypoint (R89), or a result that it has passed
is still to come (R101). What the waypoint keeps is read then: a context line that is poisoned traps at the waiting instruction
(R55, R174). -/
def parkOn (s : State) (k : Nat) (c : Cond) (rd : Reg) : Option State :=
  let ready (ls : List Nat) (s : State) (g : State → Option State) : Option State :=
    if s.imagePoison k ls then some (s.asAgent (.strand k) fun s => ({ s with accPa := 0 }.dropWait k).trap 27 (w64 k))
    else if s.imageBusy k ls then none
    else g (s.fetchLines k ls)
  ready [8] s fun s =>
  match s.strand? k with
  | none => none
  | some t =>
  ready (liveLines (t.cbits cThctl 47 16)) s fun s =>
  match s.strand? k with
  | none => none
  | some t =>
    match (if s.owed k fun _ => true then none else s.alloc (s.crewDie t) 192 64) with
    | none => none
    | some (w, s) =>
      let pc := t.cw cPc
      let nx := pc + w64 t.wlen
      let s := s.clearMarks k
      let s := s.hwWrite t.core w (s.waypoint t nx c rd)
      let s := (s.modStrand k fun t => t.setCw cWay (w64 w)).writeBack k true
      let s := s.modStrand k fun t =>
        let ctx := parkedCtx t (if c = .home then pc else nx)
        { t with ctx := sset ctx cWay (w64 w), cond := c, crd := rd, way := w, woken := false, again := false }
      some (s.releaseSlot k .parked)

/-- `mg.home` goes on as far as it can: from its wait for children, through its wait for copies, to its end (R67). -/
def homeGo (s : State) (k : Nat) : State :=
  match s.strand? k with
  | none => s
  | some t =>
    match s.crewOf t with
    | none => s
    | some c =>
      if s.owed k fun _ => true then s.modStrand k fun t => { t with wait := .home 1 }
      else if !s.childrenDone t then
        if c.fleet ≠ 0 then
          match s.parkOn k .home 0 with
          | some s => s
          | none => s.modStrand k fun t => { t with wait := .home 1 }
        else
          let s := (s.clearMarks k).writeBack k true
          let s := s.modStrand k fun t => { t with cond := .home, crd := 0, way := 0, woken := false, again := false }
          s.releaseSlot k .parked
      else
        let s := if anyChild t then (s.emptySlots t).ncPoint t.core else s
        if t.batCount ≠ 0 then s.modStrand k fun t => { t with wait := .home 2 }
        else s.homeEnd t c

/-! ### Migration -/

/-- A pool word that keeps the limits of Table 3.5 (R64). -/
def poolWordOk (w : Word) : Bool :=
  wbits w 63 20 = 0 && wbits w 15 11 = 0 && wbits w 7 2 = 0 && wbits w 1 0 ≠ 3 && (wbits w 19 16 < 4 || wbits w 19 16 = 15)

/-- Pods of die d in the pool of a class. -/
def poolPods (s : State) (d cls : Nat) : List Nat := (upto (12 * d) 12).filter fun q => (s.podAt q).pool = cls && (s.podAt q).rcls ≠ 2

/-- The die is eligible (R65 step 4). -/
def eligible (s : State) (d cls : Nat) : Bool := s.ready d && s.storeSize d ≠ 0 && !(s.poolPods d cls).isEmpty

/-- Free strand slots of the die's pods in a pool. -/
def poolSlots (s : State) (d cls : Nat) : Nat :=
  ((s.poolPods d cls).flatMap fun q => (upto (4 * q) 4).filter s.coreOn).foldl (fun n m => n + s.freeSlots m) 0

/-- The die that step 4 of R65 chooses. -/
def chooseDie (s : State) (w : Word) : Option Nat :=
  let cls := wbits w 1 0
  let d := wbits w 19 16
  if d < 4 then (if s.eligible d cls then some d else none)
  else maxBy (fun d => s.poolSlots d cls) ((upto 0 4).filter fun d => s.eligible d cls)

/-- Highest priority that `mg.go` grants on die d. -/
def prioCap (s : State) (d : Nat) : Nat := wbits (s.reg (dieReg dispBase d 0x18)) 2 0

/-- The image that `mg.go` on L-core i writes (R65 step 7, R357); `old` gives the words that a reused image keeps. -/
def goImage (s : State) (i : Nat) (rd : Reg) (d prio cls : Nat) (tag satp : Word) (old : Option (Nat → Word)) : Sparse 64 :=
  let l := s.lcoreAt i
  let put (m : Sparse 64) (e : Nat × Word) : Sparse 64 := sset m e.1 e.2
  let m : Sparse 64 := (upto 1 63).foldl (fun m i => sset m i (if i = rd.toNat then 0 else sget l.ctx i)) []
  let td (o : Nat) : Word := s.reg (dieReg trapBase d o)
  let m := [(cPc, sget l.ctx cPc + w64 s.ilen), (cFcsr, sget l.ctx cFcsr &&& 0xFF), (cCid, w64 (2 ^ 32)),
    (cSid, w64 (prio * 2 ^ 24 + cls * 2 ^ 32)), (cTag, tag), (cSatp, satp), (cWtvec, td 0x38 &&& ~~~3),
    (cWstatus, td 0x40 &&& 0xC0001), (cWtslo, td 0x48), (cWtshi, td 0x50)].foldl put m
  match old with
  | none => sset m cThctl 0x0FFC031E0100
  | some o =>
    let m := [cThctl, cCpspl, cTstall, cChild, cChild + 1, cChild + 2, cChild + 3, cCpbat, cSpill, cRsm].foldl
      (fun m i => sset m i (o i)) m
    sset m cFwd (o cFwd &&& 0x30000)

/-- The thread of L-core i departs into image k of die d (R65 steps 6 to 9). -/
def depart (s : State) (i : Nat) (rd : Reg) (k d prio cls : Nat) (tag satp : Word) (old : Option Strand) : State :=
  let keep (t : Strand) (j : Nat) : Word := if j = cSpill then t.cw j else imageWord j (t.cw j) (s.imageMem k j)
  let ctx := s.goImage i rd d prio cls tag satp (old.map keep)
  let (n, s) := s.fresh
  let (id, s) := match old with | some t => (t.crew, s) | none => s.fresh
  let t : Strand := match old with
    | some t => { image := k, crew := id, ctx, openBat := t.openBat, bats := t.bats, abandoned := t.abandoned,
                  poisoned := t.poisoned }
    | none => { image := k, crew := id, ctx }
  let s := s.dropIbuf (.lcore i)
  let s := (s.putStrand { t with present := 0xFFFF }).putCrew
    { id, shape := 1, cls, prio, die := d, forkTime := n, save := k, live := [0], alloc := [0], hold := [0], holder := [0],
      holdCtr := [0], tstall := t.cw cTstall }
  let s := s.writeBack k true
  let s := { s with frames := kput (·.image) s.frames { image := k, die := d, tag, satp } }
  s.trap 28 (w64 k)

/-- `mg.go` on L-core i (R28, R65). -/
def goL (s : State) (i : Nat) (rd a : Reg) : Out :=
  let l := s.lcoreAt i
  let w := s.x a
  let cls := wbits w 1 0
  match l.mode with
  | .vs => s.raise 22 s.ibits
  | .vu => s.raise 22 s.ibits
  | .m => s.status rd (neg 9)
  | .hs => s.status rd (neg 9)
  | .u =>
    if !poolWordOk w then s.status rd (neg 3)
    else
      let tag := l.get 0x140
      let satp := l.get 0x180
      let go (s : State) (k d : Nat) (old : Option Strand) : Out :=
        .next ((s.drain (Agent.lcore i).tag).depart i rd k d (min (wbits w 10 8) (s.prioCap d)) cls tag satp old)
      match s.frames.find? fun f => f.recalled && !f.killed && f.tag = tag && f.satp = satp with
      | some f => go (s.mergeLines f.image 1024) f.image f.die (s.strand? f.image)
      | none =>
        match s.chooseDie w with
        | none => s.status rd (neg 1)
        | some d =>
          match s.alloc d 1024 1024 with
          | none => s.status rd (neg 1)
          | some (k, s) => go s k d none

/-- `mg.go` on a W-core: a pool change (R66). -/
def goW (s : State) (t : Strand) (c : Crew) (rd a : Reg) : Out :=
  let w := s.x a
  let cls := wbits w 1 0
  if t.sMode || c.fleet ≠ 0 || anyChild t then s.status rd (neg 9)
  else if !poolWordOk w then s.status rd (neg 3)
  else if !s.eligible c.die cls then s.status rd (neg 1)
  else if s.owed t.image fun _ => true then s.stall
  else
    match s.status rd 0 with
    | .next s =>
      let prio := min (wbits w 10 8) (s.prioCap c.die)
      let (n, s) := s.fresh
      let s := (s.clearMarks t.image).modStrand t.image fun t => (t.setCbits cSid 31 24 prio).setCbits cSid 39 32 cls
      let s := (s.writeBack t.image true).releaseSlot t.image .waiting
      .next (s.modCrew c.id fun c => { c with cls, prio, forkTime := n, cores := [], wd := 0 })
    | o => o

/-! ### Forks -/

/-- Field of `n` bytes at offset `o` of a 64-byte block. -/
def blkF (b o n : Nat) : Nat := bits b (8 * (o + n) - 1) (8 * o)

/-- Every field lies within Table 3.8 and every reserved byte is zero (R73). -/
def blockOk (b : Nat) : Bool :=
  blkF b 0 8 % 2 = 0 && 1 ≤ blkF b 8 4 && 1 ≤ blkF b 0xC 2 && blkF b 0xC 2 ≤ 6144 && blkF b 0xE 1 ≤ 2 && blkF b 0xF 1 ≤ 7
    && blkF b 0x10 4 ≤ 0xC0000 && blkF b 0x14 1 ≤ 32 && blkF b 0x15 1 ≤ 16 && blkF b 0x16 2 = 0
    && blkF b 0x18 4 % 2 = 0 && popcount (blkF b 0x18 4) 32 ≤ 16 && blkF b 0x1C 36 = 0

/-- What each child starts with, but for its own identity (R74, R357). -/
def forkSeed (t : Strand) (b : Nat) : Sparse 64 :=
  let live := blkF b 0x18 4
  let m : Sparse 64 := sset [] cPc (w64 (blkF b 0 8))
  let m := ((upto 1 31).filter fun i => bits live i i = 1).foldl (fun m i => sset m i (t.cw i)) m
  let m := [cThctl, cTag, cSatp, cSscratch, cWtvec, cWtslo, cWtshi].foldl (fun m i => sset m i (t.cw i)) m
  let m := sset m cWstatus (t.cw cWstatus &&& 0xC0001)
  let m := sset m cFwd (t.cw cFwd &&& 0x30000)
  sset m cParent (w64 t.image)

/-- Goes on with what a fork's children start with in the register cache (R55, R74). -/
def withSeed (s : State) (t : Strand) (b : Nat) (g : State → Strand → Out) : Out :=
  s.withLines t.image (8 :: liveLines (blkF b 0x18 4)) fun s => s.onStrand fun t => g s t

/-- Creates the fleet of block `b` in child slot i, its record allocated on the die of the forker's crew (R79); `none`
where the store has no room. -/
def newFleet (s : State) (t : Strand) (c : Crew) (i b : Nat) (g : Option Group) : Option (State × Word) :=
  match s.alloc c.die 64 64 with
  | none => none
  | some (r, s) =>
    let (h, s) := s.newHandle
    let (n, s) := s.fresh
    let f : Fleet :=
      { handle := h, forker := t.image, root := s.rootOf t, parent := c.fleet, die := c.die, entry := w64 (blkF b 0 8), crews := blkF b 8 4, shape := blkF b 0xC 2,
        cls := blkF b 0xE 1, prio := min (blkF b 0xF 1) c.prio, stageSize := blkF b 0x10 4, banks := blkF b 0x14 1,
        cvs := blkF b 0x15 1, depth := s.fdepth c + 1, seed := forkSeed t b, forkTime := n, recd := r, group := g }
    let s := { s with fleets := s.fleets ++ [f] }
    some (s.modStrand t.image fun t => t.setCw (cChild + i) h, h)

/-- A slot operand names a child slot whose handle `g` takes; -3 otherwise (R83). -/
def onSlot (s : State) (rd a : Reg) (g : Strand → Nat → Out) : Out :=
  s.onStrand fun t =>
    if t.sMode then s.status rd (neg 9)
    else if 3 < (s.x a).toNat || childOf t (s.x a).toNat = 0 then s.status rd (neg 3)
    else g t (s.x a).toNat

end State

/-- `mg.go` (R63 to R66). -/
def execMgGo (rd a : Reg) (s : State) : Out :=
  s.onAny (match s.cur with
    | .lcore i => s.goL i rd a
    | .strand _ => s.onCrew fun t c => s.goW t c rd a)

/-- `mg.home` (R67). -/
def execMgHome (s : State) : Out :=
  s.onStrand fun t =>
    if t.sMode then s.illegal
    else .next ((s.modStrand t.image fun t => { t with wlen := s.ilen }).homeGo t.image)

/-- `fk.flt` (R79). -/
def execFkFlt (rd a b : Reg) (s : State) : Out :=
  s.onCrew fun t c =>
    let i := (s.x b).toNat
    if t.sMode || !t.leader then s.status rd (neg 9)
    else if 3 < i then s.status rd (neg 3)
    else if State.childOf t i ≠ 0 then s.status rd (neg 1)
    else if s.fdepth c = 10 then s.status rd (neg 2)
    else if (s.x a).toNat % 64 ≠ 0 then s.status rd (neg 3)
    else
      (s.load (s.x a) 64).run fun s blk =>
        if !State.blockOk blk then s.status rd (neg 3)
        else
          s.withSeed t blk fun s t =>
            match s.release.newFleet t c i blk none with
            | none => s.status rd (neg 1)
            | some (s, _) => s.status rd 0

/-- `fk.join` (R82). -/
def execFkJoin (rd a : Reg) (s : State) : Out := s.onSlot rd a fun t i => s.parkForm t rd (.join i) false

/-- `fk.join.try` (R82). -/
def execFkJoinTry (rd a : Reg) (s : State) : Out :=
  s.onSlot rd a fun t i =>
    match s.joinNow t i with
    | some (s, v) => s.acquire.status rd v
    | none => s.status rd (neg 8)

/-- `fk.stop` (R83). -/
def execFkStop (rd a : Reg) (s : State) : Out :=
  s.onSlot rd a fun t i => (s.stopFleet (State.childOf t i)).status rd 0

/-- A re-test of a parked strand's watch (R89, R438). -/
def State.retest (s : State) (t : Strand) (line : Nat) : Strand :=
  let hit (pa : Nat) (b : Bool) : Strand :=
    if lineOf pa ≠ line || t.again then t
    else if s.poison.contains line then { t.setCw cPc (t.cw cPc - w64 t.wlen) with again := true }
    else if b then { t with woken := true } else t
  if t.status ≠ .parked then t
  else
    match t.cond with
    | .mem _ pa v => hit pa (w64 (s.peek 4 pa 8) ≠ v)
    | .memGe _ pa v => hit pa (v.toNat ≤ s.peek 4 pa 8)
    | _ => t

/-- A watch that fired while its fleet was in state 5 is tested again (R83, Table 3.13, R438). -/
def State.retestWoken (s : State) (t : Strand) : Strand :=
  match t.cond with
  | .mem _ pa _ => if t.woken then s.retest { t with woken := false } (lineOf pa) else t
  | .memGe _ pa _ => if t.woken then s.retest { t with woken := false } (lineOf pa) else t
  | _ => t

/-- A fleet is to be pre-empted: its crews are one by one, and it is in state 5 until it is resumed (R83). -/
def State.suspendFleet (s : State) (h : Word) : State :=
  match s.fleet? h with
  | some f =>
    if s.fleetDone f then s
    else
      let s := s.modFleet h fun f => { f with pre := true }
      { s with crews := s.crews.map fun c => if h ≠ 0 && c.fleet = h && !c.cores.isEmpty && c.pre % 3 = 0 then { c with toPre := true } else c }
  | none => s

/-- Parked strands are looked at anew by `f`; where the wait is to begin again, the resume PC of the waypoint, at offset 0, becomes the
address of the waiting instruction (R381, R438). -/
def State.rewatch (s : State) (f : Strand → Strand) : State :=
  s.strands.foldl (fun s t =>
    let u := f t
    let s := s.modStrand t.image f
    if u.again && !t.again && t.way ≠ 0 then s.hwWrite t.core t.way (toBytes (u.cw cPc).toNat 8) else s) s

/-- A fleet in state 5 is a candidate again; a pre-emption that was asked for before still comes (R83). -/
def State.resumeFleet (s : State) (h : Word) : State :=
  match s.fleet? h with
  | some f =>
    if f.pre && !s.fleetDone f then
      let s := (s.mergeWhere fun _ => true).modFleet h fun f => { f with pre := false }
      let ids := (s.crewsOf h).map (·.id)
      s.rewatch fun t => if ids.contains t.crew then s.retestWoken t else t
    else s
  | none => s

/-- `fk.stop.pre`: the fleet and every fleet descending from it are to be pre-empted (R83). -/
def execFkStopPre (rd a : Reg) (s : State) : Out :=
  s.onSlot rd a fun t i => ((s.descend [State.childOf t i] 12).foldl (fun s h => s.suspendFleet h) s).status rd 0

/-- `fk.stop.rsm`: fleets in state 5 are candidates again; a condition that fired meanwhile is tested again (R83, Table
3.13). -/
def execFkStopRsm (rd a : Reg) (s : State) : Out :=
  s.onSlot rd a fun t i => ((s.descend [State.childOf t i] 12).foldl (fun s h => s.resumeFleet h) s).status rd 0

/-- What `fk.qry` code `q` reads of a fleet (Table 3.10). -/
def fleetQuery (s : State) (f : Fleet) (q : Nat) : Word :=
  match q with
  | 0 => w64 (s.slotCode f.handle)
  | 1 => w64 f.placed
  | 2 => w64 f.completed
  | 3 => w64 ((s.crewsOf f.handle).filter fun c => c.pre ≤ 1 && !c.cores.isEmpty).length
  | _ => f.handle

/-- `fk.qry` (R84). -/
def execFkQry (rd a b : Reg) (s : State) : Out :=
  s.onStrand fun t =>
    if t.sMode then s.status rd (neg 9)
    else if 4 < (s.x b).toNat || 3 < (s.x a).toNat then s.status rd (neg 3)
    else
      match s.slotFleet t (s.x a).toNat with
      | none => s.status rd 0
      | some f => s.status rd (fleetQuery s f (s.x b).toNat)

/-- `th.park.mem` (R86, R87, R199). -/
def execThParkMem (rd a b : Reg) (s : State) : Out :=
  s.onStrand fun t =>
    if t.sMode then s.status rd (neg 9)
    else if (s.x a).toNat % 8 ≠ 0 then s.raise 4 (s.x a)
    else s.parkForm t rd (.mem (s.x a).toNat 0 (s.x b)) true

/-- `th.park.bat`. -/
def execThParkBat (rd a : Reg) (s : State) : Out :=
  s.onStrand fun t =>
    if t.sMode then s.status rd (neg 9) else s.parkForm t rd (.bat (s.x a).toNat) false

/-- `th.park.tm`. -/
def execThParkTm (rd a : Reg) (s : State) : Out :=
  s.onStrand fun t =>
    if t.sMode then s.status rd (neg 9) else s.parkForm t rd (.tm (s.x a).toNat) false

/-- Pass count of a pod (R402). -/
def passes (p : PodState) : Nat := match p.passcnt with | 0 => 1 | 1 => 2 | _ => 4

/-- Not ready for the next 16 issue cycles of the quadrant (R91, R97). -/
def State.yield (s : State) (t : Strand) : Out :=
  .next (s.await (.pause (s.cc t.core + 16 * passes (s.podAt (State.podOf t.core)))))

/-- `th.yield` (R91). -/
def execThYield (s : State) : Out :=
  s.onStrand fun t => if t.sMode then s.status 0 (neg 9) else s.yield t

/-- `th.pause` (R91). -/
def execThPause (imm : BitVec 9) (s : State) : Out :=
  s.onStrand fun t =>
    if imm.toNat = 0 || 256 ≤ imm.toNat then s.next
    else .next (s.await (.pause (s.cc t.core + 16 * imm.toNat)))

end Sys2Proof.Machine
end

