-- ==== Sys2Proof/Machine/Preempt.lean ====
section
/-! DEFINITION. Pre-emption of a crew, its save and its restore (R389, R390, R413), recall of a thread (R68, R371). -/

namespace Sys2Proof.Machine

namespace State

/-- Waits that have to end before their strand leaves its slot (R308, R328). -/
def mustFinish : Wait → Bool
  | .engine _ _ => true
  | .group _ _ => true
  | _ => false

/-- A strand whose instruction has to end before it leaves: such a wait, or a barrier whose phase has closed completed and is
to be released (R122, R128). -/
def mustEnd (s : State) (t : Strand) : Bool :=
  mustFinish t.wait || match t.wait with
    | .barrier n p _ _ => (match s.crewOf t with | some c => (c.cvGet n).phase ≠ p | none => false)
    | _ => false

/-- Something has to end before a strand leaves: its instruction, or a result that it has passed (R101). -/
def finishing (s : State) (t : Strand) : Bool := s.mustEnd t || s.owed t.image fun _ => true

/-- Ends the wait of a resident strand that leaves its instruction: a Zawrs wait counts as retired (R106), what has to end goes
on (R122, R308, R328), every other instruction counts as not begun (R92). -/
def leaveWait (s : State) (t : Strand) : State :=
  if s.mustEnd t then s
  else
    match t.wait with
    | .none => s
    | .wrs _ => s.finishWith t.image id
    | _ => s.dropWait t.image

/-- Steps 1 to 3 of R389: the crew's strands stop, its signatures are cancelled, its reductions merge, its holds end. -/
def preemptStart (s : State) (i : Nat) : State :=
  match s.crew? i with
  | none => s
  | some c =>
    if c.pre ≠ 0 || c.cores.isEmpty || c.stopping then s
    else
      let s := s.cancelCrew c
      let mine := s.strands.filter fun t => t.crew = i && t.status = .resident
      let s := mine.foldl (fun s t =>
        let s := (s.clearMarks t.image).leaveWait t
        let s := (s.mergeStrand t.image).endHold t.image
        s.modStrand t.image fun t => { t with resv := none }) s
      s.modCrew i fun c => { c with pre := 1, toPre := false }

/-- A pre-emption by the dispatcher: the crews of the fleet with higher indices go first, highest first (R78). -/
def preemptFrom (s : State) (c : Crew) : State :=
  let above := s.crews.filter fun x => c.fleet ≠ 0 && x.fleet = c.fleet && c.cid < x.cid
  ((sortBy (fun (a b : Crew) => b.cid ≤ a.cid) above).foldl (fun s x => s.preemptStart x.id) s).preemptStart c.id

/-- Start of the part of crew W-core v in the save area (R388). -/
def savePart (c : Crew) (v : Nat) : Nat := c.save + 1024 * c.shape + v * (c.stageSize + 16384 * c.banks)

/-- Marks the lines of `n` bytes poisoned. -/
def addPoison (s : State) (pa n : Nat) : State := { s with poison := (linesOf pa n).foldl insSorted s.poison }

/-- Memory address of an accumulator element in the save area. -/
def accHome (c : Crew) (key : Nat) : Nat :=
  let v := key / 2 ^ 17
  savePart c v + c.stageSize + 16384 * (key / 4096 % 32) + 512 * (key / 128 % 32) + 4 * (key % 128)

/-- Writes stage memory and accumulators to the save area, marks and failed elements as poisoned lines (R389 step 5). -/
def saveOut (s : State) (c : Crew) : State :=
  let s := (upto 0 c.k).foldl (fun s v =>
    let s := s.hwWrite Config.numCores (savePart c v) (byteList c.stage (v * 2 ^ 20) c.stageSize)
    (upto 0 c.banks).foldl (fun s b =>
      s.hwWrite Config.numCores (savePart c v + c.stageSize + 16384 * b)
        ((upto 0 4096).flatMap fun e => toBytes (c.accGet ((v * 32 + b) * 4096 + e)) 4)) s) s
  let s := c.rowPoison.foldl (fun s r =>
    let o := 64 * r % 2 ^ 20
    if o < c.stageSize then s.addPoison (savePart c (64 * r / 2 ^ 20) + o) (min 64 (c.stageSize - o)) else s) s
  (c.accFail.filter fun k => k / 4096 % 32 < c.banks).foldl (fun s k => s.addPoison (accHome c k) 4) s

/-- The crew with its stage memory and accumulators read back from the save area (R390). -/
def saveIn (s : State) (c : Crew) : Crew :=
  let get (pa n : Nat) : Nat := s.hwPeek pa n
  let stage := (upto 0 c.k).foldl (fun m v => bytesSet m (v * 2 ^ 20) (get (savePart c v) c.stageSize) c.stageSize) []
  let keys := (upto 0 c.k).flatMap fun v => upto (v * 131072) (c.banks * 4096)
  let rows := (upto 0 c.k).flatMap fun v => (upto 0 ((c.stageSize + 63) / 64)).map fun i => v * 16384 + i
  { c with
    stage
    acc := keys.foldl (fun m k => sset m k (BitVec.ofNat 32 (get (accHome c k) 4))) []
    rowPoison := rows.filter fun r =>
      s.poisonAt (savePart c (64 * r / 2 ^ 20) + 64 * r % 2 ^ 20) (min 64 (c.stageSize - 64 * r % 2 ^ 20))
    accFail := keys.filter fun k => s.poisonAt (accHome c k) 4 }

/-- `rsmcnt` of a strand increments, modulo 2^32 (Table 3.7); where its line is absent and poisoned the strand will trap. -/
def bumpRsm (s : State) (k : Nat) : State :=
  if s.imagePoison k [10] then s
  else (s.fetchLine k 10).modStrand k fun t => t.setCbits cRsm 31 0 (t.cbits cRsm 31 0 + 1)

/-- A strand takes a slot of its crew's pod if there is one (R77, R93). -/
def seatStrand (s : State) (c : Crew) (t : Strand) : Option State :=
  (s.resumeCore c t.cwc).map fun n => s.takeSlot t.image n (s.bestQuad n)

/-! ### Recall (R68) -/

/-- The thread of a frame leaves the W-side: its image is written, and unless it was killed a notice of kind 2 is to be posted,
which makes it recalled (R59). A killed thread's strand ceases to exist (R61). -/
def recallNow (s : State) (k : Nat) : State :=
  match s.strand? k with
  | none => s
  | some t =>
    match s.crewOf t, s.frame? k with
    | some c, some f =>
      let s := s.clearMarks k
      let s := s.cancelStrand t 2
      let s := s.leaveWait t
      let parked : Bool := t.status = .parked
      let s := if t.way = 0 then s else s.free t.way
      let s := s.modStrand k fun t =>
        let u := if parked && t.cond ≠ .home && !t.again then t.setCw cPc (t.cw cPc - w64 t.wlen) else t
        if t.way = 0 then u else { u.setCw cWay 0 with present := 0xFFFF }
      let s := if t.yielded = 0 then s else (s.giveX k t.yielded 0).modStrand k fun t => { t with yielded := 0 }
      let s := s.writeBack k true
      let s := s.releaseSlot k .waiting
      let s := if c.recd = 0 then s else s.free c.recd
      let s := s.modCrew c.id fun c => { c with cores := [], pre := 0, heldBack := true, recd := 0, wd := 0 }
      let s := s.modStrand k fun t => { t with pendRecall := false, way := 0, again := false, woken := false }
      if f.killed then s.stopStrand k else s.notice f 2
    | _, _ => s

/-- A recall that reaches the thread takes effect at once where its strand holds no slot and is at depth 0 (Table 3.6);
otherwise it is pending (R371). -/
def recallThread (s : State) (k : Nat) : State :=
  match s.strand? k with
  | none => s
  | some t =>
    if t.status = .resident || t.status = .forwarded || t.depth ≠ 0 then s.modStrand k fun t => { t with pendRecall := true }
    else s.recallNow k

/-- The thread's strand can be recalled now: at an instruction boundary at depth 0 (R371); a debug-stopped strand once it is resumed,
for Tables 3.6 and 14.14 do not say (DESIGN CHOICE, log 89). -/
def recallDue (s : State) (t : Strand) : Bool :=
  t.pendRecall && t.status ≠ .forwarded && t.depth = 0 && !t.stopped &&
    !s.finishing t && match s.crewOf t with | some c => c.pre ≠ 1 | none => false

/-! ### Withdrawal (R413) -/

/-- A crew that holds its W-cores and is not being pre-empted. -/
def inPlace (c : Crew) : Bool := c.pre = 0 && !c.cores.isEmpty && !c.stopping

/-- Withdraws a crew and with it every resident crew of its fleet with a higher index. -/
def withdraw (s : State) (c : Crew) (cause grace : Nat) : State :=
  let hit (x : Crew) : Bool := inPlace x && (x.id = c.id || (c.fleet ≠ 0 && x.fleet = c.fleet && c.cid < x.cid))
  let e := s.time.toNat + 1000 * grace
  { s with crews := s.crews.map fun x =>
      if hit x then { x with wd := cause, wdEnd := if x.wd = 0 then e else min x.wdEnd e } else x }

/-- The crews on a pod. -/
def podCrews (s : State) (q : Nat) : List Crew := s.crews.filter fun c => c.cores.any fun n => podOf n = q

/-- Withdraws every crew on a pod. -/
def withdrawPod (s : State) (q cause grace : Nat) : State :=
  ((s.podCrews q).filter inPlace).foldl (fun s c => s.withdraw c cause grace) s

/-- WDGRACE.grace. -/
def grace (s : State) : Nat := wbits (s.reg (powerBase + 0x18)) 13 0

end State

/-- CREW_PREEMPT: a crew that `fk.stop.pre` has reached stops, also where `fk.stop.rsm` has come since (R83, R389). -/
def execCrewPreempt (crew : Nat) (s : State) : Out :=
  .next (match s.crew? crew with
    | some c => if c.toPre then s.preemptStart crew else s
    | none => s)

/-- WITHDRAWAL_GRACE_EXPIRY (R413). -/
def execWithdrawalGraceExpiry (crew : Nat) (s : State) : Out :=
  .next (match s.crew? crew with
    | some c => if c.wd ≠ 0 && c.wdEnd ≤ s.time.toNat then s.preemptFrom c else s
    | none => s)

/-- CREW_SAVE_COMPLETE: of a crew that `fk.stop` has reached nothing is saved (R420); else, once entries and stage copies are done, the save is written, the slots are released and
the lines stay in the register cache, evictable (R56, R389 steps 4 to 7). -/
def execCrewSaveComplete (crew : Nat) (s : State) : Out :=
  .next (match s.crew? crew with
    | none => s
    | some c =>
      let busy : Bool := s.engine.any (fun e => e.crew = crew)
        || s.copies.any (fun x => x.crew = crew && (x.dstStage || x.srcStage))
        || s.strands.any (fun t => t.crew = crew && s.finishing t)
        || (c.fleet ≠ 0 && s.hwBusy c.save (State.saveBytes c))
      if c.pre ≠ 1 || c.stopping || busy then s
      else
        let s := if c.fleet = 0 then s else s.saveOut c
        let mine := s.strands.filter fun t => t.crew = crew && t.status = .resident
        let s := mine.foldl (fun s t => s.releaseSlot t.image .preempted) s
        let s := s.modCrew crew fun c =>
          { c with pre := 2, cores := [], stage := [], acc := [], rowPoison := [], accFail := [], wd := 0 }
        mine.foldl (fun s t =>
          match s.strand? t.image with | some t => if s.recallDue t then s.recallNow t.image else s | none => s) s)

/-- CREW_RESTORE: the crew has its W-cores again; its state is read back and its strands take slots (R390), after those of every crew
of its fleet with a lower index (R78). -/
def execCrewRestore (crew : Nat) (s : State) : Out :=
  .next (match s.crew? crew with
    | none => s
    | some c =>
      let later : Bool := s.crews.any fun x => c.fleet ≠ 0 && x.fleet = c.fleet && x.cid < c.cid && x.pre ≠ 0
      if c.pre ≠ 3 || later || c.cores.any (fun n => (s.podAt (State.podOf n)).halted) then s
      else
        let s := s.mergeLines c.save (State.saveBytes c)
        let s := s.putCrew { (if c.fleet = 0 then c else s.saveIn c) with pre := 0 }
        (s.strands.filter fun t => t.crew = crew && t.status = .preempted).foldl (fun s t =>
          match s.seatStrand c t with
          | some s => s.bumpRsm t.image
          | none => (s.bumpRsm t.image).modStrand t.image fun t => { t with status := .waiting }) s)

end Sys2Proof.Machine
end

