-- ==== Sys2Proof/Machine/Uses.lean ====
section
/-! DEFINITION. The registers and context lines that an instruction reads or writes: what the scoreboard holds it for (R94,
R101, R144) and what the register cache fetches for it (R55). -/

namespace Sys2Proof

open Machine

/-- The numbers of registers at a scoreboard: X[r] is r, F[r] is 32 + r; x0 is none. -/
def Machine.xr (l : List Reg) : List Nat := (l.map (·.toNat)).filter (· ≠ 0)

/-- The same of floating-point registers. -/
def Machine.fr (l : List Reg) : List Nat := l.map fun r => 32 + r.toNat

/-- Registers of a standard integer instruction. -/
def AluForm.regs : AluForm → List Nat
  | .rr _ rd a b => xr [rd, a, b]
  | .ri _ rd a _ => xr [rd, a]
  | .un _ rd a => xr [rd, a]
  | .lui rd _ => xr [rd]
  | .auipc rd _ => xr [rd]
  | .mopr _ rd a => xr [rd, a]
  | .moprr _ rd a b => xr [rd, a, b]
  | .cmop _ => []

/-- Registers of a standard floating-point instruction. -/
def FpForm.regs : FpForm → List Nat
  | .bin _ _ _ rd a b => fr [rd, a, b]
  | .sqrt _ _ rd a => fr [rd, a]
  | .fma _ _ _ rd a b c => fr [rd, a, b, c]
  | .sgnj _ _ rd a b => fr [rd, a, b]
  | .minmax _ _ rd a b => fr [rd, a, b]
  | .cmp _ _ rd a b => xr [rd] ++ fr [a, b]
  | .cls _ rd a => xr [rd] ++ fr [a]
  | .toInt _ _ _ rd a => xr [rd] ++ fr [a]
  | .ofInt _ _ _ rd a => fr [rd] ++ xr [a]
  | .cvt _ _ rd a => fr [rd, a]
  | .mv k rd a =>
    match k with
    | .xh | .xw | .xd => xr [rd] ++ fr [a]
    | .hx | .wx | .dx => fr [rd] ++ xr [a]

/-- Registers of a branch or jump. -/
def BranchForm.regs : BranchForm → List Nat
  | .br _ a b _ => xr [a, b]
  | .jal rd _ => xr [rd]
  | .jalr rd a _ => xr [rd, a]

/-- Registers of a transfer besides rd and its three operands. -/
def CopyForm.regs : CopyForm → List Nat
  | .plain => []
  | .conv _ _ _ => []
  | .mx _ _ rx => xr [rx]

/-- The register holds a floating-point value. -/
def LoadKind.isF : LoadKind → Bool
  | .flh | .flw | .fld => true
  | _ => false

/-- The same of a store. -/
def StoreKind.isF : StoreKind → Bool
  | .fsh | .fsw | .fsd => true
  | _ => false

/-- Registers that an instruction reads or writes. The hardware's own steps use none. -/
def Instr.regs : Instr → List Nat
  | .mgGo rd a | .fkJoin rd a | .fkJoinTry rd a | .fkStop rd a | .fkStopPre rd a | .fkStopRsm rd a | .thParkBat rd a
  | .thParkTm rd a | .sgCol rd a | .clPost rd a | .clRing rd a | .clQry rd a | .pwQry rd a | .pwWind rd a | .cpWait rd a
  | .amRd rd a => xr [rd, a]
  | .fkFlt rd a b | .fkQry rd a b | .thParkMem rd a b | .sgFork rd a b | .sgCxl rd a b | .sgExt rd a b | .sgQry rd a b
  | .clPut rd a b | .clGet rd a b | .clSig rd a b | .clWait rd a b | .clWaitTry rd a b | .syRec rd a b | .syTlbsd rd a b
  | .amGet rd a b | .amRel rd a b | .epLoad rd a b => xr [rd, a, b]
  | .mgHome | .thYield | .thPause _ | .fnNc | .fnScoped _ _ _ | .fence _ _ _ | .fenceI | .wrsNto | .wrsSto | .ecall | .ebreak
  | .wfi | .sret => []
  | .sgLeave rd | .pwYld rd | .syPark rd | .syEnd rd | .syDbg rd | .cpSeal rd | .cpStop rd => xr [rd]
  | .sgRwd rd a => xr [rd] ++ fr [a]
  | .cvJoin rd _ | .cvJoinCrew rd _ | .cvQuit rd _ | .cvBar rd _ | .cvBarRx rd _ | .cvArv rd _ | .cvArvRx rd _ => xr [rd]
  | .cvWt rd a _ | .cvWtTry rd a _ | .cvQry rd a _ => xr [rd, a]
  | .gpShflIdx rd a b _ | .gpShflXor rd a b _ | .gpShflUp rd a b _ | .gpShflDn rd a b _ | .gpBcst rd a b _ => xr [rd, a, b]
  | .gpAll rd a _ | .gpAny rd a _ | .gpUni rd a _ | .gpBlt rd a _ | .gpPcnt rd a _ | .gpMtchLdr rd a _ | .gpMtchCnt rd a _
  | .gpRed _ rd a _ | .gpScan _ rd a _ | .gpXscan _ rd a _ => xr [rd, a]
  | .gpRedAddF _ rd a _ | .gpRedMinF _ rd a _ | .gpRedMaxF _ rd a _ | .gpScanAddF _ rd a _ | .gpXscanAddF _ rd a _ => fr [rd, a]
  | .fxLi rd _ | .fxLiu rd _ | .fxLih rd _ | .fxAddl rd _ | .fxAndl rd _ | .fxOrl rd _ | .fxXorl rd _ | .fxAuipcl rd _ => xr [rd]
  | .fxLis rd _ | .fxLid rd _ => fr [rd]
  | .fxAdds _ rd a b | .fxSubs _ rd a b | .fxDot _ rd a b => xr [rd, a, b]
  | .fxCvtBf16F64 rd a | .fxCvtF64Bf16 rd a | .fxCvtBf16F16 rd a | .fxCvtF16Bf16 rd a | .fxUpkLo rd a | .fxUpkHi rd a
  | .fxExp2F32 rd a | .fxLog2F32 rd a | .fxRcpF32 rd a | .fxRsqrtF32 rd a | .fxSinpiF32 rd a | .fxCospiF32 rd a
  | .fxTanhF32 rd a | .fxSigmF32 rd a | .fxScliF32 rd a _ | .fxScliF64 rd a _ => fr [rd, a]
  | .fxPkBf16 rd a b | .fxPaddBf16 rd a b | .fxPsubBf16 rd a b | .fxPmulBf16 rd a b | .fxPfmaBf16 rd a b
  | .fxPdotF32Bf16 rd a b => fr [rd, a, b]
  | .fxXp _ rd a b => fr [rd] ++ xr [a, b]
  | .fxNr _ rd a b => xr [rd, b] ++ fr [a]
  | .fxSclF32 rd a b | .fxSclF64 rd a b => fr [rd, a] ++ xr [b]
  | .fxXpnF32 rd a | .fxXpnF64 rd a => xr [rd] ++ fr [a]
  | .fxSrari rd a _ | .fxSati rd a _ | .fxSatni rd a _ => xr [rd, a]
  | .ldNc _ rd a _ | .ldBp _ rd a _ | .sl _ rd a _ => xr [rd, a]
  | .stBp _ a b _ | .ss _ a b _ => xr [a, b]
  | .fnPfL1 a | .fnPfLlc a | .fnPfW a => xr [a]
  | .amoOp _ _ _ _ _ rd a | .amoLd _ _ _ rd a | .amoSt _ _ _ rd a | .amoTick _ _ rd a | .lr _ _ _ rd a => xr [rd, a]
  | .amoCas _ _ _ _ rd a | .amoDraw _ _ _ rd a => xr [rd, rd + 1, a]
  | .red _ _ _ a b | .amZero a b | .sfenceVma a b => xr [a, b]
  | .copyGs f rd a b c | .copySg f rd a b c | .copyGg f rd a b c | .copySs f rd a b c => xr [rd, a, b, c] ++ f.regs
  | .copyGath _ rd a b c x y | .copyScat _ rd a b c x y => xr [rd, a, b, c, x, y]
  | .copyFillS rd a b c | .copyFillG rd a b c => xr [rd, a, b, c]
  | .mxMma x | .mxGmma x | .mxPmma x => xr [x.rd, x.a, x.b, x.p, x.x]
  | .mxTake rd a _ | .mxPassTk rd a _ => xr [rd, a]
  | .mxPass rd a b _ => xr [rd, a, b]
  | .mxTakeTk rd a b c _ => xr [rd, a, b, c]
  | .epRun rd a b c x => xr [rd, a, b, c, x]
  | .mxDrn x | .mxDrnZ x => xr [x.rd, x.acc, x.b0, x.b1, x.x]
  | .load k rd a _ => (if k.isF then fr [rd] else xr [rd]) ++ xr [a]
  | .store k a b _ => xr [a] ++ if k.isF then fr [b] else xr [b]
  | .standardAlu f => f.regs
  | .standardFp f => f.regs
  | .branchJump f => f.regs
  | .sc _ _ _ rd a b | .standardAmo _ _ _ _ rd a b => xr [rd, a, b]
  | .amocas cw _ _ rd a b => xr ([rd, a, b] ++ match cw with | .q => [rd + 1, b + 1] | .d => [] | .w => [])
  | .csrAccess _ imm rd src _ => if imm then xr [rd] else xr [rd, src]
  | _ => []

/-- The instruction counts among the register-targeting loads of its strand: loads and returning atomics (R101, R230). -/
def Instr.isLoad : Instr → Bool
  | .load _ _ _ _ | .ldNc _ _ _ _ | .ldBp _ _ _ _ | .sl _ _ _ _ => true
  | .amoOp _ _ _ _ _ rd _ | .amoCas _ _ _ _ rd _ | .amoLd _ _ _ rd _ | .amoDraw _ _ _ rd _ | .amoTick _ _ rd _
  | .lr _ _ _ rd _ | .standardAmo _ _ _ _ rd _ _ | .amocas _ _ _ rd _ _ => rd ≠ 0
  | _ => false

/-- Context lines that every instruction touches: PC, identity and privilege, `satp`, `wstatus`, debug control (R54). -/
def Machine.baseLines : List Nat := [0, 9, 10, 12, 14]

/-- What a form touches of a context image besides its registers: the line of `fcsr`, `thctl`, `fxsat` and `cpspl`, or that of the
depth saves. What parking keeps and what a fork copies are fetched then. -/
inductive Machine.Extra | none | line8 | saves
  deriving DecidableEq, Repr

/-- A CSR that stands in the line of `fcsr`: it, its fields, `tstall`, `thctl`, `fxsat` and `cpspl` (Table 3.1). -/
def Machine.csrLine8 (n : Nat) : Bool := [1, 2, 3, 0xCC7, 0x800, 0x810, 0x820].contains n

/-- A standard floating-point form that reads the rounding mode or accrues flags. -/
def FpForm.usesFcsr : FpForm → Bool
  | .mv _ _ _ | .sgnj _ _ _ _ _ | .cls _ _ _ => false
  | .bin _ _ _ _ _ _ | .sqrt _ _ _ _ | .fma _ _ _ _ _ _ _ | .minmax _ _ _ _ _ | .cmp _ _ _ _ _ | .toInt _ _ _ _ _
  | .ofInt _ _ _ _ _ | .cvt _ _ _ _ => true

/-- Which of these an instruction touches. -/
def Instr.extra : Instr → Machine.Extra
  | .csrAccess _ _ _ _ n => if Machine.csrLine8 n.toNat then .line8 else .none
  | .thParkMem _ _ _ | .thParkBat _ _ | .thParkTm _ _ | .fkJoin _ _ | .sgCol _ _ | .clWait _ _ _ => .line8
  | .copyGs _ _ _ _ _ | .copySg _ _ _ _ _ | .copyGg _ _ _ _ _ | .copySs _ _ _ _ _ | .copyGath _ _ _ _ _ _ _
  | .copyScat _ _ _ _ _ _ _ | .copyFillS _ _ _ _ | .copyFillG _ _ _ _ => .line8
  | .standardFp f => if f.usesFcsr then .line8 else .none
  | .fxAdds _ _ _ _ | .fxSubs _ _ _ _ | .fxDot _ _ _ _ | .fxSrari _ _ _ | .fxSati _ _ _ | .fxSatni _ _ _
  | .fxCvtBf16F64 _ _ | .fxCvtF64Bf16 _ _ | .fxCvtBf16F16 _ _ | .fxCvtF16Bf16 _ _ | .fxPkBf16 _ _ _ | .fxUpkLo _ _
  | .fxUpkHi _ _ | .fxPaddBf16 _ _ _ | .fxPsubBf16 _ _ _ | .fxPmulBf16 _ _ _ | .fxPfmaBf16 _ _ _ | .fxPdotF32Bf16 _ _ _
  | .fxXp _ _ _ _ | .fxNr _ _ _ _ | .fxSclF32 _ _ _ | .fxSclF64 _ _ _ | .fxXpnF32 _ _ | .fxXpnF64 _ _ | .fxExp2F32 _ _
  | .fxLog2F32 _ _ | .fxRcpF32 _ _ | .fxRsqrtF32 _ _ | .fxSinpiF32 _ _ | .fxCospiF32 _ _ | .fxTanhF32 _ _ | .fxSigmF32 _ _
  | .fxScliF32 _ _ _ | .fxScliF64 _ _ _ | .gpRedAddF _ _ _ _ | .gpRedMinF _ _ _ _ | .gpRedMaxF _ _ _ _ | .gpScanAddF _ _ _ _
  | .gpXscanAddF _ _ _ _ => .line8
  | .sret => .saves
  | _ => .none

/-- Context lines that an instruction of a strand at depth `d` reads or writes (R54, R55); a trap at depth 1 or 2 saves to line
13 (R362). -/
def Instr.lines (i : Instr) (d : Nat) : List Nat :=
  let l := baseLines ++ (if d = 0 then [] else [13]) ++ i.regs.map (· / 8)
  match i.extra with
  | .none => l
  | .line8 => 8 :: l
  | .saves => 13 :: l

end Sys2Proof
end

