-- ==== Sys2Proof/Machine/Steps.lean ====
section
/-! DEFINITION. The steps of the issue logic and of the dispatchers on strands: tests, parking, resumption, placement,
notices, recall, kill (R55, R59 to R61, R76, R77, R87 to R89, R96, R101, R369, R438). A step that is not enabled changes
nothing. -/

namespace Sys2Proof.Machine

namespace State

/-! ### Resumption (R77, R87, R369) -/

/-- The crew may have strands resumed: it holds its W-cores, and neither its fleet nor its pod is held (R83, R397). -/
def mayResume (s : State) (c : Crew) : Bool :=
  inPlace c && (match s.fleet? c.fleet with | some f => !f.pre | none => true)
    && c.cores.all fun n => !(s.podAt (podOf n)).halted

/-- A crew of one may resume on another pod of its pool on its die (R77). -/
def moveOne (s : State) (c : Crew) : Option (State × Crew) :=
  if c.shape ≠ 1 || s.engine.any (fun e => e.crew = c.id) then none
  else (s.seatFirst c ((s.poolOrder c).filter fun q => q / 12 = c.die)).map fun r => (r.1.putCrew r.2.1, r.2.1)

/-- The strand takes a slot to resume. -/
def resumeSlot (s : State) (c : Crew) (t : Strand) : Option State :=
  match s.seatStrand c t with
  | some s => some s
  | none =>
    match s.moveOne c with
    | some (s, c) => s.seatStrand c t
    | none => none

/-- What the condition of a parked strand gives: the value for rd where it holds. -/
def parkedCond (s : State) (t : Strand) : Option (State × Option Word) :=
  if t.again then some (s, none)
  else
    let when (b : Bool) : Option (State × Option Word) := if b then some (s, some 0) else none
    match t.cond with
    | .mem _ _ _ => when t.woken
    | .memGe _ _ _ => when t.woken
    | .bat n => when (t.batCount ≤ n)
    | .tm n => when (n ≤ s.time.toNat)
    | .join i => (s.joinNow t i).map fun r => (r.1, some r.2)
    | .group i =>
      match s.slotFleet t i with
      | some f => match f.group with
        | some g => if s.closeWritten g then some (s, some (closeStatus g)) else none
        | none => some (s, some (neg 3))
      | none => some (s, some (neg 3))
    | .home => if s.childrenDone t then some (s, none) else none

/-- The read that released a parked strand is a load of the strand: it reads nothing older on its die afterwards (R198, R199, R204). -/
def releasedBy (s : State) (t : Strand) : State :=
  let die : Nat := match s.strand? t.image with | some u => dieOf u.core | none => 4
  match t.cond with
  | .mem _ pa _ => s.sawHome die pa 8
  | .memGe _ pa _ => s.sawHome die pa 8
  | _ => s

/-- A parked strand resumes once its condition holds (R87, R88); its instruction has retired then (R92, R394). At depth 0 the
wait of `mg.home` goes on with the lines that it uses. -/
def resumeParked (s : State) (c : Crew) (t : Strand) : State :=
  match s.parkedCond t with
  | none => s
  | some (s', v) =>
    match s'.resumeSlot c t with
    | none => s
    | some s' =>
      let k := t.image
      let s' := if t.way = 0 then s' else
        ((s'.free t.way).modStrand k fun t => { t.setCw cWay 0 with way := 0 }).fillLines k
      let s' := if t.way = 0 then s' else s'.bumpRsm k
      let s' := s'.releasedBy t
      let s' := s'.modStrand k fun t => { t with woken := false, again := false }
      let s' := match v with
        | some v => s'.asAgent (.strand k) fun s =>
            ((s.modCur fun u => if t.crd = 0 then u else u.setCw t.crd.toNat v)).retired
        | none => s'
      if t.cond = .home && t.pendStop = 0 && !t.pendRecall && !s'.imagePoison k baseLines then
        (s'.fetchLines k baseLines).homeGo k
      else s'

/-- A forwarded strand that FWDRSM named resumes by its forward state, from its image with the hardware's bytes restored (R369,
R370). Where a line that this reads is poisoned the strand traps then (R174). -/
def resumeForwarded (s : State) (c : Crew) (t : Strand) : State :=
  match s.resumeSlot c t with
  | none => s
  | some s =>
    let k := t.image
    let need := 13 :: baseLines
    let s := { s.restoreImage k with accPa := 0 }
    let bad := s.imagePoison k need
    let s := s.fetchLines k need
    let s := match t.fwd with
      | 1 =>
        let r := match s.strand? k with | some t => t.cbits cFwd 7 0 | none => 0
        if r = 0 || 32 ≤ r || s.imagePoison k [r / 8] then s
        else (s.fetchLine k (r / 8)).modStrand k fun t => t.setCw r (t.cw cFwdres)
      | 2 => s.sretStrand k
      | _ => s
    let s := s.bumpRsm k
    let s := s.modStrand k fun t => { t.setCbits cFwd 15 8 0 with fwd := 0, resume := false }
    let s := if bad then s.asAgent (.strand k) fun s => s.trap 27 (w64 k) else s
    match s.strand? k with
    | some u => if u.depth = 0 then s.leaveSset u else s
    | none => s

/-! ### Rings of the dispatcher and the trap block (R59, R366) -/

/-- A message-signalled interrupt: 4 bytes written at an address, in memory or at an interrupt file. -/
def sendMsi (s : State) (a d : Nat) : State :=
  if a = 0 then s
  else if s.memAt a = .fault then { s with msis := s.msis ++ [(a, d)] }
  else s.hwWrite Config.numCores a (toBytes d 4)

/-- Posts an entry of `n` bytes to the ring whose base, size, head, tail and MSI registers start at `r`; `none` while
the ring is full or its slot cannot be written. The entry has reached every die before the tail advances (R366). -/
def ringPost (s : State) (r n : Nat) (data : List Byte) : Option State :=
  let lg := wbits (s.reg (r + 8)) 4 0
  let head := wbits (s.reg (r + 0x10)) 15 0
  let tail := wbits (s.reg (r + 0x18)) 15 0
  let slot := wbits (s.reg r) 56 12 * 4096 + n * (tail % 2 ^ lg)
  if (tail + 1) % 2 ^ lg = head % 2 ^ lg || s.hwBusy slot n || s.memAt slot = .waits then none
  else
    let s := s.hwPut { core := Config.numCores, addr := slot, data, vis := true }
    let s := s.setReg (r + 0x18) (w64 ((tail + 1) % 2 ^ lg))
    some (s.sendMsi (s.reg (r + 0x20)).toNat (wbits (s.reg (r + 0x28)) 31 0))

/-- Posts the oldest home notice of die d (R59). A notice of kind 2 makes the thread recalled, unless it was killed (R61). -/
def postNotice (s : State) (d : Nat) : State :=
  match s.notices.find? fun n => n.die = d with
  | none => s
  | some n =>
    let data := toBytes n.kind 8 ++ toBytes n.tag.toNat 8 ++ toBytes n.image 8 ++ toBytes s.time.toNat 8
    match s.ringPost (dieReg dispBase d 0x20) 32 data with
    | none => s
    | some s =>
      let s := { s with notices := s.notices.erase n }
      if n.kind = 3 then s
      else s.modFrame n.image fun f => { f with posted := n.kind, recalled := f.recalled || (n.kind = 2 && !f.killed) }

/-- Posts the oldest forward entry of die d, a release at scope `.sy` (R366, R368); the notice of kind 3 follows it. -/
def postForward (s : State) (d : Nat) : State :=
  match s.fwdq.find? fun n => n.die = d with
  | none => s
  | some n =>
    match ((s.mergeStrand n.image).drain n.image).ringPost (dieReg trapBase d 0) 16
      (toBytes n.image 8 ++ toBytes n.kind 1 ++ toBytes n.cause 1 ++ toBytes 0 6) with
    | none => s
    | some s =>
      let s := { s with fwdq := s.fwdq.erase n }
      match s.frame? n.root with
      | some f => if n.kind ≤ 3 then s.notice f 3 else s
      | none => s

/-- RECALL of die d (R60, R68). Written to another die's block than the one whose store holds the image, this and KILL and FRAMEFREE
do nothing: the specification does not say (DESIGN CHOICE, log 87). -/
def recallOp (s : State) (d : Nat) (v : Word) : State :=
  match s.frame? v.toNat, s.strand? v.toNat with
  | some f, some t => if f.die = d && f.posted ≠ 1 && !s.away t && !f.killed then s.recallThread f.image else s
  | _, _ => s

/-- KILL of die d (R60, R61, R371). -/
def killOp (s : State) (d : Nat) (v : Word) : State :=
  match s.frame? v.toNat with
  | none => s
  | some f =>
    if f.die ≠ d || f.killed then s
    else
      let k := f.image
      let s := s.modFrame k fun f => { f with killed := true, recalled := false }
      let s := (s.fleets.filter fun x => x.root = k).foldl (fun s x => s.stopOne x.handle) s
      let s :=
        match s.strand? k with
        | none => s
        | some t =>
          if s.away t then s.stopStrand k
          else if t.status = SStatus.forwarded then { s with ghosts := s.ghosts ++ [(k, k)] }.stopStrand k
          else s.recallThread k
      s.killNotices

/-- FRAMEFREE of die d (R60, R371). -/
def framefreeOp (s : State) (d : Nat) (v : Word) : State :=
  match s.frame? v.toNat with
  | none => s
  | some f =>
    if f.die = d && (f.posted = 1 || f.posted = 4) then
      let s := { s with frames := kdel (·.image) s.frames f.image }
      (if s.ghosts.any (fun g => g.1 = f.image) then s else s.free f.image).reap
    else s

/-- FWDRSM of die d (R369, R371). -/
def fwdrsmOp (s : State) (d : Nat) (v : Word) : State :=
  let k := v.toNat
  let s := match s.ghosts.find? fun g => g.1 = k with
    | none => s
    | some g =>
      let s := { s with ghosts := s.ghosts.filter fun x => x.1 ≠ k }
      let kept : Bool := s.ghosts.any (fun x => x.2 = g.2) || (s.frame? g.2).isSome || s.crews.any fun c => c.save = g.2
      if kept then s else s.free g.2
  s.modStrand k fun t => if t.fwd ≠ 0 && t.status = SStatus.forwarded && s.crewDie t = d then { t with resume := true } else t

/-! ### Issue groups (R94 to R97) -/

/-- Age, with the holder's addition (R95, R217). -/
def ageOf (s : State) (t : Strand) : Nat :=
  let a := match t.since with | some n => s.cc t.core - n | none => 0
  if s.holds.any fun h => h.image = t.image && s.holdActive h then min (a + 1024) 2047 else a

/-- Key of a strand: PC, then privilege. -/
def keyOf (t : Strand) : Nat := 2 * (t.cw cPc).toNat + b2n t.sMode

/-- Strand `a` comes before `b` by age, ties by crew and `sid` (R96). -/
def older (s : State) (a b : Strand) : Bool :=
  let order (t : Strand) : Nat := match s.crewOf t with | some c => c.order | none => 0
  s.ageOf b < s.ageOf a || (s.ageOf a = s.ageOf b && (order a < order b || (order a = order b && a.sid ≤ b.sid)))

/-- The groups of a cycle, and whether the age override acted (R96). -/
def issueGroups (s : State) (ready : List Strand) : List Strand × List Strand × Bool :=
  match sortBy s.older ready with
  | [] => ([], [], false)
  | o :: rest =>
    let c := (o :: rest).filter fun t => t.crew = o.crew
    let ovr : Bool := 1024 ≤ s.ageOf o
    let low (l : List Strand) : Option Nat := (minBy keyOf l).map keyOf
    let k1 := if ovr then keyOf o else (low c).getD 0
    let g1 := (c.filter fun t => keyOf t = k1).take 32
    let s1 := (g1.length + 3) / 4
    let others := c.filter fun t => keyOf t ≠ k1
    match low others with
    | none => (g1, [], ovr)
    | some k2 => (g1, (others.filter fun t => keyOf t = k2).take (4 * (8 - s1)), ovr)

end State

/-- PAUSE_EXPIRY (R91). -/
def execPauseExpiry (k : Nat) (s : State) : Out :=
  .next (match s.strand? k with
    | some t => match t.wait with | .pause e => if e ≤ s.cc t.core then s.finishWith k id else s | _ => s
    | none => s)

/-- PARK_SPIN_TEST (R87, R89, R438). -/
def execParkSpinTest (k : Nat) (s : State) : Out := .next (s.parkTest k)

/-- The home's watch table has no room for a watch of memory: a free value (R89, log 88). -/
def State.watchFull (s : State) (c : Cond) : Bool × State :=
  match c with
  | .mem _ _ _ => s.drawBit
  | .memGe _ _ _ => s.drawBit
  | .bat _ => (false, s)
  | .tm _ => (false, s)
  | .join _ => (false, s)
  | .group _ => (false, s)
  | .home => (false, s)

/-- STRAND_PARK: at the end of the resident wait, with the condition still not met, a strand at depth 0 parks (R87). -/
def execStrandPark (k : Nat) (s : State) : Out :=
  let ended (s : State) : Option (Cond × Reg) :=
    match s.strand? k with
    | some t => match t.wait with
      | .park c rd e => if e ≤ s.cc t.core && !t.sMode && t.pendStop = 0 then some (c, rd) else none
      | _ => none
    | none => none
  .next (match ended s with
    | none => s
    | some _ =>
      let s := s.parkTest k
      match ended s with
      | none => s
      | some (c, rd) =>
        let (full, s) := s.watchFull c
        match (if full then none else s.parkOn k c rd) with
        | some s => s
        | none => s.modStrand k fun t => { t with wait := .park c rd (s.cc t.core + 1024) })

/-- WATCH_RETEST: a write to a watched line was performed at its home (R89); the re-test waits for an owned or held line and
merges the reductions to it (R205, R206). -/
def execWatchRetest (line : Nat) (s : State) : Out :=
  .next (if s.hwBusy (64 * line) 64 then s
    else
      let s := s.mergeLines (64 * line) 64
      s.rewatch fun t => s.retest t line)

/-- STRAND_RESUME (R77, R87, R369). -/
def execStrandResume (k : Nat) (s : State) : Out :=
  .next (match s.strand? k with
    | none => s
    | some t =>
      match s.crewOf t with
      | none => s
      | some c =>
        if !s.mayResume c then s
        else
          match t.status with
          | .parked => s.resumeParked c t
          | .forwarded => if t.resume then s.resumeForwarded c t else s
          | .waiting => match s.seatStrand c t with | some s => s | none => s
          | .resident => s
          | .preempted => s)

/-- PLACEMENT_OFFER (R75, R76). -/
def execPlacementOffer (s : State) : Out := .next s.offer

/-- CONTEXT_LINE_FETCH (R55); a poisoned line stays absent until it is consumed (R174). -/
def execContextLineFetch (k line : Nat) (s : State) : Out :=
  .next (match s.strand? k with
    | some t =>
      if line < 16 && t.status = .resident && !t.stopped && !s.imagePoison k [line] && !s.imageBusy k [line] then s.fetchLine k line
      else s
    | none => s)

/-- HOME_NOTICE_POST (R59). -/
def execHomeNoticePost (d : Nat) (s : State) : Out := .next (s.postNotice d)

/-- STRAND_STOP: a resident strand reached by `fk.stop`, KILL or `sg.cxl` stops at its instruction boundary (R83). -/
def execStrandStop (k : Nat) (s : State) : Out :=
  .next (match s.strand? k with | some t => if t.pendKill && !State.mustFinish t.wait then s.stopStrand k else s | none => s)

/-- RECALL_WRITE (R60, R68). -/
def execRecallWrite (d : Nat) (v : Word) (s : State) : Out := .next ((s.setReg (dieReg dispBase d 0x50) v).recallOp d v)

/-- RECALL_TAKES_EFFECT (R68, R371). -/
def execRecallTakesEffect (k : Nat) (s : State) : Out :=
  .next (match s.strand? k with | some t => if s.recallDue t then s.recallNow k else s | none => s)

/-- KILL_WRITE (R61). -/
def execKillWrite (d : Nat) (v : Word) (s : State) : Out := .next ((s.setReg (dieReg dispBase d 0x58) v).killOp d v)

/-- FRAMEFREE_WRITE (R60). -/
def execFramefreeWrite (d : Nat) (v : Word) (s : State) : Out :=
  .next ((s.setReg (dieReg dispBase d 0x60) v).framefreeOp d v)

/-- LOAD_DATA_RETURN (R101). -/
def execLoadDataReturn (k reg : Nat) (s : State) : Out :=
  .next (s.modStrand k fun t => { t with marks := t.marks.filter fun m => m.reg ≠ reg })

end Sys2Proof.Machine
end

