-- ==== Sys2Proof/Machine/Links.lean ====
section
/-! DEFINITION. The domain, its windows and regions, the collective engine, its descriptors and the one-line forms
(13_collectives.md). A descriptor's data moves in runs that free values name (log 44). -/

namespace Sys2Proof.Machine

namespace Desc

/-- Word `i`. -/
def w (d : Desc) (i : Nat) : Nat := d.words.getD i 0
/-- op. -/
def op (d : Desc) : Nat := bits (d.w 0) 7 0
/-- type. -/
def ty (d : Desc) : Nat := bits (d.w 0) 15 8
/-- count. -/
def count (d : Desc) : Nat := bits (d.w 0) 63 32
/-- A ring. -/
def ring (d : Desc) : Bool := d.op = 4
/-- Bytes of an element: 1 for put and get. -/
def esize (d : Desc) : Nat := if d.op ≤ 2 then 1 else match d.ty with | 0 => 4 | 1 => 2 | 2 => 4 | _ => 8
/-- Bytes of the local extent. -/
def bytes (d : Desc) : Nat := d.count * d.esize
/-- Ring identifier (Table 13.4). -/
def rid (d : Desc) : Nat := bits (d.w 2) 63 48
/-- The ring word and the agreed fields as a posting of package `p`. -/
def post (d : Desc) (p : Nat) : PeerPost :=
  { peer := p, id := d.rid, n := bits (d.w 2) 47 40, pos := bits (d.w 2) 39 32, next := bits (d.w 2) 31 24,
    prev := bits (d.w 2) 23 16, ty := d.ty, count := d.count }

/-- The limits of Tables 13.3 and 13.4; `isRing` for `cl.ring`. -/
def ok (d : Desc) (isRing : Bool) : Bool :=
  (if isRing then d.op = 4 else 1 ≤ d.op && d.op ≤ 3)
    && bits (d.w 0) 31 16 = 0 && 1 ≤ d.count
    && (if d.op ≤ 2 then d.ty = 0 && d.count ≤ 0x10000000
        else d.ty ≤ 3 && d.count ≤ 0x04000000 && d.w 1 % d.esize = 0)
    && d.w 3 % 8 = 0 && d.w 5 % 8 = 0
    && (!isRing || (2 ≤ (d.post 0).n && (d.post 0).n ≤ 64 && (d.post 0).pos < (d.post 0).n))

end Desc

/-- Add of R344 on codes of a type. -/
def linkAdd (ty a b : Nat) : Nat :=
  match ty with
  | 0 => (ffinish f32 0 (fadd 0 (FVal.ofBits f32 a) (FVal.ofBits f32 b))).1
  | 1 => (ffinish bf16 0 (fadd 0 (FVal.ofBits bf16 a) (FVal.ofBits bf16 b))).1
  | 2 => (a + b) % 2 ^ 32
  | _ => (a + b) % 2 ^ 64

/-- Two postings of one id disagree (R346, first row). -/
def ringClash (a b : PeerPost) : Bool :=
  a.n ≠ b.n || a.ty ≠ b.ty || a.count ≠ b.count || a.pos = b.pos
    || ((a.pos + 1) % a.n = b.pos && (a.next ≠ b.peer || b.prev ≠ a.peer))
    || ((b.pos + 1) % b.n = a.pos && (b.next ≠ a.peer || a.prev ≠ b.peer))

/-- A byte as the engine carries it: with whether its line was poisoned. -/
abbrev Marked := Byte × Bool

/-- What a check of R339 answers: a status, or the place in `State.mem`. -/
inductive Remote | bad (n : Nat) | at (pa : Nat)
  deriving DecidableEq, Repr

namespace State

/-! ### Places (R333, R338, R339) -/

/-- Where `State.mem` holds physical address `a` of package `p`: a peer's HBM4E at its window, its LPDDR-6 above every
address of this package. -/
def homeAddr (s : State) (p a : Nat) : Nat :=
  if p = s.pkgNum then a
  else if a < 0x006000000000 then 0x100000000000 + p * 0x010000000000 + a
  else 2 ^ 60 + p * 2 ^ 57 + a

/-- CLRGNB of package `p`. -/
def rgn (s : State) (p : Nat) : Word := if p = s.pkgNum then s.reg (linkBase + 0x28) else sget s.peerRgn p

/-- Where the region table entry of a remote word lies. -/
def regionAddr (s : State) (w : Word) : Nat :=
  s.homeAddr (wbits w 63 56) (wbits (s.rgn (wbits w 63 56)) 56 13 * 8192 + 32 * wbits w 55 48)

/-- Checks of R339 for `b` bytes at a remote word with key `k`; `fl` is the bit that the kind of access needs. An entry on a
poisoned line is read as it stands (DESIGN CHOICE, log 80); one whose base or size breaks the limits of Table 13.2 answers -3,
as an entry that is not valid (DESIGN CHOICE, log 80). -/
def remoteAt (s : State) (w : Word) (b k fl : Nat) : Remote :=
  let p := wbits w 63 56
  let g := s.rgn p
  let e (o n : Nat) : Nat := s.peek 4 (s.regionAddr w + o) n
  let base := e 0 8
  let size := e 8 8
  let flags := e 0x14 4
  let last := base + size - 1
  let tier : Bool := (region base = .hbm && region last = .hbm) || (region base = .lpddr && region last = .lpddr)
  if (p ≠ s.pkgNum && !s.present p) || !wbit g 0 then .bad 3
  else if flags % 2 = 0 || 16 ≤ flags || e 0x18 8 ≠ 0 || base % 4096 ≠ 0 || size % 4096 ≠ 0 || size = 0 || !tier
      || size < wbits w 47 0 + b then .bad 3
  else if bits flags fl fl = 0 || (e 0x10 4 ≠ 0 && e 0x10 4 ≠ k) then .bad 9
  else .at (s.homeAddr p (base + wbits w 47 0))

/-! ### Accesses of the engine -/

/-- A line that a copy engine owns or that is under an LR hold keeps other agents waiting (R206, R217), and so does memory that is not
ready (R424). -/
def engHeld (s : State) (l : List Piece) : Bool :=
  l.any fun p => (linesOf p.addr p.len).any fun x =>
    s.memAt (64 * x) = .waits || s.copies.any (fun c => c.own.contains x) || s.holds.any fun h => h.granule = x && s.holdActive h

/-- An access of an agent that is no W-core to these bytes: attributes, classes, merges, the directory, images (R56, R181, R186, R205,
R228); `who` is the caching agent it counts as. -/
def engOpen (s : State) (pa n : Nat) (write : Bool) (who : Nat := noCache) : State :=
  (((dedup ((linesOf pa n).map fun l => l / 64)).foldl (fun s pg => (s.patOpen (pg * 4096)).classify Config.numCores (pg * 4096) 2)
    (s.mergeLines pa n)).dirTouch who pa n write).imageRead pa n

/-- The reductions to the region table entry of a remote word merge before it is read (R205). -/
def regionOpen (s : State) (w : Word) : State := s.engOpen (s.regionAddr w) 32 false

/-- Its bytes, as a piece. -/
def regionPiece (s : State) (w : Word) : Piece := { addr := s.regionAddr w, len := 32 }

/-- Reads bytes with their marks. -/
def engRead (s : State) (l : List Piece) (who : Nat := noCache) : State × List Marked :=
  let s := l.foldl (fun s p => s.engOpen p.addr p.len false who) s
  (s, l.flatMap fun p => (upto p.addr p.len).map fun a => (s.seen 0 4 a, s.poisonAt a 1))

/-- Writes bytes with their marks, as writer `tag`: a marked byte poisons its line. -/
def engWrite (s : State) (tag : Nat) (l : List Piece) (d : List Marked) (who : Nat := noCache) : State :=
  match l with
  | [] => s
  | p :: t =>
    let here := d.take p.len
    let s := s.engOpen p.addr p.len true who
    let s := s.poke (fun _ => false) (s.attrOf p.addr) tag p.addr (here.map (·.1))
    let bad := (List.zip (upto p.addr p.len) here).filter (·.2.2)
    let s := { s with poison := (dedup (bad.map fun x => lineOf x.1)).foldl insSorted s.poison }
    engWrite s tag t (d.drop p.len) who

/-- One atomic addition at a home, as writer `tag`. -/
def engAdd (s : State) (tag ty n pa v : Nat) (bad : Bool) : State :=
  let s := s.engOpen pa n true
  let x := linkAdd ty (s.peek 4 pa n) v
  s.engWrite tag [{ addr := pa, len := n }] ((toBytes x n).map fun b => (b, bad || s.poisonAt pa n))

/-- The writer that the collective engine is for a descriptor (R353). -/
def descTag (d : Desc) : Nat := 2 ^ 60 + d.id

/-- Data bytes written at destinations (Table 13.1). -/
def countBytes (s : State) (n : Nat) : State := s.setReg (linkBase + 0x30) (s.reg (linkBase + 0x30) + w64 n)

/-! ### Descriptors -/

/-- Descriptors of a strand that are not complete (R337). -/
def descsOf (s : State) (t : Strand) : List Desc := s.descs.filter fun d => d.image = t.image && d.crew = t.crew

/-- A descriptor ends: what the engine wrote for it has reached every die, then status and signal are written, and its slot is
free (R341, R353). While their lines are held it is about to (R206, R217). -/
def descEnd (s : State) (d : Desc) (st : Nat) : State :=
  if s.engHeld d.ends then { s with descs := kmod (·.id) s.descs d.id fun d => { d with ending := some st } }
  else
    let s := s.drain (descTag d)
    let s := s.engWrite (descTag d) [{ addr := d.stPa, len := 4 }] ((toBytes (neg st).toNat 4).map fun b => (b, false))
    let s := if d.w 5 = 0 then s else (s.drain (descTag d)).engAdd (descTag d) 3 8 d.sigPa (d.w 6) false
    { s with descs := kdel (·.id) s.descs d.id }

/-- Postings of peers for a ring. -/
def peersOf (s : State) (rid : Nat) : List PeerPost := s.peerPosts.filter fun p => p.id = rid

/-- The ring id is free. -/
def ringFree (s : State) (rid : Nat) : State := { s with peerPosts := s.peerPosts.filter fun p => p.id ≠ rid }

/-- This package's descriptor of a ring. -/
def ringDesc (s : State) (rid : Nat) : Option Desc := s.descs.find? fun d => d.ring && d.rid = rid && d.ending.isNone

/-- Looks at a ring after a posting: a disagreement ends it with -3, postings of every position match it (R345, R346). -/
def ringCheck (s : State) (rid : Nat) : State :=
  let mine := s.ringDesc rid
  let ps := s.peersOf rid ++ (match mine with | some d => [d.post s.pkgNum] | none => [])
  if ps.any fun a => ps.any fun b => a.peer ≠ b.peer && ringClash a b then
    let s := s.ringFree rid
    match mine with | some d => s.descEnd d 3 | none => s
  else
    match mine with
    | none => s
    | some d =>
      if ps.length = (d.post 0).n then { s with descs := kmod (·.id) s.descs d.id fun d => { d with matched := true } } else s

/-- A member's descriptor ends before its gate has opened (R346, R355, R438). -/
def descBreak (s : State) (d : Desc) : State :=
  (if d.ring && d.matched then s.ringFree d.rid else s).descEnd d 6

/-- A peer posts to a ring. -/
def peerPostOp (s : State) (p : PeerPost) : State :=
  if s.present p.peer && p.peer ≠ s.pkgNum && 2 ≤ p.n && p.n ≤ 64 && p.pos < p.n
      && s.peerPosts.all (fun x => x.peer ≠ p.peer || x.id ≠ p.id) then
    { s with peerPosts := s.peerPosts ++ [p] }.ringCheck p.id
  else s

/-- A peer's posting ends: after matching the ring ends with -6 (R346). -/
def peerUnpostOp (s : State) (p rid : Nat) : State :=
  if s.peerPosts.all (fun x => x.peer ≠ p || x.id ≠ rid) then s
  else
    match s.ringDesc rid with
    | some d => if d.matched then s.descBreak d
        else { s with peerPosts := s.peerPosts.filter fun x => x.peer ≠ p || x.id ≠ rid }
    | none => { s with peerPosts := s.peerPosts.filter fun x => x.peer ≠ p || x.id ≠ rid }

/-- Chunk `c` of a ring of `n`: first element and count (R345). -/
def chunkRun (n count c : Nat) : Nat × Nat := (c * count / n, (c + 1) * count / n - c * count / n)

/-- The piece of a list of bytes from `o`, `n` bytes long. -/
def subPieces (l : List Piece) (o n : Nat) : List Piece :=
  match l with
  | [] => []
  | p :: t =>
    let here := min (p.len - o) n
    (if here = 0 then [] else [{ addr := p.addr + o, len := here }]) ++ subPieces t (o - p.len) (n - here)

/-- Sum of an element of chunk `c` of a ring of `n` members with values by position (R345). -/
def ringSum (ty n c : Nat) (x : Nat → Nat) : Nat :=
  (upto 2 (n - 1)).foldl (fun a t => linkAdd ty a (x ((c + t) % n))) (x ((c + 1) % n))

/-- The data of a descriptor has moved as far as `left` says; where nothing is left a free value says whether it ends in the same step
(R354, log 44). -/
def descLeft (s : State) (d : Desc) (pa : Nat) (left : List (Nat × Nat)) (fin : State → State) : State :=
  let (b, s) := s.drawBit
  if left.isEmpty && b then fin s
  else { s with descs := kmod (·.id) s.descs d.id fun d => { d with far := some pa, left } }

/-- Takes a run that free values name out of what is left: the whole rest, or `n` from `a`. -/
def descPick (s : State) (left : List (Nat × Nat)) : State × List (Nat × Nat) × List (Nat × Nat) :=
  let (all, s) := s.drawBit
  let (k, s) := s.drawNat
  let (o, s) := s.drawNat
  let (m, s) := s.drawNat
  if all then (s, left, [])
  else
    let i := k % left.length
    let r : Nat × Nat := left.getD i (0, 0)
    let o := o % r.2
    let m := m % (r.2 - o + 1)
    (s, [(r.1 + o, m)], left.take i ++ ([(r.1, o), (r.1 + o + m, r.2 - o - m)] : List (Nat × Nat)).filter (fun x => x.2 ≠ 0) ++ left.drop (i + 1))

/-- A run of elements of a descriptor of op 1 to 3 moves (R344). -/
def descMove (s : State) (d : Desc) (pa : Nat) (r : Nat × Nat) : State :=
  let e := d.esize
  let loc := subPieces d.loc (e * r.1) (e * r.2)
  let far : List Piece := [{ addr := pa + e * r.1, len := e * r.2 }]
  let tag := descTag d
  let s : State := match d.op with
    | 1 => let (s, x) := s.engRead loc
           s.engWrite tag far x
    | 2 => let (s, x) := s.engRead far
           s.engWrite tag loc x
    | _ =>
      let (s, x) := s.engRead loc
      (upto 0 r.2).foldl (fun (s : State) j =>
        let y : List Marked := (x.drop (e * j)).take e
        s.engAdd tag d.ty e (pa + e * (r.1 + j)) (ofBytes (y.map (·.1))) (y.any (·.2))) s
  s.countBytes (e * r.2)

/-- Chunk `c` of a matched ring is written in this package's buffer, wholly (R345, R346). -/
def ringMove (s : State) (d : Desc) (c : Nat) : State :=
  let me := d.post s.pkgNum
  let e := d.esize
  let r := chunkRun me.n d.count c
  let loc := subPieces d.loc (e * r.1) (e * r.2)
  let (s, mine) := s.engRead loc
  let ps := s.peersOf d.rid
  let x (q j : Nat) : Nat :=
    if q = me.pos then ofBytes (((mine.drop (e * j)).take e).map (·.1))
    else match ps.find? fun p => p.pos = q with | some p => ofBytes ((p.data.drop (e * (r.1 + j))).take e) | none => 0
  let bad (j : Nat) : Bool := ((mine.drop (e * j)).take e).any (·.2)
  let out := (upto 0 r.2).flatMap fun j => (toBytes (ringSum d.ty me.n c fun q => x q j) e).map fun b => (b, bad j)
  (s.engWrite (descTag d) loc out).countBytes (e * r.2)

/-- A begun descriptor of op 1 to 3 moves data, and ends with the last (R339, R344, R354); the target is checked before any
moves. -/
def descRun (s : State) (d : Desc) : State :=
  let w := w64 (d.w 2)
  if d.far.isSome && d.left.isEmpty then s.descEnd d 0
  else if d.far.isNone && s.engHeld [s.regionPiece w] then s
  else
    let s := if d.far.isNone then s.regionOpen w else s
    match (match d.far with
      | some pa => Remote.at pa
      | none => s.remoteAt w d.bytes (bits (d.w 7) 63 32) (match d.op with | 1 => 2 | 2 => 1 | _ => 3)) with
    | .bad st => s.descEnd d st
    | .at pa =>
      if s.engHeld (d.loc ++ [{ addr := pa, len := d.bytes }]) then s
      else
        let (s, now, left) := s.descPick (if d.far.isNone then [(0, d.count)] else d.left)
        (now.foldl (fun s r => s.descMove d pa r) s).descLeft d pa left fun s => s.descEnd d 0

/-- A matched ring writes chunks of this package's buffer, and ends with the last (R345, R354). -/
def ringRun (s : State) (d : Desc) : State :=
  if d.far.isSome && d.left.isEmpty then (s.ringFree d.rid).descEnd d 0
  else if s.engHeld d.loc then s
  else
    let (s, now, left) := s.descPick (if d.far.isNone then [(0, (d.post 0).n)] else d.left)
    (now.foldl (fun s r => (upto r.1 r.2).foldl (fun s c => s.ringMove d c) s) s).descLeft d 0 left
      fun s => (s.ringFree d.rid).descEnd d 0

/-! ### Presence (R330, R336) -/

/-- A descriptor that ends with the departure of package `p`: a ring that it has matched, a remote word there (R336, R346). -/
def involves (s : State) (p : Nat) (d : Desc) : Bool :=
  d.ending.isNone && if d.ring then d.matched && (s.peersOf d.rid).any fun x => x.peer = p else bits (d.w 2) 63 56 = p

/-- The reads that agents have sent to package `p` come back poisoned: cause 27 at their instructions (R174, R336). -/
def unanswered (s : State) (p : Nat) : State :=
  let s := s.strands.foldl (fun s t =>
    match t.sent.find? (·.1 = p) with
    | some e =>
      if t.status = .resident && !t.stopped && t.wait = .none then
        s.asAgent (.strand t.image) fun s => { s with accPa := 0 }.trap 27 e.2
      else s
    | none => s) s
  (upto 0 Config.numLCores).foldl (fun s i =>
    match ((s.lcoreAt i).sent.find? (·.1 = p)) with
    | some e => if (s.lcoreAt i).running then s.trapL i 27 e.2 else s
    | none => s) s

/-- Package `p` leaves the domain (R336). Reads that have been sent to it come back poisoned; buffered reductions to it are dropped. Of
a line that it held in M or O a free value says whether it was written back before (log 50). It waits
while the end of a descriptor could not be written. -/
def peerGone (s : State) (p : Nat) : State :=
  if p = s.pkgNum || !s.present p || s.descs.any (fun d => s.involves p d && s.engHeld d.ends) then s
  else
    let s := s.unanswered p
    let s := { s with rbuf := s.rbuf.filter fun e => !(region (e.line * 64) = Region.peer p) }
    let s := (s.snoop.filter fun e => e.holders.any fun h => h.1 = p && (h.2 = .m || h.2 = .o)).foldl (fun (s : State) e =>
      let (b, s) := s.drawBit
      if b then { s with poison := insSorted s.poison e.line } else s) s
    let s : State := { s with snoop := (dirDrop s.snoop p fun _ => true).filter fun e => region (e.line * 64) ≠ .peer p }
    let s : State := { s with dir := dirDrop s.dir 6 fun e => !s.snoop.any fun x => x.line = e.line }
    let s := (s.descs.filter (s.involves p)).foldl (fun s d => s.descBreak d) s
    let s := { s with peerPosts := s.peerPosts.filter fun x => x.peer ≠ p }
    let r := linkBase + 8 * (p / 64)
    s.setReg r (s.reg r &&& ~~~(w64 (2 ^ (p % 64))))

/-- Package `p` becomes present. -/
def peerHere (s : State) (p : Nat) : State :=
  if p < 256 then
    let r := linkBase + 8 * (p / 64)
    s.setReg r (s.reg r ||| w64 (2 ^ (p % 64)))
  else s

/-- Present packages. -/
def numPresent (s : State) : Nat := (upto 0 4).foldl (fun n j => n + popcount (s.reg (linkBase + 8 * j)).toNat 64) 0

/-- Package `p` reads or writes lines of this package's homes through its window: the filter of the plane names it. A line that a die
of this package holds is shared with it (R334). -/
def snoopAdd (s : State) (p pa n : Nat) (write : Bool) : State :=
  let held (l : Nat) : Bool := s.dir.any fun e => e.line = l && e.holders.any fun h => h.1 ≠ 6
  let share (e : DirLine) : DirLine :=
    if (linesOf pa n).contains e.line && held e.line && !write then { e with holders := e.holders.map fun h => (h.1, h.2.shared) } else e
  { s with snoop := ((linesOf pa n).foldl (fun d l => dirAfter d l p true write) s.snoop).map share }

/-! ### Posting and the one-line forms -/

/-- Posts a descriptor (R343). -/
def clPostOp (s : State) (isRing : Bool) (rd a : Reg) : Out :=
  s.onStrand fun t =>
    let va := s.x a
    if va.toNat % 64 ≠ 0 then s.status rd (neg 3)
    else
      (s.load va 64).run fun s v =>
        let d : Desc := { id := 0, words := (upto 0 8).map fun i => bits v (64 * i + 63) (64 * i) }
        if !d.ok isRing then s.status rd (neg 3)
        else if isRing && s.descs.any (fun x => x.ring && x.rid = d.rid) then s.status rd (neg 4)
        else if 32 ≤ (s.descsOf t).length || 256 ≤ s.descs.length || !s.ready 44 then s.status rd (neg 1)
        else
          let ext := [(d.w 1, d.bytes)]
          let word (i : Nat) : List (Nat × Nat) := if d.w i = 0 then [] else [(d.w i / 4096, d.w i)]
          let on (b : Bool) (l : List (Nat × Nat)) : List (Nat × Nat) := if b then l else []
          ((s.copyPages .load (on (d.op ≠ 2) (pageFirsts ext))).bind fun s f1 =>
            (s.copyPages .store (on (d.op = 2 || d.op = 4) (pageFirsts ext))).bind fun s f2 =>
              (s.copyPages .load (word 3)).bind fun s f3 =>
                (s.copyPages .store (word 5)).bind fun s f4 => .ok s (f1 ++ f2, f3, f4)).run fun s fr =>
              (s.store (va + 0x38) 4 1).run fun s _ =>
                let s := s.release
                let at' (l : List (Nat × Phys)) (i : Nat) : Nat := (l.headD (0, { pa := 0, pbmt := 0, attr := 0 })).2.pa + d.w i % 4096
                let (id, s) := s.fresh
                let tmo := bits (d.w 2) 15 0
                let d := { d with
                  id, image := t.image, crew := t.crew, asid := t.asid, begun := d.w 3 = 0, gatePa := at' fr.2.1 3, sigPa := at' fr.2.2 5,
                  stPa := s.accPa, loc := ext.flatMap (rowPieces fr.1),
                  vas := (fr.1 ++ fr.2.1 ++ fr.2.2).map fun r => (r.1, r.2.glob),
                  deadline := if isRing && tmo ≠ 0 then s.time.toNat + 1000000 * tmo else 0 }
                let s := { s with descs := s.descs ++ [d] }
                match s.status rd 0 with
                | .next s => .next (if isRing then s.ringCheck d.rid else s)
                | o => o

/-- The local line of `cl.put` and `cl.get`, as parts of memory. -/
def clLine (s : State) (k : AccKind) (va : Word) : Res (List Part) :=
  (s.locate s.cur k va 64).bind fun s loc =>
    match loc with
    | .mmio _ => .trap s (accessFault k) va
    | .mem parts => .ok s parts

/-- The remote place of a one-line form of `n` bytes, with key 0: none, with the state after the check, where the form waits for
a held or owned line. -/
def clPlace (s : State) (w : Word) (n fl : Nat) : State × Option Remote :=
  if s.engHeld [s.regionPiece w] then (s, none)
  else
    let s := s.regionOpen w
    match s.remoteAt w n 0 fl with
    | .bad st => (s, some (.bad st))
    | .at pa => (s, if s.engHeld [{ addr := pa, len := n }] then none else some (.at pa))

end State

/-- `cl.post` (R343). -/
def execClPost (rd a : Reg) (s : State) : Out := s.clPostOp false rd a

/-- `cl.ring` (R343). -/
def execClRing (rd a : Reg) (s : State) : Out := s.clPostOp true rd a

/-- `cl.put` (R347). -/
def execClPut (rd a b : Reg) (s : State) : Out :=
  s.onStrand fun _ =>
    if (s.x a).toNat % 64 ≠ 0 then s.raise 4 (s.x a)
    else if wbits (s.x b) 47 0 % 64 ≠ 0 then s.status rd (neg 3)
    else
      (s.clLine .load (s.x a)).run fun s l =>
        (s.openParts s.cur (s.x a) l false).run fun s _ =>
          match s.clPlace (s.x b) 64 2 with
          | (s, none) => s.stall
          | (s, some (.bad st)) => s.status rd (neg st)
          | (s, some (.at pa)) =>
            let s := s.dropNc (s.coreOf s.cur) l
            (s.release.engWrite s.cur.tag [{ addr := pa, len := 64 }] ((s.readParts s.cur l).map fun x => (x, false))).acquire.status
              rd 0

/-- `cl.get` (R347). -/
def execClGet (rd a b : Reg) (s : State) : Out :=
  s.onStrand fun _ =>
    if (s.x a).toNat % 64 ≠ 0 then s.raise 6 (s.x a)
    else if wbits (s.x b) 47 0 % 64 ≠ 0 then s.status rd (neg 3)
    else
      (s.clLine .store (s.x a)).run fun s l =>
        match s.clPlace (s.x b) 64 1 with
        | (s, none) => s.stall
        | (s, some (.bad st)) => s.status rd (neg st)
        | (s, some (.at pa)) =>
          if s.poisonAt pa 64 then s.raise 27 (s.x a)
          else
            (s.openParts s.cur (s.x a) l true).run fun s _ =>
              let (s, d) := s.release.engRead [{ addr := pa, len := 64 }]
              ((s.dropNc (s.coreOf s.cur) l).writeParts s.cur l (d.map (·.1))).acquire.status rd 0

/-- `cl.sig` (R347): its result is a store of the strand. -/
def execClSig (rd a b : Reg) (s : State) : Out :=
  s.onStrand fun _ =>
    if wbits (s.x a) 47 0 % 8 ≠ 0 then s.status rd (neg 3)
    else
      match s.clPlace (s.x a) 8 3 with
      | (s, none) => s.stall
      | (s, some (.bad st)) => s.status rd (neg st)
      | (s, some (.at pa)) => (s.release.engAdd s.cur.tag 3 8 pa (s.x b).toNat false).acquire.status rd 0

/-- `cl.wait` (R348). -/
def execClWait (rd a b : Reg) (s : State) : Out :=
  s.onStrand fun t =>
    if (s.x a).toNat % 8 ≠ 0 then s.raise 4 (s.x a)
    else s.parkForm t rd (.memGe (s.x a).toNat 0 (s.x b)) true

/-- `cl.wait.try` (R348). -/
def execClWaitTry (rd a b : Reg) (s : State) : Out :=
  s.onStrand fun _ =>
    if (s.x a).toNat % 8 ≠ 0 then s.raise 4 (s.x a)
    else
      (s.load (s.x a) 8).run fun s v =>
        if (s.x b).toNat ≤ v then s.acquire.status rd 0 else s.status rd (neg 8)

/-- `cl.qry` (R349). -/
def execClQry (rd a : Reg) (s : State) : Out :=
  s.onStrand fun t =>
    s.status rd (match (s.x a).toNat with
      | 0 => w64 (s.descsOf t).length
      | 1 => w64 (256 - s.descs.length)
      | 2 => w64 s.numPresent
      | 3 => w64 s.pkgNum
      | _ => neg 3)

/-- GATE_OPEN (R341, R438). -/
def execGateOpen (id : Nat) (s : State) : Out :=
  .next (match kfind (·.id) s.descs id with
    | none => s
    | some d =>
      if d.begun || d.ending.isSome || s.engHeld [{ addr := d.gatePa, len := 8 }] then s
      else if s.poisonAt d.gatePa 8 then s.descBreak d
      else
        let s := s.engOpen d.gatePa 8 false
        if d.w 4 ≤ s.peek 4 d.gatePa 8 then { s with descs := kmod (·.id) s.descs id fun d => { d with begun := true } } else s)

/-- DESCRIPTOR_COMPLETE: a begun descriptor moves data or ends; one that is about to end writes its words (R341, R344, R345). -/
def execDescriptorComplete (id : Nat) (s : State) : Out :=
  .next (match kfind (·.id) s.descs id with
    | none => s
    | some d =>
      match d.ending with
      | some st => s.descEnd d st
      | none =>
        if !d.begun then s
        else if d.ring then (if d.matched then s.ringRun d else s)
        else s.descRun d)

/-- RING_MATCH_TIMEOUT (R346). -/
def execRingMatchTimeout (id : Nat) (s : State) : Out :=
  .next (match kfind (·.id) s.descs id with
    | none => s
    | some d => if d.ring && !d.matched && d.ending.isNone && d.deadline ≠ 0 && d.deadline ≤ s.time.toNat then s.descEnd d 8 else s)

/-- REMOTE_REGION_ACCESS: this package serves an access of a peer; bytes that came from poisoned lines are written so (R339, R344). -/
def execRemoteRegionAccess (r : RemoteReq) (s : State) : Out :=
  let w := w64 (s.pkgNum * 2 ^ 56 + r.region.toNat * 2 ^ 48 + r.off.toNat)
  let fl := match r.kind with | .read => 1 | .write => 2 | .add _ => 3
  .next (if s.engHeld [s.regionPiece w] then s
    else
      let s := s.regionOpen w
      match s.remoteAt w r.len r.key.toNat fl with
      | .bad _ => s
      | .at pa =>
        let here : List Piece := [{ addr := pa, len := r.len }]
        if s.engHeld here then s
        else
          match r.kind with
          | .read => (s.engRead here).1
          | .write => s.engWrite 0 here ((upto 0 r.len).map fun i => (r.data.getD i 0, r.marks.contains i))
          | .add ty =>
            let n := match ty.toNat with | 0 => 4 | 1 => 2 | 2 => 4 | _ => 8
            (upto 0 (r.len / n)).foldl (fun s j =>
              s.engAdd 0 ty.toNat n (pa + n * j) (ofBytes ((r.data.drop (n * j)).take n))
                (r.marks.any fun i => n * j ≤ i && i < n * j + n)) s)

/-- PEER_LEAVE (R336). -/
def execPeerLeave (p : Nat) (s : State) : Out := .next (s.peerGone p)

/-- LINK_PORT_LOST: this package has lost training of a port and is removed from the domain (R330). -/
def execLinkPortLost (p : Nat) (s : State) : Out :=
  let st := s.reg (linkBase + 0x20)
  .next (if p < 12 && wbit st p then
      (upto 0 256).foldl (fun s q => s.peerGone q) (s.setReg (linkBase + 0x20) (st &&& ~~~(w64 (2 ^ p))))
    else s)

/-- SNOOP_FILTER_RECALL: the line that a plane's filter tracked longest is recalled from every holder (R335). -/
def execSnoopFilterRecall (plane : Nat) (s : State) : Out :=
  .next (match s.snoop.find? fun e => e.line % 12 = plane with
    | some e =>
      { s with
        snoop := s.snoop.erase e
        dir := dirDrop s.dir 6 fun d => d.line = e.line }
    | none => s)

/-- PEER_PRESENT (R330). -/
def execPeerPresent (p : Nat) (s : State) : Out :=
  .next (if (s.reg (linkBase + 0x20)).toNat = 0xFFF then s.peerHere p else s)

/-- PEER_WINDOW_ACCESS: another package, present, accesses this package's HBM4E through its window (R333, R334). -/
def execPeerWindowAccess (q : PeerReq) (s : State) : Out :=
  let p := q.peer
  let r := q.req
  let n := if r.write then r.data.length else r.len
  let here : List Piece := [{ addr := r.pa, len := n }]
  .next (if n = 0 || p = s.pkgNum || !s.present p || region r.pa ≠ .hbm || region (r.pa + n - 1) ≠ .hbm || s.memAt r.pa ≠ .ok
        || s.engHeld here then s
    else
      let s := s.snoopAdd p r.pa n r.write
      if r.write then s.engWrite 0 here (r.data.map fun b => (b, false)) 6 else (s.engRead here 6).1)

end Sys2Proof.Machine
end

