-- ==== Sys2Proof/Machine/System.lean ====
section
/-! DEFINITION. System instructions and their steps: environment call, breakpoint, wait, return from an exception, the
`sy.` forms, translation invalidation, forwarding (R356 to R381; on L-cores the RISC-V privileged architecture, log 17). -/

namespace Sys2Proof.Machine

namespace Inval

/-- The address-space identifier is covered; `g` whether a global translation may be meant (Table 14.8). -/
def covers (v : Inval) (asid : Nat) (g : Bool) : Bool := bits v.ctl 19 19 = 1 || asid = bits v.ctl 15 0 || (g && bits v.ctl 20 20 = 1)

/-- Bytes of the naturally aligned region of a size code 1 to 5. -/
def regionSize (v : Inval) : Nat :=
  match bits v.ctl 18 16 with | 1 => 4096 | 2 => 65536 | 3 => 2 ^ 21 | 4 => 2 ^ 30 | _ => 2 ^ 39

/-- The translation of [lo, lo + n) is selected; size 6 selects one that maps va. -/
def selects (v : Inval) (lo n : Nat) : Bool :=
  let va := v.va.toNat % 2 ^ 57
  match bits v.ctl 18 16 with
  | 0 => true
  | 6 => lo ≤ va && va < lo + n
  | _ => let b := va / v.regionSize * v.regionSize
         lo < b + v.regionSize && b < lo + n

end Inval

/-- The checks of R377 on the operands of an invalidation. -/
def invalOk (va ctl : Word) : Bool := wbits ctl 63 21 = 0 && wbits ctl 18 16 ≠ 7 && (wbits ctl 18 16 = 0 || canonical va)

namespace State

/-! ### Translation invalidation (R377 to R381) -/

/-- A W-core's TLB entry is covered. -/
def invalHits (v : Inval) (e : TlbEntry) : Bool := e.core < Config.numCores && v.covers e.asid e.glob && v.selects e.va e.size

/-- The 4 KiB page of an address lies in what the invalidation selects; with size 6, on the page of va or under a held
translation that maps both. -/
def invalPage (s : State) (v : Inval) (page : Nat) : Bool :=
  let a := page % 2 ^ 45 * 4096
  v.selects a 4096 || (bits v.ctl 18 16 = 6 && s.tlb.any fun e => invalHits v e && e.va ≤ a && a < e.va + e.size)

/-- A page translated for an address space, globally or not, is covered. -/
def invalUse (s : State) (v : Inval) (asid : Nat) (u : Nat × Bool) : Bool := v.covers asid u.2 && s.invalPage v u.1

/-- The acknowledgement has to wait (R380 items 4 and 5), also where a descriptor that it ends could not write its status at once
(R355). -/
def invalWaits (s : State) (v : Inval) : Bool :=
  s.copies.any (fun c => c.vas.any (s.invalUse v c.asid))
    || s.descs.any fun d => (d.begun || d.ending.isSome || s.engHeld d.ends) && d.vas.any (s.invalUse v d.asid)

/-- A physical page that a covered translation maps. -/
def affected (es : List TlbEntry) (page : Nat) : Bool := es.any fun e => e.maps page

/-- Parked watches that the invalidation selects (R381). -/
def invalWatch (s : State) (v : Inval) (t : Strand) : Strand :=
  let hit (va : Nat) : Strand :=
    if t.status = .parked && !t.again && v.covers t.asid false && s.invalPage v (va / 4096) then
      { t.setCw cPc (t.cw cPc - w64 t.wlen) with again := true }
    else t
  match t.cond with
  | .mem va _ _ => hit va
  | .memGe va _ _ => hit va
  | _ => t

/-- Slot register `o` of the invalidation block. -/
def invalReg (slot o : Nat) : Nat := invalBase + 0x20 * slot + o

/-- The attributes of the pages that covered translations map become those of the table; a page that ceases to be replicated drops
its replicas (R184, R379, log 82). -/
def invalPats (s : State) (v : Inval) : State :=
  let es := s.tlb.filter fun e => v.covers e.asid e.glob && v.selects e.va e.size
  let was := (s.pats.filter fun u => u.attr = 1 && affected es u.page).map (·.page)
  let s := { s with pats := s.pats.filter fun u => !affected es u.page }
  s.deliver fun r => was.contains (pageOf r.pa) && s.attrOf r.pa ≠ 1

/-- A page that no cache holds becomes free: a free value says whether the caches still hold lines of it (R380 item 6). -/
def freePage (s : State) (page : Nat) : State :=
  let (b, s) := s.drawBit
  if b then { s with pct := sset s.pct page 0, dir := s.dir.filter fun e => pageOf (e.line * 64) ≠ page } else s

/-- The acknowledgement of an invalidation. The slot of an L-core's request is idle once its completion word has been written
(R378). -/
def invalDone (s : State) (v : Inval) : State :=
  let es := s.tlb.filter (invalHits v)
  let gone := s.descs.filter fun d => !d.begun && d.ending.isNone && d.vas.any (s.invalUse v d.asid)
  let s := s.rewatch (s.invalWatch v)
  let s := s.mergeWhere fun e => affected es (pageOf (e.line * 64))
  let s := s.invalPats v
  let s := { s with tlb := s.tlb.filter (fun e => !invalHits v e), invals := kdel (·.id) s.invals v.id }
  let s := (s.pct.filter fun e => affected es e.1 && !s.ncs.any fun x => pageOf (x.line * 64) = e.1).foldl
    (fun s e => s.freePage e.1) s
  let s := gone.foldl (fun s d => s.descBreak d) s
  if v.slot < 32 then
    let w : Nat := (s.reg (invalReg v.slot 0x10)).toNat
    if w = 0 then s.setReg (invalReg v.slot 0x18) 0
    else s.hwPut { core := Config.numCores, addr := w, data := toBytes 1 8, vis := true, act := .inval v.slot }
  else
    match s.strand? v.image with
    | some t => match t.wait with
      | .ack id rd => if id = v.id then s.finishWait v.image rd 0 else s
      | _ => s
    | none => s

/-- The strand in issue asks for an invalidation and waits (R377). -/
def invalidate (s : State) (t : Strand) (rd : Reg) (va ctl : Word) : Out :=
  let (id, s) := s.release.acquire.fresh
  let v : Inval := { id, va, ctl := ctl.toNat, slot := 32, image := t.image }
  .next (State.await { s with invals := s.invals ++ [v] } (.ack id rd))

/-- A write of IVGO (R378). -/
def ivgoOp (s : State) (slot : Nat) (v : Word) : State :=
  let go := invalReg slot 0x18
  if 32 ≤ slot || s.reg go = 1 || v ≠ 1 then s
  else
    let va := s.reg (invalReg slot 0)
    let ctl := s.reg (invalReg slot 8)
    if !invalOk va ctl then s.setReg go 2
    else
      let (id, s) := (s.setReg go 1).fresh
      { s with invals := s.invals ++ [{ id, va, ctl := ctl.toNat, slot, image := 0 }] }

/-- `sfence.vma` on an L-core drops its own translations. -/
def sfenceL (s : State) (i : Nat) (a b : Reg) : State :=
  let va := (s.x a).toNat % 2 ^ 57
  let asid := wbits (s.x b) 15 0
  { s with tlb := s.tlb.filter fun e =>
      !(e.core = Config.numCores + i && (a = 0 || (e.va ≤ va && va < e.va + e.size)) && (b = 0 || (e.asid = asid && !e.glob))) }

/-! ### The end of a strand from its handler (R374) -/

/-- `sy.end` goes on once the strand's fleets are done. -/
def endGo (s : State) (k : Nat) : State :=
  match s.strand? k with
  | none => s
  | some t =>
    if s.childrenDone t && !(s.owed k fun _ => true) then (s.abandonCopies k).2.endStrand k else s.modStrand k fun t => { t with wait := .ending }

/-- A form of S-mode only: illegal at depth 0 (R372). -/
def onS (s : State) (g : Strand → Out) : Out := s.onStrand fun t => if t.sMode then g t else s.illegal

/-! ### L-cores -/

/-- Virtual-instruction exception. -/
def virtualInst (s : State) : Out := s.raise 22 s.ibits

/-- `hstatus` of an L-core. -/
def hstatus (l : LCore) : Word := l.get 0x600

/-- `sret` of L-core i. -/
def sretL (s : State) (i : Nat) : State :=
  s.modLcore i fun l =>
    if l.mode = .vs then
      let st := l.get 0x200
      let st' := winsert (winsert (winsert st 1 1 (wbits st 5 5)) 5 5 1) 8 8 0
      { l with mode := if wbit st 8 then .vs else .vu, csr := sset l.csr 0x200 st', ctx := sset l.ctx cPc (l.get 0x241) }
    else
      let st := l.get csrMstatus
      let v := wbit (hstatus l) 7
      let mode := if wbit st 8 then (if v then LMode.vs else .hs) else (if v then .vu else .u)
      let st' := winsert (winsert (winsert (winsert st 1 1 (wbits st 5 5)) 5 5 1) 8 8 0) 17 17 0
      { l with mode, csr := sset (sset l.csr csrMstatus st') 0x600 (winsert (hstatus l) 7 7 0), ctx := sset l.ctx cPc (l.get 0x141) }

/-- `mret` of L-core i. -/
def mretL (s : State) (i : Nat) : State :=
  s.modLcore i fun l =>
    let st := l.get csrMstatus
    let v := wbit st 39
    let p := wbits st 12 11
    let mode := if p = 3 then LMode.m else if p = 1 then (if v then .vs else .hs) else (if v then .vu else .u)
    let st' := winsert (winsert (winsert (winsert st 3 3 (wbits st 7 7)) 7 7 1) 12 11 0) 39 39 0
    let st' := if p = 3 then st' else winsert st' 17 17 0
    { l with mode, csr := sset l.csr csrMstatus st', ctx := sset l.ctx cPc (l.get 0x341) }

end State

/-- `ecall` (R363). -/
def execEcall (s : State) : Out :=
  s.onAny (match s.cur with
    | .strand _ => s.onStrand fun t => s.raise (if t.sMode then 9 else 8) 0
    | .lcore i => s.raise (match (s.lcoreAt i).mode with | .m => 11 | .hs => 9 | .vs => 10 | .u => 8 | .vu => 8) 0)

/-- `ebreak` (R363). -/
def execEbreak (s : State) : Out :=
  s.onAny (match s.cur with
    | .strand k => s.onStrand fun t => if t.att && t.ebs then .next (s.debugStopOp k 3) else s.raise 3 s.pc
    | .lcore _ => s.raise 3 s.pc)

/-- `wfi`: on a W-core as `th.yield` (R363); on an L-core it may end at once. -/
def execWfi (s : State) : Out :=
  s.onAny (match s.cur with
    | .strand _ => s.onStrand fun t => s.yield t
    | .lcore i =>
      let l := s.lcoreAt i
      let tw := wbit (l.get State.csrMstatus) 21
      match l.mode with
      | .m => s.next
      | .hs => if tw then s.illegal else s.next
      | .u => if tw then s.illegal else s.next
      | .vs => if tw then s.illegal else if wbit (State.hstatus l) 21 then s.virtualInst else s.next
      | .vu => if tw then s.illegal else s.virtualInst)

/-- `sret` (R363). -/
def execSret (s : State) : Out :=
  s.onAny (match s.cur with
    | .strand k => s.onS fun _ => .next (s.sretStrand k).retired
    | .lcore i =>
      let l := s.lcoreAt i
      match l.mode with
      | .u => s.illegal
      | .vu => s.virtualInst
      | .vs => if wbit (State.hstatus l) 22 then s.virtualInst else .next (s.sretL i).retired
      | .hs => if wbit (l.get State.csrMstatus) 22 then s.illegal else .next (s.sretL i).retired
      | .m => .next (s.sretL i).retired)

/-- `sfence.vma` (R363, R377). -/
def execSfenceVma (a b : Reg) (s : State) : Out :=
  s.onAny (match s.cur with
    | .strand _ => s.onS fun t =>
        let va := s.x a
        let size := if a = 0 || !canonical va then 0 else 6
        let asid := if b = 0 then 2 ^ 19 else wbits (s.x b) 15 0
        s.invalidate t 0 va (w64 (size * 2 ^ 16 + asid))
    | .lcore i =>
      let l := s.lcoreAt i
      match l.mode with
      | .u => s.illegal
      | .vu => s.virtualInst
      | .vs => if wbit (State.hstatus l) 20 then s.virtualInst else s.next
      | .hs => if wbit (l.get State.csrMstatus) 20 then s.illegal else (s.sfenceL i a b).next
      | .m => (s.sfenceL i a b).next)

/-- `sy.park` (R373): retired up to its resumption. -/
def execSyPark (rd : Reg) (s : State) : Out :=
  s.onS fun t =>
    let a := s.pc
    let s := (s.setPc (a + 4)).modCur fun t => t.setCbits cFwd 7 0 rd.toNat
    .next (s.retired.forward t.image 1 a)

/-- `sy.end` (R374). -/
def execSyEnd (rd : Reg) (s : State) : Out :=
  s.onS fun t =>
    s.onCrew fun _ c =>
      if s.fdepth c = 0 then s.status rd (neg 9)
      else
        let s := (upto 0 4).foldl (fun s i => if State.childOf t i = 0 then s else s.stopFleet (State.childOf t i)) s
        .next (s.endGo t.image)

/-- `sy.dbg` (R375). -/
def execSyDbg (rd : Reg) (s : State) : Out :=
  s.onStrand fun t =>
    if !t.att then s.status rd (neg 9)
    else (s.modCur fun t => { t with pendStop := 4, step := false }).status rd 0

/-- `sy.rec` (R376). -/
def execSyRec (rd a b : Reg) (s : State) : Out :=
  s.onS fun t =>
    if wbits (s.coreAt t.core).frecbase 3 0 = 0 then s.status rd (neg 9)
    else (s.strandRecord t 6 (t.cbits cScause 7 0) 0 s.pc (s.x a) (s.x b).toNat).status rd 0

/-- `sy.tlbsd` (R377). -/
def execSyTlbsd (rd a b : Reg) (s : State) : Out :=
  s.onS fun t => if !invalOk (s.x a) (s.x b) then s.status rd (neg 3) else s.invalidate t rd (s.x a) (s.x b)

/-- FORWARD_ENTRY_POST (R366). -/
def execForwardEntryPost (d : Nat) (s : State) : Out := .next (s.postForward d)

/-- FWDRSM_WRITE (R369, R371). -/
def execFwdrsmWrite (d : Nat) (v : Word) (s : State) : Out := .next ((s.setReg (dieReg trapBase d 0x30) v).fwdrsmOp d v)

/-- INVALIDATION_ACK (R380, R381). -/
def execInvalidationAck (id : Nat) (s : State) : Out :=
  .next (match kfind (·.id) s.invals id with
    | some v => if s.invalWaits v then s else s.invalDone v
    | none => s)

/-- IVGO_WRITE (R378). -/
def execIvgoWrite (slot : Nat) (v : Word) (s : State) : Out := .next (s.ivgoOp slot v)

end Sys2Proof.Machine
end

