-- ==== Sys2Proof/Machine/Debug.lean ====
section
/-! DEFINITION. The debug blocks: commands, stops, data accesses, pod halts (R391 to R397). -/

namespace Sys2Proof.Machine

namespace State

/-- Register `o` of the debug block of die d. -/
def dbg (d o : Nat) : Nat := dieReg debugBase d o

/-- DBGCMD.busy: a stop command has not taken effect; a stop takes effect once its forward entry is posted (R393). -/
def dbgBusy (s : State) (d : Nat) : Bool :=
  s.strands.any (fun t => t.pendStop = 1 && s.crewDie t = d) || s.fwdq.any fun e => e.die = d && e.kind = 4 && e.cause = 1

/-- The strand that DBGSEL names when it holds `sel` (R396). A recalled thread that has left is on no W-die. -/
def dbgStrandAt (s : State) (d : Nat) (sel : Word) : Option Strand :=
  match s.strand? sel.toNat with
  | none => none
  | some t => if s.crewDie t = d && !s.away t then some t else none

/-- The strand that DBGSEL names. -/
def dbgStrand (s : State) (d : Nat) : Option Strand := s.dbgStrandAt d (s.reg (dbg d 0x08))

/-- Debug state of the selected strand (Table 14.12). One that waits for a slot or a placement is in none of the listed states:
it reads as resident; a debug-stopped one whose crew is pre-empted is in two: it reads as pre-empted (DESIGN CHOICE, log 78). -/
def dbgState (t : Strand) : Nat :=
  match t.status with
  | .forwarded => 5
  | .preempted => 4
  | .parked => 3
  | .resident => if t.stopped then 2 else 1
  | .waiting => 1

/-- DBGSTAT. -/
def dbgStat (s : State) (d : Nat) : Word :=
  match s.dbgStrand d with
  | none => 0
  | some t => w64 (t.depth * 2 ^ 16 + t.cbits cFwd 31 24 * 2 ^ 8 + dbgState t)

/-- DBGCMD. -/
def dbgCmd (s : State) (d : Nat) : Word := winsert (s.reg (dbg d 0x10)) 8 8 (b2n (s.dbgBusy d))

/-- A stop is named for a strand; a stopped one stays so (R392). -/
def dbgStopOne (s : State) (k : Nat) : State := s.modStrand k fun t => if t.stopped then t else { t with pendStop := 1 }

/-- A stopped strand resumes, for one instruction if `step` (R392 to R394), from its image with the hardware's bytes restored (R370): an
NC invalidation point and a fetch point (R105, R209); at depth 0 it leaves the S set (R356). An instruction that it waits in has its
context lines (R130, R144). Where a line that this reads is poisoned the strand traps then (R174). -/
def dbgResumeOne (s : State) (k : Nat) (step : Bool) : State :=
  match s.strand? k with
  | none => s
  | some t =>
    if !t.stopped then s
    else
      let s := { ((s.restoreImage k).ncPoint t.core).dropIbuf (.strand k) with accPa := 0 }
      let bad := s.imagePoison k [12, 14] && t.wait = .none
      let lines := if t.wait = .none then [12, 14] else (upto 0 16).filter fun i => i = 12 || i = 14 || !s.imagePoison k [i]
      let s := (s.fetchLines k lines).modStrand k fun t =>
        { (t.setCbits cFwd 18 18 0).setCbits cFwd 31 24 0 with step, since := none }
      let s := if bad then s.asAgent (.strand k) fun s => s.trap 27 (w64 k) else s
      match s.strand? k with
      | some u => if u.depth = 0 then s.leaveSset u else s
      | none => s

/-- att and ebs of a strand, in its image where the register cache does not hold them. -/
def dbgAttachOne (s : State) (k v : Nat) : State :=
  match s.strand? k with
  | none => s
  | some t =>
    let kept : Bool := t.status = .parked && t.way ≠ 0
    let s := if kept then s else s.fetchLine k 14
    let s := s.modStrand k fun t => t.setCbits cFwd 17 16 v
    if kept || (t.status = .resident && !t.stopped) then s else s.writeBack k true

/-- The result of a command (Table 14.12). -/
def dbgResult (s : State) (d cmd r : Nat) : State := s.setReg (dbg d 0x10) (w64 (r * 16 + cmd))

/-- A command on the selected strand: ignored while busy; result 1 where DBGSEL names no strand, 2 where `need` fails. -/
def dbgOn (s : State) (d cmd : Nat) (need : Strand → Bool) (g : State → Strand → State) : State :=
  if s.dbgBusy d then s
  else
    match s.dbgStrand d with
    | none => s.dbgResult d cmd 1
    | some t => if need t then g (s.dbgResult d cmd 0) t else s.dbgResult d cmd 2

/-- Strands of a strand's crew. -/
def crewMates (s : State) (t : Strand) : List Strand := s.strands.filter fun u => u.crew = t.crew

/-! ### Commands (Table 14.13) -/

/-- stop. -/
def dbgStopOp (s : State) (d : Nat) : State := s.dbgOn d 1 (fun _ => true) fun s t => s.dbgStopOne t.image
/-- stop crew. -/
def dbgStopCrewOp (s : State) (d : Nat) : State :=
  s.dbgOn d 2 (fun _ => true) fun s t => (s.crewMates t).foldl (fun s u => s.dbgStopOne u.image) s
/-- resume. -/
def dbgResumeOp (s : State) (d : Nat) : State := s.dbgOn d 3 (·.stopped) fun s t => s.dbgResumeOne t.image false
/-- resume crew. -/
def dbgResumeCrewOp (s : State) (d : Nat) : State :=
  s.dbgOn d 4 (fun _ => true) fun s t => (s.crewMates t).foldl (fun s u => s.dbgResumeOne u.image false) s
/-- step. -/
def dbgStepOp (s : State) (d : Nat) : State := s.dbgOn d 5 (·.stopped) fun s t => s.dbgResumeOne t.image true
/-- attach. -/
def dbgAttachOp (s : State) (d : Nat) : State := s.dbgOn d 6 (fun _ => true) fun s t => s.dbgAttachOne t.image 3
/-- detach. -/
def dbgDetachOp (s : State) (d : Nat) : State :=
  s.dbgOn d 7 (fun _ => true) fun s t => (s.dbgAttachOne t.image 0).dbgResumeOne t.image false
/-- An unassigned command: result 3 (Table 14.13), also while DBGSEL names no strand, where R396 gives result 1 (DESIGN CHOICE, log 90). -/
def dbgUnassignedOp (s : State) (d cmd : Nat) : State := if s.dbgBusy d then s else s.dbgResult d cmd 3

/-- A write of DBGCMD. -/
def dbgCommand (s : State) (d : Nat) (v : Word) : State :=
  match wbits v 3 0 with
  | 1 => s.dbgStopOp d
  | 2 => s.dbgStopCrewOp d
  | 3 => s.dbgResumeOp d
  | 4 => s.dbgResumeCrewOp d
  | 5 => s.dbgStepOp d
  | 6 => s.dbgAttachOp d
  | 7 => s.dbgDetachOp d
  | c => s.dbgUnassignedOp d c

/-! ### Data access (R395) -/

/-- Stage bytes of a pre-empted crew in its save area. -/
def savedStage (s : State) (c : Crew) (a : Nat) (wr : Option Word) : State × Nat × Word :=
  let o := a % 2 ^ 20
  let pa := savePart c (a / 2 ^ 20) + o
  let n := min 8 (c.stageSize - o)
  match wr with
  | some v => (s.hwWrite Config.numCores pa (toBytes v.toNat n), 0, v)
  | none =>
    let s := s.hwOpen Config.numCores pa n
    if n ≠ 0 && s.poisonAt pa n then (s, 2, 0) else (s, 0, w64 (s.hwPeek pa n))

/-- Two accumulator columns from key `k`. -/
def dbgAcc (s : State) (c : Crew) (k : Nat) (wr : Option Word) : State × Nat × Word :=
  if 2 ≤ c.pre then
    match wr with
    | some v => (s.hwWrite Config.numCores (accHome c k) (toBytes v.toNat 8), 0, v)
    | none => let s := s.hwOpen Config.numCores (accHome c k) 8; (s, 0, w64 (s.hwPeek (accHome c k) 8))
  else
    match wr with
    | some v => (s.modCrew c.id fun c => (c.accSet k (v.toNat % 2 ^ 32)).accSet (k + 1) (v.toNat / 2 ^ 32), 0, v)
    | none =>
      if c.accFail.contains k || c.accFail.contains (k + 1) then
        let (x, s) := s.drawNat
        (s, 0, w64 x)
      else (s, 0, w64 (c.accGet k + 2 ^ 32 * c.accGet (k + 1)))

/-- The access itself: new state, error and value; `none` while it has to wait for a command or for the engine order. It is made at
what DBGADDR holds then (DESIGN CHOICE, log 68). -/
def dbgData (s : State) (d : Nat) (sel : Word) (wr : Option Word) : Option (State × Nat × Word) :=
  if s.dbgBusy d then none
  else
    let ad := s.reg (dbg d 0x20)
    let a := wbits ad 23 0
    match s.dbgStrandAt d sel with
    | none => some (s, 1, 0)
    | some t =>
      match s.crewOf t with
      | none => some (s, 1, 0)
      | some c =>
        match wbits ad 63 62 with
        | 0 =>
          if a % 8 ≠ 0 || !c.stageIn a 8 then some (s, 2, 0)
          else if 2 ≤ c.pre then some (s.savedStage c a wr)
          else
            match wr with
            | some v => some (s.stageWrite c.id a v.toNat 8, 0, v)
            | none => if c.stageBad a 8 then some (s, 2, 0) else some (s, 0, w64 (c.stageGet a 8))
        | 1 =>
          if !awOk c a || awPartner a ≠ 0 || awCol a % 2 ≠ 0 then some (s, 2, 0)
          else if c.banks ≤ awBank a || !c.allocd (awCore a) (awBank a) then some (s, 3, 0)
          else if c.pre < 2 && !(s.queueOf (c.coreNum (awCore a))).isEmpty then none
          else some (s.dbgAcc c (Crew.accKey (awCore a) (awBank a) (awRow a) (awCol a)) wr)
        | _ => some (s, 2, 0)

/-- A DBGDATA access that began with DBGSEL at `sel`, with its error in DBGERR. -/
def dbgDataOp (s : State) (d : Nat) (sel : Word) (wr : Option Word) : Option (State × Word) :=
  (s.dbgData d sel wr).map fun r =>
    (((r.1.setReg (dbg d 0x28) (match wr with | some v => v | none => r.2.2)).setReg (dbg d 0x30) (w64 r.2.1)), r.2.2)

/-- A DBGDATA access begins, as the load of an L-core or not: performed at once, or after those that wait and after the command
(R396); what was read, where it was performed. A load that waits is found again at its next attempt. -/
def dbgAccess (s : State) (d : Nat) (by' : Option Nat) (wr : Option Word) : State × Option Word :=
  let mine := s.dbgq.find? fun e => e.die = d && e.by' = by' && by' ≠ none
  let first := s.dbgq.find? fun e => e.die = d
  let sel := match mine with | some e => e.sel | none => s.reg (dbg d 0x08)
  match (if first = mine then s.dbgDataOp d sel wr else none) with
  | some (s', v) => (match mine with | some e => { s' with dbgq := s'.dbgq.erase e } | none => s', some v)
  | none => (if mine.isSome then s else { s with dbgq := s.dbgq ++ [{ die := d, sel, wr, by' }] }, none)

/-- The accesses of DBGDATA that wait for no load are tried again, oldest first. -/
def dbgFlush (s : State) : State :=
  if s.dbgq.isEmpty then s
  else
    s.dbgq.foldl (fun s e =>
      if e.by' = none && s.dbgq.find? (fun x => x.die = e.die) = some e then
        match s.dbgDataOp e.die e.sel e.wr with
        | some (s', _) => { s' with dbgq := s'.dbgq.erase e }
        | none => s
      else s) s

/-- A pod halts or goes on (R397): LR holds on it end; the age of its strands starts anew (R95). -/
def podHalt (s : State) (q : Nat) (b : Bool) : State :=
  if (s.podAt q).halted = b then s
  else
    let s := (s.modPod q fun x => { x with halted := b }).endHoldsOf q
    { s with strands := s.strands.map fun t => if podOf t.core = q then { t with since := none } else t }

/-- A write of DBGHALT (R397). -/
def dbgHaltOp (s : State) (d : Nat) (v : Word) : State :=
  (upto 0 12).foldl (fun s p => s.podHalt (12 * d + p) (wbit v p)) (s.setReg (dbg d 0) (w64 (wbits v 11 0)))

/-- A pending stop takes effect at an instruction boundary of a resident strand (R393). A wait that has not begun an
instruction is dropped; a signature, an arrival or an entry goes on. -/
def stopDue (s : State) (k : Nat) : State :=
  match s.strand? k with
  | none => s
  | some t =>
    let here : Bool := t.status = .resident && t.pendStop ≠ 0 && !t.stopped
      && match s.crewOf t with | some c => c.pre = 0 | none => false
    if !here then s
    else
      let stop (s : State) : State := s.debugStopOp k t.pendStop
      match t.wait with
      | .none => stop s
      | .pause _ => stop (s.dropWait k)
      | .park _ _ _ => stop (s.dropWait k)
      | .home _ => stop (s.dropWait k)
      | .wrs _ => stop (s.finishWith k id)
      | .busy _ => stop (s.dropWait k)
      | .barrier _ _ _ _ => stop s
      | .cvWt _ _ _ => stop s
      | .signed _ _ _ => stop s
      | .engine _ _ => s
      | .ack _ _ => s
      | .group _ _ => s
      | .ending => s

end State

/-- DBG_STOP. -/
def execDbgStop (d : Nat) (s : State) : Out := .next (s.dbgStopOp d)
/-- DBG_STOP_CREW. -/
def execDbgStopCrew (d : Nat) (s : State) : Out := .next (s.dbgStopCrewOp d)
/-- DBG_RESUME. -/
def execDbgResume (d : Nat) (s : State) : Out := .next (s.dbgResumeOp d)
/-- DBG_RESUME_CREW. -/
def execDbgResumeCrew (d : Nat) (s : State) : Out := .next (s.dbgResumeCrewOp d)
/-- DBG_STEP. -/
def execDbgStep (d : Nat) (s : State) : Out := .next (s.dbgStepOp d)
/-- DBG_ATTACH. -/
def execDbgAttach (d : Nat) (s : State) : Out := .next (s.dbgAttachOp d)
/-- DBG_DETACH. -/
def execDbgDetach (d : Nat) (s : State) : Out := .next (s.dbgDetachOp d)
/-- DBG_UNASSIGNED: commands 0 and 8 to 15; a number of another command does nothing. -/
def execDbgUnassigned (d : Nat) (cmd : BitVec 4) (s : State) : Out :=
  .next (if 1 ≤ cmd.toNat && cmd.toNat ≤ 7 then s else s.dbgUnassignedOp d cmd.toNat)
/-- DEBUG_STOP (R393). -/
def execDebugStop (k : Nat) (s : State) : Out := .next (s.stopDue k)
/-- DBGDATA_READ (R395, R396). -/
def execDbgdataRead (d : Nat) (s : State) : Out := .next (s.dbgAccess d none none).1
/-- DBGDATA_WRITE (R395, R396). -/
def execDbgdataWrite (d : Nat) (v : Word) (s : State) : Out := .next (s.dbgAccess d none (some v)).1
/-- DBGHALT_WRITE (R397). -/
def execDbghaltWrite (d : Nat) (v : Word) (s : State) : Out := .next (s.dbgHaltOp d v)

end Sys2Proof.Machine
end

