-- ==== Sys2Proof/Machine/Sha512.lean ====
section
/-! DEFINITION. SHA-512 (FIPS 180-4), which the firmware images and the evidence use (R426, R427, R431, R432). Words are numbers below
2^64. -/

namespace Sys2Proof.Machine.Sha512

/-- Rotation of a 64-bit word to the right. -/
def rotr (x n : Nat) : Nat := (x >>> n) ||| ((x <<< (64 - n)) % 2 ^ 64)

/-- The small sigma functions, of the message schedule. -/
def small0 (x : Nat) : Nat := rotr x 1 ^^^ rotr x 8 ^^^ (x >>> 7)
/-- The second of them. -/
def small1 (x : Nat) : Nat := rotr x 19 ^^^ rotr x 61 ^^^ (x >>> 6)
/-- The large sigma functions, of the rounds. -/
def large0 (x : Nat) : Nat := rotr x 28 ^^^ rotr x 34 ^^^ rotr x 39
/-- The second of them. -/
def large1 (x : Nat) : Nat := rotr x 14 ^^^ rotr x 18 ^^^ rotr x 41

/-- Choice by the bits of `x`. -/
def choose (x y z : Nat) : Nat := (x &&& y) ^^^ ((2 ^ 64 - 1 - x) &&& z)
/-- Majority. -/
def majority (x y z : Nat) : Nat := (x &&& y) ^^^ (x &&& z) ^^^ (y &&& z)

/-- Round constants 0 to 15. -/
def k0 : List Nat :=
  [0x428a2f98d728ae22, 0x7137449123ef65cd, 0xb5c0fbcfec4d3b2f, 0xe9b5dba58189dbbc,
   0x3956c25bf348b538, 0x59f111f1b605d019, 0x923f82a4af194f9b, 0xab1c5ed5da6d8118,
   0xd807aa98a3030242, 0x12835b0145706fbe, 0x243185be4ee4b28c, 0x550c7dc3d5ffb4e2,
   0x72be5d74f27b896f, 0x80deb1fe3b1696b1, 0x9bdc06a725c71235, 0xc19bf174cf692694]

/-- Round constants 16 to 31. -/
def k1 : List Nat :=
  [0xe49b69c19ef14ad2, 0xefbe4786384f25e3, 0x0fc19dc68b8cd5b5, 0x240ca1cc77ac9c65,
   0x2de92c6f592b0275, 0x4a7484aa6ea6e483, 0x5cb0a9dcbd41fbd4, 0x76f988da831153b5,
   0x983e5152ee66dfab, 0xa831c66d2db43210, 0xb00327c898fb213f, 0xbf597fc7beef0ee4,
   0xc6e00bf33da88fc2, 0xd5a79147930aa725, 0x06ca6351e003826f, 0x142929670a0e6e70]

/-- Round constants 32 to 47. -/
def k2 : List Nat :=
  [0x27b70a8546d22ffc, 0x2e1b21385c26c926, 0x4d2c6dfc5ac42aed, 0x53380d139d95b3df,
   0x650a73548baf63de, 0x766a0abb3c77b2a8, 0x81c2c92e47edaee6, 0x92722c851482353b,
   0xa2bfe8a14cf10364, 0xa81a664bbc423001, 0xc24b8b70d0f89791, 0xc76c51a30654be30,
   0xd192e819d6ef5218, 0xd69906245565a910, 0xf40e35855771202a, 0x106aa07032bbd1b8]

/-- Round constants 48 to 63. -/
def k3 : List Nat :=
  [0x19a4c116b8d2d0c8, 0x1e376c085141ab53, 0x2748774cdf8eeb99, 0x34b0bcb5e19b48a8,
   0x391c0cb3c5c95a63, 0x4ed8aa4ae3418acb, 0x5b9cca4f7763e373, 0x682e6ff3d6b2b8a3,
   0x748f82ee5defb2fc, 0x78a5636f43172f60, 0x84c87814a1f0ab72, 0x8cc702081a6439ec,
   0x90befffa23631e28, 0xa4506cebde82bde9, 0xbef9a3f7b2c67915, 0xc67178f2e372532b]

/-- Round constants 64 to 79. -/
def k4 : List Nat :=
  [0xca273eceea26619c, 0xd186b8c721c0c207, 0xeada7dd6cde0eb1e, 0xf57d4f7fee6ed178,
   0x06f067aa72176fba, 0x0a637dc5a2c898a6, 0x113f9804bef90dae, 0x1b710b35131c471b,
   0x28db77f523047d84, 0x32caab7b40c72493, 0x3c9ebe0a15c9bebc, 0x431d67c49c100d4c,
   0x4cc5d4becb3e42b6, 0x597f299cfc657e2a, 0x5fcb6fab3ad6faec, 0x6c44198c4a475817]

/-- The 80 round constants. -/
def constants : List Nat := k0 ++ k1 ++ k2 ++ k3 ++ k4

/-- The eight working words, and the state of the hash. -/
structure Words where
  a : Nat
  b : Nat
  c : Nat
  d : Nat
  e : Nat
  f : Nat
  g : Nat
  h : Nat
  deriving DecidableEq, Repr

/-- The first state. -/
def start : Words := ⟨0x6a09e667f3bcc908, 0xbb67ae8584caa73b, 0x3c6ef372fe94f82b, 0xa54ff53a5f1d36f1,
  0x510e527fade682d1, 0x9b05688c2b3e6c1f, 0x1f83d9abfb41bd6b, 0x5be0cd19137e2179⟩

/-- The state as a list. -/
def Words.list (w : Words) : List Nat := [w.a, w.b, w.c, w.d, w.e, w.f, w.g, w.h]

/-- One round with constant `k` and schedule word `x`. -/
def round (w : Words) (k x : Nat) : Words :=
  let t1 := w.h + large1 w.e + choose w.e w.f w.g + k + x
  let t2 := large0 w.a + majority w.a w.b w.c
  ⟨(t1 + t2) % 2 ^ 64, w.a, w.b, w.c, (w.d + t1) % 2 ^ 64, w.e, w.f, w.g⟩

/-- `n` further words of a message schedule, whose words so far stand last first. -/
def extend : Nat → List Nat → List Nat
  | 0, l => l
  | n + 1, l => extend n ((small1 (l.getD 1 0) + l.getD 6 0 + small0 (l.getD 14 0) + l.getD 15 0) % 2 ^ 64 :: l)

/-- The number of 8 bytes, highest first. -/
def word (l : List Byte) : Nat := ofBytes (l.take 8).reverse

/-- The compression of a block of 128 bytes. -/
def block (s : Words) (b : List Byte) : Words :=
  let w := (extend 64 ((upto 0 16).map fun i => word (b.drop (8 * i))).reverse).reverse
  let r := (List.zip constants w).foldl (fun r kx => round r kx.1 kx.2) s
  let add (x y : Nat) : Nat := (x + y) % 2 ^ 64
  ⟨add s.a r.a, add s.b r.b, add s.c r.c, add s.d r.d, add s.e r.e, add s.f r.f, add s.g r.g, add s.h r.h⟩

/-- `n` blocks. -/
def blocks : Nat → Words → List Byte → Words
  | 0, s, _ => s
  | n + 1, s, m => blocks n (block s (m.take 128)) (m.drop 128)

/-- The padded message. -/
def pad (m : List Byte) : List Byte :=
  m ++ [0x80] ++ List.replicate ((239 - m.length % 128) % 128) 0 ++ (toBytes (8 * m.length) 16).reverse

/-- SHA-512 of a string of bytes, as its 64 bytes. -/
def digest (m : List Byte) : List Byte :=
  let p := pad m
  (blocks (p.length / 128) start p).list.flatMap fun w => (toBytes w 8).reverse

end Sys2Proof.Machine.Sha512
end

