-- ==== Sys2Proof/Machine/Ed25519.lean ====
section
/-! DEFINITION. Ed25519 in its pure form (RFC 8032), which the firmware images and the evidence use (R427, R431, R432). -/

namespace Sys2Proof.Machine.Ed25519

/-- The prime of the field. -/
def p : Nat := 2 ^ 255 - 19

/-- The order of the base point. -/
def order : Nat := 2 ^ 252 + 27742317777372353535851937790883648493

/-- `b ^ e` modulo `m`, from the `n` low bits of `e`. -/
def powMod (m : Nat) : Nat → Nat → Nat → Nat
  | 0, _, _ => 1
  | n + 1, b, e => powMod m n (b * b % m) (e / 2) * (if e % 2 = 1 then b else 1) % m

/-- The inverse in the field. -/
def inv (x : Nat) : Nat := powMod p 255 x (p - 2)

/-- The constant of the curve: -121665 / 121666. -/
def curveD : Nat := 37095705934669439343138083508754565189542113879843219016388785533085940283555

/-- A point in extended homogeneous coordinates. -/
structure Point where
  x : Nat
  y : Nat
  z : Nat
  t : Nat
  deriving DecidableEq, Repr

/-- The neutral point. -/
def zero : Point := ⟨0, 1, 1, 0⟩

/-- A difference in the field. -/
def sub (a b : Nat) : Nat := (a + (p - b % p)) % p

/-- The sum of two points. -/
def add (u v : Point) : Point :=
  let a := sub u.y u.x * sub v.y v.x % p
  let b := (u.y + u.x) * (v.y + v.x) % p
  let c := u.t * 2 * curveD % p * v.t % p
  let d := u.z * 2 * v.z % p
  let e := sub b a
  let f := sub d c
  let g := (d + c) % p
  let h := (b + a) % p
  ⟨e * f % p, g * h % p, f * g % p, e * h % p⟩

/-- `k` times a point, from the `n` low bits of `k`. -/
def mul : Nat → Nat → Point → Point
  | 0, _, _ => zero
  | n + 1, k, u => let v := mul n (k / 2) (add u u); if k % 2 = 1 then add v u else v

/-- Two points are equal. -/
def same (u v : Point) : Bool := u.x * v.z % p = v.x * u.z % p && u.y * v.z % p = v.y * u.z % p

/-- The x coordinate of sign `s` for a y coordinate. -/
def recover (y s : Nat) : Option Nat :=
  if p ≤ y then none
  else
    let u := sub (y * y % p) 1
    let v := (curveD * (y * y % p) + 1) % p
    let x := u * powMod p 2 v 3 % p * powMod p 255 (u * powMod p 3 v 7 % p) ((p - 5) / 8) % p
    let vx := v * (x * x % p) % p
    let x : Option Nat :=
      if vx = u % p then some x else if vx = sub 0 u then some (x * powMod p 255 2 ((p - 1) / 4) % p) else none
    match x with
    | none => none
    | some x => if x = 0 && s = 1 then none else some (if x % 2 = s then x else p - x)

/-- The point that 32 bytes stand for. -/
def decodePoint (b : List Byte) : Option Point :=
  let n := ofBytes (b.take 32)
  let y := n % 2 ^ 255
  (recover y (n / 2 ^ 255)).map fun x => ⟨x, y, 1, x * y % p⟩

/-- The 32 bytes of a point. -/
def encodePoint (u : Point) : List Byte :=
  let z := inv u.z
  toBytes (u.y * z % p + 2 ^ 255 * (u.x * z % p % 2)) 32

/-- The base point. -/
def base : Point :=
  let x := 15112221349535400772501151409588531511454012693041857206046113283949847762202
  let y := 46316835694926478169428394003475163141307993866256225615783033603165251855960
  ⟨x, y, 1, x * y % p⟩

/-- SHA-512 as a number. -/
def hash (m : List Byte) : Nat := ofBytes (Sha512.digest m)

/-- A signature of 64 bytes by a key of 32 bytes verifies, by the group equation with the cofactor (log 16). -/
def verify (key msg sig : List Byte) : Bool :=
  let s := ofBytes ((sig.drop 32).take 32)
  match decodePoint key, decodePoint sig with
  | some a, some r =>
    let k := hash (sig.take 32 ++ key ++ msg)
    s < order && same (mul 4 8 (mul 256 s base)) (mul 4 8 (add r (mul 512 k a)))
  | _, _ => false

/-- The secret scalar of a seed of 32 bytes. -/
def scalar (seed : List Byte) : Nat := insert (ofBytes ((Sha512.digest seed).take 32) / 8 * 8) 255 254 1

/-- The public key of a seed. -/
def publicKey (seed : List Byte) : List Byte := encodePoint (mul 256 (scalar seed) base)

/-- The signature of a message. -/
def sign (seed msg : List Byte) : List Byte :=
  let key := publicKey seed
  let r := hash ((Sha512.digest seed).drop 32 ++ msg) % order
  let rr := encodePoint (mul 256 r base)
  rr ++ toBytes ((r + hash (rr ++ key ++ msg) * scalar seed) % order) 32

end Sys2Proof.Machine.Ed25519
end

