-- ==== Sys2Proof/Machine/Power.lean ====
section
/-! DEFINITION. Power, current and coolant (15_power_coolant.md): the `pw.` instructions and the steps of the three
controllers. Measured values are inputs. -/

namespace Sys2Proof.Machine

/-- Base clock of a class in MHz (Table 15.1). -/
def baseMhz (c : Nat) : Nat := match c with | 0 => 1700 | 1 => 1900 | _ => 1200

namespace State

/-- A ballast episode runs. -/
def ballast (s : State) : Bool := s.pkg.episode

/-- Updates the package-wide state. -/
def modPkg (s : State) (f : Pkg → Pkg) : State := { s with pkg := f s.pkg }

/-- Sets a bit of IRQSTAT (R406). -/
def raiseIrq (s : State) (b : Nat) : State :=
  s.setReg (powerBase + 0x38) (s.reg (powerBase + 0x38) ||| w64 (2 ^ b))

/-- Class field of a pod: 0b11 in transition (Table 15.7). -/
def podClass (s : State) (q : Nat) : Nat := if (s.podAt q).rcls = 2 then 3 else (s.podAt q).pool

/-- `pwst` of a pod for a crew (Table 15.7). -/
def pwst (s : State) (q : Nat) (wd : Bool) : Word :=
  let p := s.podAt q
  let nohr : Bool := s.allowance q < s.load' q + s.classCost (s.podClass q)
  w64 (p.mhz * 2 ^ 16 + b2n nohr * 2 ^ 10 + b2n s.ballast * 2 ^ 9 + b2n wd * 2 ^ 8 + p.steps * 2 ^ 4 + p.passcnt * 4 + s.podClass q)

/-! ### Zones (R410 to R414) -/

/-- Valve opening in force: closed or open during a purge, closed in state 5. -/
def valveNow (x : ZoneState) : Nat :=
  if x.state = 5 || (x.state = 4 && x.purge = 1) then 0 else if x.state = 4 && x.purge = 2 then 0xFF else x.valve

/-- Full-valve Fmin of a zone in mL/min. -/
def fullMin (z : Nat) : Nat := if z < Config.numPods then 60 else 120

/-- flow < Fmin(z) / k (R412). -/
def below (x : ZoneState) (z k flow : Nat) : Bool := flow * 255 * k < valveNow x * fullMin z

/-- TLIM.warn and TLIM.trip. -/
def warn (s : State) : Nat := wbits (s.reg (powerBase + 0x30)) 11 0
/-- TLIM.trip. -/
def tripT (s : State) : Nat := wbits (s.reg (powerBase + 0x30)) 27 16

/-- Whether each timed condition of a zone holds. -/
def zoneConds (s : State) (x : ZoneState) (z : Nat) : List Bool :=
  [below x z 1 x.flow, !below x z 1 x.flow, below x z 8 x.flow, x.temp + 80 < s.warn, x.temp < s.warn]

/-- A zone changes by `f`, which may change what its timed conditions compare; a condition that begins to hold counts from
now. -/
def zoneSet (s : State) (z : Nat) (f : ZoneState → ZoneState) : State :=
  s.modZone z fun x =>
    let y := f x
    let was := s.zoneConds x z
    let is' := s.zoneConds y z
    let from' (i old : Nat) : Nat := if is'.getD i false && !was.getD i false then s.time.toNat else old
    { y with lowFrom := from' 0 y.lowFrom, okFrom := from' 1 y.okFrom, dryFrom := from' 2 y.dryFrom,
             coolFrom := from' 3 y.coolFrom, belowFrom := from' 4 y.belowFrom }

/-- New measurements of a zone. -/
def senseZone (s : State) (z temp flow : Nat) : State := s.zoneSet z fun x => { x with temp, flow }

/-- Measured flow. -/
def senseFlow (s : State) (z flow : Nat) : State := s.senseZone z (s.zoneAt z).temp flow

/-- Measured temperature. -/
def senseTemp (s : State) (z temp : Nat) : State := s.senseZone z temp (s.zoneAt z).flow

/-- A condition that began at `t` has held for `ns`. -/
def heldFor (s : State) (t ns : Nat) : Bool := t + ns ≤ s.time.toNat

/-- Entry condition of state 1, 2, 3 or 6 of a zone, from its present state (Table 15.4). -/
def mayEnter (s : State) (z : Nat) (void : Bool) (n : Nat) : Bool :=
  let x := s.zoneAt z
  match n with
  | 1 => x.state = 0 && below x z 1 x.flow && s.heldFor x.lowFrom 1000000
  | 2 => x.state ≤ 1 && s.warn ≤ x.temp
  | 3 => x.state ≤ 2 && (void || (below x z 8 x.flow && s.heldFor x.dryFrom 200000))
  | _ => x.state ≤ 2 && s.tripT ≤ x.temp

/-- The state that a zone enters: of the conditions that hold, the highest code. -/
def entered (s : State) (z : Nat) (void : Bool) (n : Nat) : Bool :=
  z < Config.numZones &&
  s.mayEnter z void n && ([1, 2, 3, 6].all fun k => k ≤ n || !s.mayEnter z void k)

/-- No condition of a higher code holds, which would be entered in place of state 0 (R412). -/
def staysLow (s : State) (z : Nat) : Bool := [2, 3, 6].all fun k => !s.mayEnter z false k

/-- A pod in reassignment whose zone is evacuated: the request ends with st 5 (Table 15.8). -/
def endRequest (s : State) (q st : Nat) : State :=
  (s.modPod q fun p => { p with rcls := 0 }).modDie (q / 12) fun d => { d with clsreq := winsert d.clsreq 31 28 st }

/-- The pass count in force on a pod; a change ends the LR holds of its W-cores (R217, R233, R402). -/
def setPass (s : State) (q v : Nat) : State :=
  if (s.podAt q).passcnt = v then s else (s.modPod q fun p => { p with passcnt := v }).endHoldsOf q

/-- Step 1 of an evacuation (Table 15.5). -/
def evacuate (s : State) (z : Nat) : State :=
  if z < Config.numPods then
    let s := if (s.podAt z).rcls ≠ 0 then s.endRequest z 5 else s
    ((s.setPass z 2).modPod z fun p => { p with bstmax := 0 }).withdrawPod z 3 0
  else s

/-- Pass count of a pod outside an evacuation: the larger of what firmware wrote and what the power controller asks for (R402, R407). -/
def passNow (p : PodState) : Nat := max p.passW p.passC

/-- `passcnt` and `bstmax` return to the values last written, by firmware or by the power controller, whose means stay in force; the
W-cores are powered, the zone is normal (R407, R414 steps 2a and 4). -/
def zoneBack (s : State) (z : Nat) : State :=
  let s := s.zoneSet z fun x => { x with state := 0, purge := 0, gated := false }
  if z < Config.numPods then
    let s := (s.setPass z (passNow (s.podAt z))).modPod z fun p => { p with bstmax := if s.pkg.means = 0 then p.bstW else 0 }
    (upto (4 * z) 4).foldl (fun s n => s.modCore n fun c => { c with powered := true }) s
  else s

/-- The context lines that the W-cores of a pod still hold are written back (R404, R414). -/
def flushPod (s : State) (q : Nat) : State :=
  (upto (4 * q) 4).foldl (fun s n => (s.evictable n).foldl (fun s e => s.writeLine e.1 true e.2) s) s

/-- Latest placed crew of those in place that are not withdrawn. -/
def latest (l : List Crew) : Option Crew := maxBy (·.order) (l.filter fun c => inPlace c && c.wd = 0)

end State

/-- `pw.qry` (R416). -/
def execPwQry (rd a : Reg) (s : State) : Out :=
  s.onCrew fun t c =>
    let q := State.podOf t.core
    s.status rd (match (s.x a).toNat with
      | 0 => s.pwst q (c.wd ≠ 0)
      | 1 => w64 (s.podAt q).mhz
      | 2 => w64 (s.allowance q)
      | 3 => w64 (s.load' q)
      | 4 => if c.wd = 0 then 0 else w64 ((c.wdEnd - s.time.toNat) / 1000)
      | _ => neg 3)

/-- `pw.yld` (R417): retired up to the resumption, when its status is written. -/
def execPwYld (rd : Reg) (s : State) : Out :=
  s.onCrew fun t c =>
    if t.sMode || !t.leader then s.status rd (neg 9)
    else if c.wd = 0 then s.status rd (neg 4)
    else
      match s.next with
      | .next s => .next ((s.modStrand t.image fun t => { t with yielded := rd }).preemptFrom c)
      | .fault x => .fault x
      | .refused x => .refused x

/-- `pw.wind` (R418). -/
def execPwWind (rd a : Reg) (s : State) : Out :=
  s.onStrand fun _ => s.status rd (if (s.x a).toNat = 0 || 1000 < (s.x a).toNat then neg 3 else 0)

/-- RECLASS_SAVES_DONE (R404 step 2): every crew of the pod is saved and its lines are written back; it belongs to no pool, and LR
holds end (R217). -/
def execReclassSavesDone (pod : Nat) (s : State) : Out :=
  .next (if (s.podAt pod).rcls = 1 && (s.podCrews pod).isEmpty then
      ((s.flushPod pod).endHoldsOf pod).modPod pod fun p => { p with rcls := 2 }
    else s)

/-- RECLASS_CLOCK_SETTLED (R404 steps 3 and 4). -/
def execReclassClockSettled (pod : Nat) (s : State) : Out :=
  .next (if (s.podAt pod).rcls = 2 then
      (s.modPod pod fun p => { p with pool := p.target, mhz := baseMhz p.target, steps := 0 }).endRequest pod 2
    else s)

/-- WITHDRAWAL_START (R413): of every crew of a pod in reassignment or evacuation; of the latest placed crew where the
committed load is above the allowance and no withdrawal is in progress on the pod. -/
def execWithdrawalStart (pod : Nat) (s : State) : Out :=
  let z := s.zoneAt pod
  .next (if Config.numPods ≤ pod then s
    else if (s.podAt pod).rcls = 1 then s.withdrawPod pod 1 s.grace
    else if z.state = 3 || z.state = 6 then s.withdrawPod pod 3 0
    else if z.state ≤ 1 && s.allowance pod < s.load' pod && (s.podCrews pod).all (fun c => c.wd = 0 && c.pre ≠ 1) then
      match State.latest (s.podCrews pod) with
      | some c => s.withdraw c 4 s.grace
      | none => s
    else s)

/-- BOOST_RECOMPUTE (R401), at a multiple of 10 µs: the gated lane-cycles of the 10 µs just ended give the new clock; a pod in
transition between classes only begins a new measurement. -/
def execBoostRecompute (pod : Nat) (s : State) : Out :=
  let now := s.time.toNat
  let p := s.podAt pod
  .next (if now % 10000 ≠ 0 || p.boostAt = now then s
    else
      let n := ((upto (4 * pod) 4).filter s.coreOn).length
      let cyc := (p.ticks - p.boostTicks) / 1000
      let k := min (min p.bstmax (16 * p.gated / (128 * n * cyc))) 8
      s.modPod pod fun p =>
        let p := { p with gated := 0, boostAt := now, boostTicks := p.ticks }
        if p.rcls = 2 then p else { p with mhz := baseMhz p.pool + 25 * k, steps := k })

/-- POWER_WINDOW (R407): the average of the window just ended; the next means, or the release of one, which a free value
decides. Pods are slowed in descending order of draw, of equals the lower first, and released in reverse. After a window that ballast
lifted above the cap the limit of the next lies as far below it; PWCAP is read at its start. -/
def execPowerWindow (avg : BitVec 16) (s : State) : Out :=
  let now := s.time.toNat
  .next (if now % 10000000 ≠ 0 || s.pkg.windowAt = now then s
    else
      let above : Bool := s.pkg.limit < avg.toNat
      let cap := wbits (s.reg powerBase) 15 0
      let s := (s.setReg (powerBase + 0x10) (winsert (s.reg (powerBase + 0x10)) 15 0 avg.toNat)).modPkg fun p =>
        { p with windowAt := now, cap, limit := if p.ballasted && p.cap < avg.toNat then 2 * cap - avg.toNat else cap,
                 ballasted := p.episode }
      let up (s : State) (n : Nat) : State := s.modPkg fun p => { p with means := n }
      let normal (q : Nat) : Bool := (s.zoneAt q).state < 3
      let slower (c : Nat) : List Nat := (upto 0 48).filter fun q => normal q && State.passNow (s.podAt q) = c
      if above || s.pkg.limit < cap then
        match s.pkg.means with
        | 0 => { up s 1 with pods := s.pods.map fun p => { p with bstmax := 0 } }
        | 3 => up s 4
        | 4 => match State.latest s.crews with | some c => s.withdraw c 2 s.grace | none => s
        | _ =>
          match maxBy (fun q => (s.podAt q).draw) (if (slower 0).isEmpty then slower 1 else slower 0) with
          | some q =>
            let s := ((up s 2).modPkg fun p => { p with slowed := p.slowed ++ [q] }).modPod q fun p => { p with passC := State.passNow p + 1 }
            s.setPass q (State.passNow (s.podAt q))
          | none => up s 3
      else
        let (b, s) := s.drawBit
        if !b then s
        else
          match s.pkg.means with
          | 0 => s
          | 1 =>
            { up s 0 with pods := (List.zip s.pods (upto 0 48)).map fun e => if normal e.2 then { e.1 with bstmax := e.1.bstW } else e.1 }
          | 2 =>
            match s.pkg.slowed.getLast? with
            | some q =>
              let s := (s.modPkg fun p => { p with slowed := p.slowed.dropLast }).modPod q fun p => { p with passC := p.passC - 1 }
              if normal q then s.setPass q (State.passNow (s.podAt q)) else s
            | none => up s 1
          | n => up s (n - 1))

namespace State

/-- A current-limit event: ballast stops at once (R409). -/
def currentLimit (s : State) : State :=
  let r := s.reg (powerBase + 0x10)
  ((s.raiseIrq 3).setReg (powerBase + 0x10) (winsert r 32 32 0)).modPkg fun p => { p with episode := false, draw := p.raw }

/-- The measured draw of a W-die has fallen since the last sample. -/
def drawFell (s : State) (d : Nat) : Bool :=
  let sum (f : PodState → Nat) : Nat := (upto (12 * d) 12).foldl (fun n q => n + f (s.podAt q)) 0
  sum (·.draw) < sum (·.drawWas)

/-- An entry is in progress on the engine of a W-core: it has started and not ended (R262, R408). -/
def engineBusy (s : State) (n : Nat) : Bool :=
  s.engine.any fun e => e.core = n && match e.op with | .calc _ _ _ _ _ _ _ _ => true | _ => false

/-- Cycles of ballast that the idle engines of the W-dies whose draw fell ran in a sample interval: a free number for each W-core that
is enabled and powered, up to the whole interval (R408). -/
def ballastCount (s : State) : State :=
  (upto 0 Config.numCores).foldl (fun s n =>
    if s.engineBusy n || !s.coreOn n || !(s.coreAt n).powered || !s.drawFell (dieOf n) then s
    else
      let (k, s) := s.drawNat
      s.modCore n fun c => { c with balcnt := c.balcnt + w64 (k % ((s.podAt (podOf n)).mhz / 2 + 1)) }) s

end State

/-- CURRENT_SAMPLE (R408, R409), every 0.5 µs: the actual draw of the W-dies in W. -/
def execCurrentSample (draw : Nat) (s : State) : Out :=
  let now := s.time.toNat
  .next (if now % 500 ≠ 0 || s.pkg.sampleAt = now then s
    else
      let d := 2 * draw
      let sampled (s : State) : State := { s with pods := s.pods.map fun p => { p with drawWas := p.draw } }
      let s := s.modPkg fun p => { p with sampleAt := now, raw := d }
      let s := if s.pkg.episode && s.pkg.epStart + 50000 ≤ now then s.currentLimit else s
      let lim := s.pkg.draw - wbits (s.reg (powerBase + 0x08)) 9 0
      let r := s.reg (powerBase + 0x10)
      if d < lim then
        let s := if s.pkg.episode then s
          else (s.setReg (powerBase + 0x10) (winsert (winsert r 32 32 1) 63 48 (wbits r 63 48 + 1))).modPkg fun p =>
            { p with episode := true, epStart := now }
        sampled (s.ballastCount.modPkg fun p => { p with draw := lim, ballasted := true })
      else
        sampled ((s.setReg (powerBase + 0x10) (winsert r 32 32 0)).modPkg fun p => { p with episode := false, draw := d }))

/-- CURRENT_LIMIT_EVENT (R409): an episode reaches 50 µs. -/
def execCurrentLimitEvent (s : State) : Out :=
  .next (if s.pkg.episode && s.pkg.epStart + 50000 ≤ s.time.toNat then s.currentLimit else s)

/-- ZONE_ENTER_LOW_FLOW (Table 15.4). -/
def execZoneEnterLowFlow (z : Nat) (flow : BitVec 16) (s : State) : Out :=
  let s := s.senseFlow z flow.toNat
  .next (if s.entered z false 1 then (s.zoneSet z fun x => { x with state := 1 }).raiseIrq 0 else s)

/-- ZONE_LEAVE_LOW_FLOW. -/
def execZoneLeaveLowFlow (z : Nat) (flow : BitVec 16) (s : State) : Out :=
  let s := s.senseFlow z flow.toNat
  let x := s.zoneAt z
  .next (if x.state = 1 && !State.below x z 1 x.flow && s.heldFor x.okFrom 10000000 && s.staysLow z then
      s.zoneSet z fun x => { x with state := 0 } else s)

/-- ZONE_ENTER_HOT. -/
def execZoneEnterHot (z : Nat) (temp : BitVec 12) (s : State) : Out :=
  let s := s.senseTemp z temp.toNat
  .next (if s.entered z false 2 then (s.zoneSet z fun x => { x with state := 2, lastL := s.load' z }).raiseIrq 1 else s)

/-- ZONE_LEAVE_HOT. -/
def execZoneLeaveHot (z : Nat) (temp : BitVec 12) (s : State) : Out :=
  let s := s.senseTemp z temp.toNat
  let x := s.zoneAt z
  .next (if x.state = 2 && x.temp + 80 < s.warn && s.heldFor x.coolFrom 10000000 && s.staysLow z then
      s.zoneSet z fun x => { x with state := 0 } else s)

/-- ZONE_ENTER_EVACUATING (R414). -/
def execZoneEnterEvacuating (z : Nat) (flow : BitVec 16) (void : Bool) (s : State) : Out :=
  let s := s.senseFlow z flow.toNat
  .next (if s.entered z void 3 then ((s.zoneSet z fun x => { x with state := 3, gated := false }).raiseIrq 2).evacuate z else s)

/-- ZONE_ENTER_TRIPPED (R414). -/
def execZoneEnterTripped (z : Nat) (temp : BitVec 12) (s : State) : Out :=
  let s := s.senseTemp z temp.toNat
  .next (if s.entered z false 6 then ((s.zoneSet z fun x => { x with state := 6, gated := false }).raiseIrq 1).evacuate z else s)

/-- EVACUATION_SAVES_DONE (R414 step 2): the context lines that the W-cores still hold are written back and they are gated; state 3
goes to 4. -/
def execEvacuationSavesDone (z : Nat) (s : State) : Out :=
  let x := s.zoneAt z
  .next (if (x.state = 3 || (x.state = 6 && !x.gated)) && (Config.numPods ≤ z || (s.podCrews z).isEmpty) then
      let s := if z < Config.numPods then
          (upto (4 * z) 4).foldl (fun s n => (s.ncPoint n).modCore n fun c => { c with powered := false }) (s.flushPod z)
        else s
      s.zoneSet z fun x => if x.state = 3 then { x with state := 4, purge := 0, gated := true } else { x with gated := true }
    else s)

/-- ZONE_TRIP_EXIT (R414 step 2a). -/
def execZoneTripExit (z : Nat) (temp : BitVec 12) (s : State) : Out :=
  let s := s.senseTemp z temp.toNat
  let x := s.zoneAt z
  .next (if x.state = 6 && x.gated && x.temp < s.warn && s.heldFor x.belowFrom 100000000 then s.zoneBack z else s)

/-- PURGE_START (R414 step 3). -/
def execPurgeStart (z : Nat) (s : State) : Out :=
  .next (if (s.zoneAt z).state = 4 && (s.zoneAt z).purge = 0 then
      s.zoneSet z fun x => { x with purge := 1, purgeAt := s.time.toNat, retry := 0 }
    else s)

/-- PURGE_VALVE_OPEN (R414 step 3). -/
def execPurgeValveOpen (z : Nat) (s : State) : Out :=
  let x := s.zoneAt z
  .next (if x.state = 4 && x.purge = 1 && s.heldFor x.purgeAt 20000000 then s.zoneSet z fun x => { x with purge := 2 } else s)

/-- PURGE_END (R414 step 4). -/
def execPurgeEnd (z : Nat) (flow : BitVec 16) (s : State) : Out :=
  let s := s.senseFlow z flow.toNat
  let x := s.zoneAt z
  .next (if x.state = 4 && x.purge = 2 && s.heldFor x.purgeAt 520000000 then
      if !State.below x z 1 x.flow && s.heldFor x.okFrom 100000000 then s.zoneBack z
      else s.zoneSet z fun x => { x with state := 5, purge := 0 }
    else s)

/-- A write of ZCTL: allow, valve, and retry, which starts the purge again in state 5 (Table 15.2). -/
def State.zctlWrite (s : State) (z : Nat) (v : Word) : State :=
  s.zoneSet z fun x =>
    let x := { x with retry := wbits v 32 32, allow := wbits v 31 16, valve := wbits v 7 0 }
    if x.retry = 1 && x.state = 5 then { x with state := 4, purge := 0 } else x

/-- ZCTL_RETRY_WRITE. -/
def execZctlRetryWrite (z : Nat) (v : Word) (s : State) : Out := .next (s.zctlWrite z v)

namespace State

/-- A write of `clsreq` on die d (R403). -/
def clsreqOp (s : State) (d : Nat) (v : Word) : State :=
  if wbits (s.dieAt d).clsreq 31 28 = 1 then s
  else
    let p := wbits v 3 0
    let cls := wbits v 9 8
    let set (s : State) (st : Nat) : State := s.modDie d fun x => { x with clsreq := w64 (st * 2 ^ 28 + cls * 2 ^ 8 + p) }
    let q := 12 * d + p
    let ones := (upto (12 * d) 12).filter fun q =>
      let x := s.podAt q
      (x.rcls = 0 && x.pool = 1) || (x.rcls ≠ 0 && (x.target = 1 || (x.rcls = 1 && x.pool = 1)))
    if 12 ≤ p || cls = 3 then set s 3
    else if (s.podAt q).pool = cls then set s 2
    else if cls = 1 && 3 ≤ ones.length then set s 4
    else if 1 < (s.zoneAt q).state then set s 5
    else ((set s 1).modPod q fun x => { x with rcls := 1, target := cls }).withdrawPod q 1 s.grace

end State

/-- CLSREQ_WRITE (R403, R404). -/
def execClsreqWrite (core : Nat) (v : Word) (s : State) : Out := .next (s.clsreqOp (State.dieOf core) v)

/-- `passcnt` of a pod is written: in force at once unless an evacuation holds it at 4 (R402, Table 15.8) or the power controller slows
the pod more (R407). -/
def State.passcntOp (s : State) (q : Nat) (v : Word) : State :=
  if wbits v 1 0 = 3 then s
  else
    let s := s.modPod q fun p => { p with passW := wbits v 1 0 }
    if (s.zoneAt q).state < 3 then s.setPass q (State.passNow (s.podAt q)) else s

/-- PASSCNT_WRITE (R402, R419). -/
def execPasscntWrite (core : Nat) (v : Word) (s : State) : Out := .next (s.passcntOp (State.podOf core) v)

end Sys2Proof.Machine
end

