-- ==== Sys2Proof/Machine/Boot.lean ====
section
/-! DEFINITION. Bring-up, firmware images, evidence and time (16_bringup.md); a failure of a function's bring-up comes with its
step. -/

namespace Sys2Proof.Machine

namespace Image

/-- `n` bytes at offset `o` of an image, as a number. -/
def field (b : Image) (o n : Nat) : Nat := ofBytes ((b.bytes.drop o).take n)

/-- Kind. -/
def kind (b : Image) : Nat := b.field 0x04 1
/-- Security version. -/
def version (b : Image) : Nat := b.field 0x08 4
/-- Payload length. -/
def len (b : Image) : Nat := b.field 0x0C 4
/-- Load address. -/
def load (b : Image) : Nat := b.field 0x10 8
/-- Entry address. -/
def entry (b : Image) : Nat := b.field 0x18 8
/-- Payload. -/
def payload (b : Image) : List Byte := (b.bytes.drop 256).take b.len
/-- Digest field. -/
def digest (b : Image) : BitVec 512 := BitVec.ofNat 512 (b.field 0x20 64)

end Image

/-- SHA-512 as the fields of images, fuses and evidence hold it: the number of its 64 bytes, lowest first. -/
def sha512 (m : List Byte) : BitVec 512 := BitVec.ofNat 512 (ofBytes (Sha512.digest m))

/-- The checks of R428 on an image of kind `k`. -/
def imageOk (p : Pkg) (k : Nat) (b : Image) : Bool :=
  let slot := b.field 0x05 1
  let key := (b.bytes.drop 0x60).take 32
  let within : Bool :=
    region b.load ≠ .none && region b.load ≠ .mmio && region b.load = region (b.load + b.len - 1)
      && (region b.load = .hbm || region b.load = .lpddr)
  b.field 0 4 = 0x53454C4D && b.kind = k && slot < 4 && b.field 0x06 2 = 0 && b.field 0xC0 64 = 0
    && b.len % 64 = 0 && 64 ≤ b.len && b.len ≤ 2 ^ 24 && b.bytes.length = 256 + b.len
    && (k = 2 || (b.load = 0 && b.entry = 0)) && b.load % 4096 = 0
    && !p.revoked.getLsbD slot && p.keyDigests.getD slot 0 = sha512 key
    && Ed25519.verify key (Sha512.digest (b.bytes.take 0x80)) ((b.bytes.drop 0x80).take 64)
    && (p.minVer.getD (k - 1) 0).toNat ≤ b.version
    && sha512 b.payload = b.digest
    && (k ≠ 2 || within)

/-- The accepted copy of a kind, A before B, and whether it is B (R428), of those that flash held at package reset (R429). -/
def accepted (p : Pkg) (k : Nat) : Option (Image × Bool) :=
  let a := p.bootA.getD (k - 1) {}
  let b := p.bootB.getD (k - 1) {}
  if imageOk p k a then some (a, false) else if imageOk p k b then some (b, true) else none

/-- PKGID (Table 0.2); the core map has as many bits as it has W-cores enabled (R430, log 7). -/
def pkgId (s : State) : Word := w64 (0x7E0100F9A1000020 + 256 * ((upto 0 Config.numCores).filter s.coreOn).length)

namespace State

/-- Step `n` of Table 16.5 is done. -/
def stepIs (s : State) (n : Nat) : Bool := s.pkg.stepDone / 2 ^ n % 2 = 1

/-- Marks it done. -/
def stepSet (s : State) (n : Nat) : State :=
  s.modPkg fun p => if p.stepDone / 2 ^ n % 2 = 1 then p else { p with stepDone := p.stepDone + 2 ^ n }

/-- Sets the RDY bit of function `f`, or its FAIL bit, once (R423). -/
def bring (s : State) (f : Nat) (ok : Bool) : State :=
  if s.ready f || s.failed f then s
  else
    let r := if ok then bootBase else bootBase + 0x08
    s.setReg r (s.reg r ||| w64 (2 ^ f))

/-- The unit of RDY bit `f` has been released: it comes up, fails, or is not up yet, as the inputs say (R425, log 57). -/
def bringUp (s : State) (f : Nat) : State :=
  match kfind (·.1) s.pkg.units f with
  | some (_, some ok) => s.bring f ok
  | some (_, none) => s
  | none => s.bring f true

/-- The image of kind `k` runs from now on; its measurement (R429, R432). -/
def runImage (s : State) (k : Nat) (b : Image) (isB : Bool) : State :=
  s.modPkg fun p =>
    { p with running := lmod p.running (k - 1) fun _ => b, measured := lmod p.measured (k - 1) fun _ => b.digest,
             useB := lmod p.useB (k - 1) fun _ => isB }

/-- Memory behind every line of a range answers. -/
def memReady (s : State) (a n : Nat) : Bool := s.memAt a = .ok && s.memAt (a + n - 1) = .ok

/-- Memory holds a range of which the L-core image is loaded, which no L-die has to be up for (Table 16.5, step 4). -/
def loadReady (s : State) (a n : Nat) : Bool := s.ready ((memFns a).headD 0) && s.ready ((memFns (a + n - 1)).headD 0)

/-- PTPST: offset and state. -/
def setPtp (s : State) (offset : BitVec 32) (st : Nat) : State := s.setReg (bootBase + 0x38) (w64 (offset.toNat * 65536 + st))

/-- PTPST.offset as it stands. -/
def ptpOffset (s : State) : BitVec 32 := BitVec.ofNat 32 (wbits (s.reg (bootBase + 0x38)) 47 16)

/-- PTPST.state. -/
def ptpState (s : State) : Nat := wbits (s.reg (bootBase + 0x38)) 1 0

/-- The group clock of a fleet runs: some crew is resident or none is pre-empted (R315). A crew that is being saved still holds its
W-cores and counts as resident, as `fk.qry` counts it; one that is placed again and not yet restored counts as pre-empted (DESIGN
CHOICE, log 76). A fleet in state 5 none of whose crews has been placed has no pre-empted crew, and its clock runs (DESIGN CHOICE,
log 91). -/
def clockRuns (s : State) (f : Fleet) : Bool :=
  let cs := s.crewsOf f.handle
  !(cs.any (fun c => 2 ≤ c.pre) && !cs.any fun c => c.pre ≤ 1 && !c.cores.isEmpty)

/-- A group's clock advances by `us`, to its timeout at most: where it reaches that, the group closes (R314, R315). -/
def clockStep (s : State) (us : Nat) (f : Fleet) : State :=
  match f.group with
  | none => s
  | some g =>
    if !g.running || g.closed || !s.clockRuns f then s
    else if g.timeout ≠ 0 && g.timeout ≤ g.clock + us && g.states.any (· = 0) then s.closeGroup f.handle 4 4 g.timeout
    else s.modGroup f.handle fun g => { g with clock := g.clock + us }

/-- `time` advances by `ns`; group clocks follow it by whole microseconds (R315, R435, R436). Whether a clock pauses is looked at
when the microsecond ends: one that it was paused for in part counts or not as the crews stand then (DESIGN CHOICE, log 75). -/
def advance (s : State) (ns : Nat) : State :=
  let us := (s.time.toNat + ns) / 1000 - s.time.toNat / 1000
  let s := { s with time := s.time + w64 ns }
  s.fleets.foldl (fun s f => s.clockStep us f) s

/-- The evidence for a nonce (Table 16.8), signed by the device key, which depends on the package's secret and the Selmel firmware that
runs (R431, R432). -/
def evidence (s : State) (nonce : List Byte) : List Byte :=
  let p := s.pkg
  let seed := toBytes (Config.deviceSeed p.secret (p.measured.getD 0 0)).toNat 32
  let body := toBytes 0x45564944 4 ++ toBytes 1 2 ++ toBytes 0x0180 2 ++ (upto 0 32).map (fun i => nonce.getD i 0)
    ++ toBytes (pkgId s).toNat 8
    ++ (upto 0 3).flatMap (fun j => toBytes (s.reg (bootBase + 0x20 + 8 * j)).toNat 8)
    ++ toBytes s.time.toNat 8 ++ toBytes (s.reg bootBase).toNat 4 ++ toBytes (s.reg (bootBase + 0x08)).toNat 4
    ++ (upto 0 3).flatMap (fun i => toBytes (p.measured.getD i 0).toNat 64)
    ++ Ed25519.publicKey seed
  body ++ Ed25519.sign seed (Sha512.digest body) ++ toBytes 0 8

/-- EVREQ with a buffer address and a status. -/
def evPut (s : State) (buf st : Nat) : State := s.setReg (bootBase + 0x40) (w64 (buf + 2 * st))

/-- A request for evidence in the buffer at `buf` (R433): refused where that is no ready memory, in progress while a line of it is
owned or held (R206, R217), else served (log 52). -/
def evServe (s : State) (buf : Nat) : State :=
  if !s.memReady buf 384 then s.evPut buf 3
  else if s.hwBusy buf 384 then s.evPut buf 1
  else
    let s := s.hwOpen Config.numCores buf 384
    (s.hwPut { core := Config.numCores, addr := buf, data := s.evidence ((upto (buf + 8) 32).map s.hwByte), vis := true }).evPut buf 2

/-- A request in progress goes on. -/
def evFlush (s : State) : State :=
  let v := s.reg (bootBase + 0x40)
  if wbits v 2 1 = 1 then s.evServe (wbits v 56 7 * 128) else s

/-- A write of EVREQ (R433). -/
def evreqOp (s : State) (v : Word) : State :=
  let st := wbits (s.reg (bootBase + 0x40)) 2 1
  let buf := wbits v 56 7 * 128
  if st = 1 then s else if wbit v 0 then s.evServe buf else s.evPut buf st

end State

/-- POWER_GOOD: step 1. -/
def execPowerGood (s : State) : Out :=
  .next (if s.pkg.powered then s
    else
      let s := s.modPkg fun p => { p with powered := true }
      match accepted s.pkg 1 with
      | some (b, isB) => (s.runImage 1 b isB).stepSet 1
      | none => s)

/-- BOOT_DIE_LINKS_MEMORY: step 2. -/
def execBootDieLinksMemory (s : State) : Out := .next (if s.stepIs 1 then s.stepSet 2 else s)

/-- MEMORY_READY: the memory of function f sets its RDY bit; f + 64 says that it fails (R423 to R425). -/
def execMemoryReady (f : Nat) (s : State) : Out :=
  let g := f % 64
  .next (if s.stepIs 2 && 6 ≤ g && g ≤ 29 then
      let lo := if g < 14 then (g - 6) * 0xC00000000 else 0x010000000000 + (g - 14) * 0xC00000000
      if s.ready g || s.failed g then s
      else { s.bring g (f < 64) with
        mem := sclear s.mem lo 0xC00000000
        poison := s.poison.filter fun l => !(lo ≤ 64 * l && 64 * l < lo + 0xC00000000) }
    else s)

/-- BOOT_PKGNUM: step 3, with the widths of the PCIe ports. -/
def execBootPkgnum (n : BitVec 8) (s : State) : Out :=
  .next (if s.stepIs 1 && !s.stepIs 3 then
      let old := s.pkgNum
      let r := linkBase + 8 * (old / 64)
      let s := s.setReg r (s.reg r &&& ~~~(w64 (2 ^ (old % 64))))
      (((s.setReg (bootBase + 0x10) (w64 n.toNat)).peerHere n.toNat).modPkg fun p => { p with portSplit := p.portConfig }).stepSet 3
    else s)

/-- BOOT_L_CORE_IMAGE: step 4: the image is written where it loads, and the L-dies are released; once it has been, those that were not
up yet. -/
def execBootLCoreImage (s : State) : Out :=
  .next (if !s.stepIs 1 then s
    else if s.stepIs 4 then (s.bringUp 4).bringUp 5
    else
      match accepted s.pkg 2 with
      | none => (s.bring 4 false).bring 5 false
      | some (b, isB) =>
        if s.loadReady b.load b.len then
          (((({ s with mem := byteListSet s.mem b.load b.payload }.runImage 2 b isB).bringUp 4).bringUp 5).stepSet 4)
        else s)

/-- L_CORE_START: step 5. -/
def execLCoreStart (i : Nat) (s : State) : Out :=
  let b := s.pkg.running.getD 1 {}
  .next (if s.ready (4 + i / 16) && i < Config.numLCores && !(s.lcoreAt i).running then
      s.modLcore i fun l =>
        { l with running := true, mode := .m,
                 ctx := sset (sset (sset l.ctx cPc (w64 b.entry &&& ~~~1)) 10 (w64 i)) 11 (w64 bootBase) }
    else s)

/-- BOOT_W_DIE_MICROCODE: step 6; d + 64 says that the die fails (log 57). -/
def execBootWDieMicrocode (d : Nat) (s : State) : Out :=
  .next (if s.stepIs 1 && 64 ≤ d && d < 68 then s.bring (d - 64) false
    else if !s.stepIs 1 || 4 ≤ d || !s.ready (6 + 2 * d) || !s.ready (7 + 2 * d) || s.ready d || s.failed d then s
    else
      match accepted s.pkg 3 with
      | none => (upto 0 4).foldl (fun s d => s.bring d false) s
      | some (b, isB) =>
        let s := { s with mmio := sclear s.mmio (dieReg dispBase d 0) 0x68 }
        let s := (s.setReg (dieReg dispBase d 0x18) 7).setReg (dieReg dispBase d 0x28) 4
        (s.runImage 3 b isB).bring d true)

/-- PORT_TRAINED: a scale-up or PCIe port; f + 64 says that it fails. -/
def execPortTrained (f : Nat) (s : State) : Out :=
  let g := f % 64
  .next (if s.stepIs 2 && 30 ≤ g && g ≤ 43 then
      let up : Bool := f < 64 && g < 42 && !s.failed g
      let s := s.bring g (f < 64)
      if up then s.setReg (linkBase + 0x20) (s.reg (linkBase + 0x20) ||| w64 (2 ^ (g - 30))) else s
    else s)

/-- COLLECTIVE_ENGINE_READY, or its failure. -/
def execCollectiveEngineReady (s : State) : Out := .next (if s.ready 4 && s.ready 5 then s.bringUp 44 else s)

/-- MANAGEMENT_PORT_READY: step 8; IEEE 1588 acquisition begins; or its failure. -/
def execManagementPortReady (s : State) : Out :=
  .next (if s.stepIs 1 && !s.ready 45 && !s.failed 45 then
      (if (s.bringUp 45).ready 45 then (s.bringUp 45).setPtp s.ptpOffset 1 else s.bringUp 45) else s)

/-- PTP_MESSAGE: a measured offset in ns, which PTPST holds saturated; the first one applied is a step where it is positive, every other
is slewed at a rate that a free value names, at most 500 ppm (R421, R435). -/
def execPtpMessage (offset : Int) (s : State) : Out :=
  .next (if !s.ready 45 then s
    else
      let s := s.modPkg fun p => { p with lastPtp := s.time.toNat }
      let stepped := s.stepIs 9
      let st := if s.ptpState = 0 && !stepped then 1 else s.ptpState
      let s := s.setPtp (BitVec.ofInt 32 (max (-(2 ^ 31)) (min (2 ^ 31 - 1) offset))) 2
      let (k, s) := s.drawNat
      if st = 1 && !stepped && 0 < offset then
        ((s.stepSet 9).modPkg fun p => { p with slew := 0, rate := 0 }).advance offset.toNat
      else
        (s.stepSet 9).modPkg fun p => { p with slew := offset, rate := offset.sign * ((k % 500001 : Nat) : Int) })

/-- PTP_GRANDMASTER_LOSS: no message for 10 s (R435). -/
def execPtpGrandmasterLoss (s : State) : Out :=
  .next (if s.ptpState ≠ 0 && s.pkg.lastPtp + 10000000000 ≤ s.time.toNat then
      s.setPtp s.ptpOffset 0
    else s)

/-- MGMT_IMAGE_DELIVERY (R429). -/
def execMgmtImageDelivery (img : List Byte) (s : State) : Out :=
  let b : Image := { bytes := img }
  let k := b.kind
  .next (if s.ready 45 && 1 ≤ k && k ≤ 3 && imageOk s.pkg k b then
      s.modPkg fun p =>
        if p.useB.getD (k - 1) false then { p with flashA := lmod p.flashA (k - 1) fun _ => b }
        else { p with flashB := lmod p.flashB (k - 1) fun _ => b }
    else s)

/-- MGMT_RAISE_MIN_VERSION: never above the version of an accepted copy (R428). -/
def execMgmtRaiseMinVersion (kind : BitVec 2) (v : BitVec 32) (s : State) : Out :=
  let k := kind.toNat
  let p := s.pkg
  let ok (b : Image) : Bool := imageOk p k b && v.toNat ≤ b.version
  .next (if s.ready 45 && 1 ≤ k && (ok (p.flashA.getD (k - 1) {}) || ok (p.flashB.getD (k - 1) {}))
      && (p.minVer.getD (k - 1) 0).toNat < v.toNat then
      s.modPkg fun p => { p with minVer := lmod p.minVer (k - 1) fun _ => v }
    else s)

/-- MGMT_EVIDENCE_REQUEST (R433). -/
def execMgmtEvidenceRequest (nonce : List Byte) (s : State) : Out :=
  .next (if s.ready 45 then s.modPkg fun p => { p with evidence := p.evidence ++ [s.evidence nonce] } else s)

/-- Package reset: what fuses and Selmel's flash hold stays, with the copies that flash holds now (R428 to R430); all else is as after
reset. -/
def State.packageReset (s : State) : State :=
  let p := s.pkg
  { State.reset with
    agenda := s.agenda, draws := s.draws, nextId := s.nextId
    mmio := (upto 0 3).foldl (fun m j => sset m (bootBase + 0x20 + 8 * j) (s.reg (bootBase + 0x20 + 8 * j))) State.reset.mmio
    pkg :=
      { keyDigests := p.keyDigests, revoked := p.revoked, minVer := p.minVer, secret := p.secret, certificate := p.certificate
        portConfig := p.portConfig, units := p.units, flashA := p.flashA, flashB := p.flashB, bootA := p.flashA, bootB := p.flashB } }

/-- EVREQ_GO (R433). -/
def execEvreqGo (v : Word) (s : State) : Out := .next (s.evreqOp v)

end Sys2Proof.Machine
end

