-- ==== Sys2Proof/Machine/Converge.lean ====
section
/-! DEFINITION. Convergence instructions (04_issue_convergence.md) and lane groups (05_lane_groups.md). -/

namespace Sys2Proof.Machine

namespace State

/-- An instruction of Table 4.5 on register n: -3 beyond the crew's registers, illegal for cv0 to cv14 in S-mode (R111,
R120). -/
def onCv (s : State) (rd : Reg) (n : BitVec 4) (g : Strand → Crew → Nat → Out) : Out :=
  s.onCrew fun t c =>
    match cvSel t c n with
    | .illegal => s.illegal
    | .limit => s.status rd (neg 3)
    | .ok i => g t c i

/-- An arrival (R122). -/
def arrive (s : State) (rd : Reg) (n : BitVec 4) (rx waits : Bool) : Out :=
  s.onCv rd n fun t c i =>
    let r := c.cvGet i
    match r.signable t.sid 1 [] with
    | .mismatch => s.mismatch
    | .busy => .next (s.await (.busy i))
    | .ok =>
      let s := if rx then s else s.release false
      if waits then .next ((s.await (.barrier i r.phase rd (!rx))).cvArrive c.id i t.sid)
      else
        match s.status rd (w64 r.phase) with
        | .next s => .next (s.cvArrive c.id i t.sid)
        | .fault x => .fault x
        | .refused x => .refused x

/-- `cv.wt` and `cv.wt.try` (R124). -/
def waitToken (s : State) (rd a : Reg) (n : BitVec 4) (try' : Bool) : Out :=
  s.onCv rd n fun _ c i =>
    let r := c.cvGet i
    let t := (s.x a).toNat
    let d := (r.phase + 2 ^ 31 - t) % 2 ^ 31
    let wait : Out := if try' then s.status rd (neg 8) else .next (s.await (.cvWt i t rd))
    if 2 ^ 31 ≤ t then s.status rd (neg 3)
    else if 2 ^ 30 < d then s.status rd (neg 3)
    else if 64 < d then s.status rd (neg 5)
    else
      match r.answerWt t false with
      | none => wait
      | some v => (if v = 0 then s.acquire else s).status rd v

end State

/-- `cv.join` (Table 4.6). -/
def execCvJoin (rd : Reg) (n : BitVec 4) (s : State) : Out :=
  s.onCv rd n fun t c i =>
    if (c.cvGet i).members.contains t.sid then s.status rd (neg 4)
    else (s.modCv c.id i fun r => { r with members := insSorted r.members t.sid }).status rd 0

/-- `cv.join.crew`. -/
def execCvJoinCrew (rd : Reg) (n : BitVec 4) (s : State) : Out :=
  s.onCv rd n fun t c i =>
    if i = 16 || !t.leader then s.status rd (neg 9)
    else if !(c.cvGet i).members.isEmpty then s.status rd (neg 4)
    else (s.modCv c.id i fun r => { r with members := c.live }).status rd 0

/-- `cv.quit`. -/
def execCvQuit (rd : Reg) (n : BitVec 4) (s : State) : Out :=
  s.onCv rd n fun t c i =>
    if !(c.cvGet i).members.contains t.sid then s.status rd (neg 4)
    else (s.cvQuit c.id i t.sid).status rd 0

/-- `cv.bar`. -/
def execCvBar (rd : Reg) (n : BitVec 4) (s : State) : Out := s.arrive rd n false true
/-- `cv.bar.rx`. -/
def execCvBarRx (rd : Reg) (n : BitVec 4) (s : State) : Out := s.arrive rd n true true
/-- `cv.arv`. -/
def execCvArv (rd : Reg) (n : BitVec 4) (s : State) : Out := s.arrive rd n false false
/-- `cv.arv.rx`. -/
def execCvArvRx (rd : Reg) (n : BitVec 4) (s : State) : Out := s.arrive rd n true false
/-- `cv.wt`. -/
def execCvWt (rd a : Reg) (n : BitVec 4) (s : State) : Out := s.waitToken rd a n false
/-- `cv.wt.try`. -/
def execCvWtTry (rd a : Reg) (n : BitVec 4) (s : State) : Out := s.waitToken rd a n true

/-- What query code `q` reads (Table 4.7). -/
def cvQuery (r : CvReg) (sid : Nat) (q : Nat) : Word :=
  match q with
  | 0 => w64 r.members.length
  | 1 => w64 r.signed.length
  | 2 => w64 r.phase
  | 3 => w64 (b2n (r.members.contains sid))
  | 4 => w64 r.kind
  | 5 => w64 (r.cancels.toNat * 4 + r.reason)
  | _ => neg 3

/-- `cv.qry` (R125). -/
def execCvQry (rd a : Reg) (n : BitVec 4) (s : State) : Out :=
  s.onCv rd n fun t c i => s.status rd (cvQuery (c.cvGet i) t.sid (s.x a).toNat)

/-- BARRIER_PHASE_RELEASE: the phases whose engine entries have all finished are released (R122). -/
def execBarrierPhaseRelease (crew n : Nat) (s : State) : Out :=
  .next ((s.modCv crew n fun r =>
    { r with unrel := r.unrel.filter fun u => u.2.any fun i => s.engine.any fun e => e.id = i }).cvWake crew n)

/-! ### Lane groups -/

namespace State

/-- A lane-group instruction signs (R130, R131, R136). -/
def lane (s : State) (rd a : Reg) (n : BitVec 4) (group : Nat) (sig : List Nat) (idx : Nat) : Out :=
  s.onCrew fun t c =>
    match cvSel t c n with
    | .illegal => s.illegal
    | .limit => s.mismatch
    | .ok i =>
      let v := if group = 7 then s.f a else s.x a
      match (c.cvGet i).signable t.sid 2 (group :: sig) with
      | .mismatch => s.mismatch
      | .busy => .next (s.await (.busy i))
      | .ok => .next (s.cvSign t i 2 (group :: sig) rd [v.toNat, idx])

/-- Groups 1 to 4: the value of rs2 is part of the signature. -/
def laneUni (s : State) (rd a b : Reg) (n : BitVec 4) (group : Nat) : Out :=
  s.lane rd a n group [(s.x b).toNat] (s.x b).toNat

end State

/-- Bits [2:0] of the integer subop of an operator (Table 5.2). -/
def gopNum : GOp → Nat
  | .add => 0 | .and => 1 | .or => 2 | .xor => 3 | .minI => 4 | .maxI => 5 | .minN => 6 | .maxN => 7

/-- `gp.shfl.idx`. -/
def execGpShflIdx (rd a b : Reg) (n : BitVec 4) (s : State) : Out := s.lane rd a n 0 [] (s.x b).toNat
/-- `gp.shfl.xor`. -/
def execGpShflXor (rd a b : Reg) (n : BitVec 4) (s : State) : Out := s.laneUni rd a b n 1
/-- `gp.shfl.up`. -/
def execGpShflUp (rd a b : Reg) (n : BitVec 4) (s : State) : Out := s.laneUni rd a b n 2
/-- `gp.shfl.dn`. -/
def execGpShflDn (rd a b : Reg) (n : BitVec 4) (s : State) : Out := s.laneUni rd a b n 3
/-- `gp.bcst`. -/
def execGpBcst (rd a b : Reg) (n : BitVec 4) (s : State) : Out := s.laneUni rd a b n 4
/-- `gp.all`. -/
def execGpAll (rd a : Reg) (n : BitVec 4) (s : State) : Out := s.lane rd a n 6 [0] 0
/-- `gp.any`. -/
def execGpAny (rd a : Reg) (n : BitVec 4) (s : State) : Out := s.lane rd a n 6 [1] 0
/-- `gp.uni`. -/
def execGpUni (rd a : Reg) (n : BitVec 4) (s : State) : Out := s.lane rd a n 6 [2] 0
/-- `gp.blt`. -/
def execGpBlt (rd a : Reg) (n : BitVec 4) (s : State) : Out := s.lane rd a n 6 [3] 0
/-- `gp.pcnt`. -/
def execGpPcnt (rd a : Reg) (n : BitVec 4) (s : State) : Out := s.lane rd a n 6 [4] 0
/-- `gp.mtch.ldr`. -/
def execGpMtchLdr (rd a : Reg) (n : BitVec 4) (s : State) : Out := s.lane rd a n 6 [5] 0
/-- `gp.mtch.cnt`. -/
def execGpMtchCnt (rd a : Reg) (n : BitVec 4) (s : State) : Out := s.lane rd a n 6 [6] 0
/-- `gp.red`. -/
def execGpRed (op : GOp) (rd a : Reg) (n : BitVec 4) (s : State) : Out := s.lane rd a n 6 [8 + gopNum op] 0
/-- `gp.scan`. -/
def execGpScan (op : GOp) (rd a : Reg) (n : BitVec 4) (s : State) : Out := s.lane rd a n 6 [16 + gopNum op] 0
/-- `gp.xscan`. -/
def execGpXscan (op : GOp) (rd a : Reg) (n : BitVec 4) (s : State) : Out := s.lane rd a n 6 [24 + gopNum op] 0

/-- Bit 0 of a floating-point subop (Table 5.3). -/
def precBit : FPrec → Nat
  | .s => 0 | .d => 1

/-- `gp.red.add.f32` and `.f64`. -/
def execGpRedAddF (p : FPrec) (rd a : Reg) (n : BitVec 4) (s : State) : Out := s.lane rd a n 7 [precBit p] 0
/-- `gp.red.min.f32` and `.f64`. -/
def execGpRedMinF (p : FPrec) (rd a : Reg) (n : BitVec 4) (s : State) : Out := s.lane rd a n 7 [2 + precBit p] 0
/-- `gp.red.max.f32` and `.f64`. -/
def execGpRedMaxF (p : FPrec) (rd a : Reg) (n : BitVec 4) (s : State) : Out := s.lane rd a n 7 [4 + precBit p] 0
/-- `gp.scan.add.f32` and `.f64`. -/
def execGpScanAddF (p : FPrec) (rd a : Reg) (n : BitVec 4) (s : State) : Out := s.lane rd a n 7 [8 + precBit p] 0
/-- `gp.xscan.add.f32` and `.f64`. -/
def execGpXscanAddF (p : FPrec) (rd a : Reg) (n : BitVec 4) (s : State) : Out := s.lane rd a n 7 [12 + precBit p] 0

end Sys2Proof.Machine
end

