-- ==== Sys2Proof/Machine/Mmio.lean ====
section
/-! DEFINITION. The device MMIO range: protection, reads and writes of its registers (R4, R6, R58, R171, R185, R331, R365,
R378, R391, R405, R421, R422, R439), and the loads, stores and requests that reach it. -/

namespace Sys2Proof.Machine

/-- Number of the block of Table 16.3 that an address lies in. -/
def mmioBlock (pa : Nat) : Option Nat :=
  let pages (base n : Nat) : Bool := base ≤ pa && pa < base + n * 0x1000
  if pages dispBase 4 then some 0
  else if pages attrBase 1 then some 1
  else if pages linkBase 1 then some 2
  else if pages trapBase 4 then some 3
  else if pages debugBase 4 then some 4
  else if pages invalBase 1 then some 5
  else if pages powerBase 1 then some 6
  else if pages bootBase 1 then some 7
  else none

namespace State

/-- MMPROT.grant. -/
def mmprot (s : State) : Nat := wbits (s.reg (bootBase + 0x18)) 7 0

/-- L-core i passes the device MMIO protection at an address (R4, R422). -/
def mmioPass (s : State) (i pa : Nat) : Bool :=
  match (s.lcoreAt i).mode with
  | .m => true
  | .hs => match mmioBlock pa with | some j => bits s.mmprot j j = 1 | none => s.mmprot ≠ 0
  | .u => false
  | .vs => false
  | .vu => false

/-- The 64-bit register at `pa`, a multiple of 8; DBGDATA is read by `dbgAccess`. -/
def regRead (s : State) (pa : Nat) : Word :=
  let o := pa % 0x1000
  let d := pa / 0x1000 % 16
  if pa = 0x00F000000000 then pkgId s
  else
    match mmioBlock pa with
    | some 0 => if o = 0x10 then w64 (s.storeFree d) else s.reg pa
    | some 4 => if o = 0x10 then s.dbgCmd d else if o = 0x18 then s.dbgStat d else s.reg pa
    | some 6 =>
      let z := (o - 0x100) / 16
      let x := s.zoneAt z
      if 0x100 ≤ o && z < Config.numZones then
        if o % 16 = 0 then w64 (x.retry * 2 ^ 32 + x.allow * 2 ^ 16 + x.valve)
        else w64 (x.state * 2 ^ 60 + s.allowance z % 65536 * 2 ^ 32 + x.temp % 4096 * 2 ^ 20 + x.flow % 65536)
      else s.reg pa
    | _ => s.reg pa

/-- A ring size: legal values 4 to 16. -/
def setLg (s : State) (pa : Nat) (v : Word) : State :=
  if 4 ≤ wbits v 4 0 && wbits v 4 0 ≤ 16 then s.setReg pa (w64 (wbits v 4 0)) else s

/-- TLIM changes; a timed condition of a zone that thereby begins to hold counts from now. -/
def tlimWrite (s : State) (v : Word) : State :=
  let s' := s.setReg (powerBase + 0x30) (v &&& 0x0FFF0FFF)
  { s' with zones := (List.zip s.zones (upto 0 s.zones.length)).map fun e =>
      let from' (i old : Nat) : Nat :=
        if (s'.zoneConds e.1 e.2).getD i false && !(s.zoneConds e.1 e.2).getD i false then s.time.toNat else old
      { e.1 with coolFrom := from' 3 e.1.coolFrom, belowFrom := from' 4 e.1.belowFrom } }

/-- A write of the 64-bit value `v` to the register at `pa`, a multiple of 8; `w1` is what was written as ones to W1C
bits, `m` whether M-mode or Selmel writes, `full` whether the write is of 8 bytes. -/
def regWrite (s : State) (m full : Bool) (pa : Nat) (v w1 : Word) : State :=
  let o := pa % 0x1000
  let d := pa / 0x1000 % 16
  let put (mask : Word) : State := s.setReg pa (v &&& mask)
  let act (g : State) : State := if full then g else s
  let all : Word := 0xFFFFFFFFFFFFFFFF
  match mmioBlock pa with
  | some 0 =>
    (match o with
      | 0x00 => put 0x01FFFFFFFFE00000
      | 0x08 => put 0xFFFF
      | 0x18 => put 7
      | 0x20 => put 0x01FFFFFFFFFFF000
      | 0x28 => s.setLg pa v
      | 0x30 => put 0xFFFF
      | 0x40 => put all
      | 0x48 => put 0xFFFFFFFF
      | 0x50 => act ((put all).recallOp d v)
      | 0x58 => act ((put all).killOp d v)
      | 0x60 => act ((put all).framefreeOp d v)
      | _ => s)
  | some 1 =>
    (match o with
      | 0x00 => put 0x01FFFFFFFFE00001
      | 0x10 => s.setReg pa (w64 (min 16 (wbits v 4 0)))
      | _ => s)
  | some 2 => if o = 0x28 then put 0x01FFFFFFFFFFE001 else s
  | some 3 =>
    (match o with
      | 0x00 => put 0x01FFFFFFFFFFF000
      | 0x08 => s.setLg pa v
      | 0x10 => put 0xFFFF
      | 0x20 => put all
      | 0x28 => put 0xFFFFFFFF
      | 0x30 => act ((put all).fwdrsmOp d v)
      | 0x38 => put 0xFFFFFFFFFFFFFFFC
      | 0x40 => put 0xC0001
      | 0x48 => put all
      | 0x50 => put all
      | _ => s)
  | some 4 =>
    match o with
    | 0x00 => s.dbgHaltOp d v
    | 0x08 => put all
    | 0x10 => act (s.dbgCommand d v)
    | 0x20 => put 0xC000000000FFFFFF
    | 0x28 => act (s.dbgAccess d none (some v)).1
    | _ => s
  | some 5 =>
    let slot := o / 0x20
    (if 0x400 ≤ o || s.reg (invalReg slot 0x18) = 1 then s
      else if o % 0x20 = 0x18 then act (s.ivgoOp slot v)
      else put all)
  | some 6 =>
    let z := (o - 0x100) / 16
    (match o with
      | 0x00 => s.setReg pa (w64 (max 100 (min 3600 (wbits v 15 0))))
      | 0x08 => s.setReg pa (w64 (max 16 (min 512 (wbits v 9 0))))
      | 0x18 => s.setReg pa (w64 (min 10000 (wbits v 13 0)))
      | 0x20 => put 0xFFFFFF
      | 0x30 => s.tlimWrite v
      | 0x38 => s.setReg pa (s.reg pa &&& ~~~w1 &&& 0xF)
      | 0x40 => put 0xF
      | _ =>
        if 0x100 ≤ o && o % 16 = 0 && z < Config.numZones then
          (if full then s.zctlWrite z v
           else s.zoneSet z fun x => { x with retry := wbits v 32 32, allow := wbits v 31 16, valve := wbits v 7 0 })
        else s)
  | some 7 =>
    (match o with
      | 0x18 => if m then put 0xFF else s
      | 0x40 => act (s.evreqOp v)
      | _ => s)
  | _ => s

/-- A read of `n` = 4 or 8 bytes by L-core i (R439): the state, and the value where the read is performed. -/
def mmioRead (s : State) (i pa n : Nat) : State × Option Word :=
  let r := pa / 8 * 8
  let data : Bool := mmioBlock r = some 4 && r % 0x1000 = 0x28
  if data && n = 8 then s.dbgAccess (r / 0x1000 % 16) (some i) none
  else if data then (s, some 0)
  else
    let v := s.regRead r
    (s, some (if n = 8 then v else if pa % 8 = 0 then w64 (wbits v 31 0) else w64 (wbits v 63 32)))

/-- A write of `n` = 4 or 8 bytes (R439). -/
def mmioWrite (s : State) (m : Bool) (pa n : Nat) (v : Word) : State :=
  let r := pa / 8 * 8
  if n = 8 then s.regWrite m true r v v
  else
    let h := wbits v 31 0
    let old := s.regRead r
    if pa % 8 = 0 then s.regWrite m false r (winsert old 31 0 h) (w64 h)
    else s.regWrite m false r (winsert old 63 32 h) (w64 (h * 2 ^ 32))

/-- A read of DBGDATA by L-core i has been accepted and waits (R436). -/
def mmioWaits (s : State) (i pa : Nat) : Bool :=
  mmioBlock pa = some 4 && pa % 0x1000 = 0x28 && s.dbgq.any fun e => e.die = pa / 0x1000 % 16 && e.by' = some i

/-- What a load gives: the value, or a device register read by an L-core that passes, or passed when its read was accepted (R436). -/
def loadAny (s : State) (va : Word) (n : Nat) (k : AccKind := .load) : Res Nat :=
  (s.loadMem s.cur va n k).bind fun s r =>
    match r with
    | .inl v => .ok s v
    | .inr pa =>
      match s.cur with
      | .strand _ => .trap s 5 va
      | .lcore i =>
        if !s.mmioPass i pa && !s.mmioWaits i pa then .trap s 5 va
        else match s.mmioRead i pa n with | (s, some v) => .ok s v.toNat | (s, none) => .stall s

/-- A store likewise. -/
def storeAny (s : State) (va : Word) (n v : Nat) : Res Unit :=
  (s.storeMem s.cur va n v).bind fun s r =>
    match r with
    | none => .ok s ()
    | some pa =>
      match s.cur with
      | .strand _ => .trap s 7 va
      | .lcore i =>
        if !s.mmioPass i pa then .trap s 7 va
        else .ok (s.mmioWrite ((s.lcoreAt i).mode = .m) pa n (w64 v)) ()

end State

/-- Bytes of a standard load. -/
def loadSize : LoadKind → Nat
  | .lb => 1 | .lh => 2 | .lw => 4 | .ld => 8 | .lbu => 1 | .lhu => 2 | .lwu => 4 | .flh => 2 | .flw => 4 | .fld => 8

/-- The register value of a loaded number: extended, or NaN-boxed. -/
def loadExt (k : LoadKind) (v : Nat) : Word :=
  match k with
  | .lb => sext 8 v | .lh => sext 16 v | .lw => sext 32 v
  | .ld => w64 v | .lbu => w64 v | .lhu => w64 v | .lwu => w64 v
  | .flh => box f16 v | .flw => box f32 v | .fld => w64 v

/-- A load into an F register. -/
def loadIsF : LoadKind → Bool
  | .flh => true | .flw => true | .fld => true
  | .lb => false | .lh => false | .lw => false | .ld => false | .lbu => false | .lhu => false | .lwu => false

/-- Bytes of a standard store. -/
def storeSize' : StoreKind → Nat
  | .sb => 1 | .sh => 2 | .sw => 4 | .sd => 8 | .fsh => 2 | .fsw => 4 | .fsd => 8

/-- A store from an F register. -/
def storeIsF : StoreKind → Bool
  | .fsh => true | .fsw => true | .fsd => true | .sb => false | .sh => false | .sw => false | .sd => false

/-- The standard loads (R187). -/
def execLoad (k : LoadKind) (rd a : Reg) (imm : BitVec 12) (s : State) : Out :=
  let go (s : State) : Out :=
    (s.loadAny (s.x a + imm.signExtend 64) (loadSize k)).run fun s v =>
      if loadIsF k then ((s.setF rd (loadExt k v)).mark (32 + rd.toNat)).next else s.loaded rd (loadExt k v)
  s.onAny (if loadIsF k then s.withFp go else go s)

/-- The standard stores (R187). -/
def execStore (k : StoreKind) (a b : Reg) (imm : BitVec 12) (s : State) : Out :=
  let go (s : State) : Out :=
    let v := if storeIsF k then s.f b else s.x b
    (s.storeAny (s.x a + imm.signExtend 64) (storeSize' k) v.toNat).run fun s _ => s.next
  s.onAny (if storeIsF k then s.withFp go else go s)

/-- REGISTER_WRITE: M-mode or Selmel writes a register of 8 bytes, or a half of 4 (R439). -/
def execRegisterWrite (pa : Nat) (half : Bool) (v : Word) (s : State) : Out :=
  let n := if half then 4 else 8
  .next (if region pa ≠ .mmio || pa % n ≠ 0 then s
    else s.mmioWrite true pa n v)

/-- REPLICA_UPDATE: the oldest store from byte `idx` that die `die` has not seen reaches it, after the earlier stores to the same
bytes (R204). -/
def execReplicaUpdate (die idx : Nat) (s : State) : Out :=
  .next (match s.replicas.find? fun r => r.die = die && r.pa = idx with
    | some r => s.deliver fun x => x = r
    | none => s)

/-- UE_WRITEBACK (R386): a dirty line is stored as poisoned; a record of kind 5 names it and its owner tag. A line that an L-die
dirtied is recorded by Selmel. -/
def execUeWriteback (line : Nat) (s : State) : Out :=
  let tag := (sget s.owners line).toNat
  .next (if tag = 0 || s.memAt (line * 64) ≠ .ok then s
    else
      let s := { s with poison := insSorted s.poison line, owners := sset s.owners line 0 }
      if bits tag 24 24 = 1 then s.faultRecord (bits tag 23 16) { kind := 5, pa := line * 64, image := bits tag 23 0 } else s)

/-- Strand k is forwarded as by a double fault, its image PC the next instruction, and context line `line` of its image is poisoned
(R387). -/
def State.lineLost (s : State) (k line : Nat) : State :=
  match s.strand? k with
  | none => s
  | some t =>
    let s := (s.leaveWait t).modStrand k fun t => { t with ue := some line }
    let s := s.forward k 3 (match s.strand? k with | some t => t.cw cPc | none => 0)
    { s with poison := insSorted s.poison (k / 64 + line) }.modStrand k fun t => { t with ue := none }

/-- UE_CORE_STORAGE (R387). A strand in a wait that has to end first is forwarded once that has ended. -/
def execUeCoreStorage (u : UeSite) (s : State) : Out :=
  .next (match u with
    | .stageRow i row =>
      match s.crew? i with
      | some c =>
        if c.pre < 2 && c.stageIn (64 * row) 1 then
          let s := s.modCrew i fun c => { c with rowPoison := insSorted c.rowPoison row }
          s.faultRecord (c.coreNum (64 * row / 2 ^ 20)) { kind := 7, tval := w64 (64 * row) }
        else s
      | none => s
    | .accElement i k =>
      match s.crew? i with
      | some c =>
        let v := k / 2 ^ 17
        if c.pre < 2 && v < c.k then
          let s := s.modCrew i fun c => { c with accFail := insSorted c.accFail k }
          s.faultRecord (c.coreNum v)
            { kind := 7, tval := w64 (v * 2 ^ 18 + k % 128 * 2 ^ 10 + k / 128 % 32 * 2 ^ 5 + k / 4096 % 32) }
        else s
      | none => s
    | .contextLine k line =>
      match s.strand? k with
      | some t =>
        if (t.status = .resident || t.status = .preempted) && t.present.getLsbD line && line < 16 && !t.stopped then
          let s := s.strandRecord t 7 0 0 (t.cw cPc) (w64 (64 * line)) 0
          if t.status = .resident && s.finishing t then s.modStrand k fun t => { t with ue := some line } else s.lineLost k line
        else s
      | none => s)

end Sys2Proof.Machine
end

