-- ==== Sys2Proof/Machine/Csr.lean ====
section
/-! DEFINITION. CSR accesses (R3, R45, R46 and the CSR tables of the chapters). The standard CSRs of an L-core follow the
RISC-V privileged architecture and of AIA (logs 17 and 20). -/

namespace Sys2Proof.Machine

/-- Wrapped value of a write by a CSR operation. -/
def csrNew (op : CsrOp) (old src : Word) : Word :=
  match op with | .rw => src | .rs => old ||| src | .rc => old &&& ~~~src

/-- `frecbase` as it is stored (Table 14.9). -/
def frecbaseLegal (v : Word) : Word :=
  let lg := wbits v 3 0
  let lg := if lg = 0 then 0 else if lg < 4 then 4 else if 12 < lg then 12 else lg
  (v &&& 0x01FFFFFFFFFFF000) ||| w64 lg

/-- Two weights of 8 bits; 0 writes 1 (Table 13.7). -/
def weights (v : Word) : Word := w64 (max 1 (wbits v 15 8) * 256 + max 1 (wbits v 7 0))

namespace State

/-! ### CSRs of a strand -/

/-- A machine CSR of a W-core, which only Selmel's firmware may access: identification (Table 0.1), pass count, classes of the
die's pods, boost limit (Table 15.7), fault ring (Table 14.9). -/
def wcsrRead (s : State) (core n : Nat) : Option Word :=
  let c := s.coreAt core
  match n with
  | 0xF11 => some 0xB17
  | 0xF12 => some 0x8000000000000F92
  | 0xF13 => some 0xA1
  | 0x7C0 => some (w64 (s.podAt (podOf core)).passcnt)
  | 0x7C1 => some (w64 ((upto 0 12).foldl (fun x p => x + s.podClass (12 * dieOf core + p) * 4 ^ p) 0))
  | 0x7C2 => some c.frecbase
  | 0x7C3 => some (w64 (s.podAt (podOf core)).bstmax)
  | 0x7D0 => some c.frecmask
  | 0x7D1 => some c.frectail
  | _ => none

/-- A CSR that a W-core implements, as a strand would read it. -/
def csrRead (s : State) (t : Strand) (c : Crew) (n : Nat) : Option Word :=
  let core := s.coreAt t.core
  let pod := podOf t.core
  match n with
  | 0x001 => some (s.fcsr &&& 0x1F)
  | 0x002 => some (w64 (wbits s.fcsr 7 5))
  | 0x003 => some (s.fcsr &&& 0xFF)
  | 0xC00 => some (w64 (s.cc t.core))
  | 0xC01 => some s.time
  | 0xC02 => some t.instret
  | 0xCC0 => some (w64 (t.cbits cSid 12 0))
  | 0xCC1 => some (w64 (t.cbits cCid 31 0))
  | 0xCC2 => some (w64 (t.cbits cCid 44 32))
  | 0xCC3 => some (t.cw cFid)
  | 0xCC4 => some (w64 (t.cbits cCid 51 48))
  | 0xCC5 => some (w64 (2 ^ 63 + s.pkgNum * 2 ^ 40 + t.cbits cSid 23 16 * 2 ^ 16 + t.core))
  | 0xCC6 => some t.cpbat
  | 0xCC7 => some c.tstall
  | 0xCC8 => some (w64 ((upto 0 4).foldl (fun x i => x + s.slotCode (childOf t i) * 16 ^ i) 0))
  | 0xCC9 => some (w64 (t.cbits cRsm 31 0))
  | 0xCD0 =>
    some (w64 (b2n (c.sreg.members.contains t.sid) * 65536
      + (upto 0 c.cv.length).foldl (fun x i => x + b2n ((c.cvGet i).members.contains t.sid) * 2 ^ i) 0))
  | 0xCD1 => some (core.ovrcnt.getD t.quad 0)
  | 0xCD2 => some (core.dualcnt.getD t.quad 0)
  | 0xCD8 => some c.hstall
  | 0xCDC => some core.rbmrg
  | 0xCDD => some core.rbevc
  | 0xCDE => some core.scfail
  | 0xCDF => some core.hldwt
  | 0xCE0 => some (w64 (c.alloc.getD t.cwc 0).toNat)
  | 0xCE1 =>
    let h := c.hold.getD t.cwc 0
    some (w64 (b2n (h = 3) * 256 + (if 2 ≤ h then c.holder.getD t.cwc 0 else 0) * 16 + min h 2))
  | 0xCE2 => some core.mxcnt
  | 0xCE4 => some (w64 ((upto 0 4).foldl (fun x p => x + b2n (c.progs.any fun e => e.1 = 4 * t.cwc + p) * 2 ^ p) 0))
  | 0xCE5 => some core.epcnt
  | 0xCE8 => some (w64 c.sgrec)
  | 0xCEC => some (w64 (s.descsOf t).length)
  | 0xCED => some (w64 s.numPresent)
  | 0xCF0 => some (s.pwst pod (c.wd ≠ 0))
  | 0xCF1 => some core.gatecnt
  | 0xCF2 => some core.balcnt
  | 0x800 => some (t.cw cThctl &&& 0x0000FFFFFFFEFFFF)
  | 0x810 => some (t.cw cFxsat &&& 1)
  | 0x820 => some (t.cw cCpspl &&& ~~~0xFF0)
  | 0x830 => some (c.mxflg &&& 7)
  | 0x838 => some (c.epflg &&& 15)
  | 0x140 => some (t.cw cSscratch)
  | 0x141 => some (t.cw cSepc)
  | 0x142 => some (t.cw cScause)
  | 0x143 => some (t.cw cStval)
  | 0x180 => some (t.cw cSatp)
  | 0x5C0 => some (t.cw cWtvec)
  | 0x5C1 => some (t.cw cWstatus)
  | 0x5C2 => some (t.cw cWtslo)
  | 0x5C3 => some (t.cw cWtshi)
  | 0x5E0 => some (s.dieAt (dieOf t.core)).clarb
  | 0x5E1 => some s.pkg.cllnk
  | 0x5E2 => some (s.dieAt (dieOf t.core)).clcap
  | 0x5E8 => some (s.dieAt (dieOf t.core)).clsreq
  | 0x5E9 =>
    let z := s.zoneAt pod
    some (w64 (z.state * 2 ^ 60 + s.allowance pod % 65536 * 2 ^ 32 + s.load' pod % 65536 * 65536 + z.flow % 65536))
  | _ => s.wcsrRead t.core n

/-- `cpspl` is written once every spilled descriptor of the strand has been read back (R238). -/
def cpsplOp (s : State) (k : Nat) (v : Word) : Option State :=
  if (s.spilledOf k).isEmpty then some (s.modStrand k fun t => t.setCw cCpspl (cpsplLegal v)) else none

/-- A write of `frecbase` (R382). -/
def frecbaseOp (s : State) (core : Nat) (v : Word) : State :=
  s.modCore core fun c => { c with frecbase := frecbaseLegal v, frectail := 0 }

/-- `bstmax` of a pod is written: in force at once unless an evacuation or the power controller holds it at 0 (R402, R407). -/
def bstmaxOp (s : State) (q : Nat) (v : Word) : State :=
  let n := min 8 (wbits v 3 0)
  s.modPod q fun p => { p with bstW := n, bstmax := if (s.zoneAt q).state < 3 && s.pkg.means = 0 then n else p.bstmax }

/-- Selmel's firmware writes a machine CSR of a W-core (R382, R402, R419). -/
def selmelWrite (s : State) (core n : Nat) (v : Word) : State :=
  if Config.numCores ≤ core then s
  else
    match n with
    | 0x7C0 => s.passcntOp (podOf core) v
    | 0x7C2 => s.frecbaseOp core v
    | 0x7C3 => s.bstmaxOp (podOf core) v
    | 0x7D0 => s.modCore core fun c => { c with frecmask := v }
    | _ => s

/-- A write to a CSR of a strand; `none` where it has to wait. -/
def csrWrite (s : State) (t : Strand) (c : Crew) (n : Nat) (v : Word) : Option State :=
  let put (i : Nat) (v : Word) : Option State := some (s.setCtx s.cur i v)
  match n with
  | 0x001 => some (s.setFcsr ((s.fcsr &&& 0xE0) ||| (v &&& 0x1F)))
  | 0x002 => some (s.setFcsr ((s.fcsr &&& 0x1F) ||| w64 (wbits v 2 0 * 32)))
  | 0x003 => some (s.setFcsr (v &&& 0xFF))
  | 0x800 => put cThctl (thctlLegal (t.cw cThctl) v)
  | 0x810 => put cFxsat (v &&& 1)
  | 0x820 => s.cpsplOp t.image v
  | 0x830 => some (s.modCrew c.id fun c => { c with mxflg := v &&& 7 })
  | 0x838 => some (s.modCrew c.id fun c => { c with epflg := v &&& 15 })
  | 0x140 => put cSscratch v
  | 0x141 => put cSepc (v &&& ~~~1)
  | 0x142 => if scauseLegal (wbits v 5 0) then put cScause (v &&& 0x3F) else some s
  | 0x143 => put cStval v
  | 0x5C0 => put cWtvec (v &&& ~~~3)
  | 0x5C1 => put cWstatus ((t.cw cWstatus &&& 0x300) ||| (v &&& 0xC0001))
  | 0x5C2 => put cWtslo v
  | 0x5C3 => put cWtshi v
  | 0x5E0 => some (s.modDie (dieOf t.core) fun d => { d with clarb := weights v })
  | 0x5E1 => some (s.modPkg fun p => { p with cllnk := weights v })
  | 0x5E2 => some (s.modDie (dieOf t.core) fun d => { d with clcap := v &&& 0xFF })
  | 0x5E8 => some (s.clsreqOp (dieOf t.core) v)
  | _ => some s

/-- A standard CSR that only L-cores implement (R359, Table 2.1). -/
def csrLOnly (n : Nat) : Bool :=
  [0x008, 0x009, 0x00A, 0x00F, 0xC20, 0xC21, 0xC22, 0x100, 0x104, 0x105, 0x106, 0x10A, 0x144, 0x14D, 0x150, 0x151, 0x15C, 0xDB0,
    0xDA0].contains n
    || (0x10C ≤ n && n ≤ 0x10F) || (0xC03 ≤ n && n ≤ 0xC1F)
    || [0x200, 0x204, 0x205, 0x240, 0x241, 0x242, 0x243, 0x244, 0x24D, 0x250, 0x251, 0x25C, 0xEB0, 0x280, 0x600, 0x602, 0x603, 0x604,
      0x605, 0x606, 0x607, 0x608, 0x609, 0x60A, 0x643, 0x644, 0x645, 0x646, 0x647, 0x64A, 0x680, 0xE12].contains n
    || (0x60C ≤ n && n ≤ 0x60F)
    || [0x308, 0x309, 0x34A, 0x34B, 0x350, 0x351, 0x35C, 0xFB0].contains n

/-- A CSR access of a strand. -/
def csrStrand (s : State) (t : Strand) (c : Crew) (op : CsrOp) (rd : Reg) (wr : Bool) (src : Word) (n : Nat) : Out :=
  let priv := n / 256 % 4
  match s.csrRead t c n with
  | none => if csrLOnly n then s.coreClass else s.illegal
  | some old =>
    if priv = 3 || (priv ≠ 0 && !t.sMode) || (wr && (3072 ≤ n || n = 0x180)) then s.illegal
    else if !wr then s.status rd old
    else match s.csrWrite t c n (csrNew op old src) with | some s => s.status rd old | none => s.stall

/-! ### CSRs of an L-core -/

/-- Bits of `mstatus` and `sstatus` that can be written. -/
def mstatusMask : Word := 0xC0007E7FAA
/-- Of `sstatus` and `vsstatus`. -/
def sstatusMask : Word := 0xC6722

/-- A status register as read: UXL (and SXL) 2, SD from FS and VS. -/
def statusView (v : Word) (sxl : Bool) : Word :=
  v ||| (if sxl then 0xA00000000 else 0x200000000)
    ||| (if wbits v 14 13 = 3 || wbits v 10 9 = 3 then 0x8000000000000000 else 0)

/-- Numbers of the CSRs of V. -/
def cVstart : Nat := 0x008
/-- `vxsat`. -/
def cVxsat : Nat := 0x009
/-- `vxrm`. -/
def cVxrm : Nat := 0x00A
/-- `vl`. -/
def cVl : Nat := 0xC20
/-- `vtype`. -/
def cVtype : Nat := 0xC21

/-- Bytes of a vector register: VLEN / 8 (log 20). -/
def vlenb : Nat := 2 ^ (4 + Config.vlenPick % 10)

/-- A CSR of V. -/
def csrVector (n : Nat) : Bool := [0x008, 0x009, 0x00A, 0x00F, 0xC20, 0xC21, 0xC22].contains n

/-- Vector state is accessible: `mstatus`.VS, and with V = 1 `vsstatus`.VS, is not Off. -/
def vecOn (l : LCore) : Bool := wbits (l.get 0x300) 10 9 ≠ 0 && (!l.virt || wbits (l.get 0x200) 10 9 ≠ 0)

/-- Vector state is dirty. -/
def vecDirty (s : State) (i : Nat) : State :=
  s.modLcore i fun l =>
    let c := sset l.csr csrMstatus (l.get csrMstatus ||| 0x600)
    { l with csr := if l.virt then sset c 0x200 (sget c 0x200 ||| 0x600) else c }

/-- The number that V = 1 substitutes for a supervisor CSR. -/
def vsNum (l : LCore) (n : Nat) : Nat :=
  if (l.mode = .vs) && [0x100, 0x104, 0x105, 0x140, 0x141, 0x142, 0x143, 0x144, 0x14D, 0x150, 0x151, 0x15C, 0x180, 0xDB0].contains n then n + 0x100 else n

/-- Write mask of a standard CSR of an L-core that holds what is written; `none` for a number that it lacks. -/
def lcsrMask (n : Nat) : Option Word :=
  let all : Word := 0xFFFFFFFFFFFFFFFF
  match n with
  | 0x105 => some (~~~2) | 0x205 => some (~~~2) | 0x305 => some (~~~2)
  | 0x141 => some (~~~1) | 0x241 => some (~~~1) | 0x341 => some (~~~1)
  | 0x008 => some (w64 (8 * vlenb - 1)) | 0x009 => some 1 | 0x00A => some 3
  | 0x304 => some 0x3EEE | 0x303 => some 0x2222 | 0x603 => some 0x444 | 0x645 => some 0x444 | 0x607 => some 0
  | 0x106 => some 0xFFFFFFFF | 0x306 => some 0xFFFFFFFF | 0x606 => some 0xFFFFFFFF | 0x320 => some 0xFFFFFFFD
  | 0x100 => some sstatusMask | 0x200 => some sstatusMask | 0x300 => some mstatusMask | 0x600 => some 0x30000007003C0
  | 0x302 => some (~~~0x800) | 0x602 => some (~~~0xF10E00)
  | 0x680 => some 0xF3FFFFFFFFFFFFFC
  | 0x150 => some 0xFFF | 0x250 => some 0xFFF | 0x350 => some 0xFFF
  | 0x308 => some 0x202 | 0x608 => some 0 | 0x609 => some 0x4FFF03FF | 0x646 => some 0xFFFFFF00FF00FF00
  | 0x30C => some 0xDC00000000000000 | 0x60C => some 0xDC00000000000000
  | 0x10A => some 0x3000000F1 | 0x30A => some 0xC0000000000000F1 | 0x60A => some 0xC0000003000000F1
  | _ =>
    if [0x104, 0x140, 0x142, 0x143, 0x144, 0x14D, 0x180, 0x204, 0x240, 0x242, 0x243, 0x244, 0x24D, 0x280, 0x340, 0x342, 0x343,
        0x344, 0x34A, 0x34B, 0x604, 0x605, 0x643, 0x644, 0x647, 0x64A, 0x151, 0x15C, 0x251, 0x25C, 0x309, 0x351, 0x35C].contains n
      then some all
    else if (0x30D ≤ n && n ≤ 0x30F) || (0x60D ≤ n && n ≤ 0x60F) then some 0x8000000000000000
    else if (0x10C ≤ n && n ≤ 0x10F) || [0xDB0, 0xEB0, 0xFB0, 0x00F, 0x301, 0xC20, 0xC21, 0xC22, 0xDA0, 0xE12, 0xB00, 0xB02].contains n || (0xB03 ≤ n && n ≤ 0xB1F) || (0x323 ≤ n && n ≤ 0x33F)
        || (0xC00 ≤ n && n ≤ 0xC1F) || (0xF11 ≤ n && n ≤ 0xF15) then some 0
    else none

/-- `tstall` on an L-core (R27): the count in the depth-0 image of its thread, or 0. -/
def tstallL (s : State) (l : LCore) : Word :=
  match s.frames.find? fun f => f.tag = l.get 0x140 && f.satp = l.get 0x180 with
  | some f => s.imageMem f.image cTstall
  | none => 0

/-! ### Interrupt files of an L-core (AIA)

The registers of the file of M-mode stand in `csr` at 0x1000 and those of the file of S-mode at 0x2000, each at its select. -/

/-- 64-bit words of interrupt identities of a file, 1 to 32 (log 20). -/
def eiWords : Nat := Config.eiPick % 32 + 1

/-- Where the file of M-mode or of S-mode stands. -/
def eiFile (sup : Bool) : Nat := if sup then 0x2000 else 0x1000

/-- Word k of the identities that are pending and enabled; identity 0 is none. -/
def eiWord (l : LCore) (sup : Bool) (k : Nat) : Word :=
  let f := eiFile sup
  l.get (f + 0x80 + 2 * k) &&& l.get (f + 0xC0 + 2 * k) &&& (if k = 0 then ~~~1 else ~~~0)

/-- The identity that `mtopei` or `stopei` names: the lowest one pending and enabled, below `eithreshold`; 0 is none. -/
def topei (l : LCore) (sup : Bool) : Nat :=
  match (upto 0 32).find? fun k => eiWord l sup k ≠ 0 with
  | none => 0
  | some k =>
    let n := 64 * k + ((upto 0 64).find? fun b => wbit (eiWord l sup k) b).getD 0
    let th := (l.get (eiFile sup + 0x72)).toNat
    if th = 0 || n < th then n else 0

/-- The file signals an external interrupt. -/
def eiSignal (l : LCore) (sup : Bool) : Bool := wbit (l.get (eiFile sup + 0x70)) 0 && topei l sup ≠ 0

/-- A write to register `sel` of a file: `eidelivery`, `eithreshold`, `eip` or `eie`. -/
def eiWrite (l : LCore) (sup : Bool) (sel : Nat) (v : Word) : LCore :=
  let ok : Bool :=
    if sel = 0x70 then v.toNat ≤ 1 else if sel = 0x72 then v.toNat < 64 * eiWords else sel % 64 / 2 < eiWords
  if ok then { l with csr := sset l.csr (eiFile sup + sel) (if sel = 0x80 || sel = 0xC0 then v &&& ~~~1 else v) } else l

/-- Pending bit `id` of a file becomes `b`. -/
def eiPend (l : LCore) (sup : Bool) (id : Nat) (b : Bool) : LCore :=
  let r := 0x80 + 2 * (id / 64)
  if id = 0 || 64 * eiWords ≤ id then l
  else eiWrite l sup r (winsert (l.get (eiFile sup + r)) (id % 64) (id % 64) (b2n b))

/-- An MSI arrives at an interrupt file of L-core i (log 62). -/
def msiOp (s : State) (i : Nat) (sup : Bool) (id : Nat) : State := s.modLcore i fun l => eiPend l sup id true

/-- What `mireg` or `sireg` reaches at a select: 0 a register of the file, 1 a priority, which reads zero, 2 none. -/
def iregKind (sel : Nat) : Nat :=
  if sel % 2 = 1 then 2
  else if sel = 0x70 || sel = 0x72 || (0x80 ≤ sel && sel ≤ 0xFF) then 0
  else if 0x30 ≤ sel && sel ≤ 0x3F then 1
  else 2

/-- It as read. -/
def iregRead (l : LCore) (sup : Bool) : Word :=
  let sel := (l.get (if sup then 0x150 else 0x350)).toNat
  if iregKind sel = 0 then l.get (eiFile sup + sel) else 0

/-- It written. -/
def iregWrite (s : State) (i : Nat) (sup : Bool) (v : Word) : State :=
  s.modLcore i fun l =>
    let sel := (l.get (if sup then 0x150 else 0x350)).toNat
    if iregKind sel = 0 then eiWrite l sup sel v else l

/-! ### Pending interrupts of an L-core -/

/-- `mip` at a time: what software wrote, the supervisor timer where `menvcfg`.STCE turns it on, the signals of the interrupt
files, and the guest's bits of `hvip` with its timer (log 62). -/
def mipOf (l : LCore) (time : Word) : Word :=
  let stce : Bool := wbit (l.get 0x30A) 63
  let guest : Bool := stce && wbit (l.get 0x60A) 63 && (l.get 0x24D).toNat ≤ (time + l.get 0x605).toNat
  let p := l.get 0x344 &&& (if wbit (l.get 0x308) 9 then 0x2022 else 0x2222)
  let p := if stce then (p &&& ~~~0x20) ||| (if (l.get 0x14D).toNat ≤ time.toNat then 0x20 else 0) else p
  p ||| (l.get 0x645 &&& 0x444) ||| (if guest then 0x40 else 0) ||| (if eiSignal l false then 0x800 else 0)
    ||| (if eiSignal l true then 0x200 else 0)

/-- Bits of `mip` that software can write. -/
def mipMask (l : LCore) : Word :=
  0x2002 ||| (if wbit (l.get 0x30A) 63 then 0 else 0x20) ||| (if wbit (l.get 0x308) 9 then 0 else 0x200)

/-- `mideleg`: interrupts of the guest are delegated always. -/
def midelegOf (l : LCore) : Word := l.get 0x303 ||| 0x1444

/-- Interrupts of S-mode that `mvien` takes from `mip` and `mie` to `mvip` and `sie`. -/
def virtMask (l : LCore) : Word := l.get 0x308 &&& ~~~midelegOf l

/-- `mvip`: its own bits where `mvien` is set, and elsewhere those of `mip`. -/
def mvipOf (l : LCore) : Word :=
  let en := l.get 0x308
  (l.get 0x309 &&& en &&& 0x202) ||| (l.get 0x344 &&& mipMask l &&& ~~~en &&& 0x222)

/-- Interrupts pending and enabled for M-mode. -/
def pendM (l : LCore) (time : Word) : Word := mipOf l time &&& l.get 0x304 &&& ~~~midelegOf l

/-- For HS-mode. -/
def pendHS (l : LCore) (time : Word) : Word :=
  (mipOf l time &&& l.get 0x304 &&& midelegOf l &&& ~~~(l.get 0x603)) ||| (mvipOf l &&& l.get 0x104 &&& virtMask l)

/-- `vsip` and `vsie`, both set. -/
def pendVS (l : LCore) (time : Word) : Word := (mipOf l time &&& l.get 0x304 &&& l.get 0x603 &&& 0x444) >>> 1

/-- The first of some interrupts in the default order of the RISC-V privileged architecture. -/
def firstInt (w : Word) : Option Nat := [11, 3, 7, 9, 1, 5, 12, 10, 2, 6, 13].find? fun n => w.getLsbD n

/-- `mtopi` or `stopi`: the first interrupt, at priority 1. -/
def topi (w : Word) : Word := match firstInt w with | some n => w64 (n * 65536 + 1) | none => 0

/-- What `vstopi` reports: an interrupt of VS-mode and its priority, 256 for one after the external interrupt. -/
def vsTop (l : LCore) (time : Word) : Option (Nat × Nat) :=
  let p := pendVS l time
  let c := l.get 0x609
  let vti := wbit c 30
  let iid := wbits c 27 16
  let pr := wbits c 7 0
  let ext : Option (Nat × Nat) := if wbit p 9 then some (9, if iid = 9 && pr ≠ 0 then pr else 256) else none
  let prio (n : Nat) : Nat := let b := wbits (l.get 0x646) (if n = 1 then 15 else 31) (if n = 1 then 8 else 24); if b = 0 then 256 else b
  let rest : Option (Nat × Nat) :=
    if vti then (if iid = 9 then none else some (iid, if pr ≠ 0 then pr else if wbit c 9 then 256 else 0))
    else match wbit p 1, wbit p 5 with
      | true, true => some (if prio 1 ≤ prio 5 then (1, prio 1) else (5, prio 5))
      | true, false => some (1, prio 1)
      | false, true => some (5, prio 5)
      | false, false => none
  match ext, rest with
  | some e, some r => some (if r.2 < e.2 || (r.2 = e.2 && vti && !wbit c 9) then r else e)
  | some e, none => some e
  | none, r => r

/-- `vstopi`. -/
def vstopi (l : LCore) (time : Word) : Word :=
  match vsTop l time with
  | none => 0
  | some (n, p) => w64 (n * 65536 + if wbit (l.get 0x609) 8 then min p 255 else 1)

/-- A CSR of L-core i as read; cycles are a free value (log 13). -/
def lcsrRead (s : State) (i n : Nat) : State × Word :=
  let l := s.lcoreAt i
  match n with
  | 0x001 => (s, s.fcsr &&& 0x1F)
  | 0x002 => (s, w64 (wbits s.fcsr 7 5))
  | 0x003 => (s, s.fcsr &&& 0xFF)
  | 0xCC5 => (s, w64 (s.pkgNum * 2 ^ 40 + i))
  | 0xCC7 => (s, s.tstallL l)
  | 0x100 => (s, statusView (l.get 0x300 &&& sstatusMask) false)
  | 0x200 => (s, statusView (l.get 0x200) false)
  | 0x300 => (s, statusView (l.get 0x300) true)
  | 0x600 => (s, l.get 0x600 ||| 0x200000000)
  | 0x303 => (s, midelegOf l)
  | 0x344 => (s, mipOf l s.time)
  | 0x104 => (s, (l.get 0x304 &&& midelegOf l &&& 0x2222) ||| (l.get 0x104 &&& virtMask l))
  | 0x144 => (s, (mipOf l s.time &&& midelegOf l &&& 0x2222) ||| (mvipOf l &&& virtMask l))
  | 0x151 => (s, iregRead l true)
  | 0x351 => (s, iregRead l false)
  | 0x15C => (s, w64 (topei l true * 65537))
  | 0x35C => (s, w64 (topei l false * 65537))
  | 0xDB0 => (s, topi (pendHS l s.time))
  | 0xFB0 => (s, topi (pendM l s.time))
  | 0xEB0 => (s, vstopi l s.time)
  | 0x309 => (s, mvipOf l)
  | 0x60A => (s, l.get n &&& (0x3FFFFFFFFFFFFFFF ||| (l.get 0x30A &&& 0xC000000000000000)))
  | 0x60C => (s, l.get n &&& l.get 0x30C)
  | 0x60D => (s, l.get n &&& l.get 0x30D)
  | 0x60E => (s, l.get n &&& l.get 0x30E)
  | 0x60F => (s, l.get n &&& l.get 0x30F)
  | 0x604 => (s, l.get 0x304 &&& 0x1444)
  | 0x644 => (s, mipOf l s.time &&& 0x1444)
  | 0x204 => (s, (l.get 0x304 &&& l.get 0x603 &&& 0x444) >>> 1)
  | 0x244 => (s, (mipOf l s.time &&& l.get 0x603 &&& 0x444) >>> 1)
  | 0x00F => (s, l.get cVxrm <<< 1 ||| l.get cVxsat)
  | 0xC22 => (s, w64 vlenb)
  | 0x301 => (s, 0x80000000003411AD)
  | 0xC00 => let (k, s) := s.drawNat; (s, w64 k)
  | 0xB00 => let (k, s) := s.drawNat; (s, w64 k)
  | 0xC01 => (s, if l.mode = .vs || l.mode = .vu then s.time + l.get 0x605 else s.time)
  | 0xC02 => (s, l.instret)
  | 0xB02 => (s, l.instret)
  | 0xF11 => (s, 0xB17)
  | 0xF12 => (s, 0x8000000000000F91)
  | 0xF13 => (s, 0xA1)
  | 0xF14 => (s, w64 i)
  | _ => (s, l.get n)

/-- Writes the bits of a mask. -/
def lcsrPut (s : State) (i n : Nat) (v m : Word) : State :=
  s.modLcore i fun l => { l with csr := sset l.csr n ((l.get n &&& ~~~m) ||| (v &&& m)) }

/-- A write to it. -/
def lcsrWrite (s : State) (i n : Nat) (v : Word) : State :=
  let put := s.lcsrPut i
  let l := s.lcoreAt i
  let mode := wbits v 63 60
  match n with
  | 0x001 => s.setFcsr ((s.fcsr &&& 0xE0) ||| (v &&& 0x1F))
  | 0x002 => s.setFcsr ((s.fcsr &&& 0x1F) ||| w64 (wbits v 2 0 * 32))
  | 0x003 => s.setFcsr (v &&& 0xFF)
  | 0x100 => put 0x300 v sstatusMask
  | 0x300 => put 0x300 v (if wbits v 12 11 = 2 then mstatusMask &&& ~~~0x1800 else mstatusMask)
  | 0x104 => State.lcsrPut (put 0x304 v (midelegOf l &&& 0x2222)) i 0x104 v (virtMask l)
  | 0x144 => State.lcsrPut (put 0x344 v (midelegOf l &&& 0x2002)) i 0x309 v (virtMask l &&& 2)
  | 0x344 => State.lcsrPut (put 0x344 v (mipMask l)) i 0x645 v 4
  | 0x309 => State.lcsrPut (put 0x309 v (l.get 0x308 &&& 0x202)) i 0x344 v (mipMask l &&& ~~~(l.get 0x308) &&& 0x222)
  | 0x151 => s.iregWrite i true v
  | 0x351 => s.iregWrite i false v
  | 0x15C => s.modLcore i fun l => eiPend l true (topei l true) false
  | 0x35C => s.modLcore i fun l => eiPend l false (topei l false) false
  | 0x604 => put 0x304 v 0x1444
  | 0x644 => put 0x645 v 4
  | 0x204 => put 0x304 (v <<< 1) ((s.lcoreAt i).get 0x603 &&& 0x444)
  | 0x244 => put 0x645 (v <<< 1) ((s.lcoreAt i).get 0x603 &&& 4)
  | 0x00F => State.lcsrPut (put cVxsat v 1) i cVxrm (v >>> 1) 3
  | 0xB02 => s.modLcore i fun l => { l with instret := v - 1 }
  | _ =>
    let legal : Bool := mode = 0 || (8 ≤ mode && mode ≤ 10)
    if (n = 0x180 || n = 0x280) && !legal then s
    else
      match lcsrMask n with
      | some m => put n v (if n = 0x680 && !legal then m &&& 0x0FFFFFFFFFFFFFFF
          else if n = 0x60A then m &&& (0x3FFFFFFFFFFFFFFF ||| (l.get 0x30A &&& 0xC000000000000000)) else m)
      | none => s

/-- The interrupt that an L-core takes before its next instruction, and the mode that takes it: M-mode first, then HS-mode, then
VS-mode. -/
def pendingInt (l : LCore) (time : Word) : Option (LMode × Nat) :=
  let st := l.get 0x300
  let m := if l.mode ≠ .m || wbit st 3 then firstInt (pendM l time) else none
  let hs := if l.mode = .u || l.virt || (l.mode = .hs && wbit st 1) then firstInt (pendHS l time) else none
  let vs := if l.mode = .vu || (l.mode = .vs && wbit (l.get 0x200) 1) then (vsTop l time).map (·.1) else none
  match m, hs, vs with
  | some n, _, _ => some (.m, n)
  | none, some n, _ => some (.hs, n)
  | none, none, some n => some (.vs, n)
  | none, none, none => none

/-- What privilege, mode and controls say of a CSR access of an L-core: 0 allowed, 2 or 22 the exception. -/
def lcsrPriv (l : LCore) (n : Nat) : Nat :=
  let priv := n / 256 % 4
  let ms := l.get 0x300
  let hs := l.get 0x600
  let v : Bool := l.mode = .vs || l.mode = .vu
  let cnt : Bool := 0xC00 ≤ n && n ≤ 0xC1F
  let en (r : Nat) : Bool := (l.get r).getLsbD (n % 32)
  match l.mode with
  | .m => 0
  | _ =>
    if priv = 3 then 2
    else if (n = 0x14D || n = 0x24D) && !(wbit (l.get 0x306) 1 && wbit (l.get 0x30A) 63) then 2
    else if n = 0x14D && l.mode = .vs && !(wbit (l.get 0x606) 1 && wbit (l.get 0x60A) 63) then 22
    else if cnt && !en 0x306 then 2
    else if cnt && v && !en 0x606 then 22
    else if cnt && l.mode = .u && !en 0x106 then 2
    else if cnt && l.mode = .vu && !en 0x106 then 22
    else
      match l.mode with
      | .m => 0
      | .hs => if (n = 0x180 || n = 0x680) && wbit ms 20 then 2 else 0
      | .vs => if priv = 2 then 22 else if n = 0x180 && wbit hs 20 then 22 else 0
      | .u => if priv = 0 then 0 else 2
      | .vu => if priv = 0 then 0 else 22

/-- The bit of `mstateen0` to `mstateen3` and `hstateen0` to `hstateen3` that an access below M-mode needs, with the number of
the register. -/
def stateenBit (n : Nat) : Option (Nat × Nat) :=
  if 0x10C ≤ n && n ≤ 0x10F then some (n - 0x10C, 63)
  else if 0x60C ≤ n && n ≤ 0x60F then some (n - 0x60C, 63)
  else if n = 0x10A || n = 0x60A then some (0, 62)
  else if [0x150, 0x151, 0x250, 0x251].contains n then some (0, 60)
  else if [0xDB0, 0xEB0, 0x608, 0x609, 0x646, 0x647].contains n then some (0, 59)
  else if n = 0x15C || n = 0x25C then some (0, 58)
  else none

/-- What they say of the access: 0 allowed, 2 or 22 the exception. -/
def stateenBar (l : LCore) (n : Nat) : Nat :=
  let file : Bool := n = 0x151 && 0x70 ≤ (l.get 0x150).toNat && (l.get 0x150).toNat ≤ 0xFF
  match l.mode, stateenBit n with
  | .m, _ => 0
  | _, none => 0
  | md, some (k, b) =>
    if !wbit (l.get (0x30C + k)) b || (md = .hs && file && !wbit (l.get 0x30C) 58) then 2
    else if md = .vs && !wbit (l.get (0x60C + k)) b then 22
    else 0

/-- What AIA says of the access: registers that a select does not reach, the file that `mvien` keeps from S-mode, the guest's
file, of which there is none, and what `hvictl`.VTI keeps from VS-mode. -/
def aiaBar (l : LCore) (n : Nat) (wr : Bool) : Nat :=
  let sel (r : Nat) : Nat := (l.get r).toNat
  let guest : Bool := l.mode = .vs
  let kept : Bool := l.mode = .hs && wbit (l.get 0x308) 9
  if n = 0x351 then (if iregKind (sel 0x350) = 2 then 2 else 0)
  else if n = 0x151 && guest then
    (let k := sel 0x250; if (0x30 ≤ k && k ≤ 0x3F) || (0x70 ≤ k && k ≤ 0xFF) then 22 else 2)
  else if n = 0x151 then (if iregKind (sel 0x150) = 2 || (kept && iregKind (sel 0x150) = 0) then 2 else 0)
  else if n = 0x15C then (if guest then 22 else if kept then 2 else 0)
  else if n = 0x251 || n = 0x25C then 2
  else if guest && wbit (l.get 0x609) 30 && (n = 0x104 || n = 0x144 || (wr && n = 0x14D)) then 22
  else 0

/-- What bars a CSR access of an L-core: 0 nothing, 2 or 22 the exception. -/
def lcsrBar (l : LCore) (n : Nat) (wr : Bool) : Nat :=
  match lcsrPriv l n with
  | 0 => match stateenBar l n with | 0 => aiaBar l n wr | c => c
  | c => c

/-- The value that `csrrs` and `csrrc` change: of `mip`.SEIP the bit that software wrote. -/
def lcsrBase (l : LCore) (n : Nat) (old : Word) : Word :=
  if n = 0x344 then (old &&& ~~~0x200) ||| (l.get 0x344 &&& 0x200) else old

/-- A device CSR that only W-cores implement (Table 2.14). -/
def csrWOnly (n : Nat) : Bool :=
  [0xCC0, 0xCC1, 0xCC2, 0xCC3, 0xCC4, 0xCC6, 0xCC8, 0xCC9, 0xCD0, 0xCD1, 0xCD2, 0xCD8, 0xCDC, 0xCDD, 0xCDE, 0xCDF, 0xCE0, 0xCE1,
    0xCE2, 0xCE4, 0xCE5, 0xCE8, 0xCEC, 0xCED, 0xCF0, 0xCF1, 0xCF2, 0x800, 0x810, 0x820, 0x830, 0x838, 0x5C0, 0x5C1, 0x5C2, 0x5C3,
    0x5E0, 0x5E1, 0x5E2, 0x5E8, 0x5E9, 0x7C0, 0x7C1, 0x7C2, 0x7C3, 0x7D0, 0x7D1].contains n

/-- A CSR access of an L-core. -/
def csrL (s : State) (i : Nat) (op : CsrOp) (rd : Reg) (wr : Bool) (src : Word) (n : Nat) : Out :=
  let l := s.lcoreAt i
  let fp : Bool := n = 1 || n = 2 || n = 3
  if csrWOnly n then s.coreClass
  else if !(fp || n = 0xCC5 || n = 0xCC7 || (lcsrMask n).isSome) || (wr && 3072 ≤ n) then s.illegal
  else
    match lcsrBar l n wr with
    | 0 =>
      if (fp && !s.fpOn) || (csrVector n && !vecOn l) then s.illegal
      else
        let m := vsNum l n
        let (s, old) := s.lcsrRead i m
        let s := if fp then s.fpDirty else if wr && csrVector n then s.vecDirty i else s
        (if wr then s.lcsrWrite i m (csrNew op (lcsrBase l m old) src) else s).status rd old
    | 22 => s.virtualInst
    | _ => s.illegal

end State

/-- The Zicsr instructions. -/
def execCsrAccess (op : CsrOp) (imm : Bool) (rd src : Reg) (csr : BitVec 12) (s : State) : Out :=
  let wr : Bool := op = .rw || src ≠ 0
  let v := if imm then w64 src.toNat else s.x src
  s.onAny (match s.cur with
    | .strand _ => s.onCrew fun t c => s.csrStrand t c op rd wr v csr.toNat
    | .lcore i => s.csrL i op rd wr v csr.toNat)

/-- CPSPL_WRITE: the write that waited for the readbacks (R238). -/
def execCpsplWrite (k : Nat) (v : Word) (s : State) : Out :=
  .next (match s.cpsplOp k v with | some s => s | none => s)

/-- FRECBASE_WRITE: Selmel writes `frecbase` of a W-core (R382). -/
def execFrecbaseWrite (core : Nat) (v : Word) (s : State) : Out := .next (s.frecbaseOp core v)

end Sys2Proof.Machine
end

