-- ==== Sys2Proof/Machine/Iommu.lean ====
section
/-! DEFINITION. The IOMMUs of the PCIe ports and the requests of devices (02_encoding.md R30, 16_bringup.md R422). The manual
names the RISC-V IOMMU 1.0 and the parts of it that each port has; tables, checks, causes, records and commands are the
standard's (PRESUMED, log 28). -/

namespace Sys2Proof

/-- The kind of access of a request. -/
def DevReq.kind (r : DevReq) : AccKind := if r.req.write then .store else if r.exec then .fetch else .load

/-- Bytes that a request reads or writes. -/
def DevReq.len (r : DevReq) : Nat := if r.req.write then r.req.data.length else r.req.len

/-- Transaction type of a fault record. -/
def DevReq.ttyp (r : DevReq) : Nat :=
  match r.form with
  | .access => (if r.req.write then 3 else if r.exec then 1 else 2) + (if r.translated then 4 else 0)
  | .translation => 8
  | .message => 9

end Sys2Proof

namespace Sys2Proof.Machine

/-- What a translation comes to: a physical address, or an MSI for the memory-resident interrupt file at `addr`, with the
identity and the page of its notice. -/
inductive IoDest
  | bytes (pa : Nat)
  | file (addr nid npage : Nat)
  deriving DecidableEq, Repr

/-- The 64-bit words of a table entry. -/
def dwords (v n : Nat) : List Nat := (upto 0 n).map fun i => v / 2 ^ (64 * i) % 2 ^ 64

/-- Level `i` of a device identifier in the directory of extended contexts. -/
def devIndex (dev : Nat) : Nat → Nat
  | 0 => bits dev 5 0
  | 1 => bits dev 14 6
  | _ => bits dev 23 15

/-- Level `i` of a process identifier. -/
def procIndex (pid : Nat) : Nat → Nat
  | 0 => bits pid 7 0
  | 1 => bits pid 16 8
  | _ => bits pid 19 17

/-- A device context that Table 2.2 allows: no field of a part that the port lacks, Sv57 or bare in each stage, ATS before PRI
and guest addresses, a default process only with a process directory. -/
def deviceOk (w : List Nat) : Bool :=
  let tc := w.getD 0 0
  let hg := w.getD 1 0
  let fs := w.getD 3 0
  let mode := bits fs 63 60
  let guest := bits hg 63 60
  tc / 2 ^ 10 = 0 && bits tc 8 7 = 0
    && (bits tc 1 1 = 1 || (bits tc 2 2 = 0 && bits tc 3 3 = 0)) && (bits tc 2 2 = 1 || bits tc 6 6 = 0)
    && (bits tc 5 5 = 1 || bits tc 9 9 = 0)
    && (if bits tc 5 5 = 1 then mode ≤ 3 else mode = 0 || mode = 10) && bits fs 59 44 = 0
    && (guest = 0 || (guest = 10 && bits hg 1 0 = 0)) && (bits tc 3 3 = 0 || guest ≠ 0)
    && bits (w.getD 2 0) 11 0 = 0 && bits (w.getD 2 0) 63 32 = 0
    && bits (w.getD 4 0) 63 60 ≤ 1 && bits (w.getD 4 0) 59 44 = 0 && bits (w.getD 5 0) 63 52 = 0
    && bits (w.getD 6 0) 63 52 = 0 && w.getD 7 0 = 0

/-- A process context that Table 2.2 allows. -/
def processOk (w : List Nat) : Bool :=
  let fs := w.getD 1 0
  bits (w.getD 0 0) 11 3 = 0 && bits (w.getD 0 0) 63 32 = 0 && (bits fs 63 60 = 0 || bits fs 63 60 = 10) && bits fs 59 44 = 0

/-- The vector that `icvec` gives a cause of interrupt. -/
def Iommu.vector (u : Iommu) (c : Nat) : Nat := wbits u.icvec (4 * c + 3) (4 * c)

/-- The page numbers that the mask leaves agree. -/
def msiMatch (page mask pattern : Nat) : Bool :=
  (upto 0 52).all fun i => bits mask i i = 1 || bits page i i = bits pattern i i

/-- The bits of a page number that the mask selects, gathered. -/
def gather (page mask : Nat) : Nat → Nat
  | 0 => 0
  | n + 1 => if bits mask n n = 1 then gather page mask n + bits page n n * 2 ^ popcount mask n else gather page mask n

namespace State

/-- The IOMMU of a port. -/
def iommuAt (s : State) (p : Nat) : Iommu := s.iommus.getD p {}

/-- A change of the IOMMU of a port. -/
def modIommu (s : State) (p : Nat) (f : Iommu → Iommu) : State := { s with iommus := lmod s.iommus p f }

/-! ### Interrupts and records -/

/-- Cause `c` becomes pending: its vector's MSI goes out, unless it is masked. -/
def ioSignal (s : State) (p c : Nat) (on : Bool) : State :=
  let u := s.iommuAt p
  if !on || bits u.ipsr c c = 1 then s
  else
    let s := s.modIommu p fun u => { u with ipsr := insert u.ipsr c c 1 }
    let v := u.vectors.getD (u.vector c) {}
    if v.masked then s else s.sendMsi v.addr v.data

/-- Entries of a queue. -/
def queueSize (b : Word) : Nat := 2 ^ (wbits b 4 0 + 1)

/-- A record of the fault queue: 32 bytes at its tail. A full queue sets its overflow bit, an absent one its fault bit. -/
def ioFaultPut (s : State) (p : Nat) (data : List Byte) : State :=
  let u := s.iommuAt p
  let slot := wbits u.fqb 53 10 * 4096 + 32 * u.fqt
  if !u.fqOn || u.fqFault || u.fqOver then s
  else if (u.fqt + 1) % queueSize u.fqb = u.fqh then
    (s.modIommu p fun u => { u with fqOver := true }).ioSignal p 1 u.fqIe
  else if s.memAt slot = .fault then (s.modIommu p fun u => { u with fqFault := true }).ioSignal p 1 u.fqIe
  else ((s.hwWrite Config.numCores slot data).modIommu p fun u => { u with fqt := (u.fqt + 1) % queueSize u.fqb }).ioSignal p 1 u.fqIe

/-- The fault of a request: with DTF, only the causes that no context decides are recorded. -/
def ioFault (s : State) (r : DevReq) (dtf : Bool) (c : Nat) (v : Word) : State :=
  if dtf && !(256 ≤ c && c ≤ 259) && c ≠ 268 then s
  else
    let pid := match r.pid with | some n => n % 2 ^ 20 * 2 ^ 12 + 2 ^ 32 | none => 0
    let priv := if r.pid.isSome && r.priv then 2 ^ 33 else 0
    let hdr := c + pid + priv + r.ttyp * 2 ^ 34 + r.dev % 2 ^ 24 * 2 ^ 40
    let gpa := if c = 20 || c = 21 || c = 23 then insert v.toNat 1 1 0 else 0
    s.ioFaultPut r.port (toBytes hdr 8 ++ toBytes 0 8 ++ toBytes r.req.pa 8 ++ toBytes gpa 8)

/-- A page request of a device whose context allows them: 16 bytes at the tail of the page-request queue. -/
def pageReqPut (s : State) (p dev : Nat) (pid : Option Nat) (priv exec : Bool) (payload : Word) : State :=
  let u := s.iommuAt p
  let slot := wbits u.pqb 53 10 * 4096 + 16 * u.pqt
  if !u.pqOn || u.pqFault || u.pqOver then s
  else if (u.pqt + 1) % queueSize u.pqb = u.pqh then
    (s.modIommu p fun u => { u with pqOver := true }).ioSignal p 3 u.pqIe
  else if s.memAt slot = .fault then (s.modIommu p fun u => { u with pqFault := true }).ioSignal p 3 u.pqIe
  else
    let tag := match pid with
      | some n => n % 2 ^ 20 * 2 ^ 12 + 2 ^ 32 + (if priv then 2 ^ 33 else 0) + (if exec then 2 ^ 34 else 0)
      | none => 0
    ((s.hwWrite Config.numCores slot (toBytes (tag + dev % 2 ^ 24 * 2 ^ 40) 8 ++ toBytes payload.toNat 8)).modIommu p fun u =>
      { u with pqt := (u.pqt + 1) % queueSize u.pqb }).ioSignal p 3 u.pqIe

/-! ### Reading tables -/

/-- Reads `n` bytes of a table for port `p`: fault `c` where nothing answers, `d` on a poisoned line. -/
def ioRead (s : State) (p c d pa n : Nat) : Res Nat :=
  match s.memAt pa with
  | .fault => .trap s c 0
  | .waits => .stall s
  | .ok =>
    if s.engHeld [{ addr := pa, len := n }] then .stall s
    else if s.poisonAt pa n then .trap s d 0
    else
      let s := s.engOpen pa n false (dmaCache p)
      .ok s (s.peek 4 pa n)

/-- A held entry and the tables: where they disagree, a free value says whether the IOMMU still holds the entry. -/
def ioServe {α : Type} [DecidableEq α] (s : State) (held : Option α) (fresh : State → Res α) : Res α :=
  match held with
  | none => fresh s
  | some h =>
    if (match fresh s with | .ok _ x => decide (x = h) | _ => false) then fresh s
    else
      let (b, s) := s.drawBit
      if b then .ok s h else fresh s

/-- Holds an entry of the IOMMU of a port. -/
def ioHold (s : State) (p : Nat) (e : IoHeld) : State :=
  s.modIommu p fun u => if u.held.contains e then u else { u with held := e :: u.held }

/-- Walks a directory down `n` levels from a table; `rd` reads an entry. -/
def dirWalk (rd : State → Nat → Res Nat) (absent bad : Nat) (idx : Nat → Nat) (s : State) (base : Nat) : Nat → Res Nat
  | 0 => .ok s base
  | n + 1 =>
    (rd s (base + 8 * idx (n + 1))).bind fun s e =>
      if e % 2 = 0 then .trap s absent 0
      else if bits e 9 1 ≠ 0 || bits e 63 54 ≠ 0 then .trap s bad 0
      else dirWalk rd absent bad idx s (bits e 53 10 * 4096) n

/-- The device context of a device: three levels of directory, contexts of 64 bytes. -/
def deviceOf (s : State) (p dev : Nat) : Res (List Nat) :=
  let held := (s.iommuAt p).held.findSome? fun e => match e with | .device d w => if d = dev then some w else none | _ => none
  (s.ioServe held fun s =>
    (dirWalk (fun s a => s.ioRead p 257 268 a 8) 258 259 (devIndex dev) s (wbits (s.iommuAt p).ddtp 53 10 * 4096) 2).bind fun s a =>
      (s.ioRead p 257 268 (a + 64 * devIndex dev 0) 64).bind fun s v =>
        if v % 2 = 0 then .trap s 258 0
        else if !deviceOk (dwords v 8) then .trap s 259 0
        else .ok s (dwords v 8)).bind fun s w => .ok (s.ioHold p (.device dev w)) w

/-- The number of the guest of a device context, where a second stage translates. -/
def guestOf (w : List Nat) : Option Nat := if bits (w.getD 1 0) 63 60 = 0 then none else some (bits (w.getD 1 0) 59 44)

/-- A leaf as an access of `k` may use it: no memory types (Table 2.2 names none). -/
def ioLeafOk (p level : Nat) (k : AccKind) (user sum : Bool) : Bool :=
  leafOk p level k && permOk p k user sum false && bits p 62 61 = 0

/-- Where a leaf puts an address. -/
def leafAt (p level a : Nat) : Nat := bits p 53 10 * 4096 / leafSize p level * leafSize p level + a % leafSize p level

/-- The second stage, bare or Sv57x4: `k` the access of this stage, `orig` the device's, which names the fault. -/
def ioSecond (s : State) (p : Nat) (w : List Nat) (k orig : AccKind) (gpa : Nat) : Res Nat :=
  match guestOf w with
  | none => .ok s gpa
  | some g =>
    if 2 ^ 59 ≤ gpa then .trap s (guestFault orig) (w64 (gpa / 4 * 4))
    else
      let held := (s.iommuAt p).held.findSome? fun e =>
        match e with
        | .second g' page pte level => if g' = g && page = gpa / 4096 then some (pte, level) else none
        | _ => none
      (s.ioServe held fun s =>
        walkFrom (fun s a => s.ioRead p (accessFault orig) 274 a 8) (guestFault orig) (w64 (gpa / 4 * 4)) true 4 s
          (bits (w.getD 1 0) 43 0 * 4096) 5).bind fun s l =>
        if !ioLeafOk l.1 l.2 k true false then .trap s (guestFault orig) (w64 (gpa / 4 * 4))
        else .ok (s.ioHold p (.second g (gpa / 4096) l.1 l.2)) (leafAt l.1 l.2 gpa)

/-- Reads `n` bytes at a guest address. -/
def ioGuestRead (s : State) (p : Nat) (w : List Nat) (orig : AccKind) (c d gpa n : Nat) : Res Nat :=
  match s.ioSecond p w .load orig gpa with
  | .ok s pa => s.ioRead p c d pa n
  | .trap s c v => .trap s c (v ||| 1)
  | .stall s => .stall s

/-- The process context of a process: one to three levels of directory at guest addresses, contexts of 16 bytes. -/
def processOf (s : State) (p dev pid : Nat) (w : List Nat) (k : AccKind) : Res (List Nat) :=
  let held := (s.iommuAt p).held.findSome? fun e =>
    match e with | .process d n c => if d = dev && n = pid then some c else none | _ => none
  let fs := w.getD 3 0
  (s.ioServe held fun s =>
    (dirWalk (fun s a => s.ioGuestRead p w k 265 269 a 8) 266 267 (procIndex pid) s (bits fs 43 0 * 4096) (bits fs 63 60 - 1)).bind
      fun s a => (s.ioGuestRead p w k 265 269 (a + 16 * procIndex pid 0) 16).bind fun s v =>
        if v % 2 = 0 then .trap s 266 0
        else if !processOk (dwords v 2) then .trap s 267 0
        else .ok s (dwords v 2)).bind fun s c => .ok (s.ioHold p (.process dev pid c)) c

/-- The first stage: bare where `fs` is, else Sv57, its tables at guest addresses. -/
def ioFirst (s : State) (p : Nat) (w : List Nat) (fs pscid : Nat) (k : AccKind) (user sum : Bool) (va : Nat) : Res Nat :=
  if bits fs 63 60 = 0 then .ok s va
  else if !canonicalAt 5 (w64 va) then .trap s (pageFault k) 0
  else
    let held := (s.iommuAt p).held.findSome? fun e =>
      match e with
      | .first g n page pte level =>
        if g = guestOf w && (n = pscid || bits pte 5 5 = 1) && page = va / 4096 then some (pte, level) else none
      | _ => none
    (s.ioServe held fun s =>
      walkFrom (fun s a => s.ioGuestRead p w k (accessFault k) 274 a 8) (pageFault k) (w64 va) false 4 s
        (bits fs 43 0 * 4096) 5).bind fun s l =>
      if !ioLeafOk l.1 l.2 k user sum then .trap s (pageFault k) 0
      else .ok (s.ioHold p (.first (guestOf w) pscid (va / 4096) l.1 l.2)) (leafAt l.1 l.2 (va % 2 ^ 57))

/-- An address of a virtual interrupt file, through the MSI page table: a write to the page of a file, or an MSI for a file
in memory. -/
def ioMsi (s : State) (p : Nat) (w : List Nat) (r : DevReq) (gpa : Nat) : Res IoDest :=
  let page := gpa / 4096
  let g := (guestOf w).getD 0
  let held := (s.iommuAt p).held.findSome? fun e =>
    match e with | .msi g' q m => if g' = g && q = page then some m else none | _ => none
  if r.kind = .fetch then .trap s 1 0
  else
    (s.ioServe held fun s =>
      (s.ioRead p 261 270 (bits (w.getD 4 0) 43 0 * 4096 + 16 * gather page (w.getD 5 0) 52) 16).bind fun s v =>
        if v % 2 = 0 then .trap s 262 0 else .ok s (dwords v 2)).bind fun s m =>
      let a := m.getD 0 0
      let b := m.getD 1 0
      let s := s.ioHold p (.msi g page m)
      if bits a 2 1 = 3 then
        if bits a 9 3 ≠ 0 || bits a 63 54 ≠ 0 || b ≠ 0 then .trap s 263 0
        else .ok s (.bytes (bits a 53 10 * 4096 + gpa % 4096))
      else if bits a 2 1 = 1 then
        if bits a 6 3 ≠ 0 || bits a 63 54 ≠ 0 || bits b 59 54 ≠ 0 || bits b 63 61 ≠ 0 then .trap s 263 0
        else if r.form = .access && (r.kind ≠ .store || r.len ≠ 4 || gpa % 4 ≠ 0) then .trap s 260 0
        else .ok s (.file (bits a 53 7 * 512) (bits b 9 0 + bits b 60 60 * 1024) (bits b 53 10))
      else .trap s 263 0

/-- A guest address: an interrupt file's, or memory's through the second stage. -/
def ioGuest (s : State) (p : Nat) (w : List Nat) (r : DevReq) (gpa : Nat) : Res IoDest :=
  if bits (w.getD 4 0) 63 60 = 1 && msiMatch (gpa / 4096) (w.getD 5 0) (w.getD 6 0) then s.ioMsi p w r gpa
  else (s.ioSecond p w r.kind r.kind gpa).bind fun s pa => .ok s (.bytes pa)

/-- The last stage of a request: a translation request of a device whose context says so gets the guest address (T2GPA). -/
def ioLast (s : State) (p : Nat) (w : List Nat) (r : DevReq) (gpa : Nat) : Res IoDest :=
  (s.ioGuest p w r gpa).bind fun s d => .ok s (if r.form = .translation && bits (w.getD 0 0) 3 3 = 1 then .bytes gpa else d)

/-- What the context of a device makes of its request. -/
def ioUnder (s : State) (r : DevReq) (w : List Nat) : Res IoDest :=
  let p := r.port
  let tc := w.getD 0 0
  let fs := w.getD 3 0
  let dir : Bool := bits tc 5 5 = 1
  let pid := match r.pid with | some n => some n | none => if dir && bits tc 9 9 = 1 then some 0 else none
  if ((r.translated || r.form = .translation) && bits tc 1 1 = 0) || (r.pid.isSome && !dir)
      || (r.pid.isSome && dir && bits fs 63 60 ≠ 0 && 2 ^ ([0, 8, 17, 20].getD (bits fs 63 60) 0) ≤ r.pid.getD 0) then .trap s 260 0
  else if r.translated then
    if bits tc 3 3 = 0 then .ok s (.bytes r.req.pa) else s.ioGuest p w r r.req.pa
  else if !dir then (s.ioFirst p w fs (bits (w.getD 2 0) 31 12) r.kind true false r.req.pa).bind fun s a => s.ioLast p w r a
  else
    match pid with
    | none => s.ioLast p w r r.req.pa
    | some n =>
      if bits fs 63 60 = 0 then s.ioLast p w r r.req.pa
      else
        (s.processOf p r.dev n w r.kind).bind fun s c =>
          let ta := c.getD 0 0
          let priv : Bool := r.pid.isSome && r.priv
          if priv && bits ta 1 1 = 0 then .trap s 260 0
          else
            (s.ioFirst p w (c.getD 1 0) (bits ta 31 12) r.kind (!priv) (bits ta 2 2 = 1) r.req.pa).bind fun s a => s.ioLast p w r a

/-- The IOMMU of its port translates a request; with what it answers, whether faults of the device are left unrecorded. -/
def ioTranslate (s : State) (r : DevReq) : Bool × Res IoDest :=
  let mode := wbits (s.iommuAt r.port).ddtp 3 0
  if mode = 0 then (false, .trap s 256 0)
  else if mode = 1 then (false, if r.translated || r.form = .translation then .trap s 260 0 else .ok s (.bytes r.req.pa))
  else
    match s.deviceOf r.port r.dev with
    | .ok s w => (bits (w.getD 0 0) 4 4 = 1, s.ioUnder r w)
    | .trap s c v => (false, .trap s c v)
    | .stall s => (false, .stall s)

/-- The port sends to a device. -/
def ioSend (s : State) (p : Nat) (m : DevMsg) : State := s.modIommu p fun u => { u with sent := u.sent ++ [m] }

/-- An MSI for an interrupt file in memory: its identity becomes pending, and where it is enabled the notice goes out. -/
def msiFile (s : State) (r : DevReq) (dtf : Bool) (addr nid npage : Nat) : State :=
  let d := ofBytes r.req.data
  let slot := addr + 16 * (d / 64)
  let here : List Piece := [{ addr := slot, len := 16 }]
  if 2048 ≤ d || r.req.pa % 4096 ≠ 0 then s
  else if s.memAt slot = .fault then s.ioFault r dtf 264 0
  else if s.poisonAt slot 16 then s.ioFault r dtf 271 0
  else
    let (s, old) := s.engRead here (dmaCache r.port)
    let v := ofBytes (old.map (·.1))
    let s := s.engWrite 0 [{ addr := slot, len := 8 }] ((toBytes (insert v (d % 64) (d % 64) 1) 8).map fun b => (b, false)) (dmaCache r.port)
    if bits v (64 + d % 64) (64 + d % 64) = 1 then s.sendMsi (npage * 4096) nid else s

/-! ### Registers and commands -/

/-- A command drops an entry that it covers. -/
def ioCovers (a b : Nat) (e : IoHeld) : Bool :=
  let av : Bool := bits a 10 10 = 1
  let page := bits b 61 10
  let guest : Option Nat := if bits a 33 33 = 1 then some (bits a 55 40) else none
  match bits a 6 0, bits a 9 7, e with
  | 1, 0, .first g n q pte level =>
    g = guest && (bits a 32 32 = 0 || (n = bits a 31 12 && bits pte 5 5 = 0))
      && (!av || page * 4096 / leafSize pte level = q * 4096 / leafSize pte level)
  | 1, 1, .second g q pte level =>
    (bits a 33 33 = 0 || some g = guest) && (!av || page * 4096 / leafSize pte level = q * 4096 / leafSize pte level)
  | 1, 1, .msi g q _ => (bits a 33 33 = 0 || some g = guest) && (!av || page = q)
  | 3, 0, .device d _ => bits a 33 33 = 0 || d = bits a 63 40
  | 3, 0, .process d _ _ => bits a 33 33 = 0 || d = bits a 63 40
  | 3, 1, .process d n _ => d = bits a 63 40 && n = bits a 31 12
  | _, _, _ => false

/-- A command that the standard defines. -/
def ioLegal (a : Nat) : Bool :=
  match bits a 6 0, bits a 9 7 with
  | 1, 0 => true
  | 1, 1 => bits a 32 32 = 0
  | 2, 0 => bits a 11 11 = 0
  | 3, 0 => true
  | 3, 1 => bits a 33 33 = 1
  | 4, 0 => true
  | 4, 1 => true
  | _, _ => false

/-- The commands from head to tail, at most `n`: invalidations drop entries, IOFENCE.C stores its data, ATS commands go to the
device. The queue stops at a command that it cannot read or does not know. -/
def ioCommands (s : State) (p : Nat) : Nat → State
  | 0 => s
  | n + 1 =>
    let u := s.iommuAt p
    if !u.cqOn || u.cqFault || u.cqIll || u.cqh = u.cqt then s
    else
      match s.ioRead p 0 0 (wbits u.cqb 53 10 * 4096 + 16 * u.cqh) 16 with
      | .trap s _ _ => (s.modIommu p fun u => { u with cqFault := true }).ioSignal p 0 u.cqIe
      | .stall s => s
      | .ok s v =>
        let a := v % 2 ^ 64
        let b := v / 2 ^ 64
        if !ioLegal a then (s.modIommu p fun u => { u with cqIll := true }).ioSignal p 0 u.cqIe
        else
          let s := s.modIommu p fun u =>
            { u with held := u.held.filter fun e => !ioCovers a b e, cqh := (u.cqh + 1) % queueSize u.cqb }
          let s := if bits a 6 0 = 4 then s.ioSend p (.command a b) else s
          let s := if bits a 6 0 = 2 && bits a 10 10 = 1 then s.hwWrite Config.numCores (b % 2 ^ 62 * 4) (toBytes (bits a 63 32) 4) else s
          s.ioCommands p n

/-- The command queue goes on. -/
def ioRun (s : State) (p : Nat) : State := s.ioCommands p (queueSize (s.iommuAt p).cqb)

/-- A base register of a queue: size and page number. -/
def queueBase (v : Word) : Word := w64 (wbits v 53 10 * 2 ^ 10 + wbits v 4 0)

/-- A write of a register of the IOMMU of port `p`, at its offset in the standard. `ddtp` takes the modes that the port has:
off, bare and a directory of three levels. -/
def ioWrite (s : State) (p off : Nat) (v : Word) : State :=
  let u := s.iommuAt p
  let b (i : Nat) : Bool := wbit v i
  match off with
  | 0x10 =>
    let mode := wbits v 3 0
    if mode = 0 || mode = 1 || mode = 4 then s.modIommu p fun u => { u with ddtp := w64 (wbits v 53 10 * 2 ^ 10 + mode) } else s
  | 0x18 => if u.cqOn then s else s.modIommu p fun u => { u with cqb := queueBase v, cqt := 0 }
  | 0x24 => (s.modIommu p fun u => { u with cqt := wbits v 31 0 % queueSize u.cqb }).ioRun p
  | 0x28 => if u.fqOn then s else s.modIommu p fun u => { u with fqb := queueBase v, fqh := 0 }
  | 0x30 => s.modIommu p fun u => { u with fqh := wbits v 31 0 % queueSize u.fqb }
  | 0x38 => if u.pqOn then s else s.modIommu p fun u => { u with pqb := queueBase v, pqh := 0 }
  | 0x40 => s.modIommu p fun u => { u with pqh := wbits v 31 0 % queueSize u.pqb }
  | 0x48 =>
    (s.modIommu p fun u =>
      { u with cqOn := b 0, cqIe := b 1, cqFault := u.cqFault && !b 8, cqIll := u.cqIll && !b 10
               cqh := if b 0 && !u.cqOn then 0 else u.cqh }).ioRun p
  | 0x4C =>
    s.modIommu p fun u =>
      { u with fqOn := b 0, fqIe := b 1, fqFault := u.fqFault && !b 8, fqOver := u.fqOver && !b 9
               fqt := if b 0 && !u.fqOn then 0 else u.fqt }
  | 0x50 =>
    s.modIommu p fun u =>
      { u with pqOn := b 0, pqIe := b 1, pqFault := u.pqFault && !b 8, pqOver := u.pqOver && !b 9
               pqt := if b 0 && !u.pqOn then 0 else u.pqt }
  | 0x54 => s.modIommu p fun u => { u with ipsr := u.ipsr &&& (15 - wbits v 3 0) }
  | 0x2F8 => s.modIommu p fun u => { u with icvec := w64 (wbits v 15 0) }
  | _ =>
    if off < 0x300 || 0x400 ≤ off then s
    else
      let n := (off - 0x300) / 16
      let f (g : IoVector → IoVector) : State := s.modIommu p fun u => { u with vectors := lmod u.vectors n g }
      match off % 16 with
      | 0 => f fun x => { x with addr := wbits v 55 2 * 4 }
      | 8 => f fun x => { x with data := wbits v 31 0 }
      | 12 =>
        let x := u.vectors.getD n {}
        let s := f fun x => { x with masked := b 0 }
        if x.masked && !b 0 && (upto 0 4).any (fun c => bits u.ipsr c c = 1 && u.vector c = n) then s.sendMsi x.addr x.data
        else s
      | _ => s

/-- A page request reaches the IOMMU, a message with code 4: the context of its device decides whether requests are taken. -/
def pageReqOp (s : State) (p dev : Nat) (pid : Option Nat) (priv exec : Bool) (payload : Word) : State :=
  let r : DevReq := { form := .message, port := p, dev, pid, priv, exec, req := { pa := 4, write := false, data := [], len := 0 } }
  match wbits (s.iommuAt p).ddtp 3 0 with
  | 0 => s.ioFault r false 256 0
  | 1 => s.ioFault r false 260 0
  | _ =>
    match s.deviceOf p dev with
    | .trap s c v => s.ioFault r false c v
    | .stall s => s
    | .ok s w =>
      if bits (w.getD 0 0) 2 2 = 0 then s.ioFault r (bits (w.getD 0 0) 4 4 = 1) 260 0
      else s.pageReqPut p dev pid priv exec payload

/-! ### Requests -/

/-- A request whose translation faults: the fault is recorded, and the device gets Unsupported Request (R422). -/
def ioRefuse (s : State) (r : DevReq) (dtf : Bool) (c : Nat) (v : Word) : State :=
  (s.ioFault r dtf c v).ioSend r.port (.unsupported r.dev)

/-- A request waits, after those of its port that do. -/
def ioWait (s : State) (r : DevReq) (pa : Option Nat) : State := s.modIommu r.port fun u => { u with waiting := u.waiting ++ [(r, pa)] }

/-- The bytes of a request at their address are read or written, coherently. No device passes the MMIO protection, and nothing answers
outside memory: the request is completed as unsupported (R422). -/
def ioPerform (s : State) (r : DevReq) (pa : Nat) : State :=
  let here : List Piece := [{ addr := pa, len := r.len }]
  if s.memAt pa = .fault then s.ioSend r.port (.unsupported r.dev)
  else if s.engHeld here then s.ioWait r (some pa)
  else if r.req.write then
    (s.engWrite 0 here (r.req.data.map fun b => (b, false)) (dmaCache r.port)).ioSend r.port (.done r.dev [])
  else
    let (s, d) := s.engRead here (dmaCache r.port)
    s.ioSend r.port (.done r.dev d)

/-- The causes that a translation request meets as a translation that allows nothing. -/
def atsEmpty (c : Nat) : Bool := [12, 13, 15, 20, 21, 23, 262, 266].contains c

/-- A translation request (ATS): the address, with what the tables allow of it (R30, log 28). -/
def ioAts (s : State) (r : DevReq) : State :=
  let ask (s : State) (write exec : Bool) : Bool × Res IoDest := s.ioTranslate { r with exec, req := { r.req with write } }
  let may (s : State) (write exec : Bool) : State × Bool :=
    match (ask s write exec).2 with
    | .ok s _ => (s, true)
    | .trap _ _ _ => (s, false)
    | .stall _ => (s, false)
  match ask s false false with
  | (_, .stall _) => s.ioWait r none
  | (dtf, .trap s c v) =>
    if atsEmpty c then s.ioSend r.port (.translated r.dev 0 false false false false)
    else if [256, 258, 260].contains c then s.ioRefuse r dtf c v
    else (s.ioFault r dtf c v).ioSend r.port (.abort r.dev)
  | (_, .ok s (.file _ _ _)) => s.ioSend r.port (.translated r.dev 0 true true false true)
  | (_, .ok s (.bytes pa)) =>
    let (s, w) := may s true false
    let (s, x) := if r.pid.isSome then may s false true else (s, false)
    s.ioSend r.port (.translated r.dev pa true w x false)

/-- A request of a device. Where its address is one of the devices behind the other port, as their windows say, it goes there
(R30, log 28). -/
def ioRequest (s : State) (r : DevReq) : State :=
  if r.form = .translation then s.ioAts r
  else
    match s.ioTranslate r with
    | (_, .stall _) => s.ioWait r none
    | (dtf, .trap s c v) => s.ioRefuse r dtf c v
    | (dtf, .ok t (.file addr nid npage)) =>
      if t.memAt addr = .waits || t.engHeld [{ addr, len := 512 }] then s.ioWait r none else t.msiFile r dtf addr nid npage
    | (_, .ok t (.bytes pa)) =>
      let w := (t.iommuAt (1 - r.port)).window
      if w.1 ≤ pa && pa + r.len ≤ w.1 + w.2 && region pa = .none && t.ready (43 - r.port) then
        t.ioSend (1 - r.port) (.peer r.dev pa r.req)
      else t.ioPerform r pa

/-- Requests of the devices of a port that wait are tried again, in order. -/
def ioRetry (s : State) (p : Nat) : State :=
  (s.iommuAt p).waiting.foldl (fun s w => match w.2 with | some pa => s.ioPerform w.1 pa | none => s.ioRequest w.1)
    (s.modIommu p fun u => { u with waiting := [] })

/-- A configuration read of `n` bytes at a port: what its device answers, all ones while there is none (R424). -/
def ioConfig (s : State) (p n : Nat) (answer : List Byte) : State :=
  let d := (upto 0 n).map fun i => if s.ready (42 + p) then answer.getD i 0xFF else 0xFF
  s.modIommu p fun u => { u with config := u.config ++ [d] }

/-- The same at both ports. -/
def ioFlush (s : State) : State := if s.iommus.all (·.waiting.isEmpty) then s else (s.ioRetry 0).ioRetry 1

end State

/-- DMA_REQUEST: a device behind a trained PCIe port reads or writes within a page, or asks for a translation (R30). One whose bytes or
tables must wait is performed later; at a port that is not trained there is no device. -/
def execDmaRequest (r : DevReq) (s : State) : Out :=
  .next (if r.len = 0 || 4096 < r.req.pa % 4096 + r.len || 2 ≤ r.port || r.form = .message || !s.ready (42 + r.port) then s
    else s.ioRequest r)

end Sys2Proof.Machine
end

