-- ==== Sys2Proof/VSyntax.lean ====
section
/-! DEFINITION. The instructions of V 1.0, Zvbb and Zvfhmin, parts that Table 2.1 gives to L-cores alone and that have no row
in the opcode table (02_encoding.md R25, log 20). -/

namespace Sys2Proof

/-- What stands in the place of vs1. -/
inductive VSrc
  | v (r : Reg)
  | x (r : Reg)
  | f (r : Reg)
  /-- A sign-extended immediate. -/
  | imm (i : BitVec 5)
  /-- An unsigned immediate: a shift amount, an index, an offset. -/
  | uimm (i : BitVec 6)
  deriving DecidableEq, Repr

/-- Integer operations on elements of one width. -/
inductive VBin
  | add | sub | rsub | minu | min | maxu | max | and | or | xor | andn | sll | srl | sra | rol | ror
  | saddu | sadd | ssubu | ssub | smul | ssrl | ssra | aaddu | aadd | asubu | asub
  | mul | mulh | mulhu | mulhsu | divu | div | remu | rem
  deriving DecidableEq, Repr

/-- Integer comparisons. -/
inductive VCmp | eq | ne | ltu | lt | leu | le | gtu | gt
  deriving DecidableEq, Repr

/-- Multiply-accumulate: vd = ±(vs1 · vs2) + vd, or ±(vs1 · vd) + vs2. -/
inductive VMac | macc | nmsac | madd | nmsub
  deriving DecidableEq, Repr

/-- Widening operations. -/
inductive VWide | addu | add | subu | sub | mulu | mulsu | mul | sll
  deriving DecidableEq, Repr

/-- Signedness of vs1 and vs2 of a widening multiply-accumulate. -/
inductive VWMac | uu | ss | us | su
  deriving DecidableEq, Repr

/-- Narrowing operations. -/
inductive VNarrow | srl | sra | clipu | clip
  deriving DecidableEq, Repr

/-- Integer reductions. -/
inductive VRed | sum | and | or | xor | minu | min | maxu | max
  deriving DecidableEq, Repr

/-- Operations on one integer operand. -/
inductive VUn | brev8 | rev8 | brev | clz | ctz | cpop
  deriving DecidableEq, Repr

/-- Mask operations. -/
inductive VMask | andn | and | or | xor | orn | nand | nor | xnor
  deriving DecidableEq, Repr

/-- Set-before, set-including and set-only first. -/
inductive VFirst | sbf | sif | sof
  deriving DecidableEq, Repr

/-- Floating-point operations on elements of one width. -/
inductive VFBin | add | sub | rsub | mul | div | rdiv | min | max | sgnj | sgnjn | sgnjx
  deriving DecidableEq, Repr

/-- Floating-point comparisons. -/
inductive VFCmp | eq | ne | lt | le | gt | ge
  deriving DecidableEq, Repr

/-- Signs of the product and of the addend. -/
inductive VFSign | pp | nn | pn | np
  deriving DecidableEq, Repr

/-- Widening floating-point operations. -/
inductive VFWide | add | sub | mul
  deriving DecidableEq, Repr

/-- Floating-point reductions. -/
inductive VFRed | usum | osum | min | max
  deriving DecidableEq, Repr

/-- Floating-point operations on one operand. -/
inductive VFUn | sqrt | rsqrt7 | rec7 | cls
  deriving DecidableEq, Repr

/-- Conversions: to an integer, signed or not and possibly truncating; from an integer; between formats, possibly to odd. -/
inductive VFCvt
  | toInt (sg rtz : Bool)
  | ofInt (sg : Bool)
  | ff (rod : Bool)
  deriving DecidableEq, Repr

/-- Width of a conversion's result against SEW. -/
inductive VStep | same | widen | narrow
  deriving DecidableEq, Repr

/-- How a vector access addresses memory. -/
inductive VAddr
  | unit
  /-- Fault only first. -/
  | first
  | strided (b : Reg)
  | indexed (ordered : Bool) (v : Reg)
  /-- A mask: `vlm`, `vsm`. -/
  | mask
  /-- Whole registers. -/
  | whole
  deriving DecidableEq, Repr

/-- Where the new `vtype` comes from. -/
inductive VCfg
  | vsetvli (rd a : Reg) (t : BitVec 11)
  | vsetivli (rd : Reg) (n : BitVec 5) (t : BitVec 10)
  | vsetvl (rd a b : Reg)
  deriving DecidableEq, Repr

/-- A vector instruction; `vm` false is masked by v0. -/
inductive VInst
  | cfg (c : VCfg)
  | mem (load : Bool) (m : VAddr) (eew nf : Nat) (vm : Bool) (vd a : Reg)
  | bin (o : VBin) (vm : Bool) (vd vs2 : Reg) (s : VSrc)
  /-- `vadc`, `vsbc`. -/
  | carry (sub : Bool) (vd vs2 : Reg) (s : VSrc)
  /-- `vmadc`, `vmsbc`. -/
  | carryOut (sub vm : Bool) (vd vs2 : Reg) (s : VSrc)
  /-- `vmerge`, `vfmerge`; with `vm`, `vmv.v` and `vfmv.v`. -/
  | merge (vm : Bool) (vd vs2 : Reg) (s : VSrc)
  | cmp (o : VCmp) (vm : Bool) (vd vs2 : Reg) (s : VSrc)
  | mac (o : VMac) (vm : Bool) (vd vs2 : Reg) (s : VSrc)
  /-- `w`: vs2 is wide already. -/
  | wide (o : VWide) (w vm : Bool) (vd vs2 : Reg) (s : VSrc)
  | wmac (o : VWMac) (vm : Bool) (vd vs2 : Reg) (s : VSrc)
  | narrow (o : VNarrow) (vm : Bool) (vd vs2 : Reg) (s : VSrc)
  | red (o : VRed) (vm : Bool) (vd vs2 vs1 : Reg)
  | wred (sg vm : Bool) (vd vs2 vs1 : Reg)
  /-- Extension of elements `frac` times narrower. -/
  | ext (sg : Bool) (frac : Nat) (vm : Bool) (vd vs2 : Reg)
  | un (o : VUn) (vm : Bool) (vd vs2 : Reg)
  | mask (o : VMask) (vd vs2 vs1 : Reg)
  | vcpop (vm : Bool) (rd vs2 : Reg)
  | vfirst (vm : Bool) (rd vs2 : Reg)
  | firstMask (o : VFirst) (vm : Bool) (vd vs2 : Reg)
  | iota (vm : Bool) (vd vs2 : Reg)
  | vid (vm : Bool) (vd : Reg)
  | gather (e16 vm : Bool) (vd vs2 : Reg) (s : VSrc)
  | slide (up vm : Bool) (vd vs2 : Reg) (s : VSrc)
  /-- `vslide1up`, `vslide1down` and their `f` forms. -/
  | slide1 (up vm : Bool) (vd vs2 : Reg) (s : VSrc)
  | compress (vd vs2 vs1 : Reg)
  /-- `vmv.x.s`, `vmv.s.x`, `vfmv.f.s`, `vfmv.s.f`. -/
  | mvXS (rd vs2 : Reg)
  | mvSX (vd a : Reg)
  | mvFS (rd vs2 : Reg)
  | mvSF (vd a : Reg)
  /-- Whole registers. -/
  | mvR (n : Nat) (vd vs2 : Reg)
  | fbin (o : VFBin) (vm : Bool) (vd vs2 : Reg) (s : VSrc)
  | fcmp (o : VFCmp) (vm : Bool) (vd vs2 : Reg) (s : VSrc)
  /-- `acc`: vs1 · vs2 and vd; otherwise vs1 · vd and vs2. -/
  | fmac (g : VFSign) (acc vm : Bool) (vd vs2 : Reg) (s : VSrc)
  | fwide (o : VFWide) (w vm : Bool) (vd vs2 : Reg) (s : VSrc)
  | fwmac (g : VFSign) (vm : Bool) (vd vs2 : Reg) (s : VSrc)
  | fred (o : VFRed) (vm : Bool) (vd vs2 vs1 : Reg)
  | fwred (ordered vm : Bool) (vd vs2 vs1 : Reg)
  | fun1 (o : VFUn) (vm : Bool) (vd vs2 : Reg)
  | fcvt (o : VFCvt) (w : VStep) (vm : Bool) (vd vs2 : Reg)
  deriving DecidableEq, Repr

end Sys2Proof
end

