-- ==== Sys2Proof/WellFormed.lean ====
section
/-! DEFINITION. Well-formed instructions: the operand limits that make an encoding defined (R43), and, for the
hardware's own steps, the unit numbers of Table 1.2. -/

namespace Sys2Proof

/-- The pairs of formats that R241 allows for a converting copy. -/
def convPair : CFmt → CFmt → Bool
  | .elt _, .elt _ => false
  | .elt _, _ => true
  | _, .elt _ => true
  | .bf16, .f32 => true
  | .f32, .bf16 => true
  | .bf16, .bf16 => false
  | .f32, .f32 => false

/-- The pair `bf16`, `f32` in either order has no element codes, so no scale (R242). -/
def scalePair (a b : CFmt) : Bool :=
  convPair a b && !(a = .bf16 && b = .f32) && !(a = .f32 && b = .bf16)

/-- Copy forms that R241 and R242 leave defined. -/
def CopyForm.wf : CopyForm → Bool
  | .plain => true
  | .conv a b g => convPair a b && (scalePair a b || g = 0)
  | .mx a b _ => scalePair a b

/-- Gather and scatter forms that R241 and R242 leave defined. -/
def RowForm.wf : RowForm → Bool
  | .plain => true
  | .conv a b g => convPair a b && (scalePair a b || g = 0)

/-- Shapes of Table 10.1. -/
def MxArgs.wf (x : MxArgs) : Bool :=
  (x.m != .d128) && !(x.fmt = .f64 && x.n = .d128)

/-- Shift amounts that the immediate forms of the standard admit on RV64. -/
def AluImm.wf (op : AluImm) (imm : BitVec 12) : Bool :=
  match op with
  | .slli | .srli | .srai | .slliUw | .rori | .bclri | .bexti | .binvi | .bseti => imm < 64
  | .slliw | .srliw | .sraiw | .roriw => imm < 32
  | .addi | .slti | .sltiu | .xori | .ori | .andi | .addiw => true

/-- Rounding-mode fields that name a mode (5 and 6 are reserved by the F extension). -/
def rmOk (rm : BitVec 3) : Bool := rm != 5 && rm != 6

/-- Floating-point forms with a legal rounding-mode field. -/
def FpForm.wf : FpForm → Bool
  | .bin _ _ rm _ _ _ => rmOk rm
  | .sqrt _ rm _ _ => rmOk rm
  | .fma _ _ rm _ _ _ _ => rmOk rm
  | .sgnj _ _ _ _ _ => true
  | .minmax _ _ _ _ _ => true
  | .cmp _ _ _ _ _ => true
  | .cls _ _ _ => true
  | .toInt _ _ rm _ _ => rmOk rm
  | .ofInt _ _ rm _ _ => rmOk rm
  | .cvt _ rm _ _ => rmOk rm
  | .mv _ _ _ => true

/-- Integer forms with a legal immediate. -/
def AluForm.wf : AluForm → Bool
  | .ri op _ _ imm => op.wf imm
  | .rr _ _ _ _ => true
  | .un _ _ _ => true
  | .lui _ _ => true
  | .auipc _ _ => true
  | .mopr _ _ _ => true
  | .moprr _ _ _ _ => true
  | .cmop _ => true

/-- Branch and jump offsets are even (IALIGN is 16, R31). -/
def BranchForm.wf : BranchForm → Bool
  | .br _ _ _ off => off.extractLsb' 0 1 = 0
  | .jal _ off => off.extractLsb' 0 1 = 0
  | .jalr _ _ _ => true

/-- An even register number. -/
def evenReg (r : Reg) : Bool := r.extractLsb' 0 1 = 0

/-- Well-formed: defined as an instruction of a W-core (R43), or a step that names an existing unit (R10); of
bring-up, function f, or f + 64 for its failure (R423). -/
def Instr.wf : Instr → Bool
  | .amoCas _ _ _ _ rd _ => evenReg rd
  | .amoDraw _ _ _ rd _ => evenReg rd && rd != 0
  | .red op _ _ _ _ => op != .swap
  | .copyGs f _ _ _ _ => f.wf
  | .copySg f _ _ _ _ => f.wf
  | .copyGg f _ _ _ _ => f.wf
  | .copySs f _ _ _ _ => f.wf
  | .copyGath f _ _ _ _ _ _ => f.wf
  | .copyScat f _ _ _ _ _ _ => f.wf
  | .mxMma x => x.wf
  | .mxGmma x => x.wf
  | .mxPmma x => x.wf
  | .standardAlu f => f.wf
  | .standardFp f => f.wf
  | .branchJump f => f.wf
  | .amocas cw _ _ rd _ b => cw != .q || (evenReg rd && evenReg b)
  | .contextLineFetch _ l => l < 16
  | .homeNoticePost d => d < 4
  | .recallWrite d _ => d < 4
  | .killWrite d _ => d < 4
  | .framefreeWrite d _ => d < 4
  | .issueCycle c q => c < Config.numCores && q < 4
  | .loadDataReturn _ r => r < 64
  | .barrierPhaseRelease _ n => n ≤ 16
  | .atomicPerform c _ => c < Config.numCores
  | .rbAgeMerge c _ => c < Config.numCores
  | .lrHoldEnd c _ => c < Config.numCores
  | .peerLeave p => p < 256
  | .linkPortLost p => p < 12
  | .snoopFilterRecall p => p < 12
  | .forwardEntryPost d => d < 4
  | .fwdrsmWrite d _ => d < 4
  | .ivgoWrite j _ => j < 32
  | .pageWalkComplete _ _ acc => acc != .hlvx
  | .copyBegin c => c < Config.numCores
  | .pmmaPairTimeout _ n => n < 16
  | .engineEntryStart c => c < Config.numCores
  | .matrixWritesLand c => c < Config.numCores
  | .epilogueEntry c => c < Config.numCores
  | .frecbaseWrite c _ => c < Config.numCores
  | .passcntWrite c _ => c < Config.numCores
  | .clsreqWrite c _ => c < Config.numCores
  | .reclassSavesDone p => p < Config.numPods
  | .reclassClockSettled p => p < Config.numPods
  | .withdrawalStart p => p < Config.numPods
  | .boostRecompute p => p < Config.numPods
  | .zoneEnterLowFlow z _ => z < Config.numZones
  | .zoneLeaveLowFlow z _ => z < Config.numZones
  | .zoneEnterHot z _ => z < Config.numZones
  | .zoneLeaveHot z _ => z < Config.numZones
  | .zoneEnterEvacuating z _ _ => z < Config.numZones
  | .zoneEnterTripped z _ => z < Config.numZones
  | .evacuationSavesDone z => z < Config.numZones
  | .zoneTripExit z _ => z < Config.numZones
  | .purgeStart z => z < Config.numZones
  | .purgeValveOpen z => z < Config.numZones
  | .purgeEnd z _ => z < Config.numZones
  | .zctlRetryWrite z _ => z < Config.numZones
  | .dbgStop d => d < 4
  | .dbgStopCrew d => d < 4
  | .dbgResume d => d < 4
  | .dbgResumeCrew d => d < 4
  | .dbgStep d => d < 4
  | .dbgAttach d => d < 4
  | .dbgDetach d => d < 4
  | .dbgUnassigned d c => d < 4 && (c = 0 || 8 ≤ c.toNat)
  | .dbgdataRead d => d < 4
  | .dbgdataWrite d _ => d < 4
  | .dbghaltWrite d _ => d < 4
  | .replicaUpdate d _ => d < 4
  | .ueWriteback _ => true
  | .memoryReady f => f < 128 && 6 ≤ f % 64 && f % 64 < 30
  | .lCoreStart i => i < Config.numLCores
  | .bootWDieMicrocode d => d < 4 || (64 ≤ d && d < 68)
  | .portTrained f => f < 128 && 30 ≤ f % 64 && f % 64 < 44
  | .mgmtEvidenceRequest nonce => nonce.length = 32
  | .mgmtRaiseMinVersion k _ => k != 0
  | .peerPresent p => p < 256
  | _ => true

end Sys2Proof
end

