-- ==== Sys2Proof/Decode.lean ====
section
/-! DEFINITION. Decoding (02_encoding.md): total on any parcels, each encoding either an instruction of a W-core, a
part that Table 2.1 gives to L-cores only, or illegal (R43); and after it the encoder. -/

namespace Sys2Proof

/-! ### Instruction length -/

/-- Length in bytes from the first parcel (Table 2.3); 0 stands for 80 bits or more. -/
def parcelLen (p : BitVec 16) : Nat :=
  if p.extractLsb' 0 2 ≠ 3 then 2
  else if p.extractLsb' 2 3 ≠ 7 then 4
  else if p.extractLsb' 5 1 = 0 then 6
  else if p.extractLsb' 6 1 = 0 then 8
  else 0

/-- Operations of a cache-block instruction (Zicbom, Zicboz). -/
inductive CboOp | inval | clean | flush | zero
  deriving DecidableEq, Repr

/-- Fences of the H and Svinval extensions that order and invalidate guest translations. -/
inductive GuestFence
  /-- `hfence.vvma`, `hinval.vvma`. -/
  | vvma
  /-- `hfence.gvma`, `hinval.gvma`. -/
  | gvma
  /-- `sfence.w.inval`, `sfence.inval.ir`. -/
  | order
  deriving DecidableEq, Repr

/-- Parts of Table 2.1 that L-cores alone implement. -/
inductive LPart
  /-- A compressed form of Zcb that stands for this instruction. -/
  | same (i : Instr)
  /-- A cache-block instruction. -/
  | cbo (op : CboOp) (a : Reg)
  /-- A fence of guest translations. -/
  | guestFence (f : GuestFence)
  /-- `hlv` of some bytes, signed or not, and `hlvx`. -/
  | hlv (n : Nat) (sg x : Bool) (rd a : Reg)
  /-- `hsv` of some bytes. -/
  | hsv (n : Nat) (a b : Reg)
  /-- `fli` (Zfa). -/
  | fli (p : FPrec) (rd i : Reg)
  /-- `fminm`, `fmaxm`. -/
  | minmaxm (isMax : Bool) (p : FPrec) (rd a b : Reg)
  /-- `fround`, `froundnx`. -/
  | roundInt (nx : Bool) (p : FPrec) (rm : BitVec 3) (rd a : Reg)
  /-- `fleq`, `fltq`. -/
  | cmpq (lt : Bool) (p : FPrec) (rd a b : Reg)
  /-- `fcvtmod.w.d`. -/
  | cvtmod (rd a : Reg)
  /-- An instruction of V. -/
  | vector (v : VInst)
  deriving DecidableEq, Repr

/-- What the bits stand for. -/
inductive Decoded
  | ok (i : Instr)
  | lcore (x : LPart)
  /-- `mret`: M-mode only (R25). -/
  | mret
  | illegal
  deriving DecidableEq, Repr

/-! ### 32-bit words -/

/-- The fields of the R layout (Table 2.4). -/
structure RWord where
  f7 : BitVec 7
  b : Reg
  a : Reg
  f3 : BitVec 3
  d : Reg
  op : BitVec 7
  deriving DecidableEq, Repr

/-- The word with these fields. -/
def RWord.pack (r : RWord) : BitVec 32 := r.f7 ++ r.b ++ r.a ++ r.f3 ++ r.d ++ r.op

/-- The fields of a word. -/
def RWord.split (w : BitVec 32) : RWord :=
  { f7 := w.extractLsb' 25 7, b := w.extractLsb' 20 5, a := w.extractLsb' 15 5, f3 := w.extractLsb' 12 3,
    d := w.extractLsb' 7 5, op := w.extractLsb' 0 7 }

/-- [31:20], the immediate of the standard I layout. -/
def RWord.imm (r : RWord) : BitVec 12 := r.f7 ++ r.b

/-- subop, [31:29] (R33). -/
def RWord.subop (r : RWord) : BitVec 3 := r.f7.extractLsb' 4 3

/-- imm9 of the I layout. -/
def RWord.imm9 (r : RWord) : BitVec 9 := r.f7.extractLsb' 0 4 ++ r.b

/-- imm9 of the S layout. -/
def RWord.imm9s (r : RWord) : BitVec 9 := r.f7.extractLsb' 0 4 ++ r.d

/-- Load widths (Table 2.6). -/
def lwidthOf (c : BitVec 3) : Option LWidth :=
  match c with
  | 0 => some .i8 | 1 => some .i16 | 2 => some .i32 | 3 => some .i64
  | 4 => some .n8 | 5 => some .n16 | 6 => some .n32 | 7 => none

/-- Code of a load width. -/
def lwidthCode : LWidth → BitVec 3
  | .i8 => 0 | .i16 => 1 | .i32 => 2 | .i64 => 3 | .n8 => 4 | .n16 => 5 | .n32 => 6

/-- Store widths (Table 2.6). -/
def swidthOf (c : BitVec 3) : Option SWidth :=
  match c with
  | 0 => some .i8 | 1 => some .i16 | 2 => some .i32 | 3 => some .i64 | 4 => none | 5 => none | 6 => none | 7 => none

/-- Code of a store width. -/
def swidthCode : SWidth → BitVec 3
  | .i8 => 0 | .i16 => 1 | .i32 => 2 | .i64 => 3

/-- Scope codes (R219). -/
def scopeOf (c : BitVec 3) : Option Scope :=
  match c with
  | 0 => some .cw | 1 => some .pd | 2 => some .di | 3 => some .pk | 4 => some .sy | 5 => none | 6 => none | 7 => none

/-- Code of a scope. -/
def scopeCode : Scope → BitVec 3
  | .cw => 0 | .pd => 1 | .di => 2 | .pk => 3 | .sy => 4

/-- Type codes (R219). -/
def ityOf (c : BitVec 2) : ITy :=
  match c with
  | 0 => .i32 | 1 => .i64 | 2 => .n32 | 3 => .n64

/-- Code of a type. -/
def ityCode : ITy → BitVec 2
  | .i32 => 0 | .i64 => 1 | .n32 => 2 | .n64 => 3

/-- Operators of Table 8.3. -/
def aopOf (c : Reg) : Option AOp :=
  if c = 0 then some .swap else if c = 1 then some .add else if c = 2 then some .and else if c = 3 then some .or
  else if c = 4 then some .xor else if c = 5 then some .min else if c = 6 then some .max else none

/-- Code of an operator. -/
def aopCode : AOp → Reg
  | .swap => 0 | .add => 1 | .and => 2 | .or => 3 | .xor => 4 | .min => 5 | .max => 6

/-- Element formats fff (Table 6.5). -/
def eltOf (c : BitVec 3) : Option Elt :=
  match c with
  | 0 => some .e4m3 | 1 => some .e5m2 | 2 => some .e3m2 | 3 => some .e2m3 | 4 => some .e2m1 | 5 => some .i8
  | 6 => some .i4 | 7 => none

/-- Code of an element format. -/
def eltCode : Elt → BitVec 3
  | .e4m3 => 0 | .e5m2 => 1 | .e3m2 => 2 | .e2m3 => 3 | .e2m1 => 4 | .i8 => 5 | .i4 => 6

/-- Operators o of Table 5.2. -/
def gopOf (c : BitVec 3) : GOp :=
  match c with
  | 0 => .add | 1 => .and | 2 => .or | 3 => .xor | 4 => .minI | 5 => .maxI | 6 => .minN | 7 => .maxN

/-- Code of an operator o. -/
def gopCode : GOp → BitVec 3
  | .add => 0 | .and => 1 | .or => 2 | .xor => 3 | .minI => 4 | .maxI => 5 | .minN => 6 | .maxN => 7

/-- Saturating types in the order of Table 6.4. -/
def styOf (c : BitVec 2) : STy :=
  match c with
  | 0 => .i64 | 1 => .n64 | 2 => .i32 | 3 => .n32

/-- Code of a saturating type. -/
def styCode : STy → BitVec 2
  | .i64 => 0 | .n64 => 1 | .i32 => 2 | .n32 => 3

/-- Dot forms in the order of Table 6.4. -/
def dotOf (c : BitVec 2) : DotForm :=
  match c with
  | 0 => .i8 | 1 => .n8 | 2 => .su | 3 => .i4

/-- Code of a dot form. -/
def dotCode : DotForm → BitVec 2
  | .i8 => 0 | .n8 => 1 | .su => 2 | .i4 => 3

/-- An instruction, or illegal where an operand code is unassigned. -/
def Decoded.opt : Option Instr → Decoded
  | some i => .ok i
  | none => .illegal

/-- `i` where the reserved fields are zero (R34). -/
def Decoded.guard (c : Bool) (i : Instr) : Decoded := if c then .ok i else .illegal

/-- custom-0: migration, fork, strand, convergence, system (Table 2.5). -/
def decCustom0 (r : RWord) : Decoded :=
  if r.f3 = 0 then
    if r.f7 = 0x00 then .guard (r.b = 0) (.mgGo r.d r.a)
    else if r.f7 = 0x01 then .guard (r.b = 0 && r.a = 0 && r.d = 0) .mgHome
    else if r.f7 = 0x10 then .ok (.fkFlt r.d r.a r.b)
    else if r.f7 = 0x11 then .guard (r.b = 0) (.fkJoin r.d r.a)
    else if r.f7 = 0x12 then .guard (r.b = 0) (.fkJoinTry r.d r.a)
    else if r.f7 = 0x14 then .guard (r.b = 0) (.fkStop r.d r.a)
    else if r.f7 = 0x15 then .guard (r.b = 0) (.fkStopPre r.d r.a)
    else if r.f7 = 0x16 then .guard (r.b = 0) (.fkStopRsm r.d r.a)
    else if r.f7 = 0x18 then .ok (.fkQry r.d r.a r.b)
    else if r.f7 = 0x20 then .ok (.thParkMem r.d r.a r.b)
    else if r.f7 = 0x21 then .guard (r.b = 0) (.thParkBat r.d r.a)
    else if r.f7 = 0x22 then .guard (r.b = 0) (.thParkTm r.d r.a)
    else if r.f7 = 0x28 then .guard (r.b = 0 && r.a = 0 && r.d = 0) .thYield
    else .illegal
  else if r.f3 = 1 then .guard (r.subop = 0 && r.a = 0 && r.d = 0) (.thPause r.imm9)
  else if r.f3 = 2 then
    if r.b.extractLsb' 4 1 ≠ 0 then .illegal
    else
      let n := r.b.extractLsb' 0 4
      if r.f7 = 0x00 then .guard (r.a = 0) (.cvJoin r.d n)
      else if r.f7 = 0x01 then .guard (r.a = 0) (.cvJoinCrew r.d n)
      else if r.f7 = 0x02 then .guard (r.a = 0) (.cvQuit r.d n)
      else if r.f7 = 0x10 then .guard (r.a = 0) (.cvBar r.d n)
      else if r.f7 = 0x11 then .guard (r.a = 0) (.cvBarRx r.d n)
      else if r.f7 = 0x12 then .guard (r.a = 0) (.cvArv r.d n)
      else if r.f7 = 0x13 then .guard (r.a = 0) (.cvArvRx r.d n)
      else if r.f7 = 0x14 then .ok (.cvWt r.d r.a n)
      else if r.f7 = 0x15 then .ok (.cvWtTry r.d r.a n)
      else if r.f7 = 0x20 then .ok (.cvQry r.d r.a n)
      else .illegal
  else if r.f3 = 3 then
    if r.f7 = 0x00 then .guard (r.b = 0 && r.a = 0) (.syPark r.d)
    else if r.f7 = 0x01 then .guard (r.b = 0 && r.a = 0) (.syEnd r.d)
    else if r.f7 = 0x02 then .guard (r.b = 0 && r.a = 0) (.syDbg r.d)
    else if r.f7 = 0x03 then .ok (.syRec r.d r.a r.b)
    else if r.f7 = 0x08 then .ok (.syTlbsd r.d r.a r.b)
    else .illegal
  else .illegal

/-- Integer lane-group subops (Table 5.2). -/
def decGroupInt (r : RWord) (n : BitVec 4) : Decoded :=
  let o := gopOf (r.b.extractLsb' 0 3)
  let k := r.b.extractLsb' 3 2
  if k = 1 then .ok (.gpRed o r.d r.a n)
  else if k = 2 then .ok (.gpScan o r.d r.a n)
  else if k = 3 then .ok (.gpXscan o r.d r.a n)
  else if r.b = 0 then .ok (.gpAll r.d r.a n)
  else if r.b = 1 then .ok (.gpAny r.d r.a n)
  else if r.b = 2 then .ok (.gpUni r.d r.a n)
  else if r.b = 3 then .ok (.gpBlt r.d r.a n)
  else if r.b = 4 then .ok (.gpPcnt r.d r.a n)
  else if r.b = 5 then .ok (.gpMtchLdr r.d r.a n)
  else if r.b = 6 then .ok (.gpMtchCnt r.d r.a n)
  else .illegal

/-- Floating-point lane-group subops (Table 5.3). -/
def decGroupFp (r : RWord) (n : BitVec 4) : Decoded :=
  let p : FPrec := if r.b.extractLsb' 0 1 = 0 then .s else .d
  let k := r.b.extractLsb' 1 4
  if k = 0 then .ok (.gpRedAddF p r.d r.a n)
  else if k = 1 then .ok (.gpRedMinF p r.d r.a n)
  else if k = 2 then .ok (.gpRedMaxF p r.d r.a n)
  else if k = 4 then .ok (.gpScanAddF p r.d r.a n)
  else if k = 6 then .ok (.gpXscanAddF p r.d r.a n)
  else .illegal

/-- Floating-point and conversion forms (Table 6.5). -/
def decFxFloat (r : RWord) : Decoded :=
  let one (i : Instr) : Decoded := .guard (r.b = 0) i
  if r.f7.extractLsb' 3 4 = 4 then .opt ((eltOf (r.f7.extractLsb' 0 3)).map (.fxXp · r.d r.a r.b))
  else if r.f7.extractLsb' 3 4 = 5 then .opt ((eltOf (r.f7.extractLsb' 0 3)).map (.fxNr · r.d r.a r.b))
  else if r.f7 = 0x00 then one (.fxCvtBf16F64 r.d r.a)
  else if r.f7 = 0x01 then one (.fxCvtF64Bf16 r.d r.a)
  else if r.f7 = 0x02 then one (.fxCvtBf16F16 r.d r.a)
  else if r.f7 = 0x03 then one (.fxCvtF16Bf16 r.d r.a)
  else if r.f7 = 0x10 then .ok (.fxPkBf16 r.d r.a r.b)
  else if r.f7 = 0x11 then one (.fxUpkLo r.d r.a)
  else if r.f7 = 0x12 then one (.fxUpkHi r.d r.a)
  else if r.f7 = 0x14 then .ok (.fxPaddBf16 r.d r.a r.b)
  else if r.f7 = 0x15 then .ok (.fxPsubBf16 r.d r.a r.b)
  else if r.f7 = 0x16 then .ok (.fxPmulBf16 r.d r.a r.b)
  else if r.f7 = 0x17 then .ok (.fxPfmaBf16 r.d r.a r.b)
  else if r.f7 = 0x18 then .ok (.fxPdotF32Bf16 r.d r.a r.b)
  else if r.f7 = 0x30 then .ok (.fxSclF32 r.d r.a r.b)
  else if r.f7 = 0x31 then .ok (.fxSclF64 r.d r.a r.b)
  else if r.f7 = 0x32 then one (.fxXpnF32 r.d r.a)
  else if r.f7 = 0x33 then one (.fxXpnF64 r.d r.a)
  else if r.f7 = 0x40 then one (.fxExp2F32 r.d r.a)
  else if r.f7 = 0x41 then one (.fxLog2F32 r.d r.a)
  else if r.f7 = 0x42 then one (.fxRcpF32 r.d r.a)
  else if r.f7 = 0x43 then one (.fxRsqrtF32 r.d r.a)
  else if r.f7 = 0x44 then one (.fxSinpiF32 r.d r.a)
  else if r.f7 = 0x45 then one (.fxCospiF32 r.d r.a)
  else if r.f7 = 0x46 then one (.fxTanhF32 r.d r.a)
  else if r.f7 = 0x47 then one (.fxSigmF32 r.d r.a)
  else .illegal

/-- custom-1: lane groups and arithmetic (Table 2.5). -/
def decCustom1 (r : RWord) : Decoded :=
  if r.f3 = 0 then
    let n := r.f7.extractLsb' 0 4
    if r.subop = 0 then .ok (.gpShflIdx r.d r.a r.b n)
    else if r.subop = 1 then .ok (.gpShflXor r.d r.a r.b n)
    else if r.subop = 2 then .ok (.gpShflUp r.d r.a r.b n)
    else if r.subop = 3 then .ok (.gpShflDn r.d r.a r.b n)
    else if r.subop = 4 then .ok (.gpBcst r.d r.a r.b n)
    else if r.subop = 6 then decGroupInt r n
    else if r.subop = 7 then decGroupFp r n
    else .illegal
  else if r.f3 = 1 then
    if r.f7.extractLsb' 2 5 = 0 then .ok (.fxAdds (styOf (r.f7.extractLsb' 0 2)) r.d r.a r.b)
    else if r.f7.extractLsb' 2 5 = 1 then .ok (.fxSubs (styOf (r.f7.extractLsb' 0 2)) r.d r.a r.b)
    else if r.f7.extractLsb' 2 5 = 4 then .ok (.fxDot (dotOf (r.f7.extractLsb' 0 2)) r.d r.a r.b)
    else .illegal
  else if r.f3 = 2 then decFxFloat r
  else if r.f3 = 3 then
    let sh := r.imm9.extractLsb' 0 6
    let z : Bool := r.imm9.extractLsb' 6 3 = 0
    if r.subop = 0 then .guard z (.fxSrari r.d r.a sh)
    else if r.subop = 1 then .guard z (.fxSati r.d r.a sh)
    else if r.subop = 2 then .guard z (.fxSatni r.d r.a sh)
    else if r.subop = 3 then .ok (.fxScliF32 r.d r.a r.imm9)
    else if r.subop = 4 then .ok (.fxScliF64 r.d r.a r.imm9)
    else .illegal
  else .illegal

/-- Fence and prefetch block (Table 7.6). -/
def decFn (r : RWord) : Decoded :=
  if r.d ≠ 0 then .illegal
  else if r.f7 = 0x10 then .guard (r.b = 0 && r.a = 0) .fnNc
  else if r.f7 = 0x20 then .guard (r.b = 0) (.fnPfL1 r.a)
  else if r.f7 = 0x21 then .guard (r.b = 0) (.fnPfLlc r.a)
  else if r.f7 = 0x22 then .guard (r.b = 0) (.fnPfW r.a)
  else if r.f7.extractLsb' 3 4 ≠ 0 || r.b.extractLsb' 4 1 ≠ 0 || r.a.extractLsb' 4 1 ≠ 0 then .illegal
  else .opt ((scopeOf (r.f7.extractLsb' 0 3)).map (.fnScoped · (r.b.extractLsb' 0 4) (r.a.extractLsb' 0 4)))

/-- Atomics block (Tables 8.2 and 8.3, R220). -/
def decAmo (r : RWord) : Decoded :=
  let aq : Bool := r.f7.extractLsb' 6 1 = 1
  let rl : Bool := r.f7.extractLsb' 5 1 = 1
  let t := ityOf (r.f7.extractLsb' 0 2)
  match scopeOf (r.f7.extractLsb' 2 3) with
  | none => .illegal
  | some s =>
    match aopOf r.b with
    | some o => .ok (.amoOp o t s aq rl r.d r.a)
    | none =>
      if r.b = 8 then .guard (evenReg r.d) (.amoCas t s aq rl r.d r.a)
      else if r.b = 9 then .guard (!rl) (.amoLd t s aq r.d r.a)
      else if r.b = 10 then .guard (!aq) (.amoSt t s rl r.d r.a)
      else if r.b = 12 then .guard (t = .n64 && evenReg r.d && r.d ≠ 0) (.amoDraw s aq rl r.d r.a)
      else if r.b = 13 then .guard (t = .n64 && s = .cw) (.amoTick aq rl r.d r.a)
      else .illegal

/-- Reductions block (Tables 8.2 and 8.3). -/
def decRed (r : RWord) : Decoded :=
  if r.f7.extractLsb' 5 2 ≠ 0 then .illegal
  else
    match scopeOf (r.f7.extractLsb' 2 3), aopOf r.d with
    | some s, some o => .guard (o ≠ .swap) (.red o (ityOf (r.f7.extractLsb' 0 2)) s r.a r.b)
    | _, _ => .illegal

/-- custom-2: memory, fences, atomics, reductions (Table 2.5). -/
def decCustom2 (r : RWord) : Decoded :=
  if r.f3 = 0 then .opt ((lwidthOf r.subop).map (.ldNc · r.d r.a r.imm9))
  else if r.f3 = 1 then .opt ((lwidthOf r.subop).map (.ldBp · r.d r.a r.imm9))
  else if r.f3 = 2 then .opt ((swidthOf r.subop).map (.stBp · r.a r.b r.imm9s))
  else if r.f3 = 3 then .opt ((lwidthOf r.subop).map (.sl · r.d r.a r.imm9))
  else if r.f3 = 4 then .opt ((swidthOf r.subop).map (.ss · r.a r.b r.imm9s))
  else if r.f3 = 5 then decFn r
  else if r.f3 = 6 then decAmo r
  else decRed r

/-- custom-3: sample groups, collectives and link, power (Table 2.5). -/
def decCustom3 (r : RWord) : Decoded :=
  let one (i : Instr) : Decoded := .guard (r.b = 0) i
  let none' (i : Instr) : Decoded := .guard (r.b = 0 && r.a = 0) i
  if r.f3 = 0 then
    if r.f7 = 0x00 then .ok (.sgFork r.d r.a r.b)
    else if r.f7 = 0x01 then one (.sgRwd r.d r.a)
    else if r.f7 = 0x02 then one (.sgCol r.d r.a)
    else if r.f7 = 0x03 then .ok (.sgCxl r.d r.a r.b)
    else if r.f7 = 0x04 then .ok (.sgExt r.d r.a r.b)
    else if r.f7 = 0x05 then .ok (.sgQry r.d r.a r.b)
    else if r.f7 = 0x06 then none' (.sgLeave r.d)
    else .illegal
  else if r.f3 = 1 then
    if r.f7 = 0x00 then one (.clPost r.d r.a)
    else if r.f7 = 0x01 then one (.clRing r.d r.a)
    else if r.f7 = 0x04 then .ok (.clPut r.d r.a r.b)
    else if r.f7 = 0x05 then .ok (.clGet r.d r.a r.b)
    else if r.f7 = 0x06 then .ok (.clSig r.d r.a r.b)
    else if r.f7 = 0x08 then .ok (.clWait r.d r.a r.b)
    else if r.f7 = 0x09 then .ok (.clWaitTry r.d r.a r.b)
    else if r.f7 = 0x10 then one (.clQry r.d r.a)
    else .illegal
  else if r.f3 = 2 then
    if r.f7 = 0x00 then one (.pwQry r.d r.a)
    else if r.f7 = 0x01 then none' (.pwYld r.d)
    else if r.f7 = 0x02 then one (.pwWind r.d r.a)
    else .illegal
  else .illegal

/-! ### The standard part (R25; the encodings are the ratified RISC-V ones, log 17) -/

/-- OP. -/
def aluRR (f7 : BitVec 7) (f3 : BitVec 3) : Option AluOp :=
  if f7 = 0x00 then
    match f3 with
    | 0 => some .add | 1 => some .sll | 2 => some .slt | 3 => some .sltu
    | 4 => some .xor | 5 => some .srl | 6 => some .or | 7 => some .and
  else if f7 = 0x01 then
    match f3 with
    | 0 => some .mul | 1 => some .mulh | 2 => some .mulhsu | 3 => some .mulhu
    | 4 => some .div | 5 => some .divu | 6 => some .rem | 7 => some .remu
  else if f7 = 0x20 then
    if f3 = 0 then some .sub else if f3 = 5 then some .sra else if f3 = 7 then some .andn
    else if f3 = 6 then some .orn else if f3 = 4 then some .xnor else none
  else if f7 = 0x10 then
    if f3 = 2 then some .sh1add else if f3 = 4 then some .sh2add else if f3 = 6 then some .sh3add else none
  else if f7 = 0x05 then
    if f3 = 4 then some .min else if f3 = 5 then some .minu else if f3 = 6 then some .max
    else if f3 = 7 then some .maxu else none
  else if f7 = 0x30 then
    if f3 = 1 then some .rol else if f3 = 5 then some .ror else none
  else if f7 = 0x24 then
    if f3 = 1 then some .bclr else if f3 = 5 then some .bext else none
  else if f7 = 0x34 then
    if f3 = 1 then some .binv else none
  else if f7 = 0x14 then
    if f3 = 1 then some .bset else none
  else if f7 = 0x07 then
    if f3 = 5 then some .czeroEqz else if f3 = 7 then some .czeroNez else none
  else none

/-- OP-32. -/
def aluRRW (f7 : BitVec 7) (f3 : BitVec 3) : Option AluOp :=
  if f7 = 0x00 then
    if f3 = 0 then some .addw else if f3 = 1 then some .sllw else if f3 = 5 then some .srlw else none
  else if f7 = 0x20 then
    if f3 = 0 then some .subw else if f3 = 5 then some .sraw else none
  else if f7 = 0x01 then
    if f3 = 0 then some .mulw else if f3 = 4 then some .divw else if f3 = 5 then some .divuw
    else if f3 = 6 then some .remw else if f3 = 7 then some .remuw else none
  else if f7 = 0x04 then
    if f3 = 0 then some .addUw else none
  else if f7 = 0x10 then
    if f3 = 2 then some .sh1addUw else if f3 = 4 then some .sh2addUw else if f3 = 6 then some .sh3addUw else none
  else if f7 = 0x30 then
    if f3 = 1 then some .rolw else if f3 = 5 then some .rorw else none
  else none

/-- Opcode, funct7 and funct3 of a two-operand operation. -/
def aluCode : AluOp → BitVec 7 × BitVec 7 × BitVec 3
  | .add => (0x33, 0x00, 0) | .sub => (0x33, 0x20, 0) | .sll => (0x33, 0x00, 1) | .slt => (0x33, 0x00, 2)
  | .sltu => (0x33, 0x00, 3) | .xor => (0x33, 0x00, 4) | .srl => (0x33, 0x00, 5) | .sra => (0x33, 0x20, 5)
  | .or => (0x33, 0x00, 6) | .and => (0x33, 0x00, 7)
  | .addw => (0x3b, 0x00, 0) | .subw => (0x3b, 0x20, 0) | .sllw => (0x3b, 0x00, 1) | .srlw => (0x3b, 0x00, 5)
  | .sraw => (0x3b, 0x20, 5)
  | .mul => (0x33, 0x01, 0) | .mulh => (0x33, 0x01, 1) | .mulhsu => (0x33, 0x01, 2) | .mulhu => (0x33, 0x01, 3)
  | .div => (0x33, 0x01, 4) | .divu => (0x33, 0x01, 5) | .rem => (0x33, 0x01, 6) | .remu => (0x33, 0x01, 7)
  | .mulw => (0x3b, 0x01, 0) | .divw => (0x3b, 0x01, 4) | .divuw => (0x3b, 0x01, 5) | .remw => (0x3b, 0x01, 6)
  | .remuw => (0x3b, 0x01, 7)
  | .sh1add => (0x33, 0x10, 2) | .sh2add => (0x33, 0x10, 4) | .sh3add => (0x33, 0x10, 6)
  | .addUw => (0x3b, 0x04, 0) | .sh1addUw => (0x3b, 0x10, 2) | .sh2addUw => (0x3b, 0x10, 4)
  | .sh3addUw => (0x3b, 0x10, 6)
  | .andn => (0x33, 0x20, 7) | .orn => (0x33, 0x20, 6) | .xnor => (0x33, 0x20, 4)
  | .max => (0x33, 0x05, 6) | .maxu => (0x33, 0x05, 7) | .min => (0x33, 0x05, 4) | .minu => (0x33, 0x05, 5)
  | .rol => (0x33, 0x30, 1) | .ror => (0x33, 0x30, 5) | .rolw => (0x3b, 0x30, 1) | .rorw => (0x3b, 0x30, 5)
  | .bclr => (0x33, 0x24, 1) | .bext => (0x33, 0x24, 5) | .binv => (0x33, 0x34, 1) | .bset => (0x33, 0x14, 1)
  | .czeroEqz => (0x33, 0x07, 5) | .czeroNez => (0x33, 0x07, 7)

/-- A shift immediate of OP-IMM: a 6-bit amount under a 6-bit code. -/
def decShift (op : AluImm) (r : RWord) : Decoded :=
  .ok (.standardAlu (.ri op r.d r.a ((0 : BitVec 6) ++ r.imm.extractLsb' 0 6)))

/-- OP-IMM. -/
def decOpImm (r : RWord) : Decoded :=
  let ri (op : AluImm) : Decoded := .ok (.standardAlu (.ri op r.d r.a r.imm))
  let un (op : AluUn) : Decoded := .ok (.standardAlu (.un op r.d r.a))
  let hi := r.imm.extractLsb' 6 6
  match r.f3 with
  | 0 => ri .addi
  | 2 => ri .slti
  | 3 => ri .sltiu
  | 4 => ri .xori
  | 6 => ri .ori
  | 7 => ri .andi
  | 1 =>
    if hi = 0x00 then decShift .slli r
    else if hi = 0x12 then decShift .bclri r
    else if hi = 0x1a then decShift .binvi r
    else if hi = 0x0a then decShift .bseti r
    else if r.imm = 0x600 then un .clz
    else if r.imm = 0x601 then un .ctz
    else if r.imm = 0x602 then un .cpop
    else if r.imm = 0x604 then un .sextB
    else if r.imm = 0x605 then un .sextH
    else .illegal
  | 5 =>
    if hi = 0x00 then decShift .srli r
    else if hi = 0x10 then decShift .srai r
    else if hi = 0x18 then decShift .rori r
    else if hi = 0x12 then decShift .bexti r
    else if r.imm = 0x287 then un .orcB
    else if r.imm = 0x6b8 then un .rev8
    else .illegal

/-- OP-IMM-32. -/
def decOpImm32 (r : RWord) : Decoded :=
  let sh (op : AluImm) : Decoded := .ok (.standardAlu (.ri op r.d r.a ((0 : BitVec 7) ++ r.b)))
  let un (op : AluUn) : Decoded := .ok (.standardAlu (.un op r.d r.a))
  match r.f3 with
  | 0 => .ok (.standardAlu (.ri .addiw r.d r.a r.imm))
  | 1 =>
    if r.imm.extractLsb' 6 6 = 0x02 then decShift .slliUw r
    else if r.f7 = 0x00 then sh .slliw
    else if r.imm = 0x600 then un .clzw
    else if r.imm = 0x601 then un .ctzw
    else if r.imm = 0x602 then un .cpopw
    else .illegal
  | 5 =>
    if r.f7 = 0x00 then sh .srliw
    else if r.f7 = 0x20 then sh .sraiw
    else if r.f7 = 0x30 then sh .roriw
    else .illegal
  | 2 => .illegal
  | 3 => .illegal
  | 4 => .illegal
  | 6 => .illegal
  | 7 => .illegal

/-- FP32 or FP64 from the fmt field. -/
def precOf (f : BitVec 2) : Option FPrec :=
  match f with
  | 0 => some .s | 1 => some .d | 2 => none | 3 => none

/-- fmt field. -/
def precCode : FPrec → BitVec 2
  | .s => 0 | .d => 1

/-- Integer side of a conversion from rs2. -/
def fpIntOf (b : Reg) : Option FpInt :=
  if b = 0 then some .w else if b = 1 then some .wu else if b = 2 then some .l else if b = 3 then some .lu else none

/-- rs2 of a conversion. -/
def fpIntCode : FpInt → Reg
  | .w => 0 | .wu => 1 | .l => 2 | .lu => 3

/-- OP-FP. -/
def decOpFp (r : RWord) : Decoded :=
  let rmk (f : FpForm) : Decoded := .guard (rmOk r.f3) (.standardFp f)
  let k := r.f7.extractLsb' 2 5
  let fm := r.f7.extractLsb' 0 2
  if k = 0x08 then
    let cv (c : FpCvt) : Decoded := rmk (.cvt c r.f3 r.d r.a)
    if fm = 0 && r.b = 1 then cv .sd
    else if fm = 1 && r.b = 0 then cv .ds
    else if fm = 0 && r.b = 2 then cv .sh
    else if fm = 2 && r.b = 0 then cv .hs
    else if fm = 1 && r.b = 2 then cv .dh
    else if fm = 2 && r.b = 1 then cv .hd
    else if fm = 0 && r.b = 6 then cv .sbf
    else if fm = 2 && r.b = 8 then cv .bfs
    else if r.b = 4 || r.b = 5 then
      match precOf fm with
      | some p => if rmOk r.f3 then .lcore (.roundInt (r.b = 5) p r.f3 r.d r.a) else .illegal
      | none => .illegal
    else .illegal
  else if k = 0x1c && r.f3 = 0 && r.b = 0 then
    if fm = 2 then .ok (.standardFp (.mv .xh r.d r.a))
    else if fm = 0 then .ok (.standardFp (.mv .xw r.d r.a))
    else if fm = 1 then .ok (.standardFp (.mv .xd r.d r.a))
    else .illegal
  else if k = 0x1e && r.f3 = 0 && r.b = 0 then
    if fm = 2 then .ok (.standardFp (.mv .hx r.d r.a))
    else if fm = 0 then .ok (.standardFp (.mv .wx r.d r.a))
    else if fm = 1 then .ok (.standardFp (.mv .dx r.d r.a))
    else .illegal
  else
    match precOf fm with
    | none => .illegal
    | some p =>
      if k = 0x00 then rmk (.bin .add p r.f3 r.d r.a r.b)
      else if k = 0x01 then rmk (.bin .sub p r.f3 r.d r.a r.b)
      else if k = 0x02 then rmk (.bin .mul p r.f3 r.d r.a r.b)
      else if k = 0x03 then rmk (.bin .div p r.f3 r.d r.a r.b)
      else if k = 0x0b then .guard (rmOk r.f3 && r.b = 0) (.standardFp (.sqrt p r.f3 r.d r.a))
      else if k = 0x04 then
        if r.f3 = 0 then .ok (.standardFp (.sgnj .j p r.d r.a r.b))
        else if r.f3 = 1 then .ok (.standardFp (.sgnj .jn p r.d r.a r.b))
        else if r.f3 = 2 then .ok (.standardFp (.sgnj .jx p r.d r.a r.b))
        else .illegal
      else if k = 0x05 then
        if r.f3 = 0 then .ok (.standardFp (.minmax false p r.d r.a r.b))
        else if r.f3 = 1 then .ok (.standardFp (.minmax true p r.d r.a r.b))
        else if r.f3 = 2 || r.f3 = 3 then .lcore (.minmaxm (r.f3 = 3) p r.d r.a r.b)
        else .illegal
      else if k = 0x14 then
        if r.f3 = 0 then .ok (.standardFp (.cmp .le p r.d r.a r.b))
        else if r.f3 = 1 then .ok (.standardFp (.cmp .lt p r.d r.a r.b))
        else if r.f3 = 2 then .ok (.standardFp (.cmp .eq p r.d r.a r.b))
        else if r.f3 = 4 || r.f3 = 5 then .lcore (.cmpq (r.f3 = 5) p r.d r.a r.b)
        else .illegal
      else if k = 0x1c && r.f3 = 1 then .guard (r.b = 0) (.standardFp (.cls p r.d r.a))
      else if k = 0x1e && r.f3 = 0 && r.b = 1 then .lcore (.fli p r.d r.a)
      else if k = 0x18 then
        match fpIntOf r.b with
        | some t => rmk (.toInt t p r.f3 r.d r.a)
        | none => if p = .d && r.b = 8 && r.f3 = 1 then .lcore (.cvtmod r.d r.a) else .illegal
      else if k = 0x1a then
        match fpIntOf r.b with
        | some t => rmk (.ofInt t p r.f3 r.d r.a)
        | none => .illegal
      else .illegal

/-- The fused multiply-adds. -/
def decFma (op : FpFma) (r : RWord) : Decoded :=
  match precOf (r.f7.extractLsb' 0 2) with
  | some p => .guard (rmOk r.f3) (.standardFp (.fma op p r.f3 r.d r.a r.b (r.f7.extractLsb' 2 5)))
  | none => .illegal

/-- AMO. -/
def decStdAmo (r : RWord) : Decoded :=
  let aq : Bool := r.f7.extractLsb' 1 1 = 1
  let rl : Bool := r.f7.extractLsb' 0 1 = 1
  let k := r.f7.extractLsb' 2 5
  if k = 0x05 then
    if r.f3 = 2 then .ok (.amocas .w aq rl r.d r.a r.b)
    else if r.f3 = 3 then .ok (.amocas .d aq rl r.d r.a r.b)
    else if r.f3 = 4 then .guard (evenReg r.d && evenReg r.b) (.amocas .q aq rl r.d r.a r.b)
    else .illegal
  else if r.f3 ≠ 2 && r.f3 ≠ 3 then .illegal
  else
    let dbl : Bool := r.f3 = 3
    let amo (o : StdAmo) : Decoded := .ok (.standardAmo o dbl aq rl r.d r.a r.b)
    if k = 0x02 then .guard (r.b = 0) (.lr dbl aq rl r.d r.a)
    else if k = 0x03 then .ok (.sc dbl aq rl r.d r.a r.b)
    else if k = 0x01 then amo .swap
    else if k = 0x00 then amo .add
    else if k = 0x04 then amo .xor
    else if k = 0x0c then amo .and
    else if k = 0x08 then amo .or
    else if k = 0x10 then amo .min
    else if k = 0x14 then amo .max
    else if k = 0x18 then amo .minu
    else if k = 0x1c then amo .maxu
    else .illegal

/-- SYSTEM. -/
def decSystem (r : RWord) : Decoded :=
  let csr (op : CsrOp) (im : Bool) : Decoded := .ok (.csrAccess op im r.d r.a r.imm)
  match r.f3 with
  | 1 => csr .rw false
  | 2 => csr .rs false
  | 3 => csr .rc false
  | 5 => csr .rw true
  | 6 => csr .rs true
  | 7 => csr .rc true
  | 0 =>
    if r.d ≠ 0 then .illegal
    else if r.f7 = 0x09 then .ok (.sfenceVma r.a r.b)
    else if r.f7 = 0x0b then .lcore (.same (.sfenceVma r.a r.b))
    else if r.f7 = 0x11 || r.f7 = 0x13 then .lcore (.guestFence .vvma)
    else if r.f7 = 0x31 || r.f7 = 0x33 then .lcore (.guestFence .gvma)
    else if r.a ≠ 0 then .illegal
    else if r.imm = 0x000 then .ok .ecall
    else if r.imm = 0x001 then .ok .ebreak
    else if r.imm = 0x102 then .ok .sret
    else if r.imm = 0x105 then .ok .wfi
    else if r.imm = 0x302 then .mret
    else if r.imm = 0x00d then .ok .wrsNto
    else if r.imm = 0x01d then .ok .wrsSto
    else if r.imm = 0x180 || r.imm = 0x181 then .lcore (.guestFence .order)
    else .illegal
  | 4 =>
    if r.f7.extractLsb' 6 1 = 1 && r.f7.extractLsb' 3 2 = 0 then
      if r.f7.extractLsb' 0 1 = 1 then
        .ok (.standardAlu (.moprr (r.f7.extractLsb' 5 1 ++ r.f7.extractLsb' 1 2) r.d r.a r.b))
      else if r.f7.extractLsb' 0 1 = 0 && r.b.extractLsb' 2 3 = 7 then
        .ok (.standardAlu (.mopr (r.f7.extractLsb' 5 1 ++ r.f7.extractLsb' 1 2 ++ r.b.extractLsb' 0 2) r.d r.a))
      else .illegal
    else
      let hlv (n : Nat) (sg x : Bool) : Decoded := .lcore (.hlv n sg x r.d r.a)
      let hsv (n : Nat) : Decoded := if r.d = 0 then .lcore (.hsv n r.a r.b) else .illegal
      if r.f7 = 0x30 && r.b = 0 then hlv 1 true false
      else if r.f7 = 0x30 && r.b = 1 then hlv 1 false false
      else if r.f7 = 0x32 && r.b = 0 then hlv 2 true false
      else if r.f7 = 0x32 && r.b = 1 then hlv 2 false false
      else if r.f7 = 0x32 && r.b = 3 then hlv 2 false true
      else if r.f7 = 0x34 && r.b = 0 then hlv 4 true false
      else if r.f7 = 0x34 && r.b = 1 then hlv 4 false false
      else if r.f7 = 0x34 && r.b = 3 then hlv 4 false true
      else if r.f7 = 0x36 && r.b = 0 then hlv 8 true false
      else if r.f7 = 0x31 then hsv 1
      else if r.f7 = 0x33 then hsv 2
      else if r.f7 = 0x35 then hsv 4
      else if r.f7 = 0x37 then hsv 8
      else .illegal

/-! ### V, Zvbb and Zvfhmin (L-cores; log 17) -/

/-- funct6 of an instruction of V. -/
def RWord.f6 (r : RWord) : Nat := (r.f7.extractLsb' 1 6).toNat

/-- Bit vm. -/
def RWord.vm (r : RWord) : Bool := r.f7.extractLsb' 0 1 = 1

/-- A vector instruction under a condition. -/
def Decoded.vec (b : Bool) (v : VInst) : Decoded := if b then .lcore (.vector v) else .illegal

/-- Single-width operations by funct6: whether vs1 and rs1 forms, the immediate form, and an unsigned immediate exist. -/
def vBinOp (n : Nat) : Option (VBin × Bool × Bool × Bool) :=
  match n with
  | 0 => some (.add, true, true, false) | 1 => some (.andn, true, false, false) | 2 => some (.sub, true, false, false)
  | 3 => some (.rsub, false, true, false) | 4 => some (.minu, true, false, false) | 5 => some (.min, true, false, false)
  | 6 => some (.maxu, true, false, false) | 7 => some (.max, true, false, false) | 9 => some (.and, true, true, false)
  | 10 => some (.or, true, true, false) | 11 => some (.xor, true, true, false) | 20 => some (.ror, true, false, false)
  | 21 => some (.rol, true, false, false) | 32 => some (.saddu, true, true, false) | 33 => some (.sadd, true, true, false)
  | 34 => some (.ssubu, true, false, false) | 35 => some (.ssub, true, false, false) | 37 => some (.sll, true, true, true)
  | 39 => some (.smul, true, false, false) | 40 => some (.srl, true, true, true) | 41 => some (.sra, true, true, true)
  | 42 => some (.ssrl, true, true, true) | 43 => some (.ssra, true, true, true)
  | _ => none

/-- Comparisons by funct6: whether a vs1 form and an immediate form exist. -/
def vCmpOp (n : Nat) : Option (VCmp × Bool × Bool) :=
  match n with
  | 24 => some (.eq, true, true) | 25 => some (.ne, true, true) | 26 => some (.ltu, true, false) | 27 => some (.lt, true, false)
  | 28 => some (.leu, true, true) | 29 => some (.le, true, true) | 30 => some (.gtu, false, true) | 31 => some (.gt, false, true)
  | _ => none

/-- OPIVV, OPIVX and OPIVI: `k` is 0, 1 or 2. -/
def decVInt (r : RWord) (k : Nat) : Decoded :=
  let n := r.f6
  let m := r.vm
  let d := r.d
  let b := r.b
  let s : VSrc := if k = 0 then .v r.a else if k = 1 then .x r.a else .imm r.a
  let u : VSrc := if k = 2 then .uimm (r.a.setWidth 6) else s
  match vBinOp n with
  | some (o, vv, im, un) =>
    if k = 2 && (n = 20 || n = 21) then .vec true (.bin .ror m d b (.uimm (BitVec.ofNat 6 (n % 2 * 32 + r.a.toNat))))
    else if k = 2 && n = 39 then .vec (m && (r.a = 0 || r.a = 1 || r.a = 3 || r.a = 7)) (.mvR (r.a.toNat + 1) d b)
    else .vec (if k = 2 then im else vv || k = 1) (.bin o m d b (if un then u else s))
  | none =>
    match vCmpOp n with
    | some (o, vv, im) => .vec (if k = 2 then im else vv || k = 1) (.cmp o m d b s)
    | none =>
      match n with
      | 12 => .vec true (.gather false m d b u)
      | 14 => if k = 0 then .vec true (.gather true m d b s) else .vec true (.slide true m d b u)
      | 15 => .vec (k ≠ 0) (.slide false m d b u)
      | 16 => .vec (!m) (.carry false d b s)
      | 17 => .vec true (.carryOut false m d b s)
      | 18 => .vec (!m && k ≠ 2) (.carry true d b s)
      | 19 => .vec (k ≠ 2) (.carryOut true m d b s)
      | 23 => .vec (!m || b = 0) (.merge m d b s)
      | 44 => .vec true (.narrow .srl m d b u)
      | 45 => .vec true (.narrow .sra m d b u)
      | 46 => .vec true (.narrow .clipu m d b u)
      | 47 => .vec true (.narrow .clip m d b u)
      | 48 => .vec (k = 0) (.wred false m d b r.a)
      | 49 => .vec (k = 0) (.wred true m d b r.a)
      | 53 => .vec true (.wide .sll false m d b u)
      | _ => .illegal

/-- OPMVV, and with `x` OPMVX. -/
def decVMul (r : RWord) (x : Bool) : Decoded :=
  let m := r.vm
  let d := r.d
  let b := r.b
  let s : VSrc := if x then .x r.a else .v r.a
  let red (o : VRed) : Decoded := .vec (!x) (.red o m d b r.a)
  let bin (o : VBin) : Decoded := .vec true (.bin o m d b s)
  let msk (o : VMask) : Decoded := .vec (!x && m) (.mask o d b r.a)
  let wid (o : VWide) (w : Bool) : Decoded := .vec true (.wide o w m d b s)
  match r.f6 with
  | 0 => red .sum | 1 => red .and | 2 => red .or | 3 => red .xor | 4 => red .minu | 5 => red .min | 6 => red .maxu | 7 => red .max
  | 8 => bin .aaddu | 9 => bin .aadd | 10 => bin .asubu | 11 => bin .asub
  | 14 => .vec x (.slide1 true m d b s) | 15 => .vec x (.slide1 false m d b s)
  | 16 =>
    if x then .vec (m && b = 0) (.mvSX d r.a)
    else if r.a = 0 then .vec m (.mvXS d b)
    else if r.a = 16 then .vec true (.vcpop m d b)
    else .vec (r.a = 17) (.vfirst m d b)
  | 18 =>
    if x then .illegal
    else
      match r.a.toNat with
      | 2 => .vec true (.ext false 8 m d b) | 3 => .vec true (.ext true 8 m d b) | 4 => .vec true (.ext false 4 m d b)
      | 5 => .vec true (.ext true 4 m d b) | 6 => .vec true (.ext false 2 m d b) | 7 => .vec true (.ext true 2 m d b)
      | 8 => .vec true (.un .brev8 m d b) | 9 => .vec true (.un .rev8 m d b) | 10 => .vec true (.un .brev m d b)
      | 12 => .vec true (.un .clz m d b) | 13 => .vec true (.un .ctz m d b) | 14 => .vec true (.un .cpop m d b)
      | _ => .illegal
  | 20 =>
    if x then .illegal
    else
      match r.a.toNat with
      | 1 => .vec true (.firstMask .sbf m d b) | 2 => .vec true (.firstMask .sof m d b) | 3 => .vec true (.firstMask .sif m d b)
      | 16 => .vec true (.iota m d b) | 17 => .vec (b = 0) (.vid m d)
      | _ => .illegal
  | 23 => .vec (!x && m) (.compress d b r.a)
  | 24 => msk .andn | 25 => msk .and | 26 => msk .or | 27 => msk .xor | 28 => msk .orn | 29 => msk .nand | 30 => msk .nor
  | 31 => msk .xnor
  | 32 => bin .divu | 33 => bin .div | 34 => bin .remu | 35 => bin .rem | 36 => bin .mulhu | 37 => bin .mul | 38 => bin .mulhsu
  | 39 => bin .mulh
  | 41 => .vec true (.mac .madd m d b s) | 43 => .vec true (.mac .nmsub m d b s) | 45 => .vec true (.mac .macc m d b s)
  | 47 => .vec true (.mac .nmsac m d b s)
  | 48 => wid .addu false | 49 => wid .add false | 50 => wid .subu false | 51 => wid .sub false
  | 52 => wid .addu true | 53 => wid .add true | 54 => wid .subu true | 55 => wid .sub true
  | 56 => wid .mulu false | 58 => wid .mulsu false | 59 => wid .mul false
  | 60 => .vec true (.wmac .uu m d b s) | 61 => .vec true (.wmac .ss m d b s) | 62 => .vec x (.wmac .us m d b s)
  | 63 => .vec true (.wmac .su m d b s)
  | _ => .illegal

/-- OPFVV, and with `f` OPFVF. -/
def decVFp (r : RWord) (f : Bool) : Decoded :=
  let m := r.vm
  let d := r.d
  let b := r.b
  let s : VSrc := if f then .f r.a else .v r.a
  let bin (o : VFBin) (ok : Bool) : Decoded := .vec ok (.fbin o m d b s)
  let cmp (o : VFCmp) (ok : Bool) : Decoded := .vec ok (.fcmp o m d b s)
  let mac (g : VFSign) (acc : Bool) : Decoded := .vec true (.fmac g acc m d b s)
  let wid (o : VFWide) (w : Bool) : Decoded := .vec true (.fwide o w m d b s)
  let cvt (o : VFCvt) (w : VStep) : Decoded := .vec true (.fcvt o w m d b)
  match r.f6 with
  | 0 => bin .add true | 2 => bin .sub true | 4 => bin .min true | 6 => bin .max true
  | 1 => .vec (!f) (.fred .usum m d b r.a) | 3 => .vec (!f) (.fred .osum m d b r.a)
  | 5 => .vec (!f) (.fred .min m d b r.a) | 7 => .vec (!f) (.fred .max m d b r.a)
  | 8 => bin .sgnj true | 9 => bin .sgnjn true | 10 => bin .sgnjx true
  | 14 => .vec f (.slide1 true m d b s) | 15 => .vec f (.slide1 false m d b s)
  | 16 => if f then .vec (m && b = 0) (.mvSF d r.a) else .vec (m && r.a = 0) (.mvFS d b)
  | 18 =>
    if f then .illegal
    else
      match r.a.toNat with
      | 0 => cvt (.toInt false false) .same | 1 => cvt (.toInt true false) .same | 2 => cvt (.ofInt false) .same
      | 3 => cvt (.ofInt true) .same | 6 => cvt (.toInt false true) .same | 7 => cvt (.toInt true true) .same
      | 8 => cvt (.toInt false false) .widen | 9 => cvt (.toInt true false) .widen | 10 => cvt (.ofInt false) .widen
      | 11 => cvt (.ofInt true) .widen | 12 => cvt (.ff false) .widen | 14 => cvt (.toInt false true) .widen
      | 15 => cvt (.toInt true true) .widen
      | 16 => cvt (.toInt false false) .narrow | 17 => cvt (.toInt true false) .narrow | 18 => cvt (.ofInt false) .narrow
      | 19 => cvt (.ofInt true) .narrow | 20 => cvt (.ff false) .narrow | 21 => cvt (.ff true) .narrow
      | 22 => cvt (.toInt false true) .narrow | 23 => cvt (.toInt true true) .narrow
      | _ => .illegal
  | 19 =>
    if f then .illegal
    else
      match r.a.toNat with
      | 0 => .vec true (.fun1 .sqrt m d b) | 4 => .vec true (.fun1 .rsqrt7 m d b) | 5 => .vec true (.fun1 .rec7 m d b)
      | 16 => .vec true (.fun1 .cls m d b)
      | _ => .illegal
  | 23 => .vec (f && (!m || b = 0)) (.merge m d b s)
  | 24 => cmp .eq true | 25 => cmp .le true | 27 => cmp .lt true | 28 => cmp .ne true | 29 => cmp .gt f | 31 => cmp .ge f
  | 32 => bin .div true | 33 => bin .rdiv f | 36 => bin .mul true | 39 => bin .rsub f
  | 40 => mac .pp false | 41 => mac .nn false | 42 => mac .pn false | 43 => mac .np false
  | 44 => mac .pp true | 45 => mac .nn true | 46 => mac .pn true | 47 => mac .np true
  | 48 => wid .add false | 50 => wid .sub false | 52 => wid .add true | 54 => wid .sub true | 56 => wid .mul false
  | 49 => .vec (!f) (.fwred false m d b r.a) | 51 => .vec (!f) (.fwred true m d b r.a)
  | 60 => .vec true (.fwmac .pp m d b s) | 61 => .vec true (.fwmac .nn m d b s) | 62 => .vec true (.fwmac .pn m d b s)
  | 63 => .vec true (.fwmac .np m d b s)
  | _ => .illegal

/-- OP-V. -/
def decVector (r : RWord) : Decoded :=
  match r.f3 with
  | 0 => decVInt r 0
  | 1 => decVFp r false
  | 2 => decVMul r false
  | 3 => decVInt r 2
  | 4 => decVInt r 1
  | 5 => decVFp r true
  | 6 => decVMul r true
  | 7 =>
    if r.f7.extractLsb' 6 1 = 0 then .vec true (.cfg (.vsetvli r.d r.a (r.f7.extractLsb' 0 6 ++ r.b)))
    else if r.f7.extractLsb' 5 1 = 1 then .vec true (.cfg (.vsetivli r.d r.a (r.f7.extractLsb' 0 5 ++ r.b)))
    else .vec (r.f7 = 0x40) (.cfg (.vsetvl r.d r.a r.b))

/-- Vector accesses under LOAD-FP and STORE-FP. -/
def decVectorMem (r : RWord) (load : Bool) : Decoded :=
  let eew : Nat := match r.f3 with | 0 => 8 | 5 => 16 | 6 => 32 | 7 => 64 | _ => 0
  let nf := (r.f7.extractLsb' 4 3).toNat + 1
  let acc (ok : Bool) (m : VAddr) : Decoded :=
    .vec (ok && eew ≠ 0 && r.f7.extractLsb' 3 1 = 0) (.mem load m eew nf r.vm r.d r.a)
  match r.f7.extractLsb' 1 2 with
  | 0 =>
    if r.b = 0 then acc true .unit
    else if r.b = 8 then acc (r.vm && (nf = 1 || nf = 2 || nf = 4 || nf = 8) && (load || eew = 8)) .whole
    else if r.b = 11 then acc (r.vm && nf = 1 && eew = 8) .mask
    else acc (load && r.b = 16) .first
  | 1 => acc true (.indexed false r.b)
  | 2 => acc true (.strided r.b)
  | 3 => acc true (.indexed true r.b)

/-- The offset of a branch. -/
def RWord.bImm (r : RWord) : BitVec 13 :=
  r.f7.extractLsb' 6 1 ++ r.d.extractLsb' 0 1 ++ r.f7.extractLsb' 0 6 ++ r.d.extractLsb' 1 4 ++ (0 : BitVec 1)

/-- The offset of `jal`. -/
def RWord.jImm (r : RWord) : BitVec 21 :=
  r.f7.extractLsb' 6 1 ++ (r.a ++ r.f3) ++ r.b.extractLsb' 0 1 ++ (r.f7.extractLsb' 0 6 ++ r.b.extractLsb' 1 4)
    ++ (0 : BitVec 1)

/-- The standard opcodes. -/
def decStandard (r : RWord) : Decoded :=
  let ld (k : LoadKind) : Decoded := .ok (.load k r.d r.a r.imm)
  let st (k : StoreKind) : Decoded := .ok (.store k r.a r.b (r.f7 ++ r.d))
  let br (c : BrCond) : Decoded := .ok (.branchJump (.br c r.a r.b r.bImm))
  if r.op = 0x03 then
    match r.f3 with
    | 0 => ld .lb | 1 => ld .lh | 2 => ld .lw | 3 => ld .ld | 4 => ld .lbu | 5 => ld .lhu | 6 => ld .lwu
    | 7 => .illegal
  else if r.op = 0x07 then
    if r.f3 = 1 then ld .flh else if r.f3 = 2 then ld .flw else if r.f3 = 3 then ld .fld else decVectorMem r true
  else if r.op = 0x0f then
    if r.f3 = 0 then .ok (.fence (r.f7.extractLsb' 3 4) (r.f7.extractLsb' 0 3 ++ r.b.extractLsb' 4 1)
      (r.b.extractLsb' 0 4))
    else if r.f3 = 1 then .ok .fenceI
    else if r.f3 = 2 && r.d = 0 && r.imm = 4 then .lcore (.cbo .zero r.a)
    else if r.f3 = 2 && r.d = 0 && r.imm = 0 then .lcore (.cbo .inval r.a)
    else if r.f3 = 2 && r.d = 0 && r.imm = 1 then .lcore (.cbo .clean r.a)
    else if r.f3 = 2 && r.d = 0 && r.imm = 2 then .lcore (.cbo .flush r.a)
    else .illegal
  else if r.op = 0x13 then decOpImm r
  else if r.op = 0x17 then .ok (.standardAlu (.auipc r.d (r.imm ++ (r.a ++ r.f3))))
  else if r.op = 0x1b then decOpImm32 r
  else if r.op = 0x23 then
    if r.f3 = 0 then st .sb else if r.f3 = 1 then st .sh else if r.f3 = 2 then st .sw else if r.f3 = 3 then st .sd
    else .illegal
  else if r.op = 0x27 then
    if r.f3 = 1 then st .fsh else if r.f3 = 2 then st .fsw else if r.f3 = 3 then st .fsd else decVectorMem r false
  else if r.op = 0x2f then decStdAmo r
  else if r.op = 0x33 then .opt ((aluRR r.f7 r.f3).map fun o => .standardAlu (.rr o r.d r.a r.b))
  else if r.op = 0x37 then .ok (.standardAlu (.lui r.d (r.imm ++ (r.a ++ r.f3))))
  else if r.op = 0x3b then
    if r.f7 = 0x04 && r.f3 = 4 then .guard (r.b = 0) (.standardAlu (.un .zextH r.d r.a))
    else .opt ((aluRRW r.f7 r.f3).map fun o => .standardAlu (.rr o r.d r.a r.b))
  else if r.op = 0x43 then decFma .madd r
  else if r.op = 0x47 then decFma .msub r
  else if r.op = 0x4b then decFma .nmsub r
  else if r.op = 0x4f then decFma .nmadd r
  else if r.op = 0x53 then decOpFp r
  else if r.op = 0x57 then decVector r
  else if r.op = 0x63 then
    match r.f3 with
    | 0 => br .eq | 1 => br .ne | 4 => br .lt | 5 => br .ge | 6 => br .ltu | 7 => br .geu
    | 2 => .illegal | 3 => .illegal
  else if r.op = 0x67 then
    if r.f3 = 0 then .ok (.branchJump (.jalr r.d r.a r.imm)) else .illegal
  else if r.op = 0x6f then .ok (.branchJump (.jal r.d r.jImm))
  else if r.op = 0x73 then decSystem r
  else .illegal

/-- A 32-bit word. -/
def decodeR (r : RWord) : Decoded :=
  if r.op = 0x0b then decCustom0 r
  else if r.op = 0x2b then decCustom1 r
  else if r.op = 0x5b then decCustom2 r
  else if r.op = 0x7b then decCustom3 r
  else decStandard r

/-- A 32-bit word. -/
def decode32 (w : BitVec 32) : Decoded := decodeR (RWord.split w)

/-! ### 48-bit literal form (Tables 2.7 and 2.8) -/

/-- A 48-bit word. -/
def decode48 (w : BitVec 48) : Decoded :=
  let lit := w.extractLsb' 16 32
  let d := w.extractLsb' 7 5
  if w.extractLsb' 0 7 ≠ 0x1f then .illegal
  else
    match w.extractLsb' 12 4 with
    | 0 => .ok (.fxLi d lit)
    | 1 => .ok (.fxLiu d lit)
    | 2 => .ok (.fxLih d lit)
    | 3 => .ok (.fxAddl d lit)
    | 4 => .ok (.fxAndl d lit)
    | 5 => .ok (.fxOrl d lit)
    | 6 => .ok (.fxXorl d lit)
    | 7 => .ok (.fxAuipcl d lit)
    | 8 => .ok (.fxLis d lit)
    | 9 => .ok (.fxLid d lit)
    | _ => .illegal

/-! ### 64-bit wide form (Table 2.9) -/

/-- The fields of the wide layout. -/
structure WWord where
  f6 : BitVec 6
  cf : BitVec 26
  fc : BitVec 2
  c : Reg
  b : Reg
  a : Reg
  cls : BitVec 3
  d : Reg
  op : BitVec 7
  deriving DecidableEq, Repr

/-- The word with these fields. -/
def WWord.pack (r : WWord) : BitVec 64 := r.f6 ++ r.cf ++ r.fc ++ r.c ++ r.b ++ r.a ++ r.cls ++ r.d ++ r.op

/-- The fields of a word. -/
def WWord.split (w : BitVec 64) : WWord :=
  { f6 := w.extractLsb' 58 6, cf := w.extractLsb' 32 26, fc := w.extractLsb' 30 2, c := w.extractLsb' 25 5,
    b := w.extractLsb' 20 5, a := w.extractLsb' 15 5, cls := w.extractLsb' 12 3, d := w.extractLsb' 7 5,
    op := w.extractLsb' 0 7 }

/-- Class field [57:53], a register. -/
def WWord.x (r : WWord) : Reg := r.cf.extractLsb' 21 5

/-- Copy format codes (Table 9.5). -/
def cfmtOf (c : BitVec 4) : Option CFmt :=
  if c = 0 then some (.elt .e4m3) else if c = 1 then some (.elt .e5m2) else if c = 2 then some (.elt .e3m2)
  else if c = 3 then some (.elt .e2m3) else if c = 4 then some (.elt .e2m1) else if c = 5 then some (.elt .i8)
  else if c = 6 then some (.elt .i4) else if c = 8 then some .bf16 else if c = 9 then some .f32 else none

/-- Code of a copy format. -/
def cfmtCode : CFmt → BitVec 4
  | .elt .e4m3 => 0 | .elt .e5m2 => 1 | .elt .e3m2 => 2 | .elt .e2m3 => 3 | .elt .e2m1 => 4 | .elt .i8 => 5
  | .elt .i4 => 6 | .bf16 => 8 | .f32 => 9

/-- Source and destination formats, [47:44] and [43:40]. -/
def WWord.fmts (r : WWord) : Option (CFmt × CFmt) :=
  match cfmtOf (r.cf.extractLsb' 12 4), cfmtOf (r.cf.extractLsb' 8 4) with
  | some s, some t => some (s, t)
  | _, _ => none

/-- Form of a transfer (R240 to R242). -/
def WWord.copyForm (r : WWord) : Option CopyForm :=
  if r.fc = 0 then if r.cf = 0 then some .plain else none
  else
    match r.fmts with
    | none => none
    | some (s, t) =>
      if r.fc = 1 then
        let g := r.cf.extractLsb' 0 8
        if r.cf.extractLsb' 16 10 = 0 && CopyForm.wf (.conv s t g) then some (.conv s t g) else none
      else if r.fc = 2 then
        if r.cf.extractLsb' 16 5 = 0 && r.cf.extractLsb' 0 8 = 0 && CopyForm.wf (.mx s t r.x) then some (.mx s t r.x)
        else none
      else none

/-- Form of a gather or scatter. -/
def WWord.rowForm (r : WWord) : Option RowForm :=
  if r.fc = 0 then if r.cf.extractLsb' 0 16 = 0 then some .plain else none
  else
    match r.fmts with
    | none => none
    | some (s, t) =>
      let g := r.cf.extractLsb' 0 8
      if r.fc = 1 && RowForm.wf (.conv s t g) then some (.conv s t g) else none

/-- Class 0b000, copy transfers (Table 9.3). -/
def decCopy (r : WWord) : Decoded :=
  if r.f6 = 0 then .opt (r.copyForm.map (.copyGs · r.d r.a r.b r.c))
  else if r.f6 = 1 then .opt (r.copyForm.map (.copySg · r.d r.a r.b r.c))
  else if r.f6 = 2 then .opt (r.copyForm.map (.copyGg · r.d r.a r.b r.c))
  else if r.f6 = 3 then .opt (r.copyForm.map (.copySs · r.d r.a r.b r.c))
  else if r.f6 = 4 then .opt (r.rowForm.map (.copyGath · r.d r.a r.b r.c r.x (r.cf.extractLsb' 16 5)))
  else if r.f6 = 5 then .opt (r.rowForm.map (.copyScat · r.d r.a r.b r.c r.x (r.cf.extractLsb' 16 5)))
  else if r.f6 = 6 then
    if r.cf ≠ 0 then .illegal
    else if r.fc = 0 then .ok (.copyFillS r.d r.a r.b r.c)
    else if r.fc = 1 then .ok (.copyFillG r.d r.a r.b r.c)
    else .illegal
  else .illegal

/-- Class 0b001, copy control. -/
def decCopyCtl (r : WWord) : Decoded :=
  let z : Bool := r.cf = 0 && r.fc = 0 && r.c = 0 && r.b = 0
  if r.f6 = 0 then .guard (z && r.a = 0) (.cpSeal r.d)
  else if r.f6 = 1 then .guard z (.cpWait r.d r.a)
  else if r.f6 = 2 then .guard (z && r.a = 0) (.cpStop r.d)
  else .illegal

/-- Matrix format from the format code. -/
def mxFmtOf (c : BitVec 2) : Option MxFmt :=
  match c with
  | 0 => some .bf16 | 1 => some .f32 | 2 => some .f64 | 3 => none

/-- Format code. -/
def mxFmtCode : MxFmt → BitVec 2
  | .bf16 => 0 | .f32 => 1 | .f64 => 2

/-- Tile dimension codes (Table 10.4). -/
def dimOf (c : BitVec 2) : Dim :=
  match c with
  | 0 => .d16 | 1 => .d32 | 2 => .d64 | 3 => .d128

/-- Code of a tile dimension. -/
def dimCode : Dim → BitVec 2
  | .d16 => 0 | .d32 => 1 | .d64 => 2 | .d128 => 3

/-- Operands of a matrix form (Table 10.4, R267). -/
def WWord.mxArgs (r : WWord) : Option MxArgs :=
  match mxFmtOf r.fc with
  | none => none
  | some f =>
    let x : MxArgs :=
      { fmt := f, z := r.cf.extractLsb' 12 1 = 1, m := dimOf (r.cf.extractLsb' 15 2), n := dimOf (r.cf.extractLsb' 13 2),
        cv := r.cf.extractLsb' 17 4, rd := r.d, a := r.a, b := r.b, p := r.c, x := r.x }
    if r.cf.extractLsb' 0 12 = 0 && x.wf then some x else none

/-- Class 0b010, matrix operations. -/
def decMatrix (r : WWord) : Decoded :=
  if r.f6 = 0 then .opt (r.mxArgs.map .mxMma)
  else if r.f6 = 1 then .opt (r.mxArgs.map .mxGmma)
  else if r.f6 = 2 then .opt (r.mxArgs.map .mxPmma)
  else .illegal

/-- Class 0b011, matrix control and drains (Tables 10.3 and 11.3). -/
def decMatrixCtl (r : WWord) : Decoded :=
  if r.fc ≠ 0 then .illegal
  else if r.f6.extractLsb' 4 2 = 1 then
    let x : DrnArgs :=
      { prog := r.f6.extractLsb' 0 2, cv := r.cf.extractLsb' 17 4, h1 := r.cf.extractLsb' 12 5,
        w := dimOf (r.cf.extractLsb' 10 2), rd := r.d, acc := r.a, b0 := r.b, b1 := r.c, x := r.x }
    if r.cf.extractLsb' 0 10 ≠ 0 then .illegal
    else if r.f6.extractLsb' 2 2 = 0 then .ok (.mxDrn x)
    else if r.f6.extractLsb' 2 2 = 1 then .ok (.mxDrnZ x)
    else .illegal
  else
    let n := r.cf.extractLsb' 17 4
    if r.cf.extractLsb' 21 5 ≠ 0 || r.cf.extractLsb' 0 17 ≠ 0 then .illegal
    else if r.f6 = 0 then .guard (r.b = 0 && r.c = 0) (.mxTake r.d r.a n)
    else if r.f6 = 1 then .guard (r.c = 0) (.mxPass r.d r.a r.b n)
    else if r.f6 = 2 then .ok (.mxTakeTk r.d r.a r.b r.c n)
    else if r.f6 = 3 then .guard (r.b = 0 && r.c = 0) (.mxPassTk r.d r.a n)
    else .illegal

/-- Class 0b100, accumulators. -/
def decAcc (r : WWord) : Decoded :=
  let z : Bool := r.cf = 0 && r.fc = 0 && r.c = 0
  if r.f6 = 0 then .guard z (.amGet r.d r.a r.b)
  else if r.f6 = 1 then .guard z (.amRel r.d r.a r.b)
  else if r.f6 = 2 then .guard (z && r.d = 0) (.amZero r.a r.b)
  else if r.f6 = 3 then .guard (z && r.b = 0) (.amRd r.d r.a)
  else .illegal

/-- Class 0b101, epilogue control. -/
def decEpilogue (r : WWord) : Decoded :=
  if r.f6 = 0 then .guard (r.cf = 0 && r.fc = 0 && r.c = 0) (.epLoad r.d r.a r.b)
  else if r.f6 = 1 then .guard (r.cf.extractLsb' 0 21 = 0 && r.fc = 0) (.epRun r.d r.a r.b r.c r.x)
  else .illegal

/-- A wide word, by class (Table 2.10). -/
def decodeW (r : WWord) : Decoded :=
  if r.op ≠ 0x3f then .illegal
  else
    match r.cls with
    | 0 => decCopy r
    | 1 => decCopyCtl r
    | 2 => decMatrix r
    | 3 => decMatrixCtl r
    | 4 => decAcc r
    | 5 => decEpilogue r
    | 6 => .illegal
    | 7 => .illegal

/-- A 64-bit word. -/
def decode64 (w : BitVec 64) : Decoded := decodeW (WWord.split w)

/-! ### 16-bit parcels (C, Zcmop, and Zcb on an L-core; log 17) -/

/-- x8 to x15. -/
def creg (c : BitVec 3) : Reg := (1 : BitVec 2) ++ c

/-- The standard instruction `addi`. -/
def iAddi (d a : Reg) (imm : BitVec 12) : Instr := .standardAlu (.ri .addi d a imm)

/-- Quadrant 0. -/
def decC0 (p : BitVec 16) : Decoded :=
  let d := creg (p.extractLsb' 2 3)
  let a := creg (p.extractLsb' 7 3)
  let w4 : BitVec 12 :=
    (0 : BitVec 5) ++ p.extractLsb' 5 1 ++ p.extractLsb' 10 3 ++ p.extractLsb' 6 1 ++ (0 : BitVec 2)
  let w8 : BitVec 12 := (0 : BitVec 4) ++ p.extractLsb' 5 2 ++ p.extractLsb' 10 3 ++ (0 : BitVec 3)
  let u2 : BitVec 12 := (0 : BitVec 10) ++ p.extractLsb' 5 1 ++ p.extractLsb' 6 1
  let u1 : BitVec 12 := (0 : BitVec 10) ++ p.extractLsb' 5 1 ++ (0 : BitVec 1)
  match p.extractLsb' 13 3 with
  | 0 =>
    let imm : BitVec 12 := (0 : BitVec 2) ++ p.extractLsb' 7 4 ++ p.extractLsb' 11 2 ++ p.extractLsb' 5 1
      ++ p.extractLsb' 6 1 ++ (0 : BitVec 2)
    .guard (imm ≠ 0) (iAddi d 2 imm)
  | 1 => .ok (.load .fld d a w8)
  | 2 => .ok (.load .lw d a w4)
  | 3 => .ok (.load .ld d a w8)
  | 4 =>
    if p.extractLsb' 10 3 = 0 then .lcore (.same (.load .lbu d a u2))
    else if p.extractLsb' 10 3 = 1 then
      .lcore (.same (.load (if p.extractLsb' 6 1 = 0 then .lhu else .lh) d a u1))
    else if p.extractLsb' 10 3 = 2 then .lcore (.same (.store .sb a d u2))
    else if p.extractLsb' 10 3 = 3 && p.extractLsb' 6 1 = 0 then .lcore (.same (.store .sh a d u1))
    else .illegal
  | 5 => .ok (.store .fsd a d w8)
  | 6 => .ok (.store .sw a d w4)
  | 7 => .ok (.store .sd a d w8)

/-- The arithmetic group of quadrant 1. -/
def decC1Alu (p : BitVec 16) (imm6 : BitVec 6) : Decoded :=
  let d := creg (p.extractLsb' 7 3)
  let b := creg (p.extractLsb' 2 3)
  let rr (o : AluOp) : Decoded := .ok (.standardAlu (.rr o d d b))
  let un (o : AluUn) : Decoded := .lcore (.same (.standardAlu (.un o d d)))
  match p.extractLsb' 10 2 with
  | 0 => .ok (.standardAlu (.ri .srli d d ((0 : BitVec 6) ++ imm6)))
  | 1 => .ok (.standardAlu (.ri .srai d d ((0 : BitVec 6) ++ imm6)))
  | 2 => .ok (.standardAlu (.ri .andi d d (imm6.signExtend 12)))
  | 3 =>
    if p.extractLsb' 12 1 = 0 then
      match p.extractLsb' 5 2 with
      | 0 => rr .sub
      | 1 => rr .xor
      | 2 => rr .or
      | 3 => rr .and
    else
      match p.extractLsb' 5 2 with
      | 0 => rr .subw
      | 1 => rr .addw
      | 2 => .lcore (.same (.standardAlu (.rr .mul d d b)))
      | 3 =>
        match p.extractLsb' 2 3 with
        | 0 => .lcore (.same (.standardAlu (.ri .andi d d 0x0ff)))
        | 1 => un .sextB
        | 2 => un .zextH
        | 3 => un .sextH
        | 4 => .lcore (.same (.standardAlu (.rr .addUw d d 0)))
        | 5 => .lcore (.same (.standardAlu (.ri .xori d d 0xfff)))
        | 6 => .illegal
        | 7 => .illegal

/-- Quadrant 1. -/
def decC1 (p : BitVec 16) : Decoded :=
  let r : Reg := p.extractLsb' 7 5
  let imm6 : BitVec 6 := p.extractLsb' 12 1 ++ p.extractLsb' 2 5
  let off : BitVec 13 := (p.extractLsb' 12 1 ++ p.extractLsb' 5 2 ++ p.extractLsb' 2 1 ++ p.extractLsb' 10 2
    ++ p.extractLsb' 3 2 ++ (0 : BitVec 1) : BitVec 9).signExtend 13
  match p.extractLsb' 13 3 with
  | 0 => .ok (iAddi r r (imm6.signExtend 12))
  | 1 => .guard (r ≠ 0) (.standardAlu (.ri .addiw r r (imm6.signExtend 12)))
  | 2 => .ok (iAddi r 0 (imm6.signExtend 12))
  | 3 =>
    if r = 2 then
      let i : BitVec 10 := p.extractLsb' 12 1 ++ p.extractLsb' 3 2 ++ p.extractLsb' 5 1 ++ p.extractLsb' 2 1
        ++ p.extractLsb' 6 1 ++ (0 : BitVec 4)
      .guard (i ≠ 0) (iAddi 2 2 (i.signExtend 12))
    else if imm6 = 0 then
      .guard (r.extractLsb' 4 1 = 0 && r.extractLsb' 0 1 = 1) (.standardAlu (.cmop (r.extractLsb' 1 3)))
    else .ok (.standardAlu (.lui r (imm6.signExtend 20)))
  | 4 => decC1Alu p imm6
  | 5 =>
    let j : BitVec 12 := p.extractLsb' 12 1 ++ p.extractLsb' 8 1 ++ p.extractLsb' 9 2 ++ p.extractLsb' 6 1
      ++ p.extractLsb' 7 1 ++ p.extractLsb' 2 1 ++ p.extractLsb' 11 1 ++ p.extractLsb' 3 3 ++ (0 : BitVec 1)
    .ok (.branchJump (.jal 0 (j.signExtend 21)))
  | 6 => .ok (.branchJump (.br .eq (creg (p.extractLsb' 7 3)) 0 off))
  | 7 => .ok (.branchJump (.br .ne (creg (p.extractLsb' 7 3)) 0 off))

/-- Quadrant 2. -/
def decC2 (p : BitVec 16) : Decoded :=
  let r : Reg := p.extractLsb' 7 5
  let b : Reg := p.extractLsb' 2 5
  let imm6 : BitVec 6 := p.extractLsb' 12 1 ++ b
  let l8 : BitVec 12 :=
    (0 : BitVec 3) ++ p.extractLsb' 2 3 ++ p.extractLsb' 12 1 ++ p.extractLsb' 5 2 ++ (0 : BitVec 3)
  let l4 : BitVec 12 :=
    (0 : BitVec 4) ++ p.extractLsb' 2 2 ++ p.extractLsb' 12 1 ++ p.extractLsb' 4 3 ++ (0 : BitVec 2)
  let s8 : BitVec 12 := (0 : BitVec 3) ++ p.extractLsb' 7 3 ++ p.extractLsb' 10 3 ++ (0 : BitVec 3)
  let s4 : BitVec 12 := (0 : BitVec 4) ++ p.extractLsb' 7 2 ++ p.extractLsb' 9 4 ++ (0 : BitVec 2)
  match p.extractLsb' 13 3 with
  | 0 => .ok (.standardAlu (.ri .slli r r ((0 : BitVec 6) ++ imm6)))
  | 1 => .ok (.load .fld r 2 l8)
  | 2 => .guard (r ≠ 0) (.load .lw r 2 l4)
  | 3 => .guard (r ≠ 0) (.load .ld r 2 l8)
  | 4 =>
    if p.extractLsb' 12 1 = 0 then
      if b ≠ 0 then .ok (.standardAlu (.rr .add r 0 b))
      else .guard (r ≠ 0) (.branchJump (.jalr 0 r 0))
    else if b ≠ 0 then .ok (.standardAlu (.rr .add r r b))
    else if r = 0 then .ok .ebreak
    else .ok (.branchJump (.jalr 1 r 0))
  | 5 => .ok (.store .fsd 2 b s8)
  | 6 => .ok (.store .sw 2 b s4)
  | 7 => .ok (.store .sd 2 b s8)

/-- A 16-bit parcel. -/
def decode16 (p : BitVec 16) : Decoded :=
  match p.extractLsb' 0 2 with
  | 0 => decC0 p
  | 1 => decC1 p
  | 2 => decC2 p
  | 3 => .illegal

/-! ### The whole decoder -/

/-- The instruction of a parcel stream; a missing parcel reads as zero. -/
def decode (ps : List (BitVec 16)) : Decoded :=
  let g (k : Nat) : BitVec 16 := ps.getD k 0
  match parcelLen (g 0) with
  | 2 => decode16 (g 0)
  | 4 => decode32 (g 1 ++ g 0)
  | 6 => decode48 (g 2 ++ (g 1 ++ g 0))
  | 8 => decode64 (g 3 ++ (g 2 ++ (g 1 ++ g 0)))
  | _ => .illegal

/-- Whether an L-core implements the instruction (Table 2.1 and R27). -/
def Instr.onL : Instr → Bool
  | .fxLi _ _ | .fxLiu _ _ | .fxLih _ _ | .fxAddl _ _ | .fxAndl _ _ | .fxOrl _ _ | .fxXorl _ _ | .fxAuipcl _ _
  | .fxLis _ _ | .fxLid _ _ | .mgGo _ _ | .fnScoped _ _ _ | .fnNc
  | .amoOp _ _ _ _ _ _ _ | .amoCas _ _ _ _ _ _ | .amoLd _ _ _ _ _ | .amoSt _ _ _ _ _ | .amoDraw _ _ _ _ _
  | .amoTick _ _ _ _ | .red _ _ _ _ _
  | .load _ _ _ _ | .store _ _ _ _ | .standardAlu _ | .standardFp _ | .branchJump _ | .fence _ _ _ | .fenceI
  | .wrsNto | .wrsSto | .lr _ _ _ _ _ | .sc _ _ _ _ _ _ | .standardAmo _ _ _ _ _ _ _ | .amocas _ _ _ _ _ _
  | .ecall | .ebreak | .wfi | .sret | .sfenceVma _ _ | .csrAccess _ _ _ _ _ => true
  | _ => false

/-- The parcels of a number, first parcel lowest. -/
def parcelsOf (w : Nat) : List (BitVec 16) :=
  [BitVec.ofNat 16 w, BitVec.ofNat 16 (w / 65536), BitVec.ofNat 16 (w / 4294967296),
   BitVec.ofNat 16 (w / 281474976710656)]

/-- The instruction read from a word numbered as the opcode table numbers it. -/
def decodeTableWord (nbits w : Nat) : Option Instr :=
  match decode (parcelsOf (w % 2 ^ nbits)) with
  | .ok i => some i
  | .lcore _ => none
  | .mret => none
  | .illegal => none

/-! ### The encoder, from the same tables -/

/-- A word of the layout R. -/
def encR (op f7 : BitVec 7) (f3 : BitVec 3) (d a b : Reg) : RWord := { f7, b, a, f3, d, op }

/-- A word of the standard layout I. -/
def encI (op : BitVec 7) (f3 : BitVec 3) (d a : Reg) (imm : BitVec 12) : RWord :=
  { f7 := imm.extractLsb' 5 7, b := imm.extractLsb' 0 5, a, f3, d, op }

/-- A word of the Esrun layout I. -/
def encI9 (op : BitVec 7) (f3 sub : BitVec 3) (d a : Reg) (i : BitVec 9) : RWord :=
  { f7 := sub ++ i.extractLsb' 5 4, b := i.extractLsb' 0 5, a, f3, d, op }

/-- A word of the Esrun layout S. -/
def encS9 (op : BitVec 7) (f3 sub : BitVec 3) (a b : Reg) (i : BitVec 9) : RWord :=
  { f7 := sub ++ i.extractLsb' 5 4, b, a, f3, d := i.extractLsb' 0 5, op }

/-- A lane-group word. -/
def encG (g : BitVec 3) (d a b : Reg) (n : BitVec 4) : RWord := encR 0x2b (g ++ n) 0 d a b

/-- An atomics word. -/
def encAmo (op : Reg) (t : ITy) (s : Scope) (aq rl : Bool) (d a : Reg) : RWord :=
  encR 0x5b (BitVec.ofBool aq ++ BitVec.ofBool rl ++ scopeCode s ++ ityCode t) 6 d a op

/-- A word of the standard AMO opcode. -/
def encStdAmo (k : BitVec 5) (f3 : BitVec 3) (aq rl : Bool) (d a b : Reg) : RWord :=
  encR 0x2f (k ++ BitVec.ofBool aq ++ BitVec.ofBool rl) f3 d a b

/-- Code of a standard AMO. -/
def stdAmoCode : StdAmo → BitVec 5
  | .swap => 0x01 | .add => 0x00 | .xor => 0x04 | .and => 0x0c | .or => 0x08
  | .min => 0x10 | .max => 0x14 | .minu => 0x18 | .maxu => 0x1c

/-- A shift immediate under a 6-bit code. -/
def encShift (op : BitVec 7) (f3 : BitVec 3) (hi : BitVec 6) (d a : Reg) (imm : BitVec 12) : RWord :=
  encI op f3 d a (hi ++ imm.extractLsb' 0 6)

/-- Immediate forms. -/
def encAluImm (op : AluImm) (d a : Reg) (imm : BitVec 12) : RWord :=
  match op with
  | .addi => encI 0x13 0 d a imm
  | .slti => encI 0x13 2 d a imm
  | .sltiu => encI 0x13 3 d a imm
  | .xori => encI 0x13 4 d a imm
  | .ori => encI 0x13 6 d a imm
  | .andi => encI 0x13 7 d a imm
  | .slli => encShift 0x13 1 0x00 d a imm
  | .bclri => encShift 0x13 1 0x12 d a imm
  | .binvi => encShift 0x13 1 0x1a d a imm
  | .bseti => encShift 0x13 1 0x0a d a imm
  | .srli => encShift 0x13 5 0x00 d a imm
  | .srai => encShift 0x13 5 0x10 d a imm
  | .rori => encShift 0x13 5 0x18 d a imm
  | .bexti => encShift 0x13 5 0x12 d a imm
  | .addiw => encI 0x1b 0 d a imm
  | .slliUw => encShift 0x1b 1 0x02 d a imm
  | .slliw => encR 0x1b 0x00 1 d a (imm.extractLsb' 0 5)
  | .srliw => encR 0x1b 0x00 5 d a (imm.extractLsb' 0 5)
  | .sraiw => encR 0x1b 0x20 5 d a (imm.extractLsb' 0 5)
  | .roriw => encR 0x1b 0x30 5 d a (imm.extractLsb' 0 5)

/-- One-operand forms. -/
def encAluUn (op : AluUn) (d a : Reg) : RWord :=
  match op with
  | .clz => encI 0x13 1 d a 0x600
  | .ctz => encI 0x13 1 d a 0x601
  | .cpop => encI 0x13 1 d a 0x602
  | .sextB => encI 0x13 1 d a 0x604
  | .sextH => encI 0x13 1 d a 0x605
  | .clzw => encI 0x1b 1 d a 0x600
  | .ctzw => encI 0x1b 1 d a 0x601
  | .cpopw => encI 0x1b 1 d a 0x602
  | .orcB => encI 0x13 5 d a 0x287
  | .rev8 => encI 0x13 5 d a 0x6b8
  | .zextH => encR 0x3b 0x04 4 d a 0

/-- Upper-immediate forms. -/
def encU (op : BitVec 7) (d : Reg) (imm : BitVec 20) : RWord :=
  { f7 := imm.extractLsb' 13 7, b := imm.extractLsb' 8 5, a := imm.extractLsb' 3 5, f3 := imm.extractLsb' 0 3, d, op }

/-- Integer forms. `cmop` has a compressed encoding only; this word is its 16-bit parcel (`encode`). -/
def encAlu : AluForm → RWord
  | .rr op d a b => encR (aluCode op).1 (aluCode op).2.1 (aluCode op).2.2 d a b
  | .ri op d a imm => encAluImm op d a imm
  | .un op d a => encAluUn op d a
  | .lui d imm => encU 0x37 d imm
  | .auipc d imm => encU 0x17 d imm
  | .mopr n d a =>
    encR 0x73 ((1 : BitVec 1) ++ n.extractLsb' 4 1 ++ (0 : BitVec 2) ++ n.extractLsb' 2 2 ++ (0 : BitVec 1)) 4 d a
      ((7 : BitVec 3) ++ n.extractLsb' 0 2)
  | .moprr n d a b =>
    encR 0x73 ((1 : BitVec 1) ++ n.extractLsb' 2 1 ++ (0 : BitVec 2) ++ n.extractLsb' 0 2 ++ (1 : BitVec 1)) 4 d a b
  | .cmop _ => encI 0x13 0 0 0 0

/-- funct5 of the arithmetic forms. -/
def fpBinCode : FpBin → BitVec 5
  | .add => 0 | .sub => 1 | .mul => 2 | .div => 3

/-- funct7 and rs2 of the format conversions. -/
def fpCvtCode : FpCvt → BitVec 7 × Reg
  | .sd => (0x20, 1) | .ds => (0x21, 0) | .sh => (0x20, 2) | .hs => (0x22, 0) | .dh => (0x21, 2) | .hd => (0x22, 1)
  | .sbf => (0x20, 6) | .bfs => (0x22, 8)

/-- Floating-point forms. -/
def encFp : FpForm → RWord
  | .bin op p rm d a b => encR 0x53 (fpBinCode op ++ precCode p) rm d a b
  | .sqrt p rm d a => encR 0x53 ((0x0b : BitVec 5) ++ precCode p) rm d a 0
  | .fma op p rm d a b c =>
    encR (match op with | .madd => 0x43 | .msub => 0x47 | .nmsub => 0x4b | .nmadd => 0x4f) (c ++ precCode p) rm d a b
  | .sgnj op p d a b =>
    encR 0x53 ((0x04 : BitVec 5) ++ precCode p) (match op with | .j => 0 | .jn => 1 | .jx => 2) d a b
  | .minmax m p d a b => encR 0x53 ((0x05 : BitVec 5) ++ precCode p) (if m then 1 else 0) d a b
  | .cmp op p d a b =>
    encR 0x53 ((0x14 : BitVec 5) ++ precCode p) (match op with | .le => 0 | .lt => 1 | .eq => 2) d a b
  | .cls p d a => encR 0x53 ((0x1c : BitVec 5) ++ precCode p) 1 d a 0
  | .toInt t p rm d a => encR 0x53 ((0x18 : BitVec 5) ++ precCode p) rm d a (fpIntCode t)
  | .ofInt t p rm d a => encR 0x53 ((0x1a : BitVec 5) ++ precCode p) rm d a (fpIntCode t)
  | .cvt k rm d a => encR 0x53 (fpCvtCode k).1 rm d a (fpCvtCode k).2
  | .mv k d a =>
    encR 0x53 (match k with | .xh => 0x72 | .hx => 0x7a | .xw => 0x70 | .wx => 0x78 | .xd => 0x71 | .dx => 0x79) 0 d a 0

/-- Branches and jumps. -/
def encBranch : BranchForm → RWord
  | .br c a b off =>
    { f7 := off.extractLsb' 12 1 ++ off.extractLsb' 5 6, b, a
      f3 := match c with | .eq => 0 | .ne => 1 | .lt => 4 | .ge => 5 | .ltu => 6 | .geu => 7
      d := off.extractLsb' 1 4 ++ off.extractLsb' 11 1, op := 0x63 }
  | .jal d off =>
    { f7 := off.extractLsb' 20 1 ++ off.extractLsb' 5 6, b := off.extractLsb' 1 4 ++ off.extractLsb' 11 1
      a := off.extractLsb' 15 5, f3 := off.extractLsb' 12 3, d, op := 0x6f }
  | .jalr d a imm => encI 0x67 0 d a imm

/-- Opcode and funct3 of the standard loads. -/
def loadCode : LoadKind → BitVec 7 × BitVec 3
  | .lb => (0x03, 0) | .lh => (0x03, 1) | .lw => (0x03, 2) | .ld => (0x03, 3) | .lbu => (0x03, 4) | .lhu => (0x03, 5)
  | .lwu => (0x03, 6) | .flh => (0x07, 1) | .flw => (0x07, 2) | .fld => (0x07, 3)

/-- Opcode and funct3 of the standard stores. -/
def storeCode : StoreKind → BitVec 7 × BitVec 3
  | .sb => (0x23, 0) | .sh => (0x23, 1) | .sw => (0x23, 2) | .sd => (0x23, 3)
  | .fsh => (0x27, 1) | .fsw => (0x27, 2) | .fsd => (0x27, 3)

/-- The 32-bit word of an instruction, or `none` for another length or a step of the hardware. -/
def encode32 : Instr → Option RWord
  | .mgGo d a => some (encR 0x0b 0x00 0 d a 0)
  | .mgHome => some (encR 0x0b 0x01 0 0 0 0)
  | .fkFlt d a b => some (encR 0x0b 0x10 0 d a b)
  | .fkJoin d a => some (encR 0x0b 0x11 0 d a 0)
  | .fkJoinTry d a => some (encR 0x0b 0x12 0 d a 0)
  | .fkStop d a => some (encR 0x0b 0x14 0 d a 0)
  | .fkStopPre d a => some (encR 0x0b 0x15 0 d a 0)
  | .fkStopRsm d a => some (encR 0x0b 0x16 0 d a 0)
  | .fkQry d a b => some (encR 0x0b 0x18 0 d a b)
  | .thParkMem d a b => some (encR 0x0b 0x20 0 d a b)
  | .thParkBat d a => some (encR 0x0b 0x21 0 d a 0)
  | .thParkTm d a => some (encR 0x0b 0x22 0 d a 0)
  | .thYield => some (encR 0x0b 0x28 0 0 0 0)
  | .thPause i => some (encI9 0x0b 1 0 0 0 i)
  | .cvJoin d n => some (encR 0x0b 0x00 2 d 0 ((0 : BitVec 1) ++ n))
  | .cvJoinCrew d n => some (encR 0x0b 0x01 2 d 0 ((0 : BitVec 1) ++ n))
  | .cvQuit d n => some (encR 0x0b 0x02 2 d 0 ((0 : BitVec 1) ++ n))
  | .cvBar d n => some (encR 0x0b 0x10 2 d 0 ((0 : BitVec 1) ++ n))
  | .cvBarRx d n => some (encR 0x0b 0x11 2 d 0 ((0 : BitVec 1) ++ n))
  | .cvArv d n => some (encR 0x0b 0x12 2 d 0 ((0 : BitVec 1) ++ n))
  | .cvArvRx d n => some (encR 0x0b 0x13 2 d 0 ((0 : BitVec 1) ++ n))
  | .cvWt d a n => some (encR 0x0b 0x14 2 d a ((0 : BitVec 1) ++ n))
  | .cvWtTry d a n => some (encR 0x0b 0x15 2 d a ((0 : BitVec 1) ++ n))
  | .cvQry d a n => some (encR 0x0b 0x20 2 d a ((0 : BitVec 1) ++ n))
  | .gpShflIdx d a b n => some (encG 0 d a b n)
  | .gpShflXor d a b n => some (encG 1 d a b n)
  | .gpShflUp d a b n => some (encG 2 d a b n)
  | .gpShflDn d a b n => some (encG 3 d a b n)
  | .gpBcst d a b n => some (encG 4 d a b n)
  | .gpAll d a n => some (encG 6 d a 0 n)
  | .gpAny d a n => some (encG 6 d a 1 n)
  | .gpUni d a n => some (encG 6 d a 2 n)
  | .gpBlt d a n => some (encG 6 d a 3 n)
  | .gpPcnt d a n => some (encG 6 d a 4 n)
  | .gpMtchLdr d a n => some (encG 6 d a 5 n)
  | .gpMtchCnt d a n => some (encG 6 d a 6 n)
  | .gpRed o d a n => some (encG 6 d a ((1 : BitVec 2) ++ gopCode o) n)
  | .gpScan o d a n => some (encG 6 d a ((2 : BitVec 2) ++ gopCode o) n)
  | .gpXscan o d a n => some (encG 6 d a ((3 : BitVec 2) ++ gopCode o) n)
  | .gpRedAddF p d a n => some (encG 7 d a ((0 : BitVec 4) ++ BitVec.ofBool (p = .d)) n)
  | .gpRedMinF p d a n => some (encG 7 d a ((1 : BitVec 4) ++ BitVec.ofBool (p = .d)) n)
  | .gpRedMaxF p d a n => some (encG 7 d a ((2 : BitVec 4) ++ BitVec.ofBool (p = .d)) n)
  | .gpScanAddF p d a n => some (encG 7 d a ((4 : BitVec 4) ++ BitVec.ofBool (p = .d)) n)
  | .gpXscanAddF p d a n => some (encG 7 d a ((6 : BitVec 4) ++ BitVec.ofBool (p = .d)) n)
  | .fxAdds t d a b => some (encR 0x2b ((0 : BitVec 5) ++ styCode t) 1 d a b)
  | .fxSubs t d a b => some (encR 0x2b ((1 : BitVec 5) ++ styCode t) 1 d a b)
  | .fxDot v d a b => some (encR 0x2b ((4 : BitVec 5) ++ dotCode v) 1 d a b)
  | .fxCvtBf16F64 d a => some (encR 0x2b 0x00 2 d a 0)
  | .fxCvtF64Bf16 d a => some (encR 0x2b 0x01 2 d a 0)
  | .fxCvtBf16F16 d a => some (encR 0x2b 0x02 2 d a 0)
  | .fxCvtF16Bf16 d a => some (encR 0x2b 0x03 2 d a 0)
  | .fxPkBf16 d a b => some (encR 0x2b 0x10 2 d a b)
  | .fxUpkLo d a => some (encR 0x2b 0x11 2 d a 0)
  | .fxUpkHi d a => some (encR 0x2b 0x12 2 d a 0)
  | .fxPaddBf16 d a b => some (encR 0x2b 0x14 2 d a b)
  | .fxPsubBf16 d a b => some (encR 0x2b 0x15 2 d a b)
  | .fxPmulBf16 d a b => some (encR 0x2b 0x16 2 d a b)
  | .fxPfmaBf16 d a b => some (encR 0x2b 0x17 2 d a b)
  | .fxPdotF32Bf16 d a b => some (encR 0x2b 0x18 2 d a b)
  | .fxXp f d a b => some (encR 0x2b ((4 : BitVec 4) ++ eltCode f) 2 d a b)
  | .fxNr f d a b => some (encR 0x2b ((5 : BitVec 4) ++ eltCode f) 2 d a b)
  | .fxSclF32 d a b => some (encR 0x2b 0x30 2 d a b)
  | .fxSclF64 d a b => some (encR 0x2b 0x31 2 d a b)
  | .fxXpnF32 d a => some (encR 0x2b 0x32 2 d a 0)
  | .fxXpnF64 d a => some (encR 0x2b 0x33 2 d a 0)
  | .fxExp2F32 d a => some (encR 0x2b 0x40 2 d a 0)
  | .fxLog2F32 d a => some (encR 0x2b 0x41 2 d a 0)
  | .fxRcpF32 d a => some (encR 0x2b 0x42 2 d a 0)
  | .fxRsqrtF32 d a => some (encR 0x2b 0x43 2 d a 0)
  | .fxSinpiF32 d a => some (encR 0x2b 0x44 2 d a 0)
  | .fxCospiF32 d a => some (encR 0x2b 0x45 2 d a 0)
  | .fxTanhF32 d a => some (encR 0x2b 0x46 2 d a 0)
  | .fxSigmF32 d a => some (encR 0x2b 0x47 2 d a 0)
  | .fxSrari d a sh => some (encI9 0x2b 3 0 d a ((0 : BitVec 3) ++ sh))
  | .fxSati d a w => some (encI9 0x2b 3 1 d a ((0 : BitVec 3) ++ w))
  | .fxSatni d a w => some (encI9 0x2b 3 2 d a ((0 : BitVec 3) ++ w))
  | .fxScliF32 d a n => some (encI9 0x2b 3 3 d a n)
  | .fxScliF64 d a n => some (encI9 0x2b 3 4 d a n)
  | .ldNc w d a i => some (encI9 0x5b 0 (lwidthCode w) d a i)
  | .ldBp w d a i => some (encI9 0x5b 1 (lwidthCode w) d a i)
  | .stBp w a b i => some (encS9 0x5b 2 (swidthCode w) a b i)
  | .sl w d a i => some (encI9 0x5b 3 (lwidthCode w) d a i)
  | .ss w a b i => some (encS9 0x5b 4 (swidthCode w) a b i)
  | .fnScoped s p q =>
    some (encR 0x5b ((0 : BitVec 4) ++ scopeCode s) 5 0 ((0 : BitVec 1) ++ q) ((0 : BitVec 1) ++ p))
  | .fnNc => some (encR 0x5b 0x10 5 0 0 0)
  | .fnPfL1 a => some (encR 0x5b 0x20 5 0 a 0)
  | .fnPfLlc a => some (encR 0x5b 0x21 5 0 a 0)
  | .fnPfW a => some (encR 0x5b 0x22 5 0 a 0)
  | .amoOp o t s aq rl d a => some (encAmo (aopCode o) t s aq rl d a)
  | .amoCas t s aq rl d a => some (encAmo 8 t s aq rl d a)
  | .amoLd t s aq d a => some (encAmo 9 t s aq false d a)
  | .amoSt t s rl d a => some (encAmo 10 t s false rl d a)
  | .amoDraw s aq rl d a => some (encAmo 12 .n64 s aq rl d a)
  | .amoTick aq rl d a => some (encAmo 13 .n64 .cw aq rl d a)
  | .red o t s a b => some (encR 0x5b ((0 : BitVec 2) ++ scopeCode s ++ ityCode t) 7 (aopCode o) a b)
  | .sgFork d a b => some (encR 0x7b 0x00 0 d a b)
  | .sgRwd d a => some (encR 0x7b 0x01 0 d a 0)
  | .sgCol d a => some (encR 0x7b 0x02 0 d a 0)
  | .sgCxl d a b => some (encR 0x7b 0x03 0 d a b)
  | .sgExt d a b => some (encR 0x7b 0x04 0 d a b)
  | .sgQry d a b => some (encR 0x7b 0x05 0 d a b)
  | .sgLeave d => some (encR 0x7b 0x06 0 d 0 0)
  | .clPost d a => some (encR 0x7b 0x00 1 d a 0)
  | .clRing d a => some (encR 0x7b 0x01 1 d a 0)
  | .clPut d a b => some (encR 0x7b 0x04 1 d a b)
  | .clGet d a b => some (encR 0x7b 0x05 1 d a b)
  | .clSig d a b => some (encR 0x7b 0x06 1 d a b)
  | .clWait d a b => some (encR 0x7b 0x08 1 d a b)
  | .clWaitTry d a b => some (encR 0x7b 0x09 1 d a b)
  | .clQry d a => some (encR 0x7b 0x10 1 d a 0)
  | .pwQry d a => some (encR 0x7b 0x00 2 d a 0)
  | .pwYld d => some (encR 0x7b 0x01 2 d 0 0)
  | .pwWind d a => some (encR 0x7b 0x02 2 d a 0)
  | .syPark d => some (encR 0x0b 0x00 3 d 0 0)
  | .syEnd d => some (encR 0x0b 0x01 3 d 0 0)
  | .syDbg d => some (encR 0x0b 0x02 3 d 0 0)
  | .syRec d a b => some (encR 0x0b 0x03 3 d a b)
  | .syTlbsd d a b => some (encR 0x0b 0x08 3 d a b)
  | .load k d a imm => some (encI (loadCode k).1 (loadCode k).2 d a imm)
  | .store k a b imm =>
    some { f7 := imm.extractLsb' 5 7, b, a, f3 := (storeCode k).2, d := imm.extractLsb' 0 5, op := (storeCode k).1 }
  | .standardAlu (.cmop _) => none
  | .standardAlu f => some (encAlu f)
  | .standardFp f => some (encFp f)
  | .branchJump f => some (encBranch f)
  | .fence fm p q => some (encI 0x0f 0 0 0 (fm ++ p ++ q))
  | .fenceI => some (encI 0x0f 1 0 0 0)
  | .wrsNto => some (encI 0x73 0 0 0 0x00d)
  | .wrsSto => some (encI 0x73 0 0 0 0x01d)
  | .lr dbl aq rl d a => some (encStdAmo 0x02 (if dbl then 3 else 2) aq rl d a 0)
  | .sc dbl aq rl d a b => some (encStdAmo 0x03 (if dbl then 3 else 2) aq rl d a b)
  | .standardAmo o dbl aq rl d a b => some (encStdAmo (stdAmoCode o) (if dbl then 3 else 2) aq rl d a b)
  | .amocas cw aq rl d a b => some (encStdAmo 0x05 (match cw with | .w => 2 | .d => 3 | .q => 4) aq rl d a b)
  | .ecall => some (encI 0x73 0 0 0 0x000)
  | .ebreak => some (encI 0x73 0 0 0 0x001)
  | .wfi => some (encI 0x73 0 0 0 0x105)
  | .sret => some (encI 0x73 0 0 0 0x102)
  | .sfenceVma a b => some (encR 0x73 0x09 0 0 a b)
  | .csrAccess op im d a c =>
    some (encI 0x73 ((if im then (1 : BitVec 1) else 0) ++
      (match op with | .rw => (1 : BitVec 2) | .rs => 2 | .rc => 3)) d a c)
  | _ => none

/-- op and operands of a literal form (Table 2.8). -/
def encode48 : Instr → Option (BitVec 48)
  | .fxLi d lit => some (lit ++ (0 : BitVec 4) ++ d ++ (0x1f : BitVec 7))
  | .fxLiu d lit => some (lit ++ (1 : BitVec 4) ++ d ++ (0x1f : BitVec 7))
  | .fxLih d lit => some (lit ++ (2 : BitVec 4) ++ d ++ (0x1f : BitVec 7))
  | .fxAddl d lit => some (lit ++ (3 : BitVec 4) ++ d ++ (0x1f : BitVec 7))
  | .fxAndl d lit => some (lit ++ (4 : BitVec 4) ++ d ++ (0x1f : BitVec 7))
  | .fxOrl d lit => some (lit ++ (5 : BitVec 4) ++ d ++ (0x1f : BitVec 7))
  | .fxXorl d lit => some (lit ++ (6 : BitVec 4) ++ d ++ (0x1f : BitVec 7))
  | .fxAuipcl d lit => some (lit ++ (7 : BitVec 4) ++ d ++ (0x1f : BitVec 7))
  | .fxLis d lit => some (lit ++ (8 : BitVec 4) ++ d ++ (0x1f : BitVec 7))
  | .fxLid d lit => some (lit ++ (9 : BitVec 4) ++ d ++ (0x1f : BitVec 7))
  | _ => none

/-- A wide word with its class, funct6, format code and class fields. -/
def encW (cls : BitVec 3) (f6 : BitVec 6) (fc : BitVec 2) (cf : BitVec 26) (d a b c : Reg) : WWord :=
  { f6, cf, fc, c, b, a, cls, d, op := 0x3f }

/-- A transfer. -/
def encCopy (f6 : BitVec 6) (f : CopyForm) (d a b c : Reg) : WWord :=
  match f with
  | .plain => encW 0 f6 0 0 d a b c
  | .conv s t g => encW 0 f6 1 ((0 : BitVec 10) ++ cfmtCode s ++ cfmtCode t ++ g) d a b c
  | .mx s t x => encW 0 f6 2 (x ++ (0 : BitVec 5) ++ cfmtCode s ++ cfmtCode t ++ (0 : BitVec 8)) d a b c

/-- A gather or scatter. -/
def encRows (f6 : BitVec 6) (f : RowForm) (d a b c x y : Reg) : WWord :=
  match f with
  | .plain => encW 0 f6 0 (x ++ y ++ (0 : BitVec 16)) d a b c
  | .conv s t g => encW 0 f6 1 (x ++ y ++ cfmtCode s ++ cfmtCode t ++ g) d a b c

/-- A matrix form. -/
def encMx (f6 : BitVec 6) (x : MxArgs) : WWord :=
  encW 2 f6 (mxFmtCode x.fmt)
    (x.x ++ x.cv ++ dimCode x.m ++ dimCode x.n ++ BitVec.ofBool x.z ++ (0 : BitVec 12)) x.rd x.a x.b x.p

/-- A drain. -/
def encDrn (z : BitVec 2) (x : DrnArgs) : WWord :=
  encW 3 ((1 : BitVec 2) ++ z ++ x.prog) 0 (x.x ++ x.cv ++ x.h1 ++ dimCode x.w ++ (0 : BitVec 10)) x.rd x.acc x.b0 x.b1

/-- A matrix-control form. -/
def encCtl (f6 : BitVec 6) (n : BitVec 4) (d a b c : Reg) : WWord :=
  encW 3 f6 0 ((0 : BitVec 5) ++ n ++ (0 : BitVec 17)) d a b c

/-- The 64-bit word of an instruction of the wide form. -/
def encode64 : Instr → Option WWord
  | .copyGs f d a b c => some (encCopy 0 f d a b c)
  | .copySg f d a b c => some (encCopy 1 f d a b c)
  | .copyGg f d a b c => some (encCopy 2 f d a b c)
  | .copySs f d a b c => some (encCopy 3 f d a b c)
  | .copyGath f d a b c x y => some (encRows 4 f d a b c x y)
  | .copyScat f d a b c x y => some (encRows 5 f d a b c x y)
  | .copyFillS d a b c => some (encW 0 6 0 0 d a b c)
  | .copyFillG d a b c => some (encW 0 6 1 0 d a b c)
  | .cpSeal d => some (encW 1 0 0 0 d 0 0 0)
  | .cpWait d a => some (encW 1 1 0 0 d a 0 0)
  | .cpStop d => some (encW 1 2 0 0 d 0 0 0)
  | .mxMma x => some (encMx 0 x)
  | .mxGmma x => some (encMx 1 x)
  | .mxPmma x => some (encMx 2 x)
  | .mxTake d a n => some (encCtl 0 n d a 0 0)
  | .mxPass d a b n => some (encCtl 1 n d a b 0)
  | .mxTakeTk d a b c n => some (encCtl 2 n d a b c)
  | .mxPassTk d a n => some (encCtl 3 n d a 0 0)
  | .amGet d a b => some (encW 4 0 0 0 d a b 0)
  | .amRel d a b => some (encW 4 1 0 0 d a b 0)
  | .amZero a b => some (encW 4 2 0 0 0 a b 0)
  | .amRd d a => some (encW 4 3 0 0 d a 0 0)
  | .epLoad d a b => some (encW 5 0 0 0 d a b 0)
  | .epRun d a b c x => some (encW 5 1 0 (x ++ (0 : BitVec 21)) d a b c)
  | .mxDrn x => some (encDrn 0 x)
  | .mxDrnZ x => some (encDrn 1 x)
  | _ => none

/-- The parcels of a well-formed instruction, first parcel first; none for a step of the hardware. -/
def encode (i : Instr) : List (BitVec 16) :=
  match i with
  | .standardAlu (.cmop n) => [(0x0c : BitVec 5) ++ n ++ (0x81 : BitVec 8)]
  | i =>
    match encode32 i with
    | some r => [r.pack.extractLsb' 0 16, r.pack.extractLsb' 16 16]
    | none =>
      match encode48 i with
      | some w => [w.extractLsb' 0 16, w.extractLsb' 16 16, w.extractLsb' 32 16]
      | none =>
        match encode64 i with
        | some r =>
          [r.pack.extractLsb' 0 16, r.pack.extractLsb' 16 16, r.pack.extractLsb' 32 16, r.pack.extractLsb' 48 16]
        | none => []

end Sys2Proof
end

