-- ==== Sys2Proof/Machine/Standard.lean ====
section
/-! DEFINITION. The standard arithmetic and control flow (Table 2.1, R103, R145, R146; RISC-V unprivileged
specification, log 17). -/

namespace Sys2Proof.Machine

/-- The result of an integer form (R145); Zimop and Zcmop write 0 (Table 2.1), Zcmop writing nothing. -/
def aluResult (s : State) (f : AluForm) : Reg × Word :=
  match f with
  | .rr op rd a b => (rd, aluOp op (s.x a) (s.x b))
  | .ri op rd a imm => (rd, aluImm op (s.x a) imm)
  | .un op rd a => (rd, aluUn op (s.x a))
  | .lui rd imm => (rd, (imm ++ (0 : BitVec 12)).signExtend 64)
  | .auipc rd imm => (rd, s.pc + (imm ++ (0 : BitVec 12)).signExtend 64)
  | .mopr _ rd _ => (rd, 0)
  | .moprr _ rd _ _ => (rd, 0)
  | .cmop _ => (0, 0)

/-- STANDARD_ALU. -/
def execStandardAlu (f : AluForm) (s : State) : Out :=
  s.onAny (let r := aluResult s f; s.status r.1 r.2)

/-- Rounding mode of a field and `frm`: field 7 is dynamic; `none` is illegal (R146). -/
def State.rmOf (s : State) (rm : BitVec 3) : Option Nat :=
  if rm = 7 then s.frm? else if rm.toNat < 5 then some rm.toNat else none

/-- Where a floating-point form writes: F or X register, value, flags. -/
inductive FpRes | f (v : Word) (fl : Nat) | x (v : Word) (fl : Nat)
  deriving DecidableEq, Repr

/-- A rounded result of a format. -/
def fpOut (f : FFmt) (rm : Nat) (r : FVal × Nat) : FpRes := let q := ffinish f rm r; .f (box f q.1) q.2

/-- Integer bounds and extension of a conversion. -/
def fpIntRange : FpInt → Int × Int
  | .w => (-(2 ^ 31 : Nat), (2 ^ 31 : Nat) - 1)
  | .wu => (0, (2 ^ 32 : Nat) - 1)
  | .l => (-(2 ^ 63 : Nat), (2 ^ 63 : Nat) - 1)
  | .lu => (0, (2 ^ 64 : Nat) - 1)

/-- The integer operand of a conversion. -/
def fpIntVal (t : FpInt) (v : Word) : Int :=
  match t with
  | .w => toSigned 4 v.toNat
  | .wu => (v.toNat % 2 ^ 32 : Nat)
  | .l => v.toInt
  | .lu => v.toNat

/-- Source and destination formats of a conversion between formats. -/
def fpCvtFmts : FpCvt → FFmt × FFmt
  | .sd => (f64, f32) | .ds => (f32, f64) | .sh => (f16, f32) | .hs => (f32, f16)
  | .dh => (f16, f64) | .hd => (f64, f16) | .sbf => (bf16, f32) | .bfs => (f32, bf16)

/-- Sign injection on codes. -/
def fsgn (op : FpSgn) (f : FFmt) (a b : Nat) : Nat :=
  let k := 2 ^ (f.width - 1)
  let sb := b / k % 2
  let sa := a / k % 2
  a % k + k * (match op with | .j => sb | .jn => 1 - sb | .jx => (sa + sb) % 2)

/-- A comparison: result and flags. -/
def fcmpRes (op : FpCmp) (a b : FVal) : Nat × Nat :=
  let nan := a.isNan || b.isNan
  let nv := match op with
    | .eq => a.sigFlag ||| b.sigFlag
    | .le => if nan then 16 else 0
    | .lt => if nan then 16 else 0
  (b2n (!nan && match op with | .eq => feq a b | .lt => flt a b | .le => !flt b a), nv)

/-- The result of a floating-point form: rd and the value; `none` where the rounding mode is illegal. -/
def fpResult (s : State) (f : FpForm) : Option (Reg × FpRes) :=
  match f with
  | .bin op p rm rd a b =>
    (s.rmOf rm).map fun r =>
      let x := fval (fmtOf p) (s.f a)
      let y := fval (fmtOf p) (s.f b)
      (rd, fpOut (fmtOf p) r (match op with
        | .add => fadd r x y | .sub => fadd r x y.negate | .mul => fmul x y | .div => fdiv x y))
  | .sqrt p rm rd a => (s.rmOf rm).map fun r => (rd, fpOut (fmtOf p) r (fsqrt (fval (fmtOf p) (s.f a))))
  | .fma op p rm rd a b c =>
    (s.rmOf rm).map fun r =>
      let x := fval (fmtOf p) (s.f a)
      let y := fval (fmtOf p) (s.f b)
      let z := fval (fmtOf p) (s.f c)
      (rd, fpOut (fmtOf p) r (match op with
        | .madd => ffma r x y z | .msub => ffma r x y z.negate
        | .nmsub => ffma r x.negate y z | .nmadd => ffma r x.negate y z.negate))
  | .sgnj op p rd a b => some (rd, .f (box (fmtOf p) (fsgn op (fmtOf p) (unbox (fmtOf p) (s.f a)) (unbox (fmtOf p) (s.f b)))) 0)
  | .minmax m p rd a b =>
    let q := fminmax (fmtOf p) m (unbox (fmtOf p) (s.f a)) (unbox (fmtOf p) (s.f b))
    some (rd, .f (box (fmtOf p) q.1) q.2)
  | .cmp op p rd a b =>
    let q := fcmpRes op (fval (fmtOf p) (s.f a)) (fval (fmtOf p) (s.f b))
    some (rd, .x (w64 q.1) q.2)
  | .cls p rd a => some (rd, .x (w64 (fclassOf (fmtOf p) (unbox (fmtOf p) (s.f a)))) 0)
  | .toInt t p rm rd a =>
    (s.rmOf rm).map fun r =>
      let b := fpIntRange t
      let q := ftoInt r b.1 b.2 (fval (fmtOf p) (s.f a))
      (rd, .x (match t with
        | .w => BitVec.ofInt 64 q.1 | .wu => sext 32 (q.1 % (2 ^ 32 : Nat)).toNat
        | .l => BitVec.ofInt 64 q.1 | .lu => BitVec.ofInt 64 q.1) q.2)
  | .ofInt t p rm rd a => (s.rmOf rm).map fun r => (rd, fpOut (fmtOf p) r (fofInt (fpIntVal t (s.x a)), 0))
  | .cvt k rm rd a =>
    (s.rmOf rm).map fun r =>
      let q := cvtF (fpCvtFmts k).1 (fpCvtFmts k).2 r (s.f a)
      (rd, .f q.1 q.2)
  | .mv k rd a => some (rd, match k with
      | .xh => .x (sext 16 (s.f a).toNat) 0
      | .hx => .f (box f16 (s.x a).toNat) 0
      | .xw => .x (sext 32 (s.f a).toNat) 0
      | .wx => .f (box f32 (s.x a).toNat) 0
      | .xd => .x (s.f a) 0
      | .dx => .f (s.x a) 0)

/-- STANDARD_FP. -/
def execStandardFp (f : FpForm) (s : State) : Out :=
  s.onAny (s.withFp fun s' =>
    match fpResult s' f with
    | none => s.illegal
    | some (rd, .f v fl) => s'.fdone rd v fl
    | some (rd, .x v fl) => s'.xdone rd v fl)

/-- BRANCH_JUMP. -/
def execBranchJump (f : BranchForm) (s : State) : Out :=
  s.onAny (match f with
    | .br c a b off => if brTaken c (s.x a) (s.x b) then s.jump (s.pc + off.signExtend 64) else s.next
    | .jal rd off => (s.setX rd (s.pc + w64 s.ilen)).jump (s.pc + off.signExtend 64)
    | .jalr rd a imm => (s.setX rd (s.pc + w64 s.ilen)).jump ((s.x a + imm.signExtend 64) &&& ~~~1))

end Sys2Proof.Machine
end

