-- ==== Sys2Proof/Machine/Vector.lean ====
section
/-! DEFINITION. V 1.0 with Zvbb and Zvfhmin on L-cores (Table 2.1, R25; the ratified vector specification, log 17). Its VLEN is
a constant of Config (log 20). -/

namespace Sys2Proof.Machine

/-! ### Elements -/

/-- What a vector instruction works on: bytes of a register, SEW in bits, log2 of LMUL, `vl`, `vstart`, tail and mask
agnostic, `frm`, `vxrm`, the registers, and free values for what is agnostic. -/
structure VEnv where
  vb : Nat
  sew : Nat
  lm : Int
  vl : Nat
  vstart : Nat
  ta : Bool
  ma : Bool
  frm : Nat
  vxrm : Nat
  vec : Sparse 8
  x : Reg → Word
  f : Reg → Word
  free : Nat → Bool
  pick : Nat → Nat

/-- A group of vector registers: the first, the width of its elements, 1 for a mask, and log2 of EMUL. -/
structure VGrp where
  reg : Reg
  eew : Nat
  lm : Int

/-- What an instruction writes: vector bytes as (address, bytes, value), a register, flags, `vxsat`. -/
structure VRes where
  writes : List (Nat × Nat × Nat) := []
  x : Option (Reg × Word) := none
  f : Option (Reg × Word) := none
  flags : Nat := 0
  sat : Bool := false

namespace VGrp

/-- Registers of the group. -/
def regs (g : VGrp) : Nat := 2 ^ g.lm.toNat

/-- A legal EMUL and alignment. -/
def ok (g : VGrp) : Bool := -3 ≤ g.lm && g.lm ≤ 3 && g.reg.toNat % g.regs = 0

/-- The groups share a register. -/
def meets (a b : VGrp) : Bool := a.reg.toNat < b.reg.toNat + b.regs && b.reg.toNat < a.reg.toNat + a.regs

/-- A destination may lie over this source. -/
def overOk (d s : VGrp) : Bool :=
  !d.meets s || d.eew = s.eew || (d.eew < s.eew && d.reg = s.reg)
    || (s.eew < d.eew && 0 ≤ s.lm && s.reg.toNat + s.regs = d.reg.toNat + d.regs)

/-- The mask register. -/
def v0 : VGrp := { reg := 0, eew := 1, lm := 0 }

end VGrp

/-- Format of a floating-point element. -/
def vFmt (eew : Nat) : FFmt := if eew = 16 then f16 else if eew = 32 then f32 else f64

/-- An element as a signed number. -/
def vSigned (eew v : Nat) : Int := if 2 ^ (eew - 1) ≤ v then (v : Int) - (2 ^ eew : Nat) else v

/-- A number as an element. -/
def vWrap (eew : Nat) (v : Int) : Nat := (v % ((2 ^ eew : Nat) : Int)).toNat

namespace VEnv

/-- Elements of a group of log2 EMUL `lm`. -/
def maxAt (e : VEnv) (eew : Nat) (lm : Int) : Nat :=
  if 0 ≤ lm then e.vb * 8 / eew * 2 ^ lm.toNat else e.vb * 8 / eew / 2 ^ (-lm).toNat

/-- VLMAX. -/
def vlmax (e : VEnv) : Nat := e.maxAt e.sew e.lm

/-- Element `i` of a group. -/
def elem (e : VEnv) (r : Reg) (eew i : Nat) : Nat := bytesGet e.vec (r.toNat * e.vb + i * (eew / 8)) (eew / 8)

/-- Bit `i` of a mask. -/
def mbit (e : VEnv) (r : Reg) (i : Nat) : Bool := (sget e.vec (r.toNat * e.vb + i / 8)).getLsbD (i % 8)

/-- Element `i` is not masked off. -/
def on (e : VEnv) (vm : Bool) (i : Nat) : Bool := vm || e.mbit 0 i

/-- The body. -/
def body (e : VEnv) : List Nat := upto e.vstart (e.vl - e.vstart)

/-- Its active elements. -/
def acts (e : VEnv) (vm : Bool) : List Nat := e.body.filter (e.on vm)

/-- The group of a register at SEW. -/
def grp (e : VEnv) (r : Reg) : VGrp := { reg := r, eew := e.sew, lm := e.lm }

/-- At twice SEW. -/
def wide (e : VEnv) (r : Reg) : VGrp := { reg := r, eew := 2 * e.sew, lm := e.lm + 1 }

/-- One register of elements of width `eew`: a scalar, or with width 1 a mask. -/
def one (r : Reg) (eew : Nat) : VGrp := { reg := r, eew, lm := 0 }

/-- The group of an operand at a width. -/
def srcGrp (e : VEnv) (s : VSrc) : List VGrp :=
  match s with
  | .v r => [e.grp r]
  | .x _ => [] | .f _ => [] | .imm _ => [] | .uimm _ => []

/-- Element `i` of an operand. -/
def src (e : VEnv) (s : VSrc) (eew i : Nat) : Nat :=
  match s with
  | .v r => e.elem r eew i
  | .x r => (e.x r).toNat % 2 ^ eew
  | .f r => unbox (vFmt eew) (e.f r)
  | .imm i => (i.signExtend 64).toNat % 2 ^ eew
  | .uimm i => i.toNat

/-- The groups are legal: sources of one width where they share a register, and the destination where it may lie. -/
def legal (vm : Bool) (dst : Option VGrp) (srcs : List VGrp) (apart : Bool := false) : Bool :=
  let all := srcs ++ (if vm then [] else [VGrp.v0])
  srcs.all VGrp.ok && all.all (fun a => all.all fun b => a.eew = b.eew || !a.meets b)
    && match dst with
      | none => true
      | some d => d.ok && srcs.all (fun s => d.overOk s && !(apart && d.meets s)) && (vm || d.eew = 1 || !d.meets VGrp.v0)

/-- All ones, where an agnostic element is overwritten. -/
def ones (vd : Reg) (e : VEnv) (eew i : Nat) (b : Bool) : Option (Nat × Nat × Nat) :=
  if b && e.free i then some (vd.toNat * e.vb + i * (eew / 8), eew / 8, 2 ^ eew - 1) else none

/-- The tail from element `n`. -/
def tail (e : VEnv) (vd : Reg) (eew : Nat) (lm : Int) (n : Nat) : List (Nat × Nat × Nat) :=
  (upto n (e.vb * 8 / eew * 2 ^ lm.toNat - n)).filterMap fun i => ones vd e eew i e.ta

/-- Elements written to a group from element `lo`: `g` on the active ones, and what is agnostic. -/
def put (e : VEnv) (vm : Bool) (vd : Reg) (eew : Nat) (lm : Int) (g : Nat → Nat) (lo : Nat := 0) : List (Nat × Nat × Nat) :=
  if e.vl ≤ e.vstart then []
  else
    (e.body.filter (lo ≤ ·)).filterMap (fun i =>
      if e.on vm i then some (vd.toNat * e.vb + i * (eew / 8), eew / 8, g i) else ones vd e eew i e.ma)
    ++ e.tail vd eew lm e.vl

/-- Element-wise, with flags. -/
def map (e : VEnv) (vm : Bool) (vd : Reg) (eew : Nat) (lm : Int) (g : Nat → Nat × Nat) : VRes :=
  { writes := e.put vm vd eew lm fun i => (g i).1, flags := (e.acts vm).foldl (fun a i => a ||| (g i).2) 0 }

/-- A mask written: `g` on the active elements; masked-off bits are agnostic where `ma`, tail bits always. -/
def putMask (e : VEnv) (vm : Bool) (vd : Reg) (g : Nat → Bool) : List (Nat × Nat × Nat) :=
  if e.vl ≤ e.vstart then []
  else
    let bit (i : Nat) : Bool :=
      if i < e.vstart then e.mbit vd i
      else if e.vl ≤ i then e.free i
      else if e.on vm i then g i
      else e.mbit vd i || (e.ma && e.free i)
    [(vd.toNat * e.vb, e.vb, (upto 0 (8 * e.vb)).foldr (fun i a => b2n (bit i) + 2 * a) 0)]

/-- Element 0 of a register written. -/
def putScalar (e : VEnv) (vd : Reg) (eew v : Nat) : List (Nat × Nat × Nat) :=
  if e.vl ≤ e.vstart then [] else (vd.toNat * e.vb, eew / 8, v) :: e.tail vd eew 0 1

end VEnv

/-! ### Integer operations -/

/-- v / 2^d under `vxrm`. -/
def vRound (xrm : Nat) (v : Int) (d : Nat) : Int :=
  let q := v / ((2 ^ d : Nat) : Int)
  let r := (v % ((2 ^ d : Nat) : Int)).toNat
  let up : Bool := d ≠ 0 && match xrm with
    | 0 => 2 ^ d ≤ 2 * r
    | 1 => 2 ^ d < 2 * r || (2 ^ d = 2 * r && q % 2 ≠ 0)
    | 2 => false
    | _ => r ≠ 0 && q % 2 = 0
  if up then q + 1 else q

/-- Clipped to a signed or unsigned element; 1 where it was clipped. -/
def vClip (sg : Bool) (n : Nat) (v : Int) : Nat × Nat :=
  let hi : Int := if sg then ((2 ^ (n - 1) : Nat) : Int) - 1 else ((2 ^ n : Nat) : Int) - 1
  let lo : Int := if sg then -((2 ^ (n - 1) : Nat) : Int) else 0
  if hi < v then (vWrap n hi, 1) else if v < lo then (vWrap n lo, 1) else (vWrap n v, 0)

/-- An operation on elements of n bits, a of vs2 and b of the operand; 1 where it saturates. -/
def vBin (o : VBin) (n xrm a b : Nat) : Nat × Nat :=
  let sa := vSigned n a
  let sb := vSigned n b
  let sh := b % n
  let w (v : Int) : Nat × Nat := (vWrap n v, 0)
  let u (v : Nat) : Nat × Nat := (v % 2 ^ n, 0)
  match o with
  | .add => u (a + b) | .sub => w ((a : Int) - b) | .rsub => w ((b : Int) - a)
  | .minu => u (min a b) | .maxu => u (max a b) | .min => w (min sa sb) | .max => w (max sa sb)
  | .and => u (a &&& b) | .or => u (a ||| b) | .xor => u (a ^^^ b) | .andn => u (a &&& (2 ^ n - 1 - b))
  | .sll => u (a * 2 ^ sh) | .srl => u (a / 2 ^ sh) | .sra => w (sa / ((2 ^ sh : Nat) : Int))
  | .rol => u (a * 2 ^ sh + a / 2 ^ (n - sh)) | .ror => u (a / 2 ^ sh + a * 2 ^ (n - sh))
  | .saddu => vClip false n ((a : Int) + b) | .sadd => vClip true n (sa + sb)
  | .ssubu => vClip false n ((a : Int) - b) | .ssub => vClip true n (sa - sb)
  | .smul => vClip true n (vRound xrm (sa * sb) (n - 1))
  | .ssrl => w (vRound xrm a sh) | .ssra => w (vRound xrm sa sh)
  | .aaddu => w (vRound xrm ((a : Int) + b) 1) | .aadd => w (vRound xrm (sa + sb) 1)
  | .asubu => w (vRound xrm ((a : Int) - b) 1) | .asub => w (vRound xrm (sa - sb) 1)
  | .mul => u (a * b) | .mulh => w (sa * sb / ((2 ^ n : Nat) : Int)) | .mulhu => u (a * b / 2 ^ n)
  | .mulhsu => w (sa * (b : Int) / ((2 ^ n : Nat) : Int))
  | .divu => if b = 0 then u (2 ^ n - 1) else u (a / b)
  | .div => if b = 0 then u (2 ^ n - 1) else w (sa.tdiv sb)
  | .remu => if b = 0 then u a else u (a % b)
  | .rem => if b = 0 then u a else w (sa.tmod sb)

/-- A comparison of vs2 with the operand. -/
def vCmp (o : VCmp) (n a b : Nat) : Bool :=
  match o with
  | .eq => a = b | .ne => a ≠ b | .ltu => a < b | .leu => a ≤ b | .gtu => b < a
  | .lt => vSigned n a < vSigned n b | .le => vSigned n a ≤ vSigned n b | .gt => vSigned n b < vSigned n a

/-- A widening operation on n bits, a of vs2, of 2n bits where `w`. -/
def vWide (o : VWide) (w : Bool) (n a b : Nat) : Nat :=
  let sa := vSigned (if w then 2 * n else n) a
  let sb := vSigned n b
  vWrap (2 * n) (match o with
    | .addu => (a : Int) + b | .subu => (a : Int) - b | .add => sa + sb | .sub => sa - sb
    | .mulu => (a : Int) * b | .mulsu => sa * (b : Int) | .mul => sa * sb
    | .sll => (a : Int) * ((2 ^ (b % (2 * n)) : Nat) : Int))

/-- A reduction step. -/
def vRed (o : VRed) (n a b : Nat) : Nat :=
  match o with
  | .sum => (a + b) % 2 ^ n | .and => a &&& b | .or => a ||| b | .xor => a ^^^ b
  | .minu => min a b | .maxu => max a b
  | .min => if vSigned n b < vSigned n a then b else a
  | .max => if vSigned n a < vSigned n b then b else a

/-- The bits of `v` in reverse order. -/
def bitRev (v : Nat) : Nat → Nat
  | 0 => 0
  | n + 1 => v % 2 * 2 ^ n + bitRev (v / 2) n

/-- An operation on one operand of n bits. -/
def vUn (o : VUn) (n a : Nat) : Nat :=
  let byte (i : Nat) : Nat := a / 2 ^ (8 * i) % 256
  let join (g : Nat → Nat) : Nat := (upto 0 (n / 8)).foldr (fun i acc => g i + 256 * acc) 0
  match o with
  | .brev => bitRev a n
  | .brev8 => join fun i => bitRev (byte i) 8
  | .rev8 => join fun i => byte (n / 8 - 1 - i)
  | .clz => if a = 0 then n else n - 1 - Nat.log2 a
  | .ctz => ((upto 0 n).find? fun i => a.testBit i).getD n
  | .cpop => popcount a n

/-- A mask operation of bits of vs2 and vs1. -/
def vMask (o : VMask) (a b : Bool) : Bool :=
  match o with
  | .and => a && b | .nand => !(a && b) | .andn => a && !b | .or => a || b | .nor => !(a || b) | .orn => a || !b
  | .xor => a != b | .xnor => a == b

/-! ### Floating point -/

/-- Signs of a product and an addend. -/
def vSign (g : VFSign) (p c : FVal) : FVal × FVal :=
  match g with
  | .pp => (p, c) | .nn => (p.negate, c.negate) | .pn => (p, c.negate) | .np => (p.negate, c)

/-- An operation on codes, a of vs2. -/
def vFBin (o : VFBin) (p : FFmt) (rm a b : Nat) : Nat × Nat :=
  let x := FVal.ofBits p a
  let y := FVal.ofBits p b
  let top := 2 ^ (p.width - 1)
  let sgn (b : Nat) : Nat × Nat := (a % top + b / top % 2 * top, 0)
  match o with
  | .add => ffinish p rm (fadd rm x y) | .sub => ffinish p rm (fadd rm x y.negate) | .rsub => ffinish p rm (fadd rm y x.negate)
  | .mul => ffinish p rm (fmul x y) | .div => ffinish p rm (fdiv x y) | .rdiv => ffinish p rm (fdiv y x)
  | .min => fminmax p false a b | .max => fminmax p true a b
  | .sgnj => sgn b | .sgnjn => sgn (b + top) | .sgnjx => sgn (a / top * top + b)

/-- A comparison of vs2 with the operand, and flags. -/
def vFCmp (o : VFCmp) (p : FFmt) (a b : Nat) : Bool × Nat :=
  let x := FVal.ofBits p a
  let y := FVal.ofBits p b
  let nan : Bool := x.isNan || y.isNan
  let quiet := x.sigFlag ||| y.sigFlag
  let loud := if nan then 16 else 0
  match o with
  | .eq => (feq x y, quiet) | .ne => (!feq x y, quiet)
  | .lt => (!nan && flt x y, loud) | .le => (!nan && !flt y x, loud)
  | .gt => (!nan && flt y x, loud) | .ge => (!nan && !flt x y, loud)

/-- The magnitude of a finite number as exponent and fraction of a normal one, the exponent biased and below 1 where it is
subnormal. -/
def vNorm (p : FFmt) (m : Nat) (e : Int) : Int × Nat :=
  let k := Nat.log2 m
  (e + k + p.bias, if k ≤ p.fw then m % 2 ^ k * 2 ^ (p.fw - k) else m % 2 ^ k / 2 ^ (k - p.fw))

/-- The estimate of 1 / sqrt x. -/
def vRsqrt7 (p : FFmt) (x : Nat) : Nat × Nat :=
  match FVal.ofBits p x with
  | .nan sg => (p.qnan, if sg then 16 else 0)
  | .inf true => (p.qnan, 16)
  | .inf false => (0, 0)
  | .fin n m e =>
    if m = 0 then (p.infBits n, 8)
    else if n then (p.qnan, 16)
    else
      let (ex, fr) := vNorm p m e
      let i := fr / 2 ^ (p.fw - 6)
      let sig := if ex % 2 = 0 then (isqrt (16777216 / (129 + 2 * i)) 0 16 + 1) / 2 - 128
        else (isqrt (33554432 / (129 + 2 * i)) 0 16 + 1) / 2 - 128
      (((3 * (p.bias : Int) - 1 - ex) / 2).toNat * 2 ^ p.fw + sig * 2 ^ (p.fw - 7), 0)

/-- The estimate of 1 / x. -/
def vRec7 (p : FFmt) (rm x : Nat) : Nat × Nat :=
  match FVal.ofBits p x with
  | .nan sg => (p.qnan, if sg then 16 else 0)
  | .inf n => (b2n n * 2 ^ (p.ew + p.fw), 0)
  | .fin n m e =>
    if m = 0 then (p.infBits n, 8)
    else
      let (ex, fr) := vNorm p m e
      if ex < -1 then
        (if rm = 1 || (rm = 2 && !n) || (rm = 3 && n) then p.maxBits n else p.infBits n, 5)
      else
        let i := fr / 2 ^ (p.fw - 7)
        let sig := ((131072 / (257 + 2 * i) + 1) / 2 - 128) * 2 ^ (p.fw - 7)
        let out := 2 * (p.bias : Int) - 1 - ex
        let mag := if out = 0 then 2 ^ (p.fw - 1) + sig / 2
          else if out < 0 then 2 ^ (p.fw - 2) + sig / 4
          else out.toNat * 2 ^ p.fw + sig
        (b2n n * 2 ^ (p.ew + p.fw) + mag, 0)

/-- A conversion between formats; with `rod` an inexact result is made odd. -/
def vConv (rod : Bool) (p : FFmt) (rm : Nat) (v : FVal) : Nat × Nat :=
  if rod then
    let r := ffinish p 1 (v, v.sigFlag)
    (if r.2 % 2 = 1 && r.1 % 2 = 0 then r.1 + 1 else r.1, r.2)
  else ffinish p rm (v, v.sigFlag)

/-- Codes added in the order of the list. -/
def vSum (p : FFmt) (rm a : Nat) (l : List Nat) : Nat × Nat :=
  l.foldl (fun r x =>
    let y := ffinish p rm (fadd rm (FVal.ofBits p r.1) (FVal.ofBits p x))
    (y.1, r.2 ||| y.2)) (a, 0)

/-- Codes added over a tree that `pick` shapes. -/
def vTree (p : FFmt) (rm : Nat) (pick : Nat → Nat) : Nat → List Nat → Nat × Nat
  | 0, l => vSum p rm (l.headD 0) l.tail
  | n + 1, l =>
    if l.length < 2 then (l.headD 0, 0)
    else
      let k := 1 + pick (n + l.length) % (l.length - 1)
      let a := vTree p rm pick n (l.take k)
      let b := vTree p rm pick n (l.drop k)
      let y := ffinish p rm (fadd rm (FVal.ofBits p a.1) (FVal.ofBits p b.1))
      (y.1, a.2 ||| b.2 ||| y.2)

/-! ### Instructions on registers -/

namespace VEnv

/-- An operand that is a scalar of F. -/
def isF : VSrc → Bool
  | .f _ => true
  | .v _ => false | .x _ => false | .imm _ => false | .uimm _ => false

/-- The width of floating-point elements of this instruction, 64 where it has none. -/
def fpOk (n : Nat) : Bool := n = 32 || n = 64

/-- An offset or index as it is, not cut to an element. -/
def whole (e : VEnv) (s : VSrc) : Nat :=
  match s with
  | .x r => (e.x r).toNat
  | .uimm i => i.toNat
  | .v _ => 0 | .f _ => 0 | .imm _ => 0

/-- Integer instructions; `none` is reserved. -/
def int (e : VEnv) (v : VInst) : Option VRes :=
  let n := e.sew
  let g := e.grp
  let mk (b : Bool) (r : VRes) : Option VRes := if b then some r else none
  match v with
  | .bin o vm vd vs2 s =>
    let h (i : Nat) := vBin o n e.vxrm (e.elem vs2 n i) (e.src s n i)
    mk (legal vm (some (g vd)) (g vs2 :: e.srcGrp s))
      { writes := e.put vm vd n e.lm fun i => (h i).1, sat := (e.acts vm).any fun i => (h i).2 ≠ 0 }
  | .carry sub vd vs2 s =>
    mk (legal false (some (g vd)) (g vs2 :: e.srcGrp s))
      { writes := e.put true vd n e.lm fun i =>
          let c := b2n (e.mbit 0 i)
          vWrap n (if sub then (e.elem vs2 n i : Int) - e.src s n i - c else (e.elem vs2 n i : Int) + e.src s n i + c) }
  | .carryOut sub vm vd vs2 s =>
    mk (legal vm (some (one vd 1)) (g vs2 :: e.srcGrp s))
      { writes := e.putMask true vd fun i =>
          let c := if vm then 0 else b2n (e.mbit 0 i)
          if sub then e.elem vs2 n i < e.src s n i + c else 2 ^ n ≤ e.elem vs2 n i + e.src s n i + c }
  | .merge vm vd vs2 s =>
    mk (legal vm (some (g vd)) ((if vm then [] else [g vs2]) ++ e.srcGrp s) && (!isF s || fpOk n))
      { writes := e.put true vd n e.lm fun i => if vm || e.mbit 0 i then e.src s n i else e.elem vs2 n i }
  | .cmp o vm vd vs2 s =>
    mk (legal vm (some (one vd 1)) (g vs2 :: e.srcGrp s))
      { writes := e.putMask vm vd fun i => vCmp o n (e.elem vs2 n i) (e.src s n i) }
  | .mac o vm vd vs2 s =>
    mk (legal vm (some (g vd)) (g vs2 :: e.srcGrp s))
      { writes := e.put vm vd n e.lm fun i =>
          let d : Int := e.elem vd n i
          let a : Int := e.elem vs2 n i
          let b : Int := e.src s n i
          vWrap n (match o with | .macc => d + a * b | .nmsac => d - a * b | .madd => a + d * b | .nmsub => a - d * b) }
  | .wide o w vm vd vs2 s =>
    mk (n ≤ 32 && legal vm (some (e.wide vd)) ((if w then e.wide vs2 else g vs2) :: e.srcGrp s))
      { writes := e.put vm vd (2 * n) (e.lm + 1) fun i => vWide o w n (e.elem vs2 (if w then 2 * n else n) i) (e.src s n i) }
  | .wmac o vm vd vs2 s =>
    mk (n ≤ 32 && legal vm (some (e.wide vd)) (g vs2 :: e.srcGrp s))
      { writes := e.put vm vd (2 * n) (e.lm + 1) fun i =>
          let a := e.elem vs2 n i
          let b := e.src s n i
          let p : Int := match o with
            | .uu => (a : Int) * b | .ss => vSigned n a * vSigned n b | .us => vSigned n a * b | .su => (a : Int) * vSigned n b
          vWrap (2 * n) (e.elem vd (2 * n) i + p) }
  | .narrow o vm vd vs2 s =>
    let h (i : Nat) : Nat × Nat :=
      let a := e.elem vs2 (2 * n) i
      let k := e.src s n i % (2 * n)
      match o with
      | .srl => (a / 2 ^ k % 2 ^ n, 0)
      | .sra => (vWrap n (vSigned (2 * n) a / ((2 ^ k : Nat) : Int)), 0)
      | .clipu => vClip false n (vRound e.vxrm a k)
      | .clip => vClip true n (vRound e.vxrm (vSigned (2 * n) a) k)
    mk (n ≤ 32 && legal vm (some (g vd)) (e.wide vs2 :: e.srcGrp s))
      { writes := e.put vm vd n e.lm fun i => (h i).1, sat := (e.acts vm).any fun i => (h i).2 ≠ 0 }
  | .red o vm vd vs2 vs1 =>
    mk (e.vstart = 0 && legal vm none [g vs2, one vs1 n])
      { writes := e.putScalar vd n ((e.acts vm).foldl (fun a i => vRed o n a (e.elem vs2 n i)) (e.elem vs1 n 0)) }
  | .wred sg vm vd vs2 vs1 =>
    mk (n ≤ 32 && e.vstart = 0 && legal vm none [g vs2, one vs1 (2 * n)])
      { writes := e.putScalar vd (2 * n) ((e.acts vm).foldl (fun a i =>
          vWrap (2 * n) ((a : Int) + if sg then vSigned n (e.elem vs2 n i) else e.elem vs2 n i)) (e.elem vs1 (2 * n) 0)) }
  | .ext sg fr vm vd vs2 =>
    let m := n / fr
    mk (8 ≤ m && legal vm (some (g vd)) [{ reg := vs2, eew := m, lm := e.lm - (Nat.log2 fr : Int) }])
      { writes := e.put vm vd n e.lm fun i => if sg then vWrap n (vSigned m (e.elem vs2 m i)) else e.elem vs2 m i }
  | .un o vm vd vs2 =>
    mk (legal vm (some (g vd)) [g vs2]) { writes := e.put vm vd n e.lm fun i => vUn o n (e.elem vs2 n i) }
  | _ => none

/-- Masks, permutations and moves. -/
def perm (e : VEnv) (v : VInst) : Option VRes :=
  let n := e.sew
  let g := e.grp
  let mk (b : Bool) (r : VRes) : Option VRes := if b then some r else none
  match v with
  | .mask o vd vs2 vs1 => some { writes := e.putMask true vd fun i => vMask o (e.mbit vs2 i) (e.mbit vs1 i) }
  | .vcpop vm rd vs2 => mk (e.vstart = 0) { x := some (rd, w64 ((e.acts vm).filter fun i => e.mbit vs2 i).length) }
  | .vfirst vm rd vs2 =>
    mk (e.vstart = 0) { x := some (rd, match (e.acts vm).find? fun i => e.mbit vs2 i with | some i => w64 i | none => neg 1) }
  | .firstMask o vm vd vs2 =>
    let at' := (e.acts vm).find? fun i => e.mbit vs2 i
    let k := at'.getD e.vl
    mk (e.vstart = 0 && vd ≠ vs2 && (vm || vd ≠ 0))
      { writes := e.putMask vm vd fun i => match o with | .sbf => i < k | .sif => i ≤ k | .sof => at' = some i }
  | .iota vm vd vs2 =>
    mk (e.vstart = 0 && legal vm (some (g vd)) [one vs2 1] true)
      { writes := e.put vm vd n e.lm fun i => ((e.acts vm).filter fun j => j < i && e.mbit vs2 j).length % 2 ^ n }
  | .vid vm vd => mk (legal vm (some (g vd)) []) { writes := e.put vm vd n e.lm fun i => i % 2 ^ n }
  | .gather e16 vm vd vs2 s =>
    let ew := if e16 then 16 else n
    let idx : List VGrp := match s with
      | .v r => [{ reg := r, eew := ew, lm := e.lm + (Nat.log2 ew : Int) - (Nat.log2 n : Int) }]
      | .x _ => [] | .f _ => [] | .imm _ => [] | .uimm _ => []
    let at' (i : Nat) : Nat := match s with | .v r => e.elem r ew i | .x _ => e.whole s | .uimm _ => e.whole s | .f _ => 0 | .imm _ => 0
    mk (legal vm (some (g vd)) (g vs2 :: idx) true)
      { writes := e.put vm vd n e.lm fun i => if at' i < e.vlmax then e.elem vs2 n (at' i) else 0 }
  | .slide up vm vd vs2 s =>
    let k := e.whole s
    mk (legal vm (some (g vd)) [g vs2] up)
      { writes := if up then e.put vm vd n e.lm (fun i => e.elem vs2 n (i - k)) k
          else e.put vm vd n e.lm fun i => if i + k < e.vlmax then e.elem vs2 n (i + k) else 0 }
  | .slide1 up vm vd vs2 s =>
    mk (legal vm (some (g vd)) [g vs2] up && (!isF s || fpOk n))
      { writes := e.put vm vd n e.lm fun i =>
          if up then (if i = 0 then e.src s n 0 else e.elem vs2 n (i - 1))
          else if i + 1 = e.vl then e.src s n 0 else e.elem vs2 n (i + 1) }
  | .compress vd vs2 vs1 =>
    let l := e.body.filter fun i => e.mbit vs1 i
    mk (e.vstart = 0 && legal true (some (g vd)) [g vs2, one vs1 1] true)
      { writes := if e.vl = 0 then []
          else (l.zip (upto 0 l.length)).map (fun p => (vd.toNat * e.vb + p.2 * (n / 8), n / 8, e.elem vs2 n p.1))
            ++ e.tail vd n e.lm l.length }
  | .mvXS rd vs2 => some { x := some (rd, sext n (e.elem vs2 n 0)) }
  | .mvSX vd a => some { writes := e.putScalar vd n ((e.x a).toNat % 2 ^ n) }
  | .mvFS rd vs2 => mk (fpOk n) { f := some (rd, box (vFmt n) (e.elem vs2 n 0)) }
  | .mvSF vd a => mk (fpOk n) { writes := e.putScalar vd n (unbox (vFmt n) (e.f a)) }
  | .mvR k vd vs2 =>
    let o := e.vstart * (n / 8)
    mk (vd.toNat % k = 0 && vs2.toNat % k = 0)
      { writes := if k * e.vb ≤ o then []
          else [(vd.toNat * e.vb + o, k * e.vb - o, bytesGet e.vec (vs2.toNat * e.vb + o) (k * e.vb - o))] }
  | _ => none

/-- Floating-point instructions. -/
def fp (e : VEnv) (v : VInst) : Option VRes :=
  let n := e.sew
  let g := e.grp
  let p := vFmt n
  let q := vFmt (2 * n)
  let mk (b : Bool) (r : VRes) : Option VRes := if b then some r else none
  match v with
  | .fbin o vm vd vs2 s =>
    mk (fpOk n && legal vm (some (g vd)) (g vs2 :: e.srcGrp s))
      (e.map vm vd n e.lm fun i => vFBin o p e.frm (e.elem vs2 n i) (e.src s n i))
  | .fcmp o vm vd vs2 s =>
    let h (i : Nat) := vFCmp o p (e.elem vs2 n i) (e.src s n i)
    mk (fpOk n && legal vm (some (one vd 1)) (g vs2 :: e.srcGrp s))
      { writes := e.putMask vm vd fun i => (h i).1, flags := (e.acts vm).foldl (fun a i => a ||| (h i).2) 0 }
  | .fmac sg acc vm vd vs2 s =>
    mk (fpOk n && legal vm (some (g vd)) (g vs2 :: e.srcGrp s))
      (e.map vm vd n e.lm fun i =>
        let b := FVal.ofBits p (e.src s n i)
        let a := FVal.ofBits p (e.elem vs2 n i)
        let d := FVal.ofBits p (e.elem vd n i)
        let r := vSign sg b (if acc then d else a)
        ffinish p e.frm (ffma e.frm r.1 (if acc then a else d) r.2))
  | .fwide o w vm vd vs2 s =>
    mk (n = 32 && legal vm (some (e.wide vd)) ((if w then e.wide vs2 else g vs2) :: e.srcGrp s))
      (e.map vm vd (2 * n) (e.lm + 1) fun i =>
        let a := if w then FVal.ofBits q (e.elem vs2 (2 * n) i) else FVal.ofBits p (e.elem vs2 n i)
        let b := FVal.ofBits p (e.src s n i)
        ffinish q e.frm (match o with | .add => fadd e.frm a b | .sub => fadd e.frm a b.negate | .mul => fmul a b))
  | .fwmac sg vm vd vs2 s =>
    mk (n = 32 && legal vm (some (e.wide vd)) (g vs2 :: e.srcGrp s))
      (e.map vm vd (2 * n) (e.lm + 1) fun i =>
        let r := vSign sg (FVal.ofBits p (e.src s n i)) (FVal.ofBits q (e.elem vd (2 * n) i))
        ffinish q e.frm (ffma e.frm r.1 (FVal.ofBits p (e.elem vs2 n i)) r.2))
  | .fred o vm vd vs2 vs1 =>
    let l := (e.acts vm).map fun i => e.elem vs2 n i
    let a := e.elem vs1 n 0
    let r := match o with
      | .osum => vSum p e.frm a l
      | .usum => vTree p e.frm e.pick l.length (a :: l)
      | .min => l.foldl (fun r x => let y := fminmax p false r.1 x; (y.1, r.2 ||| y.2)) (a, 0)
      | .max => l.foldl (fun r x => let y := fminmax p true r.1 x; (y.1, r.2 ||| y.2)) (a, 0)
    mk (fpOk n && e.vstart = 0 && legal vm none [g vs2, one vs1 n])
      { writes := e.putScalar vd n r.1, flags := if e.vl = 0 then 0 else r.2 }
  | .fwred ord vm vd vs2 vs1 =>
    let l := (e.acts vm).map fun i => (ffinish q e.frm (FVal.ofBits p (e.elem vs2 n i), 0)).1
    let nv := (e.acts vm).foldl (fun a i => a ||| (FVal.ofBits p (e.elem vs2 n i)).sigFlag) 0
    let a := e.elem vs1 (2 * n) 0
    let r := if ord then vSum q e.frm a l else vTree q e.frm e.pick l.length (a :: l)
    mk (n = 32 && e.vstart = 0 && legal vm none [g vs2, one vs1 (2 * n)])
      { writes := e.putScalar vd (2 * n) r.1, flags := if e.vl = 0 then 0 else r.2 ||| nv }
  | .fun1 o vm vd vs2 =>
    mk (fpOk n && legal vm (some (g vd)) [g vs2])
      (e.map vm vd n e.lm fun i =>
        let a := e.elem vs2 n i
        match o with
        | .sqrt => ffinish p e.frm (fsqrt (FVal.ofBits p a))
        | .rsqrt7 => vRsqrt7 p a
        | .rec7 => vRec7 p e.frm a
        | .cls => (fclassOf p a, 0))
  | .fcvt o w vm vd vs2 =>
    -- widths of source and destination, and of the floating-point side or sides
    let (ns, nd) : Nat × Nat := match w with | .same => (n, n) | .widen => (n, 2 * n) | .narrow => (2 * n, n)
    let gs := match w with | .narrow => e.wide vs2 | .same => g vs2 | .widen => g vs2
    let gd := match w with | .widen => e.wide vd | .same => g vd | .narrow => g vd
    let ok : Bool := ns ≤ 64 && nd ≤ 64 && match o with
      | .toInt _ _ => fpOk ns
      | .ofInt _ => fpOk nd
      | .ff rod => max ns nd = 64 || (!rod && max ns nd = 32)
    mk (ok && legal vm (some gd) [gs])
      (e.map vm vd nd gd.lm fun i =>
        let a := e.elem vs2 ns i
        match o with
        | .toInt sg rtz =>
          let lo : Int := if sg then -((2 ^ (nd - 1) : Nat) : Int) else 0
          let hi : Int := ((2 ^ (if sg then nd - 1 else nd) : Nat) : Int) - 1
          let r := ftoInt (if rtz then 1 else e.frm) lo hi (FVal.ofBits (vFmt ns) a)
          (vWrap nd r.1, r.2)
        | .ofInt sg => ffinish (vFmt nd) e.frm (fofInt (if sg then vSigned ns a else a), 0)
        | .ff rod => vConv rod (vFmt nd) e.frm (FVal.ofBits (vFmt ns) a))
  | _ => none

/-- A floating-point instruction: it needs FS on and a rounding mode that exists. -/
def isFp : VInst → Bool
  | .merge _ _ _ s => isF s
  | .slide1 _ _ _ _ s => isF s
  | .mvFS _ _ => true | .mvSF _ _ => true
  | .fbin _ _ _ _ _ => true | .fcmp _ _ _ _ _ => true | .fmac _ _ _ _ _ _ => true | .fwide _ _ _ _ _ _ => true
  | .fwmac _ _ _ _ _ => true | .fred _ _ _ _ _ => true | .fwred _ _ _ _ _ => true | .fun1 _ _ _ _ => true
  | .fcvt _ _ _ _ _ => true
  | _ => false

/-- An instruction on registers. -/
def op (e : VEnv) (v : VInst) : Option VRes :=
  match e.int v with
  | some r => some r
  | none => match e.perm v with | some r => some r | none => e.fp v

end VEnv

/-! ### The vector state of an L-core -/

/-- log2 of LMUL of a `vtype`. -/
def vtLm (t : Word) : Int := if wbits t 2 0 < 4 then wbits t 2 0 else (wbits t 2 0 : Int) - 8

/-- SEW of a `vtype`. -/
def vtSew (t : Word) : Nat := 8 * 2 ^ wbits t 5 3

/-- A `vtype` that the L-core supports. -/
def vtypeOk (t : Word) : Bool :=
  wbits t 63 8 = 0 && wbits t 2 0 ≠ 4 && vtSew t ≤ 64 && vtSew t * 2 ^ (-(vtLm t)).toNat ≤ 64

/-- VLMAX of a `vtype`. -/
def vtMax (t : Word) : Nat :=
  if 0 ≤ vtLm t then State.vlenb * 8 / vtSew t * 2 ^ (vtLm t).toNat else State.vlenb * 8 / vtSew t / 2 ^ (-(vtLm t)).toNat

namespace State

/-- Sets a CSR of V. -/
def setV (s : State) (i n : Nat) (v : Word) : State := s.modLcore i fun l => { l with csr := sset l.csr n v }

/-- Writes bytes of vector registers. -/
def putV (s : State) (i : Nat) (ws : List (Nat × Nat × Nat)) : State :=
  s.modLcore i fun l => { l with vec := ws.foldl (fun m w => bytesSet m w.1 w.2.2 w.2.1) l.vec }

/-- What a vector instruction of L-core i works on. -/
def vEnv (s : State) (i d : Nat) : VEnv :=
  let l := s.lcoreAt i
  let t := l.get State.cVtype
  { vb := State.vlenb, sew := vtSew t, lm := vtLm t, vl := (l.get State.cVl).toNat, vstart := (l.get State.cVstart).toNat, ta := wbit t 6,
    ma := wbit t 7, frm := wbits s.fcsr 7 5, vxrm := wbits (l.get State.cVxrm) 1 0, vec := l.vec, x := s.x, f := s.f,
    free := fun k => Config.freeBit (d + k), pick := fun k => Config.freeNat (d + k) }

/-- A vector instruction retires. -/
def vDone (s : State) (i : Nat) : Out := ((s.setV i State.cVstart 0).vecDirty i).next

/-- What an instruction writes, and its retirement. -/
def vApply (s : State) (i : Nat) (r : VRes) : Out :=
  let s := s.putV i r.writes
  let s := match r.x with | some (rd, v) => s.setX rd v | none => s
  let s := match r.f with | some (rd, v) => s.setF rd v | none => s
  let s := if r.sat then s.setV i State.cVxsat 1 else s
  (s.accrue r.flags).vDone i

/-- `vsetvli`, `vsetivli`, `vsetvl`: a `vtype` that is not supported sets `vill`; between VLMAX and twice that, `vl` is the
device's choice. -/
def vSet (s : State) (i : Nat) (rd : Reg) (t : Word) (avl : Option Nat) : Out :=
  let l := s.lcoreAt i
  let old := l.get State.cVtype
  let keep : Bool := avl.isNone
  let good : Bool := vtypeOk t && !(keep && (wbit old 63 || vtMax old ≠ vtMax t))
  let n := match avl with | some n => n | none => (l.get State.cVl).toNat
  let m := vtMax t
  let half := (n + 1) / 2
  let vl := if !good then 0 else if n ≤ m then n else if n < 2 * m then half + Config.vlPick n m % (m - half + 1) else m
  let s := (s.setV i State.cVtype (if good then t else 0x8000000000000000)).setV i State.cVl (w64 vl)
  (s.setX rd (w64 vl)).vDone i

/-- The `vtype` instructions. -/
def vCfg (s : State) (i : Nat) (c : VCfg) : Out :=
  let avl (rd a : Reg) : Option Nat := if a ≠ 0 then some (s.x a).toNat else if rd ≠ 0 then some (2 ^ 64 - 1) else none
  match c with
  | .vsetvli rd a t => s.vSet i rd (w64 t.toNat) (avl rd a)
  | .vsetivli rd n t => s.vSet i rd (w64 t.toNat) (some n.toNat)
  | .vsetvl rd a b => s.vSet i rd (s.x b) (avl rd a)

/-! ### Loads and stores -/

/-- How far a vector access came: to its end, or to an element that waits or traps. -/
inductive VStop | done | stall (i : Nat) | trap (i c : Nat) (v : Word)

/-- The fields of one element. -/
def vFields (acc : State → Nat → Res Unit) (s : State) : List Nat → Res Unit
  | [] => .ok s ()
  | f :: t => (acc s f).bind fun s _ => vFields acc s t

/-- The elements in order. -/
def vElems (acc : State → Nat → Res Unit) (s : State) : List Nat → State × VStop
  | [] => (s, .done)
  | i :: t =>
    match acc s i with
    | .ok s _ => vElems acc s t
    | .stall s => (s, .stall i)
    | .trap s c v => (s, .trap i c v)

/-- Groups of the data, and of the index where there is one, and the elements that the access has. -/
structure VPlan where
  data : VGrp
  nf : Nat
  index : Option VGrp := none
  evl : Nat

/-- Groups and elements of an access. -/
def vPlan (e : VEnv) (m : VAddr) (eew nf : Nat) (vd : Reg) : VPlan :=
  let at' (r : Reg) : VGrp := { reg := r, eew, lm := e.lm + (Nat.log2 eew : Int) - (Nat.log2 e.sew : Int) }
  match m with
  | .unit => { data := at' vd, nf, evl := e.vl }
  | .first => { data := at' vd, nf, evl := e.vl }
  | .strided _ => { data := at' vd, nf, evl := e.vl }
  | .indexed _ v => { data := e.grp vd, nf, index := some (at' v), evl := e.vl }
  | .mask => { data := { reg := vd, eew := 8, lm := 0 }, nf := 1, evl := (e.vl + 7) / 8 }
  | .whole => { data := { reg := vd, eew, lm := (Nat.log2 nf : Int) }, nf := 1, evl := nf * e.vb * 8 / eew }

/-- The groups of an access are legal. -/
def vPlanOk (p : VPlan) (load vm : Bool) : Bool :=
  let one (f : Nat) : VGrp := { p.data with reg := BitVec.ofNat 5 (p.data.reg.toNat + f * p.data.regs) }
  let idx := p.index.toList
  p.data.ok && p.nf * p.data.regs ≤ 8 && p.data.reg.toNat + p.nf * p.data.regs ≤ 32
    && if load then VEnv.legal vm none idx && (upto 0 p.nf).all fun f => VEnv.legal vm (some (one f)) idx (2 ≤ p.nf)
      else (upto 0 p.nf).all fun f => VEnv.legal vm none (one f :: idx)

/-- A vector load or store of L-core i. Elements are accessed in order; a trap or a wait leaves `vstart` at its element. -/
def vMem (s : State) (i : Nat) (load : Bool) (m : VAddr) (eew nf : Nat) (vm : Bool) (vd a : Reg) : Out :=
  let (d, s) := s.drawNat
  let e := s.vEnv i d
  let p := vPlan e m eew nf vd
  let n := p.data.eew / 8
  let base := s.x a
  let off (k : Nat) : Word := match m with
    | .unit => w64 (k * p.nf * n) | .first => w64 (k * p.nf * n) | .mask => w64 k | .whole => w64 (k * n)
    | .strided b => w64 k * s.x b
    | .indexed _ v => w64 (e.elem v eew k)
  let reg (f k : Nat) : Nat := (vd.toNat + f * p.data.regs) * e.vb + k * n
  let field (k : Nat) (s : State) (f : Nat) : Res Unit :=
    let va := base + off k + w64 (f * n)
    if load then (s.loadAny va n).bind fun s v => .ok (s.putV i [(reg f k, n, v)]) ()
    else s.storeAny va n (bytesGet e.vec (reg f k) n)
  let el := (upto e.vstart (p.evl - e.vstart)).filter (e.on vm)
  let whole : Bool := m = .whole
  if (!whole && wbit ((s.lcoreAt i).get State.cVtype) 63) || !vPlanOk p load vm then s.illegal
  else
    let e' : VEnv := { e with vl := p.evl, ta := e.ta || m = .mask }
    let rest (s : State) : State :=
      if !load || whole || p.evl ≤ e.vstart then s
      else s.putV i ((upto 0 p.nf).flatMap fun f =>
        let r : Reg := BitVec.ofNat 5 (vd.toNat + f * p.data.regs)
        (e'.body.filter fun k => !e.on vm k).filterMap (fun k => VEnv.ones r e' p.data.eew k e.ma)
          ++ e'.tail r p.data.eew p.data.lm p.evl)
    match vElems (fun s k => vFields (field k) s (upto 0 p.nf)) s el with
    | (s, .done) => (rest s).vDone i
    | (s, .stall k) => .next (s.setV i State.cVstart (w64 k))
    | (s, .trap k c v) =>
      if m = .first && k ≠ 0 then (s.setV i State.cVl (w64 k)).vDone i
      else .next (((s.setV i State.cVstart (w64 k)).vecDirty i).trap c v)

/-- A vector instruction of L-core i. -/
def execV (s : State) (i : Nat) (v : VInst) : Out :=
  if !vecOn (s.lcoreAt i) then s.illegal
  else
    match v with
    | .cfg c => s.vCfg i c
    | .mem load m eew nf vm vd a => s.vMem i load m eew nf vm vd a
    | v =>
      if wbit ((s.lcoreAt i).get State.cVtype) 63 then s.illegal
      else if VEnv.isFp v && (!s.fpOn || 5 ≤ wbits s.fcsr 7 5) then s.illegal
      else
        let (d, s) := s.drawNat
        match (s.vEnv i d).op v with
        | none => s.illegal
        | some r => (if VEnv.isFp v then s.fpDirty else s).vApply i r

end State

end Sys2Proof.Machine
end

