-- ==== Sys2Proof/Machine/LPart.lean ====
section
/-! DEFINITION. What an L-core executes beside the rows of the opcode table: the parts of the hypervisor extension, of Zfa,
of Zicbom and Zicboz (Table 2.1; the RISC-V specifications, log 17). -/

namespace Sys2Proof.Machine

/-! ### Zfa -/

/-- The constant that `fli` loads, by its number: the finite ones from 2 to 29 as significand and exponent. -/
def fliConst (p : FFmt) (i : Nat) : FVal :=
  let fins : List (Nat × Int) :=
    [(1, -16), (1, -15), (1, -8), (1, -7), (1, -4), (1, -3), (1, -2), (5, -4), (3, -3), (7, -4), (1, -1), (5, -3), (3, -2), (7, -3),
     (1, 0), (5, -2), (3, -1), (7, -2), (1, 1), (5, -1), (3, 0), (1, 2), (1, 3), (1, 4), (1, 7), (1, 8), (1, 15), (1, 16)]
  match i with
  | 0 => .fin true 1 0
  | 1 => .fin false 1 p.emin
  | 30 => .inf false
  | 31 => .nan false
  | _ => let x := fins.getD (i - 2) (0, 0); .fin false x.1 x.2

/-- `fminm` and `fmaxm`: as `fmin` and `fmax`, but a NaN operand gives the canonical NaN. -/
def fminmaxm (f : FFmt) (isMax : Bool) (x y : Nat) : Nat × Nat :=
  let a := FVal.ofBits f x
  let b := FVal.ofBits f y
  if a.isNan || b.isNan then (f.qnan, a.sigFlag ||| b.sigFlag) else fminmax f isMax x y

/-- `fround` and `froundnx`: the integer in the format, its sign kept; NX for `froundnx` alone. -/
def froundInt (f : FFmt) (nx : Bool) (rm : Nat) (v : FVal) : Nat × Nat :=
  match v with
  | .nan sig => (f.qnan, if sig then 16 else 0)
  | .inf n => (f.infBits n, 0)
  | .fin n m e =>
    let q := fint rm n m e
    ((fround f rm (.fin n q.1.natAbs 0)).1, if nx then b2n q.2 else 0)

/-- `fcvtmod.w.d`: truncated, modulo 2^32; NV where no signed word holds it. -/
def fcvtMod (v : FVal) : Word × Nat :=
  match v with
  | .nan _ => (0, 16)
  | .inf _ => (0, 16)
  | .fin n m e =>
    let q := fint 1 n m e
    (sext 32 (q.1 % (2 ^ 32 : Nat)).toNat, if q.1 < -(2 ^ 31 : Nat) || ((2 ^ 31 : Nat) : Int) - 1 < q.1 then 16 else b2n q.2)

/-- `fleq` and `fltq`: quiet, NV for a signalling NaN alone. -/
def fcmpQuiet (lt : Bool) (a b : FVal) : Nat × Nat :=
  (b2n (!a.isNan && !b.isNan && if lt then flt a b else !flt b a), a.sigFlag ||| b.sigFlag)

namespace State

/-! ### Hypervisor accesses -/

/-- Whether the hypervisor forms may run: in M-mode and HS-mode, in U-mode where `hstatus`.HU allows it; with V = 1 they are
virtual instructions. -/
def hyper (s : State) (l : LCore) (user : Bool) (g : Out) : Out :=
  match l.mode with
  | .m => g
  | .hs => g
  | .u => if user && wbit (hstatus l) 9 then g else s.illegal
  | .vs => s.virtualInst
  | .vu => s.virtualInst

/-- An access made as by the guest at the privilege that `hstatus`.SPVP names; its trap is of the L-core's own mode. In U-mode
`hstatus`.HUPMM stands for `senvcfg`.PMM. -/
def asGuest {α : Type} (s : State) (i : Nat) (g : State → Res α) : Res α :=
  let l := s.lcoreAt i
  let env := l.get 0x10A
  let env' := if l.mode = .u then winsert env 33 32 (wbits (hstatus l) 49 48) else env
  let back (s : State) : State := s.modLcore i fun x => { x with mode := l.mode, csr := sset x.csr 0x10A env }
  match g (s.modLcore i fun x => { x with mode := if wbit (hstatus l) 8 then .vs else .vu, csr := sset x.csr 0x10A env' }) with
  | .ok s v => .ok (back s) v
  | .trap s c v => .trap (back s) c v
  | .stall s => .stall (back s)

/-- `hlv` and `hlvx`. -/
def hlvL (s : State) (i n : Nat) (sg x : Bool) (rd a : Reg) : Out :=
  s.hyper (s.lcoreAt i) true (match s.asGuest i fun s => s.loadAny (s.x a) n (if x then .hlvx else .load) with
    | .ok s v => s.status rd (if sg then sext (8 * n) v else w64 v)
    | .trap s c v => .next (s.trapL i c v true)
    | .stall s => .next s)

/-- `hsv`. -/
def hsvL (s : State) (i n : Nat) (a b : Reg) : Out :=
  s.hyper (s.lcoreAt i) true (match s.asGuest i fun s => s.storeAny (s.x a) n (s.x b).toNat with
    | .ok s _ => s.next
    | .trap s c v => .next (s.trapL i c v true)
    | .stall s => .next s)

/-- Fences of guest translations, of which the model holds none. -/
def guestFenceL (s : State) (i : Nat) (f : GuestFence) : Out :=
  let l := s.lcoreAt i
  match f with
  | .vvma => s.hyper l false s.next
  | .gvma => s.hyper l false (if l.mode = .hs && wbit (l.get csrMstatus) 20 then s.illegal else s.next)
  | .order => match l.mode with
    | .u => s.illegal | .vu => s.virtualInst | .m => s.next | .hs => s.next | .vs => s.next

/-! ### Cache-block instructions -/

/-- Runs a cache-block instruction where `menvcfg`, `henvcfg` and `senvcfg` enable it by the bits of `m`. -/
def withEnv (s : State) (l : LCore) (m : Word) (g : Out) : Out :=
  let on (n : Nat) : Bool := l.get n &&& m ≠ 0
  match l.mode with
  | .m => g
  | .hs => if on 0x30A then g else s.illegal
  | .u => if on 0x30A && on 0x10A then g else s.illegal
  | .vs => if !on 0x30A then s.illegal else if on 0x60A then g else s.virtualInst
  | .vu => if !on 0x30A then s.illegal else if on 0x60A && on 0x10A then g else s.virtualInst

/-- A cache-block instruction at its block of 64 bytes. Memory is coherent, so `cbo.clean` and `cbo.flush` change none of it;
`cbo.inval` may do as `cbo.flush`, and does. -/
def cboL (s : State) (i : Nat) (op : CboOp) (a : Reg) : Out :=
  let l := s.lcoreAt i
  let va := s.effective (.lcore i) .store (s.x a) &&& ~~~63
  let manage : Out :=
    match s.locate (.lcore i) .load va 64 with
    | .ok s _ => s.next
    | .stall s => s.stall
    | .trap _ _ _ => (s.locate (.lcore i) .store va 64).run fun s _ => s.next
  match op with
  | .inval => s.withEnv l 0x30 manage
  | .clean => s.withEnv l 0x40 manage
  | .flush => s.withEnv l 0x40 manage
  | .zero => s.withEnv l 0x80 ((s.storeBytes va (List.replicate 64 0)).run fun s _ => s.next)

/-! ### All of them -/

/-- A floating-point result of a form of Zfa. -/
def zfa (s : State) (g : State → Option (Reg × FpRes)) : Out :=
  s.withFp fun s' =>
    match g s' with
    | none => s.illegal
    | some (rd, .f v fl) => s'.fdone rd v fl
    | some (rd, .x v fl) => s'.xdone rd v fl

/-- What L-core `i` does with a part of Table 2.1 that has no row in the opcode table. -/
def execLPart (s : State) (i : Nat) (exec : Instr → State → Out) (p : LPart) : Out :=
  match p with
  | .same j => exec j s
  | .cbo op a => s.cboL i op a
  | .guestFence f => s.guestFenceL i f
  | .hlv n sg x rd a => s.hlvL i n sg x rd a
  | .hsv n a b => s.hsvL i n a b
  | .fli p rd j => s.zfa fun _ => some (rd, .f (box (fmtOf p) (fround (fmtOf p) 0 (fliConst (fmtOf p) j.toNat)).1) 0)
  | .minmaxm m p rd a b => s.zfa fun s =>
    let q := fminmaxm (fmtOf p) m (unbox (fmtOf p) (s.f a)) (unbox (fmtOf p) (s.f b))
    some (rd, .f (box (fmtOf p) q.1) q.2)
  | .roundInt nx p rm rd a => s.zfa fun s => (s.rmOf rm).map fun r =>
    let q := froundInt (fmtOf p) nx r (fval (fmtOf p) (s.f a))
    (rd, .f (box (fmtOf p) q.1) q.2)
  | .cmpq lt p rd a b => s.zfa fun s =>
    let q := fcmpQuiet lt (fval (fmtOf p) (s.f a)) (fval (fmtOf p) (s.f b))
    some (rd, .x (w64 q.1) q.2)
  | .cvtmod rd a => s.zfa fun s => let q := fcvtMod (fval f64 (s.f a)); some (rd, .x q.1 q.2)
  | .vector v => s.execV i v

end State

end Sys2Proof.Machine
end

