-- ==== Sys2Proof/Machine/Matrix.lean ====
section
/-! DEFINITION. Matrix operations, the hold state, accumulator banks and the engine (10_matrix.md); epilogue entries
(11_epilogue.md). `am.get`, `am.rel`, `am.rd` and `ep.load` retire when they enter their queue; their result is pending at the
scoreboard until the entry is performed (R101, R268, log 23). -/

namespace Sys2Proof.Machine

/-- Code of a matrix format. -/
def mxCode : MxFmt → Nat
  | .bf16 => 0 | .f32 => 1 | .f64 => 2

/-- Code of a tile dimension. -/
def dimNum : Dim → Nat
  | .d16 => 0 | .d32 => 1 | .d64 => 2 | .d128 => 3

/-- All elements of the banks from `bk`, for `n` banks. -/
def bankLo (v bk : Nat) : Nat := Crew.accKey v bk 0 0

/-! ### Epilogue programs (R293, R294) -/

/-- A micro-operation. -/
structure Micro where
  op : Nat
  d : Nat
  a : Nat
  b : Nat
  c : Nat
  n : Nat
  lit : Nat
  deriving DecidableEq, Repr

/-- Fields that a row of Table 11.2 uses: ed, ea, eb, ec, N; `none` for an op that it does not list. -/
def microUses (op : Nat) : Option (Bool × Bool × Bool × Bool × Bool) :=
  match op with
  | 0x01 => some (true, true, false, false, false)
  | 0x02 => some (true, false, false, false, false)
  | 0x04 | 0x05 | 0x06 | 0x08 | 0x09 | 0x12 => some (true, true, true, false, false)
  | 0x07 => some (true, true, true, true, false)
  | 0x0C | 0x0D | 0x10 | 0x11 | 0x14 | 0x15 | 0x16 => some (true, true, false, false, false)
  | 0x18 | 0x19 | 0x1A => some (true, false, false, false, true)
  | 0x1C | 0x1D | 0x1E => some (false, true, false, false, true)
  | _ => none

/-- The fields of a micro-word; `none` where it breaks R294. -/
def microOf (w lit : Nat) : Option Micro :=
  match microUses (bits w 31 26) with
  | none => none
  | some (ud, ua, ub, uc, un) =>
    let m : Micro := { op := bits w 31 26, d := bits w 25 22, a := bits w 21 18, b := bits w 17 14, c := bits w 13 10, n := bits w 1 0, lit }
    if bits w 9 2 = 0 && (ud || m.d = 0) && (ua || m.a = 0) && (ub || m.b = 0) && (uc || m.c = 0) && (un || m.n = 0) then some m
    else none

/-- The micro-operations of a program image, without its header (R293). -/
def epParse : List Nat → Option (List Micro)
  | [] => none
  | [w] => if w = 0xFC000000 then some [] else none
  | w :: l :: rest =>
    if bits w 31 26 = 2 then
      match microOf w l, epParse rest with
      | some m, some t => some (m :: t)
      | _, _ => none
    else
      match microOf w 0, epParse (l :: rest) with
      | some m, some t => some (m :: t)
      | _, _ => none

/-- The bytes that a micro-operation accesses at its base, 0 for none (Table 11.2). -/
def microBytes (w : Nat) (m : Micro) : Nat :=
  match m.op with
  | 0x18 | 0x19 | 0x1C => 4 * w
  | 0x1A | 0x1E => 4
  | 0x1D => 2 * w
  | _ => 0

/-- Base N of the two base words (R297). -/
def epBase (b0 b1 n : Nat) : Nat :=
  match n with
  | 0 => bits b0 23 0
  | 1 => bits b0 47 24
  | 2 => bits b1 23 0
  | _ => bits b1 47 24

/-- Stride N. -/
def epStride (x n : Nat) : Nat := bits x (16 * n + 15) (16 * n)

/-- The base checks of an entry (R298). -/
def epCheck (c : Crew) (ms : List Micro) (h w b0 b1 x : Nat) : Bool :=
  ms.all fun m =>
    let n := microBytes w m
    let b := epBase b0 b1 m.n
    let st := epStride x m.n
    n = 0 || (b % 4 = 0 && st % 4 = 0 && (upto 0 (if m.op = 0x19 then 1 else h)).all fun i => c.stageIn (b + st * i) n)

/-- FP32 value of a code. -/
def v32 (x : Nat) : FVal := FVal.ofBits f32 x

/-- Element-wise results and flags (R295). -/
def microElt (m : Micro) (x y w : Nat) : Nat × Nat :=
  match m.op with
  | 0x01 => (x, 0)
  | 0x02 => (m.lit, 0)
  | 0x04 => ffinish f32 0 (fadd 0 (v32 x) (v32 y))
  | 0x05 => ffinish f32 0 (fadd 0 (v32 x) (v32 y).negate)
  | 0x06 => ffinish f32 0 (fmul (v32 x) (v32 y))
  | 0x07 => ffinish f32 0 (ffma 0 (v32 x) (v32 y) (v32 w))
  | 0x08 => fminmax f32 true x y
  | 0x09 => fminmax f32 false x y
  | 0x10 =>
    match v32 x with
    | .fin _ k e => ((fround f32 0 (fofInt (if k = 0 then -150 else e + (Nat.log2 k : Int)))).1, 0)
    | .inf _ => ((fround f32 0 (fofInt 128)).1, 16)
    | .nan _ => ((fround f32 0 (fofInt 128)).1, 16)
  | 0x11 =>
    match v32 x with
    | .nan s => (f32.qnan, if s then 16 else 0)
    | .inf _ => (x, 0)
    | .fin n k e => if isInt k e then (x, 0) else ((fround f32 0 (fofInt (fint 2 n k e).1)).1, 0)
  | 0x12 =>
    match v32 y with
    | .fin n k e =>
      if k ≠ 0 && !isInt k e then (f32.qnan, 16)
      else
        let big : Bool := 10 ≤ e + (Nat.log2 k : Int)
        let i : Int := if big && k ≠ 0 then (if n then -512 else 512) else (fint 1 n k e).1
        fround f32 0 (fscale (v32 x) (max (-512) (min 512 i)))
    | .inf _ => (f32.qnan, 16)
    | .nan _ => (f32.qnan, 16)
  | 0x14 => specialF 0 x
  | 0x15 => specialF 2 x
  | 0x16 => specialF 7 x
  | _ => (x, 0)

/-- What a row works on: the crew, the row registers, flags of `epflg`, and the stage bytes written. -/
structure EpRow where
  crew : Crew
  e : List (List Nat)
  flags : Nat
  wrote : List Nat := []

/-- A write of `n` bytes of stage memory by an entry. A mark stays even where all 64 bytes of its row are written: R257, which R307
follows, clears a mark only where a copy or a fill writes them (DEDUCED, log 85). -/
def EpRow.put (r : EpRow) (a v n : Nat) : EpRow :=
  { r with crew := r.crew.stageSet a v n, wrote := r.wrote ++ upto a n }

/-- A stage element read by an entry: a marked row gives the canonical NaN and ps (R307). -/
def epRead (c : Crew) (a : Nat) : Nat × Nat := if c.stageBad a 4 then (f32.qnan, 8) else (c.stageGet a 4, 0)

/-- nv, of and dz of floating-point flags, as bits of `epflg`. -/
def epFlags (fl : Nat) : Nat := fl / 16 % 2 + fl / 4 % 2 * 2 + fl / 8 % 2 * 4

/-- One micro-operation for row i (R294 to R297). -/
def microStep (w b0 b1 x i : Nat) (r : EpRow) (m : Micro) : EpRow :=
  let reg (k : Nat) : List Nat := r.e.getD k []
  let el (l : List Nat) (c : Nat) : Nat := l.getD c 0
  let a := epBase b0 b1 m.n + epStride x m.n * (if m.op = 0x19 then 0 else i)
  let put (vs : List Nat) (fl : Nat) : EpRow := { r with e := lmod r.e m.d fun _ => vs, flags := r.flags ||| fl }
  let xs := reg m.a
  match m.op with
  | 0x0C =>
    let q := (xs.take w).foldl (fun (acc : Nat × Nat) v => let z := fminmax f32 true acc.1 v; (z.1, acc.2 ||| z.2)) (f32.qnan, 0)
    put (List.replicate 128 q.1) (epFlags q.2)
  | 0x0D =>
    let sig := if (xs.take w).any fun v => (v32 v).sigFlag ≠ 0 then 16 else 0
    let q := splitSum f32 (xs.take w) 16
    put (List.replicate 128 q.1) (epFlags (q.2 ||| sig))
  | 0x18 | 0x19 =>
    let rs := (upto 0 w).map fun c => epRead r.crew (a + 4 * c)
    put (rs.map (·.1) ++ List.replicate (128 - w) 0) (rs.foldl (fun f q => f ||| q.2) 0)
  | 0x1A => let q := epRead r.crew a; put (List.replicate 128 q.1) q.2
  | 0x1C => (upto 0 w).foldl (fun r k => r.put (a + 4 * k) (el xs k) 4) r
  | 0x1D =>
    let qs := (upto 0 w).map fun k => fround bf16 0 (v32 (el xs k))
    (List.zip (upto 0 w) qs).foldl (fun r p => r.put (a + 2 * p.1) p.2.1 2)
      { r with flags := qs.foldl (fun f q => f ||| epFlags q.2) r.flags }
  | 0x1E => r.put a (el xs 0) 4
  | _ =>
    let qs := (upto 0 128).map fun k => microElt m (el xs k) (el (reg m.b) k) (el (reg m.c) k)
    put (qs.map (·.1)) (if m.op = 1 || m.op = 2 then 0 else (qs.take w).foldl (fun f q => f ||| epFlags q.2) 0)

/-- A drain's or an `ep.run`'s row: e0 is loaded, then the program runs (R296). -/
def epRow (ms : List Micro) (w b0 b1 x : Nat) (drain : Option (Nat × Nat × Bool)) (r : EpRow) (i : Nat) : EpRow :=
  let zeros (n : Nat) : List Nat := List.replicate n 0
  let r : EpRow :=
    match drain with
    | none => { r with e := lmod r.e 0 fun _ => zeros 128 }
    | some (v, acc, z) =>
      let key (c : Nat) : Nat := Crew.accKey v (awBank acc) (awRow acc + i) (awCol acc + c)
      let rs := (upto 0 w).map fun c =>
        if r.crew.accFail.contains (key c) then (f32.qnan, 8) else (r.crew.accGet (key c), 0)
      let crew := if z then (upto 0 w).foldl (fun c k => c.accSet (key k) 0) r.crew else r.crew
      { r with crew, e := lmod r.e 0 fun _ => rs.map (·.1) ++ zeros (128 - w), flags := rs.foldl (fun f q => f ||| q.2) r.flags }
  ms.foldl (microStep w b0 b1 x i) r

namespace State

/-! ### The engine queue (R260, R284) -/

/-- An entry ends with `v`: who waits for it retires with that in rd, who has gone on has it written (R101). -/
def entryDone (s : State) (e : EngEntry) (v : Word) : State :=
  let s := { s with engine := s.engine.filter fun x => x.id ≠ e.id }
  let s := e.who.foldl (fun s w =>
    match s.strand? w.1 with
    | some t => if t.wait = .engine e.id w.2 then s.finishWait w.1 w.2 v else s.giveX w.1 w.2 v
    | none => s) s
  s.retryAll

/-- The banks of crew W-core v that are allocated once the entries in its queue have been performed (R284). -/
def allocAhead (s : State) (c : Crew) (v : Nat) : BitVec 32 :=
  ((s.queueOf (c.coreNum v)).filter fun e => e.crew = c.id && e.v = v).foldl (fun m e =>
    match e.op with
    | .amGet bk n => if (upto bk n).any m.getLsbD then m else (upto bk n).foldl (fun m i => m ||| (1 <<< i)) m
    | .amRel bk n => if (upto bk n).all m.getLsbD then (upto bk n).foldl (fun m i => m &&& ~~~((1 : BitVec 32) <<< i)) m else m
    | _ => m) (c.alloc.getD v 0)

/-- An `am.rel` enters the queue of crew W-core v: the pending matrix operations whose tiles name a bank that it releases will not
complete (R271, R290). -/
def releasing (s : State) (c : Crew) (v bk n : Nat) : State :=
  if !((upto bk n).all (s.allocAhead c v).getLsbD) then s
  else
    let hit (r : CvReg) : Bool :=
      let g (i : Nat) : Nat := r.sig.getD i 0
      let w := g 9
      r.kind = 3 && g 0 ≤ 2 && (awCore w = v || (g 0 = 2 && awPartner w = v))
        && (upto (awBank w) ((awRow w + 16 * 2 ^ g 2 - 1) / 32 + 1)).any fun i => bk ≤ i && i < bk + n
    s.modCrew c.id fun c => { c with cv := c.cv.map fun r => if hit r then { r with gone := true } else r }

/-- A crew's stage as an entry reads it: of each byte written since it entered, a free value says which value (R286, R305). -/
def lateView (s : State) (c : Crew) (l : List (Nat × Byte)) : Crew × State :=
  l.foldl (fun (acc : Crew × State) r =>
    let (b, s) := acc.2.drawBit
    (if b then { acc.1 with stage := sset acc.1.stage r.1 r.2 } else acc.1, s)) (c, s)

/-- The crew after an entry that ran from a view of `c` and left `w`, having written the bytes `wrote`: bytes that it did not write
are as in `c`, and a byte that it and another wrote ends as either value (R305). Those that end as the other's are listed. -/
def lateBack (s : State) (c w : Crew) (wrote : List Nat) (l : List (Nat × Byte)) : (Crew × List Nat) × State :=
  l.foldl (fun (acc : (Crew × List Nat) × State) r =>
    let old : Crew := { acc.1.1 with stage := sset acc.1.1.stage r.1 (sget c.stage r.1) }
    if !wrote.contains r.1 then ((old, acc.1.2), acc.2)
    else
      let (b, s) := acc.2.drawBit
      if b then ((old, r.1 :: acc.1.2), s) else (acc.1, s)) ((w, []), s)

/-- What the entries still queued may read of the stage bytes `wrote` that entry `e` has written, having left `w` there: an epilogue
entry behind it on the same crew W-core reads what it wrote, or what another wrote after it, which `kept` lists (R296, R305); any other
reads what stood there or what it wrote (R286). -/
def noteEntry (s : State) (e : EngEntry) (w : Crew) (wrote kept : List Nat) : State :=
  let behind (x : EngEntry) : Bool :=
    x.crew = e.crew && x.v = e.v && match x.op with | .run _ _ _ _ _ _ => true | .drain _ _ _ _ _ _ _ _ => true | _ => false
  let others := s.engine.filter fun x => !behind x
  let s' := ({ s with engine := others }.noteLate e.crew wrote)
  { s' with engine := s.engine.map fun x =>
      if behind x then
        { x with late := (x.late.filter fun r => !wrote.contains r.1) ++
            ((x.late.filter fun r => kept.contains r.1).map fun r => (r.1, sget w.stage r.1)) }
      else match s'.engine.find? fun y => y.id = x.id with | some y => y | none => x }

/-- An epilogue entry is performed (R296); poison it read is recorded (R383). It waits where it writes bytes that a copy of its issuer,
or of a member of its set, has not read (R245, R302, R304). -/
def performEp (s : State) (e : EngEntry) (prog h w b0 b1 x : Nat) (drain : Option (Nat × Nat × Bool)) : State :=
  match s.crew? e.crew with
  | none => { s with engine := s.engine.filter fun x => x.id ≠ e.id }
  | some c =>
    let ms := match c.progs.find? fun p => p.1 = 4 * e.v + prog with | some p => epParse p.2 | none => none
    let bank := match drain with | some (v, acc, _) => c.allocd v (awBank acc) | none => true
    match ms with
    | none => s.entryDone e (neg 3)
    | some ms =>
      if !bank || !epCheck c ms h w b0 b1 x then s.entryDone e (neg 3)
      else
        let s0 := s
        let (v, s) := s.lateView c e.late
        let r := (upto 0 h).foldl (epRow ms w b0 b1 x drain) { crew := v, e := List.replicate 16 (List.replicate 128 0), flags := 0 }
        let ours := s.strands.filter fun t => t.crew = e.crew && e.by'.contains t.sid
        if ours.any fun t => r.wrote.any fun a => s.copyReads t.image s.nextId true a 1 then s0
        else
        let s := s.noteEntry e r.crew r.wrote (s.lateBack c r.crew r.wrote e.late).1.2
        let (d, s) := s.lateBack c r.crew r.wrote e.late
        let s := (s.modCrew c.id fun x => { d.1 with epflg := d.1.epflg ||| w64 r.flags, cv := x.cv, sreg := x.sreg }).crewRetry c.id
        let s := s.modCore e.core fun k => { k with epcnt := k.epcnt + w64 h }
        let s := if r.flags / 8 % 2 = 1 then s.faultRecord e.core { kind := 4 } else s
        s.entryDone e 0

/-- An allocation form, `am.rd` or `ep.load` is performed at its place (R268, R301). -/
def performAm (s : State) (e : EngEntry) : State :=
  match s.crew? e.crew with
  | none => { s with engine := s.engine.filter fun x => x.id ≠ e.id }
  | some c =>
    let span (bk n : Nat) : List Nat := upto bk n
    match e.op with
    | .amGet bk n =>
      if (span bk n).any fun i => c.allocd e.v i then s.entryDone e (neg 4)
      else
        -- the values a new allocation finds are +0.0 or the crew's last writes (R264)
        let (d, s) := s.drawNat
        let keep (k : Nat) : Bool := !(bankLo e.v bk ≤ k && k < bankLo e.v (bk + n)) || Config.freeBit (d + k)
        (s.modCrew c.id fun c =>
          { c with alloc := lmod c.alloc e.v fun m => (span bk n).foldl (fun m i => m ||| ((1 : BitVec 32) <<< i)) m,
                   acc := c.acc.filter fun p => keep p.1 }).entryDone e 0
    | .amRel bk n =>
      if (span bk n).any fun i => !c.allocd e.v i then s.entryDone e (neg 4)
      else
        (s.modCrew c.id fun c =>
          { c with alloc := lmod c.alloc e.v fun m => (span bk n).foldl (fun m i => m &&& ~~~((1 : BitVec 32) <<< i)) m }).entryDone e 0
    | .amZero bk n =>
      let lo := bankLo e.v bk
      (s.modCrew c.id fun c =>
        { c with acc := sclear c.acc lo (4096 * n), accFail := c.accFail.filter fun k => !(lo ≤ k && k < lo + 4096 * n) }).entryDone e 0
    | .amRd bk row col =>
      let k := Crew.accKey e.v bk row col
      if c.accFail.contains k || c.accFail.contains (k + 1) then
        let s := { s with engine := s.engine.filter fun x => x.id ≠ e.id }
        -- the strand has passed the `am.rd`: it traps at its next instruction (DESIGN CHOICE, log 86)
        (e.who.foldl (fun s w => s.modStrand w.1 fun t =>
          { t with badRd := some (w64 (e.v * 2 ^ 18 + col * 2 ^ 10 + row * 2 ^ 5 + bk)) }) s).retryAll
      else s.entryDone e (w64 (c.accGet k + 2 ^ 32 * c.accGet (k + 1)))
    | .load prog ws =>
      (s.modCrew c.id fun c => { c with progs := kput (·.1) c.progs (4 * e.v + prog, ws) }).entryDone e 0
    | .run p h w b0 b1 x => s.performEp e p h w b0 b1 x none
    | .drain p h w acc b0 b1 x z => s.performEp e p h w b0 b1 x (some (e.v, acc, z))
    | _ => s

/-- A non-collective instruction enters the queue of crew W-core v, or waits while that is full. With `waits` its issuer waits until
the entry is performed; else it retires, its result pending (R101, R268, R302). The entry is performed at once where nothing is ahead
of it and it needs no processor step of its own (`now`). -/
def enter (s : State) (t : Strand) (c : Crew) (v : Nat) (op : EngOp) (rd : Option Reg) (now : Bool) : Out :=
  let core := c.coreNum v
  if !s.queueRoom core then s.stall
  else
    let (i, s) := s.fresh
    let e : EngEntry :=
      { id := i, core, crew := c.id, v, op, by' := [t.sid], who := match rd with | some r => [(t.image, r)] | none => [] }
    let first := (s.queueOf core).isEmpty
    let go (s : State) : State := if first && now then s.performAm e else s
    let s := match op with | .amRel bk n => s.releasing c v bk n | _ => s
    match (if now then none else rd) with
    | some r => .next (go ((s.await (.engine i r)).enqueue e))
    | none =>
      match s.next with
      | .next s => .next (go (s.enqueue e))
      | .fault x => .fault x
      | .refused x => .refused x

/-- The A and B codes that an operation starts with, and whether a row it reads is marked (R269, R289). -/
def mxOperands (c : Crew) (fmt m n a b p : Nat) (rows : Option (List (List Nat))) : List (List Nat) × List (List Nat) × Bool :=
  let e := mxE fmt
  let row (ad cnt : Nat) : List Nat := (upto 0 cnt).map fun j => c.stageGet (ad + e * j) e
  let pa := p % 65536
  let pb := p / 65536 % 65536
  let zero : List Nat := List.replicate (mxK fmt) 0
  let ar := match rows with
    | some l => (upto 0 m).map fun i => l.getD i zero
    | none => (upto 0 m).map fun i => row (a + i * pa) (mxK fmt)
  let br := (upto 0 (mxK fmt)).map fun k => row (b + k * pb) n
  let bad := (rows.isNone && (upto 0 m).any fun i => c.stageBad (a + i * pa) (mxK fmt * e))
    || (upto 0 (mxK fmt)).any fun k => c.stageBad (b + k * pb) (n * e)
  (ar, br, bad)

/-- The elements of a tile. -/
def tileIdx (m n : Nat) : List (Nat × Nat) := (upto 0 m).flatMap fun i => (upto 0 n).map fun j => (i, j)

/-- The operation reads a marked row or an element that fails its check (R289). -/
def mxBad (c : Crew) (v fmt m n : Nat) (z : Bool) (acc : Nat) (bad : Bool) : Bool :=
  bad || (!z && (tileIdx m n).any fun p => (tileKeys fmt v acc p.1 p.2).any fun k => c.accFail.contains k)

/-- Performs the product (R272 to R274, R289). -/
def mxPerform (c : Crew) (v fmt m n : Nat) (z : Bool) (acc : Nat) (ar br : List (List Nat)) (bad : Bool) : Crew :=
  let keys (i j : Nat) : List Nat := tileKeys fmt v acc i j
  let fin := mxIn fmt
  let av := ar.map fun r => r.map (FVal.ofBits fin)
  let bv := br.map fun r => r.map (FVal.ofBits fin)
  let ij := tileIdx m n
  if mxBad c v fmt m n z acc bad then
    let c := ij.foldl (fun c p => tileSet c (keys p.1 p.2) (mxOut fmt).qnan) c
    { c with mxflg := c.mxflg ||| 4 }
  else
    ij.foldl (fun c p =>
      let ks := keys p.1 p.2
      let old := if z then none else some (FVal.ofBits (mxOut fmt) (tileGet c ks))
      let r := mxSum fmt old (av.getD p.1 []) (bv.map fun row => row.getD p.2 (.fin false 0 0))
      let c := tileSet c ks r.1
      { c with mxflg := c.mxflg ||| w64 (b2n r.2.2 + 2 * b2n r.2.1) }) c

/-! ### Signing (R270, R277, R282, R303) -/

/-- Codes of a gathered row. -/
def splitCodes (e v : Nat) : Nat → List Nat
  | 0 => []
  | n + 1 => v % 2 ^ (8 * e) :: splitCodes e (v / 2 ^ (8 * e)) n

/-- A matrix form: `op` 0 `mx.mma`, 1 `mx.gmma`, 2 `mx.pmma`. In the order of R270 the extents are checked before the tile, so an
`mx.pmma` that names a core at or above k traps with cause 5 for B on that side, not with the cause 26 of R278 (DEDUCED,
log 77). -/
def mxForm (s : State) (op : Nat) (x : MxArgs) : Out :=
  s.onCrew fun t c =>
    let i := x.cv.toNat
    let trap (k : Nat) (v : Word) : Out :=
      .next (let s' := s.trap k v; if op = 2 then s'.breakPair c.id i t.sid else s')
    if t.sMode then trap 2 s.ibits
    else if c.cvs ≤ i then s.status x.rd (neg 3)
    else
      let r := c.cvGet i
      let fmt := mxCode x.fmt
      let m := 16 * 2 ^ dimNum x.m
      let n := 16 * 2 ^ dimNum x.n
      let a := (s.x x.a).toNat
      let b := (s.x x.b).toNat
      let p := (s.x x.p).toNat
      let w := (s.x x.x).toNat
      let sig := [op, fmt, dimNum x.m, dimNum x.n, b2n x.z, i, if op = 1 then 0 else a, b, p, w]
      let ke := mxK fmt * mxE fmt
      let pa := p % 65536
      let pb := p / 65536 % 65536
      let v0 := awCore w
      let v1 := awPartner w
      match r.signable t.sid 3 sig with
      | .mismatch => trap 25 s.ibits
      | .busy => .next (s.await (.busy i))
      | .ok =>
        if bits p 63 32 ≠ 0 || b % 64 ≠ 0 || pb % 64 ≠ 0 || pb < n * mxE fmt then s.status x.rd (neg 3)
        else if op ≠ 1 && (a % 64 ≠ 0 || pa % 64 ≠ 0 || pa < ke) then s.status x.rd (neg 3)
        else if op = 2 && bits b 23 20 ≠ 0 then s.status x.rd (neg 3)
        else
          let arows := if op = 1 then [] else (upto 0 m).map fun j => (a + j * pa, ke)
          let brows (base : Nat) : List (Nat × Nat) := (upto 0 (mxK fmt)).map fun j => (base + j * pb, n * mxE fmt)
          let outs := [rowsOut c arows] ++
            (if op = 2 then [rowsOut c (brows (2 ^ 20 * v0 + b % 2 ^ 20)), rowsOut c (brows (2 ^ 20 * v1 + b % 2 ^ 20))]
             else [rowsOut c (brows b)])
          match outs.findSome? id with
          | some ad => trap 5 (w64 ad)
          | none =>
            let ok := if op = 2 then v0 ≠ v1 && v1 < c.k && tileOk c fmt m n w v0 && tileOk c fmt m n w v1
              else v1 = 0 && tileOk c fmt m n w v0
            if !ok then trap 26 (w64 w)
            else if op ≠ 1 then .next (s.cvSign t i 3 sig x.rd [])
            else if 128 ≤ s.latchUsed (c.coreNum v0) then s.stall
            else if a = 2 ^ 64 - 1 then .next (s.cvSign t i 3 sig x.rd (List.replicate (mxK fmt) 0))
            else if a % ke ≠ 0 then s.raise 4 (w64 a)
            else
              (s.locate s.cur .load (w64 a) ke).run fun s loc =>
                match loc with
                | .mmio _ => s.raise 5 (w64 a)
                | .mem parts =>
                  if parts.any fun p => p.pbmt = 2 then s.raise 5 (w64 a)
                  else
                    (s.openParts s.cur (w64 a) parts false).run fun s _ =>
                      let v := ofBytes (s.readParts s.cur parts)
                      .next ((s.dropNc t.core parts).cvSign t i 3 sig x.rd (splitCodes (mxE fmt) v (mxK fmt)))

/-- A control form on the hold state (R282), whose signature holds the instruction word: `op` 4 take, 5 pass, 6 take.tk, 7 pass.tk. -/
def ctlForm (s : State) (op : Nat) (rd : Reg) (n : BitVec 4) (v x2 x3 : Nat) : Out :=
  s.onCrew fun t c =>
    if t.sMode then s.illegal
    else if c.cvs ≤ n.toNat then s.status rd (neg 3)
    else
      let sig := [op, n.toNat, v, x2, x3, s.ibits.toNat]
      match (c.cvGet n.toNat).signable t.sid 4 sig with
      | .mismatch => s.mismatch
      | .busy => .next (s.await (.busy n.toNat))
      | .ok =>
        if c.k ≤ v then s.status rd (neg 3)
        else .next (s.cvSign t n.toNat 4 sig rd [])

/-- A drain (R303). -/
def drnForm (s : State) (z : Bool) (x : DrnArgs) : Out :=
  s.onCrew fun t c =>
    if t.sMode then s.illegal
    else if c.cvs ≤ x.cv.toNat then s.status x.rd (neg 3)
    else
      let i := x.cv.toNat
      let w := (s.x x.acc).toNat
      let b0 := (s.x x.b0).toNat
      let b1 := (s.x x.b1).toNat
      let sig := [3, x.prog.toNat, b2n z, i, x.h1.toNat, dimNum x.w, w, b0, b1, (s.x x.x).toNat]
      match (c.cvGet i).signable t.sid 3 sig with
      | .mismatch => s.mismatch
      | .busy => .next (s.await (.busy i))
      | .ok =>
        if bits b0 63 48 ≠ 0 || bits b1 63 48 ≠ 0 then s.status x.rd (neg 3)
        else if !awOk c w || awPartner w ≠ 0 || 32 < awRow w + x.h1.toNat + 1 || awCol w % 16 ≠ 0
            || 128 < awCol w + 16 * 2 ^ dimNum x.w || c.banks ≤ awBank w || !c.allocd (awCore w) (awBank w) then
          s.raise 26 (w64 w)
        else .next (s.cvSign t i 3 sig x.rd [])

/-- The checks of `am.get`, `am.rel` and `am.zero` on the word and the count (R268). -/
def amOk (c : Crew) (w cnt : Nat) : Bool :=
  awOk c w && awPartner w = 0 && awRow w = 0 && awCol w = 0 && cnt ≠ 0 && awBank w + cnt ≤ c.banks

end State

/-- `mx.mma`. -/
def execMxMma (x : MxArgs) (s : State) : Out := s.mxForm 0 x
/-- `mx.gmma`. -/
def execMxGmma (x : MxArgs) (s : State) : Out := s.mxForm 1 x
/-- `mx.pmma`. -/
def execMxPmma (x : MxArgs) (s : State) : Out := s.mxForm 2 x
/-- `mx.take`. -/
def execMxTake (rd a : Reg) (n : BitVec 4) (s : State) : Out := s.ctlForm 4 rd n (s.x a).toNat 0 0
/-- `mx.pass`. -/
def execMxPass (rd a b : Reg) (n : BitVec 4) (s : State) : Out := s.ctlForm 5 rd n (s.x a).toNat (s.x b).toNat 0
/-- `mx.take.tk`. -/
def execMxTakeTk (rd a b c : Reg) (n : BitVec 4) (s : State) : Out :=
  s.ctlForm 6 rd n (s.x a).toNat (s.x b).toNat (s.x c).toNat
/-- `mx.pass.tk`. -/
def execMxPassTk (rd a : Reg) (n : BitVec 4) (s : State) : Out := s.ctlForm 7 rd n (s.x a).toNat 0 0
/-- `mx.drn`. -/
def execMxDrn (x : DrnArgs) (s : State) : Out := s.drnForm false x
/-- `mx.drn.z`. -/
def execMxDrnZ (x : DrnArgs) (s : State) : Out := s.drnForm true x

/-- `am.get`. -/
def execAmGet (rd a b : Reg) (s : State) : Out :=
  s.onCrew fun t c =>
    let w := (s.x a).toNat
    let n := (s.x b).toNat
    if t.sMode then s.illegal
    else if !State.amOk c w n then s.status rd (neg 3)
    else s.enter t c (awCore w) (.amGet (awBank w) n) (some rd) true

/-- `am.rel`. -/
def execAmRel (rd a b : Reg) (s : State) : Out :=
  s.onCrew fun t c =>
    let w := (s.x a).toNat
    let n := (s.x b).toNat
    if t.sMode then s.illegal
    else if !State.amOk c w n then s.status rd (neg 3)
    else s.enter t c (awCore w) (.amRel (awBank w) n) (some rd) true

/-- `am.zero`. -/
def execAmZero (a b : Reg) (s : State) : Out :=
  s.onCrew fun t c =>
    let w := (s.x a).toNat
    let n := (s.x b).toNat
    if t.sMode then s.illegal
    else if awOk c w && !s.queueRoom (c.coreNum (awCore w)) then s.stall
    else if !State.amOk c w n || !(upto (awBank w) n).all (fun i => c.allocd (awCore w) i) then s.raise 26 (w64 w)
    else s.enter t c (awCore w) (.amZero (awBank w) n) none true

/-- `am.rd`. -/
def execAmRd (rd a : Reg) (s : State) : Out :=
  s.onCrew fun t c =>
    let w := (s.x a).toNat
    if awOk c w && !s.queueRoom (c.coreNum (awCore w)) then s.stall
    else if !awOk c w || awPartner w ≠ 0 || awCol w % 2 ≠ 0 || c.banks ≤ awBank w || !c.allocd (awCore w) (awBank w) then
      s.raise 26 (w64 w)
    else s.enter t c (awCore w) (.amRd (awBank w) (awRow w) (awCol w)) (some rd) true

/-- `ep.load` (R301). -/
def execEpLoad (rd a b : Reg) (s : State) : Out :=
  s.onCrew fun t c =>
    let sel := (s.x b).toNat
    let v := bits sel 9 8
    let ad := s.x a
    if t.sMode then s.illegal
    else if sel ≠ bits sel 1 0 + v * 256 || c.k ≤ v then s.status rd (neg 3)
    else if ad.toNat % 64 ≠ 0 then s.status rd (neg 3)
    else
      (s.load ad 4).run fun s hdr =>
        let n := bits hdr 6 0
        (if n = 0 then .ok s 0 else s.load (ad + 4) (4 * n)).run fun s img =>
          let ws := State.splitCodes 4 img n
          if n = 0 || 64 < n || bits hdr 31 7 ≠ 0 || (epParse ws).isNone then s.status rd (neg 3)
          else s.enter t c v (.load (bits sel 1 0) ws) (some rd) true

/-- `ep.run` (R302). -/
def execEpRun (rd a b c' x : Reg) (s : State) : Out :=
  s.onCrew fun t c =>
    let w := (s.x a).toNat
    let b0 := (s.x b).toNat
    let b1 := (s.x c').toNat
    let v := bits w 9 8
    if t.sMode then s.illegal
    else if w ≠ bits w 1 0 + v * 2 ^ 8 + bits w 20 16 * 2 ^ 16 + bits w 25 24 * 2 ^ 24 || c.k ≤ v || bits b0 63 48 ≠ 0
        || bits b1 63 48 ≠ 0 then s.status rd (neg 3)
    else s.enter t c v (.run (bits w 1 0) (bits w 20 16 + 1) (16 * 2 ^ bits w 25 24) b0 b1 (s.x x).toNat) (some rd) false

/-- PMMA_PAIR_TIMEOUT: one side of a pending `mx.pmma` has been fully signed for 65,536 cc (R280). -/
def execPmmaPairTimeout (crew n : Nat) (s : State) : Out :=
  .next (match s.crew? crew with
    | none => s
    | some c =>
      let r := c.cvGet n
      match r.sideFrom with
      | some x =>
        if r.kind = 3 && r.sig.getD 0 0 = 2 && !r.fixed && x + 65536 ≤ s.ccRun (c.coreNum 0) then s.cvWithdraw crew n r fun _ => false else s
      | none => s)

/-- ENGINE_ENTRY_START: the first entry not started, where only started matrix operations are ahead of it, reads its
operands, each byte written since it entered as either value (R286), or is performed at once where it is an allocation form,
`am.rd` or `ep.load` (R262, R268). -/
def execEngineEntryStart (core : Nat) (s : State) : Out :=
  let q := s.queueOf core
  .next (match q.dropWhile (·.started) with
    | [] => s
    | e :: _ =>
      match e.op, s.crew? e.crew with
      | .mma fmt m n z acc a b p rows mate, some c =>
        let (c, s) := s.lateView c e.late
        let o := State.mxOperands c fmt m n a b p rows
        let op : EngOp := .calc fmt m n z acc o.1 o.2.1 (o.2.2 || e.bad)
        let aBad := rows.isNone && (upto 0 m).any fun i => c.stageBad (a + i * (p % 65536)) (mxK fmt * mxE fmt)
        { s with engine := s.engine.map fun x =>
            if x.id = e.id then { x with op }
            else if mate = some x.id then
              match x.op with
              | .mma f m' n' z' acc' a' b' p' none mt => { x with op := .mma f m' n' z' acc' a' b' p' (some o.1) mt, bad := aBad }
              | _ => x
            else x }
      | .amGet _ _, _ => if q.headD e = e then s.performAm e else s
      | .amRel _ _, _ => if q.headD e = e then s.performAm e else s
      | .amZero _ _, _ => if q.headD e = e then s.performAm e else s
      | .amRd _ _ _, _ => if q.headD e = e then s.performAm e else s
      | .load _ _, _ => if q.headD e = e then s.performAm e else s
      | _, _ => s)

/-- MATRIX_WRITES_LAND: the oldest entry is a started operation; its accumulator writes are made (R262, R272), and
poison it read is recorded (R383). -/
def execMatrixWritesLand (core : Nat) (s : State) : Out :=
  .next (match s.queueOf core with
    | [] => s
    | e :: _ =>
      match e.op with
      | .calc fmt m n z acc ar br bad =>
        let ps := match s.crew? e.crew with | some c => State.mxBad c e.v fmt m n z acc bad | none => bad
        let s := s.modCrew e.crew fun c => State.mxPerform c e.v fmt m n z acc ar br bad
        let s := if ps then s.faultRecord core { kind := 4 } else s
        let s := s.modCore core fun k => { k with mxcnt := k.mxcnt + 1 }
        s.entryDone e 0
      | _ => s)

/-- EPILOGUE_ENTRY: the oldest entry is a drain or an `ep.run`, and is performed (R296). -/
def execEpilogueEntry (core : Nat) (s : State) : Out :=
  .next (match s.queueOf core with
    | [] => s
    | e :: _ =>
      match e.op with
      | .run _ _ _ _ _ _ => s.performAm e
      | .drain _ _ _ _ _ _ _ _ => s.performAm e
      | _ => s)

end Sys2Proof.Machine
end

