-- ==== Sys2Proof/Machine/Samples.lean ====
section
/-! DEFINITION. Sample-group instructions (12_sample_groups.md). Each acts at its group at its issue, which is its place
in the group order (R313). -/

namespace Sys2Proof.Machine

namespace State

/-- Frames of the pages of a record, translated as for a store: base address, PAT attribute, PBMT type (R319). -/
def recordPages (s : State) (va : Nat) : Nat → Nat → Res (List Phys)
  | _, 0 => .ok s []
  | first, n + 1 =>
    let a := w64 (if first = 0 then va else va / 4096 * 4096 + 4096 * first)
    match s.translate s.cur .store a with
    | .trap s c v => .trap { s with accPa := 0 } c v
    | .stall s => .stall s
    | .ok s p =>
      let s := { s with accPa := p.pa }
      if region p.pa = .mmio then .trap s 7 a
      else
        match s.memAt p.pa with
        | .fault => .trap s 7 a
        | .waits => .stall s
        | .ok => (s.recordPages va (first + 1) n).bind fun s l => .ok s ({ p with pa := p.pa / 4096 * 4096 } :: l)

/-- Bytes [off, off + n) of a record, as parts of memory. -/
def recordParts (g : Group) (off n : Nat) : List Part :=
  let a := g.record % 4096 + off
  (upto (a / 4096) ((a + n + 4095) / 4096 - a / 4096)).map fun p =>
    let lo := max a (4096 * p)
    { pa := g.frames.getD p 0 + lo % 4096, n := min (a + n) (4096 * p + 4096) - lo, attr := 0, pbmt := 0 }

/-- What `sg.fork` stores in its record (R319): the header's fields, entry by entry, the state word last; none of these writes
covers a line, so poison stays (R437). -/
def recordInit (s : State) (g : Group) (h : Word) : State :=
  let w (s : State) (o : Nat) (d : List Byte) : State := s.writeParts s.cur (recordParts g o d.length) d
  let s := s.dropNc (s.coreOf s.cur) (recordParts g 0 (64 + 16 * g.n))
  let s := w (w s 0x18 (toBytes 0 32)) 0x38 (toBytes h.toNat 8)
  w ((upto 0 g.n).foldl (fun s i => w s (0x40 + 16 * i) (toBytes 0 16)) s) 0 (toBytes 1 8)

/-- A form of Table 12.5 on a child slot that holds a sample group: -9 in S-mode, -3 elsewhere (R318). -/
def onGroup (s : State) (rd a : Reg) (g : Strand → Fleet → Group → Out) : Out :=
  s.onStrand fun t =>
    if t.sMode then s.status rd (neg 9)
    else if 3 < (s.x a).toNat then s.status rd (neg 3)
    else
      match s.slotFleet t (s.x a).toNat with
      | none => s.status rd (neg 3)
      | some f => match f.group with | some x => g t f x | none => s.status rd (neg 3)

end State

/-- ε of a record header: finite, sign 0. -/
def epsOk (e : Nat) : Bool := e < 0x7FF0000000000000

/-- `sg.fork` (R319). -/
def execSgFork (rd a b : Reg) (s : State) : Out :=
  s.onCrew fun t c =>
    let r := (s.x b).toNat
    if t.sMode || !t.leader then s.status rd (neg 9)
    else if r % 64 ≠ 0 then s.status rd (neg 3)
    else
      (s.load (s.x b) 64).run fun s hdr =>
        let f (o n : Nat) : Nat := State.blkF hdr o n
        let n := f 8 2
        let slot := f 0xA 1
        if f 0 8 ≠ 0 || n < 2 || 256 < n || 3 < slot || f 0xB 1 ≠ 0 || !epsOk (f 0x10 8) then s.status rd (neg 3)
        else if State.childOf t slot ≠ 0 then s.status rd (neg 1)
        else if s.fdepth c = 10 then s.status rd (neg 2)
        else if (s.x a).toNat % 64 ≠ 0 then s.status rd (neg 3)
        else
          (s.load (s.x a) 64).run fun s blk =>
            if !State.blockOk blk || State.blkF blk 8 4 ≠ n then s.status rd (neg 3)
            else
              (s.recordPages r 0 ((r % 4096 + 64 + 16 * n + 4095) / 4096)).run fun s ps =>
                if ps.any fun p => p.attr ≠ 0 || p.pbmt ≠ 0 then s.status rd (neg 3)
                else if 1024 ≤ (s.fleets.filter fun x => x.die = c.die && x.group.isSome).length then s.status rd (neg 1)
                else
                  let g : Group :=
                    { n, timeout := f 0xC 4, eps := BitVec.ofNat 64 (f 0x10 8), record := r, frames := ps.map (·.pa),
                      states := List.replicate n 0, running := true }
                  s.withSeed t blk fun s t =>
                    (s.openParts s.cur (w64 r) (State.recordParts g 0 (64 + 16 * n)) true).run fun s _ =>
                      match s.release.newFleet t c slot blk (some g) with
                      | none => s.status rd (neg 1)
                      | some (s, h) => (s.recordInit g h).status rd 0

/-- `sg.rwd` (R320). -/
def execSgRwd (rd a : Reg) (s : State) : Out :=
  s.onCrew fun t c =>
    let x := (s.f a).toNat
    if t.sMode then s.status rd (neg 9)
    else
      match s.group? c.fleet with
      | none => s.status rd (neg 9)
      | some g =>
        if !t.leader then s.status rd (neg 9)
        else if 0x43F0000000000000 < x % 2 ^ 63 then s.status rd (neg 3)
        else
          let s := s.release
          match g.st c.sibling with
          | 2 => s.status rd (neg 6)
          | 1 => s.status rd (neg 4)
          | 3 => s.status rd (neg 4)
          | 6 => s.status rd (neg 4)
          | _ =>
            if g.closed then
              let s := s.setSib c.fleet c.sibling 6
              (s.recWrite g 0x2E (g.count 6 + 1) 2).status rd (neg 5)
            else
              let s := s.modGroup c.fleet fun g => { g with rewards := g.rewards ++ [(c.sibling, BitVec.ofNat 64 x)] }
              let s := s.recWrite g (0x40 + 16 * c.sibling) x 8
              ((s.setSib c.fleet c.sibling 1).tryClose c.fleet).status rd 0

/-- `sg.col` (R321). -/
def execSgCol (rd a : Reg) (s : State) : Out :=
  s.onGroup rd a fun t _ _ => s.parkForm t rd (.group (s.x a).toNat) false

/-- `sg.cxl` (R322): the issuer waits until the crew's strands have stopped. -/
def execSgCxl (rd a b : Reg) (s : State) : Out :=
  s.onGroup rd a fun _ f g =>
    let i := (s.x b).toNat
    if g.n ≤ i then s.status rd (neg 3)
    else if g.closed then s.status rd (neg 5)
    else if g.st i = 2 || g.st i = 3 || g.st i = 5 then s.status rd (neg 4)
    else
      let s := s.setSib f.handle i 2
      let gone (g : Group) : Nat := ((upto f.nextC (f.crews - f.nextC)).takeWhile fun j => g.st j = 2).length
      let s := s.modFleet f.handle fun f =>
        { f with nextC := f.nextC + match f.group with | some g => gone g | none => 0 }
      let crew := (s.crewsOf f.handle).find? fun c => c.cid = i
      let s := match crew with | some c => s.stopCrewAll c.id | none => s
      let s := s.tryClose f.handle
      match crew with
      | none => s.status rd 0
      | some c => if (s.crew? c.id).isNone then s.status rd 0 else .next (s.await (.group c.id rd))

/-- `sg.ext` (R323). -/
def execSgExt (rd a b : Reg) (s : State) : Out :=
  s.onGroup rd a fun _ f g =>
    if g.closed then s.status rd (neg 5)
    else if g.timeout = 0 then s.status rd (neg 4)
    else
      let v := min (g.timeout + (s.x b).toNat) (2 ^ 32 - 1)
      ((s.modGroup f.handle fun g => { g with timeout := v }).recWrite g 0xC v 4).status rd 0

/-- What `sg.qry` code `q` reads (Table 12.6). -/
def groupQuery (g : Group) (q : Nat) : Nat :=
  match q with
  | 0 => if g.closed then 2 else 1
  | 1 => g.count 1
  | 2 => g.count 2
  | 3 => g.count 3 + g.count 4 + g.count 5
  | 4 => g.count 6
  | 5 => g.clock
  | _ => if g.closed then g.flags else 0

/-- `sg.qry` (R324). -/
def execSgQry (rd a b : Reg) (s : State) : Out :=
  s.onStrand fun t =>
    if t.sMode then s.status rd (neg 9)
    else if 6 < (s.x b).toNat || 3 < (s.x a).toNat then s.status rd (neg 3)
    else
      match s.slotFleet t (s.x a).toNat with
      | none => s.status rd 0
      | some f =>
        match f.group with
        | some g => s.status rd (w64 (groupQuery g (s.x b).toNat))
        | none => s.status rd (neg 3)

/-- `sg.leave` (R325). -/
def execSgLeave (rd : Reg) (s : State) : Out :=
  s.onCrew fun t c =>
    if t.sMode || !t.leader then s.status rd (neg 9)
    else
      match s.group? c.fleet with
      | none => s.status rd (neg 9)
      | some g =>
        let st := g.st c.sibling
        if st = 2 then s.status rd (neg 6)
        else if st = 1 || st = 3 then s.status rd (neg 4)
        else if g.closed then s.status rd (neg 5)
        else ((s.setSib c.fleet c.sibling 3).tryClose c.fleet).status rd 0

/-- GROUP_TIMEOUT (R314, R315): pending siblings become timed out. The passing of time takes a timeout into the group order when
the clock reaches it; this step finds an extension that has not moved it. -/
def execGroupTimeout (h : Word) (s : State) : Out :=
  .next (match s.group? h with
    | some g =>
      if g.running && !g.closed && g.timeout ≠ 0 && g.timeout ≤ g.clock && g.states.any (· = 0) then
        s.closeGroup h 4 4 g.timeout
      else s
    | none => s)

end Sys2Proof.Machine
end

