-- ==== Sys2Proof/Machine/Fetch.lean ====
section
/-! DEFINITION. Fetching and issuing an instruction of an agent, the passing of time and the changes that come from
outside (R31, R32, R43, R55, R93 to R97, R217). -/

namespace Sys2Proof.Machine

/-- The bits of an instruction, zero-extended (R31). -/
def instrBits (ps : List (BitVec 16)) : Word :=
  ps.foldr (fun p acc => (acc <<< 16) ||| p.setWidth 64) 0

namespace State

/-- Fetches every parcel of the instruction at the pc of an agent (R32). -/
def fetchInstr (s : State) (a : Agent) : Res (List (BitVec 16)) :=
  let pc := sget (s.ctxOf a) cPc
  (s.fetchParcel a pc none).bind fun s p =>
    (s.fetchParcels a (pc + 2) (some p.2) (parcelLen p.1 / 2 - 1)).bind fun s ps => .ok s (p.1 :: ps)

/-- The instruction may stand in a constrained LR/SC loop: base I without loads, stores, backward jumps, taken backward
branches, `jalr`, `fence` and system instructions; LR and SC end a hold by themselves (R217). -/
def inLrLoop (s : State) (i : Instr) : Bool :=
  match i with
  | .standardAlu (.rr op _ _ _) =>
    [AluOp.add, .sub, .sll, .slt, .sltu, .xor, .srl, .sra, .or, .and, .addw, .subw, .sllw, .srlw, .sraw].contains op
  | .standardAlu (.ri op _ _ _) =>
    [AluImm.addi, .slti, .sltiu, .xori, .ori, .andi, .slli, .srli, .srai, .addiw, .slliw, .srliw, .sraiw].contains op
  | .standardAlu (.lui _ _) => true
  | .standardAlu (.auipc _ _) => true
  | .branchJump (.br c a b off) => !(off.msb && brTaken c (s.x a) (s.x b))
  | .branchJump (.jal _ off) => !off.msb
  | .lr _ _ _ _ _ => true
  | .sc _ _ _ _ _ _ => true
  | _ => false

/-- The writes pending at the scoreboard that hold an instruction back: those of registers it uses, or with 8 loads outstanding
the oldest where it is a load (R94, R101, R230). -/
def heldBy (t : Strand) (i : Instr) : List Mark :=
  let m := t.marks.filter fun m => i.regs.contains m.reg
  if m.isEmpty && i.isLoad then (t.marks.filter (·.load)).drop 7 else m

/-- A register that an instruction of strand `k` uses is still to be written by an entry of an engine queue (R101, R268). -/
def owes (s : State) (k : Nat) (i : Instr) : Bool := s.owed k fun r => i.regs.contains r.toNat

/-- The convergence register of the `mx.pmma` at the pc of a strand, where its next instruction is one. -/
def pmmaAt (s : State) (k : Nat) : Option Nat :=
  if s.imagePoison k [0] then none
  else
    match (s.fetchLines k [0]).fetchInstr (.strand k) with
    | .ok _ ps => match decode ps with
      | .ok (.mxPmma x) => some x.cv.toNat
      | .ok _ => none
      | .lcore _ => none
      | .mret => none
      | .illegal => none
    | .trap _ _ _ => none
    | .stall _ => none

/-- The strand in issue takes cause 27 before its next instruction begins; at an `mx.pmma` the pair breaks (R280, R290). -/
def poisonTrap (s s' : State) (t : Strand) (v : Word) : State :=
  let s' := { s' with accPa := 0 }.trap 27 v
  match s.pmmaAt t.image with
  | some n => s'.breakPair t.crew n t.sid
  | none => s'

/-- `withLines` at an instruction of strand `k`. -/
def withContext (s : State) (k : Nat) (ls : List Nat) (g : State → Out) : Out :=
  match s.strand? k with
  | none => .next s
  | some t => if s.imagePoison k ls then .next (s.poisonTrap s t (w64 k)) else s.withLines k ls g

/-- An instruction of strand `k` that is not in a constrained LR/SC loop, or the 16th since its LR, ends the strand's hold
(R217). -/
def holdOver (s : State) (k : Nat) (i : Instr) : State :=
  if s.holds.any fun h => h.image = k && (!s.inLrLoop i || h.left ≤ 1) then s.endHold k else s

/-- A strand executes a decoded instruction, once the context lines that it uses are there. Where a pending load holds it back,
the turn returns that load and the instruction has not issued (log 18). -/
def execStrand (s : State) (k : Nat) (exec : Instr → State → Out) (i : Instr) : Out :=
  match s.strand? k with
  | none => .next s
  | some t =>
    s.withContext k (i.lines t.depth) fun s =>
      let held := heldBy t i
      if s.owes k i then s.stall
      else if !held.isEmpty then
        .next (s.modStrand k fun t => { t with marks := t.marks.filter fun m => !held.contains m, since := none })
      else
        exec i (s.holdOver k i)

/-- Executes what was decoded (Table 2.11). -/
def execDecoded (s : State) (exec : Instr → State → Out) (d : Decoded) : Out :=
  match s.cur with
  | .strand k =>
    match d with
    | .ok i => s.execStrand k exec i
    | .lcore _ => s.coreClass
    | .mret => s.illegal
    | .illegal => s.illegal
  | .lcore n =>
    match d with
    | .ok i => exec i s
    | .lcore p => s.execLPart n exec p
    | .mret => if (s.lcoreAt n).mode = .m then .next (s.mretL n).retired else s.illegal
    | .illegal => s.illegal

/-- The state in which an instruction of these parcels executes. -/
def issued (s : State) (ps : List (BitVec 16)) : State :=
  let n := parcelLen (ps.headD 0)
  { s with ibits := instrBits ps, ilen := if n = 0 then 2 else n, accPa := 0, accTiers := [], stalled := false }

/-- Fetches, decodes and executes the instruction at the pc of the agent in issue. -/
def runNext (s : State) (exec : Instr → State → Out) : Out :=
  (s.fetchInstr s.cur).run fun s ps => (s.issued ps).execDecoded exec (decode ps)

/-- A resident strand that may issue (R94): in place, neither stopped nor halted, its pod not in reassignment. -/
def mayIssue (s : State) (t : Strand) : Bool :=
  t.status = .resident && !t.stopped && (match s.crewOf t with | some c => c.pre = 0 | none => false)
    && !(s.podAt (podOf t.core)).halted && (s.podAt (podOf t.core)).rcls < 2

/-- A strand that waits is looked at again. -/
def poll (s : State) (t : Strand) : State :=
  let k := t.image
  match t.wait with
  | .none => s
  | .pause e => if e ≤ s.cc t.core then s.finishWith k id else s
  | .park _ _ _ => s.parkTest k
  | .wrs e => if e ≤ s.cc t.core || t.resv.isNone then s.finishWith k id else s
  | .home _ => s.homeGo k
  | .ending => s.endGo k
  | .group h rd => if (s.crew? h).isNone then s.finishWait k rd 0 else s
  | .busy n =>
    match s.crewOf t with
    | some c => if (c.cvGet n).signed.contains t.sid || (c.cvGet n).fixed then s else s.dropWait k
    | none => s
  | .barrier _ _ _ _ => s
  | .cvWt _ _ _ => s
  | .signed _ _ _ => s
  | .engine _ _ => s
  | .ack _ _ => s

/-- A wait of an issued instruction that goes on by the strand's turns, on a halted pod too (R94, R397). -/
def goesOn : Wait → Bool
  | .home _ | .ending | .group _ _ => true
  | _ => false

/-- The strand in issue: what is pending at its instruction boundary comes first (R61, R68, R83, R393), then its wait, then its
next instruction, with the context lines that every instruction uses (R55). -/
def issueStrand (s : State) (t : Strand) (exec : Instr → State → Out) : Out :=
  let k := t.image
  if t.pendKill && !mustFinish t.wait then .next (s.stopStrand k)
  else if t.ue.isSome && (t.status = .resident || t.status = .preempted) && !s.finishing t then .next (s.lineLost k (t.ue.getD 0))
  else if s.recallDue t then .next (s.recallNow k)
  else if goesOn t.wait && t.status = .resident && !t.stopped && (mustFinish t.wait || t.wait = .ending || t.pendStop = 0) then
    .next (s.poll t)
  else if t.pendStop ≠ 0 && !s.finishing t then .next (s.stopDue k)
  else if !s.mayIssue t then .next s
  else if t.wait ≠ .none then .next (s.poll t)
  else if t.badRd.isSome then
    .next (s.poisonTrap (s.modStrand k fun t => { t with badRd := none }) t (t.badRd.getD 0))
  else
    s.withContext k baseLines fun s =>
      s.withContext k (match s.strand? k with | some t => if t.depth = 0 then [] else [13] | none => []) fun s => s.runNext exec

/-- The agent in issue. -/
def issue (s : State) (exec : Instr → State → Out) : Out :=
  match s.cur with
  | .strand k => match s.strand? k with | some t => s.issueStrand t exec | none => .next s
  | .lcore i =>
    if (s.lcoreAt i).running && i < Config.numLCores then
      match pendingInt (s.lcoreAt i) s.time with
      | some (mode, n) => .next (s.interruptL i mode n)
      | none => s.runNext exec
    else .next s

/-- The agent in issue has an instruction to issue. -/
def canIssue (s : State) : Bool :=
  match s.cur with
  | .strand k => match s.strand? k with | some t => s.mayIssue t && t.wait = .none && t.pendStop = 0 | none => false
  | .lcore i => (s.lcoreAt i).running

/-! ### Time -/

/-- The tiers that a strand waits for: of loads that hold its next instruction back, of parcels that its buffer lacks, of context
lines that it needs (R175). -/
def waitTiers (s : State) (t : Strand) : List Nat :=
  let k := t.image
  if !(s.mayIssue t && t.wait = .none) then []
  else if !(s.absent k baseLines).isEmpty then [tierOf k]
  else
    match s.fetchInstr (.strand k) with
    | .trap _ _ _ => []
    | .stall s' => [tierOf s'.accPa]
    | .ok s' ps =>
      (if s'.ibuf = s.ibuf then [] else [tierOf s'.accPa])
        ++ match decode ps with
          | .ok i => (heldBy t i).flatMap (·.tiers) ++ if (s.absent k (i.lines t.depth)).isEmpty then [] else [tierOf k]
          | .lcore _ => []
          | .mret => []
          | .illegal => []

/-- A crew's stall counters (R175): some strand waits for data of the tier in at most these cc, a free number of which the data
had missed every cache. -/
def stallCount (s : State) (c : Crew) (dcc : Nat → Nat) : State :=
  let mine := s.strands.filter fun t => t.crew = c.id && t.status = .resident && c.pre = 0
  let one (s : State) (tier : Nat) (f : Crew → Nat → Crew) : State :=
    match mine.find? fun t => (s.waitTiers t).contains tier with
    | none => s
    | some t =>
      let (k, s) := s.drawNat
      s.modCrew c.id fun c => f c (k % (dcc t.core + 1))
  one (one s 2 fun c n => { c with tstall := c.tstall + w64 n }) 1 fun c n => { c with hstall := c.hstall + w64 n }

/-- The cc that LRs of a W-core's strands waited, on a hold or on a full table (R234). -/
def hldCount (s : State) (dcc : Nat → Nat) : State :=
  let s := s.holds.foldl (fun s h =>
    if h.waiters.isEmpty then s else s.modCore h.core fun c => { c with hldwt := c.hldwt + w64 (dcc h.core * h.waiters.length) }) s
  { s with cores := (List.zip s.cores (upto 0 s.cores.length)).map fun e =>
      if e.1.lrq.isEmpty then e.1 else { e.1 with hldwt := e.1.hldwt + w64 (dcc e.2 * e.1.lrq.length) } }

/-- What the hardware has waiting is tried again: writes to memory and accesses of debug data. -/
def settle (s : State) : State := s.hwFlush.dbgFlush.evFlush.ioFlush

/-- What `time` advances by in `ns`: with what the slew in progress adds at its rate, which goes on once the grandmaster is lost and
else ends with the offset (R435, log 58). -/
def slewed (s : State) (ns : Nat) : State × Nat :=
  let p := s.pkg
  let lost : Bool := s.ptpState = 0
  let all := p.frac + ns * p.rate
  let m := all / 1000000000
  let m := if !lost && p.slew.natAbs ≤ m.natAbs then p.slew else m
  let left := if lost then p.slew else p.slew - m
  (s.modPkg fun p => { p with slew := left, rate := if !lost && left = 0 then 0 else p.rate, frac := all % 1000000000 },
    (ns + m).toNat)

/-- `ns` nanoseconds pass. -/
def elapse (s : State) (ns : Nat) : State :=
  let was := s.pods.map fun p => p.ticks / 1000
  let run (p : PodState) : PodState :=
    { p with ticks := p.ticks + ns * p.mhz, hticks := if p.halted then p.hticks + ns * p.mhz else p.hticks }
  let s : State := { s with pods := s.pods.map run }
  let dcc (core : Nat) : Nat := s.cc core - was.getD (podOf core) 0
  let s := s.crews.foldl (fun s c => s.stallCount c dcc) s
  let (s, n) := (s.hldCount dcc).slewed ns
  (s.advance n).settle

/-! ### Turns -/

/-- A byte of a peer's memory (Table 7.1; `homeAddr`). -/
def peerByte (pa : Nat) : Bool := 2 ^ 60 ≤ pa || match region pa with | .peer _ => true | _ => false

/-- A change from outside. -/
def outside (s : State) (t : Turn) : State :=
  match t with
  | .peerWrite pa data =>
    if data.isEmpty || !peerByte pa || !peerByte (pa + data.length - 1) then s
    else
      let s := s.poke (fun _ => false) 0 0 pa data
      { s with snoop := s.snoop.filter fun e => !(linesOf pa data.length).contains e.line }
  | .peerPost p => s.peerPostOp p
  | .peerUnpost p id => s.peerUnpostOp p id
  | .peerRegion p v => if p = s.pkgNum then s else { s with peerRgn := sset s.peerRgn p v }
  | .sense z temp flow => s.senseZone z (temp % 4096) (flow % 65536)
  | .inlet tin flow => s.setReg (powerBase + 0x28) (w64 (flow % 65536 * 2 ^ 32 + tin % 4096))
  | .msi i sup id => s.msiOp i sup id
  | .iommu p off v => s.ioWrite p off v
  | .portWindow p first n => if p < 2 then s.modIommu p fun u => { u with window := (first, n) } else s
  | .configRead p n answer => if p < 2 then s.ioConfig p n answer else s
  | .pageReq p dev pid priv exec payload => s.pageReqOp p dev pid priv exec payload
  | .selmel core n v => s.selmelWrite core n v
  | .portWidths split => s.modPkg fun p => { p with portConfig := split }
  | .unit f up => s.modPkg fun p => { p with units := (f, up) :: p.units.filter fun x => x.1 ≠ f }
  | .packageReset => s.packageReset
  | .podDraws l => { s with pods := (List.zip s.pods (upto 0 Config.numPods)).map fun e => { e.1 with draw := l.getD e.2 e.1.draw } }
  | .elapse ns => s.elapse ns
  | .issue _ => s
  | .event _ => s

end State

/-- A trial of an instruction that its unit or queue may not accept; `none` for the others (R94). -/
def trial (i : Instr) (s : State) : Option Out :=
  match i with
  | .load k rd a imm => some (execLoad k rd a imm s)
  | .store k a b imm => some (execStore k a b imm s)
  | .ldNc lw rd a imm => some (execLdNc lw rd a imm s)
  | .ldBp lw rd a imm => some (execLdBp lw rd a imm s)
  | .stBp sw a b imm => some (execStBp sw a b imm s)
  | .ss sw a b imm => some (execSs sw a b imm s)
  | .amoOp op t sc aq rl rd a => some (execAmoOp op t sc aq rl rd a s)
  | .amoCas t sc aq rl rd a => some (execAmoCas t sc aq rl rd a s)
  | .amoLd t sc aq rd a => some (execAmoLd t sc aq rd a s)
  | .amoSt t sc rl rd a => some (execAmoSt t sc rl rd a s)
  | .amoDraw sc aq rl rd a => some (execAmoDraw sc aq rl rd a s)
  | .amoTick aq rl rd a => some (execAmoTick aq rl rd a s)
  | .red op t sc a b => some (execRed op t sc a b s)
  | .lr dbl aq rl rd a => some (execLr dbl aq rl rd a s)
  | .sc dbl aq rl rd a b => some (execSc dbl aq rl rd a b s)
  | .standardAmo op dbl aq rl rd a b => some (execStandardAmo op dbl aq rl rd a b s)
  | .amocas cw aq rl rd a b => some (execAmocas cw aq rl rd a b s)
  | .clPost rd a => some (execClPost rd a s)
  | .clRing rd a => some (execClRing rd a s)
  | .clPut rd a b => some (execClPut rd a b s)
  | .clGet rd a b => some (execClGet rd a b s)
  | .clSig rd a b => some (execClSig rd a b s)
  | .copyGs f rd a b c => some (execCopyGs f rd a b c s)
  | .copySg f rd a b c => some (execCopySg f rd a b c s)
  | .copyGg f rd a b c => some (execCopyGg f rd a b c s)
  | .copySs f rd a b c => some (execCopySs f rd a b c s)
  | .copyGath f rd a b c x y => some (execCopyGath f rd a b c x y s)
  | .copyScat f rd a b c x y => some (execCopyScat f rd a b c x y s)
  | .copyFillS rd a b c => some (execCopyFillS rd a b c s)
  | .copyFillG rd a b c => some (execCopyFillG rd a b c s)
  | .cpSeal rd => some (execCpSeal rd s)
  | .cpWait rd a => some (execCpWait rd a s)
  | .mxMma x => some (execMxMma x s)
  | .mxGmma x => some (execMxGmma x s)
  | .mxPmma x => some (execMxPmma x s)
  | .amGet rd a b => some (execAmGet rd a b s)
  | .amRel rd a b => some (execAmRel rd a b s)
  | .amZero a b => some (execAmZero a b s)
  | .amRd rd a => some (execAmRd rd a s)
  | .epLoad rd a b => some (execEpLoad rd a b s)
  | .epRun rd a b c x => some (execEpRun rd a b c x s)
  | .mxDrn x => some (execMxDrn x s)
  | .mxDrnZ x => some (execMxDrnZ x s)
  | .csrAccess op imm rd src csr => some (execCsrAccess op imm rd src csr s)
  | .thParkMem rd a b => some (execThParkMem rd a b s)
  | .clWait rd a b => some (execClWait rd a b s)
  | .clWaitTry rd a b => some (execClWaitTry rd a b s)
  | .mgGo rd a => some (execMgGo rd a s)
  | .fkFlt rd a b => some (execFkFlt rd a b s)
  | .sgFork rd a b => some (execSgFork rd a b s)
  | _ => none

namespace State

/-- What the strand in issue has sent (R336). -/
def sentNow (s : State) : List (Nat × Word) := match s.curStrand with | some t => t.sent | none => []

/-- The unit or queue that an instruction needs can accept it (R94): its trial does not stall, or stalls for what it sends to a peer.
An LR or a request that a hold keeps waiting is noted in the hold table (R217). -/
def accepts (s : State) (i : Instr) : Bool × State :=
  match trial i s with
  | some (.next s') =>
    if s'.stalled && s'.sentNow = s.sentNow then (false, { s with holds := s'.holds, cores := s'.cores }) else (true, s)
  | _ => (true, s)

/-- A strand is ready (R94): it may issue, waits for nothing, and of its next instruction every parcel is in its buffer, the
context lines are there, no register is pending, and the unit accepts it. A fetch that faults is delivered at its issue. -/
def readyNow (s : State) (t : Strand) : Bool × State :=
  let k := t.image
  let a := Agent.strand k
  if !s.mayIssue t || t.wait ≠ .none || t.pendStop ≠ 0 || t.pendKill || s.recallDue t || !(s.absent k baseLines).isEmpty then (false, s)
  else
    match s.fetchInstr a with
    | .trap _ _ _ => (true, s)
    | .stall _ => (false, s)
    | .ok s' ps =>
      if s'.ibuf ≠ s.ibuf then (false, s)
      else
        match decode ps with
        | .ok i =>
          if s.owes k i || !(heldBy t i).isEmpty || !(s.absent k (i.lines t.depth)).isEmpty then (false, s)
          else
            let r := State.accepts ({ s with cur := a }.issued ps) i
            (r.1, { s with holds := r.2.holds, cores := r.2.cores })
        | .lcore _ => (true, s)
        | .mret => (true, s)
        | .illegal => (true, s)

/-- The ready strands among some, with their ages: one that was not ready at the last look is ready since now; the age of one that is
not ready returns to 0 (R95). -/
def readyOf (s : State) (l : List Strand) : List Strand × State :=
  l.foldl (fun (acc : List Strand × State) t =>
    let (b, s) := acc.2.readyNow t
    let t' := { t with since := if b then some (t.since.getD (s.cc t.core)) else none }
    (if b then acc.1 ++ [t'] else acc.1, s.modStrand t.image fun t => { t with since := t'.since })) ([], s)

/-- A resident strand whose buffer lacks a parcel of its next instruction (R93). -/
def wantsParcel (s : State) (t : Strand) : Bool :=
  t.status = .resident && t.present.getLsbD 0 && match s.fetchInstr (.strand t.image) with
    | .ok s' _ => s'.ibuf ≠ s.ibuf
    | .trap _ _ _ => false
    | .stall _ => false

end State

/-- ISSUE_CYCLE: the groups of a quadrant issue next; the counters of Table 4.3 and the gated lanes count (R96, R107,
R108), those of a W-core that is enabled. -/
def execIssueCycle (core quad : Nat) (s : State) : Out :=
  let (ready, s) := s.readyOf (s.strands.filter fun t => t.core = core && t.quad = quad && t.status = .resident)
  let (g1, g2, ovr) := s.issueGroups ready
  let p := passes (s.podAt (State.podOf core))
  let idle := if s.coreOn core && (s.coreAt core).powered then (32 - g1.length - g2.length) * p else 0
  let s := s.modCore core fun c =>
    { c with
      ovrcnt := if ovr then lmod c.ovrcnt quad (· + 1) else c.ovrcnt
      dualcnt := if g2.isEmpty then c.dualcnt else lmod c.dualcnt quad (· + 1)
      gatecnt := c.gatecnt + w64 idle }
  let s := s.modPod (State.podOf core) fun q => { q with gated := q.gated + idle }
  .next { s with agenda := (g1 ++ g2).map (fun t => Turn.issue (.strand t.image)) ++ s.agenda }

/-- INSTRUCTION_FETCH: of the strands of strand k's quadrant whose requests can be served, the oldest one's parcels enter the buffer
(R93, R105); strands that are not ready have one age, and as in R96 ties go by crew and `sid` (DESIGN CHOICE, log 93). -/
def execInstructionFetch (k : Nat) (s : State) : Out :=
  .next (match s.strand? k with
    | some t =>
      match sortBy s.older (s.strands.filter fun u => u.core = t.core && u.quad = t.quad && s.wantsParcel u) with
      | [] => s
      | u :: _ =>
        match s.fetchInstr (.strand u.image) with
        | .ok s _ => s
        | .trap _ _ _ => s
        | .stall s => s
    | none => s)

/-- Where an instruction accesses memory by its first operand. -/
def dataAddr (i : Instr) (s : State) : Option Word :=
  match i with
  | .load _ _ a imm => some (s.x a + imm.signExtend 64)
  | .store _ a _ imm => some (s.x a + imm.signExtend 64)
  | .ldNc _ _ a imm => some (addr9 s a imm)
  | .ldBp _ _ a imm => some (addr9 s a imm)
  | .stBp _ a _ imm => some (addr9 s a imm)
  | .amoOp _ _ _ _ _ _ a => some (s.x a)
  | .amoCas _ _ _ _ _ a => some (s.x a)
  | .amoLd _ _ _ _ a => some (s.x a)
  | .amoSt _ _ _ _ a => some (s.x a)
  | .amoDraw _ _ _ _ a => some (s.x a)
  | .red _ _ _ a _ => some (s.x a)
  | .lr _ _ _ _ a => some (s.x a)
  | .sc _ _ _ _ a _ => some (s.x a)
  | .standardAmo _ _ _ _ _ a _ => some (s.x a)
  | .amocas _ _ _ _ a _ => some (s.x a)
  | _ => none

/-- A strand executes an access to this page: the fetch at its pc, the access of the instruction there, or the test of a resident wait. A
walk starts for no other (R179). -/
def State.walksFor (s : State) (t : Strand) (va : Word) (acc : AccKind) : Bool :=
  let pg (a : Nat) : Bool := a / 4096 = va.toNat / 4096
  let pc := (t.cw cPc).toNat
  match t.wait with
  | .none =>
    if acc = .fetch then pg pc || pg (pc + 7)
    else
      match s.fetchInstr (.strand t.image) with
      | .ok s ps =>
        match decode ps with
        | .ok i => match dataAddr i { s with cur := .strand t.image } with
          | some a => pg a.toNat || pg (a.toNat + 63)
          | none => false
        | .lcore _ => false
        | .mret => false
        | .illegal => false
      | .trap _ _ _ => false
      | .stall _ => false
  | .park (.mem a _ _) _ _ => acc = .load && pg a
  | .park (.memGe a _ _) _ _ => acc = .load && pg a
  | _ => false

/-- PAGE_WALK_COMPLETE: a walk for an access that strand k executes installs a translation; a walk that faults changes nothing by
itself (R179). -/
def execPageWalkComplete (k : Nat) (va : Word) (acc : AccKind) (s : State) : Out :=
  .next (match s.strand? k with
    | some t =>
      if t.status = .resident && s.walksFor t va acc then
        match s.translate (.strand k) acc va with
        | .ok s _ => s
        | .trap _ _ _ => s
        | .stall s => s
      else s
    | none => s)

end Sys2Proof.Machine
end

