-- ==== Sys2Proof/Machine/Dispatch.lean ====
section
/-! DEFINITION. Dispatch: one arm per constructor of `Instr`, each one call of its meaning. -/

namespace Sys2Proof.Machine

/-- The meaning of an instruction for the agent in issue, or of a step of the hardware. -/
def exec (i : Instr) (s : State) : Host.Outcome State Fault Refusal :=
  match i with
  | .mgGo rd a => Sys2Proof.Machine.execMgGo rd a s
  | .mgHome => Sys2Proof.Machine.execMgHome s
  | .fkFlt rd a b => Sys2Proof.Machine.execFkFlt rd a b s
  | .fkJoin rd a => Sys2Proof.Machine.execFkJoin rd a s
  | .fkJoinTry rd a => Sys2Proof.Machine.execFkJoinTry rd a s
  | .fkStop rd a => Sys2Proof.Machine.execFkStop rd a s
  | .fkStopPre rd a => Sys2Proof.Machine.execFkStopPre rd a s
  | .fkStopRsm rd a => Sys2Proof.Machine.execFkStopRsm rd a s
  | .fkQry rd a b => Sys2Proof.Machine.execFkQry rd a b s
  | .thParkMem rd a b => Sys2Proof.Machine.execThParkMem rd a b s
  | .thParkBat rd a => Sys2Proof.Machine.execThParkBat rd a s
  | .thParkTm rd a => Sys2Proof.Machine.execThParkTm rd a s
  | .thYield => Sys2Proof.Machine.execThYield s
  | .thPause imm => Sys2Proof.Machine.execThPause imm s
  | .pauseExpiry k => Sys2Proof.Machine.execPauseExpiry k s
  | .parkSpinTest k => Sys2Proof.Machine.execParkSpinTest k s
  | .strandPark k => Sys2Proof.Machine.execStrandPark k s
  | .watchRetest line => Sys2Proof.Machine.execWatchRetest line s
  | .strandResume k => Sys2Proof.Machine.execStrandResume k s
  | .placementOffer => Sys2Proof.Machine.execPlacementOffer s
  | .contextLineFetch k line => Sys2Proof.Machine.execContextLineFetch k line s
  | .homeNoticePost d => Sys2Proof.Machine.execHomeNoticePost d s
  | .strandStop k => Sys2Proof.Machine.execStrandStop k s
  | .recallWrite d v => Sys2Proof.Machine.execRecallWrite d v s
  | .recallTakesEffect k => Sys2Proof.Machine.execRecallTakesEffect k s
  | .killWrite d v => Sys2Proof.Machine.execKillWrite d v s
  | .framefreeWrite d v => Sys2Proof.Machine.execFramefreeWrite d v s
  | .issueCycle core quad => Sys2Proof.Machine.execIssueCycle core quad s
  | .loadDataReturn k reg => Sys2Proof.Machine.execLoadDataReturn k reg s
  | .cvJoin rd n => Sys2Proof.Machine.execCvJoin rd n s
  | .cvJoinCrew rd n => Sys2Proof.Machine.execCvJoinCrew rd n s
  | .cvQuit rd n => Sys2Proof.Machine.execCvQuit rd n s
  | .cvBar rd n => Sys2Proof.Machine.execCvBar rd n s
  | .cvBarRx rd n => Sys2Proof.Machine.execCvBarRx rd n s
  | .cvArv rd n => Sys2Proof.Machine.execCvArv rd n s
  | .cvArvRx rd n => Sys2Proof.Machine.execCvArvRx rd n s
  | .cvWt rd a n => Sys2Proof.Machine.execCvWt rd a n s
  | .cvWtTry rd a n => Sys2Proof.Machine.execCvWtTry rd a n s
  | .cvQry rd a n => Sys2Proof.Machine.execCvQry rd a n s
  | .barrierPhaseRelease crew n => Sys2Proof.Machine.execBarrierPhaseRelease crew n s
  | .gpShflIdx rd a b n => Sys2Proof.Machine.execGpShflIdx rd a b n s
  | .gpShflXor rd a b n => Sys2Proof.Machine.execGpShflXor rd a b n s
  | .gpShflUp rd a b n => Sys2Proof.Machine.execGpShflUp rd a b n s
  | .gpShflDn rd a b n => Sys2Proof.Machine.execGpShflDn rd a b n s
  | .gpBcst rd a b n => Sys2Proof.Machine.execGpBcst rd a b n s
  | .gpAll rd a n => Sys2Proof.Machine.execGpAll rd a n s
  | .gpAny rd a n => Sys2Proof.Machine.execGpAny rd a n s
  | .gpUni rd a n => Sys2Proof.Machine.execGpUni rd a n s
  | .gpBlt rd a n => Sys2Proof.Machine.execGpBlt rd a n s
  | .gpPcnt rd a n => Sys2Proof.Machine.execGpPcnt rd a n s
  | .gpMtchLdr rd a n => Sys2Proof.Machine.execGpMtchLdr rd a n s
  | .gpMtchCnt rd a n => Sys2Proof.Machine.execGpMtchCnt rd a n s
  | .gpRed op rd a n => Sys2Proof.Machine.execGpRed op rd a n s
  | .gpScan op rd a n => Sys2Proof.Machine.execGpScan op rd a n s
  | .gpXscan op rd a n => Sys2Proof.Machine.execGpXscan op rd a n s
  | .gpRedAddF p rd a n => Sys2Proof.Machine.execGpRedAddF p rd a n s
  | .gpRedMinF p rd a n => Sys2Proof.Machine.execGpRedMinF p rd a n s
  | .gpRedMaxF p rd a n => Sys2Proof.Machine.execGpRedMaxF p rd a n s
  | .gpScanAddF p rd a n => Sys2Proof.Machine.execGpScanAddF p rd a n s
  | .gpXscanAddF p rd a n => Sys2Proof.Machine.execGpXscanAddF p rd a n s
  | .fxLi rd lit => Sys2Proof.Machine.execFxLi rd lit s
  | .fxLiu rd lit => Sys2Proof.Machine.execFxLiu rd lit s
  | .fxLih rd lit => Sys2Proof.Machine.execFxLih rd lit s
  | .fxAddl rd lit => Sys2Proof.Machine.execFxAddl rd lit s
  | .fxAndl rd lit => Sys2Proof.Machine.execFxAndl rd lit s
  | .fxOrl rd lit => Sys2Proof.Machine.execFxOrl rd lit s
  | .fxXorl rd lit => Sys2Proof.Machine.execFxXorl rd lit s
  | .fxAuipcl rd lit => Sys2Proof.Machine.execFxAuipcl rd lit s
  | .fxLis rd lit => Sys2Proof.Machine.execFxLis rd lit s
  | .fxLid rd lit => Sys2Proof.Machine.execFxLid rd lit s
  | .fxAdds t rd a b => Sys2Proof.Machine.execFxAdds t rd a b s
  | .fxSubs t rd a b => Sys2Proof.Machine.execFxSubs t rd a b s
  | .fxDot v rd a b => Sys2Proof.Machine.execFxDot v rd a b s
  | .fxCvtBf16F64 rd a => Sys2Proof.Machine.execFxCvtBf16F64 rd a s
  | .fxCvtF64Bf16 rd a => Sys2Proof.Machine.execFxCvtF64Bf16 rd a s
  | .fxCvtBf16F16 rd a => Sys2Proof.Machine.execFxCvtBf16F16 rd a s
  | .fxCvtF16Bf16 rd a => Sys2Proof.Machine.execFxCvtF16Bf16 rd a s
  | .fxPkBf16 rd a b => Sys2Proof.Machine.execFxPkBf16 rd a b s
  | .fxUpkLo rd a => Sys2Proof.Machine.execFxUpkLo rd a s
  | .fxUpkHi rd a => Sys2Proof.Machine.execFxUpkHi rd a s
  | .fxPaddBf16 rd a b => Sys2Proof.Machine.execFxPaddBf16 rd a b s
  | .fxPsubBf16 rd a b => Sys2Proof.Machine.execFxPsubBf16 rd a b s
  | .fxPmulBf16 rd a b => Sys2Proof.Machine.execFxPmulBf16 rd a b s
  | .fxPfmaBf16 rd a b => Sys2Proof.Machine.execFxPfmaBf16 rd a b s
  | .fxPdotF32Bf16 rd a b => Sys2Proof.Machine.execFxPdotF32Bf16 rd a b s
  | .fxXp f rd a b => Sys2Proof.Machine.execFxXp f rd a b s
  | .fxNr f rd a b => Sys2Proof.Machine.execFxNr f rd a b s
  | .fxSclF32 rd a b => Sys2Proof.Machine.execFxSclF32 rd a b s
  | .fxSclF64 rd a b => Sys2Proof.Machine.execFxSclF64 rd a b s
  | .fxXpnF32 rd a => Sys2Proof.Machine.execFxXpnF32 rd a s
  | .fxXpnF64 rd a => Sys2Proof.Machine.execFxXpnF64 rd a s
  | .fxExp2F32 rd a => Sys2Proof.Machine.execFxExp2F32 rd a s
  | .fxLog2F32 rd a => Sys2Proof.Machine.execFxLog2F32 rd a s
  | .fxRcpF32 rd a => Sys2Proof.Machine.execFxRcpF32 rd a s
  | .fxRsqrtF32 rd a => Sys2Proof.Machine.execFxRsqrtF32 rd a s
  | .fxSinpiF32 rd a => Sys2Proof.Machine.execFxSinpiF32 rd a s
  | .fxCospiF32 rd a => Sys2Proof.Machine.execFxCospiF32 rd a s
  | .fxTanhF32 rd a => Sys2Proof.Machine.execFxTanhF32 rd a s
  | .fxSigmF32 rd a => Sys2Proof.Machine.execFxSigmF32 rd a s
  | .fxSrari rd a sh => Sys2Proof.Machine.execFxSrari rd a sh s
  | .fxSati rd a w1 => Sys2Proof.Machine.execFxSati rd a w1 s
  | .fxSatni rd a w1 => Sys2Proof.Machine.execFxSatni rd a w1 s
  | .fxScliF32 rd a n => Sys2Proof.Machine.execFxScliF32 rd a n s
  | .fxScliF64 rd a n => Sys2Proof.Machine.execFxScliF64 rd a n s
  | .ldNc lw rd a imm => Sys2Proof.Machine.execLdNc lw rd a imm s
  | .ldBp lw rd a imm => Sys2Proof.Machine.execLdBp lw rd a imm s
  | .stBp sw a b imm => Sys2Proof.Machine.execStBp sw a b imm s
  | .sl lw rd a imm => Sys2Proof.Machine.execSl lw rd a imm s
  | .ss sw a b imm => Sys2Proof.Machine.execSs sw a b imm s
  | .fnScoped sc pred succ => Sys2Proof.Machine.execFnScoped sc pred succ s
  | .fnNc => Sys2Proof.Machine.execFnNc s
  | .fnPfL1 a => Sys2Proof.Machine.execFnPfL1 a s
  | .fnPfLlc a => Sys2Proof.Machine.execFnPfLlc a s
  | .fnPfW a => Sys2Proof.Machine.execFnPfW a s
  | .amoOp op t sc aq rl rd a => Sys2Proof.Machine.execAmoOp op t sc aq rl rd a s
  | .amoCas t sc aq rl rd a => Sys2Proof.Machine.execAmoCas t sc aq rl rd a s
  | .amoLd t sc aq rd a => Sys2Proof.Machine.execAmoLd t sc aq rd a s
  | .amoSt t sc rl rd a => Sys2Proof.Machine.execAmoSt t sc rl rd a s
  | .amoDraw sc aq rl rd a => Sys2Proof.Machine.execAmoDraw sc aq rl rd a s
  | .amoTick aq rl rd a => Sys2Proof.Machine.execAmoTick aq rl rd a s
  | .atomicPerform core line => Sys2Proof.Machine.execAtomicPerform core line s
  | .red op t sc a b => Sys2Proof.Machine.execRed op t sc a b s
  | .rbAgeMerge core line => Sys2Proof.Machine.execRbAgeMerge core line s
  | .lrHoldEnd core granule => Sys2Proof.Machine.execLrHoldEnd core granule s
  | .sgFork rd a b => Sys2Proof.Machine.execSgFork rd a b s
  | .sgRwd rd a => Sys2Proof.Machine.execSgRwd rd a s
  | .sgCol rd a => Sys2Proof.Machine.execSgCol rd a s
  | .sgCxl rd a b => Sys2Proof.Machine.execSgCxl rd a b s
  | .sgExt rd a b => Sys2Proof.Machine.execSgExt rd a b s
  | .sgQry rd a b => Sys2Proof.Machine.execSgQry rd a b s
  | .sgLeave rd => Sys2Proof.Machine.execSgLeave rd s
  | .groupTimeout h => Sys2Proof.Machine.execGroupTimeout h s
  | .clPost rd a => Sys2Proof.Machine.execClPost rd a s
  | .clRing rd a => Sys2Proof.Machine.execClRing rd a s
  | .clPut rd a b => Sys2Proof.Machine.execClPut rd a b s
  | .clGet rd a b => Sys2Proof.Machine.execClGet rd a b s
  | .clSig rd a b => Sys2Proof.Machine.execClSig rd a b s
  | .clWait rd a b => Sys2Proof.Machine.execClWait rd a b s
  | .clWaitTry rd a b => Sys2Proof.Machine.execClWaitTry rd a b s
  | .clQry rd a => Sys2Proof.Machine.execClQry rd a s
  | .gateOpen id => Sys2Proof.Machine.execGateOpen id s
  | .descriptorComplete id => Sys2Proof.Machine.execDescriptorComplete id s
  | .ringMatchTimeout id => Sys2Proof.Machine.execRingMatchTimeout id s
  | .remoteRegionAccess r => Sys2Proof.Machine.execRemoteRegionAccess r s
  | .peerLeave p => Sys2Proof.Machine.execPeerLeave p s
  | .linkPortLost p => Sys2Proof.Machine.execLinkPortLost p s
  | .snoopFilterRecall plane => Sys2Proof.Machine.execSnoopFilterRecall plane s
  | .pwQry rd a => Sys2Proof.Machine.execPwQry rd a s
  | .pwYld rd => Sys2Proof.Machine.execPwYld rd s
  | .pwWind rd a => Sys2Proof.Machine.execPwWind rd a s
  | .syPark rd => Sys2Proof.Machine.execSyPark rd s
  | .syEnd rd => Sys2Proof.Machine.execSyEnd rd s
  | .syDbg rd => Sys2Proof.Machine.execSyDbg rd s
  | .syRec rd a b => Sys2Proof.Machine.execSyRec rd a b s
  | .syTlbsd rd a b => Sys2Proof.Machine.execSyTlbsd rd a b s
  | .forwardEntryPost d => Sys2Proof.Machine.execForwardEntryPost d s
  | .fwdrsmWrite d v => Sys2Proof.Machine.execFwdrsmWrite d v s
  | .invalidationAck id => Sys2Proof.Machine.execInvalidationAck id s
  | .ivgoWrite slot v => Sys2Proof.Machine.execIvgoWrite slot v s
  | .pageWalkComplete k va acc => Sys2Proof.Machine.execPageWalkComplete k va acc s
  | .copyGs f rd a b c => Sys2Proof.Machine.execCopyGs f rd a b c s
  | .copySg f rd a b c => Sys2Proof.Machine.execCopySg f rd a b c s
  | .copyGg f rd a b c => Sys2Proof.Machine.execCopyGg f rd a b c s
  | .copySs f rd a b c => Sys2Proof.Machine.execCopySs f rd a b c s
  | .copyGath f rd a b c x y => Sys2Proof.Machine.execCopyGath f rd a b c x y s
  | .copyScat f rd a b c x y => Sys2Proof.Machine.execCopyScat f rd a b c x y s
  | .copyFillS rd a b c => Sys2Proof.Machine.execCopyFillS rd a b c s
  | .copyFillG rd a b c => Sys2Proof.Machine.execCopyFillG rd a b c s
  | .cpSeal rd => Sys2Proof.Machine.execCpSeal rd s
  | .cpWait rd a => Sys2Proof.Machine.execCpWait rd a s
  | .cpStop rd => Sys2Proof.Machine.execCpStop rd s
  | .copyDescriptorReadback k => Sys2Proof.Machine.execCopyDescriptorReadback k s
  | .copyBegin core => Sys2Proof.Machine.execCopyBegin core s
  | .copyChunkWrite id chunk => Sys2Proof.Machine.execCopyChunkWrite id chunk s
  | .mxMma x => Sys2Proof.Machine.execMxMma x s
  | .mxGmma x => Sys2Proof.Machine.execMxGmma x s
  | .mxPmma x => Sys2Proof.Machine.execMxPmma x s
  | .pmmaPairTimeout crew n => Sys2Proof.Machine.execPmmaPairTimeout crew n s
  | .mxTake rd a n => Sys2Proof.Machine.execMxTake rd a n s
  | .mxPass rd a b n => Sys2Proof.Machine.execMxPass rd a b n s
  | .mxTakeTk rd a b c n => Sys2Proof.Machine.execMxTakeTk rd a b c n s
  | .mxPassTk rd a n => Sys2Proof.Machine.execMxPassTk rd a n s
  | .amGet rd a b => Sys2Proof.Machine.execAmGet rd a b s
  | .amRel rd a b => Sys2Proof.Machine.execAmRel rd a b s
  | .amZero a b => Sys2Proof.Machine.execAmZero a b s
  | .amRd rd a => Sys2Proof.Machine.execAmRd rd a s
  | .engineEntryStart core => Sys2Proof.Machine.execEngineEntryStart core s
  | .matrixWritesLand core => Sys2Proof.Machine.execMatrixWritesLand core s
  | .epLoad rd a b => Sys2Proof.Machine.execEpLoad rd a b s
  | .epRun rd a b c x => Sys2Proof.Machine.execEpRun rd a b c x s
  | .mxDrn x => Sys2Proof.Machine.execMxDrn x s
  | .mxDrnZ x => Sys2Proof.Machine.execMxDrnZ x s
  | .epilogueEntry core => Sys2Proof.Machine.execEpilogueEntry core s
  | .load k rd a imm => Sys2Proof.Machine.execLoad k rd a imm s
  | .store k a b imm => Sys2Proof.Machine.execStore k a b imm s
  | .standardAlu f => Sys2Proof.Machine.execStandardAlu f s
  | .standardFp f => Sys2Proof.Machine.execStandardFp f s
  | .branchJump f => Sys2Proof.Machine.execBranchJump f s
  | .fence fm pred succ => Sys2Proof.Machine.execFence fm pred succ s
  | .fenceI => Sys2Proof.Machine.execFenceI s
  | .wrsNto => Sys2Proof.Machine.execWrsNto s
  | .wrsSto => Sys2Proof.Machine.execWrsSto s
  | .wrsTimeout k => Sys2Proof.Machine.execWrsTimeout k s
  | .lr dbl aq rl rd a => Sys2Proof.Machine.execLr dbl aq rl rd a s
  | .sc dbl aq rl rd a b => Sys2Proof.Machine.execSc dbl aq rl rd a b s
  | .standardAmo op dbl aq rl rd a b => Sys2Proof.Machine.execStandardAmo op dbl aq rl rd a b s
  | .amocas cw aq rl rd a b => Sys2Proof.Machine.execAmocas cw aq rl rd a b s
  | .ecall => Sys2Proof.Machine.execEcall s
  | .ebreak => Sys2Proof.Machine.execEbreak s
  | .wfi => Sys2Proof.Machine.execWfi s
  | .sret => Sys2Proof.Machine.execSret s
  | .sfenceVma a b => Sys2Proof.Machine.execSfenceVma a b s
  | .csrAccess op imm rd src csr => Sys2Proof.Machine.execCsrAccess op imm rd src csr s
  | .cpsplWrite k v => Sys2Proof.Machine.execCpsplWrite k v s
  | .frecbaseWrite core v => Sys2Proof.Machine.execFrecbaseWrite core v s
  | .passcntWrite core v => Sys2Proof.Machine.execPasscntWrite core v s
  | .clsreqWrite core v => Sys2Proof.Machine.execClsreqWrite core v s
  | .reclassSavesDone pod => Sys2Proof.Machine.execReclassSavesDone pod s
  | .reclassClockSettled pod => Sys2Proof.Machine.execReclassClockSettled pod s
  | .crewPreempt crew => Sys2Proof.Machine.execCrewPreempt crew s
  | .crewSaveComplete crew => Sys2Proof.Machine.execCrewSaveComplete crew s
  | .crewRestore crew => Sys2Proof.Machine.execCrewRestore crew s
  | .withdrawalStart pod => Sys2Proof.Machine.execWithdrawalStart pod s
  | .withdrawalGraceExpiry crew => Sys2Proof.Machine.execWithdrawalGraceExpiry crew s
  | .boostRecompute pod => Sys2Proof.Machine.execBoostRecompute pod s
  | .powerWindow avg => Sys2Proof.Machine.execPowerWindow avg s
  | .currentSample draw => Sys2Proof.Machine.execCurrentSample draw s
  | .currentLimitEvent => Sys2Proof.Machine.execCurrentLimitEvent s
  | .zoneEnterLowFlow z flow => Sys2Proof.Machine.execZoneEnterLowFlow z flow s
  | .zoneLeaveLowFlow z flow => Sys2Proof.Machine.execZoneLeaveLowFlow z flow s
  | .zoneEnterHot z temp => Sys2Proof.Machine.execZoneEnterHot z temp s
  | .zoneLeaveHot z temp => Sys2Proof.Machine.execZoneLeaveHot z temp s
  | .zoneEnterEvacuating z flow void => Sys2Proof.Machine.execZoneEnterEvacuating z flow void s
  | .zoneEnterTripped z temp => Sys2Proof.Machine.execZoneEnterTripped z temp s
  | .evacuationSavesDone z => Sys2Proof.Machine.execEvacuationSavesDone z s
  | .zoneTripExit z temp => Sys2Proof.Machine.execZoneTripExit z temp s
  | .purgeStart z => Sys2Proof.Machine.execPurgeStart z s
  | .purgeValveOpen z => Sys2Proof.Machine.execPurgeValveOpen z s
  | .purgeEnd z flow => Sys2Proof.Machine.execPurgeEnd z flow s
  | .zctlRetryWrite z v => Sys2Proof.Machine.execZctlRetryWrite z v s
  | .dbgStop d => Sys2Proof.Machine.execDbgStop d s
  | .dbgStopCrew d => Sys2Proof.Machine.execDbgStopCrew d s
  | .dbgResume d => Sys2Proof.Machine.execDbgResume d s
  | .dbgResumeCrew d => Sys2Proof.Machine.execDbgResumeCrew d s
  | .dbgStep d => Sys2Proof.Machine.execDbgStep d s
  | .dbgAttach d => Sys2Proof.Machine.execDbgAttach d s
  | .dbgDetach d => Sys2Proof.Machine.execDbgDetach d s
  | .dbgUnassigned d cmd => Sys2Proof.Machine.execDbgUnassigned d cmd s
  | .debugStop k => Sys2Proof.Machine.execDebugStop k s
  | .dbgdataRead d => Sys2Proof.Machine.execDbgdataRead d s
  | .dbgdataWrite d v => Sys2Proof.Machine.execDbgdataWrite d v s
  | .dbghaltWrite d v => Sys2Proof.Machine.execDbghaltWrite d v s
  | .registerWrite pa half v => Sys2Proof.Machine.execRegisterWrite pa half v s
  | .replicaUpdate die idx => Sys2Proof.Machine.execReplicaUpdate die idx s
  | .ueWriteback line => Sys2Proof.Machine.execUeWriteback line s
  | .ueCoreStorage u => Sys2Proof.Machine.execUeCoreStorage u s
  | .dmaRequest r => Sys2Proof.Machine.execDmaRequest r s
  | .powerGood => Sys2Proof.Machine.execPowerGood s
  | .bootDieLinksMemory => Sys2Proof.Machine.execBootDieLinksMemory s
  | .memoryReady f => Sys2Proof.Machine.execMemoryReady f s
  | .bootPkgnum n => Sys2Proof.Machine.execBootPkgnum n s
  | .bootLCoreImage => Sys2Proof.Machine.execBootLCoreImage s
  | .lCoreStart k => Sys2Proof.Machine.execLCoreStart k s
  | .bootWDieMicrocode d => Sys2Proof.Machine.execBootWDieMicrocode d s
  | .portTrained f => Sys2Proof.Machine.execPortTrained f s
  | .collectiveEngineReady => Sys2Proof.Machine.execCollectiveEngineReady s
  | .managementPortReady => Sys2Proof.Machine.execManagementPortReady s
  | .ptpMessage offset => Sys2Proof.Machine.execPtpMessage offset s
  | .ptpGrandmasterLoss => Sys2Proof.Machine.execPtpGrandmasterLoss s
  | .mgmtImageDelivery img => Sys2Proof.Machine.execMgmtImageDelivery img s
  | .mgmtRaiseMinVersion kind v => Sys2Proof.Machine.execMgmtRaiseMinVersion kind v s
  | .mgmtEvidenceRequest nonce => Sys2Proof.Machine.execMgmtEvidenceRequest nonce s
  | .evreqGo v => Sys2Proof.Machine.execEvreqGo v s
  | .instructionFetch k => Sys2Proof.Machine.execInstructionFetch k s
  | .peerPresent p => Sys2Proof.Machine.execPeerPresent p s
  | .peerWindowAccess r => Sys2Proof.Machine.execPeerWindowAccess r s

end Sys2Proof.Machine
end

