-- ==== Sys2Proof/Machine/Step.lean ====
section
/-! DEFINITION. Step: the next turn of the agenda, or the agent in issue where the agenda is empty (log 1); and the
placing of one instruction where the next step fetches it. -/

namespace Sys2Proof.Machine

/-- One turn. -/
def turn (t : Turn) (s : State) : Host.Outcome State Fault Refusal :=
  match t with
  | .issue a => { s with cur := a }.issue exec
  | .event i => if i.encoded then .next s else exec i s.settle
  | .elapse ns => .next (s.elapse ns)
  | .peerWrite pa data => .next (s.outside (.peerWrite pa data))
  | .peerPost p => .next (s.outside (.peerPost p))
  | .peerUnpost p id => .next (s.outside (.peerUnpost p id))
  | .peerRegion p v => .next (s.outside (.peerRegion p v))
  | .sense z temp flow => .next (s.outside (.sense z temp flow))
  | .inlet tin flow => .next (s.outside (.inlet tin flow))
  | .msi i sup id => .next (s.outside (.msi i sup id))
  | .iommu p off v => .next (s.outside (.iommu p off v))
  | .portWindow p first n => .next (s.outside (.portWindow p first n))
  | .configRead p n answer => .next (s.outside (.configRead p n answer))
  | .pageReq p dev pid priv exec payload => .next (s.outside (.pageReq p dev pid priv exec payload))
  | .selmel core n v => .next (s.outside (.selmel core n v))
  | .portWidths split => .next (s.outside (.portWidths split))
  | .unit f up => .next (s.outside (.unit f up))
  | .packageReset => .next (s.outside .packageReset)
  | .podDraws l => .next (s.outside (.podDraws l))

/-- One step. With an empty agenda an agent that can issue does so; otherwise it is looked at and a nanosecond passes. -/
def step (s : State) : Host.Outcome State Fault Refusal :=
  match s.agenda with
  | t :: rest => turn t { s with agenda := rest }
  | [] =>
    if s.canIssue then s.issue exec
    else
      match s.issue exec with
      | .next s => .next (s.elapse 1)
      | .fault f => .fault f
      | .refused r => .refused r

/-- Image of the strand that `withFetchWord` puts in issue. -/
def fetchImage : Nat := 0x40000
/-- Address of the instruction that `withFetchWord` stores. -/
def fetchPc : Nat := 0x20000

/-- A strand in U-mode on W-core 0 whose next instruction is these bits, the bits above `nbits` zero. HBM4E stack 0 is
ready, and Sv57 tables at 0x10000 and 0x11000 map its first 512 GiB to themselves (log 4). -/
def State.withFetchWord (s : State) (nbits w : Nat) : State :=
  let mem := bytesSet s.mem fetchPc (w % 2 ^ nbits) 8
  let mem := bytesSet mem 0x10000 (0x11 * 1024 + 1) 8
  let mem := bytesSet mem 0x11000 0xDF 8
  let ctx : Sparse 64 := sset (sset [] cPc (w64 fetchPc)) cSatp (w64 (10 * 2 ^ 60 + 0x10))
  { s with
    cur := .strand fetchImage
    agenda := []
    mem
    poison := []
    mmio := sset s.mmio bootBase (sget s.mmio bootBase ||| 64)
    strands := kput (·.image) s.strands
      { image := fetchImage, crew := 0, status := .resident, ctx, present := 0xFFFF }
    crews := kput (·.id) s.crews
      { id := 0, cores := [0], save := fetchImage, live := [0], alloc := [0], hold := [0], holder := [0], holdCtr := [0] }
    pods := lmod s.pods 0 fun p => { p with halted := false, rcls := 0 }
    tlb := []
    ibuf := []
    rbuf := []
    holds := []
    copies := []
    replicas := []
    pats := []
    hwq := [] }

end Sys2Proof.Machine
end

