-- ==== Sys2Proof/Safety.lean ====
section
/-! DEFINITION. What claims mean by a sound state, by an agent in issue, by an instruction that has retired, and by a
part of the state that stays as it was. -/

namespace Sys2Proof.Machine

namespace State

/-- Memory and the register blocks have the canonical form (R424, log 6). -/
def StorageOk (s : State) : Prop :=
  Memory.wf s.mem = true ∧ swf s.mmio = true ∧ swf s.pct = true ∧ swf s.owners = true ∧ swf s.peerRgn = true

/-- So have context images, the CSRs and vector registers of L-cores, stage memory and accumulators, and the seeds of fleets. -/
def ContextsOk (s : State) : Prop :=
  (∀ t ∈ s.strands, swf t.ctx = true) ∧ (∀ l ∈ s.lcores, swf l.ctx = true ∧ swf l.csr = true ∧ swf l.vec = true) ∧
  (∀ c ∈ s.crews, swf c.stage = true ∧ swf c.acc = true) ∧ (∀ f ∈ s.fleets, swf f.seed = true)

/-- There are as many units as Table 1.2 gives. -/
def UnitsOk (s : State) : Prop :=
  s.cores.length = Config.numCores ∧ s.pods.length = Config.numPods ∧ s.dies.length = 4 ∧
  s.zones.length = Config.numZones ∧ s.lcores.length = Config.numLCores

/-- The invariant of the model's data. -/
def Inv (s : State) : Prop := s.StorageOk ∧ s.ContextsOk ∧ s.UnitsOk

/-- A step that goes on. -/
def Safe (s : State) : Prop := ∃ t, step s = .next t

/-! ### Who is in issue -/

/-- Strand `t` holds a slot and is in issue. -/
def OnStrand (s : State) (t : Strand) : Prop := s.curStrand = some t

/-- The same, and its crew is `c`. -/
def OnCrew (s : State) (t : Strand) (c : Crew) : Prop := s.curStrand = some t ∧ s.crewOf t = some c

/-- L-core `i` is in issue and runs. -/
def OnL (s : State) (i : Nat) : Prop := s.cur = .lcore i ∧ (s.lcoreAt i).running = true

/-- Some agent that exists is in issue. -/
def Runs (s : State) : Prop := (∃ t, s.OnStrand t) ∨ ∃ i, s.OnL i

/-- Of these context lines of strand `k` each is in the register cache, or can be read into it. -/
def HasLines (s : State) (k : Nat) (ls : List Nat) : Prop := s.imagePoison k ls = false ∧ s.imageBusy k ls = false

/-! ### What lets an access be performed -/

/-- The access of `n` bytes at `va` by the agent in issue translates to memory that answers, and waits for no line: `s1` is the
state after translation, `parts` where the bytes lie. -/
def Finds (s : State) (k : AccKind) (va : Word) (n : Nat) (write : Bool) (s1 : State) (parts : List Part) : Prop :=
  s.locate s.cur k va n = .ok s1 (.mem parts) ∧ parts.any (fun p => s1.blocked s.cur p.pa p.n write) = false

/-- No part lies on a poisoned line, nor in the image of a strand that holds a context line lost to an uncorrectable error. -/
def Clean (s : State) (parts : List Part) : Prop :=
  parts.any (fun p => s.poisonAt p.pa p.n) = false ∧ ∀ p ∈ parts, ∀ t ∈ s.imagesAt p.pa p.n, t.ue = none

/-- The parts lie in the image of no strand whose context the register cache may hold (R56, R57). -/
def NoImage (s : State) (parts : List Part) : Prop := ∀ p ∈ parts, s.imagesAt p.pa p.n = []

/-- The `n` bytes at `va` can be read. -/
def Reads (s : State) (va : Word) (n : Nat) : Prop := ∃ s1 parts, s.Finds .load va n false s1 parts ∧ s1.Clean parts

/-- They can be written. -/
def Writes (s : State) (va : Word) (n : Nat) : Prop := ∃ s1 parts, s.Finds .store va n true s1 parts

/-- An atomic access to them finds `p`, which is not of type IO; where the form returns what stood there it is clean, and a peer that
answers has been sent the access (R336). -/
def FindsAtom (s : State) (k : AccKind) (va : Word) (n : Nat) (chk : Bool) (s1 : State) (p : Part) : Prop :=
  s.Finds k va n (!chk || k = .store) s1 [p] ∧ p.pbmt ≠ 2 ∧ (chk = true → s1.Clean [p] ∧ s1.unsent s.cur p.pa = false)

/-- No line is owned by a copy engine and no LR hold is in force. -/
def NothingHeld (s : State) : Prop := (∀ c ∈ s.copies, c.own = []) ∧ ∀ h ∈ s.holds, s.holdActive h = false

/-- `cl.post`, or `cl.ring` with `ring`, by strand `t` with its descriptor at X[`a`]: the descriptor `d` is within its limits, the ring
id is free, a slot is free, the engine is ready, its extents and words translate, and its status word has been marked in progress in
`s3` (R337, R341, R343). `loc` are the pieces of its local extent. -/
def Posts (s : State) (t : Strand) (a : Reg) (ring : Bool) (d : Desc) (loc : List Piece) (s3 : State) : Prop :=
  let va := s.x a
  let ext := pageFirsts [(d.w 1, d.bytes)]
  let on (b : Bool) (l : List (Nat × Nat)) : List (Nat × Nat) := if b then l else []
  let word (i : Nat) : List (Nat × Nat) := if d.w i = 0 then [] else [(d.w i / 4096, d.w i)]
  va.toNat % 64 = 0 ∧
  ∃ s1 u1 u2 u3 u4 v f1 f2 f3 f4, s.load va 64 = .ok s1 v ∧
    d = { id := 0, words := (upto 0 8).map fun i => bits v (64 * i + 63) (64 * i) } ∧ d.ok ring = true ∧
    (ring = true → s1.descs.any (fun x => x.ring && x.rid = d.rid) = false) ∧ (s1.descsOf t).length < 32 ∧ s1.descs.length < 256 ∧ s1.ready 44 = true ∧
    s1.copyPages .load (on (d.op ≠ 2) ext) = .ok u1 f1 ∧ u1.copyPages .store (on (d.op = 2 || d.op = 4) ext) = .ok u2 f2 ∧
    u2.copyPages .load (word 3) = .ok u3 f3 ∧ u3.copyPages .store (word 5) = .ok u4 f4 ∧
    loc = rowPieces (f1 ++ f2) (d.w 1, d.bytes) ∧ u4.store (va + 0x38) 4 1 = .ok s3 ()

/-- A copy planned as `q` finds room in its queue, its extents translate, its sides lie apart where they have to, and nothing holds
its destination or its scale table, which lies in no strand's image: `src` and `dst` are the pieces of its sides (R237, R243, R245,
R248). -/
def CopyOpens (s : State) (t : Strand) (q : CopyPlan) (src dst : List Piece) : Prop :=
  let side (st : Bool) (l : List (Nat × Nat)) : List (Nat × Nat) := if st then [] else l
  let pieces (st : Bool) (f : List (Nat × Phys)) (l : List (Nat × Nat)) : List Piece :=
    if st then l.map fun r => { addr := r.1, len := r.2 } else l.flatMap (rowPieces f)
  let tab : List (Nat × Nat) := match q.table with | some x => [x] | none => []
  s.cpPath t = some false ∧ t.batNext ≤ 16 ∧
  ∃ s1 s2 s3 fs ft fd, s.copyPages .load (pageFirsts (side q.srcStage q.src)) = .ok s1 fs ∧
    s1.copyPages .load (pageFirsts tab) = .ok s2 ft ∧ s2.copyPages .store (pageFirsts (side q.dstStage q.dst)) = .ok s3 fd ∧
    src = pieces q.srcStage fs q.src ∧ dst = pieces q.dstStage fd q.dst ∧
    (q.apart = true → q.srcStage = q.dstStage → piecesMeet src dst = false) ∧
    (let own := if q.dstStage then [] else dedup (dst.flatMap fun p => linesOf p.addr p.len)
     let tp := partsOf ft (tab.flatMap (rowPieces ft))
     (∀ l ∈ own, (∀ c ∈ s.copies, c.image ≠ t.image → l ∉ c.own) ∧ ∀ h ∈ s3.holds, h.image ≠ t.image → h.granule ≠ l) ∧
     (∀ p ∈ tp, s3.blocked s.cur p.pa p.n false = false) ∧ s3.Clean tp ∧ s3.NoImage tp)

/-- `sg.fork` with its block at X[`a`] and its record at X[`b`] by strand `t` of crew `c`: header and block are within their limits, the
slot is empty, the record's pages are plain memory that can be written, the context lines that the siblings start with are there, and
the die has room for a group and a fleet (R55, R319). `n` is
the number of siblings, `slot` the child slot, `s2` the state in which the fleet of handle `h` exists. -/
def SgForks (s : State) (t : Strand) (c : Crew) (a b : Reg) (n slot : Nat) (s2 : State) (g : Group) (h : Word) : Prop :=
  let r := (s.x b).toNat
  t.leader = true ∧ r % 64 = 0 ∧ 2 ≤ n ∧ n ≤ 256 ∧ slot ≤ 3 ∧ childOf t slot = 0 ∧
  ∃ l1 l2 l3 l4 hdr blk ps, s.load (s.x b) 64 = .ok l1 hdr ∧ blkF hdr 0 8 = 0 ∧ blkF hdr 8 2 = n ∧ blkF hdr 0xA 1 = slot ∧
    blkF hdr 0xB 1 = 0 ∧ epsOk (blkF hdr 0x10 8) = true ∧ l1.fdepth c ≠ 10 ∧
    (l1.x a).toNat % 64 = 0 ∧ l1.load (l1.x a) 64 = .ok l2 blk ∧ blockOk blk = true ∧ blkF blk 8 4 = n ∧
    l2.recordPages r 0 ((r % 4096 + 64 + 16 * n + 4095) / 4096) = .ok l3 ps ∧ (∀ p ∈ ps, p.attr = 0 ∧ p.pbmt = 0) ∧
    (l3.fleets.filter fun x => x.die = c.die && x.group.isSome).length < 1024 ∧
    g = { n, timeout := blkF hdr 0xC 4, eps := BitVec.ofNat 64 (blkF hdr 0x10 8), record := r, frames := ps.map (·.pa),
          states := List.replicate n 0, running := true } ∧
    (let ls := 8 :: liveLines (blkF blk 0x18 4)
     let m := l3.fetchLines t.image ls
     l3.HasLines t.image ls ∧ ∃ u, m.OnStrand u ∧ m.openParts m.cur (w64 r) (recordParts g 0 (64 + 16 * n)) true = .ok l4 () ∧
       l4.release.newFleet u c slot blk (some g) = some (s2, h))

/-- The ring whose base, size, head and tail stand from `r` is not full, and its next slot, of `n` bytes at `slot`, can be written. -/
def RingRoom (s : State) (r n slot : Nat) : Prop :=
  let lg := wbits (s.reg (r + 8)) 4 0
  let tail := wbits (s.reg (r + 0x18)) 15 0
  slot = wbits (s.reg r) 56 12 * 4096 + n * (tail % 2 ^ lg) ∧ (tail + 1) % 2 ^ lg ≠ wbits (s.reg (r + 0x10)) 15 0 % 2 ^ lg ∧
    s.hwBusy slot n = false ∧ s.memAt slot = .ok

/-- An entry has been posted to that ring: its tail is one on, and where no interrupt is written the entry stands in its slot. -/
def Posted (s s' : State) (r slot : Nat) (data : List Byte) : Prop :=
  s'.reg (r + 0x18) = w64 ((wbits (s.reg (r + 0x18)) 15 0 + 1) % 2 ^ wbits (s.reg (r + 8)) 4 0) ∧
    (s.reg (r + 0x20) = 0 → bytesGet s'.mem slot data.length = ofBytes data)

/-! ### How an instruction ends -/

/-- The instruction retires and the pc passes it. -/
def retire (s : State) : State := (s.setPc (s.pc + w64 s.ilen)).retired

/-- It retires with `v` in X[rd]. -/
def retX (s : State) (rd : Reg) (v : Word) : State := (s.setX rd v).retire

/-- It retires with `v` in F[rd] and the flags `fl` accrued. -/
def retF (s : State) (rd : Reg) (v : Word) (fl : Nat) : State := ((s.setF rd v).accrue fl).retire

/-- It retires with `v` in X[rd] and the flags `fl` accrued. -/
def retXF (s : State) (rd : Reg) (v : Word) (fl : Nat) : State := ((s.setX rd v).accrue fl).retire

/-- A load retires with `v` in X[rd], its register marked in the scoreboard. -/
def retLoad (s : State) (rd : Reg) (v : Word) : State := ((s.setX rd v).mark rd.toNat).retire

/-- What enters an engine queue: an entry at its end. At one that a processor has to perform the strand waits, of the others it
retires; one of those that nothing stands before is performed at once. -/
def enqueued (s : State) (t : Strand) (c : Crew) (v : Nat) (op : EngOp) (rd : Option Reg) (now : Bool) : State :=
  let who : List (Nat × Reg) := match rd with | some r => [(t.image, r)] | none => []
  let e : EngEntry := { id := s.nextId, core := c.coreNum v, crew := c.id, v, op, by' := [t.sid], who }
  let s1 : State := { s with nextId := s.nextId + 1 }
  let s1 : State := match op with | .amRel bk n => s1.releasing c v bk n | _ => s1
  let q : State := match (if now then none else rd) with
    | some r => (s1.await (.engine s.nextId r)).enqueue e
    | none => s1.retire.enqueue e
  if (s.queueOf (c.coreNum v)).isEmpty && now then q.performAm e else q

/-- `fxsat` is set if `b`. -/
def satMark (s : State) (b : Bool) : State :=
  if b then s.setCtx s.cur cFxsat (sget (s.ctxOf s.cur) cFxsat ||| 1) else s

/-- Copy form `i`, planned as `q`, goes on to its translation and its queue; where the copy opens, it answers 0 and stands at the end
of the queue, in the strand's open batch, and memory is as before. -/
def Queues (s : State) (t : Strand) (rd : Reg) (i : Instr) (q : CopyPlan) : Prop :=
  exec i s = s.copyGo t rd q ∧
  ∀ src dst, s.CopyOpens t q src dst → ∃ s' : State, exec i s = .next (s'.retX rd 0) ∧
    (s.rbuf = [] → s'.mem = s.mem) ∧
    ((∃ r ∈ dst, r.len ≠ 0) → ∃ k : Copy, s'.copies = s.copies ++ [k] ∧ k.core = t.core ∧ k.image = t.image ∧
      k.batch = t.openBat ∧ k.stage = 0 ∧ k.done = [] ∧ k.dstStage = q.dstStage ∧ k.srcStage = q.srcStage ∧ k.src = src ∧
      k.dst = dst ∧ k.rowS = q.rowS ∧ k.rowD = q.rowD ∧ k.conv = q.conv ∧ k.fill = q.fill ∧ k.pattern = q.pattern ∧
      (q.table = none → k.scales = q.scales))

/-! ### What stays as it was -/

/-- An access by a strand has changed nothing but the TLBs, the classes, the directories, the copies of lines and the queues of
those that wait: registers, crews and memory are as before. -/
def OnlyAccess (s s' : State) : Prop :=
  s' = { s with
    accPa := s'.accPa, accTiers := s'.accTiers, draws := s'.draws, pct := s'.pct, mmio := s'.mmio, tlb := s'.tlb, ncs := s'.ncs
    dir := s'.dir, snoop := s'.snoop, pats := s'.pats, holds := s'.holds, cycle := s'.cycle, replicas := s'.replicas }

/-- Of the strand in issue, `t` before, only the words of its context that `ws` lists have changed, with the marks that
retirement makes; of the rest of the machine nothing but the counts of LR holds. -/
def OnlyWords (s s' : State) (t : Strand) (ws : List Nat) : Prop :=
  s' = { s with strands := s'.strands, holds := s'.holds } ∧
  (∀ k, k ≠ t.image → s'.strand? k = s.strand? k) ∧
  (∀ h ∈ s.holds, h.image ≠ t.image → h ∈ s'.holds) ∧
  ∃ u, s'.strand? t.image = some u ∧
    u = { t with ctx := u.ctx, instret := u.instret, since := u.since, step := u.step, sent := u.sent, pendStop := u.pendStop } ∧
    ∀ n, n ∉ ws → u.cw n = t.cw n

end State

end Sys2Proof.Machine

namespace Sys2Proof

open Sys2Proof.Machine

/-- Words of the context that an instruction working on registers alone may write, the pc among them: destination
registers, `fcsr`, `fxsat`. `none` for other instructions. -/
def Instr.writes : Instr → Option (List Nat)
  | .fxLi rd _ | .fxLiu rd _ | .fxLih rd _ | .fxAddl rd _ | .fxAndl rd _ | .fxOrl rd _ | .fxXorl rd _ | .fxAuipcl rd _ =>
    some [cPc, rd.toNat]
  | .fxLis rd _ | .fxLid rd _ => some [cPc, 32 + rd.toNat]
  | .fxAdds _ rd _ _ | .fxSubs _ rd _ _ | .fxDot _ rd _ _ | .fxSati rd _ _ | .fxSatni rd _ _ => some [cPc, rd.toNat, cFxsat]
  | .fxSrari rd _ _ => some [cPc, rd.toNat]
  | .fxCvtBf16F64 rd _ | .fxCvtF64Bf16 rd _ | .fxCvtBf16F16 rd _ | .fxCvtF16Bf16 rd _ | .fxPkBf16 rd _ _ | .fxUpkLo rd _
  | .fxUpkHi rd _ | .fxPaddBf16 rd _ _ | .fxPsubBf16 rd _ _ | .fxPmulBf16 rd _ _ | .fxPfmaBf16 rd _ _
  | .fxPdotF32Bf16 rd _ _ | .fxXp _ rd _ _ | .fxSclF32 rd _ _ | .fxSclF64 rd _ _ | .fxScliF32 rd _ _ | .fxScliF64 rd _ _
  | .fxExp2F32 rd _ | .fxLog2F32 rd _ | .fxRcpF32 rd _ | .fxRsqrtF32 rd _ | .fxSinpiF32 rd _ | .fxCospiF32 rd _
  | .fxTanhF32 rd _ | .fxSigmF32 rd _ => some [cPc, 32 + rd.toNat, cFcsr]
  | .fxNr _ rd _ _ | .fxXpnF32 rd _ | .fxXpnF64 rd _ => some [cPc, rd.toNat, cFcsr]
  | .standardAlu f => some [cPc, match f with
      | .rr _ rd _ _ => rd.toNat | .ri _ rd _ _ => rd.toNat | .un _ rd _ => rd.toNat | .lui rd _ => rd.toNat
      | .auipc rd _ => rd.toNat | .mopr _ rd _ => rd.toNat | .moprr _ rd _ _ => rd.toNat | .cmop _ => cPc]
  | .standardFp f => some [cPc, cFcsr, match f with
      | .bin _ _ _ rd _ _ => 32 + rd.toNat | .sqrt _ _ rd _ => 32 + rd.toNat | .fma _ _ _ rd _ _ _ => 32 + rd.toNat
      | .sgnj _ _ rd _ _ => 32 + rd.toNat | .minmax _ _ rd _ _ => 32 + rd.toNat | .cmp _ _ rd _ _ => rd.toNat
      | .cls _ rd _ => rd.toNat | .toInt _ _ _ rd _ => rd.toNat | .ofInt _ _ _ rd _ => 32 + rd.toNat
      | .cvt _ _ rd _ => 32 + rd.toNat
      | .mv k rd _ => match k with | .xh => rd.toNat | .xw => rd.toNat | .xd => rd.toNat | _ => 32 + rd.toNat]
  | .branchJump f => some (match f with | .br _ _ _ _ => [cPc] | .jal rd _ => [cPc, rd.toNat] | .jalr rd _ _ => [cPc, rd.toNat])
  | _ => none

end Sys2Proof
end

