-- ==== Sys2Proof/Certificates/Slice0/Obligations.lean ====
section
/-! DEFINITION. The statements: claims about the machine, for every state and every operand that meets their hypotheses.
Each cites the rules of spec/ that it rests on. -/

open Sys2Proof Sys2Proof.Machine

/-! ### The whole machine -/

/-- After reset memory and registers have their canonical form and every unit of Table 1.2 exists (R424; the form itself
is the model's, log 6). -/
def Obligations.ResetInv : Prop := State.reset.Inv

/-- Every step that goes on keeps the canonical form of memory, of the register blocks, of every context image, of stage
and accumulator memory, and the number of units (log 6). -/
def Obligations.StepKeepsInv : Prop := ∀ s t : State, s.Inv → step s = .next t → t.Inv

/-- Decoding the encoding of a well-formed instruction gives it back, whatever its operands (02_encoding.md). -/
def Obligations.DecodeEncode : Prop := ∀ i : Instr, i.encoded = true → i.wf = true → decode (encode i) = .ok i

/-- Words that the spec itself writes out decode to what it says they stand for (R31, Table 2.12, and the example words of
chapters 3 to 13): literal forms of 48 bits, 32-bit words of every custom block, asynchronous forms, a matrix form and a
drain of 64 bits. Table 2.12's streams that are no instruction are none, and neither is a parcel of zeros or of ones.
The one word of the RISC-V base is its own manual's (log 17). -/
def Obligations.DecodeWords : Prop :=
  decode [0x051F, 0xFFFE, 0xFFFF] = .ok (.fxLi 10 0xFFFFFFFE) ∧
  decode [0x229F, 0x4567, 0x0123] = .ok (.fxLih 5 0x01234567) ∧
  decode [0x951F, 0x0000, 0x3FC0] = .ok (.fxLid 10 0x3FC00000) ∧
  decode [0x850B, 0x0005] = .ok (.mgGo 10 11) ∧
  decode [0x850B, 0x2005] = .ok (.fkFlt 10 11 0) ∧
  decode [0x100B, 0x0640] = .ok (.thPause 100) ∧
  decode [0xA50B, 0x2835] = .ok (.cvWt 10 11 3) ∧
  decode [0x032B, 0x0676] = .ok (.gpShflIdx 6 12 7 3) ∧
  decode [0x952B, 0x00C5] = .ok (.fxAdds .i64 10 11 12) ∧
  decode [0x26AB, 0x4055] = .ok (.fxXp .e4m3 13 10 5) ∧
  decode [0x855B, 0x6005] = .ok (.ldNc .i64 10 11 0) ∧
  decode [0x285B, 0x60C5] = .ok (.stBp .i64 10 12 16) ∧
  decode [0xD05B, 0x0231] = .ok (.fnScoped .pd 3 3) ∧
  decode [0xE55B, 0x8A15] = .ok (.amoOp .add .i64 .pd true false 10 11) ∧
  decode [0x70DB, 0x12C5] = .ok (.red .add .i64 .di 10 12) ∧
  decode [0x853F, 0x1AC5, 0x0000, 0x0000] = .ok (.copyGs .plain 10 11 12 13) ∧
  decode [0xA53F, 0x1AC5, 0x6000, 0x01C1] = .ok (.mxMma ⟨.bf16, false, .d64, .d128, 0, 10, 11, 12, 13, 14⟩) ∧
  decode [0x353F, 0x00F7, 0xF800, 0x4201] = .ok (.mxDrn ⟨0, 0, 31, .d64, 10, 14, 15, 0, 16⟩) ∧
  decode [0x857B, 0x00C5] = .ok (.sgFork 10 11 12) ∧
  decode [0x957B, 0x0005] = .ok (.clPost 10 11) ∧
  decode [0xA57B, 0x0405] = .ok (.pwWind 10 11) ∧
  decode [0xB50B, 0x06C5] = .ok (.syRec 10 11 12) ∧
  decode [0x0093, 0xFFF1] = .ok (.standardAlu (.ri .addi 1 2 0xFFF)) ∧
  decode [0x80D7, 0x0221] = .lcore (.vector (.bin .add true 1 2 (.v 3))) ∧
  decode [0x30FB, 0x0000] = .illegal ∧
  decode [0x843F, 0xD6A4, 0x0000, 0x0000] = .illegal ∧
  decode [0x007F] = .illegal ∧
  decode [0x0000] = .illegal ∧
  decode [0xFFFF] = .illegal

/-- Where the bytes at the pc of a strand that may issue are an instruction, a step is the meaning of that instruction
on the state after the fetch, with its bits and its length noted (R31, R32). The context lines that the instruction uses and the
strand lacks are fetched first (R55), and an LR hold ends before an instruction that its loop may not hold (R217). Where a
register that it uses is still to be written by an engine queue it waits (R101, R268); where a pending load holds it back it does
not issue in this step: the loads return and it stays where it is (R101; that they return then is the model's choice, log 18).
The same of an L-core that takes no interrupt (R25), where the bytes may also be an instruction that the opcode table has no row
for (Table 2.1). -/
def Obligations.StepRunsDecoded : Prop :=
  (∀ (s s' : State) (t t1 u : Strand) (k : Nat) (ps : List (BitVec 16)) (i : Instr),
      let l1 : List Nat := if t1.depth = 0 then [] else [13]
      let s1 := s.fetchLines k baseLines
      let s2 := s1.fetchLines k l1
      let f := s'.issued ps
      let g := f.fetchLines k (i.lines u.depth)
      s.agenda = [] → s.cur = .strand k → s.strand? k = some t → s.mayIssue t = true → t.wait = .none → t.pendStop = 0 →
      t.pendKill = false → t.ue = none → t.badRd = none → s.recallDue t = false →
      s.HasLines k baseLines → s1.strand? k = some t1 → s1.HasLines k l1 → s2.cur = .strand k →
      s2.fetchInstr (.strand k) = .ok s' ps → s'.cur = .strand k → decode ps = .ok i → f.strand? k = some u →
      f.HasLines k (i.lines u.depth) →
      (g.owes k i = true → step s = g.stall) ∧
      (g.owes k i = false → State.heldBy u i = [] → step s = exec i (g.holdOver k i)) ∧
      (g.owes k i = false → State.heldBy u i ≠ [] → step s = .next (g.modStrand k fun t =>
        { t with marks := t.marks.filter fun m => !(State.heldBy u i).contains m, since := none }))) ∧
  (∀ (s s' : State) (j : Nat) (ps : List (BitVec 16)) (i : Instr),
      s.agenda = [] → s.cur = .lcore j → (s.lcoreAt j).running = true → j < Config.numLCores →
      State.pendingInt (s.lcoreAt j) s.time = none → s.fetchInstr (.lcore j) = .ok s' ps → s'.cur = .lcore j → decode ps = .ok i →
      step s = exec i (s'.issued ps)) ∧
  (∀ (s s' : State) (j : Nat) (ps : List (BitVec 16)) (p : LPart),
      s.agenda = [] → s.cur = .lcore j → (s.lcoreAt j).running = true → j < Config.numLCores →
      State.pendingInt (s.lcoreAt j) s.time = none → s.fetchInstr (.lcore j) = .ok s' ps → s'.cur = .lcore j →
      decode ps = .lcore p → step s = (s'.issued ps).execLPart j exec p) ∧
  (∀ (s : State) (ps : List (BitVec 16)), (s.issued ps).ibits = instrBits ps ∧
      (parcelLen (ps.headD 0) ≠ 0 → (s.issued ps).ilen = parcelLen (ps.headD 0)) ∧ (s.issued ps).strands = s.strands ∧
      (s.issued ps).mem = s.mem)

/-- Whatever the instruction and whatever its operands, a core goes on: nothing that a strand or an L-core executes ends the
run, the L-core's instructions without a row in the opcode table (Table 2.1) among them. A step of the hardware goes on in every
state, and so does every step of the machine, whoever's turn it is and whatever comes from outside. -/
def Obligations.NothingEndsARun : Prop :=
  (∀ (s : State) (t : Strand) (c : Crew) (i : Instr), s.OnCrew t c → ∃ s' : State, exec i s = .next s') ∧
  (∀ (s : State) (j : Nat) (i : Instr), s.OnL j → ∃ s' : State, exec i s = .next s') ∧
  (∀ (s : State) (j : Nat) (p : LPart), s.OnL j → ∃ s' : State, s.execLPart j exec p = .next s') ∧
  (∀ (s : State) (i : Instr), i.encoded = false → ∃ s' : State, exec i s = .next s') ∧
  (∀ s : State, ∃ s' : State, step s = .next s')

/-! ### Literal, integer and control-flow forms -/

/-- The literal forms write what Table 2.8 gives and the pc passes the instruction, on either class of core, and take no trap
(R39): the integer ones an X register; `fx.lis` the literal NaN-boxed and `fx.lid` its value in FP64. On an L-core whose
floating-point state is off these two leave its status as it is, and elsewhere they mark it dirty (log 17). -/
def Obligations.LiteralForms : Prop :=
  ∀ (s : State) (rd : Reg) (lit : BitVec 32), s.Runs →
    exec (.fxLi rd lit) s = .next (s.retX rd (lit.signExtend 64)) ∧
    exec (.fxLiu rd lit) s = .next (s.retX rd (lit.zeroExtend 64)) ∧
    exec (.fxLih rd lit) s = .next (s.retX rd (lit ++ (s.x rd).extractLsb' 0 32)) ∧
    exec (.fxAddl rd lit) s = .next (s.retX rd (s.x rd + lit.signExtend 64)) ∧
    exec (.fxAndl rd lit) s = .next (s.retX rd (s.x rd &&& lit.signExtend 64)) ∧
    exec (.fxOrl rd lit) s = .next (s.retX rd (s.x rd ||| lit.signExtend 64)) ∧
    exec (.fxXorl rd lit) s = .next (s.retX rd (s.x rd ^^^ lit.signExtend 64)) ∧
    exec (.fxAuipcl rd lit) s = .next (s.retX rd (s.pc + lit.signExtend 64)) ∧
    (∀ t, s.OnStrand t → s.fpOn = true ∧ s.fpDirty = s) ∧
    (let d : State := if s.fpOn then s.fpDirty else s
     exec (.fxLis rd lit) s = .next ((d.setF rd (0xFFFFFFFF#32 ++ lit)).retire) ∧
     exec (.fxLid rd lit) s = .next ((d.setF rd (box f64 (fround f64 0 (FVal.ofBits f32 lit.toNat)).1)).retire))

/-- A register write that retires, read back: X[rd] holds the value unless it is x0, which reads zero and discards
writes; every other register is as before, and so is all memory; the pc has advanced by the instruction's length (R34,
R35). -/
def Obligations.RegisterReadBack : Prop :=
  ∀ (s : State) (t : Strand) (rd r : Reg) (v : Word), s.Inv → s.OnStrand t →
    (s.retX rd v).x rd = (if rd = 0 then 0 else v) ∧
    (r ≠ rd → (s.retX rd v).x r = s.x r) ∧
    (s.retX rd v).f r = s.f r ∧
    (s.retX rd v).pc = s.pc + w64 s.ilen ∧
    (s.retX rd v).fcsr = s.fcsr ∧
    (s.retX rd v).mem = s.mem ∧
    (s.retF rd v 0).f rd = v ∧
    (r ≠ rd → (s.retF rd v 0).f r = s.f r) ∧
    (s.retF rd v 0).x r = s.x r ∧
    (s.retF rd v 0).pc = s.pc + w64 s.ilen

/-- Every integer form of the standard part retires with the value of its operation in its destination (R145). The
integer instructions of the RISC-V base and its multiply extension, with their corner cases: shift counts cut to six
bits, division by zero, the overflowing quotient (R145). -/
def Obligations.IntegerForms : Prop :=
  (∀ (s : State) (f : AluForm), s.Runs →
      exec (.standardAlu f) s = .next (s.retX (aluResult s f).1 (aluResult s f).2)) ∧
  (∀ (s : State) (rd a b : Reg) (imm : BitVec 12) (up : BitVec 20), s.Runs →
      let go (f : AluForm) (v : Word) : Prop := exec (.standardAlu f) s = .next (s.retX rd v)
      go (.rr .add rd a b) (s.x a + s.x b) ∧
      go (.rr .sub rd a b) (s.x a - s.x b) ∧
      go (.rr .and rd a b) (s.x a &&& s.x b) ∧
      go (.rr .or rd a b) (s.x a ||| s.x b) ∧
      go (.rr .xor rd a b) (s.x a ^^^ s.x b) ∧
      go (.rr .sll rd a b) (s.x a <<< ((s.x b).toNat % 64)) ∧
      go (.rr .srl rd a b) (s.x a >>> ((s.x b).toNat % 64)) ∧
      go (.rr .sra rd a b) ((s.x a).sshiftRight ((s.x b).toNat % 64)) ∧
      go (.rr .slt rd a b) (if (s.x a).toInt < (s.x b).toInt then 1 else 0) ∧
      go (.rr .sltu rd a b) (if (s.x a).toNat < (s.x b).toNat then 1 else 0) ∧
      go (.rr .addw rd a b) (((s.x a + s.x b).truncate 32).signExtend 64) ∧
      go (.rr .mul rd a b) (s.x a * s.x b) ∧
      (s.x b = 0 → go (.rr .div rd a b) (-1) ∧ go (.rr .divu rd a b) (-1) ∧ go (.rr .rem rd a b) (s.x a) ∧
        go (.rr .remu rd a b) (s.x a)) ∧
      (s.x a = 0x8000000000000000 → s.x b = -1 → go (.rr .div rd a b) (s.x a) ∧ go (.rr .rem rd a b) 0) ∧
      go (.ri .addi rd a imm) (s.x a + imm.signExtend 64) ∧
      go (.lui rd up) ((up ++ 0#12).signExtend 64) ∧
      go (.auipc rd up) (s.pc + (up ++ 0#12).signExtend 64))

/-- Branches and jumps: the pc becomes the target where the condition holds and passes the instruction otherwise; `jal`
and `jalr` leave the address of the next instruction in rd; bit 0 of a `jalr` target is cleared. Their meanings are those of
RISC-V, which the spec takes over without writing them out (R25; PRESUMED, log 17). -/
def Obligations.Branches : Prop :=
  ∀ (s : State) (rd a b : Reg) (off : BitVec 13) (far : BitVec 21) (imm : BitVec 12), s.Runs →
    let br (c : BrCond) (p : Prop) : Prop :=
      (p → exec (.branchJump (.br c a b off)) s = .next ((s.setPc (s.pc + off.signExtend 64)).retired)) ∧
      (¬p → exec (.branchJump (.br c a b off)) s = .next s.retire)
    br .eq (s.x a = s.x b) ∧ br .ne (s.x a ≠ s.x b) ∧
    br .lt ((s.x a).toInt < (s.x b).toInt) ∧ br .ge ((s.x b).toInt ≤ (s.x a).toInt) ∧
    br .ltu ((s.x a).toNat < (s.x b).toNat) ∧ br .geu ((s.x b).toNat ≤ (s.x a).toNat) ∧
    exec (.branchJump (.jal rd far)) s =
      .next ((((s.setX rd (s.pc + w64 s.ilen)).setPc (s.pc + far.signExtend 64))).retired) ∧
    exec (.branchJump (.jalr rd a imm)) s =
      .next ((((s.setX rd (s.pc + w64 s.ilen)).setPc ((s.x a + imm.signExtend 64) &&& ~~~1))).retired)

/-! ### Arithmetic of Esrun -/

/-- Saturating addition and subtraction: the exact sum or difference of the operands, clamped to the range of the type,
extended to 64 bits; `fxsat` is set exactly where it was clamped (R155, R156). -/
def Obligations.SaturatingForms : Prop :=
  ∀ (s : State) (t : Strand) (rd a b : Reg), s.OnStrand t →
    let ends (i : Instr) (lo hi y : Int) (ext : Int → Word) : Prop :=
      exec i s = .next ((s.satMark (y < lo ∨ hi < y)).retX rd (ext (max lo (min hi y))))
    let a32 : BitVec 32 := (s.x a).truncate 32
    let b32 : BitVec 32 := (s.x b).truncate 32
    ends (.fxAdds .i64 rd a b) (-2 ^ 63) (2 ^ 63 - 1) ((s.x a).toInt + (s.x b).toInt) (BitVec.ofInt 64) ∧
    ends (.fxSubs .i64 rd a b) (-2 ^ 63) (2 ^ 63 - 1) ((s.x a).toInt - (s.x b).toInt) (BitVec.ofInt 64) ∧
    ends (.fxAdds .n64 rd a b) 0 (2 ^ 64 - 1) ((s.x a).toNat + (s.x b).toNat) (BitVec.ofInt 64) ∧
    ends (.fxSubs .n64 rd a b) 0 (2 ^ 64 - 1) ((s.x a).toNat - (s.x b).toNat) (BitVec.ofInt 64) ∧
    ends (.fxAdds .i32 rd a b) (-2 ^ 31) (2 ^ 31 - 1) (a32.toInt + b32.toInt) (BitVec.ofInt 64) ∧
    ends (.fxSubs .i32 rd a b) (-2 ^ 31) (2 ^ 31 - 1) (a32.toInt - b32.toInt) (BitVec.ofInt 64) ∧
    ends (.fxAdds .n32 rd a b) 0 (2 ^ 32 - 1) (a32.toNat + b32.toNat) (fun z => (BitVec.ofInt 32 z).signExtend 64) ∧
    ends (.fxSubs .n32 rd a b) 0 (2 ^ 32 - 1) (a32.toNat - b32.toNat) (fun z => (BitVec.ofInt 32 z).signExtend 64)

/-- The dot forms: the 32-bit accumulator in rd plus the products of the elements, without intermediate rounding,
clamped to 32 bits signed; `fxsat` is set exactly where it was clamped (R155, R157). -/
def Obligations.DotForms : Prop :=
  ∀ (s : State) (t : Strand) (rd a b : Reg), s.OnStrand t →
    let d : Int := ((s.x rd).truncate 32 : BitVec 32).toInt
    let e8 (v : Word) (k : Nat) : BitVec 8 := v.extractLsb' (8 * k) 8
    let e4 (v : Word) (k : Nat) : Int := (v.extractLsb' (4 * k) 4).toInt
    let ends (f : DotForm) (y : Int) : Prop :=
      exec (.fxDot f rd a b) s =
        .next ((s.satMark (y < -2 ^ 31 ∨ 2 ^ 31 - 1 < y)).retX rd (BitVec.ofInt 64 (max (-2 ^ 31) (min (2 ^ 31 - 1) y))))
    ends .i8 (d + (e8 (s.x a) 0).toInt * (e8 (s.x b) 0).toInt + (e8 (s.x a) 1).toInt * (e8 (s.x b) 1).toInt
      + (e8 (s.x a) 2).toInt * (e8 (s.x b) 2).toInt + (e8 (s.x a) 3).toInt * (e8 (s.x b) 3).toInt) ∧
    ends .n8 (d + (e8 (s.x a) 0).toNat * (e8 (s.x b) 0).toNat + (e8 (s.x a) 1).toNat * (e8 (s.x b) 1).toNat
      + (e8 (s.x a) 2).toNat * (e8 (s.x b) 2).toNat + (e8 (s.x a) 3).toNat * (e8 (s.x b) 3).toNat) ∧
    ends .su (d + (e8 (s.x a) 0).toInt * (e8 (s.x b) 0).toNat + (e8 (s.x a) 1).toInt * (e8 (s.x b) 1).toNat
      + (e8 (s.x a) 2).toInt * (e8 (s.x b) 2).toNat + (e8 (s.x a) 3).toInt * (e8 (s.x b) 3).toNat) ∧
    ends .i4 (d + e4 (s.x a) 0 * e4 (s.x b) 0 + e4 (s.x a) 1 * e4 (s.x b) 1 + e4 (s.x a) 2 * e4 (s.x b) 2
      + e4 (s.x a) 3 * e4 (s.x b) 3 + e4 (s.x a) 4 * e4 (s.x b) 4 + e4 (s.x a) 5 * e4 (s.x b) 5
      + e4 (s.x a) 6 * e4 (s.x b) 6 + e4 (s.x a) 7 * e4 (s.x b) 7)

/-- The clamping forms bound a signed register to w1 + 1 bits, signed for `fx.sati` and unsigned for `fx.satni`, and set
`fxsat` exactly where that changes it; the rounding shift gives the nearest multiple, ties to even (R155, R158). -/
def Obligations.ShiftAndClampForms : Prop :=
  ∀ (s : State) (t : Strand) (rd a : Reg) (w : BitVec 6), s.OnStrand t →
    let v : Int := (s.x a).toInt
    let ends (i : Instr) (lo hi : Int) : Prop :=
      exec i s = .next ((s.satMark (v < lo ∨ hi < v)).retX rd (BitVec.ofInt 64 (max lo (min hi v))))
    ends (.fxSati rd a w) (-2 ^ w.toNat) (2 ^ w.toNat - 1) ∧
    ends (.fxSatni rd a w) 0 (2 ^ (w.toNat + 1) - 1) ∧
    ∃ q : Int, exec (.fxSrari rd a w) s = .next (s.retX rd (BitVec.ofInt 64 q)) ∧
      2 * (q * 2 ^ w.toNat - v) ≤ 2 ^ w.toNat ∧ 2 * (v - q * 2 ^ w.toNat) ≤ 2 ^ w.toNat ∧
      (w ≠ 0 → (2 * (q * 2 ^ w.toNat - v) = 2 ^ w.toNat ∨ 2 * (v - q * 2 ^ w.toNat) = 2 ^ w.toNat) → q % 2 = 0)

/-- The conversion, pair and exponent forms that round by `frm`: with a legal `frm` each retires with its operands'
result rounded once, NaN-boxed, and its flags accrued (R147, R154, R159 to R166). Where `frm` holds no rounding mode
these forms raise an illegal-instruction exception with the instruction's bits (R146, R154). -/
def Obligations.RoundingForms : Prop :=
  (∀ (s : State) (t : Strand) (rd a b : Reg) (k : Elt) (n : BitVec 9) (r : Nat), s.OnStrand t → s.frm? = some r →
      let p := pairOf (s.f a)
      let q := pairOf (s.f b)
      let d := pairOf (s.f rd)
      let v (x : Nat) : FVal := FVal.ofBits bf16 x
      let one (i : Instr) (f : FFmt) (x : Nat × Nat) : Prop := exec i s = .next (s.retF rd (box f x.1) x.2)
      let two (i : Instr) (lo hi : Nat × Nat) : Prop := exec i s = .next (s.retF rd (boxPair lo.1 hi.1) (lo.2 ||| hi.2))
      one (.fxCvtBf16F64 rd a) bf16 (fround bf16 r (fval f64 (s.f a))) ∧
      one (.fxCvtBf16F16 rd a) bf16 (fround bf16 r (fval f16 (s.f a))) ∧
      one (.fxCvtF16Bf16 rd a) f16 (fround f16 r (fval bf16 (s.f a))) ∧
      two (.fxPkBf16 rd a b) (fround bf16 r (fval f32 (s.f a))) (fround bf16 r (fval f32 (s.f b))) ∧
      two (.fxPaddBf16 rd a b) (ffinish bf16 r (fadd r (v p.1) (v q.1))) (ffinish bf16 r (fadd r (v p.2) (v q.2))) ∧
      two (.fxPsubBf16 rd a b) (ffinish bf16 r (fadd r (v p.1) (v q.1).negate))
        (ffinish bf16 r (fadd r (v p.2) (v q.2).negate)) ∧
      two (.fxPmulBf16 rd a b) (ffinish bf16 r (fmul (v p.1) (v q.1))) (ffinish bf16 r (fmul (v p.2) (v q.2))) ∧
      two (.fxPfmaBf16 rd a b) (ffinish bf16 r (ffma r (v p.1) (v q.1) (v d.1)))
        (ffinish bf16 r (ffma r (v p.2) (v q.2) (v d.2))) ∧
      one (.fxPdotF32Bf16 rd a b) f32 (pdot r (fval f32 (s.f rd)) (v p.1) (v p.2) (v q.1) (v q.2)) ∧
      two (.fxXp k rd a b) (expand k r ((s.x a).toNat % 2 ^ eltBits k) ((s.x b).toNat % 256))
        (expand k r ((s.x a).toNat / 2 ^ eltBits k % 2 ^ eltBits k) ((s.x b).toNat % 256)) ∧
      (let lo := narrow k r p.1 ((s.x b).toNat % 256)
       let hi := narrow k r p.2 ((s.x b).toNat % 256)
       exec (.fxNr k rd a b) s = .next (s.retXF rd (w64 (hi.1 * 2 ^ eltBits k + lo.1)) (lo.2 ||| hi.2))) ∧
      one (.fxSclF32 rd a b) f32 (fround f32 r (fscale (fval f32 (s.f a)) (s.x b).toInt)) ∧
      one (.fxSclF64 rd a b) f64 (fround f64 r (fscale (fval f64 (s.f a)) (s.x b).toInt)) ∧
      one (.fxScliF32 rd a n) f32 (fround f32 r (fscale (fval f32 (s.f a)) n.toInt)) ∧
      one (.fxScliF64 rd a n) f64 (fround f64 r (fscale (fval f64 (s.f a)) n.toInt))) ∧
  (∀ (s : State) (t : Strand) (rd a b : Reg) (k : Elt) (n : BitVec 9), s.OnStrand t → s.frm? = none →
      ∀ i ∈ [Instr.fxCvtBf16F64 rd a, .fxCvtBf16F16 rd a, .fxCvtF16Bf16 rd a, .fxPkBf16 rd a b, .fxPaddBf16 rd a b,
          .fxPsubBf16 rd a b, .fxPmulBf16 rd a b, .fxPfmaBf16 rd a b, .fxPdotF32Bf16 rd a b, .fxXp k rd a b, .fxNr k rd a b,
          .fxSclF32 rd a b, .fxSclF64 rd a b, .fxScliF32 rd a n, .fxScliF64 rd a n],
        exec i s = .next (s.trap 2 s.ibits))

/-- The forms that are exact or round by a rule of their own do not look at `frm`: the widening conversions, the
exponent forms, and the special functions of Table 6.8, whose value is one within the bound of R167 that the
implementation picks (log 11). -/
def Obligations.ExactForms : Prop :=
  ∀ (s : State) (t : Strand) (rd a : Reg), s.OnStrand t →
    let p := pairOf (s.f a)
    let one (i : Instr) (f : FFmt) (x : Nat × Nat) : Prop := exec i s = .next (s.retF rd (box f x.1) x.2)
    let sp (i : Instr) (k : Nat) : Prop := one i f32 (specialF k (unbox f32 (s.f a)))
    let ex (i : Instr) (f : FFmt) : Prop := exec i s = .next (s.retXF rd (xpn (fval f (s.f a))).1 (xpn (fval f (s.f a))).2)
    one (.fxCvtF64Bf16 rd a) f64 (fround f64 0 (fval bf16 (s.f a))) ∧
    one (.fxUpkLo rd a) f32 (fround f32 0 (FVal.ofBits bf16 p.1)) ∧
    one (.fxUpkHi rd a) f32 (fround f32 0 (FVal.ofBits bf16 p.2)) ∧
    ex (.fxXpnF32 rd a) f32 ∧ ex (.fxXpnF64 rd a) f64 ∧
    sp (.fxExp2F32 rd a) 0 ∧ sp (.fxLog2F32 rd a) 1 ∧ sp (.fxRcpF32 rd a) 2 ∧ sp (.fxRsqrtF32 rd a) 3 ∧
    sp (.fxSinpiF32 rd a) 4 ∧ sp (.fxCospiF32 rd a) 5 ∧ sp (.fxTanhF32 rd a) 6 ∧ sp (.fxSigmF32 rd a) 7

/-- A standard floating-point form, where floating-point state is accessible, as it always is on a strand, retires with its
value in an F or an X register and its flags accrued; one with an illegal rounding mode is an illegal instruction
(R146). -/
def Obligations.StandardFloatForms : Prop :=
  ∀ (s : State) (f : FpForm) (rd : Reg) (v : Word) (fl : Nat), s.Runs → s.fpOn = true →
    (fpResult s.fpDirty f = some (rd, .f v fl) → exec (.standardFp f) s = .next (s.fpDirty.retF rd v fl)) ∧
    (fpResult s.fpDirty f = some (rd, .x v fl) → exec (.standardFp f) s = .next (s.fpDirty.retXF rd v fl)) ∧
    (fpResult s.fpDirty f = none → exec (.standardFp f) s = .next (s.trap 2 s.ibits))

/-- The frame of the instructions that work on registers alone: each goes on, and of the machine only the pc, its
destination register and the flags or `fxsat` that its rule names may have changed, with the marks of retirement. With a
legal rounding mode, where it uses one (R34, R146, R154, R155). -/
def Obligations.RegisterFrame : Prop :=
  ∀ (s : State) (t : Strand) (i : Instr) (ws : List Nat), s.Inv → s.OnStrand t → i.writes = some ws → i.wf = true →
    s.frm?.isSome = true → ∃ s' : State, exec i s = .next s' ∧ s.OnlyWords s' t ws

/-! ### Memory -/

/-- Loads from memory that can be read complete: each retires with what the access finds, extended as its width says, or NaN-boxed
(R37, R187, R190, R191). Loads into F registers where floating-point state is accessible, as it always is on a strand. `s'` is
the state in which the load has been performed. What a load within a page reads: the bytes at the physical address of its
translation, lowest first, as memory is once it has been opened for the access (R187). Where no reduction is buffered and the bytes
are no strand's image (whose lines the register cache may first write back, R56) a load of a strand changes no register and no byte
of memory. -/
def Obligations.Loads : Prop :=
  (∀ (s s1 : State) (parts : List Part) (t : Strand) (w : LWidth) (rd a : Reg) (imm : BitVec 9), s.OnStrand t →
      let va := s.x a + imm.signExtend 64
      s.Finds .load va (lwSize w) false s1 parts → s1.Clean parts →
      (∃ s' v, s.load va (lwSize w) = .ok s' v ∧ exec (.ldBp w rd a imm) s = .next (s'.retLoad rd (lwExt w v)) ∧
        (s.rbuf = [] → s.NoImage parts → s.OnlyAccess s')) ∧
      (∃ s' v, s.loadNc va (lwSize w) = .ok s' v ∧ exec (.ldNc w rd a imm) s = .next (s'.retLoad rd (lwExt w v)) ∧
        (s.rbuf = [] → s.NoImage parts → s.OnlyAccess s'))) ∧
  (∀ (s s1 : State) (parts : List Part) (k : LoadKind) (rd a : Reg) (im : BitVec 12), s.Runs → (loadIsF k = true → s.fpOn = true) →
      let f : State := if loadIsF k then s.fpDirty else s
      let va := s.x a + im.signExtend 64
      f.Finds .load va (loadSize k) false s1 parts → s1.Clean parts →
      ∃ s' v, f.loadAny va (loadSize k) = .ok s' v ∧
        exec (.load k rd a im) s =
          .next (if loadIsF k then ((s'.setF rd (loadExt k v)).mark (32 + rd.toNat)).retire else s'.retLoad rd (loadExt k v)) ∧
        ((∃ t, s.OnStrand t) → s.rbuf = [] → s.NoImage parts → s.OnlyAccess s')) ∧
  (∀ (s s1 : State) (t : Strand) (va : Word) (n : Nat) (p : Part), s.OnStrand t → s.Finds .load va n false s1 [p] → s1.Clean [p] →
      ∃ s2 s' : State, s1.openParts s.cur va [p] false = .ok s2 () ∧ s.load va n = .ok s' (ofBytes (s2.readParts s.cur [p])) ∧
        s'.mem = s2.mem ∧ p.n = n ∧ (s2.replicas = [] → s2.NoImage [p] → ofBytes (s2.readParts s.cur [p]) = bytesGet s2.mem p.pa n))

/-- Stores to memory that can be written complete: each retires once the store is performed (R187, R191). -/
def Obligations.Stores : Prop :=
  (∀ (s : State) (t : Strand) (w : SWidth) (a b : Reg) (imm : BitVec 9), s.OnStrand t →
      let va := s.x a + imm.signExtend 64
      s.Writes va (swSize w) →
      ∃ s', s.store va (swSize w) (s.x b).toNat = .ok s' () ∧ exec (.stBp w a b imm) s = .next s'.retire) ∧
  (∀ (s : State) (k : StoreKind) (a b : Reg) (im : BitVec 12), s.Runs → (storeIsF k = true → s.fpOn = true) →
      let f : State := if storeIsF k then s.fpDirty else s
      let va := s.x a + im.signExtend 64
      f.Writes va (storeSize' k) →
      ∃ s', f.storeAny va (storeSize' k) (if storeIsF k then s.f b else s.x b).toNat = .ok s' () ∧
        exec (.store k a b im) s = .next s'.retire)

/-- What a store of a strand writes, at the physical addresses of its translation: its bytes, lowest first, and every byte outside
them reads as before (R187). `s2` is the state once memory has been opened for the access: where no reduction is buffered and the
bytes are no strand's image its memory is that before the store. A byte in the image of a strand neither forwarded nor stopped may keep what stood there
(R370). A store to one page, and one that crosses into a second. -/
def Obligations.StoreFrame : Prop :=
  ∀ (s s1 : State) (t : Strand) (va : Word) (n v x : Nat) (parts : List Part), s.Inv → s.OnStrand t →
    s.Finds .store va n true s1 parts →
    ∃ s2 s' : State, s1.openParts s.cur va parts true = .ok s2 () ∧ (s.rbuf = [] → s.NoImage parts → s2.mem = s.mem) ∧
      s.store va n v = .ok s' () ∧
      ((∀ p ∈ parts, x < p.pa ∨ p.pa + p.n ≤ x) → sget s'.mem x = sget s2.mem x) ∧
      (∀ p, parts = [p] → p.n = n ∧ (p.pa ≤ x → x < p.pa + n →
        let b := BitVec.ofNat 8 (v / 256 ^ (x - p.pa))
        (sget s'.mem x = b ∨ sget s'.mem x = sget s2.mem x) ∧ (s2.raceWords p.pa n = [] → sget s'.mem x = b))) ∧
      (∀ p q, parts = [p, q] → p.n + q.n = n ∧ (s2.raceWords p.pa p.n = [] → s2.raceWords q.pa q.n = [] →
        (q.pa ≤ x → x < q.pa + q.n → sget s'.mem x = BitVec.ofNat 8 (v / 256 ^ (p.n + (x - q.pa)))) ∧
        (p.pa ≤ x → x < p.pa + p.n → (x < q.pa ∨ q.pa + q.n ≤ x) →
          sget s'.mem x = BitVec.ofNat 8 (v / 256 ^ (x - p.pa)))))

/-- Stage loads and stores within the crew's stage memory, aligned and unmarked: `sl` reads the bytes lowest first; `ss`
writes them, unless an engine entry or a copy of the strand has not read what stood there (R192, R245, R286). -/
def Obligations.StageAccess : Prop :=
  ∀ (s : State) (t : Strand) (c : Crew) (lw : LWidth) (sw : SWidth) (rd a b : Reg) (imm : BitVec 9),
    s.OnCrew t c →
    let ad := (s.x a + imm.signExtend 64).toNat
    (ad % lwSize lw = 0 → c.stageIn ad (lwSize lw) = true → c.stageBad ad (lwSize lw) = false →
      exec (.sl lw rd a imm) s =
        .next (((s.setX rd (lwExt lw (bytesGet c.stage ad (lwSize lw)))).markFrom rd.toNat []).retire)) ∧
    (ad % swSize sw = 0 → c.stageIn ad (swSize sw) = true → c.stageBad ad (swSize sw) = false →
      s.stageHeld t ad (swSize sw) = false →
      exec (.ss sw a b imm) s = .next (s.stageWrite c.id ad (s.x b).toNat (swSize sw)).retire)

/-- A stage store writes its bytes in the crew's stage memory, lowest first, and every other stage byte reads as before; of the rest
of the crew only what its signed matrix operations remember of those bytes may change (R286), and memory is unchanged. No control form of the crew waits for a stage word (R192, R282). -/
def Obligations.StageFrame : Prop :=
  ∀ (s : State) (t : Strand) (c : Crew) (v n a x : Nat), s.Inv → s.OnCrew t c →
    (∀ k ∈ c.cvNums, (c.cvGet k).fixed = false) →
    (s.stageWrite c.id a v n).mem = s.mem ∧
    ∃ c', (s.stageWrite c.id a v n).crew? c.id = some c' ∧ c' = { c with stage := c'.stage, cv := c'.cv } ∧
      (c'.cv.map fun r => { r with late := [] }) = (c.cv.map fun r => { r with late := [] }) ∧
      ((x < a ∨ a + n ≤ x) → sget c'.stage x = sget c.stage x) ∧
      (a ≤ x → x < a + n → sget c'.stage x = BitVec.ofNat 8 (v / 256 ^ (x - a)))

/-- The exceptions of stage accesses, in their order: misaligned 4 or 6, outside the crew's stage memory 5 or 7, a
marked row 27, with the address (R192, R257). A misaligned atomic raises cause 6, or 4 where it only loads, with its
address, and does nothing else (R215). For an `amo.tick` of an L-core, which raises cause 7 (R220), that misalignment comes first
is inferred from the order that R225 gives for W-cores (DEDUCED, log 95). -/
def Obligations.AlignmentTraps : Prop :=
  (∀ (s : State) (t : Strand) (c : Crew) (lw : LWidth) (sw : SWidth) (rd a b : Reg) (imm : BitVec 9),
      s.OnCrew t c →
      let ad := s.x a + imm.signExtend 64
      let case (i : Instr) (n mis out : Nat) : Prop :=
        (ad.toNat % n ≠ 0 → exec i s = .next (s.trap mis ad)) ∧
        (ad.toNat % n = 0 → c.stageIn ad.toNat n = false → exec i s = .next (s.trap out ad)) ∧
        (ad.toNat % n = 0 → c.stageIn ad.toNat n = true → c.stageBad ad.toNat n = true → exec i s = .next (s.trap 27 ad))
      case (.sl lw rd a imm) (lwSize lw) 4 5 ∧ case (.ss sw a b imm) (swSize sw) 6 7) ∧
  (∀ (s : State) (op : AOp) (so : StdAmo) (ty : ITy) (sc : Scope) (dbl aq rl : Bool) (rd a b : Reg),
      ((∃ t c, s.OnCrew t c) ∨ ∃ i, s.OnL i) →
      let case (i : Instr) (n cause : Nat) : Prop := (s.x a).toNat % n ≠ 0 → exec i s = .next (s.trap cause (s.x a))
      case (.amoOp op ty sc aq rl rd a) (ityBytes ty) 6 ∧ case (.amoCas ty sc aq rl rd a) (ityBytes ty) 6 ∧
      case (.amoLd ty sc aq rd a) (ityBytes ty) 4 ∧ case (.amoSt ty sc rl rd a) (ityBytes ty) 6 ∧
      case (.amoDraw sc aq rl rd a) 16 6 ∧ case (.amoTick aq rl rd a) 8 6 ∧ case (.red op ty sc a b) (ityBytes ty) 6 ∧
      case (.standardAmo so dbl aq rl rd a b) (if dbl then 8 else 4) 6 ∧
      case (.lr dbl aq rl rd a) (if dbl then 8 else 4) 4 ∧ case (.sc dbl aq rl rd a b) (if dbl then 8 else 4) 6 ∧
      case (.amocas .w aq rl rd a b) 4 6 ∧ case (.amocas .d aq rl rd a b) 8 6 ∧ case (.amocas .q aq rl rd a b) 16 6)

/-- Fences, invalidation points and prefetches retire. A fence whose sets order writes first merges the reductions that
the strand has contributed to, and waits until its stores to replicated pages have reached every die, or its own die at the scopes
`.cw`, `.pd` and `.di`; one that orders reads before anything, and `fn.nc`, leave the W-core no non-coherent copy; `fence.i` waits
for the strand's stores and empties the W-core's instruction buffers (R104, R105, R194 to R196, R204). -/
def Obligations.Fences : Prop :=
  ∀ (s : State) (t : Strand) (k : Nat) (sc : Scope) (fm p q : BitVec 4) (a : Reg), s.OnStrand t → s.cur = .strand k →
    let wide : Bool := sc = .pk || sc = .sy
    let done (wide : Bool) : State :=
      if p = 0 ∨ q = 0 then s
      else
        let r : State := if p.getLsbD 0 then s.release wide else s
        if p.getLsbD 1 && (q.getLsbD 1 || q.getLsbD 0) then r.ncPoint (r.coreOf s.cur) else r
    exec (.fnScoped sc p q) s = .next (done wide).retire ∧ exec (.fence fm p q) s = .next (done true).retire ∧
    (∀ w : Bool, s.release w =
      (let m := s.mergeStrand k
       if w then m.drain k else m.drainDie k (State.dieOf (m.coreOf s.cur)))) ∧
    (∀ (w : Bool) (r : Replica), r ∈ (s.release w).replicas → r.writer = k → w = false ∧ r.die ≠ State.dieOf t.core) ∧
    exec .fnNc s = .next (s.ncPoint t.core).retire ∧
    (s.ncPoint t.core).ncs.all (fun e => e.core ≠ t.core) = true ∧
    exec .fenceI s = .next ((s.drain k).dropIbuf s.cur).retire ∧
    (∀ i ∈ [Instr.fnPfL1 a, .fnPfLlc a, .fnPfW a],
      ∃ s' : State, exec i s = .next s'.retire ∧ (s.rbuf = [] → s'.strands = s.strands ∧ s'.mem = s.mem))

/-! ### Atomics, reductions, reservations -/

/-- Atomics on an aligned address that can be accessed complete, on either class of core. `s'` is the state, once released where the
form releases, in which the access has found `l`: its place and what stands there. Memory takes the operator's value of old
value and operand at the type's width, rd the old value extended; an acquire form then ends the W-core's non-coherent copies
(R214, R215, R221 to R224). `amo.tick` on an aligned, unmarked doubleword of the crew's stage memory adds one to it and returns
the old value (R225). What an atomic finds is what memory holds at its home, and its write leaves every byte outside it as it
was (R212, R213). -/
def Obligations.Atomics : Prop :=
  (∀ (s : State) (op : AOp) (so : StdAmo) (ty : ITy) (sc : Scope) (dbl aq rl : Bool) (rd a b : Reg), s.Runs →
      let va := s.x a
      let rel (wide rl : Bool) : State := if rl then s.release wide else s
      let fin (aq : Bool) (s : State) : Host.Outcome State Fault Refusal := .next (if aq then s.acquire else s).retire
      let n := ityBytes ty
      let o := stdAmoOp so dbl
      let m := ityBytes o.2
      let w := wideScope s sc
      let runs (s0 : State) (k : AccKind) (n : Nat) (chk : Bool) (i : Instr)
          (out : State → State.Atom → Host.Outcome State Fault Refusal) : Prop :=
        va.toNat % n = 0 → (∃ s1 p, s0.FindsAtom k va n chk s1 p) →
        ∃ s' l, s0.atomAt k va n chk = .ok s' l ∧ exec i s = out s' l
      runs (rel w rl) .store n true (.amoOp op ty sc aq rl rd a) (fun s' l =>
        fin aq ((s'.atomPut l n (amoFn op ty l.old (s'.x rd).toNat)).atomRd rd (extTy ty l.old))) ∧
      runs (rel w rl) .store n true (.amoCas ty sc aq rl rd a) (fun s' l =>
        fin aq ((if l.old = (s'.x rd).toNat % 2 ^ (8 * n) then
          s'.atomPut l n (if rd = 0 then 0 else s'.x (rd + 1)).toNat else s').atomRd rd (extTy ty l.old))) ∧
      runs s .load n true (.amoLd ty sc aq rd a) (fun s' l => fin aq (s'.atomRd rd (extTy ty l.old))) ∧
      runs (rel w rl) .store 16 true (.amoDraw sc aq rl rd a) (fun s' l =>
        let k := drawCount (l.old % 2 ^ 64) (l.old / 2 ^ 64) (s'.x (rd + 1))
        fin aq (((if k = 0 then s' else s'.atomPut l 8 (l.old % 2 ^ 64 + k)).atomRd rd (w64 (l.old % 2 ^ 64))).atomRd2
          (rd + 1) (w64 k))) ∧
      runs (rel true rl) .store m true (.standardAmo so dbl aq rl rd a b) (fun s' l =>
        fin aq ((s'.atomPut l m (amoFn o.1 o.2 l.old (s'.x b).toNat)).atomRd rd (sext (8 * m) l.old))) ∧
      runs (rel true rl) .store 4 true (.amocas .w aq rl rd a b) (fun s' l =>
        fin aq ((if l.old = (s'.x rd).toNat % 2 ^ 32 then s'.atomPut l 4 (s'.x b).toNat else s').atomRd rd (sext 32 l.old))) ∧
      runs (rel true rl) .store 8 true (.amocas .d aq rl rd a b) (fun s' l =>
        fin aq ((if l.old = (s'.x rd).toNat % 2 ^ 64 then s'.atomPut l 8 (s'.x b).toNat else s').atomRd rd (sext 64 l.old))) ∧
      runs (rel true rl) .store 16 true (.amocas .q aq rl rd a b) (fun s' l =>
        let u : State := if l.old = s'.pair rd then s'.atomPut l 16 (s'.pair b) else s'
        fin aq (if rd = 0 then u else (u.atomRd rd (w64 l.old)).atomRd2 (rd + 1) (w64 (l.old / 2 ^ 64)))) ∧
      runs (rel w rl) .store n false (.amoSt ty sc rl rd a) (fun s' l => .next (s'.atomPut l n (s'.x rd).toNat).retire)) ∧
  (∀ (s : State) (t : Strand) (c : Crew) (aq rl : Bool) (rd a : Reg), s.OnCrew t c →
      let ad := (s.x a).toNat
      let v := bytesGet c.stage ad 8
      let s0 : State := if rl then s.release else s
      let s1 := ((s0.stageWrite c.id ad (v + 1) 8).setX rd (w64 v)).markFrom rd.toNat []
      ad % 8 = 0 → c.stageIn ad 8 = true → c.stageBad ad 8 = false → s.stageHeld t ad 8 = false →
      exec (.amoTick aq rl rd a) s = .next (if aq then s1.acquire else s1).retire) ∧
  (∀ (s s1 : State) (k : AccKind) (va : Word) (n v x : Nat) (chk : Bool) (p : Part), s.Inv → s.Runs → n ≤ 16 →
      va.toNat % n = 0 → s.FindsAtom k va n chk s1 p →
      ∃ s' l, s.atomAt k va n chk = .ok s' l ∧ l.part = p ∧ (s'.replicas = [] → l.old = bytesGet s'.mem p.pa n) ∧
        (s.rbuf = [] → s.NoImage [p] → s'.mem = s.mem) ∧
        ((x < p.pa ∨ p.pa + n ≤ x) → sget (s'.atomPut l n v).mem x = sget s'.mem x) ∧
        (p.pa ≤ x → x < p.pa + n → s'.raceWords p.pa n = [] →
          sget (s'.atomPut l n v).mem x = BitVec.ofNat 8 (v / 256 ^ (x - p.pa))))

/-- A reduction of a strand on an ordinary page retires once its contribution stands in the W-core's reduction buffer; it
returns nothing and reads no memory (R226, R227). On a replicated page, one of type NC, or memory of a peer, and on an
L-core, it is performed at once as an atomic that returns nothing (R226, R229). -/
def Obligations.BufferedReduction : Prop :=
  ∀ (s s1 : State) (op : AOp) (ty : ITy) (sc : Scope) (a b : Reg) (p : Part),
    let va := s.x a
    let n := ityBytes ty
    let plain : Prop := p.attr ≠ 1 ∧ p.pbmt ≠ 1 ∧ ∀ q, region p.pa ≠ .peer q
    va.toNat % n = 0 →
    (∀ t, s.OnStrand t → s.Finds .store va n true s1 [p] → p.pbmt ≠ 2 → plain →
      ∃ point, point ≤ 2 ∧ exec (.red op ty sc a b) s =
        .next ((((s1.classify t.core p.pa p.attr).served s.cur p.pa n).redAdd t p.pa op ty point (s.x b).toNat).retire)) ∧
    (s.Finds .store va n true s1 [p] → p.pbmt ≠ 2 → s1.Clean [p] → ((∃ i, s.OnL i) ∨ ((∃ t, s.OnStrand t) ∧ ¬plain)) →
      ∃ s' l, s.atomAt .store va n true false false = .ok s' l ∧
        exec (.red op ty sc a b) s = .next (s'.atomPut l n (amoFn op ty l.old (s.x b).toNat)).retire)

/-- `lr` of a strand notes the line of its address as the reservation and returns what it holds, where its hold can be taken at once:
no hold of the W-core stands on the line and the table has room. `sc` with a reservation on its line stores and writes 0; without
one, or where a reduction that merges first has ended it, it writes 1 and stores nothing of its own; either way no reservation is left
(R216, R217, R228). The two waits on a reservation: a strand that holds none passes; one that holds one waits, at most 65,536 cc for
`wrs.nto` and 256 cc for `wrs.sto` (R106). Two clauses are the model's: on an L-core the waits pass, as Zawrs lets them (PRESUMED,
log 17), and an `sc` does not look at poison (DEDUCED, log 71). -/
def Obligations.Reservations : Prop :=
  (∀ (s s1 : State) (t : Strand) (p : Part) (dbl aq rl : Bool) (rd a : Reg), s.OnStrand t →
      let n := if dbl then 8 else 4
      let g := lineOf p.pa
      (s.x a).toNat % n = 0 → s.FindsAtom .load (s.x a) n true s1 p →
      (∀ h ∈ s.holds, h.core = t.core → h.granule ≠ g) → (s.holds.filter fun h => h.core = t.core).length < 16 →
      ∃ s' l u s2, s.atomAt .load (s.x a) n true true = .ok s' l ∧ l.part = p ∧ s'.OnStrand u ∧ s'.takeHold u g = (s2, true) ∧
        let v : Word := if dbl then w64 l.old else sext 32 l.old
        let s3 := (s2.setResv (some g)).atomRd rd v
        exec (.lr dbl aq rl rd a) s = .next (if aq then s3.acquire else s3).retire) ∧
  (∀ (s s1 : State) (p : Part) (dbl aq rl : Bool) (rd a b : Reg), s.Runs →
      let n := if dbl then 8 else 4
      let g := lineOf p.pa
      let s0 : State := if rl then s.release else s
      let i : Instr := .sc dbl aq rl rd a b
      let fails (m : State) : Prop := ∃ s' : State, exec i s = .next (s'.setX rd 1).retire ∧ s'.mem = m.mem ∧ s'.resv = none
      (s.x a).toNat % n = 0 →
      (s0.atomLoc .store (s.x a) n = .ok s1 p → s1.resv ≠ some g → fails s1) ∧
      (s0.FindsAtom .store (s.x a) n false s1 p → s1.resv = some g →
        ∃ s2 l, s1.atomOpen .store (s.x a) p false = .ok s2 l ∧
          (s2.resv ≠ some g → fails s2) ∧
          (s2.resv = some g →
            let w := s2.atomPut l n (s2.x b).toNat
            exec i s = .next (((w.endHold w.me).setResv none).setX rd 0).retire))) ∧
  (∀ (s : State) (t : Strand), s.OnStrand t →
      (t.resv = none → exec .wrsNto s = .next s.retire ∧ exec .wrsSto s = .next s.retire) ∧
      (t.resv ≠ none → exec .wrsNto s = .next (s.await (.wrs (s.cc t.core + 65536))) ∧
        exec .wrsSto s = .next (s.await (.wrs (s.cc t.core + 256))))) ∧
  (∀ (s : State) (j : Nat), s.OnL j → exec .wrsNto s = .next s.retire ∧ exec .wrsSto s = .next s.retire)

/-! ### Convergence and lane groups -/

/-- Membership and queries of a convergence register that the strand may name: joining adds the strand, `cv.join.crew`
by the leader of an empty register adds every live strand, leaving removes it, a query reads, and what a form's condition
rules out is a status (R121, R125). A register number outside the crew's is an operand out of limits; in S-mode only cv15
may be named (R111, R120). -/
def Obligations.ConvergenceMembership : Prop :=
  (∀ (s : State) (t : Strand) (c : Crew) (rd a : Reg) (n : BitVec 4) (i : Nat), s.OnCrew t c → cvSel t c n = .ok i →
      let r := c.cvGet i
      (t.sid ∉ r.members → exec (.cvJoin rd n) s =
        .next ((s.modCv c.id i fun r => { r with members := insSorted r.members t.sid }).retX rd 0)) ∧
      (t.sid ∈ r.members → exec (.cvJoin rd n) s = .next (s.retX rd (neg 4))) ∧
      (i = 16 ∨ t.leader = false → exec (.cvJoinCrew rd n) s = .next (s.retX rd (neg 9))) ∧
      (i ≠ 16 → t.leader = true → r.members ≠ [] → exec (.cvJoinCrew rd n) s = .next (s.retX rd (neg 4))) ∧
      (i ≠ 16 → t.leader = true → r.members = [] → exec (.cvJoinCrew rd n) s =
        .next ((s.modCv c.id i fun r => { r with members := c.live }).retX rd 0)) ∧
      (t.sid ∈ r.members → exec (.cvQuit rd n) s = .next ((s.cvQuit c.id i t.sid).retX rd 0)) ∧
      (t.sid ∉ r.members → exec (.cvQuit rd n) s = .next (s.retX rd (neg 4))) ∧
      (∀ q, (q, (s.x a).toNat) ∈ [(w64 r.members.length, 0), (w64 r.signed.length, 1), (w64 r.phase, 2),
          (w64 (b2n (r.members.contains t.sid)), 3), (w64 r.kind, 4), (w64 (r.cancels.toNat * 4 + r.reason), 5)] →
        exec (.cvQry rd a n) s = .next (s.retX rd q)) ∧
      (5 < (s.x a).toNat → exec (.cvQry rd a n) s = .next (s.retX rd (neg 3)))) ∧
  (∀ (s : State) (t : Strand) (c : Crew) (rd a : Reg) (n : BitVec 4), s.OnCrew t c →
      ∀ j ∈ [Instr.cvJoin rd n, .cvJoinCrew rd n, .cvQuit rd n, .cvBar rd n, .cvBarRx rd n, .cvArv rd n, .cvArvRx rd n,
          .cvWt rd a n, .cvWtTry rd a n, .cvQry rd a n],
        (t.sMode = false → c.cvs ≤ n.toNat → exec j s = .next (s.retX rd (neg 3))) ∧
        (t.sMode = true → n ≠ 15 → exec j s = .next (s.trap 2 s.ibits)))

/-- Arrivals: a member that may sign signs the open phase. `cv.bar` and `cv.bar.rx` then wait for its release; `cv.arv`
and `cv.arv.rx` retire with the phase as their token; the forms without `.rx` release first, as at scope `.cw` (R122, R123). A member
that has signed what is pending waits to sign again (R115). Waits on a token: -3 for a value that is no token or lies more than
2^30 phases back, -5 beyond the 64 phases of history, 0 or -6 at once where the phase is known to be released or cancelled; else
`cv.wt` waits and `cv.wt.try` answers -8 (R124). -/
def Obligations.Arrivals : Prop :=
  (∀ (s : State) (t : Strand) (c : Crew) (rd : Reg) (n : BitVec 4) (i : Nat), s.OnCrew t c → cvSel t c n = .ok i →
      let r := c.cvGet i
      let rel := s.release false
      (r.signable t.sid 1 [] = .ok →
        exec (.cvBar rd n) s = .next ((rel.await (.barrier i r.phase rd true)).cvArrive c.id i t.sid) ∧
        exec (.cvBarRx rd n) s = .next ((s.await (.barrier i r.phase rd false)).cvArrive c.id i t.sid) ∧
        exec (.cvArv rd n) s = .next ((rel.retX rd (w64 r.phase)).cvArrive c.id i t.sid) ∧
        exec (.cvArvRx rd n) s = .next ((s.retX rd (w64 r.phase)).cvArrive c.id i t.sid)) ∧
      (r.signable t.sid 1 [] = .busy → ∀ j ∈ [Instr.cvBar rd n, .cvBarRx rd n, .cvArv rd n, .cvArvRx rd n],
        exec j s = .next (s.await (.busy i)))) ∧
  (∀ (s : State) (t : Strand) (c : Crew) (rd a : Reg) (n : BitVec 4) (i : Nat), s.OnCrew t c → cvSel t c n = .ok i →
      let r := c.cvGet i
      let tok := (s.x a).toNat
      let d := (r.phase + 2 ^ 31 - tok) % 2 ^ 31
      let both (v : Word) : Prop :=
        exec (.cvWt rd a n) s = .next (s.retX rd v) ∧ exec (.cvWtTry rd a n) s = .next (s.retX rd v)
      (2 ^ 31 ≤ tok ∨ 2 ^ 30 < d → both (neg 3)) ∧
      (tok < 2 ^ 31 → 64 < d → d ≤ 2 ^ 30 → both (neg 5)) ∧
      (tok < 2 ^ 31 → d ≤ 64 → r.answerWt tok false = some (neg 6) → both (neg 6)) ∧
      (tok < 2 ^ 31 → d ≤ 64 → r.answerWt tok false = some 0 →
        exec (.cvWt rd a n) s = .next ((s.ncPoint t.core).retX rd 0) ∧
        exec (.cvWtTry rd a n) s = .next ((s.ncPoint t.core).retX rd 0)) ∧
      (tok < 2 ^ 31 → d ≤ 64 → r.answerWt tok false = none →
        exec (.cvWt rd a n) s = .next (s.await (.cvWt i tok rd)) ∧ exec (.cvWtTry rd a n) s = .next (s.retX rd (neg 8))))

/-- Every lane-group instruction by a member that may sign signs the register with its operation, and with the value of
rs2 where that has to agree, and supplies its operand (R130, R131, R136). What a completed lane group gives the member of rank j, of
m: a shuffle the value of its source rank, or its own where there is none (R137); a vote what R138 says; an integer reduction or
scan the operator of Table 5.2 over every rank, the ranks to j, or those before j, from the operator's identity (R139); a
floating-point form the split sum S, or the least or greatest operand by the rules of `fmin` and `fmax`, NaN-boxed, whatever `frm`
holds (R140); S adds the sums of the first h and of the others, h the largest power of two below their number. -/
def Obligations.LaneForms : Prop :=
  (∀ (s : State) (t : Strand) (c : Crew) (rd a b : Reg) (n : BitVec 4) (o : GOp) (p : FPrec) (i : Nat),
      s.OnCrew t c → cvSel t c n = .ok i →
      let signs (j : Instr) (sig data : List Nat) : Prop :=
        (c.cvGet i).signable t.sid 2 sig = .ok → exec j s = .next (s.cvSign t i 2 sig rd data)
      let v := (s.x a).toNat
      let w := (s.x b).toNat
      let x := (s.f a).toNat
      signs (.gpShflIdx rd a b n) [0] [v, w] ∧ signs (.gpShflXor rd a b n) [1, w] [v, w] ∧
      signs (.gpShflUp rd a b n) [2, w] [v, w] ∧ signs (.gpShflDn rd a b n) [3, w] [v, w] ∧
      signs (.gpBcst rd a b n) [4, w] [v, w] ∧ signs (.gpAll rd a n) [6, 0] [v, 0] ∧ signs (.gpAny rd a n) [6, 1] [v, 0] ∧
      signs (.gpUni rd a n) [6, 2] [v, 0] ∧ signs (.gpBlt rd a n) [6, 3] [v, 0] ∧ signs (.gpPcnt rd a n) [6, 4] [v, 0] ∧
      signs (.gpMtchLdr rd a n) [6, 5] [v, 0] ∧ signs (.gpMtchCnt rd a n) [6, 6] [v, 0] ∧
      signs (.gpRed o rd a n) [6, 8 + gopNum o] [v, 0] ∧ signs (.gpScan o rd a n) [6, 16 + gopNum o] [v, 0] ∧
      signs (.gpXscan o rd a n) [6, 24 + gopNum o] [v, 0] ∧ signs (.gpRedAddF p rd a n) [7, precBit p] [x, 0] ∧
      signs (.gpRedMinF p rd a n) [7, 2 + precBit p] [x, 0] ∧ signs (.gpRedMaxF p rd a n) [7, 4 + precBit p] [x, 0] ∧
      signs (.gpScanAddF p rd a n) [7, 8 + precBit p] [x, 0] ∧ signs (.gpXscanAddF p rd a n) [7, 12 + precBit p] [x, 0]) ∧
  (∀ (ops : List (Word × Nat)) (sub j : Nat), j < ops.length → ops.length ≤ 6144 →
      let m := ops.length
      let vs := ops.map (·.1)
      let v (k : Nat) : Word := vs.getD k 0
      let a := (ops.getD j (0, 0)).2
      let own (e : Int) : Word := if 0 ≤ e ∧ e < m then v e.toNat else v j
      let res (g k : Nat) : Word := (laneInt g k ops).getD j 0
      (∀ g, (laneInt g sub ops).length = m) ∧
      res 0 sub = own a ∧ res 1 sub = own (j ^^^ a : Nat) ∧ res 2 sub = own ((j : Int) - a) ∧ res 3 sub = own ((j : Int) + a) ∧
      res 4 sub = own a ∧
      res 6 0 = (if ∀ k, k < m → v k ≠ 0 then 1 else 0) ∧
      res 6 1 = (if ∃ k, k < m ∧ v k ≠ 0 then 1 else 0) ∧
      res 6 2 = (if ∀ k, k < m → v k = v j then 1 else 0) ∧
      (∀ b, b < 64 → (res 6 3).getLsbD b = decide (64 * (j / 64) + b < m ∧ v (64 * (j / 64) + b) ≠ 0)) ∧
      (res 6 4).toNat = (vs.filter (· ≠ 0)).length ∧
      (let i := (res 6 5).toNat; i ≤ j ∧ v i = v j ∧ ∀ k, k < i → v k ≠ v j) ∧
      (res 6 6).toNat = (vs.filter (· = v j)).length ∧
      (∀ q ∈ [(GOp.add, (fun x y => x + y : Word → Word → Word), (0 : Word)), (.and, fun x y => x &&& y, -1), (.or, fun x y => x ||| y, 0),
          (.xor, fun x y => x ^^^ y, 0), (.minI, fun x y => if x.toInt < y.toInt then x else y, 2 ^ 63 - 1),
          (.maxI, fun x y => if x.toInt < y.toInt then y else x, 2 ^ 63), (.minN, fun x y => if x.toNat < y.toNat then x else y, -1),
          (.maxN, fun x y => if x.toNat < y.toNat then y else x, 0)],
        res 6 (8 + gopNum q.1) = vs.foldl q.2.1 q.2.2 ∧ res 6 (16 + gopNum q.1) = (vs.take (j + 1)).foldl q.2.1 q.2.2 ∧
        res 6 (24 + gopNum q.1) = (vs.take j).foldl q.2.1 q.2.2)) ∧
  (∀ (p : FPrec) (ops : List Word) (j : Nat), j < ops.length →
      let f := match p with | .s => f32 | .d => f64
      let vs := ops.map (unbox f)
      let S (l : List Nat) : Nat := (splitSum f l 16).1
      let best (most : Bool) : Nat := vs.foldl (fun x y => (fminmax f most x y).1) f.qnan
      let res (k : Nat) : Word := (laneFp (k + precBit p) ops).1.getD j 0
      res 0 = box f (S vs) ∧ res 8 = box f (S (vs.take (j + 1))) ∧
      res 12 = box f (if j = 0 then 2 ^ (f.width - 1) else S (vs.take j)) ∧ res 2 = box f (best false) ∧ res 4 = box f (best true)) ∧
  (∀ (f : FFmt) (l : List Nat) (n : Nat), 2 ≤ l.length → l.length ≤ 2 ^ 14 → ∃ i,
      let h := 2 ^ i
      let x := splitSum f (l.take h) n
      let y := splitSum f (l.drop h) n
      let r := ffinish f 0 (fadd 0 (FVal.ofBits f x.1) (FVal.ofBits f y.1))
      h < l.length ∧ l.length ≤ 2 * h ∧ splitSum f l (n + 1) = (r.1, x.2 ||| y.2 ||| r.2))

/-- A strand that is no member of the register takes a collective mismatch, cause 25, with the instruction's bits, at an arrival, a
lane-group form, a matrix form, a drain or a control form (the last three in U-mode alone, R111); so does a member that has not
signed what is pending and whose signature differs from it (R114): another operation, another kind, or for a lane group another
value of rs2 that has to agree (R131). At an `mx.pmma` a pair that the member holds open breaks with it (R280). -/
def Obligations.CollectiveMismatch : Prop :=
  ∀ (s : State) (t : Strand) (c : Crew) (rd a b e : Reg) (n : BitVec 4) (i : Nat) (o : GOp) (p : FPrec) (x : MxArgs) (d : DrnArgs),
    s.OnCrew t c → cvSel t c n = .ok i → x.cv = n → d.cv = n →
    let r := c.cvGet i
    let w := (s.x b).toNat
    let traps (j : Instr) : Prop := exec j s = .next (s.trap 25 s.ibits)
    let pair : Prop := exec (.mxPmma x) s = .next ((s.trap 25 s.ibits).breakPair c.id i t.sid)
    let arrivals := [Instr.cvBar rd n, .cvBarRx rd n, .cvArv rd n, .cvArvRx rd n]
    let controls := [Instr.mxTake rd a n, .mxPass rd a b n, .mxTakeTk rd a b e n, .mxPassTk rd a n]
    let lanes := [(Instr.gpShflIdx rd a b n, [0]), (.gpShflXor rd a b n, [1, w]), (.gpShflUp rd a b n, [2, w]),
      (.gpShflDn rd a b n, [3, w]), (.gpBcst rd a b n, [4, w]), (.gpAll rd a n, [6, 0]), (.gpAny rd a n, [6, 1]),
      (.gpUni rd a n, [6, 2]), (.gpBlt rd a n, [6, 3]), (.gpPcnt rd a n, [6, 4]), (.gpMtchLdr rd a n, [6, 5]),
      (.gpMtchCnt rd a n, [6, 6]), (.gpRed o rd a n, [6, 8 + gopNum o]), (.gpScan o rd a n, [6, 16 + gopNum o]),
      (.gpXscan o rd a n, [6, 24 + gopNum o]), (.gpRedAddF p rd a n, [7, precBit p]), (.gpRedMinF p rd a n, [7, 2 + precBit p]),
      (.gpRedMaxF p rd a n, [7, 4 + precBit p]), (.gpScanAddF p rd a n, [7, 8 + precBit p]),
      (.gpXscanAddF p rd a n, [7, 12 + precBit p])]
    (t.sid ∉ r.members →
      (∀ j ∈ arrivals, traps j) ∧ (∀ j ∈ lanes, traps j.1) ∧
      (t.sMode = false → (∀ j ∈ controls, traps j) ∧ traps (.mxMma x) ∧ traps (.mxGmma x) ∧ pair ∧ traps (.mxDrn d) ∧
        traps (.mxDrnZ d))) ∧
    (t.sid ∈ r.members → t.sid ∉ r.signed → r.fixed = false → r.kind ≠ 0 →
      (r.kind ≠ 1 ∨ r.sig ≠ [] → ∀ j ∈ arrivals, traps j) ∧
      (∀ j ∈ lanes, r.kind ≠ 2 ∨ r.sig ≠ j.2 → traps j.1) ∧
      (t.sMode = false → r.kind ≠ 4 → ∀ j ∈ controls, traps j) ∧
      (t.sMode = false → r.kind ≠ 3 → traps (.mxMma x) ∧ traps (.mxGmma x) ∧ pair ∧ traps (.mxDrn d) ∧ traps (.mxDrnZ d)))

/-! ### Threads, fleets, waits -/

/-- `mg.go` in user mode. On an L-core, with a pool word within Table 3.5, the thread departs: to the frame it was
recalled from where it has one, else to a new one on the die chosen, and the L-core takes cause 28. On a W-core it is
the pool change of a thread that holds no children: its slot is given up and it waits for a placement in the pool it
named (R64 to R66). Its stores to replicated pages reach every die first. `mg.home` at depth 0 goes on to the end of the strand at once
where its children are done, its copies complete and no result of an engine queue is still to come (R101); with unfinished children it
waits for them (R67). -/
def Obligations.Migration : Prop :=
  (∀ (s : State) (rd a : Reg),
      (∀ (i : Nat) (f : Frame), s.OnL i → (s.lcoreAt i).mode = .u → State.poolWordOk (s.x a) = true →
        s.frames.find? (fun f => f.recalled && !f.killed && f.tag = (s.lcoreAt i).get 0x140 && f.satp = (s.lcoreAt i).get 0x180) =
          some f →
        let m := (s.mergeLines f.image 1024).drain (i + 2)
        exec (.mgGo rd a) s = .next (m.depart i rd f.image f.die (min (wbits (s.x a) 10 8) (s.prioCap f.die))
          (wbits (s.x a) 1 0) ((s.lcoreAt i).get 0x140) ((s.lcoreAt i).get 0x180) (s.strand? f.image))) ∧
      (∀ (i d k : Nat) (s' : State), s.OnL i → (s.lcoreAt i).mode = .u → State.poolWordOk (s.x a) = true →
        s.frames.find? (fun f => f.recalled && !f.killed && f.tag = (s.lcoreAt i).get 0x140 && f.satp = (s.lcoreAt i).get 0x180) =
          none →
        s.chooseDie (s.x a) = some d → s.alloc d 1024 1024 = some (k, s') →
        exec (.mgGo rd a) s = .next ((s'.drain (i + 2)).depart i rd k d (min (wbits (s.x a) 10 8) (s.prioCap d))
          (wbits (s.x a) 1 0) ((s.lcoreAt i).get 0x140) ((s.lcoreAt i).get 0x180) none)) ∧
      (∀ (t : Strand) (c : Crew), s.OnCrew t c → t.sMode = false → c.fleet = 0 → State.anyChild t = false →
        State.poolWordOk (s.x a) = true → s.eligible c.die (wbits (s.x a) 1 0) = true → s.owed t.image (fun _ => true) = false →
        ∃ (s' : State) (c' : Crew) (u : Strand), exec (.mgGo rd a) s = .next s' ∧ s'.crew? c.id = some c' ∧
          c'.cls = wbits (s.x a) 1 0 ∧ c'.cores = [] ∧ c'.wd = 0 ∧ s'.strand? t.image = some u ∧ u.status = .waiting)) ∧
  (∀ (s : State) (t : Strand) (c : Crew), s.OnCrew t c → t.sMode = false →
      let s1 := s.modStrand t.image fun t => { t with wlen := s.ilen }
      exec .mgHome s = .next (s1.homeGo t.image) ∧
      (∀ u, s1.strand? t.image = some u → s1.childrenDone u = true → State.anyChild u = false → u.batCount = 0 →
        s1.owed t.image (fun _ => true) = false →
        exec .mgHome s = .next (s1.homeEnd u c)))

/-- Forking, joining and stopping in user mode. `fk.flt` by a leader, with a legal block and a free slot of its own,
puts the new fleet's handle in the slot and answers 0; `fk.join.try` and `fk.join` on a fleet that is done empty the
slot and answer its status; `fk.stop` stops the fleet. `fk.stop.pre` answers 0, and of the fleet and those that descend from it each
that is not done is in state 5, its resident crews to be pre-empted; `fk.stop.rsm` answers 0, and each of them that is in state 5
and not done leaves it. A code above 4 or a slot above 3 gives `fk.qry` -3, an empty slot 0, and else it answers: the state, the
crews placed and completed, those resident, wholly or partly, and the handle (R79, R82 to R84). -/
def Obligations.ForkForms : Prop :=
  ∀ (s : State) (t : Strand) (c : Crew) (rd a b : Reg), s.OnCrew t c → t.sMode = false →
    (t.leader = true → (s.x b).toNat ≤ 3 → State.childOf t (s.x b).toNat = 0 → s.fdepth c ≠ 10 → (s.x a).toNat % 64 = 0 →
      s.Reads (s.x a) 64 → (s.storeLow c.die 64 64).isSome = true →
      ∃ (s1 : State) (blk : Nat), s.load (s.x a) 64 = .ok s1 blk ∧
        (State.blockOk blk = false → exec (.fkFlt rd a b) s = .next (s1.retX rd (neg 3))) ∧
        (let ls := 8 :: State.liveLines (State.blkF blk 0x18 4)
         let m := s1.fetchLines t.image ls
         State.blockOk blk = true → s1.HasLines t.image ls → ∃ (u : Strand) (s2 : State) (h : Word), m.OnStrand u ∧
           m.release.newFleet u c (s.x b).toNat blk none = some (s2, h) ∧ exec (.fkFlt rd a b) s = .next (s2.retX rd 0))) ∧
    ((s.x a).toNat ≤ 3 → State.childOf t (s.x a).toNat ≠ 0 →
      (∀ s1 v, s.joinNow t (s.x a).toNat = some (s1, v) →
        exec (.fkJoinTry rd a) s = .next (s1.acquire.retX rd v) ∧
        exec (.fkJoin rd a) s = .next ((s1.ncPoint t.core).retX rd v)) ∧
      (s.joinNow t (s.x a).toNat = none → exec (.fkJoinTry rd a) s = .next (s.retX rd (neg 8)) ∧
        exec (.fkJoin rd a) s =
          .next (s.await (.park (.join (s.x a).toNat) rd (s.cc t.core + 16 * t.cbits cThctl 15 0)))) ∧
      exec (.fkStop rd a) s = .next ((s.stopFleet (State.childOf t (s.x a).toNat)).retX rd 0) ∧
      (let fam := s.descend [State.childOf t (s.x a).toNat] 12
       (∃ s' : State, exec (.fkStopPre rd a) s = .next (s'.retX rd 0) ∧ s'.mem = s.mem ∧ s'.strands = s.strands ∧
         (∀ h ∈ fam, ∀ f, s.fleet? h = some f → s.fleetDone f = false → s'.fleet? h = some { f with pre := true }) ∧
         (∀ h ∈ fam, h ≠ 0 → ∀ f, s.fleet? h = some f → s.fleetDone f = false → ∀ k x, s.crew? k = some x → x.fleet = h →
           x.cores ≠ [] → x.pre % 3 = 0 → s'.crew? k = some { x with toPre := true }) ∧
         (∀ h, h ∉ fam → s'.fleet? h = s.fleet? h)) ∧
       (∃ s' : State, exec (.fkStopRsm rd a) s = .next (s'.retX rd 0) ∧ s'.crews = s.crews ∧
         (s.rbuf = [] → s'.mem = s.mem) ∧
         (∀ h ∈ fam, ∀ f, s.fleet? h = some f → f.pre = true → s.fleetDone f = false →
           s'.fleet? h = some { f with pre := false }) ∧
         (∀ h, h ∉ fam → s'.fleet? h = s.fleet? h)))) ∧
    (4 < (s.x b).toNat ∨ 3 < (s.x a).toNat → exec (.fkQry rd a b) s = .next (s.retX rd (neg 3))) ∧
    ((s.x b).toNat ≤ 4 → (s.x a).toNat ≤ 3 →
      (s.slotFleet t (s.x a).toNat = none → exec (.fkQry rd a b) s = .next (s.retX rd 0)) ∧
      (∀ f, s.slotFleet t (s.x a).toNat = some f →
        let q := (s.x b).toNat
        let ans (v : Word) : Prop := exec (.fkQry rd a b) s = .next (s.retX rd v)
        (q = 0 → ans (w64 (s.slotCode f.handle))) ∧ (q = 1 → ans (w64 f.placed)) ∧ (q = 2 → ans (w64 f.completed)) ∧
        (q = 3 → ans (w64 ((s.crewsOf f.handle).filter fun x => x.pre ≤ 1 && !x.cores.isEmpty).length)) ∧
        (q = 4 → ans f.handle)))

/-- A park form whose condition holds answers 0 at once; one whose condition does not hold begins its resident wait,
which lasts 16 times the spin count of `thctl` in cc (R86, R87). `th.yield` and `th.pause` n leave the strand unready
for 16 issue cycles and for 16 n cc; `th.pause` of 0 or below passes (R91). -/
def Obligations.ParkForms : Prop :=
  ∀ (s : State) (t : Strand) (rd a b : Reg) (imm : BitVec 9), s.OnStrand t → t.sMode = false →
    let e := s.cc t.core + 16 * t.cbits cThctl 15 0
    (t.batCount ≤ (s.x a).toNat → exec (.thParkBat rd a) s = .next (s.retX rd 0)) ∧
    ((s.x a).toNat < t.batCount → exec (.thParkBat rd a) s = .next (s.await (.park (.bat (s.x a).toNat) rd e))) ∧
    ((s.x a).toNat ≤ s.time.toNat → exec (.thParkTm rd a) s = .next (s.retX rd 0)) ∧
    (s.time.toNat < (s.x a).toNat → exec (.thParkTm rd a) s = .next (s.await (.park (.tm (s.x a).toNat) rd e))) ∧
    ((s.x a).toNat % 8 = 0 → s.Reads (s.x a) 8 → ∃ s' v, s.load (s.x a) 8 = .ok s' v ∧
      (w64 v ≠ s.x b → exec (.thParkMem rd a b) s = .next (s'.retX rd 0)) ∧
      (w64 v = s.x b → exec (.thParkMem rd a b) s =
        .next (s'.await (.park (.mem (s.x a).toNat s'.accPa (s.x b)) rd (s'.cc t.core + 16 * t.cbits cThctl 15 0))))) ∧
    exec .thYield s = .next (s.await (.pause (s.cc t.core + 16 * passes (s.podAt (State.podOf t.core))))) ∧
    (0 < imm.toInt → exec (.thPause imm) s = .next (s.await (.pause (s.cc t.core + 16 * imm.toNat)))) ∧
    (imm.toInt ≤ 0 → exec (.thPause imm) s = .next s.retire)

/-- In S-mode the thread and fleet forms answer -9, and `mg.home` and the matrix forms are illegal (R63, R67, R79, R83,
R86, R266); the trap at an `mx.pmma` breaks a pair that the strand holds open (R280). At depth 0 these forms, `sret` and `sfence.vma` are illegal instructions (R363, R372). -/
def Obligations.ModeChecks : Prop :=
  (∀ (s : State) (t : Strand) (c : Crew) (rd a b x : Reg) (n : BitVec 4) (m : MxArgs) (d : DrnArgs), s.OnCrew t c →
      t.sMode = true →
      (∀ i ∈ [Instr.mgGo rd a, .fkFlt rd a b, .fkJoin rd a, .fkJoinTry rd a, .fkStop rd a, .fkStopPre rd a, .fkStopRsm rd a,
          .fkQry rd a b, .thParkMem rd a b, .thParkBat rd a, .thParkTm rd a, .sgFork rd a b, .sgRwd rd a, .sgCol rd a,
          .sgCxl rd a b, .sgExt rd a b, .sgQry rd a b, .sgLeave rd, .pwYld rd], exec i s = .next (s.retX rd (neg 9))) ∧
      exec (.mxPmma m) s = .next ((s.trap 2 s.ibits).breakPair c.id m.cv.toNat t.sid) ∧
      (∀ i ∈ [Instr.mgHome, .mxMma m, .mxGmma m, .mxDrn d, .mxDrnZ d, .mxTake rd a n, .mxPass rd a b n,
          .mxTakeTk rd a b x n, .mxPassTk rd a n, .amGet rd a b, .amRel rd a b, .amZero a b, .epLoad rd a b,
          .epRun rd a b x x], exec i s = .next (s.trap 2 s.ibits))) ∧
  (∀ (s : State) (t : Strand) (rd a b : Reg), s.OnStrand t → t.sMode = false →
      ∀ i ∈ [Instr.syPark rd, .syEnd rd, .syRec rd a b, .syTlbsd rd a b, .sret, .sfenceVma a b],
        exec i s = .next (s.trap 2 s.ibits))

/-- The forms of a sample group. For the forker, on a slot that holds one: `sg.col` answers the closing status of a
group that is closed and whose record is written, and waits on another, `sg.ext` lengthens a running timeout, `sg.qry` reads, `sg.cxl` of a sibling that
is not placed answers 0. For a sibling's leader: `sg.rwd` in an open group releases, records the reward and the state 1 of its
sibling in the group and in its record, and answers 0; `sg.leave` leaves (R319 to R325). -/
def Obligations.SampleGroupForms : Prop :=
  ∀ (s : State) (t : Strand) (c : Crew) (rd a b : Reg) (g : Group), s.OnCrew t c → t.sMode = false →
    (∀ f : Fleet, (s.x a).toNat ≤ 3 → s.slotFleet t (s.x a).toNat = some f → f.group = some g →
      (s.closeWritten g = true → exec (.sgCol rd a) s = .next ((s.ncPoint t.core).retX rd (State.closeStatus g))) ∧
      (s.closeWritten g = false → exec (.sgCol rd a) s =
        .next (s.await (.park (.group (s.x a).toNat) rd (s.cc t.core + 16 * t.cbits cThctl 15 0)))) ∧
      (g.closed = false → g.timeout ≠ 0 → exec (.sgExt rd a b) s =
        .next (((s.modGroup f.handle fun g' => { g' with timeout := min (g.timeout + (s.x b).toNat) (2 ^ 32 - 1) }).recWrite g
          0xC (min (g.timeout + (s.x b).toNat) (2 ^ 32 - 1)) 4).retX rd 0)) ∧
      ((s.x b).toNat ≤ 6 → exec (.sgQry rd a b) s = .next (s.retX rd (w64 (groupQuery g (s.x b).toNat)))) ∧
      (g.n ≤ (s.x b).toNat → exec (.sgCxl rd a b) s = .next (s.retX rd (neg 3))) ∧
      (g.closed = false → (s.x b).toNat < g.n → g.st (s.x b).toNat = 0 → s.crewsOf f.handle = [] →
        ∃ s' : State, exec (.sgCxl rd a b) s = .next (s'.retX rd 0))) ∧
    (s.group? c.fleet = some g → t.leader = true →
      (g.closed = false → g.st c.sibling = 0 → (s.f a).toNat % 2 ^ 63 ≤ 0x43F0000000000000 →
        let m := s.release.modGroup c.fleet fun g => { g with rewards := g.rewards ++ [(c.sibling, s.f a)] }
        let m := (m.recWrite g (0x40 + 16 * c.sibling) (s.f a).toNat 8).setSib c.fleet c.sibling 1
        exec (.sgRwd rd a) s = .next ((m.tryClose c.fleet).retX rd 0) ∧
        (c.sibling < g.states.length → ∃ g', m.group? c.fleet = some g' ∧ g'.rewards = g.rewards ++ [(c.sibling, s.f a)] ∧
          g'.st c.sibling = 1)) ∧
      (g.closed = false → g.st c.sibling = 0 → exec (.sgLeave rd) s =
        .next (((s.setSib c.fleet c.sibling 3).tryClose c.fleet).retX rd 0))) ∧
    (∀ (s2 : State) (n slot : Nat) (h : Word), s.SgForks t c a b n slot s2 g h →
      exec (.sgFork rd a b) s = .next ((s2.recordInit g h).retX rd 0) ∧ (∃ f ∈ s2.fleets, f.group = some g ∧ f.crews = n) ∧
      ∃ u, s2.strand? t.image = some u ∧ State.childOf u slot = h)

/-! ### Copies -/

/-- A copy form of length 0 answers 0 and does nothing; one whose operands pass the checks of its table goes on to its
translation and its queue, with the rows that its operands give; the converting forms are illegal where `frm` holds no
rounding mode (R154, R243, R246, R248, R249). A copy
whose extents translate and that finds room in its queue answers 0 and stands in the queue, in the strand's open batch, with those
rows; it has written no memory yet (R237, R243, R250). -/
def Obligations.CopyForms : Prop :=
  (∀ (s : State) (t : Strand) (c : Crew) (rd a b l x y : Reg), s.OnCrew t c →
      let queues := s.Queues t rd
      let n := (s.x l).toNat
      let da := (s.x a).toNat
      let sa := (s.x b).toNat
      (n = 0 → ∀ i ∈ [Instr.copyGs .plain rd a b l, .copySg .plain rd a b l, .copyGg .plain rd a b l, .copySs .plain rd a b l,
          .copyGath .plain rd a b l x y, .copyScat .plain rd a b l x y, .copyFillS rd a b l, .copyFillG rd a b l],
        exec i s = .next (s.retX rd 0)) ∧
      (n ≠ 0 → n ≤ 0x40000 →
        let plan (dst src : Bool) : CopyPlan :=
          { dstStage := dst, srcStage := src, src := [(sa, n)], dst := [(da, n)], rowS := n, rowD := n,
            vals := [s.x a, s.x b, s.x l, 0, 0], apart := true }
        let fill (dst : Bool) : CopyPlan :=
          { dstStage := dst, srcStage := false, fill := true, pattern := s.x b, dst := [(da, n)], rowD := n,
            vals := [s.x a, s.x b, s.x l, 0, 0] }
        (sa + n ≤ 2 ^ 64 → State.rowsOut c [(da, n)] = none →
          queues (.copyGs .plain rd a b l) (plan true false)) ∧
        (da + n ≤ 2 ^ 64 → State.rowsOut c [(sa, n)] = none →
          queues (.copySg .plain rd a b l) (plan false true)) ∧
        (sa + n ≤ 2 ^ 64 → da + n ≤ 2 ^ 64 → queues (.copyGg .plain rd a b l) (plan false false)) ∧
        (da + n ≤ sa ∨ sa + n ≤ da → State.rowsOut c [(da, n)] = none → State.rowsOut c [(sa, n)] = none →
          queues (.copySs .plain rd a b l) (plan true true)) ∧
        (State.rowsOut c [(da, n)] = none → queues (.copyFillS rd a b l) (fill true)) ∧
        (da + n ≤ 2 ^ 64 → queues (.copyFillG rd a b l) (fill false))) ∧
      (let w := (s.x y).toNat
       let len := bits w 15 0
       let stRows (base : Nat) : List (Nat × Nat) := (upto 0 n).map fun j => (base + j * bits w 31 16, len)
       let idx := (upto 0 n).map fun j => c.stageGet ((s.x x).toNat + 4 * j) 4
       let row (base i : Nat) : Nat × Nat := ((base + i * bits w 63 32) % 2 ^ 64, len)
       n ≠ 0 → len ≠ 0 → n ≤ 4096 → n * len ≤ 0x40000 → len ≤ bits w 31 16 → (s.x x).toNat % 4 = 0 →
       State.rowsOut c [((s.x x).toNat, 4 * n)] = none → c.stageBad (s.x x).toNat (4 * n) = false →
       (State.rowsOut c (stRows da) = none → (∀ i ∈ idx, i = 0xFFFFFFFF ∨ (row sa i).1 + len ≤ 2 ^ 64) →
         queues (.copyGath .plain rd a b l x y)
           { dstStage := true, srcStage := false, dst := stRows da, rowS := len, rowD := len,
             vals := [s.x a, s.x b, s.x l, s.x x, s.x y],
             src := idx.map fun i => if i = 0xFFFFFFFF then (zeroAddr, len) else row sa i }) ∧
       (State.rowsOut c (stRows sa) = none → (∀ i ∈ idx, i = 0xFFFFFFFF ∨ (row da i).1 + len ≤ 2 ^ 64) →
         let both := (List.zip idx (stRows sa)).filter fun p => !(p.1 = 0xFFFFFFFF)
         queues (.copyScat .plain rd a b l x y)
           { dstStage := false, srcStage := true, src := both.map (·.2), dst := both.map fun p => row da p.1, rowS := len,
             rowD := len, vals := [s.x a, s.x b, s.x l, s.x x, s.x y] }))) ∧
  (∀ (s : State) (t : Strand) (c : Crew) (rd a b l x y rx : Reg) (p q : CFmt) (g : BitVec 8), s.OnCrew t c →
      let queues := s.Queues t rd
      let n := (s.x l).toNat
      let da := (s.x a).toNat
      let sa := (s.x b).toNat
      let len := bits (s.x y).toNat 15 0
      let forms : List Instr := [.copyGs (.conv p q g) rd a b l, .copySg (.conv p q g) rd a b l, .copyGg (.conv p q g) rd a b l,
        .copySs (.conv p q g) rd a b l, .copyGs (.mx p q rx) rd a b l, .copySg (.mx p q rx) rd a b l,
        .copyGg (.mx p q rx) rd a b l, .copySs (.mx p q rx) rd a b l, .copyGath (.conv p q g) rd a b l x y,
        .copyScat (.conv p q g) rd a b l x y]
      (s.frm? = none → ∀ i ∈ forms, exec i s = .next (s.trap 2 s.ibits)) ∧
      (s.frm?.isSome = true → n = 0 → ∀ i ∈ forms, exec i s = .next (s.retX rd 0)) ∧
      (let ns := n * cfBits p / 8
       let nd := n * cfBits q / 8
       let tn := (n + 31) / 32
       let ta := (s.x rx).toNat
       let plan (dst src : Bool) : CopyPlan :=
         { dstStage := dst, srcStage := src, src := [(sa, ns)], dst := [(da, nd)], rowS := ns, rowD := nd, conv := some (p, q),
           scales := [g.toNat], vals := [s.x a, s.x b, s.x l, 0, 0], apart := true }
       let table (q : CopyPlan) (st : Bool) : CopyPlan :=
         { q with scales := (upto 0 tn).map fun i => c.stageGet (ta + i) 1, table := if st then none else some (ta, tn),
                  vals := [s.x a, s.x b, s.x l, s.x rx, 0] }
       let both (i j : Instr) (dst src : Bool) : Prop :=
         let st := if isElt p then src else dst
         (if src then State.rowsOut c [(sa, ns)] = none else sa + ns ≤ 2 ^ 64) →
         (if dst then State.rowsOut c [(da, nd)] = none else da + nd ≤ 2 ^ 64) →
         (src = true → dst = true → da + nd ≤ sa ∨ sa + ns ≤ da) →
         queues i (plan dst src) ∧
         ((if st then State.rowsOut c [(ta, tn)] = none ∧ c.stageBad ta tn = false else ta + tn ≤ 2 ^ 64) →
           queues j (table (plan dst src) st))
       s.frm?.isSome = true → n ≠ 0 → n % cfGroup p = 0 → n % cfGroup q = 0 → sa % cfAlign p = 0 → da % cfAlign q = 0 →
       ns ≤ 0x40000 → nd ≤ 0x40000 →
       both (.copyGs (.conv p q g) rd a b l) (.copyGs (.mx p q rx) rd a b l) true false ∧
       both (.copySg (.conv p q g) rd a b l) (.copySg (.mx p q rx) rd a b l) false true ∧
       both (.copyGg (.conv p q g) rd a b l) (.copyGg (.mx p q rx) rd a b l) false false ∧
       both (.copySs (.conv p q g) rd a b l) (.copySs (.mx p q rx) rd a b l) true true) ∧
      (let w := (s.x y).toNat
       let ns := len * cfBits p / 8
       let nd := len * cfBits q / 8
       let stRows (base m : Nat) : List (Nat × Nat) := (upto 0 n).map fun j => (base + j * bits w 31 16, m)
       let idx := (upto 0 n).map fun j => c.stageGet ((s.x x).toNat + 4 * j) 4
       let row (base i m : Nat) : Nat × Nat := ((base + i * bits w 63 32) % 2 ^ 64, m)
       let fits (f : CFmt) (base m : Nat) : Prop :=
         ∀ i ∈ idx, i = 0xFFFFFFFF ∨ ((row base i m).1 % cfAlign f = 0 ∧ (row base i m).1 + m ≤ 2 ^ 64)
       s.frm?.isSome = true → n ≠ 0 → len ≠ 0 → n ≤ 4096 → n * ns ≤ 0x40000 → n * nd ≤ 0x40000 → len % cfGroup p = 0 →
       len % cfGroup q = 0 → (s.x x).toNat % 4 = 0 → State.rowsOut c [((s.x x).toNat, 4 * n)] = none →
       c.stageBad (s.x x).toNat (4 * n) = false →
       (nd ≤ bits w 31 16 → State.rowsOut c (stRows da nd) = none → (∀ r ∈ stRows da nd, r.1 % cfAlign q = 0) → fits p sa ns →
         queues (.copyGath (.conv p q g) rd a b l x y)
           { dstStage := true, srcStage := false, dst := stRows da nd, rowS := ns, rowD := nd, conv := some (p, q),
             scales := [g.toNat], vals := [s.x a, s.x b, s.x l, s.x x, s.x y],
             src := idx.map fun i => if i = 0xFFFFFFFF then (zeroAddr, ns) else row sa i ns }) ∧
       (ns ≤ bits w 31 16 → State.rowsOut c (stRows sa ns) = none → (∀ r ∈ stRows sa ns, r.1 % cfAlign p = 0) → fits q da nd →
         let both := (List.zip idx (stRows sa ns)).filter fun p => !(p.1 = 0xFFFFFFFF)
         queues (.copyScat (.conv p q g) rd a b l x y)
           { dstStage := false, srcStage := true, src := both.map (·.2), dst := both.map fun p => row da p.1 nd, rowS := ns,
             rowD := nd, conv := some (p, q), scales := [g.toNat], vals := [s.x a, s.x b, s.x l, s.x x, s.x y] })))

/-- Batches: `cp.seal` answers the number of the batch it seals, and the next one opens; `cp.wait` answers once the
incomplete count is at most its operand, -6 where a copy of the strand was abandoned since; `cp.stop` answers how many
copies it abandons: where no chunk is being written, which would be completed first, all that have not completed (R250 to R254). -/
def Obligations.BatchForms : Prop :=
  ∀ (s : State) (t : Strand) (rd a : Reg), s.OnStrand t →
    (t.batSeal.batCount ≤ 16 → exec (.cpSeal rd) s = .next ((s.modCur Strand.batSeal).retX rd (w64 t.openBat))) ∧
    (t.batSeal.openBat = (t.openBat + 1) % 65536) ∧
    (t.batCount ≤ (s.x a).toNat → exec (.cpWait rd a) s =
      .next ((s.acquire.modCur fun t => { t with abandoned := false }).retX rd (if t.abandoned then neg 6 else 0))) ∧
    ((s.x a).toNat < t.batCount → exec (.cpWait rd a) s = s.stall) ∧
    (16 < t.batSeal.batCount → exec (.cpSeal rd) s = s.stall) ∧
    (let r := s.abandonCopies t.image
     exec (.cpStop rd) s = .next (r.2.acquire.retX rd (w64 r.1)) ∧
     ((∀ c ∈ s.copies, c.image = t.image → c.part = [] ∧ c.lines ≠ []) →
       r.1 = (s.copies.filter fun c => c.image = t.image).length ∧ r.2.copies = s.copies.filter fun c => c.image ≠ t.image))

/-! ### Matrix, accumulators, epilogues -/

/-- A matrix operation, a drain or a control form whose operands pass their checks signs its register with them; it is
issued when the last member has signed (R266, R270, R277, R282, R303). The gathered form supplies the row of A that it
reads at its address, as a load does, or zeros for the address of all ones (R276). -/
def Obligations.MatrixSigning : Prop :=
  ∀ (s : State) (t : Strand) (c : Crew), s.OnCrew t c → t.sMode = false →
    (∀ (x : MxArgs) (op : Nat), op ≤ 2 → x.cv.toNat < c.cvs →
      let fmt := mxCode x.fmt
      let m := 16 * 2 ^ dimNum x.m
      let n := 16 * 2 ^ dimNum x.n
      let a := (s.x x.a).toNat
      let b := (s.x x.b).toNat
      let p := (s.x x.p).toNat
      let w := (s.x x.x).toNat
      let ke := mxK fmt * mxE fmt
      let sig := [op, fmt, dimNum x.m, dimNum x.n, b2n x.z, x.cv.toNat, if op = 1 then 0 else a, b, p, w]
      let rowsB (base : Nat) : List (Nat × Nat) := (upto 0 (mxK fmt)).map fun j => (base + j * (p / 65536 % 65536), n * mxE fmt)
      (c.cvGet x.cv.toNat).signable t.sid 3 sig = .ok → bits p 63 32 = 0 → b % 64 = 0 → p / 65536 % 65536 % 64 = 0 →
      n * mxE fmt ≤ p / 65536 % 65536 →
      (op = 0 → a % 64 = 0 → p % 65536 % 64 = 0 → ke ≤ p % 65536 →
        State.rowsOut c ((upto 0 m).map fun j => (a + j * (p % 65536), ke)) = none → State.rowsOut c (rowsB b) = none →
        awPartner w = 0 → tileOk c fmt m n w (awCore w) = true →
        exec (.mxMma x) s = .next (s.cvSign t x.cv.toNat 3 sig x.rd [])) ∧
      (op = 1 → State.rowsOut c (rowsB b) = none → awPartner w = 0 → tileOk c fmt m n w (awCore w) = true →
        s.latchUsed (c.coreNum (awCore w)) < 128 →
        (a = 2 ^ 64 - 1 → exec (.mxGmma x) s = .next (s.cvSign t x.cv.toNat 3 sig x.rd (List.replicate (mxK fmt) 0))) ∧
        (a ≠ 2 ^ 64 - 1 → a % ke ≠ 0 → exec (.mxGmma x) s = .next (s.trap 4 (w64 a))) ∧
        (∀ s1 parts, a ≠ 2 ^ 64 - 1 → a % ke = 0 → s.Finds .load (w64 a) ke false s1 parts → s1.Clean parts →
          (∀ y ∈ parts, y.pbmt ≠ 2) → ∃ s2, s1.openParts s.cur (w64 a) parts false = .ok s2 () ∧
            exec (.mxGmma x) s = .next ((s2.dropNc t.core parts).cvSign t x.cv.toNat 3 sig x.rd
              (State.splitCodes (mxE fmt) (ofBytes (s2.readParts s.cur parts)) (mxK fmt))))) ∧
      (op = 2 → a % 64 = 0 → p % 65536 % 64 = 0 → ke ≤ p % 65536 → bits b 23 20 = 0 →
        State.rowsOut c ((upto 0 m).map fun j => (a + j * (p % 65536), ke)) = none →
        State.rowsOut c (rowsB (2 ^ 20 * awCore w + b % 2 ^ 20)) = none →
        State.rowsOut c (rowsB (2 ^ 20 * awPartner w + b % 2 ^ 20)) = none → awCore w ≠ awPartner w → awPartner w < c.k →
        tileOk c fmt m n w (awCore w) = true → tileOk c fmt m n w (awPartner w) = true →
        exec (.mxPmma x) s = .next (s.cvSign t x.cv.toNat 3 sig x.rd []))) ∧
    (∀ (x : DrnArgs) (z : Bool), x.cv.toNat < c.cvs →
      let w := (s.x x.acc).toNat
      let sig := [3, x.prog.toNat, b2n z, x.cv.toNat, x.h1.toNat, dimNum x.w, w, (s.x x.b0).toNat, (s.x x.b1).toNat,
        (s.x x.x).toNat]
      (c.cvGet x.cv.toNat).signable t.sid 3 sig = .ok → bits (s.x x.b0).toNat 63 48 = 0 → bits (s.x x.b1).toNat 63 48 = 0 →
      awOk c w = true → awPartner w = 0 → awRow w + x.h1.toNat + 1 ≤ 32 → awCol w % 16 = 0 →
      awCol w + 16 * 2 ^ dimNum x.w ≤ 128 → awBank w < c.banks → c.allocd (awCore w) (awBank w) = true →
      exec (if z then .mxDrnZ x else .mxDrn x) s = .next (s.cvSign t x.cv.toNat 3 sig x.rd [])) ∧
    (∀ (rd a b d : Reg) (n : BitVec 4), n.toNat < c.cvs → (s.x a).toNat < c.k →
      let v := (s.x a).toNat
      let signs (i : Instr) (sig : List Nat) : Prop :=
        let sig := sig ++ [s.ibits.toNat]
        (c.cvGet n.toNat).signable t.sid 4 sig = .ok → exec i s = .next (s.cvSign t n.toNat 4 sig rd [])
      signs (.mxTake rd a n) [4, n.toNat, v, 0, 0] ∧ signs (.mxPass rd a b n) [5, n.toNat, v, (s.x b).toNat, 0] ∧
      signs (.mxTakeTk rd a b d n) [6, n.toNat, v, (s.x b).toNat, (s.x d).toNat] ∧
      signs (.mxPassTk rd a n) [7, n.toNat, v, 0, 0])

/-- Allocation forms, `am.rd`, `ep.load` and `ep.run` whose operands pass their checks enter the engine queue of the
crew W-core that they name, where it has room: an entry at its end. At `ep.run` the strand waits for it; after the others it
retires, its result still to be written; an entry that no processor has to perform and that nothing stands before is performed at
once (R101, R260, R268, R284, R301, R302). `ep.load` reads its header and its image first. -/
def Obligations.EngineForms : Prop :=
  ∀ (s : State) (t : Strand) (c : Crew) (rd a b d x : Reg), s.OnCrew t c → t.sMode = false →
      let w := (s.x a).toNat
      let n := (s.x b).toNat
      let v := awCore w
      (State.amOk c w n = true → s.queueRoom (c.coreNum v) = true →
        exec (.amGet rd a b) s = .next (s.enqueued t c v (.amGet (awBank w) n) (some rd) true) ∧
        exec (.amRel rd a b) s = .next (s.enqueued t c v (.amRel (awBank w) n) (some rd) true)) ∧
      (State.amOk c w n = true → s.queueRoom (c.coreNum v) = true → (∀ i ∈ upto (awBank w) n, c.allocd v i = true) →
        exec (.amZero a b) s = .next (s.enqueued t c v (.amZero (awBank w) n) none true)) ∧
      (awOk c w = true → s.queueRoom (c.coreNum v) = true → awPartner w = 0 → awCol w % 2 = 0 → awBank w < c.banks →
        c.allocd v (awBank w) = true →
        exec (.amRd rd a) s = .next (s.enqueued t c v (.amRd (awBank w) (awRow w) (awCol w)) (some rd) true)) ∧
      (let sel := n
       let q := bits sel 9 8
       sel = bits sel 1 0 + q * 256 → q < c.k → w % 64 = 0 → s.queueRoom (c.coreNum q) = true → s.Reads (s.x a) 4 →
       ∃ s1 hdr, s.load (s.x a) 4 = .ok s1 hdr ∧
         let k := bits hdr 6 0
         (k ≠ 0 → k ≤ 64 → bits hdr 31 7 = 0 → s1.Reads (s.x a + 4) (4 * k) →
           ∃ s2 img, s1.load (s.x a + 4) (4 * k) = .ok s2 img ∧
             let ws := State.splitCodes 4 img k
             ((epParse ws).isSome = true →
               exec (.epLoad rd a b) s = .next (s2.enqueued t c q (.load (bits sel 1 0) ws) (some rd) true)) ∧
             ((epParse ws).isNone = true → exec (.epLoad rd a b) s = .next (s2.retX rd (neg 3))))) ∧
      (w = bits w 1 0 + bits w 9 8 * 2 ^ 8 + bits w 20 16 * 2 ^ 16 + bits w 25 24 * 2 ^ 24 → bits w 9 8 < c.k →
        bits n 63 48 = 0 → bits (s.x d).toNat 63 48 = 0 → s.queueRoom (c.coreNum (bits w 9 8)) = true →
        exec (.epRun rd a b d x) s = .next (s.enqueued t c (bits w 9 8)
          (.run (bits w 1 0) (bits w 20 16 + 1) (16 * 2 ^ bits w 25 24) n (s.x d).toNat (s.x x).toNat) (some rd) false))

/-! ### Links -/

/-- The one-line forms on an aligned line whose remote word names a place that grants the access (R347): `cl.put` writes
the line there, `cl.get` brings it here, `cl.sig` adds to the doubleword; each answers 0. A remote word that fails a
check of R339 gives its status. Where nothing is held and no reduction or store is on its way each completes, and the bytes are
there. `cl.wait.try` and `cl.wait` on a word that has reached the value answer 0; below it `cl.wait.try` answers -8 and `cl.wait`
waits (R348). `cl.qry` counts (R349). Where the bytes lie in no context image that the register cache may hold. -/
def Obligations.LinkForms : Prop :=
  ∀ (s : State) (t : Strand) (rd a b : Reg), s.OnStrand t →
    let quiet (w : Word) (pa n : Nat) : Prop := s.NothingHeld ∧ s.rbuf = [] ∧ s.replicas = [] ∧ s.Inv ∧
      (∀ l ∈ linesOf (s.regionAddr w) 32 ++ linesOf pa n, s.memAt (64 * l) ≠ .waits) ∧
      s.imagesAt (s.regionAddr w) 32 = [] ∧ s.imagesAt pa n = []
    ((s.x a).toNat % 64 = 0 → wbits (s.x b) 47 0 % 64 = 0 →
      (∀ s1 parts, s.Finds .load (s.x a) 64 false s1 parts → s1.Clean parts →
        ∃ s2, s1.openParts s.cur (s.x a) parts false = .ok s2 () ∧ ∀ s3,
          (∀ st, s2.clPlace (s2.x b) 64 2 = (s3, some (.bad st)) → exec (.clPut rd a b) s = .next (s3.retX rd (neg st))) ∧
          (∀ pa, s2.clPlace (s2.x b) 64 2 = (s3, some (.at pa)) →
            let u := s3.dropNc (s3.coreOf s3.cur) parts
            exec (.clPut rd a b) s = .next (((u.release.engWrite u.cur.tag [{ addr := pa, len := 64 }]
              ((u.readParts u.cur parts).map fun x => (x, false))).acquire).retX rd 0))) ∧
      (∀ pa, quiet (s.x b) pa 64 → ∀ s1 parts, s.Finds .load (s.x a) 64 false s1 parts → s1.Clean parts → s1.NoImage parts →
        s.remoteAt (s.x b) 64 0 2 = .at pa →
        ∃ (s2 : State) (v : Nat) (s' : State), s.load (s.x a) 64 = .ok s2 v ∧ exec (.clPut rd a b) s = .next (s'.retX rd 0) ∧
          (s.raceWords pa 64 = [] → bytesGet s'.mem pa 64 = v)) ∧
      (∀ s1 parts, s.Finds .store (s.x a) 64 true s1 parts → ∀ s2,
        (∀ st, s1.clPlace (s1.x b) 64 1 = (s2, some (.bad st)) → exec (.clGet rd a b) s = .next (s2.retX rd (neg st))) ∧
        (∀ pa, s1.clPlace (s1.x b) 64 1 = (s2, some (.at pa)) →
          (s2.poisonAt pa 64 = true → exec (.clGet rd a b) s = .next (s2.trap 27 (s2.x a))) ∧
          (s2.poisonAt pa 64 = false → ∃ s3, s2.openParts s2.cur (s2.x a) parts true = .ok s3 () ∧
            let r := s3.release.engRead [{ addr := pa, len := 64 }]
            exec (.clGet rd a b) s = .next (((r.1.dropNc (r.1.coreOf r.1.cur) parts).writeParts r.1.cur parts
              (r.2.map (·.1))).acquire.retX rd 0)))) ∧
      (∀ pa, quiet (s.x b) pa 64 → ∀ s1 p, s.Finds .store (s.x a) 64 true s1 [p] → s1.NoImage [p] →
        s.remoteAt (s.x b) 64 0 1 = .at pa → s.poisonAt pa 64 = false →
        ∃ s' : State, exec (.clGet rd a b) s = .next (s'.retX rd 0) ∧
          (s.raceWords p.pa 64 = [] → bytesGet s'.mem p.pa 64 = bytesGet s.mem pa 64))) ∧
    (wbits (s.x a) 47 0 % 8 = 0 → ∀ s1,
      (∀ st, s.clPlace (s.x a) 8 3 = (s1, some (.bad st)) → exec (.clSig rd a b) s = .next (s1.retX rd (neg st))) ∧
      (∀ pa, s.clPlace (s.x a) 8 3 = (s1, some (.at pa)) →
        exec (.clSig rd a b) s = .next ((s1.release.engAdd s1.cur.tag 3 8 pa (s1.x b).toNat false).acquire.retX rd 0)) ∧
      (s.clPlace (s.x a) 8 3 = (s1, none) → exec (.clSig rd a b) s = s1.stall)) ∧
    (∀ pa, wbits (s.x a) 47 0 % 8 = 0 → quiet (s.x a) pa 8 → s.remoteAt (s.x a) 8 0 3 = .at pa →
      ∃ s' : State, exec (.clSig rd a b) s = .next (s'.retX rd 0) ∧
        (s.raceWords pa 8 = [] → bytesGet s'.mem pa 8 = (bytesGet s.mem pa 8 + (s.x b).toNat) % 2 ^ 64)) ∧
    ((s.x a).toNat % 8 = 0 → s.Reads (s.x a) 8 → ∃ s' v, s.load (s.x a) 8 = .ok s' v ∧
      ((s'.x b).toNat ≤ v → exec (.clWaitTry rd a b) s = .next (s'.acquire.retX rd 0)) ∧
      (v < (s'.x b).toNat → exec (.clWaitTry rd a b) s = .next (s'.retX rd (neg 8))) ∧
      ((s.x b).toNat ≤ v → exec (.clWait rd a b) s = .next ((s'.ncPoint t.core).retX rd 0)) ∧
      (v < (s.x b).toNat → exec (.clWait rd a b) s = .next (s'.await (.park (.memGe (s.x a).toNat s'.accPa (s.x b)) rd
          (s'.cc t.core + 16 * t.cbits cThctl 15 0))))) ∧
    ((s.x a).toNat = 0 → exec (.clQry rd a) s = .next (s.retX rd (w64 (s.descsOf t).length))) ∧
    ((s.x a).toNat = 1 → exec (.clQry rd a) s = .next (s.retX rd (w64 (256 - s.descs.length)))) ∧
    ((s.x a).toNat = 2 → exec (.clQry rd a) s = .next (s.retX rd (w64 s.numPresent))) ∧
    ((s.x a).toNat = 3 → exec (.clQry rd a) s = .next (s.retX rd (w64 s.pkgNum))) ∧
    (3 < (s.x a).toNat → exec (.clQry rd a) s = .next (s.retX rd (neg 3)))

/-- Posting: a descriptor within Tables 13.3 and 13.4 from a strand with a free slot, whose extents translate, marks its status
word in progress, stands in the engine, begun where it has no gate, and answers 0; `cl.post` for puts, gets and additions,
`cl.ring` for rings, which are then looked at (R337, R341, R343, R345). -/
def Obligations.Posting : Prop :=
  ∀ (s s3 : State) (t : Strand) (rd a : Reg) (ring : Bool) (d : Desc) (loc : List Piece), s.OnStrand t →
    s.Posts t a ring d loc s3 →
    ∃ (s' : State) (k : Desc), s'.descs = s3.descs ++ [k] ∧ k.words = d.words ∧ (k.begun = true ↔ d.w 3 = 0) ∧
      k.image = t.image ∧ k.crew = t.crew ∧ k.stPa = s3.accPa ∧ k.loc = loc ∧ k.far = none ∧
      (ring = false → exec (.clPost rd a) s = .next (s'.retX rd 0)) ∧
      (ring = true → exec (.clRing rd a) s = .next ((s'.retX rd 0).ringCheck d.rid))

/-! ### Power and system instructions -/

/-- `pw.qry` reads what Table 15.6 lists; `pw.wind` checks its operand and answers; `pw.yld` of a withdrawn crew's
leader retires and starts the crew's pre-emption, its status to be written when the crew is resumed, and without a withdrawal
answers -4 (R416 to R418). -/
def Obligations.PowerForms : Prop :=
  ∀ (s : State) (t : Strand) (c : Crew) (rd a : Reg), s.OnCrew t c →
    let q := State.podOf t.core
    let ask (n : Nat) (v : Word) : Prop := (s.x a).toNat = n → exec (.pwQry rd a) s = .next (s.retX rd v)
    ask 0 (s.pwst q (c.wd ≠ 0)) ∧ ask 1 (w64 (s.podAt q).mhz) ∧ ask 2 (w64 (s.allowance q)) ∧ ask 3 (w64 (s.load' q)) ∧
    ask 4 (if c.wd = 0 then 0 else w64 ((c.wdEnd - s.time.toNat) / 1000)) ∧
    (4 < (s.x a).toNat → exec (.pwQry rd a) s = .next (s.retX rd (neg 3))) ∧
    (1 ≤ (s.x a).toNat → (s.x a).toNat ≤ 1000 → exec (.pwWind rd a) s = .next (s.retX rd 0)) ∧
    ((s.x a).toNat = 0 ∨ 1000 < (s.x a).toNat → exec (.pwWind rd a) s = .next (s.retX rd (neg 3))) ∧
    (t.sMode = false → t.leader = true → c.wd ≠ 0 → exec (.pwYld rd) s =
      .next ((s.retire.modStrand t.image fun t => { t with yielded := rd }).preemptFrom c)) ∧
    (t.sMode = false → t.leader = true → c.wd = 0 → exec (.pwYld rd) s = .next (s.retX rd (neg 4))) ∧
    (t.sMode = true ∨ t.leader = false → exec (.pwYld rd) s = .next (s.retX rd (neg 9)))

/-- The system forms of a handler. `sy.park` forwards the strand with its pc past the instruction and the number of rd
in its image; `sy.end` of a child ends it once its own fleets are stopped; `sy.dbg` of a strand under a debugger asks
for a stop and answers 0; `sy.rec` writes a record of kind 6 where the ring is enabled; `sy.tlbsd` with operands in
range, and `sfence.vma`, wait for the acknowledgement of their invalidation (R363, R373 to R377). -/
def Obligations.SystemForms : Prop :=
  ∀ (s : State) (t : Strand) (c : Crew) (rd a b : Reg), s.OnCrew t c → t.sMode = true →
    exec (.syPark rd) s =
      .next (((s.setPc (s.pc + 4)).modCur fun t => t.setCbits cFwd 7 0 rd.toNat).retired.forward t.image 1 s.pc) ∧
    (s.fdepth c ≠ 0 → State.anyChild t = false → exec (.syEnd rd) s = .next (s.endGo t.image)) ∧
    (s.fdepth c = 0 → exec (.syEnd rd) s = .next (s.retX rd (neg 9))) ∧
    (t.att = true → exec (.syDbg rd) s = .next ((s.modCur fun t => { t with pendStop := 4, step := false }).retX rd 0)) ∧
    (t.att = false → exec (.syDbg rd) s = .next (s.retX rd (neg 9))) ∧
    (wbits (s.coreAt t.core).frecbase 3 0 ≠ 0 → exec (.syRec rd a b) s =
      .next ((s.strandRecord t 6 (t.cbits cScause 7 0) 0 s.pc (s.x a) (s.x b).toNat).retX rd 0)) ∧
    (wbits (s.coreAt t.core).frecbase 3 0 = 0 → exec (.syRec rd a b) s = .next (s.retX rd (neg 9))) ∧
    (invalOk (s.x a) (s.x b) = false → exec (.syTlbsd rd a b) s = .next (s.retX rd (neg 3))) ∧
    (let s1 := s.release.acquire
     let ask (rd : Reg) (va ctl : Word) : State :=
       State.await { s1 with nextId := s1.nextId + 1, invals := s1.invals ++
         [{ id := s1.nextId, va, ctl := ctl.toNat, slot := 32, image := t.image }] } (.ack s1.nextId rd)
     (invalOk (s.x a) (s.x b) = true → exec (.syTlbsd rd a b) s = .next (ask rd (s.x a) (s.x b))) ∧
     exec (.sfenceVma a b) s = .next (ask 0 (s.x a) (w64 ((if a = 0 || !canonical (s.x a) then 0 else 6) * 2 ^ 16 +
       (if b = 0 then 2 ^ 19 else wbits (s.x b) 15 0)))))

/-- `ecall` traps with cause 8 from depth 0 and 9 above it, with value 0; `ebreak` with cause 3 and the pc, unless a
debugger that asked for it stops the strand; `wfi` leaves the strand unready for 16 issue cycles (R363, R393). On an
L-core `wfi` in M-mode passes. -/
def Obligations.EnvironmentForms : Prop :=
  ∀ (s : State),
    (∀ t : Strand, s.OnStrand t →
      exec .ecall s = .next (s.trap (if t.depth = 0 then 8 else 9) 0) ∧
      (t.att = false ∨ t.ebs = false → exec .ebreak s = .next (s.trap 3 s.pc)) ∧
      (t.att = true → t.ebs = true → exec .ebreak s = .next (s.debugStopOp t.image 3)) ∧
      exec .wfi s = .next (s.await (.pause (s.cc t.core + 16 * passes (s.podAt (State.podOf t.core)))))) ∧
    (∀ i : Nat, s.OnL i → (s.lcoreAt i).mode = .m →
      exec .ecall s = .next (s.trap 11 0) ∧ exec .ebreak s = .next (s.trap 3 s.pc) ∧ exec .wfi s = .next s.retire)

/-! ### Exceptions -/

/-- A trap of a strand at depth 0 to 2 with a handler, that is no double fault: `sepc` takes the address of the
instruction, `scause` the cause, `stval` the value, the depth grows by one, the pc becomes the base of `wtvec`; at depth
1 or 2 the former `sepc`, `scause` and `stval` go to that depth's save words. The registers and memory stay. The fault
ring is off (R362). A trap at depth 3, and one of an access fault or page fault above depth 0 whose address lies in the
handler's own range, is a double fault: the strand gives up its slot, forwarded with state 3 (R367). The strand is a
member of no register, and no reduction is buffered. -/
def Obligations.TrapEntry : Prop :=
  (∀ (s : State) (t : Strand) (c : Nat) (v : Word), s.Inv → s.OnStrand t → t.depth < 3 → c < 64 → c ≠ 8 →
      t.cw cWtvec &&& ~~~3 ≠ 0 →
      (t.depth = 0 ∨ c ∉ [1, 5, 7, 12, 13, 15] ∨ v.toNat < (t.cw cWtslo).toNat ∨ (t.cw cWtshi).toNat ≤ v.toNat) →
      wbits (s.coreAt t.core).frecbase 3 0 = 0 →
      (s.trap c v).mem = s.mem ∧
      ∃ u, (s.trap c v).strand? t.image = some u ∧ u.status = .resident ∧ u.wait = .none ∧ u.resv = none ∧
        u.cw cSepc = t.cw cPc ∧ u.cw cScause = w64 c ∧ u.cw cStval = v ∧ u.depth = t.depth + 1 ∧
        u.cw cPc = t.cw cWtvec &&& ~~~3 ∧
        (1 ≤ t.depth → u.cw (cSave + 4 * (t.depth - 1)) = t.cw cSepc ∧
          u.cw (cSave + 4 * (t.depth - 1) + 1) = t.cw cScause ∧ u.cw (cSave + 4 * (t.depth - 1) + 2) = t.cw cStval) ∧
        (∀ n, 1 ≤ n → n ≤ 64 → u.cw n = t.cw n)) ∧
  (∀ (s : State) (t : Strand) (c : Nat) (v : Word), s.OnStrand t → t.present.getLsbD 14 = true → s.rbuf = [] →
      (∀ x, s.crewOf t = some x → ∀ n ∈ x.cvNums, t.sid ∉ (x.cvGet n).members) →
      (t.depth = 3 ∨ (1 ≤ t.depth ∧ c ∈ [1, 5, 7, 12, 13, 15] ∧ (t.cw cWtslo).toNat ≤ v.toNat ∧
        v.toNat < (t.cw cWtshi).toNat)) →
      ∃ u, (s.trap c v).strand? t.image = some u ∧ u.status = .forwarded ∧ u.fwd = 3)

/-- `sret` of a strand: the pc becomes `sepc`, the depth falls by one, and from depth 2 or 3 the save words of the depth
below are `sepc`, `scause` and `stval` again; the general registers stay (R363). -/
def Obligations.ReturnFromTrap : Prop :=
  ∀ (s : State) (t : Strand), s.Inv → s.OnStrand t → 1 ≤ t.depth → 
    (t.depth = 1 → ∀ c, s.crewOf t = some c → t.sid ∉ c.sreg.members) →
    ∃ (s' : State) (u : Strand), exec .sret s = .next s' ∧ s'.mem = s.mem ∧ s'.strand? t.image = some u ∧ u.cw cPc = t.cw cSepc ∧
      u.depth = t.depth - 1 ∧
      (2 ≤ t.depth → u.cw cSepc = t.cw (cSave + 4 * (t.depth - 2)) ∧
        u.cw cScause = t.cw (cSave + 4 * (t.depth - 2) + 1) ∧ u.cw cStval = t.cw (cSave + 4 * (t.depth - 2) + 2)) ∧
      (∀ n, 1 ≤ n → n ≤ 64 → u.cw n = t.cw n)

/-- A trap of an L-core in M-mode, or of a cause not delegated: `mepc`, `mcause` and `mtval` take the pc, the cause and
the value, the mode becomes M, the pc the base of `mtvec`; `mstatus` keeps the former interrupt enable in MPIE and the
former privilege in MPP (RISC-V privileged architecture, PRESUMED: log 17). -/
def Obligations.MachineTraps : Prop :=
  ∀ (s : State) (i c : Nat) (v : Word), s.Inv → s.cur = .lcore i → i < Config.numLCores →
    ((s.lcoreAt i).mode = .m ∨ ((s.lcoreAt i).get 0x302).getLsbD c = false) →
    let l := s.lcoreAt i
    let u := (s.trap c v).lcoreAt i
    (s.trap c v).mem = s.mem ∧ u.mode = .m ∧ u.get 0x341 = sget l.ctx cPc ∧ u.get 0x342 = w64 c ∧ u.get 0x343 = v ∧
    sget u.ctx cPc = l.get 0x305 &&& ~~~3 ∧
    wbits (u.get 0x300) 7 7 = wbits (l.get 0x300) 3 3 ∧ wbits (u.get 0x300) 3 3 = 0 ∧
    wbits (u.get 0x300) 12 11 = (match l.mode with | .m => 3 | .hs => 1 | .vs => 1 | .u => 0 | .vu => 0) ∧
    (∀ n, 1 ≤ n → n ≤ 64 → sget u.ctx n = sget l.ctx n)

/-- Every instruction that W-cores alone implement traps on an L-core with cause 24 and its bits (R26). -/
def Obligations.CoreClass : Prop :=
  ∀ (s : State) (j : Nat) (i : Instr), s.OnL j → i.encoded = true → i.onL = false → exec i s = .next (s.trap 24 s.ibits)

/-- CSRs of a strand: `csrrw` writes and returns the old value for `sscratch`, `sepc` with bit 0 cleared, `wtvec` with
its low bits cleared, `wtslo`, `wtshi`, from S-mode; from depth 0 these are illegal; the identity and time CSRs read
their values and a write to them is illegal; machine CSRs are illegal to a strand, and the standard CSRs that L-cores alone
have raise core class (R43, R45, R46, R356, R359). CSRs of an L-core: `wcid` and `tstall` read the package with the hart and the
count of its thread, to write one is illegal; the CSRs that W-cores alone have raise core class (R26, R27); of its standard CSRs
(RISC-V privileged architecture, PRESUMED: log 17) `time` and `mhartid` read their values, `mscratch` is swapped, an unsupported
MODE leaves `satp` as it was, all in M-mode; supervisor and machine CSRs are illegal in U-mode, supervisor CSRs are a virtual
instruction in VU-mode. -/
def Obligations.CsrForms : Prop :=
  (∀ (s : State) (j : Nat) (rd a : Reg), s.OnL j →
    let l := s.lcoreAt j
    let rw (n : BitVec 12) : Instr := .csrAccess .rw false rd a n
    let rs (n : BitVec 12) : Instr := .csrAccess .rs false rd 0 n
    let reads (n : BitVec 12) (v : Word) : Prop := exec (rs n) s = .next (s.retX rd v)
    let raises (i : Instr) (c : Nat) : Prop := exec i s = .next (s.trap c s.ibits)
    reads 0xCC5 (w64 (s.pkgNum * 2 ^ 40 + j)) ∧ reads 0xCC7 (s.tstallL l) ∧
    (∀ n ∈ [0xC01, 0xCC5, 0xCC7, 0xF11, 0xF14], raises (rw n) 2) ∧
    (∀ n : BitVec 12, State.csrWOnly n.toNat = true → raises (rs n) 24 ∧ raises (rw n) 24) ∧
    (l.mode = .m → reads 0xC01 s.time ∧ reads 0xF14 (w64 j) ∧ reads 0x340 (l.get 0x340) ∧
      (s.Inv → ∃ s' : State, exec (rw 0x340) s = .next (s'.retX rd (l.get 0x340)) ∧ s'.mem = s.mem ∧
        (s'.lcoreAt j).get 0x340 = s.x a ∧ ∀ n, n ≠ 0x340 → (s'.lcoreAt j).get n = l.get n) ∧
      (let m := wbits (s.x a) 63 60; m ≠ 0 → m < 8 ∨ 10 < m → exec (rw 0x180) s = .next (s.retX rd (l.get 0x180)))) ∧
    (l.mode = .u → ∀ n ∈ [0x100, 0x105, 0x140, 0x141, 0x180, 0x300, 0x305, 0x340, 0x341], raises (rs n) 2) ∧
    (l.mode = .vu → ∀ n ∈ [0x100, 0x105, 0x140, 0x141, 0x180], raises (rs n) 22)) ∧
  ∀ (s : State) (t : Strand) (c : Crew) (rd a : Reg), s.OnCrew t c →
    let rw (n : BitVec 12) : Instr := .csrAccess .rw false rd a n
    let rs (n : BitVec 12) : Instr := .csrAccess .rs false rd 0 n
    let put (n : BitVec 12) (w : Nat) (v : Word) : Prop := exec (rw n) s = .next ((s.setCtx s.cur w v).retX rd (t.cw w))
    (t.sMode = true → put 0x140 cSscratch (s.x a) ∧ put 0x141 cSepc (s.x a &&& ~~~1) ∧
      put 0x5C0 cWtvec (s.x a &&& ~~~3) ∧ put 0x5C2 cWtslo (s.x a) ∧ put 0x5C3 cWtshi (s.x a) ∧
      exec (rs 0x140) s = .next (s.retX rd (t.cw cSscratch)) ∧ exec (rw 0x180) s = .next (s.trap 2 s.ibits)) ∧
    (t.sMode = false → ∀ n ∈ [0x140, 0x141, 0x142, 0x143, 0x180, 0x5C0, 0x5C1, 0x5C2, 0x5C3, 0x5E0, 0x5E1, 0x5E2, 0x5E8, 0x5E9],
      exec (rs n) s = .next (s.trap 2 s.ibits)) ∧
    exec (rs 0xC01) s = .next (s.retX rd s.time) ∧ exec (rs 0xCC3) s = .next (s.retX rd (t.cw cFid)) ∧
    exec (rs 0xCC6) s = .next (s.retX rd t.cpbat) ∧
    exec (rs 0xCC5) s = .next (s.retX rd (w64 (2 ^ 63 + s.pkgNum * 2 ^ 40 + t.cbits cSid 23 16 * 2 ^ 16 + t.core))) ∧
    exec (rw 0x810) s = .next ((s.setCtx s.cur cFxsat (s.x a &&& 1)).retX rd (t.cw cFxsat &&& 1)) ∧
    (∀ n ∈ [0xC00, 0xC01, 0xC02, 0xCC0, 0xCC1, 0xCC5, 0xCC6, 0xCD0, 0xCE0, 0xCEC, 0xCF0],
      exec (rw n) s = .next (s.trap 2 s.ibits)) ∧
    (∀ n ∈ [0x300, 0x301, 0x305, 0x341, 0x7C0, 0x7C3, 0xF11, 0xF12, 0xF13, 0xF14], exec (rs n) s = .next (s.trap 2 s.ibits)) ∧
    (∀ n ∈ [0x008, 0x100, 0x104, 0x204, 0x280, 0x600, 0x308, 0x309, 0x34A, 0x34B, 0x350, 0x351, 0x35C, 0xFB0],
      exec (rs n) s = .next (s.trap 24 s.ibits))

/-! ### Steps of the hardware and inputs -/

/-- Steps of the issue logic on strands, where they are enabled: a pause, a Zawrs wait or a resident wait ends and its
instruction retires; a parked strand's watch is tested again; an absent context line is fetched; a load's register is
written; a strand that is to stop, to park, to be recalled or to resume does so; a page walk and a fetch end (R55, R61,
R83, R87, R89, R91, R93, R101, R106, R369, R371). A parked strand's home may have no room for its watch: it stays and tests again
after 1,024 cc (R89). An issue cycle in which a strand of the quadrant is ready issues at least one; the strands that it chooses, at
most 32, are ready, of the crew of the oldest, those of a group at one pc and privilege, that of the oldest from an age of 1,024 on;
the lanes that no strand takes count as gated, once for each pass (R94 to R97, R99, R107). -/
def Obligations.StrandSteps : Prop :=
  (∀ (s : State) (t : Strand) (k : Nat), s.strand? k = some t →
      (∀ e, t.wait = .pause e → e ≤ s.cc t.core → exec (.pauseExpiry k) s = .next (s.finishWith k id)) ∧
      (∀ e, t.wait = .wrs e → (e ≤ s.cc t.core ∨ t.resv = none) → exec (.wrsTimeout k) s = .next (s.finishWith k id)) ∧
      (∀ c rd e s' v, t.wait = .park c rd e → { s with cur := .strand k }.testCond t c = .ok s' (some v) →
        exec (.parkSpinTest k) s = .next { s'.finishWait k rd v with cur := s.cur }) ∧
      (∀ c rd e s1 t1 full p, t.wait = .park c rd e → e ≤ s.cc t.core → t.sMode = false → t.pendStop = 0 →
        s.parkTest k = s1 → s1.strand? k = some t1 → t1.wait = .park c rd e → e ≤ s1.cc t1.core → t1.sMode = false →
        t1.pendStop = 0 → s1.watchFull c = (full, p) →
        (full = true → exec (.strandPark k) s = .next (p.modStrand k fun t => { t with wait := .park c rd (p.cc t.core + 1024) })) ∧
        (full = false → p.HasLines k [8] →
          (∀ v, (p.fetchLines k [8]).strand? k = some v → (p.fetchLines k [8]).HasLines k (State.liveLines (v.cbits cThctl 47 16))) →
          (p.owed k fun _ => true) = false → (p.alloc (p.crewDie t1) 192 64).isSome = true →
          ∃ (s' : State) (u : Strand), exec (.strandPark k) s = .next s' ∧ p.parkOn k c rd = some s' ∧ s'.strand? k = some u ∧
            u.status = .parked ∧ u.cond = c ∧ u.crd = rd)) ∧
      (∀ line u, s.hwBusy (64 * line) 64 = false → s.rbuf = [] → u ∈ s.strands →
        ∃ (s' : State) (v : Strand), exec (.watchRetest line) s = .next s' ∧ v ∈ s'.strands ∧
          v = { s.retest u line with resv := v.resv } ∧
          (s.poison.contains line = false → v.resv = u.resv ∧ s'.mem = s.mem)) ∧
      (∀ c n, s.crewOf t = some c → s.mayResume c = true → t.status = .waiting → s.resumeCore c t.cwc = some n →
        exec (.strandResume k) s = .next (s.takeSlot k n (s.bestQuad n))) ∧
      (∀ c n s1 v, s.crewOf t = some c → s.mayResume c = true → t.status = .parked → t.cond ≠ .home →
        s.parkedCond t = some (s1, v) → s1.resumeCore c t.cwc = some n →
        ∃ (s' : State) (u : Strand), exec (.strandResume k) s = .next s' ∧ s'.strand? k = some u ∧ u.status = .resident ∧
          u.core = n) ∧
      (∀ line, line < 16 → t.status = .resident → t.stopped = false → s.HasLines k [line] →
        ∃ (s' : State) (u : Strand), exec (.contextLineFetch k line) s = .next s' ∧ s'.strand? k = some u ∧
          u.present.getLsbD line = true) ∧
      (t.pendKill = true → State.mustFinish t.wait = false → exec (.strandStop k) s = .next (s.stopStrand k)) ∧
      (s.recallDue t = true → exec (.recallTakesEffect k) s = .next (s.recallNow k)) ∧
      (∀ r, ∃ (s' : State) (u : Strand), exec (.loadDataReturn k r) s = .next s' ∧ s'.strand? k = some u ∧ (∀ m ∈ u.marks, m.reg ≠ r) ∧
        u.ctx = t.ctx ∧ s'.mem = s.mem) ∧
      (∀ u rest s' ps, sortBy s.older (s.strands.filter fun x => x.core = t.core && x.quad = t.quad && s.wantsParcel x) = u :: rest →
        s.fetchInstr (.strand u.image) = .ok s' ps → exec (.instructionFetch k) s = .next s') ∧
      (∀ s' p va a, t.status = .resident → s.walksFor t va a = true → s.translate (.strand k) a va = .ok s' p →
        exec (.pageWalkComplete k va a) s = .next s')) ∧
  (∀ (s : State) (core quad : Nat),
      let r := s.readyOf (s.strands.filter fun t => t.core = core && t.quad = quad && t.status = .resident)
      ∃ (s' : State) (l1 l2 : List Strand), exec (.issueCycle core quad) s = .next s' ∧
      s'.agenda = (l1 ++ l2).map (fun t => Turn.issue (.strand t.image)) ++ s.agenda ∧ l1.length + l2.length ≤ 32 ∧
      (r.1 ≠ [] → l1 ≠ []) ∧
      (∀ t ∈ l1 ++ l2, t ∈ r.1 ∧ t.core = core ∧ t.quad = quad ∧ t.status = .resident ∧ t.wait = .none) ∧
      (∀ o rest, sortBy r.2.older r.1 = o :: rest → (∀ t ∈ l1 ++ l2, t.crew = o.crew) ∧
        (1024 ≤ r.2.ageOf o → ∀ t ∈ l1, State.keyOf t = State.keyOf o)) ∧
      (∀ t ∈ l1, ∀ u ∈ l1, State.keyOf t = State.keyOf u) ∧ (∀ t ∈ l2, ∀ u ∈ l2, State.keyOf t = State.keyOf u) ∧
      (core < r.2.cores.length → r.2.coreOn core = true → (r.2.coreAt core).powered = true →
        (s'.coreAt core).gatecnt =
          (r.2.coreAt core).gatecnt + w64 ((32 - l1.length - l2.length) * passes (r.2.podAt (State.podOf core)))) ∧
      s'.mem = s.mem ∧
      s'.strands.map (fun t => (t.image, t.ctx, t.status, t.wait)) = s.strands.map fun t => (t.image, t.ctx, t.status, t.wait))

/-- Steps of the dispatchers: of the first candidate, a pre-empted crew that fits the first pod of its pool's order is placed
there, and a fleet that a pod fits has one crew more placed; a home notice and a forward entry are posted to rings that have
room, and stay while the ring is full, the notice of kind 3 after its entry; RECALL, KILL, FRAMEFREE and FWDRSM act on the
frame or the strand that they name (R58 to R61, R76, R366, R369). -/
def Obligations.DispatcherSteps : Prop :=
  ∀ (s : State) (d : Nat) (v : Word), d < 4 → s.Inv →
    (s.candidates = [] → exec .placementOffer s = .next s) ∧
    (∀ i c q qs l rest, s.candidates = .crew i :: rest → s.crew? i = some c → c.pre = 2 → c.recd ≠ 0 → s.poolOrder c = q :: qs →
      s.podFits c q = some l → exec .placementOffer s =
        .next (({ s with nextId := s.nextId + 1 }.setPtr c.cls q).putCrew { c with cores := l, order := s.nextId, pre := 3 })) ∧
    (∀ h rest, s.candidates = .fleet h :: rest → (s.place (.fleet h)).isSome = true →
      ∃ (s' : State) (f f' : Fleet), exec .placementOffer s = .next s' ∧ s.fleet? h = some f ∧ s'.fleet? h = some f' ∧
        f'.placed = f.placed + 1) ∧
    (∀ n, s.notices.find? (fun n => n.die = d) = some n →
      let data := toBytes n.kind 8 ++ toBytes n.tag.toNat 8 ++ toBytes n.image 8 ++ toBytes s.time.toNat 8
      (∀ slot, s.RingRoom (dieReg dispBase d 0x20) 32 slot →
        ∃ s' : State, exec (.homeNoticePost d) s = .next s' ∧ s'.notices = s.notices.erase n ∧
          s.Posted s' (dieReg dispBase d 0x20) slot data ∧
          (∀ f, n.kind = 2 → s.frame? n.image = some f → f.killed = false →
            ∃ f', s'.frame? n.image = some f' ∧ f'.posted = 2 ∧ f'.recalled = true)) ∧
      (s.ringPost (dieReg dispBase d 0x20) 32 data = none → exec (.homeNoticePost d) s = .next s)) ∧
    (∀ n, s.fwdq.find? (fun n => n.die = d) = some n →
      let s1 := (s.mergeStrand n.image).drain n.image
      let data := toBytes n.image 8 ++ toBytes n.kind 1 ++ toBytes n.cause 1 ++ toBytes 0 6
      (∀ slot, s1.RingRoom (dieReg trapBase d 0) 16 slot →
        ∃ s' : State, exec (.forwardEntryPost d) s = .next s' ∧ s'.fwdq = s.fwdq.erase n ∧
          s1.Posted s' (dieReg trapBase d 0) slot data ∧
          (∀ f, s.frame? n.root = some f → n.kind ≤ 3 →
            s'.notices = s.notices ++ [{ die := f.die, kind := 3, tag := f.tag, image := f.image }])) ∧
      (s1.ringPost (dieReg trapBase d 0) 16 data = none → exec (.forwardEntryPost d) s = .next s)) ∧
    (∀ f t, s.frame? v.toNat = some f → s.strand? v.toNat = some t → f.die = d → f.posted ≠ 1 → f.killed = false →
      (t.status = .resident → ∃ (s' : State) (u : Strand), exec (.recallWrite d v) s = .next s' ∧ s'.strand? v.toNat = some u ∧
        u.pendRecall = true ∧ u.ctx = t.ctx ∧ s'.mem = s.mem) ∧
      (∀ c, s.crewOf t = some c → s.away t = false → t.status ≠ .resident → t.status ≠ .forwarded → t.depth = 0 →
        ∃ s' : State, exec (.recallWrite d v) s = .next s' ∧
          ({ die := f.die, kind := 2, tag := f.tag, image := f.image } : Notice) ∈ s'.notices)) ∧
    (∀ f, s.frame? v.toNat = some f → f.die = d → f.killed = false →
      ∃ (s' : State) (f' : Frame), exec (.killWrite d v) s = .next s' ∧ s'.frame? v.toNat = some f' ∧ f'.killed = true ∧
        f'.recalled = false ∧
        (s.fleets = [] → s.strands = [] → f.noted = false →
          ({ die := f.die, kind := 4, tag := f.tag, image := f.image } : Notice) ∈ s'.notices) ∧
        (∀ t, s.fleets = [] → s.strand? v.toNat = some t → t.status = .resident →
          ∃ u, s'.strand? v.toNat = some u ∧ u.pendRecall = true)) ∧
    (∀ f, s.frame? v.toNat = some f → f.die = d → (f.posted = 1 ∨ f.posted = 4) →
      ∃ s' : State, exec (.framefreeWrite d v) s = .next s' ∧ s'.frame? v.toNat = none ∧ s'.mem = s.mem) ∧
    (∀ t, s.strand? v.toNat = some t → t.fwd ≠ 0 → t.status = .forwarded → s.crewDie t = d →
      ∃ (s' : State) (u : Strand), exec (.fwdrsmWrite d v) s = .next s' ∧ s'.strand? v.toNat = some u ∧ u.resume = true)

/-- Steps on buffered reductions, holds, replicas, copies and engine queues, where they are enabled (R122, R204, R217,
R228, R237, R239, R244, R262, R280, R296). Uncorrectable errors: a line written back is poisoned and recorded with its
owner; a stage row is marked, an accumulator element fails its check; an error in a context line forwards the strand
with state 3 (R386, R387). -/
def Obligations.EngineSteps : Prop :=
  (∀ (s : State) (core line id n : Nat),
      (∀ e, s.redLine core line = [e] → exec (.atomicPerform core line) s = .next (s.mergeEntry e false) ∧
        (e.born + 65536 ≤ s.cc core → exec (.rbAgeMerge core line) s = .next (s.mergeEntry e true)) ∧
        (s.cc core < e.born + 65536 → exec (.rbAgeMerge core line) s = .next s)) ∧
      (∃ s' : State, exec (.lrHoldEnd core line) s = .next s' ∧ s'.mem = s.mem ∧
        ∀ h ∈ s'.holds, h.core = core → h.granule = line →
          s.holdActive h = true ∨ h.waiters ≠ [] ∨ h.reqs.any s.reqLive = true ∨ s.hwWants h.granule = true) ∧
      (∀ r die pa, s.replicas.find? (fun r => r.die = die && r.pa = pa) = some r →
        exec (.replicaUpdate die pa) s = .next (s.deliver fun x => x = r)) ∧
      (∃ s' : State, exec (.barrierPhaseRelease id n) s = .next (s'.cvWake id n) ∧
        ∀ c, s'.crew? id = some c → ∀ u ∈ (c.cvGet n).unrel, ∃ i ∈ u.2, ∃ e ∈ s.engine, e.id = i) ∧
      (∀ c rest, s.spilledOf n = c :: rest → s.cpRoom c.core n = true →
        ∃ s' : State, exec (.copyDescriptorReadback n) s = .next s' ∧ s'.mem = s.mem ∧
          (∀ x ∈ s'.copies, x.id = c.id → x.stage = 0)) ∧
      (∀ c e, (s.cpQueue core).find? (fun c => c.stage = 0) = some c →
        [0, 1].find? (fun e => s.cpNext (State.podOf core) e = some core &&
          (s.copies.filter fun o => o.stage = 2 && State.podOf o.core = State.podOf core && o.eng = e).length < 16) = some e →
        exec (.copyBegin core) s = .next ({ s with
          copies := kmod (·.id) s.copies c.id fun c => { c with stage := 2, eng := e } }.modPod (State.podOf core) fun p =>
            { p with cpTurn := lmod p.cpTurn e fun _ => core % 4 + 1 })) ∧
      (∀ c, kfind (·.id) s.copies id = some c → s.chunkReady c n = true →
        exec (.copyChunkWrite id n) s = .next (s.chunkWrite c n)) ∧
      (∀ c x, s.crew? id = some c → (c.cvGet n).sideFrom = some x → (c.cvGet n).kind = 3 → (c.cvGet n).sig.getD 0 0 = 2 →
        (c.cvGet n).fixed = false → x + 65536 ≤ s.ccRun (c.coreNum 0) →
        exec (.pmmaPairTimeout id n) s = .next (s.cvWithdraw id n (c.cvGet n) fun _ => false)) ∧
      (∀ e rest c fmt m nn z acc a b p rows, (s.queueOf core).dropWhile (·.started) = e :: rest →
        s.crew? e.crew = some c → e.late = [] → e.op = .mma fmt m nn z acc a b p rows none →
        let o := State.mxOperands c fmt m nn a b p rows
        exec (.engineEntryStart core) s = .next { s with engine := s.engine.map fun x =>
          if x.id = e.id then { x with op := .calc fmt m nn z acc o.1 o.2.1 (o.2.2 || e.bad) } else x }) ∧
      (∀ e rest c fmt m nn z acc ar br, s.queueOf core = e :: rest → s.crew? e.crew = some c →
        e.op = .calc fmt m nn z acc ar br false → State.mxBad c e.v fmt m nn z acc false = false →
        exec (.matrixWritesLand core) s = .next
          (((s.modCrew e.crew fun c => State.mxPerform c e.v fmt m nn z acc ar br false).modCore core fun k =>
            { k with mxcnt := k.mxcnt + 1 }).entryDone e 0)) ∧
      (∀ e rest p h w b0 b1 x, s.queueOf core = e :: rest → e.op = .run p h w b0 b1 x →
        exec (.epilogueEntry core) s = .next (s.performAm e)) ∧
      (∀ e rest p h w acc b0 b1 x z, s.queueOf core = e :: rest → e.op = .drain p h w acc b0 b1 x z →
        exec (.epilogueEntry core) s = .next (s.performAm e))) ∧
  (∀ (s : State) (n r : Nat),
      (let tag := (sget s.owners n).toNat
       let s1 : State := { s with poison := insSorted s.poison n, owners := sset s.owners n 0 }
       s.memAt (n * 64) = .ok → tag ≠ 0 → exec (.ueWriteback n) s = .next (if bits tag 24 24 = 1 then
         s1.faultRecord (bits tag 23 16) { kind := 5, pa := n * 64, image := bits tag 23 0 } else s1)) ∧
      (∀ c, s.crew? n = some c → c.pre < 2 → c.stageIn (64 * r) 1 = true →
        ∃ (s' : State) (c' : Crew), exec (.ueCoreStorage (.stageRow n r)) s = .next s' ∧ s'.crew? n = some c' ∧ r ∈ c'.rowPoison ∧
          c'.stage = c.stage) ∧
      (∀ c, s.crew? n = some c → c.pre < 2 → r / 2 ^ 17 < c.k →
        ∃ (s' : State) (c' : Crew), exec (.ueCoreStorage (.accElement n r)) s = .next s' ∧ s'.crew? n = some c' ∧ r ∈ c'.accFail) ∧
      (∀ t, s.strand? n = some t → t.status = .resident → t.present.getLsbD r = true → r < 16 → s.finishing t = false →
        t.stopped = false → s.rbuf = [] → (∀ x, s.crewOf t = some x → ∀ i ∈ x.cvNums, t.sid ∉ (x.cvGet i).members) →
        ∃ (s' : State) (u : Strand), exec (.ueCoreStorage (.contextLine n r)) s = .next s' ∧ s'.strand? n = some u ∧
          u.status = .forwarded ∧ u.fwd = 3 ∧ n / 64 + r ∈ s'.poison))

/-- Group time-out, collective engine and domain: a running group whose clock has reached its time-out closes with its
pending siblings timed out; a gate opens once its word has reached its value, and breaks on poison; a descriptor that
has begun is carried out, and one that is to end writes its status; an unmatched ring ends with -8 at its deadline; remote and window
accesses within their limits are served; packages enter and leave; a lost port removes every peer; a device's write goes where its
IOMMU translates it; where that is off, and at a device register, the device gets Unsupported Request (R30, R314, R330, R334 to
R336, R339, R341, R344 to R346, R422). What the tables of an IOMMU say is read by the standard that R30 names (log 28). -/
def Obligations.LinkSteps : Prop :=
  ∀ (s : State),
    (∀ h g, s.group? h = some g → g.running = true → g.closed = false → g.timeout ≠ 0 → g.timeout ≤ g.clock →
      g.states.any (· = 0) = true → exec (.groupTimeout h) s = .next (s.closeGroup h 4 4 g.timeout)) ∧
    (∀ d id, kfind (·.id) s.descs id = some d → d.begun = false → d.ending = none → s.engHeld [{ addr := d.gatePa, len := 8 }] = false →
      (s.poisonAt d.gatePa 8 = true → exec (.gateOpen id) s = .next (s.descBreak d)) ∧
      (let s1 := s.engOpen d.gatePa 8 false
       s.poisonAt d.gatePa 8 = false →
         (d.w 4 ≤ s1.peek 4 d.gatePa 8 → exec (.gateOpen id) s =
           .next { s1 with descs := kmod (·.id) s1.descs id fun d => { d with begun := true } }) ∧
         (s1.peek 4 d.gatePa 8 < d.w 4 → exec (.gateOpen id) s = .next s1))) ∧
    (∀ d id st, kfind (·.id) s.descs id = some d → d.ending = some st →
      exec (.descriptorComplete id) s = .next (s.descEnd d st) ∧
      (s.engHeld d.ends = false → kfind (·.id) (s.descEnd d st).descs id = none ∧
        (s.Inv → d.w 5 = 0 → s.rbuf = [] → s.raceWords d.stPa 4 = [] → s.imagesAt d.stPa 4 = [] →
          bytesGet (s.descEnd d st).mem d.stPa 4 = (neg st).toNat % 2 ^ 32))) ∧
    (∀ d id, kfind (·.id) s.descs id = some d → d.begun = true → d.ending = none →
      (d.ring = false → exec (.descriptorComplete id) s = .next (s.descRun d)) ∧
      (let w := w64 (d.w 2)
       d.ring = false → d.far = none → s.engHeld [s.regionPiece w] = false → ∀ st,
         (s.regionOpen w).remoteAt w d.bytes (bits (d.w 7) 63 32) (match d.op with | 1 => 2 | 2 => 1 | _ => 3) = .bad st →
         exec (.descriptorComplete id) s = .next ((s.regionOpen w).descEnd d st)) ∧
      (d.ring = true → d.matched = true → exec (.descriptorComplete id) s = .next (s.ringRun d))) ∧
    (∀ d id, kfind (·.id) s.descs id = some d → d.ring = true → d.matched = false → d.ending = none → d.deadline ≠ 0 →
      d.deadline ≤ s.time.toNat → exec (.ringMatchTimeout id) s = .next (s.descEnd d 8)) ∧
    (∀ (r : RemoteReq) (pa : Nat), r.kind = .write →
      let w := w64 (s.pkgNum * 2 ^ 56 + r.region.toNat * 2 ^ 48 + r.off.toNat)
      s.engHeld [s.regionPiece w] = false → (s.regionOpen w).remoteAt w r.len r.key.toNat 2 = .at pa →
      (s.regionOpen w).engHeld [{ addr := pa, len := r.len }] = false →
      exec (.remoteRegionAccess r) s =
        .next ((s.regionOpen w).engWrite 0 [{ addr := pa, len := r.len }] ((upto 0 r.len).map fun i => (r.data.getD i 0, r.marks.contains i)))) ∧
    (∀ p, exec (.peerLeave p) s = .next (s.peerGone p)) ∧
    (∀ p, s.Inv → p < 256 → p ≠ s.pkgNum → s.present p = true → (∀ d ∈ s.descs, s.involves p d = true → s.engHeld d.ends = false) →
      ∃ s' : State, exec (.peerLeave p) s = .next s' ∧ s'.present p = false ∧ ∀ x ∈ s'.peerPosts, x.peer ≠ p) ∧
    (∀ p, p < 256 → (s.reg (linkBase + 0x20)).toNat = 0xFFF → s.Inv →
      ∃ s' : State, exec (.peerPresent p) s = .next s' ∧ s'.present p = true ∧ s'.mem = s.mem) ∧
    (∀ p, p < 12 → wbit (s.reg (linkBase + 0x20)) p = true → exec (.linkPortLost p) s =
      .next ((upto 0 256).foldl (fun s q => s.peerGone q)
        (s.setReg (linkBase + 0x20) (s.reg (linkBase + 0x20) &&& ~~~(w64 (2 ^ p)))))) ∧
    (∀ p e, s.snoop.find? (fun e => e.line % 12 = p) = some e →
      exec (.snoopFilterRecall p) s =
        .next { s with snoop := s.snoop.erase e, dir := dirDrop s.dir 6 fun d => d.line = e.line }) ∧
    (∀ p (r : BusReq), r.write = true → r.data ≠ [] → p ≠ s.pkgNum → s.present p = true → region r.pa = .hbm →
      region (r.pa + r.data.length - 1) = .hbm → s.memAt r.pa = .ok → s.engHeld [{ addr := r.pa, len := r.data.length }] = false →
      exec (.peerWindowAccess { peer := p, req := r }) s = .next ((s.snoopAdd p r.pa r.data.length true).engWrite 0
        [{ addr := r.pa, len := r.data.length }] (r.data.map fun b => (b, false)) 6)) ∧
    (∀ (r : DevReq), 0 < r.len → r.req.pa % 4096 + r.len ≤ 4096 → r.port < 2 → s.ready (42 + r.port) = true → r.form ≠ .message →
      let refused (s : State) : State := s.ioSend r.port (.unsupported r.dev)
      let written (s : State) (pa : Nat) : State :=
        (s.engWrite 0 [{ addr := pa, len := r.len }] (r.req.data.map fun b => (b, false)) (dmaCache r.port)).ioSend r.port (.done r.dev [])
      (wbits (s.iommuAt r.port).ddtp 3 0 = 0 → (s.iommuAt r.port).fqOn = false → exec (.dmaRequest r) s = .next (refused s)) ∧
      (wbits (s.iommuAt r.port).ddtp 3 0 = 1 → r.translated = false → r.form = .access → region r.req.pa = .mmio →
        exec (.dmaRequest r) s = .next (refused s)) ∧
      (wbits (s.iommuAt r.port).ddtp 3 0 = 1 → r.translated = false → r.form = .access → r.req.write = true → s.memAt r.req.pa = .ok →
        s.engHeld [{ addr := r.req.pa, len := r.len }] = false →
        exec (.dmaRequest r) s = .next (written s r.req.pa) ∧
        (s.Inv → s.rbuf = [] → s.raceWords r.req.pa r.len = [] → s.imagesAt r.req.pa r.len = [] → r.req.data.length = r.len →
          bytesGet (written s r.req.pa).mem r.req.pa r.len = ofBytes r.req.data)) ∧
      (∀ (w : List Nat) (t : State), wbits (s.iommuAt r.port).ddtp 3 0 = 4 → s.deviceOf r.port r.dev = .ok t w → r.form = .access →
        (bits (w.getD 0 0) 1 1 = 0 → r.translated = true → (t.iommuAt r.port).fqOn = false →
          exec (.dmaRequest r) s = .next (refused t)) ∧
        (∀ (u : State) (pa : Nat), t.ioUnder r w = .ok u (.bytes pa) → r.req.write = true → u.memAt pa = .ok →
          u.engHeld [{ addr := pa, len := r.len }] = false → exec (.dmaRequest r) s = .next (written u pa))))

/-- Register writes as steps of their own: `cpspl` once every spilled descriptor is read back, `frecbase` with the
record count cleared, `passcnt` in force at once, where the power controller asks for no more passes, on a pod whose zone is not
evacuated, `clsreq` with each of its refusals, ZCTL, IVGO of an idle slot, and every register of the device MMIO range that holds
what is written in its fields; one that is read-only stays (R238, R378, R382, R402, R403, R414, R439). EVREQ: a request while one is in
progress is ignored; where the buffer lies in no ready memory it is refused, while a line of it is held it is in progress, else the
evidence for the nonce in the buffer stands there and st is 2 (R433). -/
def Obligations.RegisterSteps : Prop :=
  ∀ (s : State) (t : Strand) (k core : Nat) (v : Word),
    (s.strand? k = some t → s.spilledOf k = [] →
      exec (.cpsplWrite k v) s = .next (s.modStrand k fun t => t.setCw cCpspl (cpsplLegal v))) ∧
    (core < s.cores.length → ∃ s' : State, exec (.frecbaseWrite core v) s = .next s' ∧ (s'.coreAt core).frecbase = frecbaseLegal v ∧
      (s'.coreAt core).frectail = 0 ∧ s'.mem = s.mem) ∧
    (core / 4 < s.pods.length → wbits v 1 0 ≠ 3 → (s.zoneAt (core / 4)).state < 3 →
      ∃ s' : State, exec (.passcntWrite core v) s = .next s' ∧ s'.mem = s.mem ∧
        (s'.podAt (core / 4)).passcnt = max (wbits v 1 0) (s.podAt (core / 4)).passC) ∧
    (wbits v 1 0 = 3 → exec (.passcntWrite core v) s = .next s) ∧
    (let d := core / 48
     let q := 12 * d + wbits v 3 0
     let answer (st : Nat) : State :=
       s.modDie d fun x => { x with clsreq := w64 (st * 2 ^ 28 + wbits v 9 8 * 2 ^ 8 + wbits v 3 0) }
     wbits (s.dieAt d).clsreq 31 28 ≠ 1 →
     (12 ≤ wbits v 3 0 ∨ wbits v 9 8 = 3 → exec (.clsreqWrite core v) s = .next (answer 3)) ∧
     (wbits v 3 0 < 12 → wbits v 9 8 ≠ 3 → (s.podAt q).pool = wbits v 9 8 →
       exec (.clsreqWrite core v) s = .next (answer 2)) ∧
     (let full : Prop := wbits v 9 8 = 1 ∧ 3 ≤ ((upto (12 * d) 12).filter fun n =>
        let x := s.podAt n
        (x.rcls = 0 && x.pool = 1) || (x.rcls ≠ 0 && (x.target = 1 || (x.rcls = 1 && x.pool = 1)))).length
      wbits v 3 0 < 12 → wbits v 9 8 ≠ 3 → (s.podAt q).pool ≠ wbits v 9 8 →
       (full → exec (.clsreqWrite core v) s = .next (answer 4)) ∧
       (¬full → 1 < (s.zoneAt q).state → exec (.clsreqWrite core v) s = .next (answer 5)) ∧
       (¬full → (s.zoneAt q).state ≤ 1 → exec (.clsreqWrite core v) s =
         .next (((answer 1).modPod q fun x => { x with rcls := 1, target := wbits v 9 8 }).withdrawPod q 1 s.grace)))) ∧
    (core < s.zones.length → ∃ s' : State, exec (.zctlRetryWrite core v) s = .next s' ∧ s'.mem = s.mem ∧
      (s'.zoneAt core).allow = wbits v 31 16 ∧ (s'.zoneAt core).valve = wbits v 7 0) ∧
    (core < 32 → s.reg (State.invalReg core 0x18) ≠ 1 →
      invalOk (s.reg (State.invalReg core 0)) (s.reg (State.invalReg core 8)) = true →
      ∃ s' : State, exec (.ivgoWrite core 1) s = .next s' ∧ s'.mem = s.mem ∧ ∃ x, s'.invals = s.invals ++ [x] ∧ x.slot = core ∧
        x.va = s.reg (State.invalReg core 0)) ∧
    (∀ i, kfind (·.id) s.invals k = some i → s.invalWaits i = false →
      exec (.invalidationAck k) s = .next (s.invalDone i)) ∧
    (s.Inv →
      let becomes (pa : Nat) (half : Bool) (x : Word) : Prop := ∃ s' : State, exec (.registerWrite pa half v) s = .next s' ∧
        s'.mem = s.mem ∧ s'.reg pa = x ∧ ∀ p, p ≠ pa → s'.reg p = s.reg p
      let stays (pa : Nat) : Prop := exec (.registerWrite pa false v) s = .next s
      (∀ d, d < 4 → ∀ r : Nat × Word, r ∈ [(dieReg dispBase d 0, 0x01FFFFFFFFE00000), (dieReg dispBase d 0x08, 0xFFFF),
        (dieReg dispBase d 0x18, 7), (dieReg dispBase d 0x20, 0x01FFFFFFFFFFF000), (dieReg dispBase d 0x30, 0xFFFF),
        (dieReg dispBase d 0x40, ~~~0), (dieReg dispBase d 0x48, 0xFFFFFFFF), (dieReg trapBase d 0, 0x01FFFFFFFFFFF000),
        (dieReg trapBase d 0x10, 0xFFFF), (dieReg trapBase d 0x20, ~~~0), (dieReg trapBase d 0x28, 0xFFFFFFFF),
        (dieReg trapBase d 0x38, ~~~3), (dieReg trapBase d 0x40, 0xC0001), (dieReg trapBase d 0x48, ~~~0),
        (dieReg trapBase d 0x50, ~~~0), (dieReg debugBase d 0x08, ~~~0), (dieReg debugBase d 0x20, 0xC000000000FFFFFF),
        (attrBase, 0x01FFFFFFFFE00001), (linkBase + 0x28, 0x01FFFFFFFFFFE001), (powerBase + 0x20, 0xFFFFFF),
        (powerBase + 0x40, 0xF), (bootBase + 0x18, 0xFF)] →
        becomes r.1 false (v &&& r.2) ∧ becomes r.1 true (winsert (s.reg r.1) 31 0 (wbits v 31 0) &&& r.2)) ∧
      (∀ d, d < 4 → ∀ r ∈ [dieReg dispBase d 0x28, dieReg trapBase d 0x08],
        (4 ≤ wbits v 4 0 → wbits v 4 0 ≤ 16 → becomes r false (w64 (wbits v 4 0))) ∧
        (wbits v 4 0 < 4 ∨ 16 < wbits v 4 0 → stays r)) ∧
      (∀ n, n < 32 → s.reg (State.invalReg n 0x18) ≠ 1 → ∀ o ∈ [0, 8, 0x10], becomes (State.invalReg n o) false v) ∧
      becomes powerBase false (w64 (max 100 (min 3600 (wbits v 15 0)))) ∧
      becomes (powerBase + 0x08) false (w64 (max 16 (min 512 (wbits v 9 0)))) ∧
      becomes (powerBase + 0x18) false (w64 (min 10000 (wbits v 13 0))) ∧
      becomes (powerBase + 0x30) false (v &&& 0x0FFF0FFF) ∧
      becomes (powerBase + 0x38) false (s.reg (powerBase + 0x38) &&& ~~~v &&& 0xF) ∧
      becomes (attrBase + 0x10) false (w64 (min 16 (wbits v 4 0))) ∧
      (∀ d, d < 4 → ∀ r ∈ [dieReg dispBase d 0x10, dieReg dispBase d 0x38, dieReg trapBase d 0x18, dieReg debugBase d 0x18,
        dieReg debugBase d 0x30, linkBase, linkBase + 0x20, linkBase + 0x30, powerBase + 0x10, bootBase, bootBase + 0x08,
        bootBase + 0x10, bootBase + 0x20, bootBase + 0x38], stays r)) ∧
    (let go := bootBase + 0x40
     let buf := wbits v 56 7 * 128
     (wbits (s.reg go) 2 1 = 1 → exec (.evreqGo v) s = .next s) ∧
     (wbits (s.reg go) 2 1 ≠ 1 → wbit v 0 = true →
       (s.memReady buf 384 = false → exec (.evreqGo v) s = .next (s.setReg go (w64 (buf + 6)))) ∧
       (s.memReady buf 384 = true → s.hwBusy buf 384 = true → exec (.evreqGo v) s = .next (s.setReg go (w64 (buf + 2)))) ∧
       (s.Inv → s.memReady buf 384 = true → s.hwBusy buf 384 = false → s.rbuf = [] →
         ∃ s' : State, exec (.evreqGo v) s = .next s' ∧ s'.reg go = w64 (buf + 4) ∧
           bytesGet s'.mem buf 384 = ofBytes (s.evidence ((upto (buf + 8) 32).map s.hwByte)))))

/-- Pre-emption, reassignment, power and current, where each step is enabled: a crew whose fleet is to be pre-empted, or
whose grace has ended, starts its pre-emption; a crew that has stopped is saved and gives up its W-cores; a placed crew
is restored; a pod without crews leaves its pool and joins the new one at its base clock; boost, power windows and
current samples recompute (R389, R390, R401, R404, R407 to R409, R413). -/
def Obligations.PowerSteps : Prop :=
  ∀ (s : State) (i q : Nat),
    (∀ c, s.crew? i = some c → c.toPre = true →
      exec (.crewPreempt i) s = .next (s.preemptStart i)) ∧
    (∀ c, s.crew? i = some c → c.wd ≠ 0 → c.wdEnd ≤ s.time.toNat →
      exec (.withdrawalGraceExpiry i) s = .next (s.preemptFrom c)) ∧
    (∀ c, s.crew? i = some c → c.pre = 1 → c.stopping = false → c.fleet = 0 → s.engine = [] → s.copies = [] →
      (∀ t ∈ s.strands, t.crew = i → s.finishing t = false) → (∀ t ∈ s.strands, t.pendRecall = false) →
      ∃ (s' : State) (c' : Crew), exec (.crewSaveComplete i) s = .next s' ∧ s'.crew? i = some c' ∧ c'.pre = 2 ∧ c'.cores = [] ∧
        ∀ t ∈ s.strands, t.crew = i → t.status = .resident → ∃ u, s'.strand? t.image = some u ∧ u.status = .preempted) ∧
    (∀ c, s.crew? i = some c → c.pre = 3 → (∀ x ∈ s.crews, c.fleet ≠ 0 → x.fleet = c.fleet → x.cid < c.cid → x.pre = 0) → (∀ n ∈ c.cores, (s.podAt (State.podOf n)).halted = false) →
      ∃ (s' : State) (c' : Crew), exec (.crewRestore i) s = .next s' ∧ s'.crew? i = some c' ∧ c'.pre = 0 ∧
        ∀ t ∈ s.strands, t.crew = i → t.status = .preempted →
          ∃ u, s'.strand? t.image = some u ∧ (u.status = .resident ∨ u.status = .waiting)) ∧
    (q < s.pods.length → (s.podAt q).rcls = 1 → s.podCrews q = [] →
      ∃ s' : State, exec (.reclassSavesDone q) s = .next s' ∧ (s'.podAt q).rcls = 2 ∧
        ((∀ n, State.podOf n = q → s.evictable n = []) → s'.mem = s.mem)) ∧
    (q < s.pods.length → (s.podAt q).rcls = 2 → ∃ s' : State, exec (.reclassClockSettled q) s = .next s' ∧ s'.mem = s.mem ∧
      (s'.podAt q).rcls = 0 ∧ (s'.podAt q).pool = (s.podAt q).target ∧ (s'.podAt q).mhz = baseMhz (s.podAt q).target) ∧
    (q < Config.numPods → (s.podAt q).rcls = 1 → exec (.withdrawalStart q) s = .next (s.withdrawPod q 1 s.grace)) ∧
    (q < Config.numPods → (s.podAt q).rcls ≠ 1 → (s.zoneAt q).state = 3 ∨ (s.zoneAt q).state = 6 →
      exec (.withdrawalStart q) s = .next (s.withdrawPod q 3 0)) ∧
    (q < s.pods.length → s.time.toNat % 10000 = 0 → (s.podAt q).boostAt ≠ s.time.toNat → (s.podAt q).rcls ≠ 2 →
      ∃ s' : State, exec (.boostRecompute q) s = .next s' ∧ s'.mem = s.mem ∧ (s'.podAt q).steps ≤ (s.podAt q).bstmax ∧
        (s'.podAt q).steps ≤ 8 ∧ (s'.podAt q).mhz = baseMhz (s.podAt q).pool + 25 * (s'.podAt q).steps) ∧
    (∀ avg : BitVec 16, s.time.toNat % 10000000 = 0 → s.pkg.windowAt ≠ s.time.toNat →
      s.pkg.limit < avg.toNat → s.pkg.means = 0 →
      ∃ s' : State, exec (.powerWindow avg) s = .next s' ∧ s'.pkg.means = 1 ∧ (∀ p ∈ s'.pods, p.bstmax = 0) ∧ s'.mem = s.mem) ∧
    (∀ draw, s.time.toNat % 500 = 0 → s.pkg.sampleAt ≠ s.time.toNat → s.pkg.episode = false →
      ∃ s' : State, exec (.currentSample draw) s = .next s' ∧ s'.mem = s.mem ∧
        (let lim := s.pkg.draw - wbits (s.reg (powerBase + 0x08)) 9 0
         s'.pkg.draw = max (2 * draw) lim ∧ s'.pkg.episode = decide (2 * draw < lim))) ∧
    (s.pkg.episode = true → s.pkg.epStart + 50000 ≤ s.time.toNat →
      exec .currentLimitEvent s = .next s.currentLimit ∧ s.currentLimit.pkg.episode = false)

/-- A zone's state changes as Table 15.4 says where the condition of the change holds in the measurement that the step
brings; otherwise it stays (R411 to R414). -/
def Obligations.ZoneSteps : Prop :=
  ∀ (s : State) (z : Nat) (flow : BitVec 16) (temp : BitVec 12), z < Config.numZones → s.zones.length = Config.numZones →
    let f := s.senseFlow z flow.toNat
    let h := s.senseTemp z temp.toNat
    let goes (i : Instr) (n : Nat) : Prop := ∃ s' : State, exec i s = .next s' ∧ (s'.zoneAt z).state = n
    (f.entered z false 1 = true → goes (.zoneEnterLowFlow z flow) 1) ∧
    (f.entered z false 1 = false → goes (.zoneEnterLowFlow z flow) (s.zoneAt z).state) ∧
    ((f.zoneAt z).state = 1 → State.below (f.zoneAt z) z 1 (f.zoneAt z).flow = false →
      f.heldFor (f.zoneAt z).okFrom 10000000 = true → f.staysLow z = true → goes (.zoneLeaveLowFlow z flow) 0) ∧
    (h.entered z false 2 = true → goes (.zoneEnterHot z temp) 2) ∧
    (h.entered z false 2 = false → goes (.zoneEnterHot z temp) (s.zoneAt z).state) ∧
    ((h.zoneAt z).state = 2 → (h.zoneAt z).temp + 80 < h.warn → h.heldFor (h.zoneAt z).coolFrom 10000000 = true → h.staysLow z = true →
      goes (.zoneLeaveHot z temp) 0) ∧
    (∀ v, f.entered z v 3 = true → goes (.zoneEnterEvacuating z flow v) 3) ∧
    (h.entered z false 6 = true → goes (.zoneEnterTripped z temp) 6) ∧
    ((s.zoneAt z).state = 3 → s.podCrews z = [] → goes (.evacuationSavesDone z) 4) ∧
    ((h.zoneAt z).state = 6 → (h.zoneAt z).gated = true → (h.zoneAt z).temp < h.warn →
      h.heldFor (h.zoneAt z).belowFrom 100000000 = true → goes (.zoneTripExit z temp) 0) ∧
    ((s.zoneAt z).state = 4 → (s.zoneAt z).purge = 0 →
      ∃ s' : State, exec (.purgeStart z) s = .next s' ∧ (s'.zoneAt z).purge = 1 ∧ (s'.zoneAt z).purgeAt = s.time.toNat) ∧
    ((s.zoneAt z).state = 4 → (s.zoneAt z).purge = 1 → s.heldFor (s.zoneAt z).purgeAt 20000000 = true →
      ∃ s' : State, exec (.purgeValveOpen z) s = .next s' ∧ (s'.zoneAt z).purge = 2) ∧
    ((f.zoneAt z).state = 4 → (f.zoneAt z).purge = 2 → f.heldFor (f.zoneAt z).purgeAt 520000000 = true →
      (State.below (f.zoneAt z) z 1 (f.zoneAt z).flow = false → f.heldFor (f.zoneAt z).okFrom 100000000 = true →
        goes (.purgeEnd z flow) 0) ∧
      (State.below (f.zoneAt z) z 1 (f.zoneAt z).flow = true → goes (.purgeEnd z flow) 5))

/-- The commands of a debug block that is not busy: each answers 1 where DBGSEL names no strand; on a strand, `stop`
asks for its stop, `resume` and `step` answer 2 unless it is stopped and else resume it, `attach` and `detach` set its
debug bits; an unassigned command answers 3 (R391, R392, R394, R396). A pending debug stop takes a resident strand that
waits for nothing to its stop; DBGDATA reads and writes a stage doubleword of the selected strand's crew with error 0 in
DBGERR; DBGHALT halts the pods whose bits are set (R393, R395, R397). -/
def Obligations.DebugCommands : Prop :=
  (∀ (s : State) (d : Nat), s.dbgBusy d = false →
      let res (i : Instr) (cmd r : Nat) : Prop := exec i s = .next (s.dbgResult d cmd r)
      (s.dbgStrand d = none → res (.dbgStop d) 1 1 ∧ res (.dbgStopCrew d) 2 1 ∧ res (.dbgResume d) 3 1 ∧
        res (.dbgResumeCrew d) 4 1 ∧ res (.dbgStep d) 5 1 ∧ res (.dbgAttach d) 6 1 ∧ res (.dbgDetach d) 7 1) ∧
      (∀ cmd : BitVec 4, cmd = 0 ∨ 8 ≤ cmd.toNat → res (.dbgUnassigned d cmd) cmd.toNat 3) ∧
      (∀ t, s.dbgStrand d = some t →
        let on (cmd : Nat) : State := s.dbgResult d cmd 0
        exec (.dbgStop d) s = .next ((on 1).dbgStopOne t.image) ∧
        exec (.dbgStopCrew d) s = .next (((on 2).crewMates t).foldl (fun s u => s.dbgStopOne u.image) (on 2)) ∧
        (t.stopped = false → res (.dbgResume d) 3 2 ∧ res (.dbgStep d) 5 2) ∧
        (t.stopped = true → exec (.dbgResume d) s = .next ((on 3).dbgResumeOne t.image false) ∧
          exec (.dbgStep d) s = .next ((on 5).dbgResumeOne t.image true)) ∧
        exec (.dbgResumeCrew d) s = .next (((on 4).crewMates t).foldl (fun s u => s.dbgResumeOne u.image false) (on 4)) ∧
        exec (.dbgAttach d) s = .next ((on 6).dbgAttachOne t.image 3) ∧
        exec (.dbgDetach d) s = .next (((on 7).dbgAttachOne t.image 0).dbgResumeOne t.image false))) ∧
  (∀ (s : State) (d : Nat),
      (∀ k t c, s.strand? k = some t → t.status = .resident → t.pendStop ≠ 0 → t.stopped = false → s.crewOf t = some c →
        c.pre = 0 → t.wait = .none → exec (.debugStop k) s = .next (s.debugStopOp k t.pendStop)) ∧
      (∀ t c, s.dbgBusy d = false → s.dbgq.find? (fun e => e.die = d) = none → s.dbgStrand d = some t → s.crewOf t = some c →
        let a := wbits (s.reg (State.dbg d 0x20)) 23 0
        wbits (s.reg (State.dbg d 0x20)) 63 62 = 0 → a % 8 = 0 → c.stageIn a 8 = true → c.pre < 2 →
        (c.stageBad a 8 = false → exec (.dbgdataRead d) s =
          .next ((s.setReg (State.dbg d 0x28) (w64 (c.stageGet a 8))).setReg (State.dbg d 0x30) 0)) ∧
        (∀ v, exec (.dbgdataWrite d v) s =
          .next (((s.stageWrite c.id a v.toNat 8).setReg (State.dbg d 0x28) v).setReg (State.dbg d 0x30) 0))) ∧
      (∀ v p, p < 12 → 12 * d + p < s.pods.length →
        ∃ s' : State, exec (.dbghaltWrite d v) s = .next s' ∧ (s'.podAt (12 * d + p)).halted = wbit v p ∧ s'.mem = s.mem))

/-- Bring-up in its order: power good accepts Selmel's firmware; memory and links, the package number with the widths of the PCIe
ports, the L-core image with the L-dies that come up and fail, each L-core, each W-die, ports, the collective engine and the
management port become ready, or fail, once what they need is there, each once (R421, R423 to R425, R428). -/
def Obligations.BringUp : Prop :=
  ∀ (s : State),
    (∀ b x, s.pkg.powered = false → accepted s.pkg 1 = some (b, x) →
      ∃ s' : State, exec .powerGood s = .next s' ∧ s'.stepIs 1 = true ∧ s'.mem = s.mem ∧ s'.pkg.powered = true) ∧
    (s.pkg.powered = true → exec .powerGood s = .next s) ∧
    (s.stepIs 1 = true → ∃ s' : State, exec .bootDieLinksMemory s = .next s' ∧ s'.stepIs 2 = true ∧ s'.mem = s.mem) ∧
    (s.stepIs 1 = false → exec .bootDieLinksMemory s = .next s) ∧
    (∀ f, 6 ≤ f → f ≤ 29 → s.stepIs 2 = true → s.ready f = false → s.failed f = false → s.Inv →
      ∃ s' : State, exec (.memoryReady f) s = .next s' ∧ s'.ready f = true ∧
        (∀ a, (if f < 14 then (f - 6) * 0xC00000000 else 0x010000000000 + (f - 14) * 0xC00000000) ≤ a →
          a < (if f < 14 then (f - 6) * 0xC00000000 else 0x010000000000 + (f - 14) * 0xC00000000) + 0xC00000000 →
          sget s'.mem a = 0)) ∧
    (∀ n : BitVec 8, s.stepIs 1 = true → s.stepIs 3 = false → s.Inv →
      ∃ s' : State, exec (.bootPkgnum n) s = .next s' ∧ s'.pkgNum = n.toNat ∧ s'.present n.toNat = true ∧ s'.stepIs 3 = true ∧
        s'.pkg.portSplit = s.pkg.portConfig ∧ s'.mem = s.mem) ∧
    (s.stepIs 1 = true →
      (s.stepIs 4 = true → exec .bootLCoreImage s = .next ((s.bringUp 4).bringUp 5)) ∧
      (s.stepIs 4 = false → accepted s.pkg 2 = none → exec .bootLCoreImage s = .next ((s.bring 4 false).bring 5 false)) ∧
      (∀ b x, s.stepIs 4 = false → accepted s.pkg 2 = some (b, x) → s.loadReady b.load b.len = true →
        exec .bootLCoreImage s =
          .next (((({ s with mem := byteListSet s.mem b.load b.payload }.runImage 2 b x).bringUp 4).bringUp 5).stepSet 4))) ∧
    (∀ k, k < s.lcores.length → k < Config.numLCores → s.ready (4 + k / 16) = true → (s.lcoreAt k).running = false → s.Inv →
      ∃ s' : State, exec (.lCoreStart k) s = .next s' ∧ s'.mem = s.mem ∧ (s'.lcoreAt k).running = true ∧ (s'.lcoreAt k).mode = .m ∧
        sget (s'.lcoreAt k).ctx 10 = w64 k ∧ sget (s'.lcoreAt k).ctx 11 = w64 bootBase) ∧
    (∀ d b x, d < 4 → s.stepIs 1 = true → s.ready (6 + 2 * d) = true → s.ready (7 + 2 * d) = true → s.ready d = false →
      s.failed d = false → accepted s.pkg 3 = some (b, x) →
      ∃ s' : State, exec (.bootWDieMicrocode d) s = .next ((s'.runImage 3 b x).bring d true) ∧ s'.mem = s.mem) ∧
    (∀ f, 30 ≤ f → f < 42 → s.stepIs 2 = true → s.ready f = false → s.failed f = false → s.Inv →
      ∃ s' : State, exec (.portTrained f) s = .next s' ∧ s'.ready f = true ∧ wbit (s'.reg (linkBase + 0x20)) (f - 30) = true ∧
        s'.mem = s.mem) ∧
    (s.ready 4 = true → s.ready 5 = true → exec .collectiveEngineReady s = .next (s.bringUp 44)) ∧
    (s.stepIs 1 = true → s.ready 45 = false → s.failed 45 = false →
      ((s.bringUp 45).ready 45 = true → exec .managementPortReady s = .next ((s.bringUp 45).setPtp s.ptpOffset 1)) ∧
      ((s.bringUp 45).ready 45 = false → exec .managementPortReady s = .next (s.bringUp 45))) ∧
    (∀ f ∈ [4, 5, 44, 45], s.ready f = false → s.failed f = false → s.Inv →
      (∀ ok, kfind (·.1) s.pkg.units f = some (f, some ok) →
        (s.bringUp f).ready f = ok ∧ (s.bringUp f).failed f = !ok ∧ (s.bringUp f).mem = s.mem) ∧
      (kfind (·.1) s.pkg.units f = none → (s.bringUp f).ready f = true ∧ (s.bringUp f).mem = s.mem))

/-- Management and time: an image that passes the checks of R428 goes to the copy not in use; a minimum version rises to
one that an accepted copy has, and never falls; evidence is returned for each request; a measured offset is noted, saturated, and
`time` follows it; the first positive one of an acquisition is a step forward; without a message for 10 s the clock runs free (R421,
R428, R429, R433, R435). -/
def Obligations.Management : Prop :=
  ∀ (s : State), s.ready 45 = true →
    (∀ img : List Byte, let b : Image := { bytes := img }
      1 ≤ b.kind → b.kind ≤ 3 → imageOk s.pkg b.kind b = true → s.pkg.useB.getD (b.kind - 1) false = false →
      exec (.mgmtImageDelivery img) s = .next { s with pkg := { s.pkg with
        flashB := lmod s.pkg.flashB (b.kind - 1) fun _ => b } }) ∧
    (∀ img : List Byte, let b : Image := { bytes := img }
      imageOk s.pkg b.kind b = false → exec (.mgmtImageDelivery img) s = .next s) ∧
    (∀ (k : BitVec 2) (v : BitVec 32), k ≠ 0 → imageOk s.pkg k.toNat (s.pkg.flashA.getD (k.toNat - 1) {}) = true →
      v.toNat ≤ (s.pkg.flashA.getD (k.toNat - 1) {}).version → (s.pkg.minVer.getD (k.toNat - 1) 0).toNat < v.toNat →
      exec (.mgmtRaiseMinVersion k v) s = .next { s with pkg := { s.pkg with
        minVer := lmod s.pkg.minVer (k.toNat - 1) fun _ => v } }) ∧
    (∀ (k : BitVec 2) (v : BitVec 32), v.toNat ≤ (s.pkg.minVer.getD (k.toNat - 1) 0).toNat →
      exec (.mgmtRaiseMinVersion k v) s = .next s) ∧
    (∀ nonce, exec (.mgmtEvidenceRequest nonce) s =
      .next { s with pkg := { s.pkg with evidence := s.pkg.evidence ++ [s.evidence nonce] } }) ∧
    (∀ o : Int, s.Inv → ∃ s' : State, exec (.ptpMessage o) s = .next s' ∧ s'.pkg.lastPtp = s.time.toNat ∧ s'.stepIs 9 = true ∧
      (s.stepIs 9 = true ∨ o ≤ 0 → s'.mem = s.mem ∧ s'.pkg.slew = o ∧ s'.time = s.time ∧ s'.ptpState = 2 ∧
        s'.ptpOffset = BitVec.ofInt 32 (max (-(2 ^ 31)) (min (2 ^ 31 - 1) o)) ∧
        s'.pkg.rate ≤ 500000 ∧ -500000 ≤ s'.pkg.rate) ∧
      (s.stepIs 9 = false → s.ptpState ≤ 1 → 0 < o → s'.time = s.time + w64 o.toNat ∧ s'.pkg.slew = 0 ∧
        (s.fleets = [] → s'.mem = s.mem ∧ s'.ptpState = 2))) ∧
    (s.ptpState ≠ 0 → s.pkg.lastPtp + 10000000000 ≤ s.time.toNat → s.Inv →
      ∃ s' : State, exec .ptpGrandmasterLoss s = .next s' ∧ s'.ptpState = 0 ∧ s'.mem = s.mem)
end

