-- ==== Sys2Proof/Laws/Arith.lean ====
section
/-! SUPPORT. Integer arithmetic of the model in the terms of bit vectors: sign extension, signed values, clamped results. -/

namespace Sys2Proof.Machine

theorem toInt_ofNat_eq {n v : Nat} (h0 : 0 < n) : (BitVec.ofNat n v).toInt =
    if 2 ^ (n - 1) ≤ v % 2 ^ n then ((v % 2 ^ n : Nat) : Int) - (2 ^ n : Nat) else (v % 2 ^ n : Nat) := by
  have hp : 2 ^ n = 2 * 2 ^ (n - 1) := by rw [← Nat.pow_succ']; congr 1; omega
  rw [BitVec.toInt_eq_toNat_cond, BitVec.toNat_ofNat]
  split <;> split <;> first | rfl | omega

/-- The extended number as an integer. -/
theorem sext_toInt {n v : Nat} (h0 : 0 < n) (hn : n ≤ 64) : (sext n v).toInt = (BitVec.ofNat n v).toInt := by
  have hp : 2 ^ n = 2 * 2 ^ (n - 1) := by rw [← Nat.pow_succ']; congr 1; omega
  have hle : 2 ^ (n - 1) ≤ 2 ^ 63 := Nat.pow_le_pow_right (by decide) (by omega)
  have hlt : v % 2 ^ n < 2 ^ n := Nat.mod_lt _ (Nat.pos_of_ne_zero (by simp))
  rw [toInt_ofNat_eq h0]
  unfold sext
  simp only [ne_eq, Bool.and_eq_true, decide_eq_true_eq, Nat.pos_iff_ne_zero.mp h0, not_false_eq_true, true_and]
  split
  · rw [BitVec.toInt_ofInt]
    apply Int.bmod_eq_of_le <;> omega
  · rw [BitVec.toInt_eq_toNat_cond, BitVec.toNat_ofNat]
    rw [Nat.mod_eq_of_lt (by omega : v % 2 ^ n < 2 ^ 64), if_pos (by omega)]

theorem sext_64 (v : Nat) : sext 64 v = BitVec.ofNat 64 v := BitVec.eq_of_toInt_eq (sext_toInt (by decide) (by decide))

theorem sext_32 (v : Nat) : sext 32 v = (BitVec.ofNat 32 v).signExtend 64 := by
  apply BitVec.eq_of_toInt_eq
  rw [sext_toInt (by decide) (by decide), BitVec.toInt_signExtend_of_le (by decide)]

/-- The signed value of a word. -/
theorem toSigned_8 (v : Word) : toSigned 8 v.toNat = v.toInt := by
  have := v.isLt
  unfold toSigned
  rw [BitVec.toInt_eq_toNat_cond]
  simp only
  rw [Nat.mod_eq_of_lt (by simpa using this)]
  split <;> split <;> first | rfl | omega

/-- The signed value of its low half. -/
theorem toSigned_4 (v : Word) : toSigned 4 v.toNat = (v.truncate 32 : BitVec 32).toInt := by
  rw [show (v.truncate 32 : BitVec 32) = BitVec.ofNat 32 v.toNat by apply BitVec.eq_of_toNat_eq; simp,
    toInt_ofNat_eq (by decide)]
  rfl

theorem ofNat_emod (z : Int) (n : Nat) : BitVec.ofNat n (z % (2 ^ n : Nat)).toNat = BitVec.ofInt n z := by
  apply BitVec.eq_of_toNat_eq
  rw [BitVec.toNat_ofNat, BitVec.toNat_ofInt]
  apply Nat.mod_eq_of_lt
  have h : (0 : Int) < (2 ^ n : Nat) := by positivity
  have := Int.emod_lt_of_pos z h
  have := Int.emod_nonneg z (Int.ne_of_gt h)
  omega

/-- A bounded integer in 32 bits, extended. -/
theorem signExtend_ofInt (z : Int) (h : -2 ^ 31 ≤ z) (h' : z < 2 ^ 31) :
    (BitVec.ofInt 32 z).signExtend 64 = BitVec.ofInt 64 z := by
  apply BitVec.eq_of_toInt_eq
  rw [BitVec.toInt_signExtend_of_le (by decide), BitVec.toInt_ofInt, BitVec.toInt_ofInt]
  rw [Int.bmod_eq_of_le, Int.bmod_eq_of_le] <;> omega

/-- A clamp by `min` and `max` in either order, with whether it changed the number. -/
theorem clamp_eq {lo hi y : Int} (h : lo ≤ hi) :
    (min (max y lo) hi, decide (min (max y lo) hi ≠ y)) = (max lo (min hi y), decide (y < lo ∨ hi < y)) := by
  rw [decide_eq_decide.2 (show min (max y lo) hi ≠ y ↔ (y < lo ∨ hi < y) by omega),
    show min (max y lo) hi = max lo (min hi y) by omega]

theorem satArith_eq {f : Int → Word} {lo hi y : Int} (h : lo ≤ hi) :
    (f (min (max y lo) hi), decide (min (max y lo) hi ≠ y)) = (f (max lo (min hi y)), decide (y < lo ∨ hi < y)) := by
  have := clamp_eq (y := y) h
  rw [Prod.mk.injEq] at this ⊢
  exact ⟨congrArg f this.1, this.2⟩

/-- The exact sum or difference, clamped to its type (R156). -/
theorem satArith_i64 (sub : Bool) (a b : Word) :
    satArith .i64 sub a b = (let y := if sub then a.toInt - b.toInt else a.toInt + b.toInt
      (BitVec.ofInt 64 (max (-2 ^ 63) (min (2 ^ 63 - 1) y)), decide (y < -2 ^ 63 ∨ 2 ^ 63 - 1 < y))) := by
  simp only [satArith, toSigned_8, if_true, Nat.reduceMul, sext_64, ofNat_emod]
  exact satArith_eq (f := BitVec.ofInt 64) (by decide)

theorem satArith_n64 (sub : Bool) (a b : Word) :
    satArith .n64 sub a b = (let y := if sub then (a.toNat : Int) - b.toNat else a.toNat + b.toNat
      (BitVec.ofInt 64 (max 0 (min (2 ^ 64 - 1) y)), decide (y < 0 ∨ 2 ^ 64 - 1 < y))) := by
  have e : ∀ v : Word, (v.toNat % 2 ^ 64 : Nat) = v.toNat := fun v => Nat.mod_eq_of_lt v.isLt
  simp only [satArith, e, Nat.reduceMul, sext_64, ofNat_emod, Bool.false_eq_true, if_false]
  exact satArith_eq (f := BitVec.ofInt 64) (by decide)

theorem satArith_i32 (sub : Bool) (a b : Word) :
    satArith .i32 sub a b = (let x : BitVec 32 := a.truncate 32
      let z : BitVec 32 := b.truncate 32
      let y := if sub then x.toInt - z.toInt else x.toInt + z.toInt
      (BitVec.ofInt 64 (max (-2 ^ 31) (min (2 ^ 31 - 1) y)), decide (y < -2 ^ 31 ∨ 2 ^ 31 - 1 < y))) := by
  simp only [satArith, toSigned_4, if_true, Nat.reduceMul, sext_32, ofNat_emod]
  refine (satArith_eq (f := fun z => (BitVec.ofInt 32 z).signExtend 64) (by decide)).trans ?_
  rw [Prod.mk.injEq]
  exact ⟨signExtend_ofInt _ (by omega) (by omega), rfl⟩

theorem satArith_n32 (sub : Bool) (a b : Word) :
    satArith .n32 sub a b = (let x : BitVec 32 := a.truncate 32
      let z : BitVec 32 := b.truncate 32
      let y := if sub then (x.toNat : Int) - z.toNat else x.toNat + z.toNat
      ((BitVec.ofInt 32 (max 0 (min (2 ^ 32 - 1) y))).signExtend 64, decide (y < 0 ∨ 2 ^ 32 - 1 < y))) := by
  have e : ∀ v : Word, (v.toNat % 2 ^ 32 : Nat) = (v.truncate 32 : BitVec 32).toNat := fun v => by simp
  simp only [satArith, e, Nat.reduceMul, sext_32, ofNat_emod, Bool.false_eq_true, if_false]
  exact satArith_eq (f := fun z => (BitVec.ofInt 32 z).signExtend 64) (by decide)

theorem clampTo_eq (lo hi : Int) (v : Word) (h : lo ≤ hi) :
    clampTo lo hi v = (BitVec.ofInt 64 (max lo (min hi v.toInt)), decide (v.toInt < lo ∨ hi < v.toInt)) :=
  satArith_eq (f := BitVec.ofInt 64) h

/-- The clamp of a dot form (R157). -/
theorem dotClamp_eq (y : Int) :
    (BitVec.ofInt 64 (min (max y (-(2 ^ 31 : Nat))) ((2 ^ 31 : Nat) - 1)),
      decide (min (max y (-(2 ^ 31 : Nat))) ((2 ^ 31 : Nat) - 1) ≠ y)) =
    ((BitVec.ofInt 64 (max (-2 ^ 31) (min (2 ^ 31 - 1) y)) : Word), decide (y < -2 ^ 31 ∨ 2 ^ 31 - 1 < y)) :=
  satArith_eq (f := BitVec.ofInt 64) (by decide)

/-- Rounding to nearest, ties to even: within half a unit, and even where it is a tie. -/
theorem rshRound_nearest (neg : Bool) (m sh : Nat) :
    let q := (rshRound 0 neg m sh).1
    2 * (q * 2 ^ sh) ≤ 2 * m + 2 ^ sh ∧ 2 * m ≤ 2 * (q * 2 ^ sh) + 2 ^ sh ∧
    (sh ≠ 0 → (2 * (q * 2 ^ sh) = 2 * m + 2 ^ sh ∨ 2 * m = 2 * (q * 2 ^ sh) + 2 ^ sh) → q % 2 = 0) := by
  unfold rshRound
  simp only
  by_cases hs : sh ≤ Nat.log2 m + 3
  · rw [Nat.min_eq_left hs]
    have hd := Nat.div_add_mod m (2 ^ sh)
    have hm := Nat.mod_lt m (show 0 < 2 ^ sh by positivity)
    rw [Nat.mul_comm] at hd
    have he : sh ≠ 0 → 2 ^ sh = 2 * 2 ^ (sh - 1) := by intro h; rw [← Nat.pow_succ']; congr 1; omega
    have hz : sh = 0 → 2 ^ sh = 1 := by intro h; rw [h]; rfl
    generalize 2 ^ sh = p at *
    generalize m / p = q at *
    generalize m % p = r at *
    have t1 : b2n true = 1 := rfl
    have t0 : b2n false = 0 := rfl
    split
    · dsimp only
      refine ⟨by omega, by omega, fun h => ?_⟩
      omega
    · have e : (q + 1) * p = q * p + p := Nat.succ_mul q p
      by_cases hu : (decide (p < 2 * r) || decide (2 * r = p) && decide (q % 2 = 1)) = true
      · simp only [hu, t1, e]
        simp only [Bool.or_eq_true, Bool.and_eq_true, decide_eq_true_eq] at hu
        refine ⟨by omega, by omega, fun h => ?_⟩
        omega
      · rw [Bool.not_eq_true] at hu
        simp only [hu, t0, Nat.add_zero]
        rw [← Bool.not_eq_true] at hu
        simp only [Bool.or_eq_true, Bool.and_eq_true, decide_eq_true_eq] at hu
        refine ⟨by omega, by omega, fun h => ?_⟩
        omega
  · rw [Nat.min_eq_right (by omega)]
    have hlt : m < 2 ^ (Nat.log2 m + 1) := Nat.lt_log2_self
    have h8 : 2 ^ (Nat.log2 m + 3) = 4 * 2 ^ (Nat.log2 m + 1) := by rw [show Nat.log2 m + 3 = (Nat.log2 m + 1) + 2 by omega, Nat.pow_add]; omega
    have hle : 2 ^ (Nat.log2 m + 3) ≤ 2 ^ sh := Nat.pow_le_pow_right (by decide) (by omega)
    rw [Nat.div_eq_of_lt (by omega), Nat.mod_eq_of_lt (by omega)]
    have hu : (decide (2 ^ (Nat.log2 m + 3) < 2 * m) || decide (2 * m = 2 ^ (Nat.log2 m + 3)) && decide (0 % 2 = 1)) = false := by
      simp; omega
    split
    · simp; omega
    · simp only [hu, show b2n false = 0 from rfl, Nat.add_zero, Nat.zero_mul, Nat.mul_zero]; omega

end Sys2Proof.Machine
end

