-- ==== Sys2Proof/Laws/Decode.lean ====
section
/-! SUPPORT. Decoding: fields of a packed word, and the decoder on the parcels of a word of each length. -/

namespace Sys2Proof

/-- The fields of a packed word are those it was packed from. -/
@[simp] theorem RWord.split_pack (r : RWord) : RWord.split r.pack = r := by
  obtain ⟨f7, b, a, f3, d, op⟩ := r
  simp only [RWord.split, RWord.pack, RWord.mk.injEq]
  and_intros <;>
  · apply BitVec.eq_of_getLsbD_eq
    intro i hi
    simp only [BitVec.getLsbD_extractLsb', BitVec.getLsbD_append]
    grind

/-- The same of the wide layout. -/
@[simp] theorem WWord.split_pack (r : WWord) : WWord.split r.pack = r := by
  obtain ⟨f6, cf, fc, c, b, a, cls, d, op⟩ := r
  simp only [WWord.split, WWord.pack, WWord.mk.injEq]
  and_intros <;>
  · apply BitVec.eq_of_getLsbD_eq
    intro i hi
    simp only [BitVec.getLsbD_extractLsb', BitVec.getLsbD_append]
    grind

theorem join32 (w : BitVec 32) : w.extractLsb' 16 16 ++ w.extractLsb' 0 16 = w := by
  apply BitVec.eq_of_getLsbD_eq
  intro i hi
  simp only [BitVec.getLsbD_extractLsb', BitVec.getLsbD_append]
  grind

theorem join48 (w : BitVec 48) : w.extractLsb' 32 16 ++ (w.extractLsb' 16 16 ++ w.extractLsb' 0 16) = w := by
  apply BitVec.eq_of_getLsbD_eq
  intro i hi
  simp only [BitVec.getLsbD_extractLsb', BitVec.getLsbD_append]
  grind

theorem join64 (w : BitVec 64) :
    w.extractLsb' 48 16 ++ (w.extractLsb' 32 16 ++ (w.extractLsb' 16 16 ++ w.extractLsb' 0 16)) = w := by
  apply BitVec.eq_of_getLsbD_eq
  intro i hi
  simp only [BitVec.getLsbD_extractLsb', BitVec.getLsbD_append]
  grind

/-- A 32-bit word decodes by its fields. -/
theorem decode_pack32 (r : RWord) (h : r.op.extractLsb' 0 2 = 3) (h' : r.op.extractLsb' 2 3 ≠ 7) :
    decode [r.pack.extractLsb' 0 16, r.pack.extractLsb' 16 16] = decodeR r := by
  have e1 : (r.pack.extractLsb' 0 16).extractLsb' 0 2 = r.op.extractLsb' 0 2 := by
    apply BitVec.eq_of_getLsbD_eq
    intro i hi
    simp only [RWord.pack, BitVec.getLsbD_extractLsb', BitVec.getLsbD_append]
    grind
  have e2 : (r.pack.extractLsb' 0 16).extractLsb' 2 3 = r.op.extractLsb' 2 3 := by
    apply BitVec.eq_of_getLsbD_eq
    intro i hi
    simp only [RWord.pack, BitVec.getLsbD_extractLsb', BitVec.getLsbD_append]
    grind
  have e : parcelLen (r.pack.extractLsb' 0 16) = 4 := by
    unfold parcelLen
    rw [e1, e2, if_neg (by simpa using h), if_pos h']
  simp only [decode, List.getD_cons_zero, List.getD_cons_succ, e, decode32]
  rw [join32, RWord.split_pack]

/-- A word of the literal form decodes by its fields. -/
theorem decode_pack48 (w : BitVec 48) (h : w.extractLsb' 0 7 = 0x1f) :
    decode [w.extractLsb' 0 16, w.extractLsb' 16 16, w.extractLsb' 32 16] = decode48 w := by
  have hb : ∀ i, i < 7 → w.getLsbD i = (0x1f#7).getLsbD i := by
    intro i hi
    have := congrArg (fun v => BitVec.getLsbD v i) h
    simpa [BitVec.getLsbD_extractLsb', hi] using this
  have e1 : (w.extractLsb' 0 16).extractLsb' 0 2 = 3 := by
    apply BitVec.eq_of_getLsbD_eq
    intro i hi
    simp only [BitVec.getLsbD_extractLsb']
    have := hb i (by omega)
    match i, hi with
    | 0, _ => simpa using this
    | 1, _ => simpa using this
  have e2 : (w.extractLsb' 0 16).extractLsb' 2 3 = 7 := by
    apply BitVec.eq_of_getLsbD_eq
    intro i hi
    simp only [BitVec.getLsbD_extractLsb']
    have := hb (2 + i) (by omega)
    match i, hi with
    | 0, _ => simpa using this
    | 1, _ => simpa using this
    | 2, _ => simpa using this
  have e3 : (w.extractLsb' 0 16).extractLsb' 5 1 = 0 := by
    apply BitVec.eq_of_getLsbD_eq
    intro i hi
    simp only [BitVec.getLsbD_extractLsb']
    have := hb (5 + i) (by omega)
    match i, hi with
    | 0, _ => simpa using this
  have e : parcelLen (w.extractLsb' 0 16) = 6 := by
    unfold parcelLen
    rw [e1, e2, e3]
    rfl
  simp only [decode, List.getD_cons_zero, List.getD_cons_succ, e]
  rw [join48]

/-- A word of the wide form decodes by its fields. -/
theorem decode_pack64 (r : WWord) (h : r.op = 0x3f) :
    decode [r.pack.extractLsb' 0 16, r.pack.extractLsb' 16 16, r.pack.extractLsb' 32 16, r.pack.extractLsb' 48 16]
      = decodeW r := by
  have hb : ∀ i, i < 7 → r.pack.getLsbD i = (0x3f#7).getLsbD i := by
    intro i hi
    have e : r.pack.getLsbD i = r.op.getLsbD i := by
      simp only [WWord.pack, BitVec.getLsbD_append, hi, if_true]
    rw [e, h]
    rfl
  have e1 : (r.pack.extractLsb' 0 16).extractLsb' 0 2 = 3 := by
    apply BitVec.eq_of_getLsbD_eq
    intro i hi
    simp only [BitVec.getLsbD_extractLsb']
    have := hb i (by omega)
    match i, hi with
    | 0, _ => simpa using this
    | 1, _ => simpa using this
  have e2 : (r.pack.extractLsb' 0 16).extractLsb' 2 3 = 7 := by
    apply BitVec.eq_of_getLsbD_eq
    intro i hi
    simp only [BitVec.getLsbD_extractLsb']
    have := hb (2 + i) (by omega)
    match i, hi with
    | 0, _ => simpa using this
    | 1, _ => simpa using this
    | 2, _ => simpa using this
  have e3 : (r.pack.extractLsb' 0 16).extractLsb' 5 1 = 1 := by
    apply BitVec.eq_of_getLsbD_eq
    intro i hi
    simp only [BitVec.getLsbD_extractLsb']
    have := hb (5 + i) (by omega)
    match i, hi with
    | 0, _ => simpa using this
  have e4 : (r.pack.extractLsb' 0 16).extractLsb' 6 1 = 0 := by
    apply BitVec.eq_of_getLsbD_eq
    intro i hi
    simp only [BitVec.getLsbD_extractLsb']
    have := hb (6 + i) (by omega)
    match i, hi with
    | 0, _ => simpa using this
  have e : parcelLen (r.pack.extractLsb' 0 16) = 8 := by
    unfold parcelLen
    rw [e1, e2, e3, e4]
    rfl
  simp only [decode, List.getD_cons_zero, List.getD_cons_succ, e, decode64]
  rw [join64, WWord.split_pack]

/-- An instruction with a 32-bit word decodes by the fields of that word. -/
theorem decode_encode32 {i : Instr} {r : RWord} (hc : ∀ n, i ≠ .standardAlu (.cmop n)) (h : encode32 i = some r)
    (h1 : r.op.extractLsb' 0 2 = 3) (h2 : r.op.extractLsb' 2 3 ≠ 7) : decode (encode i) = decodeR r := by
  have e : encode i = [r.pack.extractLsb' 0 16, r.pack.extractLsb' 16 16] := by
    unfold encode
    split
    · exact absurd rfl (hc _)
    · rw [h]
  rw [e, decode_pack32 r h1 h2]

/-- An instruction of the literal form decodes by its word. -/
theorem decode_encode48 {i : Instr} {w : BitVec 48} (hc : ∀ n, i ≠ .standardAlu (.cmop n)) (h0 : encode32 i = none)
    (h : encode48 i = some w) (h1 : w.extractLsb' 0 7 = 0x1f) : decode (encode i) = decode48 w := by
  have e : encode i = [w.extractLsb' 0 16, w.extractLsb' 16 16, w.extractLsb' 32 16] := by
    unfold encode
    split
    · exact absurd rfl (hc _)
    · rw [h0, h]
  rw [e, decode_pack48 w h1]

/-- An instruction of the wide form decodes by the fields of its word. -/
theorem decode_encode64 {i : Instr} {r : WWord} (hc : ∀ n, i ≠ .standardAlu (.cmop n)) (h0 : encode32 i = none)
    (h1 : encode48 i = none) (h : encode64 i = some r) (ho : r.op = 0x3f) : decode (encode i) = decodeW r := by
  have e : encode i = [r.pack.extractLsb' 0 16, r.pack.extractLsb' 16 16, r.pack.extractLsb' 32 16,
      r.pack.extractLsb' 48 16] := by
    unfold encode
    split
    · exact absurd rfl (hc _)
    · rw [h0, h1, h]
  rw [e, decode_pack64 r ho]

end Sys2Proof
end

