-- ==== Sys2Proof/Laws/Storage.lean ====
section
/-! SUPPORT. Storage: a read after a write, and every operation keeps the canonical form. -/

namespace Sys2Proof.Machine

theorem swfFrom_le {w : Nat} {m : Sparse w} {lo lo' : Nat} (h : swfFrom m lo = true) (hl : lo' ≤ lo) :
    swfFrom m lo' = true := by
  cases m with
  | nil => rfl
  | cons e t => obtain ⟨k, v⟩ := e; simp [swfFrom] at h ⊢; exact ⟨⟨by omega, h.1.2⟩, h.2⟩

/-- Below the first key nothing is listed. -/
theorem sget_below {w : Nat} {m : Sparse w} {lo k : Nat} (h : swfFrom m lo = true) (hk : k < lo) : sget m k = 0 := by
  cases m with
  | nil => rfl
  | cons e t =>
    obtain ⟨k', v⟩ := e
    simp only [swfFrom, Bool.and_eq_true, decide_eq_true_eq] at h
    simp only [sget]
    rw [if_neg (by omega), if_pos (by omega)]

theorem sset_from {w : Nat} {m : Sparse w} {lo k : Nat} {v : BitVec w} (h : swfFrom m lo = true) (hk : lo ≤ k) :
    swfFrom (sset m k v) lo = true := by
  induction m generalizing lo with
  | nil => simp only [sset]; split <;> simp_all [swfFrom]
  | cons e t ih =>
    obtain ⟨k', v'⟩ := e
    simp only [swfFrom, Bool.and_eq_true, decide_eq_true_eq, ne_eq] at h
    simp only [sset]
    split
    · split
      · simp only [swfFrom, Bool.and_eq_true, decide_eq_true_eq]; exact h
      · simp only [swfFrom, Bool.and_eq_true, decide_eq_true_eq]
        exact ⟨⟨hk, by assumption⟩, ⟨by omega, h.1.2⟩, h.2⟩
    · split
      · split
        · exact swfFrom_le h.2 (by omega)
        · simp only [swfFrom, Bool.and_eq_true, decide_eq_true_eq]
          refine ⟨⟨hk, by assumption⟩, ?_⟩
          have : k = k' := by assumption
          rw [this]; exact h.2
      · simp only [swfFrom, Bool.and_eq_true, decide_eq_true_eq]
        exact ⟨h.1, ih h.2 (by omega)⟩

/-- A write keeps the canonical form. -/
@[simp] theorem sset_swf {w : Nat} {m : Sparse w} {k : Nat} {v : BitVec w} (h : swf m = true) : swf (sset m k v) = true :=
  sset_from h (Nat.zero_le _)

theorem sget_sset_from {w : Nat} {m : Sparse w} {lo k n : Nat} {v : BitVec w} (h : swfFrom m lo = true) :
    sget (sset m k v) n = if n = k then v else sget m n := by
  induction m generalizing lo with
  | nil =>
    by_cases hv : v = 0
    · simp [sset, hv, sget]
    · simp only [sset, hv, if_false, sget]
      split
      · rfl
      · split <;> rfl
  | cons e t ih =>
    obtain ⟨k', v'⟩ := e
    simp only [swfFrom, Bool.and_eq_true, decide_eq_true_eq, ne_eq] at h
    simp only [sset]
    split
    · rename_i hlt
      split
      · rename_i hv
        split
        · rename_i hn; subst hn; simp only [sget]; rw [if_neg (by omega), if_pos hlt, hv]
        · rfl
      · simp only [sget]
        split
        · rfl
        · split
          · rw [if_neg (by omega), if_pos (by omega)]
          · rfl
    · rename_i hge
      split
      · rename_i he; subst he
        split
        · rename_i hv
          by_cases hn : n = k
          · subst hn; rw [if_pos rfl, hv]; exact sget_below h.2 (by omega)
          · rw [if_neg hn]
            simp only [sget]
            rw [if_neg hn]
            split
            · exact sget_below h.2 (by omega)
            · rfl
        · simp only [sget]; split <;> rfl
      · rename_i hne
        simp only [sget, ih h.2]
        by_cases hn : n = k'
        · subst hn; rw [if_pos rfl, if_neg (by omega), if_pos rfl]
        · rw [if_neg hn, if_neg hn]
          by_cases hl : n < k'
          · rw [if_pos hl, if_pos hl, if_neg (by omega)]
          · rw [if_neg hl, if_neg hl]

/-- A read after a write. -/
theorem sget_sset {w : Nat} {m : Sparse w} {k n : Nat} {v : BitVec w} (h : swf m = true) :
    sget (sset m k v) n = if n = k then v else sget m n := sget_sset_from h

theorem sget_sset_same {w : Nat} {m : Sparse w} {k : Nat} {v : BitVec w} (h : swf m = true) : sget (sset m k v) k = v := by
  rw [sget_sset h, if_pos rfl]

theorem sget_sset_ne_from {w : Nat} {m : Sparse w} {k n : Nat} {v : BitVec w} {lo : Nat} (h : swfFrom m lo = true)
    (hn : n ≠ k) : sget (sset m k v) n = sget m n := by
  rw [sget_sset_from h, if_neg hn]

theorem sget_sset_ne {w : Nat} {m : Sparse w} {k n : Nat} {v : BitVec w} (h : swf m = true) (hn : n ≠ k) :
    sget (sset m k v) n = sget m n := by
  rw [sget_sset h, if_neg hn]

theorem filter_from {w : Nat} {m : Sparse w} {lo : Nat} (p : Nat × BitVec w → Bool) (h : swfFrom m lo = true) :
    swfFrom (m.filter p) lo = true := by
  induction m generalizing lo with
  | nil => rfl
  | cons e t ih =>
    obtain ⟨k, v⟩ := e
    simp only [swfFrom, Bool.and_eq_true, decide_eq_true_eq] at h
    rw [List.filter_cons]
    split
    · simp only [swfFrom, Bool.and_eq_true, decide_eq_true_eq]; exact ⟨h.1, ih h.2⟩
    · exact swfFrom_le (ih h.2) (by omega)

/-- Dropping entries keeps the canonical form. -/
@[simp] theorem filter_swf {w : Nat} {m : Sparse w} (p : Nat × BitVec w → Bool) (h : swf m = true) : swf (m.filter p) = true :=
  filter_from p h

@[simp] theorem sclear_swf {w : Nat} {m : Sparse w} {lo n : Nat} (h : swf m = true) : swf (sclear m lo n) = true :=
  filter_from _ h

@[simp] theorem bytesSet_swf {m : Sparse 8} {a v n : Nat} (h : swf m = true) : swf (bytesSet m a v n) = true := by
  induction n generalizing a v with
  | zero => exact h
  | succ n ih => exact sset_swf (ih)

@[simp] theorem byteListSet_swf {m : Sparse 8} {a : Nat} {l : List Byte} (h : swf m = true) :
    swf (byteListSet m a l) = true := by
  induction l generalizing a m with
  | nil => exact h
  | cons b t ih => exact ih (sset_swf h)

@[simp] theorem nil_swf {w : Nat} : swf ([] : Sparse w) = true := rfl

/-- What a write of bytes leaves at an address. -/
theorem sget_byteListSet {m : Sparse 8} {a : Nat} {l : List Byte} (h : swf m = true) (x : Nat) :
    sget (byteListSet m a l) x = if a ≤ x ∧ x < a + l.length then l.getD (x - a) 0 else sget m x := by
  induction l generalizing a m with
  | nil => rw [byteListSet, if_neg]; simp
  | cons b t ih =>
    rw [byteListSet, ih (sset_swf h), sget_sset h]
    simp only [List.length_cons]
    by_cases h1 : x = a
    · subst h1; rw [if_neg (by omega), if_pos rfl, if_pos (by omega)]; simp
    · rw [if_neg h1]
      by_cases h2 : a + 1 ≤ x ∧ x < a + 1 + t.length
      · rw [if_pos h2, if_pos (by omega)]
        have : x - a = (x - (a + 1)) + 1 := by omega
        rw [this]; rfl
      · rw [if_neg h2, if_neg (by omega)]

@[simp] theorem toBytes_length (v n : Nat) : (toBytes v n).length = n := by
  induction n generalizing v with
  | zero => rfl
  | succ n ih => simp [toBytes, ih]

theorem toBytes_getD (v n i : Nat) (h : i < n) : (toBytes v n).getD i 0 = BitVec.ofNat 8 (v / 256 ^ i) := by
  induction n generalizing v i with
  | zero => omega
  | succ n ih =>
    cases i with
    | zero => simp [toBytes]
    | succ i =>
      have := ih (v / 256) i (by omega)
      simp only [toBytes, List.getD_cons_succ]
      rw [this, Nat.div_div_eq_div_mul]
      congr 2
      rw [Nat.pow_succ, Nat.mul_comm]

/-- What a write of a number leaves at an address, lowest byte first. -/
theorem sget_bytesSet {m : Sparse 8} {a v n : Nat} (h : swf m = true) (x : Nat) :
    sget (bytesSet m a v n) x = if a ≤ x ∧ x < a + n then BitVec.ofNat 8 (v / 256 ^ (x - a)) else sget m x := by
  induction n generalizing a v with
  | zero => rw [bytesSet, if_neg]; omega
  | succ n ih =>
    rw [bytesSet, sget_sset (bytesSet_swf h), ih]
    by_cases h1 : x = a
    · subst h1; rw [if_pos rfl, if_pos (by omega)]; simp
    · rw [if_neg h1]
      by_cases h2 : a + 1 ≤ x ∧ x < a + 1 + n
      · rw [if_pos h2, if_pos (by omega)]
        have : x - a = (x - (a + 1)) + 1 := by omega
        rw [this, Nat.pow_succ, Nat.div_div_eq_div_mul, Nat.mul_comm]
      · rw [if_neg h2, if_neg (by omega)]

/-- Reading bytes back where none was written between. -/
theorem bytesGet_congr {m m' : Sparse 8} {a n : Nat} (h : ∀ x, a ≤ x → x < a + n → sget m' x = sget m x) :
    bytesGet m' a n = bytesGet m a n := by
  induction n generalizing a with
  | zero => rfl
  | succ n ih =>
    rw [bytesGet, bytesGet, h a (by omega) (by omega), ih]
    intro x h1 h2; exact h x (by omega) (by omega)

/-- Writing zero where zero stands changes nothing. -/
theorem sset_zero_below {w : Nat} {m : Sparse w} {lo k : Nat} (h : swfFrom m lo = true) (hk : k < lo) :
    sset m k 0 = m := by
  cases m with
  | nil => simp [sset]
  | cons e t =>
    obtain ⟨k', v⟩ := e
    simp only [swfFrom, Bool.and_eq_true, decide_eq_true_eq] at h
    simp only [sset]
    rw [if_pos (by omega)]; simp

/-- Two storages in canonical form that read alike are the same data. -/
theorem swf_ext_from {w : Nat} {m m' : Sparse w} {lo : Nat} (h : swfFrom m lo = true) (h' : swfFrom m' lo = true)
    (e : ∀ k, sget m k = sget m' k) : m = m' := by
  induction m generalizing lo m' with
  | nil =>
    cases m' with
    | nil => rfl
    | cons x t =>
      obtain ⟨k, v⟩ := x
      simp only [swfFrom, Bool.and_eq_true, decide_eq_true_eq] at h'
      have := e k
      simp only [sget, if_true] at this
      exact absurd this.symm h'.1.2
  | cons x t ih =>
    obtain ⟨k, v⟩ := x
    simp only [swfFrom, Bool.and_eq_true, decide_eq_true_eq] at h
    cases m' with
    | nil =>
      have := e k
      simp only [sget, if_true] at this
      exact absurd this h.1.2
    | cons x' t' =>
      obtain ⟨k', v'⟩ := x'
      simp only [swfFrom, Bool.and_eq_true, decide_eq_true_eq] at h'
      have hkk : k = k' := by
        rcases Nat.lt_trichotomy k k' with hl | hl | hl
        · have := e k; simp only [sget, if_true] at this
          rw [if_neg (by omega), if_pos hl] at this; exact absurd this h.1.2
        · exact hl
        · have := e k'; simp only [sget, if_true] at this
          rw [if_neg (by omega), if_pos hl] at this; exact absurd this.symm h'.1.2
      subst hkk
      have hv : v = v' := by have := e k; simpa [sget] using this
      subst hv
      congr 1
      refine ih h.2 h'.2 fun n => ?_
      by_cases hn : n < k + 1
      · rw [sget_below h.2 hn, sget_below h'.2 hn]
      · have := e n
        simp only [sget] at this
        rwa [if_neg (by omega), if_neg (by omega), if_neg (by omega), if_neg (by omega)] at this

/-- Storage is determined by what it reads as. -/
theorem swf_ext {w : Nat} {m m' : Sparse w} (h : swf m = true) (h' : swf m' = true) (e : ∀ k, sget m k = sget m' k) :
    m = m' := swf_ext_from h h' e

/-- A write that changes nothing. -/
theorem sset_same {w : Nat} {m : Sparse w} {k : Nat} (h : swf m = true) : sset m k (sget m k) = m :=
  swf_ext (sset_swf h) h fun n => by
    rw [sget_sset h]; split
    · subst n; rfl
    · rfl

/-- Writes to different keys commute. -/
theorem sset_comm {w : Nat} {m : Sparse w} {a b : Nat} {u v : BitVec w} (h : swf m = true) (hne : a ≠ b) :
    sset (sset m a u) b v = sset (sset m b v) a u :=
  swf_ext (sset_swf (sset_swf h)) (sset_swf (sset_swf h)) fun n => by
    rw [sget_sset (sset_swf h), sget_sset h, sget_sset (sset_swf h), sget_sset h]
    by_cases h1 : n = a <;> by_cases h2 : n = b <;> simp_all

/-! ### Lists with keys -/

theorem kfind_kmod {α : Type} {key : α → Nat} {l : List α} {k n : Nat} {f : α → α} (hf : ∀ x, key (f x) = key x) :
    kfind key (kmod key l k f) n = (kfind key l n).map fun x => if n = k then f x else x := by
  induction l with
  | nil => rfl
  | cons x t ih =>
    simp only [kfind, kmod, List.map_cons, List.find?_cons] at ih ⊢
    by_cases hx : key x = k
    · rw [if_pos hx]
      rw [hf x]
      by_cases hn : key x = n
      · have hnk : n = k := by omega
        simp [hn, hnk]
      · simp only [hn, decide_false]; exact ih
    · rw [if_neg hx]
      by_cases hn : key x = n
      · have hnk : n ≠ k := by omega
        simp [hn, hnk]
      · simp only [hn, decide_false]; exact ih

theorem kfind_some {α : Type} {key : α → Nat} {l : List α} {k : Nat} {x : α} (h : kfind key l k = some x) :
    key x = k ∧ x ∈ l := by
  have := List.find?_some h
  exact ⟨by simpa using this, List.mem_of_find?_eq_some h⟩

theorem mem_kmod {α : Type} {key : α → Nat} {l : List α} {k : Nat} {f : α → α} {y : α} (h : y ∈ kmod key l k f) :
    ∃ x ∈ l, y = x ∨ (key x = k ∧ y = f x) := by
  simp only [kmod, List.mem_map] at h
  obtain ⟨x, hx, rfl⟩ := h
  refine ⟨x, hx, ?_⟩
  split
  · exact .inr ⟨by assumption, rfl⟩
  · exact .inl rfl

theorem mem_kput {α : Type} {key : α → Nat} {l : List α} {x y : α} (h : y ∈ kput key l x) : y = x ∨ y ∈ l := by
  induction l with
  | nil => simp [kput] at h; exact .inl h
  | cons z t ih =>
    simp only [kput] at h
    split at h
    · simpa using h
    · split at h
      · rcases List.mem_cons.1 h with h | h
        · exact .inl h
        · exact .inr (List.mem_cons_of_mem _ h)
      · rcases List.mem_cons.1 h with h | h
        · exact .inr (h ▸ List.mem_cons_self ..)
        · rcases ih h with h | h
          · exact .inl h
          · exact .inr (List.mem_cons_of_mem _ h)

theorem mem_kdel {α : Type} {key : α → Nat} {l : List α} {k : Nat} {y : α} (h : y ∈ kdel key l k) : y ∈ l :=
  (List.mem_filter.1 h).1

@[simp] theorem lmod_length {α : Type} (l : List α) (i : Nat) (f : α → α) : (lmod l i f).length = l.length := by
  induction l generalizing i with
  | nil => rfl
  | cons x t ih => cases i <;> simp [lmod, ih]

theorem mem_lmod {α : Type} {l : List α} {i : Nat} {f : α → α} {y : α} (h : y ∈ lmod l i f) : ∃ x ∈ l, y = x ∨ y = f x := by
  induction l generalizing i with
  | nil => simp [lmod] at h
  | cons x t ih =>
    cases i with
    | zero =>
      rcases List.mem_cons.1 h with h | h
      · exact ⟨x, List.mem_cons_self .., .inr h⟩
      · exact ⟨y, List.mem_cons_of_mem _ h, .inl rfl⟩
    | succ i =>
      rcases List.mem_cons.1 h with h | h
      · exact ⟨x, List.mem_cons_self .., .inl h⟩
      · obtain ⟨z, hz, h⟩ := ih h
        exact ⟨z, List.mem_cons_of_mem _ hz, h⟩

theorem lmod_getD {α : Type} (l : List α) (i j : Nat) (f : α → α) (d : α) :
    (lmod l i f).getD j d = if i = j ∧ j < l.length then f (l.getD j d) else l.getD j d := by
  induction l generalizing i j with
  | nil => simp [lmod]
  | cons x t ih =>
    cases i <;> cases j <;> simp [lmod]
    rw [← List.getD_eq_getElem?_getD, ih]; simp [List.getD_eq_getElem?_getD]

@[simp] theorem upto_length (a n : Nat) : (upto a n).length = n := by
  induction n generalizing a with
  | zero => rfl
  | succ n ih => simp [upto, ih]

theorem mem_upto {a n x : Nat} : x ∈ upto a n ↔ a ≤ x ∧ x < a + n := by
  induction n generalizing a with
  | zero => simp [upto]
  | succ n ih => simp [upto, ih]; omega

end Sys2Proof.Machine
end

