-- ==== Sys2Proof/Laws/Invariant.lean ====
section
/-! SUPPORT. The invariant of Safety.lean: what it says of each part of the state, how it passes through answers, folds
and pairs, and that the basic updates of State keep it. One law `<operation>_inv` for each operation of the model stands in
InvMemory, InvStrands, InvSystem and InvMatrix. -/

namespace Sys2Proof.Machine

/-- What an answer leaves is sound. -/
def OutInv (o : Out) : Prop := ∀ t, o = .next t → t.Inv

def Res.Inv {α : Type} (r : Res α) : Prop :=
  match r with
  | .ok s _ => s.Inv
  | .trap s _ _ => s.Inv
  | .stall s => s.Inv

def OptInv (o : Option State) : Prop := ∀ t, o = some t → t.Inv
def OptInvL {α : Type} (o : Option (State × α)) : Prop := ∀ p, o = some p → p.1.Inv
def OptInvR {α : Type} (o : Option (α × State)) : Prop := ∀ p, o = some p → p.2.Inv
def PairInvL {α : Type} (p : State × α) : Prop := p.1.Inv
def PairInvR {α : Type} (p : α × State) : Prop := p.2.Inv

variable {s : State}

/-- Only these parts of the state carry the invariant. -/
theorem inv_congr {t : State} (h : s.Inv) (e1 : t.mem = s.mem) (e2 : t.mmio = s.mmio) (e3 : t.pct = s.pct)
    (e4 : t.owners = s.owners) (e5 : t.peerRgn = s.peerRgn) (e6 : t.strands = s.strands) (e7 : t.lcores = s.lcores)
    (e8 : t.crews = s.crews) (e9 : t.fleets = s.fleets) (e10 : t.cores = s.cores) (e11 : t.pods = s.pods)
    (e12 : t.dies = s.dies) (e13 : t.zones = s.zones) : t.Inv := by
  unfold State.Inv State.StorageOk State.ContextsOk State.UnitsOk
  rw [e1, e2, e3, e4, e5, e6, e7, e8, e9, e10, e11, e12, e13]
  exact h

/-- A state written out with the parts of a sound one is sound. -/
theorem inv_same {cur : Agent} {ibits : Word} {ilen : Nat} {accPa : Nat} {accTiers : List Nat} {agenda : List Turn} {draws : Nat} {nextId : Nat} {time : Word} {poison : List Nat} {frames : List Frame} {allocs : List (Nat × Nat)} {ghosts : List (Nat × Nat)} {notices : List Notice} {fwdq : List FwdEntry} {pkg : Pkg} {tlb : List TlbEntry} {ncs : List NcLine} {ibuf : List (Nat × BitVec 16)} {rbuf : List RedEntry} {holds : List Hold} {copies : List Copy} {engine : List EngEntry} {descs : List Desc} {invals : List Inval} {replicas : List Replica} {pats : List PatOld} {hwq : List HwWrite} {lru : List (Nat × Nat)} {cycle : List (Nat × Nat × Nat)} {stalled : Bool} {peerPosts : List PeerPost} {dir : List DirLine} {snoop : List DirLine} {iommus : List Iommu} {dbgq : List DbgAccess} {poolPtr : List Nat} {msis : List (Nat × Nat)} (h : s.Inv) :
    (State.mk cur ibits ilen accPa accTiers agenda draws nextId time s.mem poison s.owners s.pct s.mmio s.strands s.crews s.fleets frames allocs ghosts notices fwdq s.lcores s.cores s.pods s.dies s.zones pkg tlb ncs ibuf rbuf holds copies engine descs invals replicas pats hwq lru cycle stalled peerPosts s.peerRgn dir snoop iommus dbgq poolPtr msis).Inv := h

/-- Context images in canonical form. -/
def StrandsOk (l : List Strand) : Prop := ∀ t ∈ l, swf t.ctx = true
/-- Contexts and CSRs of L-cores in canonical form. -/
def LCoresOk (l : List LCore) : Prop := ∀ x ∈ l, swf x.ctx = true ∧ swf x.csr = true ∧ swf x.vec = true
/-- Stage memory and accumulators in canonical form. -/
def CrewsOk (l : List Crew) : Prop := ∀ x ∈ l, swf x.stage = true ∧ swf x.acc = true
/-- Seeds of fleets in canonical form. -/
def FleetsOk (l : List Fleet) : Prop := ∀ x ∈ l, swf x.seed = true

theorem mem_swf (h : s.Inv) : swf s.mem = true := h.1.1
theorem mmio_swf (h : s.Inv) : swf s.mmio = true := h.1.2.1
theorem pct_swf (h : s.Inv) : swf s.pct = true := h.1.2.2.1
theorem owners_swf (h : s.Inv) : swf s.owners = true := h.1.2.2.2.1
theorem peerRgn_swf (h : s.Inv) : swf s.peerRgn = true := h.1.2.2.2.2
theorem strands_ok (h : s.Inv) : StrandsOk s.strands := h.2.1.1
theorem lcores_ok (h : s.Inv) : LCoresOk s.lcores := h.2.1.2.1
theorem crews_ok (h : s.Inv) : CrewsOk s.crews := h.2.1.2.2.1
theorem fleets_ok (h : s.Inv) : FleetsOk s.fleets := h.2.1.2.2.2
theorem cores_len (h : s.Inv) : s.cores.length = Config.numCores := h.2.2.1
theorem pods_len (h : s.Inv) : s.pods.length = Config.numPods := h.2.2.2.1
theorem dies_len (h : s.Inv) : s.dies.length = 4 := h.2.2.2.2.1
theorem zones_len (h : s.Inv) : s.zones.length = Config.numZones := h.2.2.2.2.2.1
theorem lcores_len (h : s.Inv) : s.lcores.length = Config.numLCores := h.2.2.2.2.2.2

theorem strands_map {l : List Strand} {f : Strand → Strand} (h : StrandsOk l) (hf : ∀ t, swf t.ctx = true → swf (f t).ctx = true) :
    StrandsOk (l.map f) := by
  intro t ht
  obtain ⟨x, hx, rfl⟩ := List.mem_map.1 ht
  exact hf x (h x hx)

theorem strands_filter {l : List Strand} {f : Strand → Bool} (h : StrandsOk l) : StrandsOk (l.filter f) :=
  fun t ht => h t (List.mem_filter.1 ht).1

theorem strands_kput {l : List Strand} {t : Strand} (h : StrandsOk l) (ht : swf t.ctx = true) :
    StrandsOk (kput (·.image) l t) := by
  intro x hx
  rcases mem_kput hx with rfl | hx
  · exact ht
  · exact h x hx

theorem crews_filter {l : List Crew} {f : Crew → Bool} (h : CrewsOk l) : CrewsOk (l.filter f) :=
  fun t ht => h t (List.mem_filter.1 ht).1

theorem crews_kdel {l : List Crew} {k : Nat} (h : CrewsOk l) : CrewsOk (kdel (·.id) l k) :=
  fun _ ht => h _ (mem_kdel ht)

theorem crews_kput {l : List Crew} {c : Crew} (h : CrewsOk l) (hc : swf c.stage = true ∧ swf c.acc = true) :
    CrewsOk (kput (·.id) l c) := by
  intro x hx
  rcases mem_kput hx with rfl | hx
  · exact hc
  · exact h x hx

theorem crews_map {l : List Crew} {f : Crew → Crew} (h : CrewsOk l)
    (hf : ∀ c, swf c.stage = true → swf c.acc = true → swf (f c).stage = true ∧ swf (f c).acc = true) :
    CrewsOk (l.map f) := by
  intro t ht
  obtain ⟨x, hx, rfl⟩ := List.mem_map.1 ht
  exact hf x (h x hx).1 (h x hx).2

theorem fleets_filter {l : List Fleet} {f : Fleet → Bool} (h : FleetsOk l) : FleetsOk (l.filter f) :=
  fun t ht => h t (List.mem_filter.1 ht).1

theorem fleets_erase {l : List Fleet} {f : Fleet} (h : FleetsOk l) : FleetsOk (l.erase f) :=
  fun t ht => h t (List.mem_of_mem_erase ht)

theorem fleets_snoc {l : List Fleet} {f : Fleet} (h : FleetsOk l) (hf : swf f.seed = true) : FleetsOk (l ++ [f]) := by
  intro t ht
  rcases List.mem_append.1 ht with ht | ht
  · exact h t ht
  · rw [List.mem_singleton.1 ht]; exact hf

theorem fleets_cons {l : List Fleet} {f : Fleet} (h : FleetsOk l) (hf : swf f.seed = true) : FleetsOk (f :: l) := by
  intro t ht
  rcases List.mem_cons.1 ht with ht | ht
  · rw [ht]; exact hf
  · exact h t ht

theorem fleets_map {l : List Fleet} {f : Fleet → Fleet} (h : FleetsOk l) (hf : ∀ t, swf t.seed = true → swf (f t).seed = true) :
    FleetsOk (l.map f) := by
  intro t ht
  obtain ⟨x, hx, rfl⟩ := List.mem_map.1 ht
  exact hf x (h x hx)

theorem len_map {α : Type} {l : List α} {f : α → α} {n : Nat} (h : l.length = n) : (l.map f).length = n := by
  rw [List.length_map]; exact h

theorem len_lmod {α : Type} {l : List α} {i : Nat} {f : α → α} {n : Nat} (h : l.length = n) : (lmod l i f).length = n := by
  rw [lmod_length]; exact h

theorem len_zip {α β : Type} {l : List α} {f : α × Nat → β} {a n k : Nat} (h : l.length = k) (hn : k ≤ n) :
    ((List.zip l (upto a n)).map f).length = k := by
  rw [List.length_map, List.length_zip, upto_length]; omega

theorem foldl_strand {β : Type} {f : Strand → β → Strand} {l : List β} {t : Strand} (h : swf t.ctx = true)
    (hf : ∀ t x, swf t.ctx = true → swf (f t x).ctx = true) : swf (l.foldl f t).ctx = true := by
  induction l generalizing t with
  | nil => exact h
  | cons x l ih => exact ih (hf t x h)

theorem foldl_swf {w : Nat} {β : Type} {f : Sparse w → β → Sparse w} {l : List β} {m : Sparse w} (h : swf m = true)
    (hf : ∀ m x, swf m = true → swf (f m x) = true) : swf (l.foldl f m) = true := by
  induction l generalizing m with
  | nil => exact h
  | cons x t ih => exact ih (hf m x h)

/-- A state written out is sound where its parts are. -/
theorem inv_full {cur : Agent} {ibits : Word} {ilen : Nat} {accPa : Nat} {accTiers : List Nat} {agenda : List Turn} {draws : Nat} {nextId : Nat} {time : Word} {mem : Sparse 8} {poison : List Nat} {owners : Sparse 64} {pct : Sparse 8} {mmio : Sparse 64} {strands : List Strand} {crews : List Crew} {fleets : List Fleet} {frames : List Frame} {allocs : List (Nat × Nat)} {ghosts : List (Nat × Nat)} {notices : List Notice} {fwdq : List FwdEntry} {lcores : List LCore} {cores : List CoreState} {pods : List PodState} {dies : List DieState} {zones : List ZoneState} {pkg : Pkg} {tlb : List TlbEntry} {ncs : List NcLine} {ibuf : List (Nat × BitVec 16)} {rbuf : List RedEntry} {holds : List Hold} {copies : List Copy} {engine : List EngEntry} {descs : List Desc} {invals : List Inval} {replicas : List Replica} {pats : List PatOld} {hwq : List HwWrite} {lru : List (Nat × Nat)} {cycle : List (Nat × Nat × Nat)} {stalled : Bool} {peerPosts : List PeerPost} {peerRgn : Sparse 64} {dir : List DirLine} {snoop : List DirLine} {iommus : List Iommu} {dbgq : List DbgAccess} {poolPtr : List Nat} {msis : List (Nat × Nat)}
    (h1 : swf mem = true) (h2 : swf mmio = true) (h3 : swf pct = true) (h4 : swf owners = true) (h5 : swf peerRgn = true)
    (h6 : StrandsOk strands) (h7 : LCoresOk lcores) (h8 : CrewsOk crews) (h9 : FleetsOk fleets)
    (h10 : cores.length = Config.numCores) (h11 : pods.length = Config.numPods) (h12 : dies.length = 4)
    (h13 : zones.length = Config.numZones) (h14 : lcores.length = Config.numLCores) :
    (State.mk cur ibits ilen accPa accTiers agenda draws nextId time mem poison owners pct mmio strands crews fleets frames allocs ghosts notices fwdq lcores cores pods dies zones pkg tlb ncs ibuf rbuf holds copies engine descs invals replicas pats hwq lru cycle stalled peerPosts peerRgn dir snoop iommus dbgq poolPtr msis).Inv :=
  ⟨⟨h1, h2, h3, h4, h5⟩, ⟨h6, h7, h8, h9⟩, h10, h11, h12, h13, h14⟩

/-- The same as an equivalence, for rewriting. -/
theorem inv_mk_iff {cur : Agent} {ibits : Word} {ilen : Nat} {accPa : Nat} {accTiers : List Nat} {agenda : List Turn} {draws : Nat} {nextId : Nat} {time : Word} {mem : Sparse 8} {poison : List Nat} {owners : Sparse 64} {pct : Sparse 8} {mmio : Sparse 64} {strands : List Strand} {crews : List Crew} {fleets : List Fleet} {frames : List Frame} {allocs : List (Nat × Nat)} {ghosts : List (Nat × Nat)} {notices : List Notice} {fwdq : List FwdEntry} {lcores : List LCore} {cores : List CoreState} {pods : List PodState} {dies : List DieState} {zones : List ZoneState} {pkg : Pkg} {tlb : List TlbEntry} {ncs : List NcLine} {ibuf : List (Nat × BitVec 16)} {rbuf : List RedEntry} {holds : List Hold} {copies : List Copy} {engine : List EngEntry} {descs : List Desc} {invals : List Inval} {replicas : List Replica} {pats : List PatOld} {hwq : List HwWrite} {lru : List (Nat × Nat)} {cycle : List (Nat × Nat × Nat)} {stalled : Bool} {peerPosts : List PeerPost} {peerRgn : Sparse 64} {dir : List DirLine} {snoop : List DirLine} {iommus : List Iommu} {dbgq : List DbgAccess} {poolPtr : List Nat} {msis : List (Nat × Nat)} :
    (State.mk cur ibits ilen accPa accTiers agenda draws nextId time mem poison owners pct mmio strands crews fleets frames allocs ghosts notices fwdq lcores cores pods dies zones pkg tlb ncs ibuf rbuf holds copies engine descs invals replicas pats hwq lru cycle stalled peerPosts peerRgn dir snoop iommus dbgq poolPtr msis).Inv ↔ (swf mem = true ∧ swf mmio = true ∧ swf pct = true ∧ swf owners = true ∧ swf peerRgn = true) ∧
      (StrandsOk strands ∧ LCoresOk lcores ∧ CrewsOk crews ∧ FleetsOk fleets) ∧ cores.length = Config.numCores ∧
      pods.length = Config.numPods ∧ dies.length = 4 ∧ zones.length = Config.numZones ∧ lcores.length = Config.numLCores :=
  Iff.rfl

theorem out_next (h : s.Inv) : OutInv (.next s) := by intro t e; cases e; exact h
theorem out_fault (f : Fault) : OutInv (.fault f) := by intro t e; cases e
theorem out_refused (f : Refusal) : OutInv (.refused f) := by intro t e; cases e
theorem res_ok {α : Type} {a : α} (h : s.Inv) : (Res.ok s a).Inv := h
theorem res_trap {α : Type} {c : Nat} {v : Word} (h : s.Inv) : (Res.trap s c v : Res α).Inv := h
theorem res_stall {α : Type} (h : s.Inv) : (Res.stall s : Res α).Inv := h
theorem opt_some (h : s.Inv) : OptInv (some s) := by intro t e; cases e; exact h
theorem opt_none : OptInv none := by intro t e; cases e
theorem optL_some {α : Type} {a : α} (h : s.Inv) : OptInvL (some (s, a)) := by intro t e; cases e; exact h
theorem optL_none {α : Type} : OptInvL (none : Option (State × α)) := by intro t e; cases e
theorem optR_some {α : Type} {a : α} (h : s.Inv) : OptInvR (some (a, s)) := by intro t e; cases e; exact h
theorem optR_none {α : Type} : OptInvR (none : Option (α × State)) := by intro t e; cases e
theorem pairL_mk {α : Type} {a : α} (h : s.Inv) : PairInvL (s, a) := h
theorem pairR_mk {α : Type} {a : α} (h : s.Inv) : PairInvR (a, s) := h

theorem id_inv (h : s.Inv) : (id s).Inv := h
theorem of_fst {α : Type} {p : State × α} (h : PairInvL p) : p.1.Inv := h
theorem of_snd {α : Type} {p : α × State} (h : PairInvR p) : p.2.Inv := h
theorem of_ok {α : Type} {r : Res α} {a : α} (e : r = .ok s a) (h : r.Inv) : s.Inv := by rw [e] at h; exact h
theorem of_trap {α : Type} {r : Res α} {c : Nat} {v : Word} (e : r = .trap s c v) (h : r.Inv) : s.Inv := by rw [e] at h; exact h
theorem of_stall {α : Type} {r : Res α} (e : r = .stall s) (h : r.Inv) : s.Inv := by rw [e] at h; exact h
theorem of_next {o : Out} (e : o = .next s) (h : OutInv o) : s.Inv := h s e
theorem of_opt {o : Option State} (e : o = some s) (h : OptInv o) : s.Inv := h s e
theorem of_optL {α : Type} {a : α} {o : Option (State × α)} (e : o = some (s, a)) (h : OptInvL o) : s.Inv := h _ e
theorem of_optR {α : Type} {a : α} {o : Option (α × State)} (e : o = some (a, s)) (h : OptInvR o) : s.Inv := h _ e
theorem of_pairL {α : Type} {a : α} {p : State × α} (e : p = (s, a)) (h : PairInvL p) : s.Inv := by rw [e] at h; exact h
theorem of_pairR {α : Type} {a : α} {p : α × State} (e : p = (a, s)) (h : PairInvR p) : s.Inv := by rw [e] at h; exact h

theorem foldl_inv {β : Type} {f : State → β → State} {l : List β} (h : s.Inv) (hf : ∀ s x, s.Inv → (f s x).Inv) :
    (l.foldl f s).Inv := by
  induction l generalizing s with
  | nil => exact h
  | cons x t ih => exact ih (hf s x h)

theorem findSome_inv {β : Type} {f : β → Option State} {l : List β} (hf : ∀ x, OptInv (f x)) : OptInv (l.findSome? f) := by
  intro t e
  obtain ⟨x, _, hx⟩ := List.exists_of_findSome?_eq_some e
  exact hf x t hx

theorem map_inv {β : Type} {f : β → State} {o : Option β} (hf : ∀ x, (f x).Inv) : OptInv (o.map f) := by
  intro t e
  cases o with
  | none => simp at e
  | some x => simp only [Option.map_some, Option.some.injEq] at e; subst e; exact hf x

theorem mapFst_inv {α : Type} {o : Option (State × α)} (h : OptInvL o) : OptInv (o.map (·.1)) := by
  intro t e
  cases o with
  | none => simp at e
  | some x => simp only [Option.map_some, Option.some.injEq] at e; subst e; exact h x rfl

theorem mapL_inv {β α : Type} {f : β → State × α} {o : Option β} (hf : ∀ x, o = some x → (f x).1.Inv) : OptInvL (o.map f) := by
  intro t e
  cases o with
  | none => simp at e
  | some x => simp only [Option.map_some, Option.some.injEq] at e; subst e; exact hf x rfl

theorem foldlR_inv {β γ : Type} {f : γ × State → β → γ × State} {l : List β} {p : γ × State} (h : PairInvR p)
    (hf : ∀ p x, PairInvR p → PairInvR (f p x)) : PairInvR (l.foldl f p) := by
  induction l generalizing p with
  | nil => exact h
  | cons x t ih => exact ih (hf p x h)

theorem foldlL_inv {β γ : Type} {f : State × γ → β → State × γ} {l : List β} {p : State × γ} (h : PairInvL p)
    (hf : ∀ p x, PairInvL p → PairInvL (f p x)) : PairInvL (l.foldl f p) := by
  induction l generalizing p with
  | nil => exact h
  | cons x t ih => exact ih (hf p x h)

theorem Res.bind_inv {α β : Type} {r : Res α} {g : State → α → Res β} (h : r.Inv) (hg : ∀ s a, s.Inv → (g s a).Inv) :
    (r.bind g).Inv := by
  cases r with
  | ok s a => exact hg s a h
  | trap s c v => exact h
  | stall s => exact h

theorem strand_swf {k : Nat} {t : Strand} (h : s.Inv) (e : s.strand? k = some t) : swf t.ctx = true :=
  h.2.1.1 t (kfind_some e).2

theorem crew_swf {k : Nat} {c : Crew} (h : s.Inv) (e : s.crew? k = some c) : swf c.stage = true ∧ swf c.acc = true :=
  h.2.1.2.2.1 c (kfind_some e).2

theorem crewOf_swf {t : Strand} {c : Crew} (h : s.Inv) (e : s.crewOf t = some c) : swf c.stage = true ∧ swf c.acc = true :=
  crew_swf h e

theorem lcoreAt_swf {i : Nat} (h : s.Inv) : swf (s.lcoreAt i).ctx = true ∧ swf (s.lcoreAt i).csr = true := by
  unfold State.lcoreAt
  rw [List.getD_eq_getElem?_getD]
  cases e : s.lcores[i]? with
  | none => exact ⟨rfl, rfl⟩
  | some x => exact ⟨(h.2.1.2.1 x (List.mem_of_getElem? e)).1, (h.2.1.2.1 x (List.mem_of_getElem? e)).2.1⟩

theorem lcoreAt_vec {i : Nat} (h : s.Inv) : swf (s.lcoreAt i).vec = true := by
  unfold State.lcoreAt
  rw [List.getD_eq_getElem?_getD]
  cases e : s.lcores[i]? with
  | none => rfl
  | some x => exact (h.2.1.2.1 x (List.mem_of_getElem? e)).2.2

theorem State.modStrand_inv {k : Nat} {f : Strand → Strand} (h : s.Inv) (hf : ∀ t, swf t.ctx = true → swf (f t).ctx = true) :
    (s.modStrand k f).Inv := by
  refine ⟨h.1, ⟨fun t ht => ?_, h.2.1.2⟩, h.2.2⟩
  obtain ⟨x, hx, rfl | ⟨_, rfl⟩⟩ := mem_kmod ht
  · exact h.2.1.1 _ hx
  · exact hf _ (h.2.1.1 _ hx)

theorem State.putStrand_inv {t : Strand} (h : s.Inv) (ht : swf t.ctx = true) : (s.putStrand t).Inv := by
  refine ⟨h.1, ⟨fun x hx => ?_, h.2.1.2⟩, h.2.2⟩
  rcases mem_kput hx with rfl | hx
  · exact ht
  · exact h.2.1.1 _ hx

theorem State.delStrand_inv {k : Nat} (h : s.Inv) : (s.delStrand k).Inv :=
  ⟨h.1, ⟨fun _ hx => h.2.1.1 _ (mem_kdel hx), h.2.1.2⟩, h.2.2⟩

theorem State.modCrew_inv {k : Nat} {f : Crew → Crew} (h : s.Inv)
    (hf : ∀ c, swf c.stage = true → swf c.acc = true → swf (f c).stage = true ∧ swf (f c).acc = true) :
    (s.modCrew k f).Inv := by
  refine ⟨h.1, ⟨h.2.1.1, h.2.1.2.1, fun t ht => ?_, h.2.1.2.2.2⟩, h.2.2⟩
  obtain ⟨x, hx, rfl | ⟨_, rfl⟩⟩ := mem_kmod ht
  · exact h.2.1.2.2.1 _ hx
  · exact hf _ (h.2.1.2.2.1 _ hx).1 (h.2.1.2.2.1 _ hx).2

theorem State.putCrew_inv {c : Crew} (h : s.Inv) (hc : swf c.stage = true) (ha : swf c.acc = true) : (s.putCrew c).Inv := by
  refine ⟨h.1, ⟨h.2.1.1, h.2.1.2.1, fun x hx => ?_, h.2.1.2.2.2⟩, h.2.2⟩
  rcases mem_kput hx with rfl | hx
  · exact ⟨hc, ha⟩
  · exact h.2.1.2.2.1 _ hx

theorem State.modFleet_inv {k : Word} {f : Fleet → Fleet} (h : s.Inv) (hf : ∀ t, swf t.seed = true → swf (f t).seed = true) :
    (s.modFleet k f).Inv := by
  refine ⟨h.1, ⟨h.2.1.1, h.2.1.2.1, h.2.1.2.2.1, fun x hx => ?_⟩, h.2.2⟩
  simp only [State.modFleet, List.mem_map] at hx
  obtain ⟨y, hy, rfl⟩ := hx
  split
  · exact hf _ (h.2.1.2.2.2 _ hy)
  · exact h.2.1.2.2.2 _ hy

theorem State.modFrame_inv {k : Nat} {f : Frame → Frame} (h : s.Inv) : (s.modFrame k f).Inv := h

theorem State.modCore_inv {k : Nat} {f : CoreState → CoreState} (h : s.Inv) : (s.modCore k f).Inv :=
  ⟨h.1, h.2.1, by have := h.2.2; simpa [State.UnitsOk, State.modCore] using this⟩
theorem State.modPod_inv {k : Nat} {f : PodState → PodState} (h : s.Inv) : (s.modPod k f).Inv :=
  ⟨h.1, h.2.1, by have := h.2.2; simpa [State.UnitsOk, State.modPod] using this⟩
theorem State.modDie_inv {k : Nat} {f : DieState → DieState} (h : s.Inv) : (s.modDie k f).Inv :=
  ⟨h.1, h.2.1, by have := h.2.2; simpa [State.UnitsOk, State.modDie] using this⟩
theorem State.modZone_inv {k : Nat} {f : ZoneState → ZoneState} (h : s.Inv) : (s.modZone k f).Inv :=
  ⟨h.1, h.2.1, by have := h.2.2; simpa [State.UnitsOk, State.modZone] using this⟩

theorem State.modLcore_inv {k : Nat} {f : LCore → LCore} (h : s.Inv)
    (hf : ∀ c, swf c.ctx = true → swf c.csr = true → swf c.vec = true →
      swf (f c).ctx = true ∧ swf (f c).csr = true ∧ swf (f c).vec = true) : (s.modLcore k f).Inv := by
  refine ⟨h.1, ⟨h.2.1.1, fun x hx => ?_, h.2.1.2.2⟩, ?_⟩
  · obtain ⟨y, hy, rfl | rfl⟩ := mem_lmod hx
    · exact h.2.1.2.1 _ hy
    · exact hf _ (h.2.1.2.1 _ hy).1 (h.2.1.2.1 _ hy).2.1 (h.2.1.2.1 _ hy).2.2
  · have := h.2.2; simpa [State.UnitsOk, State.modLcore] using this

theorem State.setReg_inv {p : Nat} {v : Word} (h : s.Inv) : (s.setReg p v).Inv :=
  ⟨⟨h.1.1, sset_swf h.1.2.1, h.1.2.2⟩, h.2.1, h.2.2⟩

theorem State.modCur_inv {f : Strand → Strand} (h : s.Inv) (hf : ∀ t, swf t.ctx = true → swf (f t).ctx = true) :
    (s.modCur f).Inv := by
  unfold State.modCur; split
  · exact State.modStrand_inv h hf
  · exact h

theorem State.asAgent_inv {a : Agent} {g : State → State} (h : s.Inv) (hg : ∀ s, s.Inv → (g s).Inv) : (s.asAgent a g).Inv :=
  hg { s with cur := a } h

theorem Strand.setCw_swf {t : Strand} {i : Nat} {v : Word} (h : swf t.ctx = true) : swf (t.setCw i v).ctx = true := sset_swf h
theorem Strand.setCbits_swf {t : Strand} {i a b v : Nat} (h : swf t.ctx = true) : swf (t.setCbits i a b v).ctx = true := sset_swf h
theorem Strand.setDepth_swf {t : Strand} {v : Nat} (h : swf t.ctx = true) : swf (t.setDepth v).ctx = true :=
  Strand.setCbits_swf (Strand.setCbits_swf h)

theorem State.patNote_inv {pa : Nat} {data : List Byte} (h : s.Inv) : (s.patNote pa data).Inv := by
  unfold State.patNote
  dsimp only
  split <;> exact h

theorem State.loseResv_inv {ls : List Nat} {a : Agent} (h : s.Inv) : (s.loseResv ls a).Inv := by
  refine ⟨h.1, ⟨fun x hx => ?_, fun x hx => ?_, h.2.1.2.2⟩, ?_⟩
  · simp only [State.loseResv, List.mem_map] at hx
    obtain ⟨y, hy, rfl⟩ := hx
    have := h.2.1.1 _ hy
    (repeat' split) <;> exact this
  · simp only [State.loseResv, List.mem_map] at hx
    obtain ⟨y, hy, rfl⟩ := hx
    have := h.2.1.2.1 _ (List.of_mem_zip hy).1
    (repeat' split) <;> exact this
  · have := h.2.2; simpa [State.UnitsOk, State.loseResv, upto_length] using this

theorem State.pokeRaw_inv {keep : Nat → Bool} {attr writer pa : Nat} {data : List Byte} (h : s.Inv) :
    (s.pokeRaw keep attr writer pa data).Inv := by
  unfold State.pokeRaw
  dsimp only
  have hp : (s.patNote pa data).Inv := State.patNote_inv h
  generalize s.patNote pa data = u at hp ⊢
  refine ⟨⟨byteListSet_swf hp.1.1, hp.1.2⟩, ⟨fun x hx => ?_, fun x hx => ?_, hp.2.1.2.2⟩, ?_⟩
  · simp only [List.mem_map] at hx
    obtain ⟨y, hy, rfl⟩ := hx
    have := hp.2.1.1 _ hy
    (repeat' split) <;> exact this
  · simp only [List.mem_map] at hx
    obtain ⟨y, hy, rfl⟩ := hx
    have := hp.2.1.2.1 _ hy
    (repeat' split) <;> exact this
  · have := hp.2.2; simpa [State.UnitsOk] using this

theorem State.raceWord_inv {old : Sparse 8} {w : Nat × Nat} (h : s.Inv) : (s.raceWord old w).Inv := by
  unfold State.raceWord
  extract_lets a v
  dsimp only
  have hm : ∀ (s : State), s.Inv → (s.modStrand w.1 fun t =>
      if t.present.getLsbD (w.2 / 8) then t.setCw w.2 (imageWord w.2 (t.cw w.2) v) else t).Inv := fun s hs =>
    State.modStrand_inv hs fun t ht => by split <;> first | exact Strand.setCw_swf ht | exact ht
  have hk : ∀ (s : State), s.Inv → State.Inv { s with mem := bytesSet s.mem a (bytesGet old a 8) 8 } := fun s hs =>
    ⟨⟨bytesSet_swf hs.1.1, hs.1.2⟩, hs.2⟩
  have hd : ∀ (s : State), s.Inv → s.drawBit.2.Inv := fun s hs => hs
  split <;> split <;> first
    | exact hk _ (hm _ (hd _ (hd _ h)))
    | exact hm _ (hd _ (hd _ h))
    | exact hk _ (hd _ (hd _ h))
    | exact hd _ (hd _ h)

theorem State.poke_inv {keep : Nat → Bool} {attr writer pa : Nat} {data : List Byte} (h : s.Inv) :
    (s.poke keep attr writer pa data).Inv :=
  foldl_inv (State.pokeRaw_inv h) fun _ _ hs => State.raceWord_inv hs

/-! ### Operations on one crew, strand or context -/

theorem foldl_crewS {β : Type} {f : Crew → β → Crew} {l : List β} {c : Crew} (h : swf c.stage = true)
    (hf : ∀ c x, swf c.stage = true → swf (f c x).stage = true) : swf (l.foldl f c).stage = true := by
  induction l generalizing c with
  | nil => exact h
  | cons x l ih => exact ih (hf c x h)

theorem foldl_crewA {β : Type} {f : Crew → β → Crew} {l : List β} {c : Crew} (h : swf c.acc = true)
    (hf : ∀ c x, swf c.acc = true → swf (f c x).acc = true) : swf (l.foldl f c).acc = true := by
  induction l generalizing c with
  | nil => exact h
  | cons x l ih => exact ih (hf c x h)

theorem stageSet_swfS {c : Crew} {a v n : Nat} (h : swf c.stage = true) : swf (c.stageSet a v n).stage = true := bytesSet_swf h
theorem stageSet_swfA {c : Crew} {a v n : Nat} (h : swf c.acc = true) : swf (c.stageSet a v n).acc = true := h
theorem accSet_swfS {c : Crew} {k v : Nat} (h : swf c.stage = true) : swf (c.accSet k v).stage = true := h
theorem accSet_swfA {c : Crew} {k v : Nat} (h : swf c.acc = true) : swf (c.accSet k v).acc = true := sset_swf h
theorem setHold_swfS {c : Crew} {v a b d : Nat} (h : swf c.stage = true) : swf (c.setHold v a b d).stage = true := h
theorem setHold_swfA {c : Crew} {v a b d : Nat} (h : swf c.acc = true) : swf (c.setHold v a b d).acc = true := h
theorem cvMod_swfS {c : Crew} {n : Nat} {f : CvReg → CvReg} (h : swf c.stage = true) : swf (c.cvMod n f).stage = true := by
  unfold Crew.cvMod; split <;> exact h
theorem cvMod_swfA {c : Crew} {n : Nat} {f : CvReg → CvReg} (h : swf c.acc = true) : swf (c.cvMod n f).acc = true := by
  unfold Crew.cvMod; split <;> exact h
theorem tileSet_swfS {c : Crew} {ks : List Nat} {v : Nat} (h : swf c.stage = true) : swf (tileSet c ks v).stage = true := by
  induction ks generalizing c v with
  | nil => exact h
  | cons k t ih => exact ih (accSet_swfS h)
theorem tileSet_swfA {c : Crew} {ks : List Nat} {v : Nat} (h : swf c.acc = true) : swf (tileSet c ks v).acc = true := by
  induction ks generalizing c v with
  | nil => exact h
  | cons k t ih => exact ih (accSet_swfA h)

theorem mxPerform_swfS {c : Crew} {v fmt m n : Nat} {z : Bool} {acc : Nat} {ar br : List (List Nat)} {bad : Bool}
    (h : swf c.stage = true) : swf (State.mxPerform c v fmt m n z acc ar br bad).stage = true := by
  unfold State.mxPerform
  dsimp only
  split
  · exact foldl_crewS h fun c x hc => tileSet_swfS hc
  · exact foldl_crewS h fun c x hc => tileSet_swfS hc

theorem mxPerform_swfA {c : Crew} {v fmt m n : Nat} {z : Bool} {acc : Nat} {ar br : List (List Nat)} {bad : Bool}
    (h : swf c.acc = true) : swf (State.mxPerform c v fmt m n z acc ar br bad).acc = true := by
  unfold State.mxPerform
  dsimp only
  split
  · exact foldl_crewA h fun c x hc => tileSet_swfA hc
  · exact foldl_crewA h fun c x hc => tileSet_swfA hc

theorem saveIn_swfS {c : Crew} : swf (s.saveIn c).stage = true := foldl_swf nil_swf fun _ _ h => bytesSet_swf h
theorem saveIn_swfA {c : Crew} : swf (s.saveIn c).acc = true := foldl_swf nil_swf fun _ _ h => sset_swf h
theorem protoCrew_swfS {f : Fleet} {a b : Nat} : swf (State.protoCrew f a b).stage = true := nil_swf
theorem protoCrew_swfA {f : Fleet} {a b : Nat} : swf (State.protoCrew f a b).acc = true := nil_swf
theorem newStrand_swf {f : Fleet} {c : Crew} {i : Nat} (h : swf f.seed = true) : swf (State.newStrand f c i).ctx = true :=
  sset_swf (sset_swf (sset_swf h))

theorem batAdd_swf {t : Strand} (h : swf t.ctx = true) : swf t.batAdd.ctx = true := by
  unfold Strand.batAdd; split <;> exact h
theorem batDone_swf {t : Strand} {n : Nat} (h : swf t.ctx = true) : swf (t.batDone n).ctx = true := h
theorem batSeal_swf {t : Strand} (h : swf t.ctx = true) : swf t.batSeal.ctx = true := h

theorem retest_swf {t : Strand} {l : Nat} (h : swf t.ctx = true) : swf (s.retest t l).ctx = true := by
  unfold State.retest
  extract_lets u hit
  have hu : swf u.ctx = true := Strand.setCw_swf h
  have hh : ∀ pa b, swf (hit pa b).ctx = true := by
    intro pa b; dsimp only [hit]
    (repeat' split) <;> first | exact h | exact hu
  split
  · exact h
  · split
    · exact hh _ _
    · exact hh _ _
    · exact h

theorem invalWatch_swf {t : Strand} {v : Inval} (h : swf t.ctx = true) : swf (s.invalWatch v t).ctx = true := by
  unfold State.invalWatch
  extract_lets u hit
  have hu : swf u.ctx = true := Strand.setCw_swf h
  have hh : ∀ va, swf (hit va).ctx = true := by
    intro va; dsimp only [hit]
    split <;> first | exact h | exact hu
  split
  · exact hh _
  · exact hh _
  · exact h

theorem parkedCtx_swf {t : Strand} {pc : Word} (h : swf t.ctx = true) : swf (State.parkedCtx t pc) = true :=
  sset_swf (sset_swf (sset_swf (filter_swf _ h)))

theorem goImage_swf {i : Nat} {rd : Reg} {d prio cls : Nat} {tag satp : Word} {old : Option (Nat → Word)} :
    swf (s.goImage i rd d prio cls tag satp old) = true := by
  unfold State.goImage
  extract_lets l put m0 td m1
  have h1 : swf m1 = true := foldl_swf (foldl_swf nil_swf fun m x hm => sset_swf hm) fun m x hm => sset_swf hm
  clear_value m1
  split
  · exact sset_swf h1
  · exact sset_swf (foldl_swf h1 fun m x hm => sset_swf hm)

theorem forkSeed_swf {t : Strand} {b : Nat} : swf (State.forkSeed t b) = true := by
  unfold State.forkSeed
  exact sset_swf (sset_swf (sset_swf (foldl_swf (foldl_swf (sset_swf nil_swf) fun m x hm => sset_swf hm) fun m x hm => sset_swf hm)))

theorem fleet_swf {k : Word} {f : Fleet} (h : s.Inv) (e : s.fleet? k = some f) : swf f.seed = true :=
  h.2.1.2.2.2 f (List.mem_of_find?_eq_some e)

theorem strand_mem_swf {t : Strand} (h : s.Inv) (e : t ∈ s.strands) : swf t.ctx = true := h.2.1.1 t e
theorem crew_mem_swf {c : Crew} (h : s.Inv) (e : c ∈ s.crews) : swf c.stage = true ∧ swf c.acc = true := h.2.1.2.2.1 c e

theorem curStrand_swf {t : Strand} (h : s.Inv) (e : s.curStrand = some t) : swf t.ctx = true := by
  unfold State.curStrand at e
  split at e
  · cases e
  · split at e
    · split at e
      · rename_i u hu _; cases e; exact strand_swf h hu
      · cases e
    · cases e

theorem memberOf_swf {t : Strand} {a b : Nat} (h : s.Inv) (e : s.memberOf a b = some t) : swf t.ctx = true :=
  h.2.1.1 t (List.mem_of_find?_eq_some e)

end Sys2Proof.Machine
end

