-- ==== Sys2Proof/Laws/State.lean ====
section
/-! SUPPORT. What each update of a part of the state leaves of the rest, field by field. -/

namespace Sys2Proof.Machine.State

/-! ### `modStrand` -/

@[simp] theorem modStrand_cur (s : State) (k : Nat) (f : Strand → Strand) : (s.modStrand k f).cur = s.cur := rfl
@[simp] theorem modStrand_ibits (s : State) (k : Nat) (f : Strand → Strand) : (s.modStrand k f).ibits = s.ibits := rfl
@[simp] theorem modStrand_ilen (s : State) (k : Nat) (f : Strand → Strand) : (s.modStrand k f).ilen = s.ilen := rfl
@[simp] theorem modStrand_accPa (s : State) (k : Nat) (f : Strand → Strand) : (s.modStrand k f).accPa = s.accPa := rfl
@[simp] theorem modStrand_accTiers (s : State) (k : Nat) (f : Strand → Strand) : (s.modStrand k f).accTiers = s.accTiers := rfl
@[simp] theorem modStrand_agenda (s : State) (k : Nat) (f : Strand → Strand) : (s.modStrand k f).agenda = s.agenda := rfl
@[simp] theorem modStrand_draws (s : State) (k : Nat) (f : Strand → Strand) : (s.modStrand k f).draws = s.draws := rfl
@[simp] theorem modStrand_nextId (s : State) (k : Nat) (f : Strand → Strand) : (s.modStrand k f).nextId = s.nextId := rfl
@[simp] theorem modStrand_time (s : State) (k : Nat) (f : Strand → Strand) : (s.modStrand k f).time = s.time := rfl
@[simp] theorem modStrand_mem (s : State) (k : Nat) (f : Strand → Strand) : (s.modStrand k f).mem = s.mem := rfl
@[simp] theorem modStrand_poison (s : State) (k : Nat) (f : Strand → Strand) : (s.modStrand k f).poison = s.poison := rfl
@[simp] theorem modStrand_owners (s : State) (k : Nat) (f : Strand → Strand) : (s.modStrand k f).owners = s.owners := rfl
@[simp] theorem modStrand_pct (s : State) (k : Nat) (f : Strand → Strand) : (s.modStrand k f).pct = s.pct := rfl
@[simp] theorem modStrand_mmio (s : State) (k : Nat) (f : Strand → Strand) : (s.modStrand k f).mmio = s.mmio := rfl
@[simp] theorem modStrand_crews (s : State) (k : Nat) (f : Strand → Strand) : (s.modStrand k f).crews = s.crews := rfl
@[simp] theorem modStrand_fleets (s : State) (k : Nat) (f : Strand → Strand) : (s.modStrand k f).fleets = s.fleets := rfl
@[simp] theorem modStrand_frames (s : State) (k : Nat) (f : Strand → Strand) : (s.modStrand k f).frames = s.frames := rfl
@[simp] theorem modStrand_allocs (s : State) (k : Nat) (f : Strand → Strand) : (s.modStrand k f).allocs = s.allocs := rfl
@[simp] theorem modStrand_ghosts (s : State) (k : Nat) (f : Strand → Strand) : (s.modStrand k f).ghosts = s.ghosts := rfl
@[simp] theorem modStrand_notices (s : State) (k : Nat) (f : Strand → Strand) : (s.modStrand k f).notices = s.notices := rfl
@[simp] theorem modStrand_fwdq (s : State) (k : Nat) (f : Strand → Strand) : (s.modStrand k f).fwdq = s.fwdq := rfl
@[simp] theorem modStrand_lcores (s : State) (k : Nat) (f : Strand → Strand) : (s.modStrand k f).lcores = s.lcores := rfl
@[simp] theorem modStrand_cores (s : State) (k : Nat) (f : Strand → Strand) : (s.modStrand k f).cores = s.cores := rfl
@[simp] theorem modStrand_pods (s : State) (k : Nat) (f : Strand → Strand) : (s.modStrand k f).pods = s.pods := rfl
@[simp] theorem modStrand_dies (s : State) (k : Nat) (f : Strand → Strand) : (s.modStrand k f).dies = s.dies := rfl
@[simp] theorem modStrand_zones (s : State) (k : Nat) (f : Strand → Strand) : (s.modStrand k f).zones = s.zones := rfl
@[simp] theorem modStrand_pkg (s : State) (k : Nat) (f : Strand → Strand) : (s.modStrand k f).pkg = s.pkg := rfl
@[simp] theorem modStrand_tlb (s : State) (k : Nat) (f : Strand → Strand) : (s.modStrand k f).tlb = s.tlb := rfl
@[simp] theorem modStrand_ncs (s : State) (k : Nat) (f : Strand → Strand) : (s.modStrand k f).ncs = s.ncs := rfl
@[simp] theorem modStrand_ibuf (s : State) (k : Nat) (f : Strand → Strand) : (s.modStrand k f).ibuf = s.ibuf := rfl
@[simp] theorem modStrand_rbuf (s : State) (k : Nat) (f : Strand → Strand) : (s.modStrand k f).rbuf = s.rbuf := rfl
@[simp] theorem modStrand_holds (s : State) (k : Nat) (f : Strand → Strand) : (s.modStrand k f).holds = s.holds := rfl
@[simp] theorem modStrand_copies (s : State) (k : Nat) (f : Strand → Strand) : (s.modStrand k f).copies = s.copies := rfl
@[simp] theorem modStrand_engine (s : State) (k : Nat) (f : Strand → Strand) : (s.modStrand k f).engine = s.engine := rfl
@[simp] theorem modStrand_descs (s : State) (k : Nat) (f : Strand → Strand) : (s.modStrand k f).descs = s.descs := rfl
@[simp] theorem modStrand_invals (s : State) (k : Nat) (f : Strand → Strand) : (s.modStrand k f).invals = s.invals := rfl
@[simp] theorem modStrand_replicas (s : State) (k : Nat) (f : Strand → Strand) : (s.modStrand k f).replicas = s.replicas := rfl
@[simp] theorem modStrand_pats (s : State) (k : Nat) (f : Strand → Strand) : (s.modStrand k f).pats = s.pats := rfl
@[simp] theorem modStrand_hwq (s : State) (k : Nat) (f : Strand → Strand) : (s.modStrand k f).hwq = s.hwq := rfl
@[simp] theorem modStrand_lru (s : State) (k : Nat) (f : Strand → Strand) : (s.modStrand k f).lru = s.lru := rfl
@[simp] theorem modStrand_cycle (s : State) (k : Nat) (f : Strand → Strand) : (s.modStrand k f).cycle = s.cycle := rfl
@[simp] theorem modStrand_stalled (s : State) (k : Nat) (f : Strand → Strand) : (s.modStrand k f).stalled = s.stalled := rfl
@[simp] theorem modStrand_peerPosts (s : State) (k : Nat) (f : Strand → Strand) : (s.modStrand k f).peerPosts = s.peerPosts := rfl
@[simp] theorem modStrand_peerRgn (s : State) (k : Nat) (f : Strand → Strand) : (s.modStrand k f).peerRgn = s.peerRgn := rfl
@[simp] theorem modStrand_dir (s : State) (k : Nat) (f : Strand → Strand) : (s.modStrand k f).dir = s.dir := rfl
@[simp] theorem modStrand_snoop (s : State) (k : Nat) (f : Strand → Strand) : (s.modStrand k f).snoop = s.snoop := rfl
@[simp] theorem modStrand_iommus (s : State) (k : Nat) (f : Strand → Strand) : (s.modStrand k f).iommus = s.iommus := rfl
@[simp] theorem modStrand_dbgq (s : State) (k : Nat) (f : Strand → Strand) : (s.modStrand k f).dbgq = s.dbgq := rfl
@[simp] theorem modStrand_poolPtr (s : State) (k : Nat) (f : Strand → Strand) : (s.modStrand k f).poolPtr = s.poolPtr := rfl
@[simp] theorem modStrand_msis (s : State) (k : Nat) (f : Strand → Strand) : (s.modStrand k f).msis = s.msis := rfl

/-! ### `putStrand` -/

@[simp] theorem putStrand_cur (s : State) (t : Strand) : (s.putStrand t).cur = s.cur := rfl
@[simp] theorem putStrand_ibits (s : State) (t : Strand) : (s.putStrand t).ibits = s.ibits := rfl
@[simp] theorem putStrand_ilen (s : State) (t : Strand) : (s.putStrand t).ilen = s.ilen := rfl
@[simp] theorem putStrand_accPa (s : State) (t : Strand) : (s.putStrand t).accPa = s.accPa := rfl
@[simp] theorem putStrand_accTiers (s : State) (t : Strand) : (s.putStrand t).accTiers = s.accTiers := rfl
@[simp] theorem putStrand_agenda (s : State) (t : Strand) : (s.putStrand t).agenda = s.agenda := rfl
@[simp] theorem putStrand_draws (s : State) (t : Strand) : (s.putStrand t).draws = s.draws := rfl
@[simp] theorem putStrand_nextId (s : State) (t : Strand) : (s.putStrand t).nextId = s.nextId := rfl
@[simp] theorem putStrand_time (s : State) (t : Strand) : (s.putStrand t).time = s.time := rfl
@[simp] theorem putStrand_mem (s : State) (t : Strand) : (s.putStrand t).mem = s.mem := rfl
@[simp] theorem putStrand_poison (s : State) (t : Strand) : (s.putStrand t).poison = s.poison := rfl
@[simp] theorem putStrand_owners (s : State) (t : Strand) : (s.putStrand t).owners = s.owners := rfl
@[simp] theorem putStrand_pct (s : State) (t : Strand) : (s.putStrand t).pct = s.pct := rfl
@[simp] theorem putStrand_mmio (s : State) (t : Strand) : (s.putStrand t).mmio = s.mmio := rfl
@[simp] theorem putStrand_crews (s : State) (t : Strand) : (s.putStrand t).crews = s.crews := rfl
@[simp] theorem putStrand_fleets (s : State) (t : Strand) : (s.putStrand t).fleets = s.fleets := rfl
@[simp] theorem putStrand_frames (s : State) (t : Strand) : (s.putStrand t).frames = s.frames := rfl
@[simp] theorem putStrand_allocs (s : State) (t : Strand) : (s.putStrand t).allocs = s.allocs := rfl
@[simp] theorem putStrand_ghosts (s : State) (t : Strand) : (s.putStrand t).ghosts = s.ghosts := rfl
@[simp] theorem putStrand_notices (s : State) (t : Strand) : (s.putStrand t).notices = s.notices := rfl
@[simp] theorem putStrand_fwdq (s : State) (t : Strand) : (s.putStrand t).fwdq = s.fwdq := rfl
@[simp] theorem putStrand_lcores (s : State) (t : Strand) : (s.putStrand t).lcores = s.lcores := rfl
@[simp] theorem putStrand_cores (s : State) (t : Strand) : (s.putStrand t).cores = s.cores := rfl
@[simp] theorem putStrand_pods (s : State) (t : Strand) : (s.putStrand t).pods = s.pods := rfl
@[simp] theorem putStrand_dies (s : State) (t : Strand) : (s.putStrand t).dies = s.dies := rfl
@[simp] theorem putStrand_zones (s : State) (t : Strand) : (s.putStrand t).zones = s.zones := rfl
@[simp] theorem putStrand_pkg (s : State) (t : Strand) : (s.putStrand t).pkg = s.pkg := rfl
@[simp] theorem putStrand_tlb (s : State) (t : Strand) : (s.putStrand t).tlb = s.tlb := rfl
@[simp] theorem putStrand_ncs (s : State) (t : Strand) : (s.putStrand t).ncs = s.ncs := rfl
@[simp] theorem putStrand_ibuf (s : State) (t : Strand) : (s.putStrand t).ibuf = s.ibuf := rfl
@[simp] theorem putStrand_rbuf (s : State) (t : Strand) : (s.putStrand t).rbuf = s.rbuf := rfl
@[simp] theorem putStrand_holds (s : State) (t : Strand) : (s.putStrand t).holds = s.holds := rfl
@[simp] theorem putStrand_copies (s : State) (t : Strand) : (s.putStrand t).copies = s.copies := rfl
@[simp] theorem putStrand_engine (s : State) (t : Strand) : (s.putStrand t).engine = s.engine := rfl
@[simp] theorem putStrand_descs (s : State) (t : Strand) : (s.putStrand t).descs = s.descs := rfl
@[simp] theorem putStrand_invals (s : State) (t : Strand) : (s.putStrand t).invals = s.invals := rfl
@[simp] theorem putStrand_replicas (s : State) (t : Strand) : (s.putStrand t).replicas = s.replicas := rfl
@[simp] theorem putStrand_pats (s : State) (t : Strand) : (s.putStrand t).pats = s.pats := rfl
@[simp] theorem putStrand_hwq (s : State) (t : Strand) : (s.putStrand t).hwq = s.hwq := rfl
@[simp] theorem putStrand_lru (s : State) (t : Strand) : (s.putStrand t).lru = s.lru := rfl
@[simp] theorem putStrand_cycle (s : State) (t : Strand) : (s.putStrand t).cycle = s.cycle := rfl
@[simp] theorem putStrand_stalled (s : State) (t : Strand) : (s.putStrand t).stalled = s.stalled := rfl
@[simp] theorem putStrand_peerPosts (s : State) (t : Strand) : (s.putStrand t).peerPosts = s.peerPosts := rfl
@[simp] theorem putStrand_peerRgn (s : State) (t : Strand) : (s.putStrand t).peerRgn = s.peerRgn := rfl
@[simp] theorem putStrand_dir (s : State) (t : Strand) : (s.putStrand t).dir = s.dir := rfl
@[simp] theorem putStrand_snoop (s : State) (t : Strand) : (s.putStrand t).snoop = s.snoop := rfl
@[simp] theorem putStrand_iommus (s : State) (t : Strand) : (s.putStrand t).iommus = s.iommus := rfl
@[simp] theorem putStrand_dbgq (s : State) (t : Strand) : (s.putStrand t).dbgq = s.dbgq := rfl
@[simp] theorem putStrand_poolPtr (s : State) (t : Strand) : (s.putStrand t).poolPtr = s.poolPtr := rfl
@[simp] theorem putStrand_msis (s : State) (t : Strand) : (s.putStrand t).msis = s.msis := rfl

/-! ### `delStrand` -/

@[simp] theorem delStrand_cur (s : State) (k : Nat) : (s.delStrand k).cur = s.cur := rfl
@[simp] theorem delStrand_ibits (s : State) (k : Nat) : (s.delStrand k).ibits = s.ibits := rfl
@[simp] theorem delStrand_ilen (s : State) (k : Nat) : (s.delStrand k).ilen = s.ilen := rfl
@[simp] theorem delStrand_accPa (s : State) (k : Nat) : (s.delStrand k).accPa = s.accPa := rfl
@[simp] theorem delStrand_accTiers (s : State) (k : Nat) : (s.delStrand k).accTiers = s.accTiers := rfl
@[simp] theorem delStrand_agenda (s : State) (k : Nat) : (s.delStrand k).agenda = s.agenda := rfl
@[simp] theorem delStrand_draws (s : State) (k : Nat) : (s.delStrand k).draws = s.draws := rfl
@[simp] theorem delStrand_nextId (s : State) (k : Nat) : (s.delStrand k).nextId = s.nextId := rfl
@[simp] theorem delStrand_time (s : State) (k : Nat) : (s.delStrand k).time = s.time := rfl
@[simp] theorem delStrand_mem (s : State) (k : Nat) : (s.delStrand k).mem = s.mem := rfl
@[simp] theorem delStrand_poison (s : State) (k : Nat) : (s.delStrand k).poison = s.poison := rfl
@[simp] theorem delStrand_owners (s : State) (k : Nat) : (s.delStrand k).owners = s.owners := rfl
@[simp] theorem delStrand_pct (s : State) (k : Nat) : (s.delStrand k).pct = s.pct := rfl
@[simp] theorem delStrand_mmio (s : State) (k : Nat) : (s.delStrand k).mmio = s.mmio := rfl
@[simp] theorem delStrand_crews (s : State) (k : Nat) : (s.delStrand k).crews = s.crews := rfl
@[simp] theorem delStrand_fleets (s : State) (k : Nat) : (s.delStrand k).fleets = s.fleets := rfl
@[simp] theorem delStrand_frames (s : State) (k : Nat) : (s.delStrand k).frames = s.frames := rfl
@[simp] theorem delStrand_allocs (s : State) (k : Nat) : (s.delStrand k).allocs = s.allocs := rfl
@[simp] theorem delStrand_ghosts (s : State) (k : Nat) : (s.delStrand k).ghosts = s.ghosts := rfl
@[simp] theorem delStrand_notices (s : State) (k : Nat) : (s.delStrand k).notices = s.notices := rfl
@[simp] theorem delStrand_fwdq (s : State) (k : Nat) : (s.delStrand k).fwdq = s.fwdq := rfl
@[simp] theorem delStrand_lcores (s : State) (k : Nat) : (s.delStrand k).lcores = s.lcores := rfl
@[simp] theorem delStrand_cores (s : State) (k : Nat) : (s.delStrand k).cores = s.cores := rfl
@[simp] theorem delStrand_pods (s : State) (k : Nat) : (s.delStrand k).pods = s.pods := rfl
@[simp] theorem delStrand_dies (s : State) (k : Nat) : (s.delStrand k).dies = s.dies := rfl
@[simp] theorem delStrand_zones (s : State) (k : Nat) : (s.delStrand k).zones = s.zones := rfl
@[simp] theorem delStrand_pkg (s : State) (k : Nat) : (s.delStrand k).pkg = s.pkg := rfl
@[simp] theorem delStrand_tlb (s : State) (k : Nat) : (s.delStrand k).tlb = s.tlb := rfl
@[simp] theorem delStrand_ncs (s : State) (k : Nat) : (s.delStrand k).ncs = s.ncs := rfl
@[simp] theorem delStrand_ibuf (s : State) (k : Nat) : (s.delStrand k).ibuf = s.ibuf := rfl
@[simp] theorem delStrand_rbuf (s : State) (k : Nat) : (s.delStrand k).rbuf = s.rbuf := rfl
@[simp] theorem delStrand_holds (s : State) (k : Nat) : (s.delStrand k).holds = s.holds := rfl
@[simp] theorem delStrand_copies (s : State) (k : Nat) : (s.delStrand k).copies = s.copies := rfl
@[simp] theorem delStrand_engine (s : State) (k : Nat) : (s.delStrand k).engine = s.engine := rfl
@[simp] theorem delStrand_descs (s : State) (k : Nat) : (s.delStrand k).descs = s.descs := rfl
@[simp] theorem delStrand_invals (s : State) (k : Nat) : (s.delStrand k).invals = s.invals := rfl
@[simp] theorem delStrand_replicas (s : State) (k : Nat) : (s.delStrand k).replicas = s.replicas := rfl
@[simp] theorem delStrand_pats (s : State) (k : Nat) : (s.delStrand k).pats = s.pats := rfl
@[simp] theorem delStrand_hwq (s : State) (k : Nat) : (s.delStrand k).hwq = s.hwq := rfl
@[simp] theorem delStrand_lru (s : State) (k : Nat) : (s.delStrand k).lru = s.lru := rfl
@[simp] theorem delStrand_cycle (s : State) (k : Nat) : (s.delStrand k).cycle = s.cycle := rfl
@[simp] theorem delStrand_stalled (s : State) (k : Nat) : (s.delStrand k).stalled = s.stalled := rfl
@[simp] theorem delStrand_peerPosts (s : State) (k : Nat) : (s.delStrand k).peerPosts = s.peerPosts := rfl
@[simp] theorem delStrand_peerRgn (s : State) (k : Nat) : (s.delStrand k).peerRgn = s.peerRgn := rfl
@[simp] theorem delStrand_dir (s : State) (k : Nat) : (s.delStrand k).dir = s.dir := rfl
@[simp] theorem delStrand_snoop (s : State) (k : Nat) : (s.delStrand k).snoop = s.snoop := rfl
@[simp] theorem delStrand_iommus (s : State) (k : Nat) : (s.delStrand k).iommus = s.iommus := rfl
@[simp] theorem delStrand_dbgq (s : State) (k : Nat) : (s.delStrand k).dbgq = s.dbgq := rfl
@[simp] theorem delStrand_poolPtr (s : State) (k : Nat) : (s.delStrand k).poolPtr = s.poolPtr := rfl
@[simp] theorem delStrand_msis (s : State) (k : Nat) : (s.delStrand k).msis = s.msis := rfl

/-! ### `putCrew` -/

@[simp] theorem putCrew_cur (s : State) (c : Crew) : (s.putCrew c).cur = s.cur := rfl
@[simp] theorem putCrew_ibits (s : State) (c : Crew) : (s.putCrew c).ibits = s.ibits := rfl
@[simp] theorem putCrew_ilen (s : State) (c : Crew) : (s.putCrew c).ilen = s.ilen := rfl
@[simp] theorem putCrew_accPa (s : State) (c : Crew) : (s.putCrew c).accPa = s.accPa := rfl
@[simp] theorem putCrew_accTiers (s : State) (c : Crew) : (s.putCrew c).accTiers = s.accTiers := rfl
@[simp] theorem putCrew_agenda (s : State) (c : Crew) : (s.putCrew c).agenda = s.agenda := rfl
@[simp] theorem putCrew_draws (s : State) (c : Crew) : (s.putCrew c).draws = s.draws := rfl
@[simp] theorem putCrew_nextId (s : State) (c : Crew) : (s.putCrew c).nextId = s.nextId := rfl
@[simp] theorem putCrew_time (s : State) (c : Crew) : (s.putCrew c).time = s.time := rfl
@[simp] theorem putCrew_mem (s : State) (c : Crew) : (s.putCrew c).mem = s.mem := rfl
@[simp] theorem putCrew_poison (s : State) (c : Crew) : (s.putCrew c).poison = s.poison := rfl
@[simp] theorem putCrew_owners (s : State) (c : Crew) : (s.putCrew c).owners = s.owners := rfl
@[simp] theorem putCrew_pct (s : State) (c : Crew) : (s.putCrew c).pct = s.pct := rfl
@[simp] theorem putCrew_mmio (s : State) (c : Crew) : (s.putCrew c).mmio = s.mmio := rfl
@[simp] theorem putCrew_strands (s : State) (c : Crew) : (s.putCrew c).strands = s.strands := rfl
@[simp] theorem putCrew_fleets (s : State) (c : Crew) : (s.putCrew c).fleets = s.fleets := rfl
@[simp] theorem putCrew_frames (s : State) (c : Crew) : (s.putCrew c).frames = s.frames := rfl
@[simp] theorem putCrew_allocs (s : State) (c : Crew) : (s.putCrew c).allocs = s.allocs := rfl
@[simp] theorem putCrew_ghosts (s : State) (c : Crew) : (s.putCrew c).ghosts = s.ghosts := rfl
@[simp] theorem putCrew_notices (s : State) (c : Crew) : (s.putCrew c).notices = s.notices := rfl
@[simp] theorem putCrew_fwdq (s : State) (c : Crew) : (s.putCrew c).fwdq = s.fwdq := rfl
@[simp] theorem putCrew_lcores (s : State) (c : Crew) : (s.putCrew c).lcores = s.lcores := rfl
@[simp] theorem putCrew_cores (s : State) (c : Crew) : (s.putCrew c).cores = s.cores := rfl
@[simp] theorem putCrew_pods (s : State) (c : Crew) : (s.putCrew c).pods = s.pods := rfl
@[simp] theorem putCrew_dies (s : State) (c : Crew) : (s.putCrew c).dies = s.dies := rfl
@[simp] theorem putCrew_zones (s : State) (c : Crew) : (s.putCrew c).zones = s.zones := rfl
@[simp] theorem putCrew_pkg (s : State) (c : Crew) : (s.putCrew c).pkg = s.pkg := rfl
@[simp] theorem putCrew_tlb (s : State) (c : Crew) : (s.putCrew c).tlb = s.tlb := rfl
@[simp] theorem putCrew_ncs (s : State) (c : Crew) : (s.putCrew c).ncs = s.ncs := rfl
@[simp] theorem putCrew_ibuf (s : State) (c : Crew) : (s.putCrew c).ibuf = s.ibuf := rfl
@[simp] theorem putCrew_rbuf (s : State) (c : Crew) : (s.putCrew c).rbuf = s.rbuf := rfl
@[simp] theorem putCrew_holds (s : State) (c : Crew) : (s.putCrew c).holds = s.holds := rfl
@[simp] theorem putCrew_copies (s : State) (c : Crew) : (s.putCrew c).copies = s.copies := rfl
@[simp] theorem putCrew_engine (s : State) (c : Crew) : (s.putCrew c).engine = s.engine := rfl
@[simp] theorem putCrew_descs (s : State) (c : Crew) : (s.putCrew c).descs = s.descs := rfl
@[simp] theorem putCrew_invals (s : State) (c : Crew) : (s.putCrew c).invals = s.invals := rfl
@[simp] theorem putCrew_replicas (s : State) (c : Crew) : (s.putCrew c).replicas = s.replicas := rfl
@[simp] theorem putCrew_pats (s : State) (c : Crew) : (s.putCrew c).pats = s.pats := rfl
@[simp] theorem putCrew_hwq (s : State) (c : Crew) : (s.putCrew c).hwq = s.hwq := rfl
@[simp] theorem putCrew_lru (s : State) (c : Crew) : (s.putCrew c).lru = s.lru := rfl
@[simp] theorem putCrew_cycle (s : State) (c : Crew) : (s.putCrew c).cycle = s.cycle := rfl
@[simp] theorem putCrew_stalled (s : State) (c : Crew) : (s.putCrew c).stalled = s.stalled := rfl
@[simp] theorem putCrew_peerPosts (s : State) (c : Crew) : (s.putCrew c).peerPosts = s.peerPosts := rfl
@[simp] theorem putCrew_peerRgn (s : State) (c : Crew) : (s.putCrew c).peerRgn = s.peerRgn := rfl
@[simp] theorem putCrew_dir (s : State) (c : Crew) : (s.putCrew c).dir = s.dir := rfl
@[simp] theorem putCrew_snoop (s : State) (c : Crew) : (s.putCrew c).snoop = s.snoop := rfl
@[simp] theorem putCrew_iommus (s : State) (c : Crew) : (s.putCrew c).iommus = s.iommus := rfl
@[simp] theorem putCrew_dbgq (s : State) (c : Crew) : (s.putCrew c).dbgq = s.dbgq := rfl
@[simp] theorem putCrew_poolPtr (s : State) (c : Crew) : (s.putCrew c).poolPtr = s.poolPtr := rfl
@[simp] theorem putCrew_msis (s : State) (c : Crew) : (s.putCrew c).msis = s.msis := rfl

/-! ### `modCrew` -/

@[simp] theorem modCrew_cur (s : State) (k : Nat) (f : Crew → Crew) : (s.modCrew k f).cur = s.cur := rfl
@[simp] theorem modCrew_ibits (s : State) (k : Nat) (f : Crew → Crew) : (s.modCrew k f).ibits = s.ibits := rfl
@[simp] theorem modCrew_ilen (s : State) (k : Nat) (f : Crew → Crew) : (s.modCrew k f).ilen = s.ilen := rfl
@[simp] theorem modCrew_accPa (s : State) (k : Nat) (f : Crew → Crew) : (s.modCrew k f).accPa = s.accPa := rfl
@[simp] theorem modCrew_accTiers (s : State) (k : Nat) (f : Crew → Crew) : (s.modCrew k f).accTiers = s.accTiers := rfl
@[simp] theorem modCrew_agenda (s : State) (k : Nat) (f : Crew → Crew) : (s.modCrew k f).agenda = s.agenda := rfl
@[simp] theorem modCrew_draws (s : State) (k : Nat) (f : Crew → Crew) : (s.modCrew k f).draws = s.draws := rfl
@[simp] theorem modCrew_nextId (s : State) (k : Nat) (f : Crew → Crew) : (s.modCrew k f).nextId = s.nextId := rfl
@[simp] theorem modCrew_time (s : State) (k : Nat) (f : Crew → Crew) : (s.modCrew k f).time = s.time := rfl
@[simp] theorem modCrew_mem (s : State) (k : Nat) (f : Crew → Crew) : (s.modCrew k f).mem = s.mem := rfl
@[simp] theorem modCrew_poison (s : State) (k : Nat) (f : Crew → Crew) : (s.modCrew k f).poison = s.poison := rfl
@[simp] theorem modCrew_owners (s : State) (k : Nat) (f : Crew → Crew) : (s.modCrew k f).owners = s.owners := rfl
@[simp] theorem modCrew_pct (s : State) (k : Nat) (f : Crew → Crew) : (s.modCrew k f).pct = s.pct := rfl
@[simp] theorem modCrew_mmio (s : State) (k : Nat) (f : Crew → Crew) : (s.modCrew k f).mmio = s.mmio := rfl
@[simp] theorem modCrew_strands (s : State) (k : Nat) (f : Crew → Crew) : (s.modCrew k f).strands = s.strands := rfl
@[simp] theorem modCrew_fleets (s : State) (k : Nat) (f : Crew → Crew) : (s.modCrew k f).fleets = s.fleets := rfl
@[simp] theorem modCrew_frames (s : State) (k : Nat) (f : Crew → Crew) : (s.modCrew k f).frames = s.frames := rfl
@[simp] theorem modCrew_allocs (s : State) (k : Nat) (f : Crew → Crew) : (s.modCrew k f).allocs = s.allocs := rfl
@[simp] theorem modCrew_ghosts (s : State) (k : Nat) (f : Crew → Crew) : (s.modCrew k f).ghosts = s.ghosts := rfl
@[simp] theorem modCrew_notices (s : State) (k : Nat) (f : Crew → Crew) : (s.modCrew k f).notices = s.notices := rfl
@[simp] theorem modCrew_fwdq (s : State) (k : Nat) (f : Crew → Crew) : (s.modCrew k f).fwdq = s.fwdq := rfl
@[simp] theorem modCrew_lcores (s : State) (k : Nat) (f : Crew → Crew) : (s.modCrew k f).lcores = s.lcores := rfl
@[simp] theorem modCrew_cores (s : State) (k : Nat) (f : Crew → Crew) : (s.modCrew k f).cores = s.cores := rfl
@[simp] theorem modCrew_pods (s : State) (k : Nat) (f : Crew → Crew) : (s.modCrew k f).pods = s.pods := rfl
@[simp] theorem modCrew_dies (s : State) (k : Nat) (f : Crew → Crew) : (s.modCrew k f).dies = s.dies := rfl
@[simp] theorem modCrew_zones (s : State) (k : Nat) (f : Crew → Crew) : (s.modCrew k f).zones = s.zones := rfl
@[simp] theorem modCrew_pkg (s : State) (k : Nat) (f : Crew → Crew) : (s.modCrew k f).pkg = s.pkg := rfl
@[simp] theorem modCrew_tlb (s : State) (k : Nat) (f : Crew → Crew) : (s.modCrew k f).tlb = s.tlb := rfl
@[simp] theorem modCrew_ncs (s : State) (k : Nat) (f : Crew → Crew) : (s.modCrew k f).ncs = s.ncs := rfl
@[simp] theorem modCrew_ibuf (s : State) (k : Nat) (f : Crew → Crew) : (s.modCrew k f).ibuf = s.ibuf := rfl
@[simp] theorem modCrew_rbuf (s : State) (k : Nat) (f : Crew → Crew) : (s.modCrew k f).rbuf = s.rbuf := rfl
@[simp] theorem modCrew_holds (s : State) (k : Nat) (f : Crew → Crew) : (s.modCrew k f).holds = s.holds := rfl
@[simp] theorem modCrew_copies (s : State) (k : Nat) (f : Crew → Crew) : (s.modCrew k f).copies = s.copies := rfl
@[simp] theorem modCrew_engine (s : State) (k : Nat) (f : Crew → Crew) : (s.modCrew k f).engine = s.engine := rfl
@[simp] theorem modCrew_descs (s : State) (k : Nat) (f : Crew → Crew) : (s.modCrew k f).descs = s.descs := rfl
@[simp] theorem modCrew_invals (s : State) (k : Nat) (f : Crew → Crew) : (s.modCrew k f).invals = s.invals := rfl
@[simp] theorem modCrew_replicas (s : State) (k : Nat) (f : Crew → Crew) : (s.modCrew k f).replicas = s.replicas := rfl
@[simp] theorem modCrew_pats (s : State) (k : Nat) (f : Crew → Crew) : (s.modCrew k f).pats = s.pats := rfl
@[simp] theorem modCrew_hwq (s : State) (k : Nat) (f : Crew → Crew) : (s.modCrew k f).hwq = s.hwq := rfl
@[simp] theorem modCrew_lru (s : State) (k : Nat) (f : Crew → Crew) : (s.modCrew k f).lru = s.lru := rfl
@[simp] theorem modCrew_cycle (s : State) (k : Nat) (f : Crew → Crew) : (s.modCrew k f).cycle = s.cycle := rfl
@[simp] theorem modCrew_stalled (s : State) (k : Nat) (f : Crew → Crew) : (s.modCrew k f).stalled = s.stalled := rfl
@[simp] theorem modCrew_peerPosts (s : State) (k : Nat) (f : Crew → Crew) : (s.modCrew k f).peerPosts = s.peerPosts := rfl
@[simp] theorem modCrew_peerRgn (s : State) (k : Nat) (f : Crew → Crew) : (s.modCrew k f).peerRgn = s.peerRgn := rfl
@[simp] theorem modCrew_dir (s : State) (k : Nat) (f : Crew → Crew) : (s.modCrew k f).dir = s.dir := rfl
@[simp] theorem modCrew_snoop (s : State) (k : Nat) (f : Crew → Crew) : (s.modCrew k f).snoop = s.snoop := rfl
@[simp] theorem modCrew_iommus (s : State) (k : Nat) (f : Crew → Crew) : (s.modCrew k f).iommus = s.iommus := rfl
@[simp] theorem modCrew_dbgq (s : State) (k : Nat) (f : Crew → Crew) : (s.modCrew k f).dbgq = s.dbgq := rfl
@[simp] theorem modCrew_poolPtr (s : State) (k : Nat) (f : Crew → Crew) : (s.modCrew k f).poolPtr = s.poolPtr := rfl
@[simp] theorem modCrew_msis (s : State) (k : Nat) (f : Crew → Crew) : (s.modCrew k f).msis = s.msis := rfl

/-! ### `modFleet` -/

@[simp] theorem modFleet_cur (s : State) (k : Word) (f : Fleet → Fleet) : (s.modFleet k f).cur = s.cur := rfl
@[simp] theorem modFleet_ibits (s : State) (k : Word) (f : Fleet → Fleet) : (s.modFleet k f).ibits = s.ibits := rfl
@[simp] theorem modFleet_ilen (s : State) (k : Word) (f : Fleet → Fleet) : (s.modFleet k f).ilen = s.ilen := rfl
@[simp] theorem modFleet_accPa (s : State) (k : Word) (f : Fleet → Fleet) : (s.modFleet k f).accPa = s.accPa := rfl
@[simp] theorem modFleet_accTiers (s : State) (k : Word) (f : Fleet → Fleet) : (s.modFleet k f).accTiers = s.accTiers := rfl
@[simp] theorem modFleet_agenda (s : State) (k : Word) (f : Fleet → Fleet) : (s.modFleet k f).agenda = s.agenda := rfl
@[simp] theorem modFleet_draws (s : State) (k : Word) (f : Fleet → Fleet) : (s.modFleet k f).draws = s.draws := rfl
@[simp] theorem modFleet_nextId (s : State) (k : Word) (f : Fleet → Fleet) : (s.modFleet k f).nextId = s.nextId := rfl
@[simp] theorem modFleet_time (s : State) (k : Word) (f : Fleet → Fleet) : (s.modFleet k f).time = s.time := rfl
@[simp] theorem modFleet_mem (s : State) (k : Word) (f : Fleet → Fleet) : (s.modFleet k f).mem = s.mem := rfl
@[simp] theorem modFleet_poison (s : State) (k : Word) (f : Fleet → Fleet) : (s.modFleet k f).poison = s.poison := rfl
@[simp] theorem modFleet_owners (s : State) (k : Word) (f : Fleet → Fleet) : (s.modFleet k f).owners = s.owners := rfl
@[simp] theorem modFleet_pct (s : State) (k : Word) (f : Fleet → Fleet) : (s.modFleet k f).pct = s.pct := rfl
@[simp] theorem modFleet_mmio (s : State) (k : Word) (f : Fleet → Fleet) : (s.modFleet k f).mmio = s.mmio := rfl
@[simp] theorem modFleet_strands (s : State) (k : Word) (f : Fleet → Fleet) : (s.modFleet k f).strands = s.strands := rfl
@[simp] theorem modFleet_crews (s : State) (k : Word) (f : Fleet → Fleet) : (s.modFleet k f).crews = s.crews := rfl
@[simp] theorem modFleet_frames (s : State) (k : Word) (f : Fleet → Fleet) : (s.modFleet k f).frames = s.frames := rfl
@[simp] theorem modFleet_allocs (s : State) (k : Word) (f : Fleet → Fleet) : (s.modFleet k f).allocs = s.allocs := rfl
@[simp] theorem modFleet_ghosts (s : State) (k : Word) (f : Fleet → Fleet) : (s.modFleet k f).ghosts = s.ghosts := rfl
@[simp] theorem modFleet_notices (s : State) (k : Word) (f : Fleet → Fleet) : (s.modFleet k f).notices = s.notices := rfl
@[simp] theorem modFleet_fwdq (s : State) (k : Word) (f : Fleet → Fleet) : (s.modFleet k f).fwdq = s.fwdq := rfl
@[simp] theorem modFleet_lcores (s : State) (k : Word) (f : Fleet → Fleet) : (s.modFleet k f).lcores = s.lcores := rfl
@[simp] theorem modFleet_cores (s : State) (k : Word) (f : Fleet → Fleet) : (s.modFleet k f).cores = s.cores := rfl
@[simp] theorem modFleet_pods (s : State) (k : Word) (f : Fleet → Fleet) : (s.modFleet k f).pods = s.pods := rfl
@[simp] theorem modFleet_dies (s : State) (k : Word) (f : Fleet → Fleet) : (s.modFleet k f).dies = s.dies := rfl
@[simp] theorem modFleet_zones (s : State) (k : Word) (f : Fleet → Fleet) : (s.modFleet k f).zones = s.zones := rfl
@[simp] theorem modFleet_pkg (s : State) (k : Word) (f : Fleet → Fleet) : (s.modFleet k f).pkg = s.pkg := rfl
@[simp] theorem modFleet_tlb (s : State) (k : Word) (f : Fleet → Fleet) : (s.modFleet k f).tlb = s.tlb := rfl
@[simp] theorem modFleet_ncs (s : State) (k : Word) (f : Fleet → Fleet) : (s.modFleet k f).ncs = s.ncs := rfl
@[simp] theorem modFleet_ibuf (s : State) (k : Word) (f : Fleet → Fleet) : (s.modFleet k f).ibuf = s.ibuf := rfl
@[simp] theorem modFleet_rbuf (s : State) (k : Word) (f : Fleet → Fleet) : (s.modFleet k f).rbuf = s.rbuf := rfl
@[simp] theorem modFleet_holds (s : State) (k : Word) (f : Fleet → Fleet) : (s.modFleet k f).holds = s.holds := rfl
@[simp] theorem modFleet_copies (s : State) (k : Word) (f : Fleet → Fleet) : (s.modFleet k f).copies = s.copies := rfl
@[simp] theorem modFleet_engine (s : State) (k : Word) (f : Fleet → Fleet) : (s.modFleet k f).engine = s.engine := rfl
@[simp] theorem modFleet_descs (s : State) (k : Word) (f : Fleet → Fleet) : (s.modFleet k f).descs = s.descs := rfl
@[simp] theorem modFleet_invals (s : State) (k : Word) (f : Fleet → Fleet) : (s.modFleet k f).invals = s.invals := rfl
@[simp] theorem modFleet_replicas (s : State) (k : Word) (f : Fleet → Fleet) : (s.modFleet k f).replicas = s.replicas := rfl
@[simp] theorem modFleet_pats (s : State) (k : Word) (f : Fleet → Fleet) : (s.modFleet k f).pats = s.pats := rfl
@[simp] theorem modFleet_hwq (s : State) (k : Word) (f : Fleet → Fleet) : (s.modFleet k f).hwq = s.hwq := rfl
@[simp] theorem modFleet_lru (s : State) (k : Word) (f : Fleet → Fleet) : (s.modFleet k f).lru = s.lru := rfl
@[simp] theorem modFleet_cycle (s : State) (k : Word) (f : Fleet → Fleet) : (s.modFleet k f).cycle = s.cycle := rfl
@[simp] theorem modFleet_stalled (s : State) (k : Word) (f : Fleet → Fleet) : (s.modFleet k f).stalled = s.stalled := rfl
@[simp] theorem modFleet_peerPosts (s : State) (k : Word) (f : Fleet → Fleet) : (s.modFleet k f).peerPosts = s.peerPosts := rfl
@[simp] theorem modFleet_peerRgn (s : State) (k : Word) (f : Fleet → Fleet) : (s.modFleet k f).peerRgn = s.peerRgn := rfl
@[simp] theorem modFleet_dir (s : State) (k : Word) (f : Fleet → Fleet) : (s.modFleet k f).dir = s.dir := rfl
@[simp] theorem modFleet_snoop (s : State) (k : Word) (f : Fleet → Fleet) : (s.modFleet k f).snoop = s.snoop := rfl
@[simp] theorem modFleet_iommus (s : State) (k : Word) (f : Fleet → Fleet) : (s.modFleet k f).iommus = s.iommus := rfl
@[simp] theorem modFleet_dbgq (s : State) (k : Word) (f : Fleet → Fleet) : (s.modFleet k f).dbgq = s.dbgq := rfl
@[simp] theorem modFleet_poolPtr (s : State) (k : Word) (f : Fleet → Fleet) : (s.modFleet k f).poolPtr = s.poolPtr := rfl
@[simp] theorem modFleet_msis (s : State) (k : Word) (f : Fleet → Fleet) : (s.modFleet k f).msis = s.msis := rfl

/-! ### `modFrame` -/

@[simp] theorem modFrame_cur (s : State) (k : Nat) (f : Frame → Frame) : (s.modFrame k f).cur = s.cur := rfl
@[simp] theorem modFrame_ibits (s : State) (k : Nat) (f : Frame → Frame) : (s.modFrame k f).ibits = s.ibits := rfl
@[simp] theorem modFrame_ilen (s : State) (k : Nat) (f : Frame → Frame) : (s.modFrame k f).ilen = s.ilen := rfl
@[simp] theorem modFrame_accPa (s : State) (k : Nat) (f : Frame → Frame) : (s.modFrame k f).accPa = s.accPa := rfl
@[simp] theorem modFrame_accTiers (s : State) (k : Nat) (f : Frame → Frame) : (s.modFrame k f).accTiers = s.accTiers := rfl
@[simp] theorem modFrame_agenda (s : State) (k : Nat) (f : Frame → Frame) : (s.modFrame k f).agenda = s.agenda := rfl
@[simp] theorem modFrame_draws (s : State) (k : Nat) (f : Frame → Frame) : (s.modFrame k f).draws = s.draws := rfl
@[simp] theorem modFrame_nextId (s : State) (k : Nat) (f : Frame → Frame) : (s.modFrame k f).nextId = s.nextId := rfl
@[simp] theorem modFrame_time (s : State) (k : Nat) (f : Frame → Frame) : (s.modFrame k f).time = s.time := rfl
@[simp] theorem modFrame_mem (s : State) (k : Nat) (f : Frame → Frame) : (s.modFrame k f).mem = s.mem := rfl
@[simp] theorem modFrame_poison (s : State) (k : Nat) (f : Frame → Frame) : (s.modFrame k f).poison = s.poison := rfl
@[simp] theorem modFrame_owners (s : State) (k : Nat) (f : Frame → Frame) : (s.modFrame k f).owners = s.owners := rfl
@[simp] theorem modFrame_pct (s : State) (k : Nat) (f : Frame → Frame) : (s.modFrame k f).pct = s.pct := rfl
@[simp] theorem modFrame_mmio (s : State) (k : Nat) (f : Frame → Frame) : (s.modFrame k f).mmio = s.mmio := rfl
@[simp] theorem modFrame_strands (s : State) (k : Nat) (f : Frame → Frame) : (s.modFrame k f).strands = s.strands := rfl
@[simp] theorem modFrame_crews (s : State) (k : Nat) (f : Frame → Frame) : (s.modFrame k f).crews = s.crews := rfl
@[simp] theorem modFrame_fleets (s : State) (k : Nat) (f : Frame → Frame) : (s.modFrame k f).fleets = s.fleets := rfl
@[simp] theorem modFrame_allocs (s : State) (k : Nat) (f : Frame → Frame) : (s.modFrame k f).allocs = s.allocs := rfl
@[simp] theorem modFrame_ghosts (s : State) (k : Nat) (f : Frame → Frame) : (s.modFrame k f).ghosts = s.ghosts := rfl
@[simp] theorem modFrame_notices (s : State) (k : Nat) (f : Frame → Frame) : (s.modFrame k f).notices = s.notices := rfl
@[simp] theorem modFrame_fwdq (s : State) (k : Nat) (f : Frame → Frame) : (s.modFrame k f).fwdq = s.fwdq := rfl
@[simp] theorem modFrame_lcores (s : State) (k : Nat) (f : Frame → Frame) : (s.modFrame k f).lcores = s.lcores := rfl
@[simp] theorem modFrame_cores (s : State) (k : Nat) (f : Frame → Frame) : (s.modFrame k f).cores = s.cores := rfl
@[simp] theorem modFrame_pods (s : State) (k : Nat) (f : Frame → Frame) : (s.modFrame k f).pods = s.pods := rfl
@[simp] theorem modFrame_dies (s : State) (k : Nat) (f : Frame → Frame) : (s.modFrame k f).dies = s.dies := rfl
@[simp] theorem modFrame_zones (s : State) (k : Nat) (f : Frame → Frame) : (s.modFrame k f).zones = s.zones := rfl
@[simp] theorem modFrame_pkg (s : State) (k : Nat) (f : Frame → Frame) : (s.modFrame k f).pkg = s.pkg := rfl
@[simp] theorem modFrame_tlb (s : State) (k : Nat) (f : Frame → Frame) : (s.modFrame k f).tlb = s.tlb := rfl
@[simp] theorem modFrame_ncs (s : State) (k : Nat) (f : Frame → Frame) : (s.modFrame k f).ncs = s.ncs := rfl
@[simp] theorem modFrame_ibuf (s : State) (k : Nat) (f : Frame → Frame) : (s.modFrame k f).ibuf = s.ibuf := rfl
@[simp] theorem modFrame_rbuf (s : State) (k : Nat) (f : Frame → Frame) : (s.modFrame k f).rbuf = s.rbuf := rfl
@[simp] theorem modFrame_holds (s : State) (k : Nat) (f : Frame → Frame) : (s.modFrame k f).holds = s.holds := rfl
@[simp] theorem modFrame_copies (s : State) (k : Nat) (f : Frame → Frame) : (s.modFrame k f).copies = s.copies := rfl
@[simp] theorem modFrame_engine (s : State) (k : Nat) (f : Frame → Frame) : (s.modFrame k f).engine = s.engine := rfl
@[simp] theorem modFrame_descs (s : State) (k : Nat) (f : Frame → Frame) : (s.modFrame k f).descs = s.descs := rfl
@[simp] theorem modFrame_invals (s : State) (k : Nat) (f : Frame → Frame) : (s.modFrame k f).invals = s.invals := rfl
@[simp] theorem modFrame_replicas (s : State) (k : Nat) (f : Frame → Frame) : (s.modFrame k f).replicas = s.replicas := rfl
@[simp] theorem modFrame_pats (s : State) (k : Nat) (f : Frame → Frame) : (s.modFrame k f).pats = s.pats := rfl
@[simp] theorem modFrame_hwq (s : State) (k : Nat) (f : Frame → Frame) : (s.modFrame k f).hwq = s.hwq := rfl
@[simp] theorem modFrame_lru (s : State) (k : Nat) (f : Frame → Frame) : (s.modFrame k f).lru = s.lru := rfl
@[simp] theorem modFrame_cycle (s : State) (k : Nat) (f : Frame → Frame) : (s.modFrame k f).cycle = s.cycle := rfl
@[simp] theorem modFrame_stalled (s : State) (k : Nat) (f : Frame → Frame) : (s.modFrame k f).stalled = s.stalled := rfl
@[simp] theorem modFrame_peerPosts (s : State) (k : Nat) (f : Frame → Frame) : (s.modFrame k f).peerPosts = s.peerPosts := rfl
@[simp] theorem modFrame_peerRgn (s : State) (k : Nat) (f : Frame → Frame) : (s.modFrame k f).peerRgn = s.peerRgn := rfl
@[simp] theorem modFrame_dir (s : State) (k : Nat) (f : Frame → Frame) : (s.modFrame k f).dir = s.dir := rfl
@[simp] theorem modFrame_snoop (s : State) (k : Nat) (f : Frame → Frame) : (s.modFrame k f).snoop = s.snoop := rfl
@[simp] theorem modFrame_iommus (s : State) (k : Nat) (f : Frame → Frame) : (s.modFrame k f).iommus = s.iommus := rfl
@[simp] theorem modFrame_dbgq (s : State) (k : Nat) (f : Frame → Frame) : (s.modFrame k f).dbgq = s.dbgq := rfl
@[simp] theorem modFrame_poolPtr (s : State) (k : Nat) (f : Frame → Frame) : (s.modFrame k f).poolPtr = s.poolPtr := rfl
@[simp] theorem modFrame_msis (s : State) (k : Nat) (f : Frame → Frame) : (s.modFrame k f).msis = s.msis := rfl

/-! ### `modCore` -/

@[simp] theorem modCore_cur (s : State) (k : Nat) (f : CoreState → CoreState) : (s.modCore k f).cur = s.cur := rfl
@[simp] theorem modCore_ibits (s : State) (k : Nat) (f : CoreState → CoreState) : (s.modCore k f).ibits = s.ibits := rfl
@[simp] theorem modCore_ilen (s : State) (k : Nat) (f : CoreState → CoreState) : (s.modCore k f).ilen = s.ilen := rfl
@[simp] theorem modCore_accPa (s : State) (k : Nat) (f : CoreState → CoreState) : (s.modCore k f).accPa = s.accPa := rfl
@[simp] theorem modCore_accTiers (s : State) (k : Nat) (f : CoreState → CoreState) : (s.modCore k f).accTiers = s.accTiers := rfl
@[simp] theorem modCore_agenda (s : State) (k : Nat) (f : CoreState → CoreState) : (s.modCore k f).agenda = s.agenda := rfl
@[simp] theorem modCore_draws (s : State) (k : Nat) (f : CoreState → CoreState) : (s.modCore k f).draws = s.draws := rfl
@[simp] theorem modCore_nextId (s : State) (k : Nat) (f : CoreState → CoreState) : (s.modCore k f).nextId = s.nextId := rfl
@[simp] theorem modCore_time (s : State) (k : Nat) (f : CoreState → CoreState) : (s.modCore k f).time = s.time := rfl
@[simp] theorem modCore_mem (s : State) (k : Nat) (f : CoreState → CoreState) : (s.modCore k f).mem = s.mem := rfl
@[simp] theorem modCore_poison (s : State) (k : Nat) (f : CoreState → CoreState) : (s.modCore k f).poison = s.poison := rfl
@[simp] theorem modCore_owners (s : State) (k : Nat) (f : CoreState → CoreState) : (s.modCore k f).owners = s.owners := rfl
@[simp] theorem modCore_pct (s : State) (k : Nat) (f : CoreState → CoreState) : (s.modCore k f).pct = s.pct := rfl
@[simp] theorem modCore_mmio (s : State) (k : Nat) (f : CoreState → CoreState) : (s.modCore k f).mmio = s.mmio := rfl
@[simp] theorem modCore_strands (s : State) (k : Nat) (f : CoreState → CoreState) : (s.modCore k f).strands = s.strands := rfl
@[simp] theorem modCore_crews (s : State) (k : Nat) (f : CoreState → CoreState) : (s.modCore k f).crews = s.crews := rfl
@[simp] theorem modCore_fleets (s : State) (k : Nat) (f : CoreState → CoreState) : (s.modCore k f).fleets = s.fleets := rfl
@[simp] theorem modCore_frames (s : State) (k : Nat) (f : CoreState → CoreState) : (s.modCore k f).frames = s.frames := rfl
@[simp] theorem modCore_allocs (s : State) (k : Nat) (f : CoreState → CoreState) : (s.modCore k f).allocs = s.allocs := rfl
@[simp] theorem modCore_ghosts (s : State) (k : Nat) (f : CoreState → CoreState) : (s.modCore k f).ghosts = s.ghosts := rfl
@[simp] theorem modCore_notices (s : State) (k : Nat) (f : CoreState → CoreState) : (s.modCore k f).notices = s.notices := rfl
@[simp] theorem modCore_fwdq (s : State) (k : Nat) (f : CoreState → CoreState) : (s.modCore k f).fwdq = s.fwdq := rfl
@[simp] theorem modCore_lcores (s : State) (k : Nat) (f : CoreState → CoreState) : (s.modCore k f).lcores = s.lcores := rfl
@[simp] theorem modCore_pods (s : State) (k : Nat) (f : CoreState → CoreState) : (s.modCore k f).pods = s.pods := rfl
@[simp] theorem modCore_dies (s : State) (k : Nat) (f : CoreState → CoreState) : (s.modCore k f).dies = s.dies := rfl
@[simp] theorem modCore_zones (s : State) (k : Nat) (f : CoreState → CoreState) : (s.modCore k f).zones = s.zones := rfl
@[simp] theorem modCore_pkg (s : State) (k : Nat) (f : CoreState → CoreState) : (s.modCore k f).pkg = s.pkg := rfl
@[simp] theorem modCore_tlb (s : State) (k : Nat) (f : CoreState → CoreState) : (s.modCore k f).tlb = s.tlb := rfl
@[simp] theorem modCore_ncs (s : State) (k : Nat) (f : CoreState → CoreState) : (s.modCore k f).ncs = s.ncs := rfl
@[simp] theorem modCore_ibuf (s : State) (k : Nat) (f : CoreState → CoreState) : (s.modCore k f).ibuf = s.ibuf := rfl
@[simp] theorem modCore_rbuf (s : State) (k : Nat) (f : CoreState → CoreState) : (s.modCore k f).rbuf = s.rbuf := rfl
@[simp] theorem modCore_holds (s : State) (k : Nat) (f : CoreState → CoreState) : (s.modCore k f).holds = s.holds := rfl
@[simp] theorem modCore_copies (s : State) (k : Nat) (f : CoreState → CoreState) : (s.modCore k f).copies = s.copies := rfl
@[simp] theorem modCore_engine (s : State) (k : Nat) (f : CoreState → CoreState) : (s.modCore k f).engine = s.engine := rfl
@[simp] theorem modCore_descs (s : State) (k : Nat) (f : CoreState → CoreState) : (s.modCore k f).descs = s.descs := rfl
@[simp] theorem modCore_invals (s : State) (k : Nat) (f : CoreState → CoreState) : (s.modCore k f).invals = s.invals := rfl
@[simp] theorem modCore_replicas (s : State) (k : Nat) (f : CoreState → CoreState) : (s.modCore k f).replicas = s.replicas := rfl
@[simp] theorem modCore_pats (s : State) (k : Nat) (f : CoreState → CoreState) : (s.modCore k f).pats = s.pats := rfl
@[simp] theorem modCore_hwq (s : State) (k : Nat) (f : CoreState → CoreState) : (s.modCore k f).hwq = s.hwq := rfl
@[simp] theorem modCore_lru (s : State) (k : Nat) (f : CoreState → CoreState) : (s.modCore k f).lru = s.lru := rfl
@[simp] theorem modCore_cycle (s : State) (k : Nat) (f : CoreState → CoreState) : (s.modCore k f).cycle = s.cycle := rfl
@[simp] theorem modCore_stalled (s : State) (k : Nat) (f : CoreState → CoreState) : (s.modCore k f).stalled = s.stalled := rfl
@[simp] theorem modCore_peerPosts (s : State) (k : Nat) (f : CoreState → CoreState) : (s.modCore k f).peerPosts = s.peerPosts := rfl
@[simp] theorem modCore_peerRgn (s : State) (k : Nat) (f : CoreState → CoreState) : (s.modCore k f).peerRgn = s.peerRgn := rfl
@[simp] theorem modCore_dir (s : State) (k : Nat) (f : CoreState → CoreState) : (s.modCore k f).dir = s.dir := rfl
@[simp] theorem modCore_snoop (s : State) (k : Nat) (f : CoreState → CoreState) : (s.modCore k f).snoop = s.snoop := rfl
@[simp] theorem modCore_iommus (s : State) (k : Nat) (f : CoreState → CoreState) : (s.modCore k f).iommus = s.iommus := rfl
@[simp] theorem modCore_dbgq (s : State) (k : Nat) (f : CoreState → CoreState) : (s.modCore k f).dbgq = s.dbgq := rfl
@[simp] theorem modCore_poolPtr (s : State) (k : Nat) (f : CoreState → CoreState) : (s.modCore k f).poolPtr = s.poolPtr := rfl
@[simp] theorem modCore_msis (s : State) (k : Nat) (f : CoreState → CoreState) : (s.modCore k f).msis = s.msis := rfl

/-! ### `modPod` -/

@[simp] theorem modPod_cur (s : State) (k : Nat) (f : PodState → PodState) : (s.modPod k f).cur = s.cur := rfl
@[simp] theorem modPod_ibits (s : State) (k : Nat) (f : PodState → PodState) : (s.modPod k f).ibits = s.ibits := rfl
@[simp] theorem modPod_ilen (s : State) (k : Nat) (f : PodState → PodState) : (s.modPod k f).ilen = s.ilen := rfl
@[simp] theorem modPod_accPa (s : State) (k : Nat) (f : PodState → PodState) : (s.modPod k f).accPa = s.accPa := rfl
@[simp] theorem modPod_accTiers (s : State) (k : Nat) (f : PodState → PodState) : (s.modPod k f).accTiers = s.accTiers := rfl
@[simp] theorem modPod_agenda (s : State) (k : Nat) (f : PodState → PodState) : (s.modPod k f).agenda = s.agenda := rfl
@[simp] theorem modPod_draws (s : State) (k : Nat) (f : PodState → PodState) : (s.modPod k f).draws = s.draws := rfl
@[simp] theorem modPod_nextId (s : State) (k : Nat) (f : PodState → PodState) : (s.modPod k f).nextId = s.nextId := rfl
@[simp] theorem modPod_time (s : State) (k : Nat) (f : PodState → PodState) : (s.modPod k f).time = s.time := rfl
@[simp] theorem modPod_mem (s : State) (k : Nat) (f : PodState → PodState) : (s.modPod k f).mem = s.mem := rfl
@[simp] theorem modPod_poison (s : State) (k : Nat) (f : PodState → PodState) : (s.modPod k f).poison = s.poison := rfl
@[simp] theorem modPod_owners (s : State) (k : Nat) (f : PodState → PodState) : (s.modPod k f).owners = s.owners := rfl
@[simp] theorem modPod_pct (s : State) (k : Nat) (f : PodState → PodState) : (s.modPod k f).pct = s.pct := rfl
@[simp] theorem modPod_mmio (s : State) (k : Nat) (f : PodState → PodState) : (s.modPod k f).mmio = s.mmio := rfl
@[simp] theorem modPod_strands (s : State) (k : Nat) (f : PodState → PodState) : (s.modPod k f).strands = s.strands := rfl
@[simp] theorem modPod_crews (s : State) (k : Nat) (f : PodState → PodState) : (s.modPod k f).crews = s.crews := rfl
@[simp] theorem modPod_fleets (s : State) (k : Nat) (f : PodState → PodState) : (s.modPod k f).fleets = s.fleets := rfl
@[simp] theorem modPod_frames (s : State) (k : Nat) (f : PodState → PodState) : (s.modPod k f).frames = s.frames := rfl
@[simp] theorem modPod_allocs (s : State) (k : Nat) (f : PodState → PodState) : (s.modPod k f).allocs = s.allocs := rfl
@[simp] theorem modPod_ghosts (s : State) (k : Nat) (f : PodState → PodState) : (s.modPod k f).ghosts = s.ghosts := rfl
@[simp] theorem modPod_notices (s : State) (k : Nat) (f : PodState → PodState) : (s.modPod k f).notices = s.notices := rfl
@[simp] theorem modPod_fwdq (s : State) (k : Nat) (f : PodState → PodState) : (s.modPod k f).fwdq = s.fwdq := rfl
@[simp] theorem modPod_lcores (s : State) (k : Nat) (f : PodState → PodState) : (s.modPod k f).lcores = s.lcores := rfl
@[simp] theorem modPod_cores (s : State) (k : Nat) (f : PodState → PodState) : (s.modPod k f).cores = s.cores := rfl
@[simp] theorem modPod_dies (s : State) (k : Nat) (f : PodState → PodState) : (s.modPod k f).dies = s.dies := rfl
@[simp] theorem modPod_zones (s : State) (k : Nat) (f : PodState → PodState) : (s.modPod k f).zones = s.zones := rfl
@[simp] theorem modPod_pkg (s : State) (k : Nat) (f : PodState → PodState) : (s.modPod k f).pkg = s.pkg := rfl
@[simp] theorem modPod_tlb (s : State) (k : Nat) (f : PodState → PodState) : (s.modPod k f).tlb = s.tlb := rfl
@[simp] theorem modPod_ncs (s : State) (k : Nat) (f : PodState → PodState) : (s.modPod k f).ncs = s.ncs := rfl
@[simp] theorem modPod_ibuf (s : State) (k : Nat) (f : PodState → PodState) : (s.modPod k f).ibuf = s.ibuf := rfl
@[simp] theorem modPod_rbuf (s : State) (k : Nat) (f : PodState → PodState) : (s.modPod k f).rbuf = s.rbuf := rfl
@[simp] theorem modPod_holds (s : State) (k : Nat) (f : PodState → PodState) : (s.modPod k f).holds = s.holds := rfl
@[simp] theorem modPod_copies (s : State) (k : Nat) (f : PodState → PodState) : (s.modPod k f).copies = s.copies := rfl
@[simp] theorem modPod_engine (s : State) (k : Nat) (f : PodState → PodState) : (s.modPod k f).engine = s.engine := rfl
@[simp] theorem modPod_descs (s : State) (k : Nat) (f : PodState → PodState) : (s.modPod k f).descs = s.descs := rfl
@[simp] theorem modPod_invals (s : State) (k : Nat) (f : PodState → PodState) : (s.modPod k f).invals = s.invals := rfl
@[simp] theorem modPod_replicas (s : State) (k : Nat) (f : PodState → PodState) : (s.modPod k f).replicas = s.replicas := rfl
@[simp] theorem modPod_pats (s : State) (k : Nat) (f : PodState → PodState) : (s.modPod k f).pats = s.pats := rfl
@[simp] theorem modPod_hwq (s : State) (k : Nat) (f : PodState → PodState) : (s.modPod k f).hwq = s.hwq := rfl
@[simp] theorem modPod_lru (s : State) (k : Nat) (f : PodState → PodState) : (s.modPod k f).lru = s.lru := rfl
@[simp] theorem modPod_cycle (s : State) (k : Nat) (f : PodState → PodState) : (s.modPod k f).cycle = s.cycle := rfl
@[simp] theorem modPod_stalled (s : State) (k : Nat) (f : PodState → PodState) : (s.modPod k f).stalled = s.stalled := rfl
@[simp] theorem modPod_peerPosts (s : State) (k : Nat) (f : PodState → PodState) : (s.modPod k f).peerPosts = s.peerPosts := rfl
@[simp] theorem modPod_peerRgn (s : State) (k : Nat) (f : PodState → PodState) : (s.modPod k f).peerRgn = s.peerRgn := rfl
@[simp] theorem modPod_dir (s : State) (k : Nat) (f : PodState → PodState) : (s.modPod k f).dir = s.dir := rfl
@[simp] theorem modPod_snoop (s : State) (k : Nat) (f : PodState → PodState) : (s.modPod k f).snoop = s.snoop := rfl
@[simp] theorem modPod_iommus (s : State) (k : Nat) (f : PodState → PodState) : (s.modPod k f).iommus = s.iommus := rfl
@[simp] theorem modPod_dbgq (s : State) (k : Nat) (f : PodState → PodState) : (s.modPod k f).dbgq = s.dbgq := rfl
@[simp] theorem modPod_poolPtr (s : State) (k : Nat) (f : PodState → PodState) : (s.modPod k f).poolPtr = s.poolPtr := rfl
@[simp] theorem modPod_msis (s : State) (k : Nat) (f : PodState → PodState) : (s.modPod k f).msis = s.msis := rfl

/-! ### `modDie` -/

@[simp] theorem modDie_cur (s : State) (k : Nat) (f : DieState → DieState) : (s.modDie k f).cur = s.cur := rfl
@[simp] theorem modDie_ibits (s : State) (k : Nat) (f : DieState → DieState) : (s.modDie k f).ibits = s.ibits := rfl
@[simp] theorem modDie_ilen (s : State) (k : Nat) (f : DieState → DieState) : (s.modDie k f).ilen = s.ilen := rfl
@[simp] theorem modDie_accPa (s : State) (k : Nat) (f : DieState → DieState) : (s.modDie k f).accPa = s.accPa := rfl
@[simp] theorem modDie_accTiers (s : State) (k : Nat) (f : DieState → DieState) : (s.modDie k f).accTiers = s.accTiers := rfl
@[simp] theorem modDie_agenda (s : State) (k : Nat) (f : DieState → DieState) : (s.modDie k f).agenda = s.agenda := rfl
@[simp] theorem modDie_draws (s : State) (k : Nat) (f : DieState → DieState) : (s.modDie k f).draws = s.draws := rfl
@[simp] theorem modDie_nextId (s : State) (k : Nat) (f : DieState → DieState) : (s.modDie k f).nextId = s.nextId := rfl
@[simp] theorem modDie_time (s : State) (k : Nat) (f : DieState → DieState) : (s.modDie k f).time = s.time := rfl
@[simp] theorem modDie_mem (s : State) (k : Nat) (f : DieState → DieState) : (s.modDie k f).mem = s.mem := rfl
@[simp] theorem modDie_poison (s : State) (k : Nat) (f : DieState → DieState) : (s.modDie k f).poison = s.poison := rfl
@[simp] theorem modDie_owners (s : State) (k : Nat) (f : DieState → DieState) : (s.modDie k f).owners = s.owners := rfl
@[simp] theorem modDie_pct (s : State) (k : Nat) (f : DieState → DieState) : (s.modDie k f).pct = s.pct := rfl
@[simp] theorem modDie_mmio (s : State) (k : Nat) (f : DieState → DieState) : (s.modDie k f).mmio = s.mmio := rfl
@[simp] theorem modDie_strands (s : State) (k : Nat) (f : DieState → DieState) : (s.modDie k f).strands = s.strands := rfl
@[simp] theorem modDie_crews (s : State) (k : Nat) (f : DieState → DieState) : (s.modDie k f).crews = s.crews := rfl
@[simp] theorem modDie_fleets (s : State) (k : Nat) (f : DieState → DieState) : (s.modDie k f).fleets = s.fleets := rfl
@[simp] theorem modDie_frames (s : State) (k : Nat) (f : DieState → DieState) : (s.modDie k f).frames = s.frames := rfl
@[simp] theorem modDie_allocs (s : State) (k : Nat) (f : DieState → DieState) : (s.modDie k f).allocs = s.allocs := rfl
@[simp] theorem modDie_ghosts (s : State) (k : Nat) (f : DieState → DieState) : (s.modDie k f).ghosts = s.ghosts := rfl
@[simp] theorem modDie_notices (s : State) (k : Nat) (f : DieState → DieState) : (s.modDie k f).notices = s.notices := rfl
@[simp] theorem modDie_fwdq (s : State) (k : Nat) (f : DieState → DieState) : (s.modDie k f).fwdq = s.fwdq := rfl
@[simp] theorem modDie_lcores (s : State) (k : Nat) (f : DieState → DieState) : (s.modDie k f).lcores = s.lcores := rfl
@[simp] theorem modDie_cores (s : State) (k : Nat) (f : DieState → DieState) : (s.modDie k f).cores = s.cores := rfl
@[simp] theorem modDie_pods (s : State) (k : Nat) (f : DieState → DieState) : (s.modDie k f).pods = s.pods := rfl
@[simp] theorem modDie_zones (s : State) (k : Nat) (f : DieState → DieState) : (s.modDie k f).zones = s.zones := rfl
@[simp] theorem modDie_pkg (s : State) (k : Nat) (f : DieState → DieState) : (s.modDie k f).pkg = s.pkg := rfl
@[simp] theorem modDie_tlb (s : State) (k : Nat) (f : DieState → DieState) : (s.modDie k f).tlb = s.tlb := rfl
@[simp] theorem modDie_ncs (s : State) (k : Nat) (f : DieState → DieState) : (s.modDie k f).ncs = s.ncs := rfl
@[simp] theorem modDie_ibuf (s : State) (k : Nat) (f : DieState → DieState) : (s.modDie k f).ibuf = s.ibuf := rfl
@[simp] theorem modDie_rbuf (s : State) (k : Nat) (f : DieState → DieState) : (s.modDie k f).rbuf = s.rbuf := rfl
@[simp] theorem modDie_holds (s : State) (k : Nat) (f : DieState → DieState) : (s.modDie k f).holds = s.holds := rfl
@[simp] theorem modDie_copies (s : State) (k : Nat) (f : DieState → DieState) : (s.modDie k f).copies = s.copies := rfl
@[simp] theorem modDie_engine (s : State) (k : Nat) (f : DieState → DieState) : (s.modDie k f).engine = s.engine := rfl
@[simp] theorem modDie_descs (s : State) (k : Nat) (f : DieState → DieState) : (s.modDie k f).descs = s.descs := rfl
@[simp] theorem modDie_invals (s : State) (k : Nat) (f : DieState → DieState) : (s.modDie k f).invals = s.invals := rfl
@[simp] theorem modDie_replicas (s : State) (k : Nat) (f : DieState → DieState) : (s.modDie k f).replicas = s.replicas := rfl
@[simp] theorem modDie_pats (s : State) (k : Nat) (f : DieState → DieState) : (s.modDie k f).pats = s.pats := rfl
@[simp] theorem modDie_hwq (s : State) (k : Nat) (f : DieState → DieState) : (s.modDie k f).hwq = s.hwq := rfl
@[simp] theorem modDie_lru (s : State) (k : Nat) (f : DieState → DieState) : (s.modDie k f).lru = s.lru := rfl
@[simp] theorem modDie_cycle (s : State) (k : Nat) (f : DieState → DieState) : (s.modDie k f).cycle = s.cycle := rfl
@[simp] theorem modDie_stalled (s : State) (k : Nat) (f : DieState → DieState) : (s.modDie k f).stalled = s.stalled := rfl
@[simp] theorem modDie_peerPosts (s : State) (k : Nat) (f : DieState → DieState) : (s.modDie k f).peerPosts = s.peerPosts := rfl
@[simp] theorem modDie_peerRgn (s : State) (k : Nat) (f : DieState → DieState) : (s.modDie k f).peerRgn = s.peerRgn := rfl
@[simp] theorem modDie_dir (s : State) (k : Nat) (f : DieState → DieState) : (s.modDie k f).dir = s.dir := rfl
@[simp] theorem modDie_snoop (s : State) (k : Nat) (f : DieState → DieState) : (s.modDie k f).snoop = s.snoop := rfl
@[simp] theorem modDie_iommus (s : State) (k : Nat) (f : DieState → DieState) : (s.modDie k f).iommus = s.iommus := rfl
@[simp] theorem modDie_dbgq (s : State) (k : Nat) (f : DieState → DieState) : (s.modDie k f).dbgq = s.dbgq := rfl
@[simp] theorem modDie_poolPtr (s : State) (k : Nat) (f : DieState → DieState) : (s.modDie k f).poolPtr = s.poolPtr := rfl
@[simp] theorem modDie_msis (s : State) (k : Nat) (f : DieState → DieState) : (s.modDie k f).msis = s.msis := rfl

/-! ### `modZone` -/

@[simp] theorem modZone_cur (s : State) (k : Nat) (f : ZoneState → ZoneState) : (s.modZone k f).cur = s.cur := rfl
@[simp] theorem modZone_ibits (s : State) (k : Nat) (f : ZoneState → ZoneState) : (s.modZone k f).ibits = s.ibits := rfl
@[simp] theorem modZone_ilen (s : State) (k : Nat) (f : ZoneState → ZoneState) : (s.modZone k f).ilen = s.ilen := rfl
@[simp] theorem modZone_accPa (s : State) (k : Nat) (f : ZoneState → ZoneState) : (s.modZone k f).accPa = s.accPa := rfl
@[simp] theorem modZone_accTiers (s : State) (k : Nat) (f : ZoneState → ZoneState) : (s.modZone k f).accTiers = s.accTiers := rfl
@[simp] theorem modZone_agenda (s : State) (k : Nat) (f : ZoneState → ZoneState) : (s.modZone k f).agenda = s.agenda := rfl
@[simp] theorem modZone_draws (s : State) (k : Nat) (f : ZoneState → ZoneState) : (s.modZone k f).draws = s.draws := rfl
@[simp] theorem modZone_nextId (s : State) (k : Nat) (f : ZoneState → ZoneState) : (s.modZone k f).nextId = s.nextId := rfl
@[simp] theorem modZone_time (s : State) (k : Nat) (f : ZoneState → ZoneState) : (s.modZone k f).time = s.time := rfl
@[simp] theorem modZone_mem (s : State) (k : Nat) (f : ZoneState → ZoneState) : (s.modZone k f).mem = s.mem := rfl
@[simp] theorem modZone_poison (s : State) (k : Nat) (f : ZoneState → ZoneState) : (s.modZone k f).poison = s.poison := rfl
@[simp] theorem modZone_owners (s : State) (k : Nat) (f : ZoneState → ZoneState) : (s.modZone k f).owners = s.owners := rfl
@[simp] theorem modZone_pct (s : State) (k : Nat) (f : ZoneState → ZoneState) : (s.modZone k f).pct = s.pct := rfl
@[simp] theorem modZone_mmio (s : State) (k : Nat) (f : ZoneState → ZoneState) : (s.modZone k f).mmio = s.mmio := rfl
@[simp] theorem modZone_strands (s : State) (k : Nat) (f : ZoneState → ZoneState) : (s.modZone k f).strands = s.strands := rfl
@[simp] theorem modZone_crews (s : State) (k : Nat) (f : ZoneState → ZoneState) : (s.modZone k f).crews = s.crews := rfl
@[simp] theorem modZone_fleets (s : State) (k : Nat) (f : ZoneState → ZoneState) : (s.modZone k f).fleets = s.fleets := rfl
@[simp] theorem modZone_frames (s : State) (k : Nat) (f : ZoneState → ZoneState) : (s.modZone k f).frames = s.frames := rfl
@[simp] theorem modZone_allocs (s : State) (k : Nat) (f : ZoneState → ZoneState) : (s.modZone k f).allocs = s.allocs := rfl
@[simp] theorem modZone_ghosts (s : State) (k : Nat) (f : ZoneState → ZoneState) : (s.modZone k f).ghosts = s.ghosts := rfl
@[simp] theorem modZone_notices (s : State) (k : Nat) (f : ZoneState → ZoneState) : (s.modZone k f).notices = s.notices := rfl
@[simp] theorem modZone_fwdq (s : State) (k : Nat) (f : ZoneState → ZoneState) : (s.modZone k f).fwdq = s.fwdq := rfl
@[simp] theorem modZone_lcores (s : State) (k : Nat) (f : ZoneState → ZoneState) : (s.modZone k f).lcores = s.lcores := rfl
@[simp] theorem modZone_cores (s : State) (k : Nat) (f : ZoneState → ZoneState) : (s.modZone k f).cores = s.cores := rfl
@[simp] theorem modZone_pods (s : State) (k : Nat) (f : ZoneState → ZoneState) : (s.modZone k f).pods = s.pods := rfl
@[simp] theorem modZone_dies (s : State) (k : Nat) (f : ZoneState → ZoneState) : (s.modZone k f).dies = s.dies := rfl
@[simp] theorem modZone_pkg (s : State) (k : Nat) (f : ZoneState → ZoneState) : (s.modZone k f).pkg = s.pkg := rfl
@[simp] theorem modZone_tlb (s : State) (k : Nat) (f : ZoneState → ZoneState) : (s.modZone k f).tlb = s.tlb := rfl
@[simp] theorem modZone_ncs (s : State) (k : Nat) (f : ZoneState → ZoneState) : (s.modZone k f).ncs = s.ncs := rfl
@[simp] theorem modZone_ibuf (s : State) (k : Nat) (f : ZoneState → ZoneState) : (s.modZone k f).ibuf = s.ibuf := rfl
@[simp] theorem modZone_rbuf (s : State) (k : Nat) (f : ZoneState → ZoneState) : (s.modZone k f).rbuf = s.rbuf := rfl
@[simp] theorem modZone_holds (s : State) (k : Nat) (f : ZoneState → ZoneState) : (s.modZone k f).holds = s.holds := rfl
@[simp] theorem modZone_copies (s : State) (k : Nat) (f : ZoneState → ZoneState) : (s.modZone k f).copies = s.copies := rfl
@[simp] theorem modZone_engine (s : State) (k : Nat) (f : ZoneState → ZoneState) : (s.modZone k f).engine = s.engine := rfl
@[simp] theorem modZone_descs (s : State) (k : Nat) (f : ZoneState → ZoneState) : (s.modZone k f).descs = s.descs := rfl
@[simp] theorem modZone_invals (s : State) (k : Nat) (f : ZoneState → ZoneState) : (s.modZone k f).invals = s.invals := rfl
@[simp] theorem modZone_replicas (s : State) (k : Nat) (f : ZoneState → ZoneState) : (s.modZone k f).replicas = s.replicas := rfl
@[simp] theorem modZone_pats (s : State) (k : Nat) (f : ZoneState → ZoneState) : (s.modZone k f).pats = s.pats := rfl
@[simp] theorem modZone_hwq (s : State) (k : Nat) (f : ZoneState → ZoneState) : (s.modZone k f).hwq = s.hwq := rfl
@[simp] theorem modZone_lru (s : State) (k : Nat) (f : ZoneState → ZoneState) : (s.modZone k f).lru = s.lru := rfl
@[simp] theorem modZone_cycle (s : State) (k : Nat) (f : ZoneState → ZoneState) : (s.modZone k f).cycle = s.cycle := rfl
@[simp] theorem modZone_stalled (s : State) (k : Nat) (f : ZoneState → ZoneState) : (s.modZone k f).stalled = s.stalled := rfl
@[simp] theorem modZone_peerPosts (s : State) (k : Nat) (f : ZoneState → ZoneState) : (s.modZone k f).peerPosts = s.peerPosts := rfl
@[simp] theorem modZone_peerRgn (s : State) (k : Nat) (f : ZoneState → ZoneState) : (s.modZone k f).peerRgn = s.peerRgn := rfl
@[simp] theorem modZone_dir (s : State) (k : Nat) (f : ZoneState → ZoneState) : (s.modZone k f).dir = s.dir := rfl
@[simp] theorem modZone_snoop (s : State) (k : Nat) (f : ZoneState → ZoneState) : (s.modZone k f).snoop = s.snoop := rfl
@[simp] theorem modZone_iommus (s : State) (k : Nat) (f : ZoneState → ZoneState) : (s.modZone k f).iommus = s.iommus := rfl
@[simp] theorem modZone_dbgq (s : State) (k : Nat) (f : ZoneState → ZoneState) : (s.modZone k f).dbgq = s.dbgq := rfl
@[simp] theorem modZone_poolPtr (s : State) (k : Nat) (f : ZoneState → ZoneState) : (s.modZone k f).poolPtr = s.poolPtr := rfl
@[simp] theorem modZone_msis (s : State) (k : Nat) (f : ZoneState → ZoneState) : (s.modZone k f).msis = s.msis := rfl

/-! ### `modLcore` -/

@[simp] theorem modLcore_cur (s : State) (k : Nat) (f : LCore → LCore) : (s.modLcore k f).cur = s.cur := rfl
@[simp] theorem modLcore_ibits (s : State) (k : Nat) (f : LCore → LCore) : (s.modLcore k f).ibits = s.ibits := rfl
@[simp] theorem modLcore_ilen (s : State) (k : Nat) (f : LCore → LCore) : (s.modLcore k f).ilen = s.ilen := rfl
@[simp] theorem modLcore_accPa (s : State) (k : Nat) (f : LCore → LCore) : (s.modLcore k f).accPa = s.accPa := rfl
@[simp] theorem modLcore_accTiers (s : State) (k : Nat) (f : LCore → LCore) : (s.modLcore k f).accTiers = s.accTiers := rfl
@[simp] theorem modLcore_agenda (s : State) (k : Nat) (f : LCore → LCore) : (s.modLcore k f).agenda = s.agenda := rfl
@[simp] theorem modLcore_draws (s : State) (k : Nat) (f : LCore → LCore) : (s.modLcore k f).draws = s.draws := rfl
@[simp] theorem modLcore_nextId (s : State) (k : Nat) (f : LCore → LCore) : (s.modLcore k f).nextId = s.nextId := rfl
@[simp] theorem modLcore_time (s : State) (k : Nat) (f : LCore → LCore) : (s.modLcore k f).time = s.time := rfl
@[simp] theorem modLcore_mem (s : State) (k : Nat) (f : LCore → LCore) : (s.modLcore k f).mem = s.mem := rfl
@[simp] theorem modLcore_poison (s : State) (k : Nat) (f : LCore → LCore) : (s.modLcore k f).poison = s.poison := rfl
@[simp] theorem modLcore_owners (s : State) (k : Nat) (f : LCore → LCore) : (s.modLcore k f).owners = s.owners := rfl
@[simp] theorem modLcore_pct (s : State) (k : Nat) (f : LCore → LCore) : (s.modLcore k f).pct = s.pct := rfl
@[simp] theorem modLcore_mmio (s : State) (k : Nat) (f : LCore → LCore) : (s.modLcore k f).mmio = s.mmio := rfl
@[simp] theorem modLcore_strands (s : State) (k : Nat) (f : LCore → LCore) : (s.modLcore k f).strands = s.strands := rfl
@[simp] theorem modLcore_crews (s : State) (k : Nat) (f : LCore → LCore) : (s.modLcore k f).crews = s.crews := rfl
@[simp] theorem modLcore_fleets (s : State) (k : Nat) (f : LCore → LCore) : (s.modLcore k f).fleets = s.fleets := rfl
@[simp] theorem modLcore_frames (s : State) (k : Nat) (f : LCore → LCore) : (s.modLcore k f).frames = s.frames := rfl
@[simp] theorem modLcore_allocs (s : State) (k : Nat) (f : LCore → LCore) : (s.modLcore k f).allocs = s.allocs := rfl
@[simp] theorem modLcore_ghosts (s : State) (k : Nat) (f : LCore → LCore) : (s.modLcore k f).ghosts = s.ghosts := rfl
@[simp] theorem modLcore_notices (s : State) (k : Nat) (f : LCore → LCore) : (s.modLcore k f).notices = s.notices := rfl
@[simp] theorem modLcore_fwdq (s : State) (k : Nat) (f : LCore → LCore) : (s.modLcore k f).fwdq = s.fwdq := rfl
@[simp] theorem modLcore_cores (s : State) (k : Nat) (f : LCore → LCore) : (s.modLcore k f).cores = s.cores := rfl
@[simp] theorem modLcore_pods (s : State) (k : Nat) (f : LCore → LCore) : (s.modLcore k f).pods = s.pods := rfl
@[simp] theorem modLcore_dies (s : State) (k : Nat) (f : LCore → LCore) : (s.modLcore k f).dies = s.dies := rfl
@[simp] theorem modLcore_zones (s : State) (k : Nat) (f : LCore → LCore) : (s.modLcore k f).zones = s.zones := rfl
@[simp] theorem modLcore_pkg (s : State) (k : Nat) (f : LCore → LCore) : (s.modLcore k f).pkg = s.pkg := rfl
@[simp] theorem modLcore_tlb (s : State) (k : Nat) (f : LCore → LCore) : (s.modLcore k f).tlb = s.tlb := rfl
@[simp] theorem modLcore_ncs (s : State) (k : Nat) (f : LCore → LCore) : (s.modLcore k f).ncs = s.ncs := rfl
@[simp] theorem modLcore_ibuf (s : State) (k : Nat) (f : LCore → LCore) : (s.modLcore k f).ibuf = s.ibuf := rfl
@[simp] theorem modLcore_rbuf (s : State) (k : Nat) (f : LCore → LCore) : (s.modLcore k f).rbuf = s.rbuf := rfl
@[simp] theorem modLcore_holds (s : State) (k : Nat) (f : LCore → LCore) : (s.modLcore k f).holds = s.holds := rfl
@[simp] theorem modLcore_copies (s : State) (k : Nat) (f : LCore → LCore) : (s.modLcore k f).copies = s.copies := rfl
@[simp] theorem modLcore_engine (s : State) (k : Nat) (f : LCore → LCore) : (s.modLcore k f).engine = s.engine := rfl
@[simp] theorem modLcore_descs (s : State) (k : Nat) (f : LCore → LCore) : (s.modLcore k f).descs = s.descs := rfl
@[simp] theorem modLcore_invals (s : State) (k : Nat) (f : LCore → LCore) : (s.modLcore k f).invals = s.invals := rfl
@[simp] theorem modLcore_replicas (s : State) (k : Nat) (f : LCore → LCore) : (s.modLcore k f).replicas = s.replicas := rfl
@[simp] theorem modLcore_pats (s : State) (k : Nat) (f : LCore → LCore) : (s.modLcore k f).pats = s.pats := rfl
@[simp] theorem modLcore_hwq (s : State) (k : Nat) (f : LCore → LCore) : (s.modLcore k f).hwq = s.hwq := rfl
@[simp] theorem modLcore_lru (s : State) (k : Nat) (f : LCore → LCore) : (s.modLcore k f).lru = s.lru := rfl
@[simp] theorem modLcore_cycle (s : State) (k : Nat) (f : LCore → LCore) : (s.modLcore k f).cycle = s.cycle := rfl
@[simp] theorem modLcore_stalled (s : State) (k : Nat) (f : LCore → LCore) : (s.modLcore k f).stalled = s.stalled := rfl
@[simp] theorem modLcore_peerPosts (s : State) (k : Nat) (f : LCore → LCore) : (s.modLcore k f).peerPosts = s.peerPosts := rfl
@[simp] theorem modLcore_peerRgn (s : State) (k : Nat) (f : LCore → LCore) : (s.modLcore k f).peerRgn = s.peerRgn := rfl
@[simp] theorem modLcore_dir (s : State) (k : Nat) (f : LCore → LCore) : (s.modLcore k f).dir = s.dir := rfl
@[simp] theorem modLcore_snoop (s : State) (k : Nat) (f : LCore → LCore) : (s.modLcore k f).snoop = s.snoop := rfl
@[simp] theorem modLcore_iommus (s : State) (k : Nat) (f : LCore → LCore) : (s.modLcore k f).iommus = s.iommus := rfl
@[simp] theorem modLcore_dbgq (s : State) (k : Nat) (f : LCore → LCore) : (s.modLcore k f).dbgq = s.dbgq := rfl
@[simp] theorem modLcore_poolPtr (s : State) (k : Nat) (f : LCore → LCore) : (s.modLcore k f).poolPtr = s.poolPtr := rfl
@[simp] theorem modLcore_msis (s : State) (k : Nat) (f : LCore → LCore) : (s.modLcore k f).msis = s.msis := rfl

/-! ### `setReg` -/

@[simp] theorem setReg_cur (s : State) (p : Nat) (v : Word) : (s.setReg p v).cur = s.cur := rfl
@[simp] theorem setReg_ibits (s : State) (p : Nat) (v : Word) : (s.setReg p v).ibits = s.ibits := rfl
@[simp] theorem setReg_ilen (s : State) (p : Nat) (v : Word) : (s.setReg p v).ilen = s.ilen := rfl
@[simp] theorem setReg_accPa (s : State) (p : Nat) (v : Word) : (s.setReg p v).accPa = s.accPa := rfl
@[simp] theorem setReg_accTiers (s : State) (p : Nat) (v : Word) : (s.setReg p v).accTiers = s.accTiers := rfl
@[simp] theorem setReg_agenda (s : State) (p : Nat) (v : Word) : (s.setReg p v).agenda = s.agenda := rfl
@[simp] theorem setReg_draws (s : State) (p : Nat) (v : Word) : (s.setReg p v).draws = s.draws := rfl
@[simp] theorem setReg_nextId (s : State) (p : Nat) (v : Word) : (s.setReg p v).nextId = s.nextId := rfl
@[simp] theorem setReg_time (s : State) (p : Nat) (v : Word) : (s.setReg p v).time = s.time := rfl
@[simp] theorem setReg_mem (s : State) (p : Nat) (v : Word) : (s.setReg p v).mem = s.mem := rfl
@[simp] theorem setReg_poison (s : State) (p : Nat) (v : Word) : (s.setReg p v).poison = s.poison := rfl
@[simp] theorem setReg_owners (s : State) (p : Nat) (v : Word) : (s.setReg p v).owners = s.owners := rfl
@[simp] theorem setReg_pct (s : State) (p : Nat) (v : Word) : (s.setReg p v).pct = s.pct := rfl
@[simp] theorem setReg_strands (s : State) (p : Nat) (v : Word) : (s.setReg p v).strands = s.strands := rfl
@[simp] theorem setReg_crews (s : State) (p : Nat) (v : Word) : (s.setReg p v).crews = s.crews := rfl
@[simp] theorem setReg_fleets (s : State) (p : Nat) (v : Word) : (s.setReg p v).fleets = s.fleets := rfl
@[simp] theorem setReg_frames (s : State) (p : Nat) (v : Word) : (s.setReg p v).frames = s.frames := rfl
@[simp] theorem setReg_allocs (s : State) (p : Nat) (v : Word) : (s.setReg p v).allocs = s.allocs := rfl
@[simp] theorem setReg_ghosts (s : State) (p : Nat) (v : Word) : (s.setReg p v).ghosts = s.ghosts := rfl
@[simp] theorem setReg_notices (s : State) (p : Nat) (v : Word) : (s.setReg p v).notices = s.notices := rfl
@[simp] theorem setReg_fwdq (s : State) (p : Nat) (v : Word) : (s.setReg p v).fwdq = s.fwdq := rfl
@[simp] theorem setReg_lcores (s : State) (p : Nat) (v : Word) : (s.setReg p v).lcores = s.lcores := rfl
@[simp] theorem setReg_cores (s : State) (p : Nat) (v : Word) : (s.setReg p v).cores = s.cores := rfl
@[simp] theorem setReg_pods (s : State) (p : Nat) (v : Word) : (s.setReg p v).pods = s.pods := rfl
@[simp] theorem setReg_dies (s : State) (p : Nat) (v : Word) : (s.setReg p v).dies = s.dies := rfl
@[simp] theorem setReg_zones (s : State) (p : Nat) (v : Word) : (s.setReg p v).zones = s.zones := rfl
@[simp] theorem setReg_pkg (s : State) (p : Nat) (v : Word) : (s.setReg p v).pkg = s.pkg := rfl
@[simp] theorem setReg_tlb (s : State) (p : Nat) (v : Word) : (s.setReg p v).tlb = s.tlb := rfl
@[simp] theorem setReg_ncs (s : State) (p : Nat) (v : Word) : (s.setReg p v).ncs = s.ncs := rfl
@[simp] theorem setReg_ibuf (s : State) (p : Nat) (v : Word) : (s.setReg p v).ibuf = s.ibuf := rfl
@[simp] theorem setReg_rbuf (s : State) (p : Nat) (v : Word) : (s.setReg p v).rbuf = s.rbuf := rfl
@[simp] theorem setReg_holds (s : State) (p : Nat) (v : Word) : (s.setReg p v).holds = s.holds := rfl
@[simp] theorem setReg_copies (s : State) (p : Nat) (v : Word) : (s.setReg p v).copies = s.copies := rfl
@[simp] theorem setReg_engine (s : State) (p : Nat) (v : Word) : (s.setReg p v).engine = s.engine := rfl
@[simp] theorem setReg_descs (s : State) (p : Nat) (v : Word) : (s.setReg p v).descs = s.descs := rfl
@[simp] theorem setReg_invals (s : State) (p : Nat) (v : Word) : (s.setReg p v).invals = s.invals := rfl
@[simp] theorem setReg_replicas (s : State) (p : Nat) (v : Word) : (s.setReg p v).replicas = s.replicas := rfl
@[simp] theorem setReg_pats (s : State) (p : Nat) (v : Word) : (s.setReg p v).pats = s.pats := rfl
@[simp] theorem setReg_hwq (s : State) (p : Nat) (v : Word) : (s.setReg p v).hwq = s.hwq := rfl
@[simp] theorem setReg_lru (s : State) (p : Nat) (v : Word) : (s.setReg p v).lru = s.lru := rfl
@[simp] theorem setReg_cycle (s : State) (p : Nat) (v : Word) : (s.setReg p v).cycle = s.cycle := rfl
@[simp] theorem setReg_stalled (s : State) (p : Nat) (v : Word) : (s.setReg p v).stalled = s.stalled := rfl
@[simp] theorem setReg_peerPosts (s : State) (p : Nat) (v : Word) : (s.setReg p v).peerPosts = s.peerPosts := rfl
@[simp] theorem setReg_peerRgn (s : State) (p : Nat) (v : Word) : (s.setReg p v).peerRgn = s.peerRgn := rfl
@[simp] theorem setReg_dir (s : State) (p : Nat) (v : Word) : (s.setReg p v).dir = s.dir := rfl
@[simp] theorem setReg_snoop (s : State) (p : Nat) (v : Word) : (s.setReg p v).snoop = s.snoop := rfl
@[simp] theorem setReg_iommus (s : State) (p : Nat) (v : Word) : (s.setReg p v).iommus = s.iommus := rfl
@[simp] theorem setReg_dbgq (s : State) (p : Nat) (v : Word) : (s.setReg p v).dbgq = s.dbgq := rfl
@[simp] theorem setReg_poolPtr (s : State) (p : Nat) (v : Word) : (s.setReg p v).poolPtr = s.poolPtr := rfl
@[simp] theorem setReg_msis (s : State) (p : Nat) (v : Word) : (s.setReg p v).msis = s.msis := rfl

/-! ### `setCtx` -/

@[simp] theorem setCtx_cur (s : State) (a : Agent) (i : Nat) (v : Word) : (s.setCtx a i v).cur = s.cur := by cases a <;> rfl
@[simp] theorem setCtx_ibits (s : State) (a : Agent) (i : Nat) (v : Word) : (s.setCtx a i v).ibits = s.ibits := by cases a <;> rfl
@[simp] theorem setCtx_ilen (s : State) (a : Agent) (i : Nat) (v : Word) : (s.setCtx a i v).ilen = s.ilen := by cases a <;> rfl
@[simp] theorem setCtx_accPa (s : State) (a : Agent) (i : Nat) (v : Word) : (s.setCtx a i v).accPa = s.accPa := by cases a <;> rfl
@[simp] theorem setCtx_accTiers (s : State) (a : Agent) (i : Nat) (v : Word) : (s.setCtx a i v).accTiers = s.accTiers := by cases a <;> rfl
@[simp] theorem setCtx_agenda (s : State) (a : Agent) (i : Nat) (v : Word) : (s.setCtx a i v).agenda = s.agenda := by cases a <;> rfl
@[simp] theorem setCtx_draws (s : State) (a : Agent) (i : Nat) (v : Word) : (s.setCtx a i v).draws = s.draws := by cases a <;> rfl
@[simp] theorem setCtx_nextId (s : State) (a : Agent) (i : Nat) (v : Word) : (s.setCtx a i v).nextId = s.nextId := by cases a <;> rfl
@[simp] theorem setCtx_time (s : State) (a : Agent) (i : Nat) (v : Word) : (s.setCtx a i v).time = s.time := by cases a <;> rfl
@[simp] theorem setCtx_mem (s : State) (a : Agent) (i : Nat) (v : Word) : (s.setCtx a i v).mem = s.mem := by cases a <;> rfl
@[simp] theorem setCtx_poison (s : State) (a : Agent) (i : Nat) (v : Word) : (s.setCtx a i v).poison = s.poison := by cases a <;> rfl
@[simp] theorem setCtx_owners (s : State) (a : Agent) (i : Nat) (v : Word) : (s.setCtx a i v).owners = s.owners := by cases a <;> rfl
@[simp] theorem setCtx_pct (s : State) (a : Agent) (i : Nat) (v : Word) : (s.setCtx a i v).pct = s.pct := by cases a <;> rfl
@[simp] theorem setCtx_mmio (s : State) (a : Agent) (i : Nat) (v : Word) : (s.setCtx a i v).mmio = s.mmio := by cases a <;> rfl
@[simp] theorem setCtx_crews (s : State) (a : Agent) (i : Nat) (v : Word) : (s.setCtx a i v).crews = s.crews := by cases a <;> rfl
@[simp] theorem setCtx_fleets (s : State) (a : Agent) (i : Nat) (v : Word) : (s.setCtx a i v).fleets = s.fleets := by cases a <;> rfl
@[simp] theorem setCtx_frames (s : State) (a : Agent) (i : Nat) (v : Word) : (s.setCtx a i v).frames = s.frames := by cases a <;> rfl
@[simp] theorem setCtx_allocs (s : State) (a : Agent) (i : Nat) (v : Word) : (s.setCtx a i v).allocs = s.allocs := by cases a <;> rfl
@[simp] theorem setCtx_ghosts (s : State) (a : Agent) (i : Nat) (v : Word) : (s.setCtx a i v).ghosts = s.ghosts := by cases a <;> rfl
@[simp] theorem setCtx_notices (s : State) (a : Agent) (i : Nat) (v : Word) : (s.setCtx a i v).notices = s.notices := by cases a <;> rfl
@[simp] theorem setCtx_fwdq (s : State) (a : Agent) (i : Nat) (v : Word) : (s.setCtx a i v).fwdq = s.fwdq := by cases a <;> rfl
@[simp] theorem setCtx_cores (s : State) (a : Agent) (i : Nat) (v : Word) : (s.setCtx a i v).cores = s.cores := by cases a <;> rfl
@[simp] theorem setCtx_pods (s : State) (a : Agent) (i : Nat) (v : Word) : (s.setCtx a i v).pods = s.pods := by cases a <;> rfl
@[simp] theorem setCtx_dies (s : State) (a : Agent) (i : Nat) (v : Word) : (s.setCtx a i v).dies = s.dies := by cases a <;> rfl
@[simp] theorem setCtx_zones (s : State) (a : Agent) (i : Nat) (v : Word) : (s.setCtx a i v).zones = s.zones := by cases a <;> rfl
@[simp] theorem setCtx_pkg (s : State) (a : Agent) (i : Nat) (v : Word) : (s.setCtx a i v).pkg = s.pkg := by cases a <;> rfl
@[simp] theorem setCtx_tlb (s : State) (a : Agent) (i : Nat) (v : Word) : (s.setCtx a i v).tlb = s.tlb := by cases a <;> rfl
@[simp] theorem setCtx_ncs (s : State) (a : Agent) (i : Nat) (v : Word) : (s.setCtx a i v).ncs = s.ncs := by cases a <;> rfl
@[simp] theorem setCtx_ibuf (s : State) (a : Agent) (i : Nat) (v : Word) : (s.setCtx a i v).ibuf = s.ibuf := by cases a <;> rfl
@[simp] theorem setCtx_rbuf (s : State) (a : Agent) (i : Nat) (v : Word) : (s.setCtx a i v).rbuf = s.rbuf := by cases a <;> rfl
@[simp] theorem setCtx_holds (s : State) (a : Agent) (i : Nat) (v : Word) : (s.setCtx a i v).holds = s.holds := by cases a <;> rfl
@[simp] theorem setCtx_copies (s : State) (a : Agent) (i : Nat) (v : Word) : (s.setCtx a i v).copies = s.copies := by cases a <;> rfl
@[simp] theorem setCtx_engine (s : State) (a : Agent) (i : Nat) (v : Word) : (s.setCtx a i v).engine = s.engine := by cases a <;> rfl
@[simp] theorem setCtx_descs (s : State) (a : Agent) (i : Nat) (v : Word) : (s.setCtx a i v).descs = s.descs := by cases a <;> rfl
@[simp] theorem setCtx_invals (s : State) (a : Agent) (i : Nat) (v : Word) : (s.setCtx a i v).invals = s.invals := by cases a <;> rfl
@[simp] theorem setCtx_replicas (s : State) (a : Agent) (i : Nat) (v : Word) : (s.setCtx a i v).replicas = s.replicas := by cases a <;> rfl
@[simp] theorem setCtx_pats (s : State) (a : Agent) (i : Nat) (v : Word) : (s.setCtx a i v).pats = s.pats := by cases a <;> rfl
@[simp] theorem setCtx_hwq (s : State) (a : Agent) (i : Nat) (v : Word) : (s.setCtx a i v).hwq = s.hwq := by cases a <;> rfl
@[simp] theorem setCtx_lru (s : State) (a : Agent) (i : Nat) (v : Word) : (s.setCtx a i v).lru = s.lru := by cases a <;> rfl
@[simp] theorem setCtx_cycle (s : State) (a : Agent) (i : Nat) (v : Word) : (s.setCtx a i v).cycle = s.cycle := by cases a <;> rfl
@[simp] theorem setCtx_stalled (s : State) (a : Agent) (i : Nat) (v : Word) : (s.setCtx a i v).stalled = s.stalled := by cases a <;> rfl
@[simp] theorem setCtx_peerPosts (s : State) (a : Agent) (i : Nat) (v : Word) : (s.setCtx a i v).peerPosts = s.peerPosts := by cases a <;> rfl
@[simp] theorem setCtx_peerRgn (s : State) (a : Agent) (i : Nat) (v : Word) : (s.setCtx a i v).peerRgn = s.peerRgn := by cases a <;> rfl
@[simp] theorem setCtx_dir (s : State) (a : Agent) (i : Nat) (v : Word) : (s.setCtx a i v).dir = s.dir := by cases a <;> rfl
@[simp] theorem setCtx_snoop (s : State) (a : Agent) (i : Nat) (v : Word) : (s.setCtx a i v).snoop = s.snoop := by cases a <;> rfl
@[simp] theorem setCtx_iommus (s : State) (a : Agent) (i : Nat) (v : Word) : (s.setCtx a i v).iommus = s.iommus := by cases a <;> rfl
@[simp] theorem setCtx_dbgq (s : State) (a : Agent) (i : Nat) (v : Word) : (s.setCtx a i v).dbgq = s.dbgq := by cases a <;> rfl
@[simp] theorem setCtx_poolPtr (s : State) (a : Agent) (i : Nat) (v : Word) : (s.setCtx a i v).poolPtr = s.poolPtr := by cases a <;> rfl
@[simp] theorem setCtx_msis (s : State) (a : Agent) (i : Nat) (v : Word) : (s.setCtx a i v).msis = s.msis := by cases a <;> rfl

/-! ### `modCur` -/

@[simp] theorem modCur_cur (s : State) (f : Strand → Strand) : (s.modCur f).cur = s.cur := by unfold State.modCur; split <;> rfl
@[simp] theorem modCur_ibits (s : State) (f : Strand → Strand) : (s.modCur f).ibits = s.ibits := by unfold State.modCur; split <;> rfl
@[simp] theorem modCur_ilen (s : State) (f : Strand → Strand) : (s.modCur f).ilen = s.ilen := by unfold State.modCur; split <;> rfl
@[simp] theorem modCur_accPa (s : State) (f : Strand → Strand) : (s.modCur f).accPa = s.accPa := by unfold State.modCur; split <;> rfl
@[simp] theorem modCur_accTiers (s : State) (f : Strand → Strand) : (s.modCur f).accTiers = s.accTiers := by unfold State.modCur; split <;> rfl
@[simp] theorem modCur_agenda (s : State) (f : Strand → Strand) : (s.modCur f).agenda = s.agenda := by unfold State.modCur; split <;> rfl
@[simp] theorem modCur_draws (s : State) (f : Strand → Strand) : (s.modCur f).draws = s.draws := by unfold State.modCur; split <;> rfl
@[simp] theorem modCur_nextId (s : State) (f : Strand → Strand) : (s.modCur f).nextId = s.nextId := by unfold State.modCur; split <;> rfl
@[simp] theorem modCur_time (s : State) (f : Strand → Strand) : (s.modCur f).time = s.time := by unfold State.modCur; split <;> rfl
@[simp] theorem modCur_mem (s : State) (f : Strand → Strand) : (s.modCur f).mem = s.mem := by unfold State.modCur; split <;> rfl
@[simp] theorem modCur_poison (s : State) (f : Strand → Strand) : (s.modCur f).poison = s.poison := by unfold State.modCur; split <;> rfl
@[simp] theorem modCur_owners (s : State) (f : Strand → Strand) : (s.modCur f).owners = s.owners := by unfold State.modCur; split <;> rfl
@[simp] theorem modCur_pct (s : State) (f : Strand → Strand) : (s.modCur f).pct = s.pct := by unfold State.modCur; split <;> rfl
@[simp] theorem modCur_mmio (s : State) (f : Strand → Strand) : (s.modCur f).mmio = s.mmio := by unfold State.modCur; split <;> rfl
@[simp] theorem modCur_crews (s : State) (f : Strand → Strand) : (s.modCur f).crews = s.crews := by unfold State.modCur; split <;> rfl
@[simp] theorem modCur_fleets (s : State) (f : Strand → Strand) : (s.modCur f).fleets = s.fleets := by unfold State.modCur; split <;> rfl
@[simp] theorem modCur_frames (s : State) (f : Strand → Strand) : (s.modCur f).frames = s.frames := by unfold State.modCur; split <;> rfl
@[simp] theorem modCur_allocs (s : State) (f : Strand → Strand) : (s.modCur f).allocs = s.allocs := by unfold State.modCur; split <;> rfl
@[simp] theorem modCur_ghosts (s : State) (f : Strand → Strand) : (s.modCur f).ghosts = s.ghosts := by unfold State.modCur; split <;> rfl
@[simp] theorem modCur_notices (s : State) (f : Strand → Strand) : (s.modCur f).notices = s.notices := by unfold State.modCur; split <;> rfl
@[simp] theorem modCur_fwdq (s : State) (f : Strand → Strand) : (s.modCur f).fwdq = s.fwdq := by unfold State.modCur; split <;> rfl
@[simp] theorem modCur_lcores (s : State) (f : Strand → Strand) : (s.modCur f).lcores = s.lcores := by unfold State.modCur; split <;> rfl
@[simp] theorem modCur_cores (s : State) (f : Strand → Strand) : (s.modCur f).cores = s.cores := by unfold State.modCur; split <;> rfl
@[simp] theorem modCur_pods (s : State) (f : Strand → Strand) : (s.modCur f).pods = s.pods := by unfold State.modCur; split <;> rfl
@[simp] theorem modCur_dies (s : State) (f : Strand → Strand) : (s.modCur f).dies = s.dies := by unfold State.modCur; split <;> rfl
@[simp] theorem modCur_zones (s : State) (f : Strand → Strand) : (s.modCur f).zones = s.zones := by unfold State.modCur; split <;> rfl
@[simp] theorem modCur_pkg (s : State) (f : Strand → Strand) : (s.modCur f).pkg = s.pkg := by unfold State.modCur; split <;> rfl
@[simp] theorem modCur_tlb (s : State) (f : Strand → Strand) : (s.modCur f).tlb = s.tlb := by unfold State.modCur; split <;> rfl
@[simp] theorem modCur_ncs (s : State) (f : Strand → Strand) : (s.modCur f).ncs = s.ncs := by unfold State.modCur; split <;> rfl
@[simp] theorem modCur_ibuf (s : State) (f : Strand → Strand) : (s.modCur f).ibuf = s.ibuf := by unfold State.modCur; split <;> rfl
@[simp] theorem modCur_rbuf (s : State) (f : Strand → Strand) : (s.modCur f).rbuf = s.rbuf := by unfold State.modCur; split <;> rfl
@[simp] theorem modCur_holds (s : State) (f : Strand → Strand) : (s.modCur f).holds = s.holds := by unfold State.modCur; split <;> rfl
@[simp] theorem modCur_copies (s : State) (f : Strand → Strand) : (s.modCur f).copies = s.copies := by unfold State.modCur; split <;> rfl
@[simp] theorem modCur_engine (s : State) (f : Strand → Strand) : (s.modCur f).engine = s.engine := by unfold State.modCur; split <;> rfl
@[simp] theorem modCur_descs (s : State) (f : Strand → Strand) : (s.modCur f).descs = s.descs := by unfold State.modCur; split <;> rfl
@[simp] theorem modCur_invals (s : State) (f : Strand → Strand) : (s.modCur f).invals = s.invals := by unfold State.modCur; split <;> rfl
@[simp] theorem modCur_replicas (s : State) (f : Strand → Strand) : (s.modCur f).replicas = s.replicas := by unfold State.modCur; split <;> rfl
@[simp] theorem modCur_pats (s : State) (f : Strand → Strand) : (s.modCur f).pats = s.pats := by unfold State.modCur; split <;> rfl
@[simp] theorem modCur_hwq (s : State) (f : Strand → Strand) : (s.modCur f).hwq = s.hwq := by unfold State.modCur; split <;> rfl
@[simp] theorem modCur_lru (s : State) (f : Strand → Strand) : (s.modCur f).lru = s.lru := by unfold State.modCur; split <;> rfl
@[simp] theorem modCur_cycle (s : State) (f : Strand → Strand) : (s.modCur f).cycle = s.cycle := by unfold State.modCur; split <;> rfl
@[simp] theorem modCur_stalled (s : State) (f : Strand → Strand) : (s.modCur f).stalled = s.stalled := by unfold State.modCur; split <;> rfl
@[simp] theorem modCur_peerPosts (s : State) (f : Strand → Strand) : (s.modCur f).peerPosts = s.peerPosts := by unfold State.modCur; split <;> rfl
@[simp] theorem modCur_peerRgn (s : State) (f : Strand → Strand) : (s.modCur f).peerRgn = s.peerRgn := by unfold State.modCur; split <;> rfl
@[simp] theorem modCur_dir (s : State) (f : Strand → Strand) : (s.modCur f).dir = s.dir := by unfold State.modCur; split <;> rfl
@[simp] theorem modCur_snoop (s : State) (f : Strand → Strand) : (s.modCur f).snoop = s.snoop := by unfold State.modCur; split <;> rfl
@[simp] theorem modCur_iommus (s : State) (f : Strand → Strand) : (s.modCur f).iommus = s.iommus := by unfold State.modCur; split <;> rfl
@[simp] theorem modCur_dbgq (s : State) (f : Strand → Strand) : (s.modCur f).dbgq = s.dbgq := by unfold State.modCur; split <;> rfl
@[simp] theorem modCur_poolPtr (s : State) (f : Strand → Strand) : (s.modCur f).poolPtr = s.poolPtr := by unfold State.modCur; split <;> rfl
@[simp] theorem modCur_msis (s : State) (f : Strand → Strand) : (s.modCur f).msis = s.msis := by unfold State.modCur; split <;> rfl

/-! ### `await` -/

@[simp] theorem await_cur (s : State) (w : Wait) : (s.await w).cur = s.cur := s.modCur_cur _
@[simp] theorem await_ibits (s : State) (w : Wait) : (s.await w).ibits = s.ibits := s.modCur_ibits _
@[simp] theorem await_ilen (s : State) (w : Wait) : (s.await w).ilen = s.ilen := s.modCur_ilen _
@[simp] theorem await_accPa (s : State) (w : Wait) : (s.await w).accPa = s.accPa := s.modCur_accPa _
@[simp] theorem await_accTiers (s : State) (w : Wait) : (s.await w).accTiers = s.accTiers := s.modCur_accTiers _
@[simp] theorem await_agenda (s : State) (w : Wait) : (s.await w).agenda = s.agenda := s.modCur_agenda _
@[simp] theorem await_draws (s : State) (w : Wait) : (s.await w).draws = s.draws := s.modCur_draws _
@[simp] theorem await_nextId (s : State) (w : Wait) : (s.await w).nextId = s.nextId := s.modCur_nextId _
@[simp] theorem await_time (s : State) (w : Wait) : (s.await w).time = s.time := s.modCur_time _
@[simp] theorem await_mem (s : State) (w : Wait) : (s.await w).mem = s.mem := s.modCur_mem _
@[simp] theorem await_poison (s : State) (w : Wait) : (s.await w).poison = s.poison := s.modCur_poison _
@[simp] theorem await_owners (s : State) (w : Wait) : (s.await w).owners = s.owners := s.modCur_owners _
@[simp] theorem await_pct (s : State) (w : Wait) : (s.await w).pct = s.pct := s.modCur_pct _
@[simp] theorem await_mmio (s : State) (w : Wait) : (s.await w).mmio = s.mmio := s.modCur_mmio _
@[simp] theorem await_crews (s : State) (w : Wait) : (s.await w).crews = s.crews := s.modCur_crews _
@[simp] theorem await_fleets (s : State) (w : Wait) : (s.await w).fleets = s.fleets := s.modCur_fleets _
@[simp] theorem await_frames (s : State) (w : Wait) : (s.await w).frames = s.frames := s.modCur_frames _
@[simp] theorem await_allocs (s : State) (w : Wait) : (s.await w).allocs = s.allocs := s.modCur_allocs _
@[simp] theorem await_ghosts (s : State) (w : Wait) : (s.await w).ghosts = s.ghosts := s.modCur_ghosts _
@[simp] theorem await_notices (s : State) (w : Wait) : (s.await w).notices = s.notices := s.modCur_notices _
@[simp] theorem await_fwdq (s : State) (w : Wait) : (s.await w).fwdq = s.fwdq := s.modCur_fwdq _
@[simp] theorem await_lcores (s : State) (w : Wait) : (s.await w).lcores = s.lcores := s.modCur_lcores _
@[simp] theorem await_cores (s : State) (w : Wait) : (s.await w).cores = s.cores := s.modCur_cores _
@[simp] theorem await_pods (s : State) (w : Wait) : (s.await w).pods = s.pods := s.modCur_pods _
@[simp] theorem await_dies (s : State) (w : Wait) : (s.await w).dies = s.dies := s.modCur_dies _
@[simp] theorem await_zones (s : State) (w : Wait) : (s.await w).zones = s.zones := s.modCur_zones _
@[simp] theorem await_pkg (s : State) (w : Wait) : (s.await w).pkg = s.pkg := s.modCur_pkg _
@[simp] theorem await_tlb (s : State) (w : Wait) : (s.await w).tlb = s.tlb := s.modCur_tlb _
@[simp] theorem await_ncs (s : State) (w : Wait) : (s.await w).ncs = s.ncs := s.modCur_ncs _
@[simp] theorem await_ibuf (s : State) (w : Wait) : (s.await w).ibuf = s.ibuf := s.modCur_ibuf _
@[simp] theorem await_rbuf (s : State) (w : Wait) : (s.await w).rbuf = s.rbuf := s.modCur_rbuf _
@[simp] theorem await_holds (s : State) (w : Wait) : (s.await w).holds = s.holds := s.modCur_holds _
@[simp] theorem await_copies (s : State) (w : Wait) : (s.await w).copies = s.copies := s.modCur_copies _
@[simp] theorem await_engine (s : State) (w : Wait) : (s.await w).engine = s.engine := s.modCur_engine _
@[simp] theorem await_descs (s : State) (w : Wait) : (s.await w).descs = s.descs := s.modCur_descs _
@[simp] theorem await_invals (s : State) (w : Wait) : (s.await w).invals = s.invals := s.modCur_invals _
@[simp] theorem await_replicas (s : State) (w : Wait) : (s.await w).replicas = s.replicas := s.modCur_replicas _
@[simp] theorem await_pats (s : State) (w : Wait) : (s.await w).pats = s.pats := s.modCur_pats _
@[simp] theorem await_hwq (s : State) (w : Wait) : (s.await w).hwq = s.hwq := s.modCur_hwq _
@[simp] theorem await_lru (s : State) (w : Wait) : (s.await w).lru = s.lru := s.modCur_lru _
@[simp] theorem await_cycle (s : State) (w : Wait) : (s.await w).cycle = s.cycle := s.modCur_cycle _
@[simp] theorem await_stalled (s : State) (w : Wait) : (s.await w).stalled = s.stalled := s.modCur_stalled _
@[simp] theorem await_peerPosts (s : State) (w : Wait) : (s.await w).peerPosts = s.peerPosts := s.modCur_peerPosts _
@[simp] theorem await_peerRgn (s : State) (w : Wait) : (s.await w).peerRgn = s.peerRgn := s.modCur_peerRgn _
@[simp] theorem await_dir (s : State) (w : Wait) : (s.await w).dir = s.dir := s.modCur_dir _
@[simp] theorem await_snoop (s : State) (w : Wait) : (s.await w).snoop = s.snoop := s.modCur_snoop _
@[simp] theorem await_iommus (s : State) (w : Wait) : (s.await w).iommus = s.iommus := s.modCur_iommus _
@[simp] theorem await_dbgq (s : State) (w : Wait) : (s.await w).dbgq = s.dbgq := s.modCur_dbgq _
@[simp] theorem await_poolPtr (s : State) (w : Wait) : (s.await w).poolPtr = s.poolPtr := s.modCur_poolPtr _
@[simp] theorem await_msis (s : State) (w : Wait) : (s.await w).msis = s.msis := s.modCur_msis _

/-! ### `setX` -/

@[simp] theorem setX_cur (s : State) (r : Reg) (v : Word) : (s.setX r v).cur = s.cur := by unfold State.setX; split <;> [rfl; exact s.setCtx_cur ..]
@[simp] theorem setX_ibits (s : State) (r : Reg) (v : Word) : (s.setX r v).ibits = s.ibits := by unfold State.setX; split <;> [rfl; exact s.setCtx_ibits ..]
@[simp] theorem setX_ilen (s : State) (r : Reg) (v : Word) : (s.setX r v).ilen = s.ilen := by unfold State.setX; split <;> [rfl; exact s.setCtx_ilen ..]
@[simp] theorem setX_accPa (s : State) (r : Reg) (v : Word) : (s.setX r v).accPa = s.accPa := by unfold State.setX; split <;> [rfl; exact s.setCtx_accPa ..]
@[simp] theorem setX_accTiers (s : State) (r : Reg) (v : Word) : (s.setX r v).accTiers = s.accTiers := by unfold State.setX; split <;> [rfl; exact s.setCtx_accTiers ..]
@[simp] theorem setX_agenda (s : State) (r : Reg) (v : Word) : (s.setX r v).agenda = s.agenda := by unfold State.setX; split <;> [rfl; exact s.setCtx_agenda ..]
@[simp] theorem setX_draws (s : State) (r : Reg) (v : Word) : (s.setX r v).draws = s.draws := by unfold State.setX; split <;> [rfl; exact s.setCtx_draws ..]
@[simp] theorem setX_nextId (s : State) (r : Reg) (v : Word) : (s.setX r v).nextId = s.nextId := by unfold State.setX; split <;> [rfl; exact s.setCtx_nextId ..]
@[simp] theorem setX_time (s : State) (r : Reg) (v : Word) : (s.setX r v).time = s.time := by unfold State.setX; split <;> [rfl; exact s.setCtx_time ..]
@[simp] theorem setX_mem (s : State) (r : Reg) (v : Word) : (s.setX r v).mem = s.mem := by unfold State.setX; split <;> [rfl; exact s.setCtx_mem ..]
@[simp] theorem setX_poison (s : State) (r : Reg) (v : Word) : (s.setX r v).poison = s.poison := by unfold State.setX; split <;> [rfl; exact s.setCtx_poison ..]
@[simp] theorem setX_owners (s : State) (r : Reg) (v : Word) : (s.setX r v).owners = s.owners := by unfold State.setX; split <;> [rfl; exact s.setCtx_owners ..]
@[simp] theorem setX_pct (s : State) (r : Reg) (v : Word) : (s.setX r v).pct = s.pct := by unfold State.setX; split <;> [rfl; exact s.setCtx_pct ..]
@[simp] theorem setX_mmio (s : State) (r : Reg) (v : Word) : (s.setX r v).mmio = s.mmio := by unfold State.setX; split <;> [rfl; exact s.setCtx_mmio ..]
@[simp] theorem setX_crews (s : State) (r : Reg) (v : Word) : (s.setX r v).crews = s.crews := by unfold State.setX; split <;> [rfl; exact s.setCtx_crews ..]
@[simp] theorem setX_fleets (s : State) (r : Reg) (v : Word) : (s.setX r v).fleets = s.fleets := by unfold State.setX; split <;> [rfl; exact s.setCtx_fleets ..]
@[simp] theorem setX_frames (s : State) (r : Reg) (v : Word) : (s.setX r v).frames = s.frames := by unfold State.setX; split <;> [rfl; exact s.setCtx_frames ..]
@[simp] theorem setX_allocs (s : State) (r : Reg) (v : Word) : (s.setX r v).allocs = s.allocs := by unfold State.setX; split <;> [rfl; exact s.setCtx_allocs ..]
@[simp] theorem setX_ghosts (s : State) (r : Reg) (v : Word) : (s.setX r v).ghosts = s.ghosts := by unfold State.setX; split <;> [rfl; exact s.setCtx_ghosts ..]
@[simp] theorem setX_notices (s : State) (r : Reg) (v : Word) : (s.setX r v).notices = s.notices := by unfold State.setX; split <;> [rfl; exact s.setCtx_notices ..]
@[simp] theorem setX_fwdq (s : State) (r : Reg) (v : Word) : (s.setX r v).fwdq = s.fwdq := by unfold State.setX; split <;> [rfl; exact s.setCtx_fwdq ..]
@[simp] theorem setX_cores (s : State) (r : Reg) (v : Word) : (s.setX r v).cores = s.cores := by unfold State.setX; split <;> [rfl; exact s.setCtx_cores ..]
@[simp] theorem setX_pods (s : State) (r : Reg) (v : Word) : (s.setX r v).pods = s.pods := by unfold State.setX; split <;> [rfl; exact s.setCtx_pods ..]
@[simp] theorem setX_dies (s : State) (r : Reg) (v : Word) : (s.setX r v).dies = s.dies := by unfold State.setX; split <;> [rfl; exact s.setCtx_dies ..]
@[simp] theorem setX_zones (s : State) (r : Reg) (v : Word) : (s.setX r v).zones = s.zones := by unfold State.setX; split <;> [rfl; exact s.setCtx_zones ..]
@[simp] theorem setX_pkg (s : State) (r : Reg) (v : Word) : (s.setX r v).pkg = s.pkg := by unfold State.setX; split <;> [rfl; exact s.setCtx_pkg ..]
@[simp] theorem setX_tlb (s : State) (r : Reg) (v : Word) : (s.setX r v).tlb = s.tlb := by unfold State.setX; split <;> [rfl; exact s.setCtx_tlb ..]
@[simp] theorem setX_ncs (s : State) (r : Reg) (v : Word) : (s.setX r v).ncs = s.ncs := by unfold State.setX; split <;> [rfl; exact s.setCtx_ncs ..]
@[simp] theorem setX_ibuf (s : State) (r : Reg) (v : Word) : (s.setX r v).ibuf = s.ibuf := by unfold State.setX; split <;> [rfl; exact s.setCtx_ibuf ..]
@[simp] theorem setX_rbuf (s : State) (r : Reg) (v : Word) : (s.setX r v).rbuf = s.rbuf := by unfold State.setX; split <;> [rfl; exact s.setCtx_rbuf ..]
@[simp] theorem setX_holds (s : State) (r : Reg) (v : Word) : (s.setX r v).holds = s.holds := by unfold State.setX; split <;> [rfl; exact s.setCtx_holds ..]
@[simp] theorem setX_copies (s : State) (r : Reg) (v : Word) : (s.setX r v).copies = s.copies := by unfold State.setX; split <;> [rfl; exact s.setCtx_copies ..]
@[simp] theorem setX_engine (s : State) (r : Reg) (v : Word) : (s.setX r v).engine = s.engine := by unfold State.setX; split <;> [rfl; exact s.setCtx_engine ..]
@[simp] theorem setX_descs (s : State) (r : Reg) (v : Word) : (s.setX r v).descs = s.descs := by unfold State.setX; split <;> [rfl; exact s.setCtx_descs ..]
@[simp] theorem setX_invals (s : State) (r : Reg) (v : Word) : (s.setX r v).invals = s.invals := by unfold State.setX; split <;> [rfl; exact s.setCtx_invals ..]
@[simp] theorem setX_replicas (s : State) (r : Reg) (v : Word) : (s.setX r v).replicas = s.replicas := by unfold State.setX; split <;> [rfl; exact s.setCtx_replicas ..]
@[simp] theorem setX_pats (s : State) (r : Reg) (v : Word) : (s.setX r v).pats = s.pats := by unfold State.setX; split <;> [rfl; exact s.setCtx_pats ..]
@[simp] theorem setX_hwq (s : State) (r : Reg) (v : Word) : (s.setX r v).hwq = s.hwq := by unfold State.setX; split <;> [rfl; exact s.setCtx_hwq ..]
@[simp] theorem setX_lru (s : State) (r : Reg) (v : Word) : (s.setX r v).lru = s.lru := by unfold State.setX; split <;> [rfl; exact s.setCtx_lru ..]
@[simp] theorem setX_cycle (s : State) (r : Reg) (v : Word) : (s.setX r v).cycle = s.cycle := by unfold State.setX; split <;> [rfl; exact s.setCtx_cycle ..]
@[simp] theorem setX_stalled (s : State) (r : Reg) (v : Word) : (s.setX r v).stalled = s.stalled := by unfold State.setX; split <;> [rfl; exact s.setCtx_stalled ..]
@[simp] theorem setX_peerPosts (s : State) (r : Reg) (v : Word) : (s.setX r v).peerPosts = s.peerPosts := by unfold State.setX; split <;> [rfl; exact s.setCtx_peerPosts ..]
@[simp] theorem setX_peerRgn (s : State) (r : Reg) (v : Word) : (s.setX r v).peerRgn = s.peerRgn := by unfold State.setX; split <;> [rfl; exact s.setCtx_peerRgn ..]
@[simp] theorem setX_dir (s : State) (r : Reg) (v : Word) : (s.setX r v).dir = s.dir := by unfold State.setX; split <;> [rfl; exact s.setCtx_dir ..]
@[simp] theorem setX_snoop (s : State) (r : Reg) (v : Word) : (s.setX r v).snoop = s.snoop := by unfold State.setX; split <;> [rfl; exact s.setCtx_snoop ..]
@[simp] theorem setX_iommus (s : State) (r : Reg) (v : Word) : (s.setX r v).iommus = s.iommus := by unfold State.setX; split <;> [rfl; exact s.setCtx_iommus ..]
@[simp] theorem setX_dbgq (s : State) (r : Reg) (v : Word) : (s.setX r v).dbgq = s.dbgq := by unfold State.setX; split <;> [rfl; exact s.setCtx_dbgq ..]
@[simp] theorem setX_poolPtr (s : State) (r : Reg) (v : Word) : (s.setX r v).poolPtr = s.poolPtr := by unfold State.setX; split <;> [rfl; exact s.setCtx_poolPtr ..]
@[simp] theorem setX_msis (s : State) (r : Reg) (v : Word) : (s.setX r v).msis = s.msis := by unfold State.setX; split <;> [rfl; exact s.setCtx_msis ..]

/-! ### `setF` -/

@[simp] theorem setF_cur (s : State) (r : Reg) (v : Word) : (s.setF r v).cur = s.cur := s.setCtx_cur ..
@[simp] theorem setF_ibits (s : State) (r : Reg) (v : Word) : (s.setF r v).ibits = s.ibits := s.setCtx_ibits ..
@[simp] theorem setF_ilen (s : State) (r : Reg) (v : Word) : (s.setF r v).ilen = s.ilen := s.setCtx_ilen ..
@[simp] theorem setF_accPa (s : State) (r : Reg) (v : Word) : (s.setF r v).accPa = s.accPa := s.setCtx_accPa ..
@[simp] theorem setF_accTiers (s : State) (r : Reg) (v : Word) : (s.setF r v).accTiers = s.accTiers := s.setCtx_accTiers ..
@[simp] theorem setF_agenda (s : State) (r : Reg) (v : Word) : (s.setF r v).agenda = s.agenda := s.setCtx_agenda ..
@[simp] theorem setF_draws (s : State) (r : Reg) (v : Word) : (s.setF r v).draws = s.draws := s.setCtx_draws ..
@[simp] theorem setF_nextId (s : State) (r : Reg) (v : Word) : (s.setF r v).nextId = s.nextId := s.setCtx_nextId ..
@[simp] theorem setF_time (s : State) (r : Reg) (v : Word) : (s.setF r v).time = s.time := s.setCtx_time ..
@[simp] theorem setF_mem (s : State) (r : Reg) (v : Word) : (s.setF r v).mem = s.mem := s.setCtx_mem ..
@[simp] theorem setF_poison (s : State) (r : Reg) (v : Word) : (s.setF r v).poison = s.poison := s.setCtx_poison ..
@[simp] theorem setF_owners (s : State) (r : Reg) (v : Word) : (s.setF r v).owners = s.owners := s.setCtx_owners ..
@[simp] theorem setF_pct (s : State) (r : Reg) (v : Word) : (s.setF r v).pct = s.pct := s.setCtx_pct ..
@[simp] theorem setF_mmio (s : State) (r : Reg) (v : Word) : (s.setF r v).mmio = s.mmio := s.setCtx_mmio ..
@[simp] theorem setF_crews (s : State) (r : Reg) (v : Word) : (s.setF r v).crews = s.crews := s.setCtx_crews ..
@[simp] theorem setF_fleets (s : State) (r : Reg) (v : Word) : (s.setF r v).fleets = s.fleets := s.setCtx_fleets ..
@[simp] theorem setF_frames (s : State) (r : Reg) (v : Word) : (s.setF r v).frames = s.frames := s.setCtx_frames ..
@[simp] theorem setF_allocs (s : State) (r : Reg) (v : Word) : (s.setF r v).allocs = s.allocs := s.setCtx_allocs ..
@[simp] theorem setF_ghosts (s : State) (r : Reg) (v : Word) : (s.setF r v).ghosts = s.ghosts := s.setCtx_ghosts ..
@[simp] theorem setF_notices (s : State) (r : Reg) (v : Word) : (s.setF r v).notices = s.notices := s.setCtx_notices ..
@[simp] theorem setF_fwdq (s : State) (r : Reg) (v : Word) : (s.setF r v).fwdq = s.fwdq := s.setCtx_fwdq ..
@[simp] theorem setF_cores (s : State) (r : Reg) (v : Word) : (s.setF r v).cores = s.cores := s.setCtx_cores ..
@[simp] theorem setF_pods (s : State) (r : Reg) (v : Word) : (s.setF r v).pods = s.pods := s.setCtx_pods ..
@[simp] theorem setF_dies (s : State) (r : Reg) (v : Word) : (s.setF r v).dies = s.dies := s.setCtx_dies ..
@[simp] theorem setF_zones (s : State) (r : Reg) (v : Word) : (s.setF r v).zones = s.zones := s.setCtx_zones ..
@[simp] theorem setF_pkg (s : State) (r : Reg) (v : Word) : (s.setF r v).pkg = s.pkg := s.setCtx_pkg ..
@[simp] theorem setF_tlb (s : State) (r : Reg) (v : Word) : (s.setF r v).tlb = s.tlb := s.setCtx_tlb ..
@[simp] theorem setF_ncs (s : State) (r : Reg) (v : Word) : (s.setF r v).ncs = s.ncs := s.setCtx_ncs ..
@[simp] theorem setF_ibuf (s : State) (r : Reg) (v : Word) : (s.setF r v).ibuf = s.ibuf := s.setCtx_ibuf ..
@[simp] theorem setF_rbuf (s : State) (r : Reg) (v : Word) : (s.setF r v).rbuf = s.rbuf := s.setCtx_rbuf ..
@[simp] theorem setF_holds (s : State) (r : Reg) (v : Word) : (s.setF r v).holds = s.holds := s.setCtx_holds ..
@[simp] theorem setF_copies (s : State) (r : Reg) (v : Word) : (s.setF r v).copies = s.copies := s.setCtx_copies ..
@[simp] theorem setF_engine (s : State) (r : Reg) (v : Word) : (s.setF r v).engine = s.engine := s.setCtx_engine ..
@[simp] theorem setF_descs (s : State) (r : Reg) (v : Word) : (s.setF r v).descs = s.descs := s.setCtx_descs ..
@[simp] theorem setF_invals (s : State) (r : Reg) (v : Word) : (s.setF r v).invals = s.invals := s.setCtx_invals ..
@[simp] theorem setF_replicas (s : State) (r : Reg) (v : Word) : (s.setF r v).replicas = s.replicas := s.setCtx_replicas ..
@[simp] theorem setF_pats (s : State) (r : Reg) (v : Word) : (s.setF r v).pats = s.pats := s.setCtx_pats ..
@[simp] theorem setF_hwq (s : State) (r : Reg) (v : Word) : (s.setF r v).hwq = s.hwq := s.setCtx_hwq ..
@[simp] theorem setF_lru (s : State) (r : Reg) (v : Word) : (s.setF r v).lru = s.lru := s.setCtx_lru ..
@[simp] theorem setF_cycle (s : State) (r : Reg) (v : Word) : (s.setF r v).cycle = s.cycle := s.setCtx_cycle ..
@[simp] theorem setF_stalled (s : State) (r : Reg) (v : Word) : (s.setF r v).stalled = s.stalled := s.setCtx_stalled ..
@[simp] theorem setF_peerPosts (s : State) (r : Reg) (v : Word) : (s.setF r v).peerPosts = s.peerPosts := s.setCtx_peerPosts ..
@[simp] theorem setF_peerRgn (s : State) (r : Reg) (v : Word) : (s.setF r v).peerRgn = s.peerRgn := s.setCtx_peerRgn ..
@[simp] theorem setF_dir (s : State) (r : Reg) (v : Word) : (s.setF r v).dir = s.dir := s.setCtx_dir ..
@[simp] theorem setF_snoop (s : State) (r : Reg) (v : Word) : (s.setF r v).snoop = s.snoop := s.setCtx_snoop ..
@[simp] theorem setF_iommus (s : State) (r : Reg) (v : Word) : (s.setF r v).iommus = s.iommus := s.setCtx_iommus ..
@[simp] theorem setF_dbgq (s : State) (r : Reg) (v : Word) : (s.setF r v).dbgq = s.dbgq := s.setCtx_dbgq ..
@[simp] theorem setF_poolPtr (s : State) (r : Reg) (v : Word) : (s.setF r v).poolPtr = s.poolPtr := s.setCtx_poolPtr ..
@[simp] theorem setF_msis (s : State) (r : Reg) (v : Word) : (s.setF r v).msis = s.msis := s.setCtx_msis ..

/-! ### `setPc` -/

@[simp] theorem setPc_cur (s : State) (v : Word) : (s.setPc v).cur = s.cur := s.setCtx_cur ..
@[simp] theorem setPc_ibits (s : State) (v : Word) : (s.setPc v).ibits = s.ibits := s.setCtx_ibits ..
@[simp] theorem setPc_ilen (s : State) (v : Word) : (s.setPc v).ilen = s.ilen := s.setCtx_ilen ..
@[simp] theorem setPc_accPa (s : State) (v : Word) : (s.setPc v).accPa = s.accPa := s.setCtx_accPa ..
@[simp] theorem setPc_accTiers (s : State) (v : Word) : (s.setPc v).accTiers = s.accTiers := s.setCtx_accTiers ..
@[simp] theorem setPc_agenda (s : State) (v : Word) : (s.setPc v).agenda = s.agenda := s.setCtx_agenda ..
@[simp] theorem setPc_draws (s : State) (v : Word) : (s.setPc v).draws = s.draws := s.setCtx_draws ..
@[simp] theorem setPc_nextId (s : State) (v : Word) : (s.setPc v).nextId = s.nextId := s.setCtx_nextId ..
@[simp] theorem setPc_time (s : State) (v : Word) : (s.setPc v).time = s.time := s.setCtx_time ..
@[simp] theorem setPc_mem (s : State) (v : Word) : (s.setPc v).mem = s.mem := s.setCtx_mem ..
@[simp] theorem setPc_poison (s : State) (v : Word) : (s.setPc v).poison = s.poison := s.setCtx_poison ..
@[simp] theorem setPc_owners (s : State) (v : Word) : (s.setPc v).owners = s.owners := s.setCtx_owners ..
@[simp] theorem setPc_pct (s : State) (v : Word) : (s.setPc v).pct = s.pct := s.setCtx_pct ..
@[simp] theorem setPc_mmio (s : State) (v : Word) : (s.setPc v).mmio = s.mmio := s.setCtx_mmio ..
@[simp] theorem setPc_crews (s : State) (v : Word) : (s.setPc v).crews = s.crews := s.setCtx_crews ..
@[simp] theorem setPc_fleets (s : State) (v : Word) : (s.setPc v).fleets = s.fleets := s.setCtx_fleets ..
@[simp] theorem setPc_frames (s : State) (v : Word) : (s.setPc v).frames = s.frames := s.setCtx_frames ..
@[simp] theorem setPc_allocs (s : State) (v : Word) : (s.setPc v).allocs = s.allocs := s.setCtx_allocs ..
@[simp] theorem setPc_ghosts (s : State) (v : Word) : (s.setPc v).ghosts = s.ghosts := s.setCtx_ghosts ..
@[simp] theorem setPc_notices (s : State) (v : Word) : (s.setPc v).notices = s.notices := s.setCtx_notices ..
@[simp] theorem setPc_fwdq (s : State) (v : Word) : (s.setPc v).fwdq = s.fwdq := s.setCtx_fwdq ..
@[simp] theorem setPc_cores (s : State) (v : Word) : (s.setPc v).cores = s.cores := s.setCtx_cores ..
@[simp] theorem setPc_pods (s : State) (v : Word) : (s.setPc v).pods = s.pods := s.setCtx_pods ..
@[simp] theorem setPc_dies (s : State) (v : Word) : (s.setPc v).dies = s.dies := s.setCtx_dies ..
@[simp] theorem setPc_zones (s : State) (v : Word) : (s.setPc v).zones = s.zones := s.setCtx_zones ..
@[simp] theorem setPc_pkg (s : State) (v : Word) : (s.setPc v).pkg = s.pkg := s.setCtx_pkg ..
@[simp] theorem setPc_tlb (s : State) (v : Word) : (s.setPc v).tlb = s.tlb := s.setCtx_tlb ..
@[simp] theorem setPc_ncs (s : State) (v : Word) : (s.setPc v).ncs = s.ncs := s.setCtx_ncs ..
@[simp] theorem setPc_ibuf (s : State) (v : Word) : (s.setPc v).ibuf = s.ibuf := s.setCtx_ibuf ..
@[simp] theorem setPc_rbuf (s : State) (v : Word) : (s.setPc v).rbuf = s.rbuf := s.setCtx_rbuf ..
@[simp] theorem setPc_holds (s : State) (v : Word) : (s.setPc v).holds = s.holds := s.setCtx_holds ..
@[simp] theorem setPc_copies (s : State) (v : Word) : (s.setPc v).copies = s.copies := s.setCtx_copies ..
@[simp] theorem setPc_engine (s : State) (v : Word) : (s.setPc v).engine = s.engine := s.setCtx_engine ..
@[simp] theorem setPc_descs (s : State) (v : Word) : (s.setPc v).descs = s.descs := s.setCtx_descs ..
@[simp] theorem setPc_invals (s : State) (v : Word) : (s.setPc v).invals = s.invals := s.setCtx_invals ..
@[simp] theorem setPc_replicas (s : State) (v : Word) : (s.setPc v).replicas = s.replicas := s.setCtx_replicas ..
@[simp] theorem setPc_pats (s : State) (v : Word) : (s.setPc v).pats = s.pats := s.setCtx_pats ..
@[simp] theorem setPc_hwq (s : State) (v : Word) : (s.setPc v).hwq = s.hwq := s.setCtx_hwq ..
@[simp] theorem setPc_lru (s : State) (v : Word) : (s.setPc v).lru = s.lru := s.setCtx_lru ..
@[simp] theorem setPc_cycle (s : State) (v : Word) : (s.setPc v).cycle = s.cycle := s.setCtx_cycle ..
@[simp] theorem setPc_stalled (s : State) (v : Word) : (s.setPc v).stalled = s.stalled := s.setCtx_stalled ..
@[simp] theorem setPc_peerPosts (s : State) (v : Word) : (s.setPc v).peerPosts = s.peerPosts := s.setCtx_peerPosts ..
@[simp] theorem setPc_peerRgn (s : State) (v : Word) : (s.setPc v).peerRgn = s.peerRgn := s.setCtx_peerRgn ..
@[simp] theorem setPc_dir (s : State) (v : Word) : (s.setPc v).dir = s.dir := s.setCtx_dir ..
@[simp] theorem setPc_snoop (s : State) (v : Word) : (s.setPc v).snoop = s.snoop := s.setCtx_snoop ..
@[simp] theorem setPc_iommus (s : State) (v : Word) : (s.setPc v).iommus = s.iommus := s.setCtx_iommus ..
@[simp] theorem setPc_dbgq (s : State) (v : Word) : (s.setPc v).dbgq = s.dbgq := s.setCtx_dbgq ..
@[simp] theorem setPc_poolPtr (s : State) (v : Word) : (s.setPc v).poolPtr = s.poolPtr := s.setCtx_poolPtr ..
@[simp] theorem setPc_msis (s : State) (v : Word) : (s.setPc v).msis = s.msis := s.setCtx_msis ..

/-! ### `setFcsr` -/

@[simp] theorem setFcsr_cur (s : State) (v : Word) : (s.setFcsr v).cur = s.cur := s.setCtx_cur ..
@[simp] theorem setFcsr_ibits (s : State) (v : Word) : (s.setFcsr v).ibits = s.ibits := s.setCtx_ibits ..
@[simp] theorem setFcsr_ilen (s : State) (v : Word) : (s.setFcsr v).ilen = s.ilen := s.setCtx_ilen ..
@[simp] theorem setFcsr_accPa (s : State) (v : Word) : (s.setFcsr v).accPa = s.accPa := s.setCtx_accPa ..
@[simp] theorem setFcsr_accTiers (s : State) (v : Word) : (s.setFcsr v).accTiers = s.accTiers := s.setCtx_accTiers ..
@[simp] theorem setFcsr_agenda (s : State) (v : Word) : (s.setFcsr v).agenda = s.agenda := s.setCtx_agenda ..
@[simp] theorem setFcsr_draws (s : State) (v : Word) : (s.setFcsr v).draws = s.draws := s.setCtx_draws ..
@[simp] theorem setFcsr_nextId (s : State) (v : Word) : (s.setFcsr v).nextId = s.nextId := s.setCtx_nextId ..
@[simp] theorem setFcsr_time (s : State) (v : Word) : (s.setFcsr v).time = s.time := s.setCtx_time ..
@[simp] theorem setFcsr_mem (s : State) (v : Word) : (s.setFcsr v).mem = s.mem := s.setCtx_mem ..
@[simp] theorem setFcsr_poison (s : State) (v : Word) : (s.setFcsr v).poison = s.poison := s.setCtx_poison ..
@[simp] theorem setFcsr_owners (s : State) (v : Word) : (s.setFcsr v).owners = s.owners := s.setCtx_owners ..
@[simp] theorem setFcsr_pct (s : State) (v : Word) : (s.setFcsr v).pct = s.pct := s.setCtx_pct ..
@[simp] theorem setFcsr_mmio (s : State) (v : Word) : (s.setFcsr v).mmio = s.mmio := s.setCtx_mmio ..
@[simp] theorem setFcsr_crews (s : State) (v : Word) : (s.setFcsr v).crews = s.crews := s.setCtx_crews ..
@[simp] theorem setFcsr_fleets (s : State) (v : Word) : (s.setFcsr v).fleets = s.fleets := s.setCtx_fleets ..
@[simp] theorem setFcsr_frames (s : State) (v : Word) : (s.setFcsr v).frames = s.frames := s.setCtx_frames ..
@[simp] theorem setFcsr_allocs (s : State) (v : Word) : (s.setFcsr v).allocs = s.allocs := s.setCtx_allocs ..
@[simp] theorem setFcsr_ghosts (s : State) (v : Word) : (s.setFcsr v).ghosts = s.ghosts := s.setCtx_ghosts ..
@[simp] theorem setFcsr_notices (s : State) (v : Word) : (s.setFcsr v).notices = s.notices := s.setCtx_notices ..
@[simp] theorem setFcsr_fwdq (s : State) (v : Word) : (s.setFcsr v).fwdq = s.fwdq := s.setCtx_fwdq ..
@[simp] theorem setFcsr_cores (s : State) (v : Word) : (s.setFcsr v).cores = s.cores := s.setCtx_cores ..
@[simp] theorem setFcsr_pods (s : State) (v : Word) : (s.setFcsr v).pods = s.pods := s.setCtx_pods ..
@[simp] theorem setFcsr_dies (s : State) (v : Word) : (s.setFcsr v).dies = s.dies := s.setCtx_dies ..
@[simp] theorem setFcsr_zones (s : State) (v : Word) : (s.setFcsr v).zones = s.zones := s.setCtx_zones ..
@[simp] theorem setFcsr_pkg (s : State) (v : Word) : (s.setFcsr v).pkg = s.pkg := s.setCtx_pkg ..
@[simp] theorem setFcsr_tlb (s : State) (v : Word) : (s.setFcsr v).tlb = s.tlb := s.setCtx_tlb ..
@[simp] theorem setFcsr_ncs (s : State) (v : Word) : (s.setFcsr v).ncs = s.ncs := s.setCtx_ncs ..
@[simp] theorem setFcsr_ibuf (s : State) (v : Word) : (s.setFcsr v).ibuf = s.ibuf := s.setCtx_ibuf ..
@[simp] theorem setFcsr_rbuf (s : State) (v : Word) : (s.setFcsr v).rbuf = s.rbuf := s.setCtx_rbuf ..
@[simp] theorem setFcsr_holds (s : State) (v : Word) : (s.setFcsr v).holds = s.holds := s.setCtx_holds ..
@[simp] theorem setFcsr_copies (s : State) (v : Word) : (s.setFcsr v).copies = s.copies := s.setCtx_copies ..
@[simp] theorem setFcsr_engine (s : State) (v : Word) : (s.setFcsr v).engine = s.engine := s.setCtx_engine ..
@[simp] theorem setFcsr_descs (s : State) (v : Word) : (s.setFcsr v).descs = s.descs := s.setCtx_descs ..
@[simp] theorem setFcsr_invals (s : State) (v : Word) : (s.setFcsr v).invals = s.invals := s.setCtx_invals ..
@[simp] theorem setFcsr_replicas (s : State) (v : Word) : (s.setFcsr v).replicas = s.replicas := s.setCtx_replicas ..
@[simp] theorem setFcsr_pats (s : State) (v : Word) : (s.setFcsr v).pats = s.pats := s.setCtx_pats ..
@[simp] theorem setFcsr_hwq (s : State) (v : Word) : (s.setFcsr v).hwq = s.hwq := s.setCtx_hwq ..
@[simp] theorem setFcsr_lru (s : State) (v : Word) : (s.setFcsr v).lru = s.lru := s.setCtx_lru ..
@[simp] theorem setFcsr_cycle (s : State) (v : Word) : (s.setFcsr v).cycle = s.cycle := s.setCtx_cycle ..
@[simp] theorem setFcsr_stalled (s : State) (v : Word) : (s.setFcsr v).stalled = s.stalled := s.setCtx_stalled ..
@[simp] theorem setFcsr_peerPosts (s : State) (v : Word) : (s.setFcsr v).peerPosts = s.peerPosts := s.setCtx_peerPosts ..
@[simp] theorem setFcsr_peerRgn (s : State) (v : Word) : (s.setFcsr v).peerRgn = s.peerRgn := s.setCtx_peerRgn ..
@[simp] theorem setFcsr_dir (s : State) (v : Word) : (s.setFcsr v).dir = s.dir := s.setCtx_dir ..
@[simp] theorem setFcsr_snoop (s : State) (v : Word) : (s.setFcsr v).snoop = s.snoop := s.setCtx_snoop ..
@[simp] theorem setFcsr_iommus (s : State) (v : Word) : (s.setFcsr v).iommus = s.iommus := s.setCtx_iommus ..
@[simp] theorem setFcsr_dbgq (s : State) (v : Word) : (s.setFcsr v).dbgq = s.dbgq := s.setCtx_dbgq ..
@[simp] theorem setFcsr_poolPtr (s : State) (v : Word) : (s.setFcsr v).poolPtr = s.poolPtr := s.setCtx_poolPtr ..
@[simp] theorem setFcsr_msis (s : State) (v : Word) : (s.setFcsr v).msis = s.msis := s.setCtx_msis ..

/-! ### `accrue` -/

@[simp] theorem accrue_cur (s : State) (n : Nat) : (s.accrue n).cur = s.cur := by unfold State.accrue; split <;> [rfl; exact s.setCtx_cur ..]
@[simp] theorem accrue_ibits (s : State) (n : Nat) : (s.accrue n).ibits = s.ibits := by unfold State.accrue; split <;> [rfl; exact s.setCtx_ibits ..]
@[simp] theorem accrue_ilen (s : State) (n : Nat) : (s.accrue n).ilen = s.ilen := by unfold State.accrue; split <;> [rfl; exact s.setCtx_ilen ..]
@[simp] theorem accrue_accPa (s : State) (n : Nat) : (s.accrue n).accPa = s.accPa := by unfold State.accrue; split <;> [rfl; exact s.setCtx_accPa ..]
@[simp] theorem accrue_accTiers (s : State) (n : Nat) : (s.accrue n).accTiers = s.accTiers := by unfold State.accrue; split <;> [rfl; exact s.setCtx_accTiers ..]
@[simp] theorem accrue_agenda (s : State) (n : Nat) : (s.accrue n).agenda = s.agenda := by unfold State.accrue; split <;> [rfl; exact s.setCtx_agenda ..]
@[simp] theorem accrue_draws (s : State) (n : Nat) : (s.accrue n).draws = s.draws := by unfold State.accrue; split <;> [rfl; exact s.setCtx_draws ..]
@[simp] theorem accrue_nextId (s : State) (n : Nat) : (s.accrue n).nextId = s.nextId := by unfold State.accrue; split <;> [rfl; exact s.setCtx_nextId ..]
@[simp] theorem accrue_time (s : State) (n : Nat) : (s.accrue n).time = s.time := by unfold State.accrue; split <;> [rfl; exact s.setCtx_time ..]
@[simp] theorem accrue_mem (s : State) (n : Nat) : (s.accrue n).mem = s.mem := by unfold State.accrue; split <;> [rfl; exact s.setCtx_mem ..]
@[simp] theorem accrue_poison (s : State) (n : Nat) : (s.accrue n).poison = s.poison := by unfold State.accrue; split <;> [rfl; exact s.setCtx_poison ..]
@[simp] theorem accrue_owners (s : State) (n : Nat) : (s.accrue n).owners = s.owners := by unfold State.accrue; split <;> [rfl; exact s.setCtx_owners ..]
@[simp] theorem accrue_pct (s : State) (n : Nat) : (s.accrue n).pct = s.pct := by unfold State.accrue; split <;> [rfl; exact s.setCtx_pct ..]
@[simp] theorem accrue_mmio (s : State) (n : Nat) : (s.accrue n).mmio = s.mmio := by unfold State.accrue; split <;> [rfl; exact s.setCtx_mmio ..]
@[simp] theorem accrue_crews (s : State) (n : Nat) : (s.accrue n).crews = s.crews := by unfold State.accrue; split <;> [rfl; exact s.setCtx_crews ..]
@[simp] theorem accrue_fleets (s : State) (n : Nat) : (s.accrue n).fleets = s.fleets := by unfold State.accrue; split <;> [rfl; exact s.setCtx_fleets ..]
@[simp] theorem accrue_frames (s : State) (n : Nat) : (s.accrue n).frames = s.frames := by unfold State.accrue; split <;> [rfl; exact s.setCtx_frames ..]
@[simp] theorem accrue_allocs (s : State) (n : Nat) : (s.accrue n).allocs = s.allocs := by unfold State.accrue; split <;> [rfl; exact s.setCtx_allocs ..]
@[simp] theorem accrue_ghosts (s : State) (n : Nat) : (s.accrue n).ghosts = s.ghosts := by unfold State.accrue; split <;> [rfl; exact s.setCtx_ghosts ..]
@[simp] theorem accrue_notices (s : State) (n : Nat) : (s.accrue n).notices = s.notices := by unfold State.accrue; split <;> [rfl; exact s.setCtx_notices ..]
@[simp] theorem accrue_fwdq (s : State) (n : Nat) : (s.accrue n).fwdq = s.fwdq := by unfold State.accrue; split <;> [rfl; exact s.setCtx_fwdq ..]
@[simp] theorem accrue_cores (s : State) (n : Nat) : (s.accrue n).cores = s.cores := by unfold State.accrue; split <;> [rfl; exact s.setCtx_cores ..]
@[simp] theorem accrue_pods (s : State) (n : Nat) : (s.accrue n).pods = s.pods := by unfold State.accrue; split <;> [rfl; exact s.setCtx_pods ..]
@[simp] theorem accrue_dies (s : State) (n : Nat) : (s.accrue n).dies = s.dies := by unfold State.accrue; split <;> [rfl; exact s.setCtx_dies ..]
@[simp] theorem accrue_zones (s : State) (n : Nat) : (s.accrue n).zones = s.zones := by unfold State.accrue; split <;> [rfl; exact s.setCtx_zones ..]
@[simp] theorem accrue_pkg (s : State) (n : Nat) : (s.accrue n).pkg = s.pkg := by unfold State.accrue; split <;> [rfl; exact s.setCtx_pkg ..]
@[simp] theorem accrue_tlb (s : State) (n : Nat) : (s.accrue n).tlb = s.tlb := by unfold State.accrue; split <;> [rfl; exact s.setCtx_tlb ..]
@[simp] theorem accrue_ncs (s : State) (n : Nat) : (s.accrue n).ncs = s.ncs := by unfold State.accrue; split <;> [rfl; exact s.setCtx_ncs ..]
@[simp] theorem accrue_ibuf (s : State) (n : Nat) : (s.accrue n).ibuf = s.ibuf := by unfold State.accrue; split <;> [rfl; exact s.setCtx_ibuf ..]
@[simp] theorem accrue_rbuf (s : State) (n : Nat) : (s.accrue n).rbuf = s.rbuf := by unfold State.accrue; split <;> [rfl; exact s.setCtx_rbuf ..]
@[simp] theorem accrue_holds (s : State) (n : Nat) : (s.accrue n).holds = s.holds := by unfold State.accrue; split <;> [rfl; exact s.setCtx_holds ..]
@[simp] theorem accrue_copies (s : State) (n : Nat) : (s.accrue n).copies = s.copies := by unfold State.accrue; split <;> [rfl; exact s.setCtx_copies ..]
@[simp] theorem accrue_engine (s : State) (n : Nat) : (s.accrue n).engine = s.engine := by unfold State.accrue; split <;> [rfl; exact s.setCtx_engine ..]
@[simp] theorem accrue_descs (s : State) (n : Nat) : (s.accrue n).descs = s.descs := by unfold State.accrue; split <;> [rfl; exact s.setCtx_descs ..]
@[simp] theorem accrue_invals (s : State) (n : Nat) : (s.accrue n).invals = s.invals := by unfold State.accrue; split <;> [rfl; exact s.setCtx_invals ..]
@[simp] theorem accrue_replicas (s : State) (n : Nat) : (s.accrue n).replicas = s.replicas := by unfold State.accrue; split <;> [rfl; exact s.setCtx_replicas ..]
@[simp] theorem accrue_pats (s : State) (n : Nat) : (s.accrue n).pats = s.pats := by unfold State.accrue; split <;> [rfl; exact s.setCtx_pats ..]
@[simp] theorem accrue_hwq (s : State) (n : Nat) : (s.accrue n).hwq = s.hwq := by unfold State.accrue; split <;> [rfl; exact s.setCtx_hwq ..]
@[simp] theorem accrue_lru (s : State) (n : Nat) : (s.accrue n).lru = s.lru := by unfold State.accrue; split <;> [rfl; exact s.setCtx_lru ..]
@[simp] theorem accrue_cycle (s : State) (n : Nat) : (s.accrue n).cycle = s.cycle := by unfold State.accrue; split <;> [rfl; exact s.setCtx_cycle ..]
@[simp] theorem accrue_stalled (s : State) (n : Nat) : (s.accrue n).stalled = s.stalled := by unfold State.accrue; split <;> [rfl; exact s.setCtx_stalled ..]
@[simp] theorem accrue_peerPosts (s : State) (n : Nat) : (s.accrue n).peerPosts = s.peerPosts := by unfold State.accrue; split <;> [rfl; exact s.setCtx_peerPosts ..]
@[simp] theorem accrue_peerRgn (s : State) (n : Nat) : (s.accrue n).peerRgn = s.peerRgn := by unfold State.accrue; split <;> [rfl; exact s.setCtx_peerRgn ..]
@[simp] theorem accrue_dir (s : State) (n : Nat) : (s.accrue n).dir = s.dir := by unfold State.accrue; split <;> [rfl; exact s.setCtx_dir ..]
@[simp] theorem accrue_snoop (s : State) (n : Nat) : (s.accrue n).snoop = s.snoop := by unfold State.accrue; split <;> [rfl; exact s.setCtx_snoop ..]
@[simp] theorem accrue_iommus (s : State) (n : Nat) : (s.accrue n).iommus = s.iommus := by unfold State.accrue; split <;> [rfl; exact s.setCtx_iommus ..]
@[simp] theorem accrue_dbgq (s : State) (n : Nat) : (s.accrue n).dbgq = s.dbgq := by unfold State.accrue; split <;> [rfl; exact s.setCtx_dbgq ..]
@[simp] theorem accrue_poolPtr (s : State) (n : Nat) : (s.accrue n).poolPtr = s.poolPtr := by unfold State.accrue; split <;> [rfl; exact s.setCtx_poolPtr ..]
@[simp] theorem accrue_msis (s : State) (n : Nat) : (s.accrue n).msis = s.msis := by unfold State.accrue; split <;> [rfl; exact s.setCtx_msis ..]

/-! ### `retired` -/

@[simp] theorem retired_cur (s : State) : (s.retired).cur = s.cur := by unfold State.retired; (repeat' split) <;> rfl
@[simp] theorem retired_ibits (s : State) : (s.retired).ibits = s.ibits := by unfold State.retired; (repeat' split) <;> rfl
@[simp] theorem retired_ilen (s : State) : (s.retired).ilen = s.ilen := by unfold State.retired; (repeat' split) <;> rfl
@[simp] theorem retired_accPa (s : State) : (s.retired).accPa = s.accPa := by unfold State.retired; (repeat' split) <;> rfl
@[simp] theorem retired_accTiers (s : State) : (s.retired).accTiers = s.accTiers := by unfold State.retired; (repeat' split) <;> rfl
@[simp] theorem retired_agenda (s : State) : (s.retired).agenda = s.agenda := by unfold State.retired; (repeat' split) <;> rfl
@[simp] theorem retired_draws (s : State) : (s.retired).draws = s.draws := by unfold State.retired; (repeat' split) <;> rfl
@[simp] theorem retired_nextId (s : State) : (s.retired).nextId = s.nextId := by unfold State.retired; (repeat' split) <;> rfl
@[simp] theorem retired_time (s : State) : (s.retired).time = s.time := by unfold State.retired; (repeat' split) <;> rfl
@[simp] theorem retired_mem (s : State) : (s.retired).mem = s.mem := by unfold State.retired; (repeat' split) <;> rfl
@[simp] theorem retired_poison (s : State) : (s.retired).poison = s.poison := by unfold State.retired; (repeat' split) <;> rfl
@[simp] theorem retired_owners (s : State) : (s.retired).owners = s.owners := by unfold State.retired; (repeat' split) <;> rfl
@[simp] theorem retired_pct (s : State) : (s.retired).pct = s.pct := by unfold State.retired; (repeat' split) <;> rfl
@[simp] theorem retired_mmio (s : State) : (s.retired).mmio = s.mmio := by unfold State.retired; (repeat' split) <;> rfl
@[simp] theorem retired_crews (s : State) : (s.retired).crews = s.crews := by unfold State.retired; (repeat' split) <;> rfl
@[simp] theorem retired_fleets (s : State) : (s.retired).fleets = s.fleets := by unfold State.retired; (repeat' split) <;> rfl
@[simp] theorem retired_frames (s : State) : (s.retired).frames = s.frames := by unfold State.retired; (repeat' split) <;> rfl
@[simp] theorem retired_allocs (s : State) : (s.retired).allocs = s.allocs := by unfold State.retired; (repeat' split) <;> rfl
@[simp] theorem retired_ghosts (s : State) : (s.retired).ghosts = s.ghosts := by unfold State.retired; (repeat' split) <;> rfl
@[simp] theorem retired_notices (s : State) : (s.retired).notices = s.notices := by unfold State.retired; (repeat' split) <;> rfl
@[simp] theorem retired_fwdq (s : State) : (s.retired).fwdq = s.fwdq := by unfold State.retired; (repeat' split) <;> rfl
@[simp] theorem retired_cores (s : State) : (s.retired).cores = s.cores := by unfold State.retired; (repeat' split) <;> rfl
@[simp] theorem retired_pods (s : State) : (s.retired).pods = s.pods := by unfold State.retired; (repeat' split) <;> rfl
@[simp] theorem retired_dies (s : State) : (s.retired).dies = s.dies := by unfold State.retired; (repeat' split) <;> rfl
@[simp] theorem retired_zones (s : State) : (s.retired).zones = s.zones := by unfold State.retired; (repeat' split) <;> rfl
@[simp] theorem retired_pkg (s : State) : (s.retired).pkg = s.pkg := by unfold State.retired; (repeat' split) <;> rfl
@[simp] theorem retired_tlb (s : State) : (s.retired).tlb = s.tlb := by unfold State.retired; (repeat' split) <;> rfl
@[simp] theorem retired_ncs (s : State) : (s.retired).ncs = s.ncs := by unfold State.retired; (repeat' split) <;> rfl
@[simp] theorem retired_ibuf (s : State) : (s.retired).ibuf = s.ibuf := by unfold State.retired; (repeat' split) <;> rfl
@[simp] theorem retired_rbuf (s : State) : (s.retired).rbuf = s.rbuf := by unfold State.retired; (repeat' split) <;> rfl
@[simp] theorem retired_copies (s : State) : (s.retired).copies = s.copies := by unfold State.retired; (repeat' split) <;> rfl
@[simp] theorem retired_engine (s : State) : (s.retired).engine = s.engine := by unfold State.retired; (repeat' split) <;> rfl
@[simp] theorem retired_descs (s : State) : (s.retired).descs = s.descs := by unfold State.retired; (repeat' split) <;> rfl
@[simp] theorem retired_invals (s : State) : (s.retired).invals = s.invals := by unfold State.retired; (repeat' split) <;> rfl
@[simp] theorem retired_replicas (s : State) : (s.retired).replicas = s.replicas := by unfold State.retired; (repeat' split) <;> rfl
@[simp] theorem retired_pats (s : State) : (s.retired).pats = s.pats := by unfold State.retired; (repeat' split) <;> rfl
@[simp] theorem retired_hwq (s : State) : (s.retired).hwq = s.hwq := by unfold State.retired; (repeat' split) <;> rfl
@[simp] theorem retired_lru (s : State) : (s.retired).lru = s.lru := by unfold State.retired; (repeat' split) <;> rfl
@[simp] theorem retired_cycle (s : State) : (s.retired).cycle = s.cycle := by unfold State.retired; (repeat' split) <;> rfl
@[simp] theorem retired_stalled (s : State) : (s.retired).stalled = s.stalled := by unfold State.retired; (repeat' split) <;> rfl
@[simp] theorem retired_peerPosts (s : State) : (s.retired).peerPosts = s.peerPosts := by unfold State.retired; (repeat' split) <;> rfl
@[simp] theorem retired_peerRgn (s : State) : (s.retired).peerRgn = s.peerRgn := by unfold State.retired; (repeat' split) <;> rfl
@[simp] theorem retired_dir (s : State) : (s.retired).dir = s.dir := by unfold State.retired; (repeat' split) <;> rfl
@[simp] theorem retired_snoop (s : State) : (s.retired).snoop = s.snoop := by unfold State.retired; (repeat' split) <;> rfl
@[simp] theorem retired_iommus (s : State) : (s.retired).iommus = s.iommus := by unfold State.retired; (repeat' split) <;> rfl
@[simp] theorem retired_dbgq (s : State) : (s.retired).dbgq = s.dbgq := by unfold State.retired; (repeat' split) <;> rfl
@[simp] theorem retired_poolPtr (s : State) : (s.retired).poolPtr = s.poolPtr := by unfold State.retired; (repeat' split) <;> rfl
@[simp] theorem retired_msis (s : State) : (s.retired).msis = s.msis := by unfold State.retired; (repeat' split) <;> rfl

end Sys2Proof.Machine.State
end

