-- ==== Sys2Proof/Laws/Exec.lean ====
section
/-! SUPPORT. How an instruction starts and ends: the guards of the two classes of core, the retiring forms of Safety.lean,
and what a register write, a retirement and a wait do to registers, strands and crews. -/

namespace Sys2Proof.Machine

namespace State

variable {s : State} {t : Strand} {c : Crew} {i : Nat}

/-! ### Who is in issue -/

theorem OnStrand.cur (h : s.OnStrand t) : s.cur = .strand t.image := by
  unfold OnStrand curStrand at h
  split at h
  · cases h
  · rename_i k e
    split at h
    · split at h
      · rename_i u hu _
        cases h
        rw [e, (kfind_some hu).1]
      · cases h
    · cases h

theorem OnStrand.strand? (h : s.OnStrand t) : s.strand? t.image = some t := by
  have hc := h.cur
  unfold OnStrand curStrand at h
  rw [hc] at h
  dsimp only at h
  split at h
  · split at h
    · rename_i u hu _
      cases h
      exact hu
    · cases h
  · cases h

theorem OnStrand.resident (h : s.OnStrand t) : t.status = .resident := by
  have hs := h.strand?
  have hc := h.cur
  unfold OnStrand curStrand at h
  simp only [hc, hs] at h
  split at h
  · assumption
  · cases h

theorem onStrand_of {k : Nat} (hc : s.cur = .strand k) (hs : s.strand? k = some t) (hr : t.status = .resident) :
    s.OnStrand t := by
  unfold OnStrand curStrand
  simp [hc, hs, hr]

theorem OnCrew.onStrand (h : s.OnCrew t c) : s.OnStrand t := h.1

/-- A strand in issue runs what both classes of core implement. -/
theorem onAny_eq (h : s.Runs) (g : Out) : s.onAny g = g := by
  rcases h with ⟨t, h⟩ | ⟨i, hc, hr⟩
  · unfold onAny
    rw [h.cur]
    have h' : s.curStrand = some t := h
    simp only [h']
  · unfold onAny
    rw [hc]
    simp [hr]

theorem onStrand_eq (h : s.OnStrand t) (g : Strand → Out) : s.onStrand g = g t := by
  unfold onStrand
  rw [h.cur]
  have h' : s.curStrand = some t := h
  simp only [h']

theorem onCrew_eq (h : s.OnCrew t c) (g : Strand → Crew → Out) : s.onCrew g = g t c := by
  unfold onCrew
  rw [onStrand_eq h.1, h.2]

/-- On an L-core an instruction of W-cores alone traps (R26). -/
theorem onStrand_lcore (h : s.OnL i) (g : Strand → Out) : s.onStrand g = .next (s.trap 24 s.ibits) := by
  unfold onStrand
  rw [h.1]
  simp only [h.2, if_true]
  rfl

theorem onCrew_lcore (h : s.OnL i) (g : Strand → Crew → Out) : s.onCrew g = .next (s.trap 24 s.ibits) :=
  onStrand_lcore h _

theorem OnStrand.runs (h : s.OnStrand t) : s.Runs := .inl ⟨t, h⟩
theorem OnL.runs (h : s.OnL i) : s.Runs := .inr ⟨i, h⟩

/-! ### How it ends -/

theorem next_eq : s.next = .next s.retire := rfl
theorem status_eq {rd : Reg} {v : Word} : s.status rd v = .next (s.retX rd v) := rfl
theorem fdone_eq {rd : Reg} {v : Word} {fl : Nat} : s.fdone rd v fl = .next (s.retF rd v fl) := rfl
theorem xdone_eq {rd : Reg} {v : Word} {fl : Nat} : s.xdone rd v fl = .next (s.retXF rd v fl) := rfl
theorem jump_eq {v : Word} : s.jump v = .next (s.setPc v).retired := rfl
theorem raise_eq {k : Nat} {v : Word} : s.raise k v = .next (s.trap k v) := rfl
theorem illegal_eq : s.illegal = .next (s.trap 2 s.ibits) := rfl
theorem mismatch_eq : s.mismatch = .next (s.trap 25 s.ibits) := rfl
theorem coreClass_eq : s.coreClass = .next (s.trap 24 s.ibits) := rfl

theorem satDone_eq {rd : Reg} {v : Word} {b : Bool} : s.satDone rd v b = .next ((s.satMark b).retX rd v) := by
  unfold satDone satMark; cases b <;> rfl

/-! ### Strands and crews after an update -/

theorem strand?_modStrand {k n : Nat} {f : Strand → Strand} (hf : ∀ t, (f t).image = t.image) :
    (s.modStrand k f).strand? n = if n = k then (s.strand? n).map f else s.strand? n := by
  refine (kfind_kmod hf).trans ?_
  split
  · rfl
  · exact Option.map_id'

theorem crew?_modCrew {k n : Nat} {f : Crew → Crew} (hf : ∀ c, (f c).id = c.id) :
    (s.modCrew k f).crew? n = if n = k then (s.crew? n).map f else s.crew? n := by
  refine (kfind_kmod hf).trans ?_
  split
  · rfl
  · exact Option.map_id'

@[simp] theorem setCtx_crew? {a : Agent} {n k : Nat} {v : Word} : (s.setCtx a n v).crew? k = s.crew? k := by cases a <;> rfl

theorem ctxOf_strand {k : Nat} (hs : s.strand? k = some t) : s.ctxOf (.strand k) = t.ctx := by
  simp [ctxOf, hs]

/-- The strand in issue after a context word has been written. -/
theorem OnStrand.setCtx (h : s.OnStrand t) (n : Nat) (v : Word) : (s.setCtx s.cur n v).OnStrand (t.setCw n v) := by
  have hs : (s.setCtx s.cur n v).strand? t.image = some (t.setCw n v) := by
    rw [h.cur]
    show (s.modStrand t.image fun t => t.setCw n v).strand? t.image = _
    rw [strand?_modStrand (f := fun t => t.setCw n v) fun _ => rfl, if_pos rfl, h.strand?]
    rfl
  exact onStrand_of (by rw [setCtx_cur, h.cur]) hs h.resident

theorem OnStrand.ctx (h : s.OnStrand t) : s.ctxOf s.cur = t.ctx := by rw [h.cur]; exact ctxOf_strand h.strand?

/-- A context word read after one has been written. -/
theorem OnStrand.get_setCtx (h : s.OnStrand t) (hw : swf t.ctx = true) (n m : Nat) (v : Word) :
    sget ((s.setCtx s.cur n v).ctxOf (s.setCtx s.cur n v).cur) m = if m = n then v else sget (s.ctxOf s.cur) m := by
  rw [(h.setCtx n v).ctx, h.ctx]
  exact sget_sset hw

theorem OnStrand.swf (h : s.OnStrand t) (hI : s.Inv) : Machine.swf t.ctx = true := strand_swf hI h.strand?

/-- Retirement leaves the context of the strand in issue as it is. -/
theorem OnStrand.retired (h : s.OnStrand t) :
    ∃ u, s.retired.OnStrand u ∧ u = { t with
      instret := t.instret + 1
      since := none
      step := false
      sent := []
      pendStop := if t.step && t.pendStop = 0 then 2 else t.pendStop } := by
  refine ⟨_, ?_, rfl⟩
  unfold State.retired
  rw [h.cur]
  simp only [h.strand?]
  refine onStrand_of (k := t.image) h.cur ?_ h.resident
  refine (strand?_modStrand (s := s) (k := t.image) (n := t.image) (f := fun t => { t with
      instret := t.instret + 1
      since := none
      step := false
      sent := []
      pendStop := if t.step && t.pendStop = 0 then 2 else t.pendStop }) fun _ => rfl).trans ?_
  rw [if_pos rfl, h.strand?]
  rfl

theorem OnStrand.retired_ctx (h : s.OnStrand t) : s.retired.ctxOf s.retired.cur = t.ctx := by
  obtain ⟨u, hu, e⟩ := h.retired
  rw [hu.ctx, e]

/-- The strand after an instruction has retired with `v` in X[rd]. -/
theorem OnStrand.setX (h : s.OnStrand t) (rd : Reg) (v : Word) :
    (s.setX rd v).OnStrand (if rd = 0 then t else t.setCw rd.toNat v) := by
  unfold State.setX
  split
  · exact h
  · exact h.setCtx _ _

/-- The same for F[rd]. -/
theorem OnStrand.setF (h : s.OnStrand t) (rd : Reg) (v : Word) : (s.setF rd v).OnStrand (t.setCw (32 + rd.toNat) v) :=
  h.setCtx _ _

theorem OnStrand.x (h : s.OnStrand t) (r : Reg) : s.x r = if r = 0 then 0 else t.cw r.toNat := by
  unfold State.x; rw [h.ctx]; rfl

theorem OnStrand.f (h : s.OnStrand t) (r : Reg) : s.f r = t.cw (32 + r.toNat) := by
  unfold State.f; rw [h.ctx]; rfl

theorem OnStrand.pc (h : s.OnStrand t) : s.pc = t.cw cPc := by unfold State.pc; rw [h.ctx]; rfl

theorem OnStrand.fcsr (h : s.OnStrand t) : s.fcsr = t.cw cFcsr := by unfold State.fcsr; rw [h.ctx]; rfl

/-- A strand that has retired: its pc has passed the instruction, and it carries the marks of retirement. -/
theorem OnStrand.retire (h : s.OnStrand t) :
    ∃ u, s.retire.OnStrand u ∧ u.ctx = sset t.ctx cPc (t.cw cPc + w64 s.ilen) ∧ u = { t with
      ctx := u.ctx
      instret := t.instret + 1
      since := u.since
      step := false
      sent := []
      pendStop := if t.step && t.pendStop = 0 then 2 else t.pendStop } := by
  obtain ⟨u, hu, e⟩ := (h.setCtx cPc (s.pc + w64 s.ilen)).retired
  refine ⟨u, hu, ?_, ?_⟩
  · rw [e, h.pc]; rfl
  · rw [e]; rfl

theorem cw_setCw {t : Strand} (hw : Machine.swf t.ctx = true) (n m : Nat) (v : Word) :
    (t.setCw n v).cw m = if m = n then v else t.cw m := sget_sset hw

theorem setCw_swf {t : Strand} (hw : Machine.swf t.ctx = true) (n : Nat) (v : Word) :
    Machine.swf (t.setCw n v).ctx = true := sset_swf hw

theorem reg_pos {r : Reg} (h : r ≠ 0) : 0 < r.toNat :=
  Nat.pos_of_ne_zero fun e => h (BitVec.eq_of_toNat_eq (by simpa using e))

/-- Every word of the context after retirement. -/
theorem OnStrand.retire_cw (h : s.OnStrand t) (hw : Machine.swf t.ctx = true) :
    ∃ u, s.retire.OnStrand u ∧ u.image = t.image ∧ ∀ n, u.cw n = if n = cPc then s.pc + w64 s.ilen else t.cw n := by
  obtain ⟨u, hu, ec, eu⟩ := h.retire
  refine ⟨u, hu, by rw [eu], fun n => ?_⟩
  show sget u.ctx n = _
  rw [ec, sget_sset hw, h.pc]
  rfl

/-- Every word of the context after an instruction has retired with `v` in X[rd]. -/
theorem OnStrand.retX_cw (h : s.OnStrand t) (hw : Machine.swf t.ctx = true) (rd : Reg) (v : Word) :
    ∃ u, (s.retX rd v).OnStrand u ∧ u.image = t.image ∧ ∀ n, u.cw n =
      if n = cPc then s.pc + w64 s.ilen else if n = rd.toNat ∧ rd ≠ 0 then v else t.cw n := by
  by_cases hz : rd = 0
  · have h' := h.setX rd v
    rw [if_pos hz] at h'
    obtain ⟨u, hu, ei, eu⟩ := h'.retire_cw hw
    refine ⟨u, hu, ei, fun n => ?_⟩
    rw [eu n, h'.pc, h.pc, setX_ilen]
    simp [hz]
  · have h' := h.setX rd v
    rw [if_neg hz] at h'
    obtain ⟨u, hu, ei, eu⟩ := h'.retire_cw (setCw_swf hw _ _)
    refine ⟨u, hu, ei, fun n => ?_⟩
    have hp := reg_pos hz
    rw [eu n, h'.pc, h.pc, setX_ilen, cw_setCw hw, cw_setCw hw, if_neg (show ¬cPc = rd.toNat by simp only [cPc]; omega)]
    simp only [ne_eq, hz, not_false_eq_true, and_true]

/-- Every word of the context after an instruction has retired with `v` in F[rd] and no flags. -/
theorem OnStrand.retF_cw (h : s.OnStrand t) (hw : Machine.swf t.ctx = true) (rd : Reg) (v : Word) :
    ∃ u, ((s.setF rd v).retire).OnStrand u ∧ u.image = t.image ∧ ∀ n, u.cw n =
      if n = cPc then s.pc + w64 s.ilen else if n = 32 + rd.toNat then v else t.cw n := by
  have h' := h.setF rd v
  obtain ⟨u, hu, ei, eu⟩ := h'.retire_cw (setCw_swf hw _ _)
  refine ⟨u, hu, ei, fun n => ?_⟩
  rw [eu n, h'.pc, h.pc, setF_ilen, cw_setCw hw, cw_setCw hw, if_neg (show ¬cPc = 32 + rd.toNat by simp only [cPc]; omega)]

/-! ### Frames -/

/-- Of the strand in issue, `t` before, only context words that `ws` lists have been written, and nothing else. -/
def Wrote (s s' : State) (t : Strand) (ws : List Nat) : Prop :=
  s' = { s with strands := s'.strands } ∧ (∀ k, k ≠ t.image → s'.strand? k = s.strand? k) ∧
  ∃ u, s'.OnStrand u ∧ u = { t with ctx := u.ctx } ∧ Machine.swf u.ctx = true ∧ ∀ n, n ∉ ws → u.cw n = t.cw n

theorem Wrote.refl {ws : List Nat} (h : s.OnStrand t) (hw : Machine.swf t.ctx = true) : Wrote s s t ws :=
  ⟨rfl, fun _ _ => rfl, t, h, rfl, hw, fun _ _ => rfl⟩

/-- One more word of the list. -/
theorem Wrote.setCtx {s' : State} {ws : List Nat} (h : Wrote s s' t ws) {n : Nat} (v : Word) (hn : n ∈ ws) :
    Wrote s (s'.setCtx s'.cur n v) t ws := by
  obtain ⟨e, ho, u, hu, eu, hw, hc⟩ := h
  have hu' := hu.setCtx n v
  have ei : u.image = t.image := by rw [eu]
  refine ⟨?_, fun k hk => ?_, u.setCw n v, hu', ?_, setCw_swf hw _ _, fun m hm => ?_⟩
  · rw [hu.cur]
    show s'.modStrand u.image _ = _
    simp only [modStrand]
    rw [e]
    rfl
  · rw [hu.cur]
    show (s'.modStrand u.image fun t => t.setCw n v).strand? k = _
    rw [strand?_modStrand (f := fun t => t.setCw n v) fun _ => rfl, if_neg (by rw [ei]; exact hk), ho k hk]
  · rw [eu]; rfl
  · rw [cw_setCw hw, if_neg (fun e => hm (by rw [e]; exact hn)), hc m hm]

theorem Wrote.setX {s' : State} {ws : List Nat} (h : Wrote s s' t ws) {rd : Reg} (v : Word) (hn : rd.toNat ∈ ws) :
    Wrote s (s'.setX rd v) t ws := by
  unfold State.setX
  split
  · exact h
  · exact h.setCtx v hn

theorem Wrote.setF {s' : State} {ws : List Nat} (h : Wrote s s' t ws) {rd : Reg} (v : Word) (hn : 32 + rd.toNat ∈ ws) :
    Wrote s (s'.setF rd v) t ws := h.setCtx v hn

theorem Wrote.accrue {s' : State} {ws : List Nat} (h : Wrote s s' t ws) (fl : Nat) (hn : cFcsr ∈ ws) :
    Wrote s (s'.accrue fl) t ws := by
  unfold State.accrue
  split
  · exact h
  · exact h.setCtx _ hn

theorem Wrote.satMark {s' : State} {ws : List Nat} (h : Wrote s s' t ws) (b : Bool) (hn : cFxsat ∈ ws) :
    Wrote s (s'.satMark b) t ws := by
  unfold State.satMark
  split
  · exact h.setCtx _ hn
  · exact h

/-- Retirement after such writes: the frame of Safety.lean. -/
theorem Wrote.retired {s' : State} {ws : List Nat} (h : Wrote s s' t ws) : s.OnlyWords s'.retired t ws := by
  obtain ⟨e, ho, u, hu, eu, hw, hc⟩ := h
  have ei : u.image = t.image := by rw [eu]
  obtain ⟨w, hw', ew⟩ := hu.retired
  have es : s'.retired = { (s'.modStrand u.image fun v => { v with
      instret := v.instret + 1
      since := none
      step := false
      sent := []
      pendStop := if v.step && v.pendStop = 0 then 2 else v.pendStop }) with
      holds := s'.holds.map fun h => if h.image = u.image then { h with left := h.left - 1 } else h } := by
    unfold State.retired
    rw [hu.cur]
    simp only [hu.strand?]
    rfl
  refine ⟨?_, fun k hk => ?_, fun x hx hi => ?_, w, ?_, ?_, fun n hn => ?_⟩
  · rw [es]
    simp only [modStrand]
    rw [e]
  · rw [es]
    refine Eq.trans ?_ (ho k hk)
    refine (strand?_modStrand (s := s') (f := fun v => { v with
      instret := v.instret + 1
      since := none
      step := false
      sent := []
      pendStop := if v.step && v.pendStop = 0 then 2 else v.pendStop }) fun _ => rfl).trans (if_neg (by rw [ei]; exact hk))
  · rw [es]
    refine List.mem_map.2 ⟨x, ?_, if_neg (by rw [ei]; exact hi)⟩
    rw [e]
    exact hx
  · have := hw'.strand?
    have ewi : w.image = t.image := by rw [ew]; exact ei
    rw [ewi] at this
    exact this
  · rw [ew, eu]
  · rw [← hc n hn, ew]; rfl

theorem Wrote.retire {s' : State} {ws : List Nat} (h : Wrote s s' t ws) (hn : cPc ∈ ws) : s.OnlyWords s'.retire t ws :=
  (h.setCtx _ hn).retired

@[simp] theorem retire_ilen : s.retire.ilen = s.ilen := by simp [State.retire]
@[simp] theorem retire_mem : s.retire.mem = s.mem := by simp [State.retire]

end State

end Sys2Proof.Machine
end

