-- ==== Sys2Proof/Laws/InvMemory.lean ====
section
/-! SUPPORT. Each operation keeps the invariant: memory, the frame, the collectives and traps. -/

set_option linter.all false

namespace Sys2Proof.Machine

/-! ### Operations of Access.lean -/

theorem State.drawBit_inv {s : State} (hI : s.Inv) : PairInvR (State.drawBit s) := by
  unfold State.drawBit
  repeat' first
    | (with_reducible apply inv_same; with_reducible assumption)
    | with_reducible apply pairR_mk

theorem State.drawNat_inv {s : State} (hI : s.Inv) : PairInvR (State.drawNat s) := by
  unfold State.drawNat
  repeat' first
    | (with_reducible apply inv_same; with_reducible assumption)
    | with_reducible apply pairR_mk

theorem State.fresh_inv {s : State} (hI : s.Inv) : PairInvR (State.fresh s) := by
  unfold State.fresh
  repeat' first
    | (with_reducible apply inv_same; with_reducible assumption)
    | with_reducible apply pairR_mk

theorem State.setCtx_inv {s : State} {a : Agent} {i : Nat} {v : Word} (hI : s.Inv) : (State.setCtx s a i v).Inv := by
  unfold State.setCtx
  repeat' first
    | with_reducible first | assumption | intro _
    | with_reducible first | apply State.modStrand_inv | apply State.modLcore_inv
    | split
    | with_reducible first | apply sset_swf | apply Strand.setCw_swf | apply And.intro

theorem State.setX_inv {s : State} {r : Reg} {v : Word} (hI : s.Inv) : (State.setX s r v).Inv := by
  unfold State.setX
  repeat' first
    | with_reducible assumption
    | with_reducible apply State.setCtx_inv
    | split

theorem State.setF_inv {s : State} {r : Reg} {v : Word} (hI : s.Inv) : (State.setF s r v).Inv := by
  unfold State.setF
  repeat' first
    | with_reducible assumption
    | with_reducible apply State.setCtx_inv

theorem State.setPc_inv {s : State} {v : Word} (hI : s.Inv) : (State.setPc s v).Inv := by
  unfold State.setPc
  repeat' first
    | with_reducible assumption
    | with_reducible apply State.setCtx_inv

theorem State.setFcsr_inv {s : State} {v : Word} (hI : s.Inv) : (State.setFcsr s v).Inv := by
  unfold State.setFcsr
  repeat' first
    | with_reducible assumption
    | with_reducible apply State.setCtx_inv

theorem State.accrue_inv {s : State} {fl : Nat} (hI : s.Inv) : (State.accrue s fl).Inv := by
  unfold State.accrue
  repeat' first
    | with_reducible assumption
    | with_reducible apply State.setFcsr_inv
    | split

theorem State.retired_inv {s : State} (hI : s.Inv) : (State.retired s).Inv := by
  unfold State.retired
  repeat' first
    | with_reducible first | assumption | intro _
    | ((fail_if_no_progress extract_lets +onlyGivenNames u); (have hu : State.Inv u; (on_goal 1 => (unfold u; clear u)); (on_goal 2 => clear_value u)))
    | (with_reducible apply inv_same; with_reducible assumption)
    | with_reducible first | apply State.modLcore_inv | apply State.modStrand_inv
    | split
    | with_reducible apply And.intro

theorem State.next_inv {s : State} (hI : s.Inv) : OutInv (State.next s) := by
  unfold State.next
  repeat' first
    | with_reducible assumption
    | with_reducible first | apply State.retired_inv | apply State.setPc_inv | apply out_next

theorem State.status_inv {s : State} {rd : Reg} {v : Word} (hI : s.Inv) : OutInv (State.status s rd v) := by
  unfold State.status
  repeat' first
    | with_reducible assumption
    | with_reducible first | apply State.next_inv | apply State.setX_inv

theorem State.jump_inv {s : State} {v : Word} (hI : s.Inv) : OutInv (State.jump s v) := by
  unfold State.jump
  repeat' first
    | with_reducible assumption
    | with_reducible first | apply State.retired_inv | apply State.setPc_inv | apply out_next

theorem State.await_inv {s : State} {w : Wait} (hI : s.Inv) : (State.await s w).Inv := by
  unfold State.await
  repeat' first
    | with_reducible first | assumption | intro _
    | with_reducible apply State.modCur_inv

theorem State.stall_inv {s : State} (hI : s.Inv) : OutInv (State.stall s) := by
  unfold State.stall
  repeat' first
    | with_reducible first | assumption | intro _
    | (with_reducible apply inv_same; with_reducible assumption)
    | with_reducible first | apply State.modCur_inv | apply out_next

theorem State.dropWait_inv {s : State} {k : Nat} (hI : s.Inv) : (State.dropWait s k).Inv := by
  unfold State.dropWait
  repeat' first
    | with_reducible first | assumption | intro _
    | with_reducible apply State.modStrand_inv

/-! ### Operations of Memory.lean -/

theorem State.deliver_inv {s : State} {p : Replica → Bool} (hI : s.Inv) : (State.deliver s p).Inv := by
  unfold State.deliver
  repeat' first
    | with_reducible assumption
    | (with_reducible apply inv_same; with_reducible assumption)
    | split

theorem State.drain_inv {s : State} {me : Nat} (hI : s.Inv) : (State.drain s me).Inv := by
  unfold State.drain
  repeat' first
    | with_reducible assumption
    | with_reducible apply State.deliver_inv

theorem State.drainDie_inv {s : State} {me : Nat} {die : Nat} (hI : s.Inv) : (State.drainDie s me die).Inv := by
  unfold State.drainDie
  repeat' first
    | with_reducible assumption
    | with_reducible apply State.deliver_inv

theorem State.sawHome_inv {s : State} {die : Nat} {pa : Nat} {n : Nat} (hI : s.Inv) : (State.sawHome s die pa n).Inv := by
  unfold State.sawHome
  repeat' first
    | with_reducible assumption
    | with_reducible apply State.deliver_inv

theorem State.recordLater_inv {s : State} {core : Nat} {r : FaultRec} (hI : s.Inv) : (State.recordLater s core r).Inv := by
  unfold State.recordLater
  repeat' first
    | with_reducible assumption
    | (with_reducible apply inv_same; with_reducible assumption)
    | with_reducible apply State.recordStep_inv
    | split

theorem State.mergeVal_inv {s : State} {e : RedEntry} {ov : Nat × Nat} (hI : s.Inv) : (State.mergeVal s e ov).Inv := by
  unfold State.mergeVal
  repeat' first
    | with_reducible assumption
    | ((fail_if_no_progress extract_lets +onlyGivenNames u); (first | ((fail_if_success (have _ : ∀ x, u x = u x := fun _ => rfl)); clear_value u) | (unfold u; clear u)))
    | with_reducible apply State.poke_inv

theorem State.mergeEntry_inv {s : State} {e : RedEntry} {evc : Bool} (hI : s.Inv) : (State.mergeEntry s e evc).Inv := by
  unfold State.mergeEntry
  repeat' first
    | with_reducible first | assumption | intro _
    | ((fail_if_no_progress extract_lets +onlyGivenNames u); (have hu : State.Inv u; (on_goal 1 => (unfold u; clear u)); (on_goal 2 => clear_value u)))
    | (with_reducible apply inv_same; with_reducible assumption)
    | with_reducible first | apply State.modCore_inv | apply State.recordLater_inv | apply State.mergeVal_inv | apply foldl_inv
    | split
    | with_reducible first | apply sset_swf | apply And.intro | apply mem_swf | apply mmio_swf | apply pct_swf | apply owners_swf | apply peerRgn_swf | apply strands_ok | apply lcores_ok | apply crews_ok | apply fleets_ok | apply cores_len | apply pods_len | apply dies_len | apply zones_len | apply lcores_len
    | simp only [inv_mk_iff]

theorem State.mergeWhere_inv {s : State} {p : RedEntry → Bool} (hI : s.Inv) : (State.mergeWhere s p).Inv := by
  unfold State.mergeWhere
  repeat' first
    | with_reducible first | assumption | intro _
    | with_reducible first | apply State.mergeEntry_inv | apply foldl_inv

theorem State.mergeLines_inv {s : State} {pa : Nat} {n : Nat} (hI : s.Inv) : (State.mergeLines s pa n).Inv := by
  unfold State.mergeLines
  repeat' first
    | with_reducible assumption
    | with_reducible apply State.mergeWhere_inv
    | split

theorem State.mergeStrand_inv {s : State} {k : Nat} (hI : s.Inv) : (State.mergeStrand s k).Inv := by
  unfold State.mergeStrand
  repeat' first
    | with_reducible assumption
    | with_reducible apply State.mergeWhere_inv
    | split

theorem State.patOpen_inv {s : State} {pa : Nat} (hI : s.Inv) : (State.patOpen s pa).Inv := by
  unfold State.patOpen
  repeat' first
    | with_reducible assumption
    | with_reducible apply State.mergeLines_inv
    | split

theorem State.classify_inv {s : State} {n : Nat} {pa : Nat} {attr : Nat} (hI : s.Inv) : (State.classify s n pa attr).Inv := by
  unfold State.classify
  repeat' first
    | with_reducible assumption
    | ((fail_if_no_progress extract_lets +onlyGivenNames u); (first | (have hu : State.Inv u; (on_goal 1 => (unfold u; clear u)); (on_goal 2 => clear_value u)) | ((fail_if_success (have _ : ∀ x, u x = u x := fun _ => rfl)); clear_value u)))
    | with_reducible apply State.mergeWhere_inv
    | split
    | with_reducible first | apply sset_swf | apply And.intro | apply mem_swf | apply mmio_swf | apply pct_swf | apply owners_swf | apply peerRgn_swf | apply strands_ok | apply lcores_ok | apply crews_ok | apply fleets_ok | apply cores_len | apply pods_len | apply dies_len | apply zones_len | apply lcores_len
    | simp only [inv_mk_iff]

theorem State.dirLine_inv {s : State} {who : Nat} {line : Nat} {write : Bool} (hI : s.Inv) : (State.dirLine s who line write).Inv := by
  unfold State.dirLine
  repeat' first
    | with_reducible assumption
    | (with_reducible apply inv_same; with_reducible assumption)
    | split

theorem State.dirUncached_inv {s : State} {pa : Nat} {n : Nat} {write : Bool} (hI : s.Inv) : (State.dirUncached s pa n write).Inv := by
  unfold State.dirUncached
  repeat' first
    | ((fail_if_no_progress extract_lets +onlyGivenNames u); (first | ((fail_if_success (have _ : ∀ x, u x = u x := fun _ => rfl)); clear_value u) | (unfold u; clear u)))
    | (with_reducible apply inv_same; with_reducible assumption)

theorem State.dirTouch_inv {s : State} {who : Nat} {pa : Nat} {n : Nat} {write : Bool} (hI : s.Inv) : (State.dirTouch s who pa n write).Inv := by
  unfold State.dirTouch
  repeat' first
    | with_reducible first | assumption | intro _
    | with_reducible first | apply State.dirLine_inv | apply foldl_inv

theorem State.send_inv {s : State} {a : Agent} {va : Word} {pa : Nat} (hI : s.Inv) : (State.send s a va pa).Inv := by
  unfold State.send
  repeat' first
    | with_reducible first | assumption | intro _
    | with_reducible first | apply State.modStrand_inv | apply State.modLcore_inv
    | split
    | with_reducible apply And.intro

theorem State.request_inv {s : State} {a : Agent} {pa : Nat} {n : Nat} (hI : s.Inv) : (State.request s a pa n).Inv := by
  unfold State.request
  repeat' first
    | ((fail_if_no_progress extract_lets +onlyGivenNames u); ((fail_if_success (have _ : ∀ x, u x = u x := fun _ => rfl)); clear_value u))
    | (with_reducible apply inv_same; with_reducible assumption)

theorem State.served_inv {s : State} {a : Agent} {pa : Nat} {n : Nat} (hI : s.Inv) : (State.served s a pa n).Inv := by
  unfold State.served
  repeat' first
    | with_reducible assumption
    | (with_reducible apply inv_same; with_reducible assumption)
    | split

theorem State.hwOpen_inv {s : State} {n : Nat} {pa : Nat} {len : Nat} {write : optParam Bool false} (hI : s.Inv) : (State.hwOpen s n pa len write).Inv := by
  unfold State.hwOpen
  repeat' first
    | with_reducible assumption
    | ((fail_if_no_progress extract_lets +onlyGivenNames u); (have hu : State.Inv u; (on_goal 1 => (unfold u; clear u)); (on_goal 2 => clear_value u)))
    | with_reducible first | apply State.patOpen_inv | apply State.dirTouch_inv | apply State.mergeLines_inv | apply State.classify_inv

theorem State.hwThen_inv {s : State} {a : HwAct} (hI : s.Inv) : (s.hwThen a).Inv := by
  unfold State.hwThen
  split
  · exact hI
  · exact State.modCore_inv hI
  · exact State.setReg_inv hI
  · exact hI

theorem State.hwDo_inv {s : State} {w : HwWrite} (hI : s.Inv) : (State.hwDo s w).Inv := by
  unfold State.hwDo
  repeat' first
    | with_reducible assumption
    | ((fail_if_no_progress extract_lets +onlyGivenNames u); (first | (have hu : State.Inv u; (on_goal 1 => (unfold u; clear u)); (on_goal 2 => clear_value u)) | ((fail_if_success (have _ : ∀ x, u x = u x := fun _ => rfl)); clear_value u)))
    | with_reducible first | apply State.hwOpen_inv | apply State.pokeRaw_inv | apply State.hwThen_inv | apply State.deliver_inv
    | split

theorem State.hwPut_inv {s : State} {w : HwWrite} (hI : s.Inv) : (State.hwPut s w).Inv := by
  unfold State.hwPut
  repeat' first
    | with_reducible assumption
    | (with_reducible apply inv_same; with_reducible assumption)
    | with_reducible first | apply State.hwDo_inv | apply State.hwThen_inv
    | split

theorem State.hwWrite_inv {s : State} {n : Nat} {pa : Nat} {data : List Byte} (hI : s.Inv) : (State.hwWrite s n pa data).Inv := by
  unfold State.hwWrite
  repeat' first
    | with_reducible assumption
    | with_reducible apply State.hwPut_inv

theorem State.hwFlush_inv {s : State} (hI : s.Inv) : (State.hwFlush s).Inv := by
  unfold State.hwFlush
  repeat' first
    | with_reducible first | assumption | intro _
    | (with_reducible apply inv_same; with_reducible assumption)
    | with_reducible first | apply State.hwPut_inv | apply foldl_inv
    | split

theorem State.faultRecord_inv {s : State} {core : Nat} {r : FaultRec} (hI : s.Inv) : (State.faultRecord s core r).Inv := by
  unfold State.faultRecord
  repeat' first
    | with_reducible assumption
    | with_reducible apply State.hwPut_inv
    | split

theorem State.readPte_inv {s : State} {a : Agent} {k : AccKind} {va : Word} {pa : Nat} (hI : s.Inv) : Res.Inv (State.readPte s a k va pa) := by
  unfold State.readPte
  repeat' first
    | with_reducible assumption
    | ((fail_if_no_progress extract_lets +onlyGivenNames u); (have hu : State.Inv u; (on_goal 1 => (unfold u; clear u)); (on_goal 2 => clear_value u)))
    | with_reducible first | apply State.send_inv | apply State.request_inv | apply State.mergeLines_inv | apply State.patOpen_inv | apply State.dirTouch_inv | apply State.classify_inv | apply res_ok | apply res_trap | apply res_stall
    | split

theorem walkFrom_inv {rd : State → Nat → Res Nat} {pf : Nat} {va : Word} {x4 : Bool} {top : Nat} {s : State} {base n : Nat}
    (h : s.Inv) (hr : ∀ s p, s.Inv → (rd s p).Inv) : Res.Inv (walkFrom rd pf va x4 top s base n) := by
  induction n generalizing s base with
  | zero => exact h
  | succ n ih =>
    unfold walkFrom
    extract_lets idx
    clear_value idx
    have hq := hr s (base + 8 * idx) h
    split
    · rename_i e; rw [e] at hq; exact hq
    · rename_i e; rw [e] at hq; exact hq
    · rename_i e; rw [e] at hq
      extract_lets r w x
      (repeat' split) <;> first | exact hq | exact ih hq

theorem State.tlbInsert_inv {s : State} {e : TlbEntry} (hI : s.Inv) : (State.tlbInsert s e).Inv := by
  unfold State.tlbInsert
  repeat' first
    | with_reducible assumption
    | ((fail_if_no_progress extract_lets +onlyGivenNames u); (first | ((fail_if_success (have _ : ∀ x, u x = u x := fun _ => rfl)); clear_value u) | (unfold u; clear u)))
    | (with_reducible apply inv_same; (with_reducible first | assumption | apply of_snd))
    | with_reducible apply State.drawNat_inv
    | split

theorem State.tlbPut_inv {s : State} {e : TlbEntry} (hI : s.Inv) : (State.tlbPut s e).Inv := by
  unfold State.tlbPut
  repeat' first
    | with_reducible assumption
    | ((fail_if_no_progress extract_lets +onlyGivenNames u); (have hu : State.Inv u; (on_goal 1 => (unfold u; clear u)); (on_goal 2 => clear_value u)))
    | (with_reducible apply inv_same; with_reducible assumption)
    | with_reducible apply State.tlbInsert_inv
    | split

theorem State.walk_inv {s : State} {a : Agent} {k : AccKind} {va : Word} {c : Ctl} (hI : s.Inv) : Res.Inv (State.walk s a k va c) := by
  have hw := walkFrom_inv (pf := pageFault k) (va := va) (x4 := false) (top := 4) (base := c.base) (n := c.levels) hI
    fun s p hs => State.readPte_inv (a := a) (k := k) (va := va) (pa := p) hs
  unfold State.walk
  split
  · exact of_trap ‹_› hw
  · exact of_stall ‹_› hw
  · split <;> exact of_ok ‹_› hw

theorem State.byEntry_inv {s : State} {e : TlbEntry} {k : AccKind} {va : Word} {c : Ctl} (hI : s.Inv) : Res.Inv (State.byEntry s e k va c) := by
  unfold State.byEntry
  repeat' first
    | with_reducible assumption
    | ((fail_if_no_progress extract_lets +onlyGivenNames u); (have hu : State.Inv u; (on_goal 1 => (unfold u; clear u)); (on_goal 2 => clear_value u)))
    | with_reducible first | apply State.patOpen_inv | apply res_ok | apply res_trap
    | split

theorem State.byWalk_inv {s : State} {a : Agent} {k : AccKind} {va : Word} {c : Ctl} (hI : s.Inv) : Res.Inv (State.byWalk s a k va c) := by
  unfold State.byWalk
  repeat' first
    | with_reducible first | assumption | intro _
    | with_reducible first | apply Res.bind_inv | apply State.walk_inv | apply State.byEntry_inv | apply State.tlbPut_inv

theorem State.byHeld_inv {s : State} {a : Agent} {e : TlbEntry} {k : AccKind} {va : Word} {c : Ctl} (hI : s.Inv) : Res.Inv (State.byHeld s a e k va c) := by
  unfold State.byHeld
  repeat' first
    | with_reducible assumption
    | with_reducible first | apply State.byEntry_inv | apply State.tlbInsert_inv
    | split

theorem State.translateCtl_inv {s : State} {a : Agent} {k : AccKind} {va : Word} {c : Ctl} (hI : s.Inv) : Res.Inv (State.translateCtl s a k va c) := by
  unfold State.translateCtl
  repeat' first
    | with_reducible assumption
    | (with_reducible apply inv_same; with_reducible refine of_pairR (by assumption) ?_)
    | with_reducible first | apply State.byWalk_inv | apply State.byHeld_inv | apply State.drawBit_inv | apply res_trap
    | split

theorem LCore.enterM_swf {l : LCore} {cause v gpa inst pc : Word} {gva : Bool} (h : swf l.ctx = true ∧ swf l.csr = true ∧ swf l.vec = true) :
    swf (l.enterM cause v gpa inst gva pc).ctx = true ∧ swf (l.enterM cause v gpa inst gva pc).csr = true ∧
      swf (l.enterM cause v gpa inst gva pc).vec = true :=
  ⟨sset_swf h.1, sset_swf (sset_swf (sset_swf (sset_swf (sset_swf (sset_swf h.2.1))))), h.2.2⟩

theorem LCore.enterHS_swf {l : LCore} {cause v gpa inst pc : Word} {gva : Bool} (h : swf l.ctx = true ∧ swf l.csr = true ∧ swf l.vec = true) :
    swf (l.enterHS cause v gpa inst gva pc).ctx = true ∧ swf (l.enterHS cause v gpa inst gva pc).csr = true ∧
      swf (l.enterHS cause v gpa inst gva pc).vec = true :=
  ⟨sset_swf h.1, sset_swf (sset_swf (sset_swf (sset_swf (sset_swf (sset_swf (sset_swf h.2.1)))))), h.2.2⟩

theorem LCore.enterVS_swf {l : LCore} {cause v pc : Word} (h : swf l.ctx = true ∧ swf l.csr = true ∧ swf l.vec = true) :
    swf (l.enterVS cause v pc).ctx = true ∧ swf (l.enterVS cause v pc).csr = true ∧ swf (l.enterVS cause v pc).vec = true :=
  ⟨sset_swf h.1, sset_swf (sset_swf (sset_swf (sset_swf h.2.1))), h.2.2⟩

theorem State.gStage_inv {s : State} {i : Nat} {k orig : AccKind} {va : Word} {gpa : Nat} {implicit : Bool} (hI : s.Inv) :
    Res.Inv (State.gStage s i k orig va gpa implicit) := by
  unfold State.gStage
  extract_lets hg s' n
  have h1 : s'.Inv := State.modLcore_inv hI fun c a b d => ⟨a, b, d⟩
  have hw := walkFrom_inv (pf := guestFault orig) (va := w64 gpa) (x4 := true) (top := n - 1)
    (base := wbits hg 43 2 * 16384) (n := n) h1
    fun s p hs => State.readPte_inv (a := .lcore i) (k := orig) (va := va) (pa := p) hs
  clear_value s' n hg
  split
  · exact hI
  · split
    · exact h1
    · split
      · exact of_trap ‹_› hw
      · exact of_stall ‹_› hw
      · split <;> exact of_ok ‹_› hw

theorem State.barePhys_inv {s : State} {pa : Nat} {pbmt : Nat} (hI : s.Inv) : Res.Inv (State.barePhys s pa pbmt) := by
  unfold State.barePhys
  repeat' first
    | with_reducible assumption
    | ((fail_if_no_progress extract_lets +onlyGivenNames u); (have hu : State.Inv u; (on_goal 1 => (unfold u; clear u)); (on_goal 2 => clear_value u)))
    | with_reducible first | apply State.patOpen_inv | apply res_ok

theorem State.translateL_inv {s : State} {i : Nat} {k : AccKind} {va : Word} (hI : s.Inv) : Res.Inv (State.translateL s i k va) := by
  have hb : ∀ (s : State) pa pb, s.Inv → (s.barePhys pa pb).Inv := fun s pa pb hs => State.barePhys_inv hs
  unfold State.translateL
  extract_lets +onlyGivenNames c ms mode outOfRange
  clear_value c ms mode outOfRange
  have hvs : ∀ user : Bool, ∀ sat : Word, ∀ n : Nat, Res.Inv (
      let rd (s : State) (gpa : Nat) : Res Nat :=
        (s.gStage i .load k va gpa true).bind fun s r => s.readPte (.lcore i) k va r.1
      match walkFrom rd (pageFault k) va false 4 s (wbits sat 43 0 * 4096) n with
      | .trap s f v => .trap s f v
      | .stall s => .stall s
      | .ok s (p, level) =>
        let vss := c.get 0x200
        let types := wbit (c.get 0x30A) 62 && wbit (c.get 0x60A) 62
        if !leafOk p level k || !permOk p k user (wbit vss 18) (wbit vss 19 || wbit ms 19)
            || (!types && bits p 62 61 ≠ 0) then .trap s (pageFault k) va
        else
          (s.gStage i k k va (bits p 53 10 * 4096 / leafSize p level * leafSize p level + va.toNat % leafSize p level) false).bind
            fun s r => s.barePhys r.1 (if bits p 62 61 = 0 then r.2 else bits p 62 61)) := by
    intro user sat n
    extract_lets rd
    have hw := walkFrom_inv (rd := rd) (pf := pageFault k) (va := va) (x4 := false) (top := 4)
      (base := wbits sat 43 0 * 4096) (n := n) hI
      fun s p hs => Res.bind_inv (State.gStage_inv hs) fun s a hs => State.readPte_inv hs
    clear_value rd
    split
    · exact of_trap ‹_› hw
    · exact of_stall ‹_› hw
    · have h2 := of_ok ‹_› hw
      split
      · exact h2
      · exact Res.bind_inv (State.gStage_inv h2) fun s r hs => hb _ _ _ hs
  split
  · split
    · exact hI
    · exact hb _ _ _ hI
  · extract_lets sat n
    split
    · exact Res.bind_inv (State.gStage_inv hI) fun s r hs => hb _ _ _ hs
    · split
      · exact hI
      · exact hvs _ sat n
  · extract_lets sat n
    split
    · exact Res.bind_inv (State.gStage_inv hI) fun s r hs => hb _ _ _ hs
    · split
      · exact hI
      · exact hvs _ sat n
  · extract_lets sat
    split
    · split
      · exact hI
      · exact hb _ _ _ hI
    · exact State.translateCtl_inv hI
  · extract_lets sat
    split
    · split
      · exact hI
      · exact hb _ _ _ hI
    · exact State.translateCtl_inv hI

theorem State.translate_inv {s : State} {a : Agent} {k : AccKind} {va : Word} (hI : s.Inv) : Res.Inv (State.translate s a k va) := by
  unfold State.translate
  repeat' first
    | with_reducible assumption
    | with_reducible first | apply State.translateL_inv | apply State.translateCtl_inv | apply res_trap
    | split

theorem State.locPage_inv {s : State} {a : Agent} {k : AccKind} {va : Word} {n : Nat} {size : Nat} (hI : s.Inv) : Res.Inv (State.locPage s a k va n size) := by
  unfold State.locPage
  repeat' first
    | with_reducible assumption
    | ((fail_if_no_progress extract_lets +onlyGivenNames u); (have hu : State.Inv u; (on_goal 1 => (unfold u; clear u)); (on_goal 2 => clear_value u)))
    | (with_reducible apply inv_same; (with_reducible first | refine of_ok (by assumption) ?_ | refine of_trap (by assumption) ?_ | refine of_stall (by assumption) ?_))
    | with_reducible first | apply State.translate_inv | apply res_ok | apply res_trap | apply res_stall
    | split

theorem State.locate_inv {s : State} {a : Agent} {k : AccKind} {va : Word} {n : Nat} (hI : s.Inv) : Res.Inv (State.locate s a k va n) := by
  unfold State.locate
  repeat' first
    | with_reducible first | assumption | intro _
    | ((fail_if_no_progress extract_lets +onlyGivenNames u); ((fail_if_success (have _ : ∀ x, u x = u x := fun _ => rfl)); clear_value u))
    | with_reducible first | apply State.locPage_inv | apply Res.bind_inv | apply res_ok | apply res_trap
    | split

theorem State.writeLine_inv {s : State} {k : Nat} {drop : Bool} {line : Nat} (hI : s.Inv) : (State.writeLine s k drop line).Inv := by
  unfold State.writeLine
  repeat' first
    | with_reducible first | assumption | intro _
    | ((fail_if_no_progress extract_lets +onlyGivenNames u); (have hu : State.Inv u; (on_goal 1 => (unfold u; clear u)); (on_goal 2 => clear_value u)))
    | (with_reducible apply inv_same; with_reducible assumption)
    | with_reducible first | apply State.hwPut_inv | apply State.modStrand_inv
    | split

theorem State.imageRead_inv {s : State} {pa : Nat} {n : Nat} (hI : s.Inv) : (State.imageRead s pa n).Inv := by
  unfold State.imageRead
  repeat' first
    | with_reducible first | assumption | intro _
    | (with_reducible apply inv_same; with_reducible assumption)
    | with_reducible first | apply State.writeLine_inv | apply foldl_inv
    | split

theorem State.partTouch_inv {s : State} {who : Nat} {p : Part} {write : Bool} (hI : s.Inv) : (State.partTouch s who p write).Inv := by
  unfold State.partTouch
  repeat' first
    | with_reducible assumption
    | with_reducible first | apply State.dirTouch_inv | apply State.dirUncached_inv
    | split

theorem State.openPartsAs_inv {s : State} {n : Nat} {who : Nat} {a : Agent} {va : Word} {parts : List Part} {write : Bool} (hI : s.Inv) : Res.Inv (State.openPartsAs s n who a va parts write) := by
  unfold State.openPartsAs
  repeat' first
    | with_reducible first | assumption | intro _
    | ((fail_if_no_progress extract_lets +onlyGivenNames u); (have hu : State.Inv u; (on_goal 1 => (unfold u; clear u)); (on_goal 2 => clear_value u)))
    | with_reducible first | apply State.request_inv | apply State.send_inv | apply State.imageRead_inv | apply State.partTouch_inv | apply State.served_inv | apply State.mergeLines_inv | apply State.classify_inv | apply res_ok | apply res_trap | apply res_stall | apply foldl_inv
    | split

theorem State.openParts_inv {s : State} {a : Agent} {va : Word} {parts : List Part} {write : Bool} (hI : s.Inv) : Res.Inv (State.openParts s a va parts write) := by
  unfold State.openParts
  repeat' first
    | with_reducible assumption
    | with_reducible apply State.openPartsAs_inv

theorem State.homeSeen_inv {s : State} {a : Agent} {parts : List Part} (hI : s.Inv) : (State.homeSeen s a parts).Inv := by
  unfold State.homeSeen
  repeat' first
    | with_reducible first | assumption | intro _
    | with_reducible first | apply State.sawHome_inv | apply foldl_inv
    | split

theorem State.dropNc_inv {s : State} {n : Nat} {parts : List Part} (hI : s.Inv) : (State.dropNc s n parts).Inv := by
  unfold State.dropNc
  repeat' first
    | (with_reducible apply inv_same; with_reducible assumption)

theorem State.loadMem_inv {s : State} {a : Agent} {va : Word} {n : Nat} {k : optParam AccKind AccKind.load} (hI : s.Inv) : Res.Inv (State.loadMem s a va n k) := by
  unfold State.loadMem
  repeat' first
    | with_reducible first | assumption | intro _
    | with_reducible first | apply Res.bind_inv | apply State.locate_inv | apply State.openParts_inv | apply State.dropNc_inv | apply State.homeSeen_inv | apply res_ok
    | split

theorem State.load_inv {s : State} {va : Word} {n : Nat} (hI : s.Inv) : Res.Inv (State.load s va n) := by
  unfold State.load
  repeat' first
    | with_reducible first | assumption | intro _
    | with_reducible first | apply Res.bind_inv | apply State.loadMem_inv | apply res_ok | apply res_trap
    | split

theorem State.writeParts_inv {s : State} {a : Agent} {parts : List Part} {data : List Byte} (h : s.Inv) :
    (s.writeParts a parts data).Inv := by
  induction parts generalizing s data with
  | nil => exact h
  | cons p rest ih =>
    have key : ∀ (u : State) (o : Sparse 64), u.Inv → swf o = true → State.Inv { u with owners := o } :=
      fun u o hu ho => ⟨⟨hu.1.1, hu.1.2.1, hu.1.2.2.1, ho, hu.1.2.2.2.2⟩, hu.2⟩
    exact ih (key _ _ (State.poke_inv h) (foldl_swf (State.poke_inv h).1.2.2.2.1 fun m x hm => sset_swf hm))

theorem State.storeMem_inv {s : State} {a : Agent} {va : Word} {n : Nat} {v : Nat} (hI : s.Inv) : Res.Inv (State.storeMem s a va n v) := by
  unfold State.storeMem
  repeat' first
    | with_reducible first | assumption | intro _
    | with_reducible first | apply Res.bind_inv | apply State.locate_inv | apply State.openParts_inv | apply State.writeParts_inv | apply State.dropNc_inv | apply res_ok
    | split

theorem State.store_inv {s : State} {va : Word} {n : Nat} {v : Nat} (hI : s.Inv) : Res.Inv (State.store s va n v) := by
  unfold State.store
  repeat' first
    | with_reducible first | assumption | intro _
    | with_reducible first | apply Res.bind_inv | apply State.storeMem_inv | apply res_ok | apply res_trap
    | split

theorem State.ibufPut_inv {s : State} {key : Nat} {w : BitVec 16} (hI : s.Inv) : (s.ibufPut key w).Inv := by
  unfold State.ibufPut
  dsimp only
  split
  · exact inv_same hI
  · have hd : s.drawNat.2.Inv := of_snd (State.drawNat_inv hI)
    generalize s.drawNat = q at hd ⊢
    exact inv_same hd

theorem State.fetchPage_inv {s : State} {a : Agent} {va : Word} (hI : s.Inv) : Res.Inv (State.fetchPage s a va) := by
  unfold State.fetchPage
  repeat' first
    | with_reducible assumption
    | ((fail_if_no_progress extract_lets +onlyGivenNames u); (have hu : State.Inv u; (on_goal 1 => (unfold u; clear u)); (on_goal 2 => clear_value u)))
    | (with_reducible apply inv_same; (with_reducible first | refine of_ok (by assumption) ?_ | refine of_trap (by assumption) ?_ | refine of_stall (by assumption) ?_))
    | with_reducible first | apply State.translate_inv | apply res_ok | apply res_trap | apply res_stall
    | split

theorem State.fetchAt_inv {s : State} {a : Agent} {va : Word} {p : Phys} (hI : s.Inv) : Res.Inv (State.fetchAt s a va p) := by
  unfold State.fetchAt
  repeat' first
    | with_reducible first | assumption | intro _
    | ((fail_if_no_progress extract_lets +onlyGivenNames u); ((fail_if_success (have _ : ∀ x, u x = u x := fun _ => rfl)); clear_value u))
    | (with_reducible apply inv_same; with_reducible refine of_pairR (by assumption) ?_)
    | with_reducible first | apply Res.bind_inv | apply State.openParts_inv | apply State.drawBit_inv | apply State.ibufPut_inv | apply res_ok
    | split

theorem State.fetchParcel_inv {s : State} {a : Agent} {va : Word} {prev : Option Phys} (hI : s.Inv) : Res.Inv (State.fetchParcel s a va prev) := by
  unfold State.fetchParcel
  repeat' first
    | with_reducible first | assumption | intro _
    | (with_reducible apply inv_same; with_reducible assumption)
    | with_reducible first | apply Res.bind_inv | apply State.fetchPage_inv | apply State.fetchAt_inv | apply res_ok
    | split

theorem State.fetchParcels_inv {s : State} {a : Agent} {va : Word} {prev : Option Phys} {n : Nat} (h : s.Inv) :
    Res.Inv (s.fetchParcels a va prev n) := by
  induction n generalizing s va prev with
  | zero => exact h
  | succ n ih =>
    unfold State.fetchParcels
    have hq := State.fetchParcel_inv (a := a) (va := va) (prev := prev) h
    split
    · exact of_trap ‹_› hq
    · exact of_stall ‹_› hq
    · rename_i r e
      have hi := ih (va := va + 2) (prev := some r.2) (of_ok e hq)
      split
      · exact of_trap ‹_› hi
      · exact of_stall ‹_› hi
      · exact of_ok ‹_› hi

theorem State.dropIbuf_inv {s : State} {a : Agent} (hI : s.Inv) : (State.dropIbuf s a).Inv := by
  unfold State.dropIbuf
  repeat' first
    | ((fail_if_no_progress extract_lets +onlyGivenNames u); ((fail_if_success (have _ : ∀ x, u x = u x := fun _ => rfl)); clear_value u))
    | (with_reducible apply inv_same; with_reducible assumption)

theorem State.ncPoint_inv {s : State} {core : Nat} (hI : s.Inv) : (State.ncPoint s core).Inv := by
  unfold State.ncPoint
  repeat' first
    | (with_reducible apply inv_same; with_reducible assumption)

/-! ### Operations of Image.lean -/

theorem State.useLine_inv {s : State} {k : Nat} {line : Nat} (hI : s.Inv) : (State.useLine s k line).Inv := by
  unfold State.useLine
  repeat' first
    | (with_reducible apply inv_same; with_reducible assumption)

theorem State.evictOne_inv {s : State} {core : Nat} (hI : s.Inv) : (State.evictOne s core).Inv := by
  unfold State.evictOne
  repeat' first
    | with_reducible assumption
    | ((fail_if_no_progress extract_lets +onlyGivenNames u); ((fail_if_success (have _ : ∀ x, u x = u x := fun _ => rfl)); clear_value u))
    | with_reducible apply State.writeLine_inv
    | split

theorem State.fillLines_inv {s : State} {k : Nat} (hI : s.Inv) : (State.fillLines s k).Inv := by
  unfold State.fillLines
  repeat' first
    | with_reducible first | assumption | intro _
    | ((fail_if_no_progress extract_lets +onlyGivenNames u); (have hu : State.Inv u; (on_goal 1 => (unfold u; clear u)); (on_goal 2 => clear_value u)))
    | with_reducible first | apply State.evictOne_inv | apply State.useLine_inv | apply State.modStrand_inv | apply foldl_inv
    | split

theorem State.fetchLine_inv {s : State} {k : Nat} {line : Nat} (hI : s.Inv) : (State.fetchLine s k line).Inv := by
  unfold State.fetchLine
  repeat' first
    | with_reducible first | assumption | intro _
    | ((fail_if_no_progress extract_lets +onlyGivenNames u); (first | (have hu : State.Inv u; (on_goal 1 => (unfold u; clear u)); (on_goal 2 => clear_value u)) | (have hu : swf (Strand.ctx u) = true; (on_goal 1 => (unfold u; clear u)); (on_goal 2 => clear_value u))))
    | with_reducible first | apply State.useLine_inv | apply State.hwOpen_inv | apply State.evictOne_inv | apply State.modStrand_inv
    | split
    | with_reducible first | apply Strand.setCw_swf | apply Strand.setDepth_swf | apply foldl_strand

theorem State.fetchLines_inv {s : State} {k : Nat} {ls : List Nat} (hI : s.Inv) : (State.fetchLines s k ls).Inv := by
  unfold State.fetchLines
  repeat' first
    | with_reducible first | assumption | intro _
    | with_reducible first | apply State.fetchLine_inv | apply foldl_inv

theorem State.fetchClean_inv {s : State} {k : Nat} {ls : List Nat} (hI : s.Inv) : (State.fetchClean s k ls).Inv := by
  unfold State.fetchClean
  repeat' first
    | with_reducible assumption
    | with_reducible apply State.fetchLines_inv

theorem State.writeBack_inv {s : State} {k : Nat} {drop : Bool} (hI : s.Inv) : (State.writeBack s k drop).Inv := by
  unfold State.writeBack
  repeat' first
    | with_reducible first | assumption | intro _
    | with_reducible first | apply State.writeLine_inv | apply State.fetchClean_inv | apply foldl_inv

theorem State.restoreImage_inv {s : State} {k : Nat} (hI : s.Inv) : (State.restoreImage s k).Inv := by
  unfold State.restoreImage
  repeat' first
    | with_reducible assumption
    | ((fail_if_no_progress extract_lets +onlyGivenNames u); (unfold u; clear u))
    | with_reducible apply State.hwWrite_inv
    | split

theorem State.finishWith_inv {s : State} {k : Nat} {g : State → State} (hI : s.Inv) (h_g : ∀ x0, x0.Inv → (g x0).Inv) : (State.finishWith s k g).Inv := by
  unfold State.finishWith
  repeat' first
    | with_reducible first | assumption | intro _
    | ((fail_if_no_progress extract_lets +onlyGivenNames u); (have hu : State.Inv u; (on_goal 1 => (unfold u; clear u)); (on_goal 2 => clear_value u)))
    | with_reducible first | apply h_g | apply State.fetchClean_inv | apply State.asAgent_inv | apply State.setPc_inv | apply State.retired_inv | apply State.modStrand_inv | apply State.writeBack_inv
    | split

theorem State.giveX_inv {s : State} {k : Nat} {rd : Reg} {v : Word} (hI : s.Inv) : (State.giveX s k rd v).Inv := by
  unfold State.giveX
  repeat' first
    | with_reducible first | assumption | intro _
    | ((fail_if_no_progress extract_lets +onlyGivenNames u); (first | (have hu : State.Inv u; (on_goal 1 => (unfold u; clear u)); (on_goal 2 => clear_value u)) | ((fail_if_success (have _ : ∀ x, u x = u x := fun _ => rfl)); clear_value u)))
    | with_reducible first | apply State.modStrand_inv | apply State.fetchLine_inv | apply State.writeLine_inv
    | split
    | with_reducible apply Strand.setCw_swf

theorem State.finishWait_inv {s : State} {k : Nat} {rd : Reg} {v : Word} (hI : s.Inv) : (State.finishWait s k rd v).Inv := by
  unfold State.finishWait
  repeat' first
    | with_reducible first | assumption | intro _
    | with_reducible first | apply State.finishWith_inv | apply State.setX_inv

/-! ### Operations of Collective.lean -/

theorem State.modCv_inv {s : State} {crew : Nat} {n : Nat} {f : CvReg → CvReg} (hI : s.Inv) : (State.modCv s crew n f).Inv := by
  unfold State.modCv
  repeat' first
    | with_reducible first | assumption | intro _
    | with_reducible apply State.modCrew_inv
    | with_reducible first | apply And.intro | apply cvMod_swfS | apply cvMod_swfA

theorem State.cvWake_inv {s : State} {crew n : Nat} (h : s.Inv) : (s.cvWake crew n).Inv := by
  unfold State.cvWake
  split
  · exact h
  · extract_lets r fin
    have hf : ∀ (s : State) t rd acq v, s.Inv → (fin s t rd acq v).Inv := by
      intro s t rd acq v hs
      have h1 := State.finishWait_inv (k := t.image) (rd := rd) (v := v) hs
      dsimp only [fin]
      split
      · exact State.ncPoint_inv h1
      · exact h1
    refine foldl_inv h fun s t hs => ?_
    (repeat' split) <;> first | exact hs | exact hf _ _ _ _ _ hs

theorem State.cvFree_inv {s : State} {crew : Nat} {n : Nat} (hI : s.Inv) : (State.cvFree s crew n).Inv := by
  unfold State.cvFree
  repeat' first
    | with_reducible first | assumption | intro _
    | ((fail_if_no_progress extract_lets +onlyGivenNames u); (first | (have hu : State.Inv u; (on_goal 1 => (unfold u; clear u)); (on_goal 2 => clear_value u)) | ((fail_if_success (have _ : ∀ x, u x = u x := fun _ => rfl)); clear_value u)))
    | (with_reducible apply inv_same; with_reducible assumption)
    | with_reducible first | apply State.dropWait_inv | apply foldl_inv
    | split

theorem State.cvClose_inv {s : State} {crew : Nat} {n : Nat} (hI : s.Inv) : (State.cvClose s crew n).Inv := by
  unfold State.cvClose
  repeat' first
    | with_reducible assumption
    | ((fail_if_no_progress extract_lets +onlyGivenNames u); (unfold u; clear u))
    | with_reducible first | apply State.cvWake_inv | apply State.modCv_inv

theorem State.finishSet_inv {s : State} {crew : Nat} {n : Nat} {sids : List Nat} {v : Word} (hI : s.Inv) : (State.finishSet s crew n sids v).Inv := by
  unfold State.finishSet
  repeat' first
    | with_reducible first | assumption | intro _
    | with_reducible first | apply State.finishWait_inv | apply foldl_inv
    | split

theorem State.issueLane_inv {s : State} {crew : Nat} {n : Nat} {r : CvReg} (hI : s.Inv) : (State.issueLane s crew n r).Inv := by
  unfold State.issueLane
  repeat' first
    | with_reducible first | assumption | intro _
    | ((fail_if_no_progress extract_lets +onlyGivenNames u); (first | (have hu : State.Inv u; (on_goal 1 => (unfold u; clear u)); (on_goal 2 => clear_value u)) | ((fail_if_success (have _ : ∀ x, u x = u x := fun _ => rfl)); clear_value u)))
    | with_reducible first | apply State.modCv_inv | apply State.finishWith_inv | apply State.accrue_inv | apply State.setF_inv | apply State.setX_inv | apply foldl_inv
    | split

theorem State.enqueue_inv {s : State} {e : EngEntry} (hI : s.Inv) : (State.enqueue s e).Inv := by
  unfold State.enqueue
  repeat' first
    | (with_reducible apply inv_same; with_reducible assumption)

theorem State.issueMatrix_inv {s : State} {c : Crew} {n : Nat} {r : CvReg} (hI : s.Inv) : OptInv (State.issueMatrix s c n r) := by
  unfold State.issueMatrix
  repeat' first
    | with_reducible assumption
    | ((fail_if_no_progress extract_lets +onlyGivenNames u); (first | (have hu : OptInv u; (on_goal 1 => (unfold u; clear u)); (on_goal 2 => clear_value u)) | ((fail_if_success (have _ : ∀ x, u x = u x := fun _ => rfl)); clear_value u) | (unfold u; clear u)))
    | (with_reducible apply inv_same; with_reducible apply of_snd)
    | with_reducible first | apply State.modCv_inv | apply State.finishSet_inv | apply State.fresh_inv | apply State.enqueue_inv | apply opt_some | apply opt_none
    | split

theorem State.issueDrain_inv {s : State} {c : Crew} {n : Nat} {r : CvReg} (hI : s.Inv) : OptInv (State.issueDrain s c n r) := by
  unfold State.issueDrain
  repeat' first
    | with_reducible first | assumption | intro _
    | ((fail_if_no_progress extract_lets +onlyGivenNames u); (first | ((fail_if_success (have _ : ∀ x, u x = u x := fun _ => rfl)); clear_value u) | (unfold u; clear u)))
    | (with_reducible apply inv_same; with_reducible apply of_snd)
    | with_reducible first | apply State.fresh_inv | apply State.modStrand_inv | apply State.enqueue_inv | apply State.modCv_inv | apply opt_some | apply opt_none | apply foldl_inv
    | split

theorem State.issueControl_inv {s : State} {c : Crew} {n : Nat} {r : CvReg} (hI : s.Inv) : OptInv (State.issueControl s c n r) := by
  unfold State.issueControl
  repeat' first
    | with_reducible first | assumption | intro _
    | ((fail_if_no_progress extract_lets +onlyGivenNames u); (first | (have hu : State.Inv u; (on_goal 1 => (unfold u; clear u)); (on_goal 2 => clear_value u)) | ((fail_if_success (have _ : ∀ x, u x = u x := fun _ => rfl)); clear_value u) | (unfold u; clear u)))
    | with_reducible first | apply State.modCv_inv | apply State.finishSet_inv | apply State.modCrew_inv | apply opt_some | apply opt_none
    | split
    | with_reducible first | apply And.intro | apply stageSet_swfS | apply stageSet_swfA | apply setHold_swfS | apply setHold_swfA

theorem State.cvTry_inv {s : State} {crew : Nat} {n : Nat} (hI : s.Inv) : (State.cvTry s crew n).Inv := by
  unfold State.cvTry
  repeat' first
    | with_reducible assumption
    | ((fail_if_no_progress extract_lets +onlyGivenNames u); (first | ((fail_if_success (have _ : ∀ x, u x = u x := fun _ => rfl)); clear_value u) | (unfold u; clear u)))
    | (with_reducible apply inv_same; with_reducible refine of_opt (by assumption) ?_)
    | with_reducible first | apply State.modCv_inv | apply State.cvClose_inv | apply State.issueLane_inv | apply State.issueControl_inv | apply State.issueDrain_inv | apply State.issueMatrix_inv
    | split

theorem State.crewRetry_inv {s : State} {crew : Nat} (hI : s.Inv) : (State.crewRetry s crew).Inv := by
  unfold State.crewRetry
  repeat' first
    | with_reducible first | assumption | intro _
    | (with_reducible apply inv_same; with_reducible apply of_snd)
    | with_reducible first | apply State.cvFree_inv | apply State.cvTry_inv | apply State.drawNat_inv | apply foldl_inv
    | split

theorem State.retryAll_inv {s : State} (hI : s.Inv) : (State.retryAll s).Inv := by
  unfold State.retryAll
  repeat' first
    | with_reducible first | assumption | intro _
    | with_reducible first | apply State.crewRetry_inv | apply foldl_inv

theorem State.cvSettle_inv {s : State} {crew : Nat} {n : Nat} (hI : s.Inv) : (State.cvSettle s crew n).Inv := by
  unfold State.cvSettle
  repeat' first
    | with_reducible assumption
    | ((fail_if_no_progress extract_lets +onlyGivenNames u); (have hu : State.Inv u; (on_goal 1 => (unfold u; clear u)); (on_goal 2 => clear_value u)))
    | with_reducible first | apply State.cvTry_inv | apply State.cvFree_inv | apply State.crewRetry_inv
    | split

theorem State.cvAdd_inv {s : State} {crew : Nat} {n : Nat} {sid : Nat} {kind : Nat} {sig : List Nat} (hI : s.Inv) : (State.cvAdd s crew n sid kind sig).Inv := by
  unfold State.cvAdd
  repeat' first
    | with_reducible assumption
    | with_reducible apply State.modCv_inv

theorem State.cvSign_inv {s : State} {t : Strand} {n : Nat} {kind : Nat} {sig : List Nat} {rd : Reg} {data : List Nat} (hI : s.Inv) : (State.cvSign s t n kind sig rd data).Inv := by
  unfold State.cvSign
  repeat' first
    | with_reducible first | assumption | intro _
    | ((fail_if_no_progress extract_lets +onlyGivenNames u); (first | (have hu : State.Inv u; (on_goal 1 => (unfold u; clear u)); (on_goal 2 => clear_value u)) | ((fail_if_success (have _ : ∀ x, u x = u x := fun _ => rfl)); clear_value u)))
    | with_reducible first | apply State.modCur_inv | apply State.cvSettle_inv | apply State.cvAdd_inv | apply State.await_inv

theorem State.cvArrive_inv {s : State} {crew : Nat} {n : Nat} {sid : Nat} (hI : s.Inv) : (State.cvArrive s crew n sid).Inv := by
  unfold State.cvArrive
  repeat' first
    | with_reducible assumption
    | ((fail_if_no_progress extract_lets +onlyGivenNames u); ((fail_if_success (have _ : ∀ x, u x = u x := fun _ => rfl)); clear_value u))
    | with_reducible first | apply State.cvSettle_inv | apply State.modCv_inv | apply State.cvAdd_inv

theorem State.cvQuit_inv {s : State} {crew : Nat} {n : Nat} {sid : Nat} (hI : s.Inv) : (State.cvQuit s crew n sid).Inv := by
  unfold State.cvQuit
  repeat' first
    | with_reducible assumption
    | with_reducible first | apply State.cvSettle_inv | apply State.modCv_inv

theorem State.cvLeave_inv {s : State} {crew : Nat} {sid : Nat} (hI : s.Inv) : (State.cvLeave s crew sid).Inv := by
  unfold State.cvLeave
  repeat' first
    | with_reducible first | assumption | intro _
    | with_reducible first | apply State.cvQuit_inv | apply foldl_inv
    | split

theorem State.cvWithdraw_inv {s : State} {crew : Nat} {n : Nat} {r : CvReg} {leaving : Nat → Bool} (hI : s.Inv) : (State.cvWithdraw s crew n r leaving).Inv := by
  unfold State.cvWithdraw
  repeat' first
    | with_reducible first | assumption | intro _
    | ((fail_if_no_progress extract_lets +onlyGivenNames u); (have hu : State.Inv u; (on_goal 1 => (unfold u; clear u)); (on_goal 2 => clear_value u)))
    | with_reducible first | apply State.modCv_inv | apply State.cvFree_inv | apply State.dropWait_inv | apply State.finishWait_inv | apply foldl_inv
    | split

theorem State.cvCancel_inv {s : State} {crew : Nat} {n : Nat} {leaving : Nat → Bool} {reason : Nat} (hI : s.Inv) : (State.cvCancel s crew n leaving reason).Inv := by
  unfold State.cvCancel
  repeat' first
    | with_reducible first | assumption | intro _
    | ((fail_if_no_progress extract_lets +onlyGivenNames u); (first | (have hu : State.Inv u; (on_goal 1 => (unfold u; clear u)); (on_goal 2 => clear_value u)) | ((fail_if_success (have _ : ∀ x, u x = u x := fun _ => rfl)); clear_value u)))
    | with_reducible first | apply State.modCv_inv | apply State.dropWait_inv | apply State.cvFree_inv | apply State.cvWake_inv | apply State.cvWithdraw_inv | apply foldl_inv
    | split

theorem State.cancelStrand_inv {s : State} {t : Strand} {reason : Nat} (hI : s.Inv) : (State.cancelStrand s t reason).Inv := by
  unfold State.cancelStrand
  repeat' first
    | with_reducible first | assumption | intro _
    | with_reducible first | apply State.cvCancel_inv | apply foldl_inv
    | split

theorem State.cancelCrew_inv {s : State} {c : Crew} (hI : s.Inv) : (State.cancelCrew s c).Inv := by
  unfold State.cancelCrew
  repeat' first
    | with_reducible first | assumption | intro _
    | with_reducible first | apply State.cvCancel_inv | apply foldl_inv

theorem State.breakPair_inv {s : State} {crew : Nat} {n : Nat} {sid : Nat} (hI : s.Inv) : (State.breakPair s crew n sid).Inv := by
  unfold State.breakPair
  repeat' first
    | with_reducible assumption
    | ((fail_if_no_progress extract_lets +onlyGivenNames u); ((fail_if_success (have _ : ∀ x, u x = u x := fun _ => rfl)); clear_value u))
    | with_reducible apply State.cvWithdraw_inv
    | split

/-! ### Operations of Ops.lean -/

theorem State.clearMarks_inv {s : State} {k : Nat} (hI : s.Inv) : (State.clearMarks s k).Inv := by
  unfold State.clearMarks
  repeat' first
    | with_reducible first | assumption | intro _
    | with_reducible apply State.modStrand_inv

theorem State.endHold_inv {s : State} {k : Nat} (hI : s.Inv) : (State.endHold s k).Inv := by
  unfold State.endHold
  repeat' first
    | with_reducible assumption
    | ((fail_if_no_progress extract_lets +onlyGivenNames u); ((fail_if_success (have _ : ∀ x, u x = u x := fun _ => rfl)); clear_value u))
    | (with_reducible apply inv_same; with_reducible assumption)
    | split
    | with_reducible first | apply And.intro | apply mem_swf | apply mmio_swf | apply pct_swf | apply owners_swf | apply peerRgn_swf | apply strands_ok | apply lcores_ok | apply crews_ok | apply fleets_ok | apply cores_len | apply pods_len | apply dies_len | apply zones_len | apply lcores_len | apply len_map
    | simp only [inv_mk_iff]

theorem State.endHoldsOf_inv {s : State} {pod : Nat} (hI : s.Inv) : (State.endHoldsOf s pod).Inv := by
  unfold State.endHoldsOf
  repeat' first
    | ((fail_if_no_progress extract_lets +onlyGivenNames u); ((fail_if_success (have _ : ∀ x, u x = u x := fun _ => rfl)); clear_value u))
    | (with_reducible apply inv_same; with_reducible assumption)

theorem State.releaseSlot_inv {s : State} {k : Nat} {st : SStatus} (hI : s.Inv) : (State.releaseSlot s k st).Inv := by
  unfold State.releaseSlot
  repeat' first
    | with_reducible first | assumption | intro _
    | ((fail_if_no_progress extract_lets +onlyGivenNames u); (have hu : State.Inv u; (on_goal 1 => (unfold u; clear u)); (on_goal 2 => clear_value u)))
    | with_reducible first | apply State.endHold_inv | apply State.drain_inv | apply State.mergeStrand_inv | apply State.modStrand_inv

theorem State.notice_inv {s : State} {f : Frame} {kind : Nat} (hI : s.Inv) : (State.notice s f kind).Inv := by
  unfold State.notice
  repeat' first
    | (with_reducible apply inv_same; with_reducible assumption)

theorem State.strandRecord_inv {s : State} {t : Strand} {kind : Nat} {cause : Nat} {inner : Nat} {pc : Word} {tval : Word} {pa : Nat} (hI : s.Inv) : (State.strandRecord s t kind cause inner pc tval pa).Inv := by
  unfold State.strandRecord
  repeat' first
    | with_reducible assumption
    | with_reducible apply State.faultRecord_inv

theorem State.forward_inv {s : State} {n : Nat} {kind : Nat} {pc : Word} (hI : s.Inv) : (State.forward s n kind pc).Inv := by
  unfold State.forward
  repeat' first
    | with_reducible first | assumption | intro _
    | ((fail_if_no_progress extract_lets +onlyGivenNames u); (first | (have hu : State.Inv u; (on_goal 1 => (unfold u; clear u)); (on_goal 2 => clear_value u)) | (have hu : swf (Strand.ctx u) = true; (on_goal 1 => (unfold u; clear u)); (on_goal 2 => clear_value u)) | ((fail_if_success (have _ : ∀ x, u x = u x := fun _ => rfl)); clear_value u)))
    | (with_reducible apply inv_same; with_reducible assumption)
    | with_reducible first | apply State.clearMarks_inv | apply State.cancelStrand_inv | apply State.releaseSlot_inv | apply State.modStrand_inv | apply State.fetchLine_inv | apply State.writeBack_inv | apply State.strandRecord_inv
    | split
    | with_reducible apply Strand.setCbits_swf

theorem State.doubleFault_inv {s : State} {t : Strand} {c : Nat} {v : Word} {a : Word} (hI : s.Inv) : (State.doubleFault s t c v a).Inv := by
  unfold State.doubleFault
  repeat' first
    | with_reducible first | assumption | intro _
    | ((fail_if_no_progress extract_lets +onlyGivenNames u); (have hu : State.Inv u; (on_goal 1 => (unfold u; clear u)); (on_goal 2 => clear_value u)))
    | with_reducible first | apply State.strandRecord_inv | apply State.forward_inv | apply State.modStrand_inv
    | with_reducible apply Strand.setCw_swf

theorem State.trapStrand_inv {s : State} {t : Strand} {c : Nat} {v : Word} (hI : s.Inv) : (State.trapStrand s t c v).Inv := by
  unfold State.trapStrand
  repeat' first
    | with_reducible first | assumption | intro _
    | ((fail_if_no_progress extract_lets +onlyGivenNames u); (first | (have hu : State.Inv u; (on_goal 1 => (unfold u; clear u)); (on_goal 2 => clear_value u)) | (have hu : swf (Strand.ctx u) = true; (on_goal 1 => (unfold u; clear u)); (on_goal 2 => clear_value u)) | ((fail_if_success (have _ : ∀ x, u x = u x := fun _ => rfl)); clear_value u) | (unfold u; clear u)))
    | with_reducible first | apply State.modStrand_inv | apply State.endHold_inv | apply State.doubleFault_inv | apply State.strandRecord_inv | apply State.forward_inv
    | split
    | with_reducible first | apply Strand.setCw_swf | apply Strand.setDepth_swf

theorem State.trapL_inv {s : State} {i : Nat} {c : Nat} {v : Word} {hyp : Bool} (hI : s.Inv) : (State.trapL s i c v hyp).Inv := by
  refine State.modLcore_inv hI fun l h1 h2 h3 => ?_
  extract_lets guest ms mprv address gva gpa inst
  clear_value gva gpa inst
  split
  · exact LCore.enterM_swf ⟨h1, h2, h3⟩
  · split
    · exact LCore.enterVS_swf ⟨h1, h2, h3⟩
    · exact LCore.enterHS_swf ⟨h1, h2, h3⟩

theorem State.interruptL_inv {s : State} {i n : Nat} {mode : LMode} (hI : s.Inv) : (State.interruptL s i mode n).Inv := by
  unfold State.interruptL
  refine State.modLcore_inv (inv_same hI) fun c h1 h2 h3 => ?_
  cases mode
  · exact LCore.enterM_swf ⟨h1, h2, h3⟩
  · exact LCore.enterHS_swf ⟨h1, h2, h3⟩
  · exact LCore.enterHS_swf ⟨h1, h2, h3⟩
  · exact LCore.enterVS_swf ⟨h1, h2, h3⟩
  · exact LCore.enterHS_swf ⟨h1, h2, h3⟩

theorem State.trap_inv {s : State} {c : Nat} {v : Word} (hI : s.Inv) : (State.trap s c v).Inv := by
  unfold State.trap
  repeat' first
    | with_reducible assumption
    | with_reducible first | apply State.trapL_inv | apply State.trapStrand_inv
    | split

theorem State.raise_inv {s : State} {c : Nat} {v : Word} (hI : s.Inv) : OutInv (State.raise s c v) := by
  unfold State.raise
  repeat' first
    | with_reducible assumption
    | with_reducible first | apply State.trap_inv | apply out_next

theorem State.withLines_inv {s : State} {k : Nat} {ls : List Nat} {g : State → Out} (hI : s.Inv) (h_g : ∀ x0, x0.Inv → OutInv (g x0)) : OutInv (State.withLines s k ls g) := by
  unfold State.withLines
  repeat' first
    | with_reducible assumption
    | (with_reducible apply inv_same; with_reducible assumption)
    | with_reducible first | apply h_g | apply State.raise_inv | apply State.stall_inv | apply State.fetchLines_inv
    | split

theorem State.illegal_inv {s : State} (hI : s.Inv) : OutInv (State.illegal s) := by
  unfold State.illegal
  repeat' first
    | with_reducible assumption
    | with_reducible apply State.raise_inv

theorem State.coreClass_inv {s : State} (hI : s.Inv) : OutInv (State.coreClass s) := by
  unfold State.coreClass
  repeat' first
    | with_reducible assumption
    | with_reducible apply State.raise_inv

theorem State.mismatch_inv {s : State} (hI : s.Inv) : OutInv (State.mismatch s) := by
  unfold State.mismatch
  repeat' first
    | with_reducible assumption
    | with_reducible apply State.raise_inv

theorem State.leaveSset_inv {s : State} {t : Strand} (hI : s.Inv) : (State.leaveSset s t).Inv := by
  unfold State.leaveSset
  repeat' first
    | with_reducible assumption
    | with_reducible apply State.cvQuit_inv
    | split

theorem State.sretStrand_inv {s : State} {k : Nat} (hI : s.Inv) : (State.sretStrand s k).Inv := by
  unfold State.sretStrand
  repeat' first
    | with_reducible assumption
    | ((fail_if_no_progress extract_lets +onlyGivenNames u); (first | (have hu : State.Inv u; (on_goal 1 => (unfold u; clear u)); (on_goal 2 => clear_value u)) | (have hu : swf (Strand.ctx u) = true; (on_goal 1 => (unfold u; clear u)); (on_goal 2 => clear_value u)) | ((fail_if_success (have _ : ∀ x, u x = u x := fun _ => rfl)); clear_value u)))
    | with_reducible first | apply State.putStrand_inv | apply State.leaveSset_inv
    | split
    | with_reducible first | apply Strand.setCw_swf | apply Strand.setDepth_swf | exact strand_swf (by assumption) (by assumption)

theorem State.debugStopOp_inv {s : State} {k : Nat} {reason : Nat} (hI : s.Inv) : (State.debugStopOp s k reason).Inv := by
  unfold State.debugStopOp
  repeat' first
    | with_reducible first | assumption | intro _
    | ((fail_if_no_progress extract_lets +onlyGivenNames u); (first | (have hu : State.Inv u; (on_goal 1 => (unfold u; clear u)); (on_goal 2 => clear_value u)) | (have hu : swf (Strand.ctx u) = true; (on_goal 1 => (unfold u; clear u)); (on_goal 2 => clear_value u)) | ((fail_if_success (have _ : ∀ x, u x = u x := fun _ => rfl)); clear_value u)))
    | (with_reducible apply inv_same; with_reducible assumption)
    | with_reducible first | apply State.fetchLine_inv | apply State.endHold_inv | apply State.clearMarks_inv | apply State.modStrand_inv | apply State.writeBack_inv
    | split
    | with_reducible apply Strand.setCbits_swf

theorem State.onAny_inv {s : State} {g : Out} (hI : s.Inv) (h_g : OutInv g) : OutInv (State.onAny s g) := by
  unfold State.onAny
  repeat' first
    | with_reducible assumption
    | with_reducible apply out_fault
    | split

theorem State.onStrand_inv {s : State} {g : Strand → Out} (hI : s.Inv) (h_g : ∀ x0, OutInv (g x0)) : OutInv (State.onStrand s g) := by
  unfold State.onStrand
  repeat' first
    | with_reducible assumption
    | with_reducible first | apply h_g | apply State.coreClass_inv | apply out_fault
    | split

theorem State.onCrew_inv {s : State} {g : Strand → Crew → Out} (hI : s.Inv) (h_g : ∀ x0 x1, OutInv (g x0 x1)) : OutInv (State.onCrew s g) := by
  unfold State.onCrew
  repeat' first
    | with_reducible first | assumption | intro _
    | with_reducible first | apply h_g | apply State.onStrand_inv | apply out_fault
    | split

theorem Res.run_inv {α : Type} {r : Res α} {g : State → α → Out} (h_r : r.Inv) (h_g : ∀ s a, s.Inv → OutInv (g s a)) :
    OutInv (r.run g) := by
  cases r with
  | ok s a => exact h_g s a h_r
  | trap s c v => exact State.raise_inv h_r
  | stall s => exact State.stall_inv h_r

/-! ### Operations of Storage.lean -/

theorem State.markFrom_inv {s : State} {reg : Nat} {tiers : List Nat} {load : optParam Bool true} (hI : s.Inv) : (State.markFrom s reg tiers load).Inv := by
  unfold State.markFrom
  repeat' first
    | with_reducible first | assumption | intro _
    | with_reducible apply State.modCur_inv
    | split

theorem State.mark_inv {s : State} {reg : Nat} (hI : s.Inv) : (State.mark s reg).Inv := by
  unfold State.mark
  repeat' first
    | with_reducible assumption
    | with_reducible apply State.markFrom_inv

theorem State.loaded_inv {s : State} {rd : Reg} {v : Word} (hI : s.Inv) : OutInv (State.loaded s rd v) := by
  unfold State.loaded
  repeat' first
    | with_reducible assumption
    | with_reducible first | apply State.next_inv | apply State.mark_inv | apply State.setX_inv

theorem State.ncPut_inv {s : State} {e : NcLine} (hI : s.Inv) : (State.ncPut s e).Inv := by
  unfold State.ncPut
  repeat' first
    | with_reducible assumption
    | ((fail_if_no_progress extract_lets +onlyGivenNames u); ((fail_if_success (have _ : ∀ x, u x = u x := fun _ => rfl)); clear_value u))
    | (with_reducible apply inv_same; (with_reducible first | assumption | apply of_snd))
    | with_reducible apply State.drawNat_inv
    | split

theorem State.ncFill_inv {s : State} {a : Agent} {va : Word} {run : Part} {plain : Bool} (hI : s.Inv) : Res.Inv (State.ncFill s a va run plain) := by
  unfold State.ncFill
  repeat' first
    | with_reducible first | assumption | intro _
    | ((fail_if_no_progress extract_lets +onlyGivenNames u); (first | (have hu : State.Inv u; (on_goal 1 => (unfold u; clear u)); (on_goal 2 => clear_value u)) | ((fail_if_success (have _ : ∀ x, u x = u x := fun _ => rfl)); clear_value u) | (unfold u; clear u)))
    | (with_reducible apply inv_same; with_reducible apply of_snd)
    | with_reducible first | apply Res.bind_inv | apply State.openPartsAs_inv | apply State.homeSeen_inv | apply State.dropNc_inv | apply State.drawBit_inv | apply State.ncPut_inv | apply res_ok
    | split

theorem State.ncRun_inv {s : State} {a : Agent} {va : Word} {run : Part} (hI : s.Inv) : Res.Inv (State.ncRun s a va run) := by
  unfold State.ncRun
  repeat' first
    | with_reducible assumption
    | ((fail_if_no_progress extract_lets +onlyGivenNames u); ((fail_if_success (have _ : ∀ x, u x = u x := fun _ => rfl)); clear_value u))
    | (with_reducible apply inv_same; with_reducible refine of_pairR (by assumption) ?_)
    | with_reducible first | apply State.ncFill_inv | apply State.drawBit_inv | apply res_ok
    | split

theorem State.ncRuns_inv {s : State} {a : Agent} {va : Word} {l : List Part} (h : s.Inv) : Res.Inv (s.ncRuns a va l) := by
  induction l generalizing s with
  | nil => exact h
  | cons r rest ih =>
    unfold State.ncRuns
    exact Res.bind_inv (State.ncRun_inv h) fun s d hs => Res.bind_inv (ih hs) fun s d' hs' => hs'

theorem State.loadNc_inv {s : State} {va : Word} {n : Nat} (hI : s.Inv) : Res.Inv (State.loadNc s va n) := by
  unfold State.loadNc
  repeat' first
    | with_reducible first | assumption | intro _
    | with_reducible first | apply Res.bind_inv | apply State.locate_inv | apply State.ncRuns_inv | apply res_ok | apply res_trap
    | split

theorem State.stageCheck_inv {s : State} {c : Crew} {a : Word} {n : Nat} {mis : Nat} {out : Nat} {g : Out} (hI : s.Inv) (h_g : OutInv g) : OutInv (State.stageCheck s c a n mis out g) := by
  unfold State.stageCheck
  repeat' first
    | with_reducible assumption
    | with_reducible apply State.raise_inv
    | split

theorem State.noteLate_inv {s : State} {crew : Nat} {as : List Nat} (hI : s.Inv) : (State.noteLate s crew as).Inv := by
  unfold State.noteLate
  repeat' first
    | with_reducible first | assumption | intro _
    | ((fail_if_no_progress extract_lets +onlyGivenNames u); (first | (have hu : State.Inv u; (on_goal 1 => (unfold u; clear u)); (on_goal 2 => clear_value u)) | (have hu : swf u = true; (on_goal 1 => (unfold u; clear u)); (on_goal 2 => clear_value u)) | (unfold u; clear u)))
    | (with_reducible apply inv_same; with_reducible assumption)
    | with_reducible apply State.modCrew_inv
    | split
    | with_reducible first | apply nil_swf | apply And.intro | exact (crew_swf (by assumption) (by assumption)).1

theorem State.stageWrite_inv {s : State} {crew : Nat} {a : Nat} {v : Nat} {n : Nat} (hI : s.Inv) : (State.stageWrite s crew a v n).Inv := by
  unfold State.stageWrite
  repeat' first
    | with_reducible first | assumption | intro _
    | with_reducible first | apply State.crewRetry_inv | apply State.modCrew_inv | apply State.noteLate_inv
    | with_reducible first | apply And.intro | apply stageSet_swfS | apply stageSet_swfA

theorem State.release_inv {s : State} {wide : optParam Bool true} (hI : s.Inv) : (State.release s wide).Inv := by
  unfold State.release
  repeat' first
    | with_reducible assumption
    | ((fail_if_no_progress extract_lets +onlyGivenNames u); (have hu : State.Inv u; (on_goal 1 => (unfold u; clear u)); (on_goal 2 => clear_value u)))
    | with_reducible first | apply State.mergeStrand_inv | apply State.drain_inv | apply State.drainDie_inv
    | split

theorem State.acquire_inv {s : State} (hI : s.Inv) : (State.acquire s).Inv := by
  unfold State.acquire
  repeat' first
    | with_reducible assumption
    | with_reducible apply State.ncPoint_inv
    | split

theorem State.fenceOp_inv {s : State} {wide : Bool} {pred : BitVec 4} {succ : BitVec 4} (hI : s.Inv) : OutInv (State.fenceOp s wide pred succ) := by
  unfold State.fenceOp
  repeat' first
    | with_reducible assumption
    | ((fail_if_no_progress extract_lets +onlyGivenNames u); (first | (have hu : State.Inv u; (on_goal 1 => (unfold u; clear u)); (on_goal 2 => clear_value u)) | ((fail_if_success (have _ : ∀ x, u x = u x := fun _ => rfl)); clear_value u)))
    | with_reducible first | apply State.next_inv | apply State.release_inv | apply State.acquire_inv
    | split

theorem State.prefetched_inv {s : State} {t : Strand} {a : Reg} {w : Bool} (hI : s.Inv) : (State.prefetched s t a w).Inv := by
  unfold State.prefetched
  repeat' first
    | with_reducible assumption
    | ((fail_if_no_progress extract_lets +onlyGivenNames u); (first | (have hu : State.Inv u; (on_goal 1 => (unfold u; clear u)); (on_goal 2 => clear_value u)) | ((fail_if_success (have _ : ∀ x, u x = u x := fun _ => rfl)); clear_value u)))
    | (with_reducible apply inv_same; with_reducible refine of_pairR (by assumption) ?_)
    | with_reducible first | apply State.patOpen_inv | apply State.drawBit_inv | apply State.dirTouch_inv | apply State.classify_inv
    | split

theorem State.prefetch_inv {s : State} {a : Reg} {w : Bool} (hI : s.Inv) : OutInv (State.prefetch s a w) :=
  State.onStrand_inv hI fun _ => State.next_inv (State.prefetched_inv hI)

theorem execLdNc_inv {lw : LWidth} {rd : Reg} {a : Reg} {imm : BitVec 9} {s : State} (hI : s.Inv) : OutInv (execLdNc lw rd a imm s) := by
  unfold execLdNc
  repeat' first
    | with_reducible first | assumption | intro _
    | with_reducible first | apply State.onStrand_inv | apply Res.run_inv | apply State.loadNc_inv | apply State.loaded_inv

theorem execLdBp_inv {lw : LWidth} {rd : Reg} {a : Reg} {imm : BitVec 9} {s : State} (hI : s.Inv) : OutInv (execLdBp lw rd a imm s) := by
  unfold execLdBp
  repeat' first
    | with_reducible first | assumption | intro _
    | with_reducible first | apply State.onStrand_inv | apply Res.run_inv | apply State.load_inv | apply State.loaded_inv

theorem execStBp_inv {sw : SWidth} {a : Reg} {b : Reg} {imm : BitVec 9} {s : State} (hI : s.Inv) : OutInv (execStBp sw a b imm s) := by
  unfold execStBp
  repeat' first
    | with_reducible first | assumption | intro _
    | with_reducible first | apply State.onStrand_inv | apply Res.run_inv | apply State.store_inv | apply State.next_inv

theorem execSl_inv {lw : LWidth} {rd : Reg} {a : Reg} {imm : BitVec 9} {s : State} (hI : s.Inv) : OutInv (execSl lw rd a imm s) := by
  unfold execSl
  repeat' first
    | with_reducible first | assumption | intro _
    | with_reducible first | apply State.onCrew_inv | apply State.stageCheck_inv | apply State.next_inv | apply State.markFrom_inv | apply State.setX_inv

theorem execSs_inv {sw : SWidth} {a : Reg} {b : Reg} {imm : BitVec 9} {s : State} (hI : s.Inv) : OutInv (execSs sw a b imm s) := by
  unfold execSs
  repeat' first
    | with_reducible first | assumption | intro _
    | ((fail_if_no_progress extract_lets +onlyGivenNames u); ((fail_if_success (have _ : ∀ x, u x = u x := fun _ => rfl)); clear_value u))
    | with_reducible first | apply State.onCrew_inv | apply State.stageCheck_inv | apply State.stall_inv | apply State.next_inv | apply State.stageWrite_inv
    | split

theorem execFnScoped_inv {sc : Scope} {pred : BitVec 4} {succ : BitVec 4} {s : State} (hI : s.Inv) : OutInv (execFnScoped sc pred succ s) := by
  unfold execFnScoped
  repeat' first
    | with_reducible assumption
    | with_reducible first | apply State.onAny_inv | apply State.fenceOp_inv

theorem execFnNc_inv {s : State} (hI : s.Inv) : OutInv (execFnNc s) := by
  unfold execFnNc
  repeat' first
    | with_reducible assumption
    | with_reducible first | apply State.onAny_inv | apply State.next_inv | apply State.acquire_inv

theorem execFnPfL1_inv {a : Reg} {s : State} (hI : s.Inv) : OutInv (execFnPfL1 a s) := by
  unfold execFnPfL1
  repeat' first
    | with_reducible assumption
    | with_reducible apply State.prefetch_inv

theorem execFnPfLlc_inv {a : Reg} {s : State} (hI : s.Inv) : OutInv (execFnPfLlc a s) := by
  unfold execFnPfLlc
  repeat' first
    | with_reducible assumption
    | with_reducible apply State.prefetch_inv

theorem execFnPfW_inv {a : Reg} {s : State} (hI : s.Inv) : OutInv (execFnPfW a s) := by
  unfold execFnPfW
  repeat' first
    | with_reducible assumption
    | with_reducible apply State.prefetch_inv

theorem execFence_inv {_fm : BitVec 4} {pred : BitVec 4} {succ : BitVec 4} {s : State} (hI : s.Inv) : OutInv (execFence _fm pred succ s) := by
  unfold execFence
  repeat' first
    | with_reducible assumption
    | with_reducible first | apply State.onAny_inv | apply State.fenceOp_inv

theorem execFenceI_inv {s : State} (hI : s.Inv) : OutInv (execFenceI s) := by
  unfold execFenceI
  repeat' first
    | with_reducible assumption
    | with_reducible first | apply State.onAny_inv | apply State.next_inv | apply State.dropIbuf_inv | apply State.drain_inv

theorem State.wrs_inv {s : State} {n : Nat} (hI : s.Inv) : OutInv (State.wrs s n) := by
  unfold State.wrs
  repeat' first
    | with_reducible assumption
    | with_reducible first | apply State.onAny_inv | apply State.next_inv | apply State.await_inv | apply out_next
    | split

theorem execWrsNto_inv {s : State} (hI : s.Inv) : OutInv (execWrsNto s) := by
  unfold execWrsNto
  repeat' first
    | with_reducible assumption
    | with_reducible apply State.wrs_inv

theorem execWrsSto_inv {s : State} (hI : s.Inv) : OutInv (execWrsSto s) := by
  unfold execWrsSto
  repeat' first
    | with_reducible assumption
    | with_reducible apply State.wrs_inv

theorem execWrsTimeout_inv {k : Nat} {s : State} (hI : s.Inv) : OutInv (execWrsTimeout k s) := by
  unfold execWrsTimeout
  repeat' first
    | with_reducible first | assumption | intro _
    | with_reducible first | apply State.finishWith_inv | apply out_next | apply id_inv
    | split

end Sys2Proof.Machine
end

