-- ==== Sys2Proof/Laws/InvStrands.lean ====
section
/-! SUPPORT. Each operation keeps the invariant: the scalar forms, fleets, copies and the strand scheduler. -/

set_option linter.all false

namespace Sys2Proof.Machine

/-! ### Operations of Atomics.lean -/

theorem State.atomLoc_inv {s : State} {k : AccKind} {va : Word} {n : Nat} (hI : s.Inv) : Res.Inv (State.atomLoc s k va n) := by
  unfold State.atomLoc
  repeat' first
    | with_reducible first | assumption | intro _
    | with_reducible first | apply Res.bind_inv | apply State.locate_inv | apply res_ok | apply res_trap
    | split

theorem State.atomOpen_inv {s : State} {k : AccKind} {va : Word} {p : Part} {chk : Bool} {lr : optParam Bool false} {ret : optParam Bool true} (hI : s.Inv) : Res.Inv (State.atomOpen s k va p chk lr ret) := by
  unfold State.atomOpen
  repeat' first
    | with_reducible first | assumption | intro _
    | ((fail_if_no_progress extract_lets +onlyGivenNames u); (have hu : State.Inv u; (on_goal 1 => (unfold u; clear u)); (on_goal 2 => clear_value u)))
    | with_reducible first | apply Res.bind_inv | apply State.send_inv | apply State.openParts_inv | apply State.sawHome_inv | apply State.loseResv_inv | apply State.dropNc_inv | apply res_ok | apply res_trap | apply res_stall
    | split

theorem State.atomAt_inv {s : State} {k : AccKind} {va : Word} {n : Nat} {chk : Bool} {lr : optParam Bool false} {ret : optParam Bool true} (hI : s.Inv) : Res.Inv (State.atomAt s k va n chk lr ret) := by
  unfold State.atomAt
  repeat' first
    | with_reducible first | assumption | intro _
    | with_reducible first | apply Res.bind_inv | apply State.atomLoc_inv | apply State.atomOpen_inv

theorem State.atomPut_inv {s : State} {at' : State.Atom} {n : Nat} {v : Nat} (hI : s.Inv) : (State.atomPut s at' n v).Inv := by
  unfold State.atomPut
  repeat' first
    | with_reducible assumption
    | ((fail_if_no_progress extract_lets +onlyGivenNames u); ((fail_if_success (have _ : ∀ x, u x = u x := fun _ => rfl)); clear_value u))
    | with_reducible apply State.writeParts_inv

theorem State.atomic_inv {s : State} {k : AccKind} {a : Word} {n : Nat} {wide : Bool} {aq : Bool} {rl : Bool} {g : State → State.Atom → State} (hI : s.Inv) (h_g : ∀ x0 x1, x0.Inv → (g x0 x1).Inv) : OutInv (State.atomic s k a n wide aq rl g) := by
  unfold State.atomic
  repeat' first
    | with_reducible first | assumption | intro _
    | ((fail_if_no_progress extract_lets +onlyGivenNames u); (have hu : State.Inv u; (on_goal 1 => (unfold u; clear u)); (on_goal 2 => clear_value u)))
    | with_reducible first | apply h_g | apply State.raise_inv | apply State.release_inv | apply Res.run_inv | apply State.atomAt_inv | apply State.next_inv | apply State.acquire_inv
    | split

theorem State.atomRd_inv {s : State} {rd : Reg} {v : Word} (hI : s.Inv) : (State.atomRd s rd v).Inv := by
  unfold State.atomRd
  repeat' first
    | with_reducible assumption
    | with_reducible first | apply State.mark_inv | apply State.setX_inv

theorem State.atomRd2_inv {s : State} {rd : Reg} {v : Word} (hI : s.Inv) : (State.atomRd2 s rd v).Inv := by
  unfold State.atomRd2
  repeat' first
    | with_reducible assumption
    | with_reducible first | apply State.markFrom_inv | apply State.setX_inv

theorem execAmoOp_inv {op : AOp} {t : ITy} {sc : Scope} {aq : Bool} {rl : Bool} {rd : Reg} {a : Reg} {s : State} (hI : s.Inv) : OutInv (execAmoOp op t sc aq rl rd a s) := by
  unfold execAmoOp
  repeat' first
    | with_reducible first | assumption | intro _
    | with_reducible first | apply State.onAny_inv | apply State.atomic_inv | apply State.atomRd_inv | apply State.atomPut_inv

theorem execAmoCas_inv {t : ITy} {sc : Scope} {aq : Bool} {rl : Bool} {rd : Reg} {a : Reg} {s : State} (hI : s.Inv) : OutInv (execAmoCas t sc aq rl rd a s) := by
  unfold execAmoCas
  repeat' first
    | with_reducible first | assumption | intro _
    | ((fail_if_no_progress extract_lets +onlyGivenNames u); (first | (have hu : State.Inv u; (on_goal 1 => (unfold u; clear u)); (on_goal 2 => clear_value u)) | ((fail_if_success (have _ : ∀ x, u x = u x := fun _ => rfl)); clear_value u)))
    | with_reducible first | apply State.onAny_inv | apply State.atomic_inv | apply State.atomPut_inv | apply State.atomRd_inv
    | split

theorem execAmoLd_inv {t : ITy} {sc : Scope} {aq : Bool} {rd : Reg} {a : Reg} {s : State} (hI : s.Inv) : OutInv (execAmoLd t sc aq rd a s) := by
  unfold execAmoLd
  repeat' first
    | with_reducible first | assumption | intro _
    | with_reducible first | apply State.onAny_inv | apply State.atomic_inv | apply State.atomRd_inv

theorem execAmoSt_inv {t : ITy} {sc : Scope} {rl : Bool} {rd : Reg} {a : Reg} {s : State} (hI : s.Inv) : OutInv (execAmoSt t sc rl rd a s) := by
  unfold execAmoSt
  repeat' first
    | with_reducible first | assumption | intro _
    | ((fail_if_no_progress extract_lets +onlyGivenNames u); ((fail_if_success (have _ : ∀ x, u x = u x := fun _ => rfl)); clear_value u))
    | with_reducible first | apply State.onAny_inv | apply State.raise_inv | apply Res.run_inv | apply State.atomAt_inv | apply State.release_inv | apply State.next_inv | apply State.atomPut_inv
    | split

theorem execAmoDraw_inv {sc : Scope} {aq : Bool} {rl : Bool} {rd : Reg} {a : Reg} {s : State} (hI : s.Inv) : OutInv (execAmoDraw sc aq rl rd a s) := by
  unfold execAmoDraw
  repeat' first
    | with_reducible first | assumption | intro _
    | ((fail_if_no_progress extract_lets +onlyGivenNames u); (first | (have hu : State.Inv u; (on_goal 1 => (unfold u; clear u)); (on_goal 2 => clear_value u)) | ((fail_if_success (have _ : ∀ x, u x = u x := fun _ => rfl)); clear_value u)))
    | with_reducible first | apply State.onAny_inv | apply State.atomic_inv | apply State.atomPut_inv | apply State.atomRd2_inv | apply State.atomRd_inv
    | split

theorem execAmoTick_inv {aq : Bool} {rl : Bool} {rd : Reg} {a : Reg} {s : State} (hI : s.Inv) : OutInv (execAmoTick aq rl rd a s) := by
  unfold execAmoTick
  repeat' first
    | with_reducible first | assumption | intro _
    | ((fail_if_no_progress extract_lets +onlyGivenNames u); (first | (have hu : State.Inv u; (on_goal 1 => (unfold u; clear u)); (on_goal 2 => clear_value u)) | ((fail_if_success (have _ : ∀ x, u x = u x := fun _ => rfl)); clear_value u)))
    | with_reducible first | apply State.onAny_inv | apply State.raise_inv | apply State.onCrew_inv | apply State.stageCheck_inv | apply State.stall_inv | apply State.release_inv | apply State.stageWrite_inv | apply State.markFrom_inv | apply State.setX_inv | apply State.next_inv | apply State.acquire_inv
    | split

theorem State.redAdd_inv {s : State} {t : Strand} {pa : Nat} {op : AOp} {ty : ITy} {point : Nat} {x : Nat} (hI : s.Inv) : (State.redAdd s t pa op ty point x).Inv := by
  unfold State.redAdd
  repeat' first
    | with_reducible first | assumption | intro _
    | ((fail_if_no_progress extract_lets +onlyGivenNames u); (first | (have hu : State.Inv u; (on_goal 1 => (unfold u; clear u)); (on_goal 2 => clear_value u)) | ((fail_if_success (have _ : ∀ x, u x = u x := fun _ => rfl)); clear_value u) | (unfold u; clear u)))
    | (with_reducible apply inv_same; with_reducible assumption)
    | with_reducible first | apply State.mergeEntry_inv | apply foldl_inv
    | split

theorem execRed_inv {op : AOp} {t : ITy} {sc : Scope} {a : Reg} {b : Reg} {s : State} (hI : s.Inv) : OutInv (execRed op t sc a b s) := by
  unfold execRed
  repeat' first
    | with_reducible first | assumption | intro _
    | ((fail_if_no_progress extract_lets +onlyGivenNames u); (first | (have hu : State.Inv u; (on_goal 1 => (unfold u; clear u)); (on_goal 2 => clear_value u)) | ((fail_if_success (have _ : ∀ x, u x = u x := fun _ => rfl)); clear_value u) | (unfold u; clear u)))
    | with_reducible first | apply State.onAny_inv | apply Res.run_inv | apply State.atomAt_inv | apply State.next_inv | apply State.atomPut_inv | apply State.raise_inv | apply State.atomLoc_inv | apply State.stall_inv | apply State.request_inv | apply State.served_inv | apply State.classify_inv | apply State.redAdd_inv
    | split

theorem execAtomicPerform_inv {core : Nat} {line : Nat} {s : State} (hI : s.Inv) : OutInv (execAtomicPerform core line s) := by
  unfold execAtomicPerform
  repeat' first
    | with_reducible first | assumption | intro _
    | with_reducible first | apply State.mergeEntry_inv | apply out_next | apply foldl_inv

theorem execRbAgeMerge_inv {core : Nat} {line : Nat} {s : State} (hI : s.Inv) : OutInv (execRbAgeMerge core line s) := by
  unfold execRbAgeMerge
  repeat' first
    | with_reducible first | assumption | intro _
    | with_reducible first | apply State.mergeEntry_inv | apply out_next | apply foldl_inv

theorem State.takeHold_inv {s : State} {t : Strand} {g : Nat} (h : s.Inv) : PairInvL (s.takeHold t g) := by
  unfold State.takeHold
  extract_lets drop s1 live full here hold rest queue
  have h1 : s1.Inv := inv_same h
  have hq : ∀ b (s : State), s.Inv → (queue b s).Inv := fun b s hs => State.modCore_inv hs
  clear_value s1 rest hold queue full
  split
  · split
    · exact hq _ _ h1
    · exact hq _ _ (inv_same h1)
  · extract_lets ws rs
    split
    · exact hq _ _ (inv_same h1)
    · exact hq _ _ (inv_same h1)

theorem State.setResv_inv {s : State} {r : Option Nat} (hI : s.Inv) : (State.setResv s r).Inv := by
  unfold State.setResv
  repeat' first
    | with_reducible first | assumption | intro _
    | with_reducible first | apply State.modStrand_inv | apply State.modLcore_inv
    | split
    | with_reducible apply And.intro

theorem execLr_inv {dbl : Bool} {aq : Bool} {_rl : Bool} {rd : Reg} {a : Reg} {s : State} (hI : s.Inv) : OutInv (execLr dbl aq _rl rd a s) := by
  unfold execLr
  repeat' first
    | with_reducible first | assumption | intro _
    | ((fail_if_no_progress extract_lets +onlyGivenNames u); (first | (have hu : State.Inv u; (on_goal 1 => (unfold u; clear u)); (on_goal 2 => clear_value u)) | ((fail_if_success (have _ : ∀ x, u x = u x := fun _ => rfl)); clear_value u) | (unfold u; clear u)))
    | (with_reducible apply inv_same; with_reducible refine of_pairL (by assumption) ?_)
    | with_reducible first | apply State.onAny_inv | apply State.raise_inv | apply Res.run_inv | apply State.atomAt_inv | apply State.atomRd_inv | apply State.setResv_inv | apply State.next_inv | apply State.acquire_inv | apply State.takeHold_inv | apply State.stall_inv
    | split

theorem execSc_inv {dbl : Bool} {_aq : Bool} {rl : Bool} {rd : Reg} {a : Reg} {b : Reg} {s : State} (hI : s.Inv) : OutInv (execSc dbl _aq rl rd a b s) := by
  unfold execSc
  repeat' first
    | with_reducible first | assumption | intro _
    | ((fail_if_no_progress extract_lets +onlyGivenNames u); (first | (have hu : State.Inv u; (on_goal 1 => (unfold u; clear u)); (on_goal 2 => clear_value u)) | ((fail_if_success (have _ : ∀ x, u x = u x := fun _ => rfl)); clear_value u) | (unfold u; clear u)))
    | with_reducible first | apply State.onAny_inv | apply State.raise_inv | apply State.release_inv | apply Res.run_inv | apply State.atomLoc_inv | apply State.setResv_inv | apply State.endHold_inv | apply State.modCore_inv | apply State.next_inv | apply State.setX_inv | apply State.atomOpen_inv | apply State.atomPut_inv | apply State.loseResv_inv
    | split

theorem execLrHoldEnd_inv {core : Nat} {granule : Nat} {s : State} (hI : s.Inv) : OutInv (execLrHoldEnd core granule s) := by
  unfold execLrHoldEnd
  repeat' first
    | (with_reducible apply inv_same; with_reducible assumption)
    | with_reducible apply out_next

theorem execStandardAmo_inv {op : StdAmo} {dbl : Bool} {aq : Bool} {rl : Bool} {rd : Reg} {a : Reg} {b : Reg} {s : State} (hI : s.Inv) : OutInv (execStandardAmo op dbl aq rl rd a b s) := by
  unfold execStandardAmo
  repeat' first
    | with_reducible first | assumption | intro _
    | ((fail_if_no_progress extract_lets +onlyGivenNames u); ((fail_if_success (have _ : ∀ x, u x = u x := fun _ => rfl)); clear_value u))
    | with_reducible first | apply State.onAny_inv | apply State.atomic_inv | apply State.atomRd_inv | apply State.atomPut_inv

theorem execAmocas_inv {cw : CasW} {aq : Bool} {rl : Bool} {rd : Reg} {a : Reg} {b : Reg} {s : State} (hI : s.Inv) : OutInv (execAmocas cw aq rl rd a b s) := by
  unfold execAmocas
  repeat' first
    | with_reducible first | assumption | intro _
    | ((fail_if_no_progress extract_lets +onlyGivenNames u); (first | (have hu : State.Inv u; (on_goal 1 => (unfold u; clear u)); (on_goal 2 => clear_value u)) | ((fail_if_success (have _ : ∀ x, u x = u x := fun _ => rfl)); clear_value u)))
    | with_reducible first | apply State.onAny_inv | apply State.atomic_inv | apply State.atomPut_inv | apply State.atomRd2_inv | apply State.atomRd_inv
    | split

/-! ### Operations of Scalar.lean -/

theorem execFxLi_inv {rd : Reg} {lit : BitVec 32} {s : State} (hI : s.Inv) : OutInv (execFxLi rd lit s) := by
  unfold execFxLi
  repeat' first
    | with_reducible assumption
    | with_reducible first | apply State.onAny_inv | apply State.status_inv

theorem execFxLiu_inv {rd : Reg} {lit : BitVec 32} {s : State} (hI : s.Inv) : OutInv (execFxLiu rd lit s) := by
  unfold execFxLiu
  repeat' first
    | with_reducible assumption
    | with_reducible first | apply State.onAny_inv | apply State.status_inv

theorem execFxLih_inv {rd : Reg} {lit : BitVec 32} {s : State} (hI : s.Inv) : OutInv (execFxLih rd lit s) := by
  unfold execFxLih
  repeat' first
    | with_reducible assumption
    | with_reducible first | apply State.onAny_inv | apply State.status_inv

theorem execFxAddl_inv {rd : Reg} {lit : BitVec 32} {s : State} (hI : s.Inv) : OutInv (execFxAddl rd lit s) := by
  unfold execFxAddl
  repeat' first
    | with_reducible assumption
    | with_reducible first | apply State.onAny_inv | apply State.status_inv

theorem execFxAndl_inv {rd : Reg} {lit : BitVec 32} {s : State} (hI : s.Inv) : OutInv (execFxAndl rd lit s) := by
  unfold execFxAndl
  repeat' first
    | with_reducible assumption
    | with_reducible first | apply State.onAny_inv | apply State.status_inv

theorem execFxOrl_inv {rd : Reg} {lit : BitVec 32} {s : State} (hI : s.Inv) : OutInv (execFxOrl rd lit s) := by
  unfold execFxOrl
  repeat' first
    | with_reducible assumption
    | with_reducible first | apply State.onAny_inv | apply State.status_inv

theorem execFxXorl_inv {rd : Reg} {lit : BitVec 32} {s : State} (hI : s.Inv) : OutInv (execFxXorl rd lit s) := by
  unfold execFxXorl
  repeat' first
    | with_reducible assumption
    | with_reducible first | apply State.onAny_inv | apply State.status_inv

theorem execFxAuipcl_inv {rd : Reg} {lit : BitVec 32} {s : State} (hI : s.Inv) : OutInv (execFxAuipcl rd lit s) := by
  unfold execFxAuipcl
  repeat' first
    | with_reducible assumption
    | with_reducible first | apply State.onAny_inv | apply State.status_inv

theorem State.fpDirty_inv {s : State} (hI : s.Inv) : (State.fpDirty s).Inv := by
  unfold State.fpDirty
  repeat' first
    | with_reducible first | assumption | intro _
    | ((fail_if_no_progress extract_lets +onlyGivenNames u); (have hu : swf (LCore.ctx u) = true ∧ swf (LCore.csr u) = true ∧ swf (LCore.vec u) = true; (on_goal 1 => (unfold u; clear u)); (on_goal 2 => clear_value u)))
    | with_reducible apply State.modLcore_inv
    | split
    | with_reducible first | apply sset_swf | apply And.intro | exact And.left (by assumption) | exact And.left (And.right (by assumption)) | exact And.right (And.right (by assumption)) | exact And.right (by assumption)

theorem State.withFp_inv {s : State} {g : State → Out} (hI : s.Inv) (h_g : ∀ x0, x0.Inv → OutInv (g x0)) : OutInv (State.withFp s g) := by
  unfold State.withFp
  repeat' first
    | with_reducible assumption
    | with_reducible first | apply h_g | apply State.fpDirty_inv | apply State.illegal_inv
    | split

theorem State.withFrm_inv {s : State} {g : Nat → Out} (hI : s.Inv) (h_g : ∀ x0, OutInv (g x0)) : OutInv (State.withFrm s g) := by
  unfold State.withFrm
  repeat' first
    | with_reducible first | assumption | intro _
    | with_reducible first | apply h_g | apply State.onStrand_inv | apply State.illegal_inv
    | split

theorem State.fdone_inv {s : State} {rd : Reg} {v : Word} {fl : Nat} (hI : s.Inv) : OutInv (State.fdone s rd v fl) := by
  unfold State.fdone
  repeat' first
    | with_reducible assumption
    | with_reducible first | apply State.next_inv | apply State.accrue_inv | apply State.setF_inv

theorem State.xdone_inv {s : State} {rd : Reg} {v : Word} {fl : Nat} (hI : s.Inv) : OutInv (State.xdone s rd v fl) := by
  unfold State.xdone
  repeat' first
    | with_reducible assumption
    | with_reducible first | apply State.next_inv | apply State.accrue_inv | apply State.setX_inv

theorem State.satDone_inv {s : State} {rd : Reg} {v : Word} {clamped : Bool} (hI : s.Inv) : OutInv (State.satDone s rd v clamped) := by
  unfold State.satDone
  repeat' first
    | with_reducible assumption
    | ((fail_if_no_progress extract_lets +onlyGivenNames u); (have hu : State.Inv u; (on_goal 1 => (unfold u; clear u)); (on_goal 2 => clear_value u)))
    | with_reducible first | apply State.setCtx_inv | apply State.next_inv | apply State.setX_inv
    | split

theorem execFxLis_inv {rd : Reg} {lit : BitVec 32} {s : State} (hI : s.Inv) : OutInv (execFxLis rd lit s) := by
  unfold execFxLis
  repeat' first
    | with_reducible assumption
    | with_reducible first | apply State.onAny_inv | apply State.next_inv | apply State.setF_inv | apply State.fpDirty_inv
    | split

theorem execFxLid_inv {rd : Reg} {lit : BitVec 32} {s : State} (hI : s.Inv) : OutInv (execFxLid rd lit s) := by
  unfold execFxLid
  repeat' first
    | with_reducible assumption
    | with_reducible first | apply State.onAny_inv | apply State.next_inv | apply State.setF_inv | apply State.fpDirty_inv
    | split

theorem execFxAdds_inv {t : STy} {rd : Reg} {a : Reg} {b : Reg} {s : State} (hI : s.Inv) : OutInv (execFxAdds t rd a b s) := by
  unfold execFxAdds
  repeat' first
    | with_reducible first | assumption | intro _
    | ((fail_if_no_progress extract_lets +onlyGivenNames u); ((fail_if_success (have _ : ∀ x, u x = u x := fun _ => rfl)); clear_value u))
    | with_reducible first | apply State.onStrand_inv | apply State.satDone_inv

theorem execFxSubs_inv {t : STy} {rd : Reg} {a : Reg} {b : Reg} {s : State} (hI : s.Inv) : OutInv (execFxSubs t rd a b s) := by
  unfold execFxSubs
  repeat' first
    | with_reducible first | assumption | intro _
    | ((fail_if_no_progress extract_lets +onlyGivenNames u); ((fail_if_success (have _ : ∀ x, u x = u x := fun _ => rfl)); clear_value u))
    | with_reducible first | apply State.onStrand_inv | apply State.satDone_inv

theorem execFxDot_inv {v : DotForm} {rd : Reg} {a : Reg} {b : Reg} {s : State} (hI : s.Inv) : OutInv (execFxDot v rd a b s) := by
  unfold execFxDot
  repeat' first
    | with_reducible first | assumption | intro _
    | ((fail_if_no_progress extract_lets +onlyGivenNames u); ((fail_if_success (have _ : ∀ x, u x = u x := fun _ => rfl)); clear_value u))
    | with_reducible first | apply State.onStrand_inv | apply State.satDone_inv

theorem execFxSrari_inv {rd : Reg} {a : Reg} {sh : BitVec 6} {s : State} (hI : s.Inv) : OutInv (execFxSrari rd a sh s) := by
  unfold execFxSrari
  repeat' first
    | with_reducible first | assumption | intro _
    | with_reducible first | apply State.onStrand_inv | apply State.satDone_inv

theorem execFxSati_inv {rd : Reg} {a : Reg} {w1 : BitVec 6} {s : State} (hI : s.Inv) : OutInv (execFxSati rd a w1 s) := by
  unfold execFxSati
  repeat' first
    | with_reducible first | assumption | intro _
    | ((fail_if_no_progress extract_lets +onlyGivenNames u); ((fail_if_success (have _ : ∀ x, u x = u x := fun _ => rfl)); clear_value u))
    | with_reducible first | apply State.onStrand_inv | apply State.satDone_inv

theorem execFxSatni_inv {rd : Reg} {a : Reg} {w1 : BitVec 6} {s : State} (hI : s.Inv) : OutInv (execFxSatni rd a w1 s) := by
  unfold execFxSatni
  repeat' first
    | with_reducible first | assumption | intro _
    | ((fail_if_no_progress extract_lets +onlyGivenNames u); ((fail_if_success (have _ : ∀ x, u x = u x := fun _ => rfl)); clear_value u))
    | with_reducible first | apply State.onStrand_inv | apply State.satDone_inv

theorem execFxCvtBf16F64_inv {rd : Reg} {a : Reg} {s : State} (hI : s.Inv) : OutInv (execFxCvtBf16F64 rd a s) := by
  unfold execFxCvtBf16F64
  repeat' first
    | with_reducible first | assumption | intro _
    | ((fail_if_no_progress extract_lets +onlyGivenNames u); ((fail_if_success (have _ : ∀ x, u x = u x := fun _ => rfl)); clear_value u))
    | with_reducible first | apply State.withFrm_inv | apply State.fdone_inv

theorem execFxCvtF64Bf16_inv {rd : Reg} {a : Reg} {s : State} (hI : s.Inv) : OutInv (execFxCvtF64Bf16 rd a s) := by
  unfold execFxCvtF64Bf16
  repeat' first
    | with_reducible first | assumption | intro _
    | ((fail_if_no_progress extract_lets +onlyGivenNames u); ((fail_if_success (have _ : ∀ x, u x = u x := fun _ => rfl)); clear_value u))
    | with_reducible first | apply State.onStrand_inv | apply State.fdone_inv

theorem execFxCvtBf16F16_inv {rd : Reg} {a : Reg} {s : State} (hI : s.Inv) : OutInv (execFxCvtBf16F16 rd a s) := by
  unfold execFxCvtBf16F16
  repeat' first
    | with_reducible first | assumption | intro _
    | ((fail_if_no_progress extract_lets +onlyGivenNames u); ((fail_if_success (have _ : ∀ x, u x = u x := fun _ => rfl)); clear_value u))
    | with_reducible first | apply State.withFrm_inv | apply State.fdone_inv

theorem execFxCvtF16Bf16_inv {rd : Reg} {a : Reg} {s : State} (hI : s.Inv) : OutInv (execFxCvtF16Bf16 rd a s) := by
  unfold execFxCvtF16Bf16
  repeat' first
    | with_reducible first | assumption | intro _
    | ((fail_if_no_progress extract_lets +onlyGivenNames u); ((fail_if_success (have _ : ∀ x, u x = u x := fun _ => rfl)); clear_value u))
    | with_reducible first | apply State.withFrm_inv | apply State.fdone_inv

theorem execFxPkBf16_inv {rd : Reg} {a : Reg} {b : Reg} {s : State} (hI : s.Inv) : OutInv (execFxPkBf16 rd a b s) := by
  unfold execFxPkBf16
  repeat' first
    | with_reducible first | assumption | intro _
    | ((fail_if_no_progress extract_lets +onlyGivenNames u); ((fail_if_success (have _ : ∀ x, u x = u x := fun _ => rfl)); clear_value u))
    | with_reducible first | apply State.withFrm_inv | apply State.fdone_inv

theorem execFxUpkLo_inv {rd : Reg} {a : Reg} {s : State} (hI : s.Inv) : OutInv (execFxUpkLo rd a s) := by
  unfold execFxUpkLo
  repeat' first
    | with_reducible first | assumption | intro _
    | ((fail_if_no_progress extract_lets +onlyGivenNames u); ((fail_if_success (have _ : ∀ x, u x = u x := fun _ => rfl)); clear_value u))
    | with_reducible first | apply State.onStrand_inv | apply State.fdone_inv

theorem execFxUpkHi_inv {rd : Reg} {a : Reg} {s : State} (hI : s.Inv) : OutInv (execFxUpkHi rd a s) := by
  unfold execFxUpkHi
  repeat' first
    | with_reducible first | assumption | intro _
    | ((fail_if_no_progress extract_lets +onlyGivenNames u); ((fail_if_success (have _ : ∀ x, u x = u x := fun _ => rfl)); clear_value u))
    | with_reducible first | apply State.onStrand_inv | apply State.fdone_inv

theorem pairForm_inv {s : State} {rd : Reg} {a : Reg} {b : Reg} {g : Nat → FVal → FVal → FVal → FVal × Nat} (hI : s.Inv) : OutInv (pairForm s rd a b g) := by
  unfold pairForm
  repeat' first
    | with_reducible first | assumption | intro _
    | ((fail_if_no_progress extract_lets +onlyGivenNames u); (first | ((fail_if_success (have _ : ∀ x, u x = u x := fun _ => rfl)); clear_value u) | (unfold u; clear u)))
    | with_reducible first | apply State.withFrm_inv | apply State.fdone_inv

theorem execFxPaddBf16_inv {rd : Reg} {a : Reg} {b : Reg} {s : State} (hI : s.Inv) : OutInv (execFxPaddBf16 rd a b s) := by
  unfold execFxPaddBf16
  repeat' first
    | with_reducible assumption
    | with_reducible apply pairForm_inv

theorem execFxPsubBf16_inv {rd : Reg} {a : Reg} {b : Reg} {s : State} (hI : s.Inv) : OutInv (execFxPsubBf16 rd a b s) := by
  unfold execFxPsubBf16
  repeat' first
    | with_reducible assumption
    | with_reducible apply pairForm_inv

theorem execFxPmulBf16_inv {rd : Reg} {a : Reg} {b : Reg} {s : State} (hI : s.Inv) : OutInv (execFxPmulBf16 rd a b s) := by
  unfold execFxPmulBf16
  repeat' first
    | with_reducible assumption
    | with_reducible apply pairForm_inv

theorem execFxPfmaBf16_inv {rd : Reg} {a : Reg} {b : Reg} {s : State} (hI : s.Inv) : OutInv (execFxPfmaBf16 rd a b s) := by
  unfold execFxPfmaBf16
  repeat' first
    | with_reducible assumption
    | with_reducible apply pairForm_inv

theorem execFxPdotF32Bf16_inv {rd : Reg} {a : Reg} {b : Reg} {s : State} (hI : s.Inv) : OutInv (execFxPdotF32Bf16 rd a b s) := by
  unfold execFxPdotF32Bf16
  repeat' first
    | with_reducible first | assumption | intro _
    | ((fail_if_no_progress extract_lets +onlyGivenNames u); (first | ((fail_if_success (have _ : ∀ x, u x = u x := fun _ => rfl)); clear_value u) | (unfold u; clear u)))
    | with_reducible first | apply State.withFrm_inv | apply State.fdone_inv

theorem execFxXp_inv {f : Elt} {rd : Reg} {a : Reg} {b : Reg} {s : State} (hI : s.Inv) : OutInv (execFxXp f rd a b s) := by
  unfold execFxXp
  repeat' first
    | with_reducible first | assumption | intro _
    | ((fail_if_no_progress extract_lets +onlyGivenNames u); ((fail_if_success (have _ : ∀ x, u x = u x := fun _ => rfl)); clear_value u))
    | with_reducible first | apply State.withFrm_inv | apply State.fdone_inv

theorem execFxNr_inv {f : Elt} {rd : Reg} {a : Reg} {b : Reg} {s : State} (hI : s.Inv) : OutInv (execFxNr f rd a b s) := by
  unfold execFxNr
  repeat' first
    | with_reducible first | assumption | intro _
    | ((fail_if_no_progress extract_lets +onlyGivenNames u); ((fail_if_success (have _ : ∀ x, u x = u x := fun _ => rfl)); clear_value u))
    | with_reducible first | apply State.withFrm_inv | apply State.xdone_inv

theorem sclForm_inv {s : State} {f : FFmt} {rd : Reg} {a : Reg} {n : ℤ} (hI : s.Inv) : OutInv (sclForm s f rd a n) := by
  unfold sclForm
  repeat' first
    | with_reducible first | assumption | intro _
    | ((fail_if_no_progress extract_lets +onlyGivenNames u); ((fail_if_success (have _ : ∀ x, u x = u x := fun _ => rfl)); clear_value u))
    | with_reducible first | apply State.withFrm_inv | apply State.fdone_inv

theorem execFxSclF32_inv {rd : Reg} {a : Reg} {b : Reg} {s : State} (hI : s.Inv) : OutInv (execFxSclF32 rd a b s) := by
  unfold execFxSclF32
  repeat' first
    | with_reducible assumption
    | with_reducible apply sclForm_inv

theorem execFxSclF64_inv {rd : Reg} {a : Reg} {b : Reg} {s : State} (hI : s.Inv) : OutInv (execFxSclF64 rd a b s) := by
  unfold execFxSclF64
  repeat' first
    | with_reducible assumption
    | with_reducible apply sclForm_inv

theorem execFxScliF32_inv {rd : Reg} {a : Reg} {n : BitVec 9} {s : State} (hI : s.Inv) : OutInv (execFxScliF32 rd a n s) := by
  unfold execFxScliF32
  repeat' first
    | with_reducible assumption
    | with_reducible apply sclForm_inv

theorem execFxScliF64_inv {rd : Reg} {a : Reg} {n : BitVec 9} {s : State} (hI : s.Inv) : OutInv (execFxScliF64 rd a n s) := by
  unfold execFxScliF64
  repeat' first
    | with_reducible assumption
    | with_reducible apply sclForm_inv

theorem execFxXpnF32_inv {rd : Reg} {a : Reg} {s : State} (hI : s.Inv) : OutInv (execFxXpnF32 rd a s) := by
  unfold execFxXpnF32
  repeat' first
    | with_reducible first | assumption | intro _
    | ((fail_if_no_progress extract_lets +onlyGivenNames u); ((fail_if_success (have _ : ∀ x, u x = u x := fun _ => rfl)); clear_value u))
    | with_reducible first | apply State.onStrand_inv | apply State.xdone_inv

theorem execFxXpnF64_inv {rd : Reg} {a : Reg} {s : State} (hI : s.Inv) : OutInv (execFxXpnF64 rd a s) := by
  unfold execFxXpnF64
  repeat' first
    | with_reducible first | assumption | intro _
    | ((fail_if_no_progress extract_lets +onlyGivenNames u); ((fail_if_success (have _ : ∀ x, u x = u x := fun _ => rfl)); clear_value u))
    | with_reducible first | apply State.onStrand_inv | apply State.xdone_inv

theorem specialForm_inv {s : State} {fn : Nat} {rd : Reg} {a : Reg} (hI : s.Inv) : OutInv (specialForm s fn rd a) := by
  unfold specialForm
  repeat' first
    | with_reducible first | assumption | intro _
    | ((fail_if_no_progress extract_lets +onlyGivenNames u); ((fail_if_success (have _ : ∀ x, u x = u x := fun _ => rfl)); clear_value u))
    | with_reducible first | apply State.onStrand_inv | apply State.fdone_inv

theorem execFxExp2F32_inv {rd : Reg} {a : Reg} {s : State} (hI : s.Inv) : OutInv (execFxExp2F32 rd a s) := by
  unfold execFxExp2F32
  repeat' first
    | with_reducible assumption
    | with_reducible apply specialForm_inv

theorem execFxLog2F32_inv {rd : Reg} {a : Reg} {s : State} (hI : s.Inv) : OutInv (execFxLog2F32 rd a s) := by
  unfold execFxLog2F32
  repeat' first
    | with_reducible assumption
    | with_reducible apply specialForm_inv

theorem execFxRcpF32_inv {rd : Reg} {a : Reg} {s : State} (hI : s.Inv) : OutInv (execFxRcpF32 rd a s) := by
  unfold execFxRcpF32
  repeat' first
    | with_reducible assumption
    | with_reducible apply specialForm_inv

theorem execFxRsqrtF32_inv {rd : Reg} {a : Reg} {s : State} (hI : s.Inv) : OutInv (execFxRsqrtF32 rd a s) := by
  unfold execFxRsqrtF32
  repeat' first
    | with_reducible assumption
    | with_reducible apply specialForm_inv

theorem execFxSinpiF32_inv {rd : Reg} {a : Reg} {s : State} (hI : s.Inv) : OutInv (execFxSinpiF32 rd a s) := by
  unfold execFxSinpiF32
  repeat' first
    | with_reducible assumption
    | with_reducible apply specialForm_inv

theorem execFxCospiF32_inv {rd : Reg} {a : Reg} {s : State} (hI : s.Inv) : OutInv (execFxCospiF32 rd a s) := by
  unfold execFxCospiF32
  repeat' first
    | with_reducible assumption
    | with_reducible apply specialForm_inv

theorem execFxTanhF32_inv {rd : Reg} {a : Reg} {s : State} (hI : s.Inv) : OutInv (execFxTanhF32 rd a s) := by
  unfold execFxTanhF32
  repeat' first
    | with_reducible assumption
    | with_reducible apply specialForm_inv

theorem execFxSigmF32_inv {rd : Reg} {a : Reg} {s : State} (hI : s.Inv) : OutInv (execFxSigmF32 rd a s) := by
  unfold execFxSigmF32
  repeat' first
    | with_reducible assumption
    | with_reducible apply specialForm_inv

/-! ### Operations of Chunks.lean -/

theorem State.copyDone_inv {s : State} {id : Nat} (hI : s.Inv) : (State.copyDone s id).Inv := by
  unfold State.copyDone
  repeat' first
    | with_reducible first | assumption | intro _
    | (with_reducible apply inv_same; with_reducible assumption)
    | with_reducible apply State.modStrand_inv
    | split
    | with_reducible apply batDone_swf

theorem State.chunkWrite_inv {s : State} {c : Copy} {line : Nat} {all : Bool} (h : s.Inv) : (s.chunkWrite c line all).Inv := by
  unfold State.chunkWrite
  extract_lets +onlyGivenNames die src s1
  have h1 : s1.Inv := iteInduction (fun _ => h) fun _ => inv_same h
  clear_value s1
  extract_lets +onlyGivenNames s2
  have h2 : s2.Inv := iteInduction (fun _ => h1) fun _ => State.mergeWhere_inv h1
  clear_value s2
  extract_lets +onlyGivenNames s3
  have h3 : s3.Inv := iteInduction (fun _ => h2) fun _ => State.mergeWhere_inv h2
  clear_value s3
  extract_lets +onlyGivenNames s4
  have h4 : s4.Inv := iteInduction (fun _ => h3) fun _ => foldl_inv h3 fun s l hs => State.dirLine_inv hs
  clear_value s4
  extract_lets +onlyGivenNames s5
  have h5 : s5.Inv := iteInduction (fun _ => h4) fun _ => State.dirLine_inv h4
  clear_value s5
  extract_lets +onlyGivenNames cs rp s0
  have h0 : s0.Inv := iteInduction (fun _ => h5) fun _ => foldl_inv h5 fun s l hs => State.imageRead_inv hs
  clear_value s0
  extract_lets +onlyGivenNames at0 rd bad bs
  clear_value rd bad bs
  split
  rename_i k s6 hq
  have h6 : s6.Inv := of_pairR hq (iteInduction (fun _ => State.drawNat_inv h0) fun _ => h0)
  clear hq
  extract_lets +onlyGivenNames bs val vals whole mine
  clear_value bs val vals whole mine
  split
  rename_i some' s7 hq
  have h7 : s7.Inv := of_pairR hq (iteInduction (fun _ => State.drawNat_inv h6) fun _ => h6)
  clear hq
  extract_lets +onlyGivenNames left now
  clear_value left now
  have hst : ∀ (l : List (Nat × Option Byte)) (m : Sparse 8), swf m = true →
      swf (l.foldl (fun m v => match v.2 with | some b => sset m v.1 b | none => m) m) = true := fun l m hm =>
    foldl_swf hm fun m v hm => by
      split
      · exact sset_swf hm
      · exact hm
  refine iteInduction (motive := State.Inv) (fun _ => ?_) fun _ => ?_
  · extract_lets +onlyGivenNames s8
    have h8 : s8.Inv := State.modCrew_inv (State.noteLate_inv h7) fun w hs ha => ⟨hst _ _ hs, ha⟩
    clear_value s8
    exact State.crewRetry_inv (inv_same h8)
  extract_lets +onlyGivenNames put sp s8
  have hp : ∀ s a d, State.Inv s → (put s a d).Inv := fun s a d hs => State.poke_inv hs
  clear_value put
  have hsp : sp.Inv := by
    unfold sp; clear sp s8
    refine iteInduction (motive := State.Inv) (fun _ => hp _ _ _ h7) fun _ => foldl_inv h7 fun s v hs => ?_
    split
    · exact hp _ _ _ hs
    · exact hs
  have hsq : State.Inv { sp with
      poison := if bad then insSorted sp.poison line else sp.poison, owners := sset sp.owners line (w64 c.owner) } := by
    clear s8; clear_value sp
    exact inv_full (mem_swf hsp) (mmio_swf hsp) (pct_swf hsp) (sset_swf (owners_swf hsp)) (peerRgn_swf hsp) (strands_ok hsp)
        (lcores_ok hsp) (crews_ok hsp) (fleets_ok hsp) (cores_len hsp) (pods_len hsp) (dies_len hsp) (zones_len hsp) (lcores_len hsp)
  have h8 : s8.Inv := by
    unfold s8; clear s8
    refine iteInduction (motive := State.Inv)
      (fun _ => State.crewRetry_inv (State.modCrew_inv (State.noteLate_inv h7) fun w hs ha => ⟨hst _ _ hs, ha⟩)) fun _ => hsq
  clear_value s8
  extract_lets +onlyGivenNames s9
  have h9 : s9.Inv := by
    unfold s9; clear s9
    exact iteInduction (motive := State.Inv) (fun _ => State.faultRecord_inv (State.modStrand_inv h8 fun t ht => ht)) fun _ => h8
  clear_value s9
  extract_lets +onlyGivenNames c1 c2 s10
  have h10 : s10.Inv := inv_same h9
  clear_value s10
  exact iteInduction (fun _ => State.copyDone_inv h10) fun _ => h10

theorem State.finishParts_inv {s : State} {c : Copy} (hI : s.Inv) : (State.finishParts s c).Inv := by
  unfold State.finishParts
  repeat' first
    | with_reducible first | assumption | intro _
    | with_reducible first | apply State.chunkWrite_inv | apply foldl_inv
    | split

/-! ### Operations of Fleet.lean -/

theorem State.alloc_inv {s : State} {d n align : Nat} (h : s.Inv) : OptInvR (s.alloc d n align) := by
  unfold State.alloc
  split
  · exact optR_none
  · have h1 := State.drawNat_inv h
    split
    rename_i e
    exact optR_some (inv_same (of_pairR e h1))

theorem State.free_inv {s : State} {a : Nat} (hI : s.Inv) : (State.free s a).Inv := by
  unfold State.free
  repeat' first
    | (with_reducible apply inv_same; with_reducible assumption)

theorem State.newHandle_inv {s : State} (h : s.Inv) : PairInvR s.newHandle := by
  have h1 : s.drawNat.2.Inv := inv_same h
  unfold State.newHandle
  split
  rename_i e
  rw [e] at h1
  extract_lets ok
  clear_value ok
  (repeat' split) <;> exact h1

theorem State.recWrite_inv {s : State} {g : Group} {off : Nat} {v : Nat} {n : Nat} (hI : s.Inv) : (State.recWrite s g off v n).Inv := by
  unfold State.recWrite
  repeat' first
    | with_reducible assumption
    | with_reducible apply State.hwPut_inv

theorem State.modGroup_inv {s : State} {h : Word} {f : Group → Group} (hI : s.Inv) : (State.modGroup s h f).Inv := by
  unfold State.modGroup
  repeat' first
    | with_reducible first | assumption | intro _
    | with_reducible apply State.modFleet_inv

theorem State.setSib_inv {s : State} {h : Word} {i : Nat} {st : Nat} (hI : s.Inv) : (State.setSib s h i st).Inv := by
  unfold State.setSib
  repeat' first
    | with_reducible assumption
    | with_reducible first | apply State.modGroup_inv | apply State.recWrite_inv
    | split

theorem State.closeGroup_inv {s : State} {h : Word} {left : Nat} {flag : Nat} {clock : Nat} (hI : s.Inv) : (State.closeGroup s h left flag clock).Inv := by
  unfold State.closeGroup
  repeat' first
    | with_reducible first | assumption | intro _
    | ((fail_if_no_progress extract_lets +onlyGivenNames u); (first | (have hu : State.Inv u; (on_goal 1 => (unfold u; clear u)); (on_goal 2 => clear_value u)) | ((fail_if_success (have _ : ∀ x, u x = u x := fun _ => rfl)); clear_value u)))
    | with_reducible first | apply State.recWrite_inv | apply State.modGroup_inv | apply foldl_inv
    | split

theorem State.tryClose_inv {s : State} {h : Word} (hI : s.Inv) : (State.tryClose s h).Inv := by
  unfold State.tryClose
  repeat' first
    | with_reducible assumption
    | with_reducible apply State.closeGroup_inv
    | split

theorem State.dropFleet_inv {s : State} {h : Word} (hI : s.Inv) : (State.dropFleet s h).Inv := by
  unfold State.dropFleet
  repeat' first
    | with_reducible assumption
    | with_reducible apply State.free_inv
    | split
    | with_reducible first | apply And.intro | apply mem_swf | apply mmio_swf | apply pct_swf | apply owners_swf | apply peerRgn_swf | apply strands_ok | apply lcores_ok | apply crews_ok | apply fleets_ok | apply cores_len | apply pods_len | apply dies_len | apply zones_len | apply lcores_len | apply fleets_filter
    | simp only [inv_mk_iff]

theorem State.reap_inv {s : State} (hI : s.Inv) : (State.reap s).Inv := by
  unfold State.reap
  repeat' first
    | with_reducible first | assumption | intro _
    | with_reducible first | apply State.dropFleet_inv | apply foldl_inv

theorem State.killNotices_inv {s : State} (hI : s.Inv) : (State.killNotices s).Inv := by
  unfold State.killNotices
  repeat' first
    | with_reducible first | assumption | intro _
    | with_reducible first | apply State.modFrame_inv | apply State.notice_inv | apply foldl_inv

theorem State.dropEntries_inv {s : State} {i : Nat} (hI : s.Inv) : (State.dropEntries s i).Inv := by
  unfold State.dropEntries
  repeat' first
    | with_reducible first | assumption | intro _
    | ((fail_if_no_progress extract_lets +onlyGivenNames u); (first | (have hu : State.Inv u; (on_goal 1 => (unfold u; clear u)); (on_goal 2 => clear_value u)) | ((fail_if_success (have _ : ∀ x, u x = u x := fun _ => rfl)); clear_value u)))
    | (with_reducible apply inv_same; with_reducible assumption)
    | with_reducible first | apply State.dropWait_inv | apply foldl_inv
    | split

theorem State.wakeGroup_inv {s : State} {i : Nat} (hI : s.Inv) : (State.wakeGroup s i).Inv := by
  unfold State.wakeGroup
  repeat' first
    | with_reducible first | assumption | intro _
    | with_reducible first | apply State.finishWait_inv | apply foldl_inv
    | split

theorem State.crewDone_inv {s : State} {i : Nat} (hI : s.Inv) : (State.crewDone s i).Inv := by
  unfold State.crewDone
  repeat' first
    | with_reducible first | assumption | intro _
    | ((fail_if_no_progress extract_lets +onlyGivenNames u); (have hu : State.Inv u; (on_goal 1 => (unfold u; clear u)); (on_goal 2 => clear_value u)))
    | with_reducible first | apply State.dropEntries_inv | apply State.free_inv | apply State.modFleet_inv | apply State.tryClose_inv | apply State.setSib_inv | apply State.killNotices_inv | apply State.reap_inv | apply State.retryAll_inv | apply State.wakeGroup_inv
    | split
    | with_reducible first | apply And.intro | apply mem_swf | apply mmio_swf | apply pct_swf | apply owners_swf | apply peerRgn_swf | apply strands_ok | apply lcores_ok | apply crews_ok | apply fleets_ok | apply cores_len | apply pods_len | apply dies_len | apply zones_len | apply lcores_len | apply crews_kdel
    | simp only [inv_mk_iff]

theorem State.abandonCopies_inv {s : State} {k : Nat} (hI : s.Inv) : PairInvR (State.abandonCopies s k) := by
  unfold State.abandonCopies
  repeat' first
    | with_reducible first | assumption | intro _
    | ((fail_if_no_progress extract_lets +onlyGivenNames u); (first | (have hu : State.Inv u; (on_goal 1 => (unfold u; clear u)); (on_goal 2 => clear_value u)) | (have hu : swf (Strand.ctx u) = true; (on_goal 1 => (unfold u; clear u)); (on_goal 2 => clear_value u)) | ((fail_if_success (have _ : ∀ x, u x = u x := fun _ => rfl)); clear_value u)))
    | (with_reducible apply inv_same; with_reducible assumption)
    | with_reducible first | apply State.finishParts_inv | apply State.modStrand_inv | apply pairR_mk | apply foldl_inv
    | split
    | with_reducible apply Strand.setCbits_swf

theorem State.endStrand_inv {s : State} {k : Nat} (hI : s.Inv) : (State.endStrand s k).Inv := by
  unfold State.endStrand
  repeat' first
    | with_reducible first | assumption | intro _
    | ((fail_if_no_progress extract_lets +onlyGivenNames u); (have hu : State.Inv u; (on_goal 1 => (unfold u; clear u)); (on_goal 2 => clear_value u)))
    | with_reducible first | apply State.drain_inv | apply State.mergeStrand_inv | apply State.clearMarks_inv | apply State.cvLeave_inv | apply State.endHold_inv | apply State.free_inv | apply State.delStrand_inv | apply State.modCrew_inv | apply State.crewDone_inv | apply State.killNotices_inv | apply State.reap_inv
    | split
    | with_reducible apply And.intro

theorem State.stopStrand_inv {s : State} {k : Nat} (hI : s.Inv) : (State.stopStrand s k).Inv := by
  unfold State.stopStrand
  repeat' first
    | with_reducible assumption
    | ((fail_if_no_progress extract_lets +onlyGivenNames u); (have hu : State.Inv u; (on_goal 1 => (unfold u; clear u)); (on_goal 2 => clear_value u)))
    | (with_reducible apply inv_same; (with_reducible first | assumption | apply of_snd))
    | with_reducible first | apply State.abandonCopies_inv | apply State.endStrand_inv
    | split

theorem State.stopCrew_inv {s : State} {i : Nat} (hI : s.Inv) : (State.stopCrew s i).Inv := by
  unfold State.stopCrew
  repeat' first
    | with_reducible first | assumption | intro _
    | ((fail_if_no_progress extract_lets +onlyGivenNames u); (first | (have hu : State.Inv u; (on_goal 1 => (unfold u; clear u)); (on_goal 2 => clear_value u)) | ((fail_if_success (have _ : ∀ x, u x = u x := fun _ => rfl)); clear_value u)))
    | with_reducible first | apply State.retryAll_inv | apply State.dropEntries_inv | apply State.modCrew_inv | apply State.modStrand_inv | apply State.stopStrand_inv | apply foldl_inv
    | split
    | with_reducible apply And.intro

theorem State.stopOne_inv {s : State} {h : Word} (hI : s.Inv) : (State.stopOne s h).Inv := by
  unfold State.stopOne
  repeat' first
    | with_reducible first | assumption | intro _
    | ((fail_if_no_progress extract_lets +onlyGivenNames u); (have hu : State.Inv u; (on_goal 1 => (unfold u; clear u)); (on_goal 2 => clear_value u)))
    | with_reducible first | apply State.modFleet_inv | apply State.closeGroup_inv | apply State.stopCrew_inv | apply State.killNotices_inv | apply State.reap_inv | apply foldl_inv
    | split

theorem State.stopCrewAll_inv {s : State} {i : Nat} (hI : s.Inv) : (State.stopCrewAll s i).Inv := by
  unfold State.stopCrewAll
  repeat' first
    | with_reducible first | assumption | intro _
    | ((fail_if_no_progress extract_lets +onlyGivenNames u); (first | ((fail_if_success (have _ : ∀ x, u x = u x := fun _ => rfl)); clear_value u) | (unfold u; clear u)))
    | with_reducible first | apply State.stopCrew_inv | apply State.stopOne_inv | apply foldl_inv

theorem State.stopFleet_inv {s : State} {h : Word} (hI : s.Inv) : (State.stopFleet s h).Inv := by
  unfold State.stopFleet
  repeat' first
    | with_reducible first | assumption | intro _
    | with_reducible first | apply State.stopOne_inv | apply foldl_inv

theorem State.follow_inv {s : State} {a : Nat} {b : Nat} (hI : s.Inv) : (State.follow s a b).Inv := by
  unfold State.follow
  repeat' first
    | with_reducible assumption
    | with_reducible apply State.deliver_inv
    | split

theorem State.takeSlot_inv {s : State} {k : Nat} {n : Nat} {q : Nat} (hI : s.Inv) : (State.takeSlot s k n q).Inv := by
  unfold State.takeSlot
  repeat' first
    | with_reducible first | assumption | intro _
    | ((fail_if_no_progress extract_lets +onlyGivenNames u); (first | (have hu : State.Inv u; (on_goal 1 => (unfold u; clear u)); (on_goal 2 => clear_value u)) | ((fail_if_success (have _ : ∀ x, u x = u x := fun _ => rfl)); clear_value u)))
    | with_reducible first | apply State.follow_inv | apply State.writeBack_inv | apply State.modStrand_inv | apply State.giveX_inv | apply State.dropIbuf_inv | apply State.ncPoint_inv
    | split

theorem State.setPtr_inv {s : State} {cls : Nat} {q : Nat} (hI : s.Inv) : (State.setPtr s cls q).Inv := by
  unfold State.setPtr
  repeat' first
    | (with_reducible apply inv_same; with_reducible assumption)

theorem State.allocLow_inv {s : State} {d n align : Nat} (h : s.Inv) : OptInvR (s.allocLow d n align) := by
  unfold State.allocLow
  intro p e
  simp only [Option.map_eq_some_iff] at e
  obtain ⟨a, _, rfl⟩ := e
  exact inv_same h

theorem State.seatStore_inv {s : State} {c : Crew} {d : Nat} (h : s.Inv) : OptInvL (s.seatStore c d) := by
  unfold State.seatStore
  extract_lets both
  have hb : ∀ al : State → Nat → Nat → Nat → Option (Nat × State), (∀ s d n a, s.Inv → OptInvR (al s d n a)) → OptInvL (both al) := by
    intro al ha p e
    dsimp only [both] at e
    simp only [Option.bind_eq_some_iff] at e
    obtain ⟨r, hr, e⟩ := e
    have h1 : r.2.Inv := ha _ _ _ _ h r hr
    split at e
    · simp only [Option.some.injEq] at e; rw [← e]; exact h1
    · simp only [Option.map_eq_some_iff] at e
      obtain ⟨a, he, rfl⟩ := e
      exact ha _ _ _ _ h1 a he
  have hA := hb State.alloc fun s d n a hs => State.alloc_inv hs
  have hL := hb State.allocLow fun s d n a hs => State.allocLow_inv hs
  clear_value both
  split
  · rename_i e; exact fun p e' => hA p (by rw [e]; exact e')
  · rename_i e; exact fun p e' => hL p (by rw [e]; exact e')
  · intro p e
    simp only [Option.bind_eq_some_iff, Option.map_eq_some_iff] at e
    obtain ⟨a, ha, r, hr, rfl⟩ := e
    exact State.allocLow_inv (State.allocLow_inv h a ha) r hr

theorem State.seatStore_crew {s s' : State} {c c' : Crew} {d : Nat} (e : s.seatStore c d = some (s', c')) :
    c'.stage = c.stage ∧ c'.acc = c.acc := by
  unfold State.seatStore at e
  extract_lets both at e
  have hb : ∀ al (p : State × Crew), both al = some p → p.2.stage = c.stage ∧ p.2.acc = c.acc := by
    intro al p e
    dsimp only [both] at e
    simp only [Option.bind_eq_some_iff] at e
    obtain ⟨r, _, e⟩ := e
    split at e
    · simp only [Option.some.injEq] at e; rw [← e]; exact ⟨rfl, rfl⟩
    · simp only [Option.map_eq_some_iff] at e
      obtain ⟨a, _, rfl⟩ := e
      exact ⟨rfl, rfl⟩
  clear_value both
  split at e
  · rename_i h; exact hb _ _ (h.trans e)
  · rename_i h; exact hb _ _ (h.trans e)
  · simp only [Option.bind_eq_some_iff, Option.map_eq_some_iff, Prod.mk.injEq] at e
    obtain ⟨a, ha, r, hr, _, rfl⟩ := e
    exact ⟨rfl, rfl⟩

theorem State.seat_inv {s : State} {c : Crew} {q : Nat} {l : List Nat} (h : s.Inv) : OptInvL (s.seat c q l) := by
  have h1 : s.fresh.2.Inv := inv_same h
  unfold State.seat
  split
  rename_i e
  rw [e] at h1
  extract_lets c1
  intro p e
  simp only [Option.map_eq_some_iff] at e
  obtain ⟨r, he, rfl⟩ := e
  refine State.setPtr_inv (s := r.1) ?_
  split at he
  · simp only [Option.some.injEq] at he; rw [← he]; exact h1
  · exact State.seatStore_inv h1 r he

theorem State.seat_crew {s s' : State} {c c' : Crew} {q : Nat} {l : List Nat} (e : s.seat c q l = some (s', c')) :
    c'.stage = c.stage ∧ c'.acc = c.acc := by
  unfold State.seat at e
  split at e
  extract_lets c1 at e
  simp only [Option.map_eq_some_iff, Prod.mk.injEq] at e
  obtain ⟨r, he, _, rfl⟩ := e
  split at he
  · simp only [Option.some.injEq] at he; rw [← he]; exact ⟨rfl, rfl⟩
  · exact State.seatStore_crew (c := { c with cores := l, order := _ }) (s' := r.1) (c' := r.2) he

theorem State.seatFirst_inv {s : State} {c : Crew} {qs : List Nat} (h : s.Inv) : OptInvL (s.seatFirst c qs) := by
  intro p e
  obtain ⟨q, _, hq⟩ := List.exists_of_findSome?_eq_some e
  simp only [Option.bind_eq_some_iff, Option.map_eq_some_iff] at hq
  obtain ⟨l, _, r, hr, rfl⟩ := hq
  exact State.seat_inv h r hr

theorem State.seatFirst_crew {s s' : State} {c c' : Crew} {qs l : List Nat} (e : s.seatFirst c qs = some (s', c', l)) :
    c'.stage = c.stage ∧ c'.acc = c.acc := by
  obtain ⟨q, _, hq⟩ := List.exists_of_findSome?_eq_some e
  simp only [Option.bind_eq_some_iff, Option.map_eq_some_iff, Prod.mk.injEq] at hq
  obtain ⟨l, _, r, hr, _, rfl, _⟩ := hq
  exact State.seat_crew (s' := r.1) hr

theorem State.place_inv {s : State} {x : State.Cand} (h : s.Inv) : OptInv (s.place x) := by
  unfold State.place
  split
  · split
    · exact opt_none
    · rename_i c hc
      split
      · exact opt_none
      · rename_i s1 c1 l e
        have h1 : s1.Inv := State.seatFirst_inv h _ e
        have hs := State.seatFirst_crew e
        have hw := crew_swf h hc
        rw [← hs.1, ← hs.2] at hw
        split
        · exact opt_some (State.putCrew_inv h1 hw.1 hw.2)
        · exact opt_some (foldl_inv (State.putCrew_inv h1 hw.1 hw.2) fun s t hs => State.takeSlot_inv hs)
  · split
    · exact opt_none
    · rename_i f hf
      split
      rename_i s1 e1
      have h1 : s1.Inv := of_pairR e1 (State.fresh_inv h)
      extract_lets c
      split
      · exact opt_none
      · rename_i s2 c2 l e2
        have h2 : s2.Inv := State.seatFirst_inv h1 _ e2
        have hc := State.seatFirst_crew e2
        extract_lets s5 s4
        have h3 : s5.Inv := State.modFleet_inv h2 fun t ht => ht
        clear_value s5
        have h4 : s4.Inv := State.putCrew_inv h3 (by rw [hc.1]; exact nil_swf) (by rw [hc.2]; exact nil_swf)
        clear_value s4
        exact opt_some (foldl_inv h4 fun s t hs =>
          State.fillLines_inv (State.takeSlot_inv (State.putStrand_inv hs (newStrand_swf (fleet_swf h hf)))))

theorem State.offer_inv {s : State} (hI : s.Inv) : (State.offer s).Inv := by
  unfold State.offer
  repeat' first
    | with_reducible first | assumption | intro _
    | (with_reducible apply inv_same; with_reducible refine of_opt (by assumption) ?_)
    | with_reducible first | apply State.place_inv | apply findSome_inv
    | split

/-! ### Operations of Copies.lean -/

theorem State.copyPage_inv {s : State} {k : AccKind} {va : Word} (hI : s.Inv) : Res.Inv (State.copyPage s k va) := by
  unfold State.copyPage
  repeat' first
    | with_reducible assumption
    | ((fail_if_no_progress extract_lets +onlyGivenNames u); (first | (have hu : State.Inv u; (on_goal 1 => (unfold u; clear u)); (on_goal 2 => clear_value u)) | ((fail_if_success (have _ : ∀ x, u x = u x := fun _ => rfl)); clear_value u)))
    | (with_reducible apply inv_same; (with_reducible first | refine of_ok (by assumption) ?_ | refine of_trap (by assumption) ?_ | refine of_stall (by assumption) ?_))
    | with_reducible first | apply State.translate_inv | apply res_ok | apply res_trap | apply res_stall
    | split

theorem State.copyPages_inv {s : State} {k : AccKind} {l : List (Nat × Nat)} (h : s.Inv) : Res.Inv (s.copyPages k l) := by
  induction l generalizing s with
  | nil => exact h
  | cons r rest ih =>
    unfold State.copyPages
    exact Res.bind_inv (State.copyPage_inv h) fun s d hs => Res.bind_inv (ih hs) fun s d' hs' => hs'

theorem State.storeBytes_inv {s : State} {va : Word} {data : List Byte} (hI : s.Inv) : Res.Inv (State.storeBytes s va data) := by
  unfold State.storeBytes
  repeat' first
    | with_reducible first | assumption | intro _
    | with_reducible first | apply Res.bind_inv | apply State.locate_inv | apply State.openParts_inv | apply State.writeParts_inv | apply State.dropNc_inv | apply res_ok | apply res_trap
    | split

theorem State.copyGo_inv {s : State} {t : Strand} {rd : Reg} {q : CopyPlan} (hI : s.Inv) : OutInv (State.copyGo s t rd q) := by
  unfold State.copyGo
  repeat' first
    | with_reducible first | assumption | intro _
    | ((fail_if_no_progress extract_lets +onlyGivenNames u); (first | (have hu : State.Inv u; (on_goal 1 => (unfold u; clear u)); (on_goal 2 => clear_value u)) | ((fail_if_success (have _ : ∀ x, u x = u x := fun _ => rfl)); clear_value u) | (unfold u; clear u)))
    | (with_reducible apply inv_same; (with_reducible first | assumption | apply of_snd))
    | with_reducible first | apply State.stall_inv | apply Res.run_inv | apply Res.bind_inv | apply State.copyPages_inv | apply State.status_inv | apply State.request_inv | apply State.served_inv | apply State.openPartsAs_inv | apply State.dropNc_inv | apply State.homeSeen_inv | apply State.classify_inv | apply State.storeBytes_inv | apply State.mergeWhere_inv | apply State.deliver_inv | apply State.dirLine_inv | apply State.fresh_inv | apply State.modStrand_inv | apply State.copyDone_inv | apply res_ok | apply foldl_inv
    | split
    | with_reducible first | apply Strand.setCbits_swf | apply And.intro | apply batAdd_swf | apply mem_swf | apply mmio_swf | apply pct_swf | apply owners_swf | apply peerRgn_swf | apply strands_ok | apply lcores_ok | apply crews_ok | apply fleets_ok | apply cores_len | apply pods_len | apply dies_len | apply zones_len | apply lcores_len
    | simp only [inv_mk_iff]

theorem State.transfer_inv {s : State} {f : CopyForm} {dstStage : Bool} {srcStage : Bool} {rd : Reg} {a : Reg} {b : Reg} {c : Reg} (hI : s.Inv) : OutInv (State.transfer s f dstStage srcStage rd a b c) := by
  unfold State.transfer
  repeat' first
    | with_reducible first | assumption | intro _
    | ((fail_if_no_progress extract_lets +onlyGivenNames u); (first | ((fail_if_success (have _ : ∀ x, u x = u x := fun _ => rfl)); clear_value u) | (unfold u; clear u)))
    | with_reducible first | apply State.onCrew_inv | apply State.illegal_inv | apply State.status_inv | apply State.raise_inv | apply State.copyGo_inv
    | split

theorem State.rowCopy_inv {s : State} {gath : Bool} {f : RowForm} {rd : Reg} {a : Reg} {b : Reg} {c : Reg} {x : Reg} {y : Reg} (hI : s.Inv) : OutInv (State.rowCopy s gath f rd a b c x y) := by
  unfold State.rowCopy
  repeat' first
    | with_reducible first | assumption | intro _
    | ((fail_if_no_progress extract_lets +onlyGivenNames u); (first | ((fail_if_success (have _ : ∀ x, u x = u x := fun _ => rfl)); clear_value u) | (unfold u; clear u)))
    | with_reducible first | apply State.onCrew_inv | apply State.illegal_inv | apply State.status_inv | apply State.raise_inv | apply State.copyGo_inv
    | split

theorem State.fillCopy_inv {s : State} {dstStage : Bool} {rd : Reg} {a : Reg} {b : Reg} {c : Reg} (hI : s.Inv) : OutInv (State.fillCopy s dstStage rd a b c) := by
  unfold State.fillCopy
  repeat' first
    | with_reducible first | assumption | intro _
    | ((fail_if_no_progress extract_lets +onlyGivenNames u); ((fail_if_success (have _ : ∀ x, u x = u x := fun _ => rfl)); clear_value u))
    | with_reducible first | apply State.onCrew_inv | apply State.status_inv | apply State.raise_inv | apply State.copyGo_inv
    | split

theorem execCopyGs_inv {f : CopyForm} {rd : Reg} {a : Reg} {b : Reg} {c : Reg} {s : State} (hI : s.Inv) : OutInv (execCopyGs f rd a b c s) := by
  unfold execCopyGs
  repeat' first
    | with_reducible assumption
    | with_reducible apply State.transfer_inv

theorem execCopySg_inv {f : CopyForm} {rd : Reg} {a : Reg} {b : Reg} {c : Reg} {s : State} (hI : s.Inv) : OutInv (execCopySg f rd a b c s) := by
  unfold execCopySg
  repeat' first
    | with_reducible assumption
    | with_reducible apply State.transfer_inv

theorem execCopyGg_inv {f : CopyForm} {rd : Reg} {a : Reg} {b : Reg} {c : Reg} {s : State} (hI : s.Inv) : OutInv (execCopyGg f rd a b c s) := by
  unfold execCopyGg
  repeat' first
    | with_reducible assumption
    | with_reducible apply State.transfer_inv

theorem execCopySs_inv {f : CopyForm} {rd : Reg} {a : Reg} {b : Reg} {c : Reg} {s : State} (hI : s.Inv) : OutInv (execCopySs f rd a b c s) := by
  unfold execCopySs
  repeat' first
    | with_reducible assumption
    | with_reducible apply State.transfer_inv

theorem execCopyGath_inv {f : RowForm} {rd : Reg} {a : Reg} {b : Reg} {c : Reg} {x : Reg} {y : Reg} {s : State} (hI : s.Inv) : OutInv (execCopyGath f rd a b c x y s) := by
  unfold execCopyGath
  repeat' first
    | with_reducible assumption
    | with_reducible apply State.rowCopy_inv

theorem execCopyScat_inv {f : RowForm} {rd : Reg} {a : Reg} {b : Reg} {c : Reg} {x : Reg} {y : Reg} {s : State} (hI : s.Inv) : OutInv (execCopyScat f rd a b c x y s) := by
  unfold execCopyScat
  repeat' first
    | with_reducible assumption
    | with_reducible apply State.rowCopy_inv

theorem execCopyFillS_inv {rd : Reg} {a : Reg} {b : Reg} {c : Reg} {s : State} (hI : s.Inv) : OutInv (execCopyFillS rd a b c s) := by
  unfold execCopyFillS
  repeat' first
    | with_reducible assumption
    | with_reducible apply State.fillCopy_inv

theorem execCopyFillG_inv {rd : Reg} {a : Reg} {b : Reg} {c : Reg} {s : State} (hI : s.Inv) : OutInv (execCopyFillG rd a b c s) := by
  unfold execCopyFillG
  repeat' first
    | with_reducible assumption
    | with_reducible apply State.fillCopy_inv

theorem execCpSeal_inv {rd : Reg} {s : State} (hI : s.Inv) : OutInv (execCpSeal rd s) := by
  unfold execCpSeal
  repeat' first
    | with_reducible first | assumption | intro _
    | with_reducible first | apply State.onStrand_inv | apply State.stall_inv | apply State.status_inv | apply State.modCur_inv
    | split
    | with_reducible apply batSeal_swf

theorem execCpWait_inv {rd : Reg} {a : Reg} {s : State} (hI : s.Inv) : OutInv (execCpWait rd a s) := by
  unfold execCpWait
  repeat' first
    | with_reducible first | assumption | intro _
    | with_reducible first | apply State.onStrand_inv | apply State.stall_inv | apply State.status_inv | apply State.modCur_inv | apply State.acquire_inv
    | split

theorem execCpStop_inv {rd : Reg} {s : State} (hI : s.Inv) : OutInv (execCpStop rd s) := by
  unfold execCpStop
  repeat' first
    | with_reducible first | assumption | intro _
    | ((fail_if_no_progress extract_lets +onlyGivenNames u); (have hu : PairInvR u; (on_goal 1 => (unfold u; clear u)); (on_goal 2 => clear_value u)))
    | (with_reducible apply inv_same; with_reducible apply of_snd)
    | with_reducible first | apply State.onStrand_inv | apply State.abandonCopies_inv | apply State.status_inv | apply State.acquire_inv

theorem execCopyDescriptorReadback_inv {k : Nat} {s : State} (hI : s.Inv) : OutInv (execCopyDescriptorReadback k s) := by
  unfold execCopyDescriptorReadback
  repeat' first
    | with_reducible first | assumption | intro _
    | ((fail_if_no_progress extract_lets +onlyGivenNames u); (first | (have hu : State.Inv u; (on_goal 1 => (unfold u; clear u)); (on_goal 2 => clear_value u)) | ((fail_if_success (have _ : ∀ x, u x = u x := fun _ => rfl)); clear_value u)))
    | (with_reducible apply inv_same; with_reducible assumption)
    | with_reducible first | apply State.modStrand_inv | apply State.copyDone_inv | apply out_next
    | split
    | with_reducible apply Strand.setCbits_swf

theorem execCopyBegin_inv {core : Nat} {s : State} (hI : s.Inv) : OutInv (execCopyBegin core s) := by
  unfold execCopyBegin
  repeat' first
    | with_reducible assumption
    | ((fail_if_no_progress extract_lets +onlyGivenNames u); (first | ((fail_if_success (have _ : ∀ x, u x = u x := fun _ => rfl)); clear_value u) | (unfold u; clear u)))
    | (with_reducible apply inv_same; with_reducible assumption)
    | with_reducible first | apply State.modPod_inv | apply out_next
    | split

theorem execCopyChunkWrite_inv {id : Nat} {chunk : Nat} {s : State} (hI : s.Inv) : OutInv (execCopyChunkWrite id chunk s) := by
  unfold execCopyChunkWrite
  repeat' first
    | with_reducible assumption
    | with_reducible first | apply State.chunkWrite_inv | apply out_next
    | split

/-! ### Operations of Strands.lean -/

theorem State.emptySlot_inv {s : State} {t : Strand} {i : Nat} (hI : s.Inv) : (State.emptySlot s t i).Inv := by
  unfold State.emptySlot
  repeat' first
    | with_reducible first | assumption | intro _
    | with_reducible first | apply State.dropFleet_inv | apply State.modStrand_inv
    | with_reducible apply Strand.setCw_swf

theorem State.joinNow_inv {s : State} {t : Strand} {i : Nat} (hI : s.Inv) : OptInvL (State.joinNow s t i) := by
  unfold State.joinNow
  repeat' first
    | with_reducible assumption
    | with_reducible first | apply State.emptySlot_inv | apply optL_some | apply optL_none
    | split

theorem State.emptySlots_inv {s : State} {t : Strand} (hI : s.Inv) : (State.emptySlots s t).Inv := by
  unfold State.emptySlots
  repeat' first
    | with_reducible first | assumption | intro _
    | with_reducible first | apply State.emptySlot_inv | apply foldl_inv
    | split

theorem State.testCond_inv {s : State} {t : Strand} {c : Cond} (hI : s.Inv) : Res.Inv (State.testCond s t c) := by
  unfold State.testCond
  repeat' first
    | with_reducible first | assumption | intro _
    | (with_reducible apply inv_same; with_reducible refine of_optL (by assumption) ?_)
    | with_reducible first | apply Res.bind_inv | apply State.load_inv | apply State.ncPoint_inv | apply State.joinNow_inv | apply State.emptySlots_inv | apply res_ok
    | split

theorem State.parkForm_inv {s : State} {t : Strand} {rd : Reg} {c : Cond} {mem : Bool} (hI : s.Inv) : OutInv (State.parkForm s t rd c mem) := by
  unfold State.parkForm
  repeat' first
    | with_reducible first | assumption | intro _
    | ((fail_if_no_progress extract_lets +onlyGivenNames u); ((fail_if_success (have _ : ∀ x, u x = u x := fun _ => rfl)); clear_value u))
    | with_reducible first | apply Res.run_inv | apply State.testCond_inv | apply State.status_inv | apply State.await_inv | apply out_next
    | split

theorem State.parkTest_inv {s : State} {k : Nat} (hI : s.Inv) : (State.parkTest s k).Inv := by
  unfold State.parkTest
  repeat' first
    | with_reducible first | assumption | intro _
    | ((fail_if_no_progress extract_lets +onlyGivenNames u); (first | ((fail_if_success (have _ : ∀ x, u x = u x := fun _ => rfl)); clear_value u) | (unfold u; clear u)))
    | (with_reducible apply inv_same; (with_reducible first | assumption | refine of_ok (by assumption) ?_ | refine of_trap (by assumption) ?_ | refine of_stall (by assumption) ?_))
    | with_reducible first | apply State.testCond_inv | apply State.finishWait_inv | apply State.modStrand_inv | apply State.trap_inv | apply State.dropWait_inv
    | split
    | with_reducible first | apply And.intro | apply mem_swf | apply mmio_swf | apply pct_swf | apply owners_swf | apply peerRgn_swf | apply strands_ok | apply lcores_ok | apply crews_ok | apply fleets_ok | apply cores_len | apply pods_len | apply dies_len | apply zones_len | apply lcores_len
    | simp only [inv_mk_iff]

theorem State.homeEnd_inv {s : State} {t : Strand} {c : Crew} (hI : s.Inv) : (State.homeEnd s t c).Inv := by
  unfold State.homeEnd
  repeat' first
    | with_reducible first | assumption | intro _
    | ((fail_if_no_progress extract_lets +onlyGivenNames u); (first | (have hu : State.Inv u; (on_goal 1 => (unfold u; clear u)); (on_goal 2 => clear_value u)) | (have hu : swf (Strand.ctx u) = true; (on_goal 1 => (unfold u; clear u)); (on_goal 2 => clear_value u))))
    | with_reducible first | apply State.drain_inv | apply State.mergeStrand_inv | apply State.endStrand_inv | apply State.writeBack_inv | apply State.modStrand_inv | apply State.notice_inv
    | split
    | with_reducible apply Strand.setCw_swf

theorem State.parkOn_inv {s : State} {k : Nat} {c : Cond} {rd : Reg} (hI : s.Inv) : OptInv (State.parkOn s k c rd) := by
  unfold State.parkOn
  repeat' first
    | with_reducible first | assumption | intro _
    | ((fail_if_no_progress extract_lets +onlyGivenNames u); (unfold u; clear u))
    | (with_reducible apply inv_same; (with_reducible first | assumption | refine of_optR (by assumption) ?_))
    | with_reducible first | apply State.asAgent_inv | apply State.trap_inv | apply State.dropWait_inv | apply State.fetchLines_inv | apply State.alloc_inv | apply State.clearMarks_inv | apply State.hwWrite_inv | apply State.writeBack_inv | apply State.modStrand_inv | apply State.releaseSlot_inv | apply opt_some | apply opt_none | apply optR_none
    | split
    | with_reducible first | apply sset_swf | apply Strand.setCw_swf | apply parkedCtx_swf
    | simp only [inv_mk_iff]

theorem State.homeGo_inv {s : State} {k : Nat} (hI : s.Inv) : (State.homeGo s k).Inv := by
  unfold State.homeGo
  repeat' first
    | with_reducible first | assumption | intro _
    | ((fail_if_no_progress extract_lets +onlyGivenNames u); (have hu : State.Inv u; (on_goal 1 => (unfold u; clear u)); (on_goal 2 => clear_value u)))
    | (with_reducible apply inv_same; with_reducible refine of_opt (by assumption) ?_)
    | with_reducible first | apply State.parkOn_inv | apply State.modStrand_inv | apply State.writeBack_inv | apply State.clearMarks_inv | apply State.releaseSlot_inv | apply State.ncPoint_inv | apply State.emptySlots_inv | apply State.homeEnd_inv
    | split

theorem State.depart_inv {s : State} {i : Nat} {rd : Reg} {k : Nat} {d : Nat} {prio : Nat} {cls : Nat} {tag : Word} {satp : Word} {old : Option Strand} (hI : s.Inv) : (State.depart s i rd k d prio cls tag satp old).Inv := by
  unfold State.depart
  repeat' first
    | with_reducible assumption
    | ((fail_if_no_progress extract_lets +onlyGivenNames u); (first | (have hu : swf u = true; (on_goal 1 => (unfold u; clear u)); (on_goal 2 => clear_value u)) | (unfold u; clear u)))
    | (with_reducible apply inv_same; with_reducible apply of_snd)
    | with_reducible first | apply State.fresh_inv | apply State.dropIbuf_inv | apply State.putCrew_inv | apply State.putStrand_inv | apply State.writeBack_inv | apply State.trap_inv
    | split
    | with_reducible first | apply nil_swf | apply And.intro | apply goImage_swf | apply mem_swf | apply mmio_swf | apply pct_swf | apply owners_swf | apply peerRgn_swf | apply strands_ok | apply lcores_ok | apply crews_ok | apply fleets_ok | apply cores_len | apply pods_len | apply dies_len | apply zones_len | apply lcores_len
    | simp only [inv_mk_iff]

theorem State.goL_inv {s : State} {i : Nat} {rd : Reg} {a : Reg} (hI : s.Inv) : OutInv (State.goL s i rd a) := by
  unfold State.goL
  repeat' first
    | with_reducible assumption
    | ((fail_if_no_progress extract_lets +onlyGivenNames u); (first | (have hu : swf (LCore.ctx u) = true ∧ swf (LCore.csr u) = true; (on_goal 1 => (unfold u; clear u)); (on_goal 2 => clear_value u)) | ((fail_if_success (have _ : ∀ x, u x = u x := fun _ => rfl)); clear_value u) | (unfold u; clear u)))
    | (with_reducible apply inv_same; with_reducible refine of_optR (by assumption) ?_)
    | with_reducible first | apply State.raise_inv | apply State.status_inv | apply State.depart_inv | apply State.drain_inv | apply State.mergeLines_inv | apply State.alloc_inv | apply out_next
    | split
    | with_reducible first | apply And.intro | exact (lcoreAt_swf (by assumption)).1 | exact (lcoreAt_swf (by assumption)).2

theorem State.goW_inv {s : State} {t : Strand} {c : Crew} {rd : Reg} {a : Reg} (hI : s.Inv) : OutInv (State.goW s t c rd a) := by
  unfold State.goW
  repeat' first
    | with_reducible first | assumption | intro _
    | ((fail_if_no_progress extract_lets +onlyGivenNames u); ((fail_if_success (have _ : ∀ x, u x = u x := fun _ => rfl)); clear_value u))
    | (with_reducible apply inv_same; (with_reducible first | apply of_snd | refine of_next (by assumption) ?_))
    | with_reducible first | apply State.status_inv | apply State.stall_inv | apply State.fresh_inv | apply State.modStrand_inv | apply State.clearMarks_inv | apply State.releaseSlot_inv | apply State.writeBack_inv | apply State.modCrew_inv | apply out_next
    | split
    | with_reducible first | apply Strand.setCbits_swf | apply And.intro

theorem State.withSeed_inv {s : State} {t : Strand} {b : Nat} {g : State → Strand → Out} (hI : s.Inv) (h_g : ∀ x0 x1, x0.Inv → OutInv (g x0 x1)) : OutInv (State.withSeed s t b g) := by
  unfold State.withSeed
  repeat' first
    | with_reducible first | assumption | intro _
    | with_reducible first | apply h_g | apply State.withLines_inv | apply State.onStrand_inv

theorem State.newFleet_inv {s : State} {t : Strand} {c : Crew} {i : Nat} {b : Nat} {g : Option Group} (hI : s.Inv) : OptInvL (State.newFleet s t c i b g) := by
  unfold State.newFleet
  repeat' first
    | with_reducible first | assumption | intro _
    | (with_reducible apply inv_same; (with_reducible first | apply of_snd | refine of_optR (by assumption) ?_))
    | with_reducible first | apply State.alloc_inv | apply State.newHandle_inv | apply State.fresh_inv | apply State.modStrand_inv | apply optL_some | apply optL_none
    | split
    | with_reducible first | apply Strand.setCw_swf | apply And.intro | apply forkSeed_swf | apply mem_swf | apply mmio_swf | apply pct_swf | apply owners_swf | apply peerRgn_swf | apply strands_ok | apply lcores_ok | apply crews_ok | apply fleets_ok | apply cores_len | apply pods_len | apply dies_len | apply zones_len | apply lcores_len | apply fleets_snoc
    | simp only [inv_mk_iff]

theorem State.onSlot_inv {s : State} {rd : Reg} {a : Reg} {g : Strand → Nat → Out} (hI : s.Inv) (h_g : ∀ x0 x1, OutInv (g x0 x1)) : OutInv (State.onSlot s rd a g) := by
  unfold State.onSlot
  repeat' first
    | with_reducible first | assumption | intro _
    | with_reducible first | apply h_g | apply State.onStrand_inv | apply State.status_inv
    | split

theorem execMgGo_inv {rd : Reg} {a : Reg} {s : State} (hI : s.Inv) : OutInv (execMgGo rd a s) := by
  unfold execMgGo
  repeat' first
    | with_reducible first | assumption | intro _
    | with_reducible first | apply State.onAny_inv | apply State.goL_inv | apply State.onCrew_inv | apply State.goW_inv
    | split

theorem execMgHome_inv {s : State} (hI : s.Inv) : OutInv (execMgHome s) := by
  unfold execMgHome
  repeat' first
    | with_reducible first | assumption | intro _
    | with_reducible first | apply State.onStrand_inv | apply State.illegal_inv | apply State.homeGo_inv | apply State.modStrand_inv | apply out_next
    | split

theorem execFkFlt_inv {rd : Reg} {a : Reg} {b : Reg} {s : State} (hI : s.Inv) : OutInv (execFkFlt rd a b s) := by
  unfold execFkFlt
  repeat' first
    | with_reducible first | assumption | intro _
    | ((fail_if_no_progress extract_lets +onlyGivenNames u); ((fail_if_success (have _ : ∀ x, u x = u x := fun _ => rfl)); clear_value u))
    | (with_reducible apply inv_same; with_reducible refine of_optL (by assumption) ?_)
    | with_reducible first | apply State.onCrew_inv | apply State.status_inv | apply Res.run_inv | apply State.load_inv | apply State.withSeed_inv | apply State.newFleet_inv | apply State.release_inv
    | split

theorem execFkJoin_inv {rd : Reg} {a : Reg} {s : State} (hI : s.Inv) : OutInv (execFkJoin rd a s) := by
  unfold execFkJoin
  repeat' first
    | with_reducible first | assumption | intro _
    | with_reducible first | apply State.onSlot_inv | apply State.parkForm_inv

theorem execFkJoinTry_inv {rd : Reg} {a : Reg} {s : State} (hI : s.Inv) : OutInv (execFkJoinTry rd a s) := by
  unfold execFkJoinTry
  repeat' first
    | with_reducible first | assumption | intro _
    | (with_reducible apply inv_same; with_reducible refine of_optL (by assumption) ?_)
    | with_reducible first | apply State.onSlot_inv | apply State.joinNow_inv | apply State.status_inv | apply State.acquire_inv
    | split

theorem execFkStop_inv {rd : Reg} {a : Reg} {s : State} (hI : s.Inv) : OutInv (execFkStop rd a s) := by
  unfold execFkStop
  repeat' first
    | with_reducible first | assumption | intro _
    | with_reducible first | apply State.onSlot_inv | apply State.status_inv | apply State.stopFleet_inv

theorem State.suspendFleet_inv {s : State} {h : Word} (hI : s.Inv) : (State.suspendFleet s h).Inv := by
  unfold State.suspendFleet
  repeat' first
    | with_reducible first | assumption | intro _
    | ((fail_if_no_progress extract_lets +onlyGivenNames u); (have hu : State.Inv u; (on_goal 1 => (unfold u; clear u)); (on_goal 2 => clear_value u)))
    | with_reducible apply State.modFleet_inv
    | split
    | with_reducible first | apply And.intro | apply mem_swf | apply mmio_swf | apply pct_swf | apply owners_swf | apply peerRgn_swf | apply strands_ok | apply lcores_ok | apply crews_ok | apply fleets_ok | apply cores_len | apply pods_len | apply dies_len | apply zones_len | apply lcores_len | apply crews_map
    | simp only [inv_mk_iff]

theorem State.rewatch_inv {s : State} {f : Strand → Strand} (hf : ∀ t : Strand, swf t.ctx = true → swf (f t).ctx = true) (hI : s.Inv) :
    (s.rewatch f).Inv := by
  unfold State.rewatch
  refine foldl_inv hI fun s t hs => ?_
  dsimp only
  split
  · exact State.hwWrite_inv (State.modStrand_inv hs hf)
  · exact State.modStrand_inv hs hf

theorem retestWoken_swf {s : State} {t : Strand} (h : swf t.ctx = true) : swf (s.retestWoken t).ctx = true := by
  unfold State.retestWoken
  split
  · split
    · exact retest_swf h
    · exact h
  · split
    · exact retest_swf h
    · exact h
  · exact h

theorem State.resumeFleet_inv {s : State} {h : Word} (hI : s.Inv) : (s.resumeFleet h).Inv := by
  unfold State.resumeFleet
  split
  · split
    · dsimp only
      refine State.rewatch_inv (fun t ht => ?_) (State.modFleet_inv (State.mergeWhere_inv hI) fun _ hf => hf)
      split
      · exact retestWoken_swf ht
      · exact ht
    · exact hI
  · exact hI

theorem execFkStopPre_inv {rd : Reg} {a : Reg} {s : State} (hI : s.Inv) : OutInv (execFkStopPre rd a s) := by
  unfold execFkStopPre
  repeat' first
    | with_reducible first | assumption | intro _
    | with_reducible first | apply State.onSlot_inv | apply State.status_inv | apply State.suspendFleet_inv | apply foldl_inv

theorem execFkStopRsm_inv {rd : Reg} {a : Reg} {s : State} (hI : s.Inv) : OutInv (execFkStopRsm rd a s) := by
  unfold execFkStopRsm
  repeat' first
    | with_reducible first | assumption | intro _
    | with_reducible first | apply State.onSlot_inv | apply State.status_inv | apply State.resumeFleet_inv | apply foldl_inv

theorem execFkQry_inv {rd : Reg} {a : Reg} {b : Reg} {s : State} (hI : s.Inv) : OutInv (execFkQry rd a b s) := by
  unfold execFkQry
  repeat' first
    | with_reducible first | assumption | intro _
    | with_reducible first | apply State.onStrand_inv | apply State.status_inv
    | split

theorem execThParkMem_inv {rd : Reg} {a : Reg} {b : Reg} {s : State} (hI : s.Inv) : OutInv (execThParkMem rd a b s) := by
  unfold execThParkMem
  repeat' first
    | with_reducible first | assumption | intro _
    | with_reducible first | apply State.onStrand_inv | apply State.status_inv | apply State.raise_inv | apply State.parkForm_inv
    | split

theorem execThParkBat_inv {rd : Reg} {a : Reg} {s : State} (hI : s.Inv) : OutInv (execThParkBat rd a s) := by
  unfold execThParkBat
  repeat' first
    | with_reducible first | assumption | intro _
    | with_reducible first | apply State.onStrand_inv | apply State.status_inv | apply State.parkForm_inv
    | split

theorem execThParkTm_inv {rd : Reg} {a : Reg} {s : State} (hI : s.Inv) : OutInv (execThParkTm rd a s) := by
  unfold execThParkTm
  repeat' first
    | with_reducible first | assumption | intro _
    | with_reducible first | apply State.onStrand_inv | apply State.status_inv | apply State.parkForm_inv
    | split

theorem State.yield_inv {s : State} {t : Strand} (hI : s.Inv) : OutInv (State.yield s t) := by
  unfold State.yield
  repeat' first
    | with_reducible assumption
    | with_reducible first | apply State.await_inv | apply out_next

theorem execThYield_inv {s : State} (hI : s.Inv) : OutInv (execThYield s) := by
  unfold execThYield
  repeat' first
    | with_reducible first | assumption | intro _
    | with_reducible first | apply State.onStrand_inv | apply State.status_inv | apply State.yield_inv
    | split

theorem execThPause_inv {imm : BitVec 9} {s : State} (hI : s.Inv) : OutInv (execThPause imm s) := by
  unfold execThPause
  repeat' first
    | with_reducible first | assumption | intro _
    | with_reducible first | apply State.onStrand_inv | apply State.next_inv | apply State.await_inv | apply out_next
    | split

/-! ### Operations of Preempt.lean -/

theorem State.leaveWait_inv {s : State} {t : Strand} (hI : s.Inv) : (State.leaveWait s t).Inv := by
  unfold State.leaveWait
  repeat' first
    | with_reducible first | assumption | intro _
    | with_reducible first | apply State.finishWith_inv | apply State.dropWait_inv | apply id_inv
    | split

theorem State.preemptStart_inv {s : State} {i : Nat} (hI : s.Inv) : (State.preemptStart s i).Inv := by
  unfold State.preemptStart
  repeat' first
    | with_reducible first | assumption | intro _
    | ((fail_if_no_progress extract_lets +onlyGivenNames u); (first | (have hu : State.Inv u; (on_goal 1 => (unfold u; clear u)); (on_goal 2 => clear_value u)) | ((fail_if_success (have _ : ∀ x, u x = u x := fun _ => rfl)); clear_value u)))
    | with_reducible first | apply State.cancelCrew_inv | apply State.leaveWait_inv | apply State.clearMarks_inv | apply State.endHold_inv | apply State.mergeStrand_inv | apply State.modStrand_inv | apply State.modCrew_inv | apply foldl_inv
    | split
    | with_reducible apply And.intro

theorem State.preemptFrom_inv {s : State} {c : Crew} (hI : s.Inv) : (State.preemptFrom s c).Inv := by
  unfold State.preemptFrom
  repeat' first
    | with_reducible first | assumption | intro _
    | ((fail_if_no_progress extract_lets +onlyGivenNames u); ((fail_if_success (have _ : ∀ x, u x = u x := fun _ => rfl)); clear_value u))
    | with_reducible first | apply State.preemptStart_inv | apply foldl_inv

theorem State.addPoison_inv {s : State} {pa : Nat} {n : Nat} (hI : s.Inv) : (State.addPoison s pa n).Inv := by
  unfold State.addPoison
  repeat' first
    | (with_reducible apply inv_same; with_reducible assumption)

theorem State.saveOut_inv {s : State} {c : Crew} (hI : s.Inv) : (State.saveOut s c).Inv := by
  unfold State.saveOut
  repeat' first
    | with_reducible first | assumption | intro _
    | ((fail_if_no_progress extract_lets +onlyGivenNames u); (first | (have hu : State.Inv u; (on_goal 1 => (unfold u; clear u)); (on_goal 2 => clear_value u)) | ((fail_if_success (have _ : ∀ x, u x = u x := fun _ => rfl)); clear_value u)))
    | with_reducible first | apply State.hwWrite_inv | apply State.addPoison_inv | apply foldl_inv
    | split

theorem State.bumpRsm_inv {s : State} {k : Nat} (hI : s.Inv) : (State.bumpRsm s k).Inv := by
  unfold State.bumpRsm
  repeat' first
    | with_reducible first | assumption | intro _
    | with_reducible first | apply State.modStrand_inv | apply State.fetchLine_inv
    | split
    | with_reducible apply Strand.setCbits_swf

theorem State.seatStrand_inv {s : State} {c : Crew} {t : Strand} (hI : s.Inv) : OptInv (State.seatStrand s c t) := by
  unfold State.seatStrand
  repeat' first
    | with_reducible first | assumption | intro _
    | with_reducible first | apply State.takeSlot_inv | apply map_inv

theorem State.recallNow_inv {s : State} {k : Nat} (hI : s.Inv) : (State.recallNow s k).Inv := by
  unfold State.recallNow
  repeat' first
    | with_reducible first | assumption | intro _
    | ((fail_if_no_progress extract_lets +onlyGivenNames u); (first | (have hu : State.Inv u; (on_goal 1 => (unfold u; clear u)); (on_goal 2 => clear_value u)) | (have hu : swf (Strand.ctx u) = true; (on_goal 1 => (unfold u; clear u)); (on_goal 2 => clear_value u)) | ((fail_if_success (have _ : ∀ x, u x = u x := fun _ => rfl)); clear_value u)))
    | with_reducible first | apply State.clearMarks_inv | apply State.cancelStrand_inv | apply State.leaveWait_inv | apply State.free_inv | apply State.modStrand_inv | apply State.giveX_inv | apply State.writeBack_inv | apply State.releaseSlot_inv | apply State.modCrew_inv | apply State.stopStrand_inv | apply State.notice_inv
    | split
    | with_reducible first | apply Strand.setCw_swf | apply And.intro

theorem State.recallThread_inv {s : State} {k : Nat} (hI : s.Inv) : (State.recallThread s k).Inv := by
  unfold State.recallThread
  repeat' first
    | with_reducible first | assumption | intro _
    | with_reducible first | apply State.modStrand_inv | apply State.recallNow_inv
    | split

theorem State.withdraw_inv {s : State} {c : Crew} {cause : Nat} {grace : Nat} (hI : s.Inv) : (State.withdraw s c cause grace).Inv := by
  unfold State.withdraw
  repeat' first
    | with_reducible first | assumption | intro _
    | ((fail_if_no_progress extract_lets +onlyGivenNames u); (first | ((fail_if_success (have _ : ∀ x, u x = u x := fun _ => rfl)); clear_value u) | (unfold u; clear u)))
    | split
    | with_reducible first | apply And.intro | apply mem_swf | apply mmio_swf | apply pct_swf | apply owners_swf | apply peerRgn_swf | apply strands_ok | apply lcores_ok | apply crews_ok | apply fleets_ok | apply cores_len | apply pods_len | apply dies_len | apply zones_len | apply lcores_len | apply crews_map
    | simp only [inv_mk_iff]

theorem State.withdrawPod_inv {s : State} {q : Nat} {cause : Nat} {grace : Nat} (hI : s.Inv) : (State.withdrawPod s q cause grace).Inv := by
  unfold State.withdrawPod
  repeat' first
    | with_reducible first | assumption | intro _
    | with_reducible first | apply State.withdraw_inv | apply foldl_inv

theorem execCrewPreempt_inv {crew : Nat} {s : State} (hI : s.Inv) : OutInv (execCrewPreempt crew s) := by
  unfold execCrewPreempt
  repeat' first
    | with_reducible assumption
    | with_reducible first | apply State.preemptStart_inv | apply out_next
    | split

theorem execWithdrawalGraceExpiry_inv {crew : Nat} {s : State} (hI : s.Inv) : OutInv (execWithdrawalGraceExpiry crew s) := by
  unfold execWithdrawalGraceExpiry
  repeat' first
    | with_reducible assumption
    | with_reducible first | apply State.preemptFrom_inv | apply out_next
    | split

theorem execCrewSaveComplete_inv {crew : Nat} {s : State} (hI : s.Inv) : OutInv (execCrewSaveComplete crew s) := by
  unfold execCrewSaveComplete
  repeat' first
    | with_reducible first | assumption | intro _
    | ((fail_if_no_progress extract_lets +onlyGivenNames u); (first | (have hu : State.Inv u; (on_goal 1 => (unfold u; clear u)); (on_goal 2 => clear_value u)) | ((fail_if_success (have _ : ∀ x, u x = u x := fun _ => rfl)); clear_value u)))
    | with_reducible first | apply State.saveOut_inv | apply State.releaseSlot_inv | apply State.modCrew_inv | apply State.recallNow_inv | apply out_next | apply foldl_inv
    | split
    | with_reducible first | apply nil_swf | apply And.intro

theorem execCrewRestore_inv {crew : Nat} {s : State} (hI : s.Inv) : OutInv (execCrewRestore crew s) := by
  unfold execCrewRestore
  refine out_next ?_
  split
  · exact hI
  · rename_i c hc
    refine iteInduction (motive := State.Inv) (fun _ => hI) fun _ => ?_
    extract_lets +onlyGivenNames s1
    have h1 : s1.Inv := State.mergeLines_inv hI
    clear_value s1
    extract_lets +onlyGivenNames c' s2
    have hc' : swf c'.stage = true ∧ swf c'.acc = true := by
      unfold c'; split
      · exact crew_swf hI hc
      · exact ⟨saveIn_swfS, saveIn_swfA⟩
    have h2 : s2.Inv := State.putCrew_inv h1 hc'.1 hc'.2
    clear_value s2
    refine foldl_inv h2 fun s t hs => ?_
    split
    · rename_i e
      exact State.bumpRsm_inv (of_opt e (State.seatStrand_inv hs))
    · exact State.modStrand_inv (State.bumpRsm_inv hs) fun t ht => ht

/-! ### Operations of Steps.lean -/

theorem State.moveOne_inv {s : State} {c : Crew} (h : s.Inv) (hc : swf c.stage = true ∧ swf c.acc = true) :
    OptInvL (s.moveOne c) := by
  unfold State.moveOne
  split
  · exact optL_none
  · refine mapL_inv fun x e => ?_
    obtain ⟨s1, c1, l⟩ := x
    have hs := State.seatFirst_crew e
    exact State.putCrew_inv (State.seatFirst_inv h _ e) (by rw [hs.1]; exact hc.1) (by rw [hs.2]; exact hc.2)

theorem State.moveOne_crew {s s' : State} {c c' : Crew} (e : s.moveOne c = some (s', c')) :
    c'.stage = c.stage ∧ c'.acc = c.acc := by
  unfold State.moveOne at e
  split at e
  · simp at e
  · simp only [Option.map_eq_some_iff, Prod.mk.injEq] at e
    obtain ⟨⟨s1, c1, l⟩, e, -, rfl⟩ := e
    exact State.seatFirst_crew e

theorem State.resumeSlot_inv {s : State} {c : Crew} {t : Strand} (h : s.Inv) (hc : swf c.stage = true ∧ swf c.acc = true) :
    OptInv (s.resumeSlot c t) := by
  unfold State.resumeSlot
  split
  · rename_i e; exact opt_some (of_opt e (State.seatStrand_inv h))
  · split
    · rename_i e; exact State.seatStrand_inv (of_optL e (State.moveOne_inv h hc))
    · exact opt_none

theorem State.parkedCond_inv {s : State} {t : Strand} (h : s.Inv) : OptInvL (s.parkedCond t) := by
  have hw : ∀ b : Bool, OptInvL (if b then some (s, (some 0 : Option Word)) else none) := by
    intro b; split
    · exact optL_some h
    · exact optL_none
  unfold State.parkedCond
  split
  · exact optL_some h
  · extract_lets when
    split
    · exact hw _
    · exact hw _
    · exact hw _
    · exact hw _
    · exact mapL_inv fun x e => of_optL (a := x.2) e (State.joinNow_inv h)
    · split
      · split
        · split
          · exact optL_some h
          · exact optL_none
        · exact optL_some h
      · exact optL_some h
    · split
      · exact optL_some h
      · exact optL_none

theorem State.releasedBy_inv {s : State} {t : Strand} (hI : s.Inv) : (State.releasedBy s t).Inv := by
  unfold State.releasedBy
  repeat' first
    | with_reducible assumption
    | ((fail_if_no_progress extract_lets +onlyGivenNames u); ((fail_if_success (have _ : ∀ x, u x = u x := fun _ => rfl)); clear_value u))
    | with_reducible apply State.sawHome_inv
    | split

theorem State.resumeParked_inv {s : State} {c : Crew} {t : Strand} (hI : s.Inv) (hc : swf c.stage = true ∧ swf c.acc = true) : (State.resumeParked s c t).Inv := by
  unfold State.resumeParked
  repeat' first
    | with_reducible first | assumption | intro _
    | ((fail_if_no_progress extract_lets +onlyGivenNames u); (first | (have hu : State.Inv u; (on_goal 1 => (unfold u; clear u)); (on_goal 2 => clear_value u)) | (have hu : swf (Strand.ctx u) = true; (on_goal 1 => (unfold u; clear u)); (on_goal 2 => clear_value u)) | ((fail_if_success (have _ : ∀ x, u x = u x := fun _ => rfl)); clear_value u)))
    | (with_reducible apply inv_same; (with_reducible first | refine of_opt (by assumption) ?_ | refine of_optL (by assumption) ?_))
    | with_reducible first | apply State.parkedCond_inv | apply State.resumeSlot_inv | apply State.fillLines_inv | apply State.modStrand_inv | apply State.free_inv | apply State.bumpRsm_inv | apply State.releasedBy_inv | apply State.asAgent_inv | apply State.retired_inv | apply State.modCur_inv | apply State.homeGo_inv | apply State.fetchLines_inv
    | split
    | with_reducible apply Strand.setCw_swf

theorem State.resumeForwarded_inv {s : State} {c : Crew} {t : Strand} (hI : s.Inv) (hc : swf c.stage = true ∧ swf c.acc = true) : (State.resumeForwarded s c t).Inv := by
  unfold State.resumeForwarded
  repeat' first
    | with_reducible first | assumption | intro _
    | ((fail_if_no_progress extract_lets +onlyGivenNames u); (first | (have hu : State.Inv u; (on_goal 1 => (unfold u; clear u)); (on_goal 2 => clear_value u)) | (have hu : swf (Strand.ctx u) = true; (on_goal 1 => (unfold u; clear u)); (on_goal 2 => clear_value u)) | ((fail_if_success (have _ : ∀ x, u x = u x := fun _ => rfl)); clear_value u)))
    | (with_reducible apply inv_same; (with_reducible first | assumption | refine of_opt (by assumption) ?_))
    | with_reducible first | apply State.resumeSlot_inv | apply State.restoreImage_inv | apply State.fetchLines_inv | apply State.modStrand_inv | apply State.fetchLine_inv | apply State.sretStrand_inv | apply State.bumpRsm_inv | apply State.asAgent_inv | apply State.trap_inv | apply State.leaveSset_inv
    | split
    | with_reducible first | apply Strand.setCw_swf | apply Strand.setCbits_swf

theorem State.sendMsi_inv {s : State} {a : Nat} {d : Nat} (hI : s.Inv) : (State.sendMsi s a d).Inv := by
  unfold State.sendMsi
  repeat' first
    | with_reducible assumption
    | (with_reducible apply inv_same; with_reducible assumption)
    | with_reducible apply State.hwWrite_inv
    | split

theorem State.ringPost_inv {s : State} {r : Nat} {n : Nat} {data : List Byte} (hI : s.Inv) : OptInv (State.ringPost s r n data) := by
  unfold State.ringPost
  repeat' first
    | with_reducible assumption
    | ((fail_if_no_progress extract_lets +onlyGivenNames u); (first | (have hu : State.Inv u; (on_goal 1 => (unfold u; clear u)); (on_goal 2 => clear_value u)) | ((fail_if_success (have _ : ∀ x, u x = u x := fun _ => rfl)); clear_value u)))
    | with_reducible first | apply State.hwPut_inv | apply State.setReg_inv | apply State.sendMsi_inv | apply opt_some | apply opt_none
    | split

theorem State.postNotice_inv {s : State} {d : Nat} (hI : s.Inv) : (State.postNotice s d).Inv := by
  unfold State.postNotice
  repeat' first
    | with_reducible assumption
    | ((fail_if_no_progress extract_lets +onlyGivenNames u); (first | (have hu : State.Inv u; (on_goal 1 => (unfold u; clear u)); (on_goal 2 => clear_value u)) | ((fail_if_success (have _ : ∀ x, u x = u x := fun _ => rfl)); clear_value u)))
    | (with_reducible apply inv_same; with_reducible refine of_opt (by assumption) ?_)
    | with_reducible first | apply State.ringPost_inv | apply State.modFrame_inv
    | split

theorem State.postForward_inv {s : State} {d : Nat} (hI : s.Inv) : (State.postForward s d).Inv := by
  unfold State.postForward
  repeat' first
    | with_reducible assumption
    | ((fail_if_no_progress extract_lets +onlyGivenNames u); (have hu : State.Inv u; (on_goal 1 => (unfold u; clear u)); (on_goal 2 => clear_value u)))
    | (with_reducible apply inv_same; with_reducible refine of_opt (by assumption) ?_)
    | with_reducible first | apply State.ringPost_inv | apply State.drain_inv | apply State.mergeStrand_inv | apply State.notice_inv
    | split

theorem State.recallOp_inv {s : State} {d : Nat} {v : Word} (hI : s.Inv) : (State.recallOp s d v).Inv := by
  unfold State.recallOp
  repeat' first
    | with_reducible assumption
    | with_reducible apply State.recallThread_inv
    | split

theorem State.killOp_inv {s : State} {d : Nat} {v : Word} (hI : s.Inv) : (State.killOp s d v).Inv := by
  unfold State.killOp
  repeat' first
    | with_reducible first | assumption | intro _
    | ((fail_if_no_progress extract_lets +onlyGivenNames u); (first | (have hu : State.Inv u; (on_goal 1 => (unfold u; clear u)); (on_goal 2 => clear_value u)) | ((fail_if_success (have _ : ∀ x, u x = u x := fun _ => rfl)); clear_value u)))
    | (with_reducible apply inv_same; with_reducible assumption)
    | with_reducible first | apply State.modFrame_inv | apply State.stopOne_inv | apply State.stopStrand_inv | apply State.recallThread_inv | apply State.killNotices_inv | apply foldl_inv
    | split

theorem State.framefreeOp_inv {s : State} {d : Nat} {v : Word} (hI : s.Inv) : (State.framefreeOp s d v).Inv := by
  unfold State.framefreeOp
  repeat' first
    | with_reducible assumption
    | ((fail_if_no_progress extract_lets +onlyGivenNames u); (have hu : State.Inv u; (on_goal 1 => (unfold u; clear u)); (on_goal 2 => clear_value u)))
    | (with_reducible apply inv_same; with_reducible assumption)
    | with_reducible first | apply State.reap_inv | apply State.free_inv
    | split

theorem State.fwdrsmOp_inv {s : State} {d : Nat} {v : Word} (hI : s.Inv) : (State.fwdrsmOp s d v).Inv := by
  unfold State.fwdrsmOp
  repeat' first
    | with_reducible first | assumption | intro _
    | ((fail_if_no_progress extract_lets +onlyGivenNames u); (first | (have hu : State.Inv u; (on_goal 1 => (unfold u; clear u)); (on_goal 2 => clear_value u)) | ((fail_if_success (have _ : ∀ x, u x = u x := fun _ => rfl)); clear_value u)))
    | (with_reducible apply inv_same; with_reducible assumption)
    | with_reducible first | apply State.free_inv | apply State.modStrand_inv
    | split

theorem execPauseExpiry_inv {k : Nat} {s : State} (hI : s.Inv) : OutInv (execPauseExpiry k s) := by
  unfold execPauseExpiry
  repeat' first
    | with_reducible first | assumption | intro _
    | with_reducible first | apply State.finishWith_inv | apply out_next | apply id_inv
    | split

theorem execParkSpinTest_inv {k : Nat} {s : State} (hI : s.Inv) : OutInv (execParkSpinTest k s) := by
  unfold execParkSpinTest
  repeat' first
    | with_reducible assumption
    | with_reducible first | apply State.parkTest_inv | apply out_next

theorem State.watchFull_inv {s : State} {c : Cond} (hI : s.Inv) : PairInvR (s.watchFull c) := by
  unfold State.watchFull
  split <;> first | exact State.drawBit_inv hI | exact hI

theorem execStrandPark_inv {k : Nat} {s : State} (hI : s.Inv) : OutInv (execStrandPark k s) := by
  unfold execStrandPark
  extract_lets ended u
  apply out_next
  cases ended s with
  | none => exact hI
  | some _ =>
    have hu : u.Inv := State.parkTest_inv hI
    clear_value u
    dsimp only
    cases ended u with
    | none => exact hu
    | some x =>
      dsimp only
      have hq : PairInvR (u.watchFull x.1) := State.watchFull_inv hu
      generalize u.watchFull x.1 = q at hq ⊢
      obtain ⟨full, s1⟩ := q
      have h1 : s1.Inv := hq
      dsimp only
      split
      · rename_i e2
        split at e2
        · cases e2
        · exact State.parkOn_inv h1 _ e2
      · exact State.modStrand_inv h1 fun t ht => ht

theorem execWatchRetest_inv {line : Nat} {s : State} (hI : s.Inv) : OutInv (execWatchRetest line s) := by
  unfold execWatchRetest
  repeat' first
    | with_reducible first | assumption | intro _
    | ((fail_if_no_progress extract_lets +onlyGivenNames u); (have hu : State.Inv u; (on_goal 1 => (unfold u; clear u)); (on_goal 2 => clear_value u)))
    | with_reducible first | apply State.mergeLines_inv | apply State.rewatch_inv | apply out_next
    | split
    | with_reducible apply retest_swf

theorem execStrandResume_inv {k : Nat} {s : State} (hI : s.Inv) : OutInv (execStrandResume k s) := by
  unfold execStrandResume
  repeat' first
    | with_reducible assumption
    | (with_reducible apply inv_same; with_reducible refine of_opt (by assumption) ?_)
    | with_reducible first | apply State.resumeParked_inv | apply State.resumeForwarded_inv | apply State.seatStrand_inv | apply out_next
    | split
    | with_reducible first | apply And.intro | exact (crewOf_swf (by assumption) (by assumption)).1 | exact (crewOf_swf (by assumption) (by assumption)).2

theorem execPlacementOffer_inv {s : State} (hI : s.Inv) : OutInv (execPlacementOffer s) := by
  unfold execPlacementOffer
  repeat' first
    | with_reducible assumption
    | with_reducible first | apply State.offer_inv | apply out_next

theorem execContextLineFetch_inv {k : Nat} {line : Nat} {s : State} (hI : s.Inv) : OutInv (execContextLineFetch k line s) := by
  unfold execContextLineFetch
  repeat' first
    | with_reducible assumption
    | with_reducible first | apply State.fetchLine_inv | apply out_next
    | split

theorem execHomeNoticePost_inv {d : Nat} {s : State} (hI : s.Inv) : OutInv (execHomeNoticePost d s) := by
  unfold execHomeNoticePost
  repeat' first
    | with_reducible assumption
    | with_reducible first | apply State.postNotice_inv | apply out_next

theorem execStrandStop_inv {k : Nat} {s : State} (hI : s.Inv) : OutInv (execStrandStop k s) := by
  unfold execStrandStop
  repeat' first
    | with_reducible assumption
    | with_reducible first | apply State.stopStrand_inv | apply out_next
    | split

theorem execRecallWrite_inv {d : Nat} {v : Word} {s : State} (hI : s.Inv) : OutInv (execRecallWrite d v s) := by
  unfold execRecallWrite
  repeat' first
    | with_reducible assumption
    | with_reducible first | apply State.recallOp_inv | apply State.setReg_inv | apply out_next

theorem execRecallTakesEffect_inv {k : Nat} {s : State} (hI : s.Inv) : OutInv (execRecallTakesEffect k s) := by
  unfold execRecallTakesEffect
  repeat' first
    | with_reducible assumption
    | with_reducible first | apply State.recallNow_inv | apply out_next
    | split

theorem execKillWrite_inv {d : Nat} {v : Word} {s : State} (hI : s.Inv) : OutInv (execKillWrite d v s) := by
  unfold execKillWrite
  repeat' first
    | with_reducible assumption
    | with_reducible first | apply State.killOp_inv | apply State.setReg_inv | apply out_next

theorem execFramefreeWrite_inv {d : Nat} {v : Word} {s : State} (hI : s.Inv) : OutInv (execFramefreeWrite d v s) := by
  unfold execFramefreeWrite
  repeat' first
    | with_reducible assumption
    | with_reducible first | apply State.framefreeOp_inv | apply State.setReg_inv | apply out_next

theorem execLoadDataReturn_inv {k : Nat} {reg : Nat} {s : State} (hI : s.Inv) : OutInv (execLoadDataReturn k reg s) := by
  unfold execLoadDataReturn
  repeat' first
    | with_reducible first | assumption | intro _
    | with_reducible first | apply State.modStrand_inv | apply out_next

end Sys2Proof.Machine
end

