-- ==== Sys2Proof/Laws/InvSystem.lean ====
section
/-! SUPPORT. Each operation keeps the invariant: links, system forms, debug, power, boot, convergence, registers and vector forms. -/

set_option linter.all false

namespace Sys2Proof.Machine

/-! ### Operations of Links.lean -/

theorem State.engOpen_inv {s : State} {pa : Nat} {n : Nat} {write : Bool} {who : optParam Nat noCache} (hI : s.Inv) : (State.engOpen s pa n write who).Inv := by
  unfold State.engOpen
  repeat' first
    | with_reducible first | assumption | intro _
    | with_reducible first | apply State.imageRead_inv | apply State.dirTouch_inv | apply State.classify_inv | apply State.patOpen_inv | apply State.mergeLines_inv | apply foldl_inv

theorem State.regionOpen_inv {s : State} {w : Word} (hI : s.Inv) : (State.regionOpen s w).Inv := by
  unfold State.regionOpen
  repeat' first
    | with_reducible assumption
    | with_reducible apply State.engOpen_inv

theorem State.engRead_inv {s : State} {l : List Piece} {who : optParam Nat noCache} (hI : s.Inv) : PairInvL (State.engRead s l who) := by
  unfold State.engRead
  repeat' first
    | with_reducible first | assumption | intro _
    | ((fail_if_no_progress extract_lets +onlyGivenNames u); (have hu : State.Inv u; (on_goal 1 => (unfold u; clear u)); (on_goal 2 => clear_value u)))
    | with_reducible first | apply State.engOpen_inv | apply pairL_mk | apply foldl_inv

theorem State.engWrite_inv {s : State} {tag who : Nat} {l : List Piece} {d : List Marked} (h : s.Inv) :
    (s.engWrite tag l d who).Inv := by
  induction l generalizing s d with
  | nil => exact h
  | cons p t ih => exact ih (inv_same (State.poke_inv (State.engOpen_inv h)))

theorem State.engAdd_inv {s : State} {tag : Nat} {ty : Nat} {n : Nat} {pa : Nat} {v : Nat} {bad : Bool} (hI : s.Inv) : (State.engAdd s tag ty n pa v bad).Inv := by
  unfold State.engAdd
  repeat' first
    | with_reducible assumption
    | ((fail_if_no_progress extract_lets +onlyGivenNames u); (first | (have hu : State.Inv u; (on_goal 1 => (unfold u; clear u)); (on_goal 2 => clear_value u)) | ((fail_if_success (have _ : ∀ x, u x = u x := fun _ => rfl)); clear_value u)))
    | with_reducible first | apply State.engOpen_inv | apply State.engWrite_inv

theorem State.countBytes_inv {s : State} {n : Nat} (hI : s.Inv) : (State.countBytes s n).Inv := by
  unfold State.countBytes
  repeat' first
    | with_reducible assumption
    | with_reducible apply State.setReg_inv

theorem State.descEnd_inv {s : State} {d : Desc} {st : Nat} (hI : s.Inv) : (State.descEnd s d st).Inv := by
  unfold State.descEnd
  repeat' first
    | with_reducible assumption
    | ((fail_if_no_progress extract_lets +onlyGivenNames u); (have hu : State.Inv u; (on_goal 1 => (unfold u; clear u)); (on_goal 2 => clear_value u)))
    | (with_reducible apply inv_same; with_reducible assumption)
    | with_reducible first | apply State.drain_inv | apply State.engWrite_inv | apply State.engAdd_inv
    | split

theorem State.ringFree_inv {s : State} {rid : Nat} (hI : s.Inv) : (State.ringFree s rid).Inv := by
  unfold State.ringFree
  repeat' first
    | (with_reducible apply inv_same; with_reducible assumption)

theorem State.ringCheck_inv {s : State} {rid : Nat} (hI : s.Inv) : (State.ringCheck s rid).Inv := by
  unfold State.ringCheck
  repeat' first
    | with_reducible assumption
    | ((fail_if_no_progress extract_lets +onlyGivenNames u); (first | (have hu : State.Inv u; (on_goal 1 => (unfold u; clear u)); (on_goal 2 => clear_value u)) | ((fail_if_success (have _ : ∀ x, u x = u x := fun _ => rfl)); clear_value u)))
    | (with_reducible apply inv_same; with_reducible assumption)
    | with_reducible first | apply State.ringFree_inv | apply State.descEnd_inv
    | split

theorem State.descBreak_inv {s : State} {d : Desc} (hI : s.Inv) : (State.descBreak s d).Inv := by
  unfold State.descBreak
  repeat' first
    | with_reducible assumption
    | with_reducible first | apply State.descEnd_inv | apply State.ringFree_inv
    | split

theorem State.peerPostOp_inv {s : State} {p : PeerPost} (hI : s.Inv) : (State.peerPostOp s p).Inv := by
  unfold State.peerPostOp
  repeat' first
    | with_reducible assumption
    | (with_reducible apply inv_same; with_reducible assumption)
    | with_reducible apply State.ringCheck_inv
    | split

theorem State.peerUnpostOp_inv {s : State} {p : Nat} {rid : Nat} (hI : s.Inv) : (State.peerUnpostOp s p rid).Inv := by
  unfold State.peerUnpostOp
  repeat' first
    | with_reducible assumption
    | (with_reducible apply inv_same; with_reducible assumption)
    | with_reducible apply State.descBreak_inv
    | split

theorem State.descLeft_inv {s : State} {d : Desc} {pa : Nat} {left : List (Nat × Nat)} {fin : State → State} (hI : s.Inv) (h_fin : ∀ x0, x0.Inv → (fin x0).Inv) : (State.descLeft s d pa left fin).Inv := by
  unfold State.descLeft
  repeat' first
    | with_reducible assumption
    | (with_reducible apply inv_same; with_reducible refine of_pairR (by assumption) ?_)
    | with_reducible first | apply h_fin | apply State.drawBit_inv
    | split

theorem State.descPick_inv {s : State} {left : List (Nat × Nat)} (hI : s.Inv) : PairInvL (State.descPick s left) := by
  unfold State.descPick
  split
  rename_i s1 e1
  split
  rename_i s2 e2
  split
  rename_i s3 e3
  split
  rename_i s4 e4
  have h4 : s4.Inv := of_pairR e4 (State.drawNat_inv (of_pairR e3 (State.drawNat_inv (of_pairR e2 (State.drawNat_inv
    (of_pairR e1 (State.drawBit_inv hI)))))))
  split
  · exact pairL_mk h4
  · exact pairL_mk h4

theorem State.descMove_inv {s : State} {d : Desc} {pa : Nat} {r : Nat × Nat} (hI : s.Inv) : (State.descMove s d pa r).Inv := by
  unfold State.descMove
  repeat' first
    | with_reducible first | assumption | intro _
    | ((fail_if_no_progress extract_lets +onlyGivenNames u); (first | (have hu : State.Inv u; (on_goal 1 => (unfold u; clear u)); (on_goal 2 => clear_value u)) | ((fail_if_success (have _ : ∀ x, u x = u x := fun _ => rfl)); clear_value u)))
    | (with_reducible apply inv_same; with_reducible apply of_fst)
    | with_reducible first | apply State.engRead_inv | apply State.engWrite_inv | apply State.engAdd_inv | apply State.countBytes_inv | apply foldl_inv
    | split

theorem State.ringMove_inv {s : State} {d : Desc} {c : Nat} (hI : s.Inv) : (State.ringMove s d c).Inv := by
  unfold State.ringMove
  repeat' first
    | with_reducible assumption
    | ((fail_if_no_progress extract_lets +onlyGivenNames u); ((fail_if_success (have _ : ∀ x, u x = u x := fun _ => rfl)); clear_value u))
    | (with_reducible apply inv_same; with_reducible apply of_fst)
    | with_reducible first | apply State.engRead_inv | apply State.countBytes_inv | apply State.engWrite_inv

theorem State.descRun_inv {s : State} {d : Desc} (hI : s.Inv) : (State.descRun s d).Inv := by
  unfold State.descRun
  repeat' first
    | with_reducible first | assumption | intro _
    | ((fail_if_no_progress extract_lets +onlyGivenNames u); (first | (have hu : State.Inv u; (on_goal 1 => (unfold u; clear u)); (on_goal 2 => clear_value u)) | ((fail_if_success (have _ : ∀ x, u x = u x := fun _ => rfl)); clear_value u)))
    | (with_reducible apply inv_same; with_reducible apply of_fst)
    | with_reducible first | apply State.descEnd_inv | apply State.regionOpen_inv | apply State.descPick_inv | apply State.descLeft_inv | apply State.descMove_inv | apply foldl_inv
    | split

theorem State.ringRun_inv {s : State} {d : Desc} (hI : s.Inv) : (State.ringRun s d).Inv := by
  unfold State.ringRun
  repeat' first
    | with_reducible first | assumption | intro _
    | (with_reducible apply inv_same; with_reducible apply of_fst)
    | with_reducible first | apply State.descEnd_inv | apply State.ringFree_inv | apply State.descPick_inv | apply State.descLeft_inv | apply State.ringMove_inv | apply foldl_inv
    | split

theorem State.unanswered_inv {s : State} {p : Nat} (hI : s.Inv) : (State.unanswered s p).Inv := by
  unfold State.unanswered
  repeat' first
    | with_reducible first | assumption | intro _
    | ((fail_if_no_progress extract_lets +onlyGivenNames u); (have hu : State.Inv u; (on_goal 1 => (unfold u; clear u)); (on_goal 2 => clear_value u)))
    | (with_reducible apply inv_same; with_reducible assumption)
    | with_reducible first | apply State.asAgent_inv | apply State.trap_inv | apply State.trapL_inv | apply foldl_inv
    | split

theorem State.peerGone_inv {s : State} {p : Nat} (hI : s.Inv) : (State.peerGone s p).Inv := by
  unfold State.peerGone
  repeat' first
    | with_reducible first | assumption | intro _
    | ((fail_if_no_progress extract_lets +onlyGivenNames u); (first | (have hu : State.Inv u; (on_goal 1 => (unfold u; clear u)); (on_goal 2 => clear_value u)) | ((fail_if_success (have _ : ∀ x, u x = u x := fun _ => rfl)); clear_value u)))
    | (with_reducible apply inv_same; (with_reducible first | assumption | refine of_pairR (by assumption) ?_))
    | with_reducible first | apply State.unanswered_inv | apply State.drawBit_inv | apply State.descBreak_inv | apply State.setReg_inv | apply foldl_inv
    | split

theorem State.peerHere_inv {s : State} {p : Nat} (hI : s.Inv) : (State.peerHere s p).Inv := by
  unfold State.peerHere
  repeat' first
    | with_reducible assumption
    | ((fail_if_no_progress extract_lets +onlyGivenNames u); ((fail_if_success (have _ : ∀ x, u x = u x := fun _ => rfl)); clear_value u))
    | with_reducible apply State.setReg_inv
    | split

theorem State.snoopAdd_inv {s : State} {p : Nat} {pa : Nat} {n : Nat} {write : Bool} (hI : s.Inv) : (State.snoopAdd s p pa n write).Inv := by
  unfold State.snoopAdd
  repeat' first
    | (with_reducible apply inv_same; with_reducible assumption)

theorem State.clPostOp_inv {s : State} {isRing : Bool} {rd : Reg} {a : Reg} (hI : s.Inv) : OutInv (State.clPostOp s isRing rd a) := by
  unfold State.clPostOp
  repeat' first
    | with_reducible first | assumption | intro _
    | ((fail_if_no_progress extract_lets +onlyGivenNames u); (first | (have hu : State.Inv u; (on_goal 1 => (unfold u; clear u)); (on_goal 2 => clear_value u)) | ((fail_if_success (have _ : ∀ x, u x = u x := fun _ => rfl)); clear_value u) | (unfold u; clear u)))
    | (with_reducible apply inv_same; (with_reducible first | refine of_next (by assumption) ?_ | refine of_pairR (by assumption) ?_))
    | with_reducible first | apply State.onStrand_inv | apply State.status_inv | apply Res.run_inv | apply State.load_inv | apply Res.bind_inv | apply State.copyPages_inv | apply State.store_inv | apply State.release_inv | apply State.fresh_inv | apply State.ringCheck_inv | apply out_next | apply res_ok
    | split

theorem State.clLine_inv {s : State} {k : AccKind} {va : Word} (hI : s.Inv) : Res.Inv (State.clLine s k va) := by
  unfold State.clLine
  repeat' first
    | with_reducible first | assumption | intro _
    | with_reducible first | apply Res.bind_inv | apply State.locate_inv | apply res_ok | apply res_trap
    | split

theorem State.clPlace_inv {s : State} {w : Word} {n fl : Nat} (hI : s.Inv) : PairInvL (s.clPlace w n fl) := by
  have h1 : (s.regionOpen w).Inv := State.regionOpen_inv hI
  unfold State.clPlace
  split
  · exact pairL_mk hI
  · generalize s.regionOpen w = u at h1
    dsimp only
    split <;> exact pairL_mk h1

theorem execClPost_inv {rd : Reg} {a : Reg} {s : State} (hI : s.Inv) : OutInv (execClPost rd a s) := by
  unfold execClPost
  repeat' first
    | with_reducible assumption
    | with_reducible apply State.clPostOp_inv

theorem execClRing_inv {rd : Reg} {a : Reg} {s : State} (hI : s.Inv) : OutInv (execClRing rd a s) := by
  unfold execClRing
  repeat' first
    | with_reducible assumption
    | with_reducible apply State.clPostOp_inv

theorem execClPut_inv {rd : Reg} {a : Reg} {b : Reg} {s : State} (hI : s.Inv) : OutInv (execClPut rd a b s) := by
  unfold execClPut
  repeat' first
    | with_reducible first | assumption | intro _
    | ((fail_if_no_progress extract_lets +onlyGivenNames u); (have hu : State.Inv u; (on_goal 1 => (unfold u; clear u)); (on_goal 2 => clear_value u)))
    | (with_reducible apply inv_same; with_reducible refine of_pairL (by assumption) ?_)
    | with_reducible first | apply State.onStrand_inv | apply State.raise_inv | apply State.status_inv | apply Res.run_inv | apply State.clLine_inv | apply State.openParts_inv | apply State.clPlace_inv | apply State.stall_inv | apply State.dropNc_inv | apply State.acquire_inv | apply State.engWrite_inv | apply State.release_inv
    | split

theorem execClGet_inv {rd : Reg} {a : Reg} {b : Reg} {s : State} (hI : s.Inv) : OutInv (execClGet rd a b s) := by
  unfold execClGet
  repeat' first
    | with_reducible first | assumption | intro _
    | (with_reducible apply inv_same; (with_reducible first | apply of_fst | refine of_pairL (by assumption) ?_))
    | with_reducible first | apply State.onStrand_inv | apply State.raise_inv | apply State.status_inv | apply Res.run_inv | apply State.clLine_inv | apply State.clPlace_inv | apply State.stall_inv | apply State.openParts_inv | apply State.engRead_inv | apply State.release_inv | apply State.acquire_inv | apply State.writeParts_inv | apply State.dropNc_inv
    | split

theorem execClSig_inv {rd : Reg} {a : Reg} {b : Reg} {s : State} (hI : s.Inv) : OutInv (execClSig rd a b s) := by
  unfold execClSig
  repeat' first
    | with_reducible first | assumption | intro _
    | (with_reducible apply inv_same; with_reducible refine of_pairL (by assumption) ?_)
    | with_reducible first | apply State.onStrand_inv | apply State.status_inv | apply State.clPlace_inv | apply State.stall_inv | apply State.acquire_inv | apply State.engAdd_inv | apply State.release_inv
    | split

theorem execClWait_inv {rd : Reg} {a : Reg} {b : Reg} {s : State} (hI : s.Inv) : OutInv (execClWait rd a b s) := by
  unfold execClWait
  repeat' first
    | with_reducible first | assumption | intro _
    | with_reducible first | apply State.onStrand_inv | apply State.raise_inv | apply State.parkForm_inv
    | split

theorem execClWaitTry_inv {rd : Reg} {a : Reg} {b : Reg} {s : State} (hI : s.Inv) : OutInv (execClWaitTry rd a b s) := by
  unfold execClWaitTry
  repeat' first
    | with_reducible first | assumption | intro _
    | with_reducible first | apply State.onStrand_inv | apply State.raise_inv | apply Res.run_inv | apply State.load_inv | apply State.status_inv | apply State.acquire_inv
    | split

theorem execClQry_inv {rd : Reg} {a : Reg} {s : State} (hI : s.Inv) : OutInv (execClQry rd a s) := by
  unfold execClQry
  repeat' first
    | with_reducible first | assumption | intro _
    | with_reducible first | apply State.onStrand_inv | apply State.status_inv

theorem execGateOpen_inv {id : Nat} {s : State} (hI : s.Inv) : OutInv (execGateOpen id s) := by
  unfold execGateOpen
  repeat' first
    | with_reducible assumption
    | ((fail_if_no_progress extract_lets +onlyGivenNames u); (have hu : State.Inv u; (on_goal 1 => (unfold u; clear u)); (on_goal 2 => clear_value u)))
    | (with_reducible apply inv_same; with_reducible assumption)
    | with_reducible first | apply State.descBreak_inv | apply State.engOpen_inv | apply out_next
    | split

theorem execDescriptorComplete_inv {id : Nat} {s : State} (hI : s.Inv) : OutInv (execDescriptorComplete id s) := by
  unfold execDescriptorComplete
  repeat' first
    | with_reducible assumption
    | with_reducible first | apply State.descEnd_inv | apply State.ringRun_inv | apply State.descRun_inv | apply out_next
    | split

theorem execRingMatchTimeout_inv {id : Nat} {s : State} (hI : s.Inv) : OutInv (execRingMatchTimeout id s) := by
  unfold execRingMatchTimeout
  repeat' first
    | with_reducible assumption
    | with_reducible first | apply State.descEnd_inv | apply out_next
    | split

theorem execRemoteRegionAccess_inv {r : RemoteReq} {s : State} (hI : s.Inv) : OutInv (execRemoteRegionAccess r s) := by
  unfold execRemoteRegionAccess
  repeat' first
    | with_reducible first | assumption | intro _
    | ((fail_if_no_progress extract_lets +onlyGivenNames u); (first | (have hu : State.Inv u; (on_goal 1 => (unfold u; clear u)); (on_goal 2 => clear_value u)) | ((fail_if_success (have _ : ∀ x, u x = u x := fun _ => rfl)); clear_value u)))
    | (with_reducible apply inv_same; with_reducible apply of_fst)
    | with_reducible first | apply State.regionOpen_inv | apply State.engRead_inv | apply State.engWrite_inv | apply State.engAdd_inv | apply out_next | apply foldl_inv
    | split

theorem execPeerLeave_inv {p : Nat} {s : State} (hI : s.Inv) : OutInv (execPeerLeave p s) := by
  unfold execPeerLeave
  repeat' first
    | with_reducible assumption
    | with_reducible first | apply State.peerGone_inv | apply out_next

theorem execLinkPortLost_inv {p : Nat} {s : State} (hI : s.Inv) : OutInv (execLinkPortLost p s) := by
  unfold execLinkPortLost
  repeat' first
    | with_reducible first | assumption | intro _
    | ((fail_if_no_progress extract_lets +onlyGivenNames u); ((fail_if_success (have _ : ∀ x, u x = u x := fun _ => rfl)); clear_value u))
    | with_reducible first | apply State.peerGone_inv | apply State.setReg_inv | apply out_next | apply foldl_inv
    | split

theorem execSnoopFilterRecall_inv {plane : Nat} {s : State} (hI : s.Inv) : OutInv (execSnoopFilterRecall plane s) := by
  unfold execSnoopFilterRecall
  repeat' first
    | with_reducible assumption
    | (with_reducible apply inv_same; with_reducible assumption)
    | with_reducible apply out_next
    | split

theorem execPeerPresent_inv {p : Nat} {s : State} (hI : s.Inv) : OutInv (execPeerPresent p s) := by
  unfold execPeerPresent
  repeat' first
    | with_reducible assumption
    | with_reducible first | apply State.peerHere_inv | apply out_next
    | split

theorem execPeerWindowAccess_inv {q : PeerReq} {s : State} (hI : s.Inv) : OutInv (execPeerWindowAccess q s) := by
  unfold execPeerWindowAccess
  repeat' first
    | with_reducible assumption
    | ((fail_if_no_progress extract_lets +onlyGivenNames u); (first | (have hu : State.Inv u; (on_goal 1 => (unfold u; clear u)); (on_goal 2 => clear_value u)) | ((fail_if_success (have _ : ∀ x, u x = u x := fun _ => rfl)); clear_value u)))
    | (with_reducible apply inv_same; with_reducible apply of_fst)
    | with_reducible first | apply State.snoopAdd_inv | apply State.engWrite_inv | apply State.engRead_inv | apply out_next
    | split

/-! ### Operations of System.lean -/

theorem State.invalPats_inv {s : State} {v : Inval} (hI : s.Inv) : (State.invalPats s v).Inv := by
  unfold State.invalPats
  repeat' first
    | with_reducible assumption
    | ((fail_if_no_progress extract_lets +onlyGivenNames u); (first | (have hu : State.Inv u; (on_goal 1 => (unfold u; clear u)); (on_goal 2 => clear_value u)) | ((fail_if_success (have _ : ∀ x, u x = u x := fun _ => rfl)); clear_value u)))
    | (with_reducible apply inv_same; with_reducible assumption)
    | with_reducible apply State.deliver_inv

theorem State.freePage_inv {s : State} {page : Nat} (hI : s.Inv) : (State.freePage s page).Inv := by
  unfold State.freePage
  repeat' first
    | with_reducible assumption
    | (with_reducible apply inv_same; with_reducible refine of_pairR (by assumption) ?_)
    | with_reducible apply State.drawBit_inv
    | split
    | with_reducible first | apply sset_swf | apply And.intro | apply mem_swf | apply mmio_swf | apply pct_swf | apply owners_swf | apply peerRgn_swf | apply strands_ok | apply lcores_ok | apply crews_ok | apply fleets_ok | apply cores_len | apply pods_len | apply dies_len | apply zones_len | apply lcores_len
    | simp only [inv_mk_iff]

theorem State.invalDone_inv {s : State} {v : Inval} (hI : s.Inv) : (State.invalDone s v).Inv := by
  unfold State.invalDone
  repeat' first
    | with_reducible first | assumption | intro _
    | ((fail_if_no_progress extract_lets +onlyGivenNames u); (first | (have hu : State.Inv u; (on_goal 1 => (unfold u; clear u)); (on_goal 2 => clear_value u)) | ((fail_if_success (have _ : ∀ x, u x = u x := fun _ => rfl)); clear_value u)))
    | (with_reducible apply inv_same; with_reducible assumption)
    | with_reducible first | apply State.rewatch_inv | apply State.mergeWhere_inv | apply State.invalPats_inv | apply State.freePage_inv | apply State.descBreak_inv | apply State.setReg_inv | apply State.hwPut_inv | apply State.finishWait_inv | apply foldl_inv
    | split
    | with_reducible apply invalWatch_swf

theorem State.invalidate_inv {s : State} {t : Strand} {rd : Reg} {va : Word} {ctl : Word} (hI : s.Inv) : OutInv (State.invalidate s t rd va ctl) := by
  unfold State.invalidate
  repeat' first
    | with_reducible assumption
    | (with_reducible apply inv_same; with_reducible apply of_snd)
    | with_reducible first | apply State.fresh_inv | apply State.acquire_inv | apply State.release_inv | apply State.await_inv | apply out_next

theorem State.ivgoOp_inv {s : State} {slot : Nat} {v : Word} (hI : s.Inv) : (State.ivgoOp s slot v).Inv := by
  unfold State.ivgoOp
  repeat' first
    | with_reducible assumption
    | ((fail_if_no_progress extract_lets +onlyGivenNames u); ((fail_if_success (have _ : ∀ x, u x = u x := fun _ => rfl)); clear_value u))
    | (with_reducible apply inv_same; with_reducible apply of_snd)
    | with_reducible first | apply State.setReg_inv | apply State.fresh_inv
    | split

theorem State.sfenceL_inv {s : State} {i : Nat} {a : Reg} {b : Reg} (hI : s.Inv) : (State.sfenceL s i a b).Inv := by
  unfold State.sfenceL
  repeat' first
    | ((fail_if_no_progress extract_lets +onlyGivenNames u); ((fail_if_success (have _ : ∀ x, u x = u x := fun _ => rfl)); clear_value u))
    | (with_reducible apply inv_same; with_reducible assumption)

theorem State.endGo_inv {s : State} {k : Nat} (hI : s.Inv) : (State.endGo s k).Inv := by
  unfold State.endGo
  repeat' first
    | with_reducible first | assumption | intro _
    | (with_reducible apply inv_same; with_reducible apply of_snd)
    | with_reducible first | apply State.endStrand_inv | apply State.abandonCopies_inv | apply State.modStrand_inv
    | split

theorem State.onS_inv {s : State} {g : Strand → Out} (hI : s.Inv) (h_g : ∀ x0, OutInv (g x0)) : OutInv (State.onS s g) := by
  unfold State.onS
  repeat' first
    | with_reducible first | assumption | intro _
    | with_reducible first | apply h_g | apply State.onStrand_inv | apply State.illegal_inv
    | split

theorem State.virtualInst_inv {s : State} (hI : s.Inv) : OutInv (State.virtualInst s) := by
  unfold State.virtualInst
  repeat' first
    | with_reducible assumption
    | with_reducible apply State.raise_inv

theorem State.sretL_inv {s : State} {i : Nat} (hI : s.Inv) : (State.sretL s i).Inv := by
  unfold State.sretL
  repeat' first
    | with_reducible first | assumption | intro _
    | ((fail_if_no_progress extract_lets +onlyGivenNames u); ((fail_if_success (have _ : ∀ x, u x = u x := fun _ => rfl)); clear_value u))
    | with_reducible apply State.modLcore_inv
    | split
    | with_reducible first | apply sset_swf | apply And.intro

theorem State.mretL_inv {s : State} {i : Nat} (hI : s.Inv) : (State.mretL s i).Inv := by
  unfold State.mretL
  repeat' first
    | with_reducible first | assumption | intro _
    | ((fail_if_no_progress extract_lets +onlyGivenNames u); ((fail_if_success (have _ : ∀ x, u x = u x := fun _ => rfl)); clear_value u))
    | with_reducible apply State.modLcore_inv
    | with_reducible first | apply sset_swf | apply And.intro

theorem execEcall_inv {s : State} (hI : s.Inv) : OutInv (execEcall s) := by
  unfold execEcall
  repeat' first
    | with_reducible first | assumption | intro _
    | with_reducible first | apply State.onAny_inv | apply State.onStrand_inv | apply State.raise_inv
    | split

theorem execEbreak_inv {s : State} (hI : s.Inv) : OutInv (execEbreak s) := by
  unfold execEbreak
  repeat' first
    | with_reducible first | assumption | intro _
    | with_reducible first | apply State.onAny_inv | apply State.onStrand_inv | apply State.debugStopOp_inv | apply State.raise_inv | apply out_next
    | split

theorem execWfi_inv {s : State} (hI : s.Inv) : OutInv (execWfi s) := by
  unfold execWfi
  repeat' first
    | with_reducible first | assumption | intro _
    | ((fail_if_no_progress extract_lets +onlyGivenNames u); (first | (have hu : swf (LCore.ctx u) = true ∧ swf (LCore.csr u) = true ∧ swf (LCore.vec u) = true; (on_goal 1 => (unfold u; clear u)); (on_goal 2 => clear_value u)) | ((fail_if_success (have _ : ∀ x, u x = u x := fun _ => rfl)); clear_value u)))
    | with_reducible first | apply State.onAny_inv | apply State.onStrand_inv | apply State.yield_inv | apply State.next_inv | apply State.illegal_inv | apply State.virtualInst_inv
    | split
    | with_reducible first | apply And.intro | exact (lcoreAt_swf (by assumption)).1 | exact (lcoreAt_swf (by assumption)).2 | exact lcoreAt_vec (by assumption)

theorem execSret_inv {s : State} (hI : s.Inv) : OutInv (execSret s) := by
  unfold execSret
  repeat' first
    | with_reducible first | assumption | intro _
    | ((fail_if_no_progress extract_lets +onlyGivenNames u); (have hu : swf (LCore.ctx u) = true ∧ swf (LCore.csr u) = true ∧ swf (LCore.vec u) = true; (on_goal 1 => (unfold u; clear u)); (on_goal 2 => clear_value u)))
    | with_reducible first | apply State.onAny_inv | apply State.onS_inv | apply State.retired_inv | apply State.sretStrand_inv | apply State.illegal_inv | apply State.virtualInst_inv | apply State.sretL_inv | apply out_next
    | split
    | with_reducible first | apply And.intro | exact (lcoreAt_swf (by assumption)).1 | exact (lcoreAt_swf (by assumption)).2 | exact lcoreAt_vec (by assumption)

theorem execSfenceVma_inv {a : Reg} {b : Reg} {s : State} (hI : s.Inv) : OutInv (execSfenceVma a b s) := by
  unfold execSfenceVma
  repeat' first
    | with_reducible first | assumption | intro _
    | ((fail_if_no_progress extract_lets +onlyGivenNames u); (first | (have hu : swf (LCore.ctx u) = true ∧ swf (LCore.csr u) = true ∧ swf (LCore.vec u) = true; (on_goal 1 => (unfold u; clear u)); (on_goal 2 => clear_value u)) | ((fail_if_success (have _ : ∀ x, u x = u x := fun _ => rfl)); clear_value u)))
    | with_reducible first | apply State.onAny_inv | apply State.onS_inv | apply State.invalidate_inv | apply State.illegal_inv | apply State.virtualInst_inv | apply State.next_inv | apply State.sfenceL_inv
    | split
    | with_reducible first | apply And.intro | exact (lcoreAt_swf (by assumption)).1 | exact (lcoreAt_swf (by assumption)).2 | exact lcoreAt_vec (by assumption)

theorem execSyPark_inv {rd : Reg} {s : State} (hI : s.Inv) : OutInv (execSyPark rd s) := by
  unfold execSyPark
  repeat' first
    | with_reducible first | assumption | intro _
    | ((fail_if_no_progress extract_lets +onlyGivenNames u); (first | (have hu : State.Inv u; (on_goal 1 => (unfold u; clear u)); (on_goal 2 => clear_value u)) | ((fail_if_success (have _ : ∀ x, u x = u x := fun _ => rfl)); clear_value u)))
    | with_reducible first | apply State.onS_inv | apply State.modCur_inv | apply State.setPc_inv | apply State.forward_inv | apply State.retired_inv | apply out_next
    | with_reducible apply Strand.setCbits_swf

theorem execSyEnd_inv {rd : Reg} {s : State} (hI : s.Inv) : OutInv (execSyEnd rd s) := by
  unfold execSyEnd
  repeat' first
    | with_reducible first | assumption | intro _
    | ((fail_if_no_progress extract_lets +onlyGivenNames u); (have hu : State.Inv u; (on_goal 1 => (unfold u; clear u)); (on_goal 2 => clear_value u)))
    | with_reducible first | apply State.onS_inv | apply State.onCrew_inv | apply State.status_inv | apply State.stopFleet_inv | apply State.endGo_inv | apply out_next | apply foldl_inv
    | split

theorem execSyDbg_inv {rd : Reg} {s : State} (hI : s.Inv) : OutInv (execSyDbg rd s) := by
  unfold execSyDbg
  repeat' first
    | with_reducible first | assumption | intro _
    | with_reducible first | apply State.onStrand_inv | apply State.status_inv | apply State.modCur_inv
    | split

theorem execSyRec_inv {rd : Reg} {a : Reg} {b : Reg} {s : State} (hI : s.Inv) : OutInv (execSyRec rd a b s) := by
  unfold execSyRec
  repeat' first
    | with_reducible first | assumption | intro _
    | with_reducible first | apply State.onS_inv | apply State.status_inv | apply State.strandRecord_inv
    | split

theorem execSyTlbsd_inv {rd : Reg} {a : Reg} {b : Reg} {s : State} (hI : s.Inv) : OutInv (execSyTlbsd rd a b s) := by
  unfold execSyTlbsd
  repeat' first
    | with_reducible first | assumption | intro _
    | with_reducible first | apply State.onS_inv | apply State.status_inv | apply State.invalidate_inv
    | split

theorem execForwardEntryPost_inv {d : Nat} {s : State} (hI : s.Inv) : OutInv (execForwardEntryPost d s) := by
  unfold execForwardEntryPost
  repeat' first
    | with_reducible assumption
    | with_reducible first | apply State.postForward_inv | apply out_next

theorem execFwdrsmWrite_inv {d : Nat} {v : Word} {s : State} (hI : s.Inv) : OutInv (execFwdrsmWrite d v s) := by
  unfold execFwdrsmWrite
  repeat' first
    | with_reducible assumption
    | with_reducible first | apply State.fwdrsmOp_inv | apply State.setReg_inv | apply out_next

theorem execInvalidationAck_inv {id : Nat} {s : State} (hI : s.Inv) : OutInv (execInvalidationAck id s) := by
  unfold execInvalidationAck
  repeat' first
    | with_reducible assumption
    | with_reducible first | apply State.invalDone_inv | apply out_next
    | split

theorem execIvgoWrite_inv {slot : Nat} {v : Word} {s : State} (hI : s.Inv) : OutInv (execIvgoWrite slot v s) := by
  unfold execIvgoWrite
  repeat' first
    | with_reducible assumption
    | with_reducible first | apply State.ivgoOp_inv | apply out_next

/-! ### Operations of Debug.lean -/

theorem State.dbgStopOne_inv {s : State} {k : Nat} (hI : s.Inv) : (State.dbgStopOne s k).Inv := by
  unfold State.dbgStopOne
  repeat' first
    | with_reducible first | assumption | intro _
    | with_reducible apply State.modStrand_inv
    | split

theorem State.dbgResumeOne_inv {s : State} {k : Nat} {step : Bool} (hI : s.Inv) : (State.dbgResumeOne s k step).Inv := by
  unfold State.dbgResumeOne
  repeat' first
    | with_reducible first | assumption | intro _
    | ((fail_if_no_progress extract_lets +onlyGivenNames u); (first | (have hu : State.Inv u; (on_goal 1 => (unfold u; clear u)); (on_goal 2 => clear_value u)) | (have hu : swf (Strand.ctx u) = true; (on_goal 1 => (unfold u; clear u)); (on_goal 2 => clear_value u)) | ((fail_if_success (have _ : ∀ x, u x = u x := fun _ => rfl)); clear_value u)))
    | (with_reducible apply inv_same; with_reducible assumption)
    | with_reducible first | apply State.dropIbuf_inv | apply State.ncPoint_inv | apply State.restoreImage_inv | apply State.modStrand_inv | apply State.fetchLines_inv | apply State.asAgent_inv | apply State.trap_inv | apply State.leaveSset_inv
    | split
    | with_reducible apply Strand.setCbits_swf

theorem State.dbgAttachOne_inv {s : State} {k : Nat} {v : Nat} (hI : s.Inv) : (State.dbgAttachOne s k v).Inv := by
  unfold State.dbgAttachOne
  repeat' first
    | with_reducible first | assumption | intro _
    | ((fail_if_no_progress extract_lets +onlyGivenNames u); (first | (have hu : State.Inv u; (on_goal 1 => (unfold u; clear u)); (on_goal 2 => clear_value u)) | ((fail_if_success (have _ : ∀ x, u x = u x := fun _ => rfl)); clear_value u)))
    | with_reducible first | apply State.fetchLine_inv | apply State.modStrand_inv | apply State.writeBack_inv
    | split
    | with_reducible apply Strand.setCbits_swf

theorem State.dbgResult_inv {s : State} {d : Nat} {cmd : Nat} {r : Nat} (hI : s.Inv) : (State.dbgResult s d cmd r).Inv := by
  unfold State.dbgResult
  repeat' first
    | with_reducible assumption
    | with_reducible apply State.setReg_inv

theorem State.dbgOn_inv {s : State} {d : Nat} {cmd : Nat} {need : Strand → Bool} {g : State → Strand → State} (hI : s.Inv) (h_g : ∀ x0 x1, x0.Inv → (g x0 x1).Inv) : (State.dbgOn s d cmd need g).Inv := by
  unfold State.dbgOn
  repeat' first
    | with_reducible assumption
    | with_reducible first | apply h_g | apply State.dbgResult_inv
    | split

theorem State.dbgStopOp_inv {s : State} {d : Nat} (hI : s.Inv) : (State.dbgStopOp s d).Inv := by
  unfold State.dbgStopOp
  repeat' first
    | with_reducible first | assumption | intro _
    | with_reducible first | apply State.dbgOn_inv | apply State.dbgStopOne_inv

theorem State.dbgStopCrewOp_inv {s : State} {d : Nat} (hI : s.Inv) : (State.dbgStopCrewOp s d).Inv := by
  unfold State.dbgStopCrewOp
  repeat' first
    | with_reducible first | assumption | intro _
    | with_reducible first | apply State.dbgOn_inv | apply State.dbgStopOne_inv | apply foldl_inv

theorem State.dbgResumeOp_inv {s : State} {d : Nat} (hI : s.Inv) : (State.dbgResumeOp s d).Inv := by
  unfold State.dbgResumeOp
  repeat' first
    | with_reducible first | assumption | intro _
    | with_reducible first | apply State.dbgOn_inv | apply State.dbgResumeOne_inv

theorem State.dbgResumeCrewOp_inv {s : State} {d : Nat} (hI : s.Inv) : (State.dbgResumeCrewOp s d).Inv := by
  unfold State.dbgResumeCrewOp
  repeat' first
    | with_reducible first | assumption | intro _
    | with_reducible first | apply State.dbgOn_inv | apply State.dbgResumeOne_inv | apply foldl_inv

theorem State.dbgStepOp_inv {s : State} {d : Nat} (hI : s.Inv) : (State.dbgStepOp s d).Inv := by
  unfold State.dbgStepOp
  repeat' first
    | with_reducible first | assumption | intro _
    | with_reducible first | apply State.dbgOn_inv | apply State.dbgResumeOne_inv

theorem State.dbgAttachOp_inv {s : State} {d : Nat} (hI : s.Inv) : (State.dbgAttachOp s d).Inv := by
  unfold State.dbgAttachOp
  repeat' first
    | with_reducible first | assumption | intro _
    | with_reducible first | apply State.dbgOn_inv | apply State.dbgAttachOne_inv

theorem State.dbgDetachOp_inv {s : State} {d : Nat} (hI : s.Inv) : (State.dbgDetachOp s d).Inv := by
  unfold State.dbgDetachOp
  repeat' first
    | with_reducible first | assumption | intro _
    | with_reducible first | apply State.dbgOn_inv | apply State.dbgResumeOne_inv | apply State.dbgAttachOne_inv

theorem State.dbgUnassignedOp_inv {s : State} {d : Nat} {cmd : Nat} (hI : s.Inv) : (State.dbgUnassignedOp s d cmd).Inv := by
  unfold State.dbgUnassignedOp
  repeat' first
    | with_reducible assumption
    | with_reducible apply State.dbgResult_inv
    | split

theorem State.dbgCommand_inv {s : State} {d : Nat} {v : Word} (hI : s.Inv) : (State.dbgCommand s d v).Inv := by
  unfold State.dbgCommand
  repeat' first
    | with_reducible assumption
    | with_reducible first | apply State.dbgStopOp_inv | apply State.dbgStopCrewOp_inv | apply State.dbgResumeOp_inv | apply State.dbgResumeCrewOp_inv | apply State.dbgStepOp_inv | apply State.dbgAttachOp_inv | apply State.dbgDetachOp_inv | apply State.dbgUnassignedOp_inv
    | split

theorem State.savedStage_inv {s : State} {c : Crew} {a : Nat} {wr : Option Word} (h : s.Inv) : PairInvL (s.savedStage c a wr) := by
  unfold State.savedStage
  extract_lets o pa n s1
  have h1 : s1.Inv := State.hwOpen_inv h
  clear_value n pa s1
  split
  · exact pairL_mk (State.hwWrite_inv h)
  · split <;> exact pairL_mk h1

theorem State.dbgAcc_inv {s : State} {c : Crew} {k : Nat} {wr : Option Word} (h : s.Inv) : PairInvL (s.dbgAcc c k wr) := by
  unfold State.dbgAcc
  generalize accHome c k = pa
  split
  · split
    · exact pairL_mk (State.hwWrite_inv h)
    · exact pairL_mk (State.hwOpen_inv h)
  · split
    · exact pairL_mk (State.modCrew_inv h fun c h1 h2 => ⟨h1, sset_swf (sset_swf h2)⟩)
    · split
      · have h1 := State.drawNat_inv h
        split
        rename_i e
        exact pairL_mk (of_pairR e h1)
      · exact pairL_mk h

theorem State.dbgData_inv {s : State} {d : Nat} {sel : Word} {wr : Option Word} (h : s.Inv) : OptInvL (s.dbgData d sel wr) := by
  have some_inv : ∀ {p : State × Nat × Word}, PairInvL p → OptInvL (some p) := by
    intro p hp t e; cases e; exact hp
  unfold State.dbgData
  split
  · exact optL_none
  · extract_lets ad a
    split
    · exact optL_some h
    · split
      · exact optL_some h
      · split
        · split
          · exact optL_some h
          · split
            · exact some_inv (State.savedStage_inv h)
            · split
              · exact optL_some (State.stageWrite_inv h)
              · split <;> exact optL_some h
        · split
          · exact optL_some h
          · split
            · exact optL_some h
            · split
              · exact optL_none
              · exact some_inv (State.dbgAcc_inv h)
        · exact optL_some h

theorem State.dbgDataOp_inv {s : State} {d : Nat} {sel : Word} {wr : Option Word} (h : s.Inv) : OptInvL (s.dbgDataOp d sel wr) :=
  mapL_inv fun x e => State.setReg_inv (State.setReg_inv (of_optL (a := x.2) e (State.dbgData_inv h)))

theorem State.dbgAccess_inv {s : State} {d : Nat} {by' : Option Nat} {wr : Option Word} (h : s.Inv) :
    PairInvL (s.dbgAccess d by' wr) := by
  unfold State.dbgAccess
  extract_lets mine first sel
  have ho : OptInvL (if first = mine then s.dbgDataOp d sel wr else none) := by
    split
    · exact State.dbgDataOp_inv h
    · exact optL_none
  generalize (if first = mine then s.dbgDataOp d sel wr else none) = o at ho
  clear_value mine sel first
  cases o with
  | none =>
    dsimp only
    split <;> exact h
  | some r =>
    have h1 : r.1.Inv := ho r rfl
    dsimp only
    split <;> exact h1

theorem State.dbgFlush_inv {s : State} (h : s.Inv) : s.dbgFlush.Inv := by
  unfold State.dbgFlush
  split
  · exact h
  · refine foldl_inv h fun s e hs => ?_
    split
    · have ho := State.dbgDataOp_inv (d := e.die) (sel := e.sel) (wr := e.wr) hs
      generalize s.dbgDataOp e.die e.sel e.wr = o at ho
      cases o with
      | none => exact hs
      | some r => exact inv_same (ho r rfl)
    · exact hs

theorem State.podHalt_inv {s : State} {q : Nat} {b : Bool} (hI : s.Inv) : (State.podHalt s q b).Inv := by
  unfold State.podHalt
  repeat' first
    | with_reducible first | assumption | intro _
    | ((fail_if_no_progress extract_lets +onlyGivenNames u); (have hu : State.Inv u; (on_goal 1 => (unfold u; clear u)); (on_goal 2 => clear_value u)))
    | with_reducible first | apply State.endHoldsOf_inv | apply State.modPod_inv
    | split
    | with_reducible first | apply And.intro | apply mem_swf | apply mmio_swf | apply pct_swf | apply owners_swf | apply peerRgn_swf | apply strands_ok | apply lcores_ok | apply crews_ok | apply fleets_ok | apply cores_len | apply pods_len | apply dies_len | apply zones_len | apply lcores_len | apply strands_map
    | simp only [inv_mk_iff]

theorem State.dbgHaltOp_inv {s : State} {d : Nat} {v : Word} (hI : s.Inv) : (State.dbgHaltOp s d v).Inv := by
  unfold State.dbgHaltOp
  repeat' first
    | with_reducible first | assumption | intro _
    | with_reducible first | apply State.podHalt_inv | apply State.setReg_inv | apply foldl_inv

theorem State.stopDue_inv {s : State} {k : Nat} (hI : s.Inv) : (State.stopDue s k).Inv := by
  unfold State.stopDue
  repeat' first
    | with_reducible first | assumption | intro _
    | ((fail_if_no_progress extract_lets +onlyGivenNames u); (first | ((fail_if_success (have _ : ∀ x, u x = u x := fun _ => rfl)); clear_value u) | (unfold u; clear u)))
    | with_reducible first | apply State.debugStopOp_inv | apply State.dropWait_inv | apply State.finishWith_inv | apply id_inv
    | split

theorem execDbgStop_inv {d : Nat} {s : State} (hI : s.Inv) : OutInv (execDbgStop d s) := by
  unfold execDbgStop
  repeat' first
    | with_reducible assumption
    | with_reducible first | apply State.dbgStopOp_inv | apply out_next

theorem execDbgStopCrew_inv {d : Nat} {s : State} (hI : s.Inv) : OutInv (execDbgStopCrew d s) := by
  unfold execDbgStopCrew
  repeat' first
    | with_reducible assumption
    | with_reducible first | apply State.dbgStopCrewOp_inv | apply out_next

theorem execDbgResume_inv {d : Nat} {s : State} (hI : s.Inv) : OutInv (execDbgResume d s) := by
  unfold execDbgResume
  repeat' first
    | with_reducible assumption
    | with_reducible first | apply State.dbgResumeOp_inv | apply out_next

theorem execDbgResumeCrew_inv {d : Nat} {s : State} (hI : s.Inv) : OutInv (execDbgResumeCrew d s) := by
  unfold execDbgResumeCrew
  repeat' first
    | with_reducible assumption
    | with_reducible first | apply State.dbgResumeCrewOp_inv | apply out_next

theorem execDbgStep_inv {d : Nat} {s : State} (hI : s.Inv) : OutInv (execDbgStep d s) := by
  unfold execDbgStep
  repeat' first
    | with_reducible assumption
    | with_reducible first | apply State.dbgStepOp_inv | apply out_next

theorem execDbgAttach_inv {d : Nat} {s : State} (hI : s.Inv) : OutInv (execDbgAttach d s) := by
  unfold execDbgAttach
  repeat' first
    | with_reducible assumption
    | with_reducible first | apply State.dbgAttachOp_inv | apply out_next

theorem execDbgDetach_inv {d : Nat} {s : State} (hI : s.Inv) : OutInv (execDbgDetach d s) := by
  unfold execDbgDetach
  repeat' first
    | with_reducible assumption
    | with_reducible first | apply State.dbgDetachOp_inv | apply out_next

theorem execDbgUnassigned_inv {d : Nat} {cmd : BitVec 4} {s : State} (hI : s.Inv) : OutInv (execDbgUnassigned d cmd s) := by
  unfold execDbgUnassigned
  repeat' first
    | with_reducible assumption
    | with_reducible first | apply State.dbgUnassignedOp_inv | apply out_next
    | split

theorem execDebugStop_inv {k : Nat} {s : State} (hI : s.Inv) : OutInv (execDebugStop k s) := by
  unfold execDebugStop
  repeat' first
    | with_reducible assumption
    | with_reducible first | apply State.stopDue_inv | apply out_next

theorem execDbgdataRead_inv {d : Nat} {s : State} (h : s.Inv) : OutInv (execDbgdataRead d s) :=
  out_next (State.dbgAccess_inv h)

theorem execDbgdataWrite_inv {d : Nat} {v : Word} {s : State} (h : s.Inv) : OutInv (execDbgdataWrite d v s) :=
  out_next (State.dbgAccess_inv h)

theorem execDbghaltWrite_inv {d : Nat} {v : Word} {s : State} (hI : s.Inv) : OutInv (execDbghaltWrite d v s) := by
  unfold execDbghaltWrite
  repeat' first
    | with_reducible assumption
    | with_reducible first | apply State.dbgHaltOp_inv | apply out_next

/-! ### Operations of Power.lean -/

theorem State.modPkg_inv {s : State} {f : Pkg → Pkg} (hI : s.Inv) : (State.modPkg s f).Inv := by
  unfold State.modPkg
  repeat' first
    | (with_reducible apply inv_same; with_reducible assumption)

theorem State.raiseIrq_inv {s : State} {b : Nat} (hI : s.Inv) : (State.raiseIrq s b).Inv := by
  unfold State.raiseIrq
  repeat' first
    | with_reducible assumption
    | with_reducible apply State.setReg_inv

theorem State.zoneSet_inv {s : State} {z : Nat} {f : ZoneState → ZoneState} (hI : s.Inv) : (State.zoneSet s z f).Inv := by
  unfold State.zoneSet
  repeat' first
    | with_reducible assumption
    | with_reducible apply State.modZone_inv

theorem State.senseZone_inv {s : State} {z : Nat} {temp : Nat} {flow : Nat} (hI : s.Inv) : (State.senseZone s z temp flow).Inv := by
  unfold State.senseZone
  repeat' first
    | with_reducible assumption
    | with_reducible apply State.zoneSet_inv

theorem State.senseFlow_inv {s : State} {z : Nat} {flow : Nat} (hI : s.Inv) : (State.senseFlow s z flow).Inv := by
  unfold State.senseFlow
  repeat' first
    | with_reducible assumption
    | with_reducible apply State.senseZone_inv

theorem State.senseTemp_inv {s : State} {z : Nat} {temp : Nat} (hI : s.Inv) : (State.senseTemp s z temp).Inv := by
  unfold State.senseTemp
  repeat' first
    | with_reducible assumption
    | with_reducible apply State.senseZone_inv

theorem State.endRequest_inv {s : State} {q : Nat} {st : Nat} (hI : s.Inv) : (State.endRequest s q st).Inv := by
  unfold State.endRequest
  repeat' first
    | with_reducible assumption
    | with_reducible first | apply State.modDie_inv | apply State.modPod_inv

theorem State.setPass_inv {s : State} {q : Nat} {v : Nat} (hI : s.Inv) : (State.setPass s q v).Inv := by
  unfold State.setPass
  repeat' first
    | with_reducible assumption
    | with_reducible first | apply State.endHoldsOf_inv | apply State.modPod_inv
    | split

theorem State.evacuate_inv {s : State} {z : Nat} (hI : s.Inv) : (State.evacuate s z).Inv := by
  unfold State.evacuate
  repeat' first
    | with_reducible assumption
    | ((fail_if_no_progress extract_lets +onlyGivenNames u); (have hu : State.Inv u; (on_goal 1 => (unfold u; clear u)); (on_goal 2 => clear_value u)))
    | with_reducible first | apply State.endRequest_inv | apply State.withdrawPod_inv | apply State.modPod_inv | apply State.setPass_inv
    | split

theorem State.zoneBack_inv {s : State} {z : Nat} (hI : s.Inv) : (State.zoneBack s z).Inv := by
  unfold State.zoneBack
  repeat' first
    | with_reducible first | assumption | intro _
    | ((fail_if_no_progress extract_lets +onlyGivenNames u); (have hu : State.Inv u; (on_goal 1 => (unfold u; clear u)); (on_goal 2 => clear_value u)))
    | with_reducible first | apply State.zoneSet_inv | apply State.modPod_inv | apply State.setPass_inv | apply State.modCore_inv | apply foldl_inv
    | split

theorem State.flushPod_inv {s : State} {q : Nat} (hI : s.Inv) : (s.flushPod q).Inv :=
  foldl_inv hI fun _ _ h => foldl_inv h fun _ _ h => State.writeLine_inv h

theorem execPwQry_inv {rd : Reg} {a : Reg} {s : State} (hI : s.Inv) : OutInv (execPwQry rd a s) := by
  unfold execPwQry
  repeat' first
    | with_reducible first | assumption | intro _
    | ((fail_if_no_progress extract_lets +onlyGivenNames u); ((fail_if_success (have _ : ∀ x, u x = u x := fun _ => rfl)); clear_value u))
    | with_reducible first | apply State.onCrew_inv | apply State.status_inv

theorem execPwYld_inv {rd : Reg} {s : State} (hI : s.Inv) : OutInv (execPwYld rd s) := by
  unfold execPwYld
  repeat' first
    | with_reducible first | assumption | intro _
    | (with_reducible apply inv_same; with_reducible refine of_next (by assumption) ?_)
    | with_reducible first | apply State.onCrew_inv | apply State.status_inv | apply State.next_inv | apply State.preemptFrom_inv | apply State.modStrand_inv | apply out_next | apply out_fault | apply out_refused
    | split

theorem execPwWind_inv {rd : Reg} {a : Reg} {s : State} (hI : s.Inv) : OutInv (execPwWind rd a s) := by
  unfold execPwWind
  repeat' first
    | with_reducible first | assumption | intro _
    | with_reducible first | apply State.onStrand_inv | apply State.status_inv

theorem execReclassSavesDone_inv {pod : Nat} {s : State} (hI : s.Inv) : OutInv (execReclassSavesDone pod s) := by
  unfold execReclassSavesDone
  repeat' first
    | with_reducible assumption
    | with_reducible first | apply State.modPod_inv | apply State.endHoldsOf_inv | apply State.flushPod_inv | apply out_next
    | split

theorem execReclassClockSettled_inv {pod : Nat} {s : State} (hI : s.Inv) : OutInv (execReclassClockSettled pod s) := by
  unfold execReclassClockSettled
  repeat' first
    | with_reducible assumption
    | with_reducible first | apply State.endRequest_inv | apply State.modPod_inv | apply out_next
    | split

theorem execWithdrawalStart_inv {pod : Nat} {s : State} (hI : s.Inv) : OutInv (execWithdrawalStart pod s) := by
  unfold execWithdrawalStart
  repeat' first
    | with_reducible assumption
    | ((fail_if_no_progress extract_lets +onlyGivenNames u); ((fail_if_success (have _ : ∀ x, u x = u x := fun _ => rfl)); clear_value u))
    | with_reducible first | apply State.withdrawPod_inv | apply State.withdraw_inv | apply out_next
    | split

theorem execBoostRecompute_inv {pod : Nat} {s : State} (hI : s.Inv) : OutInv (execBoostRecompute pod s) := by
  unfold execBoostRecompute
  repeat' first
    | with_reducible assumption
    | ((fail_if_no_progress extract_lets +onlyGivenNames u); ((fail_if_success (have _ : ∀ x, u x = u x := fun _ => rfl)); clear_value u))
    | with_reducible first | apply State.modPod_inv | apply out_next
    | split

theorem execPowerWindow_inv {avg : BitVec 16} {s : State} (hI : s.Inv) : OutInv (execPowerWindow avg s) := by
  unfold execPowerWindow
  repeat' first
    | with_reducible assumption
    | ((fail_if_no_progress extract_lets +onlyGivenNames u); (first | (have hu : State.Inv u; (on_goal 1 => (unfold u; clear u)); (on_goal 2 => clear_value u)) | ((fail_if_success (have _ : ∀ x, u x = u x := fun _ => rfl)); clear_value u) | (unfold u; clear u)))
    | (with_reducible apply inv_same; with_reducible refine of_pairR (by assumption) ?_)
    | with_reducible first | apply State.modPkg_inv | apply State.setReg_inv | apply State.withdraw_inv | apply State.modPod_inv | apply State.setPass_inv | apply State.drawBit_inv | apply out_next
    | split
    | with_reducible first | apply And.intro | apply mem_swf | apply mmio_swf | apply pct_swf | apply owners_swf | apply peerRgn_swf | apply strands_ok | apply lcores_ok | apply crews_ok | apply fleets_ok | apply cores_len | apply pods_len | apply dies_len | apply zones_len | apply lcores_len | apply len_map
    | first | simp only [inv_mk_iff] | refine len_zip (pods_len ?_) (by decide)

theorem State.currentLimit_inv {s : State} (hI : s.Inv) : (State.currentLimit s).Inv := by
  unfold State.currentLimit
  repeat' first
    | with_reducible assumption
    | ((fail_if_no_progress extract_lets +onlyGivenNames u); ((fail_if_success (have _ : ∀ x, u x = u x := fun _ => rfl)); clear_value u))
    | with_reducible first | apply State.modPkg_inv | apply State.setReg_inv | apply State.raiseIrq_inv

theorem State.ballastCount_inv {s : State} (hI : s.Inv) : (State.ballastCount s).Inv := by
  unfold State.ballastCount
  repeat' first
    | with_reducible first | assumption | intro _
    | (with_reducible apply inv_same; with_reducible apply of_snd)
    | with_reducible first | apply State.drawNat_inv | apply State.modCore_inv | apply foldl_inv
    | split

theorem execCurrentSample_inv {draw : Nat} {s : State} (hI : s.Inv) : OutInv (execCurrentSample draw s) := by
  unfold execCurrentSample
  repeat' first
    | with_reducible assumption
    | ((fail_if_no_progress extract_lets +onlyGivenNames u); (first | (have hu : State.Inv u; (on_goal 1 => (unfold u; clear u)); (on_goal 2 => clear_value u)) | ((fail_if_success (have _ : ∀ x, u x = u x := fun _ => rfl)); clear_value u) | (unfold u; clear u)))
    | with_reducible first | apply State.modPkg_inv | apply State.currentLimit_inv | apply State.setReg_inv | apply State.ballastCount_inv | apply out_next
    | split
    | with_reducible first | apply And.intro | apply mem_swf | apply mmio_swf | apply pct_swf | apply owners_swf | apply peerRgn_swf | apply strands_ok | apply lcores_ok | apply crews_ok | apply fleets_ok | apply cores_len | apply pods_len | apply dies_len | apply zones_len | apply lcores_len | apply len_map
    | simp only [inv_mk_iff]

theorem execCurrentLimitEvent_inv {s : State} (hI : s.Inv) : OutInv (execCurrentLimitEvent s) := by
  unfold execCurrentLimitEvent
  repeat' first
    | with_reducible assumption
    | with_reducible first | apply State.currentLimit_inv | apply out_next
    | split

theorem execZoneEnterLowFlow_inv {z : Nat} {flow : BitVec 16} {s : State} (hI : s.Inv) : OutInv (execZoneEnterLowFlow z flow s) := by
  unfold execZoneEnterLowFlow
  repeat' first
    | with_reducible assumption
    | ((fail_if_no_progress extract_lets +onlyGivenNames u); (have hu : State.Inv u; (on_goal 1 => (unfold u; clear u)); (on_goal 2 => clear_value u)))
    | with_reducible first | apply State.senseFlow_inv | apply State.raiseIrq_inv | apply State.zoneSet_inv | apply out_next
    | split

theorem execZoneLeaveLowFlow_inv {z : Nat} {flow : BitVec 16} {s : State} (hI : s.Inv) : OutInv (execZoneLeaveLowFlow z flow s) := by
  unfold execZoneLeaveLowFlow
  repeat' first
    | with_reducible assumption
    | ((fail_if_no_progress extract_lets +onlyGivenNames u); (first | (have hu : State.Inv u; (on_goal 1 => (unfold u; clear u)); (on_goal 2 => clear_value u)) | ((fail_if_success (have _ : ∀ x, u x = u x := fun _ => rfl)); clear_value u)))
    | with_reducible first | apply State.senseFlow_inv | apply State.zoneSet_inv | apply out_next
    | split

theorem execZoneEnterHot_inv {z : Nat} {temp : BitVec 12} {s : State} (hI : s.Inv) : OutInv (execZoneEnterHot z temp s) := by
  unfold execZoneEnterHot
  repeat' first
    | with_reducible assumption
    | ((fail_if_no_progress extract_lets +onlyGivenNames u); (have hu : State.Inv u; (on_goal 1 => (unfold u; clear u)); (on_goal 2 => clear_value u)))
    | with_reducible first | apply State.senseTemp_inv | apply State.raiseIrq_inv | apply State.zoneSet_inv | apply out_next
    | split

theorem execZoneLeaveHot_inv {z : Nat} {temp : BitVec 12} {s : State} (hI : s.Inv) : OutInv (execZoneLeaveHot z temp s) := by
  unfold execZoneLeaveHot
  repeat' first
    | with_reducible assumption
    | ((fail_if_no_progress extract_lets +onlyGivenNames u); (first | (have hu : State.Inv u; (on_goal 1 => (unfold u; clear u)); (on_goal 2 => clear_value u)) | ((fail_if_success (have _ : ∀ x, u x = u x := fun _ => rfl)); clear_value u)))
    | with_reducible first | apply State.senseTemp_inv | apply State.zoneSet_inv | apply out_next
    | split

theorem execZoneEnterEvacuating_inv {z : Nat} {flow : BitVec 16} {void : Bool} {s : State} (hI : s.Inv) : OutInv (execZoneEnterEvacuating z flow void s) := by
  unfold execZoneEnterEvacuating
  repeat' first
    | with_reducible assumption
    | ((fail_if_no_progress extract_lets +onlyGivenNames u); (have hu : State.Inv u; (on_goal 1 => (unfold u; clear u)); (on_goal 2 => clear_value u)))
    | with_reducible first | apply State.senseFlow_inv | apply State.evacuate_inv | apply State.raiseIrq_inv | apply State.zoneSet_inv | apply out_next
    | split

theorem execZoneEnterTripped_inv {z : Nat} {temp : BitVec 12} {s : State} (hI : s.Inv) : OutInv (execZoneEnterTripped z temp s) := by
  unfold execZoneEnterTripped
  repeat' first
    | with_reducible assumption
    | ((fail_if_no_progress extract_lets +onlyGivenNames u); (have hu : State.Inv u; (on_goal 1 => (unfold u; clear u)); (on_goal 2 => clear_value u)))
    | with_reducible first | apply State.senseTemp_inv | apply State.evacuate_inv | apply State.raiseIrq_inv | apply State.zoneSet_inv | apply out_next
    | split

theorem execEvacuationSavesDone_inv {z : Nat} {s : State} (hI : s.Inv) : OutInv (execEvacuationSavesDone z s) := by
  unfold execEvacuationSavesDone
  repeat' first
    | with_reducible first | assumption | intro _
    | ((fail_if_no_progress extract_lets +onlyGivenNames u); (first | (have hu : State.Inv u; (on_goal 1 => (unfold u; clear u)); (on_goal 2 => clear_value u)) | ((fail_if_success (have _ : ∀ x, u x = u x := fun _ => rfl)); clear_value u)))
    | with_reducible first | apply State.flushPod_inv | apply State.modCore_inv | apply State.ncPoint_inv | apply State.zoneSet_inv | apply out_next | apply foldl_inv
    | split

theorem execZoneTripExit_inv {z : Nat} {temp : BitVec 12} {s : State} (hI : s.Inv) : OutInv (execZoneTripExit z temp s) := by
  unfold execZoneTripExit
  repeat' first
    | with_reducible assumption
    | ((fail_if_no_progress extract_lets +onlyGivenNames u); (first | (have hu : State.Inv u; (on_goal 1 => (unfold u; clear u)); (on_goal 2 => clear_value u)) | ((fail_if_success (have _ : ∀ x, u x = u x := fun _ => rfl)); clear_value u)))
    | with_reducible first | apply State.senseTemp_inv | apply State.zoneBack_inv | apply out_next
    | split

theorem execPurgeStart_inv {z : Nat} {s : State} (hI : s.Inv) : OutInv (execPurgeStart z s) := by
  unfold execPurgeStart
  repeat' first
    | with_reducible assumption
    | with_reducible first | apply State.zoneSet_inv | apply out_next
    | split

theorem execPurgeValveOpen_inv {z : Nat} {s : State} (hI : s.Inv) : OutInv (execPurgeValveOpen z s) := by
  unfold execPurgeValveOpen
  repeat' first
    | with_reducible assumption
    | ((fail_if_no_progress extract_lets +onlyGivenNames u); ((fail_if_success (have _ : ∀ x, u x = u x := fun _ => rfl)); clear_value u))
    | with_reducible first | apply State.zoneSet_inv | apply out_next
    | split

theorem execPurgeEnd_inv {z : Nat} {flow : BitVec 16} {s : State} (hI : s.Inv) : OutInv (execPurgeEnd z flow s) := by
  unfold execPurgeEnd
  repeat' first
    | with_reducible assumption
    | ((fail_if_no_progress extract_lets +onlyGivenNames u); (first | (have hu : State.Inv u; (on_goal 1 => (unfold u; clear u)); (on_goal 2 => clear_value u)) | ((fail_if_success (have _ : ∀ x, u x = u x := fun _ => rfl)); clear_value u)))
    | with_reducible first | apply State.senseFlow_inv | apply State.zoneBack_inv | apply State.zoneSet_inv | apply out_next
    | split

theorem State.zctlWrite_inv {s : State} {z : Nat} {v : Word} (hI : s.Inv) : (State.zctlWrite s z v).Inv := by
  unfold State.zctlWrite
  repeat' first
    | with_reducible assumption
    | with_reducible apply State.zoneSet_inv

theorem execZctlRetryWrite_inv {z : Nat} {v : Word} {s : State} (hI : s.Inv) : OutInv (execZctlRetryWrite z v s) := by
  unfold execZctlRetryWrite
  repeat' first
    | with_reducible assumption
    | with_reducible first | apply State.zctlWrite_inv | apply out_next

theorem State.clsreqOp_inv {s : State} {d : Nat} {v : Word} (hI : s.Inv) : (State.clsreqOp s d v).Inv := by
  unfold State.clsreqOp
  repeat' first
    | with_reducible assumption
    | ((fail_if_no_progress extract_lets +onlyGivenNames u); (first | ((fail_if_success (have _ : ∀ x, u x = u x := fun _ => rfl)); clear_value u) | (unfold u; clear u)))
    | with_reducible first | apply State.modDie_inv | apply State.withdrawPod_inv | apply State.modPod_inv
    | split

theorem execClsreqWrite_inv {core : Nat} {v : Word} {s : State} (hI : s.Inv) : OutInv (execClsreqWrite core v s) := by
  unfold execClsreqWrite
  repeat' first
    | with_reducible assumption
    | with_reducible first | apply State.clsreqOp_inv | apply out_next

theorem State.passcntOp_inv {s : State} {q : Nat} {v : Word} (hI : s.Inv) : (State.passcntOp s q v).Inv := by
  unfold State.passcntOp
  repeat' first
    | with_reducible assumption
    | ((fail_if_no_progress extract_lets +onlyGivenNames u); (have hu : State.Inv u; (on_goal 1 => (unfold u; clear u)); (on_goal 2 => clear_value u)))
    | with_reducible first | apply State.modPod_inv | apply State.setPass_inv
    | split

theorem execPasscntWrite_inv {core : Nat} {v : Word} {s : State} (hI : s.Inv) : OutInv (execPasscntWrite core v s) := by
  unfold execPasscntWrite
  repeat' first
    | with_reducible assumption
    | with_reducible first | apply State.passcntOp_inv | apply out_next

/-! ### Operations of Boot.lean -/

theorem State.stepSet_inv {s : State} {n : Nat} (hI : s.Inv) : (State.stepSet s n).Inv := by
  unfold State.stepSet
  repeat' first
    | with_reducible assumption
    | with_reducible apply State.modPkg_inv

theorem State.bring_inv {s : State} {f : Nat} {ok : Bool} (hI : s.Inv) : (State.bring s f ok).Inv := by
  unfold State.bring
  repeat' first
    | with_reducible assumption
    | ((fail_if_no_progress extract_lets +onlyGivenNames u); ((fail_if_success (have _ : ∀ x, u x = u x := fun _ => rfl)); clear_value u))
    | with_reducible apply State.setReg_inv
    | split

theorem State.runImage_inv {s : State} {k : Nat} {b : Image} {isB : Bool} (hI : s.Inv) : (State.runImage s k b isB).Inv := by
  unfold State.runImage
  repeat' first
    | with_reducible assumption
    | with_reducible apply State.modPkg_inv

theorem State.setPtp_inv {s : State} {offset : BitVec 32} {st : Nat} (hI : s.Inv) : (State.setPtp s offset st).Inv := by
  unfold State.setPtp
  repeat' first
    | with_reducible assumption
    | with_reducible apply State.setReg_inv

theorem State.clockStep_inv {s : State} {us : Nat} {f : Fleet} (hI : s.Inv) : (State.clockStep s us f).Inv := by
  unfold State.clockStep
  repeat' first
    | with_reducible assumption
    | with_reducible first | apply State.closeGroup_inv | apply State.modGroup_inv
    | split

theorem State.advance_inv {s : State} {ns : Nat} (hI : s.Inv) : (State.advance s ns).Inv := by
  unfold State.advance
  repeat' first
    | with_reducible first | assumption | intro _
    | ((fail_if_no_progress extract_lets +onlyGivenNames u); (first | (have hu : State.Inv u; (on_goal 1 => (unfold u; clear u)); (on_goal 2 => clear_value u)) | ((fail_if_success (have _ : ∀ x, u x = u x := fun _ => rfl)); clear_value u)))
    | (with_reducible apply inv_same; with_reducible assumption)
    | with_reducible first | apply State.clockStep_inv | apply foldl_inv

theorem State.evPut_inv {s : State} {buf : Nat} {st : Nat} (hI : s.Inv) : (State.evPut s buf st).Inv := by
  unfold State.evPut
  repeat' first
    | with_reducible assumption
    | with_reducible apply State.setReg_inv

theorem State.evServe_inv {s : State} {buf : Nat} (hI : s.Inv) : (State.evServe s buf).Inv := by
  unfold State.evServe
  repeat' first
    | with_reducible assumption
    | ((fail_if_no_progress extract_lets +onlyGivenNames u); (have hu : State.Inv u; (on_goal 1 => (unfold u; clear u)); (on_goal 2 => clear_value u)))
    | with_reducible first | apply State.evPut_inv | apply State.hwOpen_inv | apply State.hwPut_inv
    | split

theorem State.evFlush_inv {s : State} (hI : s.Inv) : s.evFlush.Inv := by
  unfold State.evFlush
  dsimp only
  split
  · exact State.evServe_inv hI
  · exact hI

theorem State.evreqOp_inv {s : State} {v : Word} (hI : s.Inv) : (State.evreqOp s v).Inv := by
  unfold State.evreqOp State.evPut
  dsimp only
  repeat' first
    | with_reducible first | assumption | apply State.evServe_inv | apply State.setReg_inv
    | split

theorem execPowerGood_inv {s : State} (hI : s.Inv) : OutInv (execPowerGood s) := by
  unfold execPowerGood
  repeat' first
    | with_reducible assumption
    | ((fail_if_no_progress extract_lets +onlyGivenNames u); (have hu : State.Inv u; (on_goal 1 => (unfold u; clear u)); (on_goal 2 => clear_value u)))
    | with_reducible first | apply State.modPkg_inv | apply State.stepSet_inv | apply State.runImage_inv | apply out_next
    | split

theorem execBootDieLinksMemory_inv {s : State} (hI : s.Inv) : OutInv (execBootDieLinksMemory s) := by
  unfold execBootDieLinksMemory
  repeat' first
    | with_reducible assumption
    | with_reducible first | apply State.stepSet_inv | apply out_next
    | split

theorem execMemoryReady_inv {f : Nat} {s : State} (hI : s.Inv) : OutInv (execMemoryReady f s) := by
  unfold execMemoryReady
  repeat' first
    | with_reducible assumption
    | ((fail_if_no_progress extract_lets +onlyGivenNames u); (first | (have hu : State.Inv u; (on_goal 1 => (unfold u; clear u)); (on_goal 2 => clear_value u)) | ((fail_if_success (have _ : ∀ x, u x = u x := fun _ => rfl)); clear_value u)))
    | with_reducible first | apply State.bring_inv | apply out_next
    | split
    | with_reducible first | apply sclear_swf | apply And.intro | apply mem_swf | apply mmio_swf | apply pct_swf | apply owners_swf | apply peerRgn_swf | apply strands_ok | apply lcores_ok | apply crews_ok | apply fleets_ok | apply cores_len | apply pods_len | apply dies_len | apply zones_len | apply lcores_len
    | simp only [inv_mk_iff]

theorem execBootPkgnum_inv {n : BitVec 8} {s : State} (hI : s.Inv) : OutInv (execBootPkgnum n s) := by
  unfold execBootPkgnum
  repeat' first
    | with_reducible assumption
    | ((fail_if_no_progress extract_lets +onlyGivenNames u); (first | (have hu : State.Inv u; (on_goal 1 => (unfold u; clear u)); (on_goal 2 => clear_value u)) | ((fail_if_success (have _ : ∀ x, u x = u x := fun _ => rfl)); clear_value u)))
    | with_reducible first | apply State.setReg_inv | apply State.stepSet_inv | apply State.modPkg_inv | apply State.peerHere_inv | apply out_next
    | split

theorem State.bringUp_inv {s : State} {f : Nat} (hI : s.Inv) : (State.bringUp s f).Inv := by
  unfold State.bringUp
  repeat' first
    | with_reducible first | assumption | apply State.bring_inv
    | split

theorem execBootLCoreImage_inv {s : State} (hI : s.Inv) : OutInv (execBootLCoreImage s) := by
  unfold execBootLCoreImage
  repeat' first
    | with_reducible assumption
    | with_reducible first | apply State.bringUp_inv | apply State.bring_inv | apply State.stepSet_inv | apply State.runImage_inv | apply out_next
    | split
    | with_reducible first | apply byteListSet_swf | apply And.intro | apply mem_swf | apply mmio_swf | apply pct_swf | apply owners_swf | apply peerRgn_swf | apply strands_ok | apply lcores_ok | apply crews_ok | apply fleets_ok | apply cores_len | apply pods_len | apply dies_len | apply zones_len | apply lcores_len
    | simp only [inv_mk_iff]

theorem execLCoreStart_inv {i : Nat} {s : State} (hI : s.Inv) : OutInv (execLCoreStart i s) := by
  unfold execLCoreStart
  repeat' first
    | with_reducible first | assumption | intro _
    | ((fail_if_no_progress extract_lets +onlyGivenNames u); ((fail_if_success (have _ : ∀ x, u x = u x := fun _ => rfl)); clear_value u))
    | with_reducible first | apply State.modLcore_inv | apply out_next
    | split
    | with_reducible first | apply sset_swf | apply And.intro

theorem execBootWDieMicrocode_inv {d : Nat} {s : State} (hI : s.Inv) : OutInv (execBootWDieMicrocode d s) := by
  unfold execBootWDieMicrocode
  repeat' first
    | with_reducible first | assumption | intro _
    | ((fail_if_no_progress extract_lets +onlyGivenNames u); (have hu : State.Inv u; (on_goal 1 => (unfold u; clear u)); (on_goal 2 => clear_value u)))
    | with_reducible first | apply State.bring_inv | apply State.setReg_inv | apply State.runImage_inv | apply out_next | apply foldl_inv
    | split
    | with_reducible first | apply sclear_swf | apply And.intro | apply mem_swf | apply mmio_swf | apply pct_swf | apply owners_swf | apply peerRgn_swf | apply strands_ok | apply lcores_ok | apply crews_ok | apply fleets_ok | apply cores_len | apply pods_len | apply dies_len | apply zones_len | apply lcores_len
    | simp only [inv_mk_iff]

theorem execPortTrained_inv {f : Nat} {s : State} (hI : s.Inv) : OutInv (execPortTrained f s) := by
  unfold execPortTrained
  repeat' first
    | with_reducible assumption
    | ((fail_if_no_progress extract_lets +onlyGivenNames u); (first | (have hu : State.Inv u; (on_goal 1 => (unfold u; clear u)); (on_goal 2 => clear_value u)) | ((fail_if_success (have _ : ∀ x, u x = u x := fun _ => rfl)); clear_value u)))
    | with_reducible first | apply State.bring_inv | apply State.setReg_inv | apply out_next
    | split

theorem execCollectiveEngineReady_inv {s : State} (hI : s.Inv) : OutInv (execCollectiveEngineReady s) := by
  unfold execCollectiveEngineReady
  repeat' first
    | with_reducible assumption
    | with_reducible first | apply State.bringUp_inv | apply out_next
    | split

theorem execManagementPortReady_inv {s : State} (hI : s.Inv) : OutInv (execManagementPortReady s) := by
  unfold execManagementPortReady
  repeat' first
    | with_reducible assumption
    | with_reducible first | apply State.setPtp_inv | apply State.bringUp_inv | apply out_next
    | split

theorem execPtpMessage_inv {offset : Int} {s : State} (hI : s.Inv) : OutInv (execPtpMessage offset s) := by
  unfold execPtpMessage
  repeat' first
    | with_reducible assumption
    | ((fail_if_no_progress extract_lets +onlyGivenNames u); (first | (have hu : State.Inv u; (on_goal 1 => (unfold u; clear u)); (on_goal 2 => clear_value u)) | ((fail_if_success (have _ : ∀ x, u x = u x := fun _ => rfl)); clear_value u)))
    | (with_reducible apply inv_same; with_reducible refine of_pairR (by assumption) ?_)
    | with_reducible first | apply State.modPkg_inv | apply State.setPtp_inv | apply State.drawNat_inv | apply State.advance_inv | apply State.stepSet_inv | apply out_next
    | split

theorem execPtpGrandmasterLoss_inv {s : State} (hI : s.Inv) : OutInv (execPtpGrandmasterLoss s) := by
  unfold execPtpGrandmasterLoss
  repeat' first
    | with_reducible assumption
    | with_reducible first | apply State.setPtp_inv | apply out_next
    | split

theorem execMgmtImageDelivery_inv {img : List Byte} {s : State} (hI : s.Inv) : OutInv (execMgmtImageDelivery img s) := by
  unfold execMgmtImageDelivery
  repeat' first
    | with_reducible assumption
    | ((fail_if_no_progress extract_lets +onlyGivenNames u); ((fail_if_success (have _ : ∀ x, u x = u x := fun _ => rfl)); clear_value u))
    | with_reducible first | apply State.modPkg_inv | apply out_next
    | split

theorem execMgmtRaiseMinVersion_inv {kind : BitVec 2} {v : BitVec 32} {s : State} (hI : s.Inv) : OutInv (execMgmtRaiseMinVersion kind v s) := by
  unfold execMgmtRaiseMinVersion
  repeat' first
    | with_reducible assumption
    | ((fail_if_no_progress extract_lets +onlyGivenNames u); (first | ((fail_if_success (have _ : ∀ x, u x = u x := fun _ => rfl)); clear_value u) | (unfold u; clear u)))
    | with_reducible first | apply State.modPkg_inv | apply out_next
    | split

theorem execMgmtEvidenceRequest_inv {nonce : List Byte} {s : State} (hI : s.Inv) : OutInv (execMgmtEvidenceRequest nonce s) := by
  unfold execMgmtEvidenceRequest
  repeat' first
    | with_reducible assumption
    | with_reducible first | apply State.modPkg_inv | apply out_next
    | split

theorem State.packageReset_inv {s : State} (hI : s.Inv) (h0 : State.reset.Inv) : (State.packageReset s).Inv := by
  unfold State.packageReset
  repeat' first
    | with_reducible first | assumption | intro _
    | ((fail_if_no_progress extract_lets +onlyGivenNames u); (first | (have hu : State.Inv u; (on_goal 1 => (unfold u; clear u)); (on_goal 2 => clear_value u)) | ((fail_if_success (have _ : ∀ x, u x = u x := fun _ => rfl)); clear_value u)))
    | with_reducible first | apply sset_swf | apply foldl_swf | apply And.intro | apply mem_swf | apply mmio_swf | apply pct_swf | apply owners_swf | apply peerRgn_swf | apply strands_ok | apply lcores_ok | apply crews_ok | apply fleets_ok | apply cores_len | apply pods_len | apply dies_len | apply zones_len | apply lcores_len
    | simp only [inv_mk_iff]

theorem execEvreqGo_inv {v : Word} {s : State} (hI : s.Inv) : OutInv (execEvreqGo v s) := by
  unfold execEvreqGo
  repeat' first
    | with_reducible assumption
    | with_reducible first | apply State.evreqOp_inv | apply out_next

/-! ### Operations of Converge.lean -/

theorem State.onCv_inv {s : State} {rd : Reg} {n : BitVec 4} {g : Strand → Crew → Nat → Out} (hI : s.Inv) (h_g : ∀ x0 x1 x2, OutInv (g x0 x1 x2)) : OutInv (State.onCv s rd n g) := by
  unfold State.onCv
  repeat' first
    | with_reducible first | assumption | intro _
    | with_reducible first | apply h_g | apply State.onCrew_inv | apply State.illegal_inv | apply State.status_inv
    | split

theorem State.arrive_inv {s : State} {rd : Reg} {n : BitVec 4} {rx : Bool} {waits : Bool} (hI : s.Inv) : OutInv (State.arrive s rd n rx waits) := by
  unfold State.arrive
  repeat' first
    | with_reducible first | assumption | intro _
    | ((fail_if_no_progress extract_lets +onlyGivenNames u); (first | (have hu : State.Inv u; (on_goal 1 => (unfold u; clear u)); (on_goal 2 => clear_value u)) | ((fail_if_success (have _ : ∀ x, u x = u x := fun _ => rfl)); clear_value u)))
    | (with_reducible apply inv_same; with_reducible refine of_next (by assumption) ?_)
    | with_reducible first | apply State.onCv_inv | apply State.mismatch_inv | apply State.await_inv | apply State.release_inv | apply State.cvArrive_inv | apply State.status_inv | apply out_next | apply out_fault | apply out_refused
    | split

theorem State.waitToken_inv {s : State} {rd : Reg} {a : Reg} {n : BitVec 4} {try' : Bool} (hI : s.Inv) : OutInv (State.waitToken s rd a n try') := by
  unfold State.waitToken
  repeat' first
    | with_reducible first | assumption | intro _
    | ((fail_if_no_progress extract_lets +onlyGivenNames u); (first | (have hu : OutInv u; (on_goal 1 => (unfold u; clear u)); (on_goal 2 => clear_value u)) | ((fail_if_success (have _ : ∀ x, u x = u x := fun _ => rfl)); clear_value u)))
    | with_reducible first | apply State.onCv_inv | apply State.status_inv | apply State.await_inv | apply State.acquire_inv | apply out_next
    | split

theorem execCvJoin_inv {rd : Reg} {n : BitVec 4} {s : State} (hI : s.Inv) : OutInv (execCvJoin rd n s) := by
  unfold execCvJoin
  repeat' first
    | with_reducible first | assumption | intro _
    | with_reducible first | apply State.onCv_inv | apply State.status_inv | apply State.modCv_inv
    | split

theorem execCvJoinCrew_inv {rd : Reg} {n : BitVec 4} {s : State} (hI : s.Inv) : OutInv (execCvJoinCrew rd n s) := by
  unfold execCvJoinCrew
  repeat' first
    | with_reducible first | assumption | intro _
    | with_reducible first | apply State.onCv_inv | apply State.status_inv | apply State.modCv_inv
    | split

theorem execCvQuit_inv {rd : Reg} {n : BitVec 4} {s : State} (hI : s.Inv) : OutInv (execCvQuit rd n s) := by
  unfold execCvQuit
  repeat' first
    | with_reducible first | assumption | intro _
    | with_reducible first | apply State.onCv_inv | apply State.status_inv | apply State.cvQuit_inv
    | split

theorem execCvBar_inv {rd : Reg} {n : BitVec 4} {s : State} (hI : s.Inv) : OutInv (execCvBar rd n s) := by
  unfold execCvBar
  repeat' first
    | with_reducible assumption
    | with_reducible apply State.arrive_inv

theorem execCvBarRx_inv {rd : Reg} {n : BitVec 4} {s : State} (hI : s.Inv) : OutInv (execCvBarRx rd n s) := by
  unfold execCvBarRx
  repeat' first
    | with_reducible assumption
    | with_reducible apply State.arrive_inv

theorem execCvArv_inv {rd : Reg} {n : BitVec 4} {s : State} (hI : s.Inv) : OutInv (execCvArv rd n s) := by
  unfold execCvArv
  repeat' first
    | with_reducible assumption
    | with_reducible apply State.arrive_inv

theorem execCvArvRx_inv {rd : Reg} {n : BitVec 4} {s : State} (hI : s.Inv) : OutInv (execCvArvRx rd n s) := by
  unfold execCvArvRx
  repeat' first
    | with_reducible assumption
    | with_reducible apply State.arrive_inv

theorem execCvWt_inv {rd : Reg} {a : Reg} {n : BitVec 4} {s : State} (hI : s.Inv) : OutInv (execCvWt rd a n s) := by
  unfold execCvWt
  repeat' first
    | with_reducible assumption
    | with_reducible apply State.waitToken_inv

theorem execCvWtTry_inv {rd : Reg} {a : Reg} {n : BitVec 4} {s : State} (hI : s.Inv) : OutInv (execCvWtTry rd a n s) := by
  unfold execCvWtTry
  repeat' first
    | with_reducible assumption
    | with_reducible apply State.waitToken_inv

theorem execCvQry_inv {rd : Reg} {a : Reg} {n : BitVec 4} {s : State} (hI : s.Inv) : OutInv (execCvQry rd a n s) := by
  unfold execCvQry
  repeat' first
    | with_reducible first | assumption | intro _
    | with_reducible first | apply State.onCv_inv | apply State.status_inv

theorem execBarrierPhaseRelease_inv {crew : Nat} {n : Nat} {s : State} (hI : s.Inv) : OutInv (execBarrierPhaseRelease crew n s) := by
  unfold execBarrierPhaseRelease
  repeat' first
    | with_reducible assumption
    | with_reducible first | apply State.cvWake_inv | apply State.modCv_inv | apply out_next

theorem State.lane_inv {s : State} {rd : Reg} {a : Reg} {n : BitVec 4} {group : Nat} {sig : List Nat} {idx : Nat} (hI : s.Inv) : OutInv (State.lane s rd a n group sig idx) := by
  unfold State.lane
  repeat' first
    | with_reducible first | assumption | intro _
    | ((fail_if_no_progress extract_lets +onlyGivenNames u); ((fail_if_success (have _ : ∀ x, u x = u x := fun _ => rfl)); clear_value u))
    | with_reducible first | apply State.onCrew_inv | apply State.illegal_inv | apply State.mismatch_inv | apply State.await_inv | apply State.cvSign_inv | apply out_next
    | split

theorem State.laneUni_inv {s : State} {rd : Reg} {a : Reg} {b : Reg} {n : BitVec 4} {group : Nat} (hI : s.Inv) : OutInv (State.laneUni s rd a b n group) := by
  unfold State.laneUni
  repeat' first
    | with_reducible assumption
    | with_reducible apply State.lane_inv

theorem execGpShflIdx_inv {rd : Reg} {a : Reg} {b : Reg} {n : BitVec 4} {s : State} (hI : s.Inv) : OutInv (execGpShflIdx rd a b n s) := by
  unfold execGpShflIdx
  repeat' first
    | with_reducible assumption
    | with_reducible apply State.lane_inv

theorem execGpShflXor_inv {rd : Reg} {a : Reg} {b : Reg} {n : BitVec 4} {s : State} (hI : s.Inv) : OutInv (execGpShflXor rd a b n s) := by
  unfold execGpShflXor
  repeat' first
    | with_reducible assumption
    | with_reducible apply State.laneUni_inv

theorem execGpShflUp_inv {rd : Reg} {a : Reg} {b : Reg} {n : BitVec 4} {s : State} (hI : s.Inv) : OutInv (execGpShflUp rd a b n s) := by
  unfold execGpShflUp
  repeat' first
    | with_reducible assumption
    | with_reducible apply State.laneUni_inv

theorem execGpShflDn_inv {rd : Reg} {a : Reg} {b : Reg} {n : BitVec 4} {s : State} (hI : s.Inv) : OutInv (execGpShflDn rd a b n s) := by
  unfold execGpShflDn
  repeat' first
    | with_reducible assumption
    | with_reducible apply State.laneUni_inv

theorem execGpBcst_inv {rd : Reg} {a : Reg} {b : Reg} {n : BitVec 4} {s : State} (hI : s.Inv) : OutInv (execGpBcst rd a b n s) := by
  unfold execGpBcst
  repeat' first
    | with_reducible assumption
    | with_reducible apply State.laneUni_inv

theorem execGpAll_inv {rd : Reg} {a : Reg} {n : BitVec 4} {s : State} (hI : s.Inv) : OutInv (execGpAll rd a n s) := by
  unfold execGpAll
  repeat' first
    | with_reducible assumption
    | with_reducible apply State.lane_inv

theorem execGpAny_inv {rd : Reg} {a : Reg} {n : BitVec 4} {s : State} (hI : s.Inv) : OutInv (execGpAny rd a n s) := by
  unfold execGpAny
  repeat' first
    | with_reducible assumption
    | with_reducible apply State.lane_inv

theorem execGpUni_inv {rd : Reg} {a : Reg} {n : BitVec 4} {s : State} (hI : s.Inv) : OutInv (execGpUni rd a n s) := by
  unfold execGpUni
  repeat' first
    | with_reducible assumption
    | with_reducible apply State.lane_inv

theorem execGpBlt_inv {rd : Reg} {a : Reg} {n : BitVec 4} {s : State} (hI : s.Inv) : OutInv (execGpBlt rd a n s) := by
  unfold execGpBlt
  repeat' first
    | with_reducible assumption
    | with_reducible apply State.lane_inv

theorem execGpPcnt_inv {rd : Reg} {a : Reg} {n : BitVec 4} {s : State} (hI : s.Inv) : OutInv (execGpPcnt rd a n s) := by
  unfold execGpPcnt
  repeat' first
    | with_reducible assumption
    | with_reducible apply State.lane_inv

theorem execGpMtchLdr_inv {rd : Reg} {a : Reg} {n : BitVec 4} {s : State} (hI : s.Inv) : OutInv (execGpMtchLdr rd a n s) := by
  unfold execGpMtchLdr
  repeat' first
    | with_reducible assumption
    | with_reducible apply State.lane_inv

theorem execGpMtchCnt_inv {rd : Reg} {a : Reg} {n : BitVec 4} {s : State} (hI : s.Inv) : OutInv (execGpMtchCnt rd a n s) := by
  unfold execGpMtchCnt
  repeat' first
    | with_reducible assumption
    | with_reducible apply State.lane_inv

theorem execGpRed_inv {op : GOp} {rd : Reg} {a : Reg} {n : BitVec 4} {s : State} (hI : s.Inv) : OutInv (execGpRed op rd a n s) := by
  unfold execGpRed
  repeat' first
    | with_reducible assumption
    | with_reducible apply State.lane_inv

theorem execGpScan_inv {op : GOp} {rd : Reg} {a : Reg} {n : BitVec 4} {s : State} (hI : s.Inv) : OutInv (execGpScan op rd a n s) := by
  unfold execGpScan
  repeat' first
    | with_reducible assumption
    | with_reducible apply State.lane_inv

theorem execGpXscan_inv {op : GOp} {rd : Reg} {a : Reg} {n : BitVec 4} {s : State} (hI : s.Inv) : OutInv (execGpXscan op rd a n s) := by
  unfold execGpXscan
  repeat' first
    | with_reducible assumption
    | with_reducible apply State.lane_inv

theorem execGpRedAddF_inv {p : FPrec} {rd : Reg} {a : Reg} {n : BitVec 4} {s : State} (hI : s.Inv) : OutInv (execGpRedAddF p rd a n s) := by
  unfold execGpRedAddF
  repeat' first
    | with_reducible assumption
    | with_reducible apply State.lane_inv

theorem execGpRedMinF_inv {p : FPrec} {rd : Reg} {a : Reg} {n : BitVec 4} {s : State} (hI : s.Inv) : OutInv (execGpRedMinF p rd a n s) := by
  unfold execGpRedMinF
  repeat' first
    | with_reducible assumption
    | with_reducible apply State.lane_inv

theorem execGpRedMaxF_inv {p : FPrec} {rd : Reg} {a : Reg} {n : BitVec 4} {s : State} (hI : s.Inv) : OutInv (execGpRedMaxF p rd a n s) := by
  unfold execGpRedMaxF
  repeat' first
    | with_reducible assumption
    | with_reducible apply State.lane_inv

theorem execGpScanAddF_inv {p : FPrec} {rd : Reg} {a : Reg} {n : BitVec 4} {s : State} (hI : s.Inv) : OutInv (execGpScanAddF p rd a n s) := by
  unfold execGpScanAddF
  repeat' first
    | with_reducible assumption
    | with_reducible apply State.lane_inv

theorem execGpXscanAddF_inv {p : FPrec} {rd : Reg} {a : Reg} {n : BitVec 4} {s : State} (hI : s.Inv) : OutInv (execGpXscanAddF p rd a n s) := by
  unfold execGpXscanAddF
  repeat' first
    | with_reducible assumption
    | with_reducible apply State.lane_inv

/-! ### Operations of Mmio.lean -/

theorem State.setLg_inv {s : State} {pa : Nat} {v : Word} (hI : s.Inv) : (State.setLg s pa v).Inv := by
  unfold State.setLg
  repeat' first
    | with_reducible assumption
    | with_reducible apply State.setReg_inv
    | split

theorem State.tlimWrite_inv {s : State} {v : Word} (h : s.Inv) : (s.tlimWrite v).Inv := by
  have h1 : (s.setReg (powerBase + 0x30) (v &&& 0x0FFF0FFF)).Inv := State.setReg_inv h
  refine ⟨h1.1, h1.2.1, h1.2.2.1, h1.2.2.2.1, h1.2.2.2.2.1, ?_, h1.2.2.2.2.2.2⟩
  exact len_zip (zones_len h) (by rw [zones_len h])

theorem State.regWrite_inv {s : State} {m full : Bool} {pa : Nat} {v w1 : Word} (h : s.Inv) :
    (s.regWrite m full pa v w1).Inv := by
  have hr : ∀ p x, (s.setReg p x).Inv := fun p x => State.setReg_inv h
  unfold State.regWrite
  extract_lets o d put act all
  have hput : ∀ x, (put x).Inv := fun x => hr _ _
  have hact : ∀ g : State, g.Inv → (act g).Inv := by
    intro g hg; dsimp only [act]; split <;> assumption
  have hlg : (s.setLg pa v).Inv := State.setLg_inv h
  clear_value put act all o d
  split
  · split
    all_goals first | exact hput _ | exact h | exact hlg | refine hact _ ?_
    · exact State.recallOp_inv (hput _)
    · exact State.killOp_inv (hput _)
    · exact State.framefreeOp_inv (hput _)
  · split
    all_goals first | exact hput _ | exact hr _ _ | exact h
  · split
    all_goals first | exact hput _ | exact h
  · split
    all_goals first | exact hput _ | exact h | exact hlg | exact hact _ (State.fwdrsmOp_inv (hput _))
  · split
    · exact State.dbgHaltOp_inv h
    · exact hput _
    · exact hact _ (State.dbgCommand_inv h)
    · exact hput _
    · exact hact _ (State.dbgAccess_inv h)
    · exact h
  · split
    · exact h
    · split
      · exact hact _ (State.ivgoOp_inv h)
      · exact hput _
  · split
    all_goals first | exact hput _ | exact hr _ _ | exact State.tlimWrite_inv h | skip
    split
    · split
      · exact State.zctlWrite_inv h
      · exact State.zoneSet_inv h
    · exact h
  · split
    · split
      · exact hput _
      · exact h
    · exact hact _ (State.evreqOp_inv h)
    · exact h
  · exact h

theorem State.mmioRead_inv {s : State} {i pa n : Nat} (h : s.Inv) : PairInvL (s.mmioRead i pa n) := by
  unfold State.mmioRead
  extract_lets r data v
  clear_value data v r
  split
  · exact State.dbgAccess_inv h
  · split <;> exact pairL_mk h

theorem State.mmioWrite_inv {s : State} {m : Bool} {pa : Nat} {n : Nat} {v : Word} (hI : s.Inv) : (State.mmioWrite s m pa n v).Inv := by
  unfold State.mmioWrite
  repeat' first
    | with_reducible assumption
    | ((fail_if_no_progress extract_lets +onlyGivenNames u); ((fail_if_success (have _ : ∀ x, u x = u x := fun _ => rfl)); clear_value u))
    | with_reducible apply State.regWrite_inv
    | split

theorem State.loadAny_inv {s : State} {va : Word} {n : Nat} {k : optParam AccKind AccKind.load} (hI : s.Inv) : Res.Inv (State.loadAny s va n k) := by
  unfold State.loadAny
  repeat' first
    | with_reducible first | assumption | intro _
    | (with_reducible apply inv_same; with_reducible refine of_pairL (by assumption) ?_)
    | with_reducible first | apply Res.bind_inv | apply State.loadMem_inv | apply State.mmioRead_inv | apply res_ok | apply res_trap | apply res_stall
    | split

theorem State.storeAny_inv {s : State} {va : Word} {n : Nat} {v : Nat} (hI : s.Inv) : Res.Inv (State.storeAny s va n v) := by
  unfold State.storeAny
  repeat' first
    | with_reducible first | assumption | intro _
    | with_reducible first | apply Res.bind_inv | apply State.storeMem_inv | apply State.mmioWrite_inv | apply res_ok | apply res_trap
    | split

theorem execLoad_inv {k : LoadKind} {rd : Reg} {a : Reg} {imm : BitVec 12} {s : State} (hI : s.Inv) : OutInv (execLoad k rd a imm s) := by
  unfold execLoad
  repeat' first
    | with_reducible first | assumption | intro _
    | ((fail_if_no_progress extract_lets +onlyGivenNames u); (unfold u; clear u))
    | with_reducible first | apply Res.run_inv | apply State.loadAny_inv | apply State.next_inv | apply State.mark_inv | apply State.setF_inv | apply State.loaded_inv | apply State.onAny_inv | apply State.withFp_inv
    | split

theorem execStore_inv {k : StoreKind} {a : Reg} {b : Reg} {imm : BitVec 12} {s : State} (hI : s.Inv) : OutInv (execStore k a b imm s) := by
  unfold execStore
  repeat' first
    | with_reducible first | assumption | intro _
    | ((fail_if_no_progress extract_lets +onlyGivenNames u); (first | ((fail_if_success (have _ : ∀ x, u x = u x := fun _ => rfl)); clear_value u) | (unfold u; clear u)))
    | with_reducible first | apply Res.run_inv | apply State.storeAny_inv | apply State.next_inv | apply State.onAny_inv | apply State.withFp_inv
    | split

theorem execRegisterWrite_inv {pa : Nat} {half : Bool} {v : Word} {s : State} (hI : s.Inv) : OutInv (execRegisterWrite pa half v s) := by
  unfold execRegisterWrite
  repeat' first
    | with_reducible assumption
    | ((fail_if_no_progress extract_lets +onlyGivenNames u); ((fail_if_success (have _ : ∀ x, u x = u x := fun _ => rfl)); clear_value u))
    | with_reducible first | apply State.mmioWrite_inv | apply out_next
    | split

theorem execReplicaUpdate_inv {die : Nat} {idx : Nat} {s : State} (hI : s.Inv) : OutInv (execReplicaUpdate die idx s) := by
  unfold execReplicaUpdate
  repeat' first
    | with_reducible assumption
    | with_reducible first | apply State.deliver_inv | apply out_next
    | split

theorem execUeWriteback_inv {line : Nat} {s : State} (hI : s.Inv) : OutInv (execUeWriteback line s) := by
  unfold execUeWriteback
  repeat' first
    | with_reducible assumption
    | ((fail_if_no_progress extract_lets +onlyGivenNames u); (first | (have hu : State.Inv u; (on_goal 1 => (unfold u; clear u)); (on_goal 2 => clear_value u)) | ((fail_if_success (have _ : ∀ x, u x = u x := fun _ => rfl)); clear_value u)))
    | with_reducible first | apply State.faultRecord_inv | apply out_next
    | split
    | with_reducible first | apply sset_swf | apply And.intro | apply mem_swf | apply mmio_swf | apply pct_swf | apply owners_swf | apply peerRgn_swf | apply strands_ok | apply lcores_ok | apply crews_ok | apply fleets_ok | apply cores_len | apply pods_len | apply dies_len | apply zones_len | apply lcores_len
    | simp only [inv_mk_iff]

theorem State.lineLost_inv {s : State} {k : Nat} {line : Nat} (hI : s.Inv) : (State.lineLost s k line).Inv := by
  unfold State.lineLost
  repeat' first
    | with_reducible first | assumption | intro _
    | ((fail_if_no_progress extract_lets +onlyGivenNames u); (have hu : State.Inv u; (on_goal 1 => (unfold u; clear u)); (on_goal 2 => clear_value u)))
    | (with_reducible apply inv_same; with_reducible assumption)
    | with_reducible first | apply State.modStrand_inv | apply State.leaveWait_inv | apply State.forward_inv
    | split

theorem execUeCoreStorage_inv {u : UeSite} {s : State} (hI : s.Inv) : OutInv (execUeCoreStorage u s) := by
  unfold execUeCoreStorage
  repeat' first
    | with_reducible first | assumption | intro _
    | ((fail_if_no_progress extract_lets +onlyGivenNames u); (first | (have hu : State.Inv u; (on_goal 1 => (unfold u; clear u)); (on_goal 2 => clear_value u)) | ((fail_if_success (have _ : ∀ x, u x = u x := fun _ => rfl)); clear_value u)))
    | with_reducible first | apply State.modCrew_inv | apply State.faultRecord_inv | apply State.strandRecord_inv | apply State.modStrand_inv | apply State.lineLost_inv | apply out_next
    | split
    | with_reducible apply And.intro

/-! ### Operations of Csr.lean -/

theorem State.cpsplOp_inv {s : State} {k : Nat} {v : Word} (hI : s.Inv) : OptInv (State.cpsplOp s k v) := by
  unfold State.cpsplOp
  repeat' first
    | with_reducible first | assumption | intro _
    | with_reducible first | apply State.modStrand_inv | apply opt_some | apply opt_none
    | split
    | with_reducible apply Strand.setCw_swf

theorem State.frecbaseOp_inv {s : State} {core : Nat} {v : Word} (hI : s.Inv) : (State.frecbaseOp s core v).Inv := by
  unfold State.frecbaseOp
  repeat' first
    | with_reducible assumption
    | with_reducible apply State.modCore_inv

theorem State.bstmaxOp_inv {s : State} {q : Nat} {v : Word} (hI : s.Inv) : (State.bstmaxOp s q v).Inv := by
  unfold State.bstmaxOp
  repeat' first
    | with_reducible assumption
    | ((fail_if_no_progress extract_lets +onlyGivenNames u); ((fail_if_success (have _ : ∀ x, u x = u x := fun _ => rfl)); clear_value u))
    | with_reducible apply State.modPod_inv

theorem State.selmelWrite_inv {s : State} {core : Nat} {n : Nat} {v : Word} (hI : s.Inv) : (State.selmelWrite s core n v).Inv := by
  unfold State.selmelWrite
  repeat' first
    | with_reducible assumption
    | with_reducible first | apply State.passcntOp_inv | apply State.frecbaseOp_inv | apply State.bstmaxOp_inv | apply State.modCore_inv
    | split

theorem State.csrWrite_inv {s : State} {t : Strand} {c : Crew} {n : Nat} {v : Word} (hI : s.Inv) : OptInv (State.csrWrite s t c n v) := by
  unfold State.csrWrite
  repeat' first
    | with_reducible first | assumption | intro _
    | ((fail_if_no_progress extract_lets +onlyGivenNames u); (unfold u; clear u))
    | with_reducible first | apply State.setCtx_inv | apply State.setFcsr_inv | apply State.cpsplOp_inv | apply State.modCrew_inv | apply State.modDie_inv | apply State.modPkg_inv | apply State.clsreqOp_inv | apply opt_some
    | split
    | with_reducible apply And.intro

theorem State.csrStrand_inv {s : State} {t : Strand} {c : Crew} {op : CsrOp} {rd : Reg} {wr : Bool} {src : Word} {n : Nat} (hI : s.Inv) : OutInv (State.csrStrand s t c op rd wr src n) := by
  unfold State.csrStrand
  repeat' first
    | with_reducible assumption
    | ((fail_if_no_progress extract_lets +onlyGivenNames u); ((fail_if_success (have _ : ∀ x, u x = u x := fun _ => rfl)); clear_value u))
    | (with_reducible apply inv_same; with_reducible refine of_opt (by assumption) ?_)
    | with_reducible first | apply State.coreClass_inv | apply State.illegal_inv | apply State.status_inv | apply State.csrWrite_inv | apply State.stall_inv
    | split

theorem State.vecDirty_inv {s : State} {i : Nat} (hI : s.Inv) : (State.vecDirty s i).Inv := by
  refine State.modLcore_inv hI fun _ h1 h2 h3 => ?_
  extract_lets c
  refine ⟨h1, ?_, h3⟩
  unfold c
  dsimp only
  split
  · exact sset_swf (sset_swf h2)
  · exact sset_swf h2

theorem State.eiWrite_swf {l : LCore} {sup : Bool} {sel : Nat} {v : Word} (h : swf l.ctx = true ∧ swf l.csr = true ∧ swf l.vec = true) :
    swf (State.eiWrite l sup sel v).ctx = true ∧ swf (State.eiWrite l sup sel v).csr = true ∧ swf (State.eiWrite l sup sel v).vec = true := by
  unfold State.eiWrite
  extract_lets ok
  clear_value ok
  split
  · exact ⟨h.1, sset_swf h.2.1, h.2.2⟩
  · exact h

theorem State.eiPend_swf {l : LCore} {sup : Bool} {id : Nat} {b : Bool} (h : swf l.ctx = true ∧ swf l.csr = true ∧ swf l.vec = true) :
    swf (State.eiPend l sup id b).ctx = true ∧ swf (State.eiPend l sup id b).csr = true ∧ swf (State.eiPend l sup id b).vec = true := by
  unfold State.eiPend
  dsimp only
  split
  · exact h
  · exact State.eiWrite_swf h

theorem State.msiOp_inv {s : State} {i : Nat} {sup : Bool} {id : Nat} (hI : s.Inv) : (State.msiOp s i sup id).Inv :=
  State.modLcore_inv hI fun _ h1 h2 h3 => State.eiPend_swf ⟨h1, h2, h3⟩

theorem State.iregWrite_inv {s : State} {i : Nat} {sup : Bool} {v : Word} (hI : s.Inv) : (State.iregWrite s i sup v).Inv := by
  refine State.modLcore_inv hI fun _ h1 h2 h3 => ?_
  extract_lets sel
  clear_value sel
  split
  · exact State.eiWrite_swf ⟨h1, h2, h3⟩
  · exact ⟨h1, h2, h3⟩

theorem State.lcsrRead_inv {s : State} {i n : Nat} (h : s.Inv) : PairInvL (s.lcsrRead i n) := by
  have hd : ∀ v : Nat → Word, PairInvL (match s.drawNat with | (k, s) => (s, v k)) := fun v => inv_same h
  unfold State.lcsrRead
  extract_lets l
  clear_value l
  split
  all_goals first | exact pairL_mk h | exact hd _

theorem State.lcsrPut_inv {s : State} {i n : Nat} {v m : Word} (hI : s.Inv) : (State.lcsrPut s i n v m).Inv :=
  State.modLcore_inv hI fun _ h1 h2 h3 => ⟨h1, sset_swf h2, h3⟩

theorem State.lcsrWrite_inv {s : State} {i : Nat} {n : Nat} {v : Word} (hI : s.Inv) : (State.lcsrWrite s i n v).Inv := by
  unfold State.lcsrWrite
  repeat' first
    | with_reducible first | assumption | intro _
    | ((fail_if_no_progress extract_lets +onlyGivenNames u); (first | ((fail_if_success (have _ : ∀ x, u x = u x := fun _ => rfl)); clear_value u) | (unfold u; clear u)))
    | with_reducible first | apply State.lcsrPut_inv | apply State.iregWrite_inv | (refine State.modLcore_inv ?_ fun _ h1 h2 h3 => State.eiPend_swf ⟨h1, h2, h3⟩) | apply State.modLcore_inv | apply State.setFcsr_inv
    | split
    | with_reducible first | apply sset_swf | apply And.intro

theorem State.csrL_inv {s : State} {i : Nat} {op : CsrOp} {rd : Reg} {wr : Bool} {src : Word} {n : Nat} (hI : s.Inv) : OutInv (State.csrL s i op rd wr src n) := by
  unfold State.csrL
  repeat' first
    | with_reducible assumption
    | ((fail_if_no_progress extract_lets +onlyGivenNames u); (first | (have hu : swf (LCore.ctx u) = true ∧ swf (LCore.csr u) = true ∧ swf (LCore.vec u) = true; (on_goal 1 => (unfold u; clear u)); (on_goal 2 => clear_value u)) | ((fail_if_success (have _ : ∀ x, u x = u x := fun _ => rfl)); clear_value u)))
    | (with_reducible apply inv_same; with_reducible apply of_fst)
    | with_reducible first | apply State.coreClass_inv | apply State.illegal_inv | apply State.lcsrRead_inv | apply State.fpDirty_inv | apply State.vecDirty_inv | apply State.status_inv | apply State.lcsrWrite_inv | apply State.virtualInst_inv | apply out_refused
    | split
    | with_reducible first | apply And.intro | exact (lcoreAt_swf (by assumption)).1 | exact (lcoreAt_swf (by assumption)).2 | exact lcoreAt_vec (by assumption)

theorem execCsrAccess_inv {op : CsrOp} {imm : Bool} {rd : Reg} {src : Reg} {csr : BitVec 12} {s : State} (hI : s.Inv) : OutInv (execCsrAccess op imm rd src csr s) := by
  unfold execCsrAccess
  repeat' first
    | with_reducible first | assumption | intro _
    | ((fail_if_no_progress extract_lets +onlyGivenNames u); ((fail_if_success (have _ : ∀ x, u x = u x := fun _ => rfl)); clear_value u))
    | with_reducible first | apply State.onAny_inv | apply State.onCrew_inv | apply State.csrStrand_inv | apply State.csrL_inv
    | split

theorem execCpsplWrite_inv {k : Nat} {v : Word} {s : State} (hI : s.Inv) : OutInv (execCpsplWrite k v s) := by
  unfold execCpsplWrite
  repeat' first
    | with_reducible assumption
    | (with_reducible apply inv_same; with_reducible refine of_opt (by assumption) ?_)
    | with_reducible first | apply State.cpsplOp_inv | apply out_next
    | split

theorem execFrecbaseWrite_inv {core : Nat} {v : Word} {s : State} (hI : s.Inv) : OutInv (execFrecbaseWrite core v s) := by
  unfold execFrecbaseWrite
  repeat' first
    | with_reducible assumption
    | with_reducible first | apply State.frecbaseOp_inv | apply out_next

/-! ### Operations of Vector.lean -/

theorem State.setV_inv {s : State} {i n : Nat} {v : Word} (hI : s.Inv) : (State.setV s i n v).Inv :=
  State.modLcore_inv hI fun _ h1 h2 h3 => ⟨h1, sset_swf h2, h3⟩

theorem State.putV_inv {s : State} {i : Nat} {ws : List (Nat × Nat × Nat)} (hI : s.Inv) : (State.putV s i ws).Inv := by
  refine State.modLcore_inv hI fun _ h1 h2 h3 => ⟨h1, h2, ?_⟩
  have h : ∀ (l : List (Nat × Nat × Nat)) (m : Sparse 8), swf m = true →
      swf (l.foldl (fun m w => bytesSet m w.1 w.2.2 w.2.1) m) = true := by
    intro l
    induction l with
    | nil => exact fun _ h => h
    | cons w l ih => exact fun m h => ih _ (bytesSet_swf h)
  exact h _ _ h3

theorem State.vDone_inv {s : State} {i : Nat} (hI : s.Inv) : OutInv (State.vDone s i) :=
  State.next_inv (State.vecDirty_inv (State.setV_inv hI))

theorem State.vApply_inv {s : State} {i : Nat} {r : VRes} (hI : s.Inv) : OutInv (State.vApply s i r) := by
  unfold State.vApply
  extract_lets s0 s1 s2 s3
  have h0 : s0.Inv := State.putV_inv hI
  have h1 : s1.Inv := by
    unfold s1
    split
    · exact State.setX_inv h0
    · exact h0
  have h2 : s2.Inv := by
    unfold s2
    split
    · exact State.setF_inv h1
    · exact h1
  have h3 : s3.Inv := by
    unfold s3
    split
    · exact State.setV_inv h2
    · exact h2
  exact State.vDone_inv (State.accrue_inv h3)

theorem State.vSet_inv {s : State} {i : Nat} {rd : Reg} {t : Word} {avl : Option Nat} (hI : s.Inv) : OutInv (State.vSet s i rd t avl) :=
  State.vDone_inv (State.setX_inv (State.setV_inv (State.setV_inv hI)))

theorem State.vCfg_inv {s : State} {i : Nat} {c : VCfg} (hI : s.Inv) : OutInv (State.vCfg s i c) := by
  unfold State.vCfg
  extract_lets avl
  clear_value avl
  split <;> exact State.vSet_inv hI

theorem State.vFields_inv {acc : State → Nat → Res Unit} (h : ∀ s f, s.Inv → (acc s f).Inv) (l : List Nat) :
    ∀ s : State, s.Inv → (State.vFields acc s l).Inv := by
  induction l with
  | nil => exact fun _ hI => hI
  | cons f l ih => exact fun s hI => Res.bind_inv (h s f hI) fun s _ hs => ih s hs

theorem State.vElems_inv {acc : State → Nat → Res Unit} (h : ∀ s k, s.Inv → (acc s k).Inv) (l : List Nat) :
    ∀ s : State, s.Inv → (State.vElems acc s l).1.Inv := by
  induction l with
  | nil => exact fun _ hI => hI
  | cons k l ih =>
    intro s hI
    have hk := h s k hI
    unfold State.vElems
    split
    · exact ih _ (of_ok (by assumption) hk)
    · exact of_stall (by assumption) hk
    · exact of_trap (by assumption) hk

theorem State.vMem_inv {s : State} {i : Nat} {load : Bool} {m : VAddr} {eew nf : Nat} {vm : Bool} {vd a : Reg} (hI : s.Inv) :
    OutInv (State.vMem s i load m eew nf vm vd a) := by
  unfold State.vMem State.drawNat
  have h1 : State.Inv { s with draws := s.draws + 1 } := inv_same hI
  dsimp -zeta only
  generalize ({ s with draws := s.draws + 1 } : State) = s1 at h1 ⊢
  extract_lets e p n base off reg field el whole e' rest
  have hf : ∀ k s f, s.Inv → (field k s f).Inv := by
    intro k s f hs
    unfold field
    dsimp only
    split
    · exact Res.bind_inv (State.loadAny_inv hs) fun _ _ h => State.putV_inv h
    · exact State.storeAny_inv hs
  have hr : ∀ s : State, s.Inv → (rest s).Inv := by
    intro s hs
    unfold rest
    split
    · exact hs
    · exact State.putV_inv hs
  have hg := State.vElems_inv (acc := fun s k => State.vFields (field k) s (upto 0 p.nf))
    (fun s k hs => State.vFields_inv (hf k) _ s hs) el s1 h1
  clear_value rest field el e' whole reg off p e base
  split
  · exact State.illegal_inv h1
  · split
    · rename_i h
      rw [h] at hg
      exact State.vDone_inv (hr _ hg)
    · rename_i h
      rw [h] at hg
      exact out_next (State.setV_inv hg)
    · rename_i h
      rw [h] at hg
      split
      · exact State.vDone_inv (State.setV_inv hg)
      · exact out_next (State.trap_inv (State.vecDirty_inv (State.setV_inv hg)))

theorem State.execV_inv {s : State} {i : Nat} {v : VInst} (hI : s.Inv) : OutInv (State.execV s i v) := by
  unfold State.execV
  split
  · exact State.illegal_inv hI
  · split
    · exact State.vCfg_inv hI
    · exact State.vMem_inv hI
    · split
      · exact State.illegal_inv hI
      · split
        · exact State.illegal_inv hI
        · have h1 : (s.drawNat).2.Inv := State.drawNat_inv hI
          dsimp only
          split
          · exact State.illegal_inv h1
          · refine State.vApply_inv ?_
            split
            · exact State.fpDirty_inv h1
            · exact h1

/-! ### Operations of LPart.lean -/

theorem State.hyper_inv {s : State} {l : LCore} {user : Bool} {g : Out} (hI : s.Inv) (h_g : OutInv g) : OutInv (State.hyper s l user g) := by
  unfold State.hyper
  repeat' first
    | with_reducible assumption
    | with_reducible first | apply State.illegal_inv | apply State.virtualInst_inv
    | split

theorem State.asGuest_inv {α : Type} {s : State} {i : Nat} {g : State → Res α} (hI : s.Inv) (h_g : ∀ x0, x0.Inv → Res.Inv (g x0)) :
    Res.Inv (State.asGuest s i g) := by
  have md : ∀ (u : State) (m : LMode) (w : Word), u.Inv → (u.modLcore i fun x => { x with mode := m, csr := sset x.csr 0x10A w }).Inv :=
    fun u m w hu => State.modLcore_inv hu fun _ h h' h'' => ⟨h, sset_swf h', h''⟩
  unfold State.asGuest
  extract_lets l env env' back
  have h := h_g _ (md s (if wbit (State.hstatus l) 8 then .vs else .vu) env' hI)
  unfold back
  split
  · exact md _ _ _ (of_ok (by assumption) h)
  · exact md _ _ _ (of_trap (by assumption) h)
  · exact md _ _ _ (of_stall (by assumption) h)

theorem State.hlvL_inv {s : State} {i n : Nat} {sg x : Bool} {rd a : Reg} (hI : s.Inv) : OutInv (State.hlvL s i n sg x rd a) := by
  unfold State.hlvL
  have h : Res.Inv (s.asGuest i fun s => s.loadAny (s.x a) n (if x then .hlvx else .load)) :=
    State.asGuest_inv hI fun _ h => State.loadAny_inv h
  refine State.hyper_inv hI ?_
  split
  · exact State.status_inv (of_ok (by assumption) h)
  · exact out_next (State.trapL_inv (of_trap (by assumption) h))
  · exact out_next (of_stall (by assumption) h)

theorem State.hsvL_inv {s : State} {i n : Nat} {a b : Reg} (hI : s.Inv) : OutInv (State.hsvL s i n a b) := by
  unfold State.hsvL
  have h : Res.Inv (s.asGuest i fun s => s.storeAny (s.x a) n (s.x b).toNat) :=
    State.asGuest_inv hI fun _ h => State.storeAny_inv h
  refine State.hyper_inv hI ?_
  split
  · exact State.next_inv (of_ok (by assumption) h)
  · exact out_next (State.trapL_inv (of_trap (by assumption) h))
  · exact out_next (of_stall (by assumption) h)

theorem State.guestFenceL_inv {s : State} {i : Nat} {f : GuestFence} (hI : s.Inv) : OutInv (State.guestFenceL s i f) := by
  unfold State.guestFenceL
  repeat' first
    | with_reducible assumption
    | ((fail_if_no_progress extract_lets +onlyGivenNames u); clear_value u)
    | with_reducible first | apply State.hyper_inv | apply State.illegal_inv | apply State.virtualInst_inv | apply State.next_inv
    | split

theorem State.withEnv_inv {s : State} {l : LCore} {m : Word} {g : Out} (hI : s.Inv) (h_g : OutInv g) : OutInv (State.withEnv s l m g) := by
  unfold State.withEnv
  extract_lets on
  clear_value on
  repeat' first
    | with_reducible assumption
    | with_reducible first | apply State.illegal_inv | apply State.virtualInst_inv
    | split

theorem State.cboL_inv {s : State} {i : Nat} {op : CboOp} {a : Reg} (hI : s.Inv) : OutInv (State.cboL s i op a) := by
  unfold State.cboL
  repeat' first
    | with_reducible first | assumption | intro _
    | ((fail_if_no_progress extract_lets +onlyGivenNames u); (first | (have hu : OutInv u; (on_goal 1 => (unfold u; clear u)); (on_goal 2 => clear_value u)) | (have hu : swf (LCore.ctx u) = true ∧ swf (LCore.csr u) = true; (on_goal 1 => (unfold u; clear u)); (on_goal 2 => clear_value u)) | ((fail_if_success (have _ : ∀ x, u x = u x := fun _ => rfl)); clear_value u)))
    | (with_reducible apply inv_same; (with_reducible first | refine of_ok (by assumption) ?_ | refine of_stall (by assumption) ?_))
    | with_reducible first | apply State.locate_inv | apply State.next_inv | apply State.stall_inv | apply Res.run_inv | apply State.withEnv_inv | apply State.storeBytes_inv
    | split
    | with_reducible first | apply And.intro | exact (lcoreAt_swf (by assumption)).1 | exact (lcoreAt_swf (by assumption)).2

theorem State.zfa_inv {s : State} {g : State → Option (Reg × FpRes)} (hI : s.Inv) : OutInv (State.zfa s g) := by
  unfold State.zfa
  refine State.withFp_inv hI fun u hu => ?_
  split
  · exact State.illegal_inv hI
  · exact State.fdone_inv hu
  · exact State.xdone_inv hu

theorem State.execLPart_inv {s : State} {i : Nat} {exec : Instr → State → Out} {p : LPart} (hI : s.Inv)
    (h_exec : ∀ x0 x1, x1.Inv → OutInv (exec x0 x1)) : OutInv (State.execLPart s i exec p) := by
  unfold State.execLPart
  repeat' first
    | with_reducible assumption
    | with_reducible first | apply h_exec | apply State.cboL_inv | apply State.guestFenceL_inv | apply State.hlvL_inv | apply State.hsvL_inv | apply State.zfa_inv | apply State.execV_inv
    | split

end Sys2Proof.Machine
end

