-- ==== Sys2Proof/Laws/InvIommu.lean ====
section
/-! SUPPORT. Each operation keeps the invariant: the IOMMUs of the ports (R30). -/

set_option linter.all false

namespace Sys2Proof.Machine

/-! ### Operations of Iommu.lean -/

theorem State.modIommu_inv {s : State} {p : Nat} {f : Iommu → Iommu} (hI : s.Inv) : (s.modIommu p f).Inv := hI

theorem State.ioSignal_inv {s : State} {p c : Nat} {on : Bool} (hI : s.Inv) : (s.ioSignal p c on).Inv := by
  unfold State.ioSignal
  dsimp only
  split
  · exact hI
  · split
    · exact State.modIommu_inv hI
    · exact State.sendMsi_inv (State.modIommu_inv hI)

theorem State.ioFaultPut_inv {s : State} {p : Nat} {data : List Byte} (hI : s.Inv) : (s.ioFaultPut p data).Inv := by
  unfold State.ioFaultPut
  dsimp only
  split
  · exact hI
  · split
    · exact State.ioSignal_inv (State.modIommu_inv hI)
    · split
      · exact State.ioSignal_inv (State.modIommu_inv hI)
      · exact State.ioSignal_inv (State.modIommu_inv (State.hwWrite_inv hI))

theorem State.ioFault_inv {s : State} {r : DevReq} {dtf : Bool} {c : Nat} {v : Word} (hI : s.Inv) : (s.ioFault r dtf c v).Inv := by
  unfold State.ioFault
  dsimp only
  split
  · exact hI
  · exact State.ioFaultPut_inv hI

theorem State.pageReqPut_inv {s : State} {p dev : Nat} {pid : Option Nat} {priv ex : Bool} {v : Word} (hI : s.Inv) :
    (s.pageReqPut p dev pid priv ex v).Inv := by
  unfold State.pageReqPut
  dsimp only
  split
  · exact hI
  · split
    · exact State.ioSignal_inv (State.modIommu_inv hI)
    · split
      · exact State.ioSignal_inv (State.modIommu_inv hI)
      · exact State.ioSignal_inv (State.modIommu_inv (State.hwWrite_inv hI))

theorem State.ioRead_inv {s : State} {p : Nat} {c : Nat} {d : Nat} {pa : Nat} {n : Nat} (hI : s.Inv) : Res.Inv (State.ioRead s p c d pa n) := by
  unfold State.ioRead
  repeat' first
    | with_reducible assumption
    | ((fail_if_no_progress extract_lets +onlyGivenNames u); (have hu : State.Inv u; (on_goal 1 => (unfold u; clear u)); (on_goal 2 => clear_value u)))
    | with_reducible first | apply State.engOpen_inv | apply res_ok | apply res_trap | apply res_stall
    | split

theorem State.ioServe_inv {α : Type} [DecidableEq α] {s : State} {held : Option α} {fresh : State → Res α} (hI : s.Inv)
    (hf : ∀ s, s.Inv → (fresh s).Inv) : (s.ioServe held fresh).Inv := by
  unfold State.ioServe
  cases held with
  | none => exact hf s hI
  | some h =>
    have ht : s.drawBit.2.Inv := of_snd (State.drawBit_inv hI)
    simp only
    (repeat' split) <;> first | exact hf s hI | exact ht | exact hf _ ht

theorem State.ioHold_inv {s : State} {p : Nat} {e : IoHeld} (hI : s.Inv) : (s.ioHold p e).Inv := hI

theorem State.dirWalk_inv {rd : State → Nat → Res Nat} {a b : Nat} {idx : Nat → Nat} {s : State} {base n : Nat} (h : s.Inv)
    (hr : ∀ s p, s.Inv → (rd s p).Inv) : (State.dirWalk rd a b idx s base n).Inv := by
  induction n generalizing s base with
  | zero => exact h
  | succ n ih =>
    unfold State.dirWalk
    refine Res.bind_inv (hr s _ h) fun s e hs => ?_
    (repeat' split) <;> first | exact hs | exact ih hs

theorem State.deviceOf_inv {s : State} {p dev : Nat} (hI : s.Inv) : (s.deviceOf p dev).Inv := by
  unfold State.deviceOf
  dsimp only
  refine Res.bind_inv (State.ioServe_inv hI fun s hs => ?_) fun s w hs => State.ioHold_inv hs
  refine Res.bind_inv (State.dirWalk_inv hs fun s a hs => State.ioRead_inv hs) fun s a hs => ?_
  refine Res.bind_inv (State.ioRead_inv hs) fun s v hs => ?_
  (repeat' split) <;> exact hs

theorem State.ioSecond_inv {s : State} {p : Nat} {w : List Nat} {k orig : AccKind} {gpa : Nat} (hI : s.Inv) :
    (s.ioSecond p w k orig gpa).Inv := by
  unfold State.ioSecond
  dsimp only
  split
  · exact hI
  · split
    · exact hI
    · refine Res.bind_inv (State.ioServe_inv hI fun s hs => walkFrom_inv hs fun s a hs => State.ioRead_inv hs) fun s l hs => ?_
      split
      · exact hs
      · exact State.ioHold_inv hs

theorem State.ioGuestRead_inv {s : State} {p : Nat} {w : List Nat} {orig : AccKind} {c d gpa n : Nat} (hI : s.Inv) :
    (s.ioGuestRead p w orig c d gpa n).Inv := by
  have h := State.ioSecond_inv (p := p) (w := w) (k := .load) (orig := orig) (gpa := gpa) hI
  unfold State.ioGuestRead
  split
  · exact State.ioRead_inv (of_ok ‹_› h)
  · exact of_trap ‹_› h
  · exact of_stall ‹_› h

theorem State.processOf_inv {s : State} {p dev pid : Nat} {w : List Nat} {k : AccKind} (hI : s.Inv) :
    (s.processOf p dev pid w k).Inv := by
  unfold State.processOf
  dsimp only
  refine Res.bind_inv (State.ioServe_inv hI fun s hs => ?_) fun s c hs => State.ioHold_inv hs
  refine Res.bind_inv (State.dirWalk_inv hs fun s a hs => State.ioGuestRead_inv hs) fun s a hs => ?_
  refine Res.bind_inv (State.ioGuestRead_inv hs) fun s v hs => ?_
  (repeat' split) <;> exact hs

theorem State.ioFirst_inv {s : State} {p : Nat} {w : List Nat} {fs pscid : Nat} {k : AccKind} {user sum : Bool} {va : Nat}
    (hI : s.Inv) : (s.ioFirst p w fs pscid k user sum va).Inv := by
  unfold State.ioFirst
  dsimp only
  split
  · exact hI
  · split
    · exact hI
    · refine Res.bind_inv (State.ioServe_inv hI fun s hs => walkFrom_inv hs fun s a hs => State.ioGuestRead_inv hs) fun s l hs => ?_
      split
      · exact hs
      · exact State.ioHold_inv hs

theorem State.ioMsi_inv {s : State} {p : Nat} {w : List Nat} {r : DevReq} {gpa : Nat} (hI : s.Inv) : (s.ioMsi p w r gpa).Inv := by
  unfold State.ioMsi
  dsimp only
  split
  · exact hI
  · refine Res.bind_inv (State.ioServe_inv hI fun s hs => Res.bind_inv (State.ioRead_inv hs) fun s v hs => ?_) fun s m hs => ?_
    · split <;> exact hs
    · have h := State.ioHold_inv (p := p) (e := .msi ((guestOf w).getD 0) (gpa / 4096) m) hs
      (repeat' split) <;> exact h

theorem State.ioGuest_inv {s : State} {p : Nat} {w : List Nat} {r : DevReq} {gpa : Nat} (hI : s.Inv) : (s.ioGuest p w r gpa).Inv := by
  unfold State.ioGuest
  split
  · exact State.ioMsi_inv hI
  · exact Res.bind_inv (State.ioSecond_inv hI) fun s a hs => hs

theorem State.ioLast_inv {s : State} {p : Nat} {w : List Nat} {r : DevReq} {gpa : Nat} (hI : s.Inv) : Res.Inv (State.ioLast s p w r gpa) := by
  unfold State.ioLast
  repeat' first
    | with_reducible first | assumption | intro _
    | with_reducible first | apply Res.bind_inv | apply State.ioGuest_inv | apply res_ok

theorem State.ioUnder_inv {s : State} {r : DevReq} {w : List Nat} (hI : s.Inv) : Res.Inv (State.ioUnder s r w) := by
  unfold State.ioUnder
  repeat' first
    | with_reducible first | assumption | intro _
    | ((fail_if_no_progress extract_lets +onlyGivenNames u); ((fail_if_success (have _ : ∀ x, u x = u x := fun _ => rfl)); clear_value u))
    | with_reducible first | apply State.ioGuest_inv | apply Res.bind_inv | apply State.ioFirst_inv | apply State.ioLast_inv | apply State.processOf_inv | apply res_ok | apply res_trap
    | split

theorem State.ioSend_inv {s : State} {p : Nat} {m : DevMsg} (hI : s.Inv) : (State.ioSend s p m).Inv := by
  unfold State.ioSend
  repeat' first
    | with_reducible assumption
    | with_reducible apply State.modIommu_inv

theorem State.msiFile_inv {s : State} {r : DevReq} {dtf : Bool} {addr nid npage : Nat} (hI : s.Inv) :
    (s.msiFile r dtf addr nid npage).Inv := by
  unfold State.msiFile
  dsimp only
  repeat' first
    | exact hI
    | exact State.ioFault_inv hI
    | split
  · exact State.sendMsi_inv (State.engWrite_inv (of_fst (State.engRead_inv hI)))
  · exact State.engWrite_inv (of_fst (State.engRead_inv hI))

theorem State.ioCommands_inv {s : State} {p n : Nat} (hI : s.Inv) : (s.ioCommands p n).Inv := by
  induction n generalizing s with
  | zero => exact hI
  | succ n ih =>
    unfold State.ioCommands
    dsimp only
    split
    · exact hI
    have h := State.ioRead_inv (p := p) (c := 0) (d := 0) (pa := wbits (s.iommuAt p).cqb 53 10 * 4096 + 16 * (s.iommuAt p).cqh) (n := 16) hI
    split
    · exact State.ioSignal_inv (State.modIommu_inv (of_trap ‹_› h))
    · exact of_stall ‹_› h
    rename_i u v e
    have h : State.Inv u := of_ok e h
    split
    · exact State.ioSignal_inv (State.modIommu_inv h)
    apply ih
    have h := State.modIommu_inv (p := p) (f := fun u =>
      { u with held := u.held.filter fun e => !ioCovers (v % 2 ^ 64) (v / 2 ^ 64) e, cqh := (u.cqh + 1) % queueSize u.cqb }) h
    repeat' first
      | with_reducible exact h
      | with_reducible apply State.hwWrite_inv
      | with_reducible apply State.ioSend_inv
      | split

theorem State.ioRun_inv {s : State} {p : Nat} (hI : s.Inv) : (State.ioRun s p).Inv := by
  unfold State.ioRun
  repeat' first
    | with_reducible assumption
    | with_reducible apply State.ioCommands_inv

theorem State.ioWrite_inv {s : State} {p : Nat} {off : Nat} {v : Word} (hI : s.Inv) : (State.ioWrite s p off v).Inv := by
  unfold State.ioWrite
  repeat' first
    | with_reducible assumption
    | ((fail_if_no_progress extract_lets +onlyGivenNames u); (first | (have hu : State.Inv u; (on_goal 1 => (unfold u; clear u)); (on_goal 2 => clear_value u)) | ((fail_if_success (have _ : ∀ x, u x = u x := fun _ => rfl)); clear_value u) | (unfold u; clear u)))
    | with_reducible first | apply State.modIommu_inv | apply State.ioRun_inv | apply State.sendMsi_inv
    | split

theorem State.pageReqOp_inv {s : State} {p dev : Nat} {pid : Option Nat} {priv ex : Bool} {v : Word} (hI : s.Inv) :
    (s.pageReqOp p dev pid priv ex v).Inv := by
  have h := State.deviceOf_inv (p := p) (dev := dev) hI
  unfold State.pageReqOp
  dsimp only
  repeat' first
    | exact State.ioFault_inv hI
    | split
    | exact State.ioFault_inv (of_trap ‹_› h)
    | exact of_stall ‹_› h
    | exact State.ioFault_inv (of_ok ‹_› h)
    | exact State.pageReqPut_inv (of_ok ‹_› h)

theorem State.ioRefuse_inv {s : State} {r : DevReq} {dtf : Bool} {c : Nat} {v : Word} (hI : s.Inv) : (State.ioRefuse s r dtf c v).Inv := by
  unfold State.ioRefuse
  repeat' first
    | with_reducible assumption
    | with_reducible first | apply State.ioSend_inv | apply State.ioFault_inv

theorem State.ioWait_inv {s : State} {r : DevReq} {pa : Option Nat} (hI : s.Inv) : (State.ioWait s r pa).Inv := by
  unfold State.ioWait
  repeat' first
    | with_reducible assumption
    | with_reducible apply State.modIommu_inv

theorem State.ioPerform_inv {s : State} {r : DevReq} {pa : Nat} (hI : s.Inv) : (State.ioPerform s r pa).Inv := by
  unfold State.ioPerform
  repeat' first
    | with_reducible assumption
    | ((fail_if_no_progress extract_lets +onlyGivenNames u); ((fail_if_success (have _ : ∀ x, u x = u x := fun _ => rfl)); clear_value u))
    | (with_reducible apply inv_same; with_reducible apply of_fst)
    | with_reducible first | apply State.ioSend_inv | apply State.ioWait_inv | apply State.engWrite_inv | apply State.engRead_inv
    | split

theorem State.ioTranslate_inv {s : State} {r : DevReq} (hI : s.Inv) : (s.ioTranslate r).2.Inv := by
  have h := State.deviceOf_inv (p := r.port) (dev := r.dev) hI
  unfold State.ioTranslate
  dsimp only
  repeat' first
    | exact hI
    | split
    | exact State.ioUnder_inv (of_ok ‹_› h)
    | exact of_trap ‹_› h
    | exact of_stall ‹_› h

theorem State.ioAts_inv {s : State} {r : DevReq} (hI : s.Inv) : (s.ioAts r).Inv := by
  unfold State.ioAts
  extract_lets q ask may
  have ha : ∀ s w x, State.Inv s → (ask s w x).2.Inv := fun _ _ _ h => State.ioTranslate_inv h
  have hm : ∀ s w x, State.Inv s → (may s w x).1.Inv := by
    intro s w x h
    have h := ha s w x h
    dsimp only [may]
    split
    · rename_i e; rw [e] at h; exact h
    all_goals assumption
  clear_value ask may
  have h := ha s false false hI
  split
  · exact State.ioWait_inv hI
  · rename_i e; rw [e] at h
    repeat' first
      | exact State.ioSend_inv h
      | exact State.ioRefuse_inv h
      | exact State.ioSend_inv (State.ioFault_inv h)
      | split
  · rename_i e; rw [e] at h; exact State.ioSend_inv h
  · rename_i e; rw [e] at h
    have h1 := hm _ true false h
    dsimp only
    apply State.ioSend_inv
    cases r.pid.isSome
    · exact h1
    · exact hm _ _ _ h1

theorem State.ioRequest_inv {s : State} {r : DevReq} (hI : s.Inv) : (s.ioRequest r).Inv := by
  have h := State.ioTranslate_inv (r := r) hI
  unfold State.ioRequest
  split
  · exact State.ioAts_inv hI
  split
  · exact State.ioWait_inv hI
  · rename_i e; rw [e] at h; exact State.ioRefuse_inv h
  · rename_i e; rw [e] at h
    split
    · exact State.ioWait_inv hI
    · exact State.msiFile_inv h
  · rename_i e; rw [e] at h
    dsimp only
    split
    · exact State.ioSend_inv h
    · exact State.ioPerform_inv h

theorem State.ioRetry_inv {s : State} {p : Nat} (hI : s.Inv) : (State.ioRetry s p).Inv := by
  unfold State.ioRetry
  repeat' first
    | with_reducible first | assumption | intro _
    | with_reducible first | apply State.ioPerform_inv | apply State.ioRequest_inv | apply State.modIommu_inv | apply foldl_inv
    | split

theorem State.ioConfig_inv {s : State} {p : Nat} {n : Nat} {answer : List Byte} (hI : s.Inv) : (State.ioConfig s p n answer).Inv := by
  unfold State.ioConfig
  repeat' first
    | with_reducible assumption
    | ((fail_if_no_progress extract_lets +onlyGivenNames u); ((fail_if_success (have _ : ∀ x, u x = u x := fun _ => rfl)); clear_value u))
    | with_reducible apply State.modIommu_inv

theorem State.ioFlush_inv {s : State} (hI : s.Inv) : (State.ioFlush s).Inv := by
  unfold State.ioFlush
  repeat' first
    | with_reducible assumption
    | with_reducible apply State.ioRetry_inv
    | split

theorem execDmaRequest_inv {r : DevReq} {s : State} (hI : s.Inv) : OutInv (execDmaRequest r s) := by
  unfold execDmaRequest
  apply out_next
  split
  · exact hI
  · exact State.ioRequest_inv hI

end Sys2Proof.Machine
end

