-- ==== Sys2Proof/Laws/InvMatrix.lean ====
section
/-! SUPPORT. Each operation keeps the invariant: matrix, sample and standard forms, and fetch. -/

set_option linter.all false

namespace Sys2Proof.Machine

/-! ### Operations of Matrix.lean -/

theorem State.entryDone_inv {s : State} {e : EngEntry} {v : Word} (hI : s.Inv) : (State.entryDone s e v).Inv := by
  unfold State.entryDone
  repeat' first
    | with_reducible first | assumption | intro _
    | ((fail_if_no_progress extract_lets +onlyGivenNames u); (have hu : State.Inv u; (on_goal 1 => (unfold u; clear u)); (on_goal 2 => clear_value u)))
    | (with_reducible apply inv_same; with_reducible assumption)
    | with_reducible first | apply State.finishWait_inv | apply State.giveX_inv | apply State.retryAll_inv | apply foldl_inv
    | split

theorem State.releasing_inv {s : State} {c : Crew} {v : Nat} {bk : Nat} {n : Nat} (hI : s.Inv) : (State.releasing s c v bk n).Inv := by
  unfold State.releasing
  repeat' first
    | with_reducible first | assumption | intro _
    | ((fail_if_no_progress extract_lets +onlyGivenNames u); (unfold u; clear u))
    | with_reducible apply State.modCrew_inv
    | split
    | with_reducible apply And.intro

theorem foldl_crewState {β : Type} {f : Crew × State → β → Crew × State}
    (hf : ∀ p x, p.2.Inv ∧ swf p.1.stage = true ∧ swf p.1.acc = true →
      (f p x).2.Inv ∧ swf (f p x).1.stage = true ∧ swf (f p x).1.acc = true) (l : List β) :
    ∀ p, p.2.Inv ∧ swf p.1.stage = true ∧ swf p.1.acc = true →
      (l.foldl f p).2.Inv ∧ swf (l.foldl f p).1.stage = true ∧ swf (l.foldl f p).1.acc = true := by
  induction l with
  | nil => exact fun p h => h
  | cons r l ih => exact fun p h => ih _ (hf p r h)

theorem State.lateView_both {s : State} {c : Crew} {l : List (Nat × Byte)} (h : s.Inv)
    (hc : swf c.stage = true ∧ swf c.acc = true) :
    (s.lateView c l).2.Inv ∧ swf (s.lateView c l).1.stage = true ∧ swf (s.lateView c l).1.acc = true := by
  unfold State.lateView
  refine foldl_crewState (fun p x hp => ?_) l (c, s) ⟨h, hc⟩
  have hd := State.drawBit_inv hp.1
  generalize p.2.drawBit = q at hd
  refine ⟨hd, ?_⟩
  dsimp only
  split
  · exact ⟨sset_swf hp.2.1, hp.2.2⟩
  · exact hp.2

theorem State.lateView_inv {s : State} {c : Crew} {l : List (Nat × Byte)} (h : s.Inv) : PairInvR (s.lateView c l) := by
  unfold State.lateView
  refine foldlR_inv (p := (c, s)) h fun p x hp => ?_
  split
  exact of_pairR (a := _) ‹_› (State.drawBit_inv hp)

theorem lateBack_keeps {s : State} {c w : Crew} {wrote : List Nat} {l : List (Nat × Byte)} (h : s.Inv)
    (hw : swf w.stage = true ∧ swf w.acc = true) :
    (s.lateBack c w wrote l).2.Inv ∧ swf (s.lateBack c w wrote l).1.1.stage = true ∧ swf (s.lateBack c w wrote l).1.1.acc = true := by
  have hl : ∀ (l : List (Nat × Byte)) (p : (Crew × List Nat) × State), p.2.Inv ∧ swf p.1.1.stage = true ∧ swf p.1.1.acc = true →
      ∀ q, q = l.foldl (fun (acc : (Crew × List Nat) × State) r =>
        let old : Crew := { acc.1.1 with stage := sset acc.1.1.stage r.1 (sget c.stage r.1) }
        if !wrote.contains r.1 then ((old, acc.1.2), acc.2)
        else
          let (b, s) := acc.2.drawBit
          if b then ((old, r.1 :: acc.1.2), s) else (acc.1, s)) p → q.2.Inv ∧ swf q.1.1.stage = true ∧ swf q.1.1.acc = true := by
    intro l
    induction l with
    | nil => rintro p hp q rfl; exact hp
    | cons r l ih =>
      intro p hp q e
      rw [List.foldl_cons] at e
      refine ih _ ?_ q e
      dsimp only
      split
      · exact ⟨hp.1, sset_swf hp.2.1, hp.2.2⟩
      · have hd := State.drawBit_inv hp.1
        generalize p.2.drawBit = q at hd
        split
        · exact ⟨hd, sset_swf hp.2.1, hp.2.2⟩
        · exact ⟨hd, hp.2⟩
  exact hl l ((w, []), s) ⟨h, hw⟩ _ rfl

theorem State.lateBack_inv {s : State} {c w : Crew} {wrote : List Nat} {l : List (Nat × Byte)} (h : s.Inv)
    (hw : swf w.stage = true ∧ swf w.acc = true) : PairInvR (s.lateBack c w wrote l) :=
  (lateBack_keeps h hw).1

theorem State.noteEntry_inv {s : State} {e : EngEntry} {w : Crew} {wrote : List Nat} {kept : List Nat} (hI : s.Inv) : (State.noteEntry s e w wrote kept).Inv := by
  unfold State.noteEntry
  repeat' first
    | ((fail_if_no_progress extract_lets +onlyGivenNames u); (first | (have hu : State.Inv u; (on_goal 1 => (unfold u; clear u)); (on_goal 2 => clear_value u)) | ((fail_if_success (have _ : ∀ x, u x = u x := fun _ => rfl)); clear_value u) | (unfold u; clear u)))
    | (with_reducible apply inv_same; with_reducible assumption)
    | with_reducible apply State.noteLate_inv

theorem epPut_swf {r : EpRow} {a v n : Nat} (h : swf r.crew.stage = true ∧ swf r.crew.acc = true) :
    swf (r.put a v n).crew.stage = true ∧ swf (r.put a v n).crew.acc = true := ⟨stageSet_swfS h.1, stageSet_swfA h.2⟩

theorem foldl_epRow {β : Type} {f : EpRow → β → EpRow} {l : List β} {r : EpRow} (h : swf r.crew.stage = true ∧ swf r.crew.acc = true)
    (hf : ∀ r x, swf r.crew.stage = true ∧ swf r.crew.acc = true → swf (f r x).crew.stage = true ∧ swf (f r x).crew.acc = true) :
    swf (l.foldl f r).crew.stage = true ∧ swf (l.foldl f r).crew.acc = true := by
  induction l generalizing r with
  | nil => exact h
  | cons x l ih => exact ih (hf r x h)

theorem microStep_swf {w b0 b1 x i : Nat} {r : EpRow} {m : Micro} (h : swf r.crew.stage = true ∧ swf r.crew.acc = true) :
    swf (microStep w b0 b1 x i r m).crew.stage = true ∧ swf (microStep w b0 b1 x i r m).crew.acc = true := by
  unfold microStep
  extract_lets reg el a put xs
  have hp : ∀ vs fl, swf (put vs fl).crew.stage = true ∧ swf (put vs fl).crew.acc = true := fun vs fl => h
  clear_value put a xs el reg
  split
  · exact hp _ _
  · exact hp _ _
  · exact hp _ _
  · exact hp _ _
  · exact hp _ _
  · exact foldl_epRow h fun r _ hr => epPut_swf hr
  · exact foldl_epRow h fun r _ hr => epPut_swf hr
  · exact epPut_swf h
  · exact hp _ _

theorem epRow_swf {ms : List Micro} {w b0 b1 x : Nat} {drain : Option (Nat × Nat × Bool)} {r : EpRow} {i : Nat}
    (h : swf r.crew.stage = true ∧ swf r.crew.acc = true) :
    swf (epRow ms w b0 b1 x drain r i).crew.stage = true ∧ swf (epRow ms w b0 b1 x drain r i).crew.acc = true := by
  unfold epRow
  refine foldl_epRow ?_ fun r m hr => microStep_swf hr
  split
  · exact h
  · dsimp only
    split
    · exact ⟨foldl_crewS h.1 fun c x hc => accSet_swfS hc, foldl_crewA h.2 fun c x hc => accSet_swfA hc⟩
    · exact h

theorem State.performEp_inv {s : State} {e : EngEntry} {prog h w b0 b1 x : Nat} {drain : Option (Nat × Nat × Bool)} (hI : s.Inv) :
    (s.performEp e prog h w b0 b1 x drain).Inv := by
  unfold State.performEp
  split
  · exact inv_same hI
  · rename_i c hc
    extract_lets ms bank
    clear_value ms bank
    split
    · exact State.entryDone_inv hI
    · rename_i ms
      split
      · exact State.entryDone_inv hI
      · have hv := State.lateView_both (l := e.late) hI (crew_swf hI hc)
        generalize s.lateView c e.late = q at hv
        obtain ⟨v, s1⟩ := q
        dsimp only at hv ⊢
        have hr := foldl_epRow (f := epRow ms w b0 b1 x drain) (l := upto 0 h)
          (r := { crew := v, e := List.replicate 16 (List.replicate 128 0), flags := 0 }) hv.2 fun r i hr => epRow_swf hr
        generalize (upto 0 h).foldl (epRow ms w b0 b1 x drain)
          { crew := v, e := List.replicate 16 (List.replicate 128 0), flags := 0 } = r at hr
        split
        · exact hI
        have hn : (s1.noteEntry e r.crew r.wrote (s1.lateBack c r.crew r.wrote e.late).1.2).Inv := State.noteEntry_inv hv.1
        generalize s1.noteEntry e r.crew r.wrote (s1.lateBack c r.crew r.wrote e.late).1.2 = s2 at hn
        have hb := lateBack_keeps (c := c) (wrote := r.wrote) (l := e.late) hn hr
        generalize s2.lateBack c r.crew r.wrote e.late = q at hb
        obtain ⟨d, s3⟩ := q
        have h2 : (((s3.modCrew c.id fun x => { d.1 with epflg := d.1.epflg ||| w64 r.flags, cv := x.cv, sreg := x.sreg }).crewRetry c.id).modCore
            e.core fun k => { k with epcnt := k.epcnt + w64 h }).Inv :=
          State.modCore_inv (State.crewRetry_inv (State.modCrew_inv hb.1 fun _ _ _ => hb.2))
        refine State.entryDone_inv ?_
        split
        · exact State.faultRecord_inv h2
        · exact h2

theorem State.performAm_inv {s : State} {e : EngEntry} (hI : s.Inv) : (State.performAm s e).Inv := by
  unfold State.performAm
  repeat' first
    | with_reducible first | assumption | intro _
    | ((fail_if_no_progress extract_lets +onlyGivenNames u); (first | (have hu : State.Inv u; (on_goal 1 => (unfold u; clear u)); (on_goal 2 => clear_value u)) | ((fail_if_success (have _ : ∀ x, u x = u x := fun _ => rfl)); clear_value u) | (unfold u; clear u)))
    | (with_reducible apply inv_same; (with_reducible first | assumption | apply of_snd))
    | with_reducible first | apply State.entryDone_inv | apply State.drawNat_inv | apply State.modCrew_inv | apply State.retryAll_inv | apply State.modStrand_inv | apply State.performEp_inv | apply foldl_inv
    | split
    | with_reducible first | apply filter_swf | apply sclear_swf | apply And.intro

theorem State.enter_inv {s : State} {t : Strand} {c : Crew} {v : Nat} {op : EngOp} {rd : Option Reg} {now : Bool} (hI : s.Inv) : OutInv (State.enter s t c v op rd now) := by
  unfold State.enter
  repeat' first
    | with_reducible assumption
    | ((fail_if_no_progress extract_lets +onlyGivenNames u); (first | (have hu : State.Inv u; (on_goal 1 => (unfold u; clear u)); (on_goal 2 => clear_value u)) | ((fail_if_success (have _ : ∀ x, u x = u x := fun _ => rfl)); clear_value u) | (unfold u; clear u)))
    | (with_reducible apply inv_same; (with_reducible first | refine of_next (by assumption) ?_ | refine of_pairR (by assumption) ?_))
    | with_reducible first | apply State.stall_inv | apply State.fresh_inv | apply State.performAm_inv | apply State.releasing_inv | apply State.enqueue_inv | apply State.await_inv | apply State.next_inv | apply out_next | apply out_fault | apply out_refused
    | split

theorem State.mxForm_inv {s : State} {op : Nat} {x : MxArgs} (h : s.Inv) : OutInv (s.mxForm op x) := by
  unfold State.mxForm
  refine State.onCrew_inv h fun t c => ?_
  extract_lets +onlyGivenNames i trap r fmt m n a b p w sig ke pa pb v0 v1
  have ht : ∀ k v, OutInv (trap k v) := by
    intro k v
    refine out_next ?_
    dsimp only
    split
    · exact State.breakPair_inv (State.trap_inv h)
    · exact State.trap_inv h
  clear_value i trap r fmt m n a b p w sig ke pa pb v0 v1
  refine iteInduction (fun _ => ht _ _) fun _ => ?_
  refine iteInduction (fun _ => State.status_inv h) fun _ => ?_
  split
  · exact ht _ _
  · exact out_next (State.await_inv h)
  refine iteInduction (fun _ => State.status_inv h) fun _ => ?_
  refine iteInduction (fun _ => State.status_inv h) fun _ => ?_
  refine iteInduction (fun _ => State.status_inv h) fun _ => ?_
  extract_lets +onlyGivenNames ar br outs
  clear_value ar br outs
  split
  · exact ht _ _
  extract_lets +onlyGivenNames ok
  clear_value ok
  refine iteInduction (fun _ => ht _ _) fun _ => ?_
  refine iteInduction (fun _ => out_next (State.cvSign_inv h)) fun _ => ?_
  refine iteInduction (fun _ => State.stall_inv h) fun _ => ?_
  refine iteInduction (fun _ => out_next (State.cvSign_inv h)) fun _ => ?_
  refine iteInduction (fun _ => State.raise_inv h) fun _ => ?_
  refine Res.run_inv (State.locate_inv h) fun s loc hs => ?_
  split
  · exact State.raise_inv hs
  · refine iteInduction (fun _ => State.raise_inv hs) fun _ => ?_
    refine Res.run_inv (State.openParts_inv hs) fun s u hs => ?_
    exact out_next (State.cvSign_inv (State.dropNc_inv hs))

theorem State.ctlForm_inv {s : State} {op : Nat} {rd : Reg} {n : BitVec 4} {v : Nat} {x2 : Nat} {x3 : Nat} (hI : s.Inv) : OutInv (State.ctlForm s op rd n v x2 x3) := by
  unfold State.ctlForm
  repeat' first
    | with_reducible first | assumption | intro _
    | ((fail_if_no_progress extract_lets +onlyGivenNames u); ((fail_if_success (have _ : ∀ x, u x = u x := fun _ => rfl)); clear_value u))
    | with_reducible first | apply State.onCrew_inv | apply State.illegal_inv | apply State.status_inv | apply State.mismatch_inv | apply State.await_inv | apply State.cvSign_inv | apply out_next
    | split

theorem State.drnForm_inv {s : State} {z : Bool} {x : DrnArgs} (hI : s.Inv) : OutInv (State.drnForm s z x) := by
  unfold State.drnForm
  repeat' first
    | with_reducible first | assumption | intro _
    | ((fail_if_no_progress extract_lets +onlyGivenNames u); ((fail_if_success (have _ : ∀ x, u x = u x := fun _ => rfl)); clear_value u))
    | with_reducible first | apply State.onCrew_inv | apply State.illegal_inv | apply State.status_inv | apply State.mismatch_inv | apply State.await_inv | apply State.raise_inv | apply State.cvSign_inv | apply out_next
    | split

theorem execMxMma_inv {x : MxArgs} {s : State} (hI : s.Inv) : OutInv (execMxMma x s) := by
  unfold execMxMma
  repeat' first
    | with_reducible assumption
    | with_reducible apply State.mxForm_inv

theorem execMxGmma_inv {x : MxArgs} {s : State} (hI : s.Inv) : OutInv (execMxGmma x s) := by
  unfold execMxGmma
  repeat' first
    | with_reducible assumption
    | with_reducible apply State.mxForm_inv

theorem execMxPmma_inv {x : MxArgs} {s : State} (hI : s.Inv) : OutInv (execMxPmma x s) := by
  unfold execMxPmma
  repeat' first
    | with_reducible assumption
    | with_reducible apply State.mxForm_inv

theorem execMxTake_inv {rd : Reg} {a : Reg} {n : BitVec 4} {s : State} (hI : s.Inv) : OutInv (execMxTake rd a n s) := by
  unfold execMxTake
  repeat' first
    | with_reducible assumption
    | with_reducible apply State.ctlForm_inv

theorem execMxPass_inv {rd : Reg} {a : Reg} {b : Reg} {n : BitVec 4} {s : State} (hI : s.Inv) : OutInv (execMxPass rd a b n s) := by
  unfold execMxPass
  repeat' first
    | with_reducible assumption
    | with_reducible apply State.ctlForm_inv

theorem execMxTakeTk_inv {rd : Reg} {a : Reg} {b : Reg} {c : Reg} {n : BitVec 4} {s : State} (hI : s.Inv) : OutInv (execMxTakeTk rd a b c n s) := by
  unfold execMxTakeTk
  repeat' first
    | with_reducible assumption
    | with_reducible apply State.ctlForm_inv

theorem execMxPassTk_inv {rd : Reg} {a : Reg} {n : BitVec 4} {s : State} (hI : s.Inv) : OutInv (execMxPassTk rd a n s) := by
  unfold execMxPassTk
  repeat' first
    | with_reducible assumption
    | with_reducible apply State.ctlForm_inv

theorem execMxDrn_inv {x : DrnArgs} {s : State} (hI : s.Inv) : OutInv (execMxDrn x s) := by
  unfold execMxDrn
  repeat' first
    | with_reducible assumption
    | with_reducible apply State.drnForm_inv

theorem execMxDrnZ_inv {x : DrnArgs} {s : State} (hI : s.Inv) : OutInv (execMxDrnZ x s) := by
  unfold execMxDrnZ
  repeat' first
    | with_reducible assumption
    | with_reducible apply State.drnForm_inv

theorem execAmGet_inv {rd : Reg} {a : Reg} {b : Reg} {s : State} (hI : s.Inv) : OutInv (execAmGet rd a b s) := by
  unfold execAmGet
  repeat' first
    | with_reducible first | assumption | intro _
    | ((fail_if_no_progress extract_lets +onlyGivenNames u); ((fail_if_success (have _ : ∀ x, u x = u x := fun _ => rfl)); clear_value u))
    | with_reducible first | apply State.onCrew_inv | apply State.illegal_inv | apply State.status_inv | apply State.enter_inv
    | split

theorem execAmRel_inv {rd : Reg} {a : Reg} {b : Reg} {s : State} (hI : s.Inv) : OutInv (execAmRel rd a b s) := by
  unfold execAmRel
  repeat' first
    | with_reducible first | assumption | intro _
    | ((fail_if_no_progress extract_lets +onlyGivenNames u); ((fail_if_success (have _ : ∀ x, u x = u x := fun _ => rfl)); clear_value u))
    | with_reducible first | apply State.onCrew_inv | apply State.illegal_inv | apply State.status_inv | apply State.enter_inv
    | split

theorem execAmZero_inv {a : Reg} {b : Reg} {s : State} (hI : s.Inv) : OutInv (execAmZero a b s) := by
  unfold execAmZero
  repeat' first
    | with_reducible first | assumption | intro _
    | ((fail_if_no_progress extract_lets +onlyGivenNames u); ((fail_if_success (have _ : ∀ x, u x = u x := fun _ => rfl)); clear_value u))
    | with_reducible first | apply State.onCrew_inv | apply State.illegal_inv | apply State.stall_inv | apply State.raise_inv | apply State.enter_inv
    | split

theorem execAmRd_inv {rd : Reg} {a : Reg} {s : State} (hI : s.Inv) : OutInv (execAmRd rd a s) := by
  unfold execAmRd
  repeat' first
    | with_reducible first | assumption | intro _
    | ((fail_if_no_progress extract_lets +onlyGivenNames u); ((fail_if_success (have _ : ∀ x, u x = u x := fun _ => rfl)); clear_value u))
    | with_reducible first | apply State.onCrew_inv | apply State.stall_inv | apply State.raise_inv | apply State.enter_inv
    | split

theorem execEpLoad_inv {rd : Reg} {a : Reg} {b : Reg} {s : State} (hI : s.Inv) : OutInv (execEpLoad rd a b s) := by
  unfold execEpLoad
  repeat' first
    | with_reducible first | assumption | intro _
    | ((fail_if_no_progress extract_lets +onlyGivenNames u); ((fail_if_success (have _ : ∀ x, u x = u x := fun _ => rfl)); clear_value u))
    | with_reducible first | apply State.onCrew_inv | apply State.illegal_inv | apply State.status_inv | apply Res.run_inv | apply State.load_inv | apply State.enter_inv | apply res_ok
    | split

theorem execEpRun_inv {rd : Reg} {a : Reg} {b : Reg} {c' : Reg} {x : Reg} {s : State} (hI : s.Inv) : OutInv (execEpRun rd a b c' x s) := by
  unfold execEpRun
  repeat' first
    | with_reducible first | assumption | intro _
    | ((fail_if_no_progress extract_lets +onlyGivenNames u); ((fail_if_success (have _ : ∀ x, u x = u x := fun _ => rfl)); clear_value u))
    | with_reducible first | apply State.onCrew_inv | apply State.illegal_inv | apply State.status_inv | apply State.enter_inv
    | split

theorem execPmmaPairTimeout_inv {crew : Nat} {n : Nat} {s : State} (hI : s.Inv) : OutInv (execPmmaPairTimeout crew n s) := by
  unfold execPmmaPairTimeout
  repeat' first
    | with_reducible assumption
    | ((fail_if_no_progress extract_lets +onlyGivenNames u); ((fail_if_success (have _ : ∀ x, u x = u x := fun _ => rfl)); clear_value u))
    | with_reducible first | apply State.cvWithdraw_inv | apply out_next
    | split

theorem execEngineEntryStart_inv {core : Nat} {s : State} (hI : s.Inv) : OutInv (execEngineEntryStart core s) := by
  unfold execEngineEntryStart
  repeat' first
    | with_reducible assumption
    | ((fail_if_no_progress extract_lets +onlyGivenNames u); ((fail_if_success (have _ : ∀ x, u x = u x := fun _ => rfl)); clear_value u))
    | (with_reducible apply inv_same; with_reducible apply of_snd)
    | with_reducible first | apply State.lateView_inv | apply State.performAm_inv | apply out_next
    | split

theorem execMatrixWritesLand_inv {core : Nat} {s : State} (hI : s.Inv) : OutInv (execMatrixWritesLand core s) := by
  unfold execMatrixWritesLand
  repeat' first
    | with_reducible first | assumption | intro _
    | ((fail_if_no_progress extract_lets +onlyGivenNames u); (first | (have hu : State.Inv u; (on_goal 1 => (unfold u; clear u)); (on_goal 2 => clear_value u)) | ((fail_if_success (have _ : ∀ x, u x = u x := fun _ => rfl)); clear_value u)))
    | with_reducible first | apply State.modCrew_inv | apply State.faultRecord_inv | apply State.modCore_inv | apply State.entryDone_inv | apply out_next
    | split
    | with_reducible first | apply And.intro | apply mxPerform_swfS | apply mxPerform_swfA

theorem execEpilogueEntry_inv {core : Nat} {s : State} (hI : s.Inv) : OutInv (execEpilogueEntry core s) := by
  unfold execEpilogueEntry
  repeat' first
    | with_reducible assumption
    | with_reducible first | apply State.performAm_inv | apply out_next
    | split

/-! ### Operations of Samples.lean -/

theorem State.recordPages_inv {s : State} {va i n : Nat} (h : s.Inv) : Res.Inv (s.recordPages va i n) := by
  induction n generalizing s i with
  | zero => exact h
  | succ n ih =>
    unfold State.recordPages
    extract_lets a
    clear_value a
    have ht := State.translate_inv (s := s) (a := s.cur) (k := .store) (va := a) h
    split
    · exact inv_same (of_trap ‹_› ht)
    · exact of_stall ‹_› ht
    · rename_i s1 p e
      extract_lets s2
      have h2 : s2.Inv := inv_same (of_ok e ht)
      clear_value s2
      refine iteInduction (motive := Res.Inv) (fun _ => h2) fun _ => ?_
      split
      · exact h2
      · exact h2
      · exact Res.bind_inv (ih h2) fun s l hs => hs

theorem State.recordInit_inv {s : State} {g : Group} {h : Word} (hI : s.Inv) : (s.recordInit g h).Inv := by
  unfold State.recordInit
  extract_lets w s1 s2
  have hw : ∀ s o d, State.Inv s → (w s o d).Inv := fun s o d hs => State.writeParts_inv hs
  have h1 : s1.Inv := State.dropNc_inv hI
  clear_value s1 w
  have h2 : s2.Inv := hw _ _ _ (hw _ _ _ h1)
  clear_value s2
  exact hw _ _ _ (foldl_inv h2 fun s i hs => hw _ _ _ hs)

theorem State.onGroup_inv {s : State} {rd : Reg} {a : Reg} {g : Strand → Fleet → Group → Out} (hI : s.Inv) (h_g : ∀ x0 x1 x2, OutInv (g x0 x1 x2)) : OutInv (State.onGroup s rd a g) := by
  unfold State.onGroup
  repeat' first
    | with_reducible first | assumption | intro _
    | with_reducible first | apply h_g | apply State.onStrand_inv | apply State.status_inv
    | split

theorem execSgFork_inv {rd : Reg} {a : Reg} {b : Reg} {s : State} (hI : s.Inv) : OutInv (execSgFork rd a b s) := by
  unfold execSgFork
  repeat' first
    | with_reducible first | assumption | intro _
    | ((fail_if_no_progress extract_lets +onlyGivenNames u); (first | ((fail_if_success (have _ : ∀ x, u x = u x := fun _ => rfl)); clear_value u) | (unfold u; clear u)))
    | (with_reducible apply inv_same; with_reducible refine of_optL (by assumption) ?_)
    | with_reducible first | apply State.onCrew_inv | apply State.status_inv | apply Res.run_inv | apply State.load_inv | apply State.recordPages_inv | apply State.withSeed_inv | apply State.openParts_inv | apply State.newFleet_inv | apply State.release_inv | apply State.recordInit_inv
    | split

theorem execSgRwd_inv {rd : Reg} {a : Reg} {s : State} (hI : s.Inv) : OutInv (execSgRwd rd a s) := by
  unfold execSgRwd
  repeat' first
    | with_reducible first | assumption | intro _
    | ((fail_if_no_progress extract_lets +onlyGivenNames u); (first | (have hu : State.Inv u; (on_goal 1 => (unfold u; clear u)); (on_goal 2 => clear_value u)) | ((fail_if_success (have _ : ∀ x, u x = u x := fun _ => rfl)); clear_value u)))
    | with_reducible first | apply State.onCrew_inv | apply State.status_inv | apply State.release_inv | apply State.setSib_inv | apply State.recWrite_inv | apply State.modGroup_inv | apply State.tryClose_inv
    | split

theorem execSgCol_inv {rd : Reg} {a : Reg} {s : State} (hI : s.Inv) : OutInv (execSgCol rd a s) := by
  unfold execSgCol
  repeat' first
    | with_reducible first | assumption | intro _
    | with_reducible first | apply State.onGroup_inv | apply State.parkForm_inv

theorem execSgCxl_inv {rd : Reg} {a : Reg} {b : Reg} {s : State} (hI : s.Inv) : OutInv (execSgCxl rd a b s) := by
  unfold execSgCxl
  repeat' first
    | with_reducible first | assumption | intro _
    | ((fail_if_no_progress extract_lets +onlyGivenNames u); (first | (have hu : State.Inv u; (on_goal 1 => (unfold u; clear u)); (on_goal 2 => clear_value u)) | ((fail_if_success (have _ : ∀ x, u x = u x := fun _ => rfl)); clear_value u) | (unfold u; clear u)))
    | with_reducible first | apply State.onGroup_inv | apply State.status_inv | apply State.setSib_inv | apply State.modFleet_inv | apply State.stopCrewAll_inv | apply State.tryClose_inv | apply State.await_inv | apply out_next
    | split

theorem execSgExt_inv {rd : Reg} {a : Reg} {b : Reg} {s : State} (hI : s.Inv) : OutInv (execSgExt rd a b s) := by
  unfold execSgExt
  repeat' first
    | with_reducible first | assumption | intro _
    | ((fail_if_no_progress extract_lets +onlyGivenNames u); ((fail_if_success (have _ : ∀ x, u x = u x := fun _ => rfl)); clear_value u))
    | with_reducible first | apply State.onGroup_inv | apply State.status_inv | apply State.recWrite_inv | apply State.modGroup_inv
    | split

theorem execSgQry_inv {rd : Reg} {a : Reg} {b : Reg} {s : State} (hI : s.Inv) : OutInv (execSgQry rd a b s) := by
  unfold execSgQry
  repeat' first
    | with_reducible first | assumption | intro _
    | with_reducible first | apply State.onStrand_inv | apply State.status_inv
    | split

theorem execSgLeave_inv {rd : Reg} {s : State} (hI : s.Inv) : OutInv (execSgLeave rd s) := by
  unfold execSgLeave
  repeat' first
    | with_reducible first | assumption | intro _
    | ((fail_if_no_progress extract_lets +onlyGivenNames u); ((fail_if_success (have _ : ∀ x, u x = u x := fun _ => rfl)); clear_value u))
    | with_reducible first | apply State.onCrew_inv | apply State.status_inv | apply State.tryClose_inv | apply State.setSib_inv
    | split

theorem execGroupTimeout_inv {h : Word} {s : State} (hI : s.Inv) : OutInv (execGroupTimeout h s) := by
  unfold execGroupTimeout
  repeat' first
    | with_reducible assumption
    | with_reducible first | apply State.closeGroup_inv | apply out_next
    | split

/-! ### Operations of Standard.lean -/

theorem execStandardAlu_inv {f : AluForm} {s : State} (hI : s.Inv) : OutInv (execStandardAlu f s) := by
  unfold execStandardAlu
  repeat' first
    | with_reducible assumption
    | ((fail_if_no_progress extract_lets +onlyGivenNames u); ((fail_if_success (have _ : ∀ x, u x = u x := fun _ => rfl)); clear_value u))
    | with_reducible first | apply State.onAny_inv | apply State.status_inv

theorem execStandardFp_inv {f : FpForm} {s : State} (hI : s.Inv) : OutInv (execStandardFp f s) := by
  unfold execStandardFp
  repeat' first
    | with_reducible first | assumption | intro _
    | with_reducible first | apply State.onAny_inv | apply State.withFp_inv | apply State.illegal_inv | apply State.fdone_inv | apply State.xdone_inv
    | split

theorem execBranchJump_inv {f : BranchForm} {s : State} (hI : s.Inv) : OutInv (execBranchJump f s) := by
  unfold execBranchJump
  repeat' first
    | with_reducible assumption
    | with_reducible first | apply State.onAny_inv | apply State.jump_inv | apply State.next_inv | apply State.setX_inv
    | split

/-! ### Operations of Fetch.lean -/

theorem State.fetchInstr_inv {s : State} {a : Agent} (hI : s.Inv) : Res.Inv (State.fetchInstr s a) := by
  unfold State.fetchInstr
  repeat' first
    | with_reducible first | assumption | intro _
    | ((fail_if_no_progress extract_lets +onlyGivenNames u); ((fail_if_success (have _ : ∀ x, u x = u x := fun _ => rfl)); clear_value u))
    | with_reducible first | apply Res.bind_inv | apply State.fetchParcel_inv | apply State.fetchParcels_inv | apply res_ok

theorem State.poisonTrap_inv {s : State} {s' : State} {t : Strand} {v : Word} (hI : s.Inv) (hIs' : s'.Inv) : (State.poisonTrap s s' t v).Inv := by
  unfold State.poisonTrap
  repeat' first
    | with_reducible assumption
    | ((fail_if_no_progress extract_lets +onlyGivenNames u); (have hu : State.Inv u; (on_goal 1 => (unfold u; clear u)); (on_goal 2 => clear_value u)))
    | (with_reducible apply inv_same; with_reducible assumption)
    | with_reducible first | apply State.trap_inv | apply State.breakPair_inv
    | split

theorem State.withContext_inv {s : State} {k : Nat} {ls : List Nat} {g : State → Out} (hI : s.Inv) (h_g : ∀ x0, x0.Inv → OutInv (g x0)) : OutInv (State.withContext s k ls g) := by
  unfold State.withContext
  repeat' first
    | with_reducible assumption
    | with_reducible first | apply State.poisonTrap_inv | apply State.withLines_inv | apply out_next
    | split

theorem State.holdOver_inv {s : State} {k : Nat} {i : Instr} (hI : s.Inv) : (State.holdOver s k i).Inv := by
  unfold State.holdOver
  repeat' first
    | with_reducible assumption
    | with_reducible apply State.endHold_inv
    | split

theorem State.execStrand_inv {s : State} {k : Nat} {exec : Instr → State → Out} {i : Instr} (hI : s.Inv) (h_exec : ∀ x0 x1, x1.Inv → OutInv (exec x0 x1)) : OutInv (State.execStrand s k exec i) := by
  unfold State.execStrand
  repeat' first
    | with_reducible first | assumption | intro _
    | ((fail_if_no_progress extract_lets +onlyGivenNames u); ((fail_if_success (have _ : ∀ x, u x = u x := fun _ => rfl)); clear_value u))
    | with_reducible first | apply h_exec | apply State.withContext_inv | apply State.stall_inv | apply State.modStrand_inv | apply State.holdOver_inv | apply out_next
    | split

theorem State.execDecoded_inv {s : State} {exec : Instr → State → Out} {d : Decoded} (hI : s.Inv) (h_exec : ∀ x0 x1, x1.Inv → OutInv (exec x0 x1)) : OutInv (State.execDecoded s exec d) := by
  unfold State.execDecoded
  repeat' first
    | with_reducible assumption
    | with_reducible first | apply h_exec | apply State.execStrand_inv | apply State.coreClass_inv | apply State.illegal_inv | apply State.execLPart_inv | apply State.retired_inv | apply State.mretL_inv | apply out_next
    | split

theorem State.issued_inv {s : State} {ps : List (BitVec 16)} (hI : s.Inv) : (State.issued s ps).Inv := by
  unfold State.issued
  repeat' first
    | ((fail_if_no_progress extract_lets +onlyGivenNames u); ((fail_if_success (have _ : ∀ x, u x = u x := fun _ => rfl)); clear_value u))
    | (with_reducible apply inv_same; with_reducible assumption)

theorem State.runNext_inv {s : State} {exec : Instr → State → Out} (hI : s.Inv) (h_exec : ∀ x0 x1, x1.Inv → OutInv (exec x0 x1)) : OutInv (State.runNext s exec) := by
  unfold State.runNext
  repeat' first
    | with_reducible first | assumption | intro _
    | with_reducible first | apply Res.run_inv | apply State.fetchInstr_inv | apply State.execDecoded_inv | apply State.issued_inv

theorem State.poll_inv {s : State} {t : Strand} (hI : s.Inv) : (State.poll s t).Inv := by
  unfold State.poll
  repeat' first
    | with_reducible first | assumption | intro _
    | ((fail_if_no_progress extract_lets +onlyGivenNames u); ((fail_if_success (have _ : ∀ x, u x = u x := fun _ => rfl)); clear_value u))
    | with_reducible first | apply State.finishWith_inv | apply State.parkTest_inv | apply State.homeGo_inv | apply State.endGo_inv | apply State.finishWait_inv | apply State.dropWait_inv | apply id_inv
    | split

theorem State.issueStrand_inv {s : State} {t : Strand} {exec : Instr → State → Out} (hI : s.Inv) (h_exec : ∀ x0 x1, x1.Inv → OutInv (exec x0 x1)) : OutInv (State.issueStrand s t exec) := by
  unfold State.issueStrand
  repeat' first
    | with_reducible first | assumption | intro _
    | ((fail_if_no_progress extract_lets +onlyGivenNames u); ((fail_if_success (have _ : ∀ x, u x = u x := fun _ => rfl)); clear_value u))
    | with_reducible first | apply State.stopStrand_inv | apply State.lineLost_inv | apply State.recallNow_inv | apply State.poll_inv | apply State.stopDue_inv | apply State.poisonTrap_inv | apply State.modStrand_inv | apply State.withContext_inv | apply State.runNext_inv | apply out_next
    | split

theorem State.issue_inv {s : State} {exec : Instr → State → Out} (hI : s.Inv) (h_exec : ∀ x0 x1, x1.Inv → OutInv (exec x0 x1)) : OutInv (State.issue s exec) := by
  unfold State.issue
  repeat' first
    | with_reducible assumption
    | with_reducible first | apply State.issueStrand_inv | apply State.interruptL_inv | apply State.runNext_inv | apply out_next
    | split

theorem State.stallCount_inv {s : State} {c : Crew} {dcc : Nat → Nat} (hI : s.Inv) : (State.stallCount s c dcc).Inv := by
  unfold State.stallCount
  repeat' first
    | with_reducible first | assumption | intro _
    | ((fail_if_no_progress extract_lets +onlyGivenNames u); (first | ((fail_if_success (have _ : ∀ x, u x = u x := fun _ => rfl)); clear_value u) | (unfold u; clear u)))
    | (with_reducible apply inv_same; with_reducible apply of_snd)
    | with_reducible first | apply State.drawNat_inv | apply State.modCrew_inv
    | split
    | with_reducible apply And.intro

theorem State.hldCount_inv {s : State} {dcc : Nat → Nat} (h : s.Inv) : (s.hldCount dcc).Inv := by
  unfold State.hldCount
  extract_lets +onlyGivenNames s1
  have h1 : s1.Inv := foldl_inv h fun s x hs => by
    split
    · exact hs
    · exact State.modCore_inv hs
  clear_value s1
  refine ⟨h1.1, h1.2.1, ?_, h1.2.2.2⟩
  rw [List.length_map, List.length_zip, upto_length]
  have := cores_len h1
  omega

theorem State.settle_inv {s : State} (hI : s.Inv) : (State.settle s).Inv := by
  unfold State.settle
  repeat' first
    | with_reducible assumption
    | with_reducible first | apply State.ioFlush_inv | apply State.evFlush_inv | apply State.dbgFlush_inv | apply State.hwFlush_inv

theorem State.slewed_inv {s : State} {ns : Nat} (hI : s.Inv) : PairInvL (State.slewed s ns) := by
  unfold State.slewed
  repeat' first
    | with_reducible assumption
    | ((fail_if_no_progress extract_lets +onlyGivenNames u); ((fail_if_success (have _ : ∀ x, u x = u x := fun _ => rfl)); clear_value u))
    | with_reducible first | apply State.modPkg_inv | apply pairL_mk

theorem State.elapse_inv {s : State} {ns : Nat} (hI : s.Inv) : (State.elapse s ns).Inv := by
  unfold State.elapse
  repeat' first
    | with_reducible first | assumption | intro _
    | ((fail_if_no_progress extract_lets +onlyGivenNames u); (first | (have hu : State.Inv u; (on_goal 1 => (unfold u; clear u)); (on_goal 2 => clear_value u)) | ((fail_if_success (have _ : ∀ x, u x = u x := fun _ => rfl)); clear_value u) | (unfold u; clear u)))
    | (with_reducible apply inv_same; with_reducible apply of_fst)
    | with_reducible first | apply State.stallCount_inv | apply State.slewed_inv | apply State.hldCount_inv | apply State.settle_inv | apply State.advance_inv | apply foldl_inv
    | with_reducible first | apply And.intro | apply mem_swf | apply mmio_swf | apply pct_swf | apply owners_swf | apply peerRgn_swf | apply strands_ok | apply lcores_ok | apply crews_ok | apply fleets_ok | apply cores_len | apply pods_len | apply dies_len | apply zones_len | apply lcores_len | apply len_map
    | simp only [inv_mk_iff]

theorem State.outside_inv {s : State} {t : Turn} (hI : s.Inv) (h0 : State.reset.Inv) : (State.outside s t).Inv := by
  unfold State.outside
  repeat' first
    | with_reducible assumption
    | ((fail_if_no_progress extract_lets +onlyGivenNames u); (have hu : State.Inv u; (on_goal 1 => (unfold u; clear u)); (on_goal 2 => clear_value u)))
    | (with_reducible apply inv_same; with_reducible assumption)
    | with_reducible first | apply State.poke_inv | apply State.peerPostOp_inv | apply State.peerUnpostOp_inv | apply State.senseZone_inv | apply State.setReg_inv | apply State.msiOp_inv | apply State.ioWrite_inv | apply State.modIommu_inv | apply State.modPkg_inv | apply State.ioConfig_inv | apply State.pageReqOp_inv | apply State.selmelWrite_inv | apply State.packageReset_inv | apply State.elapse_inv
    | split
    | with_reducible first | apply sset_swf | apply And.intro | apply mem_swf | apply mmio_swf | apply pct_swf | apply owners_swf | apply peerRgn_swf | apply strands_ok | apply lcores_ok | apply crews_ok | apply fleets_ok | apply cores_len | apply pods_len | apply dies_len | apply zones_len | apply lcores_len
    | first | simp only [inv_mk_iff] | refine len_zip (pods_len ?_) (by decide)

theorem trial_inv {i : Instr} {s : State} {o : Out} (h : s.Inv) (e : trial i s = some o) : OutInv o := by
  unfold trial at e
  split at e
  all_goals first | (cases e; done) | (injection e with e; subst e)
  · exact execLoad_inv h
  · exact execStore_inv h
  · exact execLdNc_inv h
  · exact execLdBp_inv h
  · exact execStBp_inv h
  · exact execSs_inv h
  · exact execAmoOp_inv h
  · exact execAmoCas_inv h
  · exact execAmoLd_inv h
  · exact execAmoSt_inv h
  · exact execAmoDraw_inv h
  · exact execAmoTick_inv h
  · exact execRed_inv h
  · exact execLr_inv h
  · exact execSc_inv h
  · exact execStandardAmo_inv h
  · exact execAmocas_inv h
  · exact execClPost_inv h
  · exact execClRing_inv h
  · exact execClPut_inv h
  · exact execClGet_inv h
  · exact execClSig_inv h
  · exact execCopyGs_inv h
  · exact execCopySg_inv h
  · exact execCopyGg_inv h
  · exact execCopySs_inv h
  · exact execCopyGath_inv h
  · exact execCopyScat_inv h
  · exact execCopyFillS_inv h
  · exact execCopyFillG_inv h
  · exact execCpSeal_inv h
  · exact execCpWait_inv h
  · exact execMxMma_inv h
  · exact execMxGmma_inv h
  · exact execMxPmma_inv h
  · exact execAmGet_inv h
  · exact execAmRel_inv h
  · exact execAmZero_inv h
  · exact execAmRd_inv h
  · exact execEpLoad_inv h
  · exact execEpRun_inv h
  · exact execMxDrn_inv h
  · exact execMxDrnZ_inv h
  · exact execCsrAccess_inv h
  · exact execThParkMem_inv h
  · exact execClWait_inv h
  · exact execClWaitTry_inv h
  · exact execMgGo_inv h
  · exact execFkFlt_inv h
  · exact execSgFork_inv h

theorem State.accepts_inv {s : State} {i : Instr} (h : s.Inv) : PairInvR (s.accepts i) := by
  unfold State.accepts
  split
  · rename_i s' e
    split
    · exact ⟨h.1, h.2.1, (show s'.cores.length = _ from cores_len (trial_inv h e s' rfl)), h.2.2.2⟩
    · exact h
  · exact h

theorem State.readyNow_inv {s : State} {t : Strand} (h : s.Inv) : PairInvR (s.readyNow t) := by
  unfold State.readyNow
  extract_lets k a
  split
  · exact h
  · have hf := State.fetchInstr_inv (a := a) h
    split
    · exact h
    · exact h
    · rename_i s' ps _
      split
      · exact h
      · split
        · split
          · exact h
          · extract_lets r
            have hr : r.2.Inv := State.accepts_inv (State.issued_inv (inv_same h))
            clear_value r
            exact ⟨h.1, h.2.1, ⟨hr.2.2.1, h.2.2.2⟩⟩
        all_goals exact h

theorem State.readyOf_inv {s : State} {l : List Strand} (h : s.Inv) : PairInvR (s.readyOf l) := by
  unfold State.readyOf
  refine foldlR_inv (p := ([], s)) h fun p t hp => ?_
  have hr : PairInvR (p.2.readyNow t) := State.readyNow_inv hp
  generalize p.2.readyNow t = q at hr ⊢
  exact State.modStrand_inv hr fun t ht => ht

theorem execIssueCycle_inv {core quad : Nat} {s : State} (h : s.Inv) : OutInv (execIssueCycle core quad s) := by
  have h1 := State.readyOf_inv (l := s.strands.filter fun t => t.core = core && t.quad = quad && t.status = .resident) h
  unfold execIssueCycle
  generalize s.readyOf (s.strands.filter fun t => t.core = core && t.quad = quad && t.status = .resident) = q at h1
  obtain ⟨ready, s1⟩ := q
  exact out_next (inv_same (State.modPod_inv (State.modCore_inv h1)))

theorem execInstructionFetch_inv {k : Nat} {s : State} (hI : s.Inv) : OutInv (execInstructionFetch k s) := by
  unfold execInstructionFetch
  repeat' first
    | with_reducible assumption
    | (with_reducible apply inv_same; (with_reducible first | refine of_ok (by assumption) ?_ | refine of_stall (by assumption) ?_))
    | with_reducible first | apply State.fetchInstr_inv | apply out_next
    | split

theorem execPageWalkComplete_inv {k : Nat} {va : Word} {acc : AccKind} {s : State} (hI : s.Inv) : OutInv (execPageWalkComplete k va acc s) := by
  unfold execPageWalkComplete
  repeat' first
    | with_reducible assumption
    | (with_reducible apply inv_same; (with_reducible first | refine of_ok (by assumption) ?_ | refine of_stall (by assumption) ?_))
    | with_reducible first | apply State.translate_inv | apply out_next
    | split

end Sys2Proof.Machine
end

