-- ==== Sys2Proof/Tests/Slice0.lean ====
section
/-! SUPPORT. The tests: encodings written out from the tables of spec/, one ill-formed term for each check of `Instr.wf`, the
worked examples of spec/, and for every statement with hypotheses a state and operands that meet them. -/

open Sys2Proof Sys2Proof.Machine

namespace Sys2Proof.Tests

set_option maxRecDepth 100000
set_option Elab.async false
/-- Every word, with its number of bits, decodes to the instruction beside it. -/
def readsAs (l : List (Nat × Nat × Instr)) : Bool :=
  l.all fun p => decodeTableWord p.1 p.2.1 = some p.2.2

/-! ### Encodings -/

/-- Decoding: migration, fork and strand forms (Table 3.4). -/
theorem test_decode_migration_fork_and_strand_forms_1 : readsAs
    [(32, 0x0005850B, .mgGo 10 11),
     (32, 0x0200000B, .mgHome ),
     (32, 0x20C5850B, .fkFlt 10 11 12),
     (32, 0x2205850B, .fkJoin 10 11),
     (32, 0x2405850B, .fkJoinTry 10 11),
     (32, 0x2805850B, .fkStop 10 11),
     (32, 0x2A05850B, .fkStopPre 10 11),
     (32, 0x2C05850B, .fkStopRsm 10 11),
     (32, 0x30C5850B, .fkQry 10 11 12),
     (32, 0x40C5850B, .thParkMem 10 11 12),
     (32, 0x4205850B, .thParkBat 10 11),
     (32, 0x4405850B, .thParkTm 10 11)] = true := by decide

/-- Decoding: migration, fork and strand forms (Table 3.4). -/
theorem test_decode_migration_fork_and_strand_forms_2 : readsAs
    [(32, 0x5000000B, .thYield ),
     (32, 0x0640100B, .thPause 100)] = true := by decide

/-- Decoding: convergence forms (Table 4.5). -/
theorem test_decode_convergence_forms : readsAs
    [(32, 0x0030250B, .cvJoin 10 3),
     (32, 0x0230250B, .cvJoinCrew 10 3),
     (32, 0x0430250B, .cvQuit 10 3),
     (32, 0x2030250B, .cvBar 10 3),
     (32, 0x2230250B, .cvBarRx 10 3),
     (32, 0x2430250B, .cvArv 10 3),
     (32, 0x2630250B, .cvArvRx 10 3),
     (32, 0x2835A50B, .cvWt 10 11 3),
     (32, 0x2A35A50B, .cvWtTry 10 11 3),
     (32, 0x4035A50B, .cvQry 10 11 3)] = true := by decide

/-- Decoding: shuffles and votes (Tables 5.1, 5.2). -/
theorem test_decode_shuffles_and_votes : readsAs
    [(32, 0x06C5852B, .gpShflIdx 10 11 12 3),
     (32, 0x26C5852B, .gpShflXor 10 11 12 3),
     (32, 0x46C5852B, .gpShflUp 10 11 12 3),
     (32, 0x66C5852B, .gpShflDn 10 11 12 3),
     (32, 0x86C5852B, .gpBcst 10 11 12 3),
     (32, 0xC605852B, .gpAll 10 11 3),
     (32, 0xC615852B, .gpAny 10 11 3),
     (32, 0xC625852B, .gpUni 10 11 3),
     (32, 0xC635852B, .gpBlt 10 11 3),
     (32, 0xC645852B, .gpPcnt 10 11 3),
     (32, 0xC655852B, .gpMtchLdr 10 11 3),
     (32, 0xC665852B, .gpMtchCnt 10 11 3)] = true := by decide

/-- Decoding: lane reductions and scans (Tables 5.2, 5.3). -/
theorem test_decode_lane_reductions_and_scans : readsAs
    [(32, 0xC6B5852B, .gpRed .xor 10 11 3),
     (32, 0xC735852B, .gpScan .xor 10 11 3),
     (32, 0xC7B5852B, .gpXscan .xor 10 11 3),
     (32, 0xE615852B, .gpRedAddF .d 10 11 3),
     (32, 0xE635852B, .gpRedMinF .d 10 11 3),
     (32, 0xE655852B, .gpRedMaxF .d 10 11 3),
     (32, 0xE695852B, .gpScanAddF .d 10 11 3),
     (32, 0xE6D5852B, .gpXscanAddF .d 10 11 3)] = true := by decide

/-- Decoding: integer and conversion forms (Tables 6.4, 6.5). -/
theorem test_decode_integer_and_conversion_forms : readsAs
    [(32, 0x06C5952B, .fxAdds .n32 10 11 12),
     (32, 0x0EC5952B, .fxSubs .n32 10 11 12),
     (32, 0x24C5952B, .fxDot .su 10 11 12),
     (32, 0x0005A52B, .fxCvtBf16F64 10 11),
     (32, 0x0205A52B, .fxCvtF64Bf16 10 11),
     (32, 0x0405A52B, .fxCvtBf16F16 10 11),
     (32, 0x0605A52B, .fxCvtF16Bf16 10 11),
     (32, 0x20C5A52B, .fxPkBf16 10 11 12),
     (32, 0x2205A52B, .fxUpkLo 10 11),
     (32, 0x2405A52B, .fxUpkHi 10 11)] = true := by decide

/-- Decoding: pair, element and exponent forms (Table 6.5). -/
theorem test_decode_pair_element_and_exponent_forms : readsAs
    [(32, 0x28C5A52B, .fxPaddBf16 10 11 12),
     (32, 0x2AC5A52B, .fxPsubBf16 10 11 12),
     (32, 0x2CC5A52B, .fxPmulBf16 10 11 12),
     (32, 0x2EC5A52B, .fxPfmaBf16 10 11 12),
     (32, 0x30C5A52B, .fxPdotF32Bf16 10 11 12),
     (32, 0x48C5A52B, .fxXp .e2m1 10 11 12),
     (32, 0x58C5A52B, .fxNr .e2m1 10 11 12),
     (32, 0x60C5A52B, .fxSclF32 10 11 12),
     (32, 0x62C5A52B, .fxSclF64 10 11 12),
     (32, 0x6405A52B, .fxXpnF32 10 11),
     (32, 0x6605A52B, .fxXpnF64 10 11)] = true := by decide

/-- Decoding: special functions and immediate forms (Tables 6.6, 6.8). -/
theorem test_decode_special_functions_and_immediate_forms_1 : readsAs
    [(32, 0x8005A52B, .fxExp2F32 10 11),
     (32, 0x8205A52B, .fxLog2F32 10 11),
     (32, 0x8405A52B, .fxRcpF32 10 11),
     (32, 0x8605A52B, .fxRsqrtF32 10 11),
     (32, 0x8805A52B, .fxSinpiF32 10 11),
     (32, 0x8A05A52B, .fxCospiF32 10 11),
     (32, 0x8C05A52B, .fxTanhF32 10 11),
     (32, 0x8E05A52B, .fxSigmF32 10 11),
     (32, 0x0215B52B, .fxSrari 10 11 33),
     (32, 0x2285B52B, .fxSati 10 11 40),
     (32, 0x4285B52B, .fxSatni 10 11 40),
     (32, 0x7FC5B52B, .fxScliF32 10 11 0x1FC)] = true := by decide

/-- Decoding: special functions and immediate forms (Tables 6.6, 6.8). -/
theorem test_decode_special_functions_and_immediate_forms_2 : readsAs
    [(32, 0x9FC5B52B, .fxScliF64 10 11 0x1FC)] = true := by decide

/-- Decoding: loads, stores and fences (Table 7.6). -/
theorem test_decode_loads_stores_and_fences : readsAs
    [(32, 0xDFC5855B, .ldNc .n32 10 11 0x1FC),
     (32, 0xDFC5955B, .ldBp .n32 10 11 0x1FC),
     (32, 0x3EC5AE5B, .stBp .i16 11 12 0x1FC),
     (32, 0xDFC5B55B, .sl .n32 10 11 0x1FC),
     (32, 0x3EC5CE5B, .ss .i16 11 12 0x1FC),
     (32, 0x0621D05B, .fnScoped .pk 2 3),
     (32, 0x2000505B, .fnNc ),
     (32, 0x4005D05B, .fnPfL1 11),
     (32, 0x4205D05B, .fnPfLlc 11),
     (32, 0x4405D05B, .fnPfW 11)] = true := by decide

/-- Decoding: atomics (Tables 8.2, 8.3). -/
theorem test_decode_atomics : readsAs
    [(32, 0x9A55E55B, .amoOp .min .i64 .pk true false 10 11),
     (32, 0x9A85E55B, .amoCas .i64 .pk true false 10 11),
     (32, 0x9A95E55B, .amoLd .i64 .pk true 10 11),
     (32, 0x1AA5E55B, .amoSt .i64 .pk false 10 11),
     (32, 0x9EC5E55B, .amoDraw .pk true false 10 11),
     (32, 0x86D5E55B, .amoTick true false 10 11),
     (32, 0x1AC5F2DB, .red .min .i64 .pk 11 12)] = true := by decide

/-- Decoding: sample-group forms (Table 12.5). -/
theorem test_decode_sample_group_forms : readsAs
    [(32, 0x00C5857B, .sgFork 10 11 12),
     (32, 0x0205857B, .sgRwd 10 11),
     (32, 0x0405857B, .sgCol 10 11),
     (32, 0x06C5857B, .sgCxl 10 11 12),
     (32, 0x08C5857B, .sgExt 10 11 12),
     (32, 0x0AC5857B, .sgQry 10 11 12),
     (32, 0x0C00057B, .sgLeave 10)] = true := by decide

/-- Decoding: link forms (Table 13.5). -/
theorem test_decode_link_forms : readsAs
    [(32, 0x0005957B, .clPost 10 11),
     (32, 0x0205957B, .clRing 10 11),
     (32, 0x08C5957B, .clPut 10 11 12),
     (32, 0x0AC5957B, .clGet 10 11 12),
     (32, 0x0CC5957B, .clSig 10 11 12),
     (32, 0x10C5957B, .clWait 10 11 12),
     (32, 0x12C5957B, .clWaitTry 10 11 12),
     (32, 0x2005957B, .clQry 10 11)] = true := by decide

/-- Decoding: power and system forms (Tables 14.7, 15.6). -/
theorem test_decode_power_and_system_forms : readsAs
    [(32, 0x0005A57B, .pwQry 10 11),
     (32, 0x0200257B, .pwYld 10),
     (32, 0x0405A57B, .pwWind 10 11),
     (32, 0x0000350B, .syPark 10),
     (32, 0x0200350B, .syEnd 10),
     (32, 0x0400350B, .syDbg 10),
     (32, 0x06C5B50B, .syRec 10 11 12),
     (32, 0x10C5B50B, .syTlbsd 10 11 12)] = true := by decide

/-- Decoding: literal forms (Tables 2.7, 2.8). -/
theorem test_decode_literal_forms : readsAs
    [(48, 0x89ABCDEF051F, .fxLi 10 0x89ABCDEF),
     (48, 0x89ABCDEF151F, .fxLiu 10 0x89ABCDEF),
     (48, 0x89ABCDEF251F, .fxLih 10 0x89ABCDEF),
     (48, 0x89ABCDEF351F, .fxAddl 10 0x89ABCDEF),
     (48, 0x89ABCDEF451F, .fxAndl 10 0x89ABCDEF),
     (48, 0x89ABCDEF551F, .fxOrl 10 0x89ABCDEF),
     (48, 0x89ABCDEF651F, .fxXorl 10 0x89ABCDEF),
     (48, 0x89ABCDEF751F, .fxAuipcl 10 0x89ABCDEF),
     (48, 0x89ABCDEF851F, .fxLis 10 0x89ABCDEF),
     (48, 0x89ABCDEF951F, .fxLid 10 0x89ABCDEF)] = true := by decide

/-- Decoding: copies (Table 9.3). -/
theorem test_decode_copies_1 : readsAs
    [(64, 0x000000001AC5853F, .copyGs .plain 10 11 12 13),
     (64, 0x040000001AC5853F, .copySg .plain 10 11 12 13),
     (64, 0x080000001AC5853F, .copyGg .plain 10 11 12 13),
     (64, 0x0C0000001AC5853F, .copySs .plain 10 11 12 13),
     (64, 0x0000087E5AC5853F, .copyGs (.conv (.elt .e4m3) .bf16 126) 10 11 12 13),
     (64, 0x05C094009AC5853F, .copySg (.mx .f32 (.elt .e2m1) 14) 10 11 12 13),
     (64, 0x11CF00001AC5853F, .copyGath .plain 10 11 12 13 14 15),
     (64, 0x15CF68095AC5853F, .copyScat (.conv (.elt .i4) .bf16 9) 10 11 12 13 14 15),
     (64, 0x180000001AC5853F, .copyFillS 10 11 12 13),
     (64, 0x180000005AC5853F, .copyFillG 10 11 12 13),
     (64, 0x000000000000153F, .cpSeal 10),
     (64, 0x040000000005953F, .cpWait 10 11)] = true := by decide

/-- Decoding: copies (Table 9.3). -/
theorem test_decode_copies_2 : readsAs
    [(64, 0x080000000000153F, .cpStop 10)] = true := by decide

/-- Decoding: matrix, accumulator and epilogue forms (Tables 10.3, 10.4, 11.3). -/
theorem test_decode_matrix_accumulator_and_epilogue_forms_1 : readsAs
    [(64, 0x01CB70001AC5A53F, .mxMma ⟨.bf16, true, .d64, .d128, 5, 10, 11, 12, 13, 14⟩),
     (64, 0x05CAC0005AC5A53F, .mxGmma ⟨.f32, false, .d32, .d64, 5, 10, 11, 12, 13, 14⟩),
     (64, 0x09CA20009AC5A53F, .mxPmma ⟨.f64, false, .d16, .d32, 5, 10, 11, 12, 13, 14⟩),
     (64, 0x000A00000005B53F, .mxTake 10 11 5),
     (64, 0x040A000000C5B53F, .mxPass 10 11 12 5),
     (64, 0x080A00001AC5B53F, .mxTakeTk 10 11 12 13 5),
     (64, 0x0C0A00000005B53F, .mxPassTk 10 11 5),
     (64, 0x0000000000C5C53F, .amGet 10 11 12),
     (64, 0x0400000000C5C53F, .amRel 10 11 12),
     (64, 0x0800000000C5C03F, .amZero 11 12),
     (64, 0x0C0000000005C53F, .amRd 10 11),
     (64, 0x0000000000C5D53F, .epLoad 10 11 12)] = true := by decide

/-- Decoding: matrix, accumulator and epilogue forms (Tables 10.3, 10.4, 11.3). -/
theorem test_decode_matrix_accumulator_and_epilogue_forms_2 : readsAs
    [(64, 0x05C000001AC5D53F, .epRun 10 11 12 13 14),
     (64, 0x49CBEC001AC5B53F, .mxDrn ⟨2, 5, 30, .d128, 10, 11, 12, 13, 14⟩),
     (64, 0x55CA74001AC5B53F, .mxDrnZ ⟨1, 5, 7, .d32, 10, 11, 12, 13, 14⟩)] = true := by decide

/-- Decoding: standard loads and stores (RISC-V formats I and S). -/
theorem test_decode_standard_loads_and_stores_1 : readsAs
    [(32, 0xFF858503, .load .lb 10 11 0xFF8),
     (32, 0xFF859503, .load .lh 10 11 0xFF8),
     (32, 0xFF85A503, .load .lw 10 11 0xFF8),
     (32, 0xFF85B503, .load .ld 10 11 0xFF8),
     (32, 0xFF85C503, .load .lbu 10 11 0xFF8),
     (32, 0xFF85D503, .load .lhu 10 11 0xFF8),
     (32, 0xFF85E503, .load .lwu 10 11 0xFF8),
     (32, 0x7FF59507, .load .flh 10 11 0x7FF),
     (32, 0x7FF5A507, .load .flw 10 11 0x7FF),
     (32, 0x7FF5B507, .load .fld 10 11 0x7FF),
     (32, 0xFEC58C23, .store .sb 11 12 0xFF8),
     (32, 0xFEC59C23, .store .sh 11 12 0xFF8)] = true := by decide

/-- Decoding: standard loads and stores (RISC-V formats I and S). -/
theorem test_decode_standard_loads_and_stores_2 : readsAs
    [(32, 0xFEC5AC23, .store .sw 11 12 0xFF8),
     (32, 0xFEC5BC23, .store .sd 11 12 0xFF8),
     (32, 0x7EC59FA7, .store .fsh 11 12 0x7FF),
     (32, 0x7EC5AFA7, .store .fsw 11 12 0x7FF),
     (32, 0x7EC5BFA7, .store .fsd 11 12 0x7FF)] = true := by decide

/-- Decoding: standard integer register forms. -/
theorem test_decode_standard_integer_register_forms_1 : readsAs
    [(32, 0x00C58533, .standardAlu (.rr .add 10 11 12)),
     (32, 0x40C58533, .standardAlu (.rr .sub 10 11 12)),
     (32, 0x00C59533, .standardAlu (.rr .sll 10 11 12)),
     (32, 0x00C5A533, .standardAlu (.rr .slt 10 11 12)),
     (32, 0x00C5B533, .standardAlu (.rr .sltu 10 11 12)),
     (32, 0x00C5C533, .standardAlu (.rr .xor 10 11 12)),
     (32, 0x00C5D533, .standardAlu (.rr .srl 10 11 12)),
     (32, 0x40C5D533, .standardAlu (.rr .sra 10 11 12)),
     (32, 0x00C5E533, .standardAlu (.rr .or 10 11 12)),
     (32, 0x00C5F533, .standardAlu (.rr .and 10 11 12)),
     (32, 0x02C58533, .standardAlu (.rr .mul 10 11 12)),
     (32, 0x02C59533, .standardAlu (.rr .mulh 10 11 12))] = true := by decide

/-- Decoding: standard integer register forms. -/
theorem test_decode_standard_integer_register_forms_2 : readsAs
    [(32, 0x02C5A533, .standardAlu (.rr .mulhsu 10 11 12)),
     (32, 0x02C5B533, .standardAlu (.rr .mulhu 10 11 12)),
     (32, 0x02C5C533, .standardAlu (.rr .div 10 11 12)),
     (32, 0x02C5D533, .standardAlu (.rr .divu 10 11 12)),
     (32, 0x02C5E533, .standardAlu (.rr .rem 10 11 12)),
     (32, 0x02C5F533, .standardAlu (.rr .remu 10 11 12)),
     (32, 0x20C5A533, .standardAlu (.rr .sh1add 10 11 12)),
     (32, 0x20C5C533, .standardAlu (.rr .sh2add 10 11 12)),
     (32, 0x20C5E533, .standardAlu (.rr .sh3add 10 11 12)),
     (32, 0x40C5F533, .standardAlu (.rr .andn 10 11 12)),
     (32, 0x40C5E533, .standardAlu (.rr .orn 10 11 12)),
     (32, 0x40C5C533, .standardAlu (.rr .xnor 10 11 12))] = true := by decide

/-- Decoding: standard integer register forms. -/
theorem test_decode_standard_integer_register_forms_3 : readsAs
    [(32, 0x0AC5E533, .standardAlu (.rr .max 10 11 12)),
     (32, 0x0AC5F533, .standardAlu (.rr .maxu 10 11 12)),
     (32, 0x0AC5C533, .standardAlu (.rr .min 10 11 12)),
     (32, 0x0AC5D533, .standardAlu (.rr .minu 10 11 12)),
     (32, 0x60C59533, .standardAlu (.rr .rol 10 11 12)),
     (32, 0x60C5D533, .standardAlu (.rr .ror 10 11 12)),
     (32, 0x48C59533, .standardAlu (.rr .bclr 10 11 12)),
     (32, 0x48C5D533, .standardAlu (.rr .bext 10 11 12)),
     (32, 0x68C59533, .standardAlu (.rr .binv 10 11 12)),
     (32, 0x28C59533, .standardAlu (.rr .bset 10 11 12)),
     (32, 0x0EC5D533, .standardAlu (.rr .czeroEqz 10 11 12)),
     (32, 0x0EC5F533, .standardAlu (.rr .czeroNez 10 11 12))] = true := by decide

/-- Decoding: standard word, immediate and unary forms. -/
theorem test_decode_standard_word_immediate_and_unary_forms_1 : readsAs
    [(32, 0x00C5853B, .standardAlu (.rr .addw 10 11 12)),
     (32, 0x40C5853B, .standardAlu (.rr .subw 10 11 12)),
     (32, 0x00C5953B, .standardAlu (.rr .sllw 10 11 12)),
     (32, 0x00C5D53B, .standardAlu (.rr .srlw 10 11 12)),
     (32, 0x40C5D53B, .standardAlu (.rr .sraw 10 11 12)),
     (32, 0x02C5853B, .standardAlu (.rr .mulw 10 11 12)),
     (32, 0x02C5C53B, .standardAlu (.rr .divw 10 11 12)),
     (32, 0x02C5D53B, .standardAlu (.rr .divuw 10 11 12)),
     (32, 0x02C5E53B, .standardAlu (.rr .remw 10 11 12)),
     (32, 0x02C5F53B, .standardAlu (.rr .remuw 10 11 12)),
     (32, 0x08C5853B, .standardAlu (.rr .addUw 10 11 12)),
     (32, 0x20C5A53B, .standardAlu (.rr .sh1addUw 10 11 12))] = true := by decide

/-- Decoding: standard word, immediate and unary forms. -/
theorem test_decode_standard_word_immediate_and_unary_forms_2 : readsAs
    [(32, 0x20C5C53B, .standardAlu (.rr .sh2addUw 10 11 12)),
     (32, 0x20C5E53B, .standardAlu (.rr .sh3addUw 10 11 12)),
     (32, 0x60C5953B, .standardAlu (.rr .rolw 10 11 12)),
     (32, 0x60C5D53B, .standardAlu (.rr .rorw 10 11 12)),
     (32, 0xFFD58513, .standardAlu (.ri .addi 10 11 0xFFD)),
     (32, 0xFFD5A513, .standardAlu (.ri .slti 10 11 0xFFD)),
     (32, 0xFFD5B513, .standardAlu (.ri .sltiu 10 11 0xFFD)),
     (32, 0xFFD5C513, .standardAlu (.ri .xori 10 11 0xFFD)),
     (32, 0xFFD5E513, .standardAlu (.ri .ori 10 11 0xFFD)),
     (32, 0xFFD5F513, .standardAlu (.ri .andi 10 11 0xFFD)),
     (32, 0x02859513, .standardAlu (.ri .slli 10 11 40)),
     (32, 0x0285D513, .standardAlu (.ri .srli 10 11 40))] = true := by decide

/-- Decoding: standard word, immediate and unary forms. -/
theorem test_decode_standard_word_immediate_and_unary_forms_3 : readsAs
    [(32, 0x4285D513, .standardAlu (.ri .srai 10 11 40)),
     (32, 0x6285D513, .standardAlu (.ri .rori 10 11 40)),
     (32, 0x4A859513, .standardAlu (.ri .bclri 10 11 40)),
     (32, 0x4A85D513, .standardAlu (.ri .bexti 10 11 40)),
     (32, 0x6A859513, .standardAlu (.ri .binvi 10 11 40)),
     (32, 0x2A859513, .standardAlu (.ri .bseti 10 11 40)),
     (32, 0xFFD5851B, .standardAlu (.ri .addiw 10 11 0xFFD)),
     (32, 0x0145951B, .standardAlu (.ri .slliw 10 11 20)),
     (32, 0x0145D51B, .standardAlu (.ri .srliw 10 11 20)),
     (32, 0x4145D51B, .standardAlu (.ri .sraiw 10 11 20)),
     (32, 0x0945951B, .standardAlu (.ri .slliUw 10 11 20)),
     (32, 0x6145D51B, .standardAlu (.ri .roriw 10 11 20))] = true := by decide

/-- Decoding: standard word, immediate and unary forms. -/
theorem test_decode_standard_word_immediate_and_unary_forms_4 : readsAs
    [(32, 0x60059513, .standardAlu (.un .clz 10 11)),
     (32, 0x60159513, .standardAlu (.un .ctz 10 11)),
     (32, 0x60259513, .standardAlu (.un .cpop 10 11)),
     (32, 0x6005951B, .standardAlu (.un .clzw 10 11)),
     (32, 0x6015951B, .standardAlu (.un .ctzw 10 11)),
     (32, 0x6025951B, .standardAlu (.un .cpopw 10 11)),
     (32, 0x60459513, .standardAlu (.un .sextB 10 11)),
     (32, 0x60559513, .standardAlu (.un .sextH 10 11)),
     (32, 0x0805C53B, .standardAlu (.un .zextH 10 11)),
     (32, 0x6B85D513, .standardAlu (.un .rev8 10 11)),
     (32, 0x2875D513, .standardAlu (.un .orcB 10 11)),
     (32, 0x89ABC537, .standardAlu (.lui 10 0x89ABC))] = true := by decide

/-- Decoding: standard word, immediate and unary forms. -/
theorem test_decode_standard_word_immediate_and_unary_forms_5 : readsAs
    [(32, 0x89ABC517, .standardAlu (.auipc 10 0x89ABC)),
     (32, 0x81C5C573, .standardAlu (.mopr 0 10 11)),
     (32, 0x82C5C573, .standardAlu (.moprr 0 10 11 12))] = true := by decide

/-- Decoding: standard floating-point forms. -/
theorem test_decode_standard_floating_point_forms_1 : readsAs
    [(32, 0x02C5F553, .standardFp (.bin .add .d 7 10 11 12)),
     (32, 0x0AC5F553, .standardFp (.bin .sub .d 7 10 11 12)),
     (32, 0x12C5F553, .standardFp (.bin .mul .d 7 10 11 12)),
     (32, 0x1AC5F553, .standardFp (.bin .div .d 7 10 11 12)),
     (32, 0x58058553, .standardFp (.sqrt .s 0 10 11)),
     (32, 0x68C59543, .standardFp (.fma .madd .s 1 10 11 12 13)),
     (32, 0x68C59547, .standardFp (.fma .msub .s 1 10 11 12 13)),
     (32, 0x68C5954B, .standardFp (.fma .nmsub .s 1 10 11 12 13)),
     (32, 0x68C5954F, .standardFp (.fma .nmadd .s 1 10 11 12 13)),
     (32, 0x22C58553, .standardFp (.sgnj .j .d 10 11 12)),
     (32, 0x22C59553, .standardFp (.sgnj .jn .d 10 11 12)),
     (32, 0x22C5A553, .standardFp (.sgnj .jx .d 10 11 12))] = true := by decide

/-- Decoding: standard floating-point forms. -/
theorem test_decode_standard_floating_point_forms_2 : readsAs
    [(32, 0x28C58553, .standardFp (.minmax false .s 10 11 12)),
     (32, 0x2AC59553, .standardFp (.minmax true .d 10 11 12)),
     (32, 0xA2C58553, .standardFp (.cmp .le .d 10 11 12)),
     (32, 0xA2C59553, .standardFp (.cmp .lt .d 10 11 12)),
     (32, 0xA2C5A553, .standardFp (.cmp .eq .d 10 11 12)),
     (32, 0xE0059553, .standardFp (.cls .s 10 11)),
     (32, 0xC2059553, .standardFp (.toInt .w .d 1 10 11)),
     (32, 0xD005C553, .standardFp (.ofInt .w .s 4 10 11)),
     (32, 0xC2159553, .standardFp (.toInt .wu .d 1 10 11)),
     (32, 0xD015C553, .standardFp (.ofInt .wu .s 4 10 11)),
     (32, 0xC2259553, .standardFp (.toInt .l .d 1 10 11)),
     (32, 0xD025C553, .standardFp (.ofInt .l .s 4 10 11))] = true := by decide

/-- Decoding: standard floating-point forms. -/
theorem test_decode_standard_floating_point_forms_3 : readsAs
    [(32, 0xC2359553, .standardFp (.toInt .lu .d 1 10 11)),
     (32, 0xD035C553, .standardFp (.ofInt .lu .s 4 10 11)),
     (32, 0x4015F553, .standardFp (.cvt .sd 7 10 11)),
     (32, 0x4205F553, .standardFp (.cvt .ds 7 10 11)),
     (32, 0x4025F553, .standardFp (.cvt .sh 7 10 11)),
     (32, 0x4405F553, .standardFp (.cvt .hs 7 10 11)),
     (32, 0x4225F553, .standardFp (.cvt .dh 7 10 11)),
     (32, 0x4415F553, .standardFp (.cvt .hd 7 10 11)),
     (32, 0x4065F553, .standardFp (.cvt .sbf 7 10 11)),
     (32, 0x4485F553, .standardFp (.cvt .bfs 7 10 11)),
     (32, 0xE4058553, .standardFp (.mv .xh 10 11)),
     (32, 0xF4058553, .standardFp (.mv .hx 10 11))] = true := by decide

/-- Decoding: standard floating-point forms. -/
theorem test_decode_standard_floating_point_forms_4 : readsAs
    [(32, 0xE0058553, .standardFp (.mv .xw 10 11)),
     (32, 0xF0058553, .standardFp (.mv .wx 10 11)),
     (32, 0xE2058553, .standardFp (.mv .xd 10 11)),
     (32, 0xF2058553, .standardFp (.mv .dx 10 11))] = true := by decide

/-- Decoding: branches, jumps, fences and waits. -/
theorem test_decode_branches_jumps_fences_and_waits_1 : readsAs
    [(32, 0xACC583E3, .branchJump (.br .eq 11 12 0x1AC6)),
     (32, 0xACC593E3, .branchJump (.br .ne 11 12 0x1AC6)),
     (32, 0xACC5C3E3, .branchJump (.br .lt 11 12 0x1AC6)),
     (32, 0xACC5D3E3, .branchJump (.br .ge 11 12 0x1AC6)),
     (32, 0xACC5E3E3, .branchJump (.br .ltu 11 12 0x1AC6)),
     (32, 0xACC5F3E3, .branchJump (.br .geu 11 12 0x1AC6)),
     (32, 0xDA65A56F, .branchJump (.jal 10 0x15A5A6)),
     (32, 0xFFC58567, .branchJump (.jalr 10 11 0xFFC)),
     (32, 0x0330000F, .fence 0 3 3),
     (32, 0x8330000F, .fence 8 3 3),
     (32, 0x0000100F, .fenceI),
     (32, 0x00D00073, .wrsNto)] = true := by decide

/-- Decoding: branches, jumps, fences and waits. -/
theorem test_decode_branches_jumps_fences_and_waits_2 : readsAs
    [(32, 0x01D00073, .wrsSto)] = true := by decide

/-- Decoding: standard atomics. -/
theorem test_decode_standard_atomics_1 : readsAs
    [(32, 0x1405B52F, .lr true true false 10 11),
     (32, 0x1AC5A52F, .sc false false true 10 11 12),
     (32, 0x0CC5B52F, .standardAmo .swap true true false 10 11 12),
     (32, 0x04C5B52F, .standardAmo .add true true false 10 11 12),
     (32, 0x24C5B52F, .standardAmo .xor true true false 10 11 12),
     (32, 0x64C5B52F, .standardAmo .and true true false 10 11 12),
     (32, 0x44C5B52F, .standardAmo .or true true false 10 11 12),
     (32, 0x84C5B52F, .standardAmo .min true true false 10 11 12),
     (32, 0xA4C5B52F, .standardAmo .max true true false 10 11 12),
     (32, 0xC4C5B52F, .standardAmo .minu true true false 10 11 12),
     (32, 0xE4C5B52F, .standardAmo .maxu true true false 10 11 12),
     (32, 0x2EC5A52F, .amocas .w true true 10 11 12)] = true := by decide

/-- Decoding: standard atomics. -/
theorem test_decode_standard_atomics_2 : readsAs
    [(32, 0x2EC5B52F, .amocas .d true true 10 11 12),
     (32, 0x2EC5C52F, .amocas .q true true 10 11 12)] = true := by decide

/-- Decoding: environment and CSR forms. -/
theorem test_decode_environment_and_CSR_forms : readsAs
    [(32, 0x00000073, .ecall),
     (32, 0x00100073, .ebreak),
     (32, 0x10500073, .wfi),
     (32, 0x10200073, .sret),
     (32, 0x12C58073, .sfenceVma 11 12),
     (32, 0xC0159573, .csrAccess .rw false 10 11 0xC01),
     (32, 0x810FD573, .csrAccess .rw true 10 31 0x810),
     (32, 0xC015A573, .csrAccess .rs false 10 11 0xC01),
     (32, 0x810FE573, .csrAccess .rs true 10 31 0x810),
     (32, 0xC015B573, .csrAccess .rc false 10 11 0xC01),
     (32, 0x810FF573, .csrAccess .rc true 10 31 0x810)] = true := by decide

/-- Decoding: compressed forms. -/
theorem test_decode_compressed_forms : readsAs
    [(16, 0x0001, .standardAlu (.ri .addi 0 0 0)),
     (16, 0x557D, .standardAlu (.ri .addi 10 0 0xFFF)),
     (16, 0x952E, .standardAlu (.rr .add 10 10 11)),
     (16, 0x6188, .load .ld 10 11 0),
     (16, 0xE188, .store .sd 11 10 0),
     (16, 0x9002, .ebreak),
     (16, 0x8082, .branchJump (.jalr 0 1 0)),
     (16, 0xBFFD, .branchJump (.jal 0 0x1FFFFE))] = true := by decide

/-- Example words of the spec (Tables 4.5, 5.1 to 5.3, 7.6, 8.4, 9.4, 10.5, 11.3, 12.5, 13.5, 14.7, 15.6). -/
theorem test_decode_example_words : readsAs
    [(64, 0x0000087E5AC5853F, .copyGs (.conv (.elt .e4m3) .bf16 126) 10 11 12 13),
     (64, 0x01C008009AB6053F, .copyGs (.mx (.elt .e4m3) .bf16 14) 10 12 11 13),
     (64, 0x11CF00001AC5853F, .copyGath .plain 10 11 12 13 14 15),
     (64, 0x00000000000017BF, .cpSeal 15),
     (64, 0x040000000000133F, .cpWait 6 0),
     (64, 0x01C010001AC5A53F, .mxMma ⟨.bf16, true, .d16, .d16, 0, 10, 11, 12, 13, 14⟩),
     (64, 0x000400000005B53F, .mxTake 10 11 2),
     (64, 0x0404000000C5B53F, .mxPass 10 11 12 2),
     (64, 0x0800000000C5C03F, .amZero 11 12),
     (64, 0x0C0000000005C33F, .amRd 6 11),
     (64, 0x000000000002D3BF, .epLoad 7 5 0),
     (64, 0x05C000001AC5D53F, .epRun 10 11 12 13 14),
     (64, 0x5601F80000F7353F, .mxDrnZ ⟨1, 0, 31, .d64, 10, 14, 15, 0, 16⟩),
     (32, 0xE685665B, .amoCas .n64 .sy true true 12 10),
     (32, 0x1EC5675B, .amoDraw .pk false false 14 10),
     (32, 0x86D5E2DB, .amoTick true false 5 11),
     (32, 0x2206050B, .fkJoin 10 12),
     (32, 0x0030250B, .cvJoin 10 3),
     (32, 0x40F3228B, .cvQry 5 6 15),
     (32, 0x4045B2DB, .sl .i32 5 11 4),
     (32, 0x4065C05B, .ss .i32 11 6 0),
     (32, 0xC185852B, .gpXscan .add 10 11 0),
     (32, 0xE415852B, .gpRedAddF .d 10 11 2),
     (32, 0x0A6002FB, .sgQry 5 0 6),
     (32, 0x12C5957B, .clWaitTry 10 11 12),
     (32, 0x10C5B50B, .syTlbsd 10 11 12),
     (32, 0x0200257B, .pwYld 10)] = true := by decide

/-- Reserved fields, unassigned codes and forbidden pairs are no instruction (R34, R36, R38, R42, R220, R242, R267). -/
theorem test_decode_refuses : [(32, 0x0100250B), (32, 0x00C5850B), (32, 0x06C0605B), (32, 0x00C0605B), (32, 0x0000705B), (32, 0xE005855B),
    (48, 0x00000000A51F), (48, 0x00000000055F), (64, 0x000000001AC5C53F), (64, 0x000089015AC5853F), (64, 0x000089009AC5853F),
    (64, 0x01C180001AC5A53F), (64, 0x01C060009AC5A53F), (32, 0x30200073), (16, 0)].all
      (fun p => (decodeTableWord p.1 p.2).isNone) = true := by decide

/-! ### Ill-formed terms: one for each check of `Instr.wf` -/

theorem illformed_operands :
    [.amoCas .i32 .cw false false 1 2, .amoDraw .cw false false 3 2, .amoDraw .cw false false 0 2, .red .swap .i32 .cw 1 2,
     .copyGs (.conv (.elt .e4m3) (.elt .e5m2) 0) 1 2 3 4, .copySg (.conv .bf16 .f32 1) 1 2 3 4, .copyGg (.mx .f32 .bf16 5) 1 2 3 4,
     .copySs (.conv .f32 .f32 0) 1 2 3 4, .copyGath (.conv .bf16 .bf16 0) 1 2 3 4 5 6, .copyScat (.conv .f32 .bf16 2) 1 2 3 4 5 6,
     .mxMma { fmt := .bf16, z := false, m := .d128, n := .d16, cv := 0, rd := 0, a := 0, b := 0, p := 0, x := 0 },
     .mxGmma { fmt := .f64, z := false, m := .d16, n := .d128, cv := 0, rd := 0, a := 0, b := 0, p := 0, x := 0 },
     .mxPmma { fmt := .f32, z := true, m := .d128, n := .d64, cv := 0, rd := 0, a := 0, b := 0, p := 0, x := 0 },
     .standardAlu (.ri .slli 1 2 64), .standardAlu (.ri .slliw 1 2 32), .standardAlu (.ri .rori 1 2 0xFC0),
     .standardAlu (.ri .roriw 1 2 0x20),
     .standardFp (.bin .add .s 5 1 2 3), .standardFp (.sqrt .d 6 1 2), .standardFp (.fma .madd .s 5 1 2 3 4),
     .standardFp (.toInt .w .s 6 1 2), .standardFp (.ofInt .l .d 5 1 2), .standardFp (.cvt .sd 6 1 2),
     .branchJump (.br .eq 1 2 1), .branchJump (.jal 1 1), .amocas .q false false 1 2 4, .amocas .q false false 2 2 5].all
      (fun i => !Instr.wf i) = true := by decide

theorem illformed_units :
    [.contextLineFetch 0 16, .homeNoticePost 4, .recallWrite 4 0, .killWrite 4 0, .framefreeWrite 4 0, .issueCycle 192 0,
     .issueCycle 0 4, .loadDataReturn 0 64, .barrierPhaseRelease 0 17, .atomicPerform 192 0, .rbAgeMerge 192 0,
     .lrHoldEnd 192 0, .peerLeave 256, .linkPortLost 12, .snoopFilterRecall 12, .forwardEntryPost 4, .fwdrsmWrite 4 0,
     .ivgoWrite 32 0, .copyBegin 192, .pmmaPairTimeout 0 16, .engineEntryStart 192, .matrixWritesLand 192, .epilogueEntry 192,
     .frecbaseWrite 192 0, .passcntWrite 192 0, .clsreqWrite 192 0, .pageWalkComplete 0 0 .hlvx].all (fun i => !Instr.wf i) = true := by decide

theorem illformed_zones :
    [.reclassSavesDone 48, .reclassClockSettled 48, .withdrawalStart 48, .boostRecompute 48, .zoneEnterLowFlow 50 0,
     .zoneLeaveLowFlow 50 0, .zoneEnterHot 50 0, .zoneLeaveHot 50 0, .zoneEnterEvacuating 50 0 false, .zoneEnterTripped 50 0,
     .evacuationSavesDone 50, .zoneTripExit 50 0, .purgeStart 50, .purgeValveOpen 50, .purgeEnd 50 0, .zctlRetryWrite 50 0].all
      (fun i => !Instr.wf i) = true := by decide

theorem illformed_debug_and_bring_up :
    [.dbgStop 4, .dbgStopCrew 4, .dbgResume 4, .dbgResumeCrew 4, .dbgStep 4, .dbgAttach 4, .dbgDetach 4, .dbgUnassigned 4 0,
     .dbgUnassigned 0 7, .dbgdataRead 4, .dbgdataWrite 4 0, .dbghaltWrite 4 0, .replicaUpdate 4 0, .memoryReady 5,
     .memoryReady 30, .memoryReady 134, .lCoreStart 32, .bootWDieMicrocode 4, .portTrained 29, .portTrained 44,
     .mgmtEvidenceRequest [], .mgmtRaiseMinVersion 0 1, .peerPresent 256].all (fun i => !Instr.wf i) = true := by decide

/-! ### Test states -/

/-- Whether an operation on a state succeeds. -/
def succeeds {α : Type} : Res α → Bool | .ok _ _ => true | .stall _ => false | .trap _ _ _ => false

theorem of_succeeds {α : Type} {r : Res α} (h : succeeds r = true) : ∃ s v, r = .ok s v := by
  cases r with
  | ok s v => exact ⟨s, v, rfl⟩
  | stall s => cases h
  | trap s c v => cases h

/-- An operation succeeds and leaves something that meets `p`. -/
def gives {α : Type} (r : Res α) (p : State → α → Bool) : Bool :=
  match r with | .ok s v => p s v | .stall _ => false | .trap _ _ _ => false

theorem of_gives {α : Type} {r : Res α} {p : State → α → Bool} (h : gives r p = true) : ∃ s v, r = .ok s v ∧ p s v = true := by
  cases r with
  | ok s v => exact ⟨s, v, rfl, h⟩
  | stall s => cases h
  | trap s c v => cases h

/-- Sets words of a strand's image: 1 to 31 are x1 to x31, 33 and up f1 and up. -/
def words (l : List (Nat × Word)) (t : Strand) : Strand := { t with ctx := l.foldl (fun m p => sset m p.1 p.2) t.ctx }

/-- A strand in U-mode on W-core 0 with memory at 0 to 512 GiB mapped to itself, in a crew of one W-core with 24 KiB of
stage memory, 8 banks allocated and 4 convergence registers; changed by `f` and `g`. -/
def su (f : Strand → Strand) (g : Crew → Crew := id) : State :=
  let s := State.reset.withFetchWord 32 0x13
  { s with
    strands := s.strands.map f
    crews := s.crews.map fun c => g { c with
      stageSize := 24576, banks := 8, alloc := [0xFF], cvs := 4, cv := List.replicate 4 {}, hold := [1], live := [0] } }

/-- Depth 1: the strand is in its handler. -/
def inS (t : Strand) : Strand := t.setDepth 1

/-- L-core 0 in a mode, at address 0x20000 of ready memory, and nothing else. -/
def lc (md : LMode) (l : LCore → LCore := id) : State :=
  { State.reset with
    cur := .lcore 0
    mem := bytesSet [] 0x20000 0x13 8
    mmio := sset State.reset.mmio bootBase 64
    lcores := l { running := true, mode := md, ctx := sset [] cPc 0x20000 } :: State.reset.lcores.drop 1 }

/-- The strand in issue and its crew. -/
def tOf (s : State) : Strand := s.curStrand.getD { image := 0 }
def cOf (s : State) : Crew := (s.crewOf (tOf s)).getD { id := 0 }

theorem on_of {s : State} (h : (s.curStrand.bind fun t => s.crewOf t).isSome = true) : s.OnCrew (tOf s) (cOf s) := by
  unfold State.OnCrew tOf cOf tOf
  cases ht : s.curStrand with
  | none => rw [ht] at h; cases h
  | some t =>
    rw [ht] at h
    cases hc : s.crewOf t with
    | none => simp [hc] at h
    | some c => simp [hc]

theorem onS_of {s : State} (h : s.curStrand.isSome = true) : s.OnStrand (tOf s) := by
  unfold State.OnStrand tOf
  cases ht : s.curStrand with
  | none => rw [ht] at h; cases h
  | some t => rfl

/-- The canonical form of a state, as a value. -/
def sound (s : State) : Bool :=
  Memory.wf s.mem && swf s.mmio && swf s.pct && swf s.owners && swf s.peerRgn && s.strands.all (fun t => swf t.ctx)
    && s.lcores.all (fun l => swf l.ctx && (swf l.csr && swf l.vec)) && s.crews.all (fun c => swf c.stage && swf c.acc)
    && s.fleets.all (fun f => swf f.seed) && s.cores.length = Config.numCores && s.pods.length = Config.numPods
    && s.dies.length = 4 && s.zones.length = Config.numZones && s.lcores.length = Config.numLCores

theorem inv_of {s : State} (h : sound s = true) : s.Inv := by
  simp only [sound, Bool.and_eq_true, List.all_eq_true, decide_eq_true_eq] at h
  obtain ⟨⟨⟨⟨⟨⟨⟨⟨⟨⟨⟨⟨⟨h1, h2⟩, h3⟩, h4⟩, h5⟩, h6⟩, h7⟩, h8⟩, h9⟩, h10⟩, h11⟩, h12⟩, h13⟩, h14⟩ := h
  exact ⟨⟨h1, h2, h3, h4, h5⟩, ⟨h6, h7, h8, h9⟩, ⟨h10, h11, h12, h13, h14⟩⟩

/-- A step that goes on. -/
def goesOn : Host.Outcome State Fault Refusal → Bool | .next _ => true | .fault _ => false | .refused _ => false

theorem of_goesOn {o : Host.Outcome State Fault Refusal} (h : goesOn o = true) : ∃ s, o = .next s := by
  cases o with
  | next s => exact ⟨s, rfl⟩
  | fault _ => cases h
  | refused _ => cases h

/-! ### Every hypothesis of a statement can be met -/

theorem witness_StepKeepsInv : (su id).Inv ∧ ∃ t, step (su id) = .next t :=
  ⟨inv_of (by decide), of_goesOn (by decide +kernel)⟩

theorem witness_DecodeEncode : (Instr.fxLi 10 0xFFFFFFFF).encoded = true ∧ (Instr.fxLi 10 0xFFFFFFFF).wf = true := by decide

/-- What `StepRunsDecoded` asks of an L-core's fetch. -/
def fetchesInstr (s : State) (a : Agent) : Bool :=
  gives (s.fetchInstr a) fun s' ps => s'.cur = a && match decode ps with | .ok _ => true | .lcore _ => false | .illegal => false | .mret => false

theorem of_fetchesInstr {s : State} {a : Agent} (h : fetchesInstr s a = true) :
    ∃ s' ps i, s.fetchInstr a = .ok s' ps ∧ s'.cur = a ∧ decode ps = .ok i := by
  obtain ⟨s', ps, h1, h2⟩ := of_gives h
  simp only [Bool.and_eq_true, decide_eq_true_eq] at h2
  refine ⟨s', ps, ?_⟩
  cases hd : decode ps with
  | ok i => exact ⟨i, h1, h2.1, rfl⟩
  | lcore k => simp [hd] at h2
  | illegal => simp [hd] at h2
  | mret => simp [hd] at h2

/-- What `StepRunsDecoded` asks of a strand's fetch of `i`: the scoreboard holds it back where `held` says so. -/
def issuesInstr (s : State) (k : Nat) (t : Strand) (i : Instr) (held : Bool) : Prop :=
  s.agenda = [] ∧ s.cur = .strand k ∧ s.strand? k = some t ∧ s.mayIssue t = true ∧ t.wait = .none ∧ t.pendStop = 0 ∧
    t.pendKill = false ∧ t.ue = none ∧ t.badRd = none ∧ s.recallDue t = false ∧ s.HasLines k baseLines ∧
    ∃ t1, (s.fetchLines k baseLines).strand? k = some t1 ∧
      (let l1 : List Nat := if t1.depth = 0 then [] else [13]
       let s2 := (s.fetchLines k baseLines).fetchLines k l1
       (s.fetchLines k baseLines).HasLines k l1 ∧ s2.cur = .strand k ∧
       ∃ s' ps u, s2.fetchInstr (.strand k) = .ok s' ps ∧ s'.cur = .strand k ∧ decode ps = .ok i ∧
        (s'.issued ps).strand? k = some u ∧ (s'.issued ps).HasLines k (i.lines u.depth) ∧
        ((s'.issued ps).fetchLines k (i.lines u.depth)).owes k i = false ∧ (State.heldBy u i).isEmpty = !held)

/-- The part of it that runs. -/
def issuesFetch (s2 : State) (k : Nat) (i : Instr) (held : Bool) : Bool :=
  gives (s2.fetchInstr (.strand k)) fun s' ps =>
    s'.cur = .strand k && decode ps = .ok i &&
      match (s'.issued ps).strand? k with
      | some u => !(s'.issued ps).imagePoison k (i.lines u.depth) && !(s'.issued ps).imageBusy k (i.lines u.depth) &&
          (!((s'.issued ps).fetchLines k (i.lines u.depth)).owes k i && (State.heldBy u i).isEmpty = !held)
      | none => false

theorem of_issuesFetch {s2 : State} {k : Nat} {i : Instr} {held : Bool} (h : issuesFetch s2 k i held = true) :
    ∃ s' ps u, s2.fetchInstr (.strand k) = .ok s' ps ∧ s'.cur = .strand k ∧ decode ps = .ok i ∧
      (s'.issued ps).strand? k = some u ∧ (s'.issued ps).HasLines k (i.lines u.depth) ∧
      ((s'.issued ps).fetchLines k (i.lines u.depth)).owes k i = false ∧ (State.heldBy u i).isEmpty = !held := by
  obtain ⟨s', ps, h1, h2⟩ := of_gives h
  simp only [Bool.and_eq_true, decide_eq_true_eq] at h2
  obtain ⟨⟨h3, h4⟩, h5⟩ := h2
  cases hu : (s'.issued ps).strand? k with
  | none => simp [hu] at h5
  | some u =>
    simp only [hu, Bool.and_eq_true, Bool.not_eq_true', decide_eq_true_eq] at h5
    exact ⟨s', ps, u, h1, h3, h4, hu, h5.1, h5.2.1, h5.2.2⟩

/-- A strand whose next instruction is `addi x0, x0, 0`, and one whose `addi x5, x5, 0` waits for a load into x5. -/
theorem witness_StepRunsDecoded_strand :
    issuesInstr (su id) 0x40000 (tOf (su id)) (.standardAlu (.ri .addi 0 0 0)) false :=
  ⟨by decide, by decide, by decide, by decide, by decide, by decide, by decide, by decide, by decide, by decide, ⟨by decide, by decide⟩,
    (((su id).fetchLines 0x40000 baseLines).strand? 0x40000).getD { image := 0 }, by decide, ⟨by decide, by decide⟩, by decide,
    of_issuesFetch (by decide +kernel)⟩

theorem witness_StepRunsDecoded_held :
    let s : State := { su (fun t => { t with marks := [{ reg := 5, tiers := [1] }] }) with mem := bytesSet (su id).mem fetchPc 0x28293 8 }
    issuesInstr s 0x40000 (tOf s) (.standardAlu (.ri .addi 5 5 0)) true := by
  intro s
  exact ⟨by decide, by decide, by decide, by decide, by decide, by decide, by decide, by decide, by decide, by decide, ⟨by decide, by decide⟩,
    ((s.fetchLines 0x40000 baseLines).strand? 0x40000).getD { image := 0 }, by decide, ⟨by decide, by decide⟩, by decide,
    of_issuesFetch (by decide +kernel)⟩

theorem witness_StepRunsDecoded_lcore :
    (lc .m).agenda = [] ∧ (lc .m).cur = .lcore 0 ∧ ((lc .m).lcoreAt 0).running = true ∧ 0 < Config.numLCores ∧
    State.pendingInt ((lc .m).lcoreAt 0) (lc .m).time = none ∧
    ∃ s' ps i, (lc .m).fetchInstr (.lcore 0) = .ok s' ps ∧ s'.cur = .lcore 0 ∧ decode ps = .ok i :=
  ⟨by decide, by decide, by decide, by decide, by decide, of_fetchesInstr (by decide +kernel)⟩

/-- At the pc of an L-core stands `vadd.vv`, which the opcode table has no row for. -/
theorem witness_StepRunsDecoded_part :
    let s : State := { lc .m with mem := bytesSet [] 0x20000 0x022180D7 8 }
    s.agenda = [] ∧ s.cur = .lcore 0 ∧ (s.lcoreAt 0).running = true ∧ State.pendingInt (s.lcoreAt 0) s.time = none ∧
    gives (s.fetchInstr (.lcore 0)) (fun s' ps =>
      s'.cur = .lcore 0 && decode ps = .lcore (.vector (.bin .add true 1 2 (.v 3)))) = true := by decide +kernel

theorem witness_NothingEndsARun :
    (su id).OnCrew (tOf (su id)) (cOf (su id)) ∧ (lc .m).OnL 0 ∧ Instr.placementOffer.encoded = false :=
  ⟨on_of (by decide), ⟨rfl, rfl⟩, by decide⟩

theorem onL_of {md : LMode} : (lc md).OnL 0 := ⟨rfl, rfl⟩

/-- On a strand, floating-point state is accessible; on an L-core after reset it is off. -/
theorem witness_LiteralForms : (su id).OnStrand (tOf (su id)) ∧ (su id).fpOn = true ∧ (lc .m).OnL 0 ∧ (lc .m).fpOn = false :=
  ⟨onS_of (by decide), by decide, onL_of, by decide⟩

theorem witness_RegisterReadBack : (su id).Inv ∧ (su id).OnStrand (tOf (su id)) ∧ (0 : Reg) ≠ 31 :=
  ⟨inv_of (by decide), onS_of (by decide), by decide⟩

/-- Division by zero, and the one quotient that overflows. -/
theorem witness_IntegerForms :
    (su (words [(10, 0x8000000000000000), (11, -1)])).Runs ∧ (su (words [(10, 0x8000000000000000), (11, -1)])).x 0 = 0 ∧
    (su (words [(10, 0x8000000000000000), (11, -1)])).x 10 = 0x8000000000000000 ∧
    (su (words [(10, 0x8000000000000000), (11, -1)])).x 11 = -1 :=
  ⟨.inl ⟨_, onS_of (by decide)⟩, by decide, by decide, by decide⟩

/-- Equal operands, and the pair -1 and 1, whose order differs signed and unsigned: each condition holds and fails. -/
theorem witness_Branches :
    let s := su (words [(10, -1), (11, 1)])
    s.Runs ∧ s.x 10 = s.x 10 ∧ s.x 10 ≠ s.x 11 ∧ (s.x 10).toInt < (s.x 11).toInt ∧ ¬(s.x 10).toNat < (s.x 11).toNat :=
  ⟨.inl ⟨_, onS_of (by decide)⟩, by decide⟩

theorem witness_SaturatingForms_DotForms : (su id).OnStrand (tOf (su id)) := onS_of (by decide)

/-- A tie of the rounding shift: 1 shifted by 1. -/
theorem witness_ShiftAndClampForms :
    (su (words [(10, 1)])).OnStrand (tOf (su (words [(10, 1)]))) ∧ (1 : BitVec 6) ≠ 0 ∧
    2 * (((su (words [(10, 1)])).x 10).toInt - 0 * 2 ^ (1 : BitVec 6).toNat) = 2 ^ (1 : BitVec 6).toNat :=
  ⟨onS_of (by decide), by decide⟩

/-- The last rounding mode of `frm`, and the first value that is none. -/
theorem witness_RoundingForms :
    (su (words [(64, 0x80)])).frm? = some 4 ∧ (su (words [(64, 0xA0)])).frm? = none ∧
    (su (words [(64, 0xA0)])).OnStrand (tOf (su (words [(64, 0xA0)]))) := ⟨by decide, by decide, onS_of (by decide)⟩

theorem witness_ExactForms : (su id).OnStrand (tOf (su id)) := onS_of (by decide)

theorem witness_StandardFloatForms :
    (su id).Runs ∧ (su id).fpOn = true ∧
    fpResult (su id).fpDirty (.mv .dx 3 0) = some (3, .f 0 0) ∧ fpResult (su id).fpDirty (.mv .xd 3 0) = some (3, .x 0 0) ∧
    fpResult (su id).fpDirty (.sqrt .d 5 3 0) = none :=
  ⟨.inl ⟨_, onS_of (by decide)⟩, by decide⟩

theorem witness_RegisterFrame :
    (su id).Inv ∧ (su id).OnStrand (tOf (su id)) ∧ (∃ ws, (Instr.fxLi 10 1).writes = some ws) ∧ (Instr.fxLi 10 1).wf = true ∧
    (su id).frm?.isSome = true :=
  ⟨inv_of (by decide), onS_of (by decide), ⟨_, rfl⟩, by decide⟩

/-- What the statements about accesses ask of a translation, with `q` of what it finds. -/
def finds (s : State) (k : AccKind) (va : Word) (n : Nat) (w : Bool) (q : State → List Part → Bool) : Bool :=
  gives (s.locate s.cur k va n) fun s1 l => match l with
    | .mem ps => !ps.any (fun p => s1.blocked s.cur p.pa p.n w) &&
        (!ps.any (fun p => s1.poisonAt p.pa p.n) && (ps.all (fun p => (s1.imagesAt p.pa p.n).all fun t => decide (t.ue = none)) && q s1 ps))
    | .mmio _ => false

theorem of_finds {s : State} {k : AccKind} {va : Word} {n : Nat} {w : Bool} {q : State → List Part → Bool}
    (h : finds s k va n w q = true) : ∃ s1 ps, s.Finds k va n w s1 ps ∧ s1.Clean ps ∧ q s1 ps = true := by
  obtain ⟨s1, l, h1, h2⟩ := of_gives h
  cases l with
  | mmio pa => cases h2
  | mem ps =>
    simp only [Bool.and_eq_true, Bool.not_eq_true', List.all_eq_true, decide_eq_true_eq] at h2
    exact ⟨s1, ps, ⟨h1, h2.1⟩, ⟨h2.2.1, h2.2.2.1⟩, h2.2.2.2⟩

theorem reads_of {s : State} {va : Word} {n : Nat} (h : finds s .load va n false (fun _ _ => true) = true) : s.Reads va n :=
  let ⟨s1, ps, a, b, _⟩ := of_finds h; ⟨s1, ps, a, b⟩

theorem writes_of {s : State} {va : Word} {n : Nat} (h : finds s .store va n true (fun _ _ => true) = true) : s.Writes va n :=
  let ⟨s1, ps, a, _⟩ := of_finds h; ⟨s1, ps, a⟩

/-- The same of one part. -/
theorem of_finds_one {s : State} {k : AccKind} {va : Word} {n : Nat} {w : Bool} {q : State → Part → Bool}
    (h : finds s k va n w (fun s1 ps => match ps with | [p] => q s1 p | _ => false) = true) :
    ∃ s1 p, s.Finds k va n w s1 [p] ∧ s1.Clean [p] ∧ q s1 p = true := by
  obtain ⟨s1, ps, h1, h2, h3⟩ := of_finds h
  match ps with
  | [] => cases h3
  | [p] => exact ⟨s1, p, h1, h2, h3⟩
  | _ :: _ :: _ => cases h3

theorem findsAtom_of {s : State} {k : AccKind} {va : Word} {n : Nat} {chk : Bool} {q : State → Part → Bool}
    (h : finds s k va n (!chk || k = .store) (fun s1 ps => match ps with
      | [p] => p.pbmt ≠ 2 && (!s1.unsent s.cur p.pa && q s1 p) | _ => false) = true) :
    ∃ s1 p, s.FindsAtom k va n chk s1 p ∧ q s1 p = true := by
  obtain ⟨s1, p, h1, h2, h3⟩ := of_finds_one (q := fun s1 p => p.pbmt ≠ 2 && (!s1.unsent s.cur p.pa && q s1 p)) h
  simp only [Bool.and_eq_true, decide_eq_true_eq, Bool.not_eq_true'] at h3
  exact ⟨s1, p, ⟨h1, h3.1, fun _ => ⟨h2, h3.2.1⟩⟩, h3.2.2⟩

/-- The last doubleword of a page, the first byte of memory, and a doubleword across two pages. -/
theorem witness_Loads :
    let s := su (words [(10, 0x2FF8)])
    s.OnStrand (tOf s) ∧ s.Runs ∧ s.fpOn = true ∧ s.rbuf = [] ∧
    s.Reads (s.x 10 + (0 : BitVec 9).signExtend 64) (lwSize .i64) ∧ s.Reads (s.x 0 + (0 : BitVec 9).signExtend 64) (lwSize .i8) ∧
    s.Reads (s.x 10 + (4 : BitVec 12).signExtend 64) (loadSize .ld) ∧
    s.fpDirty.Reads (s.x 10 + (0 : BitVec 12).signExtend 64) (loadSize .fld) :=
  ⟨onS_of (by decide), .inl ⟨_, onS_of (by decide)⟩, by decide, by decide, reads_of (by decide), reads_of (by decide),
    reads_of (by decide), reads_of (by decide)⟩

/-- An L-core reads as well. -/
theorem witness_Loads_lcore : (lc .m).Runs ∧ (lc .m).Reads (0x20000 + (0 : BitVec 12).signExtend 64) (loadSize .ld) :=
  ⟨.inr ⟨0, onL_of⟩, reads_of (by decide)⟩

/-- A doubleword in no strand's image. -/
theorem witness_Loads_memory :
    ∃ s1 p, (su id).Finds .load 0x2FF8 8 false s1 [p] ∧ s1.Clean [p] ∧
      (gives (s1.openParts (su id).cur 0x2FF8 [p] false) (fun s2 _ => s2.replicas = [] && (s2.imagesAt p.pa p.n).isEmpty)
        && ((su id).imagesAt p.pa p.n).isEmpty) = true :=
  of_finds_one (q := fun s1 p => gives (s1.openParts (su id).cur 0x2FF8 [p] false) (fun s2 _ =>
    s2.replicas = [] && (s2.imagesAt p.pa p.n).isEmpty) && ((su id).imagesAt p.pa p.n).isEmpty) (by decide)

theorem witness_Stores :
    let s := su (words [(10, 0x2FF8)])
    s.OnStrand (tOf s) ∧ s.Runs ∧ s.fpOn = true ∧ s.Writes (s.x 10 + (0 : BitVec 9).signExtend 64) (swSize .i64) ∧
    s.Writes (s.x 10 + (4 : BitVec 12).signExtend 64) (storeSize' .sd) ∧
    s.fpDirty.Writes (s.x 10 + (0 : BitVec 12).signExtend 64) (storeSize' .fsd) :=
  ⟨onS_of (by decide), .inl ⟨_, onS_of (by decide)⟩, by decide, writes_of (by decide), writes_of (by decide), writes_of (by decide)⟩

/-- A store within a page, in no image, with the bytes on both sides of it, and one across two pages. -/
theorem witness_StoreFrame :
    (su id).Inv ∧ (su id).OnStrand (tOf (su id)) ∧ (su id).rbuf = [] ∧
    (∃ s1 p, (su id).Finds .store 0x2FF8 8 true s1 [p] ∧ s1.Clean [p] ∧
      (p = ⟨0x2FF8, 8, 0, 0⟩ && s1.raceWords 0x2FF8 8 = []) = true) ∧
    (su id).imagesAt 0x2FF8 8 = [] ∧ (su id).imagesAt 0x3000 4 = [] ∧
    (∃ s1 ps, (su id).Finds .store 0x2FFC 8 true s1 ps ∧ s1.Clean ps ∧
      (ps = [⟨0x2FFC, 4, 0, 0⟩, ⟨0x3000, 4, 0, 0⟩] && s1.raceWords 0x2FFC 4 = [] && s1.raceWords 0x3000 4 = []) = true) :=
  ⟨inv_of (by decide), onS_of (by decide), by decide, of_finds_one (q := fun s1 p => p = ⟨0x2FF8, 8, 0, 0⟩ && s1.raceWords 0x2FF8 8 = []) (by decide),
    by decide, by decide, of_finds (q := fun s1 ps => ps = [⟨0x2FFC, 4, 0, 0⟩, ⟨0x3000, 4, 0, 0⟩] && s1.raceWords 0x2FFC 4 = [] && s1.raceWords 0x3000 4 = []) (by decide)⟩

/-- The last doubleword of the crew's stage memory. -/
theorem witness_StageAccess :
    let s := su (words [(10, 0x5FF8)])
    s.OnCrew (tOf s) (cOf s) ∧ 0x5FF8 % lwSize .i64 = 0 ∧ 0x5FF8 % swSize .i64 = 0 ∧
    (cOf s).stageIn 0x5FF8 8 = true ∧ (cOf s).stageBad 0x5FF8 8 = false ∧ s.stageHeld (tOf s) 0x5FF8 8 = false :=
  ⟨on_of (by decide), by decide⟩

theorem witness_StageFrame :
    (su id).Inv ∧ (su id).OnCrew (tOf (su id)) (cOf (su id)) ∧
    (∀ k ∈ (cOf (su id)).cvNums, ((cOf (su id)).cvGet k).fixed = false) ∧
    ((0x0 : Nat) < 8 ∨ 8 + 8 ≤ 0) ∧ ((16 : Nat) < 8 ∨ 8 + 8 ≤ 16) ∧ 8 ≤ 8 ∧ 15 < 8 + 8 :=
  ⟨inv_of (by decide), on_of (by decide), by decide, by decide⟩

/-- One byte off, one byte beyond, and a marked row. -/
theorem witness_AlignmentTraps_stage :
    let s := su id fun c => { c with rowPoison := [383] }
    s.OnCrew (tOf s) (cOf s) ∧ 0x5FF9 % lwSize .i64 ≠ 0 ∧ 0x6000 % lwSize .i64 = 0 ∧ (cOf s).stageIn 0x6000 8 = false ∧
    (cOf s).stageIn 0x5FF8 8 = true ∧ (cOf s).stageBad 0x5FF8 8 = true := ⟨on_of (by decide), by decide⟩

theorem witness_AlignmentTraps_atomic :
    (∃ t c, (su (words [(10, 1)])).OnCrew t c) ∧ ((su (words [(10, 1)])).x 10).toNat % ityBytes .i32 ≠ 0 :=
  ⟨⟨_, _, on_of (by decide)⟩, by decide⟩

/-- A strand with a store that has not reached another die, and one that its own die lacks. -/
theorem witness_Fences :
    let s : State := { su id with replicas := [⟨1, 0x3000, [0], 0x40000⟩, ⟨0, 0x3000, [0], 0x40000⟩] }
    s.OnStrand (tOf s) ∧ s.cur = .strand 0x40000 ∧ s.rbuf = [] ∧
    (s.release false).replicas = [⟨1, 0x3000, [0], 0x40000⟩] ∧ (s.release true).replicas = [] :=
  ⟨onS_of (by decide), by decide⟩

/-- Every kind of atomic finds its address, with and without a release, and the last doubleword of stage memory. -/
theorem witness_Atomics :
    let s := su (words [(10, 0x2FF0)])
    s.Runs ∧ (s.x 10).toNat % 16 = 0 ∧
    (∃ s1 p, s.release.FindsAtom .store (s.x 10) 8 true s1 p ∧ true) ∧ (∃ s1 p, s.FindsAtom .store (s.x 10) 8 true s1 p ∧ true) ∧
    (∃ s1 p, (s.release false).FindsAtom .store (s.x 10) 4 true s1 p ∧ true) ∧
    (∃ s1 p, s.FindsAtom .load (s.x 10) 4 true s1 p ∧ true) ∧ (∃ s1 p, s.FindsAtom .store (s.x 10) 16 true s1 p ∧ true) ∧
    (∃ s1 p, s.FindsAtom .store (s.x 10) 4 false s1 p ∧ true) :=
  ⟨.inl ⟨_, onS_of (by decide)⟩, by decide, findsAtom_of (by decide), findsAtom_of (by decide), findsAtom_of (by decide),
    findsAtom_of (by decide), findsAtom_of (by decide), findsAtom_of (by decide)⟩

/-- A counter in memory that equals what a compare-and-swap expects, and one that does not. -/
theorem witness_Atomics_compare :
    let s := su (words [(10, 0x2FF0), (12, 0), (14, 1)])
    gives (s.atomAt .store (s.x 10) 8 true) (fun s' l => l.old = (s'.x 12).toNat % 2 ^ 64 && l.old ≠ (s'.x 14).toNat % 2 ^ 64) = true := by
  decide

/-- The bytes beside a doubleword, and in it, in no image. -/
theorem witness_Atomics_memory :
    (su id).Inv ∧ (su id).Runs ∧ (su id).rbuf = [] ∧ 8 ≤ 16 ∧ (0x2FF0 : Word).toNat % 8 = 0 ∧ (su id).imagesAt 0x2FF0 8 = [] ∧
    ∃ s1 p, (su id).FindsAtom .store 0x2FF0 8 true s1 p ∧
      (p = ⟨0x2FF0, 8, 0, 0⟩ && s1.replicas = [] && s1.raceWords 0x2FF0 8 = []) = true :=
  ⟨inv_of (by decide), .inl ⟨_, onS_of (by decide)⟩, by decide, by decide, by decide, by decide,
    findsAtom_of (q := fun s1 p => p = ⟨0x2FF0, 8, 0, 0⟩ && s1.replicas = [] && s1.raceWords 0x2FF0 8 = []) (by decide)⟩

theorem witness_Atomics_tick :
    let s := su (words [(10, 0x5FF8)])
    s.OnCrew (tOf s) (cOf s) ∧ 0x5FF8 % 8 = 0 ∧ (cOf s).stageIn 0x5FF8 8 = true ∧ (cOf s).stageBad 0x5FF8 8 = false ∧
    s.stageHeld (tOf s) 0x5FF8 8 = false := ⟨on_of (by decide), by decide⟩

/-- Ordinary memory, a page of type NC, and an L-core. -/
theorem witness_BufferedReduction :
    let s := su (words [(10, 0x2FF8)])
    let nc : State := { s with mem := bytesSet s.mem 0x11000 (0xDF + 2 ^ 61) 8 }
    (s.x 10).toNat % ityBytes .i64 = 0 ∧ s.OnStrand (tOf s) ∧ nc.OnStrand (tOf nc) ∧
    (∃ s1 p, s.Finds .store (s.x 10) 8 true s1 [p] ∧ s1.Clean [p] ∧
      (p.pbmt ≠ 2 && p.attr ≠ 1 && p.pbmt ≠ 1 && region p.pa = .hbm) = true) ∧
    (∃ s1 p, nc.FindsAtom .store (nc.x 10) 8 true s1 p ∧ decide (p.pbmt = 1) = true) ∧
    (lc .m).OnL 0 ∧ ∃ s1 p, (lc .m).FindsAtom .store 0x2FF8 8 true s1 p ∧ true :=
  ⟨by decide, onS_of (by decide), onS_of (by decide),
    of_finds_one (q := fun _ p => p.pbmt ≠ 2 && p.attr ≠ 1 && p.pbmt ≠ 1 && region p.pa = .hbm) (by decide),
    findsAtom_of (q := fun _ p => p.pbmt = 1) (by decide), onL_of, findsAtom_of (by decide)⟩

/-- Writes device registers. -/
def regs (l : List (Nat × Word)) (s : State) : State := { s with mmio := l.foldl (fun m p => sset m p.1 p.2) s.mmio }

/-- Writes memory. -/
def put (a v n : Nat) (s : State) : State := { s with mem := bytesSet s.mem a v n }

/-- An lr on a free hold table; sc with and without the reservation on its line, and one whose reservation a reduction of another
strand ends that merges first. -/
theorem witness_Reservations :
    let s := su (words [(10, 0x3000)])
    let r : State := su fun t => words [(10, 0x3000)] { t with resv := some 0xC0 }
    let m : State := { r with rbuf := [{ core := 0, line := 0xC0, op := .add, ty := .i64, point := 0, vals := [(0, 1)], filter := 2, who := [0x50000], owner := 0x50000, born := 0 }] }
    s.OnStrand (tOf s) ∧ s.Runs ∧ r.Runs ∧ m.Runs ∧ (s.x 10).toNat % 8 = 0 ∧ s.holds = [] ∧
    (∃ s1 p, s.FindsAtom .load (s.x 10) 8 true s1 p ∧ true) ∧
    (∃ s1 p, s.atomLoc .store (s.x 10) 8 = .ok s1 p ∧ decide (s1.resv ≠ some (lineOf p.pa)) = true) ∧
    (∃ s1 p, r.FindsAtom .store (r.x 10) 8 false s1 p ∧ (s1.resv = some (lineOf p.pa) &&
      gives (s1.atomOpen .store (r.x 10) p false) fun s2 _ => s2.resv = some (lineOf p.pa)) = true) ∧
    (∃ s1 p, m.FindsAtom .store (m.x 10) 8 false s1 p ∧ (s1.resv = some (lineOf p.pa) &&
      gives (s1.atomOpen .store (m.x 10) p false) fun s2 _ => s2.resv = none) = true) :=
  ⟨onS_of (by decide), .inl ⟨_, onS_of (by decide)⟩, .inl ⟨_, onS_of (by decide)⟩, .inl ⟨_, onS_of (by decide)⟩, by decide, by decide,
    findsAtom_of (by decide), of_gives (by decide), findsAtom_of (by decide), findsAtom_of (by decide)⟩

theorem witness_Reservations_waits :
    (lc .m).OnL 0 ∧ (tOf (su id)).resv = none ∧ (tOf (su fun t => { t with resv := some 0xC0 })).resv ≠ none := ⟨onL_of, by decide⟩

/-- A crew of two on register 3: strand 0 a member, or not; the S set in S-mode. -/
def cvCrew (r : CvReg) (c : Crew) : Crew := { c with cv := [{}, {}, {}, r], live := [0, 1] }

theorem witness_ConvergenceMembership :
    let s (ms : List Nat) := su (words [(10, 5), (11, 6)]) (cvCrew { members := ms })
    (s []).OnCrew (tOf (s [])) (cOf (s [])) ∧ cvSel (tOf (s [])) (cOf (s [])) 3 = .ok 3 ∧ (3 : Nat) ≠ 16 ∧
    (tOf (s [])).sid ∉ ((cOf (s [])).cvGet 3).members ∧ ((cOf (s [])).cvGet 3).members = [] ∧ (tOf (s [])).leader = true ∧
    (tOf (s [0])).sid ∈ ((cOf (s [0])).cvGet 3).members ∧ ((cOf (s [0])).cvGet 3).members ≠ [] ∧
    5 < ((s []).x 11).toNat ∧ ((s []).x 10).toNat = 5 ∧ (tOf (s [])).sMode = false ∧ (cOf (s [])).cvs ≤ (4 : BitVec 4).toNat :=
  ⟨on_of (by decide), by decide⟩

theorem witness_ConvergenceMembership_S :
    let s := su inS
    s.OnCrew (tOf s) (cOf s) ∧ cvSel (tOf s) (cOf s) 15 = .ok 16 ∧ (tOf s).sMode = true ∧ (14 : BitVec 4) ≠ 15 :=
  ⟨on_of (by decide), by decide⟩

theorem witness_Arrivals :
    let s := su id (cvCrew { members := [0, 1] })
    s.OnCrew (tOf s) (cOf s) ∧ cvSel (tOf s) (cOf s) 3 = .ok 3 ∧ ((cOf s).cvGet 3).signable (tOf s).sid 1 [] = .ok :=
  ⟨on_of (by decide), by decide⟩

/-- A strand that has signed what is pending already. -/
theorem witness_Arrivals_busy :
    let s := su id (cvCrew { members := [0, 1], kind := 1, signed := [0] })
    s.OnCrew (tOf s) (cOf s) ∧ cvSel (tOf s) (cOf s) 3 = .ok 3 ∧ ((cOf s).cvGet 3).signable (tOf s).sid 1 [] = .busy :=
  ⟨on_of (by decide), by decide⟩

/-- Phase 100 of register 3: tokens at each bound of R124, one released, one cancelled, one not yet released. -/
theorem witness_Arrivals_tokens :
    let r : CvReg := { phase := 100, hist := 2, unrel := [(99, [7])] }
    let s := su id (cvCrew r)
    let d (t : Nat) := (r.phase + 2 ^ 31 - t) % 2 ^ 31
    s.OnCrew (tOf s) (cOf s) ∧ cvSel (tOf s) (cOf s) 3 = .ok 3 ∧ (cOf s).cvGet 3 = r ∧
    (2 ^ 31 ≤ 2 ^ 31 ∧ 2 ^ 30 < d 101) ∧ (64 < d 35 ∧ d 35 ≤ 2 ^ 30) ∧
    (d 36 ≤ 64 ∧ r.answerWt 36 false = some 0) ∧ (d 98 ≤ 64 ∧ r.answerWt 98 false = some (neg 6)) ∧
    (d 100 ≤ 64 ∧ r.answerWt 100 false = none) ∧ (d 99 ≤ 64 ∧ r.answerWt 99 false = none) :=
  ⟨on_of (by decide), by decide⟩

/-- Strand 1 has signed a sum already; strand 0 signs it too, and finds another one to differ. -/
theorem witness_LaneForms :
    let s := su id (cvCrew { members := [0, 1] })
    let u := su id (cvCrew { members := [0, 1], kind := 2, signed := [1], sig := [6, 8] })
    s.OnCrew (tOf s) (cOf s) ∧ cvSel (tOf s) (cOf s) 3 = .ok 3 ∧ ((cOf s).cvGet 3).signable (tOf s).sid 2 [7, 13] = .ok ∧
    ((cOf u).cvGet 3).signable (tOf u).sid 2 [6, 8] = .ok ∧ (1 : Nat) < [((5 : Word), 1), (6, 0)].length ∧
    (0 : Nat) < [(5 : Word)].length ∧ 2 ≤ [1, 2].length ∧ [1, 2].length ≤ 2 ^ 14 :=
  ⟨on_of (by decide), by decide⟩

theorem witness_CollectiveMismatch :
    let s := su id (cvCrew { members := [1] })
    let u := su id (cvCrew { members := [0, 1], kind := 2, signed := [1], sig := [6, 8] })
    s.OnCrew (tOf s) (cOf s) ∧ cvSel (tOf s) (cOf s) 3 = .ok 3 ∧ (tOf s).sid ∉ ((cOf s).cvGet 3).members ∧
    u.OnCrew (tOf u) (cOf u) ∧ cvSel (tOf u) (cOf u) 3 = .ok 3 ∧
    (tOf u).sid ∈ ((cOf u).cvGet 3).members ∧ (tOf u).sid ∉ ((cOf u).cvGet 3).signed ∧ ((cOf u).cvGet 3).fixed = false ∧
    ((cOf u).cvGet 3).kind = 2 ∧ ((cOf u).cvGet 3).sig ≠ [0] ∧ (tOf u).sMode = false ∧ (tOf s).sMode = false :=
  ⟨on_of (by decide), by decide, by decide, on_of (by decide), by decide⟩

/-- Die 0 ready, with a strand store of 2 MiB at 2 MiB: what `mg.go` and forks need. -/
def homed (s : State) : State :=
  regs [(bootBase, 0x41), (dieReg dispBase 0 0, 2 ^ 21), (dieReg dispBase 0 0x08, 1)] s

/-- The greatest priority and any die: the pool word 0xF0700 of class 0. -/
theorem witness_Migration_new :
    let s := homed (lc .u fun l => { l with ctx := sset l.ctx 11 0xF0700 })
    s.OnL 0 ∧ (s.lcoreAt 0).mode = .u ∧ State.poolWordOk (s.x 11) = true ∧
    s.frames.find? (fun f => f.recalled && !f.killed && f.tag = (s.lcoreAt 0).get 0x140 && f.satp = (s.lcoreAt 0).get 0x180) = none ∧
    s.chooseDie (s.x 11) = some 0 ∧ (s.alloc 0 1024 1024).isSome = true := ⟨⟨rfl, rfl⟩, by decide⟩

theorem witness_Migration_recalled :
    let s : State := { homed (lc .u) with frames := [{ image := 0x200000, recalled := true }] }
    s.OnL 0 ∧ (s.lcoreAt 0).mode = .u ∧ State.poolWordOk (s.x 11) = true ∧
    s.frames.find? (fun f => f.recalled && !f.killed && f.tag = (s.lcoreAt 0).get 0x140 && f.satp = (s.lcoreAt 0).get 0x180)
      = some { image := 0x200000, recalled := true } := ⟨⟨rfl, rfl⟩, by decide⟩

theorem witness_Migration_pool :
    let s := homed (su id)
    s.OnCrew (tOf s) (cOf s) ∧ (tOf s).sMode = false ∧ (cOf s).fleet = 0 ∧ State.anyChild (tOf s) = false ∧
    State.poolWordOk (s.x 11) = true ∧ s.eligible (cOf s).die (wbits (s.x 11) 1 0) = true ∧
    s.owed (tOf s).image (fun _ => true) = false :=
  ⟨on_of (by decide), by decide⟩

theorem witness_Migration_home :
    let s := su id
    let s1 := s.modStrand (tOf s).image fun t => { t with wlen := s.ilen }
    s1.strand? (tOf s).image = some (tOf s1) ∧ s1.childrenDone (tOf s1) = true ∧ State.anyChild (tOf s1) = false ∧
    (tOf s1).batCount = 0 ∧ s1.owed (tOf s).image (fun _ => true) = false ∧ s.OnCrew (tOf s) (cOf s) ∧ (tOf s).sMode = false :=
  ⟨by decide, by decide, by decide, by decide, by decide, on_of (by decide), by decide⟩

/-- A legal block of one crew of one strand, at its natural boundary, and one of zeros. -/
theorem witness_ForkForms_fork :
    let s := homed (put 0x3000 (2 ^ 32 * 2 ^ 32 * (1 + 2 ^ 32)) 64 (su (words [(10, 0x3000), (11, 3)])))
    let z := homed (su (words [(10, 0x3000), (11, 3)]))
    s.OnCrew (tOf s) (cOf s) ∧ (tOf s).sMode = false ∧ (tOf s).leader = true ∧ (s.x 11).toNat ≤ 3 ∧
    State.childOf (tOf s) (s.x 11).toNat = 0 ∧ s.fdepth (cOf s) ≠ 10 ∧ (s.x 10).toNat % 64 = 0 ∧
    s.Reads (s.x 10) 64 ∧ (s.storeLow (cOf s).die 64 64).isSome = true ∧
    gives (s.load (s.x 10) 64) (fun m b => State.blockOk b &&
      (let ls := 8 :: State.liveLines (State.blkF b 0x18 4)
       !m.imagePoison (tOf s).image ls && !m.imageBusy (tOf s).image ls)) = true ∧ gives (z.load (z.x 10) 64) (fun _ b => !State.blockOk b) = true :=
  ⟨on_of (by decide), by decide, by decide, by decide, by decide, by decide, by decide, reads_of (by decide), by decide⟩

/-- Slot 3 holds a fleet that is done, or one that still has a crew to place. -/
theorem witness_ForkForms_join :
    let s (n : Nat) : State := { su (words [(10, 3), (11, 4), (79, 9)]) with fleets := [{ handle := 9, crews := 1, nextC := n }] }
    (s 1).OnCrew (tOf (s 1)) (cOf (s 1)) ∧ ((s 1).x 10).toNat ≤ 3 ∧ State.childOf (tOf (s 1)) 3 ≠ 0 ∧
    ((s 1).joinNow (tOf (s 1)) 3).isSome = true ∧
    ((s 0).joinNow (tOf (s 0)) 3).isNone = true ∧ ((s 0).slotFleet (tOf (s 0)) 3).isSome = true ∧ ((s 0).x 11).toNat = 4 :=
  ⟨on_of (by decide), by decide⟩

/-- A fleet in slot 3 that runs, with a crew on W-core 0 and one to place, and one that is to be pre-empted; query codes 0 to 4. -/
theorem witness_ForkForms_family :
    let s (b : Bool) : State := { su (words [(10, 3), (11, 1), (12, 2), (13, 3), (14, 4), (79, 9)]) with
      fleets := [{ handle := 9, crews := 2, nextC := 1, pre := b }, { handle := 8, crews := 1, parent := 9 }] }
    let r : State := { s false with crews := (s false).crews ++ [{ id := 77, fleet := 9, cores := [5] }] }
    (∀ b ∈ [false, true], (s b).descend [State.childOf (tOf (s b)) 3] 12 = [9, 8] ∧ (s b).fleets.all (fun f => !(s b).fleetDone f) = true ∧
      ((s b).fleet? 9).any (fun f => f.pre = b) = true ∧ ((s b).slotFleet (tOf (s b)) 3).isSome = true) ∧
    (s true).OnCrew (tOf (s true)) (cOf (s true)) ∧ (r.crew? 77).any (fun c => c.fleet = 9 && c.cores ≠ [] && c.pre % 3 = 0) = true ∧
    ((s true).x 0).toNat = 0 ∧ ((s true).x 11).toNat = 1 ∧ ((s true).x 12).toNat = 2 ∧ ((s true).x 13).toNat = 3 ∧
    ((s true).x 14).toNat = 4 ∧ (tOf (s true)).sMode = false :=
  ⟨by decide, on_of (by decide), by decide⟩

/-- At the bound and one beyond it, and a word that differs and one that does not. -/
theorem witness_ParkForms :
    let s (n : Word) : State := { su (fun t => words [(10, n), (11, 0x3000), (12, 1)] { t with bats := [{ num := 0, left := 1 }] }) with
      time := 1 }
    (s 1).OnStrand (tOf (s 1)) ∧ (tOf (s 1)).sMode = false ∧ (tOf (s 1)).batCount ≤ ((s 1).x 10).toNat ∧
    ((s 0).x 10).toNat < (tOf (s 0)).batCount ∧ ((s 1).x 10).toNat ≤ (s 1).time.toNat ∧ (s 1).time.toNat < ((s 2).x 10).toNat ∧
    ((s 1).x 11).toNat % 8 = 0 ∧ (s 1).Reads ((s 1).x 11) 8 ∧
    gives ((s 1).load (w64 ((s 1).x 11).toNat) 8) (fun _ v => w64 v ≠ (s 1).x 12 && w64 v = (s 1).x 0) = true ∧
    0 < (255 : BitVec 9).toInt ∧ (256 : BitVec 9).toInt ≤ 0 ∧ (0 : BitVec 9).toInt ≤ 0 :=
  ⟨onS_of (by decide), by decide, by decide, by decide, by decide, by decide, by decide, reads_of (by decide), by decide⟩

theorem witness_ModeChecks :
    (su inS).OnCrew (tOf (su inS)) (cOf (su inS)) ∧ (tOf (su inS)).sMode = true ∧ (tOf (su id)).sMode = false :=
  ⟨on_of (by decide), by decide⟩

/-- A group of two in slot 3, with one clause of its record page. -/
def grp (g : Group → Group) (f : Fleet → Fleet := id) : State :=
  { su (words [(10, 3), (11, 6), (12, 2), (13, 1), (79, 9)]) with
    fleets := [f { handle := 9, crews := 2, group := some (g
      { n := 2, states := [0, 0], timeout := 5, running := true, record := 0x3000, frames := [0x3000] }) }] }

/-- Query code 6 and sibling number 2 lie at their limits. -/
theorem witness_SampleGroupForms_forker :
    let s := grp id
    let d := grp fun g => { g with closed := true }
    s.OnCrew (tOf s) (cOf s) ∧ (tOf s).sMode = false ∧ (s.x 10).toNat ≤ 3 ∧
    (match s.slotFleet (tOf s) 3 with
      | some f => decide (f.group.isSome = true) && (match f.group with
          | some g => !g.closed && !s.closeWritten g && decide (g.timeout ≠ 0) && decide (g.n ≤ (s.x 12).toNat) && decide ((s.x 13).toNat < g.n)
              && decide (g.st (s.x 13).toNat = 0)
          | none => false)
      | none => false) = true ∧
    (s.x 11).toNat ≤ 6 ∧
    (match d.slotFleet (tOf d) 3 with
      | some f => (match f.group with | some g => d.closeWritten g | none => false) | none => false) = true ∧
    s.crewsOf 9 = [] :=
  ⟨on_of (by decide), by decide⟩

/-- The greatest reward that is finite and 2^64. -/
theorem witness_SampleGroupForms_sibling :
    let s : State := { su (words [(43, 0x43F0000000000000)]) (fun c => { c with fleet := 9, sibling := 1 }) with
      fleets := [{ handle := 9, crews := 2, group := some { n := 2, states := [0, 0], running := true } }] }
    s.OnCrew (tOf s) (cOf s) ∧ (s.group? (cOf s).fleet).isSome = true ∧ (tOf s).leader = true ∧
    (match s.group? (cOf s).fleet with | some g => !g.closed && decide (g.st (cOf s).sibling = 0 ∧ (cOf s).sibling < g.states.length) | none => false) = true ∧
    (s.f 11).toNat % 2 ^ 63 ≤ 0x43F0000000000000 :=
  ⟨on_of (by decide), by decide⟩

/-- What `SgForks` asks, as a value. -/
def sgForks (s : State) (t : Strand) (c : Crew) (a b : Reg) : Bool :=
  let r := (s.x b).toNat
  gives (s.load (s.x b) 64) fun l1 hdr =>
    let n := State.blkF hdr 8 2
    let slot := State.blkF hdr 0xA 1
    decide (t.leader = true ∧ r % 64 = 0 ∧ 2 ≤ n ∧ n ≤ 256 ∧ slot ≤ 3 ∧ State.childOf t slot = 0 ∧ State.blkF hdr 0 8 = 0 ∧
      State.blkF hdr 0xB 1 = 0 ∧ epsOk (State.blkF hdr 0x10 8) = true ∧ l1.fdepth c ≠ 10 ∧ (l1.x a).toNat % 64 = 0) &&
    gives (l1.load (l1.x a) 64) fun l2 blk => decide (State.blockOk blk = true ∧ State.blkF blk 8 4 = n) &&
      gives (l2.recordPages r 0 ((r % 4096 + 64 + 16 * n + 4095) / 4096)) fun l3 ps =>
        let g : Group := { n, timeout := State.blkF hdr 0xC 4, eps := BitVec.ofNat 64 (State.blkF hdr 0x10 8), record := r,
                           frames := ps.map (·.pa), states := List.replicate n 0, running := true }
        decide ((∀ p ∈ ps, p.attr = 0 ∧ p.pbmt = 0) ∧ (l3.fleets.filter fun x => x.die = c.die && x.group.isSome).length < 1024) &&
        let ls := 8 :: State.liveLines (State.blkF blk 0x18 4)
        let m := l3.fetchLines t.image ls
        (!l3.imagePoison t.image ls && !l3.imageBusy t.image ls) &&
        match m.curStrand with
        | some u => gives (m.openParts m.cur (w64 r) (State.recordParts g 0 (64 + 16 * n)) true) fun l4 _ =>
            (l4.release.newFleet u c slot blk (some g)).isSome
        | none => false

theorem of_sgForks {s : State} {t : Strand} {c : Crew} {a b : Reg} (h : sgForks s t c a b = true) :
    ∃ n slot s2 g h, s.SgForks t c a b n slot s2 g h := by
  obtain ⟨l1, hdr, h1, h⟩ := of_gives h
  simp only [Bool.and_eq_true, decide_eq_true_eq] at h
  obtain ⟨⟨a1, a2, a3, a4, a5, a6, a7, a8, a9, a10, a11⟩, h⟩ := h
  obtain ⟨l2, blk, h2, h⟩ := of_gives h
  simp only [Bool.and_eq_true, decide_eq_true_eq] at h
  obtain ⟨⟨b1, b2⟩, h⟩ := h
  obtain ⟨l3, ps, h3, h⟩ := of_gives h
  simp only [Bool.and_eq_true, decide_eq_true_eq, Bool.not_eq_true'] at h
  obtain ⟨⟨c1, c2⟩, c3, h⟩ := h
  cases hu : (l3.fetchLines t.image (8 :: State.liveLines (State.blkF blk 0x18 4))).curStrand with
  | none => rw [hu] at h; cases h
  | some u =>
    rw [hu] at h
    obtain ⟨l4, _, h4, h⟩ := of_gives h
    obtain ⟨⟨s2, hd⟩, h5⟩ := Option.isSome_iff_exists.mp h
    exact ⟨_, _, s2, _, hd, a1, a2, a3, a4, a5, a6, l1, l2, l3, l4, hdr, blk, ps, h1, a7, rfl, rfl, a8, a9, a10, a11, h2, b1, b2, h3,
      c1, c2, rfl, c3, u, hu, h4, h5⟩

/-- A record of two entries at 0x4000 and a block of two crews at 0x3000. -/
theorem witness_SampleGroupForms_fork :
    let s := homed (put 0x4000 (2 ^ 64 * (2 + 3 * 2 ^ 16)) 64 (put 0x3000 (2 ^ 64 * (2 + 2 ^ 32)) 64
      (su (words [(10, 0x3000), (11, 0x4000)]))))
    s.OnCrew (tOf s) (cOf s) ∧ (tOf s).sMode = false ∧ ∃ n slot s2 g h, s.SgForks (tOf s) (cOf s) 10 11 n slot s2 g h :=
  ⟨on_of (by decide), by decide, of_sgForks (by decide +kernel)⟩

/-- Length 0, and the greatest length on either side. -/
theorem witness_CopyForms :
    let s := su (words [(10, 0x100000), (11, 0x200000), (12, 0x40000)]) fun c => { c with stageSize := 0x40000 }
    let u := su (words [(10, 0), (11, 0x3000), (12, 64)])
    s.OnCrew (tOf s) (cOf s) ∧ (s.x 0).toNat = 0 ∧ (s.x 12).toNat ≠ 0 ∧ (s.x 12).toNat ≤ 0x40000 ∧
    (s.x 11).toNat + (s.x 12).toNat ≤ 2 ^ 64 ∧ State.rowsOut (cOf s) [(0, 0x40000)] = none ∧
    u.OnCrew (tOf u) (cOf u) ∧ State.rowsOut (cOf u) [((u.x 10).toNat, 64)] = none ∧ State.rowsOut (cOf u) [(128, 64)] = none ∧
    (0 + 64 ≤ 128 ∨ 128 + 64 ≤ 0) :=
  ⟨on_of (by decide), by decide, by decide, by decide, by decide, by decide, on_of (by decide), by decide⟩

/-- Two rows of 32 elements, one of them with the index of a zero row; formats `e2m1` and `bf16`. -/
theorem witness_CopyForms_rows :
    let s := su (words [(10, 0), (11, 0x3000), (12, 2), (13, 0x1000), (14, 0x10000400020)]) fun c =>
      { c with stage := bytesSet [] 0x1000 0xFFFFFFFF 4 }
    let idx := (upto 0 2).map fun j => (cOf s).stageGet (0x1000 + 4 * j) 4
    s.OnCrew (tOf s) (cOf s) ∧ bits (s.x 14).toNat 15 0 = 32 ∧ bits (s.x 14).toNat 31 16 = 64 ∧
    idx = [0xFFFFFFFF, 0] ∧ 32 % cfGroup (.elt .e2m1) = 0 ∧ 32 % cfGroup .bf16 = 0 ∧
    State.rowsOut (cOf s) [(0x1000, 8)] = none ∧ (cOf s).stageBad 0x1000 8 = false ∧
    State.rowsOut (cOf s) [(0, 64), (64, 64)] = none ∧ s.frm?.isSome = true ∧
    (∀ i ∈ idx, i = 0xFFFFFFFF ∨
      ((0x3000 + i * bits (s.x 14).toNat 63 32) % 2 ^ 64 % cfAlign .bf16 = 0 ∧
       (0x3000 + i * bits (s.x 14).toNat 63 32) % 2 ^ 64 + 64 ≤ 2 ^ 64)) :=
  ⟨on_of (by decide), by decide⟩

theorem witness_CopyForms_convert :
    let s := su (words [(10, 0), (11, 0x3000), (12, 64), (13, 0x2000)])
    s.OnCrew (tOf s) (cOf s) ∧ s.frm?.isSome = true ∧ 64 % cfGroup (.elt .e3m2) = 0 ∧ 64 % cfGroup .f32 = 0 ∧
    0 % cfAlign .f32 = 0 ∧ 0x3000 % cfAlign (.elt .e3m2) = 0 ∧ 64 * cfBits (.elt .e3m2) / 8 = 48 ∧
    State.rowsOut (cOf s) [(0, 64 * cfBits .f32 / 8)] = none ∧ State.rowsOut (cOf s) [(0x2000, 2)] = none ∧
    (cOf s).stageBad 0x2000 2 = false ∧ (su (words [(64, 0xE0)])).frm? = none :=
  ⟨on_of (by decide), by decide⟩

/-- What `CopyOpens` asks, as a value. -/
def copyOpens (s : State) (t : Strand) (q : CopyPlan) : Bool :=
  let side (st : Bool) (l : List (Nat × Nat)) : List (Nat × Nat) := if st then [] else l
  let pieces (st : Bool) (f : List (Nat × Phys)) (l : List (Nat × Nat)) : List Piece :=
    if st then l.map fun r => { addr := r.1, len := r.2 } else l.flatMap (rowPieces f)
  let tab : List (Nat × Nat) := match q.table with | some x => [x] | none => []
  decide (s.cpPath t = some false ∧ t.batNext ≤ 16) &&
  gives (s.copyPages .load (pageFirsts (side q.srcStage q.src))) fun s1 fs =>
  gives (s1.copyPages .load (pageFirsts tab)) fun s2 ft =>
  gives (s2.copyPages .store (pageFirsts (side q.dstStage q.dst))) fun s3 fd =>
    let src := pieces q.srcStage fs q.src
    let dst := pieces q.dstStage fd q.dst
    let own := if q.dstStage then [] else dedup (dst.flatMap fun p => linesOf p.addr p.len)
    let tp := State.partsOf ft (tab.flatMap (rowPieces ft))
    decide ((q.apart = true → q.srcStage = q.dstStage → piecesMeet src dst = false) ∧
      (∀ l ∈ own, (∀ c ∈ s.copies, c.image ≠ t.image → l ∉ c.own) ∧ ∀ h ∈ s3.holds, h.image ≠ t.image → h.granule ≠ l) ∧
      (∀ p ∈ tp, s3.blocked s.cur p.pa p.n false = false) ∧ tp.any (fun p => s3.poisonAt p.pa p.n) = false ∧
      ∀ p ∈ tp, s3.imagesAt p.pa p.n = [])

theorem of_copyOpens {s : State} {t : Strand} {q : CopyPlan} (h : copyOpens s t q = true) : ∃ src dst, s.CopyOpens t q src dst := by
  unfold copyOpens at h
  simp only [Bool.and_eq_true, decide_eq_true_eq] at h
  obtain ⟨⟨a1, a2⟩, h⟩ := h
  obtain ⟨s1, fs, h1, h⟩ := of_gives h
  obtain ⟨s2, ft, h2, h⟩ := of_gives h
  obtain ⟨s3, fd, h3, h⟩ := of_gives h
  obtain ⟨b1, b2, b3, b4, b5⟩ := of_decide_eq_true h
  exact ⟨_, _, a1, a2, s1, s2, s3, fs, ft, fd, h1, h2, h3, rfl, rfl, b1, b2, b3,
    ⟨b4, fun p hp t ht => by rw [b5 p hp] at ht; cases ht⟩, b5⟩

/-- A copy of 64 bytes from memory to stage with the batch limit reached and not passed, and a converting one from stage to memory
with its scales in memory. -/
theorem witness_CopyForms_queue :
    let s := su fun t => { t with openBat := 15, bats := (upto 0 15).map fun i => { num := i, left := 1 } }
    let q : CopyPlan := { dstStage := true, srcStage := false, src := [(0x3000, 64)], dst := [(0, 64)], rowS := 64, rowD := 64,
                          vals := [0, 0x3000, 64, 0, 0], apart := true }
    let m : CopyPlan := { dstStage := false, srcStage := true, src := [(0, 64)], dst := [(0x5000, 64)], rowS := 64, rowD := 64,
                          conv := some (.elt .e4m3, .elt .e5m2), table := some (0x6000, 2), vals := [0x5000, 0, 64, 0x6000, 0], apart := true }
    (tOf s).batNext = 16 ∧ (∃ src dst, s.CopyOpens (tOf s) q src dst) ∧ ∃ src dst, s.CopyOpens (tOf s) m src dst :=
  ⟨by decide, of_copyOpens (by decide), of_copyOpens (by decide +kernel)⟩

theorem witness_BatchForms :
    let s := su fun t => words [(10, 0), (11, 1)] { t with bats := [{ num := 0, left := 1 }] }
    let f := su fun t => { t with openBat := 17, bats := (upto 0 17).map fun i => { num := i, left := 1 } }
    s.OnStrand (tOf s) ∧ (tOf s).batSeal.batCount ≤ 16 ∧ (tOf s).batCount ≤ (s.x 11).toNat ∧ (s.x 10).toNat < (tOf s).batCount ∧
    f.OnStrand (tOf f) ∧ 16 < (tOf f).batSeal.batCount ∧
    (let c : Copy := { id := 9, image := 0x40000, rowS := 64, rowD := 64, src := [{ addr := 0x3000, len := 64 }], dst := [{ addr := 0x4000, len := 64 }] }
     c.part = [] ∧ c.lines ≠ []) :=
  ⟨onS_of (by decide), by decide, by decide, by decide, onS_of (by decide), by decide⟩

/-- A crew of two W-cores whose strand 0 is a member of register 3. -/
def duo (c : Crew) : Crew :=
  { c with shape := 2049, cores := [0, 1], alloc := [0xFF, 0xFF], hold := [1, 1], holder := [0, 0], holdCtr := [0, 0],
           cv := [{}, {}, {}, { members := [0] }] }

/-- The smallest BF16 operation: A at 0, B at 0x1000 with rows of 64 bytes; and the same of a pair of W-cores. -/
theorem witness_MatrixSigning :
    let s := su (words [(11, 0), (12, 0x1000), (13, 0x400040), (14, 0x100000), (15, 2 ^ 64 - 1)]) duo
    let rowsB (base : Nat) : List (Nat × Nat) := (upto 0 (mxK 0)).map fun j => (base + j * 64, 16 * mxE 0)
    s.OnCrew (tOf s) (cOf s) ∧ (tOf s).sMode = false ∧ (3 : BitVec 4).toNat < (cOf s).cvs ∧
    (∀ op ∈ [0, 1, 2], ∀ w ∈ [0, 0x100000],
      ((cOf s).cvGet 3).signable (tOf s).sid 3 [op, 0, 0, 0, 0, 3, if op = 1 then 0 else 0, 0x1000, 0x400040, w] = .ok) ∧
    bits 0x400040 63 32 = 0 ∧ 0x1000 % 64 = 0 ∧ 16 * mxE 0 ≤ 64 ∧ mxK 0 * mxE 0 ≤ 64 ∧
    State.rowsOut (cOf s) ((upto 0 16).map fun j => (j * 64, mxK 0 * mxE 0)) = none ∧ State.rowsOut (cOf s) (rowsB 0x1000) = none ∧
    State.rowsOut (cOf s) (rowsB (2 ^ 20 * awPartner 0x100000 + 0x1000)) = none ∧
    awPartner 0 = 0 ∧ awCore 0x100000 ≠ awPartner 0x100000 ∧ awPartner 0x100000 < (cOf s).k ∧
    tileOk (cOf s) 0 16 16 0 0 = true ∧ tileOk (cOf s) 0 16 16 0x100000 0 = true ∧ tileOk (cOf s) 0 16 16 0x100000 1 = true ∧
    s.latchUsed ((cOf s).coreNum 0) < 128 ∧ (s.x 15).toNat = 2 ^ 64 - 1 :=
  ⟨on_of (by decide), by decide⟩

/-- A row of A within a page, in memory that can be read, one byte off, and the address of no row. -/
theorem witness_MatrixSigning_gather :
    let ke := mxK 0 * mxE 0
    (su id).Reads (w64 0x3000) ke ∧ 0x3000 % ke = 0 ∧ 0x3001 % ke ≠ 0 ∧ (0x3000 : Nat) ≠ 2 ^ 64 - 1 ∧
    ∃ s1 ps, (su id).Finds .load (w64 0x3000) ke false s1 ps ∧ s1.Clean ps ∧ ps.all (fun y => y.pbmt ≠ 2) = true :=
  ⟨reads_of (by decide), by decide, by decide, by decide, of_finds (q := fun _ ps => ps.all fun y => y.pbmt ≠ 2) (by decide)⟩

/-- A drain of the last row and the last 16 columns of bank 7, and control forms on the last crew W-core. -/
theorem witness_MatrixSigning_drain :
    let w : Nat := 7 + 31 * 2 ^ 5 + 112 * 2 ^ 10
    let s := su (words [(11, w64 w), (12, 1)]) duo
    s.OnCrew (tOf s) (cOf s) ∧ (s.x 11).toNat = w ∧
    ((cOf s).cvGet 3).signable (tOf s).sid 3 [3, 0, 0, 3, 0, 0, w, 0, 0, 0] = .ok ∧
    awOk (cOf s) w = true ∧ awPartner w = 0 ∧ awRow w + 0 + 1 ≤ 32 ∧ awCol w % 16 = 0 ∧ awCol w + 16 * 2 ^ dimNum .d16 ≤ 128 ∧
    awBank w < (cOf s).banks ∧ (cOf s).allocd (awCore w) (awBank w) = true ∧
    (s.x 12).toNat < (cOf s).k ∧ ((cOf s).cvGet 3).signable (tOf s).sid 4 [4, 3, 1, 0, 0, s.ibits.toNat] = .ok :=
  ⟨on_of (by decide), by decide⟩

/-- An allocation that ends with the crew's last bank, and the last bank read. -/
theorem witness_EngineForms :
    let s := su (words [(11, 7), (12, 1), (13, 7 + 31 * 2 ^ 5 + 126 * 2 ^ 10)])
    s.OnCrew (tOf s) (cOf s) ∧ (tOf s).sMode = false ∧ State.amOk (cOf s) (s.x 11).toNat (s.x 12).toNat = true ∧
    s.queueRoom ((cOf s).coreNum 0) = true ∧ (∀ i ∈ upto 7 1, (cOf s).allocd 0 i = true) ∧
    awOk (cOf s) (s.x 13).toNat = true ∧ awPartner (s.x 13).toNat = 0 ∧ awCol (s.x 13).toNat % 2 = 0 ∧
    awBank (s.x 13).toNat < (cOf s).banks ∧ (cOf s).allocd (awCore (s.x 13).toNat) (awBank (s.x 13).toNat) = true :=
  ⟨on_of (by decide), by decide⟩

/-- An image of one micro-word, the end; and the control word of a run of 32 rows of 128 columns. -/
theorem witness_EngineForms_epilogue :
    let s := put 0x3000 (1 + 0xFC000000 * 2 ^ 32) 8 (su (words [(11, 0x3000), (12, 3), (13, 3 + 31 * 2 ^ 16 + 3 * 2 ^ 24)]))
    s.OnCrew (tOf s) (cOf s) ∧ 3 = bits 3 1 0 + bits 3 9 8 * 256 ∧ bits 3 9 8 < (cOf s).k ∧ (s.x 11).toNat % 64 = 0 ∧
    gives (s.load (s.x 11) 4) (fun s1 hdr => bits hdr 6 0 = 1 && bits hdr 31 7 = 0 &&
      gives (s1.load (s.x 11 + 4) (4 * 1)) fun _ img => (epParse (State.splitCodes 4 img 1)).isSome) = true ∧
    (let w := (s.x 13).toNat; w = bits w 1 0 + bits w 9 8 * 2 ^ 8 + bits w 20 16 * 2 ^ 16 + bits w 25 24 * 2 ^ 24) :=
  ⟨on_of (by decide), by decide⟩

/-- Region 0 of this package: 4 KiB at 0x30000 that grant every access, from the table at 0x4000. -/
def granted (s : State) : State :=
  regs [(linkBase + 0x28, 0x4001)] (put 0x4000 (0x30000 + 0x1000 * 2 ^ 64 + 0xF * 2 ^ 160) 32 s)

/-- What `LinkForms` calls quiet, of the remote word `w` and the place `pa`. -/
def quiet (s : State) (w : Word) (pa n : Nat) : Prop :=
  s.NothingHeld ∧ s.rbuf = [] ∧ s.replicas = [] ∧ s.Inv ∧
    (∀ l ∈ linesOf (s.regionAddr w) 32 ++ linesOf pa n, s.memAt (64 * l) ≠ .waits) ∧
    s.imagesAt (s.regionAddr w) 32 = [] ∧ s.imagesAt pa n = []

theorem quiet_of {s : State} {w : Word} {pa n : Nat} (h : (s.copies = [] ∧ s.holds = []) ∧ s.rbuf = [] ∧ s.replicas = [])
    (hs : sound s = true) (hm : (∀ l ∈ linesOf (s.regionAddr w) 32 ++ linesOf pa n, s.memAt (64 * l) ≠ .waits) ∧
      s.imagesAt (s.regionAddr w) 32 = [] ∧ s.imagesAt pa n = []) : quiet s w pa n :=
  ⟨⟨by simp [h.1.1], by simp [h.1.2]⟩, h.2.1, h.2.2, inv_of hs, hm⟩

/-- The last line, and the last doubleword, of the region; an offset one beyond; a poisoned line of it, and one that a copy owns. -/
theorem witness_LinkForms :
    let s := granted (su (words [(10, 0x3000), (11, 0xFC0), (12, 0xFF8), (13, 0x1000)]))
    let p : State := { s with poison := [0xC3F] }
    let o : State := { s with copies := [{ id := 1, image := 7, core := 0, batch := 0, dstStage := false, srcStage := false, own := [0xC3F] }] }
    s.OnStrand (tOf s) ∧ quiet s (s.x 11) 0x30FC0 64 ∧ quiet s (s.x 12) 0x30FF8 8 ∧ s.imagesAt 0x3000 64 = [] ∧ (s.x 10).toNat % 64 = 0 ∧ wbits (s.x 11) 47 0 % 64 = 0 ∧ wbits (s.x 12) 47 0 % 8 = 0 ∧
    s.Reads (s.x 10) 64 ∧ s.Writes (s.x 10) 64 ∧ s.remoteAt (s.x 11) 64 0 2 = .at 0x30FC0 ∧
    s.remoteAt (s.x 11) 64 0 1 = .at 0x30FC0 ∧ s.remoteAt (s.x 12) 8 0 3 = .at 0x30FF8 ∧ s.poisonAt 0x30FC0 64 = false ∧
    s.raceWords 0x30FC0 64 = [] ∧ s.raceWords 0x3000 64 = [] ∧
    (∃ s1 ps, s.Finds .load (s.x 10) 64 false s1 ps ∧ s1.Clean ps ∧
      gives (s1.openParts s.cur (s.x 10) ps false) (fun s2 _ =>
        (s2.clPlace (s2.x 11) 64 2).2 = some (.at 0x30FC0) && (s2.clPlace (s2.x 13) 64 2).2 = some (.bad 3)) = true) ∧
    (∃ s1 ps, s.Finds .store (s.x 10) 64 true s1 ps ∧ s1.Clean ps ∧
      ((s1.clPlace (s1.x 11) 64 1).2 = some (.at 0x30FC0) && (s1.clPlace (s1.x 13) 64 1).2 = some (.bad 3) &&
        !(s1.clPlace (s1.x 11) 64 1).1.poisonAt 0x30FC0 64) = true) ∧
    (∃ s1 ps, p.Finds .store (p.x 10) 64 true s1 ps ∧ s1.Clean ps ∧
      ((s1.clPlace (s1.x 11) 64 1).2 = some (.at 0x30FC0) && (s1.clPlace (s1.x 11) 64 1).1.poisonAt 0x30FC0 64) = true) ∧
    (s.clPlace (s.x 12) 8 3).2 = some (.at 0x30FF8) ∧ (s.clPlace (s.x 13) 8 3).2 = some (.bad 3) ∧
    o.OnStrand (tOf o) ∧ (o.clPlace (o.x 12) 8 3).2 = none :=
  ⟨onS_of (by decide), quiet_of (by decide) (by decide) (by decide +kernel), quiet_of (by decide) (by decide) (by decide +kernel),
    by decide, by decide, by decide, by decide, reads_of (by decide), writes_of (by decide),
    by decide +kernel, by decide +kernel, by decide +kernel, by decide, by decide, by decide,
    of_finds (q := fun s1 ps => gives (s1.openParts _ _ ps false) fun s2 _ =>
      (s2.clPlace (s2.x 11) 64 2).2 = some (.at 0x30FC0) && (s2.clPlace (s2.x 13) 64 2).2 = some (.bad 3)) (by decide +kernel),
    of_finds (q := fun s1 _ => (s1.clPlace (s1.x 11) 64 1).2 = some (.at 0x30FC0) && (s1.clPlace (s1.x 13) 64 1).2 = some (.bad 3) &&
        !(s1.clPlace (s1.x 11) 64 1).1.poisonAt 0x30FC0 64) (by decide +kernel),
    of_finds (q := fun s1 _ => (s1.clPlace (s1.x 11) 64 1).2 = some (.at 0x30FC0) &&
        (s1.clPlace (s1.x 11) 64 1).1.poisonAt 0x30FC0 64) (by decide +kernel),
    by decide +kernel, by decide +kernel, onS_of (by decide), by decide +kernel⟩

/-- A word of 5 that has reached 5 and not 6, and query codes 0 to 4. -/
theorem witness_LinkForms_wait :
    let s := put 0x3000 5 8 (su (words [(10, 0x3000), (11, 5), (12, 6), (13, 1), (14, 2), (15, 3), (16, 4)]))
    s.OnStrand (tOf s) ∧ (s.x 10).toNat % 8 = 0 ∧ s.Reads (s.x 10) 8 ∧
    gives (s.load (s.x 10) 8) (fun s' v => s'.x 11 = s.x 11 && (s.x 11).toNat ≤ v && v < (s.x 12).toNat) = true ∧
    (s.x 0).toNat = 0 ∧ (s.x 13).toNat = 1 ∧ (s.x 14).toNat = 2 ∧ (s.x 15).toNat = 3 ∧ 3 < (s.x 16).toNat :=
  ⟨onS_of (by decide), by decide, reads_of (by decide), by decide⟩

/-- What `Posts` asks of the descriptor at X[`a`], as a value. -/
def posts (s : State) (t : Strand) (a : Reg) (ring : Bool) : Bool :=
  let va := s.x a
  let on (b : Bool) (l : List (Nat × Nat)) : List (Nat × Nat) := if b then l else []
  decide (va.toNat % 64 = 0) &&
  gives (s.load va 64) fun s1 v =>
    let d : Desc := { id := 0, words := (upto 0 8).map fun i => bits v (64 * i + 63) (64 * i) }
    let ext := pageFirsts [(d.w 1, d.bytes)]
    let word (i : Nat) : List (Nat × Nat) := if d.w i = 0 then [] else [(d.w i / 4096, d.w i)]
    decide (d.ok ring = true ∧ (ring = true → s1.descs.any (fun x => x.ring && x.rid = d.rid) = false) ∧ (s1.descsOf t).length < 32 ∧ s1.descs.length < 256 ∧
      s1.ready 44 = true) &&
    gives (s1.copyPages .load (on (d.op ≠ 2) ext)) fun u1 _ =>
    gives (u1.copyPages .store (on (d.op = 2 || d.op = 4) ext)) fun u2 _ =>
    gives (u2.copyPages .load (word 3)) fun u3 _ =>
    gives (u3.copyPages .store (word 5)) fun u4 _ => succeeds (u4.store (va + 0x38) 4 1)

theorem of_posts {s : State} {t : Strand} {a : Reg} {ring : Bool} (h : posts s t a ring = true) :
    ∃ d loc s3, s.Posts t a ring d loc s3 := by
  obtain ⟨h0, h⟩ := (Bool.and_eq_true _ _).mp h
  have h0 := of_decide_eq_true h0
  obtain ⟨s1, v, h1, h⟩ := of_gives h
  obtain ⟨ha, h⟩ := (Bool.and_eq_true _ _).mp h
  obtain ⟨a1, a2, a3, a4, a5⟩ := of_decide_eq_true ha
  obtain ⟨u1, f1, h2, h⟩ := of_gives h
  obtain ⟨u2, f2, h3, h⟩ := of_gives h
  obtain ⟨u3, f3, h4, h⟩ := of_gives h
  obtain ⟨u4, f4, h5, h⟩ := of_gives h
  obtain ⟨s3, _, h6⟩ := of_succeeds h
  exact ⟨_, _, s3, h0, s1, u1, u2, u3, u4, v, f1, f2, f3, f4, h1, rfl, a1, a2, a3, a4, a5, h2, h3, h4, h5, rfl, h6⟩

/-- A put of 64 bytes, one with a gate and a signal, and a ring of two members of one FP32 element. -/
theorem witness_Posting :
    let s (v : Nat) := regs [(bootBase, 2 ^ 44 + 64)] (put 0x3000 v 64 (su (words [(10, 0x3000)])))
    let a := s (1 + 64 * 2 ^ 32 + 0x5000 * 2 ^ 64)
    let g := s (1 + 64 * 2 ^ 32 + 0x5000 * 2 ^ 64 + 0x6000 * 2 ^ 192)
    let b := s (4 + 2 ^ 32 + 0x5000 * 2 ^ 64 + 2 * 2 ^ 168)
    a.OnStrand (tOf a) ∧ (∃ d loc s3, a.Posts (tOf a) 10 false d loc s3) ∧
    g.OnStrand (tOf g) ∧ (∃ d loc s3, g.Posts (tOf g) 10 false d loc s3) ∧
    b.OnStrand (tOf b) ∧ ∃ d loc s3, b.Posts (tOf b) 10 true d loc s3 :=
  ⟨onS_of (by decide), of_posts (by decide +kernel), onS_of (by decide), of_posts (by decide +kernel), onS_of (by decide),
    of_posts (by decide +kernel)⟩

/-- Query codes 0 to 4 and 5; hints of 0, 1, 1000 and 1001 W; a crew with a withdrawal and one without. -/
theorem witness_PowerForms :
    let s (n : Word) := su (words [(10, n)])
    let w := su id fun c => { c with wd := 4 }
    (s 0).OnCrew (tOf (s 0)) (cOf (s 0)) ∧ ((s 0).x 10).toNat = 0 ∧ ((s 1).x 10).toNat = 1 ∧ ((s 2).x 10).toNat = 2 ∧
    ((s 3).x 10).toNat = 3 ∧ ((s 4).x 10).toNat = 4 ∧ 4 < ((s 5).x 10).toNat ∧ 1000 < ((s 1001).x 10).toNat ∧
    (1 ≤ ((s 1000).x 10).toNat ∧ ((s 1000).x 10).toNat ≤ 1000) ∧
    (tOf (s 0)).sMode = false ∧ (tOf (s 0)).leader = true ∧ (cOf (s 0)).wd = 0 ∧
    w.OnCrew (tOf w) (cOf w) ∧ (tOf w).sMode = false ∧ (tOf w).leader = true ∧ (cOf w).wd ≠ 0 ∧ (tOf (su inS)).sMode = true :=
  ⟨on_of (by decide), by decide, by decide, by decide, by decide, by decide, by decide, by decide, by decide, by decide,
    by decide, by decide, on_of (by decide), by decide⟩

/-- A handler at depth 1 of a thread, and of a child crew; a strand under a debugger; the record ring on and off; operands
of an invalidation at and beyond their limit. -/
theorem witness_SystemForms :
    let s (v : Word) := su fun t => inS (words [(10, 0), (11, v)] t)
    let child : State := { su inS (fun c => { c with fleet := 9 }) with fleets := [{ handle := 9, crews := 1 }] }
    let dbg := su fun t => inS (t.setCbits cFwd 16 16 1)
    let rec' : State := { su inS with cores := { frecbase := 1 } :: State.reset.cores.drop 1 }
    (s 0).OnCrew (tOf (s 0)) (cOf (s 0)) ∧ (tOf (s 0)).sMode = true ∧ (s 0).fdepth (cOf (s 0)) = 0 ∧ (tOf (s 0)).att = false ∧
    wbits ((s 0).coreAt (tOf (s 0)).core).frecbase 3 0 = 0 ∧
    invalOk ((s 0x1FFFFF).x 10) ((s 0x1FFFFF).x 11) = false ∧ invalOk ((s 0x1EFFFF).x 10) ((s 0x1EFFFF).x 11) = true ∧
    invalOk ((s 0x200000).x 10) ((s 0x200000).x 11) = false ∧
    child.OnCrew (tOf child) (cOf child) ∧ (tOf child).sMode = true ∧ child.fdepth (cOf child) ≠ 0 ∧
    State.anyChild (tOf child) = false ∧
    dbg.OnCrew (tOf dbg) (cOf dbg) ∧ (tOf dbg).sMode = true ∧ (tOf dbg).att = true ∧
    rec'.OnCrew (tOf rec') (cOf rec') ∧ (tOf rec').sMode = true ∧ wbits (rec'.coreAt (tOf rec').core).frecbase 3 0 ≠ 0 :=
  ⟨on_of (by decide), by decide, by decide, by decide, by decide, by decide, by decide, by decide,
    on_of (by decide), by decide, by decide, by decide, on_of (by decide), by decide, by decide, on_of (by decide), by decide⟩

theorem witness_EnvironmentForms :
    let d := su fun t => t.setCbits cFwd 17 16 3
    (su id).OnStrand (tOf (su id)) ∧ (tOf (su id)).att = false ∧ d.OnStrand (tOf d) ∧ (tOf d).att = true ∧ (tOf d).ebs = true ∧
    (lc .m).OnL 0 ∧ ((lc .m).lcoreAt 0).mode = .m :=
  ⟨onS_of (by decide), by decide, onS_of (by decide), by decide, by decide, onL_of, by decide⟩

/-- What holds of the crew of the strand in issue holds of every crew that it is. -/
theorem crew_of {s : State} {p : Crew → Prop} (h : (s.curStrand.bind fun t => s.crewOf t).isSome = true) (hp : p (cOf s)) :
    ∀ c, s.crewOf (tOf s) = some c → p c := fun c hc => by
  have h := (on_of h).2
  rw [hc] at h
  obtain rfl := Option.some.inj h
  exact hp

/-- A strand with a handler at 0x5000, at a depth, whose range of own addresses is 0x1000 to 0x2000. -/
def handled (d : Nat) : State := su fun t => { (words [(100, 0x5000), (102, 0x1000), (103, 0x2000)] t).setDepth d with present := 0xFFFF }

/-- Depth 0, 1 and 2; an address below the handler's range and the first above it. -/
theorem witness_TrapEntry :
    (∀ d ∈ [0, 1, 2],
      sound (handled d) = true ∧ (tOf (handled d)).depth = d ∧ (tOf (handled d)).depth < 3 ∧ 2 < 64 ∧ (2 : Nat) ≠ 8 ∧
      (tOf (handled d)).cw cWtvec &&& ~~~3 ≠ 0 ∧ wbits ((handled d).coreAt (tOf (handled d)).core).frecbase 3 0 = 0 ∧
      2 ∉ [1, 5, 7, 12, 13, 15] ∧ (0xFFF : Word).toNat < ((tOf (handled d)).cw cWtslo).toNat ∧
      ((tOf (handled d)).cw cWtshi).toNat ≤ (0x2000 : Word).toNat) ∧
    (handled 1).OnStrand (tOf (handled 1)) := ⟨by decide, onS_of (by decide)⟩

/-- Depth 3 with any cause; depth 1 with the first and the last address of the handler's range. -/
theorem witness_TrapEntry_double :
    (∀ d ∈ [1, 3],
      (tOf (handled d)).present.getLsbD 14 = true ∧ (handled d).rbuf = [] ∧ (tOf (handled d)).depth = d ∧
      (∀ x, (handled d).crewOf (tOf (handled d)) = some x → ∀ n ∈ x.cvNums, (tOf (handled d)).sid ∉ (x.cvGet n).members)) ∧
    (handled 1).OnStrand (tOf (handled 1)) ∧ (handled 3).OnStrand (tOf (handled 3)) ∧ 13 ∈ [1, 5, 7, 12, 13, 15] ∧
    (((tOf (handled 1)).cw cWtslo).toNat ≤ (0x1000 : Word).toNat ∧ (0x1000 : Word).toNat < ((tOf (handled 1)).cw cWtshi).toNat) ∧
    (((tOf (handled 1)).cw cWtslo).toNat ≤ (0x1FFF : Word).toNat ∧ (0x1FFF : Word).toNat < ((tOf (handled 1)).cw cWtshi).toNat) :=
  ⟨by
    intro d hd
    simp only [List.mem_cons, List.mem_nil_iff, or_false] at hd
    rcases hd with rfl | rfl
    · exact ⟨by decide, by decide, by decide, crew_of (s := handled 1) (by decide) (by decide)⟩
    · exact ⟨by decide, by decide, by decide, crew_of (s := handled 3) (by decide) (by decide)⟩,
    onS_of (by decide), onS_of (by decide), by decide⟩

theorem witness_ReturnFromTrap :
    (handled 1).Inv ∧ (handled 1).OnStrand (tOf (handled 1)) ∧ (tOf (handled 1)).depth = 1 ∧
    (∀ c, (handled 1).crewOf (tOf (handled 1)) = some c → (tOf (handled 1)).sid ∉ c.sreg.members) ∧
    (handled 3).Inv ∧ (handled 3).OnStrand (tOf (handled 3)) ∧ 2 ≤ (tOf (handled 3)).depth :=
  ⟨inv_of (by decide), onS_of (by decide), by decide,
    crew_of (s := handled 1) (by decide) (by decide), inv_of (by decide), onS_of (by decide), by decide⟩

theorem witness_MachineTraps :
    (lc .m).Inv ∧ (lc .m).cur = .lcore 0 ∧ ((lc .m).lcoreAt 0).mode = .m ∧
    (lc .u).Inv ∧ ((lc .u).lcoreAt 0).mode ≠ .m ∧ (((lc .u).lcoreAt 0).get 0x302).getLsbD 8 = false :=
  ⟨inv_of (by decide), by decide, by decide, inv_of (by decide), by decide, by decide⟩

theorem witness_CoreClass : (lc .m).OnL 0 ∧ (Instr.mgHome).encoded = true ∧ (Instr.mgHome).onL = false :=
  ⟨onL_of, by decide⟩

theorem witness_CsrForms :
    (su id).OnCrew (tOf (su id)) (cOf (su id)) ∧ (tOf (su id)).sMode = false ∧
    (su inS).OnCrew (tOf (su inS)) (cOf (su inS)) ∧ (tOf (su inS)).sMode = true :=
  ⟨on_of (by decide), by decide, on_of (by decide), by decide⟩

/-- An L-core in M-mode, U-mode and VU-mode; the first and the last CSR of W-cores; unsupported modes of `satp`. -/
theorem witness_CsrForms_lcore :
    let s := lc .m fun l => { l with ctx := sset l.ctx 10 0xB000000000000000 }
    (lc .m).OnL 0 ∧ ((lc .m).lcoreAt 0).mode = .m ∧ (lc .u).OnL 0 ∧ ((lc .u).lcoreAt 0).mode = .u ∧ (lc .vu).OnL 0 ∧
    ((lc .vu).lcoreAt 0).mode = .vu ∧ State.csrWOnly 0xCC0 = true ∧ State.csrWOnly 0x7D1 = true ∧ sound (lc .m) = true ∧
    s.OnL 0 ∧ wbits (s.x 10) 63 60 = 11 :=
  ⟨onL_of, by decide, onL_of, by decide, onL_of, by decide, by decide, by decide, by decide, ⟨rfl, rfl⟩, by decide⟩

/-- Waits that have just ended; a condition that holds and one that does not. -/
theorem witness_StrandSteps :
    let w (x : Wait) : State := homed (su fun t => { t with wait := x })
    let k : Nat := 0x40000
    (∀ x, (w x).strand? k = some (tOf (w x))) ∧
    (tOf (w (.pause 0))).wait = .pause 0 ∧ 0 ≤ (w (.pause 0)).cc (tOf (w (.pause 0))).core ∧
    (tOf (w (.wrs 0))).wait = .wrs 0 ∧ 0 ≤ (w (.wrs 0)).cc (tOf (w (.wrs 0))).core ∧ (tOf (w (.wrs 9))).resv = none ∧
    gives ({ w (.park (.tm 0) 5 9) with cur := .strand k }.testCond (tOf (w (.park (.tm 0) 5 9))) (.tm 0)) (fun _ v => v.isSome)
      = true ∧
    (let s := w (.park (.tm 5) 5 0)
     (tOf s).wait = .park (.tm 5) 5 0 ∧ 0 ≤ s.cc (tOf s).core ∧ (tOf s).sMode = false ∧ (tOf s).pendStop = 0 ∧
     s.parkTest k = s ∧ s.watchFull (.tm 5) = (false, s) ∧ (s.alloc (s.crewDie (tOf s)) 192 64).isSome = true ∧
     s.imagePoison k [8] = false ∧ s.imageBusy k [8] = false ∧ (s.owed k fun _ => true) = false ∧
     (match (s.fetchLines k [8]).strand? k with
       | some v =>
         let ls := State.liveLines (v.cbits cThctl 47 16)
         !(s.fetchLines k [8]).imagePoison k ls && !(s.fetchLines k [8]).imageBusy k ls
       | none => false) = true) ∧
    tOf (w .none) ∈ (w .none).strands ∧ (w .none).rbuf = [] ∧ (w .none).hwBusy (64 * 0xC0) 64 = false :=
  ⟨fun _ => rfl, by decide, by decide, by decide, by decide, by decide, by decide, ⟨by decide, by decide, by decide, by decide,
    rfl, rfl, by decide, by decide, by decide, by decide, by decide⟩, by decide⟩

/-- A wait on memory whose watch finds no room, where the free value of `watchFull` says so (R89, log 88). -/
theorem witness_StrandSteps_full :
    let s : State := homed (su fun t => { t with wait := .park (.mem 0x3000 0x3000 0) 5 0 })
    (tOf s).wait = .park (.mem 0x3000 0x3000 0) 5 0 ∧ 0 ≤ s.cc (tOf s).core ∧ (tOf s).sMode = false ∧ (tOf s).pendStop = 0 ∧
    (match (s.parkTest 0x40000).strand? 0x40000 with
      | some t => decide (t.wait = .park (.mem 0x3000 0x3000 0) 5 0 ∧ t.sMode = false ∧ t.pendStop = 0) | none => false) = true ∧
    ∃ b p, (s.parkTest 0x40000).watchFull (.mem 0x3000 0x3000 0) = (b, p) :=
  ⟨by decide, by decide, by decide, by decide, by decide +kernel, _, _, rfl⟩

/-- A strand that has been ready for 1,024 cc, its instruction in its buffer. -/
def aged : State :=
  let o : State := { su (fun t => { t with since := some 0 }) with pods := { ticks := 1024000 } :: State.reset.pods.drop 1 }
  match o.fetchInstr (.strand 0x40000) with | .ok s _ => s | .trap _ _ _ => o | .stall _ => o

/-- One strand of the quadrant wants a parcel of its instruction, and its page is walked. -/
theorem witness_StrandSteps_issue :
    let s := su id
    ((sortBy s.older (s.strands.filter fun x => x.core = 0 && x.quad = 0 && s.wantsParcel x)).map (·.image) = [0x40000] ∧
     succeeds (s.fetchInstr (.strand 0x40000)) = true) ∧
    (s.walksFor (tOf s) (w64 fetchPc) .fetch = true ∧ succeeds (s.translate (.strand 0x40000) .fetch (w64 fetchPc)) = true) := by decide +kernel

/-- It is ready, and of the age that fairness asks. -/
theorem witness_StrandSteps_age :
    (let r := aged.readyOf (aged.strands.filter fun t => t.core = 0 && t.quad = 0 && t.status = .resident)
     (sortBy r.2.older r.1).map (fun t => (t.image, decide (1024 ≤ r.2.ageOf t))) = [(0x40000, true)] ∧
     0 < r.2.cores.length ∧ r.2.coreOn 0 = true ∧ (r.2.coreAt 0).powered = true) := by decide +kernel

/-- The strand whether or not it holds a slot. -/
def tAt (s : State) : Strand := (s.strand? 0x40000).getD { image := 0 }

/-- A strand that waits for a slot, to be stopped, to be recalled; one that has parked until a moment that has come; the first and
the last context line. -/
theorem witness_StrandSteps_status :
    let k : Nat := 0x40000
    let s := su fun t => { t with status := .waiting, pendKill := true, pendRecall := true }
    let p := su fun t => { t with status := .parked, cond := .tm 0 }
    s.strand? k = some (tAt s) ∧ (tAt s).status = .waiting ∧
    (match s.crewOf (tAt s) with | some c => s.mayResume c && decide (s.resumeCore c (tAt s).cwc = some 0) | none => false) = true ∧
    (tAt s).pendKill = true ∧ State.mustFinish (tAt s).wait = false ∧ s.recallDue (tAt s) = true ∧
    (p.strand? k = some (tAt p) ∧ (tAt p).status = .parked ∧ (tAt p).cond ≠ .home ∧
     (match p.crewOf (tAt p), p.parkedCond (tAt p) with
      | some c, some (s1, _) => p.mayResume c && decide (s1.resumeCore c (tAt p).cwc = some 0) | _, _ => false) = true) ∧
    (let u := su fun t => { t with present := 1 }
     u.strand? k = some (tOf u) ∧ (tOf u).status = .resident ∧ (tOf u).stopped = false ∧ (tOf u).present.getLsbD 0 = true ∧
     0 < 16 ∧ u.imagePoison k [0] = false ∧ u.imageBusy k [0] = false ∧
     15 < 16 ∧ u.imagePoison k [15] = false ∧ u.imageBusy k [15] = false) ∧
    ({ su id with poison := [] }.poison.contains 0xC0) = false := by decide

/-- A crew record and a save area find room in the strand store where each fits, taken lowest first. -/
theorem seatStore_of {s : State} {c : Crew} {d : Nat} (hf : c.fleet ≠ 0)
    (h : ((s.allocLow d 8192 8192).bind fun r => r.2.allocLow d (State.saveBytes c) 4096).isSome = true) :
    (s.seatStore c d).isSome = true := by
  obtain ⟨x, hx⟩ := Option.isSome_iff_exists.mp h
  obtain ⟨r, hr, hr2⟩ := Option.bind_eq_some_iff.mp hx
  simp only [State.seatStore, if_neg hf, hr, hr2, Option.bind_some, Option.map_some]
  split <;> simp_all

/-- A fleet is placed where the first pod of its pool's order has the W-cores and its die the store, wherever in it a free value
puts the crew. -/
theorem place_of {s : State} {h : Word} {f : Fleet} (hf : s.fleet? h = some f)
    (hp : (match s.fresh with
      | (id, s1) =>
        let c := State.protoCrew f id f.nextC
        match s1.poolOrder c with
        | q :: _ => (s1.podFits c q).isSome && decide (c.recd = 0) && decide (c.fleet ≠ 0) &&
            (((s1.fresh.2).allocLow (q / 12) 8192 8192).bind fun r => r.2.allocLow (q / 12) (State.saveBytes c) 4096).isSome
        | [] => false) = true) : (s.place (.fleet h)).isSome = true := by
  unfold State.place
  simp only [hf]
  generalize s.fresh = r at hp ⊢
  obtain ⟨id, s1⟩ := r
  dsimp only at hp ⊢
  cases ho : s1.poolOrder (State.protoCrew f id f.nextC) with
  | nil => rw [ho] at hp; cases hp
  | cons q qs =>
    rw [ho] at hp
    simp only [Bool.and_eq_true, decide_eq_true_eq] at hp
    obtain ⟨⟨⟨h1, h2⟩, h3⟩, h4⟩ := hp
    obtain ⟨l, hl⟩ := Option.isSome_iff_exists.mp h1
    have hs : (s1.seatFirst (State.protoCrew f id f.nextC) (q :: qs)).isSome = true := by
      have hq : (s1.seat (State.protoCrew f id f.nextC) q l).isSome = true := by
        simp only [State.seat]
        rw [if_neg (by simp [h2]), Option.isSome_map]
        exact seatStore_of h3 h4
      obtain ⟨y, hy⟩ := Option.isSome_iff_exists.mp hq
      simp [State.seatFirst, hl, hy]
    obtain ⟨⟨s2, c2, l2⟩, hy⟩ := Option.isSome_iff_exists.mp hs
    rw [hy]
    rfl

/-- A fleet with a crew to place, a crew that was pre-empted, and nothing; rings with room and full ones; frames and strands that a
write names. -/
theorem witness_DispatcherSteps :
    let n : Notice := { die := 0, kind := 2, tag := 7, image := 0x200000 }
    let fw : FwdEntry := { die := 0, image := 0x200000, root := 0x200000, kind := 1, cause := 2 }
    let f : Frame := { image := 0x200000 }
    let l : State := homed { su id with fleets := [{ handle := 9, crews := 1 }] }
    let e : State := homed (su id fun c => { c with cores := [], pre := 2, recd := 0x600000 })
    let a : State := { su id with notices := [n], frames := [f] }
    let b : State := { su id with fwdq := [fw], frames := [f] }
    let data := toBytes n.kind 8 ++ toBytes n.tag.toNat 8 ++ toBytes n.image 8 ++ toBytes a.time.toNat 8
    let ent := toBytes fw.image 8 ++ toBytes fw.kind 1 ++ toBytes fw.cause 1 ++ toBytes 0 6
    let b1 := (b.mergeStrand fw.image).drain fw.image
    let ringA := regs [(dieReg dispBase 0 0x20, 0x200000), (dieReg dispBase 0 0x28, 4), (bootBase, 64)]
    let ringB := regs [(dieReg trapBase 0 0, 0x200000), (dieReg trapBase 0 8, 4), (bootBase, 64)]
    (su id).candidates = [] ∧ sound l = true ∧
    (l.candidates = [.fleet 9] ∧ (l.place (.fleet 9)).isSome = true) ∧
    (e.candidates = [.crew 0] ∧ (match e.crew? 0 with
      | some c => decide (c.pre = 2 ∧ c.recd ≠ 0) && match e.poolOrder c with | q :: _ => (e.podFits c q).isSome | [] => false
      | none => false) = true) ∧
    (a.notices.find? (fun n => n.die = 0) = some n ∧ a.frame? n.image = some f ∧ f.killed = false ∧
     (ringA a).RingRoom (dieReg dispBase 0 0x20) 32 0x200000 ∧ (regs [(dieReg dispBase 0 0x30, 1)] a).ringPost (dieReg dispBase 0 0x20) 32 data = none) ∧
    (b.fwdq.find? (fun n => n.die = 0) = some fw ∧ b.frame? fw.root = some f ∧ fw.kind ≤ 3 ∧
     (ringB b1).RingRoom (dieReg trapBase 0 0) 16 0x200000 ∧ (regs [(dieReg trapBase 0 0x10, 1)] b1).ringPost (dieReg trapBase 0 0) 16 ent = none) := by
  refine ⟨by decide, by decide, ⟨by decide, place_of (f := { handle := 9, crews := 1 }) (by decide) (by decide +kernel)⟩, by decide, ?_, ?_⟩
  · exact ⟨by decide, by decide, by decide, ⟨by decide, by decide, by decide, by decide⟩, by decide⟩
  · exact ⟨by decide, by decide, by decide, ⟨by decide, by decide, by decide, by decide⟩, by decide⟩

/-- Frames and strands that a register write names, resident, parked and forwarded. -/
theorem witness_DispatcherSteps_writes :
    let f : Frame := { image := 0x200000 }
    let c (m : Nat) : State := { su id with frames := [{ f with posted := m }] }
    let z : State := { c 0 with strands := [] }
    let r : State := { su id with frames := [{ image := 0x40000 }] }
    let p : State := { su (fun t => { t with status := .parked }) with frames := [{ image := 0x40000 }] }
    let w := su fun t => { t with status := .forwarded, fwd := 1 }
    (r.frame? (0x40000 : Word).toNat = some { image := 0x40000 } ∧ r.strand? (0x40000 : Word).toNat = some (tAt r) ∧
     (tAt r).status = .resident ∧ r.fleets = []) ∧
    (p.frame? (0x40000 : Word).toNat = some { image := 0x40000 } ∧ p.strand? (0x40000 : Word).toNat = some (tAt p) ∧
     (p.crewOf (tAt p)).isSome = true ∧ p.away (tAt p) = false ∧ (tAt p).status = .parked ∧ (tAt p).depth = 0) ∧
    (z.frame? (0x200000 : Word).toNat = some f ∧ f.die = 0 ∧ f.posted ≠ 1 ∧ f.killed = false ∧ f.noted = false ∧
     z.fleets = [] ∧ z.strands = []) ∧
    (∀ m ∈ [1, 4], (c m).frame? (0x200000 : Word).toNat = some { f with posted := m } ∧ (m = 1 ∨ m = 4)) ∧
    (w.strand? (0x40000 : Word).toNat = some (tAt w) ∧ (tAt w).fwd ≠ 0 ∧ (tAt w).status = .forwarded ∧
     w.crewDie (tAt w) = 0) := by decide

/-- One contribution in a line, before and at its age; a replica; a spilled descriptor; a queued copy and a chunk of one
that has begun; a pair with one side signed. -/
theorem witness_EngineSteps :
    let e : RedEntry := { core := 0, line := 5, op := .add, ty := .i32, point := 0, vals := [(0, 1)], filter := 1,
                          owner := 0, born := 0 }
    let s : State := { su id with rbuf := [e], replicas := [{ die := 1, pa := 0x3000, old := [0], writer := 0x40000 }] }
    let late : State := { s with pods := { ticks := 65536000 } :: State.reset.pods.drop 1 }
    let cp (n : Nat) : Copy :=
      { id := 9, image := 0x40000, stage := n, rowS := 64, rowD := 64, src := [{ addr := 0x3000, len := 64 }],
        dst := [{ addr := 0x4000, len := 64 }] }
    let q (n : Nat) : State := { su id with copies := [cp n] }
    (s.redLine 0 5 = [e] ∧ s.cc 0 < e.born + 65536) ∧ (late.redLine 0 5 = [e] ∧ e.born + 65536 ≤ late.cc 0) ∧
    (s.replicas.find? (fun r => r.die = 1 && r.pa = 0x3000)).isSome = true ∧
    ((q 1).spilledOf 0x40000 = [cp 1] ∧ (q 1).cpRoom (cp 1).core 0x40000 = true) ∧
    (((q 0).cpQueue 0).find? (fun c => c.stage = 0) = some (cp 0) ∧
     [0, 1].find? (fun e => (q 0).cpNext (State.podOf 0) e = some 0 &&
       ((q 0).copies.filter fun o => o.stage = 2 && State.podOf o.core = State.podOf 0 && o.eng = e).length < 16) = some 0) ∧
    (kfind (·.id) (q 2).copies 9 = some (cp 2) ∧ (q 2).chunkReady (cp 2) (0x4000 / 64) = true) ∧
    (let p (r : CvReg) : State :=
       { su id (cvCrew r) with pods := { ticks := 65536000 } :: State.reset.pods.drop 1 }
     let r : CvReg := { kind := 3, sig := [2], sideFrom := some 0 }
     (match (p r).crew? (cOf (p r)).id with
       | some c => decide (c.cvGet 3 = r ∧ r.fixed = false ∧ 0 + 65536 ≤ (p r).ccRun (c.coreNum 0)) | none => false) = true) := by
  decide

/-- Each kind of entry at the head of the queue of W-core 0. -/
theorem witness_EngineSteps_queue :
    let c := (cOf (su id)).id
    let s (op : EngOp) : State := { su id with engine := [{ id := 7, core := 0, crew := c, v := 0, op }] }
    (∀ op ∈ [EngOp.mma 0 16 16 true 0 0 0x1000 0x400040 none none, .calc 0 16 16 true 0 [] [] false, .run 0 1 1 0 0 0,
        .drain 0 1 1 0 0 0 0 false],
      (s op).queueOf 0 = [{ id := 7, core := 0, crew := c, v := 0, op }] ∧ ((s op).crew? c).isSome = true) ∧
    ((s (.mma 0 16 16 true 0 0 0x1000 0x400040 none none)).queueOf 0).dropWhile (·.started) =
      [{ id := 7, core := 0, crew := c, v := 0, op := .mma 0 16 16 true 0 0 0x1000 0x400040 none none, late := [] }] ∧
    (match (su id).crew? c with | some k => State.mxBad k 0 0 16 16 true 0 false | none => true) = false := by decide

/-- The first line of memory, the last stage row, the last accumulator element of the last bank, an image line. -/
theorem witness_EngineSteps_errors :
    let s := regs [(bootBase, 64)] (su fun t => { t with present := 0xFFFF })
    let c := (cOf s).id
    (let o : State := { s with owners := [(0, 0x1040000)] }
     o.memAt (0 * 64) = .ok ∧ (sget o.owners 0).toNat ≠ 0 ∧ bits (sget o.owners 0).toNat 24 24 = 1) ∧
    (match s.crew? c with
      | some k => decide (k.pre < 2) && k.stageIn (64 * 383) 1 && decide (2 ^ 17 - 1 < 2 ^ 17 * k.k) && decide ((2 ^ 17 - 1) / 2 ^ 17 < k.k)
      | none => false) = true ∧
    s.strand? 0x40000 = some (tOf s) ∧ (tOf s).status = .resident ∧ (tOf s).present.getLsbD 15 = true ∧ 15 < 16 ∧
    s.finishing (tOf s) = false ∧ (tOf s).stopped = false ∧ s.rbuf = [] ∧
    (match s.crewOf (tOf s) with
      | some x => x.cvNums.all fun i => !(x.cvGet i).members.contains (tOf s).sid | none => true) = true := by decide

/-- Limits of each clause: a clock that has just reached its time-out, a gate word that has just reached its value, one
below it, a poisoned one, a deadline that is now. -/
theorem witness_LinkSteps :
    let s := regs [(bootBase, 64)] (put 0x3000 5 8 (su id))
    let h := grp fun g => { g with clock := 5, closed := false }
    let d : Desc := { id := 9, words := [1 + 64 * 2 ^ 32, 0x5000, 0, 0x3000, 5], gatePa := 0x3000, stPa := 0x4000 }
    let r : Desc := { id := 9, words := [4 + 2 ^ 32, 0x5000, 2 * 2 ^ 40], begun := true, stPa := 0x4000, deadline := 0 }
    let q (d : Desc) : State := { s with descs := [d] }
    (match h.group? 9 with
      | some g => g.running && !g.closed && decide (g.timeout ≠ 0 ∧ g.timeout ≤ g.clock) && g.states.any (· = 0)
      | none => false) = true ∧
    (kfind (·.id) (q d).descs 9 = some d ∧ d.begun = false ∧ (q d).engHeld [{ addr := d.gatePa, len := 8 }] = false ∧
     (q d).poisonAt d.gatePa 8 = false ∧ d.w 4 ≤ ((q d).engOpen d.gatePa 8 false).peek 4 d.gatePa 8) ∧
    (let e := { d with words := [1 + 64 * 2 ^ 32, 0x5000, 0, 0x3000, 6] }
     (q e).engHeld [{ addr := e.gatePa, len := 8 }] = false ∧ (q e).poisonAt e.gatePa 8 = false ∧
     ((q e).engOpen e.gatePa 8 false).peek 4 e.gatePa 8 < e.w 4 ∧
     { q e with poison := [0xC0] }.poisonAt e.gatePa 8 = true) ∧
    (let b := { d with begun := true }
     let w := w64 (b.w 2)
     kfind (·.id) (q b).descs 9 = some b ∧ b.begun = true ∧ b.ending = none ∧ b.ring = false ∧ b.far = none ∧
     (q b).engHeld [(q b).regionPiece w] = false ∧
     (match ((q b).regionOpen w).remoteAt w b.bytes (bits (b.w 7) 63 32) 2 with | .bad _ => true | _ => false) = true) ∧
    (let b := { d with begun := true, ending := some 3 }
     kfind (·.id) (q b).descs 9 = some b ∧ (q b).engHeld b.ends = false ∧ b.w 5 = 0 ∧ (q b).rbuf = [] ∧
     (q b).raceWords b.stPa 4 = [] ∧ (q b).imagesAt b.stPa 4 = [] ∧ sound (q b) = true) ∧
    (let b := { r with matched := true }
     kfind (·.id) (q b).descs 9 = some b ∧ b.begun = true ∧ b.ending = none ∧ b.ring = true ∧ b.matched = true) ∧
    (let b := { r with deadline := 7 }
     let t : State := { q b with time := 7 }
     kfind (·.id) t.descs 9 = some b ∧ b.ring = true ∧ b.matched = false ∧ b.ending = none ∧ b.deadline ≠ 0 ∧ b.deadline ≤ t.time.toNat) := by decide

/-- The last line of a region, the first line of memory, the first and last package and port. -/
theorem witness_LinkSteps_inputs :
    let s := granted (regs [(bootBase, 64), (linkBase + 0x20, 0xFFF)] (su id))
    let r : RemoteReq := { kind := .write, region := 0, off := 0xFC0, key := 0, len := 64, data := [] }
    let e : DirLine := { line := 0, holders := [] }
    let u : State := { s with snoop := [e] }
    let w (x : RemoteReq) : Word := w64 (s.pkgNum * 2 ^ 56 + x.region.toNat * 2 ^ 48 + x.off.toNat)
    (r.kind = .write ∧ s.engHeld [s.regionPiece (w r)] = false ∧
     (s.regionOpen (w r)).remoteAt (w r) r.len r.key.toNat 2 = .at 0x30FC0 ∧
     (s.regionOpen (w r)).engHeld [{ addr := 0x30FC0, len := r.len }] = false) ∧
    (let p : State := regs [(linkBase, 2)] s
     p.present 1 = true ∧ 1 ≠ p.pkgNum ∧ sound p = true ∧ p.descs = [] ∧ p.present 255 = false ∧ 255 ≠ p.pkgNum) ∧
    (0 < 256 ∧ 255 < 256 ∧ (s.reg (linkBase + 0x20)).toNat = 0xFFF ∧ sound s = true) ∧
    (0 < 12 ∧ 11 < 12 ∧ wbit (s.reg (linkBase + 0x20)) 0 = true ∧ wbit (s.reg (linkBase + 0x20)) 11 = true) ∧
    u.snoop.find? (fun e => e.line % 12 = 0) = some e ∧
    (let b : BusReq := { write := true, pa := 0, len := 1, data := [5] }
     b.write = true ∧ b.data ≠ [] ∧ (regs [(linkBase, 2)] s).present 1 = true ∧ (1 : Nat) ≠ (regs [(linkBase, 2)] s).pkgNum ∧ region b.pa = .hbm ∧ region (b.pa + b.data.length - 1) = .hbm ∧ s.memAt b.pa = .ok ∧
     s.engHeld [{ addr := b.pa, len := b.data.length }] = false ∧
     sound s = true ∧ s.rbuf = [] ∧ s.raceWords b.pa b.data.length = []) := by decide

/-- Tables of the IOMMU of port 0: a directory at 0x50000 whose first device has Sv57 tables at 0x10000 in its first stage. -/
def iommuOf (ddtp : Word) (s : State) : State :=
  put 0x50000 (0x51 * 1024 + 1) 8 (put 0x51000 (0x52 * 1024 + 1) 8 (put 0x52000 (1 + (10 * 2 ^ 60 + 0x10) * 2 ^ 192) 64
    { (regs [(bootBase, 64 + 2 ^ 42 + 2 ^ 43)] s) with iommus := List.replicate 2 { ddtp } }))

/-- A device's write of the byte 5. -/
def devWrite (port dev pa : Nat) (translated : Bool := false) : DevReq :=
  { port, dev, translated, req := { write := true, pa, len := 1, data := [5] } }

/-- The last byte of a page, either port; the tables map the address to itself, and one device has no context. -/
theorem witness_LinkSteps_devices :
    let s (d : Word) : State := iommuOf d (su id)
    let r := devWrite 1 0 0x3FFF
    (0 < r.len ∧ r.req.pa % 4096 + r.len ≤ 4096 ∧ r.port < 2 ∧ (s 0).ready (42 + r.port) = true ∧
     (s 0).ready (42 + (devWrite 0 0 0).port) = true) ∧
    (wbits ((s 0).iommuAt r.port).ddtp 3 0 = 0 ∧ ((s 0).iommuAt r.port).fqOn = false) ∧
    (wbits ((s 1).iommuAt r.port).ddtp 3 0 = 1 ∧ r.translated = false ∧ region (devWrite 1 0 bootBase).req.pa = .mmio) ∧
    (r.req.write = true ∧ (s 1).memAt r.req.pa = .ok ∧ (s 1).engHeld [{ addr := r.req.pa, len := r.len }] = false ∧
     sound (s 1) = true ∧ (s 1).rbuf = [] ∧ (s 1).raceWords r.req.pa r.len = [] ∧ (s 1).imagesAt r.req.pa r.len = [] ∧
     r.req.data.length = r.len ∧ r.form = .access) := by decide

/-- A device's context is found, and its address translated. -/
theorem witness_LinkSteps_context :
    let s : State := iommuOf (0x50 * 1024 + 4) (su id)
    let r := devWrite 0 0 0x3FFF
    wbits (s.iommuAt 0).ddtp 3 0 = 4 ∧ (devWrite 0 0 0 true).translated = true ∧
    (match s.deviceOf 0 0 with
     | .ok t w => bits (w.getD 0 0) 1 1 = 0 && !(t.iommuAt 0).fqOn &&
        (match t.ioUnder r w with
         | .ok u (.bytes pa) => pa = 0x3FFF && u.memAt pa = .ok && !u.engHeld [{ addr := pa, len := r.len }]
         | _ => false)
     | _ => false) = true := by decide

/-- A device writes through its tables; one without a context writes nothing and leaves a record of cause 258. -/
theorem test_dma_translated :
    let s : State := iommuOf (0x50 * 1024 + 4) (su id)
    let q : State := { s with iommus := lmod s.iommus 0 fun u => { u with fqb := 0x60 * 1024 + 1, fqOn := true } }
    (match execDmaRequest (devWrite 0 0 0x3FFF) s with | .next t => (sget t.mem 0x3FFF).toNat | _ => 0) = 5 ∧
    (match execDmaRequest (devWrite 0 64 0x3FFF) q with
     | .next t => sget t.mem 0x3FFF = 0 && bytesGet t.mem 0x60000 2 = 258 && (t.iommuAt 0).fqt = 1
     | _ => false) = true := by decide

/-- Each refusal of a reassignment and its acceptance; a slot of the invalidation block, idle and with one in it; an
evidence buffer behind memory that does not answer. -/
theorem witness_RegisterSteps :
    let s := su id
    s.strand? 0x40000 = some (tOf s) ∧ s.spilledOf 0x40000 = [] ∧ 0 < s.cores.length ∧ 0 / 4 < s.pods.length ∧
    191 < s.cores.length ∧ 191 / 4 < s.pods.length ∧ 49 < s.zones.length ∧
    wbits (2 : Word) 1 0 ≠ 3 ∧ wbits (3 : Word) 1 0 = 3 ∧ (s.zoneAt 0).state < 3 ∧
    wbits (s.dieAt 0).clsreq 31 28 ≠ 1 ∧
    12 ≤ wbits (12 : Word) 3 0 ∧ wbits (0x300 : Word) 9 8 = 3 ∧
    (wbits (11 : Word) 3 0 < 12 ∧ wbits (11 : Word) 9 8 ≠ 3 ∧ (s.podAt 11).pool = wbits (11 : Word) 9 8) ∧
    (let t : State := { s with pods := { pool := 1 } :: State.reset.pods.drop 1 }
     wbits (0 : Word) 9 8 = 0 ∧ (t.podAt 0).pool ≠ 0 ∧ (t.zoneAt 0).state ≤ 1) ∧
    (31 < 32 ∧ s.reg (State.invalReg 31 0x18) ≠ 1 ∧ invalOk (s.reg (State.invalReg 31 0)) (s.reg (State.invalReg 31 8)) = true) ∧
    (let i : Inval := { id := 9, va := 0, ctl := 0, slot := 31, image := 0 }
     let t : State := { s with invals := [i] }
     kfind (·.id) t.invals 9 = some i ∧ t.invalWaits i = false) ∧
    sound s = true := by
  decide

/-- Three class-1 pods of die 0; a pod whose zone is hot; the request register of evidence: idle, in progress, with a buffer behind
memory that is not ready, one that a copy owns, and one that can be written. -/
theorem witness_RegisterSteps_refusals :
    let s := su id
    let full : State := { s with pods := List.replicate 3 { pool := 1 } ++ State.reset.pods.drop 3 }
    let hot : State := { s with zones := { state := 2 } :: State.reset.zones.drop 1 }
    let own : State := { s with copies := [{ id := 1, image := 7, own := [0x80] }] }
    (3 ≤ ((upto 0 12).filter fun n =>
        let x := full.podAt n
        (x.rcls = 0 && x.pool = 1) || (x.rcls ≠ 0 && (x.target = 1 || (x.rcls = 1 && x.pool = 1)))).length ∧
      wbits (0x103 : Word) 9 8 = 1 ∧ wbits (0x103 : Word) 3 0 = 3 ∧ (full.podAt 3).pool ≠ 1) ∧
    (wbits (0x200 : Word) 9 8 = 2 ∧ (hot.podAt 0).pool ≠ 2 ∧ 1 < (hot.zoneAt 0).state) ∧
    (wbits ((regs [(bootBase + 0x40, 2)] s).reg (bootBase + 0x40)) 2 1 = 1 ∧ wbits (s.reg (bootBase + 0x40)) 2 1 ≠ 1 ∧
      wbit (0x2001 : Word) 0 = true ∧ wbits (0x2001 : Word) 56 7 * 128 = 0x2000 ∧
      State.reset.memReady 0x2000 384 = false ∧ s.memReady 0x2000 384 = true ∧ own.memReady 0x2000 384 = true ∧
      own.hwBusy 0x2000 384 = true ∧ s.hwBusy 0x2000 384 = false ∧ s.rbuf = [] ∧ sound s = true) := by decide

/-- The first and the last pod, at the first instant of each interval; W above the cap by one. -/
theorem witness_PowerSteps :
    let i := (cOf (su id)).id
    let c (f : Crew → Crew) : State := su id f
    let p (x : PodState) : State := { State.reset with pods := x :: State.reset.pods.drop 1 }
    let at' (n : Word) : State := { State.reset with time := n }
    ((c fun c => { c with toPre := true }).crew? i).any (·.toPre) = true ∧
    (match (c fun c => { c with wd := 4 }).crew? i with
      | some x => decide (x.wd ≠ 0 ∧ x.wdEnd ≤ (su id).time.toNat) | none => false) = true ∧
    (let s := su id fun c => { c with pre := 1 }
     (match s.crew? i with | some x => decide (x.pre = 1 ∧ x.stopping = false ∧ x.fleet = 0) | none => false) = true ∧ s.engine = [] ∧ s.copies = [] ∧
     (∀ t ∈ s.strands, t.crew = i → s.finishing t = false) ∧ (∀ t ∈ s.strands, t.pendRecall = false) ∧
     tAt s ∈ s.strands ∧ (tAt s).crew = i ∧ (tAt s).status = .resident) ∧
    (let s := su (fun t => { t with status := .preempted }) fun c => { c with pre := 3 }
     (match s.crew? i with | some x => decide (x.pre = 3) && x.cores.all (fun n => !(s.podAt (State.podOf n)).halted) &&
         (s.crews.all fun y => x.fleet = 0 || y.fleet ≠ x.fleet || x.cid ≤ y.cid || y.pre = 0) | none => false)
       = true ∧ tAt s ∈ s.strands ∧ (tAt s).crew = i ∧ (tAt s).status = .preempted) ∧
    (let s := p { rcls := 1 }; 0 < s.pods.length ∧ 0 < Config.numPods ∧ (s.podAt 0).rcls = 1 ∧ s.podCrews 0 = []) ∧
    (let s := p { rcls := 2 }; 0 < s.pods.length ∧ (s.podAt 0).rcls = 2) ∧
    (let s : State := { State.reset with zones := { state := 3 } :: { state := 6 } :: State.reset.zones.drop 2 }
     0 < Config.numPods ∧ (s.podAt 0).rcls ≠ 1 ∧ (s.zoneAt 0).state = 3 ∧ (s.podAt 1).rcls ≠ 1 ∧ (s.zoneAt 1).state = 6) ∧
    (let s := at' 10000
     47 < s.pods.length ∧ s.time.toNat % 10000 = 0 ∧ (s.podAt 47).boostAt ≠ s.time.toNat ∧ (s.podAt 47).rcls ≠ 2) ∧
    (let s := at' 10000000
     s.time.toNat % 10000000 = 0 ∧ s.pkg.windowAt ≠ s.time.toNat ∧ s.pkg.limit < (3601 : BitVec 16).toNat ∧
     s.pkg.means = 0) ∧
    (let s := at' 500; s.time.toNat % 500 = 0 ∧ s.pkg.sampleAt ≠ s.time.toNat ∧ s.pkg.episode = false) ∧
    (let s : State := { at' 50000 with pkg := { episode := true } }
     s.pkg.episode = true ∧ s.pkg.epStart + 50000 ≤ s.time.toNat) := by decide

/-- Zone 0 in a state, at a time. -/
def zoned (x : ZoneState) (now : Word) : State :=
  { State.reset with zones := x :: State.reset.zones.drop 1, time := now }

/-- Flow 60 is Fmin of a pod's zone with its valve open, 59 is below it, 7 below an eighth of it; the warning and the trip
temperature, and the highest one that counts as cool; each with its time just over. -/
theorem witness_ZoneSteps :
    let f (x : ZoneState) (now : Word) (n : Nat) : State := (zoned x now).senseFlow 0 n
    let h (x : ZoneState) (now : Word) (n : Nat) : State := (zoned x now).senseTemp 0 n
    0 < Config.numZones ∧ (zoned {} 0).zones.length = Config.numZones ∧
    (f { flow := 59 } 1000000 59).entered 0 false 1 = true ∧ (f {} 1000000 60).entered 0 false 1 = false ∧
    (f { flow := 59 } 999999 59).entered 0 false 1 = false ∧
    (let s := f { state := 1, flow := 60 } 10000000 60
     (s.zoneAt 0).state = 1 ∧ State.below (s.zoneAt 0) 0 1 (s.zoneAt 0).flow = false ∧
     s.heldFor (s.zoneAt 0).okFrom 10000000 = true ∧ s.staysLow 0 = true) ∧
    (h {} 0 1520).entered 0 false 2 = true ∧ (h {} 0 1519).entered 0 false 2 = false ∧
    (let s := h { state := 2, temp := 1439 } 10000000 1439
     (s.zoneAt 0).state = 2 ∧ (s.zoneAt 0).temp + 80 < s.warn ∧ s.heldFor (s.zoneAt 0).coolFrom 10000000 = true ∧
     s.staysLow 0 = true) ∧
    (f { flow := 7 } 200000 7).entered 0 false 3 = true ∧ (f {} 0 77).entered 0 true 3 = true ∧
    (h {} 0 1680).entered 0 false 6 = true ∧ (h {} 0 1679).entered 0 false 6 = false ∧
    ((zoned { state := 3 } 0).zoneAt 0).state = 3 ∧ (zoned { state := 3 } 0).podCrews 0 = [] ∧
    (let s := h { state := 6, gated := true, temp := 1519 } 100000000 1519
     (s.zoneAt 0).state = 6 ∧ (s.zoneAt 0).gated = true ∧ (s.zoneAt 0).temp < s.warn ∧
     s.heldFor (s.zoneAt 0).belowFrom 100000000 = true) ∧
    (let s := zoned { state := 4 } 0; (s.zoneAt 0).state = 4 ∧ (s.zoneAt 0).purge = 0) ∧
    (let s := zoned { state := 4, purge := 1 } 20000000
     (s.zoneAt 0).state = 4 ∧ (s.zoneAt 0).purge = 1 ∧ s.heldFor (s.zoneAt 0).purgeAt 20000000 = true) ∧
    (let s := f { state := 4, purge := 2, flow := 60 } 520000000 60
     (s.zoneAt 0).state = 4 ∧ (s.zoneAt 0).purge = 2 ∧ s.heldFor (s.zoneAt 0).purgeAt 520000000 = true ∧
     State.below (s.zoneAt 0) 0 1 (s.zoneAt 0).flow = false ∧ s.heldFor (s.zoneAt 0).okFrom 100000000 = true) ∧
    (let s := f { state := 4, purge := 2, flow := 59 } 520000000 59
     (s.zoneAt 0).state = 4 ∧ (s.zoneAt 0).purge = 2 ∧ s.heldFor (s.zoneAt 0).purgeAt 520000000 = true ∧
     State.below (s.zoneAt 0) 0 1 (s.zoneAt 0).flow = true) := by decide

/-- The debug block of die 0 names the strand, and an address. -/
def dbgAt (a : Word) (f : Strand → Strand) : State := regs [(State.dbg 0 0x08, 0x40000), (State.dbg 0 0x20, a)] (su f)

/-- A strand that DBGSEL names, running and stopped, and none; the first and the last unassigned command. -/
theorem witness_DebugCommands :
    (State.reset.dbgBusy 0 = false ∧ State.reset.dbgStrand 0 = none) ∧
    (8 ≤ (8 : BitVec 4).toNat ∧ 8 ≤ (15 : BitVec 4).toNat) ∧
    ((dbgAt 0 id).dbgBusy 0 = false ∧ (dbgAt 0 id).dbgStrand 0 = some (tOf (dbgAt 0 id)) ∧ (tOf (dbgAt 0 id)).stopped = false) ∧
    (let s := dbgAt 0 fun t => t.setCbits cFwd 18 18 1
     s.dbgBusy 0 = false ∧ s.dbgStrand 0 = some (tOf s) ∧ (tOf s).stopped = true) ∧
    (let u := dbgAt 0 fun t => { t with pendStop := 1 }
     u.strand? 0x40000 = some (tOf u) ∧ (tOf u).status = .resident ∧ (tOf u).pendStop ≠ 0 ∧ (tOf u).stopped = false ∧
     (tOf u).wait = .none ∧ (match u.crewOf (tOf u) with | some c => decide (c.pre = 0) | none => false) = true) := by decide

/-- The first and the last doubleword of stage memory; the last pod of the last die. -/
theorem witness_DebugCommands_data :
    (∀ a ∈ [0, 0x5FF8], (dbgAt (w64 a) id).dbgBusy 0 = false ∧ (dbgAt (w64 a) id).dbgq.find? (fun e => e.die = 0) = none ∧
      (dbgAt (w64 a) id).dbgStrand 0 = some (tOf (dbgAt (w64 a) id)) ∧ wbits ((dbgAt (w64 a) id).reg (State.dbg 0 0x20)) 63 62 = 0 ∧
      wbits ((dbgAt (w64 a) id).reg (State.dbg 0 0x20)) 23 0 = a ∧ a % 8 = 0 ∧
      (match (dbgAt (w64 a) id).crewOf (tOf (dbgAt (w64 a) id)) with
        | some c => c.stageIn a 8 && decide (c.pre = 0) && !c.stageBad a 8 | none => false) = true) ∧
    11 < 12 ∧ 12 * 3 + 11 < State.reset.pods.length := by decide

/-- A state in which some steps of Table 16.5 are done and some functions are ready. -/
def booted (steps : List Nat) (rdy : Word) : State :=
  { regs [(bootBase, rdy)] State.reset with pkg := { powered := true, stepDone := steps.foldl (fun n i => n + 2 ^ i) 0 } }

/-- The first and the last memory function, port, L-core and package number. -/
theorem witness_BringUp :
    State.reset.pkg.powered = false ∧ (booted [] 0).pkg.powered = true ∧
    (booted [1] 0).stepIs 1 = true ∧ (booted [] 0).stepIs 1 = false ∧
    (∀ f ∈ [6, 29], 6 ≤ f ∧ f ≤ 29 ∧ (booted [1, 2] 0).ready f = false ∧ (booted [1, 2] 0).failed f = false) ∧
    (booted [1, 2] 0).stepIs 2 = true ∧ sound (booted [1, 2] 0) = true ∧ (booted [1, 2] 0).stepIs 3 = false ∧
    (∀ k ∈ [0, 31], k < (booted [1] 0x30).lcores.length ∧ k < Config.numLCores ∧ (booted [1] 0x30).ready (4 + k / 16) = true ∧
      ((booted [1] 0x30).lcoreAt k).running = false) ∧ sound (booted [1] 0x30) = true ∧
    (∀ d ∈ [0, 3], d < 4 ∧ (booted [1, 2] 0x3FC0).ready (6 + 2 * d) = true ∧ (booted [1, 2] 0x3FC0).ready (7 + 2 * d) = true ∧
      (booted [1, 2] 0x3FC0).ready d = false ∧ (booted [1, 2] 0x3FC0).failed d = false) ∧
    (∀ f ∈ [30, 41], 30 ≤ f ∧ f < 42 ∧ (booted [1, 2] 0).ready f = false ∧ (booted [1, 2] 0).failed f = false) ∧
    (booted [1] 0x30).ready 4 = true ∧ (booted [1] 0x30).ready 5 = true ∧ (booted [1] 0).ready 45 = false ∧
    (∀ f ∈ [4, 5, 44, 45], (booted [1] 0).ready f = false ∧ (booted [1] 0).failed f = false ∧ sound (booted [1] 0) = true ∧
      kfind (·.1) (booted [1] 0).pkg.units f = none ∧ ((booted [1] 0).bringUp f).ready f = true ∧
      kfind (·.1) ((booted [1] 0).outside (.unit f (some false))).pkg.units f = some (f, some false)) ∧
    (((booted [1] 0).outside (.unit 45 (some false))).bringUp 45).ready 45 = false ∧
    (booted [1] 0).failed 45 = false ∧ (booted [1, 4] 0).stepIs 4 = true ∧ (booted [1] 0).stepIs 4 = false ∧
    accepted (booted [1] 0).pkg 2 = none ∧ (booted [1] 0x40).loadReady 0 64 = true := by decide +kernel

/-- Signatures of the three kinds of image by the first key of RFC 8032, chapter 7.1, made outside the model. -/
def signature (kind : Byte) : Nat :=
  if kind = 1 then 0x2887638f6941206a86705abeb8387c16c07b3f96c2835b2b3e1b2a906c071aba84d2c48456e8918b57052163f258074e41ca9a070918394a818418c48dda034
  else if kind = 2 then 0x80a40a964b0b8d3ff46133f0622b5c347ce3ab66f0e515f9cbd865a3a9a24d793f199c0ceafd54b6fb815b4ed04092fc939b00396af9429131b7b1a49a20b68
  else 0x6d6fcdcb19d8d00ecbbb5b5ae54eed4d3ea8040e7cff78b35b0802900aa70e3fcb995d1c1ce76c41c1e11580c4c84ee2e2f4268bb2dd6e2709384f8622a6a54

/-- An image of a kind that meets R428, with a payload of 64 bytes of zeros and version 5. -/
def firmware (kind : Byte) : Image :=
  { bytes := toBytes 0x53454C4D 4 ++ [kind, 0, 0, 0] ++ toBytes 5 4 ++ toBytes 64 4 ++ List.replicate 16 0 ++
      toBytes 0x8100c20574882be2246af95ab236f206287debe63c5f358370b18e7a2b753f5066bf4bb40cde14adeae6fe1e436928f7fa09ff3ca798c611e679418fa4fde97b 64 ++
      toBytes 0x1a5107f7681a02af2523a6daf372e10e3a0764c9d3fe4bd5b70ab18201985ad7 32 ++ toBytes (signature kind) 64 ++ List.replicate 128 0 }

/-- A package in whose first slot that key's digest is fused. -/
def fused (b : List Image) : Pkg :=
  { bootA := b, flashA := b, keyDigests :=
      [0xc3a9704714d475b52af1831b5106781802438ba9d3ef4d53c079c493826809470906752fc3f2c4237ae419e824172f03dcc7bfd90e47a018aabab42502a5020e, 0, 0, 0] }

/-- Each kind is accepted; with a signature of another kind, or its key revoked, none is. -/
theorem witness_accepted :
    (∀ k ∈ [1, 2, 3], accepted (fused [firmware 1, firmware 2, firmware 3]) k = some (firmware (BitVec.ofNat 8 k), false)) ∧
    (accepted (fused [{ bytes := (firmware 1).bytes.set 8 6 }]) 1).isNone = true ∧
    (accepted { fused [firmware 1] with revoked := 1 } 1).isNone = true ∧
    (firmware 3).kind = 3 ∧ (firmware 1).version = 5 := by decide +kernel

/-- The first vectors of FIPS 180-4's examples and of RFC 8032, chapter 7.1. -/
theorem test_signature :
    (Sha512.digest [0x61, 0x62, 0x63]).take 8 = (toBytes 0xddaf35a193617aba 8).reverse ∧
    (let seed : List Byte := (toBytes 0x9d61b19deffd5a60ba844af492ec2cc44449c5697b326919703bac031cae7f60 32).reverse
     Ed25519.publicKey seed = (toBytes 0xd75a980182b10ab7d54bfed3c964073a0ee172f3daa62325af021a68f707511a 32).reverse ∧
     (Ed25519.sign seed []).take 8 = (toBytes 0xe5564300c360ac72 8).reverse) := by decide +kernel

/-- The last image kind; a version that the accepted copy has, and one that is not above the minimum; the port ready. -/
theorem witness_Management :
    let s := booted [1, 9] (2 ^ 45)
    let b : State := { booted [1] (2 ^ 45) with pkg := { (booted [1] 0).pkg with keyDigests := (fused []).keyDigests } }
    s.ready 45 = true ∧ s.stepIs 9 = true ∧ sound s = true ∧ (firmware 3).kind = 3 ∧ (firmware 1).kind = 1 ∧
    b.ready 45 = true ∧ b.stepIs 9 = false ∧ b.ptpState ≤ 1 ∧ b.fleets = [] ∧ imageOk b.pkg 3 (firmware 3) = true ∧
    imageOk (fused [firmware 1]) 1 ((fused [firmware 1]).flashA.getD 0 {}) = true ∧
    s.pkg.useB.getD 2 false = false ∧ imageOk s.pkg 0 { bytes := [] } = false ∧ (firmware 1).version = 5 ∧
    (5 : BitVec 32).toNat ≤ (firmware 1).version ∧ (s.pkg.minVer.getD 0 0).toNat < (5 : BitVec 32).toNat ∧
    (0 : BitVec 32).toNat ≤ (s.pkg.minVer.getD 0 0).toNat ∧
    (let u : State := { s with mmio := sset s.mmio (bootBase + 0x38) 2, time := 10000000000 }
     u.ptpState ≠ 0 ∧ u.pkg.lastPtp + 10000000000 ≤ u.time.toNat ∧ sound u = true) := by decide +kernel

/-! ### Worked examples of the specification, one step each -/

/-- What an instruction leaves on the test strand, as a value of the state after it. -/
def leaves (i : Instr) (s : State) (p : State → Bool) : Bool :=
  match exec i s with | .next t => p t | .fault _ => false | .refused _ => false

/-- The pair (1000.0, -3.0) packs to BF16 (06_arithmetic.md, Table 6.10). -/
theorem test_pack_pair :
    leaves (.fxPkBf16 12 10 11) (su (words [(42, 0xFFFFFFFF447A0000), (43, 0xFFFFFFFFC0400000)]))
      (fun t => t.f 12 = 0xFFFFFFFFC040447A) = true := by decide

/-- The exponent of 1000.0 is 9. -/
theorem test_exponent :
    leaves (.fxXpnF32 5 0) (su (words [(32, 0xFFFFFFFF447A0000)])) (fun t => t.x 5 = 9) = true := by decide

/-- 500 saturates to 0x7E with OF and NX, -1.5 is 0xBC. -/
theorem test_narrow_pair :
    leaves (.fxNr .e4m3 10 12 5) (su (words [(44, 0xFFFFFFFFC040447A), (5, 128)]))
      (fun t => t.x 10 = 0xBC7E && (tOf t).cw cFcsr &&& 0x1F = 5) = true := by decide

/-- The codes expand to 896 and -3.0. -/
theorem test_expand_pair :
    leaves (.fxXp .e4m3 13 10 5) (su (words [(10, 0xBC7E), (5, 128)])) (fun t => t.f 13 = 0xFFFFFFFFC0404460) = true := by decide

/-- The largest signed number plus 1 saturates and sets `fxsat` (R156). -/
theorem test_adds_saturates :
    leaves (.fxAdds .i64 10 10 11) (su (words [(10, 0x7FFFFFFFFFFFFFFF), (11, 1)]))
      (fun t => t.x 10 = 0x7FFFFFFFFFFFFFFF && (tOf t).cw cFxsat = 1) = true := by decide

/-- (1, 2, 3, 0) times (255, 1, 1, 1) on an accumulator of 5: 0xFF reads as 255 (R157). -/
theorem test_dot_unsigned :
    leaves (.fxDot .n8 10 11 12) (su (words [(10, 5), (11, 0x00030201), (12, 0x010101FF)])) (fun t => t.x 10 = 265) = true := by
  decide

/-- 3 / 2 rounds to the even 2 (R158). -/
theorem test_shift_rounds_to_even :
    leaves (.fxSrari 10 11 1) (su (words [(11, 3)])) (fun t => t.x 10 = 2) = true := by decide

/-- The first draw of Table 8.9 hands out 125 items from 0. -/
theorem test_draw_first :
    leaves (.amoDraw .cw false false 10 12) (put 0x3000 (1000 * 2 ^ 64) 16 (su (words [(12, 0x3000), (11, 0x80010)])))
      (fun t => t.x 10 = 0 && t.x 11 = 125 && ofBytes (byteList t.mem 0x3000 8) = 125) = true := by decide +kernel

/-- The operands of Table 10.6 in stage memory. -/
def table106 : Crew :=
  { id := 0, stageSize := 24576, banks := 1, alloc := [1],
    stage := [(0x000, 0x4580), (0x002, 0x3F80), (0x004, 0x3F80), (0x006, 0xC580), (0x040, 0x4580), (0x042, 0x3980),
      (0x044, 0x3980), (0x046, 0xC580), (0x048, 0x3F80), (0x800, 0x4580), (0x840, 0x3F80), (0x880, 0x3F80), (0x8C0, 0x4580),
      (0x802, 0x4580), (0x842, 0x3980), (0x882, 0x3980), (0x8C2, 0x4580), (0x902, 0x3F80)].foldl
        (fun m p => bytesSet m p.1 p.2 2) [] }

/-- The four elements of Table 10.7 that are not zero. -/
theorem test_matrix_product :
    let o := State.mxOperands table106 0 2 2 0 0x800 0x400040 none
    let c := State.mxPerform table106 0 0 2 2 true 0 o.1 o.2.1 o.2.2
    c.accGet (Crew.accKey 0 0 0 0) = 0x40000000 ∧ c.accGet (Crew.accKey 0 0 0 1) = 0x3A000000 ∧
    c.accGet (Crew.accKey 0 0 1 0) = 0x3A000000 ∧ c.accGet (Crew.accKey 0 0 1 1) = 0x3F800000 ∧
    c.mxflg = 0 := by decide +kernel

/-- The sum of Table 5.4: 2^24, 1, 1, -2^24 in the tree order gives 1. -/
theorem test_lane_sum_order :
    let v (n : Nat) := FVal.ofBits f32 n
    let add (a b : Nat) : Nat := (ffinish f32 0 (fadd 0 (v a) (v b))).1
    add (add 0x4B800000 0x3F800000) (add 0x3F800000 0xCB800000) = 0x3F800000 := by decide

/-- `ecall` at depth 0 with cause 8, to the handler (R362, R363). -/
theorem test_ecall_enters_handler :
    leaves .ecall (su (words [(100, 0x5001)])) (fun t =>
      (tOf t).cw cPc = 0x5000 && (tOf t).cw cScause = 8 && (tOf t).cw cSepc = 0x20000 && (tOf t).depth = 1) = true := by decide

/-- `sret` from depth 1 returns to `sepc` (R363). -/
theorem test_sret_returns :
    leaves .sret (su fun t => inS (t.setCw cSepc 0x6000)) (fun t => (tOf t).cw cPc = 0x6000 && (tOf t).depth = 0) = true := by
  decide

/-- A store and a load of stage memory at its last doubleword; one byte further is cause 7. -/
theorem test_stage_store :
    leaves (.ss .i64 10 11 0) (su (words [(10, 0x5FF8), (11, 0x1122334455667788)]))
      (fun t => (cOf t).stageGet 0x5FFF 1 = 0x11 && (cOf t).stageGet 0x5FF8 1 = 0x88) = true ∧
    leaves (.ss .i64 10 11 0) (su (words [(10, 0x6000), (100, 0x5000)])) (fun t => (tOf t).cw cScause = 7) = true := by decide

/-- A draw of 3500 W that falls by 1450 W: with SLPDN 64 the controlled draw falls by 32 W and an episode begins (Table 15.3). -/
theorem test_ballast_begins :
    let s : State := { State.reset with time := 500, pkg := { draw := 7000 } }
    leaves (.currentSample 2050) s (fun t => t.pkg.draw = 2 * (3500 - 32) && t.pkg.episode) = true := by decide +kernel

/-- One step fetches `fx.li t0, 0x89AB_CDEF` (Table 2.12), six bytes long, and runs it. -/
theorem test_step_literal :
    (match step (State.reset.withFetchWord 48 0x89ABCDEF029F) with
      | .next t => (t.strand? 0x40000).any fun t => t.cw 5 = 0xFFFFFFFF89ABCDEF && t.cw cPc = 0x20006
      | .fault _ => false
      | .refused _ => false) = true := by decide +kernel

/-- Encodings of the parts that L-cores alone implement (H, Zfa, Zicboz, Svinval, V). -/
theorem test_decode_lcore_parts :
    decode [0xC573, 0x6805] = .lcore (.hlv 4 true false 10 11) ∧ decode [0xC573, 0x6435] = .lcore (.hlv 2 false true 10 11) ∧
    decode [0x4073, 0x6EA5] = .lcore (.hsv 8 10 10) ∧ decode [0x0553, 0xF018] = .lcore (.fli .s 10 16) ∧
    decode [0x8553, 0x4245] = .lcore (.roundInt false .d 0 10 11) ∧ decode [0x200F, 0x0045] = .lcore (.cbo .zero 10) ∧
    decode [0x0073, 0x6200] = .lcore (.guestFence .gvma) ∧ decode [0x0073, 0x1600] = .lcore (.same (.sfenceVma 0 0)) ∧
    decode [0x80D7, 0x0221] = .lcore (.vector (.bin .add true 1 2 (.v 3))) := by decide

/-- 1.0; 2.5 rounds to 2; 2^32 + 5 wraps to 5 with NV. -/
theorem test_lcore_parts :
    (fround f32 0 (fliConst f32 16)).1 = 0x3F800000 ∧ froundInt f64 false 0 (.fin false 5 (-1)) = (0x4000000000000000, 0) ∧
    fcvtMod (.fin false (2 ^ 32 + 5) 0) = (5, 16) := by decide

/-- `hlv.d` of a guest without translation, from M-mode: memory as the guest has it, and the mode as before. -/
theorem test_hlv :
    (match (put 0x3000 77 8 (lc .m fun l => { l with ctx := sset l.ctx 11 0x3000 })).execLPart 0 (fun _ s => .next s)
        (.hlv 8 true false 10 11) with
      | .next t => t.x 10 = 77 && (t.lcoreAt 0).mode = .m
      | .fault _ => false
      | .refused _ => false) = true := by decide

/-- Vector encodings of OP-V and of LOAD-FP; an unmasked `vadc` is reserved. -/
theorem test_decode_vector :
    decode [0x5257, 0xB085] = .lcore (.vector (.fmac .pp true false 4 8 (.f 10))) ∧
    decode [0xA0D7, 0x0221] = .lcore (.vector (.red .sum true 1 2 3)) ∧
    decode [0xB0D7, 0x5620] = .lcore (.vector (.bin .ror true 1 2 (.uimm 33))) ∧
    decode [0xF557, 0x0D05] = .lcore (.vector (.cfg (.vsetvli 10 11 0xD0))) ∧
    decode [0x6407, 0x0205] = .lcore (.vector (.mem true .unit 32 1 true 8 10)) ∧
    decode [0x80D7, 0x4221] = .illegal := by decide

/-- 32-bit elements, LMUL 1, two elements: v1 holds 3 and 250, v2 holds 10 and 2^32 − 4. -/
def ve : VEnv :=
  { vb := 16, sew := 32, lm := 0, vl := 2, vstart := 0, ta := false, ma := false, frm := 0, vxrm := 0,
    vec := bytesSet (bytesSet [] 16 0x000000FA00000003 8) 32 0xFFFFFFFC0000000A 8, x := fun r => if r = 5 then 7 else 0, f := fun _ => 0,
    free := fun _ => false, pick := fun _ => 0 }

/-- v3 = v1 + v2 by element, without carry between them; a reduction into element 0; a comparison into a mask. -/
theorem test_vector_int :
    (ve.op (.bin .add true 3 1 (.v 2))).map (·.writes) = some [(48, 4, 13), (52, 4, 0xF6)] ∧
    (ve.op (.red .sum true 3 1 2)).map (·.writes) = some [(48, 4, 263)] ∧
    (ve.op (.bin .divu true 3 1 (.x 0))).map (·.writes) = some [(48, 4, 0xFFFFFFFF), (52, 4, 0xFFFFFFFF)] ∧
    (ve.op (.bin .saddu true 3 2 (.x 5))).map (fun r => (r.writes, r.sat)) = some ([(48, 4, 17), (52, 4, 0xFFFFFFFF)], true) ∧
    (ve.op (.bin .add false 0 1 (.v 2))).isNone = true := by decide

/-- Permutations and moves; a widening result that overlaps its source's first register is reserved. -/
theorem test_vector_more :
    (ve.op (.slide1 true true 3 1 (.x 5))).map (·.writes) = some [(48, 4, 7), (52, 4, 3)] ∧
    (ve.op (.mvXS 6 1)).map (·.x) = some (some (6, 3)) ∧
    (ve.op (.wide .add false true 2 2 (.v 1))).isNone = true ∧
    vRec7 f32 0 0x3F800000 = (0x3F7F0000, 0) ∧ vRsqrt7 f32 0x3F800000 = (0x3F7F0000, 0) ∧ vRec7 f32 0 0 = (0x7F800000, 8) := by decide

/-- A software interrupt of supervisor mode, enabled in `mstatus` and `mie` and not delegated, enters M-mode. -/
theorem test_interrupt :
    (match (lc .m fun l => { l with csr := sset (sset (sset (sset l.csr 0x300 8) 0x304 2) 0x344 2) 0x305 0x5000 }).issue exec with
      | .next t =>
        let l := t.lcoreAt 0
        sget l.ctx cPc = 0x5000 && l.get 0x342 = 0x8000000000000001 && l.get 0x341 = 0x20000
      | .fault _ => false
      | .refused _ => false) = true := by decide

/-- Identity 5 pending and enabled in the M-mode file, delivery on: MEIP, `mtopei` and `mtopi`; at threshold 5 it is not named. -/
theorem test_interrupt_file :
    (let l : LCore := { csr := [(0x304, 0x800), (0x1070, 1), (0x1080, 0x20), (0x10C0, 0x20)] }
     State.mipOf l 0 = 0x800 ∧ State.topei l false = 5 ∧ State.topi (State.pendM l 0) = 0xB0001 ∧
     State.topei { l with csr := sset l.csr 0x1072 5 } false = 0) := by decide

/-- `vstopi`: the guest's timer, at the priority of `hviprio1` where `hvictl`.IPRIOM asks for it; with VTI, what `hvictl` says. -/
theorem test_vstopi :
    (let l : LCore := { csr := [(0x304, 0x40), (0x603, 0x40), (0x609, 0x100), (0x645, 0x40), (0x646, 0x07000000)] }
     State.vstopi l 0 = 0x50007 ∧ State.vstopi { l with csr := sset l.csr 0x609 0x40030000 } 0 = 0x30001) := by decide

end Sys2Proof.Tests
end

section
/-! The checks of mode: a guard that all forms of a group share says once how the form ends in S-mode or at depth 0. -/

namespace Sys2Proof.Machine

namespace State

variable {s : State} {t : Strand} {c : Crew}

/-- In S-mode a form on a child slot answers -9 before it looks at the slot (R82, R83). -/
theorem onSlot_of_sMode (h : s.OnStrand t) (hm : t.sMode = true) (rd a : Reg) (g : Strand → Nat → Out) :
    s.onSlot rd a g = .next (s.retX rd (neg 9)) := by
  simp only [onSlot, onStrand_eq h, hm, if_true, status_eq]

/-- The same of a form on a sample group. -/
theorem onGroup_of_sMode (h : s.OnStrand t) (hm : t.sMode = true) (rd a : Reg) (g : Strand → Fleet → Group → Out) :
    s.onGroup rd a g = .next (s.retX rd (neg 9)) := by
  simp only [onGroup, onStrand_eq h, hm, if_true, status_eq]

/-- In S-mode a matrix form is illegal; at `mx.pmma`, number 2, the trap breaks a pair that is open (R266, R280). -/
theorem mxForm_of_sMode (h : s.OnCrew t c) (hm : t.sMode = true) (op : Nat) (m : MxArgs) :
    s.mxForm op m = .next (if op = 2 then (s.trap 2 s.ibits).breakPair c.id m.cv.toNat t.sid else s.trap 2 s.ibits) := by
  simp only [mxForm, onCrew_eq h, hm, if_true]

theorem ctlForm_of_sMode (h : s.OnCrew t c) (hm : t.sMode = true) (op : Nat) (rd : Reg) (n : BitVec 4) (v x y : Nat) :
    s.ctlForm op rd n v x y = .next (s.trap 2 s.ibits) := by
  simp only [ctlForm, onCrew_eq h, hm, if_true, illegal_eq]

theorem drnForm_of_sMode (h : s.OnCrew t c) (hm : t.sMode = true) (z : Bool) (d : DrnArgs) :
    s.drnForm z d = .next (s.trap 2 s.ibits) := by
  simp only [drnForm, onCrew_eq h, hm, if_true, illegal_eq]

/-- A handler form is illegal at depth 0 (R372). -/
theorem onS_of_uMode (h : s.OnStrand t) (hm : t.sMode = false) (g : Strand → Out) : s.onS g = .next (s.trap 2 s.ibits) := by
  simp only [onS, onStrand_eq h, hm, Bool.false_eq_true, if_false, illegal_eq]

end State

section

variable {s : State} {t : Strand} {c : Crew}

/-- In S-mode the forms of fleets, threads and sample groups answer -9 (R63, R79, R83, R86). -/
theorem exec_threadForms_of_sMode (h : s.OnCrew t c) (hm : t.sMode = true) (rd a b : Reg) :
    ∀ i ∈ [Instr.mgGo rd a, .fkFlt rd a b, .fkJoin rd a, .fkJoinTry rd a, .fkStop rd a, .fkStopPre rd a, .fkStopRsm rd a,
      .fkQry rd a b, .thParkMem rd a b, .thParkBat rd a, .thParkTm rd a, .sgFork rd a b, .sgRwd rd a, .sgCol rd a,
      .sgCxl rd a b, .sgExt rd a b, .sgQry rd a b, .sgLeave rd, .pwYld rd], exec i s = .next (s.retX rd (neg 9)) := by
  have ht := h.onStrand
  have hgo : exec (.mgGo rd a) s = .next (s.retX rd (neg 9)) := by
    simp only [exec, execMgGo, State.onAny_eq ht.runs, ht.cur, State.onCrew_eq h, State.goW, hm, Bool.true_or, if_true, State.status_eq]
  simp only [List.forall_mem_cons, List.not_mem_nil, false_imp_iff, implies_true, and_true]
  refine ⟨hgo, ?_, ?_, ?_, ?_, ?_, ?_, ?_, ?_, ?_, ?_, ?_, ?_, ?_, ?_, ?_, ?_, ?_, ?_⟩ <;>
    simp only [exec, execFkFlt, execFkJoin, execFkJoinTry, execFkStop, execFkStopPre, execFkStopRsm, execFkQry, execThParkMem,
      execThParkBat, execThParkTm, execSgFork, execSgRwd, execSgCol, execSgCxl, execSgExt, execSgQry, execSgLeave, execPwYld,
      State.onSlot_of_sMode ht hm, State.onGroup_of_sMode ht hm, State.onStrand_eq ht, State.onCrew_eq h, hm, Bool.true_or, if_true,
      State.status_eq]

/-- In S-mode `mg.home` and the matrix, accumulator and epilogue forms are illegal instructions (R67, R266). -/
theorem exec_matrixForms_of_sMode (h : s.OnCrew t c) (hm : t.sMode = true) (rd a b x : Reg) (n : BitVec 4) (m : MxArgs)
    (d : DrnArgs) : ∀ i ∈ [Instr.mgHome, .mxMma m, .mxGmma m, .mxDrn d, .mxDrnZ d, .mxTake rd a n, .mxPass rd a b n,
      .mxTakeTk rd a b x n, .mxPassTk rd a n, .amGet rd a b, .amRel rd a b, .amZero a b, .epLoad rd a b,
      .epRun rd a b x x], exec i s = .next (s.trap 2 s.ibits) := by
  simp only [List.forall_mem_cons, List.not_mem_nil, false_imp_iff, implies_true, and_true]
  refine ⟨?_, ?_, ?_, ?_, ?_, ?_, ?_, ?_, ?_, ?_, ?_, ?_, ?_, ?_⟩ <;>
    simp [exec, execMgHome, execMxMma, execMxGmma, execMxDrn, execMxDrnZ, execMxTake, execMxPass, execMxTakeTk, execMxPassTk,
      execAmGet, execAmRel, execAmZero, execEpLoad, execEpRun, State.mxForm_of_sMode h hm, State.ctlForm_of_sMode h hm,
      State.drnForm_of_sMode h hm, State.onStrand_eq h.onStrand, State.onCrew_eq h, hm, State.illegal_eq]

/-- At depth 0 the handler forms, `sret` and `sfence.vma` are illegal instructions (R363, R372). -/
theorem exec_handlerForms_of_uMode (h : s.OnStrand t) (hm : t.sMode = false) (rd a b : Reg) :
    ∀ i ∈ [Instr.syPark rd, .syEnd rd, .syRec rd a b, .syTlbsd rd a b, .sret, .sfenceVma a b],
      exec i s = .next (s.trap 2 s.ibits) := by
  simp only [List.forall_mem_cons, List.not_mem_nil, false_imp_iff, implies_true, and_true]
  refine ⟨?_, ?_, ?_, ?_, ?_, ?_⟩ <;>
    simp only [exec, execSyPark, execSyEnd, execSyRec, execSyTlbsd, execSret, execSfenceVma, State.onAny_eq h.runs, h.cur,
      State.onS_of_uMode h hm]

end

end Sys2Proof.Machine

namespace Sys2Proof

open Machine

/-- Settles O35: each form's guard answers before anything of the state is looked at. -/
theorem modeChecks : Obligations.ModeChecks := by
  unfold Obligations.ModeChecks
  refine ⟨fun s t c rd a b x n m d h hm => ⟨exec_threadForms_of_sMode h hm rd a b, ?_, exec_matrixForms_of_sMode h hm rd a b x n m d⟩,
    fun s t rd a b h hm => exec_handlerForms_of_uMode h hm rd a b⟩
  exact (State.mxForm_of_sMode h hm 2 m).trans (by rw [if_pos rfl])

end Sys2Proof
end
section
/-! Two statements that fail: the memory that `fk.stop.rsm` writes, and a read of an image that two entries of the strand
list name. -/

namespace Sys2Proof.Refutations

open Sys2Proof.Machine

/-- A strand in issue in U-mode whose child slot 0 holds fleet 9; memory at 0 is mapped to itself and ready. -/
def forker : Strand :=
  { image := fetchImage, status := .resident, present := 0xFFFF
    ctx := sset (sset (sset (sset [] cPc (w64 fetchPc)) 10 0x3000) cChild 9) cSatp (w64 (10 * 2 ^ 60 + 0x10)) }

/-- The machine with these strands, the first of them in issue, and the page tables of `withFetchWord`. -/
def withStrands (l : List Strand) : State := { State.reset.withFetchWord 32 0x13 with strands := l }

/-- The crew of the strand in issue. -/
def forkerCrew : Crew :=
  { id := 0, cores := [0], save := fetchImage, live := [0], alloc := [0], hold := [0], holder := [0], holdCtr := [0] }

/-- Fleet 9 is in state 5. A strand of its crew is parked on the word at 0x3000: the watch has fired, and the line has become
poisoned since. -/
def poisonedWatch : State :=
  { withStrands [forker,
      { image := 0x50000, crew := 1, status := .parked, cond := .mem 0x3000 0x3000 0, woken := true, way := 0x200000
        ctx := sset [] cPc 8 }] with
    crews := (withStrands []).crews ++ [{ id := 1, fleet := 9 }]
    fleets := [{ handle := 9, crews := 1, nextC := 1, pre := true }]
    poison := [0xC0] }

/-- The pre-empted strand of image 0x3000 stands behind another entry of that name, which holds a line lost to an uncorrectable
error. -/
def twoOfOneImage : State :=
  withStrands [forker, { image := 0x3000, status := .parked, present := 1, ue := some 0 },
    { image := 0x3000, status := .preempted, present := 1 }]

/-- The memory that an instruction leaves. -/
def memAfter (o : Out) : Sparse 8 := match o with | .next s => s.mem | .fault _ => [] | .refused _ => []

/-- An access that goes through. -/
def isOk {α : Type} : Res α → Bool | .ok _ _ => true | .trap _ _ _ => false | .stall _ => false

/-- Whether an access of 8 bytes finds memory that can be read, in the sense of `State.Reads`. -/
def canRead (s : State) (va : Word) : Bool :=
  match s.locate s.cur .load va 8 with
  | .ok s1 (.mem ps) => ps.all fun p => !s1.blocked s.cur p.pa p.n false && !s1.poisonAt p.pa p.n && (s1.imagesAt p.pa p.n).all (·.ue = none)
  | .ok _ (.mmio _) => false
  | .trap _ _ _ => false
  | .stall _ => false

theorem reads_of_canRead {s : State} {va : Word} (h : canRead s va = true) : s.Reads va 8 := by
  unfold canRead at h
  split at h
  next s1 ps e =>
    simp only [List.all_eq_true, Bool.and_eq_true, Bool.not_eq_true', decide_eq_true_eq] at h
    refine ⟨s1, ps, ⟨e, ?_⟩, ?_, fun p hp => (h p hp).2⟩
    · simpa using fun p hp => (h p hp).1.1
    · simpa using fun p hp => (h p hp).1.2
  all_goals cases h

end Sys2Proof.Refutations

namespace Sys2Proof

open Machine Refutations

set_option maxRecDepth 100000

/-- Refutes O33: where the line of a watch that fired has become poisoned, `fk.stop.rsm` makes the wait begin again and writes the
address of the waiting instruction to the resume PC of the waypoint (R83, R438), so memory changes though no reduction is
buffered. -/
theorem not_forkForms : ¬ Obligations.ForkForms := by
  unfold Obligations.ForkForms
  intro h
  obtain ⟨-, hslot, -⟩ := h poisonedWatch forker forkerCrew 0 0 0 ⟨by decide, by decide⟩ (by decide)
  obtain ⟨-, -, -, -, s', hexec, -, hmem, -⟩ := hslot (by decide) (by decide)
  have hkept : memAfter (exec (.fkStopRsm 0 0) poisonedWatch) = poisonedWatch.mem := by
    rw [hexec]
    exact (by simp [memAfter, State.retX] : _ = s'.mem).trans (hmem rfl)
  exact absurd hkept (by decide)

/-- Refutes O34: a load at 0x3000 reads the image of a pre-empted strand, whose lines are written back first; the line that is
written is that of the first entry of this image, which is lost, and so the load of `th.park.mem` finds poison. -/
theorem not_parkForms : ¬ Obligations.ParkForms := by
  unfold Obligations.ParkForms
  intro h
  obtain ⟨-, -, -, -, hmem, -⟩ := h twoOfOneImage forker 0 10 0 0 (show State.curStrand _ = _ by decide) (by decide)
  obtain ⟨s', v, hload, -⟩ := hmem (by decide) (reads_of_canRead (by decide))
  have hfails : isOk (twoOfOneImage.load (twoOfOneImage.x 10) 8) = false := by decide
  rw [hload] at hfails
  cases hfails

end Sys2Proof
end
section
/-! What an access by the hardware leaves as it was. Accesses, write-backs of context lines, merges of reductions and
deliveries of replica updates all keep to one frame, `MemStep`; it is transitive, so each operation's lemma follows its
definition. -/

namespace Sys2Proof.Machine

/-- A strand but for what an access by others may change of it: context words, the lines that stand in the register cache, the
reservation. -/
def Strand.bare (t : Strand) : Strand := { t with ctx := [], present := 0, resv := none }

/-- The address of the register that counts page-class changes (R185): the one register that an access writes. -/
def classCount : Nat := attrBase + 0x18

namespace State

/-- From `s` to `s'` memory, what the hardware holds of it, and the strands' contexts may have changed, and the count of page-class
changes; nothing else. -/
structure MemStep (s s' : State) : Prop where
  only : s' = { s with
    draws := s'.draws, mem := s'.mem, poison := s'.poison, owners := s'.owners, pct := s'.pct, mmio := s'.mmio
    strands := s'.strands, lcores := s'.lcores, cores := s'.cores, ncs := s'.ncs, ibuf := s'.ibuf, rbuf := s'.rbuf
    holds := s'.holds, replicas := s'.replicas, pats := s'.pats, hwq := s'.hwq, lru := s'.lru, dir := s'.dir
    snoop := s'.snoop }
  strands : s'.strands.map Strand.bare = s.strands.map Strand.bare
  mmio : ∃ vs : List Word, s'.mmio = vs.foldl (fun m v => sset m classCount v) s.mmio

variable {s s' s'' : State}

namespace MemStep

theorem refl (s : State) : s.MemStep s := ⟨rfl, rfl, [], rfl⟩

theorem trans (h : s.MemStep s') (h' : s'.MemStep s'') : s.MemStep s'' := by
  obtain ⟨vs, hv⟩ := h.mmio
  obtain ⟨ws, hw⟩ := h'.mmio
  refine ⟨?_, h'.strands.trans h.strands, vs ++ ws, by rw [hw, hv, List.foldl_append]⟩
  have e := h'.only
  rw [h.only] at e
  exact e

theorem foldl {α : Type} {f : State → α → State} (hf : ∀ (s : State) (x : α), s.MemStep (f s x)) (l : List α) (s : State) :
    s.MemStep (l.foldl f s) := by
  induction l generalizing s with
  | nil => exact refl s
  | cons x l ih => exact (hf s x).trans (ih _)

theorem ite {c : Prop} [Decidable c] {a b : State} (ha : s.MemStep a) (hb : s.MemStep b) : s.MemStep (if c then a else b) := by
  split
  · exact ha
  · exact hb

/-! ### What such a step keeps -/

theorem crews (h : s.MemStep s') : s'.crews = s.crews := by rw [h.only]
theorem fleets (h : s.MemStep s') : s'.fleets = s.fleets := by rw [h.only]
theorem frames (h : s.MemStep s') : s'.frames = s.frames := by rw [h.only]
theorem allocs (h : s.MemStep s') : s'.allocs = s.allocs := by rw [h.only]
theorem notices (h : s.MemStep s') : s'.notices = s.notices := by rw [h.only]
theorem fwdq (h : s.MemStep s') : s'.fwdq = s.fwdq := by rw [h.only]
theorem engine (h : s.MemStep s') : s'.engine = s.engine := by rw [h.only]
theorem crew? (h : s.MemStep s') (i : Nat) : s'.crew? i = s.crew? i := by unfold State.crew?; rw [h.crews]
theorem owed (h : s.MemStep s') (k : Nat) (p : Reg → Bool) : s'.owed k p = s.owed k p := by
  unfold State.owed; rw [h.engine]

end MemStep

/-! ### The strands of a list, but for what accesses change -/

theorem kfind_map_bare (l : List Strand) (k : Nat) :
    kfind (·.image) (l.map Strand.bare) k = (kfind (·.image) l k).map Strand.bare := by
  unfold kfind
  rw [List.find?_map]
  rfl

/-- A strand is there after such a step, and but for its context and reservation it is as it was. -/
theorem MemStep.strand? (h : s.MemStep s') {k : Nat} {t : Strand} (ht : s.strand? k = some t) :
    ∃ u, s'.strand? k = some u ∧ u.bare = t.bare := by
  have e := kfind_map_bare s'.strands k
  rw [h.strands, kfind_map_bare] at e
  have hk : (s'.strand? k).map Strand.bare = some t.bare := e.symm.trans (congrArg (Option.map Strand.bare) ht)
  exact Option.map_eq_some_iff.1 hk

theorem bare_modStrand {k : Nat} {f : Strand → Strand} (hf : ∀ t, (f t).bare = t.bare) :
    (s.modStrand k f).strands.map Strand.bare = s.strands.map Strand.bare := by
  show (s.strands.map fun x => if x.image = k then f x else x).map Strand.bare = _
  rw [List.map_map]
  refine List.map_congr_left fun t _ => ?_
  simp only [Function.comp_apply]
  split
  · exact hf t
  · rfl

/-- An update of a strand's context, lines or reservation. -/
theorem memStep_modStrand (s : State) (k : Nat) {f : Strand → Strand} (hf : ∀ t, (f t).bare = t.bare) :
    s.MemStep (s.modStrand k f) :=
  ⟨rfl, bare_modStrand hf, [], rfl⟩

/-! ### Merges and deliveries -/

theorem deliver_memStep (s : State) (p : Replica → Bool) : s.MemStep (s.deliver p) := by
  unfold deliver
  split
  · exact .refl s
  · exact ⟨rfl, rfl, [], rfl⟩

theorem drain_memStep (s : State) (k : Nat) : s.MemStep (s.drain k) := s.deliver_memStep _

theorem patNote_memStep (s : State) (pa : Nat) (data : List Byte) : s.MemStep (s.patNote pa data) := by
  unfold patNote
  extract_lets
  split
  · exact .refl s
  · exact ⟨rfl, rfl, [], rfl⟩

theorem pokeRaw_memStep (s : State) (keep : Nat → Bool) (attr writer pa : Nat) (data : List Byte) :
    s.MemStep (s.pokeRaw keep attr writer pa data) := by
  refine (s.patNote_memStep pa data).trans ⟨rfl, ?_, [], rfl⟩
  show (List.map _ _).map Strand.bare = _
  rw [List.map_map]
  refine List.map_congr_left fun t _ => ?_
  simp only [Function.comp_apply]
  split <;> (try split) <;> rfl

theorem raceWord_memStep (s : State) (old : Sparse 8) (w : Nat × Nat) : s.MemStep (s.raceWord old w) := by
  have hset (s : State) (v : Word) : s.MemStep (s.modStrand w.1 fun t =>
      if t.present.getLsbD (w.2 / 8) then t.setCw w.2 (imageWord w.2 (t.cw w.2) v) else t) :=
    s.memStep_modStrand _ fun t => by split <;> rfl
  have hmem (s : State) (m : Sparse 8) : s.MemStep { s with mem := m } := ⟨rfl, rfl, [], rfl⟩
  have hdraw (s : State) (n : Nat) : s.MemStep { s with draws := n } := ⟨rfl, rfl, [], rfl⟩
  unfold raceWord drawBit
  dsimp only
  refine (hdraw s (s.draws + 1 + 1)).trans ?_
  refine .ite (.trans (.ite (hset _ _) (.refl _)) (hmem _ _)) (.ite (hset _ _) (.refl _))

theorem poke_memStep (s : State) (keep : Nat → Bool) (attr writer pa : Nat) (data : List Byte) :
    s.MemStep (s.poke keep attr writer pa data) :=
  (s.pokeRaw_memStep ..).trans (.foldl (fun s' w => s'.raceWord_memStep s.mem w) _ _)

theorem recordLater_memStep (s : State) (core : Nat) (r : FaultRec) : s.MemStep (s.recordLater core r) := by
  unfold recordLater
  split
  · exact .refl s
  · exact ⟨rfl, rfl, [], rfl⟩

theorem mergeVal_memStep (s : State) (e : RedEntry) (ov : Nat × Nat) : s.MemStep (s.mergeVal e ov) := s.poke_memStep ..

theorem mergeEntry_memStep (s : State) (e : RedEntry) (evc : Bool) : s.MemStep (s.mergeEntry e evc) := by
  have howners (s : State) (o : Sparse 64) : s.MemStep { s with owners := o } := ⟨rfl, rfl, [], rfl⟩
  unfold mergeEntry
  extract_lets s1 s2 s3
  have h2 : s.MemStep s2 := ⟨rfl, rfl, [], rfl⟩
  exact h2.trans (.ite (s2.recordLater_memStep ..) (.trans (.foldl (fun s ov => s.mergeVal_memStep e ov) _ _) (howners _ _)))

theorem mergeWhere_memStep (s : State) (p : RedEntry → Bool) : s.MemStep (s.mergeWhere p) :=
  .foldl (fun s e => s.mergeEntry_memStep e false) _ _

theorem mergeLines_memStep (s : State) (pa n : Nat) : s.MemStep (s.mergeLines pa n) :=
  .ite (.refl s) (s.mergeWhere_memStep _)

theorem mergeStrand_memStep (s : State) (k : Nat) : s.MemStep (s.mergeStrand k) := by
  unfold mergeStrand
  split
  · exact .refl s
  · exact s.mergeWhere_memStep _

/-! ### Accesses of the hardware -/

theorem patOpen_memStep (s : State) (pa : Nat) : s.MemStep (s.patOpen pa) := by
  unfold patOpen
  split
  · exact .refl s
  · exact .ite (s.mergeLines_memStep ..) (.refl s)

theorem classify_memStep (s : State) (n pa attr : Nat) : s.MemStep (s.classify n pa attr) := by
  have hpct (s : State) (p : Sparse 8) : s.MemStep { s with pct := p } := ⟨rfl, rfl, [], rfl⟩
  have hcount (s : State) (p : Sparse 8) (l : List NcLine) (v : Word) :
      s.MemStep { s with pct := p, ncs := l, mmio := sset s.mmio classCount v } := ⟨rfl, rfl, [v], rfl⟩
  unfold classify
  split
  · exact .refl s
  · exact .refl s
  · exact .refl s
  · exact .ite (hpct _ _) (.ite (.refl s) ((s.mergeWhere_memStep _).trans (hcount _ _ _ _)))

theorem dirLine_memStep (s : State) (who line : Nat) (write : Bool) : s.MemStep (s.dirLine who line write) := by
  unfold dirLine
  exact .ite ⟨rfl, rfl, [], rfl⟩ (.ite (.refl s) ⟨rfl, rfl, [], rfl⟩)

theorem dirTouch_memStep (s : State) (who pa n : Nat) (write : Bool) : s.MemStep (s.dirTouch who pa n write) :=
  .foldl (fun s l => s.dirLine_memStep who l write) _ _

theorem hwOpen_memStep (s : State) (n pa len : Nat) (write : Bool) : s.MemStep (s.hwOpen n pa len write) :=
  (((s.patOpen_memStep pa).trans (classify_memStep _ _ _ _)).trans (mergeLines_memStep _ _ _)).trans (dirTouch_memStep _ _ _ _ _)

/-- The acts that may follow a write within such a step: all but the end of an invalidation. -/
theorem hwThen_memStep (s : State) {a : HwAct} (ha : ∀ i, a ≠ .inval i) : s.MemStep (s.hwThen a) := by
  cases a with
  | none => exact .refl s
  | record core => exact ⟨rfl, rfl, [], rfl⟩
  | inval i => exact absurd rfl (ha i)
  | lost line => exact ⟨rfl, rfl, [], rfl⟩

theorem hwDo_memStep (s : State) {w : HwWrite} (hw : ∀ i, w.act ≠ .inval i) : s.MemStep (s.hwDo w) := by
  unfold hwDo
  extract_lets n s1 s2
  exact ((s.hwOpen_memStep ..).trans (s1.pokeRaw_memStep ..)).trans
    ((MemStep.ite (s2.deliver_memStep _) (.refl _)).trans (hwThen_memStep _ hw))

theorem hwPut_memStep (s : State) {w : HwWrite} (hw : ∀ i, w.act ≠ .inval i) : s.MemStep (s.hwPut w) := by
  have hq (s : State) : s.MemStep { s with hwq := s.hwq ++ [w] } := ⟨rfl, rfl, [], rfl⟩
  unfold hwPut
  split
  · exact .ite (hq s) (s.hwDo_memStep hw)
  · exact hq s
  · exact s.hwThen_memStep hw

theorem hwWrite_memStep (s : State) (n pa : Nat) (data : List Byte) : s.MemStep (s.hwWrite n pa data) :=
  s.hwPut_memStep fun _ e => by cases e

theorem faultRecord_memStep (s : State) (core : Nat) (r : FaultRec) : s.MemStep (s.faultRecord core r) := by
  unfold faultRecord
  split
  next => exact .refl s
  next w e =>
    refine s.hwPut_memStep fun i hi => ?_
    unfold recordWrite at e
    dsimp only at e
    split at e
    · cases e
    · cases e; cases hi

/-! ### Context lines -/

theorem writeLine_memStep (s : State) (k : Nat) (drop : Bool) (line : Nat) : s.MemStep (s.writeLine k drop line) := by
  have hlru (s : State) (l : List (Nat × Nat)) : s.MemStep { s with lru := l } := ⟨rfl, rfl, [], rfl⟩
  unfold writeLine
  split
  · exact .refl s
  · refine .ite ?_ (.refl s)
    refine (s.hwPut_memStep ?_).trans (.ite ((memStep_modStrand _ _ ?_).trans (hlru _ _)) (.refl _))
    · intro i hi
      dsimp only at hi
      split at hi <;> cases hi
    · exact fun _ => rfl

theorem imageRead_memStep (s : State) (pa n : Nat) : s.MemStep (s.imageRead pa n) := by
  have hdraw (s : State) (n : Nat) : s.MemStep { s with draws := n } := ⟨rfl, rfl, [], rfl⟩
  exact .foldl (fun s t => .ite (.foldl (fun s i => s.writeLine_memStep ..) _ _) (hdraw _ _)) _ _

theorem useLine_memStep (s : State) (k line : Nat) : s.MemStep (s.useLine k line) := ⟨rfl, rfl, [], rfl⟩

theorem evictOne_memStep (s : State) (core : Nat) : s.MemStep (s.evictOne core) := by
  unfold evictOne
  extract_lets
  split
  · exact s.writeLine_memStep ..
  · exact .refl s

theorem bare_setCw (t : Strand) (i : Nat) (v : Word) : (t.setCw i v).bare = t.bare := rfl

theorem bare_setCbits (t : Strand) (i h l v : Nat) : (t.setCbits i h l v).bare = t.bare := rfl

theorem bare_setDepth (t : Strand) (d : Nat) : (t.setDepth d).bare = t.bare := rfl

theorem bare_foldl_setCw {l : List Nat} {f : Strand → Nat → Word} (t : Strand) :
    (l.foldl (fun t i => t.setCw i (f t i)) t).bare = t.bare := by
  induction l generalizing t with
  | nil => rfl
  | cons i l ih => exact ih _

/-- What the register cache takes of a line is context. -/
theorem bare_present (t : Strand) (p : BitVec 16) : ({ t with present := p } : Strand).bare = t.bare := rfl

theorem fetchLine_memStep (s : State) (k line : Nat) : s.MemStep (s.fetchLine k line) := by
  unfold fetchLine
  extract_lets s1
  refine (s.useLine_memStep k line).trans ?_
  split
  · exact .refl _
  · refine .ite (.refl _) (((evictOne_memStep _ _).trans (hwOpen_memStep ..)).trans (memStep_modStrand _ _ fun t => ?_))
    rw [bare_present, bare_setDepth, bare_foldl_setCw]

theorem fetchLines_memStep (s : State) (k : Nat) (ls : List Nat) : s.MemStep (s.fetchLines k ls) :=
  .foldl (fun s i => s.fetchLine_memStep k i) _ _

theorem fetchClean_memStep (s : State) (k : Nat) (ls : List Nat) : s.MemStep (s.fetchClean k ls) := s.fetchLines_memStep ..

theorem writeBack_memStep (s : State) (k : Nat) (drop : Bool) : s.MemStep (s.writeBack k drop) :=
  (s.fetchClean_memStep k [8, 10]).trans (.foldl (fun s i => s.writeLine_memStep k drop i) _ _)

theorem fillLines_memStep (s : State) (k : Nat) : s.MemStep (s.fillLines k) := by
  unfold fillLines
  split
  · exact .refl s
  next t _ =>
    extract_lets s1
    have hroom : s.MemStep s1 := .foldl (fun s i => by
      split
      · exact .refl s
      · exact s.evictOne_memStep _) _ _
    have hfull := s1.memStep_modStrand k (f := fun t => { t with present := 0xFFFF }) fun t => bare_present t _
    exact (hroom.trans hfull).trans (MemStep.foldl (f := fun s i => s.useLine k i) (fun s i => s.useLine_memStep k i) _ _)

theorem giveX_memStep (s : State) (k : Nat) (rd : Reg) (v : Word) : s.MemStep (s.giveX k rd v) := by
  have hset (s : State) : s.MemStep (s.modStrand k fun t => t.setCw rd.toNat v) := s.memStep_modStrand k fun _ => rfl
  unfold giveX
  extract_lets line
  split
  · exact .refl s
  · refine .ite (.refl s) (.ite (hset s) (.ite (.refl s) ?_))
    have hfetch := (s.fetchLine_memStep k line).trans (hset _)
    exact .ite hfetch (hfetch.trans (writeLine_memStep _ _ _ _))

theorem bumpRsm_memStep (s : State) (k : Nat) : s.MemStep (s.bumpRsm k) :=
  .ite (.refl s) ((s.fetchLine_memStep k 10).trans (memStep_modStrand _ k fun _ => rfl))

/-! ### Slots -/

theorem endHold_memStep (s : State) (k : Nat) : s.MemStep (s.endHold k) := ⟨rfl, rfl, [], rfl⟩

theorem ncPoint_memStep (s : State) (core : Nat) : s.MemStep (s.ncPoint core) := ⟨rfl, rfl, [], rfl⟩

theorem dropIbuf_memStep (s : State) (a : Agent) : s.MemStep (s.dropIbuf a) := ⟨rfl, rfl, [], rfl⟩

theorem follow_memStep (s : State) (a b : Nat) : s.MemStep (s.follow a b) := .ite (.refl s) (s.deliver_memStep _)

theorem releasedBy_memStep (s : State) (t : Strand) : s.MemStep (s.releasedBy t) := by
  unfold releasedBy
  extract_lets
  split
  · exact s.deliver_memStep _
  · exact s.deliver_memStep _
  · exact .refl s

end State

end Sys2Proof.Machine
end
section
/-! Migration (R63 to R67): departures from an L-core, the pool change of a W-core, the end of a strand at home. -/

namespace Sys2Proof.Machine

namespace State

variable {s s' : State} {t u : Strand} {c : Crew}

/-! ### Registers are kept by merges and deliveries -/

theorem foldl_keeps {α β : Type} {p : State → β} {f : State → α → State} (hf : ∀ (s : State) (x : α), p (f s x) = p s)
    (l : List α) (s : State) : p (l.foldl f s) = p s := by
  induction l generalizing s with
  | nil => rfl
  | cons x l ih => exact (ih _).trans (hf s x)

theorem deliver_mmio (s : State) (p : Replica → Bool) : (s.deliver p).mmio = s.mmio := by
  unfold deliver; split <;> rfl

theorem recordLater_mmio (s : State) (core : Nat) (r : FaultRec) : (s.recordLater core r).mmio = s.mmio := by
  unfold recordLater; split <;> rfl

theorem raceWord_mmio (s : State) (old : Sparse 8) (w : Nat × Nat) : (s.raceWord old w).mmio = s.mmio := by
  unfold raceWord drawBit
  dsimp only
  split <;> split <;> rfl

theorem pokeRaw_mmio (s : State) (keep : Nat → Bool) (attr writer pa : Nat) (data : List Byte) :
    (s.pokeRaw keep attr writer pa data).mmio = s.mmio := by
  show (s.patNote pa data).mmio = s.mmio
  unfold patNote
  extract_lets
  split <;> rfl

theorem poke_mmio (s : State) (keep : Nat → Bool) (attr writer pa : Nat) (data : List Byte) :
    (s.poke keep attr writer pa data).mmio = s.mmio :=
  (foldl_keeps (p := State.mmio) (fun s' w => s'.raceWord_mmio s.mem w) _ _).trans (s.pokeRaw_mmio ..)

theorem mergeEntry_mmio (s : State) (e : RedEntry) (evc : Bool) : (s.mergeEntry e evc).mmio = s.mmio := by
  unfold mergeEntry
  extract_lets s1 s2 s3
  have h3 : s3.mmio = s.mmio := foldl_keeps (p := State.mmio) (fun s _ => s.poke_mmio ..) _ s2
  split
  · exact s2.recordLater_mmio ..
  · exact h3

theorem mergeLines_mmio (s : State) (pa n : Nat) : (s.mergeLines pa n).mmio = s.mmio := by
  unfold mergeLines
  split
  · rfl
  · exact foldl_keeps (fun s e => s.mergeEntry_mmio e false) _ _

theorem prioCap_congr (h : s'.mmio = s.mmio) (d : Nat) : s'.prioCap d = s.prioCap d := by
  unfold prioCap reg; rw [h]

theorem alloc_mmio {d n align a : Nat} (h : s.alloc d n align = some (a, s')) : s'.mmio = s.mmio := by
  unfold alloc at h
  split at h
  · cases h
  · cases h; rfl

/-! ### A strand that gives its slot away, and a crew that retires an instruction -/

/-- A strand after an update, with the context that `bare` sets aside. -/
theorem strand?_modStrand_same {k : Nat} {f : Strand → Strand} (hf : ∀ t, (f t).image = t.image) (h : s.strand? k = some t) :
    (s.modStrand k f).strand? k = some (f t) := by
  rw [strand?_modStrand hf, if_pos rfl, h]; rfl

/-- A strand that gives its slot away is there still, with the new status. -/
theorem releaseSlot_strand? {k : Nat} (st : SStatus) (h : s.strand? k = some t) :
    ∃ u, (s.releaseSlot k st).strand? k = some u ∧
      u.bare = { t.bare with status := st, marks := [], sent := [], wait := .none } := by
  have hm := ((s.mergeStrand_memStep k).trans (drain_memStep _ k)).trans (endHold_memStep _ k)
  obtain ⟨v, hv, hb⟩ := hm.strand? h
  refine ⟨_, strand?_modStrand_same (fun _ => rfl) hv, ?_⟩
  rw [← hb]
  rfl

theorem releaseSlot_crews (s : State) (k : Nat) (st : SStatus) : (s.releaseSlot k st).crews = s.crews :=
  (((s.mergeStrand_memStep k).trans (drain_memStep _ k)).trans (endHold_memStep _ k)).crews

theorem retX_crews (s : State) (rd : Reg) (v : Word) : (s.retX rd v).crews = s.crews := by
  unfold retX retire
  rw [retired_crews, setPc_crews, setX_crews]

theorem crewOf_id (h : s.crewOf t = some c) : c.id = t.crew := (kfind_some h).1

/-- The strand in issue after it has answered: a register, the pc and what counts retirements may have changed. -/
theorem OnStrand.retX_strand? (h : s.OnStrand t) (rd : Reg) (v : Word) :
    ∃ u, (s.retX rd v).strand? t.image = some u := by
  obtain ⟨u, hu, -, e⟩ := (h.setX rd v).retire
  have hi : u.image = t.image := by rw [e]; split <;> rfl
  exact ⟨u, hi ▸ hu.strand?⟩

/-! ### `mg.go` and `mg.home` -/

theorem crew?_modCrew_same {k : Nat} {f : Crew → Crew} (hf : ∀ c, (f c).id = c.id) (h : s.crew? k = some c) :
    (s.modCrew k f).crew? k = some (f c) := by
  rw [crew?_modCrew hf, if_pos rfl, h]; rfl

theorem strand?_modCrew (s : State) (n k : Nat) (f : Crew → Crew) : (s.modCrew n f).strand? k = s.strand? k := rfl

/-- A strand whose context changes and that then leaves its slot is there with the new status; crews stay as they are. -/
theorem strand?_leave {k n : Nat} {f : Strand → Strand} (hf : ∀ t, (f t).bare = t.bare) (st : SStatus)
    (ht : s.strand? k = some t) (hc : s.crew? n = some c) :
    let s' := (((s.clearMarks k).modStrand k f).writeBack k true).releaseSlot k st
    (∃ u, s'.strand? k = some u ∧ u.status = st) ∧ s'.crew? n = some c := by
  have ht1 : (s.clearMarks k).strand? k = some { t with marks := [] } := strand?_modStrand_same (fun _ => rfl) ht
  have hm := ((s.clearMarks k).memStep_modStrand k hf).trans (writeBack_memStep _ k true)
  obtain ⟨t2, ht2, -⟩ := hm.strand? ht1
  obtain ⟨u, hu, hb⟩ := releaseSlot_strand? st ht2
  refine ⟨⟨u, hu, congrArg Strand.status hb⟩, ?_⟩
  unfold crew?
  rw [releaseSlot_crews, hm.crews]
  exact hc

/-- The pool change of a thread that holds no children, once nothing forbids it (R66). -/
theorem goW_changes_pool (h : s.OnCrew t c) (hs : t.sMode = false) (hf : c.fleet = 0) (hch : anyChild t = false) {rd a : Reg}
    (hw : poolWordOk (s.x a) = true) (he : s.eligible c.die (wbits (s.x a) 1 0) = true)
    (ho : s.owed t.image (fun _ => true) = false) :
    ∃ (s' : State) (c' : Crew) (u : Strand), s.goW t c rd a = .next s' ∧ s'.crew? c.id = some c' ∧
      c'.cls = wbits (s.x a) 1 0 ∧ c'.cores = [] ∧ c'.wd = 0 ∧ s'.strand? t.image = some u ∧ u.status = .waiting := by
  obtain ⟨t1, ht1⟩ := h.onStrand.retX_strand? rd 0
  have hc1 : (s.retX rd 0).crew? c.id = some c := by
    unfold crew?
    rw [retX_crews, crewOf_id h.2]
    exact h.2
  simp only [goW, hs, hf, hch, hw, he, ho, ne_eq, not_true, decide_false, Bool.or_self, Bool.false_eq_true, if_false, Bool.not_true,
    status_eq]
  obtain ⟨⟨u, hu, hst⟩, hc4⟩ := strand?_leave
    (f := fun u => (u.setCbits cSid 31 24 (min (wbits (s.x a) 10 8) ((s.retX rd 0).prioCap c.die))).setCbits cSid 39 32
      (wbits (s.x a) 1 0))
    (fun u => by rw [bare_setCbits, bare_setCbits]) .waiting (s := (s.retX rd 0).fresh.2) ht1 hc1
  generalize ((((s.retX rd 0).fresh.2.clearMarks t.image).modStrand t.image _).writeBack t.image true).releaseSlot t.image
    .waiting = s4 at *
  refine ⟨_, _, u, rfl, crew?_modCrew_same (fun _ => rfl) hc4, ?_, ?_, ?_, (strand?_modCrew ..).trans hu, hst⟩
  all_goals rfl

/-- With nothing left to wait for, `mg.home` goes on to the strand's end (R67, R101). -/
theorem homeGo_eq_homeEnd {k : Nat} (hu : s.strand? k = some u) (hc : s.crewOf u = some c) (hdone : s.childrenDone u = true)
    (hch : anyChild u = false) (hb : u.batCount = 0) (ho : s.owed k (fun _ => true) = false) : s.homeGo k = s.homeEnd u c := by
  simp only [homeGo, hu, hc, ho, hdone, hch, hb, Bool.false_eq_true, if_false, Bool.not_true, ne_eq, not_true]

end State

end Sys2Proof.Machine

namespace Sys2Proof

open Machine

/-- Settles O32: each form's checks pass, and what a merge or a delivery leaves of registers and strands gives the rest. -/
theorem migration : Obligations.Migration := by
  unfold Obligations.Migration
  refine ⟨fun s rd a => ⟨?_, ?_, ?_⟩, ?_⟩
  · intro i f h hm hw hf m
    have hcap : m.prioCap f.die = s.prioCap f.die :=
      State.prioCap_congr ((State.deliver_mmio _ _).trans (s.mergeLines_mmio _ _)) _
    have hcap' := State.prioCap_congr (s.mergeLines_mmio f.image 1024) f.die
    simp only [exec, execMgGo, State.onAny_eq h.runs, h.1, State.goL, hm, hw, hf, Bool.not_true, Bool.false_eq_true, if_false]
    rw [hcap']
    rfl
  · intro i d k s' h hm hw hf hd ha
    simp only [exec, execMgGo, State.onAny_eq h.runs, h.1, State.goL, hm, hw, hf, hd, ha, Bool.not_true, Bool.false_eq_true, if_false]
    rw [State.prioCap_congr (State.alloc_mmio ha)]
    rfl
  · intro t c h hs hf hch hw he ho
    simp only [exec, execMgGo, State.onAny_eq h.onStrand.runs, h.onStrand.cur, State.onCrew_eq h]
    exact State.goW_changes_pool h hs hf hch hw he ho
  · intro s t c h hs s1
    have hexec : exec .mgHome s = .next (s1.homeGo t.image) := by
      simp only [exec, execMgHome, State.onStrand_eq h.onStrand, hs, Bool.false_eq_true, if_false]
      rfl
    refine ⟨hexec, fun u hu hdone hch hb ho => ?_⟩
    have hut : u = { t with wlen := s.ilen } :=
      Option.some.inj (hu.symm.trans (State.strand?_modStrand_same (fun _ => rfl) h.onStrand.strand?))
    have hc : s1.crewOf u = some c := by rw [hut]; exact h.2
    rw [hexec, State.homeGo_eq_homeEnd hu hc hdone hch hb ho]

end Sys2Proof
end
section
/-! The steps of the issue logic on one strand (R55, R87 to R91, R101): which registers an access leaves as they were, what a strand
that parks keeps, and what a strand that resumes has. -/

namespace Sys2Proof.Machine

/-! ### Entries of a list by a key -/

theorem minBy_eq_none {α : Type} {key : α → Nat} {l : List α} : minBy key l = none ↔ l = [] := by
  cases l with
  | nil => simp [minBy]
  | cons x t =>
    simp only [minBy, reduceCtorEq, iff_false]
    split
    · simp
    · split <;> simp

theorem minBy_mem {α : Type} {key : α → Nat} {l : List α} {x : α} (h : minBy key l = some x) : x ∈ l := by
  induction l generalizing x with
  | nil => simp [minBy] at h
  | cons y t ih =>
    simp only [minBy] at h
    split at h
    · cases h; simp
    · next z hz =>
      split at h <;> cases h
      · exact List.mem_cons_of_mem _ (ih hz)
      · simp

/-! ### What a storage write leaves, whatever the order of its keys -/

theorem sget_sset_gt {w : Nat} (m : Sparse w) {K n : Nat} (v : BitVec w) (h : K < n) : sget (sset m K v) n = sget m n := by
  induction m with
  | nil =>
    unfold sset
    split
    · rfl
    · simp only [sget, if_neg (Nat.ne_of_gt h), if_neg (Nat.lt_asymm h)]
  | cons e t ih =>
    obtain ⟨k, x⟩ := e
    have hne : n ≠ K := Nat.ne_of_gt h
    have hlt : ¬ n < K := Nat.lt_asymm h
    simp only [sset]
    split
    · split
      · rfl
      · simp only [sget, if_neg hne, if_neg hlt]
    · split
      · next hk =>
        subst hk
        split <;> simp only [sget, if_neg hne, if_neg hlt]
      · simp only [sget, ih]

/-- A key below the one written keeps its reading where a key from there to the one written has an entry. -/
theorem sget_sset_lt {w : Nat} (m : Sparse w) {K n n' : Nat} (v : BitVec w) (hn : n ≤ n') (h : n' < K) (h0 : sget m n' ≠ 0) :
    sget (sset m K v) n = sget m n := by
  induction m with
  | nil => exact absurd rfl h0
  | cons e t ih =>
    obtain ⟨k, x⟩ := e
    have hk : k ≤ n' := by
      by_contra hk
      exact h0 (by simp only [sget, if_neg (by omega : n' ≠ k), if_pos (by omega : n' < k)])
    simp only [sset, if_neg (by omega : ¬ K < k), if_neg (by omega : K ≠ k), sget]
    split
    · rfl
    · split
      · rfl
      · refine ih fun h0' => h0 ?_
        simp only [sget, if_neg (by omega : n' ≠ k), if_neg (by omega : ¬ n' < k), h0']

namespace State

variable {s s' : State} {t u : Strand} {c : Crew} {k n : Nat}

/-- A register keeps its reading over such a step where one from there on, short of the count of class changes, is not zero. -/
theorem MemStep.reg_of_ne_zero (h : s.MemStep s') {a b : Nat} (hab : a ≤ b) (hK : classCount < a ∨ b < classCount) (hb : s.reg b ≠ 0) :
    s'.reg a = s.reg a := by
  obtain ⟨vs, hv⟩ := h.mmio
  have key : ∀ (vs : List Word) (m : Sparse 64), sget m b ≠ 0 →
      sget (vs.foldl (fun m v => sset m classCount v) m) a = sget m a := by
    intro vs
    induction vs with
    | nil => exact fun _ _ => rfl
    | cons v vs ih =>
      intro m hm
      have hone (x : Nat) (hxb : x ≤ b) (hax : a ≤ x) : sget (sset m classCount v) x = sget m x := by
        rcases hK with hK | hK
        · exact sget_sset_gt m v (by omega)
        · exact sget_sset_lt m v hxb hK hm
      rw [List.foldl_cons, ih _ (by rw [hone b (Nat.le_refl _) hab]; exact hm), hone a hab (Nat.le_refl _)]
  unfold reg
  rw [hv]
  exact key vs s.mmio hb

/-! ### Room in a strand store -/

/-- The registers of a dispatcher block that give a store its place do not lie around the count of class changes. -/
theorem classCount_off_store (d : Nat) : classCount < dieReg dispBase d 0 ∨ dieReg dispBase d 0x08 < classCount := by
  unfold classCount dieReg attrBase dispBase
  omega

theorem storeSize_ne_zero_of_low {d n align a : Nat} (hn : 0 < n) (h : s.storeLow d n align = some a) : s.storeSize d ≠ 0 := by
  have hf := List.of_mem_filter (minBy_mem h)
  simp only [storeFits, Bool.and_eq_true, decide_eq_true_eq] at hf
  omega

theorem MemStep.storeLow_isSome (h : s.MemStep s') {d n align : Nat} (hn : 0 < n) (hs : (s.storeLow d n align).isSome = true) :
    (s'.storeLow d n align).isSome = true := by
  obtain ⟨a, ha⟩ := Option.isSome_iff_exists.1 hs
  have hreg : s.reg (dieReg dispBase d 0x08) ≠ 0 := fun h0 =>
    storeSize_ne_zero_of_low hn ha (by simp [storeSize, h0, wbits, bits])
  have hle : dieReg dispBase d 0 ≤ dieReg dispBase d 0x08 := by unfold dieReg; omega
  have hK := classCount_off_store d
  have hbase : s'.storeBase d = s.storeBase d := by
    unfold storeBase; rw [h.reg_of_ne_zero hle hK hreg]
  have hsize : s'.storeSize d = s.storeSize d := by
    unfold storeSize; rw [h.reg_of_ne_zero (Nat.le_refl _) (hK.imp_left fun hK => by omega) hreg]
  have e : s'.storeLow d n align = s.storeLow d n align := by
    unfold storeLow storeAllocs
    simp only [storeFits, h.allocs, hbase, hsize]
  rw [e]; exact hs

theorem alloc_isSome {d n align : Nat} : (s.alloc d n align).isSome = (s.storeLow d n align).isSome := by
  unfold alloc
  cases s.storeLow d n align <;> rfl

theorem alloc_strand? {d n align a : Nat} (h : s.alloc d n align = some (a, s')) (k : Nat) : s'.strand? k = s.strand? k := by
  unfold alloc at h
  split at h
  · cases h
  · cases h; rfl

theorem MemStep.crewDie (h : s.MemStep s') (hb : u.bare = t.bare) : s'.crewDie u = s.crewDie t := by
  unfold State.crewDie
  have hc : u.crew = t.crew := (congrArg Strand.crew hb : u.bare.crew = t.bare.crew)
  rw [h.crew?, hc]

theorem MemStep.alloc_isSome (h : s.MemStep s') (hb : u.bare = t.bare) {n align : Nat} (hn : 0 < n)
    (ha : (s.alloc (s.crewDie t) n align).isSome = true) : (s'.alloc (s'.crewDie u) n align).isSome = true := by
  rw [State.alloc_isSome] at ha ⊢
  rw [h.crewDie hb]
  exact h.storeLow_isSome hn ha

/-! ### Parking -/

/-- A strand whose waypoint has been written is there, and holds what it parks on once its slot is given away (R87). -/
theorem strand?_park {f : Strand → Strand} {cd : Cond} {rd : Reg} (hi : ∀ t, (f t).image = t.image) (hcd : ∀ t, (f t).cond = cd)
    (hrd : ∀ t, (f t).crd = rd) (ht : s.strand? k = some t) (core w : Nat) (data : List Byte) :
    ∃ u, ((((((s.clearMarks k).hwWrite core w data).modStrand k fun t => t.setCw cWay (w64 w)).writeBack k true).modStrand k
        f).releaseSlot k .parked).strand? k = some u ∧ u.status = .parked ∧ u.cond = cd ∧ u.crd = rd := by
  have ht1 : (s.clearMarks k).strand? k = some { t with marks := [] } := strand?_modStrand_same (fun _ => rfl) ht
  have hm := (((s.clearMarks k).hwWrite_memStep core w data).trans
    (memStep_modStrand _ k (f := fun t => t.setCw cWay (w64 w)) fun t => bare_setCw t _ _)).trans (writeBack_memStep _ k true)
  obtain ⟨x, hx, -⟩ := hm.strand? ht1
  obtain ⟨u, hu, hb⟩ := releaseSlot_strand? .parked (strand?_modStrand_same hi hx)
  have hst : u.status = .parked := (congrArg Strand.status hb : u.bare.status = _)
  have hc : u.cond = (f x).cond := (congrArg Strand.cond hb : u.bare.cond = _)
  have hr : u.crd = (f x).crd := (congrArg Strand.crd hb : u.bare.crd = _)
  exact ⟨u, hu, hst, hc.trans (hcd x), hr.trans (hrd x)⟩

/-- A strand parks where what its waypoint keeps can be read and the store has room for it. -/
theorem parkOn_parks {rd : Reg} {cd : Cond} (ht : s.strand? k = some t) (hl : s.HasLines k [8])
    (hlive : ∀ v, (s.fetchLines k [8]).strand? k = some v →
      (s.fetchLines k [8]).HasLines k (liveLines (v.cbits cThctl 47 16)))
    (ho : s.owed k (fun _ => true) = false) (ha : (s.alloc (s.crewDie t) 192 64).isSome = true) :
    ∃ (s' : State) (u : Strand), s.parkOn k cd rd = some s' ∧ s'.strand? k = some u ∧ u.status = .parked ∧ u.cond = cd ∧
      u.crd = rd := by
  have hm1 : s.MemStep (s.fetchLines k [8]) := s.fetchLines_memStep k [8]
  obtain ⟨v, hv, -⟩ := hm1.strand? ht
  obtain ⟨hpo, hbu⟩ := hlive v hv
  have hm2 := hm1.trans (fetchLines_memStep _ k (liveLines (v.cbits cThctl 47 16)))
  obtain ⟨x, hx, hxt⟩ := hm2.strand? ht
  obtain ⟨⟨w, s3⟩, hs3⟩ := Option.isSome_iff_exists.1 (hm2.alloc_isSome hxt (by omega) ha)
  simp only [parkOn, hl.1, hl.2, hv, hpo, hbu, hx, hm2.owed, ho, hs3, Bool.false_eq_true, if_false]
  obtain ⟨u, hu, h⟩ := strand?_park (k := k) (cd := cd) (rd := rd) (s := s3) (f := fun t =>
      { t with
        ctx := sset (parkedCtx t (if cd = .home then x.cw cPc else x.cw cPc + w64 x.wlen)) cWay (w64 w)
        cond := cd, crd := rd, way := w, woken := false, again := false })
    (fun _ => rfl) (fun _ => rfl) (fun _ => rfl) ((alloc_strand? hs3 k).trans hx) x.core w
    (s3.clearMarks k |>.waypoint x (x.cw cPc + w64 x.wlen) cd rd)
  exact ⟨_, u, rfl, hu, h⟩

/-- STRAND_PARK at the end of the resident wait, with the condition still not met after the last test: where the home has no room
for the watch the strand stays and tests again, else it parks as `parkOn` says (R87, R89). -/
theorem strandPark_eq {t1 : Strand} {cd : Cond} {rd : Reg} {e : Nat} {full : Bool} {p : State} (ht : s.strand? k = some t)
    (hw : t.wait = .park cd rd e) (he : e ≤ s.cc t.core) (hm : t.sMode = false) (hp : t.pendStop = 0)
    (ht1 : (s.parkTest k).strand? k = some t1) (hw1 : t1.wait = .park cd rd e) (he1 : e ≤ (s.parkTest k).cc t1.core)
    (hm1 : t1.sMode = false) (hp1 : t1.pendStop = 0) (hf : (s.parkTest k).watchFull cd = (full, p)) :
    execStrandPark k s = .next (match (if full then none else p.parkOn k cd rd) with
      | some s => s
      | none => p.modStrand k fun t => { t with wait := .park cd rd (p.cc t.core + 1024) }) := by
  simp only [execStrandPark, ht, hw, he, hm, hp, ht1, hw1, he1, hm1, hp1, hf, decide_true, Bool.not_false, Bool.and_true, if_true]
    <;> rfl

theorem watchFull_strand? {cd : Cond} {full : Bool} {p : State} (h : s.watchFull cd = (full, p)) (k : Nat) :
    p.strand? k = s.strand? k := by
  have : p = (s.watchFull cd).2 := (congrArg Prod.snd h).symm
  rw [this]
  cases cd <;> rfl

/-! ### Resumption -/

/-- Strand `k` holds a slot of W-core `n`. -/
def SeatedAt (s : State) (k n : Nat) : Prop := ∃ u, s.strand? k = some u ∧ u.status = .resident ∧ u.core = n

theorem MemStep.seatedAt (h : s.MemStep s') (hs : s.SeatedAt k n) : s'.SeatedAt k n := by
  obtain ⟨u, hu, hst, hc⟩ := hs
  obtain ⟨v, hv, hb⟩ := h.strand? hu
  have hst' : v.status = u.status := (congrArg Strand.status hb : v.bare.status = _)
  have hc' : v.core = u.core := (congrArg Strand.core hb : v.bare.core = _)
  exact ⟨v, hv, hst'.trans hst, hc'.trans hc⟩

theorem SeatedAt.modStrand (hs : s.SeatedAt k n) {m : Nat} {f : Strand → Strand} (hi : ∀ t, (f t).image = t.image)
    (hst : ∀ t, (f t).status = t.status) (hc : ∀ t, (f t).core = t.core) : (s.modStrand m f).SeatedAt k n := by
  obtain ⟨u, hu, hu1, hu2⟩ := hs
  refine ⟨if k = m then f u else u, ?_, ?_, ?_⟩
  · rw [strand?_modStrand hi, hu]
    split <;> rfl
  · split <;> simp [hst, hu1]
  · split <;> simp [hc, hu2]

/-- A strand that takes a slot holds it. -/
theorem takeSlot_seatedAt (ht : s.strand? k = some t) (n q : Nat) : (s.takeSlot k n q).SeatedAt k n := by
  unfold takeSlot
  extract_lets was away s1 i s2 rd s3
  have hm1 : s.MemStep s1 := (MemStep.ite (s.writeBack_memStep k true) (.refl s)).trans (follow_memStep _ _ _)
  obtain ⟨v, hv, -⟩ := hm1.strand? ht
  have h2 : s2.SeatedAt k n := ⟨_, strand?_modStrand_same (fun _ => rfl) hv, rfl, rfl⟩
  have h3 : s3.SeatedAt k n := by
    unfold s3
    split
    · exact h2
    · exact ((s2.giveX_memStep k rd 0).seatedAt h2).modStrand (fun _ => rfl) (fun _ => rfl) fun _ => rfl
  exact ((s3.ncPoint_memStep n).trans (dropIbuf_memStep _ _)).seatedAt h3

theorem seatStrand_eq (hn : s.resumeCore c t.cwc = some n) : s.seatStrand c t = some (s.takeSlot t.image n (s.bestQuad n)) := by
  simp only [seatStrand, hn, Option.map_some]

theorem resumeSlot_eq (hn : s.resumeCore c t.cwc = some n) : s.resumeSlot c t = some (s.takeSlot t.image n (s.bestQuad n)) := by
  simp only [resumeSlot, seatStrand_eq hn]

theorem emptySlot_strand? (ht : s.strand? k = some u) (i : Nat) : ∃ v, (s.emptySlot t i).strand? k = some v := by
  have hdrop (s : State) (h : Word) : (s.dropFleet h).strand? k = s.strand? k := by
    unfold dropFleet
    split <;> rfl
  unfold emptySlot
  rw [hdrop, strand?_modStrand (f := fun t => t.setCw (cChild + i) 0) fun _ => rfl, ht]
  split <;> exact ⟨_, rfl⟩

/-- What the condition of a parked strand gives leaves the strand there. -/
theorem parkedCond_strand? {v : Option Word} (ht : s.strand? k = some u) (h : s.parkedCond t = some (s', v)) :
    ∃ x, s'.strand? k = some x := by
  unfold parkedCond at h
  split at h
  · cases h; exact ⟨u, ht⟩
  · dsimp only at h
    split at h
    case h_5 i _ =>
      unfold joinNow at h
      split at h
      · cases h; exact emptySlot_strand? ht i
      · split at h <;> cases h
        exact emptySlot_strand? ht i
    all_goals (repeat' split at h) <;> cases h <;> exact ⟨u, ht⟩

/-- A retirement leaves every strand its slot. -/
theorem SeatedAt.retired (hs : s.SeatedAt k n) : s.retired.SeatedAt k n := by
  unfold State.retired
  split
  · exact hs
  · split
    · exact hs
    · exact hs.modStrand (fun _ => rfl) (fun _ => rfl) fun _ => rfl

theorem SeatedAt.modCur (hs : s.SeatedAt k n) {f : Strand → Strand} (hi : ∀ t, (f t).image = t.image)
    (hst : ∀ t, (f t).status = t.status) (hc : ∀ t, (f t).core = t.core) : (s.modCur f).SeatedAt k n := by
  unfold State.modCur
  split
  · exact hs.modStrand hi hst hc
  · exact hs

/-- A parked strand whose condition holds resumes at the W-core where a slot is found (R77, R87). -/
theorem resumeParked_seatedAt {s1 : State} {v : Option Word} (ht : s.strand? t.image = some t) (hhome : t.cond ≠ .home)
    (hc : s.parkedCond t = some (s1, v)) (hn : s1.resumeCore c t.cwc = some n) : (s.resumeParked c t).SeatedAt t.image n := by
  obtain ⟨x, hx⟩ := parkedCond_strand? ht hc
  have h0 := takeSlot_seatedAt hx n (s1.bestQuad n)
  unfold resumeParked
  rw [hc]
  simp -zeta only [resumeSlot_eq hn]
  extract_lets k s3 s4 s5 s6 s7
  have h3 : s3.SeatedAt k n := by
    unfold s3
    split
    · exact h0
    · have hf : ((s1.takeSlot k n (s1.bestQuad n)).free t.way).SeatedAt k n := h0
      exact (fillLines_memStep _ k).seatedAt (hf.modStrand (fun _ => rfl) (fun _ => rfl) fun _ => rfl)
  have h4 : s4.SeatedAt k n := (MemStep.ite (.refl s3) (s3.bumpRsm_memStep k)).seatedAt h3
  have h6 : s6.SeatedAt k n :=
    ((s4.releasedBy_memStep t).seatedAt h4).modStrand (fun _ => rfl) (fun _ => rfl) fun _ => rfl
  have h7 : s7.SeatedAt k n := by
    unfold s7
    split
    · refine SeatedAt.retired (SeatedAt.modCur (s := { s6 with cur := .strand k }) h6 ?_ ?_ ?_) <;> intro u <;> split <;> rfl
    · exact h6
  simp only [hhome, decide_false, Bool.false_and, Bool.false_eq_true, if_false]
  exact h7

/-! ### Context lines, watches -/

theorem image_setDepth (t : Strand) (d : Nat) : (t.setDepth d).image = t.image := rfl

theorem image_foldl_setCw {l : List Nat} {f : Strand → Nat → Word} (t : Strand) :
    (l.foldl (fun t i => t.setCw i (f t i)) t).image = t.image := by
  induction l generalizing t with
  | nil => rfl
  | cons i l ih => exact ih _

/-- A context line that has been fetched is in the register cache (R55). -/
theorem fetchLine_present (ht : s.strand? k = some t) {line : Nat} (hl : line < 16) :
    ∃ u, (s.fetchLine k line).strand? k = some u ∧ u.present.getLsbD line = true := by
  have hbit : (((1 <<< line : Nat) : BitVec 16)).getLsbD line = true := by
    rw [BitVec.natCast_eq_ofNat, BitVec.getLsbD_ofNat, Nat.testBit_shiftLeft]
    simp [hl]
  unfold fetchLine
  extract_lets s1
  have hs1 : s1.strand? k = some t := ht
  simp -zeta only [hs1]
  split
  · next hp => exact ⟨t, hs1, hp⟩
  · extract_lets s2
    obtain ⟨v, hv, -⟩ := ((s1.evictOne_memStep t.core).trans (hwOpen_memStep ..)).strand? hs1
    refine ⟨_, strand?_modStrand_same (fun x => ?_) hv, ?_⟩
    · dsimp only
      rw [image_setDepth, image_foldl_setCw]
    · simp only [BitVec.getLsbD_or, hbit, Bool.or_true]

end State

end Sys2Proof.Machine
end
section
/-! WATCH_RETEST (R89, R438): with no reductions buffered, what a re-test writes to waypoints changes no strand but for its
reservation. -/

namespace Sys2Proof.Machine

/-- A strand but for its reservation. -/
def Strand.noResv (t : Strand) : Strand := { t with resv := none }

namespace State

variable {s s' s'' : State} {t u v : Strand}

/-! ### Writes of the hardware while nothing is buffered -/

/-- No reductions are buffered after the step, and strands are as before but for their reservations. -/
structure ResvStep (s s' : State) : Prop where
  rbuf : s'.rbuf = []
  strands : s'.strands.map Strand.noResv = s.strands.map Strand.noResv

theorem ResvStep.trans (h : s.ResvStep s') (h' : s'.ResvStep s'') : s.ResvStep s'' :=
  ⟨h'.rbuf, h'.strands.trans h.strands⟩

/-- A step that leaves buffered reductions and strands as they were. -/
theorem resvStep_of_eq (h : s.rbuf = []) (hr : s'.rbuf = s.rbuf) (hs : s'.strands = s.strands) : s.ResvStep s' :=
  ⟨hr.trans h, congrArg _ hs⟩

theorem mergeLines_of_nil (h : s.rbuf = []) (pa n : Nat) : s.mergeLines pa n = s := by
  simp [mergeLines, h]

theorem patOpen_of_nil (h : s.rbuf = []) (pa : Nat) : s.patOpen pa = s := by
  unfold patOpen
  split
  · rfl
  · rw [mergeLines_of_nil h, ite_self]

theorem classify_resvStep (h : s.rbuf = []) (n pa attr : Nat) : s.ResvStep (s.classify n pa attr) := by
  have hm (p : RedEntry → Bool) : s.mergeWhere p = s := by simp [mergeWhere, h]
  unfold classify
  split
  case h_4 =>
    dsimp only
    split
    · exact resvStep_of_eq h rfl rfl
    · split
      · exact resvStep_of_eq h rfl rfl
      · rw [hm]
        exact resvStep_of_eq h rfl rfl
  all_goals exact resvStep_of_eq h rfl rfl

theorem dirTouch_resvStep (h : s.rbuf = []) (who pa n : Nat) (write : Bool) : s.ResvStep (s.dirTouch who pa n write) := by
  have hline (s : State) (l : Nat) :
      (s.dirLine who l write).rbuf = s.rbuf ∧ (s.dirLine who l write).strands = s.strands := by
    unfold dirLine
    (repeat' split) <;> exact ⟨rfl, rfl⟩
  exact resvStep_of_eq h (foldl_keeps (p := State.rbuf) (fun s l => (hline s l).1) _ s)
    (foldl_keeps (p := State.strands) (fun s l => (hline s l).2) _ s)

theorem hwOpen_resvStep (h : s.rbuf = []) (n pa len : Nat) (write : Bool) : s.ResvStep (s.hwOpen n pa len write) := by
  unfold hwOpen
  rw [patOpen_of_nil h]
  have hc := classify_resvStep h n pa (s.attrOf pa)
  dsimp only
  rw [mergeLines_of_nil hc.rbuf]
  exact hc.trans (dirTouch_resvStep hc.rbuf ..)

theorem pokeRaw_resvStep (h : s.rbuf = []) (keep : Nat → Bool) (attr writer pa : Nat) (data : List Byte) :
    s.ResvStep (s.pokeRaw keep attr writer pa data) := by
  have hn : (s.patNote pa data).rbuf = s.rbuf ∧ (s.patNote pa data).strands = s.strands := by
    unfold patNote
    extract_lets
    split <;> exact ⟨rfl, rfl⟩
  refine ⟨hn.1.trans h, ?_⟩
  show (List.map _ (s.patNote pa data).strands).map Strand.noResv = _
  rw [hn.2, List.map_map]
  refine List.map_congr_left fun t _ => ?_
  simp only [Function.comp_apply]
  split
  · split <;> rfl
  · rfl

theorem hwThen_resvStep (h : s.rbuf = []) (a : HwAct) : s.ResvStep (s.hwThen a) := by
  cases a <;> exact resvStep_of_eq h rfl rfl

theorem hwDo_resvStep (h : s.rbuf = []) (w : HwWrite) : s.ResvStep (s.hwDo w) := by
  unfold hwDo
  extract_lets n s1 s2
  have h1 : s.ResvStep s1 := hwOpen_resvStep h ..
  have h2 : s1.ResvStep s2 := pokeRaw_resvStep h1.rbuf ..
  have h3 : s2.ResvStep (if w.vis then s2.deliver fun r => r.meets r.die w.addr n else s2) := by
    split
    · unfold deliver
      split <;> exact resvStep_of_eq h2.rbuf rfl rfl
    · exact resvStep_of_eq h2.rbuf rfl rfl
  exact ((h1.trans h2).trans h3).trans (hwThen_resvStep h3.rbuf _)

theorem hwWrite_resvStep (h : s.rbuf = []) (n pa : Nat) (data : List Byte) : s.ResvStep (s.hwWrite n pa data) := by
  unfold hwWrite hwPut
  split
  · split
    · exact resvStep_of_eq h rfl rfl
    · exact hwDo_resvStep h _
  · exact resvStep_of_eq h rfl rfl
  · exact hwThen_resvStep h _

/-- Over such a step a strand of the list stays there but for its reservation. -/
theorem ResvStep.mem_strands (h : s.ResvStep s') (hu : u ∈ s.strands) : ∃ v ∈ s'.strands, v.noResv = u.noResv := by
  have hm : u.noResv ∈ s'.strands.map Strand.noResv := h.strands ▸ List.mem_map_of_mem hu
  exact List.mem_map.1 hm

/-! ### What a re-test makes of one strand -/

/-- The reservation plays no part in a re-test. -/
theorem retest_setResv (s : State) (t : Strand) (line : Nat) (r : Option Nat) :
    s.retest { t with resv := r } line = { s.retest t line with resv := r } := by
  unfold retest
  dsimp only
  (repeat' split) <;> rfl

/-- What a re-test makes of a strand that watches `pa`, where `b` says that its condition holds. -/
def watchHit (s : State) (line : Nat) (t : Strand) (pa : Nat) (b : Bool) : Strand :=
  if lineOf pa ≠ line || t.again then t
  else if s.poison.contains line then { t.setCw cPc (t.cw cPc - w64 t.wlen) with again := true }
  else if b then { t with woken := true } else t

theorem retest_eq (s : State) (t : Strand) (line : Nat) : s.retest t line =
    if t.status ≠ .parked then t
    else
      match t.cond with
      | .mem _ pa v => s.watchHit line t pa (w64 (s.peek 4 pa 8) ≠ v)
      | .memGe _ pa v => s.watchHit line t pa (v.toNat ≤ s.peek 4 pa 8)
      | _ => t := by
  unfold retest
  rfl

theorem watchHit_status (s : State) (line : Nat) (t : Strand) (pa : Nat) (b : Bool) : (s.watchHit line t pa b).status = t.status := by
  unfold watchHit
  (repeat' split) <;> rfl

theorem watchHit_cond (s : State) (line : Nat) (t : Strand) (pa : Nat) (b : Bool) : (s.watchHit line t pa b).cond = t.cond := by
  unfold watchHit
  (repeat' split) <;> rfl

theorem watchHit_of_again (s : State) (line : Nat) (h : t.again = true) (pa : Nat) (b : Bool) : s.watchHit line t pa b = t := by
  simp only [watchHit, h, Bool.or_true, if_true]

theorem watchHit_watchHit (s : State) (line : Nat) (t : Strand) (pa : Nat) (b : Bool) :
    s.watchHit line (s.watchHit line t pa b) pa b = s.watchHit line t pa b := by
  by_cases hl : (lineOf pa ≠ line || t.again) = true
  · simp only [watchHit, if_pos hl]
  · by_cases hp : s.poison.contains line = true
    · have e : s.watchHit line t pa b = { t.setCw cPc (t.cw cPc - w64 t.wlen) with again := true } := by
        simp only [watchHit, if_neg hl, if_pos hp]
      exact e ▸ watchHit_of_again s line rfl pa b
    · cases b
      · simp only [watchHit, if_neg hl, if_neg hp, Bool.false_eq_true, if_false]
      · simp only [watchHit, if_neg hl, if_neg hp, if_true]

/-- A second look at the same watch changes nothing. -/
theorem retest_retest (s : State) (t : Strand) (line : Nat) : s.retest (s.retest t line) line = s.retest t line := by
  by_cases hs : t.status = .parked
  · cases hc : t.cond <;> simp only [retest_eq, hs, hc, watchHit_status, watchHit_cond, watchHit_watchHit, ne_eq, not_true, if_false]
  · simp only [retest_eq, hs, ne_eq, not_false_eq_true, if_true]

theorem retest_resv (s : State) (t : Strand) (line : Nat) : (s.retest t line).resv = t.resv := by
  unfold retest
  dsimp only
  (repeat' split) <;> rfl

theorem retest_again (s : State) (t : Strand) (line : Nat) (hp : s.poison.contains line = false) :
    (s.retest t line).again = t.again := by
  unfold retest
  simp only [hp, Bool.false_eq_true, if_false]
  (repeat' split) <;> rfl

/-- Strands that are alike but for their reservations are alike after a re-test. -/
theorem retest_noResv_congr (s : State) (line : Nat) (h : v.noResv = u.noResv) :
    (s.retest v line).noResv = (s.retest u line).noResv := by
  have e : v = { u with resv := v.resv } := (congrArg (fun x : Strand => { x with resv := v.resv }) h : _)
  rw [e, retest_setResv]
  rfl

/-! ### The re-test of every strand -/

/-- A strand of `s'` is what a re-test in `s0` makes of `u`, and where line `line` is not poisoned neither its reservation nor memory has
changed. -/
def Retested (s0 s' : State) (line : Nat) (u v : Strand) : Prop :=
  v ∈ s'.strands ∧ v.noResv = (s0.retest u line).noResv ∧ (s0.poison.contains line = false → v.resv = u.resv ∧ s'.mem = s0.mem)

/-- The re-test of the strands of an image: strands of that image are looked at, the others are as they were. -/
theorem mem_modStrand_retest (s0 : State) (line k : Nat) (hv : v ∈ s.strands) :
    (if v.image = k then s0.retest v line else v) ∈ (s.modStrand k fun t => s0.retest t line).strands :=
  List.mem_map_of_mem (f := fun x : Strand => if x.image = k then s0.retest x line else x) hv

/-- One turn of the loop over strands. -/
def retestStep (s0 : State) (line : Nat) (s : State) (t : Strand) : State :=
  let u := s0.retest t line
  let s := s.modStrand t.image fun t => s0.retest t line
  if u.again && !t.again && t.way ≠ 0 then s.hwWrite t.core t.way (toBytes (u.cw cPc).toNat 8) else s

/-- A turn for the strand's own image leaves it re-tested; any other turn leaves it as it was, but for its reservation. -/
theorem exists_mem_retestStep (s0 : State) (line : Nat) (t : Strand) (hb : s.rbuf = []) (hv : v ∈ s.strands) :
    (s0.retestStep line s t).rbuf = [] ∧ ∃ w ∈ (s0.retestStep line s t).strands,
      w.noResv = (if v.image = t.image then s0.retest v line else v).noResv ∧
      (s0.poison.contains line = false → w.resv = v.resv ∧ (s0.retestStep line s t).mem = s.mem) := by
  have hm := mem_modStrand_retest s0 line t.image hv
  unfold retestStep
  dsimp only
  split
  · next hw =>
    have hr : ResvStep _ _ := hwWrite_resvStep (s := s.modStrand t.image fun t => s0.retest t line) hb t.core t.way
      (toBytes ((s0.retest t line).cw cPc).toNat 8)
    obtain ⟨w, hw1, hw2⟩ := hr.mem_strands hm
    refine ⟨hr.rbuf, w, hw1, hw2, fun hp => ?_⟩
    simp [retest_again s0 t line hp] at hw
  · refine ⟨hb, _, hm, rfl, fun _ => ⟨?_, rfl⟩⟩
    split
    · exact retest_resv ..
    · rfl

/-- After the turns for a list that names its image, a strand has been re-tested. -/
theorem exists_retested (s0 : State) (line : Nat) (l : List Strand) : ∀ (s : State) (v : Strand), s.rbuf = [] → v ∈ s.strands →
    (v.noResv = (s0.retest u line).noResv ∨ v.noResv = u.noResv ∧ ∃ t ∈ l, t.image = u.image) →
    (s0.poison.contains line = false → v.resv = u.resv ∧ s.mem = s0.mem) →
    ∃ w, s0.Retested (l.foldl (s0.retestStep line) s) line u w := by
  induction l with
  | nil =>
    intro s v _ hv hu hp
    rcases hu with hu | ⟨-, t, ht, -⟩
    · exact ⟨v, hv, hu, hp⟩
    · cases ht
  | cons t l ih =>
    intro s v hb hv hu hp
    obtain ⟨hb', w, hw, hwv, hwp⟩ := exists_mem_retestStep s0 line t hb hv
    refine ih _ w hb' hw ?_ fun hpo => ?_
    · by_cases hi : v.image = t.image
      · rw [if_pos hi] at hwv
        left
        rcases hu with hu | ⟨hu, -⟩
        · rw [hwv, retest_noResv_congr s0 line hu, retest_retest]
        · rw [hwv, retest_noResv_congr s0 line hu]
      · rw [if_neg hi] at hwv
        refine hu.imp hwv.trans fun ⟨hu, x, hx, hxi⟩ => ⟨hwv.trans hu, x, ?_, hxi⟩
        have hvi : v.image = u.image := (congrArg Strand.image hu : v.noResv.image = _)
        exact (List.mem_cons.1 hx).resolve_left fun e => hi (by rw [hvi, ← hxi, e])
    · obtain ⟨h1, h2⟩ := hwp hpo
      obtain ⟨h3, h4⟩ := hp hpo
      exact ⟨h1.trans h3, h2.trans h4⟩

theorem rewatch_eq (s : State) (line : Nat) : (s.rewatch fun t => s.retest t line) = s.strands.foldl (s.retestStep line) s := rfl

/-- WATCH_RETEST re-tests every strand (R89). -/
theorem watchRetest_retests {line : Nat} (hbusy : s.hwBusy (64 * line) 64 = false) (hb : s.rbuf = []) (hu : u ∈ s.strands) :
    ∃ (s' : State) (v : Strand), execWatchRetest line s = .next s' ∧ v ∈ s'.strands ∧
      v = { s.retest u line with resv := v.resv } ∧ (s.poison.contains line = false → v.resv = u.resv ∧ s'.mem = s.mem) := by
  obtain ⟨v, hv, hvu, hp⟩ := exists_retested s line s.strands s u hb hu (.inr ⟨rfl, u, hu, rfl⟩) fun _ => ⟨rfl, rfl⟩
  refine ⟨_, v, ?_, hv, (congrArg (fun x : Strand => { x with resv := v.resv }) hvu : _), hp⟩
  simp only [execWatchRetest, hbusy, Bool.false_eq_true, if_false, mergeLines_of_nil hb, rewatch_eq]

end State

end Sys2Proof.Machine
end
section
/-! The issue cycle (R94 to R97, R107): which strands are ready, and which of them the groups of a cycle take. -/

namespace Sys2Proof.Machine

theorem mem_insertBy {α : Type} {le : α → α → Bool} {x y : α} {l : List α} : y ∈ insertBy le x l ↔ y = x ∨ y ∈ l := by
  induction l with
  | nil => simp [insertBy]
  | cons z t ih =>
    simp only [insertBy]
    split
    · simp
    · simp only [List.mem_cons, ih]
      tauto

theorem mem_sortBy {α : Type} {le : α → α → Bool} {y : α} {l : List α} : y ∈ sortBy le l ↔ y ∈ l := by
  induction l with
  | nil => simp [sortBy]
  | cons x t ih => simp only [sortBy, mem_insertBy, ih, List.mem_cons]

namespace State

variable {s s' : State} {t u o : Strand}

/-! ### Ready strands -/

/-- What a look for ready strands leaves as it was: memory, and of each strand all but its age. -/
structure AgeStep (s s' : State) : Prop where
  mem : s'.mem = s.mem
  strands : s'.strands.map (fun t => (t.image, t.ctx, t.status, t.wait)) = s.strands.map fun t => (t.image, t.ctx, t.status, t.wait)
  agenda : s'.agenda = s.agenda

theorem AgeStep.refl (s : State) : s.AgeStep s := ⟨rfl, rfl, rfl⟩

theorem AgeStep.trans {s'' : State} (h : s.AgeStep s') (h' : s'.AgeStep s'') : s.AgeStep s'' :=
  ⟨h'.mem.trans h.mem, h'.strands.trans h.strands, h'.agenda.trans h.agenda⟩

theorem ageStep_since (s : State) (k : Nat) (a : Option Nat) : s.AgeStep (s.modStrand k fun t => { t with since := a }) := by
  refine ⟨rfl, ?_, rfl⟩
  show (List.map _ _).map _ = _
  rw [List.map_map]
  refine List.map_congr_left fun t _ => ?_
  simp only [Function.comp_apply]
  split <;> rfl

/-- A look at one strand changes at most holds and W-cores, and finds no strand ready that waits. -/
theorem readyNow_spec (s : State) (t : Strand) :
    (s.readyNow t).2.mem = s.mem ∧ (s.readyNow t).2.strands = s.strands ∧ (s.readyNow t).2.agenda = s.agenda ∧
      ((s.readyNow t).1 = true → t.wait = .none) := by
  unfold readyNow
  dsimp only
  split
  · exact ⟨rfl, rfl, rfl, fun h => by cases h⟩
  · next hw =>
    have hwait : t.wait = .none := by
      by_contra h
      exact hw (by simp [h])
    (repeat' split) <;> exact ⟨rfl, rfl, rfl, fun _ => hwait⟩

/-- One look, as `readyOf` makes it for each strand of its list. -/
def readyStep (acc : List Strand × State) (t : Strand) : List Strand × State :=
  let (b, s) := acc.2.readyNow t
  let t' := { t with since := if b then some (t.since.getD (s.cc t.core)) else none }
  (if b then acc.1 ++ [t'] else acc.1, s.modStrand t.image fun t => { t with since := t'.since })

theorem readyOf_eq (s : State) (l : List Strand) : s.readyOf l = l.foldl readyStep ([], s) := rfl

theorem readyStep_spec (acc : List Strand × State) (t : Strand) :
    acc.2.AgeStep (readyStep acc t).2 ∧
      ∀ u ∈ (readyStep acc t).1, u ∈ acc.1 ∨ (∃ a, u = { t with since := a }) ∧ t.wait = .none := by
  obtain ⟨hm, hs, ha, hwait⟩ := acc.2.readyNow_spec t
  refine ⟨AgeStep.trans ⟨hm, by rw [hs], ha⟩ (ageStep_since _ _ _), fun u hu => ?_⟩
  unfold readyStep at hu
  dsimp only at hu
  split at hu
  · next hb =>
    refine (List.mem_append.1 hu).imp_right fun hu => ?_
    exact ⟨⟨_, List.mem_singleton.1 hu⟩, hwait hb⟩
  · exact .inl hu

/-- The ready strands are strands of the list, with their ages; all wait for nothing. -/
theorem readyOf_spec (s : State) (l : List Strand) :
    s.AgeStep (s.readyOf l).2 ∧ ∀ u ∈ (s.readyOf l).1, ∃ t ∈ l, (∃ a, u = { t with since := a }) ∧ t.wait = .none := by
  have key : ∀ (l' : List Strand) (acc : List Strand × State), s.AgeStep acc.2 → l' ⊆ l →
      (∀ u ∈ acc.1, ∃ t ∈ l, (∃ a, u = { t with since := a }) ∧ t.wait = .none) →
      s.AgeStep (l'.foldl readyStep acc).2 ∧
        ∀ u ∈ (l'.foldl readyStep acc).1, ∃ t ∈ l, (∃ a, u = { t with since := a }) ∧ t.wait = .none := by
    intro l'
    induction l' with
    | nil => exact fun acc h _ hr => ⟨h, hr⟩
    | cons t l' ih =>
      intro acc h hsub hr
      obtain ⟨hstep, hmem⟩ := readyStep_spec acc t
      refine ih _ (h.trans hstep) (fun x hx => hsub (List.mem_cons_of_mem _ hx)) fun u hu => ?_
      rcases hmem u hu with hu | hu
      · exact hr u hu
      · exact ⟨t, hsub (List.mem_cons_self ..), hu⟩
  exact key l ([], s) (.refl s) (List.Subset.refl l) fun _ h => by cases h

/-! ### The groups of a cycle -/

/-- The strands of list `c` of key `k`. -/
def withKey (c : List Strand) (k : Nat) : List Strand := c.filter fun t => keyOf t = k

/-- The key of the first group: that of the oldest strand under the age override, else the lowest. -/
def firstKey (s : State) (o : Strand) (c : List Strand) : Nat :=
  if 1024 ≤ s.ageOf o then keyOf o else ((minBy keyOf c).map keyOf).getD 0

theorem withKey_firstKey_ne_nil (s : State) {c : List Strand} (ho : o ∈ c) : withKey c (s.firstKey o c) ≠ [] := by
  have key : ∃ t ∈ c, keyOf t = s.firstKey o c := by
    unfold firstKey
    split
    · exact ⟨o, ho, rfl⟩
    · cases hm : minBy keyOf c with
      | none => rw [minBy_eq_none.1 hm] at ho; cases ho
      | some m => exact ⟨m, minBy_mem hm, rfl⟩
  obtain ⟨t, ht, hk⟩ := key
  exact List.ne_nil_of_mem (List.mem_filter.2 ⟨ht, decide_eq_true hk⟩)

/-- The groups of a cycle whose oldest ready strand is `o`. -/
theorem issueGroups_cons {l rest : List Strand} (h : sortBy s.older l = o :: rest) :
    let c := (o :: rest).filter fun t => t.crew = o.crew
    let g1 := (withKey c (s.firstKey o c)).take 32
    ∃ g2, s.issueGroups l = (g1, g2, decide (1024 ≤ s.ageOf o)) ∧ g1.length + g2.length ≤ 32 ∧
      ∃ k, ∀ t ∈ g2, t ∈ c ∧ keyOf t = k := by
  intro c g1
  have h32 : g1.length ≤ 32 := List.length_take_le _ _
  cases hlow : minBy keyOf (c.filter fun t => keyOf t ≠ s.firstKey o c) with
  | none =>
    refine ⟨[], ?_, by simpa using h32, 0, fun t ht => by cases ht⟩
    simp only [firstKey, c] at hlow
    simp only [issueGroups, h, decide_eq_true_eq, hlow, Option.map_none]
    rfl
  | some m =>
    refine ⟨((c.filter fun t => keyOf t ≠ s.firstKey o c).filter fun t => keyOf t = keyOf m).take (4 * (8 - (g1.length + 3) / 4)),
      ?_, ?_, keyOf m, fun t ht => ?_⟩
    · simp only [firstKey, c] at hlow
      simp only [issueGroups, h, decide_eq_true_eq, hlow, Option.map_some]
      rfl
    · have := List.length_take_le (4 * (8 - (g1.length + 3) / 4))
        ((c.filter fun t => keyOf t ≠ s.firstKey o c).filter fun t => keyOf t = keyOf m)
      omega
    · obtain ⟨hc, hk⟩ := List.mem_filter.1 (List.mem_of_mem_take ht)
      exact ⟨(List.mem_filter.1 hc).1, of_decide_eq_true hk⟩

/-- With no strand ready nothing issues. -/
theorem issueGroups_nil {l : List Strand} (h : sortBy s.older l = []) : s.issueGroups l = ([], [], false) := by
  simp only [issueGroups, h]

/-- What the groups `g1` and `g2` taken from the ready strands `l` keep to (R94 to R97). -/
structure GroupsOk (s : State) (l g1 g2 : List Strand) : Prop where
  ready : ∀ t ∈ g1 ++ g2, t ∈ l
  lanes : g1.length + g2.length ≤ 32
  some_issue : l ≠ [] → g1 ≠ []
  crew : ∀ o rest, sortBy s.older l = o :: rest → ∀ t ∈ g1 ++ g2, t.crew = o.crew
  override : ∀ o rest, sortBy s.older l = o :: rest → 1024 ≤ s.ageOf o → ∀ t ∈ g1, keyOf t = keyOf o
  key₁ : ∀ t ∈ g1, ∀ u ∈ g1, keyOf t = keyOf u
  key₂ : ∀ t ∈ g2, ∀ u ∈ g2, keyOf t = keyOf u

theorem issueGroups_ok (s : State) (l : List Strand) :
    GroupsOk s l (s.issueGroups l).1 (s.issueGroups l).2.1 := by
  cases h : sortBy s.older l with
  | nil =>
    have hl : l = [] := List.eq_nil_iff_forall_not_mem.2 fun t ht => by
      have := mem_sortBy (le := s.older) |>.2 ht
      rw [h] at this
      cases this
    rw [issueGroups_nil h]
    refine ⟨?_, by simp, fun hn => absurd hl hn, ?_, ?_, ?_, ?_⟩ <;> simp
  | cons o rest =>
    obtain ⟨g2, he, hlen, k, hg2⟩ := issueGroups_cons h
    rw [he]
    set c := (o :: rest).filter fun t => t.crew = o.crew with hc
    have ho : o ∈ c := List.mem_filter.2 ⟨List.mem_cons_self .., decide_eq_true rfl⟩
    have hg1 : ∀ t ∈ (withKey c (s.firstKey o c)).take 32, t ∈ c ∧ keyOf t = s.firstKey o c := fun t ht =>
      (List.mem_filter.1 (List.mem_of_mem_take ht)).imp_right of_decide_eq_true
    have hmem : ∀ t ∈ (withKey c (s.firstKey o c)).take 32 ++ g2, t ∈ c := fun t ht =>
      (List.mem_append.1 ht).elim (fun ht => (hg1 t ht).1) fun ht => (hg2 t ht).1
    refine ⟨fun t ht => ?_, hlen, fun _ => ?_, fun o' rest' ho' t ht => ?_, fun o' rest' ho' hage t ht => ?_,
      fun t ht u hu => (hg1 t ht).2.trans (hg1 u hu).2.symm, fun t ht u hu => (hg2 t ht).2.trans (hg2 u hu).2.symm⟩
    · exact mem_sortBy.1 (h ▸ (List.mem_filter.1 (hmem t ht)).1)
    · simpa [List.take_eq_nil_iff] using withKey_firstKey_ne_nil s ho
    · obtain ⟨rfl, -⟩ := List.cons.inj (h.symm.trans ho')
      exact of_decide_eq_true (List.mem_filter.1 (hmem t ht)).2
    · obtain ⟨rfl, -⟩ := List.cons.inj (h.symm.trans ho')
      rw [(hg1 t ht).2, firstKey, if_pos hage]

/-! ### The cycle -/

/-- The state after a cycle in which the groups `g1` and `g2` issue; `ovr` says whether the age override acted. -/
def afterCycle (s : State) (core quad : Nat) (g1 g2 : List Strand) (ovr : Bool) : State :=
  let p := passes (s.podAt (podOf core))
  let idle := if s.coreOn core && (s.coreAt core).powered then (32 - g1.length - g2.length) * p else 0
  let s := s.modCore core fun c =>
    { c with
      ovrcnt := if ovr then lmod c.ovrcnt quad (· + 1) else c.ovrcnt
      dualcnt := if g2.isEmpty then c.dualcnt else lmod c.dualcnt quad (· + 1)
      gatecnt := c.gatecnt + w64 idle }
  let s := s.modPod (podOf core) fun q => { q with gated := q.gated + idle }
  { s with agenda := (g1 ++ g2).map (fun t => Turn.issue (.strand t.image)) ++ s.agenda }

theorem execIssueCycle_eq (core quad : Nat) (s : State) :
    let r := s.readyOf (s.strands.filter fun t => t.core = core && t.quad = quad && t.status = .resident)
    let g := r.2.issueGroups r.1
    execIssueCycle core quad s = .next (r.2.afterCycle core quad g.1 g.2.1 g.2.2) := rfl

/-- The gated lanes of a cycle of a W-core that is enabled and powered (R107). -/
theorem afterCycle_gatecnt {core : Nat} (hc : core < s.cores.length) (hon : s.coreOn core = true)
    (hp : (s.coreAt core).powered = true) (quad : Nat) (g1 g2 : List Strand) (ovr : Bool) :
    ((s.afterCycle core quad g1 g2 ovr).coreAt core).gatecnt =
      (s.coreAt core).gatecnt + w64 ((32 - g1.length - g2.length) * passes (s.podAt (podOf core))) := by
  show (List.getD (lmod s.cores core _) core {}).gatecnt = _
  rw [lmod_getD, if_pos ⟨rfl, hc⟩]
  simp only [hon, hp, Bool.and_self, if_true]
  rfl

end State

end Sys2Proof.Machine
end
section
/-! The steps of the issue logic (O51), from the rules on parking, resumption, watches and issue cycles. -/

namespace Sys2Proof.Machine

namespace State

variable {s : State} {t : Strand} {k : Nat}

/-- What the spec asks of a strand whose resident wait ends with its condition not met (R87, R89). -/
theorem strandPark_spec {t1 : Strand} {cd : Cond} {rd : Reg} {e : Nat} {full : Bool} {p : State} (ht : s.strand? k = some t)
    (hw : t.wait = .park cd rd e) (he : e ≤ s.cc t.core) (hm : t.sMode = false) (hp : t.pendStop = 0)
    (ht1 : (s.parkTest k).strand? k = some t1) (hw1 : t1.wait = .park cd rd e) (he1 : e ≤ (s.parkTest k).cc t1.core)
    (hm1 : t1.sMode = false) (hp1 : t1.pendStop = 0) (hf : (s.parkTest k).watchFull cd = (full, p)) :
    (full = true →
      execStrandPark k s = .next (p.modStrand k fun t => { t with wait := .park cd rd (p.cc t.core + 1024) })) ∧
    (full = false → p.HasLines k [8] →
      (∀ v, (p.fetchLines k [8]).strand? k = some v → (p.fetchLines k [8]).HasLines k (liveLines (v.cbits cThctl 47 16))) →
      (p.owed k fun _ => true) = false → (p.alloc (p.crewDie t1) 192 64).isSome = true →
      ∃ (s' : State) (u : Strand), execStrandPark k s = .next s' ∧ p.parkOn k cd rd = some s' ∧ s'.strand? k = some u ∧
        u.status = .parked ∧ u.cond = cd ∧ u.crd = rd) := by
  have hexec := strandPark_eq ht hw he hm hp ht1 hw1 he1 hm1 hp1 hf
  refine ⟨fun hfull => ?_, fun hfull hl hlive ho ha => ?_⟩
  · rw [hexec, hfull]
    rfl
  · obtain ⟨s', u, hpark, hu⟩ := parkOn_parks (cd := cd) (rd := rd) ((watchFull_strand? hf k).trans ht1) hl hlive ho ha
    refine ⟨s', u, ?_, hpark, hu⟩
    rw [hexec, hfull, if_neg (by decide), hpark]

/-- A register that a load has returned is no longer marked (R101). -/
theorem loadDataReturn_spec (ht : s.strand? k = some t) (r : Nat) :
    ∃ (s' : State) (u : Strand), execLoadDataReturn k r s = .next s' ∧ s'.strand? k = some u ∧ (∀ m ∈ u.marks, m.reg ≠ r) ∧
      u.ctx = t.ctx ∧ s'.mem = s.mem :=
  ⟨_, _, rfl, strand?_modStrand_same (fun _ => rfl) ht, fun _ hm => of_decide_eq_true (List.mem_filter.1 hm).2, rfl, rfl⟩

end State

end Sys2Proof.Machine

namespace Sys2Proof

open Machine

/-- Settles O51: each step's guard is met, and the rules of the operation that it runs say what it leaves. -/
theorem strandSteps : Obligations.StrandSteps := by
  unfold Obligations.StrandSteps
  refine ⟨fun s t k ht => ?_, fun s core quad => ?_⟩
  · have hk : t.image = k := (kfind_some ht).1
    refine ⟨?_, ?_, ?_, ?_, ?_, ?_, ?_, ?_, ?_, ?_, ?_, ?_, ?_⟩
    · intro e hw he
      simp only [exec, execPauseExpiry, ht, hw, he, if_true]
    · intro e hw he
      have hb : (decide (e ≤ s.cc t.core) || t.resv.isNone) = true := by simpa using he
      simp only [exec, execWrsTimeout, ht, hw, hb, if_true]
    · intro c rd e s' v hw hc
      simp only [exec, execParkSpinTest, State.parkTest, ht, hw, hc]
    · rintro c rd e s1 t1 full p hw he hm hp rfl ht1 hw1 he1 hm1 hp1 hf
      exact State.strandPark_spec ht hw he hm hp ht1 hw1 he1 hm1 hp1 hf
    · exact fun line u hbusy hb hu => State.watchRetest_retests hbusy hb hu
    · intro c n hc hm hst hn
      simp only [exec, execStrandResume, ht, hc, hm, hst, State.seatStrand_eq hn, hk, Bool.not_true, Bool.false_eq_true, if_false]
    · intro c n s1 v hc hm hst hhome hpc hn
      obtain ⟨u, hu⟩ := State.resumeParked_seatedAt (hk ▸ ht) hhome hpc hn
      refine ⟨_, u, ?_, hk ▸ hu⟩
      simp only [exec, execStrandResume, ht, hc, hm, hst, Bool.not_true, Bool.false_eq_true, if_false]
    · intro line hl hst hstop hlines
      obtain ⟨u, hu⟩ := State.fetchLine_present ht hl
      refine ⟨_, u, ?_, hu⟩
      simp only [exec, execContextLineFetch, ht, hl, hst, hstop, hlines.1, hlines.2, decide_true, Bool.not_false, Bool.and_self,
        if_true]
    · intro hkill hmust
      simp only [exec, execStrandStop, ht, hkill, hmust, Bool.not_false, Bool.and_self, if_true]
    · intro hdue
      simp only [exec, execRecallTakesEffect, ht, hdue, if_true]
    · exact fun r => State.loadDataReturn_spec ht r
    · intro u rest s' ps hsort hf
      simp only [exec, execInstructionFetch, ht, hsort, hf]
    · intro s' p va a hst hwalk htr
      simp only [exec, execPageWalkComplete, ht, hst, hwalk, htr, decide_true, Bool.and_self, if_true]
  · intro r
    obtain ⟨hage, hready⟩ := State.readyOf_spec s (s.strands.filter fun t => t.core = core && t.quad = quad && t.status = .resident)
    have hg := State.issueGroups_ok r.2 r.1
    refine ⟨_, _, _, State.execIssueCycle_eq core quad s, ?_, hg.lanes, hg.some_issue, fun t ht => ?_,
      fun o rest ho => ⟨hg.crew o rest ho, hg.override o rest ho⟩, hg.key₁, hg.key₂,
      fun hc hon hp => State.afterCycle_gatecnt hc hon hp quad _ _ _, hage.mem, hage.strands⟩
    · exact congrArg _ hage.agenda
    · obtain ⟨x, hx, ⟨a, rfl⟩, hwait⟩ := hready t (hg.ready t ht)
      have hp := (List.mem_filter.1 hx).2
      simp only [Bool.and_eq_true, decide_eq_true_eq] at hp
      exact ⟨hg.ready _ ht, hp.1.1, hp.1.2, hp.2, hwait⟩

end Sys2Proof
end
section
/-! Frames of threads (R60, R61): which operations leave them as they are. The end of a strand, of a crew and of a fleet set off
collectives, copies, group records and queue entries; none of these touches a frame. -/

namespace Sys2Proof.Machine

namespace State

variable {s s' : State} {t : Strand} {c : Crew} {r : CvReg}

/-! ### Instructions that end, and collectives -/

theorem finishWith_frames (s : State) (k : Nat) {g : State → State} (hg : ∀ s, (g s).frames = s.frames) :
    (s.finishWith k g).frames = s.frames := by
  unfold finishWith
  split
  · rfl
  · extract_lets s1 s2
    have h1 : s1.frames = s.frames := (MemStep.ite (s.fetchClean_memStep k _) (.refl s)).frames
    have h2 : s2.frames = s1.frames := by
      show (State.retired _).frames = _
      rw [retired_frames, modStrand_frames, setPc_frames, hg]
    exact ((MemStep.ite (s2.writeBack_memStep k true) (.refl s2)).frames.trans h2).trans h1

theorem finishWait_frames (s : State) (k : Nat) (rd : Reg) (v : Word) : (s.finishWait k rd v).frames = s.frames :=
  s.finishWith_frames k fun s => s.setX_frames rd v

theorem cvWake_frames (s : State) (crew n : Nat) : (s.cvWake crew n).frames = s.frames := by
  have hfin (s : State) (t : Strand) (rd : Reg) (b : Bool) (v : Word) :
      (if b then (s.finishWait t.image rd v).ncPoint t.core else s.finishWait t.image rd v).frames = s.frames := by
    split <;> exact s.finishWait_frames ..
  unfold cvWake
  split
  · rfl
  · refine foldl_keeps (p := State.frames) (fun s t => ?_) _ s
    split
    · split
      · split
        · exact hfin ..
        · rfl
      · rfl
    · split
      · split
        · exact hfin ..
        · rfl
      · rfl
    · rfl

theorem cvFree_frames (s : State) (crew n : Nat) : (s.cvFree crew n).frames = s.frames := by
  unfold cvFree
  split
  · rfl
  · exact foldl_keeps (p := State.frames) (f := fun s (t : Strand) => s.dropWait t.image) (fun s t => rfl) _ s

theorem cvClose_frames (s : State) (crew n : Nat) : (s.cvClose crew n).frames = s.frames := cvWake_frames ..

theorem finishSet_frames (s : State) (crew n : Nat) (sids : List Nat) (v : Word) : (s.finishSet crew n sids v).frames = s.frames := by
  refine foldl_keeps (p := State.frames) (fun s i => ?_) _ s
  split
  · rfl
  · split
    · split
      · exact s.finishWait_frames ..
      · rfl
    · rfl

theorem issueLane_frames (s : State) (crew n : Nat) (r : CvReg) : (s.issueLane crew n r).frames = s.frames := by
  unfold issueLane
  extract_lets group sub ds fp res s1
  refine foldl_keeps (p := State.frames) (fun s p => ?_) _ s1
  split
  · rfl
  · split
    · refine s.finishWith_frames _ fun s => ?_
      split
      · rw [accrue_frames, setF_frames]
      · exact s.setX_frames ..
    · rfl

theorem issueMatrix_frames {n : Nat} (h : s.issueMatrix c n r = some s') : s'.frames = s.frames := by
  unfold issueMatrix at h
  dsimp only [fresh] at h
  (repeat' split at h) <;> cases h <;> exact finishSet_frames ..

theorem issueDrain_frames {n : Nat} (h : s.issueDrain c n r = some s') : s'.frames = s.frames := by
  unfold issueDrain at h
  dsimp only [fresh] at h
  split at h
  · cases h
  · cases h
    exact foldl_keeps (p := State.frames)
      (f := fun s (w : Nat × Reg) => s.modStrand w.1 fun t => { t with wait := .engine _ w.2 }) (fun s w => rfl) _ _

theorem issueControl_frames {n : Nat} (h : s.issueControl c n r = some s') : s'.frames = s.frames := by
  unfold issueControl at h
  dsimp only at h
  (repeat' split at h) <;> cases h <;> exact finishSet_frames ..

theorem cvTry_frames (s : State) (crew n : Nat) : (s.cvTry crew n).frames = s.frames := by
  have hhold (o : Option State) (f : CvReg → CvReg) (h : ∀ x, o = some x → x.frames = s.frames) :
      (match o with | some s => s | none => s.modCv crew n f).frames = s.frames := by
    cases o with
    | none => rfl
    | some x => exact h x rfl
  unfold cvTry
  split
  · rfl
  · dsimp only
    split
    · rfl
    · split
      · split
        · exact s.cvClose_frames ..
        · rfl
      · split
        · split
          · exact s.issueLane_frames ..
          · split
            · exact hhold _ _ fun _ => issueControl_frames
            · split
              · exact hhold _ _ fun _ => issueDrain_frames
              · exact hhold _ _ fun _ => issueMatrix_frames
        · split <;> rfl

theorem crewRetry_frames (s : State) (crew : Nat) : (s.crewRetry crew).frames = s.frames := by
  have hone (s : State) (n : Nat) : ((s.cvTry crew n).cvFree crew n).frames = s.frames :=
    (cvFree_frames ..).trans (s.cvTry_frames crew n)
  unfold crewRetry
  split
  · rfl
  · split
    · rfl
    · exact hone s _
    · exact foldl_keeps (p := State.frames) hone _ _

theorem retryAll_frames (s : State) : s.retryAll.frames = s.frames :=
  foldl_keeps (p := State.frames) (f := fun s (c : Crew) => s.crewRetry c.id) (fun s c => s.crewRetry_frames c.id) _ s

theorem cvSettle_frames (s : State) (crew n : Nat) : (s.cvSettle crew n).frames = s.frames := by
  unfold cvSettle
  split
  · rfl
  · rw [cvFree_frames]
    split
    · exact (crewRetry_frames ..).trans (s.cvTry_frames ..)
    · exact s.cvTry_frames ..

theorem cvQuit_frames (s : State) (crew n sid : Nat) : (s.cvQuit crew n sid).frames = s.frames := cvSettle_frames ..

theorem cvLeave_frames (s : State) (crew sid : Nat) : (s.cvLeave crew sid).frames = s.frames := by
  unfold cvLeave
  split
  · rfl
  · exact foldl_keeps (p := State.frames) (fun s n => s.cvQuit_frames ..) _ s

theorem cvWithdraw_frames (s : State) (crew n : Nat) (r : CvReg) (leaving : Nat → Bool) :
    (s.cvWithdraw crew n r leaving).frames = s.frames := by
  unfold cvWithdraw
  rw [cvFree_frames]
  refine foldl_keeps (p := State.frames) (fun s i => ?_) _ _
  split
  · rfl
  · split
    · split
      · rfl
      · exact s.finishWait_frames ..
    · rfl

theorem cvCancel_frames (s : State) (crew n : Nat) (leaving : Nat → Bool) (reason : Nat) :
    (s.cvCancel crew n leaving reason).frames = s.frames := by
  unfold cvCancel
  split
  · rfl
  · dsimp only
    split
    · rfl
    · split
      · rw [cvFree_frames, cvWake_frames]
        exact foldl_keeps (p := State.frames) (f := fun s (t : Strand) => s.dropWait t.image) (fun s t => rfl) _ _
      · exact cvWithdraw_frames ..

theorem cancelStrand_frames (s : State) (t : Strand) (reason : Nat) : (s.cancelStrand t reason).frames = s.frames := by
  unfold cancelStrand
  split
  · rfl
  · refine foldl_keeps (p := State.frames) (fun s n => ?_) _ s
    split
    · exact s.cvCancel_frames ..
    · rfl

theorem leaveWait_frames (s : State) (t : Strand) : (s.leaveWait t).frames = s.frames := by
  unfold leaveWait
  split
  · rfl
  · split
    · rfl
    · exact s.finishWith_frames _ fun _ => rfl
    · rfl

/-! ### Group records -/

theorem recWrite_frames (s : State) (g : Group) (off v n : Nat) : (s.recWrite g off v n).frames = s.frames :=
  (s.hwPut_memStep fun _ e => by cases e).frames

theorem setSib_frames (s : State) (h : Word) (i st : Nat) : (s.setSib h i st).frames = s.frames := by
  unfold setSib
  split
  · rfl
  · exact s.recWrite_frames ..

theorem closeGroup_frames (s : State) (h : Word) (left flag clock : Nat) : (s.closeGroup h left flag clock).frames = s.frames := by
  unfold closeGroup
  split
  · rfl
  · split
    · rfl
    · dsimp only [modGroup]
      simp only [modFleet_frames, recWrite_frames]
      refine foldl_keeps (p := State.frames) (fun s i => ?_) _ s
      simp only [recWrite_frames]

theorem tryClose_frames (s : State) (h : Word) : (s.tryClose h).frames = s.frames := by
  unfold tryClose
  split
  · rfl
  · split
    · exact s.closeGroup_frames ..
    · rfl

/-! ### Copies -/

theorem copyDone_frames (s : State) (id : Nat) : (s.copyDone id).frames = s.frames := by
  unfold copyDone
  split <;> rfl

/-- A free value that may be drawn leaves frames as they are. -/
theorem frames_of_drawIf {s s' : State} {b : Bool} {n : Nat} (h : (if b then s.drawNat else (0, s)) = (n, s')) :
    s'.frames = s.frames := by
  split at h <;> cases h <;> rfl

theorem chunkWrite_frames (s : State) (c : Copy) (line : Nat) (all : Bool) : (s.chunkWrite c line all).frames = s.frames := by
  unfold chunkWrite
  extract_lets die src s1 s2 s3 s4 s5 cs rp s6 at' rd bad bs mine put c1 c2
  have hncs : s.MemStep s1 := .ite (.refl s) ⟨rfl, rfl, [], rfl⟩
  have hmerge : s1.MemStep s3 :=
    MemStep.trans (.ite (.refl s1) (s1.mergeWhere_memStep _)) (.ite (.refl s2) (s2.mergeWhere_memStep _))
  have hdir : s3.MemStep s5 :=
    MemStep.trans (.ite (.refl s3) (.foldl (fun s l => s.dirLine_memStep ..) _ _)) (.ite (.refl s4) (s4.dirLine_memStep ..))
  have hread : s5.MemStep s6 := .ite (.refl s5) (.foldl (fun s l => s.imageRead_memStep ..) _ _)
  have h6 : s6.frames = s.frames := (((hncs.trans hmerge).trans hdir).trans hread).frames
  split
  next k s7 h7 =>
  extract_lets bs val vals whole left
  split
  next some' s8 h8 =>
  have h8 : s8.frames = s.frames := (frames_of_drawIf h8).trans ((frames_of_drawIf h7).trans h6)
  extract_lets now s9 part sp s10 s11 s12
  have hp : s8.MemStep sp := by
    refine .ite (s8.poke_memStep ..) (.foldl (fun s v => ?_) _ _)
    split
    · exact s.poke_memStep ..
    · exact .refl s
  have h10 : s10.frames = s8.frames := by
    unfold s10
    split
    · exact crewRetry_frames ..
    · exact hp.frames
  have h11 : s11.frames = s10.frames := by
    unfold s11
    split
    · exact (faultRecord_memStep ..).frames
    · rfl
  split
  · exact (crewRetry_frames ..).trans h8
  · refine Eq.trans ?_ (h11.trans (h10.trans h8))
    split
    · exact copyDone_frames ..
    · rfl

theorem finishParts_frames (s : State) (c : Copy) : (s.finishParts c).frames = s.frames := by
  refine foldl_keeps (p := State.frames) (fun s l => ?_) _ s
  split
  · exact s.chunkWrite_frames ..
  · rfl

theorem abandonCopies_frames (s : State) (k : Nat) : (s.abandonCopies k).2.frames = s.frames :=
  foldl_keeps (p := State.frames) (f := fun s c => s.finishParts c) (fun s c => s.finishParts_frames c) _ s

/-! ### Fleets, queue entries, waits for a crew's end -/

theorem dropFleet_frames (s : State) (h : Word) : (s.dropFleet h).frames = s.frames := by
  unfold dropFleet
  split <;> rfl

theorem reap_frames (s : State) : s.reap.frames = s.frames :=
  foldl_keeps (p := State.frames) (f := fun s (f : Fleet) => s.dropFleet f.handle) (fun s _ => s.dropFleet_frames _) _ s

theorem dropEntries_frames (s : State) (i : Nat) : (s.dropEntries i).frames = s.frames := by
  unfold dropEntries
  refine foldl_keeps (p := State.frames) (fun s e => foldl_keeps (p := State.frames) (fun s w => ?_) _ s) _ _
  (repeat' split) <;> rfl

theorem wakeGroup_frames (s : State) (i : Nat) : (s.wakeGroup i).frames = s.frames := by
  refine foldl_keeps (p := State.frames) (fun s t => ?_) _ s
  split
  · split
    · exact s.finishWait_frames ..
    · rfl
  · rfl

end State

end Sys2Proof.Machine
end
section
/-! KILL (R61): a frame that has been killed stays so, whatever the stop of its strands and fleets sets off. -/

namespace Sys2Proof.Machine

namespace State

variable {s s' : State} {t : Strand} {c : Crew} {f : Frame} {k : Nat}

/-! ### A killed frame -/

/-- The frame of image `k` is there, killed and not recalled. -/
def HasKilled (s : State) (k : Nat) : Prop := ∃ f, s.frame? k = some f ∧ f.killed = true ∧ f.recalled = false

theorem HasKilled.congr (h : s.HasKilled k) (e : s'.frames = s.frames) : s'.HasKilled k := by
  unfold HasKilled frame? at *
  rw [e]
  exact h

theorem foldl_hasKilled {α : Type} {g : State → α → State} (hg : ∀ s x, HasKilled s k → (g s x).HasKilled k) (l : List α)
    (h : s.HasKilled k) : (l.foldl g s).HasKilled k := by
  induction l generalizing s with
  | nil => exact h
  | cons x l ih => exact ih (hg s x h)

theorem frame?_modFrame {n : Nat} {g : Frame → Frame} (hg : ∀ f, (g f).image = f.image) :
    (s.modFrame n g).frame? k = (s.frame? k).map fun f => if k = n then g f else f := kfind_kmod hg

theorem HasKilled.modFrame (h : s.HasKilled k) {n : Nat} {g : Frame → Frame} (hi : ∀ f, (g f).image = f.image)
    (hk : ∀ f, (g f).killed = f.killed) (hr : ∀ f, f.recalled = false → (g f).recalled = false) : (s.modFrame n g).HasKilled k := by
  obtain ⟨f, hf, hfk, hfr⟩ := h
  refine ⟨if k = n then g f else f, by rw [frame?_modFrame hi, hf, Option.map_some], ?_, ?_⟩
  · split
    · exact (hk f).trans hfk
    · exact hfk
  · split
    · exact hr f hfr
    · exact hfr

/-- A notice of kind 4 leaves a killed frame killed. -/
theorem killNotices_hasKilled (h : s.HasKilled k) : s.killNotices.HasKilled k := by
  refine foldl_hasKilled (fun s f h => ?_) _ h
  exact HasKilled.modFrame (s := s.notice f 4) (g := fun f => { f with noted := true, recalled := false }) h (fun _ => rfl)
    (fun _ => rfl) fun _ _ => rfl

theorem releaseSlot_frames (s : State) (n : Nat) (st : SStatus) : (s.releaseSlot n st).frames = s.frames :=
  (((s.mergeStrand_memStep n).trans (drain_memStep _ n)).trans (endHold_memStep _ n)).frames

theorem freeIf_frames (s : State) (p : Prop) [Decidable p] (a : Nat) : (if p then s else s.free a).frames = s.frames := by
  split <;> rfl

theorem crewDone_hasKilled (i : Nat) (h : s.HasKilled k) : (s.crewDone i).HasKilled k := by
  unfold crewDone
  split
  · exact h
  · extract_lets s1 s2 s3 s4 s5 s6
    have h5 : s5.frames = s.frames := by
      have h1 : s1.frames = s.frames := s.dropEntries_frames i
      have h3 : s3.frames = s1.frames := freeIf_frames ..
      have h4 : s4.frames = s3.frames := freeIf_frames ..
      exact (h4.trans h3).trans h1
    have h6 : s6.frames = s5.frames := by
      unfold s6
      split
      · split
        · exact (tryClose_frames ..).trans (setSib_frames ..)
        · rfl
      · rfl
    refine killNotices_hasKilled (h.congr ?_)
    rw [reap_frames, retryAll_frames, wakeGroup_frames, h6, h5]

theorem endStrand_hasKilled (n : Nat) (h : s.HasKilled k) : (s.endStrand n).HasKilled k := by
  unfold endStrand
  split
  · exact h
  · extract_lets s1 s2 s3 s4 s5
    have h1 : s1.frames = s.frames := ((mergeStrand_memStep _ n).trans (drain_memStep _ n)).frames
    have h2 : s2.frames = s1.frames := cvLeave_frames ..
    have h3 : s3.frames = s2.frames := freeIf_frames ..
    have h5 : s5.HasKilled k := h.congr ((h3.trans h2).trans h1)
    split
    · split
      · exact crewDone_hasKilled _ h5
      · exact killNotices_hasKilled (h5.congr (reap_frames _))
    · exact killNotices_hasKilled (h5.congr (reap_frames _))

theorem stopStrand_hasKilled (n : Nat) (h : s.HasKilled k) : (s.stopStrand n).HasKilled k := by
  unfold stopStrand
  split
  · exact h
  · extract_lets s1 s2
    refine endStrand_hasKilled n (h.congr (Eq.trans ?_ (s.abandonCopies_frames n)))
    unfold s2
    split
    · split <;> rfl
    · rfl

theorem stopCrew_hasKilled (i : Nat) (h : s.HasKilled k) : (s.stopCrew i).HasKilled k := by
  unfold stopCrew
  refine foldl_hasKilled (fun s t h => ?_) _ (h.congr ?_)
  · split
    · exact h
    · exact stopStrand_hasKilled _ h
  · rw [retryAll_frames, dropEntries_frames, modCrew_frames]

theorem stopOne_hasKilled (w : Word) (h : s.HasKilled k) : (s.stopOne w).HasKilled k := by
  unfold stopOne
  split
  · exact h
  · split
    · exact h
    · extract_lets s1 s2 s3
      have h2 : s2.frames = s.frames := by
        unfold s2
        split
        · exact closeGroup_frames ..
        · rfl
      have h3 : s3.HasKilled k := foldl_hasKilled (fun s c h => stopCrew_hasKilled c.id h) _ (h.congr h2)
      exact killNotices_hasKilled (h3.congr (reap_frames _))

theorem recallNow_hasKilled (n : Nat) (h : s.HasKilled k) : (s.recallNow n).HasKilled k := by
  unfold recallNow
  split
  · exact h
  · split
    · extract_lets s1 s2 s3 parked s4 s5 s6 s7 s8 s9 s10 s11
      have h3 : s3.frames = s.frames := (leaveWait_frames ..).trans (cancelStrand_frames ..)
      have h4 : s4.frames = s3.frames := freeIf_frames ..
      have h6 : s6.frames = s4.frames := by
        unfold s6
        split
        · rfl
        · exact (giveX_memStep ..).frames
      have h7 : s6.MemStep s7 := s6.writeBack_memStep n true
      have h8 : s8.frames = s6.frames := (s7.releaseSlot_frames n _).trans h7.frames
      have h9 : s9.frames = s8.frames := freeIf_frames ..
      have h10 : s11.frames = s9.frames := (s10.modStrand_frames ..).trans (s9.modCrew_frames ..)
      have h11 : s11.HasKilled k := h.congr (h10.trans <| h9.trans (h8.trans (h6.trans (h4.trans h3))))
      split
      · exact stopStrand_hasKilled n h11
      · exact h11
    · exact h

theorem recallThread_hasKilled (n : Nat) (h : s.HasKilled k) : (s.recallThread n).HasKilled k := by
  unfold recallThread
  split
  · exact h
  · split
    · exact h
    · exact recallNow_hasKilled n h

end State

end Sys2Proof.Machine
end
section
/-! Dispatchers (R58 to R61, R76, R366, R369): placement, posts to a ring, and what RECALL, KILL, FRAMEFREE and FWDRSM find. -/

namespace Sys2Proof.Machine

/-- Bytes that have been written are read back. -/
theorem bytesGet_byteListSet {m : Sparse 8} (hm : swf m = true) (a : Nat) (l : List Byte) :
    bytesGet (byteListSet m a l) a l.length = ofBytes l := by
  induction l generalizing a m with
  | nil => rfl
  | cons b t ih =>
    have hb : sget (byteListSet (sset m a b) (a + 1) t) a = b := by
      rw [sget_byteListSet (sset_swf hm), if_neg (by omega), sget_sset_same hm]
    show (sget (byteListSet (sset m a b) (a + 1) t) a).toNat + 256 * bytesGet (byteListSet (sset m a b) (a + 1) t) (a + 1) t.length = _
    rw [hb, ih (sset_swf hm)]
    rfl

namespace State

variable {s s' : State} {t u : Strand} {c c' : Crew} {f : Frame} {k n q : Nat}

/-! ### Placement -/

theorem alloc_fleets {d n align a : Nat} (h : s.alloc d n align = some (a, s')) : s'.fleets = s.fleets := by
  unfold alloc at h
  split at h
  · cases h
  · cases h; rfl

theorem allocLow_fleets {d n align a : Nat} (h : s.allocLow d n align = some (a, s')) : s'.fleets = s.fleets := by
  unfold allocLow at h
  obtain ⟨x, -, hx⟩ := Option.map_eq_some_iff.1 h
  cases hx; rfl

theorem seatStore_fleets {d : Nat} (h : s.seatStore c d = some (s', c')) : s'.fleets = s.fleets := by
  have hboth (al : State → Nat → Nat → Nat → Option (Nat × State))
      (hal : ∀ s d n a x s', al s d n a = some (x, s') → s'.fleets = s.fleets)
      (h : ((al s d 8192 8192).bind fun r =>
        if c.fleet = 0 then some (r.2, { c with recd := r.1, die := d })
        else (al r.2 d (saveBytes c) 4096).map fun a => (a.2, { c with recd := r.1, die := d, save := a.1 })) = some (s', c')) :
      s'.fleets = s.fleets := by
    obtain ⟨⟨r, s1⟩, h1, h⟩ := Option.bind_eq_some_iff.1 h
    split at h
    · cases h; exact hal _ _ _ _ _ _ h1
    · obtain ⟨⟨a, s2⟩, h2, h⟩ := Option.map_eq_some_iff.1 h
      cases h
      exact (hal _ _ _ _ _ _ h2).trans (hal _ _ _ _ _ _ h1)
  unfold seatStore at h
  dsimp only at h
  split at h
  · next r hr =>
    cases h
    exact hboth State.alloc (fun _ _ _ _ _ _ h => alloc_fleets h) hr
  · next r hr =>
    cases h
    exact hboth State.allocLow (fun _ _ _ _ _ _ h => allocLow_fleets h) hr
  · obtain ⟨⟨a, s1⟩, h1, h⟩ := Option.bind_eq_some_iff.1 h
    obtain ⟨⟨r, s2⟩, h2, h⟩ := Option.map_eq_some_iff.1 h
    cases h
    exact (allocLow_fleets h2).trans (allocLow_fleets h1)

theorem seatFirst_fleets {qs l : List Nat} (h : s.seatFirst c qs = some (s', c', l)) : s'.fleets = s.fleets := by
  obtain ⟨q, -, h⟩ := List.exists_of_findSome?_eq_some h
  obtain ⟨l, -, h⟩ := Option.bind_eq_some_iff.1 h
  obtain ⟨⟨s1, c1⟩, h1, h⟩ := Option.map_eq_some_iff.1 h
  cases h
  unfold seat fresh at h1
  obtain ⟨⟨s2, c2⟩, h2, h1⟩ := Option.map_eq_some_iff.1 h1
  cases h1
  split at h2
  · cases h2; rfl
  · have h3 := seatStore_fleets h2
    exact h3

theorem takeSlot_fleets (s : State) (k n q : Nat) : (s.takeSlot k n q).fleets = s.fleets := by
  unfold takeSlot
  extract_lets was away s1 i s2 rd s3
  have h1 : s1.fleets = s.fleets :=
    ((MemStep.ite (s.writeBack_memStep k true) (.refl s)).trans (follow_memStep _ _ _)).fleets
  have h3 : s3.fleets = s2.fleets := by
    unfold s3
    split
    · rfl
    · exact (s2.giveX_memStep k rd 0).fleets
  have hend := ((s3.ncPoint_memStep n).trans (dropIbuf_memStep _ (.strand k))).fleets
  exact hend.trans (h3.trans ((s1.modStrand_fleets ..).trans h1))

theorem fleet?_modFleet_same {h : Word} {g : Fleet → Fleet} {f : Fleet} (hg : ∀ f, (g f).handle = f.handle)
    (hf : s.fleet? h = some f) : (s.modFleet h g).fleet? h = some (g f) := by
  unfold fleet? modFleet at *
  dsimp only
  generalize s.fleets = l at hf ⊢
  induction l with
  | nil => cases hf
  | cons x l ih =>
    by_cases hx : x.handle = h
    · simp only [List.find?_cons, hx, decide_true, Option.some.injEq] at hf
      subst hf
      simp only [List.map_cons, hx, if_true, List.find?_cons, hg, decide_true]
    · simp only [List.find?_cons, hx, decide_false] at hf
      simp only [List.map_cons, hx, if_false, List.find?_cons, decide_false]
      exact ih hf

/-- A crew of a fleet that is placed is counted (R74). -/
theorem place_fleet {h : Word} (hp : s.place (.fleet h) = some s') :
    ∃ f f', s.fleet? h = some f ∧ s'.fleet? h = some f' ∧ f'.placed = f.placed + 1 := by
  unfold place at hp
  dsimp only at hp
  split at hp
  · cases hp
  · next f hf =>
    split at hp
    · cases hp
    · next s1 c l hseat =>
      cases hp
      have h1 : s1.fleets = s.fresh.2.fleets := seatFirst_fleets hseat
      have hf1 : s1.fleet? h = some f := by unfold fleet?; rw [h1]; exact hf
      refine ⟨f, { f with
        nextC := f.nextC + 1 + (match f.group with
          | some g => ((upto (f.nextC + 1) f.crews).takeWhile fun i => g.st i = 2).length
          | none => 0)
        placed := f.placed + 1 }, hf, ?_, rfl⟩
      refine Eq.trans (congrArg (List.find? _) (foldl_keeps (p := State.fleets) (fun s i => ?_) _ _)) ?_
      · exact (fillLines_memStep ..).fleets.trans ((takeSlot_fleets ..).trans (putStrand_fleets ..))
      · refine fleet?_modFleet_same ?_ hf1
        exact fun _ => rfl

/-- An offer takes the first candidate where it fits (R76). -/
theorem offer_eq {x : Cand} {rest : List Cand} (hc : s.candidates = x :: rest) (hp : s.place x = some s') : s.offer = s' := by
  simp only [offer, hc, List.findSome?_cons, hp]

theorem offer_nil (hc : s.candidates = []) : s.offer = s := by
  simp only [offer, hc, List.findSome?_nil]

/-- A pre-empted crew with a record goes to the first pod of its pool's order where that fits it (R76). -/
theorem place_preempted {i : Nat} {qs l : List Nat} (hc : s.crew? i = some c) (hpre : c.pre = 2) (hr : c.recd ≠ 0)
    (ho : s.poolOrder c = q :: qs) (hfit : s.podFits c q = some l) :
    s.place (.crew i) =
      some (({ s with nextId := s.nextId + 1 }.setPtr c.cls q).putCrew { c with cores := l, order := s.nextId, pre := 3 }) := by
  have hseat : s.seatFirst c (q :: qs) =
      some ({ s with nextId := s.nextId + 1 }.setPtr c.cls q, { c with cores := l, order := s.nextId }, l) := by
    simp only [seatFirst, List.findSome?_cons, hfit, Option.bind_some, seat, fresh, hr, ne_eq, not_false_eq_true, if_true,
      Option.map_some]
  simp only [place, hc, ho, hseat, hpre, if_true]

/-! ### Posts to a ring -/

/-- Over such a step a register other than the count of class changes keeps its reading. -/
theorem MemStep.reg (h : s.MemStep s') (hm : swf s.mmio = true) {a : Nat} (ha : a ≠ classCount) : s'.reg a = s.reg a := by
  obtain ⟨vs, hv⟩ := h.mmio
  have key : ∀ (vs : List Word) (m : Sparse 64), swf m = true →
      sget (vs.foldl (fun m v => sset m classCount v) m) a = sget m a := by
    intro vs
    induction vs with
    | nil => exact fun _ _ => rfl
    | cons v vs ih =>
      intro m hm
      rw [List.foldl_cons, ih _ (sset_swf hm), sget_sset_ne hm ha]
  unfold State.reg
  rw [hv]
  exact key vs s.mmio hm

theorem deliver_mem (s : State) (p : Replica → Bool) : (s.deliver p).mem = s.mem := by
  unfold deliver; split <;> rfl

theorem pokeRaw_mem (s : State) (keep : Nat → Bool) (attr writer pa : Nat) (data : List Byte) :
    (s.pokeRaw keep attr writer pa data).mem = byteListSet s.mem pa data := by
  have hn : (s.patNote pa data).mem = s.mem := by
    unfold patNote
    extract_lets
    split <;> rfl
  exact congrArg (fun m => byteListSet m pa data) hn

/-- The write of a ring entry stands in memory. -/
theorem hwDo_bytes (hI : s.Inv) {w : HwWrite} (ha : w.act = .none) : bytesGet (s.hwDo w).mem w.addr w.data.length = ofBytes w.data := by
  have hm : (s.hwDo w).mem = byteListSet (s.hwOpen w.core w.addr w.data.length true).mem w.addr w.data := by
    unfold hwDo
    rw [ha]
    dsimp only [hwThen]
    split
    · rw [deliver_mem, pokeRaw_mem]
    · exact pokeRaw_mem ..
  rw [hm, bytesGet_byteListSet (mem_swf (State.hwOpen_inv hI))]

/-- What an interrupt that follows a post leaves as it was. -/
structure Quiet (s s' : State) : Prop where
  notices : s'.notices = s.notices
  fwdq : s'.fwdq = s.fwdq
  frames : s'.frames = s.frames
  reg : swf s.mmio = true → ∀ a, a ≠ classCount → s'.reg a = s.reg a

theorem MemStep.quiet (h : s.MemStep s') : s.Quiet s' := ⟨h.notices, h.fwdq, h.frames, fun hm _ ha => h.reg hm ha⟩

theorem sendMsi_zero (s : State) (d : Nat) : s.sendMsi 0 d = s := by
  simp only [sendMsi, if_true]

theorem sendMsi_quiet (s : State) (a d : Nat) : s.Quiet (s.sendMsi a d) := by
  unfold sendMsi
  split
  · exact ⟨rfl, rfl, rfl, fun _ _ _ => rfl⟩
  · split
    · exact ⟨rfl, rfl, rfl, fun _ _ _ => rfl⟩
    · exact (s.hwWrite_memStep ..).quiet

/-- A post to a ring that has room: the tail moves on, and where no interrupt is written the entry stands in its slot (R366). -/
theorem ringPost_of_room (hI : s.Inv) {r slot : Nat} {data : List Byte} (hr : s.RingRoom r data.length slot)
    (htail : r + 0x18 ≠ classCount) (hmsi : r + 0x20 ≠ classCount) :
    ∃ s', s.ringPost r data.length data = some s' ∧ s'.notices = s.notices ∧ s'.fwdq = s.fwdq ∧ s'.frames = s.frames ∧
      s.Posted s' r slot data := by
  obtain ⟨hslot, hfull, hbusy, hmem⟩ := hr
  set w : HwWrite := { core := Config.numCores, addr := slot, data, vis := true } with hw
  set v := w64 ((wbits (s.reg (r + 0x18)) 15 0 + 1) % 2 ^ wbits (s.reg (r + 8)) 4 0)
  have hput : s.hwPut w = s.hwDo w := by
    simp [hwPut, hw, hmem, hbusy]
  have hm : s.MemStep (s.hwDo w) := s.hwDo_memStep fun _ e => by cases e
  have hI1 : (s.hwDo w).Inv := State.hwDo_inv hI
  have hI2 : ((s.hwDo w).setReg (r + 0x18) v).Inv := State.setReg_inv hI1
  have hq := ((s.hwDo w).setReg (r + 0x18) v).sendMsi_quiet
    (((s.hwDo w).setReg (r + 0x18) v).reg (r + 0x20)).toNat (wbits (((s.hwDo w).setReg (r + 0x18) v).reg (r + 0x28)) 31 0)
  refine ⟨_, ?_, hq.notices.trans hm.notices, hq.fwdq.trans hm.fwdq, hq.frames.trans hm.frames, ?_, fun h0 => ?_⟩
  · unfold ringPost
    simp only [← hslot, hfull, hbusy, hmem, decide_false, Bool.or_self, reduceCtorEq, Bool.false_eq_true, if_false]
    rw [← hw, hput]
  · rw [hq.reg (mmio_swf hI2) _ htail]
    exact sget_sset_same (mmio_swf hI1)
  · have hreg : (((s.hwDo w).setReg (r + 0x18) v).reg (r + 0x20)).toNat = 0 := by
      have h1 : ((s.hwDo w).setReg (r + 0x18) v).reg (r + 0x20) = 0 :=
        (sget_sset_ne (mmio_swf hI1) (by omega)).trans ((hm.reg (mmio_swf hI) hmsi).trans h0)
      rw [h1]
      rfl
    rw [hreg, sendMsi_zero]
    exact hwDo_bytes hI rfl

/-! ### Recall -/

/-- A recall of a thread without a slot posts a notice of kind 2, unless the thread was killed (R59, R68). -/
theorem recallNow_notice (ht : s.strand? k = some t) (hc : s.crewOf t = some c) (hf : s.frame? k = some f)
    (hk : f.killed = false) : ∃ s1 : State, s.recallNow k = s1.notice f 2 := by
  unfold recallNow
  simp -zeta only [ht, hc, hf, hk, Bool.false_eq_true, if_false]
  exact ⟨_, rfl⟩

theorem recallThread_resident (ht : s.strand? k = some t) (hst : t.status = .resident) :
    s.recallThread k = s.modStrand k fun t => { t with pendRecall := true } := by
  simp only [recallThread, ht, hst, decide_true, Bool.true_or, if_true]

theorem recallThread_absent (ht : s.strand? k = some t) (hr : t.status ≠ .resident) (hf : t.status ≠ .forwarded)
    (hd : t.depth = 0) : s.recallThread k = s.recallNow k := by
  simp [recallThread, ht, hr, hf, hd]

theorem away_of_resident (hst : t.status = .resident) : s.away t = false := by
  simp [away, hst]

/-- RECALL that names a thread whose frame is on the dispatcher's die, whose result is not posted and that was not killed. -/
theorem recallOp_eq {d : Nat} {v : Word} (hf : s.frame? v.toNat = some f) (ht : s.strand? v.toNat = some t) (hd : f.die = d)
    (hp : f.posted ≠ 1) (ha : s.away t = false) (hk : f.killed = false) : s.recallOp d v = s.recallThread v.toNat := by
  have hi : f.image = v.toNat := (kfind_some hf).1
  simp [recallOp, hf, ht, hd, hp, ha, hk, hi]

/-! ### KILL -/

/-- The state in which KILL stops what the thread runs: its frame is killed. -/
def markKilled (s : State) (k : Nat) : State := s.modFrame k fun f => { f with killed := true, recalled := false }

/-- What KILL does to the fleets and the strand of the thread. -/
def stopThread (s : State) (k : Nat) : State :=
  let s := (s.fleets.filter fun x => x.root = k).foldl (fun s x => s.stopOne x.handle) s
  match s.strand? k with
  | none => s
  | some t =>
    if s.away t then s.stopStrand k
    else if t.status = SStatus.forwarded then { s with ghosts := s.ghosts ++ [(k, k)] }.stopStrand k
    else s.recallThread k

theorem killOp_eq {d : Nat} {v : Word} (hf : s.frame? v.toNat = some f) (hd : f.die = d) (hk : f.killed = false) :
    s.killOp d v = ((s.markKilled v.toNat).stopThread v.toNat).killNotices := by
  have hi : f.image = v.toNat := (kfind_some hf).1
  simp only [killOp, hf, hd, hk, hi, ne_eq, not_true, decide_false, Bool.or_self, Bool.false_eq_true, if_false]
  rfl

theorem markKilled_frame? (hf : s.frame? k = some f) :
    (s.markKilled k).frame? k = some { f with killed := true, recalled := false } := by
  have e := frame?_modFrame (s := s) (k := k) (n := k) (g := fun f => { f with killed := true, recalled := false }) fun _ => rfl
  unfold markKilled
  rw [e, hf, Option.map_some, if_pos rfl]

theorem stopThread_hasKilled (n : Nat) (h : s.HasKilled k) : (s.stopThread n).HasKilled k := by
  unfold stopThread
  extract_lets s1
  have h1 : s1.HasKilled k := foldl_hasKilled (fun s x h => stopOne_hasKilled x.handle h) _ h
  split
  · exact h1
  · split
    · exact stopStrand_hasKilled n h1
    · split
      · exact stopStrand_hasKilled n (h1.congr rfl)
      · exact recallThread_hasKilled n h1

/-- A thread with no fleets and no strand: nothing is to be stopped. -/
theorem stopThread_idle (hfl : s.fleets = []) (ht : s.strand? k = none) : s.stopThread k = s := by
  simp [stopThread, hfl, ht]

theorem stopThread_resident (hfl : s.fleets = []) (ht : s.strand? k = some t) (hst : t.status = .resident) :
    s.stopThread k = s.modStrand k fun t => { t with pendRecall := true } := by
  simp [stopThread, hfl, ht, hst, away_of_resident, recallThread_resident ht hst]

/-- Each killed frame whose thread is idle has its notice of kind 4 (R61). -/
theorem killNotices_notice (hm : f ∈ s.frames) (hk : f.killed = true) (hn : f.noted = false) (hi : s.threadIdle f = true) :
    ({ die := f.die, kind := 4, tag := f.tag, image := f.image } : Notice) ∈ s.killNotices.notices := by
  have key : ∀ (l : List Frame) (s : State),
      (f ∈ l ∨ ({ die := f.die, kind := 4, tag := f.tag, image := f.image } : Notice) ∈ s.notices) →
      ({ die := f.die, kind := 4, tag := f.tag, image := f.image } : Notice) ∈ (l.foldl (fun s f =>
        (s.notice f 4).modFrame f.image fun f => { f with noted := true, recalled := false }) s).notices := by
    intro l
    induction l with
    | nil => exact fun s h => h.resolve_left fun h => by cases h
    | cons x l ih =>
      intro s h
      refine ih _ ?_
      rcases h with h | h
      · rcases List.mem_cons.1 h with rfl | h
        · exact .inr (List.mem_append_right _ (List.mem_singleton_self _))
        · exact .inl h
      · exact .inr (List.mem_append_left _ h)
  exact key _ s (.inl (List.mem_filter.2 ⟨hm, by simp [hk, hn, hi]⟩))

theorem killNotices_strands (s : State) : s.killNotices.strands = s.strands :=
  foldl_keeps (p := State.strands)
    (f := fun s (f : Frame) => (s.notice f 4).modFrame f.image fun f => { f with noted := true, recalled := false })
    (fun _ _ => rfl) _ s

/-! ### FRAMEFREE -/

theorem reap_mem (s : State) : s.reap.mem = s.mem := by
  refine foldl_keeps (p := State.mem) (f := fun s (f : Fleet) => s.dropFleet f.handle) (fun s f => ?_) _ s
  unfold dropFleet
  split <;> rfl

theorem kfind_kdel {α : Type} {key : α → Nat} (l : List α) (k : Nat) : kfind key (kdel key l k) k = none := by
  unfold kfind kdel
  rw [List.find?_eq_none]
  intro x hx
  simpa using (List.mem_filter.1 hx).2

/-- FRAMEFREE of a frame whose end has been posted: the frame is gone, and memory as before (R60). -/
theorem framefreeOp_frees {d : Nat} {v : Word} (hf : s.frame? v.toNat = some f) (hd : f.die = d)
    (hp : f.posted = 1 ∨ f.posted = 4) : (s.framefreeOp d v).frame? v.toNat = none ∧ (s.framefreeOp d v).mem = s.mem := by
  have hi : f.image = v.toNat := (kfind_some hf).1
  have hb : (decide (f.die = d) && (decide (f.posted = 1) || decide (f.posted = 4))) = true := by simpa [hd] using hp
  simp only [framefreeOp, hf, hb, if_true, hi]
  refine ⟨?_, ?_⟩
  · unfold frame?
    rw [reap_frames]
    split <;> exact kfind_kdel _ _
  · rw [reap_mem]
    split <;> rfl

/-! ### FWDRSM -/

theorem fwdrsmOp_resumes {d : Nat} {v : Word} (ht : s.strand? v.toNat = some t) (hf : t.fwd ≠ 0) (hst : t.status = .forwarded)
    (hd : s.crewDie t = d) : ∃ u, (s.fwdrsmOp d v).strand? v.toNat = some u ∧ u.resume = true := by
  unfold fwdrsmOp
  extract_lets k sg s1
  have hs : s1.strands = s.strands ∧ s1.crews = s.crews := by
    unfold s1
    split
    · exact ⟨rfl, rfl⟩
    · dsimp only
      split <;> exact ⟨rfl, rfl⟩
  have ht1 : s1.strand? k = some t := by unfold strand?; rw [hs.1]; exact ht
  have hd1 : s1.crewDie t = d := by
    unfold State.crewDie State.crew? at *
    rw [hs.2]
    exact hd
  refine ⟨_, strand?_modStrand_same (fun x => ?_) ht1, ?_⟩
  · split <;> rfl
  · simp [hf, hst, hd1]

end State

end Sys2Proof.Machine
end
section
/-! The steps of the dispatchers (O52), each from the rule on what it runs. -/

namespace Sys2Proof.Machine

namespace State

variable {s : State} {d : Nat} {v : Word}

/-- The oldest home notice of a die is posted where its ring has room; one of kind 2 makes the thread recalled (R59). -/
theorem postNotice_of_room (hI : s.Inv) {n : Notice} (hn : s.notices.find? (fun n => n.die = d) = some n) {slot : Nat}
    (hr : s.RingRoom (dieReg dispBase d 0x20) 32 slot) :
    (s.postNotice d).notices = s.notices.erase n ∧
      s.Posted (s.postNotice d) (dieReg dispBase d 0x20) slot
        (toBytes n.kind 8 ++ toBytes n.tag.toNat 8 ++ toBytes n.image 8 ++ toBytes s.time.toNat 8) ∧
      ∀ f, n.kind = 2 → s.frame? n.image = some f → f.killed = false →
        ∃ f', (s.postNotice d).frame? n.image = some f' ∧ f'.posted = 2 ∧ f'.recalled = true := by
  have hlen : (toBytes n.kind 8 ++ toBytes n.tag.toNat 8 ++ toBytes n.image 8 ++ toBytes s.time.toNat 8).length = 32 := by
    simp only [List.length_append, toBytes_length]
  generalize hdata : toBytes n.kind 8 ++ toBytes n.tag.toNat 8 ++ toBytes n.image 8 ++ toBytes s.time.toNat 8 = data at hlen ⊢
  have hoff : dieReg dispBase d 0x20 + 0x18 ≠ classCount ∧ dieReg dispBase d 0x20 + 0x20 ≠ classCount := by
    unfold dieReg dispBase classCount attrBase
    omega
  have hr' : s.RingRoom (dieReg dispBase d 0x20) data.length slot := by rw [hlen]; exact hr
  obtain ⟨s1, hpost, hno, -, hfr, hposted⟩ := ringPost_of_room hI hr' hoff.1 hoff.2
  rw [hlen] at hpost
  simp only [postNotice, hn, hdata, hpost]
  refine ⟨?_, ?_, fun f hk hf hkill => ?_⟩
  · split <;> exact congrArg (List.erase · n) hno
  · split <;> exact hposted
  · have hf1 : s1.frame? n.image = some f := by
      unfold frame?
      rw [hfr]
      exact hf
    rw [if_neg (by omega)]
    refine ⟨_, (frame?_modFrame (s := { s1 with notices := s1.notices.erase n }) (k := n.image) (n := n.image)
      (g := fun f => { f with posted := n.kind, recalled := f.recalled || (n.kind = 2 && !f.killed) }) fun _ => rfl).trans
      (congrArg _ hf1), ?_, ?_⟩
    · simp [hk]
    · simp [hk, hkill]

theorem postNotice_full {n : Notice} (hn : s.notices.find? (fun n => n.die = d) = some n)
    (hfull : s.ringPost (dieReg dispBase d 0x20) 32
      (toBytes n.kind 8 ++ toBytes n.tag.toNat 8 ++ toBytes n.image 8 ++ toBytes s.time.toNat 8) = none) : s.postNotice d = s := by
  simp only [postNotice, hn, hfull]

/-- The oldest forward entry of a die is posted where its ring has room, and the notice of kind 3 follows it (R366). -/
theorem postForward_of_room (hI : s.Inv) {n : FwdEntry} (hn : s.fwdq.find? (fun n => n.die = d) = some n) {slot : Nat}
    (hr : ((s.mergeStrand n.image).drain n.image).RingRoom (dieReg trapBase d 0) 16 slot) :
    (s.postForward d).fwdq = s.fwdq.erase n ∧
      ((s.mergeStrand n.image).drain n.image).Posted (s.postForward d) (dieReg trapBase d 0) slot
        (toBytes n.image 8 ++ toBytes n.kind 1 ++ toBytes n.cause 1 ++ toBytes 0 6) ∧
      ∀ f, s.frame? n.root = some f → n.kind ≤ 3 →
        (s.postForward d).notices = s.notices ++ [{ die := f.die, kind := 3, tag := f.tag, image := f.image }] := by
  have hlen : (toBytes n.image 8 ++ toBytes n.kind 1 ++ toBytes n.cause 1 ++ toBytes 0 6).length = 16 := by
    simp only [List.length_append, toBytes_length]
  generalize hdata : toBytes n.image 8 ++ toBytes n.kind 1 ++ toBytes n.cause 1 ++ toBytes 0 6 = data at hlen ⊢
  have hoff : dieReg trapBase d 0 + 0x18 ≠ classCount ∧ dieReg trapBase d 0 + 0x20 ≠ classCount := by
    unfold dieReg trapBase classCount attrBase
    omega
  have hm : s.MemStep ((s.mergeStrand n.image).drain n.image) := (s.mergeStrand_memStep _).trans (drain_memStep _ _)
  have hr' : ((s.mergeStrand n.image).drain n.image).RingRoom (dieReg trapBase d 0) data.length slot := by rw [hlen]; exact hr
  obtain ⟨s1, hpost, hno, hfw, hfr, hposted⟩ :=
    ringPost_of_room (State.drain_inv (State.mergeStrand_inv hI)) hr' hoff.1 hoff.2
  rw [hlen] at hpost
  have hframe : s1.frame? n.root = s.frame? n.root := by
    unfold frame?
    rw [hfr, hm.frames]
  have hroot : ({ s1 with fwdq := s1.fwdq.erase n } : State).frame? n.root = s.frame? n.root := hframe
  simp only [postForward, hn, hdata, hpost, hroot]
  refine ⟨?_, ?_, fun f hf hk => ?_⟩
  · have h1 : s1.fwdq.erase n = s.fwdq.erase n := by rw [hfw, hm.fwdq]
    split
    · split <;> exact h1
    · exact h1
  · split
    · split <;> exact hposted
    · exact hposted
  · simp only [hf, hk, if_true]
    exact congrArg (· ++ _) (hno.trans hm.notices)

theorem postForward_full {n : FwdEntry} (hn : s.fwdq.find? (fun n => n.die = d) = some n)
    (hfull : ((s.mergeStrand n.image).drain n.image).ringPost (dieReg trapBase d 0) 16
      (toBytes n.image 8 ++ toBytes n.kind 1 ++ toBytes n.cause 1 ++ toBytes 0 6) = none) : s.postForward d = s := by
  simp only [postForward, hn, hfull]

/-- What KILL does to the frame that it names, and to a thread with no fleets (R61). -/
theorem killOp_kills {f : Frame} (hf : s.frame? v.toNat = some f) (hd : f.die = d) (hk : f.killed = false) :
    (s.killOp d v).HasKilled v.toNat ∧
      (s.fleets = [] → s.strands = [] → f.noted = false →
        ({ die := f.die, kind := 4, tag := f.tag, image := f.image } : Notice) ∈ (s.killOp d v).notices) ∧
      ∀ t, s.fleets = [] → s.strand? v.toNat = some t → t.status = .resident →
        ∃ u, (s.killOp d v).strand? v.toNat = some u ∧ u.pendRecall = true := by
  have hmark := markKilled_frame? hf
  rw [killOp_eq hf hd hk]
  refine ⟨?_, fun hfl hst hn => ?_, fun t hfl ht hres => ?_⟩
  · exact killNotices_hasKilled (stopThread_hasKilled _ ⟨_, hmark, rfl, rfl⟩)
  · have hnone : (s.markKilled v.toNat).strand? v.toNat = none := by
      show kfind (·.image) s.strands v.toNat = none
      rw [hst]
      rfl
    have hs : (s.markKilled v.toNat).strands = [] := hst
    have hl : (s.markKilled v.toNat).fleets = [] := hfl
    rw [stopThread_idle hl hnone]
    refine killNotices_notice (f := { f with killed := true, recalled := false }) (kfind_some hmark).2 rfl hn ?_
    have hi : f.image = v.toNat := (kfind_some hf).1
    simp [threadIdle, hi, hnone, hs, hl]
  · have ht' : (s.markKilled v.toNat).strand? v.toNat = some t := ht
    refine ⟨{ t with pendRecall := true }, ?_, rfl⟩
    rw [stopThread_resident (s := s.markKilled v.toNat) hfl ht' hres]
    unfold strand?
    rw [killNotices_strands]
    exact strand?_modStrand_same (fun _ => rfl) ht'

end State

end Sys2Proof.Machine

namespace Sys2Proof

open Machine

/-- Settles O52: each step's guard is met, and the rules of placement, posts and kills say what it leaves. -/
theorem dispatcherSteps : Obligations.DispatcherSteps := by
  unfold Obligations.DispatcherSteps
  intro s d v hd hI
  refine ⟨?_, ?_, ?_, ?_, ?_, ?_, ?_, ?_, ?_⟩
  · intro hc
    simp only [exec, execPlacementOffer, State.offer_nil hc]
  · intro i c q qs l rest hcand hc hpre hr ho hfit
    simp only [exec, execPlacementOffer, State.offer_eq hcand (State.place_preempted hc hpre hr ho hfit)]
  · intro h rest hcand hp
    obtain ⟨s', hs'⟩ := Option.isSome_iff_exists.1 hp
    obtain ⟨f, f', hf, hf', hplaced⟩ := State.place_fleet hs'
    exact ⟨s', f, f', by simp only [exec, execPlacementOffer, State.offer_eq hcand hs'], hf, hf', hplaced⟩
  · intro n hn data
    refine ⟨fun slot hr => ?_, fun hfull => ?_⟩
    · exact ⟨_, rfl, State.postNotice_of_room hI hn hr⟩
    · simp only [exec, execHomeNoticePost, State.postNotice_full hn hfull]
  · intro n hn s1 data
    refine ⟨fun slot hr => ?_, fun hfull => ?_⟩
    · exact ⟨_, rfl, State.postForward_of_room hI hn hr⟩
    · simp only [exec, execForwardEntryPost, State.postForward_full hn hfull]
  · intro f t hf ht hdie hp hk
    set s0 := s.setReg (dieReg dispBase d 0x50) v with hs0
    have hf0 : s0.frame? v.toNat = some f := hf
    have ht0 : s0.strand? v.toNat = some t := ht
    refine ⟨fun hst => ?_, fun c hc ha hr hfw hdep => ?_⟩
    · have e : exec (.recallWrite d v) s = .next (s0.modStrand v.toNat fun t => { t with pendRecall := true }) := by
        simp only [exec, execRecallWrite]
        rw [← hs0, State.recallOp_eq hf0 ht0 hdie hp (State.away_of_resident hst) hk, State.recallThread_resident ht0 hst]
      exact ⟨_, _, e, State.strand?_modStrand_same (fun _ => rfl) ht0, rfl, rfl, rfl⟩
    · have hc0 : s0.crewOf t = some c := hc
      have ha0 : s0.away t = false := ha
      obtain ⟨s1, hs1⟩ := State.recallNow_notice ht0 hc0 hf0 hk
      have e : exec (.recallWrite d v) s = .next (s1.notice f 2) := by
        simp only [exec, execRecallWrite]
        rw [← hs0, State.recallOp_eq hf0 ht0 hdie hp ha0 hk, State.recallThread_absent ht0 hr hfw hdep, hs1]
      exact ⟨_, e, List.mem_append_right _ (List.mem_singleton_self _)⟩
  · intro f hf hdie hk
    obtain ⟨⟨f', hf', hk', hr'⟩, hidle, hres⟩ :=
      State.killOp_kills (s := s.setReg (dieReg dispBase d 0x58) v) (f := f) hf hdie hk
    exact ⟨_, f', rfl, hf', hk', hr', hidle, hres⟩
  · intro f hf hdie hp
    obtain ⟨hnone, hmem⟩ := State.framefreeOp_frees (s := s.setReg (dieReg dispBase d 0x60) v) (f := f) hf hdie hp
    exact ⟨_, rfl, hnone, hmem⟩
  · intro t ht hfw hst hdie
    obtain ⟨u, hu⟩ := State.fwdrsmOp_resumes (s := s.setReg (dieReg trapBase d 0x30) v) (t := t) ht hfw hst hdie
    exact ⟨_, u, rfl, hu⟩

end Sys2Proof
end
section
/-! Convergence registers and lane groups (R110 to R131): what each guard of a form makes of the strand's register, once for all
the forms that have it. -/

namespace Sys2Proof.Machine

section

variable {t : Strand} {c : Crew} {n : BitVec 4} {i : Nat}

/-! ### Which register a number names (R111, R120) -/

theorem cvSel_of_limit (hm : t.sMode = false) (hn : c.cvs ≤ n.toNat) : cvSel t c n = .limit := by
  simp [cvSel, hm, Nat.not_lt.2 hn]

theorem cvSel_of_illegal (hm : t.sMode = true) (hn : n ≠ 15) : cvSel t c n = .illegal := by
  simp only [cvSel, hm, if_true, if_neg hn]

/-- In U-mode a number names the register of that number. -/
theorem eq_of_cvSel_uMode (hm : t.sMode = false) (h : cvSel t c n = .ok i) : n.toNat < c.cvs ∧ n.toNat = i := by
  simp only [cvSel, hm, Bool.false_eq_true, if_false] at h
  split at h
  · exact ⟨‹_›, CvSel.ok.inj h⟩
  · cases h

end

/-! ### Who may sign (R114) -/

section

variable {r : CvReg} {sid kind : Nat} {sig : List Nat}

theorem signable_of_not_member (h : sid ∉ r.members) : r.signable sid kind sig = .mismatch := by
  simp [CvReg.signable, h]

/-- A signature that differs from the one pending, in its kind or in what has to agree. -/
theorem signable_of_differs (hm : sid ∈ r.members) (hs : sid ∉ r.signed) (hf : r.fixed = false) (hk : r.kind ≠ 0)
    (hd : r.kind ≠ kind ∨ r.sig ≠ sig) : r.signable sid kind sig = .mismatch := by
  simp [CvReg.signable, hm, hs, hf, hk, hd]

end

namespace State

variable {s : State} {t : Strand} {c : Crew} {n : BitVec 4} {i : Nat}

/-! ### The forms on a register (Table 4.5) -/

theorem onCv_eq (h : s.OnCrew t c) (hs : cvSel t c n = .ok i) (rd : Reg) (g : Strand → Crew → Nat → Out) :
    s.onCv rd n g = g t c i := by
  simp only [onCv, onCrew_eq h, hs]

theorem onCv_of_limit (h : s.OnCrew t c) (hs : cvSel t c n = .limit) (rd : Reg) (g : Strand → Crew → Nat → Out) :
    s.onCv rd n g = .next (s.retX rd (neg 3)) := by
  simp only [onCv, onCrew_eq h, hs, status_eq]

theorem onCv_of_illegal (h : s.OnCrew t c) (hs : cvSel t c n = .illegal) (rd : Reg) (g : Strand → Crew → Nat → Out) :
    s.onCv rd n g = .next (s.trap 2 s.ibits) := by
  simp only [onCv, onCrew_eq h, hs, illegal_eq]

/-- On a strand an acquire is an invalidation point of its W-core (R202). -/
theorem OnStrand.acquire (h : s.OnStrand t) : s.acquire = s.ncPoint t.core := by
  simp only [State.acquire, coreOf, h.cur, h.strand?]

/-! ### Arrivals (R122, R123) -/

/-- A member that may sign: the phase closes over it where it completes, whether it waits for the release or goes on. -/
theorem arrive_of_ok (h : s.OnCrew t c) (hs : cvSel t c n = .ok i) (hg : (c.cvGet i).signable t.sid 1 [] = .ok) (rd : Reg)
    (rx waits : Bool) : s.arrive rd n rx waits =
      let s0 := if rx then s else s.release false
      .next ((if waits then s0.await (.barrier i (c.cvGet i).phase rd (!rx)) else s0.retX rd (w64 (c.cvGet i).phase)).cvArrive
        c.id i t.sid) := by
  simp only [arrive, onCv_eq h hs, hg]
  cases waits <;> rfl

theorem arrive_of_busy (h : s.OnCrew t c) (hs : cvSel t c n = .ok i) (hg : (c.cvGet i).signable t.sid 1 [] = .busy) (rd : Reg)
    (rx waits : Bool) : s.arrive rd n rx waits = .next (s.await (.busy i)) := by
  simp only [arrive, onCv_eq h hs, hg]

theorem arrive_of_mismatch (h : s.OnCrew t c) (hs : cvSel t c n = .ok i)
    (hg : (c.cvGet i).signable t.sid 1 [] = .mismatch) (rd : Reg) (rx waits : Bool) :
    s.arrive rd n rx waits = .next (s.trap 25 s.ibits) := by
  simp only [arrive, onCv_eq h hs, hg, mismatch_eq]

/-! ### Waits on a token (R124) -/

/-- What a wait on a token within the history comes to, by what the register knows of its phase. -/
def tokenWait (s : State) (core i tok : Nat) (rd : Reg) (try' : Bool) : Option Word → State
  | none => if try' then s.retX rd (neg 8) else s.await (.cvWt i tok rd)
  | some v => (if v = 0 then s.ncPoint core else s).retX rd v

theorem waitToken_eq (h : s.OnCrew t c) (hs : cvSel t c n = .ok i) (rd a : Reg) (try' : Bool) : s.waitToken rd a n try' =
    let r := c.cvGet i
    let tok := (s.x a).toNat
    let d := (r.phase + 2 ^ 31 - tok) % 2 ^ 31
    .next (if 2 ^ 31 ≤ tok ∨ 2 ^ 30 < d then s.retX rd (neg 3)
      else if 64 < d then s.retX rd (neg 5)
      else s.tokenWait t.core i tok rd try' (r.answerWt tok false)) := by
  unfold waitToken
  rw [onCv_eq h hs]
  extract_lets r tok d wait
  by_cases hb : 2 ^ 31 ≤ tok
  · rw [if_pos hb, if_pos (.inl hb), status_eq]
  · rw [if_neg hb]
    by_cases hf : 2 ^ 30 < d
    · rw [if_pos hf, if_pos (.inr hf), status_eq]
    · rw [if_neg hf, if_neg (not_or.2 ⟨hb, hf⟩)]
      by_cases ho : 64 < d
      · rw [if_pos ho, if_pos ho, status_eq]
      · rw [if_neg ho, if_neg ho]
        cases r.answerWt tok false with
        | none => cases try' <;> rfl
        | some v => simp only [h.onStrand.acquire, status_eq, tokenWait]

end State

end Sys2Proof.Machine
end
section
/-! Membership of a convergence register (O28), and arrivals and waits on it (O29). -/

namespace Sys2Proof.Machine

section

variable {s : State} {t : Strand} {c : Crew} {n : BitVec 4} {i : Nat}

theorem exec_cvJoin (h : s.OnCrew t c) (hs : cvSel t c n = .ok i) (rd : Reg) : exec (.cvJoin rd n) s =
    .next (if t.sid ∈ (c.cvGet i).members then s.retX rd (neg 4)
      else (s.modCv c.id i fun r => { r with members := insSorted r.members t.sid }).retX rd 0) := by
  simp only [exec, execCvJoin, State.onCv_eq h hs, List.contains_iff_mem, State.status_eq]
  split <;> rfl

theorem exec_cvJoinCrew (h : s.OnCrew t c) (hs : cvSel t c n = .ok i) (rd : Reg) : exec (.cvJoinCrew rd n) s =
    .next (if i = 16 ∨ t.leader = false then s.retX rd (neg 9)
      else if (c.cvGet i).members ≠ [] then s.retX rd (neg 4)
      else (s.modCv c.id i fun r => { r with members := c.live }).retX rd 0) := by
  simp only [exec, execCvJoinCrew, State.onCv_eq h hs, Bool.or_eq_true, decide_eq_true_eq, Bool.not_eq_true',
    List.isEmpty_eq_false_iff, State.status_eq, apply_ite Host.Outcome.next]

theorem exec_cvQuit (h : s.OnCrew t c) (hs : cvSel t c n = .ok i) (rd : Reg) : exec (.cvQuit rd n) s =
    .next (if t.sid ∈ (c.cvGet i).members then (s.cvQuit c.id i t.sid).retX rd 0 else s.retX rd (neg 4)) := by
  simp only [exec, execCvQuit, State.onCv_eq h hs, Bool.not_eq_true', ← Bool.not_eq_true, List.contains_iff_mem, State.status_eq, ite_not]
  split <;> rfl

theorem exec_cvQry (h : s.OnCrew t c) (hs : cvSel t c n = .ok i) (rd a : Reg) : exec (.cvQry rd a n) s =
    .next (s.retX rd (cvQuery (c.cvGet i) t.sid (s.x a).toNat)) := by
  simp only [exec, execCvQry, State.onCv_eq h hs, State.status_eq]

/-- A query code beyond Table 4.7. -/
theorem cvQuery_of_code_gt {q : Nat} (hq : 5 < q) (r : CvReg) (sid : Nat) : cvQuery r sid q = neg 3 := by
  obtain ⟨k, rfl⟩ := Nat.exists_eq_add_of_lt hq
  rw [show 5 + k + 1 = k + 6 by omega]
  rfl

/-- The forms of Table 4.5 look at their register number first (R111, R120). -/
theorem exec_cvForm (rd a : Reg) : ∀ j ∈ [Instr.cvJoin rd n, .cvJoinCrew rd n, .cvQuit rd n, .cvBar rd n, .cvBarRx rd n, .cvArv rd n,
    .cvArvRx rd n, .cvWt rd a n, .cvWtTry rd a n, .cvQry rd a n], ∃ g, exec j s = s.onCv rd n g := by
  simp only [List.forall_mem_cons, List.not_mem_nil, false_imp_iff, implies_true, and_true]
  exact ⟨⟨_, rfl⟩, ⟨_, rfl⟩, ⟨_, rfl⟩, ⟨_, rfl⟩, ⟨_, rfl⟩, ⟨_, rfl⟩, ⟨_, rfl⟩, ⟨_, rfl⟩, ⟨_, rfl⟩, ⟨_, rfl⟩⟩

end

end Sys2Proof.Machine

namespace Sys2Proof

open Machine

/-- Settles O28: the register that the number names decides; each form is then one choice by membership. -/
theorem convergenceMembership : Obligations.ConvergenceMembership := by
  unfold Obligations.ConvergenceMembership
  refine ⟨fun s t c rd a n i h hs => ?_, fun s t c rd a n h j hj => ?_⟩
  · simp only [exec_cvJoin h hs, exec_cvJoinCrew h hs, exec_cvQuit h hs, exec_cvQry h hs]
    refine ⟨fun hm => by rw [if_neg hm], fun hm => by rw [if_pos hm], fun hl => by rw [if_pos hl], fun hi hl hm => ?_,
      fun hi hl hm => ?_, fun hm => by rw [if_pos hm], fun hm => by rw [if_neg hm], fun q hq => ?_,
      fun hq => by rw [cvQuery_of_code_gt hq]⟩
    · rw [if_neg (by simp [hi, hl]), if_pos hm]
    · rw [if_neg (by simp [hi, hl]), if_neg (not_not.2 hm)]
    · simp only [List.mem_cons, Prod.mk.injEq, List.not_mem_nil, or_false] at hq
      obtain ⟨rfl, hc⟩ | ⟨rfl, hc⟩ | ⟨rfl, hc⟩ | ⟨rfl, hc⟩ | ⟨rfl, hc⟩ | ⟨rfl, hc⟩ := hq <;> rw [hc] <;> rfl
  · obtain ⟨g, hg⟩ := exec_cvForm (s := s) rd a j hj
    rw [hg]
    exact ⟨fun hm hn => State.onCv_of_limit h (cvSel_of_limit hm hn) rd g,
      fun hm hn => State.onCv_of_illegal h (cvSel_of_illegal hm hn) rd g⟩

/-- Settles O29: an arrival is decided by whether the member may sign, a wait by the age of its token and what the register knows. -/
theorem arrivals : Obligations.Arrivals := by
  unfold Obligations.Arrivals
  refine ⟨fun s t c rd n i h hs => ⟨fun hg => ?_, fun hg j hj => ?_⟩, fun s t c rd a n i h hs => ?_⟩
  · exact ⟨State.arrive_of_ok h hs hg rd false true, State.arrive_of_ok h hs hg rd true true,
      State.arrive_of_ok h hs hg rd false false, State.arrive_of_ok h hs hg rd true false⟩
  · simp only [List.mem_cons, List.not_mem_nil, or_false] at hj
    obtain rfl | rfl | rfl | rfl := hj <;> exact State.arrive_of_busy h hs hg rd _ _
  · have hw := State.waitToken_eq h hs rd a
    simp only [exec, execCvWt, execCvWtTry, hw]
    generalize ((c.cvGet i).phase + 2 ^ 31 - (s.x a).toNat) % 2 ^ 31 = d
    refine ⟨fun hb => ?_, fun ht hlo hhi => ?_, fun ht hd ha => ?_, fun ht hd ha => ?_, fun ht hd ha => ?_⟩
    · simp only [if_pos hb, and_self]
    · simp only [if_neg (not_or.2 ⟨Nat.not_le.2 ht, Nat.not_lt.2 hhi⟩), if_pos hlo, and_self]
    all_goals
      have hn : ¬(2 ^ 31 ≤ (s.x a).toNat ∨ 2 ^ 30 < d) := by omega
      simp only [if_neg hn, if_neg (Nat.not_lt.2 hd), ha]
      exact ⟨rfl, rfl⟩

end Sys2Proof
end
section
/-! Collective mismatches (O31): lane-group, matrix, drain and control forms whose signature the register refuses. -/

namespace Sys2Proof.Machine

namespace State

variable {s : State} {t : Strand} {c : Crew} {n : BitVec 4} {i : Nat}

theorem lane_of_mismatch (h : s.OnCrew t c) (hs : cvSel t c n = .ok i) {group : Nat} {sig : List Nat}
    (hg : (c.cvGet i).signable t.sid 2 (group :: sig) = .mismatch) (rd a : Reg) (idx : Nat) :
    s.lane rd a n group sig idx = .next (s.trap 25 s.ibits) := by
  simp only [lane, onCrew_eq h, hs, hg, mismatch_eq]

/-- At `mx.pmma`, number 2, the trap breaks a pair that is open (R280). -/
theorem mxForm_of_mismatch (h : s.OnCrew t c) (hm : t.sMode = false) {x : MxArgs} (hi : x.cv.toNat < c.cvs)
    (hg : ∀ sig, (c.cvGet x.cv.toNat).signable t.sid 3 sig = .mismatch) (op : Nat) : s.mxForm op x =
      .next (if op = 2 then (s.trap 25 s.ibits).breakPair c.id x.cv.toNat t.sid else s.trap 25 s.ibits) := by
  simp only [mxForm, onCrew_eq h, hm, Bool.false_eq_true, if_false, if_neg (Nat.not_le.2 hi), hg]

theorem ctlForm_of_mismatch (h : s.OnCrew t c) (hm : t.sMode = false) (hi : n.toNat < c.cvs)
    (hg : ∀ sig, (c.cvGet n.toNat).signable t.sid 4 sig = .mismatch) (op : Nat) (rd : Reg) (v x y : Nat) :
    s.ctlForm op rd n v x y = .next (s.trap 25 s.ibits) := by
  simp only [ctlForm, onCrew_eq h, hm, Bool.false_eq_true, if_false, if_neg (Nat.not_le.2 hi), hg, mismatch_eq]

theorem drnForm_of_mismatch (h : s.OnCrew t c) (hm : t.sMode = false) {x : DrnArgs} (hi : x.cv.toNat < c.cvs)
    (hg : ∀ sig, (c.cvGet x.cv.toNat).signable t.sid 3 sig = .mismatch) (z : Bool) :
    s.drnForm z x = .next (s.trap 25 s.ibits) := by
  simp only [drnForm, onCrew_eq h, hm, Bool.false_eq_true, if_false, if_neg (Nat.not_le.2 hi), hg, mismatch_eq]

end State

section

variable {s : State} {t : Strand} {c : Crew} {n : BitVec 4} {i : Nat}

/-- The lane-group forms, each with what it signs (R131). -/
def laneForms (s : State) (rd a b : Reg) (n : BitVec 4) (o : GOp) (p : FPrec) : List (Instr × List Nat) :=
  let w := (s.x b).toNat
  [(.gpShflIdx rd a b n, [0]), (.gpShflXor rd a b n, [1, w]), (.gpShflUp rd a b n, [2, w]), (.gpShflDn rd a b n, [3, w]),
    (.gpBcst rd a b n, [4, w]), (.gpAll rd a n, [6, 0]), (.gpAny rd a n, [6, 1]), (.gpUni rd a n, [6, 2]), (.gpBlt rd a n, [6, 3]),
    (.gpPcnt rd a n, [6, 4]), (.gpMtchLdr rd a n, [6, 5]), (.gpMtchCnt rd a n, [6, 6]), (.gpRed o rd a n, [6, 8 + gopNum o]),
    (.gpScan o rd a n, [6, 16 + gopNum o]), (.gpXscan o rd a n, [6, 24 + gopNum o]), (.gpRedAddF p rd a n, [7, precBit p]),
    (.gpRedMinF p rd a n, [7, 2 + precBit p]), (.gpRedMaxF p rd a n, [7, 4 + precBit p]), (.gpScanAddF p rd a n, [7, 8 + precBit p]),
    (.gpXscanAddF p rd a n, [7, 12 + precBit p])]

/-- A lane-group form signs its group and the rest of its signature. -/
def LaneSigns (s : State) (rd a : Reg) (n : BitVec 4) (j : Instr × List Nat) : Prop :=
  ∃ group sig idx, exec j.1 s = s.lane rd a n group sig idx ∧ j.2 = group :: sig

theorem exec_laneForms (s : State) (rd a b : Reg) (n : BitVec 4) (o : GOp) (p : FPrec) :
    ∀ j ∈ laneForms s rd a b n o p, LaneSigns s rd a n j := by
  simp only [laneForms, List.forall_mem_cons, List.not_mem_nil, false_imp_iff, implies_true, and_true]
  refine ⟨?_, ?_, ?_, ?_, ?_, ?_, ?_, ?_, ?_, ?_, ?_, ?_, ?_, ?_, ?_, ?_, ?_, ?_, ?_, ?_⟩ <;> exact ⟨_, _, _, rfl, rfl⟩

theorem exec_laneForm_of_mismatch (h : s.OnCrew t c) (hs : cvSel t c n = .ok i) {rd a b : Reg} {o : GOp} {p : FPrec}
    {j : Instr × List Nat} (hj : j ∈ laneForms s rd a b n o p) (hg : (c.cvGet i).signable t.sid 2 j.2 = .mismatch) :
    exec j.1 s = .next (s.trap 25 s.ibits) := by
  obtain ⟨group, sig, idx, hexec, hsig⟩ := exec_laneForms s rd a b n o p j hj
  rw [hexec]
  exact State.lane_of_mismatch h hs (hsig ▸ hg) rd a idx

theorem exec_arrival_of_mismatch (h : s.OnCrew t c) (hs : cvSel t c n = .ok i) (hg : (c.cvGet i).signable t.sid 1 [] = .mismatch)
    (rd : Reg) : ∀ j ∈ [Instr.cvBar rd n, .cvBarRx rd n, .cvArv rd n, .cvArvRx rd n], exec j s = .next (s.trap 25 s.ibits) := by
  simp only [List.forall_mem_cons, List.not_mem_nil, false_imp_iff, implies_true, and_true]
  refine ⟨?_, ?_, ?_, ?_⟩ <;> exact State.arrive_of_mismatch h hs hg rd _ _

theorem exec_control_of_mismatch (h : s.OnCrew t c) (hm : t.sMode = false) (hi : n.toNat < c.cvs)
    (hg : ∀ sig, (c.cvGet n.toNat).signable t.sid 4 sig = .mismatch) (rd a b e : Reg) :
    ∀ j ∈ [Instr.mxTake rd a n, .mxPass rd a b n, .mxTakeTk rd a b e n, .mxPassTk rd a n], exec j s = .next (s.trap 25 s.ibits) := by
  simp only [List.forall_mem_cons, List.not_mem_nil, false_imp_iff, implies_true, and_true]
  refine ⟨?_, ?_, ?_, ?_⟩ <;> exact State.ctlForm_of_mismatch h hm hi hg _ rd _ _ _

/-- The matrix forms and the drains, which sign kind 3. -/
theorem exec_matrix_of_mismatch (h : s.OnCrew t c) (hm : t.sMode = false) {x : MxArgs} {d : DrnArgs} (hx : x.cv = n) (hd : d.cv = n)
    (hi : n.toNat < c.cvs) (hg : ∀ sig, (c.cvGet n.toNat).signable t.sid 3 sig = .mismatch) :
    exec (.mxMma x) s = .next (s.trap 25 s.ibits) ∧ exec (.mxGmma x) s = .next (s.trap 25 s.ibits) ∧
    exec (.mxPmma x) s = .next ((s.trap 25 s.ibits).breakPair c.id n.toNat t.sid) ∧
    exec (.mxDrn d) s = .next (s.trap 25 s.ibits) ∧ exec (.mxDrnZ d) s = .next (s.trap 25 s.ibits) := by
  subst hx
  have hmx := State.mxForm_of_mismatch h hm hi hg
  have hdrn (z : Bool) : s.drnForm z d = .next (s.trap 25 s.ibits) :=
    State.drnForm_of_mismatch h hm (hd ▸ hi) (fun sig => hd ▸ hg sig) z
  exact ⟨hmx 0, hmx 1, hmx 2, hdrn false, hdrn true⟩

end

end Sys2Proof.Machine

namespace Sys2Proof

open Machine

/-- Settles O31: a strand that is no member may sign nothing, and a member nothing that differs from what is pending. -/
theorem collectiveMismatch : Obligations.CollectiveMismatch := by
  unfold Obligations.CollectiveMismatch
  intro s t c rd a b e n i o p x d h hs hx hd r w traps pair arrivals controls lanes
  have hmatrix (hm : t.sMode = false) (hg : ∀ sig, r.signable t.sid 3 sig = .mismatch) :
      traps (.mxMma x) ∧ traps (.mxGmma x) ∧ pair ∧ traps (.mxDrn d) ∧ traps (.mxDrnZ d) := by
    obtain ⟨hi, rfl⟩ := eq_of_cvSel_uMode hm hs
    exact exec_matrix_of_mismatch h hm hx hd hi hg
  have hcontrols (hm : t.sMode = false) (hg : ∀ sig, r.signable t.sid 4 sig = .mismatch) : ∀ j ∈ controls, traps j := by
    obtain ⟨hi, rfl⟩ := eq_of_cvSel_uMode hm hs
    exact exec_control_of_mismatch h hm hi hg rd a b e
  refine ⟨fun hm => ?_, fun hm hn hf hk => ?_⟩
  · have hg (kind : Nat) (sig : List Nat) : r.signable t.sid kind sig = .mismatch := signable_of_not_member hm
    exact ⟨exec_arrival_of_mismatch h hs (hg 1 []) rd, fun j hj => exec_laneForm_of_mismatch h hs hj (hg 2 j.2),
      fun hu => ⟨hcontrols hu (hg 4), hmatrix hu (hg 3)⟩⟩
  · have hg {kind : Nat} {sig : List Nat} (hd : r.kind ≠ kind ∨ r.sig ≠ sig) : r.signable t.sid kind sig = .mismatch :=
      signable_of_differs hm hn hf hk hd
    exact ⟨fun hd => exec_arrival_of_mismatch h hs (hg hd) rd, fun j hj hd => exec_laneForm_of_mismatch h hs hj (hg hd),
      fun hu hd => hcontrols hu fun _ => hg (.inl hd), fun hu hd => hmatrix hu fun _ => hg (.inl hd)⟩

end Sys2Proof
end
section
/-! Fences, invalidation points and prefetches (R104, R105, R194 to R196, R204). -/

namespace Sys2Proof.Machine

/-- What a fold that splits a list keeps in its first part has not been selected for the second. -/
theorem exists_not_selected_of_mem_foldr {α : Type} {sel : α → List α → Bool} {x : α} (l : List α) :
    x ∈ (l.foldr (fun y (acc : List α × List α) => if sel y acc.2 then (acc.1, y :: acc.2) else (y :: acc.1, acc.2)) ([], [])).1 →
      ∃ d, sel x d = false := by
  induction l with
  | nil => exact fun h => absurd h List.not_mem_nil
  | cons y l ih =>
    rw [List.foldr_cons]
    split
    · exact ih
    next hs =>
      refine fun h => (List.mem_cons.1 h).elim (fun e => ?_) ih
      rw [e]
      exact ⟨_, Bool.eq_false_iff.2 hs⟩

namespace State

variable {s s' : State} {t : Strand} {k : Nat}

/-! ### Stores that reach a die -/

/-- A store that has yet to reach its die is none of those delivered. -/
theorem not_of_mem_deliver {p : Replica → Bool} {r : Replica} (h : r ∈ (s.deliver p).replicas) : p r = false := by
  unfold deliver at h
  split at h
  next he => rw [List.isEmpty_iff.1 he] at h; cases h
  next =>
    obtain ⟨d, hd⟩ := exists_not_selected_of_mem_foldr
      (sel := fun y d => p y || d.any fun x => x.meets y.die y.pa y.old.length) s.replicas h
    exact (Bool.or_eq_false_iff.1 hd).1

theorem MemStep.cur (h : s.MemStep s') : s'.cur = s.cur := by rw [h.only]

theorem MemStep.ilen (h : s.MemStep s') : s'.ilen = s.ilen := by rw [h.only]

/-- The W-core of a strand stays what it is. -/
theorem MemStep.coreOf (h : s.MemStep s') (ht : s.strand? k = some t) : s'.coreOf (.strand k) = t.core := by
  obtain ⟨u, hu, hb⟩ := h.strand? ht
  simp only [State.coreOf, hu]
  exact (congrArg Strand.core hb : u.bare.core = t.bare.core)

/-- A release of a strand: its reductions merge, and then its stores reach every die or its own (R204, R228). -/
theorem release_eq (hc : s.cur = .strand k) (wide : Bool) : s.release wide =
    if wide then (s.mergeStrand k).drain k else (s.mergeStrand k).drainDie k (dieOf ((s.mergeStrand k).coreOf s.cur)) := by
  have hcur := (s.mergeStrand_memStep k).cur
  simp only [release, hc, Agent.tag] at hcur ⊢
  rw [hcur]

theorem release_memStep (hc : s.cur = .strand k) (wide : Bool) : s.MemStep (s.release wide) := by
  rw [release_eq hc]
  exact (s.mergeStrand_memStep k).trans (.ite (drain_memStep _ k) (deliver_memStep _ _))

/-- Once a strand has released, a store of its own has yet to reach a die only where the release was narrow, and none its own. -/
theorem replica_of_mem_release (hc : s.cur = .strand k) (ht : s.strand? k = some t) {wide : Bool} {r : Replica}
    (hr : r ∈ (s.release wide).replicas) (hw : r.writer = k) : wide = false ∧ r.die ≠ dieOf t.core := by
  rw [release_eq hc, hc, (s.mergeStrand_memStep k).coreOf ht] at hr
  cases wide with
  | true => simpa [hw] using not_of_mem_deliver (s := s.mergeStrand k) hr
  | false => simpa [hw] using not_of_mem_deliver (s := s.mergeStrand k) hr

/-! ### Fences -/

/-- What a fence of a strand leaves: a release where it orders writes before, and an invalidation point where it orders reads before
reads or writes (R104, R194). -/
theorem fenceOp_eq (hc : s.cur = .strand k) (wide : Bool) (p q : BitVec 4) : s.fenceOp wide p q =
    .next (if p = 0 ∨ q = 0 then s
      else
        let r : State := if p.getLsbD 0 then s.release wide else s
        if p.getLsbD 1 && (q.getLsbD 1 || q.getLsbD 0) then r.ncPoint (r.coreOf s.cur) else r).retire := by
  have hcur : (if p.getLsbD 0 then s.release wide else s).cur = .strand k := by
    split
    · exact (release_memStep hc wide).cur.trans hc
    · exact hc
  simp only [fenceOp, Bool.or_eq_true, decide_eq_true_eq, next_eq, acquire, hcur, hc]
  split <;> rfl

theorem wideScope_eq (hc : s.cur = .strand k) (sc : Scope) : wideScope s sc = (sc = .pk || sc = .sy : Bool) := by
  cases sc <;> simp [wideScope, hc]

/-! ### Prefetches, while nothing is buffered -/

/-- Strands and memory are as before. -/
def KeepsStrandsMem (s s' : State) : Prop := s'.strands = s.strands ∧ s'.mem = s.mem

theorem KeepsStrandsMem.trans {s'' : State} (h : s.KeepsStrandsMem s') (h' : s'.KeepsStrandsMem s'') : s.KeepsStrandsMem s'' :=
  ⟨h'.1.trans h.1, h'.2.trans h.2⟩

theorem KeepsStrandsMem.ite {b : Prop} [Decidable b] {s1 s2 : State} (h1 : s.KeepsStrandsMem s1) (h2 : s.KeepsStrandsMem s2) :
    s.KeepsStrandsMem (if b then s1 else s2) := by
  split
  · exact h1
  · exact h2

theorem dirTouch_keepsStrandsMem (s : State) (who pa n : Nat) (write : Bool) : s.KeepsStrandsMem (s.dirTouch who pa n write) := by
  have hline (s : State) (l : Nat) : s.KeepsStrandsMem (s.dirLine who l write) := by
    unfold dirLine
    (repeat' split) <;> exact ⟨rfl, rfl⟩
  exact ⟨foldl_keeps (p := State.strands) (fun s l => (hline s l).1) _ s, foldl_keeps (p := State.mem) (fun s l => (hline s l).2) _ s⟩

theorem classify_keepsStrandsMem (h : s.rbuf = []) (n pa attr : Nat) : s.KeepsStrandsMem (s.classify n pa attr) := by
  have hm (p : RedEntry → Bool) : s.mergeWhere p = s := by simp [mergeWhere, h]
  unfold classify
  simp only [hm]
  (repeat' split) <;> exact ⟨rfl, rfl⟩

theorem prefetched_keepsStrandsMem (h : s.rbuf = []) (t : Strand) (a : Reg) (w : Bool) : s.KeepsStrandsMem (s.prefetched t a w) := by
  unfold prefetched
  split
  · exact ⟨rfl, rfl⟩
  · simp only [patOpen_of_nil h]
    exact .ite ((classify_keepsStrandsMem (s := s.drawBit.2) h _ _ _).trans (dirTouch_keepsStrandsMem ..)) ⟨rfl, rfl⟩

end State

/-- A prefetch retires after what it has left (R196). -/
theorem exec_prefetch {s : State} {t : Strand} (h : s.OnStrand t) (a : Reg) : ∀ i ∈ [Instr.fnPfL1 a, .fnPfLlc a, .fnPfW a],
    ∃ w, exec i s = .next (s.prefetched t a w).retire := by
  have hp (w : Bool) : s.prefetch a w = .next (s.prefetched t a w).retire := State.onStrand_eq h _
  simp only [List.forall_mem_cons, List.not_mem_nil, false_imp_iff, implies_true, and_true]
  exact ⟨⟨false, hp false⟩, ⟨false, hp false⟩, ⟨true, hp true⟩⟩

end Sys2Proof.Machine

namespace Sys2Proof

open Machine

/-- Settles O24: a fence is a release and an invalidation point, each where its sets ask for it; a release delivers every store of
its strand within its scope. -/
theorem fences : Obligations.Fences := by
  unfold Obligations.Fences
  intro s t k sc fm p q a h hc wide done
  have hk : t.image = k := Agent.strand.inj (h.cur.symm.trans hc)
  have hany (g : Out) : s.onAny g = g := State.onAny_eq h.runs g
  refine ⟨?_, ?_, ?_, ?_, ?_, ?_, ?_, ?_⟩
  · exact (hany _).trans ((State.fenceOp_eq hc _ p q).trans (by rw [State.wideScope_eq hc]))
  · exact (hany _).trans (State.fenceOp_eq hc true p q)
  · exact State.release_eq hc
  · exact fun w r hr hw => State.replica_of_mem_release hc (hk ▸ h.strand?) hr hw
  · exact (hany _).trans (by rw [h.acquire, State.next_eq])
  · simp [State.ncPoint]
  · exact (hany _).trans (by rw [hc]; rfl)
  · intro i hi
    obtain ⟨w, hw⟩ := exec_prefetch h a i hi
    exact ⟨_, hw, fun hb => State.prefetched_keepsStrandsMem hb t a w⟩

end Sys2Proof
end
section
/-! Two statements that fail for one reason: what they ask of the memory that a load finds says nothing of a strand that stands in front
of another of its image in the list, and it is that strand's line that a read of the image writes back (R56). -/

namespace Sys2Proof.Refutations

open Sys2Proof.Machine

/-- Whether a load of `n` bytes finds one page of memory that can be read, in the sense of `State.FindsAtom`. -/
def canLoad (s : State) (va : Word) (n : Nat) : Bool :=
  match s.locate s.cur .load va n with
  | .ok s1 (.mem [p]) => !s1.blocked s.cur p.pa p.n false && !s1.poisonAt p.pa p.n && (s1.imagesAt p.pa p.n).all (·.ue = none) &&
      p.pbmt ≠ 2 && !s1.unsent s.cur p.pa
  | .ok _ (.mem _) => false
  | .ok _ (.mmio _) => false
  | .trap _ _ _ => false
  | .stall _ => false

theorem findsAtom_of_canLoad {s : State} {va : Word} {n : Nat} (h : canLoad s va n = true) :
    ∃ s1 p, s.FindsAtom .load va n true s1 p := by
  unfold canLoad at h
  split at h
  next s1 p e =>
    simp only [Bool.and_eq_true, Bool.not_eq_true', List.all_eq_true, decide_eq_true_eq] at h
    obtain ⟨⟨⟨⟨hblocked, hpoison⟩, hue⟩, hio⟩, hsent⟩ := h
    have hclean : s1.Clean [p] := ⟨by simpa using hpoison, by simpa using hue⟩
    exact ⟨s1, p, ⟨e, by simpa using hblocked⟩, hio, fun _ => ⟨hclean, hsent⟩⟩
  all_goals cases h

theorem reads_of_canLoad {s : State} {va : Word} {n : Nat} (h : canLoad s va n = true) : s.Reads va n := by
  obtain ⟨s1, p, hfinds, -, hclean⟩ := findsAtom_of_canLoad h
  exact ⟨s1, [p], hfinds, (hclean rfl).1⟩

end Sys2Proof.Refutations

namespace Sys2Proof

open Machine Refutations

section

set_option maxRecDepth 100000

/-- Refutes O27: an `lr` at 0x3000 reads the image of a pre-empted strand, whose lines are written back first; the line that is written
is that of the first entry of this image, which is lost, and so the access finds poison and the `lr` returns nothing. -/
theorem not_reservations : ¬ Obligations.Reservations := by
  unfold Obligations.Reservations
  intro h
  obtain ⟨hlr, -⟩ := h
  obtain ⟨s1, p, hfinds⟩ := findsAtom_of_canLoad (s := twoOfOneImage) (va := twoOfOneImage.x 10) (n := 8) (by decide)
  obtain ⟨s', l, -, -, hat, -⟩ := hlr twoOfOneImage s1 forker p true false false 0 10 (show State.curStrand _ = _ by decide) (by decide)
    hfinds (fun x hx => absurd hx List.not_mem_nil) (by decide)
  have hfails : isOk (twoOfOneImage.atomAt .load (twoOfOneImage.x 10) 8 true true) = false := by decide
  rw [show twoOfOneImage.atomAt .load (twoOfOneImage.x 10) 8 true true = .ok s' l from hat] at hfails
  cases hfails

/-- Refutes O40: `ep.load` with its header at 0x3000, the image of that pre-empted strand: the load of the header finds poison. -/
theorem not_engineForms : ¬ Obligations.EngineForms := by
  unfold Obligations.EngineForms
  intro h
  obtain ⟨-, -, -, hload, -⟩ := h twoOfOneImage forker forkerCrew 0 10 0 0 0 ⟨by decide, by decide⟩ (by decide)
  obtain ⟨s1, hdr, hhdr, -⟩ := hload (by decide) (by decide) (by decide) (by decide) (reads_of_canLoad (by decide))
  have hfails : isOk (twoOfOneImage.load (twoOfOneImage.x 10) 4) = false := by decide
  rw [hhdr] at hfails
  cases hfails

end

end Sys2Proof
end
section
/-! The loss of a context line (R387): which operations leave a strand in the list, and the strand that is forwarded. -/

namespace Sys2Proof.Machine

theorem mem_insSorted (l : List Nat) (x : Nat) : x ∈ insSorted l x := by
  induction l with
  | nil => exact List.mem_singleton.2 rfl
  | cons y l ih =>
    unfold insSorted
    split
    · exact List.mem_cons_self
    · split
      next h => rw [h]; exact List.mem_cons_self
      · exact List.mem_cons_of_mem y ih

/-- Crew and number of a strand. -/
def Strand.member (t : Strand) : Nat × Nat := (t.crew, t.sid)

namespace State

variable {s s' : State} {t : Strand} {k : Nat} {m : Nat × Nat}

/-! ### A strand that stays in the list -/

/-- The strand of image `k` is there, with this crew and number. -/
def ListsStrand (s : State) (k : Nat) (m : Nat × Nat) : Prop := ∃ u, s.strand? k = some u ∧ u.member = m

theorem ListsStrand.congr (hs : s.ListsStrand k m) (e : s'.strands = s.strands) : s'.ListsStrand k m := by
  unfold ListsStrand strand? at hs ⊢
  rwa [e]

theorem MemStep.listsStrand (h : s.MemStep s') (hs : s.ListsStrand k m) : s'.ListsStrand k m := by
  obtain ⟨u, hu, hm⟩ := hs
  obtain ⟨v, hv, hb⟩ := h.strand? hu
  exact ⟨v, hv, (congrArg Strand.member hb : v.bare.member = u.bare.member).trans hm⟩

theorem ListsStrand.modStrand (hs : s.ListsStrand k m) {n : Nat} {f : Strand → Strand} (hi : ∀ t, (f t).image = t.image)
    (hf : ∀ t, (f t).member = t.member) : (s.modStrand n f).ListsStrand k m := by
  obtain ⟨u, hu, hm⟩ := hs
  refine ⟨if k = n then f u else u, ?_, ?_⟩
  · rw [strand?_modStrand hi, hu]
    split <;> rfl
  · split
    · exact (hf u).trans hm
    · exact hm

theorem ListsStrand.setCtx (hs : s.ListsStrand k m) (a : Agent) (i : Nat) (v : Word) : (s.setCtx a i v).ListsStrand k m := by
  cases a with
  | strand n => exact hs.modStrand (fun _ => rfl) fun _ => rfl
  | lcore j => exact hs

theorem ListsStrand.retired (hs : s.ListsStrand k m) : s.retired.ListsStrand k m := by
  unfold State.retired
  split
  · exact hs
  · split
    · exact hs
    · exact hs.modStrand (fun _ => rfl) fun _ => rfl

/-! ### An instruction that its strand leaves (R92, R106) -/

theorem finishWith_id_listsStrand (hs : s.ListsStrand k m) (n : Nat) : (s.finishWith n id).ListsStrand k m := by
  unfold finishWith
  split
  · exact hs
  · extract_lets s1 s2
    have h1 : s1.ListsStrand k m := (MemStep.ite (s.fetchClean_memStep n _) (.refl s)).listsStrand hs
    have hset (v : Word) : (({ s1 with cur := .strand n } : State).setPc v).ListsStrand k m :=
      ListsStrand.setCtx (s := { s1 with cur := .strand n }) h1 (.strand n) cPc v
    have h2 : s2.ListsStrand k m := by
      refine ListsStrand.congr (s := State.retired _) (ListsStrand.retired (ListsStrand.modStrand (hset _) ?_ ?_)) rfl
      · exact fun _ => rfl
      · exact fun _ => rfl
    exact (MemStep.ite (s2.writeBack_memStep n true) (.refl s2)).listsStrand h2

theorem finishWith_id_crews (s : State) (n : Nat) : (s.finishWith n id).crews = s.crews := by
  unfold finishWith
  split
  · rfl
  · extract_lets s1 s2
    have h1 : s1.crews = s.crews := (MemStep.ite (s.fetchClean_memStep n _) (.refl s)).crews
    have h2 : s2.crews = s1.crews := by
      show (State.retired _).crews = _
      rw [retired_crews, modStrand_crews, setPc_crews]
      rfl
    exact ((MemStep.ite (s2.writeBack_memStep n true) (.refl s2)).crews.trans h2).trans h1

theorem leaveWait_listsStrand (hs : s.ListsStrand k m) (t : Strand) : (s.leaveWait t).ListsStrand k m := by
  unfold leaveWait
  split
  · exact hs
  · split
    · exact hs
    · exact finishWith_id_listsStrand hs _
    · exact hs.modStrand (fun _ => rfl) fun _ => rfl

theorem leaveWait_crews (s : State) (t : Strand) : (s.leaveWait t).crews = s.crews := by
  unfold leaveWait
  split
  · rfl
  · split
    · rfl
    · exact s.finishWith_id_crews _
    · rfl

/-! ### Forwarding -/

/-- The strand of this crew and number is a member of no register of its crew. -/
def NoMember (s : State) (m : Nat × Nat) : Prop := ∀ c, s.crew? m.1 = some c → ∀ i ∈ c.cvNums, m.2 ∉ (c.cvGet i).members

theorem NoMember.congr (h : s.NoMember m) (e : s'.crews = s.crews) : s'.NoMember m := by
  unfold NoMember crew? at h ⊢
  rwa [e]

/-- A strand that is a member of no register has no signature to cancel. -/
theorem cancelStrand_of_noMember (h : s.NoMember t.member) (reason : Nat) : s.cancelStrand t reason = s := by
  unfold cancelStrand
  split
  · rfl
  next c hc =>
    refine (List.foldl_ext _ (fun s _ => s) s fun s i hi => ?_).trans (List.foldl_fixed _)
    rw [if_neg]
    simpa [Strand.member] using h c hc i hi

/-- Forward(kind) leaves the strand forwarded with that kind (R367). -/
theorem forward_spec (hs : s.ListsStrand k m) (hn : s.NoMember m) (kind : Nat) (pc : Word) :
    ∃ u, (s.forward k kind pc).strand? k = some u ∧ u.status = .forwarded ∧ u.fwd = kind := by
  obtain ⟨t, ht, rfl⟩ := hs
  have h1 : (s.clearMarks k).strand? k = some { t with marks := [] } := strand?_modStrand_same (fun _ => rfl) ht
  obtain ⟨v, hv, hvb⟩ := releaseSlot_strand? .forwarded h1
  unfold forward
  simp -zeta only [ht]
  extract_lets s1 s2 s3 s4 s5
  have h2 : s2 = s1 := cancelStrand_of_noMember (hn.congr (s' := s1) rfl) 3
  have h3 : s3.strand? k = some v := by
    unfold s3
    rw [h2]
    exact hv
  obtain ⟨w, hw, hwb⟩ := (s3.fetchLine_memStep k 14).strand? h3
  obtain ⟨x, hx, hxb⟩ := (s4.writeBack_memStep k true).strand? (strand?_modStrand_same (fun _ => rfl) hw)
  have hfwd : x.fwd = kind := (congrArg Strand.fwd hxb : x.bare.fwd = _)
  have hstatus : x.status = .forwarded :=
    calc x.status = w.status := (congrArg Strand.status hxb : x.bare.status = _)
      _ = v.status := (congrArg Strand.status hwb : w.bare.status = _)
      _ = .forwarded := (congrArg Strand.status hvb : v.bare.status = _)
  have hx5 : s5.strand? k = some x := hx
  simp -zeta only [hx5]
  extract_lets cause s6
  obtain ⟨u, hu, hub⟩ := (MemStep.ite (s5.faultRecord_memStep ..) (.refl s5) : s5.MemStep s6).strand? hx5
  exact ⟨u, hu, (congrArg Strand.status hub : u.bare.status = _).trans hstatus, (congrArg Strand.fwd hub : u.bare.fwd = _).trans hfwd⟩

/-- The strand is forwarded with state 3, and the line of its image is poisoned. -/
theorem lineLost_spec (hs : s.ListsStrand k m) (hn : s.NoMember m) (line : Nat) :
    ∃ u, (s.lineLost k line).strand? k = some u ∧ u.status = .forwarded ∧ u.fwd = 3 ∧ k / 64 + line ∈ (s.lineLost k line).poison := by
  obtain ⟨t, ht, hm⟩ := id hs
  unfold lineLost
  simp -zeta only [ht]
  extract_lets s1 s2
  have h1 : s1.ListsStrand k m := (leaveWait_listsStrand hs t).modStrand (fun _ => rfl) fun _ => rfl
  have hn1 : s1.NoMember m := hn.congr (s.leaveWait_crews t)
  obtain ⟨u, hu, hst, hfwd⟩ : ∃ u, s2.strand? k = some u ∧ u.status = .forwarded ∧ u.fwd = 3 := forward_spec h1 hn1 3 _
  exact ⟨_, strand?_modStrand_same (s := { s2 with poison := insSorted s2.poison (k / 64 + line) }) (fun _ => rfl) hu, hst, hfwd,
    mem_insSorted ..⟩

theorem strandRecord_memStep (s : State) (t : Strand) (kind cause inner : Nat) (pc tval : Word) (pa : Nat) :
    s.MemStep (s.strandRecord t kind cause inner pc tval pa) := s.faultRecord_memStep ..

theorem MemStep.finishing (h : s.MemStep s') (t : Strand) : s'.finishing t = s.finishing t := by
  unfold State.finishing mustEnd crewOf
  rw [h.crew?, h.owed]

end State

/-- An error in a context line of a strand that may leave forwards it (R387). -/
theorem exec_ueCoreStorage_contextLine {s : State} {t : Strand} {k line : Nat} (ht : s.strand? k = some t) (hst : t.status = .resident)
    (hp : t.present.getLsbD line = true) (hl : line < 16) (hfin : s.finishing t = false) (hstop : t.stopped = false)
    (hn : s.NoMember t.member) : ∃ (s' : State) (u : Strand), exec (.ueCoreStorage (.contextLine k line)) s = .next s' ∧
      s'.strand? k = some u ∧ u.status = .forwarded ∧ u.fwd = 3 ∧ k / 64 + line ∈ s'.poison := by
  have hrec := s.strandRecord_memStep t 7 0 0 (t.cw cPc) (w64 (64 * line)) 0
  obtain ⟨u, hu⟩ := State.lineLost_spec (hrec.listsStrand ⟨t, ht, rfl⟩) (hn.congr hrec.crews) line
  refine ⟨_, u, ?_, hu⟩
  simp [exec, execUeCoreStorage, ht, hst, hp, hl, hstop, hrec.finishing, hfin]

end Sys2Proof.Machine
end
section
/-! The steps of reduction buffers, holds, replicas, copies and engine queues, and uncorrectable errors (O53). -/

namespace Sys2Proof.Machine

section

variable {s : State}

/-! ### Reductions and holds -/

theorem exec_atomicPerform_one {core line : Nat} {e : RedEntry} (h : s.redLine core line = [e]) :
    exec (.atomicPerform core line) s = .next (s.mergeEntry e false) := by
  simp only [exec, execAtomicPerform, h, List.foldl_cons, List.foldl_nil]

/-- An entry merges by age once it is 65,536 cc old (R228). -/
theorem exec_rbAgeMerge_one {core line : Nat} {e : RedEntry} (h : s.redLine core line = [e]) :
    exec (.rbAgeMerge core line) s = .next (if e.born + 65536 ≤ s.cc core then s.mergeEntry e true else s) := by
  simp only [exec, execRbAgeMerge, h, List.filter_cons, List.filter_nil, decide_eq_true_eq]
  split <;> rfl

theorem holdKept_iff (s : State) (h : Hold) : s.holdKept h = true ↔
    s.holdActive h = true ∨ h.waiters ≠ [] ∨ h.reqs.any s.reqLive = true ∨ s.hwWants h.granule = true := by
  simp only [State.holdKept, Bool.or_eq_true, Bool.not_eq_true', List.isEmpty_eq_false_iff, or_assoc]

/-- Of the holds on a granule, those stay that are in force or that something waits for (R217). -/
theorem exec_lrHoldEnd (s : State) (core line : Nat) : ∃ s' : State, exec (.lrHoldEnd core line) s = .next s' ∧ s'.mem = s.mem ∧
    ∀ h ∈ s'.holds, h.core = core → h.granule = line → s.holdKept h = true := by
  refine ⟨_, rfl, rfl, fun h hh hc hg => ?_⟩
  simpa [hc, hg] using (List.mem_filter.1 hh).2

/-! ### Phases that are released -/

theorem cvMod_id (c : Crew) (n : Nat) (f : CvReg → CvReg) : (c.cvMod n f).id = c.id := by
  unfold Crew.cvMod
  split <;> rfl

/-- A register after its update, which one that the crew does not have has not. -/
theorem cvGet_cvMod_same (c : Crew) (n : Nat) (f : CvReg → CvReg) :
    (c.cvMod n f).cvGet n = f (c.cvGet n) ∨ (c.cvMod n f).cvGet n = {} := by
  unfold Crew.cvMod Crew.cvGet
  split
  · exact .inl rfl
  · dsimp only
    rw [lmod_getD]
    split
    · exact .inl rfl
    next h =>
      right
      rw [List.getD_eq_getElem?_getD, List.getElem?_eq_none (Nat.not_lt.1 fun hn => h ⟨rfl, hn⟩)]
      rfl

/-- The phases that stay unreleased each wait for an entry that is still queued (R122). -/
theorem exec_barrierPhaseRelease (s : State) (id n : Nat) :
    ∃ s' : State, exec (.barrierPhaseRelease id n) s = .next (s'.cvWake id n) ∧
      ∀ c, s'.crew? id = some c → ∀ u ∈ (c.cvGet n).unrel, ∃ i ∈ u.2, ∃ e ∈ s.engine, e.id = i := by
  refine ⟨_, rfl, fun c hc u hu => ?_⟩
  rw [State.modCv, State.crew?_modCrew fun c => cvMod_id c n _, if_pos rfl] at hc
  obtain ⟨c0, -, rfl⟩ := Option.map_eq_some_iff.1 hc
  obtain e | e := cvGet_cvMod_same c0 n fun r =>
    { r with unrel := r.unrel.filter fun u => u.2.any fun i => s.engine.any fun e => e.id = i }
  · rw [e] at hu
    simpa using (List.mem_filter.1 hu).2
  · rw [e] at hu
    cases hu

/-! ### Copies -/

theorem copyDone_mem (s : State) (id : Nat) : (s.copyDone id).mem = s.mem := by
  unfold State.copyDone
  split <;> rfl

theorem mem_of_mem_copyDone {id : Nat} {x : Copy} (h : x ∈ (s.copyDone id).copies) : x ∈ s.copies := by
  unfold State.copyDone at h
  split at h
  · exact h
  · exact mem_kdel h

/-- The oldest spilled descriptor of a strand enters its queue, or ends there where it has no lines (R237). -/
theorem exec_copyDescriptorReadback {k : Nat} {c : Copy} {rest : List Copy} (h : s.spilledOf k = c :: rest)
    (hr : s.cpRoom c.core k = true) : ∃ s' : State, exec (.copyDescriptorReadback k) s = .next s' ∧ s'.mem = s.mem ∧
      ∀ x ∈ s'.copies, x.id = c.id → x.stage = 0 := by
  simp -zeta only [exec, execCopyDescriptorReadback, h, hr, if_true]
  extract_lets own s1
  have hs1 : ∀ x ∈ s1.copies, x.id = c.id → x.stage = 0 := by
    intro x hx hid
    obtain hx | hx := List.mem_append.1 (show x ∈ kdel (fun (x : Copy) => x.id) s.copies c.id ++ _ from hx)
    · exact absurd hid (by simpa using (List.mem_filter.1 hx).2)
    · rw [List.mem_singleton.1 hx]
  refine ⟨_, rfl, ?_, fun x hx => ?_⟩
  · split
    · exact copyDone_mem ..
    · rfl
  · split at hx
    · exact hs1 x (mem_of_mem_copyDone hx)
    · exact hs1 x hx

theorem exec_copyChunkWrite {id n : Nat} {c : Copy} (hc : kfind (·.id) s.copies id = some c) (hr : s.chunkReady c n = true) :
    exec (.copyChunkWrite id n) s = .next (s.chunkWrite c n) := by
  simp only [exec, execCopyChunkWrite, hc, hr, if_true]

/-! ### Engine queues -/

/-- A pair that has waited 65,536 cc for its other side is withdrawn (R280). -/
theorem exec_pmmaPairTimeout {id n x : Nat} {c : Crew} (hc : s.crew? id = some c) (hx : (c.cvGet n).sideFrom = some x)
    (hk : (c.cvGet n).kind = 3) (ho : (c.cvGet n).sig.getD 0 0 = 2) (hf : (c.cvGet n).fixed = false)
    (ht : x + 65536 ≤ s.ccRun (c.coreNum 0)) :
    exec (.pmmaPairTimeout id n) s = .next (s.cvWithdraw id n (c.cvGet n) fun _ => false) := by
  simp only [exec, execPmmaPairTimeout, hc, hx, hk, ho, hf, ht, decide_true, Bool.not_false, Bool.and_self, if_true]

/-- A matrix operation without a mate reads its operands as they stand where nothing has been written since it entered (R262). -/
theorem exec_engineEntryStart {core : Nat} {e : EngEntry} {rest : List EngEntry} {c : Crew} {fmt m n : Nat} {z : Bool}
    {acc a b p : Nat} {rows : Option (List (List Nat))} (hq : (s.queueOf core).dropWhile (·.started) = e :: rest)
    (hc : s.crew? e.crew = some c) (hl : e.late = []) (ho : e.op = .mma fmt m n z acc a b p rows none) :
    let o := State.mxOperands c fmt m n a b p rows
    exec (.engineEntryStart core) s = .next { s with engine := s.engine.map fun x =>
      if x.id = e.id then { x with op := .calc fmt m n z acc o.1 o.2.1 (o.2.2 || e.bad) } else x } := by
  simp only [exec, execEngineEntryStart, hq, ho, hc, hl, State.lateView, List.foldl_nil, reduceCtorEq, if_false]

/-- A started operation without poison or failed elements makes its accumulator writes (R262, R272). -/
theorem exec_matrixWritesLand {core : Nat} {e : EngEntry} {rest : List EngEntry} {c : Crew} {fmt m n : Nat} {z : Bool} {acc : Nat}
    {ar br : List (List Nat)} (hq : s.queueOf core = e :: rest) (hc : s.crew? e.crew = some c)
    (ho : e.op = .calc fmt m n z acc ar br false) (hb : State.mxBad c e.v fmt m n z acc false = false) :
    exec (.matrixWritesLand core) s = .next (((s.modCrew e.crew fun c => State.mxPerform c e.v fmt m n z acc ar br false).modCore core
      fun k => { k with mxcnt := k.mxcnt + 1 }).entryDone e 0) := by
  simp only [exec, execMatrixWritesLand, hq, ho, hc, hb, Bool.false_eq_true, if_false]

/-! ### Uncorrectable errors -/

/-- A poisoned line is recorded for the W-core that owned it (R386). -/
theorem exec_ueWriteback {n : Nat} (hm : s.memAt (n * 64) = .ok) (ht : (sget s.owners n).toNat ≠ 0) :
    let tag := (sget s.owners n).toNat
    let s1 : State := { s with poison := insSorted s.poison n, owners := sset s.owners n 0 }
    exec (.ueWriteback n) s = .next (if bits tag 24 24 = 1 then
      s1.faultRecord (bits tag 23 16) { kind := 5, pa := n * 64, image := bits tag 23 0 } else s1) := by
  simp only [exec, execUeWriteback, hm, ht, ne_eq, not_true, decide_false, Bool.or_self, Bool.false_eq_true, if_false]

/-- A crew after its update and a fault record. -/
theorem crew?_modCrew_faultRecord {n : Nat} {c : Crew} {f : Crew → Crew} (hf : ∀ c, (f c).id = c.id) (hc : s.crew? n = some c)
    (core : Nat) (r : FaultRec) : ((s.modCrew n f).faultRecord core r).crew? n = some (f c) :=
  ((s.modCrew n f).faultRecord_memStep core r).crew? n ▸ State.crew?_modCrew_same hf hc

theorem exec_ueCoreStorage_stageRow {n r : Nat} {c : Crew} (hc : s.crew? n = some c) (hp : c.pre < 2)
    (hi : c.stageIn (64 * r) 1 = true) : ∃ (s' : State) (c' : Crew), exec (.ueCoreStorage (.stageRow n r)) s = .next s' ∧
      s'.crew? n = some c' ∧ r ∈ c'.rowPoison ∧ c'.stage = c.stage := by
  simp only [exec, execUeCoreStorage, hc, hp, hi, decide_true, Bool.and_self, if_true]
  exact ⟨_, _, rfl, crew?_modCrew_faultRecord (by exact fun _ => rfl) hc _ _, mem_insSorted .., rfl⟩

theorem exec_ueCoreStorage_accElement {n r : Nat} {c : Crew} (hc : s.crew? n = some c) (hp : c.pre < 2) (hv : r / 2 ^ 17 < c.k) :
    ∃ (s' : State) (c' : Crew), exec (.ueCoreStorage (.accElement n r)) s = .next s' ∧ s'.crew? n = some c' ∧ r ∈ c'.accFail := by
  simp only [exec, execUeCoreStorage, hc, hp, hv, decide_true, Bool.and_self, if_true]
  exact ⟨_, _, rfl, crew?_modCrew_faultRecord (by exact fun _ => rfl) hc _ _, mem_insSorted ..⟩

end

end Sys2Proof.Machine

namespace Sys2Proof

open Machine

/-- Settles O53: each step is what its event does where it is enabled, and what records, copies and forwarding leave of the rest. -/
theorem engineSteps : Obligations.EngineSteps := by
  unfold Obligations.EngineSteps
  refine ⟨fun s core line id n => ⟨?_, ?_, ?_, ?_, ?_, ?_, ?_, ?_, ?_, ?_, ?_, ?_⟩, fun s n r => ⟨?_, ?_, ?_, ?_⟩⟩
  · exact fun e h => ⟨exec_atomicPerform_one h, fun ha => (exec_rbAgeMerge_one h).trans (by rw [if_pos ha]),
      fun ha => (exec_rbAgeMerge_one h).trans (by rw [if_neg (Nat.not_le.2 ha)])⟩
  · obtain ⟨s', hexec, hmem, hkept⟩ := exec_lrHoldEnd s core line
    exact ⟨s', hexec, hmem, fun h hh hc hg => (holdKept_iff s h).1 (hkept h hh hc hg)⟩
  · intro r die pa hr
    simp only [exec, execReplicaUpdate, hr]
  · exact exec_barrierPhaseRelease s id n
  · exact fun c rest h hr => exec_copyDescriptorReadback h hr
  · intro c e hc he
    simp only [exec, execCopyBegin, hc, he]
  · exact fun c hc hr => exec_copyChunkWrite hc hr
  · exact fun c x hc hx hk ho hf ht => exec_pmmaPairTimeout hc hx hk ho hf ht
  · exact fun e rest c fmt m nn z acc a b p rows hq hc hl ho => exec_engineEntryStart hq hc hl ho
  · exact fun e rest c fmt m nn z acc ar br hq hc ho hb => exec_matrixWritesLand hq hc ho hb
  · intro e rest p h w b0 b1 x hq ho
    simp only [exec, execEpilogueEntry, hq, ho]
  · intro e rest p h w acc b0 b1 x z hq ho
    simp only [exec, execEpilogueEntry, hq, ho]
  · exact fun hm ht => exec_ueWriteback hm ht
  · exact fun c hc hp hi => exec_ueCoreStorage_stageRow hc hp hi
  · exact fun c hc hp hv => exec_ueCoreStorage_accElement hc hp hv
  · exact fun t ht hst hp hl hfin hstop _ hn => exec_ueCoreStorage_contextLine ht hst hp hl hfin hstop hn

end Sys2Proof
end
section
/-! Lane groups (O30): what the forms sign (R130, R131, R136), and what a completed group gives each rank (R137 to R140). -/

namespace Sys2Proof.Machine

namespace State

variable {s : State} {t : Strand} {c : Crew} {n : BitVec 4} {i : Nat}

theorem lane_of_ok (h : s.OnCrew t c) (hs : cvSel t c n = .ok i) {group : Nat} {sig : List Nat}
    (hg : (c.cvGet i).signable t.sid 2 (group :: sig) = .ok) (rd a : Reg) (idx : Nat) : s.lane rd a n group sig idx =
      .next (s.cvSign t i 2 (group :: sig) rd [(if group = 7 then s.f a else s.x a).toNat, idx]) := by
  simp only [lane, onCrew_eq h, hs, hg]

end State

/-! ### Results by rank -/

theorem upto_zero (n : Nat) : upto 0 n = List.range n := by
  have hrange (a : Nat) : upto a n = List.range' a n := by
    induction n generalizing a with
    | zero => rfl
    | succ n ih => rw [upto, ih, List.range'_succ]
  rw [hrange, List.range_eq_range']

theorem getD_map_upto {α : Type} {j m : Nat} (hj : j < m) (r : Nat → α) (d : α) : ((upto 0 m).map r).getD j d = r j := by
  simp [upto_zero, List.getD_eq_getElem?_getD, hj]

theorem getD_map_const {α β : Type} {l : List α} {j : Nat} (hj : j < l.length) (x d : β) : (l.map fun _ => x).getD j d = x := by
  simp [List.getD_eq_getElem?_getD, hj]

theorem toNat_w64 {n : Nat} (h : n < 2 ^ 64) : (w64 n).toNat = n := by
  rw [w64, BitVec.toNat_ofNat, Nat.mod_eq_of_lt h]

theorem w64_b2n (b : Bool) : w64 (b2n b) = if b then 1 else 0 := by cases b <;> rfl

/-- The operand of a rank, where every rank is asked for. -/
theorem all_iff_getD {l : List Word} {p : Word → Bool} : l.all p = true ↔ ∀ k, k < l.length → p (l.getD k 0) = true := by
  rw [List.all_eq_true, List.forall_mem_iff_getElem]
  exact forall₂_congr fun k hk => by rw [List.getD_eq_getElem _ _ hk]

theorem any_iff_getD {l : List Word} {p : Word → Bool} : l.any p = true ↔ ∃ k, k < l.length ∧ p (l.getD k 0) = true := by
  rw [← not_iff_not, Bool.not_eq_true, List.any_eq_false]
  simp only [List.forall_mem_iff_getElem, not_exists, not_and]
  exact forall₂_congr fun k hk => by rw [List.getD_eq_getElem _ _ hk]

/-- The number that a ballot builds has the bits of the ranks that it asks for. -/
theorem foldl_pow_testBit (p : Nat → Bool) (n : Nat) :
    let x := (upto 0 n).foldl (fun acc b => if p b then acc + 2 ^ b else acc) 0
    x < 2 ^ n ∧ ∀ b, x.testBit b = (decide (b < n) && p b) := by
  rw [upto_zero]
  induction n with
  | zero => simp
  | succ n ih =>
    obtain ⟨hlt, hbit⟩ := ih
    rw [List.range_succ, List.foldl_append]
    generalize (List.range n).foldl _ 0 = x at hlt hbit
    simp only [List.foldl_cons, List.foldl_nil]
    have hpow : 2 ^ (n + 1) = 2 ^ n + 2 ^ n := by rw [Nat.pow_succ]; omega
    refine ⟨by split <;> omega, fun b => ?_⟩
    have hsplit : b < n + 1 ↔ b < n ∨ n = b := by omega
    by_cases hp : p n
    · have hor : x + 2 ^ n = 2 ^ n ||| x := by
        have := Nat.two_pow_add_eq_or_of_lt hlt 1
        rwa [Nat.mul_one, Nat.add_comm] at this
      rw [if_pos hp, hor, Nat.testBit_or, Nat.testBit_two_pow, hbit]
      by_cases hb : n = b
      · subst hb; simp [hp]
      · simp [hsplit, hb]
    · rw [if_neg hp, hbit]
      by_cases hb : n = b
      · subst hb; simp [hp]
      · simp [hsplit, hb]

/-- The first rank that holds what rank j holds. -/
theorem findIdx_eq_getD {l : List Word} {j : Nat} (hj : j < l.length) :
    let i := l.findIdx (· = l.getD j 0)
    i ≤ j ∧ l.getD i 0 = l.getD j 0 ∧ ∀ k, k < i → l.getD k 0 ≠ l.getD j 0 := by
  intro i
  have hbefore (k : Nat) (hk : k < i) : l.getD k 0 ≠ l.getD j 0 := by
    have := List.not_of_lt_findIdx hk
    rw [List.getD_eq_getElem _ _ (hk.trans_le List.findIdx_le_length)]
    exact of_decide_eq_false this
  have hij : i ≤ j := Nat.le_of_not_lt fun hlt => hbefore j hlt rfl
  refine ⟨hij, ?_, hbefore⟩
  rw [List.getD_eq_getElem _ _ (hij.trans_lt hj)]
  exact of_decide_eq_true (List.findIdx_getElem (w := hij.trans_lt hj))

/-! ### Integer forms -/

section

variable {ops : List (Word × Nat)} {j : Nat} (group sub : Nat)

theorem laneInt_length (ops : List (Word × Nat)) : (laneInt group sub ops).length = ops.length := by
  rw [laneInt, List.length_map, upto_length]

/-- A source rank that no member has is the member's own (R137). -/
theorem ite_source (e : Int) (j m : Nat) :
    (if e < 0 || (m : Int) ≤ e then j else e.toNat) = if 0 ≤ e ∧ e < m then e.toNat else j := by
  by_cases h : 0 ≤ e ∧ e < m
  · rw [if_pos h, if_neg (by simp; omega)]
  · rw [if_neg h, if_pos (by simp; omega)]

variable {group sub}

theorem laneInt_shuffle (hj : j < ops.length) (hg : group < 5) {e : Int}
    (he : shflSrc group j (ops.getD j (0, 0)).2 ops.length = if 0 ≤ e ∧ e < ops.length then e.toNat else j) :
    (laneInt group sub ops).getD j 0 =
      if 0 ≤ e ∧ e < ops.length then (ops.map (·.1)).getD e.toNat 0 else (ops.map (·.1)).getD j 0 := by
  rw [laneInt, getD_map_upto hj]
  simp only [if_pos hg, he]
  split <;> rfl

theorem laneInt_all (hj : j < ops.length) : (laneInt 6 0 ops).getD j 0 =
    if ∀ k, k < ops.length → (ops.map (·.1)).getD k 0 ≠ 0 then 1 else 0 := by
  rw [laneInt, getD_map_upto hj]
  refine (w64_b2n _).trans (if_congr ?_ rfl rfl)
  simp only [all_iff_getD, List.length_map, decide_eq_true_eq]

theorem laneInt_any (hj : j < ops.length) : (laneInt 6 1 ops).getD j 0 =
    if ∃ k, k < ops.length ∧ (ops.map (·.1)).getD k 0 ≠ 0 then 1 else 0 := by
  rw [laneInt, getD_map_upto hj]
  refine (w64_b2n _).trans (if_congr ?_ rfl rfl)
  simp only [any_iff_getD, List.length_map, decide_eq_true_eq]

theorem laneInt_uni (hj : j < ops.length) : (laneInt 6 2 ops).getD j 0 =
    if ∀ k, k < ops.length → (ops.map (·.1)).getD k 0 = (ops.map (·.1)).getD j 0 then 1 else 0 := by
  rw [laneInt, getD_map_upto hj]
  refine (w64_b2n _).trans (if_congr ?_ rfl rfl)
  simp only [all_iff_getD, List.length_map, decide_eq_true_eq]

theorem laneInt_blt (hj : j < ops.length) {b : Nat} (hb : b < 64) : ((laneInt 6 3 ops).getD j 0).getLsbD b =
    decide (64 * (j / 64) + b < ops.length ∧ (ops.map (·.1)).getD (64 * (j / 64) + b) 0 ≠ 0) := by
  rw [laneInt, getD_map_upto hj]
  refine (BitVec.getLsbD_ofNat ..).trans ?_
  rw [(foldl_pow_testBit _ 64).2, decide_eq_true hb, Bool.true_and, Bool.true_and, ← Bool.decide_and]

theorem laneInt_pcnt (hj : j < ops.length) (hm : ops.length ≤ 6144) :
    ((laneInt 6 4 ops).getD j 0).toNat = ((ops.map (·.1)).filter (· ≠ 0)).length := by
  rw [laneInt, getD_map_upto hj]
  refine toNat_w64 ((List.length_filter_le ..).trans_lt ?_)
  rw [List.length_map]
  omega

theorem laneInt_mtchLdr (hj : j < ops.length) (hm : ops.length ≤ 6144) :
    ((laneInt 6 5 ops).getD j 0).toNat = (ops.map (·.1)).findIdx (· = (ops.map (·.1)).getD j 0) := by
  rw [laneInt, getD_map_upto hj]
  refine toNat_w64 (List.findIdx_le_length.trans_lt ?_)
  rw [List.length_map]
  omega

theorem laneInt_mtchCnt (hj : j < ops.length) (hm : ops.length ≤ 6144) :
    ((laneInt 6 6 ops).getD j 0).toNat = ((ops.map (·.1)).filter (· = (ops.map (·.1)).getD j 0)).length := by
  rw [laneInt, getD_map_upto hj]
  refine toNat_w64 ((List.length_filter_le ..).trans_lt ?_)
  rw [List.length_map]
  omega

/-- The operands that a fold reaches: all ranks, the ranks to j, or those before j (R139). -/
def foldedRanks (kind j : Nat) (vs : List Word) : List Word :=
  match kind with
  | 0 => vs
  | 1 => vs.take (j + 1)
  | _ => vs.take j

/-- Subops from 8 fold operator o over the ranks that bits [4:3] of the subop select (R139, Table 5.2). -/
theorem laneInt_fold (hj : j < ops.length) (kind : Nat) {o : Nat} (ho : o < 8) :
    (laneInt 6 (8 * (kind + 1) + o) ops).getD j 0 = (foldedRanks kind j (ops.map (·.1))).foldl (gopFn o) (gopId o) := by
  have hmod : (8 * (kind + 1) + o) % 8 = o := by omega
  have hdiv : (8 * (kind + 1) + o) / 8 = kind + 1 := by omega
  have hle : 8 ≤ 8 * (kind + 1) + o := by omega
  rw [laneInt, getD_map_upto hj]
  simp only [hmod, hdiv, if_neg (show ¬6 < 5 by decide), if_pos hle]
  match kind with
  | 0 | 1 | _ + 2 => rfl

end

theorem gopNum_lt (o : GOp) : gopNum o < 8 := by cases o <;> decide

/-- The operators of Table 5.2 with their identities. -/
def gopTable : List (GOp × (Word → Word → Word) × Word) :=
  [(.add, fun x y => x + y, 0), (.and, fun x y => x &&& y, -1), (.or, fun x y => x ||| y, 0), (.xor, fun x y => x ^^^ y, 0),
    (.minI, fun x y => if x.toInt < y.toInt then x else y, 2 ^ 63 - 1), (.maxI, fun x y => if x.toInt < y.toInt then y else x, 2 ^ 63),
    (.minN, fun x y => if x.toNat < y.toNat then x else y, -1), (.maxN, fun x y => if x.toNat < y.toNat then y else x, 0)]

/-- The model's operators, by number, are those of the table. -/
theorem gopFn_of_mem_gopTable : ∀ q ∈ gopTable, gopFn (gopNum q.1) = q.2.1 ∧ gopId (gopNum q.1) = q.2.2 := by
  have choose (p : Prop) [Decidable p] (x y : Word) : (if decide p = true then x else y) = if p then x else y := by
    simp only [decide_eq_true_eq]
  have hmin : (0x7FFFFFFFFFFFFFFF : Word) = 2 ^ 63 - 1 := by norm_num
  have hmax : (0x8000000000000000 : Word) = 2 ^ 63 := by norm_num
  simp only [gopTable, List.forall_mem_cons, List.not_mem_nil, false_imp_iff, implies_true, and_true]
  refine ⟨⟨rfl, rfl⟩, ⟨rfl, rfl⟩, ⟨rfl, rfl⟩, ⟨rfl, rfl⟩, ⟨?_, hmin⟩, ⟨?_, hmax⟩, ⟨?_, rfl⟩, ⟨?_, rfl⟩⟩ <;>
    exact funext fun x => funext fun y => choose _ _ _

/-! ### Floating-point forms -/

section

variable {ops : List Word} {j : Nat}

theorem laneFp_redAdd (hj : j < ops.length) (p : FPrec) : (laneFp (0 + precBit p) ops).1.getD j 0 =
    box (fmtOf p) (splitSum (fmtOf p) (ops.map (unbox (fmtOf p))) 16).1 := by
  cases p <;> exact getD_map_const hj _ _

theorem laneFp_redMin (hj : j < ops.length) (p : FPrec) : (laneFp (2 + precBit p) ops).1.getD j 0 =
    box (fmtOf p) ((ops.map (unbox (fmtOf p))).foldl (fun x y => (fminmax (fmtOf p) false x y).1) (fmtOf p).qnan) := by
  cases p <;> exact getD_map_const hj _ _

theorem laneFp_redMax (hj : j < ops.length) (p : FPrec) : (laneFp (4 + precBit p) ops).1.getD j 0 =
    box (fmtOf p) ((ops.map (unbox (fmtOf p))).foldl (fun x y => (fminmax (fmtOf p) true x y).1) (fmtOf p).qnan) := by
  cases p <;> exact getD_map_const hj _ _

/-- A list of results by rank, boxed. -/
theorem getD_map_box {f : FFmt} {m : Nat} (hj : j < m) (r : Nat → Nat × Nat) :
    (((upto 0 m).map r).map fun x => box f x.1).getD j 0 = box f (r j).1 := by
  rw [List.map_map, getD_map_upto hj]
  rfl

theorem laneFp_scanAdd (hj : j < ops.length) (p : FPrec) : (laneFp (8 + precBit p) ops).1.getD j 0 =
    box (fmtOf p) (splitSum (fmtOf p) ((ops.map (unbox (fmtOf p))).take (j + 1)) 16).1 := by
  have hlen : j < (ops.map (unbox (fmtOf p))).length := by rwa [List.length_map]
  cases p <;> exact getD_map_box hlen _

theorem laneFp_xscanAdd (hj : j < ops.length) (p : FPrec) : (laneFp (12 + precBit p) ops).1.getD j 0 =
    box (fmtOf p) (if j = 0 then 2 ^ ((fmtOf p).width - 1) else (splitSum (fmtOf p) ((ops.map (unbox (fmtOf p))).take j) 16).1) := by
  have hlen : j < (ops.map (unbox (fmtOf p))).length := by rwa [List.length_map]
  have hscan : (laneFp (12 + precBit p) ops).1.getD j 0 = box (fmtOf p) (if j = 0 then (2 ^ ((fmtOf p).width - 1), 0)
      else splitSum (fmtOf p) ((ops.map (unbox (fmtOf p))).take j) 16).1 := by
    cases p <;> exact getD_map_box hlen _
  rw [hscan]
  split <;> rfl

end

/-! ### The split sum -/

/-- Among the first k powers of two, the search of `powBelow` finds the greatest below n. -/
theorem foldl_powBelow {n : Nat} (hn : 2 ≤ n) (k : Nat) : ∃ i,
    (List.range k).foldl (fun h i => if 2 ^ i < n then 2 ^ i else h) 1 = 2 ^ i ∧ 2 ^ i < n ∧ ∀ e, e < k → 2 ^ e < n → e ≤ i := by
  induction k with
  | zero => exact ⟨0, rfl, by omega, fun e he => absurd he (Nat.not_lt_zero e)⟩
  | succ k ih =>
    obtain ⟨i, hfold, hlt, hmost⟩ := ih
    rw [List.range_succ, List.foldl_append, hfold, List.foldl_cons, List.foldl_nil]
    by_cases hk : 2 ^ k < n
    · exact ⟨k, if_pos hk, hk, fun e he _ => Nat.le_of_lt_succ he⟩
    · refine ⟨i, if_neg hk, hlt, fun e he hen => hmost e (Nat.lt_of_le_of_ne (Nat.le_of_lt_succ he) ?_) hen⟩
      rintro rfl
      exact hk hen

theorem powBelow_spec {n : Nat} (hn : 2 ≤ n) (hn' : n ≤ 2 ^ 14) : ∃ i, powBelow n = 2 ^ i ∧ 2 ^ i < n ∧ n ≤ 2 * 2 ^ i := by
  obtain ⟨i, hfold, hlt, hmost⟩ := foldl_powBelow hn 14
  refine ⟨i, by rw [powBelow, upto_zero, hfold], hlt, Nat.le_of_not_lt fun hbig => ?_⟩
  rw [← Nat.pow_succ'] at hbig
  have hi : i + 1 < 14 := (Nat.pow_lt_pow_iff_right (by decide)).1 (hbig.trans_le hn')
  exact Nat.not_succ_le_self i (hmost (i + 1) hi hbig)

/-- Two or more operands are summed in two parts, with one rounding of their sum (R140). -/
theorem splitSum_of_two_le (f : FFmt) {l : List Nat} (hl : 2 ≤ l.length) (n : Nat) : splitSum f l (n + 1) =
    let x := splitSum f (l.take (powBelow l.length)) n
    let y := splitSum f (l.drop (powBelow l.length)) n
    let r := ffinish f 0 (fadd 0 (FVal.ofBits f x.1) (FVal.ofBits f y.1))
    (r.1, x.2 ||| y.2 ||| r.2) := by
  match l with
  | _ :: _ :: _ => rfl

end Sys2Proof.Machine

namespace Sys2Proof

open Machine

/-- Settles O30: a form signs its group, its subop and the rs2 that has to agree; a completed group gives each rank its own entry of
the list of results, and the split sum parts at the greatest power of two below its length. -/
theorem laneForms : Obligations.LaneForms := by
  unfold Obligations.LaneForms
  refine ⟨fun s t c rd a b n o p i h hs => ?_, fun ops sub j hj hm => ?_, fun p ops j hj => ?_, fun f l n hl hl' => ?_⟩
  · refine ⟨?_, ?_, ?_, ?_, ?_, ?_, ?_, ?_, ?_, ?_, ?_, ?_, ?_, ?_, ?_, ?_, ?_, ?_, ?_, ?_⟩ <;>
      exact fun hg => State.lane_of_ok h hs hg rd a _
  · have shuffle {group : Nat} (hg : group < 5) {e : Int} := laneInt_shuffle (sub := sub) hj hg (e := e)
    have source (e : Int) := ite_source e j ops.length
    refine ⟨fun g => laneInt_length g sub ops, shuffle (by decide) (source _), shuffle (by decide) (source _),
      shuffle (by decide) (source _), shuffle (by decide) (source _), shuffle (by decide) (source _), laneInt_all hj, laneInt_any hj,
      laneInt_uni hj, fun b hb => laneInt_blt hj hb, laneInt_pcnt hj hm, ?_, laneInt_mtchCnt hj hm, fun q hq => ?_⟩
    · rw [laneInt_mtchLdr hj hm]
      exact findIdx_eq_getD (by rwa [List.length_map])
    · obtain ⟨hfn, hid⟩ := gopFn_of_mem_gopTable q hq
      rw [← hfn, ← hid]
      have fold (kind : Nat) := laneInt_fold hj kind (gopNum_lt q.1)
      exact ⟨fold 0, fold 1, fold 2⟩
  · cases p
    case s => exact ⟨laneFp_redAdd hj .s, laneFp_scanAdd hj .s, laneFp_xscanAdd hj .s, laneFp_redMin hj .s, laneFp_redMax hj .s⟩
    case d => exact ⟨laneFp_redAdd hj .d, laneFp_scanAdd hj .d, laneFp_xscanAdd hj .d, laneFp_redMin hj .d, laneFp_redMax hj .d⟩
  · obtain ⟨i, hpow, hlt, hle⟩ := powBelow_spec hl hl'
    refine ⟨i, hlt, hle, ?_⟩
    rw [splitSum_of_two_le f hl, hpow]

end Sys2Proof
end
section
/-! Integer forms (O9, O11 to O13): the standard operations in the terms of bit vectors, and the saturating, dot, clamping and
rounding forms as exact integers clamped once. -/

namespace Sys2Proof.Machine

/-! ### Standard operations -/

theorem toNat_shiftAmount (b : Word) : (b.extractLsb' 0 6).toNat = b.toNat % 64 := BitVec.extractLsb'_toNat 0 6 b

theorem aluOp_sll (a b : Word) : aluOp .sll a b = a <<< (b.toNat % 64) := by
  rw [← toNat_shiftAmount]
  rfl

theorem aluOp_srl (a b : Word) : aluOp .srl a b = a >>> (b.toNat % 64) := by
  rw [← toNat_shiftAmount]
  rfl

theorem aluOp_sra (a b : Word) : aluOp .sra a b = a.sshiftRight (b.toNat % 64) := by
  rw [← toNat_shiftAmount]
  rfl

theorem aluOp_slt (a b : Word) : aluOp .slt a b = if a.toInt < b.toInt then 1 else 0 := by
  simp only [aluOp, BitVec.slt_iff_toInt_lt]

theorem aluOp_sltu (a b : Word) : aluOp .sltu a b = if a.toNat < b.toNat then 1 else 0 := by
  simp only [aluOp, BitVec.ult_iff_lt, BitVec.lt_def]

theorem aluOp_addw (a b : Word) : aluOp .addw a b = ((a + b).truncate 32).signExtend 64 :=
  congrArg (BitVec.signExtend 64) (BitVec.setWidth_add a b (by decide)).symm

/-- Division by zero, and the quotient that overflows. -/
theorem aluOp_div_zero (a : Word) : aluOp .div a 0 = -1 ∧ aluOp .divu a 0 = -1 ∧ aluOp .rem a 0 = a ∧ aluOp .remu a 0 = a :=
  ⟨rfl, rfl, rfl, rfl⟩

theorem aluOp_div_overflow : aluOp .div 0x8000000000000000 (-1) = 0x8000000000000000 ∧ aluOp .rem 0x8000000000000000 (-1) = 0 :=
  ⟨rfl, rfl⟩

theorem exec_standardAlu {s : State} (h : s.Runs) (f : AluForm) :
    exec (.standardAlu f) s = .next (s.retX (aluResult s f).1 (aluResult s f).2) := State.onAny_eq h _

theorem exec_standardAlu_rr {s : State} (h : s.Runs) {op : AluOp} {rd a b : Reg} {v : Word} (hv : aluOp op (s.x a) (s.x b) = v) :
    exec (.standardAlu (.rr op rd a b)) s = .next (s.retX rd v) := by
  rw [exec_standardAlu h, ← hv]
  rfl

/-! ### Dot products -/

theorem extractLsb'_eq_ofNat (v : Word) (i b : Nat) : v.extractLsb' i b = BitVec.ofNat b (v.toNat / 2 ^ i) := by
  rw [← Nat.shiftRight_eq_div_pow]
  rfl

theorem dotElt_signed {b : Nat} (hb : 0 < b) (k : Nat) (v : Word) : dotElt true b k v.toNat = (v.extractLsb' (b * k) b).toInt := by
  rw [extractLsb'_eq_ofNat, toInt_ofNat_eq hb]
  simp only [dotElt, Bool.true_and, decide_eq_true_eq]

theorem dotElt_unsigned (b k : Nat) (v : Word) : dotElt false b k v.toNat = ((v.extractLsb' (b * k) b).toNat : Int) := by
  rw [BitVec.extractLsb'_toNat, Nat.shiftRight_eq_div_pow]
  rfl

/-- Four products, or eight, onto the accumulator (R157). -/
theorem dotAcc_i8 (d : Int) (x y : Word) :
    let e (v : Word) (k : Nat) : BitVec 8 := v.extractLsb' (8 * k) 8
    dotAcc .i8 d x.toNat y.toNat = d + (e x 0).toInt * (e y 0).toInt + (e x 1).toInt * (e y 1).toInt
      + (e x 2).toInt * (e y 2).toInt + (e x 3).toInt * (e y 3).toInt := by
  simp only [← dotElt_signed (b := 8) (by decide)]
  rfl

theorem dotAcc_n8 (d : Int) (x y : Word) :
    let e (v : Word) (k : Nat) : BitVec 8 := v.extractLsb' (8 * k) 8
    dotAcc .n8 d x.toNat y.toNat = d + (e x 0).toNat * (e y 0).toNat + (e x 1).toNat * (e y 1).toNat
      + (e x 2).toNat * (e y 2).toNat + (e x 3).toNat * (e y 3).toNat := by
  simp only [← dotElt_unsigned]
  rfl

theorem dotAcc_su (d : Int) (x y : Word) :
    let e (v : Word) (k : Nat) : BitVec 8 := v.extractLsb' (8 * k) 8
    dotAcc .su d x.toNat y.toNat = d + (e x 0).toInt * (e y 0).toNat + (e x 1).toInt * (e y 1).toNat
      + (e x 2).toInt * (e y 2).toNat + (e x 3).toInt * (e y 3).toNat := by
  simp only [← dotElt_signed (b := 8) (by decide), ← dotElt_unsigned]
  rfl

theorem dotAcc_i4 (d : Int) (x y : Word) :
    let e (v : Word) (k : Nat) : Int := (v.extractLsb' (4 * k) 4).toInt
    dotAcc .i4 d x.toNat y.toNat = d + e x 0 * e y 0 + e x 1 * e y 1 + e x 2 * e y 2 + e x 3 * e y 3 + e x 4 * e y 4
      + e x 5 * e y 5 + e x 6 * e y 6 + e x 7 * e y 7 := by
  simp only [← dotElt_signed (b := 4) (by decide)]
  rfl

/-! ### The rounding shift -/

/-- A rounding shift gives the nearest multiple, the even one of two: the magnitude is rounded and the sign restored (R158). -/
theorem srari_nearest (v : Word) (sh : Nat) : ∃ q : Int, srari v sh = BitVec.ofInt 64 q ∧
    2 * (q * 2 ^ sh - v.toInt) ≤ 2 ^ sh ∧ 2 * (v.toInt - q * 2 ^ sh) ≤ 2 ^ sh ∧
    (sh ≠ 0 → (2 * (q * 2 ^ sh - v.toInt) = 2 ^ sh ∨ 2 * (v.toInt - q * 2 ^ sh) = 2 ^ sh) → q % 2 = 0) := by
  unfold srari
  obtain ⟨hlo, hhi, htie⟩ := rshRound_nearest (decide (v.toInt < 0)) v.toInt.natAbs sh
  generalize hr : rshRound 0 (decide (v.toInt < 0)) v.toInt.natAbs sh = r at hlo hhi htie ⊢
  generalize hm : v.toInt = m at hlo hhi htie ⊢
  by_cases hs : sh = 0
  · subst hs
    refine ⟨m, ?_, ?_, ?_, fun h => absurd rfl h⟩
    · rw [if_pos rfl, ← hm, BitVec.ofInt_toInt]
    · omega
    · omega
  · have hp : ((2 ^ sh : Nat) : Int) = 2 ^ sh := by push_cast; rfl
    have hq : ((r.1 * 2 ^ sh : Nat) : Int) = (r.1 : Int) * 2 ^ sh := by push_cast; rfl
    generalize r.1 * 2 ^ sh = n at hlo hhi htie hq
    generalize (2 : Nat) ^ sh = p at hlo hhi htie hp
    refine ⟨if m < 0 then -(r.1 : Int) else r.1, if_neg hs, ?_⟩
    rw [← hp]
    split
    · rw [Int.neg_mul, hp, ← hq, ← hp]
      exact ⟨by omega, by omega, fun _ h => by have := htie hs (by omega); omega⟩
    · rw [hp, ← hq, ← hp]
      exact ⟨by omega, by omega, fun _ h => by have := htie hs (by omega); omega⟩

/-! ### The forms -/

section

variable {s : State} {t : Strand}

theorem exec_fxAdds (h : s.OnStrand t) {ty : STy} {rd a b : Reg} {v : Word} {clamped : Bool}
    (hv : satArith ty false (s.x a) (s.x b) = (v, clamped)) : exec (.fxAdds ty rd a b) s = .next ((s.satMark clamped).retX rd v) := by
  refine (State.onStrand_eq h _).trans (State.satDone_eq.trans ?_)
  rw [hv]

theorem exec_fxSubs (h : s.OnStrand t) {ty : STy} {rd a b : Reg} {v : Word} {clamped : Bool}
    (hv : satArith ty true (s.x a) (s.x b) = (v, clamped)) : exec (.fxSubs ty rd a b) s = .next ((s.satMark clamped).retX rd v) := by
  refine (State.onStrand_eq h _).trans (State.satDone_eq.trans ?_)
  rw [hv]

/-- A dot form clamps its exact accumulator once (R157). -/
theorem exec_fxDot (h : s.OnStrand t) {f : DotForm} {rd a b : Reg} {y : Int}
    (hy : dotAcc f ((s.x rd).truncate 32 : BitVec 32).toInt (s.x a).toNat (s.x b).toNat = y) : exec (.fxDot f rd a b) s =
    .next ((s.satMark (y < -2 ^ 31 ∨ 2 ^ 31 - 1 < y)).retX rd (BitVec.ofInt 64 (max (-2 ^ 31) (min (2 ^ 31 - 1) y)))) := by
  refine (State.onStrand_eq h _).trans (State.satDone_eq.trans ?_)
  obtain ⟨hv, hb⟩ := Prod.mk.inj (dotClamp_eq y)
  rw [toSigned_4, hy, hv, hb]

/-- The clamping forms bound the signed register (R158). -/
theorem exec_fxSati (h : s.OnStrand t) (rd a : Reg) (w : BitVec 6) :
    let v : Int := (s.x a).toInt
    exec (.fxSati rd a w) s = .next ((s.satMark (v < -2 ^ w.toNat ∨ 2 ^ w.toNat - 1 < v)).retX rd
      (BitVec.ofInt 64 (max (-2 ^ w.toNat) (min (2 ^ w.toNat - 1) v)))) := by
  have hpos : (0 : Int) < (2 ^ w.toNat : Nat) := by positivity
  refine (State.onStrand_eq h _).trans (State.satDone_eq.trans ?_)
  rw [clampTo_eq _ _ _ (by omega), Nat.cast_pow, Nat.cast_ofNat]

theorem exec_fxSatni (h : s.OnStrand t) (rd a : Reg) (w : BitVec 6) :
    let v : Int := (s.x a).toInt
    exec (.fxSatni rd a w) s = .next ((s.satMark (v < 0 ∨ 2 ^ (w.toNat + 1) - 1 < v)).retX rd
      (BitVec.ofInt 64 (max 0 (min (2 ^ (w.toNat + 1) - 1) v)))) := by
  have hpos : (0 : Int) < (2 ^ (w.toNat + 1) : Nat) := by positivity
  refine (State.onStrand_eq h _).trans (State.satDone_eq.trans ?_)
  rw [clampTo_eq _ _ _ (by omega), Nat.cast_pow, Nat.cast_ofNat]

theorem exec_fxSrari (h : s.OnStrand t) (rd a : Reg) (w : BitVec 6) :
    exec (.fxSrari rd a w) s = .next (s.retX rd (srari (s.x a) w.toNat)) := State.onStrand_eq h _

end

end Sys2Proof.Machine

namespace Sys2Proof

open Machine

/-- Settles O9: each form retires with its operation's value, which the bit-vector equations of the operations give. -/
theorem integerForms : Obligations.IntegerForms := by
  unfold Obligations.IntegerForms
  refine ⟨fun s f h => exec_standardAlu h f, fun s rd a b imm up h => ?_⟩
  have rr {op : AluOp} {v : Word} (hv : aluOp op (s.x a) (s.x b) = v) := exec_standardAlu_rr (rd := rd) h hv
  refine ⟨rr rfl, rr rfl, rr rfl, rr rfl, rr rfl, rr (aluOp_sll _ _), rr (aluOp_srl _ _), rr (aluOp_sra _ _), rr (aluOp_slt _ _),
    rr (aluOp_sltu _ _), rr (aluOp_addw _ _), rr rfl, fun hz => ?_, fun ha hb => ?_, exec_standardAlu h _, exec_standardAlu h _,
    exec_standardAlu h _⟩
  · obtain ⟨hdiv, hdivu, hrem, hremu⟩ := aluOp_div_zero (s.x a)
    rw [← hz] at hdiv hdivu hrem hremu
    exact ⟨rr hdiv, rr hdivu, rr hrem, rr hremu⟩
  · obtain ⟨hdiv, hrem⟩ := aluOp_div_overflow
    rw [← ha, ← hb] at hdiv hrem
    exact ⟨rr hdiv, rr hrem⟩

/-- Settles O11: per type the clamp of the exact sum or difference is `satArith`. -/
theorem saturatingForms : Obligations.SaturatingForms := by
  unfold Obligations.SaturatingForms
  intro s t rd a b h
  exact ⟨exec_fxAdds h (satArith_i64 ..), exec_fxSubs h (satArith_i64 ..), exec_fxAdds h (satArith_n64 ..),
    exec_fxSubs h (satArith_n64 ..), exec_fxAdds h (satArith_i32 ..), exec_fxSubs h (satArith_i32 ..), exec_fxAdds h (satArith_n32 ..),
    exec_fxSubs h (satArith_n32 ..)⟩

/-- Settles O12: an element read by division is the element cut out of the register, signed or not. -/
theorem dotForms : Obligations.DotForms := by
  unfold Obligations.DotForms
  intro s t rd a b h
  exact ⟨exec_fxDot h (dotAcc_i8 ..), exec_fxDot h (dotAcc_n8 ..), exec_fxDot h (dotAcc_su ..), exec_fxDot h (dotAcc_i4 ..)⟩

/-- Settles O13: a clamp is `clampTo`, and the rounding shift is the rounded magnitude under the sign. -/
theorem shiftAndClampForms : Obligations.ShiftAndClampForms := by
  unfold Obligations.ShiftAndClampForms
  intro s t rd a w h
  obtain ⟨q, hq, hlo, hhi, htie⟩ := srari_nearest (s.x a) w.toNat
  refine ⟨exec_fxSati h rd a w, exec_fxSatni h rd a w, q, ?_, hlo, hhi, fun hw => htie fun hz => hw (BitVec.eq_of_toNat_eq hz)⟩
  rw [exec_fxSrari h, hq]

end Sys2Proof
end
section
/-! Floating-point forms of Esrun (O14, O15): those that round by `frm` look at it once, the exact ones not at all. -/

namespace Sys2Proof.Machine

variable {s : State} {t : Strand}

theorem State.withFrm_of_legal (h : s.OnStrand t) {r : Nat} (hr : s.frm? = some r) (g : Nat → Out) : s.withFrm g = g r := by
  rw [State.withFrm, State.onStrand_eq h, hr]

theorem State.withFrm_of_illegal (h : s.OnStrand t) (hr : s.frm? = none) (g : Nat → Out) :
    s.withFrm g = .next (s.trap 2 s.ibits) := by
  rw [State.withFrm, State.onStrand_eq h, hr, State.illegal_eq]

/-- The forms of this chapter that round by `frm` (R154) are guarded by it. -/
theorem exec_roundingForm (s : State) (rd a b : Reg) (k : Elt) (n : BitVec 9) : ∀ i ∈ [Instr.fxCvtBf16F64 rd a,
    .fxCvtBf16F16 rd a, .fxCvtF16Bf16 rd a, .fxPkBf16 rd a b, .fxPaddBf16 rd a b, .fxPsubBf16 rd a b, .fxPmulBf16 rd a b,
    .fxPfmaBf16 rd a b, .fxPdotF32Bf16 rd a b, .fxXp k rd a b, .fxNr k rd a b, .fxSclF32 rd a b, .fxSclF64 rd a b,
    .fxScliF32 rd a n, .fxScliF64 rd a n], ∃ g, exec i s = s.withFrm g := by
  simp only [List.forall_mem_cons, List.not_mem_nil, false_imp_iff, implies_true, and_true]
  exact ⟨⟨_, rfl⟩, ⟨_, rfl⟩, ⟨_, rfl⟩, ⟨_, rfl⟩, ⟨_, rfl⟩, ⟨_, rfl⟩, ⟨_, rfl⟩, ⟨_, rfl⟩, ⟨_, rfl⟩, ⟨_, rfl⟩, ⟨_, rfl⟩, ⟨_, rfl⟩,
    ⟨_, rfl⟩, ⟨_, rfl⟩, ⟨_, rfl⟩⟩

end Sys2Proof.Machine

namespace Sys2Proof

open Machine

/-- Settles O14: each form is guarded by `frm`; with a legal one its body gives the rounded results, else it is illegal. -/
theorem roundingForms : Obligations.RoundingForms := by
  unfold Obligations.RoundingForms
  refine ⟨fun s t rd a b k n r h hr => ?_, fun s t rd a b k n h hr i hi => ?_⟩
  · have body (g : Nat → Out) := State.withFrm_of_legal h hr g
    exact ⟨body _, body _, body _, body _, body _, body _, body _, body _, body _, body _, body _, body _, body _, body _, body _⟩
  · obtain ⟨g, hg⟩ := exec_roundingForm s rd a b k n i hi
    rw [hg, State.withFrm_of_illegal h hr]

/-- Settles O15: each form asks only for a strand in issue. -/
theorem exactForms : Obligations.ExactForms := by
  unfold Obligations.ExactForms
  intro s t rd a h
  have body (g : Strand → Out) := State.onStrand_eq h g
  exact ⟨body _, body _, body _, body _, body _, body _, body _, body _, body _, body _, body _, body _, body _⟩

end Sys2Proof
end
section
/-! What a copy's issue leaves as it was: translations, merges and deliveries keep the queues of copies, poison no line, and where no
reduction is buffered write no memory. -/

namespace Sys2Proof.Machine

namespace State

/-- From `s` to `s'` copies and the agent in issue are as before, no line has become poisoned, and where no reduction is buffered
memory is as before. -/
structure Spares (s s' : State) : Prop where
  copies : s'.copies = s.copies
  cur : s'.cur = s.cur
  poison : ∀ l ∈ s'.poison, l ∈ s.poison
  mem : s.rbuf = [] → s'.rbuf = [] ∧ s'.mem = s.mem

variable {s s' s'' : State}

namespace Spares

theorem of_eq (hc : s'.copies = s.copies) (ha : s'.cur = s.cur) (hp : s'.poison = s.poison) (hr : s'.rbuf = s.rbuf)
    (hm : s'.mem = s.mem) : s.Spares s' :=
  ⟨hc, ha, fun _ => (hp ▸ ·), fun h => ⟨hr.trans h, hm⟩⟩

theorem refl (s : State) : s.Spares s := of_eq rfl rfl rfl rfl rfl

theorem trans (h : s.Spares s') (h' : s'.Spares s'') : s.Spares s'' :=
  ⟨h'.copies.trans h.copies, h'.cur.trans h.cur, fun l hl => h.poison l (h'.poison l hl), fun hr =>
    have hr' := h.mem hr
    have hr'' := h'.mem hr'.1
    ⟨hr''.1, hr''.2.trans hr'.2⟩⟩

theorem foldl {α : Type} {f : State → α → State} (hf : ∀ (s : State) (x : α), s.Spares (f s x)) (l : List α) (s : State) :
    s.Spares (l.foldl f s) := by
  induction l generalizing s with
  | nil => exact refl s
  | cons x l ih => exact (hf s x).trans (ih _)

theorem ite {c : Prop} [Decidable c] {a b : State} (ha : s.Spares a) (hb : s.Spares b) : s.Spares (if c then a else b) := by
  split
  · exact ha
  · exact hb

end Spares

/-! ### Merges and deliveries -/

theorem foldl_poison {α : Type} {f : State → α → State} (hf : ∀ (s : State) (x : α), ∀ l ∈ (f s x).poison, l ∈ s.poison)
    (xs : List α) (s : State) : ∀ l ∈ (xs.foldl f s).poison, l ∈ s.poison := by
  induction xs generalizing s with
  | nil => exact fun _ => id
  | cons x xs ih => exact fun l hl => hf s x l (ih _ l hl)

theorem patNote_poison (s : State) (pa : Nat) (data : List Byte) : (s.patNote pa data).poison = s.poison := by
  unfold patNote
  extract_lets
  split <;> rfl

theorem raceWord_poison (s : State) (old : Sparse 8) (w : Nat × Nat) : (s.raceWord old w).poison = s.poison := by
  unfold raceWord drawBit
  dsimp only
  split <;> split <;> rfl

/-- A write clears poison and makes none. -/
theorem poke_poison (s : State) (keep : Nat → Bool) (attr writer pa : Nat) (data : List Byte) :
    ∀ l ∈ (s.poke keep attr writer pa data).poison, l ∈ s.poison := by
  intro l hl
  have hraw := foldl_poison (fun s' w l hl => s'.raceWord_poison s.mem w ▸ hl) _ _ l hl
  exact s.patNote_poison pa data ▸ List.mem_of_mem_filter hraw

theorem mergeEntry_poison (s : State) (e : RedEntry) (evc : Bool) : ∀ l ∈ (s.mergeEntry e evc).poison, l ∈ s.poison := by
  unfold mergeEntry
  extract_lets s1 s2 s3
  split
  · unfold recordLater
    split <;> exact fun _ => id
  · exact foldl_poison (f := fun s ov => s.mergeVal e ov) (fun s ov => s.poke_poison _ _ _ _ _) _ s2

theorem mergeWhere_spares (s : State) (p : RedEntry → Bool) : s.Spares (s.mergeWhere p) := by
  have h := s.mergeWhere_memStep p
  refine ⟨by rw [h.only], by rw [h.only], foldl_poison (fun s e => s.mergeEntry_poison e false) _ _, fun hr => ?_⟩
  have hsame : s.mergeWhere p = s := by rw [mergeWhere, hr]; rfl
  rw [hsame]
  exact ⟨hr, rfl⟩

theorem mergeLines_spares (s : State) (pa n : Nat) : s.Spares (s.mergeLines pa n) := .ite (.refl s) (s.mergeWhere_spares _)

theorem deliver_spares (s : State) (p : Replica → Bool) : s.Spares (s.deliver p) := .ite (.refl s) (.of_eq rfl rfl rfl rfl rfl)

theorem homeSeen_spares (s : State) (a : Agent) (parts : List Part) : s.Spares (s.homeSeen a parts) :=
  .foldl (fun s _ => .ite (.refl s) (s.deliver_spares _)) _ _

theorem dropNc_spares (s : State) (n : Nat) (parts : List Part) : s.Spares (s.dropNc n parts) := .of_eq rfl rfl rfl rfl rfl

/-! ### Classes, directories, requests -/

theorem patOpen_spares (s : State) (pa : Nat) : s.Spares (s.patOpen pa) := by
  unfold patOpen
  split
  · exact .refl s
  · exact .ite (s.mergeLines_spares ..) (.refl s)

theorem classify_spares (s : State) (n pa attr : Nat) : s.Spares (s.classify n pa attr) := by
  unfold classify
  split
  · exact .refl s
  · exact .refl s
  · exact .refl s
  · exact .ite (.of_eq rfl rfl rfl rfl rfl)
      (.ite (.refl s) ((s.mergeWhere_spares _).trans (.of_eq rfl rfl rfl rfl rfl)))

theorem dirLine_spares (s : State) (who line : Nat) (write : Bool) : s.Spares (s.dirLine who line write) :=
  .ite (.of_eq rfl rfl rfl rfl rfl) (.ite (.refl s) (.of_eq rfl rfl rfl rfl rfl))

theorem dirTouch_spares (s : State) (who pa n : Nat) (write : Bool) : s.Spares (s.dirTouch who pa n write) :=
  .foldl (fun s l => s.dirLine_spares who l write) _ _

theorem partTouch_spares (s : State) (who : Nat) (p : Part) (write : Bool) : s.Spares (s.partTouch who p write) :=
  .ite (s.dirTouch_spares ..) (.of_eq rfl rfl rfl rfl rfl)

theorem partTouch_memStep (s : State) (who : Nat) (p : Part) (write : Bool) : s.MemStep (s.partTouch who p write) :=
  .ite (s.dirTouch_memStep ..) ⟨rfl, rfl, [], rfl⟩

theorem served_spares (s : State) (a : Agent) (pa n : Nat) : s.Spares (s.served a pa n) :=
  .ite (.refl s) (.of_eq rfl rfl rfl rfl rfl)

theorem served_memStep (s : State) (a : Agent) (pa n : Nat) : s.MemStep (s.served a pa n) := .ite (.refl s) ⟨rfl, rfl, [], rfl⟩

/-- An access that is served leaves of the holds all but their requests, so what waits for them waits as before. -/
theorem served_blocked (s : State) (a b : Agent) (pa n qa m : Nat) (write : Bool) :
    (s.served a pa n).blocked b qa m write = s.blocked b qa m write := by
  unfold served
  split
  · rfl
  · unfold blocked
    dsimp only
    rw [List.any_map]
    congr 2
    funext h
    simp only [Function.comp_apply]
    split <;> rfl

/-- The lines that a copy takes are served one by one. -/
def servedLines (s : State) (ls : List Nat) : State := ls.foldl (fun s l => s.served s.cur (64 * l) 64) s

theorem servedLines_spares (s : State) (ls : List Nat) : s.Spares (s.servedLines ls) := .foldl (fun s _ => s.served_spares ..) _ _

theorem servedLines_memStep (s : State) (ls : List Nat) : s.MemStep (s.servedLines ls) := .foldl (fun s _ => s.served_memStep ..) _ _

theorem servedLines_blocked (s : State) (ls : List Nat) (b : Agent) (qa m : Nat) (write : Bool) :
    (s.servedLines ls).blocked b qa m write = s.blocked b qa m write := by
  unfold servedLines
  induction ls generalizing s with
  | nil => rfl
  | cons l ls ih => exact (ih _).trans (s.served_blocked ..)

/-! ### Accesses to clean memory -/

theorem MemStep.imagesAt_eq_nil (h : s.MemStep s') {pa n : Nat} (hn : s.imagesAt pa n = []) : s'.imagesAt pa n = [] := by
  let touches (t : Strand) : Bool := (t.status = .resident || t.status = .preempted) && t.image < pa + n && pa < t.image + 1024
  have bare_imagesAt (s : State) : (s.imagesAt pa n).map Strand.bare = (s.strands.map Strand.bare).filter touches :=
    (List.filter_map (f := Strand.bare) (p := touches)).symm
  have hbare := bare_imagesAt s'
  rw [h.strands, ← bare_imagesAt s, hn] at hbare
  exact List.map_eq_nil_iff.1 hbare

theorem imageRead_of_noImage {pa n : Nat} (h : s.imagesAt pa n = []) : s.imageRead pa n = s := by rw [imageRead, h]; rfl

/-- One part of an access is opened: its page classified, reductions to its lines merged, the directory told (R181, R228, R186). -/
def openPart (s : State) (n who : Nat) (a : Agent) (write : Bool) (p : Part) : State :=
  ((((s.classify n p.pa p.attr).mergeLines p.pa p.n).served a p.pa p.n).partTouch who p write).imageRead p.pa p.n

theorem openPart_memStep (s : State) (n who : Nat) (a : Agent) (write : Bool) (p : Part) : s.MemStep (s.openPart n who a write p) :=
  ((((s.classify_memStep ..).trans (mergeLines_memStep ..)).trans (served_memStep ..)).trans (partTouch_memStep ..)).trans
    (imageRead_memStep ..)

theorem openPart_spares (n who : Nat) (a : Agent) (write : Bool) {p : Part} (hp : s.imagesAt p.pa p.n = []) :
    s.Spares (s.openPart n who a write p) := by
  have hmem := (((s.classify_memStep n p.pa p.attr).trans (mergeLines_memStep _ p.pa p.n)).trans (served_memStep _ a p.pa p.n)).trans
    (partTouch_memStep _ who p write)
  rw [openPart, imageRead_of_noImage (hmem.imagesAt_eq_nil hp)]
  exact (((s.classify_spares ..).trans (mergeLines_spares ..)).trans (served_spares ..)).trans (partTouch_spares ..)

theorem openPart_foldl_spares (n who : Nat) (a : Agent) (write : Bool) {parts : List Part} (hp : s.NoImage parts) :
    s.Spares (parts.foldl (fun s p => s.openPart n who a write p) s) := by
  induction parts generalizing s with
  | nil => exact .refl s
  | cons p parts ih =>
    obtain ⟨hhead, htail⟩ := List.forall_mem_cons.1 hp
    exact (openPart_spares n who a write hhead).trans (ih fun q hq => (s.openPart_memStep n who a write p).imagesAt_eq_nil (htail q hq))

theorem poisonAt_of_subset (h : ∀ l ∈ s'.poison, l ∈ s.poison) {pa n : Nat} (hc : s.poisonAt pa n = false) :
    s'.poisonAt pa n = false := by
  simp only [poisonAt, List.any_eq_false, List.contains_iff_mem] at hc ⊢
  exact fun l hl hm => hc l hl (h l hm)

/-- A read of clean bytes that lie in no image and wait for nothing goes on. -/
theorem openPartsAs_of_clean {n who : Nat} {a : Agent} {parts : List Part}
    (hb : ∀ p ∈ parts, s.blocked a p.pa p.n false = false) (hc : ∀ p ∈ parts, s.poisonAt p.pa p.n = false) (hi : s.NoImage parts) :
    ∃ s', (∀ va, s.openPartsAs n who a va parts false = .ok s' ()) ∧ s.Spares s' := by
  have hs := openPart_foldl_spares n who a false hi
  refine ⟨_, fun va => ?_, hs⟩
  have hclean : (parts.any fun p => (parts.foldl (fun s p => s.openPart n who a false p) s).poisonAt p.pa p.n) = false := by
    refine List.any_eq_false.2 fun p hp => ?_
    rw [Bool.not_eq_true]
    exact poisonAt_of_subset hs.poison (hc p hp)
  unfold openPartsAs
  rw [if_neg (by simpa using hb)]
  exact if_neg fun hp => Bool.false_ne_true (hclean.symm.trans hp)

end State

end Sys2Proof.Machine
end
section
/-! The pages of a copy translate (R243 step 3): where a translation answers, it has spared copies, poison and memory. -/

namespace Sys2Proof.Machine

/-- Where it answers, the state has been spared. -/
def Res.Spares {α : Type} (s : State) (r : Res α) : Prop := ∀ s' a, r = .ok s' a → s.Spares s'

namespace Res.Spares

variable {α β : Type} {s s' : State}

theorem ok {a : α} (h : s.Spares s') : Res.Spares s (.ok s' a) := by
  intro _ _ e
  cases e
  exact h

theorem trap {c : Nat} {v : Word} : Res.Spares (α := α) s (.trap s' c v) := fun _ _ e => nomatch e

theorem stall : Res.Spares (α := α) s (.stall s') := fun _ _ e => nomatch e

theorem after {r : Res α} (h : s.Spares s') (hr : Res.Spares s' r) : Res.Spares s r := fun u a e => h.trans (hr u a e)

theorem ite {c : Prop} [Decidable c] {a b : Res α} (ha : Res.Spares s a) (hb : Res.Spares s b) :
    Res.Spares s (if c then a else b) := by
  split
  · exact ha
  · exact hb

theorem bind {r : Res α} {g : State → α → Res β} (hr : Res.Spares s r) (hg : ∀ u a, s.Spares u → Res.Spares u (g u a)) :
    Res.Spares s (r.bind g) := by
  cases r with
  | ok u a => exact after (hr u a rfl) (hg u a (hr u a rfl))
  | trap u c v => exact trap
  | stall u => exact stall

end Res.Spares

namespace State

theorem readPte_spares (s : State) (a : Agent) (k : AccKind) (va : Word) (pa : Nat) : Res.Spares s (s.readPte a k va pa) := by
  unfold readPte
  split
  · exact .trap
  · exact .stall
  · exact .ite .stall (.ite .trap (.ok ((((s.patOpen_spares pa).trans (mergeLines_spares ..)).trans (classify_spares ..)).trans
      (dirTouch_spares ..))))

theorem walkFrom_spares {rd : State → Nat → Res Nat} (hr : ∀ s p, Res.Spares s (rd s p)) (pf : Nat) (va : Word) (x4 : Bool)
    (top n : Nat) (s : State) (base : Nat) : Res.Spares s (walkFrom rd pf va x4 top s base n) := by
  induction n generalizing s base with
  | zero => exact .trap
  | succ n ih =>
    unfold walkFrom
    extract_lets idx
    split
    · exact .trap
    · exact .stall
    next u p e =>
      exact .after (hr s _ u p e) (.ite .trap (.ite (.ite .trap (.ok (.refl u))) (.ite .trap (ih u _))))

theorem walk_spares (s : State) (a : Agent) (k : AccKind) (va : Word) (c : Ctl) : Res.Spares s (s.walk a k va c) := by
  have hw := walkFrom_spares (fun s p => s.readPte_spares a k va p) (pageFault k) va false 4 c.levels s c.base
  unfold walk
  split
  · exact .trap
  · exact .stall
  next u p level e => exact .after (hw u _ e) (.ite .trap (.ok (.refl u)))

theorem tlbInsert_spares (s : State) (e : TlbEntry) : s.Spares (s.tlbInsert e) :=
  .ite (.of_eq rfl rfl rfl rfl rfl) (.of_eq rfl rfl rfl rfl rfl)

theorem tlbPut_spares (s : State) (e : TlbEntry) : s.Spares (s.tlbPut e) := by
  unfold tlbPut
  extract_lets s1 s2
  have h1 : s.Spares s1 := .of_eq rfl rfl rfl rfl rfl
  have h2 : s.Spares s2 := h1.trans (s1.tlbInsert_spares _)
  exact .ite h2 (h2.trans (s2.tlbInsert_spares e))

theorem byEntry_spares (s : State) (e : TlbEntry) (k : AccKind) (va : Word) (c : Ctl) : Res.Spares s (s.byEntry e k va c) :=
  .ite (.ok (s.patOpen_spares _)) .trap

theorem byWalk_spares (s : State) (a : Agent) (k : AccKind) (va : Word) (c : Ctl) : Res.Spares s (s.byWalk a k va c) :=
  .bind (s.walk_spares a k va c) fun u e _ => .after (u.tlbPut_spares e) (byEntry_spares _ e k va c)

theorem byHeld_spares (s : State) (a : Agent) (e : TlbEntry) (k : AccKind) (va : Word) (c : Ctl) :
    Res.Spares s (s.byHeld a e k va c) :=
  .after (.ite (.refl s) (s.tlbInsert_spares _)) (byEntry_spares _ e k va c)

theorem translateCtl_spares (s : State) (a : Agent) (k : AccKind) (va : Word) (c : Ctl) :
    Res.Spares s (s.translateCtl a k va c) := by
  unfold translateCtl
  refine .ite .trap ?_
  split
  · exact s.byWalk_spares a k va c
  next e _ =>
    refine .ite (s.byHeld_spares a e k va c) ?_
    have hdraw : s.Spares { s with draws := s.draws + 1 } := .of_eq rfl rfl rfl rfl rfl
    exact .after hdraw (.ite (byHeld_spares _ a e k va c) (byWalk_spares _ a k va c))

theorem translate_strand_spares (s : State) (i : Nat) (k : AccKind) (va : Word) : Res.Spares s (s.translate (.strand i) k va) := by
  unfold translate
  dsimp only
  split
  · exact .trap
  · exact .ite .trap (s.translateCtl_spares _ k va _)

theorem copyPage_spares {s : State} {i : Nat} (hc : s.cur = .strand i) (k : AccKind) (va : Word) :
    Res.Spares s (s.copyPage k va) := by
  have ht := s.translate_strand_spares i k va
  unfold copyPage
  rw [hc]
  split
  · exact .trap
  · exact .stall
  next u p e =>
    have hp : s.Spares { u with accPa := p.pa } := (ht u p e).trans (.of_eq rfl rfl rfl rfl rfl)
    refine .after hp (.ite .trap ?_)
    split
    · exact .trap
    · exact .stall
    · exact .ok (.refl _)

theorem copyPages_spares {s : State} {i : Nat} (hc : s.cur = .strand i) (k : AccKind) (l : List (Nat × Nat)) :
    Res.Spares s (s.copyPages k l) := by
  induction l generalizing s with
  | nil => exact .ok (.refl s)
  | cons r l ih => exact .bind (copyPage_spares hc k _) fun u _ hu => .bind (ih (hu.cur.trans hc)) fun w _ _ => .ok (.refl w)

end State

end Sys2Proof.Machine
end
section
/-! Copies (O37): how a plan that opens enters its queue. -/

namespace Sys2Proof.Machine

/-- A queued copy is the one that strand `t` planned as `q`, with these pieces on its sides. -/
def Copy.Follows (k : Copy) (t : Strand) (q : CopyPlan) (src dst : List Piece) : Prop :=
  k.core = t.core ∧ k.image = t.image ∧ k.batch = t.openBat ∧ k.stage = 0 ∧ k.done = [] ∧ k.dstStage = q.dstStage ∧
  k.srcStage = q.srcStage ∧ k.src = src ∧ k.dst = dst ∧ k.rowS = q.rowS ∧ k.rowD = q.rowD ∧ k.conv = q.conv ∧ k.fill = q.fill ∧
  k.pattern = q.pattern ∧ (q.table = none → k.scales = q.scales)

theorem Copy.Follows.dst_eq {k : Copy} {t : Strand} {q : CopyPlan} {src dst : List Piece} (h : k.Follows t q src dst) : k.dst = dst := by
  obtain ⟨-, -, -, -, -, -, -, -, hdst, -⟩ := h
  exact hdst

namespace State

variable {s : State} {t : Strand}

/-- Lines that no other strand's copy owns and no other strand holds may be taken (R206, R217). -/
theorem ownLines_free {cs : List Copy} {hs : List Hold} {own : List Nat} {k : Nat} (active : Hold → Bool)
    (h : ∀ l ∈ own, (∀ c ∈ cs, c.image ≠ k → l ∉ c.own) ∧ ∀ x ∈ hs, x.image ≠ k → x.granule ≠ l) :
    ¬((cs.any fun c => decide (c.image ≠ k) && own.any fun l => c.own.contains l) ||
      hs.any fun x => own.contains x.granule && active x && decide (x.image ≠ k)) = true := by
  simp only [Bool.or_eq_true, List.any_eq_true, Bool.and_eq_true, decide_eq_true_eq, List.contains_iff_mem]
  rintro (⟨c, hc, hne, l, hl, hm⟩ | ⟨x, hx, ⟨hl, -⟩, hne⟩)
  · exact (h l hl).1 c hc hne hm
  · exact (h _ hl).2 x hx hne rfl

/-- A copy that opens enters the queue (R243 steps 3 to 6). -/
theorem copyGo_of_opens (h : s.OnStrand t) {q : CopyPlan} {src dst : List Piece} (ho : s.CopyOpens t q src dst) (rd : Reg) :
    ∃ (m : State) (k : Copy), s.copyGo t rd q = .next ((if k.lines.isEmpty then m.copyDone k.id else m).retX rd 0) ∧
      (s.rbuf = [] → m.mem = s.mem) ∧ m.copies = s.copies ++ [k] ∧ k.Follows t q src dst := by
  obtain ⟨hpath, hbat, s1, s2, s3, fs, ft, fd, hsrc, htab, hdst, rfl, rfl, happart, hown, htp, hclean, himage⟩ := ho
  have h1 := copyPages_spares h.cur _ _ _ _ hsrc
  have h2 := h1.trans (copyPages_spares (h1.cur.trans h.cur) _ _ _ _ htab)
  have h3 := h2.trans (copyPages_spares (h2.cur.trans h.cur) _ _ _ _ hdst)
  generalize hout : s.copyGo t rd q = out
  unfold copyGo at hout
  extract_lets -underBinder mem tab at hout
  rw [hpath] at hout
  dsimp -zeta only at hout
  rw [if_neg (Nat.not_lt.2 hbat), hsrc] at hout
  dsimp -zeta only [Res.bind] at hout
  rw [show s1.copyPages .load (pageFirsts tab) = .ok s2 ft from htab] at hout
  dsimp -zeta only at hout
  rw [hdst] at hout
  dsimp -zeta only [Res.run] at hout
  extract_lets -underBinder pieces src dst tp own s4 at hout
  have hapart : ¬(q.apart && decide (q.srcStage = q.dstStage) && piecesMeet src dst) = true := by
    simp only [Bool.and_eq_true, decide_eq_true_eq, not_and, Bool.not_eq_true, and_imp]
    exact happart
  rw [if_neg hapart, h3.copies, if_neg (ownLines_free (own := own) s3.holdActive hown)] at hout
  have h4 : s3.Spares s4 := servedLines_spares s3 own
  have hready (p : Part) (hp : p ∈ tp) : s4.blocked s4.cur p.pa p.n false = false := by
    rw [(h3.trans h4).cur]
    exact (servedLines_blocked s3 own _ _ _ _).trans (htp p hp)
  have hsound (p : Part) (hp : p ∈ tp) : s4.poisonAt p.pa p.n = false := by
    have hq := List.any_eq_false.1 hclean.1 p hp
    rw [Bool.not_eq_true] at hq
    exact poisonAt_of_subset h4.poison hq
  obtain ⟨s5, hopen, h5⟩ := openPartsAs_of_clean (n := Config.numCores) (who := dieOf t.core) hready hsound
    fun p hp => (servedLines_memStep s3 own).imagesAt_eq_nil (himage p hp)
  rw [hopen] at hout
  dsimp -zeta only at hout
  extract_lets -underBinder scales s6 s7 frm desc fill slot at hout
  rw [if_neg Bool.false_ne_true] at hout
  dsimp -zeta only at hout
  extract_lets -underBinder read s8 s9 s10 s11 k0 k s12 s13 at hout
  have h7 : s5.Spares s7 := ((homeSeen_spares ..).trans (dropNc_spares ..)).trans (.foldl (fun s f => s.classify_spares ..) _ _)
  have h8 : s7.Spares s8 := .of_eq rfl rfl rfl rfl rfl
  have h11 : s8.Spares s11 := ((s8.mergeWhere_spares _).trans (s9.deliver_spares _)).trans (.foldl (fun s l => s.dirLine_spares ..) _ _)
  have hs := ((((h3.trans h4).trans h5).trans h7).trans h8).trans h11
  refine ⟨s13, k, ?_, fun hr => (hs.mem hr).2, congrArg (· ++ [k]) hs.copies, ?_⟩
  · rw [← hout, Bool.not_false, Bool.and_true]
    rfl
  · exact ⟨rfl, rfl, rfl, rfl, rfl, rfl, rfl, rfl, rfl, rfl, rfl, rfl, rfl, rfl, fun hq => by simp only [k, k0, scales, hq]⟩

end State

end Sys2Proof.Machine
end
section
/-! Copies (O37): operands that pass their checks, and the plan that they give (R246, R248, R249). -/

namespace Sys2Proof.Machine

/-! ### Chunks -/

theorem mem_dedup_of_mem {l : List Nat} {x : Nat} (h : x ∈ l) : x ∈ dedup l := by
  induction l with
  | nil => cases h
  | cons y l ih =>
    show x ∈ if (dedup l).contains y then dedup l else y :: dedup l
    split
    next hy =>
      obtain rfl | hl := List.mem_cons.1 h
      · exact List.contains_iff_mem.1 hy
      · exact ih hl
    next => exact List.mem_cons.2 ((List.mem_cons.1 h).imp_right ih)

theorem first_mem_linesOf (pa : Nat) {n : Nat} (hn : n ≠ 0) : pa / 64 ∈ linesOf pa n := by
  rw [linesOf, if_neg hn]
  exact List.mem_cons_self

/-- A copy that writes any byte has a chunk. -/
theorem Copy.lines_isEmpty_of_piece {k : Copy} {r : Piece} (hr : r ∈ k.dst) (hn : r.len ≠ 0) : k.lines.isEmpty = false := by
  have hl : r.addr / 64 ∈ k.lines := mem_dedup_of_mem (List.mem_flatMap.2 ⟨r, hr, first_mem_linesOf r.addr hn⟩)
  exact List.isEmpty_eq_false_iff.2 (List.ne_nil_of_mem hl)

namespace State

variable {s : State} {t : Strand} {c : Crew}

theorem copyDone_mem (s : State) (id : Nat) : (s.copyDone id).mem = s.mem := by
  unfold copyDone
  split <;> rfl

/-- A form that is the issue of plan `q` queues it. -/
theorem queues_of_copyGo (h : s.OnStrand t) {rd : Reg} {i : Instr} {q : CopyPlan} (hi : exec i s = s.copyGo t rd q) :
    s.Queues t rd i q := by
  refine ⟨hi, fun src dst ho => ?_⟩
  obtain ⟨m, k, hgo, hmem, hcopies, hk⟩ := copyGo_of_opens h ho rd
  refine ⟨_, hi.trans hgo, fun hr => ?_, fun ⟨r, hr, hn⟩ => ⟨k, ?_, hk⟩⟩
  · split
    · exact (m.copyDone_mem _).trans (hmem hr)
    · exact hmem hr
  · rw [Copy.lines_isEmpty_of_piece (hk.dst_eq ▸ hr) hn]
    exact hcopies

/-! ### Transfers -/

/-- One side of a transfer lies where it has to: within one W-core's stage memory, or below the end of the address space. -/
def SideOk (c : Crew) (stage : Bool) (a n : Nat) : Prop := if stage then rowsOut c [(a, n)] = none else a + n ≤ 2 ^ 64

theorem SideOk.rows {stage : Bool} {a n : Nat} (h : SideOk c stage a n) : (if stage then rowsOut c [(a, n)] else none) = none := by
  cases stage
  · rfl
  · exact h

theorem SideOk.within {stage : Bool} {a n : Nat} (h : SideOk c stage a n) : (stage || decide (a + n ≤ 2 ^ 64)) = true := by
  cases stage
  · exact decide_eq_true h
  · rfl

/-- So does a table of scales, which is clean where it lies in stage memory. -/
theorem sideOk_of_table {stage : Bool} {a n : Nat}
    (h : if stage then rowsOut c [(a, n)] = none ∧ c.stageBad a n = false else a + n ≤ 2 ^ 64) :
    SideOk c stage a n ∧ (stage && c.stageBad a n) = false := by
  cases stage
  · exact ⟨h, rfl⟩
  · exact h

/-- Two sides in stage memory share no byte. -/
theorem not_overlap {src dst : Bool} {sa ns da nd : Nat} (h : src = true → dst = true → da + nd ≤ sa ∨ sa + ns ≤ da) :
    ¬(src && dst && decide (sa < da + nd) && decide (da < sa + ns)) = true := by
  simp only [Bool.and_eq_true, decide_eq_true_eq]
  rintro ⟨⟨⟨hs, hd⟩, hlo⟩, hhi⟩
  have := h hs hd
  omega

/-- A transfer of plain bytes asks for its two sides (R246). -/
theorem transfer_plain (h : s.OnCrew t c) {dst src : Bool} {rd a b l : Reg} {n da sa : Nat} (el : (s.x l).toNat = n)
    (ea : (s.x a).toNat = da) (eb : (s.x b).toNat = sa) (hn : n ≠ 0) (hle : n ≤ 0x40000) (hsrc : SideOk c src sa n)
    (hdst : SideOk c dst da n) (hapart : src = true → dst = true → da + n ≤ sa ∨ sa + n ≤ da) :
    s.transfer .plain dst src rd a b l = s.copyGo t rd
      { dstStage := dst, srcStage := src, src := [(sa, n)], dst := [(da, n)], rowS := n, rowD := n,
        vals := [s.x a, s.x b, s.x l, 0, 0], apart := true } := by
  unfold transfer
  rw [onCrew_eq h]
  simp only [el, ea, eb, copyFmts, sideBytes, Option.map_none, ne_eq, not_true, decide_false, Bool.false_and, Bool.false_eq_true, if_false,
    hn, hle, decide_true, Bool.and_self, hsrc.within, hdst.within, Bool.not_true, Bool.false_or, not_overlap hapart, hsrc.rows,
    hdst.rows, Nat.zero_le, Nat.add_zero]

section

variable {dst src : Bool} {rd a b l : Reg} {p q : CFmt} {n ns nd da sa : Nat} (h : s.OnCrew t c) (el : (s.x l).toNat = n)
  (ea : (s.x a).toNat = da) (eb : (s.x b).toNat = sa) (es : n * cfBits p / 8 = ns) (ed : n * cfBits q / 8 = nd)
  (hf : s.frm?.isSome = true) (hn : n ≠ 0) (hgp : n % cfGroup p = 0) (hgq : n % cfGroup q = 0) (hap : sa % cfAlign p = 0)
  (haq : da % cfAlign q = 0) (hns : ns ≤ 0x40000) (hnd : nd ≤ 0x40000) (hsrc : SideOk c src sa ns) (hdst : SideOk c dst da nd)
  (hapart : src = true → dst = true → da + nd ≤ sa ∨ sa + ns ≤ da)

include h el ea eb es ed hf hn hgp hgq hap haq hns hnd hsrc hdst hapart

/-- A converting transfer with its scale in the instruction. -/
theorem transfer_conv (g : BitVec 8) : s.transfer (.conv p q g) dst src rd a b l = s.copyGo t rd
    { dstStage := dst, srcStage := src, src := [(sa, ns)], dst := [(da, nd)], rowS := ns, rowD := nd, conv := some (p, q),
      scales := [g.toNat], vals := [s.x a, s.x b, s.x l, 0, 0], apart := true } := by
  unfold transfer
  rw [onCrew_eq h]
  simp only [el, ea, eb, es, ed, copyFmts, sideBytes, Option.map_some, Option.isNone_eq_false_iff.2 hf, Bool.and_false, Bool.false_eq_true,
    if_false, hn, hgp, hgq, hap, haq, hns, hnd, decide_true, Bool.and_self, hsrc.within, hdst.within, Bool.not_true,
    not_overlap hapart, hsrc.rows, hdst.rows, Nat.zero_le, Nat.add_zero, Bool.or_true, ne_eq, not_true, decide_false, Bool.false_and]

/-- One with a table of scales, which lies on the side of the element codes. -/
theorem transfer_mx {rx : Reg} {st : Bool} {ta tn : Nat} (et : (s.x rx).toNat = ta) (en : (n + 31) / 32 = tn)
    (est : (if isElt p then src else dst) = st) (htab : SideOk c st ta tn) (hclean : (st && c.stageBad ta tn) = false) :
    s.transfer (.mx p q rx) dst src rd a b l = s.copyGo t rd
    { dstStage := dst, srcStage := src, src := [(sa, ns)], dst := [(da, nd)], rowS := ns, rowD := nd, conv := some (p, q),
      scales := (upto 0 tn).map fun i => c.stageGet (ta + i) 1, table := if st then none else some (ta, tn),
      vals := [s.x a, s.x b, s.x l, s.x rx, 0], apart := true } := by
  have htn : tn ≠ 0 := by omega
  unfold transfer
  rw [onCrew_eq h]
  simp only [el, ea, eb, es, ed, et, en, est, copyFmts, sideBytes, Option.map_some, Option.isNone_eq_false_iff.2 hf, Bool.and_false,
    Bool.false_eq_true, if_false, hn, htn, hgp, hgq, hap, haq, hns, hnd, decide_true, Bool.and_self, hsrc.within, hdst.within,
    htab.within, Bool.not_true, not_overlap hapart, hsrc.rows, hdst.rows, htab.rows, hclean, ne_eq, not_false_eq_true, Bool.and_true]
  cases st <;> rfl

end

/-! ### Gathers and scatters -/

section

variable {rd a b l x y : Reg} {n da sa ta w len : Nat} (h : s.OnCrew t c) (el : (s.x l).toNat = n) (ea : (s.x a).toNat = da)
  (eb : (s.x b).toNat = sa) (ex : (s.x x).toNat = ta) (ey : (s.x y).toNat = w) (ew : bits w 15 0 = len) (hn : n ≠ 0) (hlen : len ≠ 0)
  (hrows : n ≤ 4096) (hal : ta % 4 = 0) (htab : rowsOut c [(ta, 4 * n)] = none) (hclean : c.stageBad ta (4 * n) = false)

include h el ea eb ex ey ew hn hlen hrows hal htab hclean

/-- Rows of plain bytes are gathered where the table says, an index of all ones giving zeros (R248). -/
theorem rowCopy_gath_plain (hle : n * len ≤ 0x40000) (hpitch : len ≤ bits w 31 16)
    (hst : rowsOut c ((upto 0 n).map fun j => (da + j * bits w 31 16, len)) = none)
    (hfit : ∀ i ∈ (upto 0 n).map fun j => c.stageGet (ta + 4 * j) 4,
      i = 0xFFFFFFFF ∨ (sa + i * bits w 63 32) % 2 ^ 64 + len ≤ 2 ^ 64) :
    s.rowCopy true .plain rd a b l x y = s.copyGo t rd
      { dstStage := true, srcStage := false, dst := (upto 0 n).map fun j => (da + j * bits w 31 16, len), rowS := len, rowD := len,
        vals := [s.x a, s.x b, s.x l, s.x x, s.x y],
        src := ((upto 0 n).map fun j => c.stageGet (ta + 4 * j) 4).map fun i =>
          if i = 0xFFFFFFFF then (zeroAddr, len) else ((sa + i * bits w 63 32) % 2 ^ 64, len) } := by
  unfold rowCopy
  rw [onCrew_eq h]
  simp only [el, ea, eb, ex, ey, ew, sideBytes, Option.map_none, hn, hlen, hrows, hle, hpitch, hal, htab, hclean, hst, ne_eq, not_true,
    decide_false, Bool.false_and, Bool.false_eq_true, if_false, if_true, decide_true, Bool.and_self, Bool.not_true, Bool.or_self,
    decide_eq_true_eq]
  exact if_neg (by simpa [or_iff_not_imp_left] using hfit)

theorem rowCopy_scat_plain (hle : n * len ≤ 0x40000) (hpitch : len ≤ bits w 31 16)
    (hst : rowsOut c ((upto 0 n).map fun j => (sa + j * bits w 31 16, len)) = none)
    (hfit : ∀ i ∈ (upto 0 n).map fun j => c.stageGet (ta + 4 * j) 4,
      i = 0xFFFFFFFF ∨ (da + i * bits w 63 32) % 2 ^ 64 + len ≤ 2 ^ 64) :
    let both := (List.zip ((upto 0 n).map fun j => c.stageGet (ta + 4 * j) 4)
      ((upto 0 n).map fun j => (sa + j * bits w 31 16, len))).filter fun p => !(p.1 = 0xFFFFFFFF)
    s.rowCopy false .plain rd a b l x y = s.copyGo t rd
      { dstStage := false, srcStage := true, src := both.map (·.2), dst := both.map fun p => ((da + p.1 * bits w 63 32) % 2 ^ 64, len),
        rowS := len, rowD := len, vals := [s.x a, s.x b, s.x l, s.x x, s.x y] } := by
  unfold rowCopy
  rw [onCrew_eq h]
  simp only [el, ea, eb, ex, ey, ew, sideBytes, Option.map_none, hn, hlen, hrows, hle, hpitch, hal, htab, hclean, hst, ne_eq, not_true,
    decide_false, Bool.false_and, Bool.false_eq_true, if_false, decide_true, Bool.and_self, Bool.not_true, Bool.or_self]
  exact if_neg (by simpa [or_iff_not_imp_left] using hfit)

section

variable {p q : CFmt} {ns nd : Nat} (es : len * cfBits p / 8 = ns) (ed : len * cfBits q / 8 = nd) (hf : s.frm?.isSome = true)
  (hns : n * ns ≤ 0x40000) (hnd : n * nd ≤ 0x40000) (hgp : len % cfGroup p = 0) (hgq : len % cfGroup q = 0)

include es ed hf hns hnd hgp hgq

/-- The same with the rows converted. -/
theorem rowCopy_gath_conv (g : BitVec 8) (hpitch : nd ≤ bits w 31 16)
    (hst : rowsOut c ((upto 0 n).map fun j => (da + j * bits w 31 16, nd)) = none)
    (hstal : ∀ r ∈ (upto 0 n).map fun j => (da + j * bits w 31 16, nd), r.1 % cfAlign q = 0)
    (hfit : ∀ i ∈ (upto 0 n).map fun j => c.stageGet (ta + 4 * j) 4, i = 0xFFFFFFFF ∨
      ((sa + i * bits w 63 32) % 2 ^ 64 % cfAlign p = 0 ∧ (sa + i * bits w 63 32) % 2 ^ 64 + ns ≤ 2 ^ 64)) :
    s.rowCopy true (.conv p q g) rd a b l x y = s.copyGo t rd
      { dstStage := true, srcStage := false, dst := (upto 0 n).map fun j => (da + j * bits w 31 16, nd), rowS := ns, rowD := nd,
        conv := some (p, q), scales := [g.toNat], vals := [s.x a, s.x b, s.x l, s.x x, s.x y],
        src := ((upto 0 n).map fun j => c.stageGet (ta + 4 * j) 4).map fun i =>
          if i = 0xFFFFFFFF then (zeroAddr, ns) else ((sa + i * bits w 63 32) % 2 ^ 64, ns) } := by
  unfold rowCopy
  rw [onCrew_eq h]
  simp only [el, ea, eb, ex, ey, ew, es, ed, sideBytes, Option.map_some, Option.isNone_eq_false_iff.2 hf, hn, hlen, hrows, hns, hnd,
    hgp, hgq, hpitch, hal, htab, hclean, hst, Bool.and_false, Bool.false_eq_true, if_false, if_true, decide_true, Bool.and_self,
    Bool.not_true, decide_eq_true_eq, decide_false, Bool.or_self]
  exact if_neg (by simpa [or_iff_not_imp_left] using And.intro hstal hfit)

theorem rowCopy_scat_conv (g : BitVec 8) (hpitch : ns ≤ bits w 31 16)
    (hst : rowsOut c ((upto 0 n).map fun j => (sa + j * bits w 31 16, ns)) = none)
    (hstal : ∀ r ∈ (upto 0 n).map fun j => (sa + j * bits w 31 16, ns), r.1 % cfAlign p = 0)
    (hfit : ∀ i ∈ (upto 0 n).map fun j => c.stageGet (ta + 4 * j) 4, i = 0xFFFFFFFF ∨
      ((da + i * bits w 63 32) % 2 ^ 64 % cfAlign q = 0 ∧ (da + i * bits w 63 32) % 2 ^ 64 + nd ≤ 2 ^ 64)) :
    let both := (List.zip ((upto 0 n).map fun j => c.stageGet (ta + 4 * j) 4)
      ((upto 0 n).map fun j => (sa + j * bits w 31 16, ns))).filter fun p => !(p.1 = 0xFFFFFFFF)
    s.rowCopy false (.conv p q g) rd a b l x y = s.copyGo t rd
      { dstStage := false, srcStage := true, src := both.map (·.2), dst := both.map fun p => ((da + p.1 * bits w 63 32) % 2 ^ 64, nd),
        rowS := ns, rowD := nd, conv := some (p, q), scales := [g.toNat], vals := [s.x a, s.x b, s.x l, s.x x, s.x y] } := by
  unfold rowCopy
  rw [onCrew_eq h]
  simp only [el, ea, eb, ex, ey, ew, es, ed, sideBytes, Option.map_some, Option.isNone_eq_false_iff.2 hf, hn, hlen, hrows, hns, hnd,
    hgp, hgq, hpitch, hal, htab, hclean, hst, Bool.and_false, Bool.false_eq_true, if_false, decide_true, Bool.and_self,
    Bool.not_true, decide_false, Bool.or_self]
  exact if_neg (by simpa [or_iff_not_imp_left] using And.intro hstal hfit)

end

end

/-! ### Fills, forms of length 0, forms without a rounding mode -/

theorem fillCopy_of_ok (h : s.OnCrew t c) {dst : Bool} {rd a b l : Reg} {n da : Nat} (el : (s.x l).toNat = n) (ea : (s.x a).toNat = da)
    (hn : n ≠ 0) (hle : n ≤ 0x40000) (hdst : SideOk c dst da n) : s.fillCopy dst rd a b l = s.copyGo t rd
      { dstStage := dst, srcStage := false, fill := true, pattern := s.x b, dst := [(da, n)], rowD := n,
        vals := [s.x a, s.x b, s.x l, 0, 0] } := by
  unfold fillCopy
  rw [onCrew_eq h]
  simp only [el, ea, hn, hle, hdst.within, hdst.rows, decide_true, Bool.and_self, Bool.not_true, Bool.false_eq_true, if_false]

section

variable (h : s.OnCrew t c) (rd a b : Reg) {l : Reg} (x y : Reg)

include h

theorem transfer_zero (hn : (s.x l).toNat = 0) {f : CopyForm} (hf : s.frm? = none → f = .plain) (dst src : Bool) :
    s.transfer f dst src rd a b l = .next (s.retX rd 0) := by
  unfold transfer
  rw [onCrew_eq h, if_neg (by simpa [not_imp_not] using hf), if_pos hn, status_eq]

theorem rowCopy_zero (hn : (s.x l).toNat = 0) {f : RowForm} (hf : s.frm? = none → f = .plain) (gath : Bool) :
    s.rowCopy gath f rd a b l x y = .next (s.retX rd 0) := by
  unfold rowCopy
  rw [onCrew_eq h, if_neg (by simpa [not_imp_not] using hf), if_pos (by simp [hn]), status_eq]

theorem fillCopy_zero (hn : (s.x l).toNat = 0) (dst : Bool) : s.fillCopy dst rd a b l = .next (s.retX rd 0) := by
  unfold fillCopy
  rw [onCrew_eq h, if_pos hn, status_eq]

theorem transfer_illegal (hr : s.frm? = none) {f : CopyForm} (hf : f ≠ .plain) (dst src : Bool) :
    s.transfer f dst src rd a b l = .next (s.trap 2 s.ibits) := by
  unfold transfer
  rw [onCrew_eq h, if_pos (by simp [hf, hr]), illegal_eq]

theorem rowCopy_illegal (hr : s.frm? = none) {f : RowForm} (hf : f ≠ .plain) (gath : Bool) :
    s.rowCopy gath f rd a b l x y = .next (s.trap 2 s.ibits) := by
  unfold rowCopy
  rw [onCrew_eq h, if_pos (by simp [hf, hr]), illegal_eq]

end

end State

end Sys2Proof.Machine

namespace Sys2Proof

open Machine

/-- Settles O37: a form whose operands pass its checks is the issue of the plan that they give, and a plan that opens is queued. -/
theorem copyForms : Obligations.CopyForms := by
  unfold Obligations.CopyForms
  refine ⟨fun s t c rd a b l x y h => ?_, fun s t c rd a b l x y rx p q g h => ?_⟩
  all_goals
    have queues {i : Instr} {q : CopyPlan} := State.queues_of_copyGo (rd := rd) (i := i) (q := q) h.onStrand
  · refine ⟨fun hn => ?_, fun hn hle => ?_, ?_⟩
    · have bytes := State.transfer_zero h rd a b hn (f := .plain) fun _ => rfl
      have rows := State.rowCopy_zero h rd a b x y hn (f := .plain) fun _ => rfl
      have fill := State.fillCopy_zero h rd a b hn
      simp only [List.forall_mem_cons, List.not_mem_nil, false_imp_iff, implies_true, and_true]
      exact ⟨bytes true false, bytes false true, bytes false false, bytes true true, rows true, rows false, fill true, fill false⟩
    · have bytes := fun dst src => State.transfer_plain (dst := dst) (src := src) (rd := rd) (a := a) (b := b) h rfl rfl rfl hn hle
      have fill := fun dst => State.fillCopy_of_ok (dst := dst) (rd := rd) (a := a) (b := b) h rfl rfl hn hle
      exact ⟨fun hsa hda => queues (bytes true false hsa hda nofun), fun hda hsa => queues (bytes false true hsa hda nofun),
        fun hsa hda => queues (bytes false false hsa hda nofun), fun hap hda hsa => queues (bytes true true hsa hda fun _ _ => hap),
        fun hda => queues (fill true hda), fun hda => queues (fill false hda)⟩
    · intro w len stRows idx row hn hlen hrows hle hpitch hal htab hclean
      exact ⟨fun hst hfit => queues (State.rowCopy_gath_plain h rfl rfl rfl rfl rfl rfl hn hlen hrows hal htab hclean hle hpitch hst hfit),
        fun hst hfit => queues (State.rowCopy_scat_plain h rfl rfl rfl rfl rfl rfl hn hlen hrows hal htab hclean hle hpitch hst hfit)⟩
  · refine ⟨fun hr => ?_, fun hf hn => ?_, ?_, ?_⟩
    · have conv := State.transfer_illegal h rd a b (l := l) hr (f := .conv p q g) nofun
      have mx := State.transfer_illegal h rd a b (l := l) hr (f := .mx p q rx) nofun
      have rows := State.rowCopy_illegal h rd a b (l := l) x y hr (f := .conv p q g) nofun
      simp only [List.forall_mem_cons, List.not_mem_nil, false_imp_iff, implies_true, and_true]
      exact ⟨conv true false, conv false true, conv false false, conv true true, mx true false, mx false true, mx false false,
        mx true true, rows true, rows false⟩
    · have legal {α : Prop} (hr : s.frm? = none) : α := by simp [hr] at hf
      have conv := State.transfer_zero h rd a b hn (f := .conv p q g) legal
      have mx := State.transfer_zero h rd a b hn (f := .mx p q rx) legal
      have rows := State.rowCopy_zero h rd a b x y hn (f := .conv p q g) legal
      simp only [List.forall_mem_cons, List.not_mem_nil, false_imp_iff, implies_true, and_true]
      exact ⟨conv true false, conv false true, conv false false, conv true true, mx true false, mx false true, mx false false,
        mx true true, rows true, rows false⟩
    · intro ns nd tn ta plan table both hf hn hgp hgq hap haq hns hnd
      have pair (dst src : Bool) {i j : Instr} (hi : exec i s = s.transfer (.conv p q g) dst src rd a b l)
          (hj : exec j s = s.transfer (.mx p q rx) dst src rd a b l) : both i j dst src := by
        intro hsa hda hapart
        have conv := State.transfer_conv (rd := rd) h rfl rfl rfl rfl rfl hf hn hgp hgq hap haq hns hnd hsa hda hapart
        have mx := State.transfer_mx (rd := rd) h rfl rfl rfl rfl rfl hf hn hgp hgq hap haq hns hnd hsa hda hapart (rx := rx) rfl rfl rfl
        refine ⟨queues (hi.trans (conv g)), fun ht => ?_⟩
        obtain ⟨htab, hclean⟩ := State.sideOk_of_table ht
        exact queues (hj.trans (mx htab hclean))
      exact ⟨pair true false rfl rfl, pair false true rfl rfl, pair false false rfl rfl, pair true true rfl rfl⟩
    · intro w ns nd stRows idx row fits hf hn hlen hrows hns hnd hgp hgq hal htab hclean
      exact ⟨fun hpitch hst hstal hfit => queues (State.rowCopy_gath_conv h rfl rfl rfl rfl rfl rfl hn hlen hrows hal htab hclean rfl rfl
          hf hns hnd hgp hgq g hpitch hst hstal hfit),
        fun hpitch hst hstal hfit => queues (State.rowCopy_scat_conv h rfl rfl rfl rfl rfl rfl hn hlen hrows hal htab hclean rfl rfl
          hf hns hnd hgp hgq g hpitch hst hstal hfit)⟩

end Sys2Proof
end
section
/-! An access of a strand while nothing is buffered (R176 to R187): translation and opening change nothing but the TLBs, the classes,
the directories and the queues of those that wait. -/

namespace Sys2Proof.Machine

namespace State

variable {s s' s'' : State}

theorem OnlyAccess.refl (s : State) : s.OnlyAccess s := rfl

theorem OnlyAccess.trans (h : s.OnlyAccess s') (h' : s'.OnlyAccess s'') : s.OnlyAccess s'' := by
  unfold OnlyAccess at h h' ⊢
  rw [h] at h'
  exact h'

theorem OnlyAccess.rbuf (h : s.OnlyAccess s') : s'.rbuf = s.rbuf := by rw [h]
theorem OnlyAccess.strands (h : s.OnlyAccess s') : s'.strands = s.strands := by rw [h]
theorem OnlyAccess.mem (h : s.OnlyAccess s') : s'.mem = s.mem := by rw [h]

/-- From `s` to `s'` only an access has been made, where nothing was buffered. -/
structure Accesses (s s' : State) : Prop where
  only : s.rbuf = [] → s.OnlyAccess s'

namespace Accesses

theorem refl (s : State) : s.Accesses s := ⟨fun _ => .refl s⟩

theorem trans (h : s.Accesses s') (h' : s'.Accesses s'') : s.Accesses s'' :=
  ⟨fun hr => (h.only hr).trans (h'.only ((h.only hr).rbuf.trans hr))⟩

theorem foldl {α : Type} {f : State → α → State} (hf : ∀ (s : State) (x : α), s.Accesses (f s x)) (l : List α) (s : State) :
    s.Accesses (l.foldl f s) := by
  induction l generalizing s with
  | nil => exact refl s
  | cons x l ih => exact (hf s x).trans (ih _)

theorem ite {c : Prop} [Decidable c] {a b : State} (ha : s.Accesses a) (hb : s.Accesses b) : s.Accesses (if c then a else b) := by
  split
  · exact ha
  · exact hb

end Accesses

theorem mergeLines_accesses (s : State) (pa n : Nat) : s.Accesses (s.mergeLines pa n) :=
  ⟨fun hr => by rw [mergeLines_of_nil hr]; exact .refl s⟩

theorem patOpen_accesses (s : State) (pa : Nat) : s.Accesses (s.patOpen pa) :=
  ⟨fun hr => by rw [patOpen_of_nil hr]; exact .refl s⟩

theorem classify_accesses (s : State) (n pa attr : Nat) : s.Accesses (s.classify n pa attr) := by
  refine ⟨fun hr => ?_⟩
  have hm (p : RedEntry → Bool) : s.mergeWhere p = s := by simp [mergeWhere, hr]
  unfold classify
  simp only [hm]
  (repeat' split) <;> exact rfl

theorem dirLine_accesses (s : State) (who line : Nat) (write : Bool) : s.Accesses (s.dirLine who line write) :=
  .ite ⟨fun _ => rfl⟩ (.ite (.refl s) ⟨fun _ => rfl⟩)

theorem dirTouch_accesses (s : State) (who pa n : Nat) (write : Bool) : s.Accesses (s.dirTouch who pa n write) :=
  .foldl (fun s l => s.dirLine_accesses who l write) _ _

theorem tlbInsert_accesses (s : State) (e : TlbEntry) : s.Accesses (s.tlbInsert e) := .ite ⟨fun _ => rfl⟩ ⟨fun _ => rfl⟩

theorem tlbPut_accesses (s : State) (e : TlbEntry) : s.Accesses (s.tlbPut e) := by
  unfold tlbPut
  extract_lets s1 s2
  have h1 : s.Accesses s1 := ⟨fun _ => rfl⟩
  have h2 : s.Accesses s2 := h1.trans (s1.tlbInsert_accesses _)
  exact .ite h2 (h2.trans (s2.tlbInsert_accesses e))

end State

theorem Res.ok_of_bind {α β : Type} {s' : State} {r : Res α} {g : State → α → Res β} {b : β} (h : r.bind g = .ok s' b) :
    ∃ u a, r = .ok u a ∧ g u a = .ok s' b := by
  cases r with
  | ok u a => exact ⟨u, a, rfl, h⟩
  | trap u c v => cases h
  | stall u => cases h

/-- Where it answers, only an access has been made. -/
def Res.Accesses {α : Type} (s : State) (r : Res α) : Prop := ∀ s' a, r = .ok s' a → s.Accesses s'

namespace Res.Accesses

variable {α β : Type} {s s' : State}

theorem ok {a : α} (h : s.Accesses s') : Res.Accesses s (.ok s' a) := by
  intro _ _ e
  cases e
  exact h

theorem trap {c : Nat} {v : Word} : Res.Accesses (α := α) s (.trap s' c v) := fun _ _ e => nomatch e

theorem stall : Res.Accesses (α := α) s (.stall s') := fun _ _ e => nomatch e

theorem after {r : Res α} (h : s.Accesses s') (hr : Res.Accesses s' r) : Res.Accesses s r := fun u a e => h.trans (hr u a e)

theorem ite {c : Prop} [Decidable c] {a b : Res α} (ha : Res.Accesses s a) (hb : Res.Accesses s b) :
    Res.Accesses s (if c then a else b) := by
  split
  · exact ha
  · exact hb

theorem bind {r : Res α} {g : State → α → Res β} (hr : Res.Accesses s r) (hg : ∀ u a, Res.Accesses u (g u a)) :
    Res.Accesses s (r.bind g) := by
  cases r with
  | ok u a => exact after (hr u a rfl) (hg u a)
  | trap u c v => exact trap
  | stall u => exact stall

end Res.Accesses

namespace State

variable {s s' : State}

theorem readPte_accesses (s : State) (a : Agent) (k : AccKind) (va : Word) (pa : Nat) : Res.Accesses s (s.readPte a k va pa) := by
  unfold readPte
  split
  · exact .trap
  · exact .stall
  · exact .ite .stall (.ite .trap (.ok ((((s.patOpen_accesses pa).trans (mergeLines_accesses ..)).trans (classify_accesses ..)).trans
      (dirTouch_accesses ..))))

theorem walkFrom_accesses {rd : State → Nat → Res Nat} (hr : ∀ s p, Res.Accesses s (rd s p)) (pf : Nat) (va : Word) (x4 : Bool)
    (top n : Nat) (s : State) (base : Nat) : Res.Accesses s (walkFrom rd pf va x4 top s base n) := by
  induction n generalizing s base with
  | zero => exact .trap
  | succ n ih =>
    unfold walkFrom
    extract_lets idx
    split
    · exact .trap
    · exact .stall
    next u p e => exact .after (hr s _ u p e) (.ite .trap (.ite (.ite .trap (.ok (.refl u))) (.ite .trap (ih u _))))

theorem walk_accesses (s : State) (a : Agent) (k : AccKind) (va : Word) (c : Ctl) : Res.Accesses s (s.walk a k va c) := by
  have hw := walkFrom_accesses (fun s p => s.readPte_accesses a k va p) (pageFault k) va false 4 c.levels s c.base
  unfold walk
  split
  · exact .trap
  · exact .stall
  next u p level e => exact .after (hw u _ e) (.ite .trap (.ok (.refl u)))

theorem byEntry_accesses (s : State) (e : TlbEntry) (k : AccKind) (va : Word) (c : Ctl) : Res.Accesses s (s.byEntry e k va c) :=
  .ite (.ok (s.patOpen_accesses _)) .trap

theorem byWalk_accesses (s : State) (a : Agent) (k : AccKind) (va : Word) (c : Ctl) : Res.Accesses s (s.byWalk a k va c) :=
  .bind (s.walk_accesses a k va c) fun u e => .after (u.tlbPut_accesses e) (byEntry_accesses _ e k va c)

theorem byHeld_accesses (s : State) (a : Agent) (e : TlbEntry) (k : AccKind) (va : Word) (c : Ctl) :
    Res.Accesses s (s.byHeld a e k va c) :=
  .after (.ite (.refl s) (s.tlbInsert_accesses _)) (byEntry_accesses _ e k va c)

theorem translateCtl_accesses (s : State) (a : Agent) (k : AccKind) (va : Word) (c : Ctl) :
    Res.Accesses s (s.translateCtl a k va c) := by
  unfold translateCtl
  refine .ite .trap ?_
  split
  · exact s.byWalk_accesses a k va c
  next e _ =>
    have hdraw : s.Accesses s.drawBit.2 := ⟨fun _ => rfl⟩
    exact .ite (s.byHeld_accesses a e k va c) (.after hdraw (.ite (byHeld_accesses _ a e k va c) (byWalk_accesses _ a k va c)))

theorem translate_accesses (s : State) (i : Nat) (k : AccKind) (va : Word) : Res.Accesses s (s.translate (.strand i) k va) := by
  unfold translate
  dsimp only
  split
  · exact .trap
  · exact .ite .trap (s.translateCtl_accesses _ k va _)

theorem locPage_accesses (s : State) (i : Nat) (k : AccKind) (va : Word) (n size : Nat) :
    Res.Accesses s (s.locPage (.strand i) k va n size) := by
  have ht := s.translate_accesses i k va
  unfold locPage
  split
  · exact .trap
  · exact .stall
  next u p e =>
    extract_lets s1
    have h1 : s.Accesses s1 := (ht u p e).trans ⟨fun _ => rfl⟩
    refine .after h1 ?_
    split
    · exact .ite (.ok (.refl _)) .trap
    · refine .ite .trap ?_
      split
      · exact .trap
      · exact .stall
      · exact .ok (.refl _)

/-- The translation of an access of a strand. -/
theorem locate_accesses (s : State) (i : Nat) (k : AccKind) (va : Word) (n : Nat) : Res.Accesses s (s.locate (.strand i) k va n) := by
  unfold locate
  extract_lets va first
  refine .ite (s.locPage_accesses i k va n n) (.bind (s.locPage_accesses i k va first n) fun u r1 =>
    .bind (u.locPage_accesses i k _ _ n) fun w r2 => ?_)
  split
  · exact .ok (.refl w)
  · exact .trap

/-! ### Where the bytes lie -/

/-- What lies in memory on one page is one part, of as many bytes as asked for. -/
theorem locPage_mem {a : Agent} {k : AccKind} {va : Word} {n size : Nat} {parts : List Part}
    (h : s.locPage a k va n size = .ok s' (.mem parts)) : ∃ p : Part, parts = [p] ∧ p.n = n := by
  unfold locPage at h
  split at h
  · cases h
  · cases h
  next u p e =>
    dsimp only at h
    split at h
    · split at h <;> cases h
    · split at h
      · cases h
      · split at h
        · cases h
        · cases h
        · cases h
          exact ⟨_, rfl, rfl⟩

/-- What an access finds in memory is one part, or one part on each of two pages (R187). -/
theorem locate_mem {a : Agent} {k : AccKind} {va : Word} {n : Nat} {parts : List Part}
    (h : s.locate a k va n = .ok s' (.mem parts)) :
    (∃ p : Part, parts = [p] ∧ p.n = n) ∨ ∃ p q : Part, parts = [p, q] ∧ p.n + q.n = n := by
  unfold locate at h
  dsimp only at h
  split at h
  next => exact .inl (locPage_mem h)
  next hn =>
    obtain ⟨u, r1, h1, h⟩ := Res.ok_of_bind h
    obtain ⟨w, r2, h2, h⟩ := Res.ok_of_bind h
    split at h
    · cases h
      obtain ⟨p, rfl, hp⟩ := locPage_mem h1
      obtain ⟨q, rfl, hq⟩ := locPage_mem h2
      exact .inr ⟨p, q, rfl, by omega⟩
    · cases h

end State

end Sys2Proof.Machine
end
section
/-! Stores (R187, R370): what a write of bytes leaves in memory where the hardware may put words of images back, what a store of
several parts writes, and when a store is performed. -/

namespace Sys2Proof.Machine

/-- Bytes are put back as they stand in `old`. -/
theorem sget_bytesSet_bytesGet {m old : Sparse 8} (hm : swf m = true) (a n x : Nat) :
    sget (bytesSet m a (bytesGet old a n) n) x = if a ≤ x ∧ x < a + n then sget old x else sget m x := by
  induction n generalizing a with
  | zero => rw [bytesSet, if_neg (by omega)]
  | succ n ih =>
    have hlt := (sget old a).isLt
    have hlow : BitVec.ofNat 8 ((sget old a).toNat + 256 * bytesGet old (a + 1) n) = sget old a :=
      BitVec.eq_of_toNat_eq (by rw [BitVec.toNat_ofNat]; omega)
    have hhigh : ((sget old a).toNat + 256 * bytesGet old (a + 1) n) / 256 = bytesGet old (a + 1) n := by omega
    rw [bytesGet, bytesSet, sget_sset (bytesSet_swf hm), hlow, hhigh, ih]
    by_cases hx : x = a
    · subst hx
      rw [if_pos rfl, if_pos (by omega)]
    · rw [if_neg hx]
      exact if_congr (by omega) rfl rfl

/-- Memory in canonical form of which every byte is that of `new` or that of `old`. -/
structure Mixes (old new m : Sparse 8) : Prop where
  swf : swf m = true
  byte : ∀ x, sget m x = sget new x ∨ sget m x = sget old x

namespace Mixes

variable {old new m : Sparse 8}

/-- A word of memory is put back as it stood. -/
theorem putBack (h : Mixes old new m) (a n : Nat) : Mixes old new (bytesSet m a (bytesGet old a n) n) := by
  refine ⟨bytesSet_swf h.swf, fun x => ?_⟩
  rw [sget_bytesSet_bytesGet h.swf]
  split
  · exact .inr rfl
  · exact h.byte x

theorem sget_eq (h : Mixes old new m) {x : Nat} (hx : sget new x = sget old x) : sget m x = sget old x :=
  (h.byte x).elim (·.trans hx) id

end Mixes

namespace State

variable {s s1 : State} {a : Agent} {p : Part}

/-! ### One write -/

theorem raceWord_mixes {old new : Sparse 8} (h : Mixes old new s.mem) (w : Nat × Nat) : Mixes old new (s.raceWord old w).mem := by
  have hput := h.putBack (w.1 + 8 * w.2) 8
  unfold raceWord drawBit
  dsimp only
  split <;> split
  · exact hput
  · exact hput
  · exact h
  · exact h

/-- A write leaves every byte as it writes it or as it stood (R370). -/
theorem poke_mixes (hm : swf s.mem = true) (keep : Nat → Bool) (attr writer pa : Nat) (data : List Byte) :
    Mixes s.mem (byteListSet s.mem pa data) (s.poke keep attr writer pa data).mem := by
  have hraw : Mixes s.mem (byteListSet s.mem pa data) (s.pokeRaw keep attr writer pa data).mem := by
    rw [pokeRaw_mem]
    exact ⟨byteListSet_swf hm, fun x => .inl rfl⟩
  have hwords (l : List (Nat × Nat)) {u : State} (h : Mixes s.mem (byteListSet s.mem pa data) u.mem) :
      Mixes s.mem (byteListSet s.mem pa data) (l.foldl (fun u w => u.raceWord s.mem w) u).mem := by
    induction l generalizing u with
    | nil => exact h
    | cons w l ih => exact ih (raceWord_mixes h w)
  exact hwords _ hraw

theorem poke_of_noRace {pa : Nat} {data : List Byte} (h : s.raceWords pa data.length = []) (keep : Nat → Bool) (attr writer : Nat) :
    s.poke keep attr writer pa data = s.pokeRaw keep attr writer pa data := by
  rw [poke, h]; rfl

theorem patNote_strands (s : State) (pa : Nat) (data : List Byte) : (s.patNote pa data).strands = s.strands := by
  unfold patNote
  extract_lets
  split <;> rfl

/-- A write takes no more of the strands than reservations, but for the words of images. -/
theorem pokeRaw_noResv (s : State) (keep : Nat → Bool) (attr writer pa : Nat) (data : List Byte) :
    (s.pokeRaw keep attr writer pa data).strands.map Strand.noResv = s.strands.map Strand.noResv := by
  show (List.map _ (s.patNote pa data).strands).map Strand.noResv = _
  rw [patNote_strands, List.map_map]
  refine List.map_congr_left fun t _ => ?_
  simp only [Function.comp_apply]
  split
  · split <;> rfl
  · rfl

/-- The words of one strand's image among those of `raceWords`. -/
def raceWordsOf (pa n : Nat) (t : Strand) : List (Nat × Nat) :=
  if n = 0 || t.status = .forwarded || t.stopped || pa + n ≤ t.image || t.image + 1024 ≤ pa then []
  else ((upto 0 128).filter fun i => t.image + 8 * i < pa + n && pa < t.image + 8 * i + 8).map fun i => (t.image, i)

/-- Reservations play no part in which words they are. -/
theorem raceWords_congr (h : s1.strands.map Strand.noResv = s.strands.map Strand.noResv) (pa n : Nat) :
    s1.raceWords pa n = s.raceWords pa n := by
  have hmap (u : State) : u.raceWords pa n = (u.strands.map Strand.noResv).flatMap (raceWordsOf pa n) :=
    (List.flatMap_map Strand.noResv (raceWordsOf pa n) u.strands).symm
  rw [hmap s1, hmap s, h]

/-! ### The parts of a store -/

/-- One part of a store has been written: its bytes, and the owner of its lines. -/
def wrotePart (s : State) (a : Agent) (p : Part) (data : List Byte) : State :=
  let s' := s.poke (fun k => a = .strand k) p.attr a.tag p.pa (data.take p.n)
  { s' with owners := (linesOf p.pa p.n).foldl (fun o l => sset o l (w64 (s.tagOf a))) s'.owners }

theorem writeParts_cons (s : State) (a : Agent) (p : Part) (ps : List Part) (data : List Byte) :
    s.writeParts a (p :: ps) data = (s.wrotePart a p data).writeParts a ps (data.drop p.n) := rfl

theorem wrotePart_mixes (hm : swf s.mem = true) (a : Agent) (p : Part) (data : List Byte) :
    Mixes s.mem (byteListSet s.mem p.pa (data.take p.n)) (s.wrotePart a p data).mem := poke_mixes hm ..

/-- A byte outside the part is as before. -/
theorem wrotePart_outside (hm : swf s.mem = true) (a : Agent) {x : Nat} (hx : x < p.pa ∨ p.pa + p.n ≤ x) (data : List Byte) :
    sget (s.wrotePart a p data).mem x = sget s.mem x := by
  refine (wrotePart_mixes hm a p data).sget_eq ?_
  have hlen := List.length_take_le p.n data
  rw [sget_byteListSet hm, if_neg (by omega)]

/-- Where its bytes meet no image that the register cache may hold back, each stands there as it was written. -/
theorem wrotePart_sget_of_noRace (hm : swf s.mem = true) (a : Agent) {data : List Byte} (hlen : p.n ≤ data.length)
    (h : s.raceWords p.pa p.n = []) {x : Nat} (hlo : p.pa ≤ x) (hhi : x < p.pa + p.n) :
    sget (s.wrotePart a p data).mem x = data.getD (x - p.pa) 0 := by
  have htake : (data.take p.n).length = p.n := List.length_take_of_le hlen
  have hpoke := poke_of_noRace (data := data.take p.n) (htake.symm ▸ h) (fun k => a = .strand k) p.attr a.tag
  show sget (s.poke _ p.attr a.tag p.pa (data.take p.n)).mem x = _
  rw [hpoke, pokeRaw_mem, sget_byteListSet hm, if_pos (by omega)]
  simp only [List.getD_eq_getElem?_getD, List.getElem?_take_of_lt (show x - p.pa < p.n by omega)]

theorem wrotePart_raceWords (a : Agent) {data : List Byte} (hlen : p.n ≤ data.length) (h : s.raceWords p.pa p.n = []) (pa n : Nat) :
    (s.wrotePart a p data).raceWords pa n = s.raceWords pa n := by
  have htake : (data.take p.n).length = p.n := List.length_take_of_le hlen
  have hpoke := poke_of_noRace (data := data.take p.n) (htake.symm ▸ h) (fun k => a = .strand k) p.attr a.tag
  show (s.poke _ p.attr a.tag p.pa (data.take p.n)).raceWords pa n = _
  rw [hpoke]
  exact raceWords_congr (s.pokeRaw_noResv ..) pa n

/-- A store leaves the bytes outside its parts as they were. -/
theorem writeParts_outside (hm : swf s.mem = true) (a : Agent) {x : Nat} {parts : List Part}
    (hx : ∀ p ∈ parts, x < p.pa ∨ p.pa + p.n ≤ x) (data : List Byte) : sget (s.writeParts a parts data).mem x = sget s.mem x := by
  induction parts generalizing s data with
  | nil => rfl
  | cons p ps ih =>
    obtain ⟨hp, hps⟩ := List.forall_mem_cons.1 hx
    rw [writeParts_cons]
    exact (ih (wrotePart_mixes hm a p data).swf hps _).trans (wrotePart_outside hm a hp data)

/-- A byte of a store to one page is as written or as before, and as written where no image is concerned. -/
theorem writeParts_one (hm : swf s.mem = true) (a : Agent) (v : Nat) {x : Nat} (hlo : p.pa ≤ x) (hhi : x < p.pa + p.n) :
    let b := BitVec.ofNat 8 (v / 256 ^ (x - p.pa))
    let s' := s.writeParts a [p] (toBytes v p.n)
    (sget s'.mem x = b ∨ sget s'.mem x = sget s.mem x) ∧ (s.raceWords p.pa p.n = [] → sget s'.mem x = b) := by
  intro b s'
  have hb : (toBytes v p.n).getD (x - p.pa) 0 = b := toBytes_getD v p.n _ (by omega)
  have hlen := toBytes_length v p.n
  refine ⟨?_, fun hr => (wrotePart_sget_of_noRace hm a hlen.ge hr hlo hhi).trans hb⟩
  have hnew : sget (byteListSet s.mem p.pa ((toBytes v p.n).take p.n)) x = b := by
    rw [List.take_of_length_le hlen.le, sget_byteListSet hm, hlen, if_pos ⟨hlo, hhi⟩, hb]
  exact hnew ▸ (wrotePart_mixes hm a p (toBytes v p.n)).byte x

/-- The bytes of a store to two pages, where no image is concerned: those of the second are written last. -/
theorem writeParts_two (hm : swf s.mem = true) (a : Agent) (v : Nat) {q : Part} (x : Nat) (hp : s.raceWords p.pa p.n = [])
    (hq : s.raceWords q.pa q.n = []) :
    let s' := s.writeParts a [p, q] (toBytes v (p.n + q.n))
    (q.pa ≤ x → x < q.pa + q.n → sget s'.mem x = BitVec.ofNat 8 (v / 256 ^ (p.n + (x - q.pa)))) ∧
    (p.pa ≤ x → x < p.pa + p.n → (x < q.pa ∨ q.pa + q.n ≤ x) → sget s'.mem x = BitVec.ofNat 8 (v / 256 ^ (x - p.pa))) := by
  intro s'
  have hlen := toBytes_length v (p.n + q.n)
  have hm' := (wrotePart_mixes hm a p (toBytes v (p.n + q.n))).swf
  refine ⟨fun hlo hhi => ?_, fun hlo hhi hx => ?_⟩
  · have hlen' : q.n ≤ ((toBytes v (p.n + q.n)).drop p.n).length := by rw [List.length_drop]; omega
    refine (wrotePart_sget_of_noRace hm' a hlen' ((wrotePart_raceWords a (by omega) hp _ _).trans hq) hlo hhi).trans ?_
    rw [← toBytes_getD v (p.n + q.n) _ (by omega), List.getD_eq_getElem?_getD, List.getElem?_drop, List.getD_eq_getElem?_getD]
  · refine (wrotePart_outside hm' a hx _).trans ?_
    rw [wrotePart_sget_of_noRace hm a (by omega) hp hlo hhi, toBytes_getD v (p.n + q.n) _ (by omega)]

/-! ### A store is performed -/

/-- A write that waits for nothing is opened, part by part. -/
theorem openParts_write {parts : List Part} (h : (parts.any fun p => s.blocked a p.pa p.n true) = false) (va : Word) :
    s.openParts a va parts true = .ok (parts.foldl (fun u p => u.openPart (s.classer a) (s.cacheOfAgent a) a true p) s) () := by
  unfold openParts openPartsAs
  rw [h]
  rfl

/-- A store that finds memory to write is performed once it has been opened. -/
theorem storeMem_of_finds {va : Word} {n : Nat} {parts : List Part} (h : s.Finds .store va n true s1 parts) (v : Nat) :
    ∃ s2, s1.openParts s.cur va parts true = .ok s2 () ∧
      s.storeMem s.cur va n v = .ok ((s2.dropNc (s2.coreOf s.cur) parts).writeParts s.cur parts (toBytes v n)) none := by
  obtain ⟨hloc, hfree⟩ := h
  have hopen := openParts_write hfree va
  refine ⟨_, hopen, ?_⟩
  simp only [storeMem, hloc, Res.bind, hopen]

theorem store_of_storeMem {s' : State} {va : Word} {n v : Nat} (h : s.storeMem s.cur va n v = .ok s' none) :
    s.store va n v = .ok s' () := by
  simp only [store, h, Res.bind]

theorem storeAny_of_storeMem {s' : State} {va : Word} {n v : Nat} (h : s.storeMem s.cur va n v = .ok s' none) :
    s.storeAny va n v = .ok s' () := by
  simp only [storeAny, h, Res.bind]

/-- Opening bytes that lie in no image while nothing is buffered writes no memory. -/
theorem openParts_mem {s2 : State} {va : Word} {parts : List Part} (hf : (parts.any fun p => s.blocked a p.pa p.n true) = false)
    (h : s.openParts a va parts true = .ok s2 ()) (hr : s.rbuf = []) (hi : s.NoImage parts) : s2.mem = s.mem := by
  cases (openParts_write hf va).symm.trans h
  exact ((openPart_foldl_spares _ _ a true hi).mem hr).2

end State

end Sys2Proof.Machine

namespace Sys2Proof

open Machine

/-- Settles O20: a store that finds its parts is opened and then writes them one after the other. -/
theorem storeFrame : Obligations.StoreFrame := by
  unfold Obligations.StoreFrame
  intro s s1 t va n v x parts hI h hf
  obtain ⟨s2, hopen, hstore⟩ := State.storeMem_of_finds hf v
  obtain ⟨hloc, hfree⟩ := hf
  have hI1 : s1.Inv := of_ok hloc (State.locate_inv hI)
  have hI2 : s2.Inv := of_ok hopen (State.openParts_inv hI1)
  have hm := mem_swf (State.dropNc_inv (n := s2.coreOf s.cur) (parts := parts) hI2)
  refine ⟨s2, _, hopen, fun hr hi => ?_, State.store_of_storeMem hstore, fun hx => State.writeParts_outside hm s.cur hx _, ?_, ?_⟩
  · have hacc : s.OnlyAccess s1 := (s.locate_accesses t.image .store va n _ _ (h.cur ▸ hloc)).only hr
    have hi1 : s1.NoImage parts := fun p hp => by
      rw [State.imagesAt, hacc.strands]
      exact hi p hp
    exact (State.openParts_mem hfree hopen (hacc.rbuf.trans hr) hi1).trans hacc.mem
  · rintro p rfl
    obtain ⟨q, hq, hn⟩ | ⟨_, _, hq, -⟩ := State.locate_mem hloc
    · cases hq
      subst hn
      exact ⟨rfl, State.writeParts_one hm s.cur v⟩
    · cases hq
  · rintro p q rfl
    obtain ⟨_, hq, -⟩ | ⟨_, _, hq, hn⟩ := State.locate_mem hloc
    · cases hq
    · cases hq
      subst hn
      exact ⟨rfl, State.writeParts_two hm s.cur v x⟩

end Sys2Proof
end
section
/-! Stores complete (O19): the custom and the standard stores are one store each, which is performed once its bytes are found. -/

namespace Sys2Proof.Machine

namespace State

variable {s : State}

theorem lcoreAt_modLcore (s : State) (i : Nat) (f : LCore → LCore) :
    (s.modLcore i f).lcoreAt i = if i < s.lcores.length then f (s.lcoreAt i) else s.lcoreAt i := by
  unfold lcoreAt modLcore
  rw [lmod_getD]
  exact if_congr (and_iff_right rfl) rfl rfl

/-- To mark floating-point state dirty changes no register. -/
theorem fpDirty_ctxOf (s : State) : s.fpDirty.ctxOf s.fpDirty.cur = s.ctxOf s.cur := by
  cases hc : s.cur with
  | strand k =>
    have hsame : s.fpDirty = s := by unfold fpDirty; rw [hc]
    rw [hsame, hc]
  | lcore i =>
    have hcur : s.fpDirty.cur = .lcore i := by rw [fpDirty, hc]; exact hc
    rw [hcur]
    simp only [ctxOf, fpDirty, hc, lcoreAt_modLcore]
    split
    · split <;> rfl
    · rfl

theorem fpDirty_x (s : State) (r : Reg) : s.fpDirty.x r = s.x r := by rw [x, x, fpDirty_ctxOf]

theorem fpDirty_f (s : State) (r : Reg) : s.fpDirty.f r = s.f r := by rw [f, f, fpDirty_ctxOf]

/-- A store to bytes that can be written is performed, by the custom and by the standard forms alike. -/
theorem storeMem_of_writes {va : Word} {n : Nat} (h : s.Writes va n) (v : Nat) : ∃ s', s.storeMem s.cur va n v = .ok s' none := by
  obtain ⟨s1, parts, hf⟩ := h
  obtain ⟨s2, -, hstore⟩ := storeMem_of_finds hf v
  exact ⟨_, hstore⟩

end State

end Sys2Proof.Machine

namespace Sys2Proof

open Machine

/-- Settles O19: a store that can write its bytes is performed, and then nothing but retirement follows. -/
theorem stores : Obligations.Stores := by
  unfold Obligations.Stores
  constructor
  · intro s t w a b imm h va hw
    obtain ⟨s', hs⟩ := State.storeMem_of_writes hw (s.x b).toNat
    have hstore := State.store_of_storeMem hs
    refine ⟨s', hstore, (State.onStrand_eq h _).trans ?_⟩
    show (s.store va (swSize w) (s.x b).toNat).run _ = _
    rw [hstore]
    rfl
  · intro s k a b im h hfp f va hw
    obtain ⟨s', hs⟩ := State.storeMem_of_writes hw (if storeIsF k then s.f b else s.x b).toNat
    have hstore := State.storeAny_of_storeMem hs
    refine ⟨s', hstore, (State.onAny_eq h _).trans ?_⟩
    cases hk : storeIsF k with
    | true =>
      simp only [f, hk, if_true] at hstore
      simp only [if_true, State.withFp, hfp hk, State.fpDirty_x, State.fpDirty_f, va, hstore]
      rfl
    | false =>
      simp only [f, hk, Bool.false_eq_true, if_false] at hstore
      simp only [Bool.false_eq_true, if_false, va, hstore]
      rfl

end Sys2Proof
end
section
/-! Stage memory (R192, R245, R257, R286): the checks of an access, and what a stage write leaves as it was. -/

namespace Sys2Proof.Machine

/-- A register remembers stage bytes where a matrix operation is signed on it (R286). -/
def CvReg.noted (old : CvReg → List (Nat × Byte)) (r : CvReg) : CvReg :=
  if r.kind = 3 then { r with late := r.late ++ old r } else r

theorem CvReg.noted_but_late (old : CvReg → List (Nat × Byte)) (r : CvReg) : { r.noted old with late := [] } = { r with late := [] } := by
  unfold noted
  split <;> rfl

theorem CvReg.noted_fixed (old : CvReg → List (Nat × Byte)) (r : CvReg) : (r.noted old).fixed = r.fixed := by
  unfold noted
  split <;> rfl

/-- The crew after a stage write: its registers have noted what stood there, and the bytes are written. -/
def Crew.stageWritten (c : Crew) (old : CvReg → List (Nat × Byte)) (a v n : Nat) : Crew :=
  { c with cv := c.cv.map (·.noted old), stage := bytesSet c.stage a v n }

/-- Which collectives wait signed does not hang on what they remember. -/
theorem Crew.stageWritten_fixed (c : Crew) (old : CvReg → List (Nat × Byte)) (a v n k : Nat) :
    ((c.stageWritten old a v n).cvGet k).fixed = (c.cvGet k).fixed := by
  unfold cvGet stageWritten
  split
  · rfl
  · simp only [List.getD_eq_getElem?_getD, List.getElem?_map]
    cases c.cv[k]? with
    | none => rfl
    | some r => exact r.noted_fixed old

theorem Crew.stageWritten_cvNums (c : Crew) (old : CvReg → List (Nat × Byte)) (a v n : Nat) :
    (c.stageWritten old a v n).cvNums = c.cvNums := by
  simp only [cvNums, stageWritten, List.length_map]

namespace State

variable {s : State} {t : Strand} {c : Crew} {a : Word} {n : Nat}

/-! ### The checks, in their order -/

theorem stageCheck_of_misaligned (h : a.toNat % n ≠ 0) (mis out : Nat) (g : Out) :
    s.stageCheck c a n mis out g = .next (s.trap mis a) := by
  rw [stageCheck, if_pos h, raise_eq]

theorem stageCheck_of_outside (h : a.toNat % n = 0) (hin : c.stageIn a.toNat n = false) (mis out : Nat) (g : Out) :
    s.stageCheck c a n mis out g = .next (s.trap out a) := by
  rw [stageCheck, if_neg (not_not.2 h), hin]
  rfl

theorem stageCheck_of_marked (h : a.toNat % n = 0) (hin : c.stageIn a.toNat n = true) (hbad : c.stageBad a.toNat n = true)
    (mis out : Nat) (g : Out) : s.stageCheck c a n mis out g = .next (s.trap 27 a) := by
  rw [stageCheck, if_neg (not_not.2 h), hin, hbad]
  rfl

theorem stageCheck_of_ok (h : a.toNat % n = 0) (hin : c.stageIn a.toNat n = true) (hbad : c.stageBad a.toNat n = false)
    (mis out : Nat) (g : Out) : s.stageCheck c a n mis out g = g := by
  rw [stageCheck, if_neg (not_not.2 h), hin, hbad]
  rfl

theorem exec_sl (h : s.OnCrew t c) (w : LWidth) (rd b : Reg) (imm : BitVec 9) :
    exec (.sl w rd b imm) s = s.stageCheck c (addr9 s b imm) (lwSize w) 4 5
      (.next ((s.setX rd (lwExt w (bytesGet c.stage (addr9 s b imm).toNat (lwSize w)))).markFrom rd.toNat []).retire) :=
  onCrew_eq h _

theorem exec_ss (h : s.OnCrew t c) (w : SWidth) (b d : Reg) (imm : BitVec 9) :
    exec (.ss w b d imm) s = s.stageCheck c (addr9 s b imm) (swSize w) 6 7
      (if s.stageHeld t (addr9 s b imm).toNat (swSize w) then s.stall
       else .next (s.stageWrite c.id (addr9 s b imm).toNat (s.x d).toNat (swSize w)).retire) :=
  onCrew_eq h _

/-! ### A stage write -/

theorem OnCrew.crew? (h : s.OnCrew t c) : s.crew? c.id = some c := by
  rw [crewOf_id h.2]
  exact h.2

/-- What stood in stage bytes is noted by registers of the crew and by entries of the queues, and by nothing else. -/
theorem noteLate_eq (s : State) (k : Nat) (as : List Nat) : ∃ old engine,
    s.noteLate k as = { s.modCrew k fun c => { c with cv := c.cv.map (·.noted old) } with engine := engine } := ⟨_, _, rfl⟩

theorem crewRetry_of_noneFixed {k : Nat} (h : s.crew? k = some c) (hf : ∀ i ∈ c.cvNums, (c.cvGet i).fixed = false) :
    s.crewRetry k = s := by
  have hnone : (c.cvNums.filter fun n => (c.cvGet n).fixed) = [] := List.filter_eq_nil_iff.2 fun i hi => by simp [hf i hi]
  simp only [crewRetry, h, hnone]

/-- A stage write where no collective waits signed: memory is as before, and the crew has its bytes written and noted. -/
theorem stageWrite_of_noneFixed (h : s.crew? c.id = some c) (hf : ∀ k ∈ c.cvNums, (c.cvGet k).fixed = false) (a v n : Nat) :
    (s.stageWrite c.id a v n).mem = s.mem ∧
    ∃ old, (s.stageWrite c.id a v n).crew? c.id = some (c.stageWritten old a v n) := by
  obtain ⟨old, engine, hnote⟩ := s.noteLate_eq c.id (upto a n)
  have hnoted : (s.noteLate c.id (upto a n)).crew? c.id = some { c with cv := c.cv.map (·.noted old) } := by
    rw [hnote]
    exact crew?_modCrew_same (f := fun c => { c with cv := c.cv.map (·.noted old) }) (fun _ => rfl) h
  have hset : ((s.noteLate c.id (upto a n)).modCrew c.id fun c => c.stageSet a v n).crew? c.id = some (c.stageWritten old a v n) :=
    crew?_modCrew_same (f := fun c => c.stageSet a v n) (fun _ => rfl) hnoted
  have hretry := crewRetry_of_noneFixed hset fun k hk =>
    (c.stageWritten_fixed old a v n k).trans (hf k (c.stageWritten_cvNums old a v n ▸ hk))
  rw [stageWrite, hretry]
  exact ⟨by rw [hnote]; rfl, old, hset⟩

end State

end Sys2Proof.Machine

namespace Sys2Proof

open Machine

/-- Settles O21: an access that passes its checks reads or writes the crew's stage memory. -/
theorem stageAccess : Obligations.StageAccess := by
  unfold Obligations.StageAccess
  intro s t c lw sw rd a b imm h ad
  refine ⟨fun hal hin hbad => ?_, fun hal hin hbad hheld => ?_⟩
  · exact (State.exec_sl h ..).trans (State.stageCheck_of_ok hal hin hbad ..)
  · exact ((State.exec_ss h ..).trans (State.stageCheck_of_ok hal hin hbad ..)).trans (if_neg (Bool.eq_false_iff.1 hheld))

/-- Settles O22: what is noted and the bytes written are all that changes, as no control form of the crew waits. -/
theorem stageFrame : Obligations.StageFrame := by
  unfold Obligations.StageFrame
  intro s t c v n a x hI h hf
  obtain ⟨hmem, old, hcrew⟩ := State.stageWrite_of_noneFixed h.crew? hf a v n
  obtain ⟨hstage, -⟩ := crew_swf hI h.crew?
  refine ⟨hmem, _, hcrew, rfl, ?_, fun hx => ?_, fun hlo hhi => ?_⟩
  · exact List.map_map.trans (List.map_congr_left fun r _ => r.noted_but_late old)
  · exact (sget_bytesSet hstage x).trans (if_neg (by omega))
  · exact (sget_bytesSet hstage x).trans (if_pos ⟨hlo, hhi⟩)

end Sys2Proof
end
section
/-! Misaligned atomics (R215, R220, R225): each form checks its alignment before it does anything else. -/

namespace Sys2Proof.Machine

namespace State

variable {s : State} {a : Word} {n : Nat}

/-- Every atomic form begins by this choice. -/
theorem onAny_of_misaligned (h : s.Runs) (hn : a.toNat % n ≠ 0) (k : Nat) (g : Out) :
    s.onAny (if a.toNat % n ≠ 0 then s.raise k a else g) = .next (s.trap k a) := by
  rw [onAny_eq h, if_pos hn, raise_eq]

theorem ityBytes_stdAmoOp (op : StdAmo) (dbl : Bool) : ityBytes (stdAmoOp op dbl).2 = if dbl then 8 else 4 := by
  cases dbl <;> cases op <;> rfl

/-- On an L-core there is no strand in issue. -/
theorem OnL.curStrand {i : Nat} (h : s.OnL i) : s.curStrand = none := by
  rw [State.curStrand, h.1]

theorem exec_amoTick_of_misaligned (h : (∃ t c, s.OnCrew t c) ∨ ∃ i, s.OnL i) (aq rl : Bool) (rd b : Reg)
    (hn : (s.x b).toNat % 8 ≠ 0) : exec (.amoTick aq rl rd b) s = .next (s.trap 6 (s.x b)) := by
  show execAmoTick aq rl rd b s = _
  unfold execAmoTick
  obtain ⟨t, c, h⟩ | ⟨i, h⟩ := h
  · have hcur : s.curStrand = some t := h.onStrand
    simp only [onAny_eq h.onStrand.runs, hcur, onCrew_eq h, stageCheck_of_misaligned hn]
  · simp only [onAny_eq h.runs, h.curStrand]
    rw [if_pos hn, raise_eq]

end State

end Sys2Proof.Machine

namespace Sys2Proof

open Machine

/-- Settles O23: the checks of a stage access answer in their order, and an atomic form begins with its alignment. -/
theorem alignmentTraps : Obligations.AlignmentTraps := by
  unfold Obligations.AlignmentTraps
  constructor
  · intro s t c lw sw rd a b imm h ad case
    have traps {i : Instr} {n mis out : Nat} {g : Out} (hi : exec i s = s.stageCheck c ad n mis out g) : case i n mis out :=
      ⟨fun hn => hi.trans (State.stageCheck_of_misaligned hn ..), fun hn hin => hi.trans (State.stageCheck_of_outside hn hin ..),
        fun hn hin hbad => hi.trans (State.stageCheck_of_marked hn hin hbad ..)⟩
    exact ⟨traps (State.exec_sl h ..), traps (State.exec_ss h ..)⟩
  · intro s op so ty sc dbl aq rl rd a b h case
    have hruns : s.Runs := h.imp (fun ⟨t, c, h⟩ => ⟨t, h.onStrand⟩) id
    have traps {i : Instr} {n k : Nat} {g : Out} (hi : exec i s = s.onAny (if (s.x a).toNat % n ≠ 0 then s.raise k (s.x a) else g)) :
        case i n k := fun hn => hi.trans (State.onAny_of_misaligned hruns hn k g)
    have hstd : case (.standardAmo so dbl aq rl rd a b) (ityBytes (stdAmoOp so dbl).2) 6 := traps rfl
    rw [State.ityBytes_stdAmoOp] at hstd
    exact ⟨traps rfl, traps rfl, traps rfl, traps rfl, traps rfl, State.exec_amoTick_of_misaligned h aq rl rd a, traps rfl, hstd,
      traps rfl, traps rfl, traps rfl, traps rfl, traps rfl⟩

end Sys2Proof
end
section
/-! Atomics and reductions (R212, R226, R229): the same two entries of one image make an access that finds clean memory trap, and so an
atomic that their statements say is performed is not. -/

namespace Sys2Proof.Refutations

open Sys2Proof.Machine

/-- `twoOfOneImage`, with the page of the image of type NC (R177). -/
def twoOfOneImageNc : State := { twoOfOneImage with mem := bytesSet twoOfOneImage.mem 0x11000 (2 ^ 61 + 0xDF) 8 }

/-- Whether a reduction of `n` bytes finds one page of type NC that answers and is clean (R177, R229). -/
def canReduceNc (s : State) (va : Word) (n : Nat) : Bool :=
  match s.locate s.cur .store va n with
  | .ok s1 (.mem [p]) => !s1.blocked s.cur p.pa p.n true && !s1.poisonAt p.pa p.n && (s1.imagesAt p.pa p.n).all (·.ue = none) &&
      p.pbmt = 1
  | .ok _ (.mem _) => false
  | .ok _ (.mmio _) => false
  | .trap _ _ _ => false
  | .stall _ => false

theorem finds_of_canReduceNc {s : State} {va : Word} {n : Nat} (h : canReduceNc s va n = true) :
    ∃ s1 p, s.Finds .store va n true s1 [p] ∧ s1.Clean [p] ∧ p.pbmt = 1 := by
  unfold canReduceNc at h
  split at h
  next s1 p e =>
    simp only [Bool.and_eq_true, Bool.not_eq_true', List.all_eq_true, decide_eq_true_eq] at h
    obtain ⟨⟨⟨hblocked, hpoison⟩, hue⟩, hnc⟩ := h
    exact ⟨s1, p, ⟨e, by simpa using hblocked⟩, ⟨by simpa using hpoison, by simpa using hue⟩, hnc⟩
  all_goals cases h

end Sys2Proof.Refutations

namespace Sys2Proof

open Machine Refutations

section

set_option maxRecDepth 100000

/-- Refutes O25: an `amo.ld` at 0x3000 reads the image of a pre-empted strand, whose lines are written back first; the line that is
written is that of the first entry of this image, which is lost, and so the access finds poison, traps and returns nothing (R56,
R232). -/
theorem not_atomics : ¬ Obligations.Atomics := by
  unfold Obligations.Atomics
  intro h
  obtain ⟨hforms, -, -⟩ := h
  obtain ⟨-, -, hld, -⟩ := hforms twoOfOneImage .add .add .i64 .cw true false false 0 10 0
    (.inl ⟨forker, show State.curStrand _ = _ by decide⟩)
  obtain ⟨s', l, hat, -⟩ := hld (by decide) (findsAtom_of_canLoad (by decide))
  have hfails : isOk (twoOfOneImage.atomAt .load (twoOfOneImage.x 10) 8 true) = false := by decide
  rw [show twoOfOneImage.atomAt .load (twoOfOneImage.x 10) 8 true = .ok s' l from hat] at hfails
  cases hfails

/-- Refutes O26: a reduction to 0x3000 on a page of type NC is an atomic at once; it opens the image of that pre-empted strand and finds
the same poison. -/
theorem not_bufferedReduction : ¬ Obligations.BufferedReduction := by
  unfold Obligations.BufferedReduction
  intro h
  obtain ⟨s1, p, hfinds, hclean, hnc⟩ :=
    finds_of_canReduceNc (s := twoOfOneImageNc) (va := twoOfOneImageNc.x 10) (n := 8) (by decide)
  obtain ⟨-, hdirect⟩ := h twoOfOneImageNc s1 .add .i64 .cw 10 0 p (by decide)
  obtain ⟨s', l, hat, -⟩ := hdirect hfinds (by rw [hnc]; decide) hclean
    (.inr ⟨⟨forker, show State.curStrand _ = _ by decide⟩, fun ⟨_, hcached, _⟩ => hcached hnc⟩)
  have hfails : isOk (twoOfOneImageNc.atomAt .store (twoOfOneImageNc.x 10) 8 true false false) = false := by decide
  rw [show twoOfOneImageNc.atomAt .store (twoOfOneImageNc.x 10) 8 true false false = .ok s' l from hat] at hfails
  cases hfails

end

end Sys2Proof
end

section
/-! Copy batches (R250 to R254). -/

namespace Sys2Proof.Machine

namespace State

variable {s : State} {t : Strand}

theorem exec_cpSeal (h : s.OnStrand t) (rd : Reg) : exec (.cpSeal rd) s =
    if 16 < t.batSeal.batCount then s.stall else .next ((s.modCur Strand.batSeal).retX rd (w64 t.openBat)) :=
  onStrand_eq h _

theorem exec_cpWait (h : s.OnStrand t) (rd a : Reg) : exec (.cpWait rd a) s =
    if (s.x a).toNat < t.batCount then s.stall
    else .next ((s.acquire.modCur fun t => { t with abandoned := false }).retX rd (if t.abandoned then neg 6 else 0)) :=
  onStrand_eq h _

theorem exec_cpStop (h : s.OnStrand t) (rd : Reg) : exec (.cpStop rd) s =
    .next ((s.abandonCopies t.image).2.acquire.retX rd (w64 (s.abandonCopies t.image).1)) :=
  onStrand_eq h _

/-- A copy of which no chunk is being written has nothing to complete. -/
theorem finishParts_of_noPart {c : Copy} (hc : c.part = []) (s : State) : s.finishParts c = s := by
  simp [finishParts, hc, dedup]

/-- Where no copy of a strand has a chunk that is being written, completing their chunks changes nothing. -/
theorem foldl_finishParts_of_noPart {l : List Copy} (hl : ∀ c ∈ l, c.part = []) (s : State) :
    l.foldl (fun s c => s.finishParts c) s = s := by
  induction l with
  | nil => rfl
  | cons c l ih =>
    rw [List.foldl_cons, finishParts_of_noPart (hl c List.mem_cons_self)]
    exact ih fun c hc => hl c (List.mem_cons_of_mem _ hc)

/-- With no chunk being written, all copies of a strand are abandoned (R254). -/
theorem abandonCopies_of_noPart {k : Nat} (h : ∀ c ∈ s.copies, c.image = k → c.part = [] ∧ c.lines ≠ []) :
    (s.abandonCopies k).1 = (s.copies.filter fun c => c.image = k).length ∧
      (s.abandonCopies k).2.copies = s.copies.filter fun c => c.image ≠ k := by
  have hmine : ∀ c ∈ s.copies.filter fun c => c.image = k, c.part = [] ∧ c.lines ≠ [] := fun c hc => by
    obtain ⟨hc, hk⟩ := List.mem_filter.1 hc
    exact h c hc (of_decide_eq_true hk)
  have hfinish := foldl_finishParts_of_noPart (fun c hc => (hmine c hc).1) s
  have hlines : ((s.copies.filter fun c => c.image = k).filter fun c => !c.lines.isEmpty) = s.copies.filter fun c => c.image = k :=
    List.filter_eq_self.2 fun c hc => by simpa using (hmine c hc).2
  simp only [abandonCopies, hfinish, hlines, modStrand_copies, and_self]

end State

end Sys2Proof.Machine

namespace Sys2Proof

open Machine

/-- Settles O38: each form is decided by the count of incomplete batches, and a stop that finds no chunk being written takes every copy
of the strand. -/
theorem batchForms : Obligations.BatchForms := by
  unfold Obligations.BatchForms
  intro s t rd a h
  refine ⟨fun hle => ?_, rfl, fun hle => ?_, fun hlt => ?_, fun hlt => ?_, State.exec_cpStop h rd, State.abandonCopies_of_noPart⟩
  · rw [State.exec_cpSeal h, if_neg hle.not_gt]
  · rw [State.exec_cpWait h, if_neg hle.not_gt]
  · rw [State.exec_cpWait h, if_pos hlt]
  · rw [State.exec_cpSeal h, if_pos hlt]

end Sys2Proof
end

section
/-! The device registers (R439): where they stand, and what a write of each leaves. -/

namespace Sys2Proof.Machine

/-! ### Where a device register stands -/

/-- The blocks of Table 16.3: first address, number of pages, number. -/
def mmioBlocks : List (Nat × Nat × Nat) :=
  [(dispBase, 4, 0), (attrBase, 1, 1), (linkBase, 1, 2), (trapBase, 4, 3), (debugBase, 4, 4), (invalBase, 1, 5), (powerBase, 1, 6),
   (bootBase, 1, 7)]

/-- `pa` is the register at offset `o` of a page of block `j` of Table 16.3. -/
structure RegAt (pa j o : Nat) : Prop where
  mmio : region pa = .mmio
  aligned : pa % 8 = 0
  block : mmioBlock pa = some j
  offset : pa % 0x1000 = o

theorem regAt_of_mem {b n j x : Nat} (hb : (b, n, j) ∈ mmioBlocks) (hx : x < n * 0x1000) (ha : x % 8 = 0) :
    RegAt (b + x) j (x % 0x1000) := by
  have hdisp : dispBase = 0x00F000100000 := rfl
  have hattr : attrBase = 0x00F000200000 := rfl
  have hlink : linkBase = 0x00F000300000 := rfl
  have htrap : trapBase = 0x00F000400000 := rfl
  have hdebug : debugBase = 0x00F000500000 := rfl
  have hinval : invalBase = 0x00F000600000 := rfl
  have hpower : powerBase = 0x00F000700000 := rfl
  have hboot : bootBase = 0x00F000800000 := rfl
  have hblock : mmioBlock (b + x) = some j := by
    simp only [mmioBlocks, List.mem_cons, Prod.mk.injEq, List.not_mem_nil, or_false] at hb
    simp only [mmioBlock, Bool.and_eq_true, decide_eq_true_eq]
    rcases hb with ⟨rfl, rfl, rfl⟩ | ⟨rfl, rfl, rfl⟩ | ⟨rfl, rfl, rfl⟩ | ⟨rfl, rfl, rfl⟩ | ⟨rfl, rfl, rfl⟩ | ⟨rfl, rfl, rfl⟩ |
      ⟨rfl, rfl, rfl⟩ | ⟨rfl, rfl, rfl⟩ <;> simp (disch := omega) only [if_neg, if_pos]
  have hbase : 0x00F000000000 ≤ b ∧ b < 0x00F000900000 ∧ n ≤ 4 ∧ b % 0x1000 = 0 := by
    simp only [mmioBlocks, List.mem_cons, Prod.mk.injEq, List.not_mem_nil, or_false] at hb
    omega
  refine ⟨?_, by omega, hblock, by omega⟩
  rw [region, if_neg (by omega), if_pos (by simp; omega)]

/-- A register of the block of a W-die. -/
theorem regAt_die {b j d o : Nat} (hb : (b, 4, j) ∈ mmioBlocks) (hd : d < 4) (ho : o < 0x1000) (ha : o % 8 = 0) :
    RegAt (dieReg b d o) j o := by
  have h := regAt_of_mem (x := d * 0x1000 + o) hb (by omega) (by omega)
  rwa [← Nat.add_assoc, show (d * 0x1000 + o) % 0x1000 = o by omega] at h

/-- A register of another block. -/
theorem regAt_page {b j o : Nat} (hb : (b, 1, j) ∈ mmioBlocks) (ho : o < 0x1000) (ha : o % 8 = 0) : RegAt (b + o) j o := by
  have h := regAt_of_mem hb (by omega) ha
  rwa [Nat.mod_eq_of_lt ho] at h

/-- Offset `o` of block `j`, on the page of die `d` where the block has one for each die. -/
def regAddr (d j o : Nat) : Nat :=
  match j with
  | 0 => dieReg dispBase d o
  | 1 => attrBase + o
  | 2 => linkBase + o
  | 3 => dieReg trapBase d o
  | 4 => dieReg debugBase d o
  | 5 => invalBase + o
  | 6 => powerBase + o
  | _ => bootBase + o

theorem regAt_regAddr {d j o : Nat} (hd : d < 4) (hj : j < 8) (ho : o < 0x1000) (ha : o % 8 = 0) : RegAt (regAddr d j o) j o := by
  interval_cases j
  · exact regAt_die (by decide) hd ho ha
  · exact regAt_page (by decide) ho ha
  · exact regAt_page (by decide) ho ha
  · exact regAt_die (by decide) hd ho ha
  · exact regAt_die (by decide) hd ho ha
  · exact regAt_page (by decide) ho ha
  · exact regAt_page (by decide) ho ha
  · exact regAt_page (by decide) ho ha

/-! ### Registers that hold what is written in their fields, and read-only ones (R439) -/

/-- Offsets of block `j` of which a read answers something else than what the register holds. -/
def computedAt (j o : Nat) : Bool := (j = 0 && o = 0x10) || (j = 4 && (o = 0x10 || o = 0x18)) || (j = 6 && 0x100 ≤ o)

namespace RegAt

variable {pa j o : Nat}

theorem regRead_eq (h : RegAt pa j o) (hc : computedAt j o = false) (s : State) : s.regRead pa = s.reg pa := by
  have hid : pa ≠ 0x00F000000000 := fun e => by
    have hb := h.block
    rw [e] at hb
    cases (show none = some j from hb)
  simp only [computedAt, Bool.or_eq_false_iff, Bool.and_eq_false_iff, decide_eq_false_iff_not] at hc
  unfold State.regRead
  simp only [h.block, h.offset, hid, if_false]
  split <;> simp_all

/-- A write of the whole register. -/
theorem exec_registerWrite (h : RegAt pa j o) (v : Word) (s : State) :
    exec (.registerWrite pa false v) s = .next (s.regWrite true true pa v v) := by
  have ha : pa / 8 * 8 = pa := Nat.div_mul_cancel (Nat.dvd_of_mod_eq_zero h.aligned)
  simp [exec, execRegisterWrite, State.mmioWrite, h.mmio, h.aligned, ha]

/-- A write of its lower half. -/
theorem exec_registerWrite_half (h : RegAt pa j o) (hc : computedAt j o = false) (v : Word) (s : State) :
    exec (.registerWrite pa true v) s =
      .next (s.regWrite true false pa (winsert (s.reg pa) 31 0 (wbits v 31 0)) (w64 (wbits v 31 0))) := by
  have ha : pa / 8 * 8 = pa := Nat.div_mul_cancel (Nat.dvd_of_mod_eq_zero h.aligned)
  have h4 : pa % 4 = 0 := Nat.mod_eq_zero_of_dvd (dvd_trans (by decide) (Nat.dvd_of_mod_eq_zero h.aligned : 8 ∣ pa))
  simp [exec, execRegisterWrite, State.mmioWrite, h.mmio, h.aligned, ha, h4, h.regRead_eq hc]

end RegAt

/-- The registers that hold what is written in their fields: block, offset and fields. -/
def heldFields : List (Nat × Nat × Word) :=
  [(0, 0, 0x01FFFFFFFFE00000), (0, 0x08, 0xFFFF), (0, 0x18, 7), (0, 0x20, 0x01FFFFFFFFFFF000), (0, 0x30, 0xFFFF), (0, 0x40, ~~~0),
   (0, 0x48, 0xFFFFFFFF), (3, 0, 0x01FFFFFFFFFFF000), (3, 0x10, 0xFFFF), (3, 0x20, ~~~0), (3, 0x28, 0xFFFFFFFF), (3, 0x38, ~~~3),
   (3, 0x40, 0xC0001), (3, 0x48, ~~~0), (3, 0x50, ~~~0), (4, 0x08, ~~~0), (4, 0x20, 0xC000000000FFFFFF), (1, 0, 0x01FFFFFFFFE00001),
   (2, 0x28, 0x01FFFFFFFFFFE001), (6, 0x20, 0xFFFFFF), (6, 0x40, 0xF), (7, 0x18, 0xFF)]

theorem computedAt_of_held {j o : Nat} {mask : Word} (hf : (j, o, mask) ∈ heldFields) : computedAt j o = false :=
  (by decide : ∀ e ∈ heldFields, computedAt e.1 e.2.1 = false) _ hf

/-- Each of them takes the fields of what is written, as a half or as a whole. -/
theorem RegAt.regWrite_of_held {pa j o : Nat} {mask : Word} (h : RegAt pa j o) (hf : (j, o, mask) ∈ heldFields) (s : State)
    (full : Bool) (v w1 : Word) : s.regWrite true full pa v w1 = s.setReg pa (v &&& mask) := by
  simp only [heldFields, List.mem_cons, Prod.mk.injEq, List.not_mem_nil, or_false] at hf
  casesm* _ ∨ _, _ ∧ _
  all_goals
    subst_vars
    simp only [State.regWrite, h.block, h.offset] <;> rfl

/-- The registers whose value is held within limits, and the one whose bits ones clear: block, offset, and what a register that holds
`old` takes of `v`. -/
def limitedValues (old v : Word) : List (Nat × Nat × Word) :=
  [(6, 0, w64 (max 100 (min 3600 (wbits v 15 0)))), (6, 0x08, w64 (max 16 (min 512 (wbits v 9 0)))),
   (6, 0x18, w64 (min 10000 (wbits v 13 0))), (6, 0x38, old &&& ~~~v &&& 0xF), (1, 0x10, w64 (min 16 (wbits v 4 0)))]

theorem RegAt.regWrite_of_limited {pa j o : Nat} {x v : Word} {s : State} (h : RegAt pa j o)
    (hf : (j, o, x) ∈ limitedValues (s.reg pa) v) : s.regWrite true true pa v v = s.setReg pa x := by
  simp only [limitedValues, List.mem_cons, Prod.mk.injEq, List.not_mem_nil, or_false] at hf
  casesm* _ ∨ _, _ ∧ _
  all_goals
    subst_vars
    simp only [State.regWrite, h.block, h.offset]

/-- Read-only registers, and offsets without one: block and offset. -/
def fixedOffsets : List (Nat × Nat) :=
  [(0, 0x10), (0, 0x38), (3, 0x18), (4, 0x18), (4, 0x30), (2, 0), (2, 0x20), (2, 0x30), (6, 0x10), (7, 0), (7, 0x08), (7, 0x10),
   (7, 0x20), (7, 0x38)]

theorem RegAt.regWrite_of_fixed {pa j o : Nat} (h : RegAt pa j o) (hf : (j, o) ∈ fixedOffsets) (s : State) (v w1 : Word) :
    s.regWrite true true pa v w1 = s := by
  simp only [fixedOffsets, List.mem_cons, Prod.mk.injEq, List.not_mem_nil, or_false] at hf
  casesm* _ ∨ _, _ ∧ _
  all_goals
    subst_vars
    simp only [State.regWrite, h.block, h.offset] <;> rfl

namespace State

variable {s s' : State}

/-- Instruction `i` sets the register at `pa` to `x`; the other registers and memory stay. -/
def Sets (s : State) (i : Instr) (pa : Nat) (x : Word) : Prop :=
  ∃ s' : State, exec i s = .next s' ∧ s'.mem = s.mem ∧ s'.reg pa = x ∧ ∀ p, p ≠ pa → s'.reg p = s.reg p

theorem sets_of_eq (hI : s.Inv) {i : Instr} {pa : Nat} {x : Word} (h : exec i s = .next s') (hm : s'.mem = s.mem)
    (hr : s'.mmio = sset s.mmio pa x) : s.Sets i pa x := by
  refine ⟨s', h, hm, ?_, fun p hp => ?_⟩
  · rw [State.reg, hr, sget_sset_same (mmio_swf hI)]
  · rw [State.reg, hr, sget_sset_ne (mmio_swf hI) hp]
    rfl

theorem sets_of_setReg (hI : s.Inv) {i : Instr} {pa : Nat} {x : Word} (h : exec i s = .next (s.setReg pa x)) : s.Sets i pa x :=
  sets_of_eq hI h rfl rfl

/-- A ring's size changes where the size written is legal. -/
theorem setLg_eq (s : State) (pa : Nat) (v : Word) :
    s.setLg pa v = if 4 ≤ wbits v 4 0 ∧ wbits v 4 0 ≤ 16 then s.setReg pa (w64 (wbits v 4 0)) else s := by
  simp [setLg]

end State

/-! ### The registers, block by block -/

section

variable {s : State} {pa n d j o : Nat} {mask v : Word}

theorem regAt_of_held (hd : d < 4) (hf : (j, o, mask) ∈ heldFields) : RegAt (regAddr d j o) j o := by
  obtain ⟨hj, ho, ha⟩ := (by decide : ∀ e ∈ heldFields, e.1 < 8 ∧ e.2.1 < 0x1000 ∧ e.2.1 % 8 = 0) _ hf
  exact regAt_regAddr hd hj ho ha

theorem regAt_of_fixed (hd : d < 4) (hf : (j, o) ∈ fixedOffsets) : RegAt (regAddr d j o) j o := by
  obtain ⟨hj, ho, ha⟩ := (by decide : ∀ e ∈ fixedOffsets, e.1 < 8 ∧ e.2 < 0x1000 ∧ e.2 % 8 = 0) _ hf
  exact regAt_regAddr hd hj ho ha

theorem sets_held (hI : s.Inv) (hd : d < 4) (hf : (j, o, mask) ∈ heldFields) :
    s.Sets (.registerWrite (regAddr d j o) false v) (regAddr d j o) (v &&& mask) ∧
    s.Sets (.registerWrite (regAddr d j o) true v) (regAddr d j o)
      (winsert (s.reg (regAddr d j o)) 31 0 (wbits v 31 0) &&& mask) := by
  have h := regAt_of_held hd hf
  constructor
  · exact State.sets_of_setReg hI (by rw [h.exec_registerWrite, h.regWrite_of_held hf])
  · exact State.sets_of_setReg hI (by rw [h.exec_registerWrite_half (computedAt_of_held hf), h.regWrite_of_held hf])

theorem RegAt.sets_limited {x : Word} (h : RegAt pa j o) (hI : s.Inv) (hf : (j, o, x) ∈ limitedValues (s.reg pa) v) :
    s.Sets (.registerWrite pa false v) pa x :=
  State.sets_of_setReg hI (by rw [h.exec_registerWrite, h.regWrite_of_limited hf])

theorem exec_registerWrite_fixed (hd : d < 4) (hf : (j, o) ∈ fixedOffsets) :
    exec (.registerWrite (regAddr d j o) false v) s = .next s := by
  have h := regAt_of_fixed hd hf
  rw [h.exec_registerWrite, h.regWrite_of_fixed hf]

/-- The size registers of the rings. -/
theorem RegAt.exec_ringSize (h : RegAt pa j o) (hj : j = 0 ∧ o = 0x28 ∨ j = 3 ∧ o = 0x08) :
    exec (.registerWrite pa false v) s =
      .next (if 4 ≤ wbits v 4 0 ∧ wbits v 4 0 ≤ 16 then s.setReg pa (w64 (wbits v 4 0)) else s) := by
  rw [h.exec_registerWrite, ← State.setLg_eq]
  obtain ⟨rfl, rfl⟩ | ⟨rfl, rfl⟩ := hj <;> simp only [State.regWrite, h.block, h.offset]

/-- The registers of an idle slot of the invalidation block take what is written (R378). -/
theorem exec_registerWrite_invalSlot (hn : n < 32) (ho : o ∈ [0, 8, 0x10]) (hidle : s.reg (State.invalReg n 0x18) ≠ 1) :
    exec (.registerWrite (State.invalReg n o) false v) s = .next (s.setReg (State.invalReg n o) v) := by
  have ho' : o < 0x18 ∧ o % 8 = 0 := by
    simp only [List.mem_cons, List.not_mem_nil, or_false] at ho
    omega
  have h : RegAt (State.invalReg n o) 5 (0x20 * n + o) := by
    rw [State.invalReg, Nat.add_assoc]
    exact regAt_page (by decide) (by omega) (by omega)
  have hslot : (0x20 * n + o) / 0x20 = n := by omega
  have hoff : (0x20 * n + o) % 0x20 = o := by omega
  have hlast : ¬0x400 ≤ 0x20 * n + o := by omega
  have hgo : o ≠ 0x18 := by omega
  rw [h.exec_registerWrite]
  simp only [State.regWrite, h.block, h.offset, hslot, hoff, hlast, hidle, hgo, decide_false, Bool.or_self, Bool.false_eq_true,
    if_false]
  rw [show v &&& 0xFFFFFFFFFFFFFFFF = v from BitVec.and_allOnes]

/-- TLIM: the zones note since when their timed conditions hold, which is no register. -/
theorem sets_tempLimits (hI : s.Inv) :
    s.Sets (.registerWrite (powerBase + 0x30) false v) (powerBase + 0x30) (v &&& 0x0FFF0FFF) := by
  have h : RegAt (powerBase + 0x30) 6 0x30 := regAt_page (by decide) (by decide) rfl
  have hw : s.regWrite true true (powerBase + 0x30) v v = s.tlimWrite v := by simp only [State.regWrite, h.block, h.offset]
  exact State.sets_of_eq (s' := s.tlimWrite v) hI (by rw [h.exec_registerWrite, hw]) rfl rfl

end

end Sys2Proof.Machine
end
section
/-! Writes of registers that are steps of their own (O55): CSRs of W-cores, zones, invalidations (R238, R378, R382, R402, R403, R414)
and evidence through EVREQ (R431 to R433). -/

namespace Sys2Proof.Machine

/-! ### CSRs of W-cores, and zones (R238, R382, R402, R403, R414) -/

namespace State

variable {s s' : State} {q core z slot : Nat} {v : Word}

theorem exec_cpsplWrite {k : Nat} (h : s.spilledOf k = []) :
    exec (.cpsplWrite k v) s = .next (s.modStrand k fun t => t.setCw cCpspl (cpsplLegal v)) := by
  simp [exec, execCpsplWrite, cpsplOp, h]

theorem coreAt_modCore (hc : core < s.cores.length) (f : CoreState → CoreState) : (s.modCore core f).coreAt core = f (s.coreAt core) := by
  unfold coreAt modCore
  rw [lmod_getD, if_pos ⟨rfl, hc⟩]

theorem podAt_modPod (hq : q < s.pods.length) (f : PodState → PodState) : (s.modPod q f).podAt q = f (s.podAt q) := by
  unfold podAt modPod
  rw [lmod_getD, if_pos ⟨rfl, hq⟩]

theorem zoneAt_modZone (hz : z < s.zones.length) (f : ZoneState → ZoneState) : (s.modZone z f).zoneAt z = f (s.zoneAt z) := by
  unfold zoneAt modZone
  rw [lmod_getD, if_pos ⟨rfl, hz⟩]

theorem setPass_mem (s : State) (q n : Nat) : (s.setPass q n).mem = s.mem := by
  unfold setPass
  split <;> rfl

theorem setPass_passcnt (hq : q < s.pods.length) (n : Nat) : ((s.setPass q n).podAt q).passcnt = n := by
  unfold setPass
  split
  · assumption
  · exact congrArg PodState.passcnt (podAt_modPod hq _)

/-- Where no evacuation holds it, `passcnt` is the larger of what is written and what the power controller asks for (R402). -/
theorem passcntOp_passcnt (hq : q < s.pods.length) (hv : wbits v 1 0 ≠ 3) (hz : (s.zoneAt q).state < 3) :
    (s.passcntOp q v).mem = s.mem ∧ ((s.passcntOp q v).podAt q).passcnt = max (wbits v 1 0) (s.podAt q).passC := by
  have hop : s.passcntOp q v = (s.modPod q fun p => { p with passW := wbits v 1 0 }).setPass q (max (wbits v 1 0) (s.podAt q).passC) := by
    unfold passcntOp
    rw [if_neg hv]
    dsimp only
    refine (if_pos hz).trans ?_
    rw [podAt_modPod hq]
    rfl
  rw [hop]
  exact ⟨setPass_mem _ _ _, setPass_passcnt (by simpa [modPod] using hq) _⟩

theorem passcntOp_of_reserved (hv : wbits v 1 0 = 3) (q : Nat) : s.passcntOp q v = s := if_pos hv

/-- `clsreq` of a die answers a request with status `st`. -/
def clsAnswer (s : State) (d : Nat) (v : Word) (st : Nat) : State :=
  s.modDie d fun x => { x with clsreq := w64 (st * 2 ^ 28 + wbits v 9 8 * 2 ^ 8 + wbits v 3 0) }

/-- Pods of a die that are of class 1 or on their way to it. -/
def onesOf (s : State) (d : Nat) : Nat :=
  ((upto (12 * d) 12).filter fun n =>
    let x := s.podAt n
    (x.rcls = 0 && x.pool = 1) || (x.rcls ≠ 0 && (x.target = 1 || (x.rcls = 1 && x.pool = 1)))).length

/-- The refusals of a reassignment in their order, while none is in progress (R403). -/
theorem exec_clsreqWrite (hidle : wbits (s.dieAt (core / 48)).clsreq 31 28 ≠ 1) :
    let d := core / 48
    let p := 12 * d + wbits v 3 0
    exec (.clsreqWrite core v) s = .next (
      if 12 ≤ wbits v 3 0 ∨ wbits v 9 8 = 3 then s.clsAnswer d v 3
      else if (s.podAt p).pool = wbits v 9 8 then s.clsAnswer d v 2
      else if wbits v 9 8 = 1 ∧ 3 ≤ s.onesOf d then s.clsAnswer d v 4
      else if 1 < (s.zoneAt p).state then s.clsAnswer d v 5
      else ((s.clsAnswer d v 1).modPod p fun x => { x with rcls := 1, target := wbits v 9 8 }).withdrawPod p 1 s.grace) := by
  intro d p
  show Host.Outcome.next (s.clsreqOp (core / 48) v) = _
  unfold clsreqOp
  rw [if_neg hidle]
  simp only [Bool.or_eq_true, Bool.and_eq_true, decide_eq_true_eq]
  rfl

theorem zctlWrite_zone (hz : z < s.zones.length) :
    ((s.zctlWrite z v).zoneAt z).allow = wbits v 31 16 ∧ ((s.zctlWrite z v).zoneAt z).valve = wbits v 7 0 := by
  unfold zctlWrite zoneSet
  rw [zoneAt_modZone hz]
  dsimp only
  split <;> exact ⟨rfl, rfl⟩

/-! ### Invalidations (R378) -/

/-- IVGO of an idle slot whose registers are legal begins an invalidation. -/
theorem ivgoOp_of_idle (hs : slot < 32) (hidle : s.reg (invalReg slot 0x18) ≠ 1)
    (hok : invalOk (s.reg (invalReg slot 0)) (s.reg (invalReg slot 8)) = true) :
    (s.ivgoOp slot 1).mem = s.mem ∧
      ∃ x, (s.ivgoOp slot 1).invals = s.invals ++ [x] ∧ x.slot = slot ∧ x.va = s.reg (invalReg slot 0) := by
  have hop : s.ivgoOp slot 1 = { s.setReg (invalReg slot 0x18) 1 with
      nextId := s.nextId + 1
      invals := s.invals ++ [{ id := s.nextId, va := s.reg (invalReg slot 0), ctl := (s.reg (invalReg slot 8)).toNat, slot, image := 0 }] } := by
    have hgo : (decide (32 ≤ slot) || decide (s.reg (invalReg slot 0x18) = 1) || decide ((1 : Word) ≠ 1)) = false := by
      simp only [Nat.not_le.2 hs, hidle, ne_eq, not_true_eq_false, decide_false, Bool.or_self]
    simp only [ivgoOp, hgo, hok, Bool.not_true, Bool.false_eq_true, if_false, fresh]
    rfl
  rw [hop]
  exact ⟨rfl, _, rfl, rfl, rfl⟩

theorem exec_invalidationAck {k : Nat} {i : Inval} (hi : kfind (·.id) s.invals k = some i) (hw : s.invalWaits i = false) :
    exec (.invalidationAck k) s = .next (s.invalDone i) := by
  simp [exec, execInvalidationAck, hi, hw]

end State

/-! ### Evidence through EVREQ (R431 to R433) -/

@[simp] theorem encodePoint_length (u : Ed25519.Point) : (Ed25519.encodePoint u).length = 32 := toBytes_length _ _

theorem sign_length (seed msg : List Byte) : (Ed25519.sign seed msg).length = 64 := by
  simp [Ed25519.sign]

namespace State

variable {s s' : State} {v : Word} {buf : Nat}

/-- Evidence is 384 bytes (Table 16.8). -/
theorem evidence_length (s : State) (nonce : List Byte) : (s.evidence nonce).length = 384 := by
  simp [evidence, sign_length, Ed25519.publicKey, upto]

/-- From `s` to `s'` nothing has changed but page classes, the copies of lines, the directories and the count of class changes. -/
def OnlyClasses (s s' : State) : Prop :=
  s' = { s with pct := s'.pct, ncs := s'.ncs, mmio := s'.mmio, dir := s'.dir, snoop := s'.snoop }

theorem OnlyClasses.trans {s'' : State} (h : s.OnlyClasses s') (h' : s'.OnlyClasses s'') : s.OnlyClasses s'' := by
  unfold OnlyClasses at h h' ⊢
  rw [h] at h'
  exact h'

theorem classify_onlyClasses (h : s.rbuf = []) (n pa attr : Nat) : s.OnlyClasses (s.classify n pa attr) := by
  have hm (p : RedEntry → Bool) : s.mergeWhere p = s := by simp [mergeWhere, h]
  unfold classify
  simp only [hm]
  (repeat' split) <;> exact rfl

theorem dirLine_onlyClasses (s : State) (who line : Nat) (write : Bool) : s.OnlyClasses (s.dirLine who line write) := by
  unfold dirLine
  (repeat' split) <;> exact rfl

theorem dirTouch_onlyClasses (s : State) (who pa n : Nat) (write : Bool) : s.OnlyClasses (s.dirTouch who pa n write) := by
  unfold dirTouch
  induction linesOf pa n generalizing s with
  | nil => exact rfl
  | cons l ls ih => exact (s.dirLine_onlyClasses who l write).trans (ih _)

/-- So the hardware opens memory while no reduction is buffered. -/
theorem hwOpen_onlyClasses (h : s.rbuf = []) (n pa len : Nat) (write : Bool) : s.OnlyClasses (s.hwOpen n pa len write) := by
  have hc := classify_onlyClasses h n pa (s.attrOf pa)
  have hr : (s.classify n pa (s.attrOf pa)).rbuf = [] := by rw [hc]; exact h
  unfold hwOpen
  simp only [patOpen_of_nil h, mergeLines_of_nil hr]
  exact hc.trans (dirTouch_onlyClasses ..)

/-- Memory answers alike where the registers of the link and bring-up blocks are the same. -/
theorem memAt_congr (h : ∀ a, linkBase ≤ a → s'.reg a = s.reg a) (pa : Nat) : s'.memAt pa = s.memAt pa := by
  have hready : s'.ready = s.ready := funext fun f => by rw [ready, ready, h _ (by decide)]
  have hfailed : s'.failed = s.failed := funext fun f => by rw [failed, failed, h _ (by decide)]
  have hnum : s'.pkgNum = s.pkgNum := by rw [pkgNum, pkgNum, h _ (by decide)]
  have hpresent : s'.present = s.present := funext fun p => by rw [present, present, h _ (Nat.le_add_right ..)]
  simp only [memAt, hready, hfailed, hnum, hpresent]

/-- Evidence is about what runs, the time and the registers of the bring-up block. -/
theorem evidence_congr (hp : s'.pkg = s.pkg) (ht : s'.time = s.time) (h : ∀ a, linkBase ≤ a → s'.reg a = s.reg a) (nonce : List Byte) :
    s'.evidence nonce = s.evidence nonce := by
  have hboot (o : Nat) : s'.reg (bootBase + o) = s.reg (bootBase + o) :=
    h _ (Nat.le_trans (by decide) (Nat.le_add_right bootBase o))
  have hmap (j : Nat) : s'.reg (bootBase + 0x20 + 8 * j) = s.reg (bootBase + 0x20 + 8 * j) := by rw [Nat.add_assoc, hboot]
  have hon : s'.coreOn = s.coreOn := funext fun n => by rw [coreOn, coreOn, hmap]
  have hid : pkgId s' = pkgId s := by rw [pkgId, pkgId, hon]
  have hready : s'.reg bootBase = s.reg bootBase := hboot 0
  simp only [evidence, hp, ht, hid, hmap, hready, hboot]

/-- The write that serves a request: evidence for the nonce in the buffer. -/
def evWrite (s : State) (buf : Nat) : HwWrite :=
  { core := Config.numCores, addr := buf, data := s.evidence ((upto (buf + 8) 32).map s.hwByte), vis := true }

/-- A request that nothing stands against writes the evidence that the machine before it gives, since the reading of the nonce changes
nothing that the evidence is about. -/
theorem evServe_of_free (hI : s.Inv) (hm : s.memReady buf 384 = true) (hb : s.hwBusy buf 384 = false) (hr : s.rbuf = []) :
    s.evServe buf = ((s.hwOpen Config.numCores buf 384).hwDo (s.evWrite buf)).evPut buf 2 := by
  set u := s.hwOpen Config.numCores buf 384 with hu
  have honly : s.OnlyClasses u := hwOpen_onlyClasses hr ..
  have hreg (a : Nat) (ha : linkBase ≤ a) : u.reg a = s.reg a :=
    (s.hwOpen_memStep Config.numCores buf 384 false).reg (mmio_swf hI) fun e => absurd (e ▸ ha) (by decide)
  have hbusy : u.hwBusy buf 384 = false := by rw [honly]; exact hb
  have hbyte : u.hwByte = s.hwByte := by rw [honly]; rfl
  have hev (nonce : List Byte) : u.evidence nonce = s.evidence nonce :=
    evidence_congr (by rw [honly]) (by rw [honly]) hreg nonce
  have hmem : u.memAt buf = .ok := by
    simp only [memReady, Bool.and_eq_true, decide_eq_true_eq] at hm
    exact (memAt_congr hreg buf).trans hm.1
  have hput : u.hwPut (s.evWrite buf) = u.hwDo (s.evWrite buf) := by
    simp [hwPut, evWrite, hmem, evidence_length, hbusy]
  rw [evServe, hm, hb]
  simp only [Bool.not_true, Bool.false_eq_true, if_false, ← hu, hbyte, hev]
  exact congrArg (fun s : State => s.evPut buf 2) hput

/-- A request that is served: evidence for the nonce in the buffer stands there, and st is 2 (R433). -/
theorem evServe_done (hI : s.Inv) (hm : s.memReady buf 384 = true) (hb : s.hwBusy buf 384 = false) (hr : s.rbuf = []) :
    (s.evServe buf).reg (bootBase + 0x40) = w64 (buf + 4) ∧
      bytesGet (s.evServe buf).mem buf 384 = ofBytes (s.evidence ((upto (buf + 8) 32).map s.hwByte)) := by
  have hIu : (s.hwOpen Config.numCores buf 384).Inv := State.hwOpen_inv hI
  have hbytes := hwDo_bytes hIu (w := s.evWrite buf) rfl
  rw [show (s.evWrite buf).data.length = 384 from evidence_length ..] at hbytes
  rw [evServe_of_free hI hm hb hr]
  exact ⟨sget_sset_same (mmio_swf (State.hwDo_inv hIu)), hbytes⟩

/-- A request while none is in progress is served or refused by the buffer that it names. -/
theorem exec_evreqGo (hst : wbits (s.reg (bootBase + 0x40)) 2 1 ≠ 1) (hv : wbit v 0 = true) :
    exec (.evreqGo v) s = .next (s.evServe (wbits v 56 7 * 128)) := by
  simp [exec, execEvreqGo, evreqOp, hst, hv]

theorem exec_evreqGo_inProgress (hst : wbits (s.reg (bootBase + 0x40)) 2 1 = 1) : exec (.evreqGo v) s = .next s := by
  simp [exec, execEvreqGo, evreqOp, hst]

theorem evServe_of_notReady (hm : s.memReady buf 384 = false) : s.evServe buf = s.setReg (bootBase + 0x40) (w64 (buf + 6)) := by
  simp [evServe, hm, evPut]

theorem evServe_of_busy (hm : s.memReady buf 384 = true) (hb : s.hwBusy buf 384 = true) :
    s.evServe buf = s.setReg (bootBase + 0x40) (w64 (buf + 2)) := by
  simp [evServe, hm, hb, evPut]

end State

end Sys2Proof.Machine

namespace Sys2Proof

open Machine

/-- Settles O55: each write is the operation of its register, and a device register is decided by its block and offset. -/
theorem registerSteps : Obligations.RegisterSteps := by
  unfold Obligations.RegisterSteps
  intro s t k core v
  refine ⟨fun _ h => State.exec_cpsplWrite h, fun hc => ⟨_, rfl, ?_, ?_, rfl⟩, fun hq hv hz => ⟨_, rfl, State.passcntOp_passcnt hq hv hz⟩,
    fun hv => congrArg Host.Outcome.next (State.passcntOp_of_reserved hv _), ?_, fun hz => ⟨_, rfl, rfl, State.zctlWrite_zone hz⟩,
    fun hs hidle hok => ⟨_, rfl, State.ivgoOp_of_idle hs hidle hok⟩, fun i hi hw => State.exec_invalidationAck hi hw, fun hI => ?_, ?_⟩
  · exact congrArg CoreState.frecbase (State.coreAt_modCore hc _)
  · exact congrArg CoreState.frectail (State.coreAt_modCore hc _)
  · intro d q answer hidle
    have hexec := State.exec_clsreqWrite (v := v) hidle
    have legal (h1 : wbits v 3 0 < 12) (h2 : wbits v 9 8 ≠ 3) : ¬(12 ≤ wbits v 3 0 ∨ wbits v 9 8 = 3) := by omega
    refine ⟨fun h => hexec.trans (congrArg _ (if_pos h)), fun h1 h2 hpool => hexec.trans (congrArg _ ?_), fun h1 h2 hpool =>
      ⟨fun hfull => hexec.trans (congrArg _ ?_), fun hroom hhot => hexec.trans (congrArg _ ?_),
        fun hroom hcool => hexec.trans (congrArg _ ?_)⟩⟩ <;> refine (if_neg (legal h1 h2)).trans ?_
    · exact if_pos hpool
    · exact (if_neg hpool).trans (if_pos hfull)
    · exact (if_neg hpool).trans ((if_neg hroom).trans (if_pos hhot))
    · exact (if_neg hpool).trans ((if_neg hroom).trans (if_neg hcool.not_gt))
  · intro becomes stays
    have ring {pa j o : Nat} (h : RegAt pa j o) (hj : j = 0 ∧ o = 0x28 ∨ j = 3 ∧ o = 0x08) :
        (4 ≤ wbits v 4 0 → wbits v 4 0 ≤ 16 → becomes pa false (w64 (wbits v 4 0))) ∧
        (wbits v 4 0 < 4 ∨ 16 < wbits v 4 0 → stays pa) :=
      ⟨fun h4 h16 => State.sets_of_setReg hI ((h.exec_ringSize hj).trans (congrArg _ (if_pos ⟨h4, h16⟩))),
        fun hn => (h.exec_ringSize hj).trans (congrArg _ (if_neg (by omega)))⟩
    have power {o : Nat} (ho : o < 0x1000) (ha : o % 8 = 0) : RegAt (powerBase + o) 6 o := regAt_page (by decide) ho ha
    have attr : RegAt (attrBase + 0x10) 1 0x10 := regAt_page (by decide) (by decide) rfl
    refine ⟨fun d hd => ?_, fun d hd => ?_, fun n hn hidle o ho => State.sets_of_setReg hI (exec_registerWrite_invalSlot hn ho hidle),
      (power (o := 0) (by decide) rfl).sets_limited hI (by simp [limitedValues]),
      (power (by decide) rfl).sets_limited hI (by simp [limitedValues]), (power (by decide) rfl).sets_limited hI (by simp [limitedValues]),
      sets_tempLimits hI, (power (by decide) rfl).sets_limited hI (by simp [limitedValues]),
      attr.sets_limited hI (by simp [limitedValues]), fun d hd => ?_⟩
    · show ∀ r ∈ heldFields.map fun e => (regAddr d e.1 e.2.1, e.2.2), _
      exact List.forall_mem_map.2 fun e he => sets_held hI hd he
    · simp only [List.forall_mem_cons, List.not_mem_nil, false_imp_iff, implies_true, and_true]
      exact ⟨ring (regAt_regAddr hd (j := 0) (by decide) (by decide) rfl) (.inl ⟨rfl, rfl⟩),
        ring (regAt_regAddr hd (j := 3) (by decide) (by decide) rfl) (.inr ⟨rfl, rfl⟩)⟩
    · show ∀ r ∈ fixedOffsets.map fun e => regAddr d e.1 e.2, _
      exact List.forall_mem_map.2 fun e he => exec_registerWrite_fixed hd he
  · intro go buf
    refine ⟨State.exec_evreqGo_inProgress, fun hst hv => ⟨fun hm => ?_, fun hm hb => ?_, fun hI hm hb hr => ?_⟩⟩
    · rw [State.exec_evreqGo hst hv, State.evServe_of_notReady hm]
    · rw [State.exec_evreqGo hst hv, State.evServe_of_busy hm hb]
    · exact ⟨_, State.exec_evreqGo hst hv, State.evServe_done hI hm hb hr⟩

end Sys2Proof
end
section
/-! The gathered form (O39, R277): its row of A in an image that two entries of the strand list name. -/

namespace Sys2Proof.Refutations

open Sys2Proof.Machine

/-- `forker`, with a row pitch of 64 bytes for B in x13 (R270). -/
def gatherer : Strand := { forker with ctx := sset forker.ctx 13 0x400000 }

/-- Its crew, with 24 KiB of stage memory, 8 banks allocated, and the strand a member of register 0. -/
def gathererCrew : Crew :=
  { forkerCrew with stageSize := 24576, banks := 8, alloc := [0xFF], cvs := 1, cv := [{ members := [0] }] }

/-- `twoOfOneImage`, with that strand and crew in the place of those in issue. -/
def gatherOfTwoImages : State :=
  { twoOfOneImage with strands := gatherer :: twoOfOneImage.strands.tail, crews := [gathererCrew] }

/-- The smallest BF16 operation, its row of A at X[10], its tile word and the address of B in x0, its pitches in x13. -/
def gatherArgs : MxArgs := { fmt := .bf16, z := false, m := .d16, n := .d16, cv := 0, rd := 0, a := 10, b := 0, p := 13, x := 0 }

/-- An access to memory that translates and opens is a load that goes through. -/
theorem isOk_load {s s1 s2 : State} {va : Word} {n : Nat} {parts : List Part} (hl : s.locate s.cur .load va n = .ok s1 (.mem parts))
    (ho : s1.openParts s.cur va parts false = .ok s2 ()) : isOk (s.load va n) = true := by
  simp only [State.load, State.loadMem, hl, Res.bind, ho, isOk]

end Sys2Proof.Refutations

namespace Sys2Proof

open Machine Refutations

section

set_option maxRecDepth 100000

/-- Refutes O39: the row of A that an `mx.gmma` reads at 0x3000 lies in the image of a pre-empted strand, whose lines are written back
first; the line that is written is that of the first entry of this image, which is lost, and so the access finds poison and the form
does not sign (R56, R277). -/
theorem not_matrixSigning : ¬ Obligations.MatrixSigning := by
  unfold Obligations.MatrixSigning
  intro h
  obtain ⟨hforms, -, -⟩ := h gatherOfTwoImages gatherer gathererCrew ⟨by decide, by decide⟩ (by decide)
  obtain ⟨-, hgather, -⟩ := hforms gatherArgs 1 (by decide) (by decide) (by decide) (by decide) (by decide) (by decide) (by decide)
  obtain ⟨-, -, hrow⟩ := hgather rfl (by decide) (by decide) (by decide) (by decide)
  obtain ⟨s1, p, hfinds, hpage, hclean⟩ :=
    findsAtom_of_canLoad (s := gatherOfTwoImages) (va := w64 (gatherOfTwoImages.x 10).toNat) (n := 64) (by decide)
  obtain ⟨s2, hopens, -⟩ := hrow s1 [p] (by decide) (by decide) hfinds (hclean rfl).1 (List.forall_mem_singleton.2 hpage)
  have hfails : isOk (gatherOfTwoImages.load (w64 (gatherOfTwoImages.x 10).toNat) 64) = false := by decide
  rw [isOk_load hfinds.1 hopens] at hfails
  cases hfails

end

end Sys2Proof
end
section
/-! Fleet handles (R79): where fleets hold every handle that there is, a new fleet gets handle 0. -/

namespace Sys2Proof.Machine

namespace State

variable {s s1 : State}

/-- Handle `x` is within R79, and of no fleet. -/
def HandleFree (s : State) (x : Nat) : Prop := x ≠ 0 ∧ x < 2 ^ 62 ∧ ∀ f ∈ s.fleets, f.handle ≠ w64 x

/-- A new handle is one that is free, or 0; either way one free number has been drawn and nothing else has changed. -/
theorem newHandle_cases (s : State) :
    s.newHandle = (0, s.drawNat.2) ∨ ∃ x, s.HandleFree x ∧ s.newHandle = (w64 x, s.drawNat.2) := by
  generalize hr : s.newHandle = r
  unfold newHandle at hr
  split at hr
  next k u e =>
    obtain rfl : s.drawNat.2 = u := congrArg Prod.snd e
    extract_lets ok at hr
    have free {x : Nat} (h : ok x = true) : s.HandleFree x := by
      simpa [ok, HandleFree, drawNat, and_assoc] using h
    clear_value ok
    split at hr
    next h => exact .inr ⟨k, free h, hr.symm⟩
    next =>
      split at hr
      next x h => exact .inr ⟨x, free (List.find?_some h), hr.symm⟩
      next => exact .inl hr.symm

/-- Where no handle is free, the new one is 0. -/
theorem newHandle_of_taken (h : ∀ x, ¬ s.HandleFree x) : s.newHandle = (0, s.drawNat.2) :=
  s.newHandle_cases.resolve_right fun ⟨x, hx, _⟩ => h x hx

/-- A fork that finds room in the store, but no free handle, puts 0 into its child slot. -/
theorem newFleet_of_taken {t : Strand} {c : Crew} {r : Nat} (h : ∀ x, ¬ s.HandleFree x) (ha : s.alloc c.die 64 64 = some (r, s1))
    (i b : Nat) (g : Option Group) :
    ∃ s2, s.newFleet t c i b g = some (s2, 0) ∧
      ∀ u, s.strand? t.image = some u → s2.strand? t.image = some (u.setCw (cChild + i) 0) := by
  have htaken : ∀ x, ¬ s1.HandleFree x := by
    unfold HandleFree at h ⊢
    rwa [alloc_fleets ha]
  simp only [newFleet, ha, newHandle_of_taken htaken]
  refine ⟨_, rfl, fun u hu => strand?_modStrand_same (f := fun t => t.setCw (cChild + i) 0) (fun _ => rfl) ?_⟩
  exact (alloc_strand? ha t.image).trans hu

end State

/-- The state in which an operation ends. -/
def Res.state {α : Type} : Res α → State
  | .ok s _ => s
  | .trap s _ _ => s
  | .stall s => s

/-- What it answers, where it does. -/
def Res.val? {α : Type} : Res α → Option α
  | .ok _ a => some a
  | .trap _ _ _ => none
  | .stall _ => none

theorem Res.eq_ok_of_val? {α : Type} {r : Res α} {a : α} (h : r.val? = some a) : r = .ok r.state a := by
  cases r with
  | ok s v => cases h; rfl
  | trap s c v => cases h
  | stall s => cases h

end Sys2Proof.Machine
end
section
/-! Sample groups (O36): the fork in a state that has no handle left, by a strand whose context is not in canonical form. -/

namespace Sys2Proof.Refutations

open Sys2Proof.Machine

/-- A fleet of each handle that R79 allows, none of them a sample group. -/
def fleetOfEachHandle : List Fleet := (upto 1 (2 ^ 62 - 1)).map fun x => { handle := w64 x }

/-- `forker`, with the address of a fleet block in x10 and of a record in x11. Its context lists child slot 0 twice: a read finds the
first entry, which is zero; a write of zero removes that entry and leaves the second. -/
def slotListedTwice : Strand :=
  { forker with
    ctx := [(cPc, w64 fetchPc), (10, 0x3000), (11, 0x4000), (cChild, 0), (cChild, 9), (cSatp, w64 (10 * 2 ^ 60 + 0x10))] }

/-- Its crew, of fleet 1. -/
def slotCrew : Crew := { forkerCrew with fleet := 1 }

/-- A block of two crews of one strand each (Table 3.8). -/
def pairBlock : Nat := 2 ^ 64 * (2 + 2 ^ 32)

/-- The header of a record of two siblings for child slot 0 (Table 12.1). -/
def pairHeader : Nat := 2 ^ 64 * 2

/-- That strand in issue where no handle is left, with the block, the record and 2 MiB of strand store. -/
def noHandleLeft : State :=
  { withStrands [slotListedTwice] with
    crews := [slotCrew]
    fleets := fleetOfEachHandle
    mem := bytesSet (bytesSet (withStrands []).mem 0x3000 pairBlock 64) 0x4000 pairHeader 64
    mmio := [(bootBase, 0x41), (dieReg dispBase 0 0, 2 ^ 21), (dieReg dispBase 0 8, 1)].foldl (fun m e => sset m e.1 e.2)
      (withStrands []).mmio }

/-- The group that the fork makes. -/
def pairGroup : Group := { n := 2, record := 0x4000, frames := [0x4000], states := [0, 0], running := true }

/-! ### The states that the fork passes through (R319) -/

/-- The header has been read. -/
def headerRead : State := (noHandleLeft.load (noHandleLeft.x 11) 64).state

/-- The block has been read. -/
def blockRead : State := (headerRead.load (headerRead.x 10) 64).state

/-- The record's page has been translated. -/
def recordFound : State := (blockRead.recordPages 0x4000 0 1).state

/-- The context lines that the siblings start with are there. -/
def seedRead : State := recordFound.fetchLines fetchImage [8]

/-- The record has been opened for writing. -/
def recordOpen : State := (seedRead.openParts seedRead.cur 0x4000 (State.recordParts pairGroup 0 96) true).state

section

set_option maxRecDepth 100000

theorem noHandleLeft_onCrew : noHandleLeft.OnCrew slotListedTwice slotCrew := ⟨by decide, by decide⟩

theorem load_header : noHandleLeft.load (noHandleLeft.x 11) 64 = .ok headerRead pairHeader := Res.eq_ok_of_val? (by decide)

theorem pairBlock_ok : State.blockOk pairBlock = true := by decide +kernel

theorem load_block : headerRead.load (headerRead.x 10) 64 = .ok blockRead pairBlock := Res.eq_ok_of_val? (by decide)

theorem recordPages_found : blockRead.recordPages 0x4000 0 1 = .ok recordFound [{ pa := 0x4000, pbmt := 0, attr := 0 }] :=
  Res.eq_ok_of_val? (by decide)

theorem openParts_record :
    seedRead.openParts seedRead.cur 0x4000 (State.recordParts pairGroup 0 96) true = .ok recordOpen () :=
  Res.eq_ok_of_val? (by decide)

theorem recordFound_fleets : recordFound.fleets = fleetOfEachHandle := rfl

theorem recordOpen_release_fleets : recordOpen.release.fleets = fleetOfEachHandle := rfl

theorem recordOpen_release_strand? : recordOpen.release.strand? fetchImage = some slotListedTwice := by decide

theorem recordOpen_release_alloc : ∃ r s1, recordOpen.release.alloc 0 64 64 = some (r, s1) := by
  have h : (recordOpen.release.alloc 0 64 64).isSome = true := by rw [State.alloc_isSome]; decide
  obtain ⟨⟨r, s1⟩, h⟩ := Option.isSome_iff_exists.1 h
  exact ⟨r, s1, h⟩

theorem fleetOfEachHandle_no_group (d : Nat) : (fleetOfEachHandle.filter fun x => x.die = d && x.group.isSome) = [] := by
  refine List.filter_eq_nil_iff.2 (List.forall_mem_map.2 fun x _ => ?_)
  rw [Option.isSome_none, Bool.and_false]
  exact Bool.false_ne_true

theorem recordOpen_release_taken (x : Nat) : ¬ recordOpen.release.HandleFree x := by
  rintro ⟨hpos, hlt, hfree⟩
  rw [recordOpen_release_fleets] at hfree
  exact hfree _ (List.mem_map_of_mem (mem_upto.2 (by omega))) rfl

/-- The fork meets all that is asked of it, gets handle 0, and writes it over the first of the two entries. -/
theorem noHandleLeft_forks :
    ∃ s2, noHandleLeft.SgForks slotListedTwice slotCrew 10 11 2 0 s2 pairGroup 0 ∧
      s2.strand? slotListedTwice.image = some (slotListedTwice.setCw cChild 0) := by
  obtain ⟨r, s1, halloc⟩ := recordOpen_release_alloc
  obtain ⟨s2, hfork, hslot⟩ := State.newFleet_of_taken (t := slotListedTwice) (c := slotCrew) recordOpen_release_taken halloc 0
    pairBlock (some pairGroup)
  have hroom : (recordFound.fleets.filter fun x => x.die = slotCrew.die && x.group.isSome).length < 1024 := by
    rw [recordFound_fleets, fleetOfEachHandle_no_group]
    decide
  refine ⟨s2, ⟨by decide, by decide, by decide, by decide, by decide, by decide, headerRead, blockRead, recordFound, recordOpen,
    pairHeader, pairBlock, _, load_header, by decide, by decide, by decide, by decide, by decide, by decide, by decide, load_block,
    pairBlock_ok, by decide, recordPages_found, by decide, hroom, by decide, ⟨by decide, by decide⟩, slotListedTwice,
    show State.curStrand _ = _ by decide, openParts_record, hfork⟩, hslot _ recordOpen_release_strand?⟩

end

end Sys2Proof.Refutations

namespace Sys2Proof

open Machine Refutations

/-- Refutes O36: where fleets hold every handle below 2^62, a fork gets handle 0; and where the context of the forker lists the child
slot twice, zero first, the write of that handle removes the first entry and the slot then holds the second, 9. -/
theorem not_sampleGroupForms : ¬ Obligations.SampleGroupForms := by
  unfold Obligations.SampleGroupForms
  intro h
  obtain ⟨-, -, hfork⟩ := h noHandleLeft slotListedTwice slotCrew 0 10 11 pairGroup noHandleLeft_onCrew (by decide)
  obtain ⟨s2, hforks, hslot⟩ := noHandleLeft_forks
  obtain ⟨-, -, u, hu, hchild⟩ := hfork s2 2 0 0 hforks
  cases hu.symm.trans hslot
  exact absurd hchild (by decide)

end Sys2Proof
end
section
/-! Posting (O42, R343): what a descriptor that passes every check leaves. -/

namespace Sys2Proof.Machine

/-- What answers goes on. -/
theorem Res.bind_of_ok {α β : Type} {u : State} {a : α} {r : Res α} (h : r = .ok u a) (g : State → α → Res β) :
    r.bind g = g u a := by
  rw [h]
  rfl

theorem Res.run_of_ok {α : Type} {u : State} {a : α} {r : Res α} (h : r = .ok u a) (g : State → α → Out) : r.run g = g u a := by
  rw [h]
  rfl

/-- Entry `k` carries out descriptor `d` for strand `t`: its status goes to `pa`, its local bytes lie at `loc`, nothing has moved,
and it has begun where no gate holds it (R341, R343). -/
structure Desc.Carries (k d : Desc) (t : Strand) (pa : Nat) (loc : List Piece) : Prop where
  words : k.words = d.words
  begun : k.begun = true ↔ d.w 3 = 0
  image : k.image = t.image
  crew : k.crew = t.crew
  stPa : k.stPa = pa
  loc : k.loc = loc
  far : k.far = none

namespace State

variable {s s3 : State} {t : Strand} {a : Reg} {ring : Bool} {d : Desc} {loc : List Piece}

theorem MemStep.descs {s' : State} (h : s.MemStep s') : s'.descs = s.descs := by rw [h.only]

theorem MemStep.accPa {s' : State} (h : s.MemStep s') : s'.accPa = s.accPa := by rw [h.only]

/-- A release changes memory, and what the hardware holds of it, on either class of core. -/
theorem release_memStep_any (s : State) : s.MemStep s.release := by
  cases hc : s.cur with
  | strand k => exact release_memStep hc true
  | lcore i =>
    rw [release, hc]
    exact s.drain_memStep _

/-- The poster releases towards the engine, and entry `k` takes a slot under a new number (R343, R353). -/
def postDesc (s : State) (k : Desc) : State := { s.release.fresh.2 with descs := s.release.descs ++ [k] }

theorem postDesc_descs (s : State) (k : Desc) : (s.postDesc k).descs = s.descs ++ [k] :=
  congrArg (· ++ [k]) s.release_memStep_any.descs

/-- A posting that passes its checks enters its descriptor and answers 0; a ring is looked at then (R343, R345). -/
theorem clPostOp_of_posts (h : s.OnStrand t) (hp : s.Posts t a ring d loc s3) (rd : Reg) :
    ∃ k : Desc, k.Carries d t s3.accPa loc ∧ s.clPostOp ring rd a =
      .next (if ring then ((s3.postDesc k).retX rd 0).ringCheck d.rid else (s3.postDesc k).retX rd 0) := by
  obtain ⟨halign, s1, u1, u2, u3, u4, v, f1, f2, f3, f4, hload, hd, hok, hid, hmine, hslots, hready, hread, hwrite, hgate, hsig, hloc,
    hmark⟩ := hp
  have hlegal : ¬(!d.ok ring) = true := by simp [hok]
  have hfree : ¬(ring && s1.descs.any fun x => x.ring && x.rid = d.rid) = true := by
    simpa only [Bool.and_eq_true, not_and, Bool.not_eq_true] using hid
  have hroom : ¬(32 ≤ (s1.descsOf t).length || 256 ≤ s1.descs.length || !s1.ready 44) = true := by
    simp [hmine, hslots, hready]
  generalize hout : s.clPostOp ring rd a = out
  unfold clPostOp at hout
  rw [onStrand_eq h] at hout
  extract_lets -underBinder va at hout
  rw [if_neg (not_not_intro halign), Res.run_of_ok hload, ← hd] at hout
  extract_lets -underBinder e ext word on at hout
  rw [if_neg hlegal, if_neg hfree, if_neg hroom, Res.bind_of_ok hread, Res.bind_of_ok hwrite, Res.bind_of_ok hgate,
    Res.bind_of_ok hsig, Res.run_of_ok rfl, Res.run_of_ok hmark] at hout
  dsimp -zeta only at hout
  extract_lets s4 at' tmo k s5 at hout
  refine ⟨k, ⟨rfl, decide_eq_true_iff, rfl, rfl, ?_, ?_, ?_⟩, ?_⟩
  · exact s3.release_memStep_any.accPa
  · exact (List.flatMap_singleton ..).trans hloc.symm
  · exact congrArg Desc.far hd
  · rw [← hout]
    cases ring <;> rfl

end State

end Sys2Proof.Machine

namespace Sys2Proof

open Machine

/-- Settles O42: both forms run one operation, which enters a descriptor that passes its checks. -/
theorem posting : Obligations.Posting := by
  unfold Obligations.Posting
  intro s s3 t rd a ring d loc h hp
  obtain ⟨k, hk, hout⟩ := State.clPostOp_of_posts h hp rd
  refine ⟨s3.postDesc k, k, s3.postDesc_descs k, hk.words, hk.begun, hk.image, hk.crew, hk.stPa, hk.loc, hk.far, ?_, ?_⟩
  · rintro rfl
    exact hout
  · rintro rfl
    exact hout

end Sys2Proof
end
section
/-! Links (O41): the test of `cl.wait` and `cl.wait.try` on a word in an image that two entries of the strand list name. Nothing is asked
of the entry that stands in front, and it is that entry's line that a read of the image writes back (R56). -/

namespace Sys2Proof

open Machine Refutations

section

set_option maxRecDepth 100000

/-- Refutes O41: the word at 0x3000 that a `cl.wait` or a `cl.wait.try` tests lies in the image of a pre-empted strand, whose lines are
written back first; the line that is written is that of the first entry of this image, which is lost, and so the load of the test finds
poison (R56, R348). -/
theorem not_linkForms : ¬ Obligations.LinkForms := by
  unfold Obligations.LinkForms
  intro h
  obtain ⟨-, -, -, hwait, -⟩ := h twoOfOneImage forker 0 10 0 (show State.curStrand _ = _ by decide)
  obtain ⟨s', v, hload, -⟩ := hwait (by decide) (reads_of_canRead (by decide))
  have hfails : isOk (twoOfOneImage.load (twoOfOneImage.x 10) 8) = false := by decide
  rw [hload] at hfails
  cases hfails

end

end Sys2Proof
end
section
/-! System instructions of a handler, `ecall`, `ebreak` and `wfi` (O44, O45), and the forms of power (O43). -/

namespace Sys2Proof.Machine

section

variable {s : State} {t : Strand} {c : Crew} {i : Nat}

namespace State

/-- A handler form runs above depth 0 (R372). -/
theorem onS_of_sMode (h : s.OnStrand t) (hm : t.sMode = true) (g : Strand → Out) : s.onS g = g t := by
  simp only [onS, onStrand_eq h, hm, if_true]

/-- A strand without children has no fleet to stop at its end (R374). -/
theorem stopChildren_of_none (h : anyChild t = false) :
    (upto 0 4).foldl (fun s i => if childOf t i = 0 then s else s.stopFleet (childOf t i)) s = s := by
  have hslot (i : Nat) (hi : i ∈ upto 0 4) : childOf t i = 0 := by
    have := List.any_eq_false.1 h i hi
    simpa using this
  refine (List.foldl_ext _ (fun s _ => s) s fun s i hi => if_pos (hslot i hi)).trans (List.foldl_fixed _)

end State

/-! ### Forms of a handler (R373 to R377) -/

theorem exec_syPark (h : s.OnStrand t) (hm : t.sMode = true) (rd : Reg) : exec (.syPark rd) s =
    .next (((s.setPc (s.pc + 4)).modCur fun t => t.setCbits cFwd 7 0 rd.toNat).retired.forward t.image 1 s.pc) :=
  State.onS_of_sMode h hm _

theorem exec_syEnd (h : s.OnCrew t c) (hm : t.sMode = true) (hd : s.fdepth c ≠ 0) (hch : State.anyChild t = false) (rd : Reg) :
    exec (.syEnd rd) s = .next (s.endGo t.image) := by
  simp only [exec, execSyEnd, State.onS_of_sMode h.onStrand hm, State.onCrew_eq h, hd, if_false, State.stopChildren_of_none hch]

theorem exec_syEnd_of_root (h : s.OnCrew t c) (hm : t.sMode = true) (hd : s.fdepth c = 0) (rd : Reg) :
    exec (.syEnd rd) s = .next (s.retX rd (neg 9)) := by
  simp only [exec, execSyEnd, State.onS_of_sMode h.onStrand hm, State.onCrew_eq h, hd, if_true, State.status_eq]

theorem exec_syDbg (h : s.OnStrand t) (rd : Reg) : exec (.syDbg rd) s = .next (if t.att then
    (s.modCur fun t => { t with pendStop := 4, step := false }).retX rd 0 else s.retX rd (neg 9)) := by
  cases ha : t.att <;> simp [exec, execSyDbg, State.onStrand_eq h, ha, State.status_eq]

theorem exec_syRec (h : s.OnStrand t) (hm : t.sMode = true) (rd a b : Reg) : exec (.syRec rd a b) s = .next (
    if wbits (s.coreAt t.core).frecbase 3 0 = 0 then s.retX rd (neg 9)
    else (s.strandRecord t 6 (t.cbits cScause 7 0) 0 s.pc (s.x a) (s.x b).toNat).retX rd 0) := by
  simp only [exec, execSyRec, State.onS_of_sMode h hm, State.status_eq]
  split <;> rfl

theorem exec_syTlbsd_of_bad (h : s.OnStrand t) (hm : t.sMode = true) {a b : Reg} (hbad : invalOk (s.x a) (s.x b) = false) (rd : Reg) :
    exec (.syTlbsd rd a b) s = .next (s.retX rd (neg 3)) := by
  simp only [exec, execSyTlbsd, State.onS_of_sMode h hm, hbad, Bool.not_false, if_true, State.status_eq]

theorem exec_syTlbsd (h : s.OnStrand t) (hm : t.sMode = true) {a b : Reg} (hok : invalOk (s.x a) (s.x b) = true) (rd : Reg) :
    exec (.syTlbsd rd a b) s = s.invalidate t rd (s.x a) (s.x b) := by
  simp only [exec, execSyTlbsd, State.onS_of_sMode h hm, hok, Bool.not_true, Bool.false_eq_true, if_false]

/-- `sfence.vma` invalidates one page where its address is canonical, else all, of one address space or of all (R363). -/
theorem exec_sfenceVma (h : s.OnStrand t) (hm : t.sMode = true) (a b : Reg) : exec (.sfenceVma a b) s =
    s.invalidate t 0 (s.x a) (w64 ((if a = 0 || !canonical (s.x a) then 0 else 6) * 2 ^ 16 +
      (if b = 0 then 2 ^ 19 else wbits (s.x b) 15 0))) := by
  simp only [exec, execSfenceVma, State.onAny_eq h.runs, h.cur, State.onS_of_sMode h hm]

/-! ### Calls, breakpoints and `wfi` (R363) -/

theorem exec_ecall (h : s.OnStrand t) : exec .ecall s = .next (s.trap (if t.depth = 0 then 8 else 9) 0) := by
  simp [exec, execEcall, State.onAny_eq h.runs, h.cur, State.onStrand_eq h, State.raise_eq, Strand.sMode]

theorem exec_ebreak (h : s.OnStrand t) : exec .ebreak s =
    .next (if t.att && t.ebs then s.debugStopOp t.image 3 else s.trap 3 s.pc) := by
  simp only [exec, execEbreak, State.onAny_eq h.runs, h.cur, State.onStrand_eq h, State.raise_eq]
  split <;> rfl

theorem exec_wfi (h : s.OnStrand t) :
    exec .wfi s = .next (s.await (.pause (s.cc t.core + 16 * passes (s.podAt (State.podOf t.core))))) := by
  simp only [exec, execWfi, State.onAny_eq h.runs, h.cur, State.onStrand_eq h]
  rfl

theorem exec_ecall_mMode (h : s.OnL i) (hm : (s.lcoreAt i).mode = .m) : exec .ecall s = .next (s.trap 11 0) := by
  simp only [exec, execEcall, State.onAny_eq h.runs, h.1, hm, State.raise_eq]

theorem exec_ebreak_lcore (h : s.OnL i) : exec .ebreak s = .next (s.trap 3 s.pc) := by
  simp only [exec, execEbreak, State.onAny_eq h.runs, h.1, State.raise_eq]

theorem exec_wfi_mMode (h : s.OnL i) (hm : (s.lcoreAt i).mode = .m) : exec .wfi s = .next s.retire := by
  simp only [exec, execWfi, State.onAny_eq h.runs, h.1, hm, State.next_eq]

/-! ### Forms of power (R416 to R418) -/

/-- What `pw.qry` reads under selector `n` (Table 15.6). -/
def State.pwRead (s : State) (t : Strand) (c : Crew) (n : Nat) : Word :=
  let q := State.podOf t.core
  match n with
  | 0 => s.pwst q (c.wd ≠ 0)
  | 1 => w64 (s.podAt q).mhz
  | 2 => w64 (s.allowance q)
  | 3 => w64 (s.load' q)
  | 4 => if c.wd = 0 then 0 else w64 ((c.wdEnd - s.time.toNat) / 1000)
  | _ => neg 3

theorem State.pwRead_of_unlisted {n : Nat} (hn : 4 < n) : s.pwRead t c n = neg 3 := by
  obtain ⟨m, rfl⟩ := Nat.exists_eq_add_of_lt hn
  rw [show 4 + m + 1 = m + 5 by omega]
  rfl

theorem exec_pwQry (h : s.OnCrew t c) (rd a : Reg) : exec (.pwQry rd a) s = .next (s.retX rd (s.pwRead t c (s.x a).toNat)) :=
  State.onCrew_eq h _

theorem exec_pwWind (h : s.OnStrand t) (rd a : Reg) : exec (.pwWind rd a) s =
    .next (s.retX rd (if (s.x a).toNat = 0 || 1000 < (s.x a).toNat then neg 3 else 0)) :=
  State.onStrand_eq h _

/-- `pw.yld` of the leader of a withdrawn crew: the crew's pre-emption starts, and its status is due at the resumption (R417). -/
theorem exec_pwYld (h : s.OnCrew t c) (hm : t.sMode = false) (hl : t.leader = true) (hw : c.wd ≠ 0) (rd : Reg) : exec (.pwYld rd) s =
    .next ((s.retire.modStrand t.image fun t => { t with yielded := rd }).preemptFrom c) := by
  simp only [exec, execPwYld, State.onCrew_eq h, hm, hl, Bool.not_true, Bool.or_self, Bool.false_eq_true, if_false, hw, State.next_eq]

theorem exec_pwYld_of_noWithdrawal (h : s.OnCrew t c) (hm : t.sMode = false) (hl : t.leader = true) (hw : c.wd = 0) (rd : Reg) :
    exec (.pwYld rd) s = .next (s.retX rd (neg 4)) := by
  simp only [exec, execPwYld, State.onCrew_eq h, hm, hl, Bool.not_true, Bool.or_self, Bool.false_eq_true, if_false, hw, if_true,
    State.status_eq]

theorem exec_pwYld_of_refused (h : s.OnCrew t c) (hr : t.sMode = true ∨ t.leader = false) (rd : Reg) :
    exec (.pwYld rd) s = .next (s.retX rd (neg 9)) := by
  have hguard : (t.sMode || !t.leader) = true := by simpa using hr
  simp only [exec, execPwYld, State.onCrew_eq h, hguard, if_true, State.status_eq]

end

end Sys2Proof.Machine

namespace Sys2Proof

open Machine

/-- Settles O44: each form passes its guard, and an invalidation is the same request from either form. -/
theorem systemForms : Obligations.SystemForms := by
  unfold Obligations.SystemForms
  intro s t c rd a b h hm
  have ht := h.onStrand
  refine ⟨exec_syPark ht hm rd, fun hd hch => exec_syEnd h hm hd hch rd, fun hd => exec_syEnd_of_root h hm hd rd,
    fun ha => (exec_syDbg ht rd).trans (by rw [if_pos ha]), fun ha => (exec_syDbg ht rd).trans (by simp [ha]),
    fun hf => (exec_syRec ht hm rd a b).trans (by rw [if_neg hf]), fun hf => (exec_syRec ht hm rd a b).trans (by rw [if_pos hf]),
    fun hbad => exec_syTlbsd_of_bad ht hm hbad rd, fun hok => exec_syTlbsd ht hm hok rd, exec_sfenceVma ht hm a b⟩

/-- Settles O45: on a strand and on an L-core in M-mode each form is one answer. -/
theorem environmentForms : Obligations.EnvironmentForms := by
  unfold Obligations.EnvironmentForms
  refine fun s => ⟨fun t h => ⟨exec_ecall h, fun hn => (exec_ebreak h).trans ?_, fun ha he => (exec_ebreak h).trans ?_, exec_wfi h⟩,
    fun i h hm => ⟨exec_ecall_mMode h hm, exec_ebreak_lcore h, exec_wfi_mMode h hm⟩⟩
  · rw [if_neg (by simpa [Classical.or_iff_not_imp_left] using hn)]
  · rw [if_pos (by rw [ha, he]; rfl)]

/-- Settles O43: `pw.qry` is one table, `pw.wind` one range, and `pw.yld` is decided by mode, leader and withdrawal. -/
theorem powerForms : Obligations.PowerForms := by
  unfold Obligations.PowerForms
  intro s t c rd a h
  have hread (n : Nat) (hx : (s.x a).toNat = n) : exec (.pwQry rd a) s = .next (s.retX rd (s.pwRead t c n)) := by
    rw [exec_pwQry h, hx]
  have hwind := exec_pwWind h.onStrand rd a
  refine ⟨hread 0, hread 1, hread 2, hread 3, hread 4, fun hx => ?_, fun h1 h2 => hwind.trans ?_, fun hx => hwind.trans ?_,
    fun hm hl hw => exec_pwYld h hm hl hw rd, fun hm hl hw => exec_pwYld_of_noWithdrawal h hm hl hw rd,
    fun hr => exec_pwYld_of_refused h hr rd⟩
  · rw [exec_pwQry h, State.pwRead_of_unlisted hx]
  · rw [if_neg (by simp; omega)]
  · rw [if_pos (by simpa using hx)]

/-- Settles O1: every list of the reset state is empty, or one unit repeated; its registers stand in rising order. -/
theorem resetInv : Obligations.ResetInv := by
  unfold Obligations.ResetInv
  have hstorage : State.reset.StorageOk := ⟨rfl, by decide, rfl, rfl, rfl⟩
  have hcontexts : State.reset.ContextsOk := by
    refine ⟨fun t ht => absurd ht List.not_mem_nil, fun l hl => ?_, fun c hc => absurd hc List.not_mem_nil,
      fun f hf => absurd hf List.not_mem_nil⟩
    obtain rfl := List.eq_of_mem_replicate hl
    exact ⟨rfl, rfl, rfl⟩
  have hunits : State.reset.UnitsOk :=
    ⟨List.length_replicate .., List.length_replicate .., List.length_replicate .., rfl, List.length_replicate ..⟩
  exact ⟨hstorage, hcontexts, hunits⟩

end Sys2Proof
end
section
/-! Bit fields of words: what a field reads after it, or another, has been written. -/

namespace Sys2Proof.Machine

/-- A field's bits replaced: what stands above it, the new value, what stands below it. -/
theorem insert_eq {h l : Nat} (hl : l ≤ h + 1) (v x : Nat) :
    insert v h l x = 2 ^ (h + 1) * (v / 2 ^ (h + 1)) + 2 ^ l * (x % 2 ^ (h + 1 - l)) + v % 2 ^ l := by
  have hpow : 2 ^ (h + 1) = 2 ^ l * 2 ^ (h + 1 - l) := by rw [← pow_add]; congr 1; omega
  have hlow : v % 2 ^ (h + 1) = v % 2 ^ l + 2 ^ l * bits v h l := by rw [hpow, Nat.mod_mul]; rfl
  have hv := Nat.div_add_mod v (2 ^ (h + 1))
  unfold insert
  rw [Nat.mul_comm (bits v h l), Nat.mul_comm (x % _)]
  omega

theorem insert_mod {h l : Nat} (hl : l ≤ h + 1) (v x : Nat) : insert v h l x % 2 ^ l = v % 2 ^ l := by
  have hpow : 2 ^ (h + 1) = 2 ^ l * 2 ^ (h + 1 - l) := by rw [← pow_add]; congr 1; omega
  rw [insert_eq hl, hpow, Nat.mul_assoc, ← Nat.mul_add, Nat.mul_add_mod, Nat.mod_mod]

theorem insert_div {h l : Nat} (hl : l ≤ h + 1) (v x : Nat) : insert v h l x / 2 ^ (h + 1) = v / 2 ^ (h + 1) := by
  have hpow : 2 ^ (h + 1) = 2 ^ l * 2 ^ (h + 1 - l) := by rw [← pow_add]; congr 1; omega
  have hfield : 2 ^ l * (x % 2 ^ (h + 1 - l)) + v % 2 ^ l < 2 ^ (h + 1) := by
    have := Nat.mul_le_mul_left (2 ^ l) (Nat.succ_le_of_lt (Nat.mod_lt x (Nat.two_pow_pos (h + 1 - l))))
    have := Nat.mod_lt v (Nat.two_pow_pos l)
    rw [hpow]
    rw [Nat.succ_eq_add_one, Nat.mul_add] at *
    omega
  rw [insert_eq hl, Nat.add_assoc, Nat.mul_add_div (Nat.two_pow_pos _), Nat.div_eq_of_lt hfield, Nat.add_zero]

/-- A field reads what was put into it. -/
theorem bits_insert_same {h l : Nat} (hl : l ≤ h) (v x : Nat) : bits (insert v h l x) h l = x % 2 ^ (h + 1 - l) := by
  have hpow : 2 ^ (h + 1) = 2 ^ l * 2 ^ (h + 1 - l) := by rw [← pow_add]; congr 1; omega
  unfold bits
  rw [insert_eq (by omega), hpow, Nat.mul_assoc, ← Nat.mul_add, Nat.mul_add_div (Nat.two_pow_pos l),
    Nat.div_eq_of_lt (Nat.mod_lt v (Nat.two_pow_pos l)), Nat.add_zero, Nat.mul_add_mod, Nat.mod_mod]

/-- A field below another is as it was. -/
theorem bits_insert_below {h l h' : Nat} (hl : l ≤ h + 1) (hlt : h' < l) (v x l' : Nat) :
    bits (insert v h l x) h' l' = bits v h' l' := by
  have hbit (j : Nat) (hj : j < l) : (insert v h l x).testBit j = v.testBit j := by
    have := congrArg (·.testBit j) (insert_mod hl v x)
    simpa [Nat.testBit_mod_two_pow, hj] using this
  refine Nat.eq_of_testBit_eq fun i => ?_
  unfold bits
  rw [Nat.testBit_mod_two_pow, Nat.testBit_mod_two_pow, Nat.testBit_div_two_pow, Nat.testBit_div_two_pow]
  by_cases hi : i < h' + 1 - l'
  · rw [hbit (i + l') (by omega)]
  · simp only [hi, decide_false, Bool.false_and]

/-- So is one above it. -/
theorem bits_insert_above {h l l' : Nat} (hl : l ≤ h + 1) (hlt : h < l') (v x h' : Nat) :
    bits (insert v h l x) h' l' = bits v h' l' := by
  have hpow : 2 ^ l' = 2 ^ (h + 1) * 2 ^ (l' - (h + 1)) := by rw [← pow_add]; congr 1; omega
  unfold bits
  rw [hpow, ← Nat.div_div_eq_div_mul, insert_div hl, Nat.div_div_eq_div_mul]

theorem toNat_winsert {h l : Nat} (hl : l ≤ h + 1) (hh : h < 64) (v : Word) (x : Nat) :
    (winsert v h l x).toNat = insert v.toNat h l x := by
  have hpow : 2 ^ 64 = 2 ^ (h + 1) * 2 ^ (63 - h) := by rw [← pow_add]; congr 1; omega
  have hlt : insert v.toNat h l x < 2 ^ 64 := by
    refine Nat.lt_of_div_eq_zero (Nat.two_pow_pos 64) ?_
    rw [hpow, ← Nat.div_div_eq_div_mul, insert_div hl, Nat.div_div_eq_div_mul, ← hpow, Nat.div_eq_of_lt v.isLt]
  exact (BitVec.toNat_ofNat ..).trans (Nat.mod_eq_of_lt hlt)

theorem wbits_winsert_same {h l : Nat} (hl : l ≤ h) (hh : h < 64) (v : Word) (x : Nat) :
    wbits (winsert v h l x) h l = x % 2 ^ (h + 1 - l) := by
  rw [wbits, toNat_winsert (by omega) hh, bits_insert_same hl]

theorem wbits_winsert_below {h l h' l' : Nat} (hl : l ≤ h + 1) (hh : h < 64) (hlt : h' < l) (v : Word) (x : Nat) :
    wbits (winsert v h l x) h' l' = wbits v h' l' := by
  rw [wbits, toNat_winsert hl hh, bits_insert_below hl hlt, wbits]

theorem wbits_winsert_above {h l h' l' : Nat} (hl : l ≤ h + 1) (hh : h < 64) (hlt : h < l') (v : Word) (x : Nat) :
    wbits (winsert v h l x) h' l' = wbits v h' l' := by
  rw [wbits, toNat_winsert hl hh, bits_insert_above hl hlt, wbits]

end Sys2Proof.Machine
end
section
/-! Traps of an L-core (O48): entry to M-mode. -/

namespace Sys2Proof.Machine

/-! ### `mstatus` at the entry to M-mode -/

namespace LCore

/-- `mstatus` once M-mode has been entered: MPIE takes MIE, MIE falls, MPP takes the former privilege. -/
theorem enterM_mstatus (l : LCore) (hw : swf l.csr = true) (cause v gpa inst pc : Word) (gva : Bool) :
    let st := (l.enterM cause v gpa inst gva pc).get 0x300
    wbits st 7 7 = wbits (l.get 0x300) 3 3 ∧ wbits st 3 3 = 0 ∧ wbits st 12 11 = l.priv := by
  have hbit : wbits (l.get 0x300) 3 3 % 2 ^ (7 + 1 - 7) = wbits (l.get 0x300) 3 3 := Nat.mod_mod _ 2
  have hpriv : l.priv % 2 ^ (12 + 1 - 11) = l.priv := by
    unfold priv
    cases l.mode <;> rfl
  have hst : (l.enterM cause v gpa inst gva pc).get 0x300 = winsert (winsert (winsert (winsert (l.get 0x300) 7 7
      (wbits (l.get 0x300) 3 3)) 3 3 0) 12 11 l.priv) 39 38 (b2n l.virt * 2 + b2n gva) := by
    simp (disch := repeat' first | exact hw | apply sset_swf) [enterM, get, sget_sset]
  rw [hst]
  refine ⟨?_, ?_, ?_⟩
  · rw [wbits_winsert_below (by omega) (by omega) (by omega), wbits_winsert_below (by omega) (by omega) (by omega),
      wbits_winsert_above (by omega) (by omega) (by omega), wbits_winsert_same (by omega) (by omega)]
    exact hbit
  · rw [wbits_winsert_below (by omega) (by omega) (by omega), wbits_winsert_below (by omega) (by omega) (by omega),
      wbits_winsert_same (by omega) (by omega), Nat.zero_mod]
  · rw [wbits_winsert_below (by omega) (by omega) (by omega), wbits_winsert_same (by omega) (by omega)]
    exact hpriv

/-- The registers of M-mode's trap, and the pc. -/
theorem enterM_regs (l : LCore) (hw : swf l.csr = true) (hc : swf l.ctx = true) (cause v gpa inst pc : Word) (gva : Bool) :
    let u := l.enterM cause v gpa inst gva pc
    u.mode = .m ∧ u.get 0x341 = sget l.ctx cPc ∧ u.get 0x342 = cause ∧ u.get 0x343 = v ∧ sget u.ctx cPc = pc ∧
      ∀ n, n ≠ cPc → sget u.ctx n = sget l.ctx n := by
  refine ⟨rfl, ?_, ?_, ?_, sget_sset_same hc, fun n hn => (sget_sset hc).trans (if_neg hn)⟩ <;>
    simp (disch := repeat' first | exact hw | apply sset_swf) [enterM, get, sget_sset]

end LCore

namespace State

/-- A trap in M-mode, or of a cause that is not delegated, enters M-mode. -/
theorem trapL_enterM (s : State) {i c : Nat} (hi : i < s.lcores.length) (v : Word)
    (hd : (s.lcoreAt i).mode = .m ∨ ((s.lcoreAt i).get 0x302).getLsbD c = false) : ∃ (gpa inst : Word) (gva : Bool),
      (s.trapL i c v).lcoreAt i = { (s.lcoreAt i) with sent := [] }.enterM (w64 c) v gpa inst gva ((s.lcoreAt i).get 0x305 &&& ~~~3) := by
  have hguard : ((s.lcoreAt i).mode = .m || !((s.lcoreAt i).get 0x302).getLsbD c) = true := by simpa using hd
  unfold trapL
  extract_lets s1
  rw [lcoreAt_modLcore, if_pos (show i < s1.lcores.length from hi)]
  exact ⟨_, _, _, if_pos hguard⟩

end State

end Sys2Proof.Machine

namespace Sys2Proof

open Machine

/-- Settles O48: the trap is not delegated, so it enters M-mode. -/
theorem machineTraps : Obligations.MachineTraps := by
  unfold Obligations.MachineTraps
  intro s i c v hI hcur hi hd
  have htrap : s.trap c v = s.trapL i c v := by rw [State.trap, hcur]
  obtain ⟨gpa, inst, gva, hu⟩ := s.trapL_enterM (hI.2.2.2.2.2.2 ▸ hi) v hd
  obtain ⟨hctx, hcsr⟩ := lcoreAt_swf (i := i) hI
  obtain ⟨hmode, hepc, hcause, htval, hpc, hregs⟩ := LCore.enterM_regs { (s.lcoreAt i) with sent := [] } hcsr hctx (w64 c) v gpa inst
    ((s.lcoreAt i).get 0x305 &&& ~~~3) gva
  obtain ⟨hmpie, hmie, hmpp⟩ := LCore.enterM_mstatus { (s.lcoreAt i) with sent := [] } hcsr (w64 c) v gpa inst
    ((s.lcoreAt i).get 0x305 &&& ~~~3) gva
  rw [htrap]
  dsimp only
  rw [hu]
  exact ⟨rfl, hmode, hepc, hcause, htval, hpc, hmpie, hmie, hmpp, fun n h1 _ => hregs n (Nat.ne_of_gt h1)⟩

end Sys2Proof
end
section
/-! Traps of a strand (O46) and the return from one (O47). -/

namespace Sys2Proof.Machine

variable {t : Strand} {n c : Nat} {v : Word}

theorem wtvec_zero_of_base_zero {w : Word} (hw : wbits w 63 2 = 0) : w &&& ~~~3 = 0 := by
  have hlt : w.toNat < 4 := by
    unfold wbits bits at hw
    have := w.isLt
    omega
  have hcases : w = 0 ∨ w = 1 ∨ w = 2 ∨ w = 3 := by
    bv_omega
  rcases hcases with rfl | rfl | rfl | rfl <;> rfl

/-- An entry that is put is found. -/
theorem kfind_kput {α : Type} (key : α → Nat) (l : List α) (x : α) : kfind key (kput key l x) (key x) = some x := by
  induction l with
  | nil => simp [kfind, kput]
  | cons y l ih =>
    unfold kput
    split
    · simp [kfind]
    · split
      · simp [kfind]
      next hlt hne =>
        unfold kfind at ih ⊢
        rw [List.find?_cons_of_neg (by simpa using Ne.symm hne), ih]

namespace Strand

theorem depth_lt (t : Strand) : t.depth < 4 := Nat.mod_lt _ (by decide)

theorem cw_setCbits (hw : swf t.ctx = true) (n h l m x : Nat) :
    (t.setCbits n h l x).cw m = if m = n then winsert (t.cw n) h l x else t.cw m := State.cw_setCw hw _ _ _

/-- The depth is kept in `wstatus`, and the mode with it in the word of `cid`. -/
theorem cw_setDepth (hw : swf t.ctx = true) (d m : Nat) (h1 : m ≠ cWstatus) (h2 : m ≠ cCid) : (t.setDepth d).cw m = t.cw m := by
  unfold setDepth
  rw [cw_setCbits (setCbits_swf hw), if_neg h2, cw_setCbits hw, if_neg h1]

theorem depth_setDepth (hw : swf t.ctx = true) {d : Nat} (hd : d < 4) : (t.setDepth d).depth = d := by
  have hword : (t.setDepth d).cw cWstatus = winsert (t.cw cWstatus) 9 8 d := by
    unfold setDepth
    rw [cw_setCbits (setCbits_swf hw), if_neg (by decide), cw_setCbits hw, if_pos rfl]
  unfold depth cbits
  rw [hword, wbits_winsert_same (by decide) (by decide)]
  exact Nat.mod_eq_of_lt hd

/-- The words that a trap at depth 1 or 2 saves stand four words apart (Table 14.1). -/
def saveAt (d : Nat) : Nat := cSave + 4 * (d - 1)

/-- The strand with the registers of its present handler saved (R362). -/
def saveWords (t : Strand) : Strand :=
  if 1 ≤ t.depth then
    ((t.setCw (saveAt t.depth) (t.cw cSepc)).setCw (saveAt t.depth + 1) (t.cw cScause)).setCw (saveAt t.depth + 2) (t.cw cStval)
  else t

/-- The strand at the entry of its handler (R362). -/
def enterTrap (t : Strand) (c : Nat) (v : Word) : Strand :=
  let u := (((t.saveWords.setCw cSepc (t.cw cPc)).setCw cScause (w64 c)).setCw cStval v).setDepth (t.depth + 1)
  u.setCw cPc (u.cw cWtvec &&& ~~~3)

theorem saveWords_swf (hw : swf t.ctx = true) : swf t.saveWords.ctx = true := by
  unfold saveWords
  split
  · exact State.setCw_swf (State.setCw_swf (State.setCw_swf hw _ _) _ _) _ _
  · exact hw

theorem saveWords_cw_below (hw : swf t.ctx = true) (hn : n < cSave) : t.saveWords.cw n = t.cw n := by
  have hne (i : Nat) : n ≠ saveAt t.depth + i := by unfold saveAt; omega
  unfold saveWords
  split
  · rw [State.cw_setCw (State.setCw_swf (State.setCw_swf hw _ _) _ _), if_neg (hne 2), State.cw_setCw (State.setCw_swf hw _ _),
      if_neg (hne 1), State.cw_setCw hw, if_neg (show n ≠ saveAt t.depth from hne 0)]
  · rfl

theorem saveWords_cw (hw : swf t.ctx = true) (hd : 1 ≤ t.depth) :
    t.saveWords.cw (saveAt t.depth) = t.cw cSepc ∧ t.saveWords.cw (saveAt t.depth + 1) = t.cw cScause ∧
      t.saveWords.cw (saveAt t.depth + 2) = t.cw cStval := by
  have h1 := State.setCw_swf hw (saveAt t.depth) (t.cw cSepc)
  have h2 := State.setCw_swf h1 (saveAt t.depth + 1) (t.cw cScause)
  unfold saveWords
  simp [hd, State.cw_setCw h2, State.cw_setCw h1, State.cw_setCw hw]

theorem enterTrap_swf (hw : swf t.ctx = true) (c : Nat) (v : Word) : swf (t.enterTrap c v).ctx = true :=
  State.setCw_swf (setDepth_swf (State.setCw_swf (State.setCw_swf (State.setCw_swf (saveWords_swf hw) _ _) _ _) _ _)) _ _

/-- Every word of the context at the entry but for the two that hold the depth. -/
theorem enterTrap_cw (hw : swf t.ctx = true) (c : Nat) (v : Word) (h1 : n ≠ cWstatus) (h2 : n ≠ cCid) : (t.enterTrap c v).cw n =
    if n = cPc then t.cw cWtvec &&& ~~~3 else if n = cStval then v else if n = cScause then w64 c else if n = cSepc then t.cw cPc
    else t.saveWords.cw n := by
  have hs := saveWords_swf hw
  have ha := State.setCw_swf hs cSepc (t.cw cPc)
  have hb := State.setCw_swf ha cScause (w64 c)
  have hc := State.setCw_swf hb cStval v
  unfold enterTrap
  extract_lets u
  have hu : u.cw n = _ := cw_setDepth hc _ n h1 h2
  have hvec : u.cw cWtvec = t.cw cWtvec := by
    rw [show u.cw cWtvec = _ from cw_setDepth hc _ cWtvec (by decide) (by decide), State.cw_setCw hb, State.cw_setCw ha,
      State.cw_setCw hs, if_neg (by decide), if_neg (by decide), if_neg (by decide), saveWords_cw_below hw (by decide)]
  rw [State.cw_setCw (setDepth_swf hc), hvec, hu, State.cw_setCw hb, State.cw_setCw ha, State.cw_setCw hs]

/-- The entry writes context words alone. -/
theorem enterTrap_bare (t : Strand) (c : Nat) (v : Word) : (t.enterTrap c v).bare = t.bare := by
  unfold enterTrap saveWords
  split <;> simp only [State.bare_setCw, State.bare_setDepth]

theorem image_bare (t : Strand) : t.bare.image = t.image := rfl
theorem status_bare (t : Strand) : t.bare.status = t.status := rfl
theorem wait_bare (t : Strand) : t.bare.wait = t.wait := rfl

theorem enterTrap_resv (t : Strand) (c : Nat) (v : Word) : (t.enterTrap c v).resv = t.resv := by
  have hset (u : Strand) (i : Nat) (w : Word) : (u.setCw i w).resv = u.resv := rfl
  unfold enterTrap saveWords
  split <;> simp only [setDepth, setCbits, hset]

theorem enterTrap_depth (hw : swf t.ctx = true) (hd : t.depth < 3) (c : Nat) (v : Word) : (t.enterTrap c v).depth = t.depth + 1 := by
  have hs : swf (((t.saveWords.setCw cSepc (t.cw cPc)).setCw cScause (w64 c)).setCw cStval v).ctx = true :=
    State.setCw_swf (State.setCw_swf (State.setCw_swf (saveWords_swf hw) _ _) _ _) _ _
  unfold enterTrap
  extract_lets u
  have hword : (u.setCw cPc (u.cw cWtvec &&& ~~~3)).cw cWstatus = u.cw cWstatus := by
    rw [State.cw_setCw (setDepth_swf hs), if_neg (by decide)]
  unfold depth cbits
  rw [hword]
  exact depth_setDepth hs (by omega)

/-- Above the registers of the handler the entry leaves what `saveWords` has. -/
theorem enterTrap_cw_save (hw : swf t.ctx = true) (c : Nat) (v : Word) (hn : cSave ≤ n) : (t.enterTrap c v).cw n = t.saveWords.cw n := by
  have hne (m : Nat) (hm : m < cSave) : n ≠ m := by omega
  rw [enterTrap_cw hw c v (hne _ (by decide)) (hne _ (by decide)), if_neg (hne _ (by decide)), if_neg (hne _ (by decide)),
    if_neg (hne _ (by decide)), if_neg (hne _ (by decide))]

/-- So it does to the general registers. -/
theorem enterTrap_cw_reg (hw : swf t.ctx = true) (c : Nat) (v : Word) (h1 : 1 ≤ n) (h2 : n ≤ 64) : (t.enterTrap c v).cw n = t.cw n := by
  have hne (m : Nat) (hm : 64 < m) : n ≠ m := by omega
  rw [enterTrap_cw hw c v (hne _ (by decide)) (hne _ (by decide)), if_neg (Nat.ne_of_gt h1 : n ≠ cPc), if_neg (hne _ (by decide)),
    if_neg (hne _ (by decide)), if_neg (hne _ (by decide)), saveWords_cw_below hw (show n < 104 by omega)]

/-- The strand as the instruction that traps leaves it, before its handler is entered (R362). -/
def atTrap (t : Strand) : Strand :=
  { t with
    resv := none
    wait := .none
    step := false
    sent := []
    pendStop := if t.step && t.pendStop = 0 then 2 else t.pendStop
    since := none }

/-! ### The strand that returns -/

/-- The strand as `sret` leaves it: at `sepc`, and above depth 1 with the registers of the handler below (R363). -/
def leaveTrap (t : Strand) : Strand :=
  let i := cSave + 4 * (t.depth - 2)
  let u := t.setCw cPc (t.cw cSepc)
  let u := if 2 ≤ t.depth then ((u.setCw cSepc (t.cw i)).setCw cScause (t.cw (i + 1))).setCw cStval (t.cw (i + 2)) else u
  u.setDepth (t.depth - 1)

theorem leaveTrap_bare (t : Strand) : t.leaveTrap.bare = t.bare := by
  unfold leaveTrap
  dsimp only
  split <;> simp only [State.bare_setCw, State.bare_setDepth]

/-- The context after a return: the pc, the depth, what is restored, and what stays. -/
theorem leaveTrap_words (hw : swf t.ctx = true) :
    t.leaveTrap.cw cPc = t.cw cSepc ∧ t.leaveTrap.depth = t.depth - 1 ∧
    (2 ≤ t.depth → t.leaveTrap.cw cSepc = t.cw (cSave + 4 * (t.depth - 2)) ∧
      t.leaveTrap.cw cScause = t.cw (cSave + 4 * (t.depth - 2) + 1) ∧ t.leaveTrap.cw cStval = t.cw (cSave + 4 * (t.depth - 2) + 2)) ∧
    ∀ n, 1 ≤ n → n ≤ 64 → t.leaveTrap.cw n = t.cw n := by
  have hlt := depth_lt t
  unfold leaveTrap
  extract_lets i u w
  have hu : swf u.ctx = true := State.setCw_swf hw _ _
  have hsepc := State.setCw_swf hu cSepc (t.cw i)
  have hscause := State.setCw_swf hsepc cScause (t.cw (i + 1))
  have hws : swf w.ctx = true := by
    unfold w
    split
    · exact State.setCw_swf hscause _ _
    · exact hu
  have hword (n : Nat) : w.cw n = if 2 ≤ t.depth ∧ n = cStval then t.cw (i + 2) else if 2 ≤ t.depth ∧ n = cScause then t.cw (i + 1)
      else if 2 ≤ t.depth ∧ n = cSepc then t.cw i else if n = cPc then t.cw cSepc else t.cw n := by
    unfold w
    split
    next hd => simp only [hd, true_and, State.cw_setCw hscause, State.cw_setCw hsepc, State.cw_setCw hu, u, State.cw_setCw hw]
    next hd => simp only [hd, false_and, if_false, u, State.cw_setCw hw]
  have hcw (n : Nat) (h1 : n ≠ cWstatus) (h2 : n ≠ cCid) := cw_setDepth hws (t.depth - 1) n h1 h2
  refine ⟨?_, depth_setDepth hws (by omega), fun hd => ⟨?_, ?_, ?_⟩, fun n h1 h2 => ?_⟩
  · rw [hcw cPc (by decide) (by decide), hword]
    simp [cPc, cStval, cScause, cSepc]
  · rw [hcw cSepc (by decide) (by decide), hword]
    simp [i, hd, cStval, cScause, cSepc]
  · rw [hcw cScause (by decide) (by decide), hword]
    simp [i, hd, cStval, cScause]
  · rw [hcw cStval (by decide) (by decide), hword]
    simp [i, hd]
  · have hne (m : Nat) (hm : 64 < m) : n ≠ m := by omega
    rw [hcw n (hne _ (by decide)) (hne _ (by decide)), hword]
    simp [hne cStval (by decide), hne cScause (by decide), hne cSepc (by decide), (Nat.ne_of_gt h1 : n ≠ cPc)]

end Strand

namespace State

variable {s : State}

/-- A ring that is off takes no record (R382). -/
theorem strandRecord_of_off (h : wbits (s.coreAt t.core).frecbase 3 0 = 0) (kind cause inner : Nat) (pc tval : Word) (pa : Nat) :
    s.strandRecord t kind cause inner pc tval pa = s := by
  have hnone (r : FaultRec) : s.recordWrite t.core r = none := if_pos h
  unfold strandRecord faultRecord
  rw [hnone]

theorem endHold_frecbase (s : State) (k n : Nat) : ((s.endHold k).coreAt n).frecbase = (s.coreAt n).frecbase := by
  unfold endHold
  extract_lets hs
  unfold coreAt
  dsimp only
  split
  · rw [List.getD_eq_getElem?_getD, List.getD_eq_getElem?_getD, List.getElem?_map]
    cases s.cores[n]? <;> rfl
  · rfl

/-- A trap that makes a double fault (R367). -/
def Doubles (t : Strand) (c : Nat) (v : Word) : Prop :=
  t.depth = 3 ∨ (1 ≤ t.depth ∧ c ∈ [1, 5, 7, 12, 13, 15] ∧ (t.cw cWtslo).toNat ≤ v.toNat ∧ v.toNat < (t.cw cWtshi).toNat)

/-- A trap with a handler, that is no double fault, enters the handler and leaves memory as it is (R362). -/
theorem trapStrand_enters (h : s.strand? t.image = some t) (hdbl : ¬ Doubles t c v) (h8 : c ≠ 8) (hvec : t.cw cWtvec &&& ~~~3 ≠ 0)
    (hoff : wbits (s.coreAt t.core).frecbase 3 0 = 0) :
    (s.trapStrand t c v).mem = s.mem ∧ (s.trapStrand t c v).strand? t.image = some (t.atTrap.enterTrap c v) := by
  unfold Doubles at hdbl
  obtain ⟨hd3, hrange⟩ := not_or.1 hdbl
  have hbase : wbits (t.cw cWtvec) 63 2 ≠ 0 := fun e => hvec (wtvec_zero_of_base_zero e)
  unfold trapStrand
  extract_lets a d k s1 s2 i enter s3
  have hguard : ¬ (1 ≤ d && [1, 5, 7, 12, 13, 15].contains c && (t.cw cWtslo).toNat ≤ v.toNat && v.toNat < (t.cw cWtshi).toNat) = true := by
    simpa [d, and_assoc] using hrange
  have h1 : s1.strand? k = some t.atTrap := strand?_modStrand_same (f := Strand.atTrap) (fun _ => rfl) h
  have h2 : s2 = s1 := by
    unfold s2
    split
    · exact strandRecord_of_off (s := s1) ((congrArg (wbits · 3 0) (endHold_frecbase s k t.core)).trans hoff) ..
    · rfl
  have hbare (u : Strand) : (enter u).bare = u.bare := by
    unfold enter
    dsimp only
    split <;> simp only [bare_setCw, bare_setDepth]
  have hend : ¬ (wbits (t.cw cWtvec) 63 2 = 0 || (c = 8 && t.cbits cWstatus 0 0 = 1)) = true := by simp [hbase, h8]
  rw [if_neg hd3, if_neg hguard, if_neg hend]
  have himage (u : Strand) : (enter u).image = u.image := by rw [← Strand.image_bare, hbare, Strand.image_bare]
  exact ⟨(congrArg State.mem h2 : s2.mem = s1.mem), strand?_modStrand_same himage (h2 ▸ h1)⟩

/-- A double fault forwards the strand with state 3 (R367). -/
theorem trapStrand_doubles (hdbl : Doubles t c v) (h : s.strand? t.image = some t) (hn : s.NoMember t.member) :
    ∃ u, (s.trapStrand t c v).strand? t.image = some u ∧ u.status = .forwarded ∧ u.fwd = 3 := by
  unfold trapStrand
  extract_lets a d k s1
  have h1 : s1.ListsStrand k t.member := ⟨t.atTrap, strand?_modStrand_same (f := Strand.atTrap) (fun _ => rfl) h, rfl⟩
  have hforward : ∃ u, (s1.doubleFault t c v a).strand? k = some u ∧ u.status = .forwarded ∧ u.fwd = 3 := by
    have hrec := s1.strandRecord_memStep t 2 48 c a v s1.accPa
    unfold doubleFault
    exact forward_spec ((hrec.listsStrand h1).modStrand (f := fun t => t.setCw cPc a) (fun _ => rfl) fun _ => rfl)
      (hn.congr hrec.crews) 3 a
  rcases hdbl with hd | hd
  · rwa [if_pos hd]
  · have hguard : (1 ≤ d && [1, 5, 7, 12, 13, 15].contains c && (t.cw cWtslo).toNat ≤ v.toNat && v.toNat < (t.cw cWtshi).toNat) = true := by
      simpa [d, and_assoc] using hd
    rw [if_pos hguard]
    split <;> exact hforward

/-- A strand in issue traps. -/
theorem OnStrand.trap_eq (h : s.OnStrand t) (c : Nat) (v : Word) : s.trap c v = s.trapStrand t c v := by
  unfold trap
  rw [h.cur]
  simp only [h.strand?]

/-! ### Return -/

theorem strand?_putStrand {u : Strand} (hi : u.image = t.image) :
    (s.putStrand u).strand? t.image = some u := by
  rw [← hi]
  exact kfind_kput ..

theorem leaveSset_of_not_mem (hm : ∀ x, s.crewOf t = some x → t.sid ∉ x.sreg.members) : s.leaveSset t = s := by
  unfold leaveSset
  split
  next x hx => exact if_neg (by simpa using hm x hx)
  · rfl

/-- A strand after retirement, but for its counts. -/
theorem OnStrand.retired_cw (h : s.OnStrand t) : ∃ u, s.retired.OnStrand u ∧ u.image = t.image ∧ ∀ n, u.cw n = t.cw n := by
  obtain ⟨u, hu, heq⟩ := h.retired
  exact ⟨u, hu, by rw [heq], fun n => by rw [heq]; rfl⟩

/-- `sret` puts the strand that returns in the place of the old one (R363). -/
theorem sretStrand_eq (h : s.strand? t.image = some t) (h1 : 1 ≤ t.depth)
    (hm : t.depth = 1 → ∀ x, s.crewOf t = some x → t.sid ∉ x.sreg.members) : s.sretStrand t.image = s.putStrand t.leaveTrap := by
  unfold sretStrand
  simp -zeta only [h]
  extract_lets d i u w s1
  have hs1 : s1 = s.putStrand t.leaveTrap := rfl
  split
  next hd => exact (leaveSset_of_not_mem (s := s1) (hm (Nat.le_antisymm hd h1))).trans hs1
  · exact hs1

end State

end Sys2Proof.Machine

namespace Sys2Proof

open Machine

/-- Settles O46: a trap enters the handler unless it doubles, and then it forwards; at the entry each word is one of those written. -/
theorem trapEntry : Obligations.TrapEntry := by
  unfold Obligations.TrapEntry
  refine ⟨fun s t c v hI h hd hc h8 hvec hout hoff => ?_, fun s t c v h _ _ hm hdbl => ?_⟩
  · rw [h.trap_eq]
    have hdbl : ¬ State.Doubles t c v := by
      rintro (h3 | ⟨h1, hcause, hlo, hhi⟩)
      · omega
      · rcases hout with h0 | hother | hbelow | habove
        · omega
        · exact hother hcause
        · omega
        · omega
    obtain ⟨hmem, hu⟩ := State.trapStrand_enters h.strand? hdbl h8 hvec hoff
    have hw : swf t.atTrap.ctx = true := h.swf hI
    have hbare := Strand.enterTrap_bare t.atTrap c v
    have hcw (n : Nat) (h1 : n ≠ cWstatus) (h2 : n ≠ cCid) := Strand.enterTrap_cw (n := n) hw c v h1 h2
    refine ⟨hmem, _, hu, ?_, ?_, ?_, ?_, ?_, ?_, Strand.enterTrap_depth hw hd c v, ?_, fun h1 => ?_, fun n h1 h2 => ?_⟩
    · rw [← Strand.status_bare, hbare]; exact h.resident
    · rw [← Strand.wait_bare, hbare]; rfl
    · exact Strand.enterTrap_resv ..
    · rw [hcw cSepc (by decide) (by decide), if_neg (by decide), if_neg (by decide), if_neg (by decide), if_pos rfl]
      rfl
    · rw [hcw cScause (by decide) (by decide), if_neg (by decide), if_neg (by decide), if_pos rfl]
    · rw [hcw cStval (by decide) (by decide), if_neg (by decide), if_pos rfl]
    · rw [hcw cPc (by decide) (by decide), if_pos rfl]
      rfl
    · obtain ⟨hsepc, hscause, hstval⟩ := Strand.saveWords_cw hw h1
      have hsave (i : Nat) := Strand.enterTrap_cw_save hw c v (n := Strand.saveAt t.depth + i) (by unfold Strand.saveAt; omega)
      exact ⟨(hsave 0).trans hsepc, (hsave 1).trans hscause, (hsave 2).trans hstval⟩
    · exact Strand.enterTrap_cw_reg hw c v h1 h2
  · rw [h.trap_eq]
    exact State.trapStrand_doubles hdbl h.strand? hm

/-- Settles O47: the strand that returns takes the place of the old one, and only the marks of retirement follow. -/
theorem returnFromTrap : Obligations.ReturnFromTrap := by
  unfold Obligations.ReturnFromTrap
  intro s t hI h h1 hset
  have hmode : t.sMode = true := by simpa [Strand.sMode] using Nat.ne_of_gt h1
  have hbare := Strand.leaveTrap_bare t
  have hi : t.leaveTrap.image = t.image := by rw [← Strand.image_bare, hbare, Strand.image_bare]
  have hst : t.leaveTrap.status = .resident := by rw [← Strand.status_bare, hbare]; exact h.resident
  have hon : (s.putStrand t.leaveTrap).OnStrand t.leaveTrap :=
    State.onStrand_of (k := t.image) h.cur (State.strand?_putStrand hi) hst
  obtain ⟨u, hu, hui, hctx⟩ := hon.retired_cw
  obtain ⟨hpc, hdepth, hsaved, hregs⟩ := Strand.leaveTrap_words (h.swf hI)
  have hstrand := hu.strand?
  rw [hui, hi] at hstrand
  refine ⟨_, u, ?_, ?_, hstrand, ?_⟩
  · simp only [exec, execSret, State.onAny_eq h.runs, h.cur, State.onS_of_sMode h hmode, State.sretStrand_eq h.strand? h1 hset]
  · rw [State.retired_mem]; rfl
  · unfold Strand.depth Strand.cbits
    simp only [hctx]
    exact ⟨hpc, hdepth, hsaved, hregs⟩

end Sys2Proof
end
section
/-! Debug blocks (O58): what a command answers, and what it does to the strand that DBGSEL names (R391 to R397). -/

namespace Sys2Proof.Machine

namespace State

variable {s : State} {t : Strand} {c : Crew} {d cmd : Nat}

/-! ### Commands (Table 14.13) -/

theorem dbgOn_of_none (hb : s.dbgBusy d = false) (h : s.dbgStrand d = none) (need : Strand → Bool) (g : State → Strand → State) :
    s.dbgOn d cmd need g = s.dbgResult d cmd 1 := by
  simp only [dbgOn, hb, h, Bool.false_eq_true, if_false]

theorem dbgOn_of_some (hb : s.dbgBusy d = false) (h : s.dbgStrand d = some t) (need : Strand → Bool) (g : State → Strand → State) :
    s.dbgOn d cmd need g = if need t then g (s.dbgResult d cmd 0) t else s.dbgResult d cmd 2 := by
  simp only [dbgOn, hb, h, Bool.false_eq_true, if_false]

section

variable (hb : s.dbgBusy d = false)

include hb

/-! Where DBGSEL names no strand each command answers 1 (R396). -/

theorem dbgStopOp_of_none (h : s.dbgStrand d = none) : s.dbgStopOp d = s.dbgResult d 1 1 := dbgOn_of_none hb h _ _
theorem dbgStopCrewOp_of_none (h : s.dbgStrand d = none) : s.dbgStopCrewOp d = s.dbgResult d 2 1 := dbgOn_of_none hb h _ _
theorem dbgResumeOp_of_none (h : s.dbgStrand d = none) : s.dbgResumeOp d = s.dbgResult d 3 1 := dbgOn_of_none hb h _ _
theorem dbgResumeCrewOp_of_none (h : s.dbgStrand d = none) : s.dbgResumeCrewOp d = s.dbgResult d 4 1 := dbgOn_of_none hb h _ _
theorem dbgStepOp_of_none (h : s.dbgStrand d = none) : s.dbgStepOp d = s.dbgResult d 5 1 := dbgOn_of_none hb h _ _
theorem dbgAttachOp_of_none (h : s.dbgStrand d = none) : s.dbgAttachOp d = s.dbgResult d 6 1 := dbgOn_of_none hb h _ _
theorem dbgDetachOp_of_none (h : s.dbgStrand d = none) : s.dbgDetachOp d = s.dbgResult d 7 1 := dbgOn_of_none hb h _ _

/-! On a strand (R392, R394). -/

theorem dbgStopOp_of_some (h : s.dbgStrand d = some t) : s.dbgStopOp d = (s.dbgResult d 1 0).dbgStopOne t.image :=
  (dbgOn_of_some hb h _ _).trans (if_pos rfl)
theorem dbgStopCrewOp_of_some (h : s.dbgStrand d = some t) : s.dbgStopCrewOp d =
    ((s.dbgResult d 2 0).crewMates t).foldl (fun s u => s.dbgStopOne u.image) (s.dbgResult d 2 0) :=
  (dbgOn_of_some hb h _ _).trans (if_pos rfl)
theorem dbgResumeCrewOp_of_some (h : s.dbgStrand d = some t) : s.dbgResumeCrewOp d =
    ((s.dbgResult d 4 0).crewMates t).foldl (fun s u => s.dbgResumeOne u.image false) (s.dbgResult d 4 0) :=
  (dbgOn_of_some hb h _ _).trans (if_pos rfl)
theorem dbgAttachOp_of_some (h : s.dbgStrand d = some t) : s.dbgAttachOp d = (s.dbgResult d 6 0).dbgAttachOne t.image 3 :=
  (dbgOn_of_some hb h _ _).trans (if_pos rfl)
theorem dbgDetachOp_of_some (h : s.dbgStrand d = some t) : s.dbgDetachOp d =
    ((s.dbgResult d 7 0).dbgAttachOne t.image 0).dbgResumeOne t.image false :=
  (dbgOn_of_some hb h _ _).trans (if_pos rfl)
theorem dbgResumeOp_of_stopped (h : s.dbgStrand d = some t) (hst : t.stopped = true) : s.dbgResumeOp d =
    (s.dbgResult d 3 0).dbgResumeOne t.image false := (dbgOn_of_some hb h _ _).trans (if_pos hst)
theorem dbgStepOp_of_stopped (h : s.dbgStrand d = some t) (hst : t.stopped = true) : s.dbgStepOp d =
    (s.dbgResult d 5 0).dbgResumeOne t.image true := (dbgOn_of_some hb h _ _).trans (if_pos hst)

/-! One that is not stopped neither resumes nor steps: result 2 (R394). -/

theorem dbgResumeOp_of_running (h : s.dbgStrand d = some t) (hst : t.stopped = false) : s.dbgResumeOp d = s.dbgResult d 3 2 :=
  (dbgOn_of_some hb h _ _).trans (if_neg (by simp [hst]))
theorem dbgStepOp_of_running (h : s.dbgStrand d = some t) (hst : t.stopped = false) : s.dbgStepOp d = s.dbgResult d 5 2 :=
  (dbgOn_of_some hb h _ _).trans (if_neg (by simp [hst]))

end

/-! ### Stops (R393) -/

/-- A pending stop takes a strand that waits for nothing. -/
theorem stopDue_of_idle {k : Nat} (h : s.strand? k = some t) (hr : t.status = .resident) (hp : t.pendStop ≠ 0) (hst : t.stopped = false)
    (hc : s.crewOf t = some c) (hpre : c.pre = 0) (hw : t.wait = .none) : s.stopDue k = s.debugStopOp k t.pendStop := by
  simp [stopDue, h, hr, hp, hst, hc, hpre, hw]

/-! ### Data (R395, R396) -/

/-- An access that nothing waits in front of is performed at once, on the strand that DBGSEL names. -/
theorem dbgAccess_of_idle (hq : s.dbgq.find? (fun e => e.die = d) = none) (wr : Option Word) {s' : State} {v : Word}
    (h : s.dbgDataOp d (s.reg (dbg d 0x08)) wr = some (s', v)) : s.dbgAccess d none wr = (s', some v) := by
  have hmine : s.dbgq.find? (fun e => e.die = d && e.by' = none && (none : Option Nat) ≠ none) = none := by simp
  unfold dbgAccess
  simp only [hmine, hq, h, if_true]

/-- DBGADDR names stage doubleword `a` of a crew that is not saved. -/
structure DbgStage (s : State) (d : Nat) (t : Strand) (c : Crew) (a : Nat) : Prop where
  idle : s.dbgBusy d = false
  strand : s.dbgStrand d = some t
  crew : s.crewOf t = some c
  addr : wbits (s.reg (dbg d 0x20)) 23 0 = a
  kind : wbits (s.reg (dbg d 0x20)) 63 62 = 0
  aligned : a % 8 = 0
  within : c.stageIn a 8 = true
  placed : c.pre < 2

theorem DbgStage.write {a : Nat} (h : s.DbgStage d t c a) (v : Word) :
    s.dbgData d (s.reg (dbg d 0x08)) (some v) = some (s.stageWrite c.id a v.toNat 8, 0, v) := by
  have hsel : s.dbgStrandAt d (s.reg (dbg d 0x08)) = some t := h.strand
  simp [dbgData, h.idle, hsel, h.crew, h.addr, h.kind, h.aligned, h.within, Nat.not_le.2 h.placed]

theorem DbgStage.read {a : Nat} (h : s.DbgStage d t c a) (hgood : c.stageBad a 8 = false) :
    s.dbgData d (s.reg (dbg d 0x08)) none = some (s, 0, w64 (c.stageGet a 8)) := by
  have hsel : s.dbgStrandAt d (s.reg (dbg d 0x08)) = some t := h.strand
  simp [dbgData, h.idle, hsel, h.crew, h.addr, h.kind, h.aligned, h.within, Nat.not_le.2 h.placed, hgood]

/-! ### DBGHALT (R397) -/

theorem podAt_modPod_of_ne {q r : Nat} (h : r ≠ q) (f : PodState → PodState) : (s.modPod q f).podAt r = s.podAt r := by
  unfold podAt modPod
  rw [lmod_getD, if_neg fun e => h e.1.symm]

theorem podHalt_mem (s : State) (q : Nat) (b : Bool) : (s.podHalt q b).mem = s.mem := by
  unfold podHalt
  split <;> rfl

theorem podHalt_pods (s : State) (q : Nat) (b : Bool) : (s.podHalt q b).pods.length = s.pods.length := by
  unfold podHalt
  split
  · rfl
  · exact lmod_length ..

theorem podHalt_halted {q : Nat} (hq : q < s.pods.length) (b : Bool) : ((s.podHalt q b).podAt q).halted = b := by
  unfold podHalt
  split
  · assumption
  · exact congrArg PodState.halted (podAt_modPod hq fun x => { x with halted := b })

theorem podHalt_halted_of_ne {q r : Nat} (h : r ≠ q) (b : Bool) : ((s.podHalt q b).podAt r).halted = (s.podAt r).halted := by
  unfold podHalt
  split
  · rfl
  · exact congrArg PodState.halted (podAt_modPod_of_ne h fun x => { x with halted := b })

/-- Of the pods that a write names each halts or goes on as its bit says; every other pod stays. -/
theorem podHalts_halted (v : Word) (n : Nat) (s : State) (a p : Nat) (hp : 12 * d + p < s.pods.length) :
    (((upto a n).foldl (fun s p => s.podHalt (12 * d + p) (wbit v p)) s).podAt (12 * d + p)).halted =
      if a ≤ p ∧ p < a + n then wbit v p else (s.podAt (12 * d + p)).halted := by
  induction n generalizing s a with
  | zero => rw [if_neg (by omega)]; rfl
  | succ n ih =>
    refine (ih (s.podHalt (12 * d + a) (wbit v a)) (a + 1) ((podHalt_pods ..).symm ▸ hp)).trans ?_
    by_cases ha : p = a
    · rw [if_neg (by omega), if_pos (by omega), ha, podHalt_halted (ha ▸ hp)]
    · rw [podHalt_halted_of_ne (by omega)]
      exact if_congr (by omega) rfl rfl

theorem dbgHaltOp_mem (s : State) (d : Nat) (v : Word) : (s.dbgHaltOp d v).mem = s.mem :=
  foldl_keeps (p := State.mem) (fun s p => s.podHalt_mem (12 * d + p) (wbit v p)) _ _

theorem dbgHaltOp_halted (v : Word) {p : Nat} (hp : p < 12) (hlen : 12 * d + p < s.pods.length) :
    ((s.dbgHaltOp d v).podAt (12 * d + p)).halted = wbit v p := by
  have hbits := podHalts_halted v 12 (s.setReg (dbg d 0) (w64 (wbits v 11 0))) 0 p hlen
  rwa [if_pos (by omega)] at hbits

end State

/-! ### The steps of a debug block -/

section

variable {s : State} {t : Strand} {c : Crew} {d : Nat}

theorem exec_dbgUnassigned (hb : s.dbgBusy d = false) {cmd : BitVec 4} (hc : cmd = 0 ∨ 8 ≤ cmd.toNat) :
    exec (.dbgUnassigned d cmd) s = .next (s.dbgResult d cmd.toNat 3) := by
  have hrange : ¬ (1 ≤ cmd.toNat ∧ cmd.toNat ≤ 7) := by
    rcases hc with rfl | hc
    · decide
    · omega
  simp [exec, execDbgUnassigned, State.dbgUnassignedOp, hb, hrange]

theorem exec_dbgdataRead {a : Nat} (hq : s.dbgq.find? (fun e => e.die = d) = none) (h : s.DbgStage d t c a)
    (hgood : c.stageBad a 8 = false) : exec (.dbgdataRead d) s =
      .next ((s.setReg (State.dbg d 0x28) (w64 (c.stageGet a 8))).setReg (State.dbg d 0x30) 0) := by
  have hop : s.dbgDataOp d (s.reg (State.dbg d 0x08)) none = some _ := congrArg (Option.map _) (h.read hgood)
  exact congrArg (fun r => Host.Outcome.next r.1) (State.dbgAccess_of_idle hq none hop)

theorem exec_dbgdataWrite {a : Nat} (hq : s.dbgq.find? (fun e => e.die = d) = none) (h : s.DbgStage d t c a) (v : Word) :
    exec (.dbgdataWrite d v) s =
      .next (((s.stageWrite c.id a v.toNat 8).setReg (State.dbg d 0x28) v).setReg (State.dbg d 0x30) 0) := by
  have hop : s.dbgDataOp d (s.reg (State.dbg d 0x08)) (some v) = some _ := congrArg (Option.map _) (h.write v)
  exact congrArg (fun r => Host.Outcome.next r.1) (State.dbgAccess_of_idle hq (some v) hop)

end

end Sys2Proof.Machine

namespace Sys2Proof

open Machine

/-- Settles O58: each command is decided by DBGSEL and by what it needs of the strand; the data access and the halt by their operands. -/
theorem debugCommands : Obligations.DebugCommands := by
  unfold Obligations.DebugCommands
  refine ⟨fun s d hb => ⟨fun h => ?_, fun cmd hc => exec_dbgUnassigned hb hc, fun t h => ?_⟩, fun s d => ⟨?_, ?_, ?_⟩⟩
  · exact ⟨congrArg Host.Outcome.next (State.dbgStopOp_of_none hb h), congrArg Host.Outcome.next (State.dbgStopCrewOp_of_none hb h),
      congrArg Host.Outcome.next (State.dbgResumeOp_of_none hb h), congrArg Host.Outcome.next (State.dbgResumeCrewOp_of_none hb h),
      congrArg Host.Outcome.next (State.dbgStepOp_of_none hb h), congrArg Host.Outcome.next (State.dbgAttachOp_of_none hb h),
      congrArg Host.Outcome.next (State.dbgDetachOp_of_none hb h)⟩
  · exact ⟨congrArg Host.Outcome.next (State.dbgStopOp_of_some hb h), congrArg Host.Outcome.next (State.dbgStopCrewOp_of_some hb h),
      fun hst => ⟨congrArg Host.Outcome.next (State.dbgResumeOp_of_running hb h hst),
        congrArg Host.Outcome.next (State.dbgStepOp_of_running hb h hst)⟩,
      fun hst => ⟨congrArg Host.Outcome.next (State.dbgResumeOp_of_stopped hb h hst),
        congrArg Host.Outcome.next (State.dbgStepOp_of_stopped hb h hst)⟩,
      congrArg Host.Outcome.next (State.dbgResumeCrewOp_of_some hb h), congrArg Host.Outcome.next (State.dbgAttachOp_of_some hb h),
      congrArg Host.Outcome.next (State.dbgDetachOp_of_some hb h)⟩
  · exact fun k t c h hr hp hst hc hpre hw => congrArg Host.Outcome.next (State.stopDue_of_idle h hr hp hst hc hpre hw)
  · intro t c hb hq h hc a hkind hal hin hpre
    have hstage : s.DbgStage d t c a := ⟨hb, h, hc, rfl, hkind, hal, hin, hpre⟩
    exact ⟨fun hgood => exec_dbgdataRead hq hstage hgood, fun v => exec_dbgdataWrite hq hstage v⟩
  · exact fun v p hp hlen => ⟨s.dbgHaltOp d v, rfl, State.dbgHaltOp_halted v hp hlen, State.dbgHaltOp_mem s d v⟩

end Sys2Proof
end
section
/-! Zones (O57): which operations leave the zones as they are, and the state that a step gives its zone (R410 to R414). -/

namespace Sys2Proof.Machine

namespace State

variable {s s' : State} {z : Nat}

/-! ### Operations that leave every zone as it is -/

theorem MemStep.zones (h : s.MemStep s') : s'.zones = s.zones := by rw [h.only]

theorem zoneAt_congr (h : s'.zones = s.zones) (z : Nat) : s'.zoneAt z = s.zoneAt z := by unfold zoneAt; rw [h]

theorem setPass_zones (s : State) (q n : Nat) : (s.setPass q n).zones = s.zones := by
  unfold setPass
  split <;> rfl

theorem withdrawPod_zones (s : State) (q cause grace : Nat) : (s.withdrawPod q cause grace).zones = s.zones :=
  foldl_keeps (p := State.zones) (f := fun s c => s.withdraw c cause grace) (fun _ _ => rfl) _ s

theorem evacuate_zones (s : State) (z : Nat) : (s.evacuate z).zones = s.zones := by
  unfold evacuate
  split
  · extract_lets s1
    have h1 : s1.zones = s.zones := by
      unfold s1
      split <;> rfl
    refine (withdrawPod_zones ..).trans ?_
    exact (setPass_zones s1 z 2).trans h1
  · rfl

theorem flushPod_memStep (s : State) (q : Nat) : s.MemStep (s.flushPod q) := by
  have hline (s : State) (e : Nat × Nat) : s.MemStep (s.writeLine e.1 true e.2) := s.writeLine_memStep ..
  have hcore (s : State) (n : Nat) := MemStep.foldl hline (s.evictable n) s
  exact .foldl hcore _ s

/-- The W-cores of a pod are gated (R414 step 2). -/
theorem gatePod_zones (s : State) (z : Nat) :
    ((upto (4 * z) 4).foldl (fun s n => (s.ncPoint n).modCore n fun c => { c with powered := false }) (s.flushPod z)).zones = s.zones :=
  (foldl_keeps (p := State.zones) (f := fun s n => (s.ncPoint n).modCore n fun c => { c with powered := false }) (fun _ _ => rfl) _ _).trans
    (s.flushPod_memStep z).zones

/-! ### The zone of a step -/

section

variable (hz : z < s.zones.length)

include hz

theorem zoneSet_state (f : ZoneState → ZoneState) : ((s.zoneSet z f).zoneAt z).state = (f (s.zoneAt z)).state := by
  unfold zoneSet
  rw [zoneAt_modZone hz]

theorem zoneSet_purge (f : ZoneState → ZoneState) : ((s.zoneSet z f).zoneAt z).purge = (f (s.zoneAt z)).purge := by
  unfold zoneSet
  rw [zoneAt_modZone hz]

theorem zoneSet_purgeAt (f : ZoneState → ZoneState) : ((s.zoneSet z f).zoneAt z).purgeAt = (f (s.zoneAt z)).purgeAt := by
  unfold zoneSet
  rw [zoneAt_modZone hz]

/-- A measurement changes no state. -/
theorem senseZone_state (temp flow : Nat) : ((s.senseZone z temp flow).zoneAt z).state = (s.zoneAt z).state := zoneSet_state hz _

/-- A zone that goes back is in state 0 (R414). -/
theorem zoneBack_state : ((s.zoneBack z).zoneAt z).state = 0 := by
  have hset := zoneSet_state hz fun x => { x with state := 0, purge := 0, gated := false }
  unfold zoneBack
  extract_lets s1 s2
  split
  · have h2 : s2.zones = s1.zones := setPass_zones ..
    have h3 : ((upto (4 * z) 4).foldl (fun s n => s.modCore n fun c => { c with powered := true }) s2).zones = s2.zones :=
      foldl_keeps (p := State.zones) (f := fun s n => s.modCore n fun c => { c with powered := true }) (fun _ _ => rfl) _ s2
    rw [zoneAt_congr (h3.trans h2)]
    exact hset
  · exact hset

end

theorem zoneSet_zones (s : State) (z : Nat) (f : ZoneState → ZoneState) : (s.zoneSet z f).zones.length = s.zones.length := lmod_length ..

/-! ### The changes of Table 15.4 -/

/-- Once every crew of the pod is saved, state 3 goes to state 4 (R414 step 2). -/
theorem exec_evacuationSavesDone (hz : z < s.zones.length) (hst : (s.zoneAt z).state = 3) (hc : s.podCrews z = []) :
    ∃ s' : State, exec (.evacuationSavesDone z) s = .next s' ∧ (s'.zoneAt z).state = 4 := by
  refine ⟨_, congrArg Host.Outcome.next (if_pos (by simp [hst, hc])), ?_⟩
  extract_lets s1
  have h1 : s1.zones = s.zones := by
    unfold s1
    split
    · exact gatePod_zones ..
    · rfl
  have hx : (s1.zoneAt z).state = 3 := (congrArg ZoneState.state (zoneAt_congr h1 z)).trans hst
  rw [zoneSet_state (h1 ▸ hz), if_pos hx]

end State

end Sys2Proof.Machine

namespace Sys2Proof

open Machine

/-- Settles O57: where the condition of a change holds the zone takes the new state, and what else the step does changes no zone. -/
theorem zoneSteps : Obligations.ZoneSteps := by
  unfold Obligations.ZoneSteps
  intro s z flow temp hn hlen
  have hz : z < s.zones.length := hlen ▸ hn
  have hf : z < (s.senseFlow z flow.toNat).zones.length := (s.zoneSet_zones ..).symm ▸ hz
  have hh : z < (s.senseTemp z temp.toNat).zones.length := (s.zoneSet_zones ..).symm ▸ hz
  dsimp only
  refine ⟨fun he => ?_, fun he => ?_, fun h1 h2 h3 h4 => ?_, fun he => ?_, fun he => ?_, fun h1 h2 h3 h4 => ?_, fun v he => ?_, fun he => ?_,
    State.exec_evacuationSavesDone hz, fun h1 h2 h3 h4 => ?_, fun h1 h2 => ?_, fun h1 h2 h3 => ?_,
    fun h1 h2 h3 => ⟨fun h4 h5 => ?_, fun h4 => ?_⟩⟩
  · exact ⟨_, congrArg Host.Outcome.next (if_pos he), State.zoneSet_state hf _⟩
  · exact ⟨_, congrArg Host.Outcome.next (if_neg (by simp [he])), State.senseZone_state hz ..⟩
  · exact ⟨_, congrArg Host.Outcome.next (if_pos (by simp [h1, h2, h3, h4])), State.zoneSet_state hf _⟩
  · exact ⟨_, congrArg Host.Outcome.next (if_pos he), State.zoneSet_state hh _⟩
  · exact ⟨_, congrArg Host.Outcome.next (if_neg (by simp [he])), State.senseZone_state hz ..⟩
  · exact ⟨_, congrArg Host.Outcome.next (if_pos (by simp [h1, h2, h3, h4])), State.zoneSet_state hh _⟩
  · refine ⟨_, congrArg Host.Outcome.next (if_pos he), ?_⟩
    rw [State.zoneAt_congr (State.evacuate_zones ..)]
    exact State.zoneSet_state hf _
  · refine ⟨_, congrArg Host.Outcome.next (if_pos he), ?_⟩
    rw [State.zoneAt_congr (State.evacuate_zones ..)]
    exact State.zoneSet_state hh _
  · exact ⟨_, congrArg Host.Outcome.next (if_pos (by simp [h1, h2, h3, h4])), State.zoneBack_state hh⟩
  · exact ⟨_, congrArg Host.Outcome.next (if_pos (by simp [h1, h2])), State.zoneSet_purge hz _, State.zoneSet_purgeAt hz _⟩
  · exact ⟨_, congrArg Host.Outcome.next (if_pos (by simp [h1, h2, h3])), State.zoneSet_purge hz _⟩
  · exact ⟨_, congrArg Host.Outcome.next ((if_pos (by simp [h1, h2, h3])).trans (if_pos (by simp [h4, h5]))), State.zoneBack_state hf⟩
  · exact ⟨_, congrArg Host.Outcome.next ((if_pos (by simp [h1, h2, h3])).trans (if_neg (by simp [h4]))), State.zoneSet_state hf _⟩

end Sys2Proof
end
section
/-! Bring-up (O59): the RDY and FAIL bits, the steps of Table 16.5, and what each function's step leaves (R421 to R428). -/

namespace Sys2Proof.Machine

/-- A bit that is set. -/
theorem wbit_or_pow (a : Word) {f : Nat} (hf : f < 64) : wbit (a ||| w64 (2 ^ f)) f = true := by
  have hbit : (w64 (2 ^ f)).getLsbD f = true := by
    rw [w64, BitVec.getLsbD_ofNat, Nat.testBit_two_pow_self, decide_eq_true hf, Bool.and_self]
  rw [wbit, BitVec.getLsbD_or, hbit, Bool.or_true]

/-- A key that no entry has reads zero. -/
theorem sget_of_absent {w : Nat} {m : Sparse w} {k : Nat} (h : ∀ e ∈ m, e.1 ≠ k) : sget m k = 0 := by
  induction m with
  | nil => rfl
  | cons e m ih =>
    obtain ⟨n, v⟩ := e
    have hne : k ≠ n := fun e => h (n, v) List.mem_cons_self e.symm
    unfold sget
    rw [if_neg hne, ih fun e he => h e (List.mem_cons_of_mem _ he), ite_self]

theorem sget_sclear {w : Nat} (m : Sparse w) {lo n k : Nat} (h1 : lo ≤ k) (h2 : k < lo + n) : sget (sclear m lo n) k = 0 := by
  refine sget_of_absent fun e he hk => ?_
  have := (List.mem_filter.1 he).2
  simp at this
  omega

namespace State

variable {s : State} {f n : Nat}

/-! ### Registers -/

theorem reg_setReg_same (hI : s.Inv) (p : Nat) (v : Word) : (s.setReg p v).reg p = v := sget_sset_same (mmio_swf hI)

theorem reg_setReg_ne (hI : s.Inv) {p q : Nat} (h : q ≠ p) (v : Word) : (s.setReg p v).reg q = s.reg q := sget_sset_ne (mmio_swf hI) h

/-! ### RDY and FAIL (R423) -/

theorem bring_mem (s : State) (f : Nat) (ok : Bool) : (s.bring f ok).mem = s.mem := by
  unfold bring
  split <;> rfl

/-- A function comes up, or fails, once. -/
theorem bring_outcome (hI : s.Inv) (hf : f < 64) (hr : s.ready f = false) (hfl : s.failed f = false) (ok : Bool) :
    (s.bring f ok).ready f = ok ∧ (s.bring f ok).failed f = !ok := by
  unfold bring
  rw [if_neg (by simp [hr, hfl])]
  cases ok with
  | true =>
    refine ⟨?_, ?_⟩
    · rw [ready, if_pos rfl, reg_setReg_same hI]
      exact wbit_or_pow _ hf
    · rw [failed, if_pos rfl, reg_setReg_ne hI (by decide)]
      exact hfl
  | false =>
    refine ⟨?_, ?_⟩
    · rw [ready, if_neg Bool.false_ne_true, reg_setReg_ne hI (by decide)]
      exact hr
    · rw [failed, if_neg Bool.false_ne_true, reg_setReg_same hI]
      exact wbit_or_pow _ hf

theorem bringUp_of_input {ok : Bool} (h : kfind (·.1) s.pkg.units f = some (f, some ok)) : s.bringUp f = s.bring f ok := by
  simp only [bringUp, h]

theorem bringUp_of_none (h : kfind (·.1) s.pkg.units f = none) : s.bringUp f = s.bring f true := by
  simp only [bringUp, h]

/-! ### Steps of Table 16.5 -/

theorem stepSet_stepIs (s : State) (n : Nat) : (s.stepSet n).stepIs n = true := by
  unfold stepSet stepIs modPkg
  dsimp only
  rw [decide_eq_true_eq]
  split
  · assumption
  · rw [Nat.add_div_right _ (Nat.two_pow_pos n)]
    omega

/-- The steps keep memory, power and the widths of the ports. -/
theorem stepSet_pkg (s : State) (n : Nat) : (s.stepSet n).mem = s.mem ∧ (s.stepSet n).mmio = s.mmio ∧
    (s.stepSet n).pkg.powered = s.pkg.powered ∧ (s.stepSet n).pkg.portSplit = s.pkg.portSplit := by
  refine ⟨rfl, rfl, ?_, ?_⟩ <;> (unfold stepSet modPkg; dsimp only; split <;> rfl)

end State

section

variable {s : State} {f : Nat}

/-! ### Power good, memory, the package number -/

/-- Power good runs Selmel's firmware, once an accepted copy of it is there (R421). -/
theorem exec_powerGood {b : Image} {x : Bool} (hp : s.pkg.powered = false) (ha : accepted s.pkg 1 = some (b, x)) :
    ∃ s' : State, exec .powerGood s = .next s' ∧ s'.stepIs 1 = true ∧ s'.mem = s.mem ∧ s'.pkg.powered = true := by
  have haccepted : accepted (s.modPkg fun p => { p with powered := true }).pkg 1 = some (b, x) := ha
  refine ⟨(((s.modPkg fun p => { p with powered := true }).runImage 1 b x).stepSet 1), ?_, State.stepSet_stepIs .., rfl, ?_⟩
  · simp only [exec, execPowerGood, hp, haccepted, Bool.false_eq_true, if_false]
  · exact (State.stepSet_pkg ..).2.2.1

theorem exec_memoryReady (h6 : 6 ≤ f) (h29 : f ≤ 29) (h2 : s.stepIs 2 = true) (hr : s.ready f = false) (hfl : s.failed f = false)
    (hI : s.Inv) : ∃ s' : State, exec (.memoryReady f) s = .next s' ∧ s'.ready f = true ∧
      (∀ a, (if f < 14 then (f - 6) * 0xC00000000 else 0x010000000000 + (f - 14) * 0xC00000000) ≤ a →
        a < (if f < 14 then (f - 6) * 0xC00000000 else 0x010000000000 + (f - 14) * 0xC00000000) + 0xC00000000 →
        sget s'.mem a = 0) := by
  have hmod : f % 64 = f := Nat.mod_eq_of_lt (by omega)
  have hlt : f < 64 := by omega
  generalize hlo : (if f < 14 then (f - 6) * 0xC00000000 else 0x010000000000 + (f - 14) * 0xC00000000) = lo
  refine ⟨{ s.bring f true with
    mem := sclear s.mem lo 0xC00000000
    poison := s.poison.filter fun l => !(lo ≤ 64 * l && 64 * l < lo + 0xC00000000) }, ?_, (State.bring_outcome hI hlt hr hfl true).1,
    fun a ha hb => sget_sclear _ ha hb⟩
  simp only [exec, execMemoryReady, hmod, hlo, h2, h6, h29, hr, hfl, hlt, decide_true, Bool.and_self, Bool.or_self, Bool.false_eq_true,
    if_true, if_false]

/-- The package number is given once, with the widths of the PCIe ports (R421, R423). -/
theorem exec_bootPkgnum (n : BitVec 8) (h1 : s.stepIs 1 = true) (h3 : s.stepIs 3 = false) (hI : s.Inv) :
    ∃ s' : State, exec (.bootPkgnum n) s = .next s' ∧ s'.pkgNum = n.toNat ∧ s'.present n.toNat = true ∧ s'.stepIs 3 = true ∧
      s'.pkg.portSplit = s.pkg.portConfig ∧ s'.mem = s.mem := by
  have hn : n.toNat < 256 := n.isLt
  generalize hs1 : s.setReg (linkBase + 8 * (s.pkgNum / 64))
    (s.reg (linkBase + 8 * (s.pkgNum / 64)) &&& ~~~(w64 (2 ^ (s.pkgNum % 64)))) = s1
  generalize hs2 : s1.setReg (bootBase + 0x10) (w64 n.toNat) = s2
  have hI1 : s1.Inv := hs1 ▸ State.setReg_inv hI
  have hI2 : s2.Inv := hs2 ▸ State.setReg_inv hI1
  have hhere : s2.peerHere n.toNat = s2.setReg (linkBase + 8 * (n.toNat / 64))
      (s2.reg (linkBase + 8 * (n.toNat / 64)) ||| w64 (2 ^ (n.toNat % 64))) := if_pos hn
  refine ⟨((s2.peerHere n.toNat).modPkg fun p => { p with portSplit := p.portConfig }).stepSet 3, ?_, ?_, ?_, State.stepSet_stepIs .., ?_, ?_⟩
  · subst hs1 hs2
    simp only [exec, execBootPkgnum, h1, h3, Bool.not_false, Bool.and_self, if_true]
  · have hnum : (s2.setReg (linkBase + 8 * (n.toNat / 64))
        (s2.reg (linkBase + 8 * (n.toNat / 64)) ||| w64 (2 ^ (n.toNat % 64)))).reg (bootBase + 0x10) = w64 n.toNat := by
      rw [State.reg_setReg_ne hI2 (by unfold bootBase linkBase; omega), ← hs2, State.reg_setReg_same hI1]
    have hbyte : wbits (w64 n.toNat) 7 0 = n.toNat := by
      unfold wbits bits w64
      rw [BitVec.toNat_ofNat]
      omega
    rw [hhere]
    exact (congrArg (wbits · 7 0) hnum).trans hbyte
  · rw [hhere]
    exact (congrArg (wbit · (n.toNat % 64)) (State.reg_setReg_same hI2 ..)).trans (wbit_or_pow _ (Nat.mod_lt _ (by decide)))
  · rw [(State.stepSet_pkg ..).2.2.2, hhere]
    subst hs1 hs2
    rfl
  · rw [hhere]
    subst hs1 hs2
    rfl

/-! ### L-cores, W-dies, ports, the collective engine, the management port -/

/-- The L-core image is written where it loads, and the L-dies are released (R425). -/
theorem exec_bootLCoreImage {b : Image} {x : Bool} (h1 : s.stepIs 1 = true) (h4 : s.stepIs 4 = false)
    (ha : accepted s.pkg 2 = some (b, x)) (hl : s.loadReady b.load b.len = true) : exec .bootLCoreImage s =
      .next (((({ s with mem := byteListSet s.mem b.load b.payload }.runImage 2 b x).bringUp 4).bringUp 5).stepSet 4) := by
  simp only [exec, execBootLCoreImage, h1, h4, ha, hl, Bool.not_true, Bool.false_eq_true, if_false, if_true]

theorem exec_bootLCoreImage_of_none (h1 : s.stepIs 1 = true) (h4 : s.stepIs 4 = false) (ha : accepted s.pkg 2 = none) :
    exec .bootLCoreImage s = .next ((s.bring 4 false).bring 5 false) := by
  simp only [exec, execBootLCoreImage, h1, h4, ha, Bool.not_true, Bool.false_eq_true, if_false]

theorem exec_bootLCoreImage_again (h1 : s.stepIs 1 = true) (h4 : s.stepIs 4 = true) :
    exec .bootLCoreImage s = .next ((s.bringUp 4).bringUp 5) := by
  simp only [exec, execBootLCoreImage, h1, h4, Bool.not_true, Bool.false_eq_true, if_false, if_true]

/-- An L-core starts in M-mode with its number and the address of the bring-up block (R424). -/
theorem exec_lCoreStart {k : Nat} (hk : k < s.lcores.length) (hn : k < Config.numLCores) (hr : s.ready (4 + k / 16) = true)
    (hrun : (s.lcoreAt k).running = false) (hI : s.Inv) : ∃ s' : State, exec (.lCoreStart k) s = .next s' ∧ s'.mem = s.mem ∧
      (s'.lcoreAt k).running = true ∧ (s'.lcoreAt k).mode = .m ∧ sget (s'.lcoreAt k).ctx 10 = w64 k ∧
      sget (s'.lcoreAt k).ctx 11 = w64 bootBase := by
  have hw : swf (sset (sset (s.lcoreAt k).ctx cPc (w64 (s.pkg.running.getD 1 {}).entry &&& ~~~1)) 10 (w64 k)) = true :=
    sset_swf (sset_swf (lcoreAt_swf hI).1)
  refine ⟨_, congrArg Host.Outcome.next (if_pos (by simp [hr, hn, hrun])), rfl, ?_⟩
  rw [State.lcoreAt_modLcore, if_pos hk]
  refine ⟨rfl, rfl, ?_, sget_sset_same hw⟩
  exact (sget_sset_ne hw (by decide)).trans (sget_sset_same (sset_swf (lcoreAt_swf hI).1))

/-- A W-die whose memory is up runs its microcode and comes up (R421). -/
theorem exec_bootWDieMicrocode {d : Nat} {b : Image} {x : Bool} (hd : d < 4) (h1 : s.stepIs 1 = true) (hm1 : s.ready (6 + 2 * d) = true)
    (hm2 : s.ready (7 + 2 * d) = true) (hr : s.ready d = false) (hfl : s.failed d = false) (ha : accepted s.pkg 3 = some (b, x)) :
    ∃ s' : State, exec (.bootWDieMicrocode d) s = .next ((s'.runImage 3 b x).bring d true) ∧ s'.mem = s.mem := by
  have hnot : ¬ 64 ≤ d := by omega
  refine ⟨({ s with mmio := sclear s.mmio (dieReg dispBase d 0) 0x68 }.setReg (dieReg dispBase d 0x18) 7).setReg
    (dieReg dispBase d 0x28) 4, ?_, rfl⟩
  simp only [exec, execBootWDieMicrocode, h1, hnot, Nat.not_le.2 hd, hm1, hm2, hr, hfl, ha, decide_false, Bool.and_false, Bool.false_and,
    Bool.not_true, Bool.or_self, Bool.false_eq_true, if_false]

/-- A port that has trained is ready and shows in the link block's register (R421). -/
theorem exec_portTrained (h30 : 30 ≤ f) (h42 : f < 42) (h2 : s.stepIs 2 = true) (hr : s.ready f = false) (hfl : s.failed f = false)
    (hI : s.Inv) : ∃ s' : State, exec (.portTrained f) s = .next s' ∧ s'.ready f = true ∧
      wbit (s'.reg (linkBase + 0x20)) (f - 30) = true ∧ s'.mem = s.mem := by
  have hmod : f % 64 = f := Nat.mod_eq_of_lt (by omega)
  have hlt : f < 64 := by omega
  have hle : f ≤ 43 := by omega
  have hIb : (s.bring f true).Inv := State.bring_inv hI
  refine ⟨(s.bring f true).setReg (linkBase + 0x20) ((s.bring f true).reg (linkBase + 0x20) ||| w64 (2 ^ (f - 30))), ?_, ?_, ?_, ?_⟩
  · simp only [exec, execPortTrained, hmod, h2, h30, hle, hlt, h42, hfl, decide_true, Bool.and_self, Bool.not_false, if_true]
  · exact (congrArg (wbit · f) (State.reg_setReg_ne hIb (by decide) _)).trans (State.bring_outcome hI hlt hr hfl true).1
  · rw [State.reg_setReg_same hIb]
    exact wbit_or_pow _ (by omega)
  · exact s.bring_mem f true

theorem exec_managementPortReady (h1 : s.stepIs 1 = true) (hr : s.ready 45 = false) (hfl : s.failed 45 = false) :
    exec .managementPortReady s =
      .next (if (s.bringUp 45).ready 45 then (s.bringUp 45).setPtp s.ptpOffset 1 else s.bringUp 45) := by
  simp only [exec, execManagementPortReady, h1, hr, hfl, Bool.not_false, Bool.and_self, if_true]

end

end Sys2Proof.Machine

namespace Sys2Proof

open Machine

/-- Settles O59: each step does what its rule says once what it needs is there, and RDY or FAIL is set once. -/
theorem bringUp : Obligations.BringUp := by
  unfold Obligations.BringUp
  intro s
  refine ⟨fun b x hp ha => exec_powerGood hp ha, fun hp => congrArg Host.Outcome.next (if_pos hp),
    fun h1 => ⟨_, congrArg Host.Outcome.next (if_pos h1), State.stepSet_stepIs s 2, rfl⟩,
    fun h1 => congrArg Host.Outcome.next (if_neg (by simp [h1])),
    fun f h6 h29 h2 hr hfl hI => exec_memoryReady h6 h29 h2 hr hfl hI, fun n h1 h3 hI => exec_bootPkgnum n h1 h3 hI,
    fun h1 => ⟨fun h4 => exec_bootLCoreImage_again h1 h4, fun h4 ha => exec_bootLCoreImage_of_none h1 h4 ha,
      fun b x h4 ha hl => exec_bootLCoreImage h1 h4 ha hl⟩,
    fun k hk hn hr hrun hI => exec_lCoreStart hk hn hr hrun hI,
    fun d b x hd h1 hm1 hm2 hr hfl ha => exec_bootWDieMicrocode hd h1 hm1 hm2 hr hfl ha,
    fun f h30 h42 h2 hr hfl hI => exec_portTrained h30 h42 h2 hr hfl hI,
    fun h4 h5 => congrArg Host.Outcome.next (if_pos (by rw [h4, h5]; rfl)),
    fun h1 hr hfl => ⟨fun h => (exec_managementPortReady h1 hr hfl).trans (congrArg Host.Outcome.next (if_pos h)),
      fun h => (exec_managementPortReady h1 hr hfl).trans (congrArg Host.Outcome.next (if_neg (by simp [h])))⟩,
    fun f hf hr hfl hI => ⟨fun ok hu => ?_, fun hu => ?_⟩⟩
  all_goals have hlt : f < 64 := by simp only [List.mem_cons, List.not_mem_nil, or_false] at hf; omega
  · rw [State.bringUp_of_input hu]
    obtain ⟨hready, hfailed⟩ := State.bring_outcome hI hlt hr hfl ok
    exact ⟨hready, hfailed, s.bring_mem f ok⟩
  · rw [State.bringUp_of_none hu]
    exact ⟨(State.bring_outcome hI hlt hr hfl true).1, s.bring_mem f true⟩

end Sys2Proof
end
section
/-! Management and time (O60): images, versions, evidence, and the offset of `time` (R428, R429, R433, R435). -/

namespace Sys2Proof.Machine

namespace State

variable {s : State} {n : Nat}

/-! ### PTPST (R435) -/

theorem setPtp_ptpState (hw : swf s.mmio = true) (o : BitVec 32) (h : n < 4) : (s.setPtp o n).ptpState = n := by
  have hreg : (s.setPtp o n).reg (bootBase + 0x38) = w64 (o.toNat * 65536 + n) := sget_sset_same hw
  unfold ptpState wbits bits
  rw [hreg, w64, BitVec.toNat_ofNat]
  omega

theorem setPtp_ptpOffset (hw : swf s.mmio = true) (o : BitVec 32) (h : n < 4) : (s.setPtp o n).ptpOffset = o := by
  have hreg : (s.setPtp o n).reg (bootBase + 0x38) = w64 (o.toNat * 65536 + n) := sget_sset_same hw
  have hval : wbits (w64 (o.toNat * 65536 + n)) 47 16 = o.toNat := by
    unfold wbits bits
    rw [w64, BitVec.toNat_ofNat]
    have := o.isLt
    omega
  rw [ptpOffset, hreg, hval, BitVec.ofNat_toNat, BitVec.setWidth_eq]

/-! ### Time (R315, R435): no group that closes touches `time` or the package-wide state -/

theorem MemStep.clock {s' : State} (h : s.MemStep s') : (s'.time, s'.pkg) = (s.time, s.pkg) := by rw [h.only]

theorem recWrite_memStep (s : State) (g : Group) (off v n : Nat) : s.MemStep (s.recWrite g off v n) :=
  s.hwPut_memStep fun _ e => by cases e

/-- The close of a group writes its record and its state, and nothing else. -/
theorem closeGroup_eq (s : State) (h : Word) (left flag clock : Nat) :
    s.closeGroup h left flag clock = s ∨ ∃ (s1 : State) (f : Group → Group), s.MemStep s1 ∧ s.closeGroup h left flag clock = s1.modGroup h f := by
  unfold closeGroup
  split
  · exact .inl rfl
  · split
    · exact .inl rfl
    · refine .inr ⟨_, _, ?_, rfl⟩
      dsimp only
      iterate 9 refine MemStep.trans ?_ (recWrite_memStep ..)
      refine .foldl (fun s i => ?_) _ s
      exact ((s.recWrite_memStep ..).trans (recWrite_memStep ..)).trans (recWrite_memStep ..)

theorem closeGroup_clock (s : State) (h : Word) (left flag clock : Nat) :
    ((s.closeGroup h left flag clock).time, (s.closeGroup h left flag clock).pkg) = (s.time, s.pkg) := by
  obtain hsame | ⟨s1, f, hstep, hclose⟩ := s.closeGroup_eq h left flag clock
  · rw [hsame]
  · rw [hclose]
    exact hstep.clock

theorem clockStep_clock (s : State) (us : Nat) (f : Fleet) : ((s.clockStep us f).time, (s.clockStep us f).pkg) = (s.time, s.pkg) := by
  unfold clockStep
  split
  · rfl
  · split
    · rfl
    · split
      · exact s.closeGroup_clock ..
      · rfl

theorem advance_clock (s : State) (ns : Nat) : ((s.advance ns).time, (s.advance ns).pkg) = (s.time + w64 ns, s.pkg) := by
  unfold advance
  extract_lets us s1
  exact foldl_keeps (p := fun s => (s.time, s.pkg)) (f := fun s f => s.clockStep us f) (fun s f => s.clockStep_clock us f) _ s1

theorem advance_of_noFleet (h : s.fleets = []) (ns : Nat) : s.advance ns = { s with time := s.time + w64 ns } := by
  unfold advance
  dsimp only
  rw [h]
  rfl

/-- A message has been heard: its offset is noted, saturated, and acquisition is over (R435). -/
def ptpHeard (s : State) (o : Int) : State :=
  ((((s.modPkg fun p => { p with lastPtp := s.time.toNat }).setPtp (BitVec.ofInt 32 (max (-(2 ^ 31)) (min (2 ^ 31 - 1) o))) 2).drawNat).2).stepSet 9

theorem ptpHeard_pkg (s : State) (o : Int) : (s.ptpHeard o).pkg.lastPtp = s.time.toNat ∧ (s.ptpHeard o).mem = s.mem ∧
    (s.ptpHeard o).time = s.time ∧ (s.ptpHeard o).fleets = s.fleets := by
  refine ⟨?_, rfl, rfl, rfl⟩
  unfold ptpHeard stepSet modPkg
  dsimp only
  split <;> rfl

theorem ptpHeard_ptp (hI : s.Inv) (o : Int) : (s.ptpHeard o).ptpState = 2 ∧
    (s.ptpHeard o).ptpOffset = BitVec.ofInt 32 (max (-(2 ^ 31)) (min (2 ^ 31 - 1) o)) :=
  ⟨setPtp_ptpState (s := s.modPkg _) (mmio_swf hI) _ (by decide), setPtp_ptpOffset (s := s.modPkg _) (n := 2) (mmio_swf hI) _ (by decide)⟩

end State

section

variable {s : State}

/-! ### Messages of the grandmaster -/

/-- The offset is a step of `time`: it is the first one of an acquisition, and positive (R435). -/
def ptpSteps (s : State) (o : Int) : Bool :=
  (if s.ptpState = 0 && !s.stepIs 9 then 1 else s.ptpState) = 1 && !s.stepIs 9 && 0 < o

theorem ptpSteps_of_first (h9 : s.stepIs 9 = false) (hst : s.ptpState ≤ 1) {o : Int} (ho : 0 < o) : ptpSteps s o = true := by
  have hacq : (if s.ptpState = 0 && !s.stepIs 9 then 1 else s.ptpState) = 1 := by
    rw [h9]
    split
    · rfl
    next h => simp at h; omega
  rw [ptpSteps, hacq, h9, decide_eq_true ho]
  rfl

theorem ptpSteps_of_later {o : Int} (h : s.stepIs 9 = true ∨ o ≤ 0) : ptpSteps s o = false := by
  unfold ptpSteps
  rcases h with h | h
  · rw [h, Bool.not_true, Bool.and_false, Bool.false_and]
  · rw [decide_eq_false (Int.not_lt.2 h), Bool.and_false]

/-- An offset is a step of `time`, or is slewed at most 500 ppm (R435). -/
theorem exec_ptpMessage (hr : s.ready 45 = true) (o : Int) : exec (.ptpMessage o) s = .next (if ptpSteps s o then
    ((s.ptpHeard o).modPkg fun p => { p with slew := 0, rate := 0 }).advance o.toNat
    else (s.ptpHeard o).modPkg fun p => { p with slew := o, rate := o.sign * ((Config.freeNat s.draws % 500001 : Nat) : Int) }) :=
  congrArg Host.Outcome.next (if_neg (by simp [hr]))

/-- The rate of a slew is within 500 ppm. -/
theorem slewRate_bounds (o : Int) (k : Nat) : o.sign * ((k % 500001 : Nat) : Int) ≤ 500000 ∧ -500000 ≤ o.sign * ((k % 500001 : Nat) : Int) := by
  have hk : k % 500001 < 500001 := Nat.mod_lt _ (by decide)
  rcases Int.lt_trichotomy o 0 with h | h | h
  · rw [Int.sign_eq_neg_one_of_neg h]
    omega
  · rw [h]
    simp
  · rw [Int.sign_eq_one_of_pos h]
    omega

theorem exec_ptpMessage_slews (hr : s.ready 45 = true) (hI : s.Inv) {o : Int} (hs : ptpSteps s o = false) :
    ∃ s' : State, exec (.ptpMessage o) s = .next s' ∧ s'.pkg.lastPtp = s.time.toNat ∧ s'.stepIs 9 = true ∧ s'.mem = s.mem ∧
      s'.pkg.slew = o ∧ s'.time = s.time ∧ s'.ptpState = 2 ∧
      s'.ptpOffset = BitVec.ofInt 32 (max (-(2 ^ 31)) (min (2 ^ 31 - 1) o)) ∧ s'.pkg.rate ≤ 500000 ∧ -500000 ≤ s'.pkg.rate := by
  obtain ⟨hlast, hmem, htime, -⟩ := s.ptpHeard_pkg o
  obtain ⟨hstate, hoffset⟩ := State.ptpHeard_ptp hI o
  obtain ⟨hle, hge⟩ := slewRate_bounds o (Config.freeNat s.draws)
  refine ⟨_, (exec_ptpMessage hr o).trans (congrArg Host.Outcome.next (if_neg (by simp [hs]))), ?_⟩
  exact ⟨hlast, State.stepSet_stepIs _ 9, hmem, rfl, htime, hstate, hoffset, hle, hge⟩

theorem exec_ptpMessage_steps (hr : s.ready 45 = true) (hI : s.Inv) {o : Int} (hs : ptpSteps s o = true) :
    ∃ s' : State, exec (.ptpMessage o) s = .next s' ∧ s'.pkg.lastPtp = s.time.toNat ∧ s'.stepIs 9 = true ∧
      s'.time = s.time + w64 o.toNat ∧ s'.pkg.slew = 0 ∧ (s.fleets = [] → s'.mem = s.mem ∧ s'.ptpState = 2) := by
  obtain ⟨hlast, hmem, htime, hfleets⟩ := s.ptpHeard_pkg o
  generalize hx : (s.ptpHeard o).modPkg (fun p => { p with slew := 0, rate := 0 }) = x
  obtain ⟨hxtime, hxpkg⟩ := Prod.mk.inj (x.advance_clock o.toNat)
  refine ⟨x.advance o.toNat, ?_, ?_, ?_, ?_, ?_, fun hf => ?_⟩
  · rw [exec_ptpMessage hr, if_pos hs, hx]
  · rw [hxpkg, ← hx]
    exact hlast
  · unfold State.stepIs
    rw [hxpkg, ← hx]
    exact State.stepSet_stepIs _ 9
  · rw [hxtime, ← hx]
    exact congrArg (· + w64 o.toNat) htime
  · rw [hxpkg, ← hx]
    rfl
  · rw [State.advance_of_noFleet (by rw [← hx]; exact hfleets.trans hf), ← hx]
    exact ⟨hmem, (State.ptpHeard_ptp hI o).1⟩

end

end Sys2Proof.Machine

namespace Sys2Proof

open Machine

/-- Settles O60: each request is decided by its checks, and a measured offset by whether it is a step of `time`. -/
theorem management : Obligations.Management := by
  unfold Obligations.Management
  intro s hr
  refine ⟨fun img => ?_, fun img => ?_, fun k v hk hok hv hmin => ?_, fun k v hv => ?_, fun nonce => congrArg Host.Outcome.next (if_pos hr),
    fun o hI => ?_, fun hst hlast hI => ?_⟩
  · intro b h1 h3 hok huse
    refine congrArg Host.Outcome.next ((if_pos (by simp [b, hr, h1, h3, hok])).trans ?_)
    exact congrArg (fun p => ({ s with pkg := p } : State)) (if_neg (Bool.eq_false_iff.1 huse))
  · intro b hbad
    exact congrArg Host.Outcome.next (if_neg (by simp [b, hbad]))
  · have hk1 : 1 ≤ k.toNat := Nat.one_le_iff_ne_zero.2 fun e => hk (BitVec.eq_of_toNat_eq e)
    exact congrArg Host.Outcome.next (if_pos (by simp only [hr, hk1, hok, hv, hmin, decide_true, Bool.and_self, Bool.true_or]))
  · exact congrArg Host.Outcome.next (if_neg (by
      simp only [Nat.not_lt.2 hv, decide_false, Bool.and_false, Bool.false_eq_true, not_false_eq_true]))
  · cases hs : ptpSteps s o with
    | false =>
      obtain ⟨s', hexec, hlast, h9, hslew⟩ := exec_ptpMessage_slews hr hI hs
      refine ⟨s', hexec, hlast, h9, fun _ => hslew, fun h9 hst ho => ?_⟩
      rw [ptpSteps_of_first h9 hst ho] at hs
      cases hs
    | true =>
      obtain ⟨s', hexec, hlast, h9, hstep⟩ := exec_ptpMessage_steps hr hI hs
      refine ⟨s', hexec, hlast, h9, fun h => ?_, fun _ _ _ => hstep⟩
      rw [ptpSteps_of_later h] at hs
      cases hs
  · exact ⟨_, congrArg Host.Outcome.next (if_pos (by simp [hst, hlast])), State.setPtp_ptpState (mmio_swf hI) _ (by decide), rfl⟩

end Sys2Proof
end
section
/-! Crews that are saved and restored (R389, R390): which strands stay in the list, and the status that each of them comes to. -/

namespace Sys2Proof.Machine

namespace State

variable {s s' s'' : State} {q : SStatus → Prop} {k : Nat} {t u : Strand} {c : Crew}

/-- From `s` to `s'` no crew has changed, and every strand is there still, its recall pending as before, with its status or one that
meets `q`. -/
structure Moves (q : SStatus → Prop) (s s' : State) : Prop where
  crews : s'.crews = s.crews
  strand : ∀ k u, s.strand? k = some u →
    ∃ u', s'.strand? k = some u' ∧ u'.pendRecall = u.pendRecall ∧ (u'.status = u.status ∨ q u'.status)

namespace Moves

theorem refl (s : State) : Moves q s s := ⟨rfl, fun _ u hu => ⟨u, hu, rfl, .inl rfl⟩⟩

theorem trans (h : Moves q s s') (h' : Moves q s' s'') : Moves q s s'' := by
  refine ⟨h'.crews.trans h.crews, fun k u hu => ?_⟩
  obtain ⟨v, hv, hvr, hvs⟩ := h.strand k u hu
  obtain ⟨w, hw, hwr, hws⟩ := h'.strand k v hv
  refine ⟨w, hw, hwr.trans hvr, ?_⟩
  rcases hws with hws | hws
  · rw [hws]
    exact hvs
  · exact .inr hws

theorem foldl {α : Type} {f : State → α → State} (hf : ∀ s x, Moves q s (f s x)) (l : List α) (s : State) : Moves q s (l.foldl f s) := by
  induction l generalizing s with
  | nil => exact refl s
  | cons x l ih => exact (hf s x).trans (ih _)

theorem crew? (h : Moves q s s') (i : Nat) : s'.crew? i = s.crew? i := by unfold State.crew?; rw [h.crews]

end Moves

theorem MemStep.moves (h : s.MemStep s') : Moves q s s' := by
  refine ⟨h.crews, fun k u hu => ?_⟩
  obtain ⟨v, hv, hb⟩ := h.strand? hu
  exact ⟨v, hv, (congrArg Strand.pendRecall hb : v.bare.pendRecall = u.bare.pendRecall),
    .inl (congrArg Strand.status hb : v.bare.status = u.bare.status)⟩

theorem moves_modStrand (s : State) (k : Nat) {f : Strand → Strand} (hi : ∀ t, (f t).image = t.image)
    (hr : ∀ t, (f t).pendRecall = t.pendRecall) (hs : ∀ t, (f t).status = t.status ∨ q (f t).status) : Moves q s (s.modStrand k f) := by
  refine ⟨rfl, fun n u hu => ?_⟩
  rw [strand?_modStrand hi, hu]
  split
  · exact ⟨f u, rfl, hr u, hs u⟩
  · exact ⟨u, rfl, rfl, .inl rfl⟩

theorem releaseSlot_moves (s : State) (k : Nat) (st : SStatus) : Moves (· = st) s (s.releaseSlot k st) := by
  have hm := ((s.mergeStrand_memStep k).trans (drain_memStep _ k)).trans (endHold_memStep _ k)
  exact hm.moves.trans (moves_modStrand _ k (fun _ => rfl) (fun _ => rfl) fun _ => .inr rfl)

theorem takeSlot_moves (s : State) (k n quad : Nat) (hq : q .resident) : Moves q s (s.takeSlot k n quad) := by
  unfold takeSlot
  extract_lets was away s1 i s2 rd s3
  have h1 : s.MemStep s1 := (MemStep.ite (s.writeBack_memStep k true) (.refl s)).trans (follow_memStep _ _ _)
  have h2 : Moves q s1 s2 := moves_modStrand s1 k (fun _ => rfl) (fun _ => rfl) fun _ => .inr hq
  have h3 : Moves q s2 s3 := by
    unfold s3
    split
    · exact .refl s2
    · exact (s2.giveX_memStep k rd 0).moves.trans (moves_modStrand _ k (fun _ => rfl) (fun _ => rfl) fun _ => .inl rfl)
  exact ((h1.moves.trans h2).trans h3).trans ((s3.ncPoint_memStep n).trans (dropIbuf_memStep _ (.strand k))).moves

/-! ### Lists of strands -/

/-- The strand of image `k` is there, with a status that meets `q`. -/
def HasStatus (s : State) (k : Nat) (q : SStatus → Prop) : Prop := ∃ u, s.strand? k = some u ∧ q u.status

theorem Moves.hasStatus (h : Moves q s s') (hs : s.HasStatus k q) : s'.HasStatus k q := by
  obtain ⟨u, hu, hq⟩ := hs
  obtain ⟨v, hv, -, hvq⟩ := h.strand k u hu
  refine ⟨v, hv, ?_⟩
  rcases hvq with e | hvq
  · rw [e]
    exact hq
  · exact hvq

theorem strand?_of_mem (h : t ∈ s.strands) : ∃ u, s.strand? t.image = some u :=
  Option.isSome_iff_exists.1 (List.find?_isSome.2 ⟨t, h, decide_eq_true rfl⟩)

/-- Where each turn of a loop gives the strand that it names such a status, each of those named has one at the end. -/
theorem foldl_hasStatus {f : State → Strand → State} (hf : ∀ s t, Moves q s (f s t))
    (hone : ∀ s t u, s.strand? t.image = some u → (f s t).HasStatus t.image q) {l : List Strand} (ht : t ∈ l)
    (hu : s.strand? t.image = some u) : (l.foldl f s).HasStatus t.image q := by
  induction l generalizing s u with
  | nil => cases ht
  | cons x l ih =>
    rcases List.mem_cons.1 ht with rfl | ht
    · exact (Moves.foldl hf l _).hasStatus (hone s t u hu)
    · obtain ⟨v, hv, -, -⟩ := (hf s x).strand _ _ hu
      exact ih ht hv

/-- A loop of which no turn changes the state that it begins in. -/
theorem foldl_of_fixed {α : Type} {f : State → α → State} {l : List α} (h : ∀ x ∈ l, f s x = s) : l.foldl f s = s := by
  induction l with
  | nil => rfl
  | cons x l ih =>
    rw [List.foldl_cons, h x List.mem_cons_self]
    exact ih fun y hy => h y (List.mem_cons_of_mem x hy)

/-- A strand of the list is in it still after accesses alone, but for its context and reservation. -/
theorem MemStep.exists_mem (h : s.MemStep s') (ht : t ∈ s.strands) : ∃ u ∈ s'.strands, u.bare = t.bare := by
  have hm : t.bare ∈ s'.strands.map Strand.bare := h.strands ▸ List.mem_map_of_mem ht
  exact List.mem_map.1 hm

/-- A strand of a crew that is restored takes a slot, or waits for one (R390). -/
def restoreStrand (c : Crew) (s : State) (t : Strand) : State :=
  match s.seatStrand c t with
  | some s => s.bumpRsm t.image
  | none => (s.bumpRsm t.image).modStrand t.image fun t => { t with status := .waiting }

theorem restoreStrand_moves (c : Crew) (s : State) (t : Strand) :
    Moves (fun st => st = .resident ∨ st = .waiting) s (s.restoreStrand c t) := by
  unfold restoreStrand seatStrand
  cases s.resumeCore c t.cwc with
  | some n => exact (s.takeSlot_moves t.image n _ (.inl rfl)).trans (bumpRsm_memStep _ _).moves
  | none =>
    exact (s.bumpRsm_memStep t.image).moves.trans (moves_modStrand _ _ (fun _ => rfl) (fun _ => rfl) fun _ => .inr (.inr rfl))

theorem restoreStrand_hasStatus (c : Crew) (hu : s.strand? t.image = some u) :
    (s.restoreStrand c t).HasStatus t.image fun st => st = .resident ∨ st = .waiting := by
  unfold restoreStrand seatStrand
  cases s.resumeCore c t.cwc with
  | some n =>
    obtain ⟨v, hv, hres, -⟩ := (bumpRsm_memStep _ t.image).seatedAt (s.takeSlot_seatedAt hu n (s.bestQuad n))
    exact ⟨v, hv, .inl hres⟩
  | none =>
    obtain ⟨v, hv, -⟩ := (s.bumpRsm_memStep t.image).strand? hu
    exact ⟨_, strand?_modStrand_same (fun _ => rfl) hv, .inr rfl⟩

theorem recallDue_of_not_pending (h : t.pendRecall = false) : s.recallDue t = false := by
  unfold recallDue
  simp only [h, Bool.false_and]

end State

section

variable {s : State} {c : Crew} {i : Nat}

/-- A crew of one whose entries, copies and waits are done is saved: its strands give their slots away, and it its W-cores (R389). -/
theorem exec_crewSaveComplete (hc : s.crew? i = some c) (hpre : c.pre = 1) (hstop : c.stopping = false) (hf : c.fleet = 0)
    (he : s.engine = []) (hcp : s.copies = []) (hfin : ∀ t ∈ s.strands, t.crew = i → s.finishing t = false)
    (hrec : ∀ t ∈ s.strands, t.pendRecall = false) :
    ∃ (s' : State) (c' : Crew), exec (.crewSaveComplete i) s = .next s' ∧ s'.crew? i = some c' ∧ c'.pre = 2 ∧ c'.cores = [] ∧
      ∀ t ∈ s.strands, t.crew = i → t.status = .resident → ∃ u, s'.strand? t.image = some u ∧ u.status = .preempted := by
  let mine := s.strands.filter fun t => t.crew = i && t.status = .resident
  let s1 := mine.foldl (fun s t => s.releaseSlot t.image .preempted) s
  let s2 := s1.modCrew i fun c => { c with pre := 2, cores := [], stage := [], acc := [], rowPoison := [], accFail := [], wd := 0 }
  have hmoves : State.Moves (· = .preempted) s s1 :=
    .foldl (f := fun s t => s.releaseSlot t.image .preempted) (fun s t => s.releaseSlot_moves ..) mine s
  have hown : (s.strands.any fun t => t.crew = i && s.finishing t) = false := by
    simpa using hfin
  have hrecall : mine.foldl (fun s t =>
      match s.strand? t.image with | some t => if s.recallDue t then s.recallNow t.image else s | none => s) s2 = s2 := by
    refine State.foldl_of_fixed fun t ht => ?_
    obtain ⟨u, hu⟩ := State.strand?_of_mem (List.mem_of_mem_filter ht)
    obtain ⟨v, hv, hvr, -⟩ := hmoves.strand _ _ hu
    have hv2 : s2.strand? t.image = some v := hv
    have hdue : s2.recallDue v = false := State.recallDue_of_not_pending (hvr.trans (hrec u (kfind_some hu).2))
    simp only [hv2, hdue, Bool.false_eq_true, if_false]
  refine ⟨s2, _, ?_, State.crew?_modCrew_same (fun _ => rfl) ((hmoves.crew? i).trans hc), rfl, rfl, fun t ht hti hst => ?_⟩
  · simp only [exec, execCrewSaveComplete, hc, hpre, hstop, hf, he, hcp, hown, List.any_nil, Bool.or_false, ne_eq, not_true_eq_false,
      decide_false, Bool.false_and, Bool.false_eq_true, if_false, if_true]
    exact congrArg Host.Outcome.next hrecall
  · obtain ⟨u, hu⟩ := State.strand?_of_mem ht
    have hmem : t ∈ mine := List.mem_filter.2 ⟨ht, by simp [hti, hst]⟩
    refine State.foldl_hasStatus (q := (· = .preempted)) (f := fun s t => s.releaseSlot t.image .preempted)
      (fun s t => s.releaseSlot_moves ..) (fun s t u hu => ?_) hmem hu
    obtain ⟨v, hv, hb⟩ := State.releaseSlot_strand? .preempted hu
    exact ⟨v, hv, (Strand.status_bare v).symm.trans (congrArg Strand.status hb)⟩

/-- A crew that has its W-cores again is restored: its strands take slots, or wait for one (R390). -/
theorem exec_crewRestore (hc : s.crew? i = some c) (hpre : c.pre = 3)
    (hlater : ∀ x ∈ s.crews, c.fleet ≠ 0 → x.fleet = c.fleet → x.cid < c.cid → x.pre = 0)
    (hrun : ∀ n ∈ c.cores, (s.podAt (State.podOf n)).halted = false) :
    ∃ (s' : State) (c' : Crew), exec (.crewRestore i) s = .next s' ∧ s'.crew? i = some c' ∧ c'.pre = 0 ∧
      ∀ t ∈ s.strands, t.crew = i → t.status = .preempted →
        ∃ u, s'.strand? t.image = some u ∧ (u.status = .resident ∨ u.status = .waiting) := by
  let s1 := s.mergeLines c.save (State.saveBytes c)
  let c1 : Crew := { (if c.fleet = 0 then c else s1.saveIn c) with pre := 0 }
  let s2 := s1.putCrew c1
  let mine := s2.strands.filter fun t => t.crew = i && t.status = .preempted
  have hmem : s.MemStep s1 := s.mergeLines_memStep ..
  have hid : c1.id = i := by
    refine Eq.trans ?_ (kfind_some hc).1
    show (if c.fleet = 0 then c else s1.saveIn c).id = c.id
    split <;> rfl
  have hcrew : s2.crew? i = some c1 := hid ▸ kfind_kput Crew.id s1.crews c1
  have hfirst : (s.crews.any fun x => c.fleet ≠ 0 && x.fleet = c.fleet && x.cid < c.cid && x.pre ≠ 0) = false := by
    simpa using hlater
  have hhalt : (c.cores.any fun n => (s.podAt (State.podOf n)).halted) = false := by
    simpa using hrun
  have hmoves := State.Moves.foldl (f := State.restoreStrand c) (State.restoreStrand_moves c) mine s2
  refine ⟨mine.foldl (State.restoreStrand c) s2, c1, ?_, (hmoves.crew? i).trans hcrew, rfl, fun t ht hti hst => ?_⟩
  · simp only [exec, execCrewRestore, hc, hpre, hfirst, hhalt, Bool.or_false, ne_eq, not_true_eq_false, decide_false,
      Bool.false_eq_true, if_false]
    rfl
  · obtain ⟨u, hu, hb⟩ := hmem.exists_mem ht
    have himage : u.image = t.image := (congrArg Strand.image hb : u.bare.image = t.bare.image)
    have hcrewOf : u.crew = t.crew := (congrArg Strand.crew hb : u.bare.crew = t.bare.crew)
    have hstatus : u.status = t.status := (congrArg Strand.status hb : u.bare.status = t.bare.status)
    have hum : u ∈ mine := List.mem_filter.2 ⟨hu, by simp [hcrewOf, hstatus, hti, hst]⟩
    obtain ⟨v, hv⟩ := State.strand?_of_mem (s := s2) hu
    exact himage ▸ State.foldl_hasStatus (State.restoreStrand_moves c) (fun s t u hu => State.restoreStrand_hasStatus c hu) hum hv

end

end Sys2Proof.Machine
end
section
/-! Pods and the package (O56): reassignment, boost, power windows and current samples (R401, R404, R407 to R409). -/

namespace Sys2Proof.Machine

namespace State

variable {s s' : State} {q : Nat}

theorem MemStep.pods (h : s.MemStep s') : s'.pods = s.pods := by rw [h.only]

theorem endHoldsOf_mem (s : State) (q : Nat) : (s.endHoldsOf q).mem = s.mem := rfl

theorem endHoldsOf_pods (s : State) (q : Nat) : (s.endHoldsOf q).pods = s.pods := rfl

/-- Where the W-cores of a pod hold no evictable line, nothing is written back. -/
theorem flushPod_of_evictable_nil (h : ∀ n, podOf n = q → s.evictable n = []) : s.flushPod q = s := by
  refine foldl_of_fixed (f := fun s n => (s.evictable n).foldl (fun s e => s.writeLine e.1 true e.2) s) fun n hn => ?_
  have hq : podOf n = q := by
    have hr := mem_upto.1 hn
    unfold podOf
    omega
  rw [h n hq]
  rfl

/-- A request for reassignment that ends leaves the pod in place, but that it is in transition no more. -/
theorem endRequest_podAt (hq : q < s.pods.length) (st : Nat) : (s.endRequest q st).podAt q = { s.podAt q with rcls := 0 } :=
  podAt_modPod hq _

@[simp] theorem reg_modPkg (s : State) (f : Pkg → Pkg) (a : Nat) : (s.modPkg f).reg a = s.reg a := rfl

@[simp] theorem pkg_modPkg (s : State) (f : Pkg → Pkg) : (s.modPkg f).pkg = f s.pkg := rfl

theorem ballastCount_pkg (s : State) : s.ballastCount.pkg = s.pkg := by
  unfold ballastCount
  exact foldl_keeps (p := State.pkg) (fun s n => by split <;> rfl) _ s

theorem ballastCount_mem (s : State) : s.ballastCount.mem = s.mem := by
  unfold ballastCount
  exact foldl_keeps (p := State.mem) (fun s n => by split <;> rfl) _ s

end State

section

variable {s : State} {q : Nat}

/-- The saves of a pod in reassignment are done: it belongs to no pool (R404 step 2). -/
theorem exec_reclassSavesDone (hq : q < s.pods.length) (hr : (s.podAt q).rcls = 1) (hc : s.podCrews q = []) :
    ∃ s' : State, exec (.reclassSavesDone q) s = .next s' ∧ (s'.podAt q).rcls = 2 ∧
      ((∀ n, State.podOf n = q → s.evictable n = []) → s'.mem = s.mem) := by
  have hlen : q < ((s.flushPod q).endHoldsOf q).pods.length := by
    rwa [State.endHoldsOf_pods, (s.flushPod_memStep q).pods]
  refine ⟨((s.flushPod q).endHoldsOf q).modPod q fun p => { p with rcls := 2 }, ?_, ?_, fun hev => ?_⟩
  · simp only [exec, execReclassSavesDone, hr, hc, List.isEmpty_nil, decide_true, Bool.and_self, if_true]
  · rw [State.podAt_modPod hlen]
  · rw [State.modPod_mem, State.endHoldsOf_mem, State.flushPod_of_evictable_nil hev]

/-- The clock of a pod in reassignment has settled: it joins its new pool at the base clock of its class (R404 steps 3 and 4). -/
theorem exec_reclassClockSettled (hq : q < s.pods.length) (hr : (s.podAt q).rcls = 2) :
    ∃ s' : State, exec (.reclassClockSettled q) s = .next s' ∧ s'.mem = s.mem ∧
      (s'.podAt q).rcls = 0 ∧ (s'.podAt q).pool = (s.podAt q).target ∧ (s'.podAt q).mhz = baseMhz (s.podAt q).target := by
  let f (p : PodState) : PodState := { p with pool := p.target, mhz := baseMhz p.target, steps := 0 }
  have hpod : (s.modPod q f).podAt q = f (s.podAt q) := State.podAt_modPod hq f
  have hend := State.endRequest_podAt (s := s.modPod q f) ((lmod_length s.pods q f).symm ▸ hq) 2
  rw [hpod] at hend
  refine ⟨(s.modPod q f).endRequest q 2, congrArg Host.Outcome.next (if_pos hr), rfl, ?_⟩
  rw [hend]
  exact ⟨rfl, rfl, rfl⟩

/-- The boost of a pod is computed anew (R401). -/
theorem exec_boostRecompute (hq : q < s.pods.length) (ht : s.time.toNat % 10000 = 0) (hb : (s.podAt q).boostAt ≠ s.time.toNat)
    (hr : (s.podAt q).rcls ≠ 2) :
    ∃ s' : State, exec (.boostRecompute q) s = .next s' ∧ s'.mem = s.mem ∧ (s'.podAt q).steps ≤ (s.podAt q).bstmax ∧
      (s'.podAt q).steps ≤ 8 ∧ (s'.podAt q).mhz = baseMhz (s.podAt q).pool + 25 * (s'.podAt q).steps := by
  refine ⟨_, congrArg Host.Outcome.next (if_neg (by simp [ht, hb])), rfl, ?_⟩
  rw [State.podAt_modPod hq, if_neg hr]
  exact ⟨(min_le_left _ _).trans (min_le_left _ _), min_le_right _ _, rfl⟩

/-- A power window above its limit, without means so far, takes the boost of every pod (R407). -/
theorem exec_powerWindow (avg : BitVec 16) (ht : s.time.toNat % 10000000 = 0) (hw : s.pkg.windowAt ≠ s.time.toNat)
    (habove : s.pkg.limit < avg.toNat) (hm : s.pkg.means = 0) :
    ∃ s' : State, exec (.powerWindow avg) s = .next s' ∧ s'.pkg.means = 1 ∧ (∀ p ∈ s'.pods, p.bstmax = 0) ∧ s'.mem = s.mem := by
  simp only [exec, execPowerWindow, ht, hw, habove, hm, State.modPkg, State.setReg_pkg, ne_eq, not_true_eq_false, decide_false, decide_true,
    Bool.or_self, Bool.true_or, Bool.false_eq_true, if_false, if_true]
  refine ⟨_, rfl, rfl, fun p hp => ?_, rfl⟩
  obtain ⟨x, -, rfl⟩ := List.mem_map.1 hp
  rfl

/-- A current sample outside an episode: one begins where the draw has fallen below what ballast may hold (R408, R409). -/
theorem exec_currentSample (draw : Nat) (ht : s.time.toNat % 500 = 0) (hw : s.pkg.sampleAt ≠ s.time.toNat)
    (he : s.pkg.episode = false) :
    ∃ s' : State, exec (.currentSample draw) s = .next s' ∧ s'.mem = s.mem ∧
      (let lim := s.pkg.draw - wbits (s.reg (powerBase + 0x08)) 9 0
       s'.pkg.draw = max (2 * draw) lim ∧ s'.pkg.episode = decide (2 * draw < lim)) := by
  simp only [exec, execCurrentSample, ht, hw, he, State.reg_modPkg, State.pkg_modPkg, ne_eq, not_true_eq_false, decide_false,
    Bool.or_self, Bool.false_and, Bool.false_eq_true, if_false]
  split
  next hlow =>
    generalize hb : State.ballastCount _ = b
    have hmem : b.mem = s.mem := hb ▸ State.ballastCount_mem _
    have hepisode : b.pkg.episode = true := hb ▸ congrArg Pkg.episode (State.ballastCount_pkg _)
    exact ⟨_, rfl, hmem, (max_eq_right hlow.le).symm, hepisode.trans (decide_eq_true hlow).symm⟩
  next hhigh =>
    refine ⟨_, rfl, rfl, ?_⟩
    simp only [hhigh, decide_false, max_eq_left (Nat.le_of_not_lt hhigh), and_self]

/-- What stands at the end of a limit event (R409). -/
theorem State.currentLimit_episode (s : State) : s.currentLimit.pkg.episode = false := rfl

end

end Sys2Proof.Machine

namespace Sys2Proof

open Machine

/-- Settles O56: a rule for each step, the saves and restores by what each turn of their loops does to a strand's status. -/
theorem powerSteps : Obligations.PowerSteps := by
  unfold Obligations.PowerSteps
  intro s i q
  refine ⟨fun c hc hp => ?_, fun c hc hw hend => ?_, fun c => exec_crewSaveComplete, fun c => exec_crewRestore,
    exec_reclassSavesDone, exec_reclassClockSettled, fun hq hr => ?_, fun hq hr hz => ?_, exec_boostRecompute, exec_powerWindow,
    exec_currentSample, fun he ht => ⟨congrArg Host.Outcome.next (if_pos ?_), s.currentLimit_episode⟩⟩
  · simp only [exec, execCrewPreempt, hc, hp, if_true]
  · simp [exec, execWithdrawalGraceExpiry, hc, hw, hend]
  · simp only [exec, execWithdrawalStart, Nat.not_le.2 hq, hr, if_true, if_false]
  · simp only [exec, execWithdrawalStart, Nat.not_le.2 hq, hr, if_false]
    exact congrArg Host.Outcome.next (if_pos (by simpa using hz))
  · simp [he, ht]

end Sys2Proof
end

section
/-! The invariant is kept by every step (O2): the law of each instruction in one theorem, then turns and steps. -/

namespace Sys2Proof.Machine

/-- Each instruction and each step of the hardware keeps the invariant, by the law of its meaning. -/
theorem exec_inv {i : Instr} {s : State} (h : s.Inv) : OutInv (exec i s) :=
  match i with
  | .mgGo .. => execMgGo_inv h
  | .mgHome => execMgHome_inv h
  | .fkFlt .. => execFkFlt_inv h
  | .fkJoin .. => execFkJoin_inv h
  | .fkJoinTry .. => execFkJoinTry_inv h
  | .fkStop .. => execFkStop_inv h
  | .fkStopPre .. => execFkStopPre_inv h
  | .fkStopRsm .. => execFkStopRsm_inv h
  | .fkQry .. => execFkQry_inv h
  | .thParkMem .. => execThParkMem_inv h
  | .thParkBat .. => execThParkBat_inv h
  | .thParkTm .. => execThParkTm_inv h
  | .thYield => execThYield_inv h
  | .thPause .. => execThPause_inv h
  | .pauseExpiry .. => execPauseExpiry_inv h
  | .parkSpinTest .. => execParkSpinTest_inv h
  | .strandPark .. => execStrandPark_inv h
  | .watchRetest .. => execWatchRetest_inv h
  | .strandResume .. => execStrandResume_inv h
  | .placementOffer => execPlacementOffer_inv h
  | .contextLineFetch .. => execContextLineFetch_inv h
  | .homeNoticePost .. => execHomeNoticePost_inv h
  | .strandStop .. => execStrandStop_inv h
  | .recallWrite .. => execRecallWrite_inv h
  | .recallTakesEffect .. => execRecallTakesEffect_inv h
  | .killWrite .. => execKillWrite_inv h
  | .framefreeWrite .. => execFramefreeWrite_inv h
  | .issueCycle .. => execIssueCycle_inv h
  | .loadDataReturn .. => execLoadDataReturn_inv h
  | .cvJoin .. => execCvJoin_inv h
  | .cvJoinCrew .. => execCvJoinCrew_inv h
  | .cvQuit .. => execCvQuit_inv h
  | .cvBar .. => execCvBar_inv h
  | .cvBarRx .. => execCvBarRx_inv h
  | .cvArv .. => execCvArv_inv h
  | .cvArvRx .. => execCvArvRx_inv h
  | .cvWt .. => execCvWt_inv h
  | .cvWtTry .. => execCvWtTry_inv h
  | .cvQry .. => execCvQry_inv h
  | .barrierPhaseRelease .. => execBarrierPhaseRelease_inv h
  | .gpShflIdx .. => execGpShflIdx_inv h
  | .gpShflXor .. => execGpShflXor_inv h
  | .gpShflUp .. => execGpShflUp_inv h
  | .gpShflDn .. => execGpShflDn_inv h
  | .gpBcst .. => execGpBcst_inv h
  | .gpAll .. => execGpAll_inv h
  | .gpAny .. => execGpAny_inv h
  | .gpUni .. => execGpUni_inv h
  | .gpBlt .. => execGpBlt_inv h
  | .gpPcnt .. => execGpPcnt_inv h
  | .gpMtchLdr .. => execGpMtchLdr_inv h
  | .gpMtchCnt .. => execGpMtchCnt_inv h
  | .gpRed .. => execGpRed_inv h
  | .gpScan .. => execGpScan_inv h
  | .gpXscan .. => execGpXscan_inv h
  | .gpRedAddF .. => execGpRedAddF_inv h
  | .gpRedMinF .. => execGpRedMinF_inv h
  | .gpRedMaxF .. => execGpRedMaxF_inv h
  | .gpScanAddF .. => execGpScanAddF_inv h
  | .gpXscanAddF .. => execGpXscanAddF_inv h
  | .fxLi .. => execFxLi_inv h
  | .fxLiu .. => execFxLiu_inv h
  | .fxLih .. => execFxLih_inv h
  | .fxAddl .. => execFxAddl_inv h
  | .fxAndl .. => execFxAndl_inv h
  | .fxOrl .. => execFxOrl_inv h
  | .fxXorl .. => execFxXorl_inv h
  | .fxAuipcl .. => execFxAuipcl_inv h
  | .fxLis .. => execFxLis_inv h
  | .fxLid .. => execFxLid_inv h
  | .fxAdds .. => execFxAdds_inv h
  | .fxSubs .. => execFxSubs_inv h
  | .fxDot .. => execFxDot_inv h
  | .fxCvtBf16F64 .. => execFxCvtBf16F64_inv h
  | .fxCvtF64Bf16 .. => execFxCvtF64Bf16_inv h
  | .fxCvtBf16F16 .. => execFxCvtBf16F16_inv h
  | .fxCvtF16Bf16 .. => execFxCvtF16Bf16_inv h
  | .fxPkBf16 .. => execFxPkBf16_inv h
  | .fxUpkLo .. => execFxUpkLo_inv h
  | .fxUpkHi .. => execFxUpkHi_inv h
  | .fxPaddBf16 .. => execFxPaddBf16_inv h
  | .fxPsubBf16 .. => execFxPsubBf16_inv h
  | .fxPmulBf16 .. => execFxPmulBf16_inv h
  | .fxPfmaBf16 .. => execFxPfmaBf16_inv h
  | .fxPdotF32Bf16 .. => execFxPdotF32Bf16_inv h
  | .fxXp .. => execFxXp_inv h
  | .fxNr .. => execFxNr_inv h
  | .fxSclF32 .. => execFxSclF32_inv h
  | .fxSclF64 .. => execFxSclF64_inv h
  | .fxXpnF32 .. => execFxXpnF32_inv h
  | .fxXpnF64 .. => execFxXpnF64_inv h
  | .fxExp2F32 .. => execFxExp2F32_inv h
  | .fxLog2F32 .. => execFxLog2F32_inv h
  | .fxRcpF32 .. => execFxRcpF32_inv h
  | .fxRsqrtF32 .. => execFxRsqrtF32_inv h
  | .fxSinpiF32 .. => execFxSinpiF32_inv h
  | .fxCospiF32 .. => execFxCospiF32_inv h
  | .fxTanhF32 .. => execFxTanhF32_inv h
  | .fxSigmF32 .. => execFxSigmF32_inv h
  | .fxSrari .. => execFxSrari_inv h
  | .fxSati .. => execFxSati_inv h
  | .fxSatni .. => execFxSatni_inv h
  | .fxScliF32 .. => execFxScliF32_inv h
  | .fxScliF64 .. => execFxScliF64_inv h
  | .ldNc .. => execLdNc_inv h
  | .ldBp .. => execLdBp_inv h
  | .stBp .. => execStBp_inv h
  | .sl .. => execSl_inv h
  | .ss .. => execSs_inv h
  | .fnScoped .. => execFnScoped_inv h
  | .fnNc => execFnNc_inv h
  | .fnPfL1 .. => execFnPfL1_inv h
  | .fnPfLlc .. => execFnPfLlc_inv h
  | .fnPfW .. => execFnPfW_inv h
  | .amoOp .. => execAmoOp_inv h
  | .amoCas .. => execAmoCas_inv h
  | .amoLd .. => execAmoLd_inv h
  | .amoSt .. => execAmoSt_inv h
  | .amoDraw .. => execAmoDraw_inv h
  | .amoTick .. => execAmoTick_inv h
  | .atomicPerform .. => execAtomicPerform_inv h
  | .red .. => execRed_inv h
  | .rbAgeMerge .. => execRbAgeMerge_inv h
  | .lrHoldEnd .. => execLrHoldEnd_inv h
  | .sgFork .. => execSgFork_inv h
  | .sgRwd .. => execSgRwd_inv h
  | .sgCol .. => execSgCol_inv h
  | .sgCxl .. => execSgCxl_inv h
  | .sgExt .. => execSgExt_inv h
  | .sgQry .. => execSgQry_inv h
  | .sgLeave .. => execSgLeave_inv h
  | .groupTimeout .. => execGroupTimeout_inv h
  | .clPost .. => execClPost_inv h
  | .clRing .. => execClRing_inv h
  | .clPut .. => execClPut_inv h
  | .clGet .. => execClGet_inv h
  | .clSig .. => execClSig_inv h
  | .clWait .. => execClWait_inv h
  | .clWaitTry .. => execClWaitTry_inv h
  | .clQry .. => execClQry_inv h
  | .gateOpen .. => execGateOpen_inv h
  | .descriptorComplete .. => execDescriptorComplete_inv h
  | .ringMatchTimeout .. => execRingMatchTimeout_inv h
  | .remoteRegionAccess .. => execRemoteRegionAccess_inv h
  | .peerLeave .. => execPeerLeave_inv h
  | .linkPortLost .. => execLinkPortLost_inv h
  | .snoopFilterRecall .. => execSnoopFilterRecall_inv h
  | .pwQry .. => execPwQry_inv h
  | .pwYld .. => execPwYld_inv h
  | .pwWind .. => execPwWind_inv h
  | .syPark .. => execSyPark_inv h
  | .syEnd .. => execSyEnd_inv h
  | .syDbg .. => execSyDbg_inv h
  | .syRec .. => execSyRec_inv h
  | .syTlbsd .. => execSyTlbsd_inv h
  | .forwardEntryPost .. => execForwardEntryPost_inv h
  | .fwdrsmWrite .. => execFwdrsmWrite_inv h
  | .invalidationAck .. => execInvalidationAck_inv h
  | .ivgoWrite .. => execIvgoWrite_inv h
  | .pageWalkComplete .. => execPageWalkComplete_inv h
  | .copyGs .. => execCopyGs_inv h
  | .copySg .. => execCopySg_inv h
  | .copyGg .. => execCopyGg_inv h
  | .copySs .. => execCopySs_inv h
  | .copyGath .. => execCopyGath_inv h
  | .copyScat .. => execCopyScat_inv h
  | .copyFillS .. => execCopyFillS_inv h
  | .copyFillG .. => execCopyFillG_inv h
  | .cpSeal .. => execCpSeal_inv h
  | .cpWait .. => execCpWait_inv h
  | .cpStop .. => execCpStop_inv h
  | .copyDescriptorReadback .. => execCopyDescriptorReadback_inv h
  | .copyBegin .. => execCopyBegin_inv h
  | .copyChunkWrite .. => execCopyChunkWrite_inv h
  | .mxMma .. => execMxMma_inv h
  | .mxGmma .. => execMxGmma_inv h
  | .mxPmma .. => execMxPmma_inv h
  | .pmmaPairTimeout .. => execPmmaPairTimeout_inv h
  | .mxTake .. => execMxTake_inv h
  | .mxPass .. => execMxPass_inv h
  | .mxTakeTk .. => execMxTakeTk_inv h
  | .mxPassTk .. => execMxPassTk_inv h
  | .amGet .. => execAmGet_inv h
  | .amRel .. => execAmRel_inv h
  | .amZero .. => execAmZero_inv h
  | .amRd .. => execAmRd_inv h
  | .engineEntryStart .. => execEngineEntryStart_inv h
  | .matrixWritesLand .. => execMatrixWritesLand_inv h
  | .epLoad .. => execEpLoad_inv h
  | .epRun .. => execEpRun_inv h
  | .mxDrn .. => execMxDrn_inv h
  | .mxDrnZ .. => execMxDrnZ_inv h
  | .epilogueEntry .. => execEpilogueEntry_inv h
  | .load .. => execLoad_inv h
  | .store .. => execStore_inv h
  | .standardAlu .. => execStandardAlu_inv h
  | .standardFp .. => execStandardFp_inv h
  | .branchJump .. => execBranchJump_inv h
  | .fence fm .. => execFence_inv (_fm := fm) h
  | .fenceI => execFenceI_inv h
  | .wrsNto => execWrsNto_inv h
  | .wrsSto => execWrsSto_inv h
  | .wrsTimeout .. => execWrsTimeout_inv h
  | .lr _ _ rl .. => execLr_inv (_rl := rl) h
  | .sc _ aq .. => execSc_inv (_aq := aq) h
  | .standardAmo .. => execStandardAmo_inv h
  | .amocas .. => execAmocas_inv h
  | .ecall => execEcall_inv h
  | .ebreak => execEbreak_inv h
  | .wfi => execWfi_inv h
  | .sret => execSret_inv h
  | .sfenceVma .. => execSfenceVma_inv h
  | .csrAccess .. => execCsrAccess_inv h
  | .cpsplWrite .. => execCpsplWrite_inv h
  | .frecbaseWrite .. => execFrecbaseWrite_inv h
  | .passcntWrite .. => execPasscntWrite_inv h
  | .clsreqWrite .. => execClsreqWrite_inv h
  | .reclassSavesDone .. => execReclassSavesDone_inv h
  | .reclassClockSettled .. => execReclassClockSettled_inv h
  | .crewPreempt .. => execCrewPreempt_inv h
  | .crewSaveComplete .. => execCrewSaveComplete_inv h
  | .crewRestore .. => execCrewRestore_inv h
  | .withdrawalStart .. => execWithdrawalStart_inv h
  | .withdrawalGraceExpiry .. => execWithdrawalGraceExpiry_inv h
  | .boostRecompute .. => execBoostRecompute_inv h
  | .powerWindow .. => execPowerWindow_inv h
  | .currentSample .. => execCurrentSample_inv h
  | .currentLimitEvent => execCurrentLimitEvent_inv h
  | .zoneEnterLowFlow .. => execZoneEnterLowFlow_inv h
  | .zoneLeaveLowFlow .. => execZoneLeaveLowFlow_inv h
  | .zoneEnterHot .. => execZoneEnterHot_inv h
  | .zoneLeaveHot .. => execZoneLeaveHot_inv h
  | .zoneEnterEvacuating .. => execZoneEnterEvacuating_inv h
  | .zoneEnterTripped .. => execZoneEnterTripped_inv h
  | .evacuationSavesDone .. => execEvacuationSavesDone_inv h
  | .zoneTripExit .. => execZoneTripExit_inv h
  | .purgeStart .. => execPurgeStart_inv h
  | .purgeValveOpen .. => execPurgeValveOpen_inv h
  | .purgeEnd .. => execPurgeEnd_inv h
  | .zctlRetryWrite .. => execZctlRetryWrite_inv h
  | .dbgStop .. => execDbgStop_inv h
  | .dbgStopCrew .. => execDbgStopCrew_inv h
  | .dbgResume .. => execDbgResume_inv h
  | .dbgResumeCrew .. => execDbgResumeCrew_inv h
  | .dbgStep .. => execDbgStep_inv h
  | .dbgAttach .. => execDbgAttach_inv h
  | .dbgDetach .. => execDbgDetach_inv h
  | .dbgUnassigned .. => execDbgUnassigned_inv h
  | .debugStop .. => execDebugStop_inv h
  | .dbgdataRead .. => execDbgdataRead_inv h
  | .dbgdataWrite .. => execDbgdataWrite_inv h
  | .dbghaltWrite .. => execDbghaltWrite_inv h
  | .registerWrite .. => execRegisterWrite_inv h
  | .replicaUpdate .. => execReplicaUpdate_inv h
  | .ueWriteback .. => execUeWriteback_inv h
  | .ueCoreStorage .. => execUeCoreStorage_inv h
  | .dmaRequest .. => execDmaRequest_inv h
  | .powerGood => execPowerGood_inv h
  | .bootDieLinksMemory => execBootDieLinksMemory_inv h
  | .memoryReady .. => execMemoryReady_inv h
  | .bootPkgnum .. => execBootPkgnum_inv h
  | .bootLCoreImage => execBootLCoreImage_inv h
  | .lCoreStart .. => execLCoreStart_inv h
  | .bootWDieMicrocode .. => execBootWDieMicrocode_inv h
  | .portTrained .. => execPortTrained_inv h
  | .collectiveEngineReady => execCollectiveEngineReady_inv h
  | .managementPortReady => execManagementPortReady_inv h
  | .ptpMessage .. => execPtpMessage_inv h
  | .ptpGrandmasterLoss => execPtpGrandmasterLoss_inv h
  | .mgmtImageDelivery .. => execMgmtImageDelivery_inv h
  | .mgmtRaiseMinVersion .. => execMgmtRaiseMinVersion_inv h
  | .mgmtEvidenceRequest .. => execMgmtEvidenceRequest_inv h
  | .evreqGo .. => execEvreqGo_inv h
  | .instructionFetch .. => execInstructionFetch_inv h
  | .peerPresent .. => execPeerPresent_inv h
  | .peerWindowAccess .. => execPeerWindowAccess_inv h


theorem turn_event {i : Instr} {s : State} : turn (.event i) s = if i.encoded then .next s else exec i s.settle := rfl

/-- A turn of the agenda keeps the invariant; a change from outside may put the package back to reset. -/
theorem turn_inv {t : Turn} {s : State} (h : s.Inv) : OutInv (turn t s) := by
  cases t with
  | issue a => exact State.issue_inv (inv_same h) fun _ _ => exec_inv
  | event i =>
    rw [turn_event]
    split
    · exact out_next h
    · exact exec_inv (State.settle_inv h)
  | elapse ns => exact out_next (State.elapse_inv h)
  | _ => exact out_next (State.outside_inv h Sys2Proof.resetInv)

theorem step_inv {s : State} (h : s.Inv) : OutInv (step s) := by
  have hi : OutInv (s.issue exec) := State.issue_inv h fun _ _ => exec_inv
  unfold step
  split
  · exact turn_inv (inv_same h)
  · split
    · exact hi
    · split
      next s' e => exact out_next (State.elapse_inv (of_next e hi))
      · exact out_fault _
      · exact out_refused _

end Sys2Proof.Machine

namespace Sys2Proof

open Machine

/-- Settles O2: whatever turn is next, each operation that it runs keeps the invariant. -/
theorem stepKeepsInv : Obligations.StepKeepsInv := by
  unfold Obligations.StepKeepsInv
  exact fun s t h e => step_inv h t e

end Sys2Proof
end

section
/-! Round trip of the 32-bit words (O3): the fields that the encoder packs are the fields that the decoder reads. -/

namespace Sys2Proof

/-! ### Fields side by side -/

theorem append_high {m n : Nat} (x : BitVec m) (y : BitVec n) : (x ++ y).extractLsb' n m = x := by
  simp only [BitVec.extractLsb'_append_eq_of_le, le_refl, tsub_self, BitVec.extractLsb'_eq_self]

theorem append_low {m n : Nat} (x : BitVec m) (y : BitVec n) : (x ++ y).extractLsb' 0 n = y := by
  simp only [BitVec.extractLsb'_append_eq_of_add_le, zero_add, le_refl, BitVec.extractLsb'_eq_self]

theorem extract_join {m n : Nat} (x : BitVec (m + n)) : x.extractLsb' n m ++ x.extractLsb' 0 n = x := by
  rw [BitVec.extractLsb'_append_extractLsb'_eq_extractLsb' (zero_add n).symm, BitVec.extractLsb'_eq_self]

/-! ### Operand codes -/

@[simp] theorem lwidthOf_lwidthCode (w : LWidth) : lwidthOf (lwidthCode w) = some w := by cases w <;> rfl
@[simp] theorem swidthOf_swidthCode (w : SWidth) : swidthOf (swidthCode w) = some w := by cases w <;> rfl
@[simp] theorem scopeOf_scopeCode (x : Scope) : scopeOf (scopeCode x) = some x := by cases x <;> rfl
@[simp] theorem ityOf_ityCode (x : ITy) : ityOf (ityCode x) = x := by cases x <;> rfl
@[simp] theorem aopOf_aopCode (x : AOp) : aopOf (aopCode x) = some x := by cases x <;> rfl
@[simp] theorem eltOf_eltCode (x : Elt) : eltOf (eltCode x) = some x := by cases x <;> rfl
@[simp] theorem gopOf_gopCode (x : GOp) : gopOf (gopCode x) = x := by cases x <;> rfl
@[simp] theorem styOf_styCode (x : STy) : styOf (styCode x) = x := by cases x <;> rfl
@[simp] theorem dotOf_dotCode (x : DotForm) : dotOf (dotCode x) = x := by cases x <;> rfl
@[simp] theorem precOf_precCode (x : FPrec) : precOf (precCode x) = some x := by cases x <;> rfl
@[simp] theorem fpIntOf_fpIntCode (x : FpInt) : fpIntOf (fpIntCode x) = some x := by cases x <;> rfl
@[simp] theorem ofBool_eq_one (b : Bool) : BitVec.ofBool b = 1#1 ↔ b = true := by cases b <;> decide

/-! ### Esrun -/

/-- What decoding the 32-bit word of an instruction gives back. -/
def RoundTrip (i : Instr) : Prop := ∀ r, encode32 i = some r → decodeR r = .ok i

theorem roundTrip_convergence (d a : Reg) (n : BitVec 4) : ∀ i ∈ [Instr.cvJoin d n, .cvJoinCrew d n, .cvQuit d n, .cvBar d n,
    .cvBarRx d n, .cvArv d n, .cvArvRx d n, .cvWt d a n, .cvWtTry d a n, .cvQry d a n], RoundTrip i := by
  simp only [List.forall_mem_cons]
  and_intros <;> rintro _ ⟨⟩ <;>
    simp [decodeR, decCustom0, encR, append_high, append_low, Decoded.guard, -Nat.reduceAdd]

theorem roundTrip_shuffle (d a b : Reg) (n : BitVec 4) : ∀ i ∈ [Instr.gpShflIdx d a b n, .gpShflXor d a b n, .gpShflUp d a b n,
    .gpShflDn d a b n, .gpBcst d a b n], RoundTrip i := by
  simp only [List.forall_mem_cons]
  and_intros <;> rintro _ ⟨⟩ <;>
    simp [decodeR, decCustom1, encG, encR, RWord.subop, append_high, append_low, -Nat.reduceAdd]

theorem roundTrip_vote (d a : Reg) (n : BitVec 4) : ∀ i ∈ [Instr.gpAll d a n, .gpAny d a n, .gpUni d a n, .gpBlt d a n,
    .gpPcnt d a n, .gpMtchLdr d a n, .gpMtchCnt d a n], RoundTrip i := by
  simp only [List.forall_mem_cons]
  and_intros <;> rintro _ ⟨⟩ <;>
    simp [decodeR, decCustom1, decGroupInt, encG, encR, RWord.subop, append_high, append_low, -Nat.reduceAdd]

theorem roundTrip_scanInt (d a : Reg) (n : BitVec 4) (o : GOp) : ∀ i ∈ [Instr.gpRed o d a n, .gpScan o d a n, .gpXscan o d a n],
    RoundTrip i := by
  simp only [List.forall_mem_cons]
  and_intros <;> rintro _ ⟨⟩ <;>
    simp [decodeR, decCustom1, decGroupInt, encG, encR, RWord.subop, append_high, append_low, -Nat.reduceAdd]

theorem roundTrip_scanFloat (d a : Reg) (n : BitVec 4) (p : FPrec) : ∀ i ∈ [Instr.gpRedAddF p d a n, .gpRedMinF p d a n,
    .gpRedMaxF p d a n, .gpScanAddF p d a n, .gpXscanAddF p d a n], RoundTrip i := by
  simp only [List.forall_mem_cons]
  and_intros <;> rintro _ ⟨⟩ <;> cases p <;>
    simp [decodeR, decCustom1, decGroupFp, encG, encR, RWord.subop, append_high, append_low, -Nat.reduceAdd]

theorem roundTrip_fixed (d a b : Reg) (t : STy) (v : DotForm) (k : Elt) : ∀ i ∈ [Instr.fxAdds t d a b, .fxSubs t d a b,
    .fxDot v d a b, .fxXp k d a b, .fxNr k d a b], RoundTrip i := by
  simp only [List.forall_mem_cons]
  and_intros <;> rintro _ ⟨⟩ <;>
    simp [decodeR, decCustom1, decFxFloat, encR, append_high, append_low, Decoded.opt, -Nat.reduceAdd]

theorem roundTrip_imm9 (d a b : Reg) (sh : BitVec 6) (n : BitVec 9) (w : LWidth) (v : SWidth) : ∀ i ∈ [Instr.thPause n,
    .fxSrari d a sh, .fxSati d a sh, .fxSatni d a sh, .fxScliF32 d a n, .fxScliF64 d a n, .ldNc w d a n, .ldBp w d a n,
    .stBp v a b n, .sl w d a n, .ss v a b n], RoundTrip i := by
  simp only [List.forall_mem_cons]
  and_intros <;> rintro _ ⟨⟩ <;>
    simp [decodeR, decCustom0, decCustom1, decCustom2, encI9, encS9, RWord.subop, RWord.imm9, RWord.imm9s, append_high, append_low,
      Decoded.guard, Decoded.opt, -Nat.reduceAdd]

theorem roundTrip_fnScoped (x : Scope) (p q : BitVec 4) : RoundTrip (.fnScoped x p q) := by
  rintro _ ⟨⟩
  have hx : 0#4 ++ scopeCode x ∉ [0x10#7, 0x20#7, 0x21#7, 0x22#7] := by cases x <;> decide
  simp only [List.mem_cons, List.not_mem_nil, not_or] at hx
  simp [decodeR, decCustom2, decFn, encR, hx, append_high, append_low, Decoded.opt, -Nat.reduceAdd]

theorem roundTrip_amo (o : AOp) (t : ITy) (x : Scope) (aq rl : Bool) (d a : Reg) : ∀ i ∈ [Instr.amoOp o t x aq rl d a,
    .amoLd t x aq d a, .amoSt t x rl d a, .amoTick aq rl d a], RoundTrip i := by
  have h : aopOf 9#5 = none ∧ aopOf 10#5 = none ∧ aopOf 13#5 = none := by decide
  simp only [List.forall_mem_cons]
  and_intros <;> rintro _ ⟨⟩ <;>
    simp (disch := omega) [decodeR, decCustom2, decAmo, encAmo, encR, h, BitVec.extractLsb'_append_eq_of_le,
      BitVec.extractLsb'_append_eq_of_add_le, Decoded.guard, -Nat.reduceAdd]

theorem roundTrip_amoPair (t : ITy) (x : Scope) (aq rl : Bool) (d a : Reg) (h : evenReg d = true) :
    RoundTrip (.amoCas t x aq rl d a) ∧ (d ≠ 0 → RoundTrip (.amoDraw x aq rl d a)) := by
  have ho : aopOf 8#5 = none ∧ aopOf 12#5 = none := by decide
  constructor
  · rintro _ ⟨⟩
    simp (disch := omega) [decodeR, decCustom2, decAmo, encAmo, encR, h, ho, BitVec.extractLsb'_append_eq_of_le,
      BitVec.extractLsb'_append_eq_of_add_le, Decoded.guard, -Nat.reduceAdd]
  · rintro hd _ ⟨⟩
    have hd : d ≠ 0#5 := hd
    simp (disch := omega) [decodeR, decCustom2, decAmo, encAmo, encR, h, ho, hd, BitVec.extractLsb'_append_eq_of_le,
      BitVec.extractLsb'_append_eq_of_add_le, Decoded.guard, -Nat.reduceAdd]

theorem roundTrip_red (o : AOp) (t : ITy) (x : Scope) (a b : Reg) (h : o ≠ .swap) : RoundTrip (.red o t x a b) := by
  rintro _ ⟨⟩
  simp (disch := omega) [decodeR, decCustom2, decRed, encR, h, BitVec.extractLsb'_append_eq_of_le,
    BitVec.extractLsb'_append_eq_of_add_le, Decoded.guard, -Nat.reduceAdd]

/-! ### The standard part -/

theorem imm12_join (imm : BitVec 12) : imm.extractLsb' 5 7 ++ imm.extractLsb' 0 5 = imm := extract_join (m := 7) (n := 5) imm

theorem imm_encI (op : BitVec 7) (f3 : BitVec 3) (d a : Reg) (imm : BitVec 12) : (encI op f3 d a imm).imm = imm :=
  imm12_join imm

theorem roundTrip_load (k : LoadKind) (d a : Reg) (imm : BitVec 12) : RoundTrip (.load k d a imm) := by
  rintro _ ⟨⟩
  calc decodeR (encI (loadCode k).1 (loadCode k).2 d a imm)
    _ = .ok (.load k d a (encI (loadCode k).1 (loadCode k).2 d a imm).imm) := by cases k <;> rfl
    _ = .ok (.load k d a imm) := by rw [imm_encI]

theorem roundTrip_store (k : StoreKind) (a b : Reg) (imm : BitVec 12) : RoundTrip (.store k a b imm) := by
  rintro _ ⟨⟩
  calc decodeR _
    _ = .ok (.store k a b (imm.extractLsb' 5 7 ++ imm.extractLsb' 0 5)) := by cases k <;> rfl
    _ = .ok (.store k a b imm) := by rw [imm12_join]

theorem roundTrip_csr (op : CsrOp) (im : Bool) (d a : Reg) (c : BitVec 12) : RoundTrip (.csrAccess op im d a c) := by
  rintro r ⟨⟩
  calc decodeR _
    _ = .ok (.csrAccess op im d a (c.extractLsb' 5 7 ++ c.extractLsb' 0 5)) := by cases op <;> cases im <;> rfl
    _ = .ok (.csrAccess op im d a c) := by rw [imm12_join]

theorem fence_sets (fm p q : BitVec 4) :
    ((fm ++ p ++ q).extractLsb' 5 7).extractLsb' 3 4 = fm ∧
    ((fm ++ p ++ q).extractLsb' 5 7).extractLsb' 0 3 ++ ((fm ++ p ++ q).extractLsb' 0 5).extractLsb' 4 1 = p ∧
    ((fm ++ p ++ q).extractLsb' 0 5).extractLsb' 0 4 = q := by
  and_intros <;>
  · apply BitVec.eq_of_getLsbD_eq
    intro i hi
    simp only [BitVec.getLsbD_extractLsb', BitVec.getLsbD_append]
    grind

theorem roundTrip_fence (fm p q : BitVec 4) : RoundTrip (.fence fm p q) := by
  rintro _ ⟨⟩
  obtain ⟨h1, h2, h3⟩ := fence_sets fm p q
  calc decodeR _
    _ = .ok (.fence (((fm ++ p ++ q).extractLsb' 5 7).extractLsb' 3 4)
          (((fm ++ p ++ q).extractLsb' 5 7).extractLsb' 0 3 ++ ((fm ++ p ++ q).extractLsb' 0 5).extractLsb' 4 1)
          (((fm ++ p ++ q).extractLsb' 0 5).extractLsb' 0 4)) := rfl
    _ = .ok (.fence fm p q) := by rw [h1, h2, h3]

theorem roundTrip_stdAmo (o : StdAmo) (dbl aq rl : Bool) (d a b : Reg) : ∀ i ∈ [Instr.lr dbl aq rl d a, .sc dbl aq rl d a b,
    .standardAmo o dbl aq rl d a b], RoundTrip i := by
  simp only [List.forall_mem_cons]
  and_intros <;> rintro _ ⟨⟩ <;> cases dbl
  case refine_2.refine_2.refine_1.false | refine_2.refine_2.refine_1.true =>
    cases o <;> simp (disch := omega) [decodeR, decStandard, decStdAmo, encStdAmo, encR, stdAmoCode,
      BitVec.extractLsb'_append_eq_of_le, BitVec.extractLsb'_append_eq_of_add_le, -Nat.reduceAdd]
  all_goals simp (disch := omega) [decodeR, decStandard, decStdAmo, encStdAmo, encR, BitVec.extractLsb'_append_eq_of_le,
      BitVec.extractLsb'_append_eq_of_add_le, Decoded.guard, -Nat.reduceAdd]

theorem roundTrip_amocas (cw : CasW) (aq rl : Bool) (d a b : Reg) (h : cw ≠ .q ∨ evenReg d = true ∧ evenReg b = true) :
    RoundTrip (.amocas cw aq rl d a b) := by
  rintro _ ⟨⟩
  cases cw <;> simp at h <;>
    simp (disch := omega) [decodeR, decStandard, decStdAmo, encStdAmo, encR, h, BitVec.extractLsb'_append_eq_of_le,
      BitVec.extractLsb'_append_eq_of_add_le, Decoded.guard, -Nat.reduceAdd]
end Sys2Proof
end

section
/-! Round trip of the 32-bit words (O3), continued: the integer, floating-point and branch forms of the standard part, then all words. -/

namespace Sys2Proof

/-! ### Integer forms -/

/-- A shift amount within six bits is its low six bits under zeros. -/
theorem shamt6 {imm : BitVec 12} (h : imm < 64) : 0#6 ++ imm.extractLsb' 0 6 = imm ∧ imm.extractLsb' 6 6 = 0#6 := by
  have h : imm.toNat < 64 := h
  constructor <;> apply BitVec.eq_of_toNat_eq
  · rw [BitVec.toNat_append, BitVec.extractLsb'_toNat]
    simpa using h
  · rw [BitVec.extractLsb'_toNat, Nat.shiftRight_eq_div_pow, Nat.div_eq_of_lt h]
    rfl

theorem shamt5 {imm : BitVec 12} (h : imm < 32) : 0#7 ++ imm.extractLsb' 0 5 = imm ∧ imm.extractLsb' 6 6 = 0#6 := by
  have h : imm.toNat < 32 := h
  refine ⟨?_, (shamt6 (imm := imm) (show imm.toNat < 64 by omega)).2⟩
  apply BitVec.eq_of_toNat_eq
  rw [BitVec.toNat_append, BitVec.extractLsb'_toNat]
  simpa using h

@[simp] theorem encI_fields (op : BitVec 7) (f3 : BitVec 3) (d a : Reg) (imm : BitVec 12) : (encI op f3 d a imm).op = op ∧
    (encI op f3 d a imm).f3 = f3 ∧ (encI op f3 d a imm).d = d ∧ (encI op f3 d a imm).a = a ∧ (encI op f3 d a imm).imm = imm :=
  ⟨rfl, rfl, rfl, rfl, imm12_join imm⟩

theorem roundTrip_aluImm (op : AluImm) (d a : Reg) (imm : BitVec 12) (h : op.wf imm = true) :
    RoundTrip (.standardAlu (.ri op d a imm)) := by
  rintro _ ⟨⟩
  cases op <;> simp only [AluImm.wf, decide_eq_true_eq] at h <;> dsimp only [encAlu, encAluImm, encShift]
  case slliw | srliw | sraiw | roriw =>
    simp (disch := omega) [decodeR, decStandard, decOpImm32, encR, RWord.imm, shamt5 h, -Nat.reduceAdd]
  case slli | srli | srai | slliUw | rori | bclri | bexti | binvi | bseti =>
    simp [decodeR, decStandard, decOpImm, decOpImm32, decShift, shamt6 h, append_high, append_low, -Nat.reduceAdd]
  all_goals simp [decodeR, decStandard, decOpImm, decOpImm32]

theorem decodeR_mopr {f : BitVec 7} {a b d : Reg} (h6 : f.extractLsb' 6 1 = 1) (h3 : f.extractLsb' 3 2 = 0)
    (h0 : f.extractLsb' 0 1 = 0) (hb : b.extractLsb' 2 3 = 7) : decodeR (encR 0x73 f 4 d a b) =
      .ok (.standardAlu (.mopr (f.extractLsb' 5 1 ++ f.extractLsb' 1 2 ++ b.extractLsb' 0 2) d a)) := by
  simp [decodeR, decStandard, decSystem, encR, h6, h3, h0, hb]

theorem decodeR_moprr {f : BitVec 7} {a b d : Reg} (h6 : f.extractLsb' 6 1 = 1) (h3 : f.extractLsb' 3 2 = 0)
    (h0 : f.extractLsb' 0 1 = 1) : decodeR (encR 0x73 f 4 d a b) =
      .ok (.standardAlu (.moprr (f.extractLsb' 5 1 ++ f.extractLsb' 1 2) d a b)) := by
  simp [decodeR, decStandard, decSystem, encR, h6, h3, h0]

theorem roundTrip_mopr (n : BitVec 5) (d a : Reg) : RoundTrip (.standardAlu (.mopr n d a)) := by
  rintro _ ⟨⟩
  refine (decodeR_mopr ?_ ?_ ?_ ?_).trans (congrArg (fun x => Decoded.ok (.standardAlu (.mopr x d a))) ?_) <;>
  · apply BitVec.eq_of_getLsbD_eq
    intro i hi
    simp only [BitVec.getLsbD_extractLsb', BitVec.getLsbD_append]
    grind

theorem roundTrip_moprr (n : BitVec 3) (d a b : Reg) : RoundTrip (.standardAlu (.moprr n d a b)) := by
  rintro _ ⟨⟩
  refine (decodeR_moprr ?_ ?_ ?_).trans (congrArg (fun x => Decoded.ok (.standardAlu (.moprr x d a b))) ?_) <;>
  · apply BitVec.eq_of_getLsbD_eq
    intro i hi
    simp only [BitVec.getLsbD_extractLsb', BitVec.getLsbD_append]
    grind

theorem imm20_join (imm : BitVec 20) : imm.extractLsb' 13 7 ++ imm.extractLsb' 8 5 ++ (imm.extractLsb' 3 5 ++ imm.extractLsb' 0 3) = imm := by
  apply BitVec.eq_of_getLsbD_eq
  intro i hi
  simp only [BitVec.getLsbD_extractLsb', BitVec.getLsbD_append]
  grind

theorem roundTrip_upper (d : Reg) (imm : BitVec 20) : RoundTrip (.standardAlu (.lui d imm)) ∧ RoundTrip (.standardAlu (.auipc d imm)) := by
  constructor <;> rintro _ ⟨⟩
  · exact congrArg (fun x => Decoded.ok (.standardAlu (.lui d x))) (imm20_join imm)
  · exact congrArg (fun x => Decoded.ok (.standardAlu (.auipc d x))) (imm20_join imm)

/-- The codes of a two-operand operation name it under OP, or under OP-32 beside `zext.h`. -/
theorem alu_of_aluCode (op : AluOp) :
    (aluCode op).1 = 0x33 ∧ aluRR (aluCode op).2.1 (aluCode op).2.2 = some op ∨
    (aluCode op).1 = 0x3b ∧ aluRRW (aluCode op).2.1 (aluCode op).2.2 = some op ∧
      ((aluCode op).2.1 = 0x04#7 → (aluCode op).2.2 ≠ 4#3) := by
  cases op <;> decide

theorem roundTrip_aluRR (op : AluOp) (d a b : Reg) : RoundTrip (.standardAlu (.rr op d a b)) := by
  rintro _ ⟨⟩
  have h := alu_of_aluCode op
  simp only [encAlu]
  generalize aluCode op = c at h ⊢
  obtain ⟨o, f7, f3⟩ := c
  obtain ⟨rfl, ho⟩ | ⟨rfl, ho, hz⟩ := h
  · simp [decodeR, decStandard, encR, ho, Decoded.opt]
  · simp [decodeR, decStandard, encR, ho, Decoded.opt]
    exact fun h7 h3 => absurd (of_decide_eq_true h3) (hz (of_decide_eq_true h7))

theorem roundTrip_aluUn (op : AluUn) (d a : Reg) : RoundTrip (.standardAlu (.un op d a)) := by
  rintro _ ⟨⟩
  cases op <;> dsimp only [encAlu, encAluUn]
  case zextH => rfl
  all_goals simp [decodeR, decStandard, decOpImm, decOpImm32, encI, RWord.imm]

theorem roundTrip_alu (f : AluForm) (h : f.wf = true) : RoundTrip (.standardAlu f) := by
  cases f with
  | ri op d a imm => exact roundTrip_aluImm op d a imm h
  | mopr n d a => exact roundTrip_mopr n d a
  | moprr n d a b => exact roundTrip_moprr n d a b
  | lui d imm => exact (roundTrip_upper d imm).1
  | auipc d imm => exact (roundTrip_upper d imm).2
  | cmop n => rintro _ ⟨⟩
  | rr op d a b => exact roundTrip_aluRR op d a b
  | un op d a => exact roundTrip_aluUn op d a

/-! ### Floating point -/

theorem roundTrip_fpArith (p : FPrec) (rm : BitVec 3) (d a b : Reg) (op : FpBin) (t : FpInt) (k : FpCvt) (hr : rmOk rm = true) :
    ∀ f ∈ [FpForm.bin op p rm d a b, .sqrt p rm d a, .toInt t p rm d a, .ofInt t p rm d a, .cvt k rm d a], RoundTrip (.standardFp f) := by
  simp only [List.forall_mem_cons]
  and_intros <;> rintro _ ⟨⟩
  · cases op <;> cases p <;> simp [decodeR, decStandard, decOpFp, encFp, encR, fpBinCode, precCode, precOf, hr, Decoded.guard]
  · cases p <;> simp [decodeR, decStandard, decOpFp, encFp, encR, precCode, precOf, hr, Decoded.guard]
  · cases p <;> simp [decodeR, decStandard, decOpFp, encFp, encR, precCode, precOf, hr, Decoded.guard]
  · cases p <;> simp [decodeR, decStandard, decOpFp, encFp, encR, precCode, precOf, hr, Decoded.guard]
  · cases k <;> simp [decodeR, decStandard, decOpFp, encFp, encR, fpCvtCode, hr, Decoded.guard]

theorem roundTrip_fma (op : FpFma) (p : FPrec) (rm : BitVec 3) (d a b c : Reg) (hr : rmOk rm = true) :
    RoundTrip (.standardFp (.fma op p rm d a b c)) := by
  rintro _ ⟨⟩
  cases op <;> simp [decodeR, decStandard, decFma, encFp, encR, append_high, append_low, hr, Decoded.guard, -Nat.reduceAdd]

theorem roundTrip_fpMove (p : FPrec) (d a b : Reg) (op : FpSgn) (m : Bool) (c : FpCmp) (k : FpMv) :
    ∀ f ∈ [FpForm.sgnj op p d a b, .minmax m p d a b, .cmp c p d a b, .cls p d a, .mv k d a], RoundTrip (.standardFp f) := by
  simp only [List.forall_mem_cons]
  and_intros <;> rintro _ ⟨⟩
  · cases op <;> cases p <;> simp [decodeR, decStandard, decOpFp, encFp, encR, precCode, precOf]
  · cases m <;> cases p <;> simp [decodeR, decStandard, decOpFp, encFp, encR, precCode, precOf]
  · cases c <;> cases p <;> simp [decodeR, decStandard, decOpFp, encFp, encR, precCode, precOf]
  · cases p <;> simp [decodeR, decStandard, decOpFp, encFp, encR, precCode, precOf, Decoded.guard]
  · cases k <;> simp [decodeR, decStandard, decOpFp, encFp, encR]

theorem roundTrip_fp (f : FpForm) (h : f.wf = true) : RoundTrip (.standardFp f) := by
  cases f with
  | bin op p rm d a b => exact roundTrip_fpArith p rm d a b op .w .sd h _ (by simp)
  | sqrt p rm d a => exact roundTrip_fpArith p rm d a 0 .add .w .sd h _ (by simp)
  | fma op p rm d a b c => exact roundTrip_fma op p rm d a b c h
  | sgnj op p d a b => exact roundTrip_fpMove p d a b op true .le .xh _ (by simp)
  | minmax m p d a b => exact roundTrip_fpMove p d a b .j m .le .xh _ (by simp)
  | cmp op p d a b => exact roundTrip_fpMove p d a b .j true op .xh _ (by simp)
  | cls p d a => exact roundTrip_fpMove p d a 0 .j true .le .xh _ (by simp)
  | toInt t p rm d a => exact roundTrip_fpArith p rm d a 0 .add t .sd h _ (by simp)
  | ofInt t p rm d a => exact roundTrip_fpArith p rm d a 0 .add t .sd h _ (by simp)
  | cvt k rm d a => exact roundTrip_fpArith .s rm d a 0 .add .w k h _ (by simp)
  | mv k d a => exact roundTrip_fpMove .s d a 0 .j true .le k _ (by simp)

/-! ### Branches -/

theorem imm13_join {off : BitVec 13} (h : off.extractLsb' 0 1 = 0) :
    (off.extractLsb' 12 1 ++ off.extractLsb' 5 6).extractLsb' 6 1 ++ (off.extractLsb' 1 4 ++ off.extractLsb' 11 1).extractLsb' 0 1 ++
      (off.extractLsb' 12 1 ++ off.extractLsb' 5 6).extractLsb' 0 6 ++ (off.extractLsb' 1 4 ++ off.extractLsb' 11 1).extractLsb' 1 4 ++
      0#1 = off := by
  have h0 : off.getLsbD 0 = false := by simpa using congrArg (fun x => x.getLsbD 0) h
  apply BitVec.eq_of_getLsbD_eq
  intro i hi
  simp only [BitVec.getLsbD_extractLsb', BitVec.getLsbD_append]
  grind

theorem imm21_join {off : BitVec 21} (h : off.extractLsb' 0 1 = 0) :
    (off.extractLsb' 20 1 ++ off.extractLsb' 5 6).extractLsb' 6 1 ++ (off.extractLsb' 15 5 ++ off.extractLsb' 12 3) ++
      (off.extractLsb' 1 4 ++ off.extractLsb' 11 1).extractLsb' 0 1 ++
      ((off.extractLsb' 20 1 ++ off.extractLsb' 5 6).extractLsb' 0 6 ++ (off.extractLsb' 1 4 ++ off.extractLsb' 11 1).extractLsb' 1 4) ++
      0#1 = off := by
  have h0 : off.getLsbD 0 = false := by simpa using congrArg (fun x => x.getLsbD 0) h
  apply BitVec.eq_of_getLsbD_eq
  intro i hi
  simp only [BitVec.getLsbD_extractLsb', BitVec.getLsbD_append]
  grind

theorem roundTrip_branch (f : BranchForm) (h : f.wf = true) : RoundTrip (.branchJump f) := by
  rintro _ ⟨⟩
  cases f with
  | br c a b off =>
    have h : (encBranch (.br c a b off)).bImm = off := imm13_join (of_decide_eq_true h)
    calc decodeR (encBranch (.br c a b off))
      _ = .ok (.branchJump (.br c a b (encBranch (.br c a b off)).bImm)) := by cases c <;> rfl
      _ = .ok (.branchJump (.br c a b off)) := by rw [h]
  | jal d off =>
    have h : (encBranch (.jal d off)).jImm = off := imm21_join (of_decide_eq_true h)
    calc decodeR (encBranch (.jal d off))
      _ = .ok (.branchJump (.jal d (encBranch (.jal d off)).jImm)) := rfl
      _ = .ok (.branchJump (.jal d off)) := by rw [h]
  | jalr d a imm =>
    calc decodeR (encBranch (.jalr d a imm))
      _ = .ok (.branchJump (.jalr d a (encI 0x67 0 d a imm).imm)) := rfl
      _ = .ok (.branchJump (.jalr d a imm)) := by rw [imm_encI]

/-! ### Every 32-bit word -/

theorem roundTrip_fxFloat (d a b : Reg) : ∀ i ∈ [Instr.fxCvtBf16F64 d a, .fxCvtF64Bf16 d a, .fxCvtBf16F16 d a, .fxCvtF16Bf16 d a,
    .fxPkBf16 d a b, .fxUpkLo d a, .fxUpkHi d a, .fxPaddBf16 d a b, .fxPsubBf16 d a b, .fxPmulBf16 d a b, .fxPfmaBf16 d a b,
    .fxPdotF32Bf16 d a b, .fxSclF32 d a b, .fxSclF64 d a b, .fxXpnF32 d a, .fxXpnF64 d a, .fxExp2F32 d a, .fxLog2F32 d a,
    .fxRcpF32 d a, .fxRsqrtF32 d a, .fxSinpiF32 d a, .fxCospiF32 d a, .fxTanhF32 d a, .fxSigmF32 d a], RoundTrip i := by
  simp only [List.forall_mem_cons]
  and_intros <;> rintro _ ⟨⟩ <;> simp [decodeR, decCustom1, decFxFloat, encR, Decoded.guard]

/-- The families above; of any other instruction each field but the registers is a number, and the decoder computes. -/
theorem roundTrip_32 (i : Instr) (h : i.wf = true) : RoundTrip i := by
  cases i with
  | thPause n => exact roundTrip_imm9 0 0 0 0 n .i8 .i8 _ (by simp)
  | fxSrari d a sh | fxSati d a sh | fxSatni d a sh => exact roundTrip_imm9 d a 0 sh 0 .i8 .i8 _ (by simp)
  | fxScliF32 d a n | fxScliF64 d a n => exact roundTrip_imm9 d a 0 0 n .i8 .i8 _ (by simp)
  | ldNc w d a n | ldBp w d a n | sl w d a n => exact roundTrip_imm9 d a 0 0 n w .i8 _ (by simp)
  | stBp v a b n | ss v a b n => exact roundTrip_imm9 0 a b 0 n .i8 v _ (by simp)
  | cvJoin d n | cvJoinCrew d n | cvQuit d n | cvBar d n | cvBarRx d n | cvArv d n | cvArvRx d n =>
    exact roundTrip_convergence d 0 n _ (by simp)
  | cvWt d a n | cvWtTry d a n | cvQry d a n => exact roundTrip_convergence d a n _ (by simp)
  | gpShflIdx d a b n | gpShflXor d a b n | gpShflUp d a b n | gpShflDn d a b n | gpBcst d a b n =>
    exact roundTrip_shuffle d a b n _ (by simp)
  | gpAll d a n | gpAny d a n | gpUni d a n | gpBlt d a n | gpPcnt d a n | gpMtchLdr d a n | gpMtchCnt d a n =>
    exact roundTrip_vote d a n _ (by simp)
  | gpRed o d a n | gpScan o d a n | gpXscan o d a n => exact roundTrip_scanInt d a n o _ (by simp)
  | gpRedAddF p d a n | gpRedMinF p d a n | gpRedMaxF p d a n | gpScanAddF p d a n | gpXscanAddF p d a n =>
    exact roundTrip_scanFloat d a n p _ (by simp)
  | fxAdds t d a b | fxSubs t d a b => exact roundTrip_fixed d a b t .i8 .i8 _ (by simp)
  | fxDot v d a b => exact roundTrip_fixed d a b .i64 v .i8 _ (by simp)
  | fxXp k d a b | fxNr k d a b => exact roundTrip_fixed d a b .i64 .i8 k _ (by simp)
  | fnScoped x p q => exact roundTrip_fnScoped x p q
  | amoOp o t x aq rl d a => exact roundTrip_amo o t x aq rl d a _ (by simp)
  | amoLd t x aq d a => exact roundTrip_amo .add t x aq false d a _ (by simp)
  | amoSt t x rl d a => exact roundTrip_amo .add t x false rl d a _ (by simp)
  | amoTick aq rl d a => exact roundTrip_amo .add .i32 .cw aq rl d a _ (by simp)
  | amoCas t x aq rl d a => exact (roundTrip_amoPair t x aq rl d a h).1
  | amoDraw x aq rl d a =>
    obtain ⟨he, hd⟩ := (Bool.and_eq_true _ _).mp h
    exact (roundTrip_amoPair .i32 x aq rl d a he).2 (bne_iff_ne.1 hd)
  | red o t x a b => exact roundTrip_red o t x a b (bne_iff_ne.1 h)
  | load k d a imm => exact roundTrip_load k d a imm
  | store k a b imm => exact roundTrip_store k a b imm
  | standardAlu f => exact roundTrip_alu f h
  | standardFp f => exact roundTrip_fp f h
  | branchJump f => exact roundTrip_branch f h
  | fence fm p q => exact roundTrip_fence fm p q
  | lr dbl aq rl d a => exact roundTrip_stdAmo .add dbl aq rl d a 0 _ (by simp)
  | sc dbl aq rl d a b => exact roundTrip_stdAmo .add dbl aq rl d a b _ (by simp)
  | standardAmo o dbl aq rl d a b => exact roundTrip_stdAmo o dbl aq rl d a b _ (by simp)
  | amocas cw aq rl d a b => exact roundTrip_amocas cw aq rl d a b (by simpa [Instr.wf] using h)
  | csrAccess op im d a c => exact roundTrip_csr op im d a c
  | fxCvtBf16F64 d a | fxCvtF64Bf16 d a | fxCvtBf16F16 d a | fxCvtF16Bf16 d a | fxUpkLo d a | fxUpkHi d a | fxXpnF32 d a
  | fxXpnF64 d a | fxExp2F32 d a | fxLog2F32 d a | fxRcpF32 d a | fxRsqrtF32 d a | fxSinpiF32 d a | fxCospiF32 d a
  | fxTanhF32 d a | fxSigmF32 d a => exact roundTrip_fxFloat d a 0 _ (by simp)
  | fxPkBf16 d a b | fxPaddBf16 d a b | fxPsubBf16 d a b | fxPmulBf16 d a b | fxPfmaBf16 d a b | fxPdotF32Bf16 d a b
  | fxSclF32 d a b | fxSclF64 d a b => exact roundTrip_fxFloat d a b _ (by simp)
  | _ => rintro _ ⟨⟩ <;> rfl

end Sys2Proof
end

section
/-! Round trip of the literal and wide words, of `c.mop.n`, and so of every instruction (O3). -/

namespace Sys2Proof

/-! ### Literal forms (Table 2.7) -/

theorem literal_fields (lit : BitVec 32) (k : BitVec 4) (d : Reg) :
    let w : BitVec 48 := lit ++ k ++ d ++ (0x1f : BitVec 7)
    w.extractLsb' 16 32 = lit ∧ w.extractLsb' 12 4 = k ∧ w.extractLsb' 7 5 = d ∧ w.extractLsb' 0 7 = 0x1f := by
  simp (disch := omega) [BitVec.extractLsb'_append_eq_of_le, BitVec.extractLsb'_append_eq_of_add_le, -Nat.reduceAdd]

theorem roundTrip_48 {i : Instr} {w : BitVec 48} (h : encode48 i = some w) : decode48 w = .ok i ∧ w.extractLsb' 0 7 = 0x1f := by
  cases i with
  | fxLi d lit | fxLiu d lit | fxLih d lit | fxAddl d lit | fxAndl d lit | fxOrl d lit | fxXorl d lit | fxAuipcl d lit
  | fxLis d lit | fxLid d lit =>
    cases h
    obtain ⟨hl, hk, hd, ho⟩ := literal_fields lit _ d
    exact ⟨by simp only [decode48, hl, hk, hd, ho]; rfl, ho⟩
  | _ => cases h

/-! ### Wide forms (Table 2.9) -/

@[simp] theorem cfmtOf_cfmtCode (f : CFmt) : cfmtOf (cfmtCode f) = some f := by
  cases f with
  | elt e => cases e <;> decide
  | bf16 => decide
  | f32 => decide
@[simp] theorem mxFmtOf_mxFmtCode (f : MxFmt) : mxFmtOf (mxFmtCode f) = some f := by cases f <;> rfl
@[simp] theorem dimOf_dimCode (x : Dim) : dimOf (dimCode x) = x := by cases x <;> rfl

/-- What decoding the 64-bit word of an instruction gives back. -/
def WideTrip (i : Instr) : Prop := ∀ r, encode64 i = some r → decodeW r = .ok i

theorem copyForm_encCopy (f6 : BitVec 6) (f : CopyForm) (d a b c : Reg) (h : f.wf = true) :
    (encCopy f6 f d a b c).copyForm = some f := by
  cases f with
  | plain => rfl
  | conv s t g =>
    simp (disch := omega) [encCopy, encW, WWord.copyForm, WWord.fmts, h, BitVec.extractLsb'_append_eq_of_le,
      BitVec.extractLsb'_append_eq_of_add_le, -Nat.reduceAdd]
  | mx s t x =>
    simp (disch := omega) [encCopy, encW, WWord.copyForm, WWord.fmts, WWord.x, h, BitVec.extractLsb'_append_eq_of_le,
      BitVec.extractLsb'_append_eq_of_add_le, -Nat.reduceAdd]

theorem rowForm_encRows (f6 : BitVec 6) (f : RowForm) (d a b c x y : Reg) (h : f.wf = true) :
    (encRows f6 f d a b c x y).rowForm = some f ∧ (encRows f6 f d a b c x y).x = x ∧
      (encRows f6 f d a b c x y).cf.extractLsb' 16 5 = y := by
  cases f with
  | plain =>
    simp (disch := omega) [encRows, encW, WWord.rowForm, WWord.x, BitVec.extractLsb'_append_eq_of_le,
      BitVec.extractLsb'_append_eq_of_add_le, -Nat.reduceAdd]
  | conv s t g =>
    simp (disch := omega) [encRows, encW, WWord.rowForm, WWord.fmts, WWord.x, h, BitVec.extractLsb'_append_eq_of_le,
      BitVec.extractLsb'_append_eq_of_add_le, -Nat.reduceAdd]

theorem wideTrip_copy (f : CopyForm) (d a b c : Reg) (h : f.wf = true) :
    ∀ i ∈ [Instr.copyGs f d a b c, .copySg f d a b c, .copyGg f d a b c, .copySs f d a b c], WideTrip i := by
  have hr (f6 : BitVec 6) : (encCopy f6 f d a b c).op = 0x3f ∧ (encCopy f6 f d a b c).cls = 0 ∧ (encCopy f6 f d a b c).f6 = f6 ∧
      (encCopy f6 f d a b c).d = d ∧ (encCopy f6 f d a b c).a = a ∧ (encCopy f6 f d a b c).b = b ∧ (encCopy f6 f d a b c).c = c := by
    cases f <;> exact ⟨rfl, rfl, rfl, rfl, rfl, rfl, rfl⟩
  simp only [List.forall_mem_cons]
  and_intros <;> rintro _ ⟨⟩ <;> simp [decodeW, decCopy, copyForm_encCopy, hr, h, Decoded.opt]

theorem wideTrip_rows (f : RowForm) (d a b c x y : Reg) (h : f.wf = true) :
    ∀ i ∈ [Instr.copyGath f d a b c x y, .copyScat f d a b c x y], WideTrip i := by
  have hr (f6 : BitVec 6) : (encRows f6 f d a b c x y).op = 0x3f ∧ (encRows f6 f d a b c x y).cls = 0 ∧
      (encRows f6 f d a b c x y).f6 = f6 ∧ (encRows f6 f d a b c x y).d = d ∧ (encRows f6 f d a b c x y).a = a ∧
      (encRows f6 f d a b c x y).b = b ∧ (encRows f6 f d a b c x y).c = c := by
    cases f <;> exact ⟨rfl, rfl, rfl, rfl, rfl, rfl, rfl⟩
  simp only [List.forall_mem_cons]
  and_intros <;> rintro _ ⟨⟩ <;> simp [decodeW, decCopy, rowForm_encRows, hr, h, Decoded.opt]

theorem mxArgs_encMx (f6 : BitVec 6) (x : MxArgs) (h : x.wf = true) : (encMx f6 x).mxArgs = some x := by
  obtain ⟨fmt, z, m, n, cv, rd, a, b, p, y⟩ := x
  simp (disch := omega) [encMx, encW, WWord.mxArgs, WWord.x, h, BitVec.extractLsb'_append_eq_of_le,
    BitVec.extractLsb'_append_eq_of_add_le, -Nat.reduceAdd]

theorem wideTrip_matrix (x : MxArgs) (h : x.wf = true) : ∀ i ∈ [Instr.mxMma x, .mxGmma x, .mxPmma x], WideTrip i := by
  have hr (f6 : BitVec 6) : (encMx f6 x).op = 0x3f ∧ (encMx f6 x).cls = 2 ∧ (encMx f6 x).f6 = f6 := ⟨rfl, rfl, rfl⟩
  simp only [List.forall_mem_cons]
  and_intros <;> rintro _ ⟨⟩ <;> simp [decodeW, decMatrix, mxArgs_encMx, hr, h, Decoded.opt]

theorem wideTrip_drain (x : DrnArgs) : ∀ i ∈ [Instr.mxDrn x, .mxDrnZ x], WideTrip i := by
  simp only [List.forall_mem_cons]
  and_intros <;> rintro _ ⟨⟩ <;>
    simp (disch := omega) [decodeW, decMatrixCtl, encDrn, encW, WWord.x, BitVec.extractLsb'_append_eq_of_le,
      BitVec.extractLsb'_append_eq_of_add_le, -Nat.reduceAdd]

theorem wideTrip_control (d a b c : Reg) (n : BitVec 4) : ∀ i ∈ [Instr.mxTake d a n, .mxPass d a b n, .mxTakeTk d a b c n,
    .mxPassTk d a n], WideTrip i := by
  simp only [List.forall_mem_cons]
  and_intros <;> rintro _ ⟨⟩ <;>
    simp (disch := omega) [decodeW, decMatrixCtl, encCtl, encW, BitVec.extractLsb'_append_eq_of_le,
      BitVec.extractLsb'_append_eq_of_add_le, Decoded.guard, -Nat.reduceAdd]

theorem wideTrip_epRun (d a b c x : Reg) : WideTrip (.epRun d a b c x) := by
  rintro _ ⟨⟩
  simp [decodeW, decEpilogue, encW, WWord.x, append_high, append_low, Decoded.guard, -Nat.reduceAdd]

/-- The families above; of any other wide instruction each field but the registers is a number. -/
theorem roundTrip_64 (i : Instr) (h : i.wf = true) : WideTrip i := by
  cases i with
  | copyGs f d a b c | copySg f d a b c | copyGg f d a b c | copySs f d a b c => exact wideTrip_copy f d a b c h _ (by simp)
  | copyGath f d a b c x y | copyScat f d a b c x y => exact wideTrip_rows f d a b c x y h _ (by simp)
  | mxMma x | mxGmma x | mxPmma x => exact wideTrip_matrix x h _ (by simp)
  | mxDrn x | mxDrnZ x => exact wideTrip_drain x _ (by simp)
  | mxTake d a n | mxPassTk d a n => exact wideTrip_control d a 0 0 n _ (by simp)
  | mxPass d a b n => exact wideTrip_control d a b 0 n _ (by simp)
  | mxTakeTk d a b c n => exact wideTrip_control d a b c n _ (by simp)
  | epRun d a b c x => exact wideTrip_epRun d a b c x
  | _ => rintro _ ⟨⟩ <;> rfl

theorem encode64_op {i : Instr} {r : WWord} (h : encode64 i = some r) : r.op = 0x3f := by
  cases i with
  | copyGs f d a b c | copySg f d a b c | copyGg f d a b c | copySs f d a b c => cases h; cases f <;> rfl
  | copyGath f d a b c x y | copyScat f d a b c x y => cases h; cases f <;> rfl
  | _ => cases h <;> rfl

/-! ### Every instruction -/

/-- The opcodes of the words of 32 bits (Tables 2.1 and 2.5). -/
def wordOpcodes : List (BitVec 7) := [0x03, 0x07, 0x0b, 0x0f, 0x13, 0x17, 0x1b, 0x23, 0x27, 0x2b, 0x2f, 0x33, 0x37, 0x3b, 0x43, 0x47,
  0x4b, 0x4f, 0x53, 0x5b, 0x63, 0x67, 0x6f, 0x73, 0x7b]

/-- Their low bits say so (Table 2.3). -/
theorem wordOpcodes_low : ∀ o ∈ wordOpcodes, o.extractLsb' 0 2 = 3 ∧ o.extractLsb' 2 3 ≠ 7 := by decide

theorem encAlu_op (f : AluForm) : (encAlu f).op ∈ wordOpcodes := by
  cases f with
  | rr op d a b => cases op <;> simp [wordOpcodes, encAlu, aluCode, encR]
  | ri op d a imm => cases op <;> simp [wordOpcodes, encAlu, encAluImm, encShift, encI, encR]
  | un op d a => cases op <;> simp [wordOpcodes, encAlu, encAluUn, encI, encR]
  | _ => simp [wordOpcodes, encAlu, encU, encI, encR]

theorem encFp_op (f : FpForm) : (encFp f).op ∈ wordOpcodes := by
  cases f with
  | fma op p rm d a b c => cases op <;> simp [wordOpcodes, encFp, encR]
  | _ => simp [wordOpcodes, encFp, encR]

theorem encode32_op {i : Instr} {r : RWord} (h : encode32 i = some r) : r.op ∈ wordOpcodes := by
  cases i with
  | load k d a imm => cases h; cases k <;> simp [wordOpcodes, encI, loadCode]
  | store k a b imm => cases h; cases k <;> simp [wordOpcodes, storeCode]
  | standardAlu f =>
    cases f with
    | cmop n => cases h
    | _ => cases h; exact encAlu_op _
  | standardFp f => cases h; exact encFp_op f
  | branchJump f => cases f <;> cases h <;> simp [wordOpcodes, encBranch, encI]
  | _ => cases h <;> simp [wordOpcodes, encR, encI, encI9, encS9, encAmo, encStdAmo, encG]

theorem decode_encode_cmop (n : BitVec 3) : decode (encode (.standardAlu (.cmop n))) = .ok (.standardAlu (.cmop n)) := by
  revert n
  decide

/-- But for `c.mop.n` an instruction with an encoding has a word of one of the three lengths. -/
theorem encoded_eq {i : Instr} (hc : ∀ n, i ≠ .standardAlu (.cmop n)) :
    i.encoded = ((encode32 i).isSome || (encode48 i).isSome || (encode64 i).isSome) := by
  cases i with
  | standardAlu f =>
    cases f with
    | cmop n => exact absurd rfl (hc n)
    | _ => rfl
  | _ => rfl

theorem decode_encode {i : Instr} (h : i.encoded = true) (hw : i.wf = true) : decode (encode i) = .ok i := by
  by_cases hc : ∃ n, i = .standardAlu (.cmop n)
  · obtain ⟨n, rfl⟩ := hc
    exact decode_encode_cmop n
  · have hn (n) (e : i = .standardAlu (.cmop n)) : False := hc ⟨n, e⟩
    rw [encoded_eq hn] at h
    cases h32 : encode32 i with
    | some r =>
      obtain ⟨hl, ht⟩ := wordOpcodes_low _ (encode32_op h32)
      rw [decode_encode32 hn h32 hl ht, roundTrip_32 i hw r h32]
    | none =>
      cases h48 : encode48 i with
      | some w => rw [decode_encode48 hn h32 h48 (roundTrip_48 h48).2, (roundTrip_48 h48).1]
      | none =>
        cases h64 : encode64 i with
        | some r => rw [decode_encode64 hn h32 h48 h64 (encode64_op h64), roundTrip_64 i hw r h64]
        | none => simp [h32, h48, h64] at h

/-- Settles O3: an instruction has a word of one length, and the fields that its decoder reads are those that were packed. -/
theorem decodeEncode : Obligations.DecodeEncode := by
  unfold Obligations.DecodeEncode
  exact fun i => decode_encode

end Sys2Proof
end

section
/-! What a step runs (O4, O5): words of the spec, and the instruction at the pc of the agent in issue. -/

namespace Sys2Proof.Machine.State

variable {s : State} {k : Nat} {t : Strand}

/-- Where its context lines can be read, an instruction goes on with them (R55). -/
theorem withContext_eq {ls : List Nat} {g : State → Out} (ht : s.strand? k = some t) (hl : s.HasLines k ls) :
    s.withContext k ls g = g (s.fetchLines k ls) := by
  obtain ⟨hp, hb⟩ := hl
  simp only [withContext, withLines, ht, hp, hb, Bool.false_eq_true, if_false]

/-- With an empty agenda an agent that can issue does so. -/
theorem step_of_canIssue (ha : s.agenda = []) (hc : s.canIssue = true) : step s = s.issue exec := by
  unfold step
  rw [ha]
  exact if_pos hc

/-- A strand that waits for nothing and for which nothing is pending fetches and runs its next instruction. -/
theorem issueStrand_eq {e : Instr → State → Out} (hm : s.mayIssue t = true) (hw : t.wait = .none) (hs : t.pendStop = 0) (hk : t.pendKill = false)
    (hu : t.ue = none) (hb : t.badRd = none) (hr : s.recallDue t = false) :
    s.issueStrand t e = s.withContext t.image baseLines fun s =>
      s.withContext t.image (match s.strand? t.image with | some t => if t.depth = 0 then [] else [13] | none => []) fun s => s.runNext e := by
  unfold issueStrand
  simp only [hm, hw, hs, hk, hu, hb, hr, goesOn]
  rfl

theorem execStrand_eq {e : Instr → State → Out} {i : Instr} (ht : s.strand? k = some t) (hl : s.HasLines k (i.lines t.depth)) :
    let g := s.fetchLines k (i.lines t.depth)
    s.execStrand k e i = if g.owes k i then g.stall else if !(heldBy t i).isEmpty then
        .next (g.modStrand k fun u => { u with marks := u.marks.filter fun m => !(heldBy t i).contains m, since := none })
      else e i (g.holdOver k i) := by
  unfold execStrand
  simp only [ht]
  exact withContext_eq ht hl

/-- What was fetched and decoded is executed on the state after the fetch. -/
theorem runNext_eq {e : Instr → State → Out} {s' : State} {a : Agent} {ps : List (BitVec 16)} (hc : s.cur = a)
    (hf : s.fetchInstr a = .ok s' ps) : s.runNext e = (s'.issued ps).execDecoded e (decode ps) := by
  unfold runNext
  rw [hc, hf]
  rfl

theorem execDecoded_strand {e : Instr → State → Out} {i : Instr} (hc : s.cur = .strand k) :
    s.execDecoded e (.ok i) = s.execStrand k e i := by
  unfold execDecoded
  rw [hc]

theorem execDecoded_lcore {e : Instr → State → Out} {j : Nat} {i : Instr} (hc : s.cur = .lcore j) :
    s.execDecoded e (.ok i) = e i s := by
  unfold execDecoded
  rw [hc]

theorem execDecoded_lpart {e : Instr → State → Out} {j : Nat} {p : LPart} (hc : s.cur = .lcore j) :
    s.execDecoded e (.lcore p) = s.execLPart j e p := by
  unfold execDecoded
  rw [hc]

/-- A running L-core that takes no interrupt fetches and runs its next instruction. -/
theorem step_lcore {j : Nat} (ha : s.agenda = []) (hc : s.cur = .lcore j) (hr : (s.lcoreAt j).running = true) (hj : j < Config.numLCores)
    (hp : pendingInt (s.lcoreAt j) s.time = none) : step s = s.runNext exec := by
  rw [step_of_canIssue ha (by simpa [canIssue, hc] using hr)]
  unfold issue
  simp only [hc, hr, hj, hp, decide_true, Bool.and_self, if_true]

theorem issue_strand {e : Instr → State → Out} (hc : s.cur = .strand k) (ht : s.strand? k = some t) : s.issue e = s.issueStrand t e := by
  unfold issue
  simp only [hc, ht]

end Sys2Proof.Machine.State

namespace Sys2Proof

open Machine

/-- Settles O4: the words are closed, and the decoder computes. -/
theorem decodeWords : Obligations.DecodeWords := by
  unfold Obligations.DecodeWords
  decide

/-- Settles O5: nothing comes before the fetch, the lines are there, and what was decoded runs where nothing holds it back. -/
theorem stepRunsDecoded : Obligations.StepRunsDecoded := by
  unfold Obligations.StepRunsDecoded
  refine ⟨?_, ?_, ?_, ?_⟩
  · intro s s' t t1 u k ps i l1 s1 s2 f g ha hc ht hm hw hs hk hu hb hr hl ht1 hl1 hc2 hf hc' hd htu hlu
    obtain rfl := (kfind_some ht).1
    have hi : s.canIssue = true := by simp [State.canIssue, hc, ht, hm, hw, hs]
    have hrun : step s = f.execStrand t.image exec i := by
      rw [State.step_of_canIssue ha hi, State.issue_strand hc ht, State.issueStrand_eq hm hw hs hk hu hb hr,
        State.withContext_eq ht hl]
      rw [show (s.fetchLines t.image baseLines).strand? t.image = some t1 from ht1]
      dsimp only
      rw [State.withContext_eq ht1 hl1, State.runNext_eq hc2 hf, hd, State.execDecoded_strand (s := s'.issued ps) hc']
    rw [hrun, State.execStrand_eq htu hlu]
    refine ⟨fun ho => if_pos ho, fun ho hh => ?_, fun ho hh => ?_⟩
    · simp only [g, f] at ho
      simp only [f, ho, hh, List.isEmpty_nil, Bool.not_true, Bool.false_eq_true, if_false, g]
    · simp only [g, f] at ho
      simp only [f, ho, List.isEmpty_eq_false_iff.2 hh, Bool.not_false, Bool.false_eq_true, if_false, if_true, g]
  · intro s s' j ps i ha hc hr hj hp hf hc' hd
    rw [State.step_lcore ha hc hr hj hp, State.runNext_eq hc hf, hd, State.execDecoded_lcore (s := s'.issued ps) hc']
  · intro s s' j ps p ha hc hr hj hp hf hc' hd
    rw [State.step_lcore ha hc hr hj hp, State.runNext_eq hc hf, hd, State.execDecoded_lpart (s := s'.issued ps) hc']
  · exact fun s ps => ⟨rfl, fun h => if_neg h, rfl, rfl⟩

end Sys2Proof
end

section
/-! Literal forms (O7), registers read back (O8), and branches (O10). -/

namespace Sys2Proof.Machine

variable {s : State} {t : Strand}

/-- An FP32 value NaN-boxed has ones above it (R147). -/
theorem box_f32 (lit : BitVec 32) : box f32 lit.toNat = 0xFFFFFFFF#32 ++ lit := by
  apply BitVec.eq_of_toNat_eq
  have := lit.isLt
  rw [BitVec.toNat_append, ← Nat.shiftLeft_add_eq_or_of_lt lit.isLt]
  simp only [box, w64, FFmt.width, f32, BitVec.toNat_ofNat]
  omega

/-! ### Branches -/

theorem exec_branch (h : s.Runs) {c : BrCond} {a b : Reg} {off : BitVec 13} {p : Prop} (hp : brTaken c (s.x a) (s.x b) = true ↔ p) :
    (p → exec (.branchJump (.br c a b off)) s = .next ((s.setPc (s.pc + off.signExtend 64)).retired)) ∧
    (¬p → exec (.branchJump (.br c a b off)) s = .next s.retire) :=
  ⟨fun ht => (State.onAny_eq h _).trans (if_pos (hp.2 ht)), fun hn => (State.onAny_eq h _).trans (if_neg (mt hp.1 hn))⟩

theorem brTaken_iff (a b : Word) : (brTaken .eq a b = true ↔ a = b) ∧ (brTaken .ne a b = true ↔ a ≠ b) ∧
    (brTaken .lt a b = true ↔ a.toInt < b.toInt) ∧ (brTaken .ge a b = true ↔ b.toInt ≤ a.toInt) ∧
    (brTaken .ltu a b = true ↔ a.toNat < b.toNat) ∧ (brTaken .geu a b = true ↔ b.toNat ≤ a.toNat) := by
  simp [brTaken, BitVec.slt, BitVec.ult]

end Sys2Proof.Machine

namespace Sys2Proof

open Machine

/-- Settles O7: a literal form asks only for an agent in issue. -/
theorem literalForms : Obligations.LiteralForms := by
  unfold Obligations.LiteralForms
  intro s rd lit h
  have go (g : Out) : s.onAny g = g := State.onAny_eq h g
  refine ⟨go _, go _, go _, go _, go _, go _, go _, go _, fun t ht => ?_, ?_, go _⟩
  · simp only [State.fpOn, State.fpDirty, ht.cur, and_self]
  · rw [← box_f32]
    exact go _

/-- Settles O8: every word of the strand's context after retirement. -/
theorem registerReadBack : Obligations.RegisterReadBack := by
  unfold Obligations.RegisterReadBack
  intro s t rd r v hI h
  obtain ⟨u, hu, -, eu⟩ := h.retX_cw (h.swf hI) rd v
  obtain ⟨w, hw, -, ew⟩ := h.retF_cw (h.swf hI) rd v
  have hw : (s.retF rd v 0).OnStrand w := hw
  have hpc : cPc = 0 := rfl
  have hfc : cFcsr = 64 := rfl
  have hrd := rd.isLt
  have hne (hn : r ≠ rd) : r.toNat ≠ rd.toNat := fun e => hn (BitVec.eq_of_toNat_eq e)
  have hx (q : Reg) (hq : q ≠ 0) : q.toNat ≠ cPc := (State.reg_pos hq).ne'
  have hf (q : Reg) : 32 + q.toNat ≠ cPc := by omega
  refine ⟨?_, fun hn => ?_, ?_, ?_, ?_, ?_, ?_, fun hn => ?_, ?_, ?_⟩
  · rw [hu.x, eu]
    split
    · rfl
    next hz => rw [if_neg (hx rd hz), if_pos ⟨rfl, hz⟩]
  · rw [hu.x, h.x, eu]
    split
    · rfl
    next hz => rw [if_neg (hx r hz), if_neg fun e => hne hn e.1]
  · rw [hu.f, h.f, eu, if_neg (hf r), if_neg (by omega)]
  · rw [hu.pc, eu, if_pos rfl]
  · rw [hu.fcsr, h.fcsr, eu, if_neg (by omega), if_neg (by omega)]
  · simp only [State.retX, State.retire_mem, State.setX_mem]
  · rw [hw.f, ew, if_neg (hf rd), if_pos rfl]
  · rw [hw.f, h.f, ew, if_neg (hf r), if_neg (by have := hne hn; omega)]
  · rw [hw.x, h.x, ew]
    split
    · rfl
    next hz => rw [if_neg (hx r hz), if_neg (by have := r.isLt; omega)]
  · rw [hw.pc, ew, if_pos rfl]

/-- Settles O10: each condition is the comparison that RISC-V gives it; a jump asks only for an agent in issue. -/
theorem branches : Obligations.Branches := by
  unfold Obligations.Branches
  intro s rd a b off far imm h
  obtain ⟨heq, hne, hlt, hge, hltu, hgeu⟩ := brTaken_iff (s.x a) (s.x b)
  exact ⟨exec_branch h heq, exec_branch h hne, exec_branch h hlt, exec_branch h hge, exec_branch h hltu, exec_branch h hgeu,
    State.onAny_eq h _, State.onAny_eq h _⟩

end Sys2Proof
end

section
/-! The frame of the instructions that work on registers alone (O17). -/

namespace Sys2Proof.Machine

namespace State

variable {s : State} {t : Strand} {ws : List Nat}

/-- The instruction goes on, and of the machine only the words `ws` of the strand's context may have changed, with the marks
of retirement. -/
def Frames (s : State) (t : Strand) (ws : List Nat) (o : Out) : Prop := ∃ s', o = .next s' ∧ s.OnlyWords s' t ws

/-! ### The guards -/

theorem Frames.onAny (h : s.OnStrand t) {g : Out} (hg : s.Frames t ws g) : s.Frames t ws (s.onAny g) := by
  rwa [onAny_eq h.runs]

theorem Frames.onStrand (h : s.OnStrand t) {g : Strand → Out} (hg : s.Frames t ws (g t)) : s.Frames t ws (s.onStrand g) := by
  rwa [onStrand_eq h]

theorem Frames.withFrm (h : s.OnStrand t) (hr : s.frm?.isSome = true) {g : Nat → Out} (hg : ∀ r, s.Frames t ws (g r)) :
    s.Frames t ws (s.withFrm g) := by
  obtain ⟨r, hr⟩ := Option.isSome_iff_exists.1 hr
  rw [withFrm_of_legal h hr]
  exact hg r

theorem OnStrand.fpOn (h : s.OnStrand t) : s.fpOn = true := by rw [State.fpOn, h.cur]

theorem OnStrand.fpDirty (h : s.OnStrand t) : s.fpDirty = s := by rw [State.fpDirty, h.cur]

/-! ### The endings -/

theorem Wrote.frames_next {s' : State} (h : s.Wrote s' t (cPc :: ws)) : s.Frames t (cPc :: ws) s'.next :=
  ⟨_, rfl, h.retire (List.mem_cons_self ..)⟩

theorem Wrote.frames_jump {s' : State} (h : s.Wrote s' t (cPc :: ws)) (v : Word) : s.Frames t (cPc :: ws) (s'.jump v) :=
  ⟨_, rfl, (h.setCtx v (List.mem_cons_self ..)).retired⟩

variable (h : s.OnStrand t) (hw : Machine.swf t.ctx = true)
include h hw

theorem frames_status (rd : Reg) (v : Word) : s.Frames t [cPc, rd.toNat] (s.status rd v) :=
  ((Wrote.refl h hw).setX v (by simp)).frames_next

theorem frames_setF (rd : Reg) (v : Word) : s.Frames t [cPc, 32 + rd.toNat] (s.setF rd v).next :=
  ((Wrote.refl h hw).setF v (by simp)).frames_next

theorem frames_satDone (rd : Reg) (v : Word) (b : Bool) : s.Frames t [cPc, rd.toNat, cFxsat] (s.satDone rd v b) := by
  rw [satDone_eq]
  exact (((Wrote.refl h hw).satMark b (by simp)).setX v (by simp)).frames_next

theorem frames_fdone (rd : Reg) (v : Word) (fl : Nat) : s.Frames t [cPc, 32 + rd.toNat, cFcsr] (s.fdone rd v fl) :=
  (((Wrote.refl h hw).setF v (by simp)).accrue fl (by simp)).frames_next

theorem frames_xdone (rd : Reg) (v : Word) (fl : Nat) : s.Frames t [cPc, rd.toNat, cFcsr] (s.xdone rd v fl) :=
  (((Wrote.refl h hw).setX v (by simp)).accrue fl (by simp)).frames_next

end State

/-! ### Standard floating point -/

/-- Where a result of a form goes: the context word that `Instr.writes` gives its destination. -/
def FpRes.word (rd : Reg) : FpRes → Nat
  | .f _ _ => 32 + rd.toNat
  | .x _ _ => rd.toNat

theorem rmOf_isSome {s : State} (hr : s.frm?.isSome = true) {rm : BitVec 3} (hw : rmOk rm = true) : (s.rmOf rm).isSome = true := by
  have legal : ∀ rm : BitVec 3, rmOk rm = true → rm ≠ 7 → rm.toNat < 5 := by decide
  unfold State.rmOf
  split
  · exact hr
  next h7 => rw [if_pos (legal rm hw h7), Option.isSome_some]

/-- With a legal rounding mode a form has a result, and it goes to the destination that the form names. -/
theorem fpResult_word {s : State} (hr : s.frm?.isSome = true) {f : FpForm} {ws : List Nat} (hw : f.wf = true)
    (hws : (Instr.standardFp f).writes = some ws) : ∃ rd q, fpResult s f = some (rd, q) ∧ ws = [cPc, cFcsr, q.word rd] := by
  have some_of {rm : BitVec 3} (hw : rmOk rm = true) : ∃ r, s.rmOf rm = some r := Option.isSome_iff_exists.1 (rmOf_isSome hr hw)
  cases hws
  cases f with
  | bin _ _ rm | sqrt _ rm | fma _ _ rm | toInt _ _ rm | ofInt _ _ rm | cvt _ rm =>
    obtain ⟨r, h⟩ := some_of hw
    exact ⟨_, _, congrArg (Option.map _) h, rfl⟩
  | sgnj | minmax | cmp | cls => exact ⟨_, _, rfl, rfl⟩
  | mv k => cases k <;> exact ⟨_, _, rfl, rfl⟩

end Sys2Proof.Machine

namespace Sys2Proof

open Machine State

/-- Settles O17: by the instruction; each ends in one of few ways, every word of which it lists. -/
theorem registerFrame : Obligations.RegisterFrame := by
  unfold Obligations.RegisterFrame
  intro s t i ws hI h hws hwf hr
  have hw := h.swf hI
  show s.Frames t ws (exec i s)
  cases i with
  | fxLi rd | fxLiu rd | fxLih rd | fxAddl rd | fxAndl rd | fxOrl rd | fxXorl rd | fxAuipcl rd =>
    cases hws
    exact .onAny h (frames_status h hw ..)
  | fxLis rd lit | fxLid rd lit =>
    cases hws
    refine .onAny h ?_
    rw [h.fpOn, h.fpDirty]
    exact frames_setF h hw ..
  | fxAdds | fxSubs | fxDot | fxSati | fxSatni =>
    cases hws
    exact .onStrand h (frames_satDone h hw ..)
  | fxSrari rd a sh =>
    cases hws
    exact .onStrand h (frames_status h hw ..)
  | fxCvtBf16F64 | fxCvtBf16F16 | fxCvtF16Bf16 | fxPkBf16 | fxPaddBf16 | fxPsubBf16 | fxPmulBf16 | fxPfmaBf16 | fxPdotF32Bf16
  | fxXp | fxSclF32 | fxSclF64 | fxScliF32 | fxScliF64 =>
    cases hws
    exact .withFrm h hr fun _ => frames_fdone h hw ..
  | fxCvtF64Bf16 | fxUpkLo | fxUpkHi | fxExp2F32 | fxLog2F32 | fxRcpF32 | fxRsqrtF32 | fxSinpiF32 | fxCospiF32 | fxTanhF32 | fxSigmF32 =>
    cases hws
    exact .onStrand h (frames_fdone h hw ..)
  | fxNr =>
    cases hws
    exact .withFrm h hr fun _ => frames_xdone h hw ..
  | fxXpnF32 | fxXpnF64 =>
    cases hws
    exact .onStrand h (frames_xdone h hw ..)
  | standardAlu f =>
    cases hws
    refine .onAny h ?_
    cases f with
    | rr | ri | un | lui | auipc | mopr | moprr => exact frames_status h hw ..
    | cmop => exact frames_status h hw 0 0
  | standardFp f =>
    obtain ⟨rd, q, hq, rfl⟩ := fpResult_word hr hwf hws
    refine .onAny h ?_
    rw [withFp, h.fpOn, h.fpDirty, if_pos rfl, hq]
    cases q with
    | f v fl => exact (((Wrote.refl h hw).setF v (by simp [FpRes.word])).accrue fl (by simp)).frames_next
    | x v fl => exact (((Wrote.refl h hw).setX v (by simp [FpRes.word])).accrue fl (by simp)).frames_next
  | branchJump f =>
    cases hws
    refine .onAny h ?_
    cases f with
    | br c a b off =>
      dsimp only
      split
      · exact (Wrote.refl h hw).frames_jump _
      · exact (Wrote.refl h hw).frames_next
    | jal | jalr => exact ((Wrote.refl h hw).setX _ (by simp)).frames_jump _
  | _ => cases hws

end Sys2Proof
end

section
/-! The instructions that W-cores alone implement, on an L-core (O49). -/

namespace Sys2Proof.Machine

/-- Each instruction of W-cores alone asks first for a strand in issue (R26). -/
theorem exec_wOnly (s : State) {i : Instr} (he : i.encoded = true) (hl : i.onL = false) : ∃ g, exec i s = s.onStrand g := by
  cases i with
  | mgHome | fkFlt | fkJoin | fkJoinTry | fkStop | fkStopPre | fkStopRsm | fkQry | thParkMem | thParkBat | thParkTm | thYield
  | thPause | cvJoin | cvJoinCrew | cvQuit | cvBar | cvBarRx | cvArv | cvArvRx | cvWt | cvWtTry | cvQry | gpShflIdx |
  gpShflXor | gpShflUp | gpShflDn | gpBcst | gpAll | gpAny | gpUni | gpBlt | gpPcnt | gpMtchLdr | gpMtchCnt | gpRed | gpScan |
  gpXscan | gpRedAddF | gpRedMinF | gpRedMaxF | gpScanAddF | gpXscanAddF | fxAdds | fxSubs | fxDot | fxCvtBf16F64 |
  fxCvtF64Bf16 | fxCvtBf16F16 | fxCvtF16Bf16 | fxPkBf16 | fxUpkLo | fxUpkHi | fxPaddBf16 | fxPsubBf16 | fxPmulBf16 |
  fxPfmaBf16 | fxPdotF32Bf16 | fxXp | fxNr | fxSclF32 | fxSclF64 | fxXpnF32 | fxXpnF64 | fxExp2F32 | fxLog2F32 | fxRcpF32 |
  fxRsqrtF32 | fxSinpiF32 | fxCospiF32 | fxTanhF32 | fxSigmF32 | fxSrari | fxSati | fxSatni | fxScliF32 | fxScliF64 | ldNc |
  ldBp | stBp | sl | ss | fnPfL1 | fnPfLlc | fnPfW | sgFork | sgRwd | sgCol | sgCxl | sgExt | sgQry | sgLeave | clPost |
  clRing | clPut | clGet | clSig | clWait | clWaitTry | clQry | pwQry | pwYld | pwWind | syPark | syEnd | syDbg | syRec |
  syTlbsd | copyGs | copySg | copyGg | copySs | copyGath | copyScat | copyFillS | copyFillG | cpSeal | cpWait | cpStop | mxMma
  | mxGmma | mxPmma | mxTake | mxPass | mxTakeTk | mxPassTk | amGet | amRel | amZero | amRd | epLoad | epRun | mxDrn
  | mxDrnZ => exact ⟨_, rfl⟩
  | fxLi | fxLiu | fxLih | fxAddl | fxAndl | fxOrl | fxXorl | fxAuipcl | fxLis | fxLid | mgGo | fnScoped | fnNc | amoOp
  | amoCas | amoLd | amoSt | amoDraw | amoTick | red | load | store | standardAlu | standardFp | branchJump | fence | fenceI |
  wrsNto | wrsSto | lr | sc | standardAmo | amocas | ecall | ebreak | wfi | sret | sfenceVma | csrAccess => cases hl
  | _ => cases he

end Sys2Proof.Machine

namespace Sys2Proof

open Machine

/-- Settles O49: the guard of such an instruction finds an L-core in issue. -/
theorem coreClass : Obligations.CoreClass := by
  unfold Obligations.CoreClass
  intro s j i h he hl
  obtain ⟨g, hg⟩ := exec_wOnly s he hl
  rw [hg, State.onStrand_lcore h]

end Sys2Proof
end

section
/-! CSR accesses of a strand and of an L-core (O50). -/

namespace Sys2Proof.Machine

namespace State

variable {s : State} {t : Strand} {c : Crew} {j n : Nat} {op : CsrOp} {rd : Reg} {wr : Bool} {src v : Word}

theorem exec_csrAccess_strand (h : s.OnCrew t c) (rd a : Reg) (m : BitVec 12) : exec (.csrAccess op false rd a m) s =
    s.csrStrand t c op rd (op = .rw || a ≠ 0) (s.x a) m.toNat := by
  refine (onAny_eq h.onStrand.runs _).trans ?_
  rw [h.onStrand.cur]
  exact onCrew_eq h _

theorem exec_csrAccess_lcore (h : s.OnL j) (rd a : Reg) (m : BitVec 12) : exec (.csrAccess op false rd a m) s =
    s.csrL j op rd (op = .rw || a ≠ 0) (s.x a) m.toNat := by
  refine (onAny_eq h.runs _).trans ?_
  rw [h.1]
  rfl

/-! ### Of a strand -/

/-- Whether privilege or what can be written bars the access of a strand (R45). -/
def csrBarred (t : Strand) (n : Nat) (wr : Bool) : Bool :=
  n / 256 % 4 = 3 || (n / 256 % 4 ≠ 0 && !t.sMode) || (wr && (3072 ≤ n || n = 0x180))

theorem csrStrand_of_barred (hl : csrLOnly n = false) (hb : csrBarred t n wr = true) : s.csrStrand t c op rd wr src n = s.illegal := by
  unfold csrStrand
  split
  · rw [hl, if_neg Bool.false_ne_true]
  · exact if_pos hb

theorem csrStrand_of_lOnly (hr : s.csrRead t c n = none) (hl : csrLOnly n = true) :
    s.csrStrand t c op rd wr src n = .next (s.trap 24 s.ibits) := by
  unfold csrStrand
  rw [hr]
  exact if_pos hl

theorem csrStrand_read (hr : s.csrRead t c n = some v) (hb : csrBarred t n false = false) :
    s.csrStrand t c op rd false src n = .next (s.retX rd v) := by
  unfold csrStrand
  rw [hr]
  exact (if_neg (ne_true_of_eq_false hb)).trans (if_pos rfl)

theorem csrStrand_write {s' : State} (hr : s.csrRead t c n = some v) (hb : csrBarred t n true = false)
    (hw : s.csrWrite t c n src = some s') : s.csrStrand t c .rw rd true src n = .next (s'.retX rd v) := by
  unfold csrStrand
  rw [hr]
  refine (if_neg (ne_true_of_eq_false hb)).trans ((if_neg (by decide)).trans ?_)
  rw [csrNew, hw]
  rfl

/-- Privilege bars nothing of a strand that has the mode the number asks for. -/
theorem csrBarred_of_sMode (hm : t.sMode = true) : csrBarred t n wr = (n / 256 % 4 = 3 || (wr && (3072 ≤ n || n = 0x180))) := by
  simp [csrBarred, hm]

/-- CSRs of S-mode. -/
def csrsOfSMode : List (BitVec 12) :=
  [0x140, 0x141, 0x142, 0x143, 0x180, 0x5C0, 0x5C1, 0x5C2, 0x5C3, 0x5E0, 0x5E1, 0x5E2, 0x5E8, 0x5E9]

theorem csrsOfSMode_level : ∀ n ∈ csrsOfSMode, csrLOnly n.toNat = false ∧ n.toNat / 256 % 4 ≠ 0 := by decide

/-- Identity, time and count CSRs. -/
def csrsReadOnly : List (BitVec 12) :=
  [0xC00, 0xC01, 0xC02, 0xCC0, 0xCC1, 0xCC5, 0xCC6, 0xCD0, 0xCE0, 0xCEC, 0xCF0]

theorem csrsReadOnly_level : ∀ n ∈ csrsReadOnly, csrLOnly n.toNat = false ∧ 3072 ≤ n.toNat := by decide

/-- Machine CSRs. -/
def csrsOfMachine : List (BitVec 12) :=
  [0x300, 0x301, 0x305, 0x341, 0x7C0, 0x7C3, 0xF11, 0xF12, 0xF13, 0xF14]

theorem csrsOfMachine_level : ∀ n ∈ csrsOfMachine, csrLOnly n.toNat = false ∧ n.toNat / 256 % 4 = 3 := by decide

/-- Standard CSRs of L-cores alone: those of V, of S-mode, of the hypervisor extension and of AIA. -/
def csrsOfLCores : List (BitVec 12) :=
  [0x008, 0x100, 0x104, 0x204, 0x280, 0x600, 0x308, 0x309, 0x34A, 0x34B, 0x350, 0x351, 0x35C, 0xFB0]

theorem csrLOnly_of_mem : ∀ n ∈ csrsOfLCores, csrLOnly n.toNat = true := by decide

/-- A W-core has no such register. -/
theorem csrRead_of_lOnly (s : State) (t : Strand) (c : Crew) : ∀ n ∈ csrsOfLCores, s.csrRead t c n.toNat = none := by
  simp only [csrsOfLCores, List.forall_mem_cons, List.not_mem_nil, false_imp_iff, implies_true, and_true]
  exact ⟨rfl, rfl, rfl, rfl, rfl, rfl, rfl, rfl, rfl, rfl, rfl, rfl, rfl, rfl⟩

/-! ### Of an L-core -/

theorem csrL_of_wOnly (h : csrWOnly n = true) : s.csrL j op rd wr src n = .next (s.trap 24 s.ibits) := if_pos h

theorem csrL_of_readOnly (h : csrWOnly n = false) (hn : 3072 ≤ n) : s.csrL j op rd true src n = .next (s.trap 2 s.ibits) := by
  unfold csrL
  simp only [h, Bool.false_eq_true, if_false, decide_eq_true hn, Bool.and_true, Bool.or_true, if_true, illegal_eq]

/-- A CSR that an L-core has and that belongs neither to floating point nor to V. -/
def csrPlain (n : Nat) : Bool :=
  !csrWOnly n && !(n = 1 || n = 2 || n = 3) && (n = 0xCC5 || n = 0xCC7 || (lcsrMask n).isSome) && !csrVector n

/-- What an access of such a CSR does, by what bars it. -/
theorem csrL_plain (hp : csrPlain n = true) (hw : (wr && 3072 ≤ n) = false) :
    (lcsrBar (s.lcoreAt j) n wr = 2 → s.csrL j op rd wr src n = .next (s.trap 2 s.ibits)) ∧
    (lcsrBar (s.lcoreAt j) n wr = 22 → s.csrL j op rd wr src n = .next (s.trap 22 s.ibits)) ∧
    (lcsrBar (s.lcoreAt j) n wr = 0 → s.lcsrRead j (vsNum (s.lcoreAt j) n) = (s, v) → s.csrL j op rd wr src n =
      .next ((if wr then s.lcsrWrite j (vsNum (s.lcoreAt j) n) (csrNew op (lcsrBase (s.lcoreAt j) (vsNum (s.lcoreAt j) n) v) src)
        else s).retX rd v)) := by
  simp only [csrPlain, Bool.and_eq_true, Bool.not_eq_true'] at hp
  obtain ⟨⟨⟨hwo, hfp⟩, hhas⟩, hv⟩ := hp
  unfold csrL
  simp only [hwo, hfp, hw, hv, hhas, Bool.false_or, Bool.or_false, Bool.not_true, Bool.false_and, Bool.and_false,
    Bool.false_eq_true, if_false]
  refine ⟨fun hb => ?_, fun hb => ?_, fun hb hr => ?_⟩
  · rw [hb]; rfl
  · rw [hb]; rfl
  · rw [hb, hr]; rfl

/-! What bars an access -/

theorem lcsrBar_mMode {l : LCore} (hm : l.mode = .m) (hn : n ∉ [0x351, 0x151, 0x15C, 0x251, 0x25C]) : lcsrBar l n wr = 0 := by
  simp only [List.mem_cons, List.not_mem_nil, or_false, not_or] at hn
  obtain ⟨h1, h2, h3, h4, h5⟩ := hn
  have hp : lcsrPriv l n = 0 := by unfold lcsrPriv; simp only [hm]
  have hs : stateenBar l n = 0 := by unfold stateenBar; simp only [hm]
  simp [lcsrBar, hp, hs, aiaBar, hm, h1, h2, h3, h4, h5]

/-- The package number and the stall count of the thread are for every mode. -/
theorem lcsrBar_device (l : LCore) (hn : n = 0xCC5 ∨ n = 0xCC7) : lcsrBar l n false = 0 := by
  have hp : lcsrPriv l n = 0 := by rcases hn with rfl | rfl <;> unfold lcsrPriv <;> cases l.mode <;> simp
  have hs : stateenBar l n = 0 := by rcases hn with rfl | rfl <;> unfold stateenBar stateenBit <;> cases l.mode <;> simp
  rcases hn with rfl | rfl <;> simp [lcsrBar, hp, hs, aiaBar]

/-- A number of supervisor or machine level that is no timer comparator's. -/
def csrLevel (n : Nat) : Bool := n / 256 % 4 ≠ 0 && n ≠ 0x14D && n ≠ 0x24D && !(0xC00 ≤ n && n ≤ 0xC1F)

theorem lcsrBar_uMode {l : LCore} (hm : l.mode = .u) (hn : csrLevel n = true) : lcsrBar l n wr = 2 := by
  have hp : lcsrPriv l n = 2 := by
    simp only [csrLevel, Bool.and_eq_true, decide_eq_true_eq, Bool.not_eq_true', ne_eq] at hn
    obtain ⟨⟨⟨h0, h1⟩, h2⟩, h3⟩ := hn
    unfold lcsrPriv
    simp [hm, h0, h1, h2, h3]
  simp only [lcsrBar, hp]

theorem lcsrBar_vuMode {l : LCore} (hm : l.mode = .vu) (hn : csrLevel n = true) (h3 : n / 256 % 4 ≠ 3) : lcsrBar l n wr = 22 := by
  have hp : lcsrPriv l n = 22 := by
    simp only [csrLevel, Bool.and_eq_true, decide_eq_true_eq, Bool.not_eq_true', ne_eq] at hn
    obtain ⟨⟨⟨h0, h1⟩, h2⟩, hc⟩ := hn
    unfold lcsrPriv
    simp [hm, h0, h1, h2, hc, h3]
  simp only [lcsrBar, hp]

theorem vsNum_eq {l : LCore} (h : l.mode ≠ .vs ∨ n ∉ [0x100, 0x104, 0x105, 0x140, 0x141, 0x142, 0x143, 0x144, 0x14D, 0x150, 0x151,
    0x15C, 0x180, 0xDB0]) : vsNum l n = n := by
  unfold vsNum
  rw [if_neg]
  simp only [Bool.and_eq_true, decide_eq_true_eq, List.contains_iff_mem]
  tauto

/-- An L-core reads a CSR that nothing bars. -/
theorem csrL_read (hp : csrPlain n = true) (hb : lcsrBar (s.lcoreAt j) n false = 0) (hn : vsNum (s.lcoreAt j) n = n)
    (hr : s.lcsrRead j n = (s, v)) : s.csrL j op rd false src n = .next (s.retX rd v) := by
  obtain ⟨-, -, h⟩ := csrL_plain (s := s) (j := j) (op := op) (rd := rd) (src := src) (v := v) (wr := false) hp rfl
  rw [hn] at h
  exact h hb hr

/-- It swaps one that nothing bars. -/
theorem csrL_swap (hp : csrPlain n = true) (hw : n < 3072) (hb : lcsrBar (s.lcoreAt j) n true = 0) (hn : vsNum (s.lcoreAt j) n = n)
    (hr : s.lcsrRead j n = (s, v)) : s.csrL j .rw rd true src n = .next ((s.lcsrWrite j n src).retX rd v) := by
  obtain ⟨-, -, h⟩ := csrL_plain (s := s) (j := j) (op := .rw) (rd := rd) (src := src) (v := v) (wr := true) hp (by simpa using hw)
  rw [hn] at h
  exact h hb hr

theorem lcsrWrite_mscratch (s : State) (i : Nat) (v : Word) :
    s.lcsrWrite i 0x340 v = s.modLcore i fun l => { l with csr := sset l.csr 0x340 v } := by
  have hv (x : Word) : (x &&& ~~~0xFFFFFFFFFFFFFFFF) ||| (v &&& 0xFFFFFFFFFFFFFFFF) = v := by
    rw [show (0xFFFFFFFFFFFFFFFF : Word) = BitVec.allOnes 64 from rfl, BitVec.not_allOnes, BitVec.and_zero, BitVec.zero_or, BitVec.and_allOnes]
  show s.lcsrPut i 0x340 v 0xFFFFFFFFFFFFFFFF = _
  simp only [lcsrPut, hv]

/-- An unsupported MODE leaves `satp` as it was. -/
theorem lcsrWrite_satp_of_unsupported {i : Nat} (h0 : wbits v 63 60 ≠ 0) (h8 : wbits v 63 60 < 8 ∨ 10 < wbits v 63 60) :
    s.lcsrWrite i 0x180 v = s := by
  unfold lcsrWrite
  have hl : ¬(8 ≤ wbits v 63 60 ∧ wbits v 63 60 ≤ 10) := by omega
  simp [h0, hl]

theorem lt_of_running {i : Nat} (h : (s.lcoreAt i).running = true) : i < s.lcores.length := by
  by_contra hn
  rw [lcoreAt, List.getD_eq_default _ _ (Nat.le_of_not_lt hn)] at h
  cases h

end State

end Sys2Proof.Machine

namespace Sys2Proof

open Machine State

/-- Settles O50: of a strand, privilege and the read-only numbers decide, then the one word read and the one written; of an L-core,
what its mode bars, then the register itself. -/
theorem csrForms : Obligations.CsrForms := by
  unfold Obligations.CsrForms
  refine ⟨fun s j rd a h => ?_, fun s t c rd a h => ?_⟩
  · have rs (n : BitVec 12) : exec (.csrAccess .rs false rd 0 n) s = s.csrL j .rs rd false (s.x 0) n.toNat :=
      exec_csrAccess_lcore h rd 0 n
    have rw' (n : BitVec 12) : exec (.csrAccess .rw false rd a n) s = s.csrL j .rw rd true (s.x a) n.toNat :=
      exec_csrAccess_lcore h rd a n
    dsimp only
    simp only [rs, rw']
    refine ⟨?_, ?_, ?_, ?_, fun hm => ⟨?_, ?_, ?_, ?_, ?_⟩, fun hm n hn => ?_, fun hm n hn => ?_⟩
    · exact csrL_read (n := 0xCC5) rfl (lcsrBar_device _ (.inl rfl)) (vsNum_eq (.inr (by decide))) rfl
    · exact csrL_read (n := 0xCC7) rfl (lcsrBar_device _ (.inr rfl)) (vsNum_eq (.inr (by decide))) rfl
    · have : ∀ n ∈ [0xC01, 0xCC5, 0xCC7, 0xF11, (0xF14 : BitVec 12)], csrWOnly n.toNat = false ∧ 3072 ≤ n.toNat := by decide
      exact fun n hn => csrL_of_readOnly (this n hn).1 (this n hn).2
    · exact fun n hn => ⟨csrL_of_wOnly hn, csrL_of_wOnly hn⟩
    · refine csrL_read (n := 0xC01) rfl (lcsrBar_mMode hm (by decide)) (vsNum_eq (.inr (by decide))) ?_
      simp [lcsrRead, hm]
    · exact csrL_read (n := 0xF14) rfl (lcsrBar_mMode hm (by decide)) (vsNum_eq (.inr (by decide))) rfl
    · exact csrL_read (n := 0x340) rfl (lcsrBar_mMode hm (by decide)) (vsNum_eq (.inl (by simp [hm]))) rfl
    · have hlt : j < s.lcores.length := lt_of_running h.2
      refine fun hI => ⟨_, csrL_swap (n := 0x340) rfl (by decide) (lcsrBar_mMode hm (by decide)) (vsNum_eq (.inl (by simp [hm]))) rfl,
        rfl, ?_, fun n hn => ?_⟩
      · rw [lcsrWrite_mscratch, lcoreAt_modLcore, if_pos hlt]
        exact (sget_sset (lcoreAt_swf hI).2).trans (if_pos rfl)
      · rw [lcsrWrite_mscratch, lcoreAt_modLcore, if_pos hlt]
        exact (sget_sset (lcoreAt_swf hI).2).trans (if_neg hn)
    · intro h0 h8
      refine (csrL_swap (n := 0x180) rfl (by decide) (lcsrBar_mMode hm (by decide)) (vsNum_eq (.inl (by simp [hm]))) rfl).trans ?_
      rw [lcsrWrite_satp_of_unsupported h0 h8]
    · have : ∀ n ∈ [0x100, 0x105, 0x140, 0x141, 0x180, 0x300, 0x305, 0x340, (0x341 : BitVec 12)],
          csrPlain n.toNat = true ∧ csrLevel n.toNat = true := by decide
      exact (csrL_plain (v := 0) (this n hn).1 rfl).1 (lcsrBar_uMode hm (this n hn).2)
    · have : ∀ n ∈ [0x100, 0x105, 0x140, 0x141, (0x180 : BitVec 12)],
          csrPlain n.toNat = true ∧ csrLevel n.toNat = true ∧ n.toNat / 256 % 4 ≠ 3 := by decide
      obtain ⟨hp, hl, h3⟩ := this n hn
      exact (csrL_plain (v := 0) hp rfl).2.1 (lcsrBar_vuMode hm hl h3)
  · have rs (n : BitVec 12) : exec (.csrAccess .rs false rd 0 n) s = s.csrStrand t c .rs rd false (s.x 0) n.toNat :=
      exec_csrAccess_strand h rd 0 n
    have rw' (n : BitVec 12) : exec (.csrAccess .rw false rd a n) s = s.csrStrand t c .rw rd true (s.x a) n.toNat :=
      exec_csrAccess_strand h rd a n
    dsimp only
    simp only [rs, rw']
    have put (hm : t.sMode = true) {n w : Nat} {v : Word} (hr : s.csrRead t c n = some (t.cw w)) (hn : n / 256 % 4 ≠ 3 ∧ n < 3072 ∧ n ≠ 0x180)
        (hw : s.csrWrite t c n (s.x a) = some (s.setCtx s.cur w v)) :
        s.csrStrand t c .rw rd true (s.x a) n = .next ((s.setCtx s.cur w v).retX rd (t.cw w)) := by
      refine csrStrand_write hr ?_ hw
      simpa [csrBarred_of_sMode hm] using hn
    refine ⟨fun hm => ⟨?_, ?_, ?_, ?_, ?_, ?_, ?_⟩, fun hm n hn => ?_, ?_, ?_, ?_, ?_, ?_, fun n hn => ?_, fun n hn => ?_, fun n hn => ?_⟩
    · exact put hm rfl (by decide) rfl
    · exact put hm rfl (by decide) rfl
    · exact put hm rfl (by decide) rfl
    · exact put hm rfl (by decide) rfl
    · exact put hm rfl (by decide) rfl
    · exact csrStrand_read (n := 0x140) rfl (csrBarred_of_sMode hm)
    · exact csrStrand_of_barred (n := 0x180) rfl (csrBarred_of_sMode hm)
    · obtain ⟨hl, hp⟩ := csrsOfSMode_level n hn
      exact csrStrand_of_barred hl (by simp [csrBarred, hm, hp])
    · exact csrStrand_read (n := 0xC01) rfl rfl
    · exact csrStrand_read (n := 0xCC3) rfl rfl
    · exact csrStrand_read (n := 0xCC6) rfl rfl
    · exact csrStrand_read (n := 0xCC5) rfl rfl
    · exact csrStrand_write (n := 0x810) rfl rfl rfl
    · obtain ⟨hl, hp⟩ := csrsReadOnly_level n hn
      exact csrStrand_of_barred hl (by simp [csrBarred, hp])
    · obtain ⟨hl, hp⟩ := csrsOfMachine_level n hn
      exact csrStrand_of_barred hl (by simp [csrBarred, hp])
    · exact csrStrand_of_lOnly (csrRead_of_lOnly s t c n hn) (csrLOnly_of_mem n hn)

end Sys2Proof
end

section
/-! Who runs is left as it was by accesses (for O6): the agent in issue, the crews, each strand's status and crew, and which
L-cores run. -/

namespace Sys2Proof.Machine

/-- What makes a strand one that may execute: which it is, where it stands, and its crew. -/
def Strand.place (t : Strand) : Nat × SStatus × Nat := (t.image, t.status, t.crew)

theorem Strand.place_of_bare {t u : Strand} (h : u.bare = t.bare) : u.place = t.place := by
  unfold Strand.place
  rw [show u.image = u.bare.image from rfl, show u.status = u.bare.status from rfl, show u.crew = u.bare.crew from rfl, h]
  rfl

namespace State

/-- From `s` to `s'` the agent in issue, the crews, the places of the strands and the L-cores that run are the same. -/
structure Stays (s s' : State) : Prop where
  cur : s'.cur = s.cur
  crews : s'.crews = s.crews
  strands : s'.strands.map Strand.place = s.strands.map Strand.place
  lcores : s'.lcores.map LCore.running = s.lcores.map LCore.running

variable {s s' s'' : State}

namespace Stays

theorem refl (s : State) : s.Stays s := ⟨rfl, rfl, rfl, rfl⟩

theorem trans (h : s.Stays s') (h' : s'.Stays s'') : s.Stays s'' :=
  ⟨h'.cur.trans h.cur, h'.crews.trans h.crews, h'.strands.trans h.strands, h'.lcores.trans h.lcores⟩

theorem foldl {α : Type} {f : State → α → State} (hf : ∀ (s : State) (x : α), s.Stays (f s x)) (l : List α) (s : State) :
    s.Stays (l.foldl f s) := by
  induction l generalizing s with
  | nil => exact refl s
  | cons x l ih => exact (hf s x).trans (ih _)

theorem ite {c : Prop} [Decidable c] {a b : State} (ha : s.Stays a) (hb : s.Stays b) : s.Stays (if c then a else b) := by
  split
  · exact ha
  · exact hb

/-- What keeps to the frame of an access stays, where the L-cores that run are the same. -/
theorem of_memStep (h : s.MemStep s') (hl : s'.lcores.map LCore.running = s.lcores.map LCore.running) : s.Stays s' := by
  refine ⟨by rw [h.only], h.crews, ?_, hl⟩
  have hp (l : List Strand) : l.map Strand.place = (l.map Strand.bare).map Strand.place := by
    rw [List.map_map]
    exact List.map_congr_left fun t _ => Strand.place_of_bare rfl
  rw [hp, h.strands, ← hp]

theorem of_memStep_rfl (h : s.MemStep s') (hl : s'.lcores = s.lcores) : s.Stays s' := .of_memStep h (by rw [hl])

/-! ### What runs afterwards -/

theorem strand? (h : s.Stays s') {k : Nat} {t : Strand} (ht : s.strand? k = some t) :
    ∃ u, s'.strand? k = some u ∧ u.status = t.status ∧ u.crew = t.crew := by
  have find (l : List Strand) : (kfind (·.image) l k).map Strand.place = (l.map Strand.place).find? fun p => p.1 = k := by
    rw [List.find?_map]
    rfl
  have hk : (s'.strand? k).map Strand.place = some t.place :=
    (find _).trans ((congrArg _ h.strands).trans ((find _).symm.trans (congrArg (Option.map Strand.place) ht)))
  obtain ⟨u, hu, e⟩ := Option.map_eq_some_iff.1 hk
  obtain ⟨-, hs, hc⟩ := Prod.ext_iff.1 e |>.imp id Prod.ext_iff.1
  exact ⟨u, hu, hs, hc⟩

theorem onCrew (h : s.Stays s') {t : Strand} {c : Crew} (ht : s.OnCrew t c) : ∃ u, s'.OnCrew u c := by
  obtain ⟨u, hu, hs, hc⟩ := h.strand? ht.onStrand.strand?
  refine ⟨u, onStrand_of (h.cur.trans ht.onStrand.cur) hu (hs.trans ht.onStrand.resident), ?_⟩
  have hcrew : s.crewOf t = some c := ht.2
  rw [← hcrew]
  unfold crewOf State.crew?
  rw [hc, h.crews]

theorem running (h : s.Stays s') (i : Nat) : (s'.lcoreAt i).running = (s.lcoreAt i).running := by
  have read (s : State) : (s.lcoreAt i).running = (s.lcores.map LCore.running).getD i false := by
    simp only [lcoreAt, List.getD_eq_getElem?_getD, List.getElem?_map]
    cases s.lcores[i]? <;> rfl
  rw [read, read, h.lcores]

theorem onL (h : s.Stays s') {i : Nat} (hi : s.OnL i) : s'.OnL i := ⟨h.cur.trans hi.1, (h.running i).trans hi.2⟩

end Stays

/-! ### Writes -/

theorem pokeRaw_stays (s : State) (keep : Nat → Bool) (attr writer pa : Nat) (data : List Byte) :
    s.Stays (s.pokeRaw keep attr writer pa data) := by
  refine .of_memStep (s.pokeRaw_memStep ..) ?_
  have hnote : (s.patNote pa data).lcores = s.lcores := by
    unfold patNote
    extract_lets
    split <;> rfl
  refine Eq.trans ?_ (congrArg _ hnote)
  show (List.map _ _).map LCore.running = _
  rw [List.map_map]
  refine List.map_congr_left fun l _ => ?_
  simp only [Function.comp_apply]
  split
  · split <;> rfl
  · rfl

theorem raceWord_lcores (s : State) (old : Sparse 8) (w : Nat × Nat) : (s.raceWord old w).lcores = s.lcores := by
  unfold raceWord drawBit
  dsimp only
  split
  · split <;> rfl
  · split <;> rfl

theorem poke_stays (s : State) (keep : Nat → Bool) (attr writer pa : Nat) (data : List Byte) : s.Stays (s.poke keep attr writer pa data) :=
  (s.pokeRaw_stays ..).trans (.foldl (fun s' w => .of_memStep_rfl (s'.raceWord_memStep s.mem w) (s'.raceWord_lcores s.mem w)) _ _)

theorem recordLater_lcores (s : State) (core : Nat) (r : FaultRec) : (s.recordLater core r).lcores = s.lcores := by
  unfold recordLater
  split <;> rfl

theorem mergeEntry_stays (s : State) (e : RedEntry) (evc : Bool) : s.Stays (s.mergeEntry e evc) := by
  have howners (s : State) (o : Sparse 64) : s.Stays { s with owners := o } := ⟨rfl, rfl, rfl, rfl⟩
  unfold mergeEntry
  extract_lets s1 s2 s3
  have h2 : s.Stays s2 := ⟨rfl, rfl, rfl, rfl⟩
  exact h2.trans (.ite (.of_memStep_rfl (s2.recordLater_memStep ..) (s2.recordLater_lcores ..))
    (.trans (.foldl (fun s _ => s.poke_stays ..) _ _) (howners _ _)))

theorem mergeWhere_stays (s : State) (p : RedEntry → Bool) : s.Stays (s.mergeWhere p) :=
  .foldl (fun s e => s.mergeEntry_stays e false) _ _

theorem mergeLines_stays (s : State) (pa n : Nat) : s.Stays (s.mergeLines pa n) := .ite (.refl s) (s.mergeWhere_stays _)

/-! ### What opens memory -/

theorem patOpen_stays (s : State) (pa : Nat) : s.Stays (s.patOpen pa) := by
  unfold patOpen
  split
  · exact .refl s
  · exact .ite (s.mergeLines_stays ..) (.refl s)

theorem classify_stays (s : State) (n pa attr : Nat) : s.Stays (s.classify n pa attr) := by
  have hpct (s : State) (p : Sparse 8) : s.Stays { s with pct := p } := ⟨rfl, rfl, rfl, rfl⟩
  have hcount (s : State) (p : Sparse 8) (l : List NcLine) (v : Word) :
      s.Stays { s with pct := p, ncs := l, mmio := sset s.mmio classCount v } := ⟨rfl, rfl, rfl, rfl⟩
  unfold classify
  split
  · exact .refl s
  · exact .refl s
  · exact .refl s
  · exact .ite (hpct _ _) (.ite (.refl s) ((s.mergeWhere_stays _).trans (hcount _ _ _ _)))

theorem dirLine_stays (s : State) (who line : Nat) (write : Bool) : s.Stays (s.dirLine who line write) :=
  .ite ⟨rfl, rfl, rfl, rfl⟩ (.ite (.refl s) ⟨rfl, rfl, rfl, rfl⟩)

theorem dirTouch_stays (s : State) (who pa n : Nat) (write : Bool) : s.Stays (s.dirTouch who pa n write) :=
  .foldl (fun s l => s.dirLine_stays who l write) _ _

theorem hwOpen_stays (s : State) (n pa len : Nat) (write : Bool) : s.Stays (s.hwOpen n pa len write) :=
  (((s.patOpen_stays pa).trans (classify_stays _ _ _ _)).trans (mergeLines_stays _ _ _)).trans (dirTouch_stays _ _ _ _ _)

theorem deliver_lcores (s : State) (p : Replica → Bool) : (s.deliver p).lcores = s.lcores := by
  unfold deliver
  split <;> rfl

theorem deliver_stays (s : State) (p : Replica → Bool) : s.Stays (s.deliver p) := .of_memStep_rfl (s.deliver_memStep p) (s.deliver_lcores p)

theorem hwThen_stays (s : State) (a : HwAct) : s.Stays (s.hwThen a) := by cases a <;> exact ⟨rfl, rfl, rfl, rfl⟩

theorem hwDo_stays (s : State) (w : HwWrite) : s.Stays (s.hwDo w) := by
  unfold hwDo
  extract_lets n s1 s2
  exact ((s.hwOpen_stays ..).trans (s1.pokeRaw_stays ..)).trans ((Stays.ite (s2.deliver_stays _) (.refl _)).trans (hwThen_stays _ _))

theorem hwPut_stays (s : State) (w : HwWrite) : s.Stays (s.hwPut w) := by
  have hq (s : State) : s.Stays { s with hwq := s.hwq ++ [w] } := ⟨rfl, rfl, rfl, rfl⟩
  unfold hwPut
  split
  · exact .ite (hq s) (s.hwDo_stays w)
  · exact hq s
  · exact s.hwThen_stays _

/-! ### Context lines -/

theorem modStrand_stays (s : State) (k : Nat) {f : Strand → Strand} (hf : ∀ t, (f t).place = t.place) : s.Stays (s.modStrand k f) := by
  refine ⟨rfl, rfl, ?_, rfl⟩
  show (s.strands.map fun x => if x.image = k then f x else x).map Strand.place = _
  rw [List.map_map]
  refine List.map_congr_left fun t _ => ?_
  simp only [Function.comp_apply]
  split
  · exact hf t
  · rfl

theorem writeLine_stays (s : State) (k : Nat) (drop : Bool) (line : Nat) : s.Stays (s.writeLine k drop line) := by
  have hlru (s : State) (l : List (Nat × Nat)) : s.Stays { s with lru := l } := ⟨rfl, rfl, rfl, rfl⟩
  unfold writeLine
  split
  · exact .refl s
  · refine .ite ((s.hwPut_stays _).trans (.ite ((modStrand_stays _ _ ?_).trans (hlru _ _)) (.refl _))) (.refl s)
    exact fun _ => rfl

theorem imageRead_stays (s : State) (pa n : Nat) : s.Stays (s.imageRead pa n) := by
  have hdraw (s : State) (n : Nat) : s.Stays { s with draws := n } := ⟨rfl, rfl, rfl, rfl⟩
  exact .foldl (fun s t => .ite (.foldl (fun s i => s.writeLine_stays ..) _ _) (hdraw _ _)) _ _

theorem evictOne_stays (s : State) (core : Nat) : s.Stays (s.evictOne core) := by
  unfold evictOne
  extract_lets
  split
  · exact s.writeLine_stays ..
  · exact .refl s

theorem useLine_stays (s : State) (k line : Nat) : s.Stays (s.useLine k line) := ⟨rfl, rfl, rfl, rfl⟩

theorem fetchLine_stays (s : State) (k line : Nat) : s.Stays (s.fetchLine k line) := by
  unfold fetchLine
  extract_lets s1
  refine (s.useLine_stays k line).trans ?_
  split
  · exact .refl _
  · refine .ite (.refl _) (((evictOne_stays _ _).trans (hwOpen_stays ..)).trans (modStrand_stays _ _ fun t => ?_))
    exact Strand.place_of_bare (by rw [bare_present, bare_setDepth, bare_foldl_setCw])

theorem fetchLines_stays (s : State) (k : Nat) (ls : List Nat) : s.Stays (s.fetchLines k ls) :=
  .foldl (fun s i => s.fetchLine_stays k i) _ _

/-! ### What an agent's access leaves of the queues and directories -/

theorem served_stays (s : State) (a : Agent) (pa n : Nat) : s.Stays (s.served a pa n) := .ite (.refl s) ⟨rfl, rfl, rfl, rfl⟩

theorem partTouch_stays (s : State) (who : Nat) (p : Part) (write : Bool) : s.Stays (s.partTouch who p write) :=
  .ite (s.dirTouch_stays ..) ⟨rfl, rfl, rfl, rfl⟩

theorem openPart_stays (s : State) (n who : Nat) (a : Agent) (write : Bool) (p : Part) : s.Stays (s.openPart n who a write p) :=
  ((((s.classify_stays ..).trans (mergeLines_stays ..)).trans (served_stays ..)).trans (partTouch_stays ..)).trans (imageRead_stays ..)

theorem homeSeen_stays (s : State) (a : Agent) (parts : List Part) : s.Stays (s.homeSeen a parts) :=
  .foldl (fun s _ => .ite (.refl s) (s.deliver_stays _)) _ _

theorem tlbInsert_stays (s : State) (e : TlbEntry) : s.Stays (s.tlbInsert e) := .ite ⟨rfl, rfl, rfl, rfl⟩ ⟨rfl, rfl, rfl, rfl⟩

theorem tlbPut_stays (s : State) (e : TlbEntry) : s.Stays (s.tlbPut e) := by
  unfold tlbPut
  extract_lets s1 s2
  have h1 : s.Stays s1 := ⟨rfl, rfl, rfl, rfl⟩
  have h2 : s.Stays s2 := h1.trans (s1.tlbInsert_stays _)
  exact .ite h2 (h2.trans (s2.tlbInsert_stays e))

theorem ibufPut_stays (s : State) (key : Nat) (w : BitVec 16) : s.Stays (s.ibufPut key w) := .ite ⟨rfl, rfl, rfl, rfl⟩ ⟨rfl, rfl, rfl, rfl⟩

theorem endHold_stays (s : State) (k : Nat) : s.Stays (s.endHold k) := ⟨rfl, rfl, rfl, rfl⟩

end State

/-- Where an access answers, the same agents run. -/
def Res.Stays {α : Type} (s : State) (r : Res α) : Prop := ∀ s' a, r = .ok s' a → s.Stays s'

namespace Res.Stays

variable {α β : Type} {s s' : State}

theorem ok {a : α} (h : s.Stays s') : Res.Stays s (.ok s' a) := by
  intro _ _ e
  cases e
  exact h

theorem trap {c : Nat} {v : Word} : Res.Stays (α := α) s (.trap s' c v) := fun _ _ e => nomatch e

theorem stall : Res.Stays (α := α) s (.stall s') := fun _ _ e => nomatch e

theorem after {r : Res α} (h : s.Stays s') (hr : Res.Stays s' r) : Res.Stays s r := fun u a e => h.trans (hr u a e)

theorem ite {c : Prop} [Decidable c] {a b : Res α} (ha : Res.Stays s a) (hb : Res.Stays s b) : Res.Stays s (if c then a else b) := by
  split
  · exact ha
  · exact hb

theorem bind {r : Res α} {g : State → α → Res β} (hr : Res.Stays s r) (hg : ∀ u a, Res.Stays u (g u a)) : Res.Stays s (r.bind g) := by
  cases r with
  | ok u a => exact after (hr u a rfl) (hg u a)
  | trap u c v => exact trap
  | stall u => exact stall

end Res.Stays

namespace State

/-! ### Translation -/

theorem readPte_stays (s : State) (a : Agent) (k : AccKind) (va : Word) (pa : Nat) : Res.Stays s (s.readPte a k va pa) := by
  unfold readPte
  split
  · exact .trap
  · exact .stall
  · exact .ite .stall (.ite .trap (.ok ((((s.patOpen_stays pa).trans (mergeLines_stays ..)).trans (classify_stays ..)).trans
      (dirTouch_stays ..))))

theorem walkFrom_stays {rd : State → Nat → Res Nat} (hr : ∀ s p, Res.Stays s (rd s p)) (pf : Nat) (va : Word) (x4 : Bool)
    (top n : Nat) (s : State) (base : Nat) : Res.Stays s (walkFrom rd pf va x4 top s base n) := by
  induction n generalizing s base with
  | zero => exact .trap
  | succ n ih =>
    unfold walkFrom
    extract_lets idx
    split
    · exact .trap
    · exact .stall
    next u p e => exact .after (hr s _ u p e) (.ite .trap (.ite (.ite .trap (.ok (.refl u))) (.ite .trap (ih u _))))

theorem walk_stays (s : State) (a : Agent) (k : AccKind) (va : Word) (c : Ctl) : Res.Stays s (s.walk a k va c) := by
  have hw := walkFrom_stays (fun s p => s.readPte_stays a k va p) (pageFault k) va false 4 c.levels s c.base
  unfold walk
  split
  · exact .trap
  · exact .stall
  next u p level e => exact .after (hw u _ e) (.ite .trap (.ok (.refl u)))

theorem byEntry_stays (s : State) (e : TlbEntry) (k : AccKind) (va : Word) (c : Ctl) : Res.Stays s (s.byEntry e k va c) :=
  .ite (.ok (s.patOpen_stays _)) .trap

theorem byWalk_stays (s : State) (a : Agent) (k : AccKind) (va : Word) (c : Ctl) : Res.Stays s (s.byWalk a k va c) :=
  .bind (s.walk_stays a k va c) fun u e => .after (u.tlbPut_stays e) (byEntry_stays _ e k va c)

theorem byHeld_stays (s : State) (a : Agent) (e : TlbEntry) (k : AccKind) (va : Word) (c : Ctl) : Res.Stays s (s.byHeld a e k va c) :=
  .after (.ite (.refl s) (s.tlbInsert_stays _)) (byEntry_stays _ e k va c)

theorem translateCtl_stays (s : State) (a : Agent) (k : AccKind) (va : Word) (c : Ctl) : Res.Stays s (s.translateCtl a k va c) := by
  unfold translateCtl
  refine .ite .trap ?_
  split
  · exact s.byWalk_stays a k va c
  next e _ =>
    have hdraw : s.Stays s.drawBit.2 := ⟨rfl, rfl, rfl, rfl⟩
    exact .ite (s.byHeld_stays a e k va c) (.after hdraw (.ite (byHeld_stays _ a e k va c) (byWalk_stays _ a k va c)))

theorem lmod_running (l : List LCore) (i : Nat) {f : LCore → LCore} (hf : ∀ c, (f c).running = c.running) :
    (lmod l i f).map LCore.running = l.map LCore.running := by
  induction l generalizing i with
  | nil => rfl
  | cons c l ih => cases i with
    | zero => simp only [lmod, List.map_cons, hf]
    | succ i => simp only [lmod, List.map_cons, ih]

theorem modLcore_stays (s : State) (i : Nat) {f : LCore → LCore} (hf : ∀ c, (f c).running = c.running) : s.Stays (s.modLcore i f) :=
  ⟨rfl, rfl, rfl, lmod_running _ i hf⟩

theorem barePhys_stays (s : State) (pa pbmt : Nat) : Res.Stays s (s.barePhys pa pbmt) := .ok (s.patOpen_stays pa)

theorem gStage_stays (s : State) (i : Nat) (k orig : AccKind) (va : Word) (gpa : Nat) (implicit : Bool) :
    Res.Stays s (s.gStage i k orig va gpa implicit) := by
  unfold gStage
  extract_lets hg s1 n
  have h1 : s.Stays s1 := s.modLcore_stays i fun _ => rfl
  refine .ite (.ok (.refl s)) (.ite .trap (.after h1 ?_))
  have hw := walkFrom_stays (fun s p => s.readPte_stays (.lcore i) orig va p) (guestFault orig) (w64 gpa) true (n - 1) n s1
    (wbits hg 43 2 * 16384)
  split
  · exact .trap
  · exact .stall
  next u p level e => exact .after (hw u _ e) (.ite .trap (.ok (.refl u)))

theorem translateL_stays (s : State) (i : Nat) (k : AccKind) (va : Word) : Res.Stays s (s.translateL i k va) := by
  unfold translateL
  have hguest (s : State) (gpa : Nat) (f : Nat → Nat) :
      Res.Stays s ((s.gStage i k k va gpa false).bind fun s r => s.barePhys r.1 (f r.2)) :=
    .bind (s.gStage_stays i k k va gpa false) fun u r => u.barePhys_stays r.1 (f r.2)
  have hrd (s : State) (p : Nat) : Res.Stays s ((s.gStage i .load k va p true).bind fun s r => s.readPte (.lcore i) k va r.1) :=
    .bind (s.gStage_stays i .load k va p true) fun u r => u.readPte_stays (.lcore i) k va r.1
  dsimp only
  split
  case h_1 => exact .ite .trap (s.barePhys_stays _ _)
  case h_2 | h_3 =>
    refine .ite (hguest s va.toNat id) (.ite .trap ?_)
    split
    · exact .trap
    · exact .stall
    next u p level e =>
      exact .after (walkFrom_stays hrd _ _ _ _ _ _ _ u _ e)
        (.ite .trap (hguest u _ fun t => if bits p 62 61 = 0 then t else bits p 62 61))
  case h_4 | h_5 => exact .ite (.ite .trap (s.barePhys_stays _ _)) (s.translateCtl_stays _ k va _)

theorem translate_stays (s : State) (a : Agent) (k : AccKind) (va : Word) : Res.Stays s (s.translate a k va) := by
  unfold translate
  split
  · exact s.translateL_stays _ k va
  · split
    · exact .trap
    · exact .ite .trap (s.translateCtl_stays _ k va _)

theorem locPage_stays (s : State) (a : Agent) (k : AccKind) (va : Word) (n size : Nat) : Res.Stays s (s.locPage a k va n size) := by
  have ht := s.translate_stays a k va
  unfold locPage
  split
  · exact .trap
  · exact .stall
  next u p e =>
    extract_lets s1
    have h1 : s.Stays s1 := (ht u p e).trans ⟨rfl, rfl, rfl, rfl⟩
    refine .after h1 ?_
    split
    · exact .ite (.ok (.refl _)) .trap
    · refine .ite .trap ?_
      split
      · exact .trap
      · exact .stall
      · exact .ok (.refl _)

/-- The translation of an access of any agent. -/
theorem locate_stays (s : State) (a : Agent) (k : AccKind) (va : Word) (n : Nat) : Res.Stays s (s.locate a k va n) := by
  unfold locate
  extract_lets va first
  refine .ite (s.locPage_stays a k va n n) (.bind (s.locPage_stays a k va first n) fun u r1 =>
    .bind (u.locPage_stays a k _ _ n) fun w r2 => ?_)
  split
  · exact .ok (.refl w)
  · exact .trap

/-! ### Accesses -/

theorem openParts_stays (s : State) (a : Agent) (va : Word) (parts : List Part) (write : Bool) :
    Res.Stays s (s.openParts a va parts write) :=
  .ite .stall (.after (.foldl (fun s p => s.openPart_stays _ _ a write p) _ _) (.ite .trap (.ok (.refl _))))

theorem loadMem_stays (s : State) (a : Agent) (va : Word) (n : Nat) (k : AccKind) : Res.Stays s (s.loadMem a va n k) := by
  refine .bind (s.locate_stays a k va n) fun u loc => ?_
  split
  · exact .ok (.refl u)
  · exact .bind (u.openParts_stays a va _ false) fun w _ => .ok ((w.homeSeen_stays a _).trans ⟨rfl, rfl, rfl, rfl⟩)

/-- The ordinary load of a strand. -/
theorem load_stays (s : State) (va : Word) (n : Nat) : Res.Stays s (s.load va n) := by
  refine .bind (s.loadMem_stays s.cur va n .load) fun u r => ?_
  split
  · exact .ok (.refl u)
  · exact .trap

theorem recordPages_stays (s : State) (va first n : Nat) : Res.Stays s (s.recordPages va first n) := by
  induction n generalizing s first with
  | zero => exact .ok (.refl s)
  | succ n ih =>
    have ht (a : Word) := s.translate_stays s.cur .store a
    unfold recordPages
    extract_lets a
    split
    · exact .trap
    · exact .stall
    next u p e =>
      extract_lets s1
      have h1 : s.Stays s1 := (ht a u p e).trans ⟨rfl, rfl, rfl, rfl⟩
      refine .after h1 (.ite .trap ?_)
      split
      · exact .trap
      · exact .stall
      · exact .bind (ih _ _) fun w _ => .ok (.refl w)

/-! ### Fetches -/

theorem fetchPage_stays (s : State) (a : Agent) (va : Word) : Res.Stays s (s.fetchPage a va) := by
  have ht := s.translate_stays a .fetch va
  unfold fetchPage
  split
  · exact .trap
  · exact .stall
  next u p e =>
    extract_lets s1
    have h1 : s.Stays s1 := (ht u p e).trans ⟨rfl, rfl, rfl, rfl⟩
    refine .after h1 ?_
    split
    · exact .trap
    · exact .stall
    · exact .ok (.refl _)

theorem fetchAt_stays (s : State) (a : Agent) (va : Word) (p : Phys) : Res.Stays s (s.fetchAt a va p) := by
  refine .bind (s.openParts_stays a va _ false) fun u _ => ?_
  extract_lets now key
  have hdraw : u.Stays u.drawBit.2 := ⟨rfl, rfl, rfl, rfl⟩
  split
  · exact .ite (.ok (.refl u)) (.after hdraw (.ite (.ok (.refl _)) (.ok (ibufPut_stays _ _ _))))
  · exact .ok (u.ibufPut_stays key now)

theorem fetchParcel_stays (s : State) (a : Agent) (va : Word) (prev : Option Phys) : Res.Stays s (s.fetchParcel a va prev) := by
  refine .bind ?_ fun u p => .bind (u.fetchAt_stays a va p) fun w _ => .ok (.refl w)
  split
  · exact .ite (s.fetchPage_stays a va) (.ok ⟨rfl, rfl, rfl, rfl⟩)
  · exact s.fetchPage_stays a va

theorem fetchParcels_stays (s : State) (a : Agent) (va : Word) (prev : Option Phys) (n : Nat) :
    Res.Stays s (s.fetchParcels a va prev n) := by
  induction n generalizing s va prev with
  | zero => exact .ok (.refl s)
  | succ n ih =>
    have hp := s.fetchParcel_stays a va prev
    unfold fetchParcels
    split
    · exact .trap
    · exact .stall
    next u r e =>
      refine .after (hp u r e) ?_
      have hrest := ih u (va + 2) (some r.2)
      split
      · exact .trap
      · exact .stall
      next w ps e' => exact .ok (hrest w ps e')

/-- The fetch of an instruction. -/
theorem fetchInstr_stays (s : State) (a : Agent) : Res.Stays s (s.fetchInstr a) :=
  .bind (s.fetchParcel_stays a _ none) fun u _ => .bind (u.fetchParcels_stays a _ _ _) fun w _ => .ok (.refl w)

end State

end Sys2Proof.Machine
end

section
/-! Nothing ends a run (O6): each instruction of an agent in issue answers with a next state, by the branches of its meaning. -/

namespace Sys2Proof.Machine

/-- The run goes on: the answer is a next state. -/
def GoesOn (o : Out) : Prop := ∃ s', o = .next s'

namespace GoesOn

theorem next {s : State} : GoesOn (.next s) := ⟨s, rfl⟩

theorem ite {c : Prop} [Decidable c] {a b : Out} (ha : GoesOn a) (hb : GoesOn b) : GoesOn (if c then a else b) := by
  split
  · exact ha
  · exact hb

variable {s : State} {t : Strand} {c : Crew} {i : Nat}

/-! ### Guards -/

theorem onAny (h : s.Runs) {g : Out} (hg : GoesOn g) : GoesOn (s.onAny g) := by rwa [State.onAny_eq h]

theorem onStrand (h : s.OnStrand t) {g : Strand → Out} (hg : GoesOn (g t)) : GoesOn (s.onStrand g) := by rwa [State.onStrand_eq h]

theorem onCrew (h : s.OnCrew t c) {g : Strand → Crew → Out} (hg : GoesOn (g t c)) : GoesOn (s.onCrew g) := by rwa [State.onCrew_eq h]

theorem onS (h : s.OnStrand t) {g : Strand → Out} (hg : GoesOn (g t)) : GoesOn (s.onS g) := .onStrand h (.ite hg .next)

theorem onCv (h : s.OnCrew t c) {rd : Reg} {n : BitVec 4} {g : Strand → Crew → Nat → Out} (hg : ∀ k, GoesOn (g t c k)) :
    GoesOn (s.onCv rd n g) := by
  refine .onCrew h ?_
  split
  · exact .next
  · exact .next
  · exact hg _

theorem onGroup (h : s.OnStrand t) {rd a : Reg} {g : Strand → Fleet → Group → Out} (hg : ∀ f x, GoesOn (g t f x)) :
    GoesOn (s.onGroup rd a g) := by
  refine .onStrand h (.ite .next (.ite .next ?_))
  split
  · exact .next
  · split
    · exact hg _ _
    · exact .next

theorem withFp {g : State → Out} (hg : ∀ s, GoesOn (g s)) : GoesOn (s.withFp g) := .ite (hg _) .next

theorem withFrm (h : s.OnStrand t) {g : Nat → Out} (hg : ∀ r, GoesOn (g r)) : GoesOn (s.withFrm g) := by
  refine .onStrand h ?_
  split
  · exact hg _
  · exact .next

/-- A checked access goes on where what follows it does. -/
theorem run {α : Type} {r : Res α} {g : State → α → Out} (hg : ∀ s' a, r = .ok s' a → GoesOn (g s' a)) : GoesOn (r.run g) := by
  cases r with
  | ok s' a => exact hg s' a rfl
  | trap s' k v => exact .next
  | stall s' => exact .next

theorem run_all {α : Type} {r : Res α} {g : State → α → Out} (hg : ∀ s' a, GoesOn (g s' a)) : GoesOn (r.run g) :=
  .run fun s' a _ => hg s' a

theorem withSeed (h : s.OnCrew t c) {u : Strand} {b : Nat} {g : State → Strand → Out} (hg : ∀ s u, GoesOn (g s u)) :
    GoesOn (s.withSeed u b g) := by
  obtain ⟨v, hv⟩ := (s.fetchLines_stays u.image (8 :: State.liveLines (State.blkF b 0x18 4))).onCrew h
  exact .ite .next (.ite .next (.onStrand hv.onStrand (hg _ _)))

end GoesOn

/-! ### Shared meanings -/

namespace State

variable {s : State} {t : Strand} {c : Crew}

theorem stageCheck_goesOn {a : Word} {n mis out : Nat} {g : Out} (hg : GoesOn g) : GoesOn (s.stageCheck c a n mis out g) :=
  .ite .next (.ite .next (.ite .next hg))

theorem fenceOp_goesOn (wide : Bool) (p q : BitVec 4) : GoesOn (s.fenceOp wide p q) := .ite .next .next

theorem atomic_goesOn (k : AccKind) (a : Word) (n : Nat) (wide aq rl : Bool) (g : State → Atom → State) :
    GoesOn (s.atomic k a n wide aq rl g) := .ite .next (.run_all fun _ _ => .next)

theorem parkForm_goesOn (rd : Reg) (k : Cond) (m : Bool) : GoesOn (s.parkForm t rd k m) :=
  .run_all fun _ r => by cases r <;> exact .next

theorem invalidate_goesOn (rd : Reg) (va ctl : Word) : GoesOn (s.invalidate t rd va ctl) := .next

theorem yield_goesOn : GoesOn (s.yield t) := .next

theorem copyGo_goesOn (rd : Reg) (q : CopyPlan) : GoesOn (s.copyGo t rd q) := by
  unfold copyGo
  dsimp only
  split
  · exact .next
  · exact .ite .next (.run_all fun _ _ => .ite .next (.ite .next (.run_all fun _ _ => .run_all fun _ _ => .next)))

theorem transfer_goesOn (h : s.OnCrew t c) (f : CopyForm) (ds ss : Bool) (rd a b d : Reg) : GoesOn (s.transfer f ds ss rd a b d) := by
  refine .onCrew h (.ite .next (.ite .next (.ite .next (.ite .next ?_))))
  split
  · exact .next
  · exact .next
  · exact .next
  · exact .ite .next (copyGo_goesOn _ _)

theorem rowCopy_goesOn (h : s.OnCrew t c) (gath : Bool) (f : RowForm) (rd a b d x y : Reg) :
    GoesOn (s.rowCopy gath f rd a b d x y) := by
  refine .onCrew h (.ite .next (.ite .next (.ite .next ?_)))
  dsimp only
  split
  · exact .next
  · exact .next
  · exact .ite .next (.ite .next (.ite (copyGo_goesOn _ _) (copyGo_goesOn _ _)))

theorem fillCopy_goesOn (h : s.OnCrew t c) (ds : Bool) (rd a b d : Reg) : GoesOn (s.fillCopy ds rd a b d) := by
  refine .onCrew h (.ite .next (.ite .next ?_))
  split
  · exact .next
  · exact copyGo_goesOn _ _

theorem goL_goesOn (i : Nat) (rd a : Reg) : GoesOn (s.goL i rd a) := by
  unfold goL
  dsimp only
  split
  case h_5 =>
    refine .ite .next ?_
    split
    · exact .next
    · split
      · exact .next
      · split <;> exact .next
  all_goals exact .next

theorem goW_goesOn (rd a : Reg) : GoesOn (s.goW t c rd a) := .ite .next (.ite .next (.ite .next (.ite .next .next)))

theorem clPostOp_goesOn (h : s.OnStrand t) (ring : Bool) (rd a : Reg) : GoesOn (s.clPostOp ring rd a) :=
  .onStrand h (.ite .next (.run_all fun _ _ => .ite .next (.ite .next (.ite .next (.run_all fun _ _ => .run_all fun _ _ => .next)))))

theorem arrive_goesOn (h : s.OnCrew t c) (rd : Reg) (n : BitVec 4) (rx waits : Bool) : GoesOn (s.arrive rd n rx waits) := by
  refine .onCv h fun i => ?_
  dsimp only
  split
  · exact .next
  · exact .next
  · exact .ite .next .next

theorem waitToken_goesOn (h : s.OnCrew t c) (rd a : Reg) (n : BitVec 4) (try' : Bool) : GoesOn (s.waitToken rd a n try') := by
  refine .onCv h fun i => .ite .next (.ite .next (.ite .next ?_))
  split
  · exact .ite .next .next
  · exact .next

theorem lane_goesOn (h : s.OnCrew t c) (rd a : Reg) (n : BitVec 4) (group : Nat) (sig : List Nat) (idx : Nat) :
    GoesOn (s.lane rd a n group sig idx) := by
  refine .onCrew h ?_
  split
  · exact .next
  · exact .next
  · dsimp only
    split <;> exact .next

theorem laneUni_goesOn (h : s.OnCrew t c) (rd a b : Reg) (n : BitVec 4) (group : Nat) : GoesOn (s.laneUni rd a b n group) :=
  lane_goesOn h ..

theorem csrStrand_goesOn (op : CsrOp) (rd : Reg) (wr : Bool) (src : Word) (n : Nat) : GoesOn (s.csrStrand t c op rd wr src n) := by
  unfold csrStrand
  dsimp only
  split
  · exact .ite .next .next
  · refine .ite .next (.ite .next ?_)
    split <;> exact .next

theorem csrL_goesOn (i : Nat) (op : CsrOp) (rd : Reg) (wr : Bool) (src : Word) (n : Nat) : GoesOn (s.csrL i op rd wr src n) := by
  refine .ite .next (.ite .next ?_)
  split
  · exact .ite .next .next
  · exact .next
  · exact .next

theorem enter_goesOn (v : Nat) (op : EngOp) (rd : Option Reg) (now : Bool) : GoesOn (s.enter t c v op rd now) := by
  refine .ite .next ?_
  dsimp only
  split <;> exact .next

theorem mxForm_goesOn (h : s.OnCrew t c) (op : Nat) (x : MxArgs) : GoesOn (s.mxForm op x) := by
  refine .onCrew h (.ite .next (.ite .next ?_))
  dsimp only
  split
  · exact .next
  · exact .next
  · refine .ite .next (.ite .next (.ite .next ?_))
    split
    · exact .next
    · refine .ite .next (.ite .next (.ite .next (.ite .next (.ite .next (.run_all fun _ l => ?_)))))
      cases l with
      | mmio => exact .next
      | mem => exact .ite .next (.run_all fun _ _ => .next)

theorem ctlForm_goesOn (h : s.OnCrew t c) (op : Nat) (rd : Reg) (n : BitVec 4) (v x2 x3 : Nat) : GoesOn (s.ctlForm op rd n v x2 x3) := by
  refine .onCrew h (.ite .next (.ite .next ?_))
  dsimp only
  split
  · exact .next
  · exact .next
  · exact .ite .next .next

theorem drnForm_goesOn (h : s.OnCrew t c) (z : Bool) (x : DrnArgs) : GoesOn (s.drnForm z x) := by
  refine .onCrew h (.ite .next (.ite .next ?_))
  dsimp only
  split
  · exact .next
  · exact .next
  · exact .ite .next (.ite .next .next)

end State

/-! ### Each step of the hardware -/

theorem exec_hardware (s : State) {i : Instr} (he : i.encoded = false) : GoesOn (exec i s) := by
  cases i with
  | pauseExpiry | parkSpinTest | strandPark | watchRetest | strandResume | placementOffer | contextLineFetch | homeNoticePost
  | strandStop | recallWrite | recallTakesEffect | killWrite | framefreeWrite | issueCycle | loadDataReturn |
  barrierPhaseRelease | atomicPerform | rbAgeMerge | lrHoldEnd | groupTimeout | gateOpen | descriptorComplete |
  ringMatchTimeout | remoteRegionAccess | peerLeave | linkPortLost | snoopFilterRecall | forwardEntryPost | fwdrsmWrite |
  invalidationAck | ivgoWrite | pageWalkComplete | copyDescriptorReadback | copyBegin | copyChunkWrite | pmmaPairTimeout |
  engineEntryStart | matrixWritesLand | epilogueEntry | wrsTimeout | cpsplWrite | frecbaseWrite | passcntWrite | clsreqWrite |
  reclassSavesDone | reclassClockSettled | crewPreempt | crewSaveComplete | crewRestore | withdrawalStart |
  withdrawalGraceExpiry | boostRecompute | powerWindow | currentSample | currentLimitEvent | zoneEnterLowFlow |
  zoneLeaveLowFlow | zoneEnterHot | zoneLeaveHot | zoneEnterEvacuating | zoneEnterTripped | evacuationSavesDone | zoneTripExit
  | purgeStart | purgeValveOpen | purgeEnd | zctlRetryWrite | dbgStop | dbgStopCrew | dbgResume | dbgResumeCrew | dbgStep |
  dbgAttach | dbgDetach | dbgUnassigned | debugStop | dbgdataRead | dbgdataWrite | dbghaltWrite | registerWrite |
  replicaUpdate | ueWriteback | ueCoreStorage | dmaRequest | powerGood | bootDieLinksMemory | memoryReady | bootPkgnum |
  bootLCoreImage | lCoreStart | bootWDieMicrocode | portTrained | collectiveEngineReady | managementPortReady | ptpMessage |
  ptpGrandmasterLoss | mgmtImageDelivery | mgmtRaiseMinVersion | mgmtEvidenceRequest | evreqGo | instructionFetch |
  peerPresent | peerWindowAccess => exact .next
  | mgHome | fkFlt | fkJoin | fkJoinTry | fkStop | fkStopPre | fkStopRsm | fkQry | thParkMem | thParkBat | thParkTm | thYield
  | thPause | cvJoin | cvJoinCrew | cvQuit | cvBar | cvBarRx | cvArv | cvArvRx | cvWt | cvWtTry | cvQry | gpShflIdx |
  gpShflXor | gpShflUp | gpShflDn | gpBcst | gpAll | gpAny | gpUni | gpBlt | gpPcnt | gpMtchLdr | gpMtchCnt | gpRed | gpScan |
  gpXscan | gpRedAddF | gpRedMinF | gpRedMaxF | gpScanAddF | gpXscanAddF | fxAdds | fxSubs | fxDot | fxCvtBf16F64 |
  fxCvtF64Bf16 | fxCvtBf16F16 | fxCvtF16Bf16 | fxPkBf16 | fxUpkLo | fxUpkHi | fxPaddBf16 | fxPsubBf16 | fxPmulBf16 |
  fxPfmaBf16 | fxPdotF32Bf16 | fxXp | fxNr | fxSclF32 | fxSclF64 | fxXpnF32 | fxXpnF64 | fxExp2F32 | fxLog2F32 | fxRcpF32 |
  fxRsqrtF32 | fxSinpiF32 | fxCospiF32 | fxTanhF32 | fxSigmF32 | fxSrari | fxSati | fxSatni | fxScliF32 | fxScliF64 | ldNc |
  ldBp | stBp | sl | ss | fnPfL1 | fnPfLlc | fnPfW | sgFork | sgRwd | sgCol | sgCxl | sgExt | sgQry | sgLeave | clPost |
  clRing | clPut | clGet | clSig | clWait | clWaitTry | clQry | pwQry | pwYld | pwWind | syPark | syEnd | syDbg | syRec |
  syTlbsd | copyGs | copySg | copyGg | copySs | copyGath | copyScat | copyFillS | copyFillG | cpSeal | cpWait | cpStop | mxMma
  | mxGmma | mxPmma | mxTake | mxPass | mxTakeTk | mxPassTk | amGet | amRel | amZero | amRd | epLoad | epRun | mxDrn | mxDrnZ => cases he
  | fxLi | fxLiu | fxLih | fxAddl | fxAndl | fxOrl | fxXorl | fxAuipcl | fxLis | fxLid | mgGo | fnScoped | fnNc | amoOp
  | amoCas | amoLd | amoSt | amoDraw | amoTick | red | load | store | standardAlu | standardFp | branchJump | fence | fenceI |
  wrsNto | wrsSto | lr | sc | standardAmo | amocas | ecall | ebreak | wfi | sret | sfenceVma | csrAccess => cases he

/-! ### Each instruction of W-cores alone -/

open State in
theorem exec_wOnly_goesOn {s : State} {t : Strand} {c : Crew} (h : s.OnCrew t c) {i : Instr} (he : i.encoded = true)
    (hl : i.onL = false) : GoesOn (exec i s) := by
  have hs := h.onStrand
  cases i with
  | mgHome => exact .onStrand hs (.ite .next .next)
  | fkFlt =>
    refine .onCrew h (.ite .next (.ite .next (.ite .next (.ite .next (.ite .next (.run fun u b e => .ite .next ?_))))))
    obtain ⟨v, hv⟩ := (s.load_stays _ _ u b e).onCrew h
    refine .withSeed hv fun s w => ?_
    split <;> exact .next
  | fkJoin => exact .onStrand hs (.ite .next (.ite .next (parkForm_goesOn _ _ _)))
  | fkJoinTry =>
    refine .onStrand hs (.ite .next (.ite .next ?_))
    dsimp only
    split <;> exact .next
  | fkStop | fkStopPre | fkStopRsm => exact .onStrand hs (.ite .next (.ite .next .next))
  | fkQry =>
    refine .onStrand hs (.ite .next (.ite .next ?_))
    split <;> exact .next
  | clWait => exact .onStrand hs (.ite .next (parkForm_goesOn _ _ _))
  | thParkMem => exact .onStrand hs (.ite .next (.ite .next (parkForm_goesOn _ _ _)))
  | thParkBat | thParkTm => exact .onStrand hs (.ite .next (parkForm_goesOn _ _ _))
  | thYield => exact .onStrand hs (.ite .next yield_goesOn)
  | thPause => exact .onStrand hs (.ite .next .next)
  | cvJoin | cvQuit => exact .onCv h fun _ => .ite .next .next
  | cvJoinCrew => exact .onCv h fun _ => .ite .next (.ite .next .next)
  | cvBar | cvBarRx | cvArv | cvArvRx => exact arrive_goesOn h _ _ _ _
  | cvWt | cvWtTry => exact waitToken_goesOn h _ _ _ _
  | cvQry => exact .onCv h fun _ => .next
  | gpShflIdx | gpAll | gpAny | gpUni | gpBlt | gpPcnt | gpMtchLdr | gpMtchCnt | gpRed | gpScan | gpXscan | gpRedAddF |
  gpRedMinF | gpRedMaxF | gpScanAddF | gpXscanAddF => exact lane_goesOn h _ _ _ _ _ _
  | gpShflXor | gpShflUp | gpShflDn | gpBcst => exact laneUni_goesOn h _ _ _ _ _
  | fxAdds | fxSubs | fxDot | fxCvtF64Bf16 | fxUpkLo | fxUpkHi | fxXpnF32 | fxXpnF64 | fxExp2F32 | fxLog2F32 | fxRcpF32 |
  fxRsqrtF32 | fxSinpiF32 | fxCospiF32 | fxTanhF32 | fxSigmF32 | fxSrari | fxSati | fxSatni | fnPfL1 | fnPfLlc | fnPfW |
  pwWind | cpStop | clQry => exact .onStrand hs .next
  | fxCvtBf16F64 | fxCvtBf16F16 | fxCvtF16Bf16 | fxPkBf16 | fxPaddBf16 | fxPsubBf16 | fxPmulBf16 | fxPfmaBf16 | fxPdotF32Bf16
  | fxXp | fxNr | fxSclF32 | fxSclF64 | fxScliF32 | fxScliF64 => exact .withFrm hs fun _ => .next
  | ldNc | ldBp | stBp => exact .onStrand hs (.run_all fun _ _ => .next)
  | sl => exact .onCrew h (stageCheck_goesOn .next)
  | ss => exact .onCrew h (stageCheck_goesOn (.ite .next .next))
  | sgFork =>
    refine .onCrew h (.ite .next (.ite .next (.run fun s1 _ e1 => .ite .next (.ite .next (.ite .next (.ite .next
      (.run fun s2 _ e2 => .ite .next (.run fun s3 _ e3 => .ite .next (.ite .next ?_)))))))))
    have h3 := ((s.load_stays _ _ s1 _ e1).trans (s1.load_stays _ _ s2 _ e2)).trans (s2.recordPages_stays _ _ _ s3 _ e3)
    obtain ⟨v, hv⟩ := h3.onCrew h
    refine .withSeed hv fun s w => .run_all fun s4 _ => ?_
    dsimp only
    split <;> exact .next
  | sgRwd =>
    refine .onCrew h (.ite .next ?_)
    split
    · exact .next
    · refine .ite .next (.ite .next ?_)
      dsimp only
      split
      case h_5 => exact .ite .next .next
      all_goals exact .next
  | sgCol => exact .onGroup hs fun _ _ => parkForm_goesOn _ _ _
  | sgCxl =>
    refine .onGroup hs fun f g => .ite .next (.ite .next (.ite .next ?_))
    dsimp only
    split
    · exact .next
    · exact .ite .next .next
  | sgExt => exact .onGroup hs fun _ _ => .ite .next (.ite .next .next)
  | sgQry =>
    refine .onStrand hs (.ite .next (.ite .next ?_))
    split
    · exact .next
    · split <;> exact .next
  | sgLeave =>
    refine .onCrew h (.ite .next ?_)
    split
    · exact .next
    · exact .ite .next (.ite .next (.ite .next .next))
  | clPost | clRing => exact clPostOp_goesOn hs _ _ _
  | clPut =>
    refine .onStrand hs (.ite .next (.ite .next (.run_all fun _ _ => .run_all fun _ _ => ?_)))
    split <;> exact .next
  | clGet =>
    refine .onStrand hs (.ite .next (.ite .next (.run_all fun _ _ => ?_)))
    split
    · exact .next
    · exact .next
    · exact .ite .next (.run_all fun _ _ => .next)
  | clSig =>
    refine .onStrand hs (.ite .next ?_)
    split <;> exact .next
  | clWaitTry => exact .onStrand hs (.ite .next (.run_all fun _ _ => .ite .next .next))
  | pwQry => exact .onCrew h .next
  | pwYld => exact .onCrew h (.ite .next (.ite .next .next))
  | syPark => exact .onS hs .next
  | syEnd => exact .onS hs (.onCrew h (.ite .next .next))
  | syDbg | cpSeal | cpWait => exact .onStrand hs (.ite .next .next)
  | syRec => exact .onS hs (.ite .next .next)
  | syTlbsd => exact .onS hs (.ite .next (invalidate_goesOn _ _ _))
  | copyGs | copySg | copyGg | copySs => exact transfer_goesOn h _ _ _ _ _ _ _
  | copyGath | copyScat => exact rowCopy_goesOn h _ _ _ _ _ _ _ _
  | copyFillS | copyFillG => exact fillCopy_goesOn h _ _ _ _ _
  | mxMma | mxGmma | mxPmma => exact mxForm_goesOn h _ _
  | mxTake | mxPass | mxTakeTk | mxPassTk => exact ctlForm_goesOn h _ _ _ _ _ _
  | mxDrn | mxDrnZ => exact drnForm_goesOn h _ _
  | amGet | amRel | epRun => exact .onCrew h (.ite .next (.ite .next (enter_goesOn _ _ _ _)))
  | amZero => exact .onCrew h (.ite .next (.ite .next (.ite .next (enter_goesOn _ _ _ _))))
  | amRd => exact .onCrew h (.ite .next (.ite .next (enter_goesOn _ _ _ _)))
  | epLoad => exact .onCrew h (.ite .next (.ite .next (.ite .next (.run_all fun _ _ => .run_all fun _ _ => .ite .next (enter_goesOn _ _ _ _)))))
  | fxLi | fxLiu | fxLih | fxAddl | fxAndl | fxOrl | fxXorl | fxAuipcl | fxLis | fxLid | mgGo | fnScoped | fnNc | amoOp
  | amoCas | amoLd | amoSt | amoDraw | amoTick | red | load | store | standardAlu | standardFp | branchJump | fence | fenceI |
  wrsNto | wrsSto | lr | sc | standardAmo | amocas | ecall | ebreak | wfi | sret | sfenceVma | csrAccess => cases hl
  | _ => cases he

/-- A strand in issue that has a crew, or a running L-core in issue: what a core may execute for. -/
def Agented (s : State) : Prop := (∃ t c, s.OnCrew t c) ∨ ∃ j, s.OnL j

theorem Agented.runs {s : State} (h : Agented s) : s.Runs := h.elim (fun ⟨_, _, h⟩ => h.onStrand.runs) fun ⟨_, h⟩ => h.runs

theorem Agented.onCrew {s : State} {k : Nat} (h : Agented s) (hc : s.cur = .strand k) : ∃ t c, s.OnCrew t c := by
  rcases h with h | ⟨j, hj⟩
  · exact h
  · exact absurd (hj.1.symm.trans hc) nofun

theorem Agented.onCrew_of_curStrand {s : State} {t : Strand} (h : Agented s) (hc : s.curStrand = some t) : ∃ t c, s.OnCrew t c :=
  h.onCrew (State.OnStrand.cur hc)

open State in
/-- What both classes of core implement: a guard asks for an agent in issue; a strand has its crew. -/
theorem exec_shared_goesOn {s : State} (h : Agented s) {i : Instr} (hl : i.onL = true) :
    GoesOn (exec i s) := by
  have hr := h.runs
  cases i with
  | fxLi | fxLiu | fxLih | fxAddl | fxAndl | fxOrl | fxXorl | fxAuipcl | fxLis | fxLid | fnNc | fenceI | standardAlu =>
    exact .onAny hr .next
  | fnScoped | fence => exact .onAny hr (fenceOp_goesOn _ _ _)
  | amoOp | amoCas | amoLd | amoDraw | standardAmo => exact .onAny hr (atomic_goesOn _ _ _ _ _ _ _)
  | amoSt => exact .onAny hr (.ite .next (.run_all fun _ _ => .next))
  | amocas cw => cases cw <;> exact .onAny hr (atomic_goesOn _ _ _ _ _ _ _)
  | sc => exact .onAny hr (.ite .next (.run_all fun _ _ => .ite (.run_all fun _ _ => .ite .next .next) .next))
  | standardFp f =>
    refine .onAny hr (.withFp fun s' => ?_)
    split <;> exact .next
  | branchJump f =>
    refine .onAny hr ?_
    cases f with
    | br => exact .ite .next .next
    | jal | jalr => exact .next
  | load k => exact .onAny hr (.ite (.withFp fun _ => .run_all fun _ _ => .ite .next .next) (.run_all fun _ _ => .ite .next .next))
  | store k => exact .onAny hr (.ite (.withFp fun _ => .run_all fun _ _ => .next) (.run_all fun _ _ => .next))
  | wrsNto | wrsSto =>
    refine .onAny hr ?_
    split
    · exact .next
    · exact .ite .next .next
  | mgGo =>
    refine .onAny hr ?_
    split
    · exact goL_goesOn _ _ _
    next hc =>
      obtain ⟨t, c, h⟩ := h.onCrew hc
      exact .onCrew h (goW_goesOn _ _)
  | amoTick =>
    refine .onAny hr ?_
    dsimp only
    split
    · exact .next
    next hc =>
      obtain ⟨t, c, h⟩ := h.onCrew_of_curStrand hc
      exact .onCrew h (stageCheck_goesOn (.ite .next .next))
  | red =>
    refine .onAny hr (.ite .next ?_)
    dsimp only
    split
    · exact .run_all fun _ _ => .next
    · refine .run_all fun _ p => ?_
      split
      · exact .run_all fun _ _ => .next
      · exact .ite (.run_all fun _ _ => .next) (.ite .next .next)
  | lr =>
    refine .onAny hr (.ite .next (.run_all fun _ _ => ?_))
    dsimp only
    split
    · exact .next
    · split <;> exact .next
  | ecall =>
    refine .onAny hr ?_
    split
    next hc =>
      obtain ⟨t, c, h⟩ := h.onCrew hc
      exact .onStrand h.onStrand .next
    · exact .next
  | ebreak =>
    refine .onAny hr ?_
    split
    next hc =>
      obtain ⟨t, c, h⟩ := h.onCrew hc
      exact .onStrand h.onStrand (.ite .next .next)
    · exact .next
  | wfi =>
    refine .onAny hr ?_
    split
    next hc =>
      obtain ⟨t, c, h⟩ := h.onCrew hc
      exact .onStrand h.onStrand yield_goesOn
    next i _ =>
      dsimp only
      split
      · exact .next
      · exact .ite .next .next
      · exact .ite .next .next
      · exact .ite .next (.ite .next .next)
      · exact .ite .next .next
  | sret =>
    refine .onAny hr ?_
    split
    next hc =>
      obtain ⟨t, c, h⟩ := h.onCrew hc
      exact .onS h.onStrand .next
    next i _ =>
      dsimp only
      split
      · exact .next
      · exact .next
      · exact .ite .next .next
      · exact .ite .next .next
      · exact .next
  | sfenceVma =>
    refine .onAny hr ?_
    split
    next hc =>
      obtain ⟨t, c, h⟩ := h.onCrew hc
      exact .onS h.onStrand (invalidate_goesOn _ _ _)
    next i _ =>
      dsimp only
      split
      · exact .next
      · exact .next
      · exact .ite .next .next
      · exact .ite .next .next
      · exact .next
  | csrAccess =>
    refine .onAny hr ?_
    split
    next hc =>
      obtain ⟨t, c, h⟩ := h.onCrew hc
      exact .onCrew h (csrStrand_goesOn _ _ _ _ _)
    · exact csrL_goesOn _ _ _ _ _ _
  | _ => cases hl

/-- Every instruction and every step of the hardware goes on. -/
theorem exec_goesOn {s : State} (h : Agented s) (i : Instr) : GoesOn (exec i s) := by
  cases he : i.encoded with
  | false => exact exec_hardware s he
  | true =>
    cases hl : i.onL with
    | true => exact exec_shared_goesOn h hl
    | false =>
      rcases h with ⟨t, c, h⟩ | ⟨j, h⟩
      · exact exec_wOnly_goesOn h he hl
      · obtain ⟨g, hg⟩ := exec_wOnly s he hl
        rw [hg, State.onStrand_lcore h]
        exact .next

end Sys2Proof.Machine
end

section
/-! Nothing ends a run (O6): the parts of an L-core without a row in the opcode table, the fetch and issue of an instruction,
turns and steps. -/

namespace Sys2Proof.Machine

namespace State

variable {s : State}

/-! ### Parts of an L-core -/

theorem hyper_goesOn (l : LCore) (user : Bool) {g : Out} (hg : GoesOn g) : GoesOn (s.hyper l user g) := by
  unfold hyper
  split
  · exact hg
  · exact hg
  · exact .ite hg .next
  · exact .next
  · exact .next

theorem withEnv_goesOn (l : LCore) (m : Word) {g : Out} (hg : GoesOn g) : GoesOn (s.withEnv l m g) := by
  unfold withEnv
  dsimp only
  split
  · exact hg
  · exact .ite hg .next
  · exact .ite hg .next
  · exact .ite .next (.ite hg .next)
  · exact .ite .next (.ite hg .next)

theorem cboL_goesOn (i : Nat) (op : CboOp) (a : Reg) : GoesOn (s.cboL i op a) := by
  unfold cboL
  extract_lets l va manage
  have hm : GoesOn manage := by
    unfold manage
    split
    · exact .next
    · exact .next
    · exact .run_all fun _ _ => .next
  split
  · exact withEnv_goesOn _ _ hm
  · exact withEnv_goesOn _ _ hm
  · exact withEnv_goesOn _ _ hm
  · exact withEnv_goesOn _ _ (.run_all fun _ _ => .next)

theorem guestFenceL_goesOn (i : Nat) (f : GuestFence) : GoesOn (s.guestFenceL i f) := by
  unfold guestFenceL
  dsimp only
  split
  · exact hyper_goesOn _ _ .next
  · exact hyper_goesOn _ _ (.ite .next .next)
  · split <;> exact .next

theorem hlvL_goesOn (i n : Nat) (sg x : Bool) (rd a : Reg) : GoesOn (s.hlvL i n sg x rd a) := by
  refine hyper_goesOn _ _ ?_
  split <;> exact .next

theorem hsvL_goesOn (i n : Nat) (a b : Reg) : GoesOn (s.hsvL i n a b) := by
  refine hyper_goesOn _ _ ?_
  split <;> exact .next

theorem zfa_goesOn (g : State → Option (Reg × FpRes)) : GoesOn (s.zfa g) :=
  .withFp fun _ => by split <;> exact .next

theorem vCfg_goesOn (i : Nat) (c : VCfg) : GoesOn (s.vCfg i c) := by cases c <;> exact .next

theorem vMem_goesOn (i : Nat) (load : Bool) (m : VAddr) (eew nf : Nat) (vm : Bool) (vd a : Reg) :
    GoesOn (s.vMem i load m eew nf vm vd a) := by
  refine .ite .next ?_
  dsimp only
  split
  · exact .next
  · exact .next
  · exact .ite .next .next

theorem execV_goesOn (i : Nat) (v : VInst) : GoesOn (s.execV i v) := by
  refine .ite .next ?_
  split
  · exact vCfg_goesOn _ _
  · exact vMem_goesOn _ _ _ _ _ _ _ _
  · refine .ite .next (.ite .next ?_)
    dsimp only
    split <;> exact .next

theorem execLPart_goesOn {j : Nat} (h : s.OnL j) (p : LPart) : GoesOn (s.execLPart j exec p) := by
  cases p with
  | same i => exact exec_goesOn (.inr ⟨j, h⟩) i
  | cbo => exact cboL_goesOn _ _ _
  | guestFence => exact guestFenceL_goesOn _ _
  | hlv => exact hlvL_goesOn _ _ _ _ _ _
  | hsv => exact hsvL_goesOn _ _ _ _
  | fli | minmaxm | roundInt | cmpq | cvtmod =>
    unfold execLPart
    exact zfa_goesOn _
  | vector => exact execV_goesOn _ _

/-! ### Fetch and issue -/

theorem Stays.agented {s' : State} (h : s.Stays s') (ha : Agented s) : Agented s' := by
  rcases ha with ⟨t, c, ht⟩ | ⟨j, hj⟩
  · obtain ⟨u, hu⟩ := h.onCrew ht
    exact .inl ⟨u, c, hu⟩
  · exact .inr ⟨j, h.onL hj⟩

theorem withContext_goesOn {k : Nat} {ls : List Nat} {g : State → Out} (hg : ∀ s', s.Stays s' → GoesOn (g s')) :
    GoesOn (s.withContext k ls g) := by
  unfold withContext
  split
  · exact .next
  · exact .ite .next (.ite .next (.ite .next (hg _ (s.fetchLines_stays k ls))))

theorem holdOver_stays (s : State) (k : Nat) (i : Instr) : s.Stays (s.holdOver k i) := .ite (s.endHold_stays k) (.refl s)

theorem execStrand_goesOn (h : Agented s) (k : Nat) (i : Instr) : GoesOn (s.execStrand k exec i) := by
  unfold execStrand
  split
  · exact .next
  · exact withContext_goesOn fun s' hs => .ite .next (.ite .next (exec_goesOn ((hs.trans (s'.holdOver_stays k i)).agented h) i))

theorem execDecoded_goesOn (h : Agented s) (d : Decoded) : GoesOn (s.execDecoded exec d) := by
  unfold execDecoded
  split
  · cases d with
    | ok i => exact execStrand_goesOn h _ i
    | lcore | mret | illegal => exact .next
  next n hc =>
    cases d with
    | ok i => exact exec_goesOn h i
    | lcore p =>
      rcases h with ⟨t, c, ht⟩ | ⟨j, hj⟩
      · exact absurd (ht.onStrand.cur.symm.trans hc) nofun
      · cases hj.1.symm.trans hc
        exact execLPart_goesOn hj p
    | mret => exact .ite .next .next
    | illegal => exact .next

theorem runNext_goesOn (h : Agented s) : GoesOn (s.runNext exec) := by
  refine .run fun s' ps e => execDecoded_goesOn ?_ _
  have hi : s'.Stays (s'.issued ps) := ⟨rfl, rfl, rfl, rfl⟩
  exact ((s.fetchInstr_stays s.cur s' ps e).trans hi).agented h

/-- A strand that may issue has a slot and a crew. -/
theorem onCrew_of_mayIssue {k : Nat} {t : Strand} (hc : s.cur = .strand k) (ht : s.strand? k = some t) (hm : s.mayIssue t = true) :
    ∃ c, s.OnCrew t c := by
  simp only [mayIssue, Bool.and_eq_true, decide_eq_true_eq] at hm
  obtain ⟨⟨⟨⟨hr, -⟩, hcrew⟩, -⟩, -⟩ := hm
  split at hcrew
  next c hc' => exact ⟨c, onStrand_of hc ht hr, hc'⟩
  · cases hcrew

theorem issueStrand_goesOn {k : Nat} {t : Strand} (hc : s.cur = .strand k) (ht : s.strand? k = some t) :
    GoesOn (s.issueStrand t exec) := by
  refine .ite .next (.ite .next (.ite .next (.ite .next (.ite .next ?_))))
  split
  · exact .next
  next hm =>
    obtain ⟨c, h⟩ := onCrew_of_mayIssue hc ht (by simpa using hm)
    exact .ite .next (.ite .next (withContext_goesOn fun s1 h1 => withContext_goesOn fun s2 h2 =>
      runNext_goesOn ((h1.trans h2).agented (.inl ⟨t, c, h⟩))))

theorem issue_goesOn (s : State) : GoesOn (s.issue exec) := by
  unfold issue
  split
  next hc =>
    split
    next t ht => exact issueStrand_goesOn hc ht
    · exact .next
  next i hc =>
    split
    next hr =>
      simp only [Bool.and_eq_true] at hr
      split
      · exact .next
      · exact runNext_goesOn (.inr ⟨i, hc, hr.1⟩)
    · exact .next

end State

/-! ### Turns and steps -/

theorem turn_goesOn (t : Turn) (s : State) : GoesOn (turn t s) := by
  cases t with
  | issue a => exact State.issue_goesOn _
  | event i =>
    rw [turn_event]
    cases he : i.encoded with
    | true => exact .next
    | false => exact exec_hardware _ he
  | _ => exact .next

theorem step_goesOn (s : State) : GoesOn (step s) := by
  unfold step
  split
  · exact turn_goesOn _ _
  · refine .ite (s.issue_goesOn) ?_
    obtain ⟨s', h⟩ := s.issue_goesOn
    rw [h]
    exact .next

end Sys2Proof.Machine

namespace Sys2Proof

open Machine

/-- Settles O6: only a guard that finds no agent in issue would end a run, and each is asked where one is. -/
theorem nothingEndsARun : Obligations.NothingEndsARun := by
  unfold Obligations.NothingEndsARun
  exact ⟨fun _ t c i h => exec_goesOn (.inl ⟨t, c, h⟩) i, fun _ j i h => exec_goesOn (.inr ⟨j, h⟩) i,
    fun _ _ p h => State.execLPart_goesOn h p, fun s _ he => exec_hardware s he, step_goesOn⟩

end Sys2Proof
end

section
/-! Loads (O18) fail as O27 and O40 do: what is asked of the memory that a load finds says nothing of a strand that stands in front of
another of its image in the list, and it is that strand's line that a read of the image writes back (R56). -/

namespace Sys2Proof

open Machine Refutations

set_option maxRecDepth 100000 in
/-- Refutes O18: `ld.bp` of 8 bytes at 0x3000, the image of a pre-empted strand, whose lines are written back first; the line that is
written is that of the first entry of this image, which is lost, and so the load finds poison and answers nothing. -/
theorem not_loads : ¬ Obligations.Loads := by
  unfold Obligations.Loads
  intro h
  obtain ⟨hld, -⟩ := h
  obtain ⟨s1, p, ⟨hfinds, -, hclean⟩⟩ := findsAtom_of_canLoad (s := twoOfOneImage) (va := twoOfOneImage.x 10 + (0 : BitVec 9).signExtend 64)
    (n := 8) (by decide)
  obtain ⟨⟨s', v, hload, -⟩, -⟩ := hld twoOfOneImage s1 [p] forker .i64 0 10 0 (show State.curStrand _ = _ by decide) hfinds (hclean rfl).1
  have hfails : isOk (twoOfOneImage.load (twoOfOneImage.x 10 + (0 : BitVec 9).signExtend 64) 8) = false := by decide
  rw [show twoOfOneImage.load (twoOfOneImage.x 10 + (0 : BitVec 9).signExtend 64) 8 = .ok s' v from hload] at hfails
  cases hfails

end Sys2Proof
end

section
/-! O54: the collective engine, the domain and the ports (13_collectives.md, 16_bringup.md). -/

namespace Sys2Proof.Machine

theorem ofBytes_toBytes (v n : Nat) : ofBytes (toBytes v n) = v % 256 ^ n := by
  induction n generalizing v with
  | zero => simp [toBytes, ofBytes, Nat.mod_one]
  | succ n ih =>
    rw [toBytes, ofBytes, ih, Nat.pow_succ, Nat.mul_comm (256 ^ n), Nat.mod_mul, BitVec.toNat_ofNat]

namespace State

variable {s s' : State}

/-! ### Writes of an engine -/

/-- An engine that opens bytes of no image, while no reduction is buffered, writes no memory. -/
theorem engOpen_keepsStrandsMem (hr : s.rbuf = []) {pa n : Nat} (hi : s.imagesAt pa n = []) (write : Bool) (who : Nat) :
    s.KeepsStrandsMem (s.engOpen pa n write who) := by
  have hpage (l : List Nat) {u : State} (hu : u.rbuf = []) :
      u.KeepsStrandsMem (l.foldl (fun s pg => (s.patOpen (pg * 4096)).classify Config.numCores (pg * 4096) 2) u) := by
    induction l generalizing u with
    | nil => exact ⟨rfl, rfl⟩
    | cons pg l ih =>
      rw [List.foldl_cons, patOpen_of_nil hu]
      exact (classify_keepsStrandsMem hu ..).trans (ih ((classify_spares u ..).mem hu).1)
  unfold engOpen
  rw [mergeLines_of_nil hr]
  have hopen := (hpage (dedup ((linesOf pa n).map fun l => l / 64)) hr).trans (dirTouch_keepsStrandsMem _ who pa n write)
  rw [imageRead_of_noImage (by unfold imagesAt; rw [hopen.1]; exact hi)]
  exact hopen

/-- What an engine writes to bytes of no image stands there, while no reduction is buffered. -/
theorem engWrite_bytesGet (hI : s.Inv) (hr : s.rbuf = []) {pa : Nat} {data : List Byte}
    (hw : s.raceWords pa data.length = []) (hi : s.imagesAt pa data.length = []) (tag who : Nat) :
    bytesGet (s.engWrite tag [{ addr := pa, len := data.length }] (data.map fun b => (b, false)) who).mem pa data.length
      = ofBytes data := by
  have hopen := engOpen_keepsStrandsMem hr hi true who
  have hdata : ((data.map fun b => (b, false)).take data.length).map (·.1) = data := by
    rw [List.take_of_length_le (by simp), List.map_map]
    exact List.map_id data
  have hrace : (s.engOpen pa data.length true who).raceWords pa data.length = [] :=
    (raceWords_congr (congrArg _ hopen.1) _ _).trans hw
  show bytesGet ((s.engOpen pa data.length true who).poke _ _ tag pa
    (((data.map fun b => (b, false)).take data.length).map (·.1))).mem pa data.length = _
  rw [hdata, poke_of_noRace hrace, pokeRaw_mem, hopen.2]
  exact bytesGet_byteListSet hI.1.1 pa data

/-! ### The end of a descriptor (R341, R353) -/

theorem descEnd_gone {d : Desc} (h : s.engHeld d.ends = false) (st : Nat) : kfind (·.id) (s.descEnd d st).descs d.id = none := by
  unfold descEnd
  rw [h]
  exact kfind_kdel _ d.id

theorem deliver_keepsStrandsMem (s : State) (p : Replica → Bool) : s.KeepsStrandsMem (s.deliver p) := .ite ⟨rfl, rfl⟩ ⟨rfl, rfl⟩

/-- A descriptor without a signal leaves the four bytes of its status, where they are of no image and no reduction is buffered. -/
theorem descEnd_status (hI : s.Inv) {d : Desc} (h : s.engHeld d.ends = false) (hsig : d.w 5 = 0) (hr : s.rbuf = [])
    (hw : s.raceWords d.stPa 4 = []) (hi : s.imagesAt d.stPa 4 = []) (st : Nat) :
    bytesGet (s.descEnd d st).mem d.stPa 4 = (neg st).toNat % 2 ^ 32 := by
  have hk : s.KeepsStrandsMem (s.drain (descTag d)) := s.deliver_keepsStrandsMem _
  have hwrite := engWrite_bytesGet (data := toBytes (neg st).toNat 4) (pa := d.stPa) (drain_inv (me := descTag d) hI)
    ((s.deliver_spares _).mem hr).1 ((raceWords_congr (congrArg _ hk.1) _ _).trans hw)
    (by unfold imagesAt; rw [hk.1]; exact hi) (descTag d) noCache
  rw [ofBytes_toBytes] at hwrite
  unfold descEnd
  rw [h]
  dsimp only
  rw [if_neg Bool.false_ne_true, if_pos hsig]
  exact hwrite

/-! ### Presence (R330, R336) -/

theorem present_setReg (hI : s.Inv) (p : Nat) (v : Word) :
    (s.setReg (linkBase + 8 * (p / 64)) v).present p = wbit v (p % 64) :=
  congrArg (wbit · (p % 64)) (reg_setReg_same hI (linkBase + 8 * (p / 64)) v)

/-- A package that leaves: its postings go and its bit is cleared, after all else. -/
theorem peerGone_eq (hI : s.Inv) {p : Nat} (hne : p ≠ s.pkgNum) (hp : s.present p = true)
    (hd : ∀ d ∈ s.descs, s.involves p d = true → s.engHeld d.ends = false) :
    ∃ u : State, u.Inv ∧ s.peerGone p =
      let v : State := { u with peerPosts := u.peerPosts.filter fun x => x.peer ≠ p }
      v.setReg (linkBase + 8 * (p / 64)) (v.reg (linkBase + 8 * (p / 64)) &&& ~~~(w64 (2 ^ (p % 64)))) := by
  have hfree : (s.descs.any fun d => s.involves p d && s.engHeld d.ends) = false := by
    simp only [List.any_eq_false, Bool.and_eq_true, not_and, Bool.not_eq_true]
    exact hd
  have hcond : ¬ (p = s.pkgNum || !s.present p || s.descs.any fun d => s.involves p d && s.engHeld d.ends) = true := by
    simp [hne, hp, hfree]
  unfold peerGone
  rw [if_neg hcond]
  extract_lets unread unmerged poisoned unsnooped undirected unlinked posted
  have hunmerged : unmerged.Inv := inv_same (unanswered_inv hI)
  have hpoisoned : poisoned.Inv := foldl_inv hunmerged fun s e hs => by
    have hdraw := drawBit_inv hs
    dsimp only [drawBit] at hdraw ⊢
    split
    · exact inv_same hdraw
    · exact hdraw
  have hundirected : undirected.Inv := inv_same (inv_same hpoisoned)
  have hunlinked : unlinked.Inv := foldl_inv hundirected fun s d hs => descBreak_inv hs
  exact ⟨unlinked, hunlinked, rfl⟩

theorem wbit_two_pow {j : Nat} (hj : j < 64) : wbit (w64 (2 ^ j)) j = true := by
  rw [wbit, w64, BitVec.getLsbD_ofNat, Nat.testBit_two_pow_self, decide_eq_true hj]
  rfl

theorem wbit_clear (v : Word) {j : Nat} (hj : j < 64) : wbit (v &&& ~~~(w64 (2 ^ j))) j = false := by
  have hbit := wbit_two_pow hj
  rw [wbit] at hbit ⊢
  simp only [BitVec.getLsbD_and, BitVec.getLsbD_not, hbit, Bool.not_true, Bool.and_false]

theorem wbit_set (v : Word) {j : Nat} (hj : j < 64) : wbit (v ||| w64 (2 ^ j)) j = true := by
  have hbit := wbit_two_pow hj
  rw [wbit] at hbit ⊢
  rw [BitVec.getLsbD_or, hbit, Bool.or_true]

theorem peerGone_leaves (hI : s.Inv) {p : Nat} (hne : p ≠ s.pkgNum) (hp : s.present p = true)
    (hd : ∀ d ∈ s.descs, s.involves p d = true → s.engHeld d.ends = false) :
    (s.peerGone p).present p = false ∧ ∀ x ∈ (s.peerGone p).peerPosts, x.peer ≠ p := by
  obtain ⟨u, hu, hgone⟩ := peerGone_eq hI hne hp hd
  rw [hgone]
  dsimp only
  refine ⟨?_, fun x hx => of_decide_eq_true (List.mem_filter.1 hx).2⟩
  rw [present_setReg (inv_same hu)]
  exact wbit_clear _ (by omega)

/-! ### Requests of devices (R30, R422) -/

theorem ioFault_of_off {r : DevReq} (h : (s.iommuAt r.port).fqOn = false) (dtf : Bool) (c : Nat) (v : Word) : s.ioFault r dtf c v = s := by
  unfold ioFault ioFaultPut
  simp [h]

/-- A fault that is not recorded: the device alone hears of it. -/
theorem ioRefuse_of_off {r : DevReq} (h : (s.iommuAt r.port).fqOn = false) (dtf : Bool) (c : Nat) (v : Word) :
    s.ioRefuse r dtf c v = s.ioSend r.port (.unsupported r.dev) := by
  unfold ioRefuse
  rw [ioFault_of_off h]

theorem ioTranslate_off {r : DevReq} (h : wbits (s.iommuAt r.port).ddtp 3 0 = 0) : s.ioTranslate r = (false, .trap s 256 0) := by
  unfold ioTranslate
  simp [h]

theorem ioTranslate_bare {r : DevReq} (h : wbits (s.iommuAt r.port).ddtp 3 0 = 1) (ht : r.translated = false) (hf : r.form = .access) :
    s.ioTranslate r = (false, .ok s (.bytes r.req.pa)) := by
  unfold ioTranslate
  simp [h, ht, hf]

theorem ioTranslate_context {r : DevReq} {w : List Nat} {t : State} (h : wbits (s.iommuAt r.port).ddtp 3 0 = 4)
    (hw : s.deviceOf r.port r.dev = .ok t w) : s.ioTranslate r = (decide (bits (w.getD 0 0) 4 4 = 1), t.ioUnder r w) := by
  unfold ioTranslate
  simp [h, hw]

theorem ioRequest_trap {r : DevReq} {dtf : Bool} {t : State} {c : Nat} {v : Word} (hf : r.form = .access)
    (h : s.ioTranslate r = (dtf, .trap t c v)) : s.ioRequest r = t.ioRefuse r dtf c v := by
  unfold ioRequest
  simp [hf, h]

/-- An address in a range of the map is no device's behind the other port. -/
theorem ioRequest_bytes {r : DevReq} {dtf : Bool} {t : State} {pa : Nat} (hf : r.form = .access)
    (h : s.ioTranslate r = (dtf, .ok t (.bytes pa))) (hpa : region pa ≠ .none) : s.ioRequest r = t.ioPerform r pa := by
  unfold ioRequest
  simp [hf, h, hpa]

/-- Where no context is asked for, a translation request is refused as an access is. -/
theorem ioRequest_off {r : DevReq} (h : wbits (s.iommuAt r.port).ddtp 3 0 = 0) (hq : (s.iommuAt r.port).fqOn = false)
    (hf : r.form ≠ .message) : s.ioRequest r = s.ioSend r.port (.unsupported r.dev) := by
  match hform : r.form with
  | .access => rw [ioRequest_trap hform (ioTranslate_off h), ioRefuse_of_off hq]
  | .translation =>
    have hask : s.ioTranslate { r with exec := false, req := { r.req with write := false } } = (false, .trap s 256 0) :=
      ioTranslate_off h
    unfold ioRequest ioAts
    dsimp only
    rw [if_pos hform, hask]
    simp [atsEmpty, ioRefuse_of_off hq]
  | .message => exact absurd hform hf

theorem region_of_memAt {pa : Nat} (h : s.memAt pa = .ok) : region pa ≠ .none := by
  intro hn
  simp [memAt, hn] at h

theorem ioPerform_mmio {r : DevReq} {pa : Nat} (h : region pa = .mmio) : s.ioPerform r pa = s.ioSend r.port (.unsupported r.dev) := by
  unfold ioPerform
  simp [memAt, h]

theorem ioPerform_write {r : DevReq} {pa : Nat} (hm : s.memAt pa = .ok) (hh : s.engHeld [{ addr := pa, len := r.len }] = false)
    (hw : r.req.write = true) :
    s.ioPerform r pa = (s.engWrite 0 [{ addr := pa, len := r.len }] (r.req.data.map fun b => (b, false)) (dmaCache r.port)).ioSend
      r.port (.done r.dev []) := by
  unfold ioPerform
  simp [hm, hh, hw]

/-- A request translated already, of a device that may not send such. -/
theorem ioUnder_translated {r : DevReq} {w : List Nat} (hw : bits (w.getD 0 0) 1 1 = 0) (ht : r.translated = true) :
    s.ioUnder r w = .trap s 260 0 := by
  unfold ioUnder
  dsimp only
  rw [if_pos (by rw [hw, ht]; rfl)]

end State

theorem exec_dmaRequest {r : DevReq} {s : State} (hlen : 0 < r.len) (hpage : r.req.pa % 4096 + r.len ≤ 4096) (hport : r.port < 2)
    (hready : s.ready (42 + r.port) = true) (hf : r.form ≠ .message) : exec (.dmaRequest r) s = .next (s.ioRequest r) := by
  show execDmaRequest r s = _
  unfold execDmaRequest
  rw [if_neg]
  simp [hready, hf]
  omega

/-- A peer's write to a region that allows it is served (R339). The remote word is a variable: it is never computed. -/
theorem exec_remoteWrite {s : State} {r : RemoteReq} {pa : Nat} {w : Word} (hk : r.kind = .write)
    (hw : w = w64 (s.pkgNum * 2 ^ 56 + r.region.toNat * 2 ^ 48 + r.off.toNat)) (hh : s.engHeld [s.regionPiece w] = false)
    (hat : (s.regionOpen w).remoteAt w r.len r.key.toNat 2 = .at pa)
    (hfree : (s.regionOpen w).engHeld [{ addr := pa, len := r.len }] = false) :
    exec (.remoteRegionAccess r) s = .next ((s.regionOpen w).engWrite 0 [{ addr := pa, len := r.len }]
      ((upto 0 r.len).map fun i => (r.data.getD i 0, r.marks.contains i))) := by
  show execRemoteRegionAccess r s = _
  unfold execRemoteRegionAccess
  rw [← hw, hk]
  simp only [hh, hat, hfree, Bool.false_eq_true, if_false]

/-- Present at the far end of a trained link. -/
theorem exec_peerPresent {s : State} (hI : s.Inv) {p : Nat} (hp : p < 256) (hports : (s.reg (linkBase + 0x20)).toNat = 0xFFF) :
    ∃ s' : State, exec (.peerPresent p) s = .next s' ∧ s'.present p = true ∧ s'.mem = s.mem := by
  refine ⟨s.peerHere p, congrArg Host.Outcome.next (if_pos hports), ?_⟩
  unfold State.peerHere
  rw [if_pos hp]
  exact ⟨(State.present_setReg hI p _).trans (State.wbit_set _ (by omega)), rfl⟩

/-- A gate that is looked at: it breaks on poison, opens on its value, and waits below it (R341, R438). -/
theorem exec_gateOpen {s : State} {d : Desc} {id : Nat} (hd : kfind (·.id) s.descs id = some d) (hb : d.begun = false) (he : d.ending = none)
    (hh : s.engHeld [{ addr := d.gatePa, len := 8 }] = false) :
    exec (.gateOpen id) s = .next (if s.poisonAt d.gatePa 8 then s.descBreak d
      else
        let s1 := s.engOpen d.gatePa 8 false
        if d.w 4 ≤ s1.peek 4 d.gatePa 8 then { s1 with descs := kmod (·.id) s1.descs id fun d => { d with begun := true } } else s1) := by
  show execGateOpen id s = _
  unfold execGateOpen
  simp [hd, hb, he, hh]

/-- A begun descriptor takes its turn (R344, R345). -/
theorem exec_descriptorComplete_begun {s : State} {d : Desc} {id : Nat} (hd : kfind (·.id) s.descs id = some d) (hb : d.begun = true)
    (he : d.ending = none) :
    exec (.descriptorComplete id) s = .next (if d.ring then (if d.matched then s.ringRun d else s) else s.descRun d) := by
  show execDescriptorComplete id s = _
  unfold execDescriptorComplete
  simp [hd, hb, he]

/-- The target of a descriptor is checked before any data moves: one that fails ends it (R339). -/
theorem State.descRun_bad {s : State} {d : Desc} {st : Nat} (hf : d.far = none) (hh : s.engHeld [s.regionPiece (w64 (d.w 2))] = false)
    (hbad : (s.regionOpen (w64 (d.w 2))).remoteAt (w64 (d.w 2)) d.bytes (bits (d.w 7) 63 32)
      (match d.op with | 1 => 2 | 2 => 1 | _ => 3) = .bad st) :
    s.descRun d = (s.regionOpen (w64 (d.w 2))).descEnd d st := by
  unfold State.descRun
  rw [hf]
  simp only [Option.isSome_none, Option.isNone_none, Bool.false_and, Bool.true_and, hh, Bool.false_eq_true, if_false, if_true]
  split
  case h_1 st' h => exact congrArg (State.descEnd _ d) (Remote.bad.inj (h.symm.trans hbad))
  case h_2 pa h => exact absurd (h.symm.trans hbad) nofun

end Sys2Proof.Machine

namespace Sys2Proof

open Machine

/-- Settles O54: each step is its function's one branch; a status and a device's bytes are read back through `engWrite_bytesGet`, and a
package that has left is absent because its bit is the last thing that `peerGone` clears. -/
theorem linkSteps : Obligations.LinkSteps := by
  intro s
  refine ⟨?_, ?_, ?_, ?_, ?_, ?_, fun p => rfl, ?_, fun p hp hports hI => exec_peerPresent hI hp hports, ?_, ?_, ?_, ?_⟩
  case refine_1 =>
    intro h g hg hrun hclosed hset hdue hpending
    show execGroupTimeout h s = _
    unfold execGroupTimeout
    simp only [hg, hrun, hclosed, hset, hdue, hpending, Bool.not_false, Bool.and_self, decide_true, ne_eq, not_false_eq_true, if_true]
  case refine_2 =>
    intro d id hd hb he hh
    refine ⟨fun hp => ?_, fun hp => ⟨fun hv => ?_, fun hv => ?_⟩⟩ <;> rw [exec_gateOpen hd hb he hh, hp]
    · rfl
    · exact congrArg Host.Outcome.next (if_pos hv)
    · exact congrArg Host.Outcome.next (if_neg (Nat.not_le.2 hv))
  case refine_3 =>
    intro d id st hd he
    have hid : d.id = id := (kfind_some hd).1
    refine ⟨?_, fun hh => ⟨hid ▸ State.descEnd_gone hh st, fun hI hsig hr hw hi => State.descEnd_status hI hh hsig hr hw hi st⟩⟩
    show execDescriptorComplete id s = _
    unfold execDescriptorComplete
    simp only [hd, he]
  case refine_4 =>
    intro d id hd hb he
    have hturn := exec_descriptorComplete_begun hd hb he
    refine ⟨fun hring => ?_, fun hring hfar hh st hbad => ?_, fun hring hm => ?_⟩ <;> rw [hturn, hring]
    · rfl
    · exact congrArg Host.Outcome.next (State.descRun_bad hfar hh hbad)
    · rw [hm]
      rfl
  case refine_5 =>
    intro d id hd hring hm he hset hdue
    show execRingMatchTimeout id s = _
    unfold execRingMatchTimeout
    simp [hd, hring, hm, he, hset, hdue]
  case refine_6 => exact fun r pa hk => exec_remoteWrite hk rfl
  case refine_7 =>
    intro p hI _ hne hp hd
    exact ⟨_, rfl, State.peerGone_leaves hI hne hp hd⟩
  case refine_8 =>
    intro p hp hport
    exact congrArg Host.Outcome.next (if_pos (by simp [hp, hport]))
  case refine_9 =>
    intro p e he
    show execSnoopFilterRecall p s = _
    unfold execSnoopFilterRecall
    rw [he]
  case refine_10 =>
    intro p r hw hdata hne hp hlo hhi hm hh
    show execPeerWindowAccess _ s = _
    unfold execPeerWindowAccess
    simp [hw, hne, hp, hlo, hhi, hm, hh, hdata]
  case refine_11 =>
    intro r hlen hpage hport hready hform refused written
    rw [exec_dmaRequest hlen hpage hport hready hform]
    refine ⟨fun hoff hq => congrArg Host.Outcome.next (State.ioRequest_off hoff hq hform), ?_, ?_, ?_⟩
    · intro hbare ht hf hmmio
      rw [State.ioRequest_bytes hf (State.ioTranslate_bare hbare ht hf) (by rw [hmmio]; decide), State.ioPerform_mmio hmmio]
    · intro hbare ht hf hw hm hh
      refine ⟨?_, fun hI hr hrace hi hdata => ?_⟩
      · rw [State.ioRequest_bytes hf (State.ioTranslate_bare hbare ht hf) (State.region_of_memAt hm), State.ioPerform_write hm hh hw]
      · rw [← hdata] at hrace hi ⊢
        have hwrite := State.engWrite_bytesGet hI hr hrace hi 0 (dmaCache r.port)
        rw [hdata] at hwrite ⊢
        exact hwrite
    · intro w t hmode hw hf
      refine ⟨fun hno ht hq => ?_, fun u pa hu hwrite hm hh => ?_⟩
      · rw [State.ioRequest_trap hf ((State.ioTranslate_context hmode hw).trans (by rw [State.ioUnder_translated hno ht])),
          State.ioRefuse_of_off hq]
      · rw [State.ioRequest_bytes hf ((State.ioTranslate_context hmode hw).trans (by rw [hu])) (State.region_of_memAt hm),
          State.ioPerform_write hm hh hwrite]

end Sys2Proof
end
